-- ==== Sys2Proof/Word.lean ====
section
/-! DEFINITION. Word.lean: the word types of the NM-960 and the operand types of its instructions. -/
namespace Sys2Proof

abbrev Word := BitVec 64
abbrev Half := BitVec 16
abbrev Byte := BitVec 8
/-- A closure handle (R182). -/
abbrev Handle := BitVec 32
/-- A core coordinate d.r.c: die [12:8], row [7:4], column [3:0] (R2). -/
abbrev Coord := BitVec 13
/-- A vector register number. -/
abbrev VReg := BitVec 5
/-- A mask register number, 0 for m0 (unmasked). -/
abbrev MReg := BitVec 3
/-- A closure register number. -/
abbrev KReg := BitVec 3
/-- A literal 3-bit field (channel, port, format, mode, limit, count). -/
abbrev Lit3 := BitVec 3

/-- What a g field names (R40): a general register, or a special code. -/
inductive GReg where
  | g (n : BitVec 5)
  | sp (code : BitVec 5)
  deriving DecidableEq, Repr

/-- The two streams of a slot (R104). -/
inductive Side where
  | exec
  | acc
  deriving DecidableEq, Repr

/-- An issuing agent of a core: a stream of a slot, or an Ibex unit (R104, R260). -/
inductive UnitId where
  | stream (slot : Fin 4) (side : Side)
  | ibex (n : Fin 2)
  deriving DecidableEq, Repr

structure Agent where
  core : Coord
  unit : UnitId
  deriving DecidableEq, Repr

end Sys2Proof
end

