-- ==== Sys2Proof/Syntax.lean ====
section
/-! DEFINITION. Syntax.lean: the one inductive Instr, a constructor for every row of the opcode table (R33, R44, and
the events of file 95). An instruction constructor holds its decoded operands: immediates at the width that the most
XI prefixes give (R39), `vm` the mask register of XV. An event constructor names the agent, message or value it is about. -/
namespace Sys2Proof

/-- An access of the host to BAR0: its offset and how many bytes it covers (R380). -/
structure BarAccess where
  offset : Nat
  size : Nat
  deriving DecidableEq, Repr

inductive Instr where
  | add (a : GReg) (b : GReg) (c : GReg)
  | sub (a : GReg) (b : GReg) (c : GReg)
  | and (a : GReg) (b : GReg) (c : GReg)
  | or (a : GReg) (b : GReg) (c : GReg)
  | xor (a : GReg) (b : GReg) (c : GReg)
  | sll (a : GReg) (b : GReg) (c : GReg)
  | srl (a : GReg) (b : GReg) (c : GReg)
  | sra (a : GReg) (b : GReg) (c : GReg)
  | addi (a : GReg) (b : GReg) (imm : BitVec 30)
  | li (a : GReg) (imm : BitVec 33)
  | adh (a : GReg) (imm : BitVec 20)
  | adpc (a : GReg) (imm : BitVec 20)
  | ldB (a : GReg) (b : GReg) (imm : BitVec 28)
  | ldH (a : GReg) (b : GReg) (imm : BitVec 28)
  | ldW (a : GReg) (b : GReg) (imm : BitVec 28)
  | ldD (a : GReg) (b : GReg) (imm : BitVec 28)
  | stB (a : GReg) (b : GReg) (imm : BitVec 28)
  | stH (a : GReg) (b : GReg) (imm : BitVec 28)
  | stW (a : GReg) (b : GReg) (imm : BitVec 28)
  | stD (a : GReg) (b : GReg) (imm : BitVec 28)
  | brEq (a : GReg) (b : GReg) (disp : BitVec 15)
  | brNe (a : GReg) (b : GReg) (disp : BitVec 15)
  | brLt (a : GReg) (b : GReg) (disp : BitVec 15)
  | brGe (a : GReg) (b : GReg) (disp : BitVec 15)
  | brLtu (a : GReg) (b : GReg) (disp : BitVec 15)
  | brGeu (a : GReg) (b : GReg) (disp : BitVec 15)
  | brPop (disp : BitVec 15)
  | j (disp : BitVec 23)
  | call (disp : BitVec 23)
  | jr (a : GReg)
  | callr (a : GReg)
  | ret (a : GReg)
  | apply (k : KReg)
  | padJ
  | padC
  | padK
  | padN
  | padF
  | padT
  | vadd (a : VReg) (b : VReg) (c : VReg) (vm : MReg)
  | vsub (a : VReg) (b : VReg) (c : VReg) (vm : MReg)
  | vmul (a : VReg) (b : VReg) (c : VReg) (vm : MReg)
  | vmacc (a : VReg) (b : VReg) (c : VReg) (vm : MReg)
  | vmin (a : VReg) (b : VReg) (c : VReg) (vm : MReg)
  | vmax (a : VReg) (b : VReg) (c : VReg) (vm : MReg)
  | vand (a : VReg) (b : VReg) (c : VReg) (vm : MReg)
  | vor (a : VReg) (b : VReg) (c : VReg) (vm : MReg)
  | vld (a : VReg) (b : GReg) (vm : MReg)
  | vlds (a : VReg) (b : GReg) (c : GReg) (vm : MReg)
  | vldx (a : VReg) (b : GReg) (c : VReg) (vm : MReg)
  | vldff (a : VReg) (b : GReg) (vm : MReg)
  | vst (a : VReg) (b : GReg) (vm : MReg)
  | vsts (a : VReg) (b : GReg) (c : GReg) (vm : MReg)
  | vstx (a : VReg) (b : GReg) (c : VReg) (vm : MReg)
  | wait (ld : Lit3) (st : Lit3) (bk : Lit3) (mx : Lit3)
  | mul (a : GReg) (b : GReg) (c : GReg)
  | mulh (a : GReg) (b : GReg) (c : GReg)
  | mulhu (a : GReg) (b : GReg) (c : GReg)
  | mulhsu (a : GReg) (b : GReg) (c : GReg)
  | div (a : GReg) (b : GReg) (c : GReg)
  | divu (a : GReg) (b : GReg) (c : GReg)
  | rem (a : GReg) (b : GReg) (c : GReg)
  | remu (a : GReg) (b : GReg) (c : GReg)
  | slt (a : GReg) (b : GReg) (c : GReg)
  | sltu (a : GReg) (b : GReg) (c : GReg)
  | min (a : GReg) (b : GReg) (c : GReg)
  | max (a : GReg) (b : GReg) (c : GReg)
  | minu (a : GReg) (b : GReg) (c : GReg)
  | maxu (a : GReg) (b : GReg) (c : GReg)
  | andn (a : GReg) (b : GReg) (c : GReg)
  | orn (a : GReg) (b : GReg) (c : GReg)
  | clz (a : GReg) (b : GReg)
  | ctz (a : GReg) (b : GReg)
  | popc (a : GReg) (b : GReg)
  | rev8 (a : GReg) (b : GReg)
  | sextB (a : GReg) (b : GReg)
  | sextH (a : GReg) (b : GReg)
  | sextW (a : GReg) (b : GReg)
  | zextW (a : GReg) (b : GReg)
  | rol (a : GReg) (b : GReg) (c : GReg)
  | ror (a : GReg) (b : GReg) (c : GReg)
  | andi (a : GReg) (b : GReg) (imm : BitVec 27)
  | ori (a : GReg) (b : GReg) (imm : BitVec 27)
  | xori (a : GReg) (b : GReg) (imm : BitVec 27)
  | slli (a : GReg) (b : GReg) (imm : BitVec 27)
  | srli (a : GReg) (b : GReg) (imm : BitVec 27)
  | srai (a : GReg) (b : GReg) (imm : BitVec 27)
  | slti (a : GReg) (b : GReg) (imm : BitVec 27)
  | sltiu (a : GReg) (b : GReg) (imm : BitVec 27)
  | muli (a : GReg) (b : GReg) (imm : BitVec 27)
  | rori (a : GReg) (b : GReg) (imm : BitVec 27)
  | lduB (a : GReg) (b : GReg) (imm : BitVec 27)
  | lduH (a : GReg) (b : GReg) (imm : BitVec 27)
  | lduW (a : GReg) (b : GReg) (imm : BitVec 27)
  | amoaddW (a : GReg) (b : GReg) (c : GReg)
  | amoaddD (a : GReg) (b : GReg) (c : GReg)
  | amoswapW (a : GReg) (b : GReg) (c : GReg)
  | amoswapD (a : GReg) (b : GReg) (c : GReg)
  | amoandD (a : GReg) (b : GReg) (c : GReg)
  | amoorD (a : GReg) (b : GReg) (c : GReg)
  | amomaxD (a : GReg) (b : GReg) (c : GReg)
  | amominD (a : GReg) (b : GReg) (c : GReg)
  | amocasD (a : GReg) (b : GReg) (c : GReg)
  | gldB (a : GReg) (b : GReg) (imm : BitVec 27)
  | gldH (a : GReg) (b : GReg) (imm : BitVec 27)
  | gldW (a : GReg) (b : GReg) (imm : BitVec 27)
  | gldD (a : GReg) (b : GReg) (imm : BitVec 27)
  | gstB (a : GReg) (b : GReg) (imm : BitVec 27)
  | gstH (a : GReg) (b : GReg) (imm : BitVec 27)
  | gstW (a : GReg) (b : GReg) (imm : BitVec 27)
  | gstD (a : GReg) (b : GReg) (imm : BitVec 27)
  | gamoAdd (a : GReg) (b : GReg) (c : GReg)
  | gamoSwap (a : GReg) (b : GReg) (c : GReg)
  | gamoAnd (a : GReg) (b : GReg) (c : GReg)
  | gamoOr (a : GReg) (b : GReg) (c : GReg)
  | gamoMax (a : GReg) (b : GReg) (c : GReg)
  | gamoMin (a : GReg) (b : GReg) (c : GReg)
  | gamoCas (a : GReg) (b : GReg) (c : GReg)
  | pref (b : GReg) (c : GReg)
  | mscfl (b : GReg) (c : GReg)
  | fadd (a : GReg) (b : GReg) (c : GReg)
  | fsub (a : GReg) (b : GReg) (c : GReg)
  | fmul (a : GReg) (b : GReg) (c : GReg)
  | fdiv (a : GReg) (b : GReg) (c : GReg)
  | fsqrt (a : GReg) (b : GReg)
  | fmin (a : GReg) (b : GReg) (c : GReg)
  | fmax (a : GReg) (b : GReg) (c : GReg)
  | ffma (a : GReg) (b : GReg) (c : GReg)
  | fneg (a : GReg) (b : GReg)
  | fabs (a : GReg) (b : GReg)
  | feq (a : GReg) (b : GReg) (c : GReg)
  | flt (a : GReg) (b : GReg) (c : GReg)
  | fle (a : GReg) (b : GReg) (c : GReg)
  | fclass (a : GReg) (b : GReg)
  | fcvtWS (a : GReg) (b : GReg)
  | fcvtLS (a : GReg) (b : GReg)
  | fcvtSW (a : GReg) (b : GReg)
  | fcvtSL (a : GReg) (b : GReg)
  | fcvtWuS (a : GReg) (b : GReg)
  | fcvtSWu (a : GReg) (b : GReg)
  | fcvtBfS (a : GReg) (b : GReg)
  | fcvtSBf (a : GReg) (b : GReg)
  | fcvtHS (a : GReg) (b : GReg)
  | fcvtSH (a : GReg) (b : GReg)
  | vxor (a : VReg) (b : VReg) (c : VReg) (vm : MReg)
  | vsll (a : VReg) (b : VReg) (c : VReg) (vm : MReg)
  | vsrl (a : VReg) (b : VReg) (c : VReg) (vm : MReg)
  | vsra (a : VReg) (b : VReg) (c : VReg) (vm : MReg)
  | vmulh (a : VReg) (b : VReg) (c : VReg) (vm : MReg)
  | vmulhu (a : VReg) (b : VReg) (c : VReg) (vm : MReg)
  | vminu (a : VReg) (b : VReg) (c : VReg) (vm : MReg)
  | vmaxu (a : VReg) (b : VReg) (c : VReg) (vm : MReg)
  | vaddVx (a : VReg) (b : VReg) (c : GReg) (vm : MReg)
  | vsubVx (a : VReg) (b : VReg) (c : GReg) (vm : MReg)
  | vmulVx (a : VReg) (b : VReg) (c : GReg) (vm : MReg)
  | vandVx (a : VReg) (b : VReg) (c : GReg) (vm : MReg)
  | vorVx (a : VReg) (b : VReg) (c : GReg) (vm : MReg)
  | vxorVx (a : VReg) (b : VReg) (c : GReg) (vm : MReg)
  | vsllVx (a : VReg) (b : VReg) (c : GReg) (vm : MReg)
  | vsrlVx (a : VReg) (b : VReg) (c : GReg) (vm : MReg)
  | vmseq (a : MReg) (b : VReg) (c : VReg) (vm : MReg)
  | vmsne (a : MReg) (b : VReg) (c : VReg) (vm : MReg)
  | vmslt (a : MReg) (b : VReg) (c : VReg) (vm : MReg)
  | vmsltu (a : MReg) (b : VReg) (c : VReg) (vm : MReg)
  | vmsle (a : MReg) (b : VReg) (c : VReg) (vm : MReg)
  | vmsleu (a : MReg) (b : VReg) (c : VReg) (vm : MReg)
  | vsadd (a : VReg) (b : VReg) (c : VReg) (vm : MReg)
  | vsaddu (a : VReg) (b : VReg) (c : VReg) (vm : MReg)
  | vssub (a : VReg) (b : VReg) (c : VReg) (vm : MReg)
  | vssubu (a : VReg) (b : VReg) (c : VReg) (vm : MReg)
  | vmvVx (a : VReg) (c : GReg) (vm : MReg)
  | vmvXs (a : GReg) (b : VReg)
  | vmvSx (a : VReg) (c : GReg)
  | vid (a : VReg) (vm : MReg)
  | vfdiv (a : VReg) (b : VReg) (c : VReg) (vm : MReg)
  | vfsqrt (a : VReg) (b : VReg) (vm : MReg)
  | vfnmacc (a : VReg) (b : VReg) (c : VReg) (vm : MReg)
  | vfmsac (a : VReg) (b : VReg) (c : VReg) (vm : MReg)
  | vfneg (a : VReg) (b : VReg) (vm : MReg)
  | vfabs (a : VReg) (b : VReg) (vm : MReg)
  | vfaddVf (a : VReg) (b : VReg) (c : GReg) (vm : MReg)
  | vfsubVf (a : VReg) (b : VReg) (c : GReg) (vm : MReg)
  | vfmulVf (a : VReg) (b : VReg) (c : GReg) (vm : MReg)
  | vfmaccVf (a : VReg) (b : VReg) (c : GReg) (vm : MReg)
  | vfminVf (a : VReg) (b : VReg) (c : GReg) (vm : MReg)
  | vfmaxVf (a : VReg) (b : VReg) (c : GReg) (vm : MReg)
  | vmfeq (a : MReg) (b : VReg) (c : VReg) (vm : MReg)
  | vmfne (a : MReg) (b : VReg) (c : VReg) (vm : MReg)
  | vmflt (a : MReg) (b : VReg) (c : VReg) (vm : MReg)
  | vmfle (a : MReg) (b : VReg) (c : VReg) (vm : MReg)
  | vfcvtXF (a : VReg) (b : VReg) (vm : MReg)
  | vfcvtFX (a : VReg) (b : VReg) (vm : MReg)
  | vfwcvt (a : VReg) (b : VReg) (vm : MReg)
  | vfncvt (a : VReg) (b : VReg) (vm : MReg)
  | vslideup (a : VReg) (b : VReg) (c : GReg) (vm : MReg)
  | vslidedn (a : VReg) (b : VReg) (c : GReg) (vm : MReg)
  | vrgather (a : VReg) (b : VReg) (c : VReg) (vm : MReg)
  | vcompress (a : VReg) (b : VReg) (c : MReg)
  | vmerge (a : VReg) (b : VReg) (c : VReg) (vm : MReg)
  | vredsum (a : GReg) (b : VReg) (c : GReg) (vm : MReg)
  | vredmax (a : GReg) (b : VReg) (c : GReg) (vm : MReg)
  | vredmin (a : GReg) (b : VReg) (c : GReg) (vm : MReg)
  | vredand (a : GReg) (b : VReg) (c : GReg) (vm : MReg)
  | vredor (a : GReg) (b : VReg) (c : GReg) (vm : MReg)
  | vfredsum (a : GReg) (b : VReg) (c : GReg) (vm : MReg)
  | vfredmax (a : GReg) (b : VReg) (c : GReg) (vm : MReg)
  | vfredmin (a : GReg) (b : VReg) (c : GReg) (vm : MReg)
  | vmand (a : MReg) (b : MReg) (c : MReg)
  | vmor (a : MReg) (b : MReg) (c : MReg)
  | vmxor (a : MReg) (b : MReg) (c : MReg)
  | vmnot (a : MReg) (b : MReg)
  | vcpop (a : GReg) (b : MReg) (vm : MReg)
  | vfirst (a : GReg) (b : MReg) (vm : MReg)
  | setvl (a : GReg) (b : GReg) (t : BitVec 15)
  | setvlr (a : GReg) (b : GReg) (c : GReg)
  | vcvtSat (a : VReg) (b : VReg) (f : Lit3) (vm : MReg)
  | vcvtNsat (a : VReg) (b : VReg) (f : Lit3) (vm : MReg)
  | vcvtW (a : VReg) (b : VReg) (f : Lit3) (vm : MReg)
  | vpack (a : VReg) (b : VReg) (mode : Lit3) (vm : MReg)
  | vunpk (a : VReg) (b : VReg) (mode : Lit3) (vm : MReg)
  | vamoOr (a : VReg) (b : GReg) (c : VReg) (vm : MReg)
  | vamoAnd (a : VReg) (b : GReg) (c : VReg) (vm : MReg)
  | vamoAdd (a : VReg) (b : GReg) (c : VReg) (vm : MReg)
  | vamoMax (a : VReg) (b : GReg) (c : VReg) (vm : MReg)
  | vamoMin (a : VReg) (b : GReg) (c : VReg) (vm : MReg)
  | ago (b : GReg)
  | aend
  | movq (a : GReg) (b : GReg) (n : Lit3)
  | qlevel (a : GReg) (b : GReg)
  | pcfg (p : Lit3) (b : GReg)
  | msgPut (a : GReg) (b : GReg) (c : GReg)
  | msgGet (a : GReg) (b : GReg) (c : GReg)
  | msgAmo (a : GReg) (b : GReg) (c : GReg)
  | msgSig (a : GReg) (b : GReg)
  | task (b : GReg) (c : GReg)
  | tret
  | tsusp (k : KReg)
  | tqcfg (a : GReg) (b : GReg)
  | tqdepth (a : GReg)
  | capt (k : KReg) (b : GReg) (c : BitVec 15)
  | captRef (k : KReg) (b : GReg)
  | kdup (k : KReg) (b : GReg)
  | kdrop (k : KReg)
  | kld (a : GReg) (k : KReg) (n : BitVec 15)
  | kst (k : KReg) (b : GReg) (n : BitVec 15)
  | frame (a : GReg) (b : GReg)
  | unframe (a : GReg)
  | mmaE4m3 (a : GReg) (b : GReg) (c : GReg)
  | mmaE5m2 (a : GReg) (b : GReg) (c : GReg)
  | mmaE3m2 (a : GReg) (b : GReg) (c : GReg)
  | mmaE2m3 (a : GReg) (b : GReg) (c : GReg)
  | mmaE2m1 (a : GReg) (b : GReg) (c : GReg)
  | mmaBf16 (a : GReg) (b : GReg) (c : GReg)
  | mmaF16 (a : GReg) (b : GReg) (c : GReg)
  | mmaE4m3e5m2 (a : GReg) (b : GReg) (c : GReg)
  | mmaE5m2e4m3 (a : GReg) (b : GReg) (c : GReg)
  | mmaE4m3Mc (a : GReg) (b : GReg) (c : GReg)
  | mmaE5m2Mc (a : GReg) (b : GReg) (c : GReg)
  | mmaE3m2Mc (a : GReg) (b : GReg) (c : GReg)
  | mmaE2m3Mc (a : GReg) (b : GReg) (c : GReg)
  | mmaE2m1Mc (a : GReg) (b : GReg) (c : GReg)
  | mmaBf16Mc (a : GReg) (b : GReg) (c : GReg)
  | mmaF16Mc (a : GReg) (b : GReg) (c : GReg)
  | mmaE4m3e5m2Mc (a : GReg) (b : GReg) (c : GReg)
  | mmaE5m2e4m3Mc (a : GReg) (b : GReg) (c : GReg)
  | mmaa
  | scacc (b : GReg) (c : GReg)
  | accz
  | accswap
  | acfg (b : GReg)
  | accrdR (a : VReg) (b : GReg) (c : GReg) (vm : MReg)
  | accwrR (a : VReg) (b : GReg) (c : GReg) (vm : MReg)
  | accrdC (a : VReg) (b : GReg) (c : GReg) (vm : MReg)
  | accwrC (a : VReg) (b : GReg) (c : GReg) (vm : MReg)
  | accst (a : GReg) (b : GReg) (f : Lit3)
  | bkAdd (a : GReg) (b : GReg) (c : GReg)
  | bkMul (a : GReg) (b : GReg) (c : GReg)
  | bkFma (a : GReg) (b : GReg) (c : GReg)
  | bkMax (a : GReg) (b : GReg) (c : GReg)
  | bkMin (a : GReg) (b : GReg) (c : GReg)
  | bkScl (a : GReg) (b : GReg) (c : GReg)
  | bkOr (a : GReg) (b : GReg) (c : GReg)
  | bkAnd (a : GReg) (b : GReg) (c : GReg)
  | bkFill (a : GReg) (b : GReg) (c : GReg)
  | bkRsum (a : GReg) (b : GReg) (c : GReg)
  | bkRmax (a : GReg) (b : GReg) (c : GReg)
  | bkExps (a : GReg) (b : GReg) (c : GReg)
  | bkCvt (a : GReg) (b : GReg)
  | bkAddV (a : GReg) (b : GReg) (c : VReg)
  | bkMulV (a : GReg) (b : GReg) (c : VReg)
  | bkFmaV (a : GReg) (b : GReg) (c : VReg)
  | bkMaxV (a : GReg) (b : GReg) (c : VReg)
  | bkMinV (a : GReg) (b : GReg) (c : VReg)
  | bkSclV (a : GReg) (b : GReg) (c : VReg)
  | bkOrV (a : GReg) (b : GReg) (c : VReg)
  | bkAndV (a : GReg) (b : GReg) (c : VReg)
  | bkFillV (a : GReg) (b : GReg) (c : VReg)
  | bkAddR (a : GReg) (b : GReg) (c : GReg)
  | bkMulR (a : GReg) (b : GReg) (c : GReg)
  | bkFmaR (a : GReg) (b : GReg) (c : GReg)
  | bkMaxR (a : GReg) (b : GReg) (c : GReg)
  | bkMinR (a : GReg) (b : GReg) (c : GReg)
  | bkOrR (a : GReg) (b : GReg) (c : GReg)
  | bkAndR (a : GReg) (b : GReg) (c : GReg)
  | cpy (ch : Lit3) (b : GReg) (c : GReg)
  | cpg (ch : Lit3) (b : GReg) (c : GReg)
  | cpwait (ch : Lit3) (b : GReg)
  | cpstat (a : GReg) (ch : Lit3)
  | fenceCore
  | fenceCl
  | fenceDie
  | fencePkg
  | fenceSys
  | barInit (b : GReg) (c : GReg)
  | barArr (a : GReg) (b : GReg)
  | barExp (b : GReg) (c : GReg)
  | barWait (b : GReg) (c : GReg)
  | sstep
  | srd (a : GReg) (csr : BitVec 15)
  | swr (b : GReg) (csr : BitVec 15)
  | eret
  | trap (n : BitVec 15)
  | brk
  | halt
  | fenceI
  | wqry (b : GReg) (c : GReg)
  | widF (a : GReg) (b : GReg) (n : Lit3)
  | pageattrWrite (v : Word)
  | envbaseWrite (v : Word)
  | frbaseWrite (v : Word)
  | mbbaseWrite (v : Word)
  | tqbaseWrite (v : Word)
  | tqcfgWrite (v : Word)
  | gdeadWrite (v : Word)
  | fcsrWrite (v : Word)
  | nearDispatch (c : Coord) (u : Fin 2)
  | slotTakesWork (c : Coord) (slot : Fin 4)
  | stealRequest (c : Coord) (slot : Fin 4)
  | steal (c : Coord) (slot : Fin 4)
  | bufferDrain (c : Coord) (slot : Fin 4)
  | deferredLoadFaultReport (c : Coord) (slot : Fin 4)
  | globalLoadData (c : Coord) (slot : Fin 4)
  | globalWriteAck (id : Nat)
  | globalAccess (id : Nat)
  | clusterWindowAccess (id : Nat)
  | portWord (id : Nat)
  | put (id : Nat)
  | getRequest (id : Nat)
  | getData (id : Nat)
  | atomicRequest (id : Nat)
  | atomicReply (id : Nat)
  | signal (id : Nat)
  | acknowledgment (id : Nat)
  | taskRecordArrival (id : Nat)
  | closureOperation (id : Nat)
  | workQuery (id : Nat)
  | workAnswer (id : Nat)
  | wqryRecordEnqueue (c : Coord)
  | slateStealControl (id : Nat)
  | lossNotice (id : Nat) (applied : Bool)
  | postedTimeout (c : Coord) (slot : Fin 4) (seq : Nat)
  | mailboxAppend (c : Coord)
  | bankLineUpdate (c : Coord) (bank : Fin 16)
  | bankCommandRetire (c : Coord)
  | vamoRetire (c : Coord)
  | matrixOpRetire (c : Coord)
  | mcHoldExpiry (c : Coord) (line : Nat)
  | copyTransferComplete (c : Coord) (ch : Fin 4)
  | completionRecordEnqueue (c : Coord) (ch : Fin 4)
  | accumulatorRestore (c : Coord)
  | preempt (l : Nat)
  | resume (l : Nat)
  | launchRecordCheck (q : BitVec 10)
  | launchStart (q : BitVec 10)
  | reelForward (l : Nat) (src : Coord) (dst : Coord)
  | launchComplete (l : Nat)
  | superstepRelease (l : Nat) (die : Nat)
  | clapperColumnRelease (l : Nat) (die : Nat)
  | clapperEstimateRefresh
  | heatMapRefresh
  | patrolScrub (c : Coord) (addr : Nat)
  | parityError (c : Coord) (slot : Fin 4) (queue : Bool)
  | clockStretch (die : Nat)
  | drowsyEntry (c : Coord)
  | submit (q : BitVec 10) (offset : Nat) (bytes : List Byte)
  | queueConfigWrite (q : BitVec 10) (hi : Bool) (v : Word)
  | shootDown (v : Word)
  | stationShootDownAck (station : Fin 32)
  | connectionWrite (n : BitVec 12) (w : Fin 4) (v : Word)
  | devcmdHalt (v : Word)
  | devcmdResume (v : Word)
  | devcmdEndTask (v : Word)
  | devcmdApplyProfile (v : Word)
  | devcmdAbortLaunch (v : Word)
  | hostRegisterWrite (a : BarAccess) (v : Word)
  | hostMemWrite (addr : Nat) (bytes : List Byte)
  | hostMemRead (addr : Nat) (n : Nat)
  | hostLinkDown
  | hostLinkHoldTimeout (id : Nat)
  | hostLinkTrained
  | inboundSend (conn : BitVec 12) (bytes : List Byte)
  | inboundRma (conn : BitVec 12) (addr : Word) (write : Bool) (bytes : List Byte)
  | attestation (nonce : List Byte)
  | firmwareLoad (image : List Byte) (signature : List Byte)
  | powerUp
  | powerDown
  | decodeTrap (cause : BitVec 9) (sub : BitVec 7) (pos : Nat)
  | clusterWindowAnswer (id : Nat)
  | closureAnswer (id : Nat)
  | copyPiece (c : Coord) (ch : Fin 4)
  | anchorViewAccess (id : Nat)
  | portLinkTrained (port : Fin 16) (up : Bool)
  deriving DecidableEq, Repr

end Sys2Proof
end

