-- ==== Sys2Proof/WellFormed.lean ====
section
/-! DEFINITION. WellFormed.lean: the instructions that have words (R33 to R45): every special code is one that R40
defines, a destination is one that R40 lets be written (the destination
of a GLD, a GAMO or a MOVQ has a fate of its own, R137, R153), and an instruction extends its g fields or its v fields, not
both (R38). Events have no words. -/
namespace Sys2Proof

/-- A special code that R40 defines. -/
def codeOk (c : BitVec 5) : Bool :=
  let n := c.toNat
  decide (n ≤ 6 ∨ (8 ≤ n ∧ n ≤ 11) ∨ (16 ≤ n ∧ n ≤ 23))
/-- A special code that R40 lets be written. -/
def codeWr (c : BitVec 5) : Bool :=
  let n := c.toNat
  decide ((2 ≤ n ∧ n ≤ 5) ∨ (8 ≤ n ∧ n ≤ 11))
/-- A source operand. -/
def rOk : GReg → Bool
  | .g _ => true
  | .sp c => codeOk c
/-- A destination operand. -/
def wOk : GReg → Bool
  | .g _ => true
  | .sp c => codeWr c
/-- MOVQ's destination: the mailbox is refused as any code that R40 lets no instruction write; for a g register, l0, l1 and a
k register its own entry has a fate (R153). -/
def qOk : GReg → Bool
  | .g _ => true
  | .sp c => codeOk c && c != 6
/-- The operand needs XR (R36). -/
def needsXr : GReg → Bool
  | .g n => decide (7 < n.toNat)
  | .sp _ => true
/-- R38: not both a g operand that needs XR and a v operand, or a mask, that needs XV. -/
def notBoth (gs : List GReg) (vs : List VReg) (vm : MReg) : Bool :=
  !(gs.any needsXr && (vs.any (fun v => decide (7 < v.toNat)) || vm != 0))

def wellFormed : Instr → Bool
  | .add a b c => wOk a && rOk b && rOk c
  | .sub a b c => wOk a && rOk b && rOk c
  | .and a b c => wOk a && rOk b && rOk c
  | .or a b c => wOk a && rOk b && rOk c
  | .xor a b c => wOk a && rOk b && rOk c
  | .sll a b c => wOk a && rOk b && rOk c
  | .srl a b c => wOk a && rOk b && rOk c
  | .sra a b c => wOk a && rOk b && rOk c
  | .addi a b _ => wOk a && rOk b
  | .li a _ => wOk a
  | .adh a _ => wOk a
  | .adpc a _ => wOk a
  | .ldB a b _ => wOk a && rOk b
  | .ldH a b _ => wOk a && rOk b
  | .ldW a b _ => wOk a && rOk b
  | .ldD a b _ => wOk a && rOk b
  | .stB a b _ => rOk a && rOk b
  | .stH a b _ => rOk a && rOk b
  | .stW a b _ => rOk a && rOk b
  | .stD a b _ => rOk a && rOk b
  | .brEq a b _ => rOk a && rOk b
  | .brNe a b _ => rOk a && rOk b
  | .brLt a b _ => rOk a && rOk b
  | .brGe a b _ => rOk a && rOk b
  | .brLtu a b _ => rOk a && rOk b
  | .brGeu a b _ => rOk a && rOk b
  | .brPop _ => true
  | .j _ => true
  | .call _ => true
  | .jr a => rOk a
  | .callr a => rOk a
  | .ret a => rOk a
  | .apply _ => true
  | .padJ => true
  | .padC => true
  | .padK => true
  | .padN => true
  | .padF => true
  | .padT => true
  | .vadd _ _ _ _ => true
  | .vsub _ _ _ _ => true
  | .vmul _ _ _ _ => true
  | .vmacc _ _ _ _ => true
  | .vmin _ _ _ _ => true
  | .vmax _ _ _ _ => true
  | .vand _ _ _ _ => true
  | .vor _ _ _ _ => true
  | .vld a b vm => rOk b && notBoth [b] [a] vm
  | .vlds a b c vm => rOk b && rOk c && notBoth [b, c] [a] vm
  | .vldx a b c vm => rOk b && notBoth [b] [a, c] vm
  | .vldff a b vm => rOk b && notBoth [b] [a] vm
  | .vst a b vm => rOk b && notBoth [b] [a] vm
  | .vsts a b c vm => rOk b && rOk c && notBoth [b, c] [a] vm
  | .vstx a b c vm => rOk b && notBoth [b] [a, c] vm
  | .wait _ _ _ _ => true
  | .mul a b c => wOk a && rOk b && rOk c
  | .mulh a b c => wOk a && rOk b && rOk c
  | .mulhu a b c => wOk a && rOk b && rOk c
  | .mulhsu a b c => wOk a && rOk b && rOk c
  | .div a b c => wOk a && rOk b && rOk c
  | .divu a b c => wOk a && rOk b && rOk c
  | .rem a b c => wOk a && rOk b && rOk c
  | .remu a b c => wOk a && rOk b && rOk c
  | .slt a b c => wOk a && rOk b && rOk c
  | .sltu a b c => wOk a && rOk b && rOk c
  | .min a b c => wOk a && rOk b && rOk c
  | .max a b c => wOk a && rOk b && rOk c
  | .minu a b c => wOk a && rOk b && rOk c
  | .maxu a b c => wOk a && rOk b && rOk c
  | .andn a b c => wOk a && rOk b && rOk c
  | .orn a b c => wOk a && rOk b && rOk c
  | .clz a b => wOk a && rOk b
  | .ctz a b => wOk a && rOk b
  | .popc a b => wOk a && rOk b
  | .rev8 a b => wOk a && rOk b
  | .sextB a b => wOk a && rOk b
  | .sextH a b => wOk a && rOk b
  | .sextW a b => wOk a && rOk b
  | .zextW a b => wOk a && rOk b
  | .rol a b c => wOk a && rOk b && rOk c
  | .ror a b c => wOk a && rOk b && rOk c
  | .andi a b _ => wOk a && rOk b
  | .ori a b _ => wOk a && rOk b
  | .xori a b _ => wOk a && rOk b
  | .slli a b _ => wOk a && rOk b
  | .srli a b _ => wOk a && rOk b
  | .srai a b _ => wOk a && rOk b
  | .slti a b _ => wOk a && rOk b
  | .sltiu a b _ => wOk a && rOk b
  | .muli a b _ => wOk a && rOk b
  | .rori a b _ => wOk a && rOk b
  | .lduB a b _ => wOk a && rOk b
  | .lduH a b _ => wOk a && rOk b
  | .lduW a b _ => wOk a && rOk b
  | .amoaddW a b c => wOk a && rOk b && rOk c
  | .amoaddD a b c => wOk a && rOk b && rOk c
  | .amoswapW a b c => wOk a && rOk b && rOk c
  | .amoswapD a b c => wOk a && rOk b && rOk c
  | .amoandD a b c => wOk a && rOk b && rOk c
  | .amoorD a b c => wOk a && rOk b && rOk c
  | .amomaxD a b c => wOk a && rOk b && rOk c
  | .amominD a b c => wOk a && rOk b && rOk c
  | .amocasD a b c => wOk a && rOk b && rOk c
  | .gldB a b _ => rOk a && rOk b
  | .gldH a b _ => rOk a && rOk b
  | .gldW a b _ => rOk a && rOk b
  | .gldD a b _ => rOk a && rOk b
  | .gstB a b _ => rOk a && rOk b
  | .gstH a b _ => rOk a && rOk b
  | .gstW a b _ => rOk a && rOk b
  | .gstD a b _ => rOk a && rOk b
  | .gamoAdd a b c => rOk a && rOk b && rOk c
  | .gamoSwap a b c => rOk a && rOk b && rOk c
  | .gamoAnd a b c => rOk a && rOk b && rOk c
  | .gamoOr a b c => rOk a && rOk b && rOk c
  | .gamoMax a b c => rOk a && rOk b && rOk c
  | .gamoMin a b c => rOk a && rOk b && rOk c
  | .gamoCas a b c => rOk a && rOk b && rOk c
  | .pref b c => rOk b && rOk c
  | .mscfl b c => rOk b && rOk c
  | .fadd a b c => wOk a && rOk b && rOk c
  | .fsub a b c => wOk a && rOk b && rOk c
  | .fmul a b c => wOk a && rOk b && rOk c
  | .fdiv a b c => wOk a && rOk b && rOk c
  | .fsqrt a b => wOk a && rOk b
  | .fmin a b c => wOk a && rOk b && rOk c
  | .fmax a b c => wOk a && rOk b && rOk c
  | .ffma a b c => wOk a && rOk b && rOk c
  | .fneg a b => wOk a && rOk b
  | .fabs a b => wOk a && rOk b
  | .feq a b c => wOk a && rOk b && rOk c
  | .flt a b c => wOk a && rOk b && rOk c
  | .fle a b c => wOk a && rOk b && rOk c
  | .fclass a b => wOk a && rOk b
  | .fcvtWS a b => wOk a && rOk b
  | .fcvtLS a b => wOk a && rOk b
  | .fcvtSW a b => wOk a && rOk b
  | .fcvtSL a b => wOk a && rOk b
  | .fcvtWuS a b => wOk a && rOk b
  | .fcvtSWu a b => wOk a && rOk b
  | .fcvtBfS a b => wOk a && rOk b
  | .fcvtSBf a b => wOk a && rOk b
  | .fcvtHS a b => wOk a && rOk b
  | .fcvtSH a b => wOk a && rOk b
  | .vxor _ _ _ _ => true
  | .vsll _ _ _ _ => true
  | .vsrl _ _ _ _ => true
  | .vsra _ _ _ _ => true
  | .vmulh _ _ _ _ => true
  | .vmulhu _ _ _ _ => true
  | .vminu _ _ _ _ => true
  | .vmaxu _ _ _ _ => true
  | .vaddVx a b c vm => rOk c && notBoth [c] [a, b] vm
  | .vsubVx a b c vm => rOk c && notBoth [c] [a, b] vm
  | .vmulVx a b c vm => rOk c && notBoth [c] [a, b] vm
  | .vandVx a b c vm => rOk c && notBoth [c] [a, b] vm
  | .vorVx a b c vm => rOk c && notBoth [c] [a, b] vm
  | .vxorVx a b c vm => rOk c && notBoth [c] [a, b] vm
  | .vsllVx a b c vm => rOk c && notBoth [c] [a, b] vm
  | .vsrlVx a b c vm => rOk c && notBoth [c] [a, b] vm
  | .vmseq _ _ _ _ => true
  | .vmsne _ _ _ _ => true
  | .vmslt _ _ _ _ => true
  | .vmsltu _ _ _ _ => true
  | .vmsle _ _ _ _ => true
  | .vmsleu _ _ _ _ => true
  | .vsadd _ _ _ _ => true
  | .vsaddu _ _ _ _ => true
  | .vssub _ _ _ _ => true
  | .vssubu _ _ _ _ => true
  | .vmvVx a c vm => rOk c && notBoth [c] [a] vm
  | .vmvXs a b => wOk a && notBoth [a] [b] 0
  | .vmvSx a c => rOk c && notBoth [c] [a] 0
  | .vid _ _ => true
  | .vfdiv _ _ _ _ => true
  | .vfsqrt _ _ _ => true
  | .vfnmacc _ _ _ _ => true
  | .vfmsac _ _ _ _ => true
  | .vfneg _ _ _ => true
  | .vfabs _ _ _ => true
  | .vfaddVf a b c vm => rOk c && notBoth [c] [a, b] vm
  | .vfsubVf a b c vm => rOk c && notBoth [c] [a, b] vm
  | .vfmulVf a b c vm => rOk c && notBoth [c] [a, b] vm
  | .vfmaccVf a b c vm => rOk c && notBoth [c] [a, b] vm
  | .vfminVf a b c vm => rOk c && notBoth [c] [a, b] vm
  | .vfmaxVf a b c vm => rOk c && notBoth [c] [a, b] vm
  | .vmfeq _ _ _ _ => true
  | .vmfne _ _ _ _ => true
  | .vmflt _ _ _ _ => true
  | .vmfle _ _ _ _ => true
  | .vfcvtXF _ _ _ => true
  | .vfcvtFX _ _ _ => true
  | .vfwcvt _ _ _ => true
  | .vfncvt _ _ _ => true
  | .vslideup a b c vm => rOk c && notBoth [c] [a, b] vm
  | .vslidedn a b c vm => rOk c && notBoth [c] [a, b] vm
  | .vrgather _ _ _ _ => true
  | .vcompress _ _ _ => true
  | .vmerge _ _ _ _ => true
  | .vredsum a b c vm => wOk a && rOk c && notBoth [a, c] [b] vm
  | .vredmax a b c vm => wOk a && rOk c && notBoth [a, c] [b] vm
  | .vredmin a b c vm => wOk a && rOk c && notBoth [a, c] [b] vm
  | .vredand a b c vm => wOk a && rOk c && notBoth [a, c] [b] vm
  | .vredor a b c vm => wOk a && rOk c && notBoth [a, c] [b] vm
  | .vfredsum a b c vm => wOk a && rOk c && notBoth [a, c] [b] vm
  | .vfredmax a b c vm => wOk a && rOk c && notBoth [a, c] [b] vm
  | .vfredmin a b c vm => wOk a && rOk c && notBoth [a, c] [b] vm
  | .vmand _ _ _ => true
  | .vmor _ _ _ => true
  | .vmxor _ _ _ => true
  | .vmnot _ _ => true
  | .vcpop a _ vm => wOk a && notBoth [a] [] vm
  | .vfirst a _ vm => wOk a && notBoth [a] [] vm
  | .setvl a b _ => wOk a && rOk b
  | .setvlr a b c => wOk a && rOk b && rOk c
  | .vcvtSat _ _ _ _ => true
  | .vcvtNsat _ _ _ _ => true
  | .vcvtW _ _ _ _ => true
  | .vpack _ _ _ _ => true
  | .vunpk _ _ _ _ => true
  | .vamoOr a b c vm => rOk b && notBoth [b] [a, c] vm
  | .vamoAnd a b c vm => rOk b && notBoth [b] [a, c] vm
  | .vamoAdd a b c vm => rOk b && notBoth [b] [a, c] vm
  | .vamoMax a b c vm => rOk b && notBoth [b] [a, c] vm
  | .vamoMin a b c vm => rOk b && notBoth [b] [a, c] vm
  | .ago b => rOk b
  | .aend => true
  | .movq a b _ => qOk a && rOk b
  | .qlevel a b => wOk a && rOk b
  | .pcfg _ b => rOk b
  | .msgPut a b c => rOk a && rOk b && rOk c
  | .msgGet a b c => rOk a && rOk b && rOk c
  | .msgAmo a b c => rOk a && rOk b && rOk c
  | .msgSig a b => rOk a && rOk b
  | .task b c => rOk b && rOk c
  | .tret => true
  | .tsusp _ => true
  | .tqcfg a b => wOk a && rOk b
  | .tqdepth a => wOk a
  | .capt _ b _ => rOk b
  | .captRef _ b => rOk b
  | .kdup _ b => rOk b
  | .kdrop _ => true
  | .kld a _ _ => wOk a
  | .kst _ b _ => rOk b
  | .frame a b => wOk a && rOk b
  | .unframe a => wOk a
  | .mmaE4m3 a b c => rOk a && rOk b && rOk c
  | .mmaE5m2 a b c => rOk a && rOk b && rOk c
  | .mmaE3m2 a b c => rOk a && rOk b && rOk c
  | .mmaE2m3 a b c => rOk a && rOk b && rOk c
  | .mmaE2m1 a b c => rOk a && rOk b && rOk c
  | .mmaBf16 a b c => rOk a && rOk b && rOk c
  | .mmaF16 a b c => rOk a && rOk b && rOk c
  | .mmaE4m3e5m2 a b c => rOk a && rOk b && rOk c
  | .mmaE5m2e4m3 a b c => rOk a && rOk b && rOk c
  | .mmaE4m3Mc a b c => rOk a && rOk b && rOk c
  | .mmaE5m2Mc a b c => rOk a && rOk b && rOk c
  | .mmaE3m2Mc a b c => rOk a && rOk b && rOk c
  | .mmaE2m3Mc a b c => rOk a && rOk b && rOk c
  | .mmaE2m1Mc a b c => rOk a && rOk b && rOk c
  | .mmaBf16Mc a b c => rOk a && rOk b && rOk c
  | .mmaF16Mc a b c => rOk a && rOk b && rOk c
  | .mmaE4m3e5m2Mc a b c => rOk a && rOk b && rOk c
  | .mmaE5m2e4m3Mc a b c => rOk a && rOk b && rOk c
  | .mmaa => true
  | .scacc b c => rOk b && rOk c
  | .accz => true
  | .accswap => true
  | .acfg b => rOk b
  | .accrdR a b c vm => rOk b && rOk c && notBoth [b, c] [a] vm
  | .accwrR a b c vm => rOk b && rOk c && notBoth [b, c] [a] vm
  | .accrdC a b c vm => rOk b && rOk c && notBoth [b, c] [a] vm
  | .accwrC a b c vm => rOk b && rOk c && notBoth [b, c] [a] vm
  | .accst a b _ => rOk a && rOk b
  | .bkAdd a b c => rOk a && rOk b && rOk c
  | .bkMul a b c => rOk a && rOk b && rOk c
  | .bkFma a b c => rOk a && rOk b && rOk c
  | .bkMax a b c => rOk a && rOk b && rOk c
  | .bkMin a b c => rOk a && rOk b && rOk c
  | .bkScl a b c => rOk a && rOk b && rOk c
  | .bkOr a b c => rOk a && rOk b && rOk c
  | .bkAnd a b c => rOk a && rOk b && rOk c
  | .bkFill a b c => rOk a && rOk b && rOk c
  | .bkRsum a b c => rOk a && rOk b && rOk c
  | .bkRmax a b c => rOk a && rOk b && rOk c
  | .bkExps a b c => rOk a && rOk b && rOk c
  | .bkCvt a b => rOk a && rOk b
  | .bkAddV a b c => rOk a && rOk b && notBoth [a, b] [c] 0
  | .bkMulV a b c => rOk a && rOk b && notBoth [a, b] [c] 0
  | .bkFmaV a b c => rOk a && rOk b && notBoth [a, b] [c] 0
  | .bkMaxV a b c => rOk a && rOk b && notBoth [a, b] [c] 0
  | .bkMinV a b c => rOk a && rOk b && notBoth [a, b] [c] 0
  | .bkSclV a b c => rOk a && rOk b && notBoth [a, b] [c] 0
  | .bkOrV a b c => rOk a && rOk b && notBoth [a, b] [c] 0
  | .bkAndV a b c => rOk a && rOk b && notBoth [a, b] [c] 0
  | .bkFillV a b c => rOk a && rOk b && notBoth [a, b] [c] 0
  | .bkAddR a b c => rOk a && rOk b && rOk c
  | .bkMulR a b c => rOk a && rOk b && rOk c
  | .bkFmaR a b c => rOk a && rOk b && rOk c
  | .bkMaxR a b c => rOk a && rOk b && rOk c
  | .bkMinR a b c => rOk a && rOk b && rOk c
  | .bkOrR a b c => rOk a && rOk b && rOk c
  | .bkAndR a b c => rOk a && rOk b && rOk c
  | .cpy _ b c => rOk b && rOk c
  | .cpg _ b c => rOk b && rOk c
  | .cpwait _ b => rOk b
  | .cpstat a _ => wOk a
  | .fenceCore => true
  | .fenceCl => true
  | .fenceDie => true
  | .fencePkg => true
  | .fenceSys => true
  | .barInit b c => rOk b && rOk c
  | .barArr a b => wOk a && rOk b
  | .barExp b c => rOk b && rOk c
  | .barWait b c => rOk b && rOk c
  | .sstep => true
  | .srd a _ => wOk a
  | .swr b _ => rOk b
  | .eret => true
  | .trap _ => true
  | .brk => true
  | .halt => true
  | .fenceI => true
  | .wqry b c => rOk b && rOk c
  | .widF a b _ => wOk a && rOk b
  | .pageattrWrite _ => false
  | .envbaseWrite _ => false
  | .frbaseWrite _ => false
  | .mbbaseWrite _ => false
  | .tqbaseWrite _ => false
  | .tqcfgWrite _ => false
  | .gdeadWrite _ => false
  | .fcsrWrite _ => false
  | .nearDispatch _ _ => false
  | .slotTakesWork _ _ => false
  | .stealRequest _ _ => false
  | .steal _ _ => false
  | .bufferDrain _ _ => false
  | .deferredLoadFaultReport _ _ => false
  | .globalLoadData _ _ => false
  | .globalWriteAck _ => false
  | .globalAccess _ => false
  | .clusterWindowAccess _ => false
  | .portWord _ => false
  | .put _ => false
  | .getRequest _ => false
  | .getData _ => false
  | .atomicRequest _ => false
  | .atomicReply _ => false
  | .signal _ => false
  | .acknowledgment _ => false
  | .taskRecordArrival _ => false
  | .closureOperation _ => false
  | .workQuery _ => false
  | .workAnswer _ => false
  | .wqryRecordEnqueue _ => false
  | .slateStealControl _ => false
  | .lossNotice _ _ => false
  | .postedTimeout _ _ _ => false
  | .mailboxAppend _ => false
  | .bankLineUpdate _ _ => false
  | .bankCommandRetire _ => false
  | .vamoRetire _ => false
  | .matrixOpRetire _ => false
  | .mcHoldExpiry _ _ => false
  | .copyTransferComplete _ _ => false
  | .completionRecordEnqueue _ _ => false
  | .accumulatorRestore _ => false
  | .preempt _ => false
  | .resume _ => false
  | .launchRecordCheck _ => false
  | .launchStart _ => false
  | .reelForward _ _ _ => false
  | .launchComplete _ => false
  | .superstepRelease _ _ => false
  | .clapperColumnRelease _ _ => false
  | .clapperEstimateRefresh => false
  | .heatMapRefresh => false
  | .patrolScrub _ _ => false
  | .parityError _ _ _ => false
  | .clockStretch _ => false
  | .drowsyEntry _ => false
  | .submit _ _ _ => false
  | .queueConfigWrite _ _ _ => false
  | .shootDown _ => false
  | .stationShootDownAck _ => false
  | .connectionWrite _ _ _ => false
  | .devcmdHalt _ => false
  | .devcmdResume _ => false
  | .devcmdEndTask _ => false
  | .devcmdApplyProfile _ => false
  | .devcmdAbortLaunch _ => false
  | .hostRegisterWrite _ _ => false
  | .hostMemWrite _ _ => false
  | .hostMemRead _ _ => false
  | .hostLinkDown => false
  | .hostLinkHoldTimeout _ => false
  | .hostLinkTrained => false
  | .inboundSend _ _ => false
  | .inboundRma _ _ _ _ => false
  | .attestation _ => false
  | .firmwareLoad _ _ => false
  | .powerUp => false
  | .powerDown => false
  | .decodeTrap _ _ _ => false
  | .clusterWindowAnswer _ => false
  | .closureAnswer _ => false
  | .copyPiece _ _ => false
  | .anchorViewAccess _ => false
  | .portLinkTrained _ _ => false

end Sys2Proof
end

