-- ==== Sys2Proof/Decode.lean ====
section
/-! DEFINITION. Decode.lean: reading a chain of words (R30, R36, R37), the tables of R33 and R44, checks 1 to 5 of R47
with the causes of R46, the encoder that chooses prefixes as R36 and R39 need them, and the table's numbering.
The section is noncomputable because Lean's compiler has no code for a constructor beyond the 244th that has arguments;
the kernel evaluates every definition here. -/
namespace Sys2Proof

noncomputable section

/-- What a 3-bit field of a base word is: fixed 0, a g register read or written, the queue that MOVQ writes, a v register, or
anything else. -/
inductive Fk where
  | z | gr | gw | gq | v | l
  deriving DecidableEq, Repr

/-- The words of a chain, sorted by kind (R36). -/
structure Chain where
  xis : List Half
  xp : Option Half
  xr : Option Half
  xv : Option Half
  base : Option Half
  bad : Option (BitVec 7)
  count : Nat
  deriving DecidableEq, Repr

def Chain.start : Chain := ⟨[], none, none, none, none, none, 0⟩
/-- Bits [hi:lo] of a word. -/
def hb (w : Half) (hi lo : Nat) : Nat := w.toNat / 2 ^ lo % 2 ^ (hi + 1 - lo)
def isXi (w : Half) : Bool := hb w 15 12 == 0xF
def isXp (w : Half) : Bool := hb w 15 10 == 0x34
def isXr (w : Half) : Bool := hb w 15 10 == 0x35
def isXv (w : Half) : Bool := hb w 15 10 == 0x36
def isPre (w : Half) : Bool := isXi w || isXp w || isXr w || isXv w
/-- Check 1 of R47 on the next word: the subcode of 0x003, in the order 01, 02, 03, 07 at one word (log 11). -/
def chainFault (c : Chain) (w : Half) : Option (BitVec 7) :=
  let ext := c.xr.isSome || c.xv.isSome
  if isXi w then
    if c.xp.isSome || ext then some 1 else if decide (2 ≤ c.xis.length) then some 2 else none
  else if isXp w then
    if ext then some 1 else if c.xp.isSome then some 2 else if w.getLsbD 0 then some 7 else none
  else if isXr w then
    if c.xr.isSome then some 2 else if c.xv.isSome then some 3 else if w.getLsbD 0 then some 7 else none
  else if isXv w then
    if c.xv.isSome then some 2 else if c.xr.isSome then some 3 else if w.getLsbD 0 then some 7 else none
  else if c.xp.isSome && hb w 15 12 != 0xE then some 4 else none
/-- Add the next word. -/
def chainAdd (c : Chain) (w : Half) : Chain :=
  let c := { c with bad := chainFault c w, count := c.count + 1 }
  if isXi w then { c with xis := c.xis ++ [w] }
  else if isXp w then { c with xp := some w }
  else if isXr w then { c with xr := some w }
  else if isXv w then { c with xv := some w }
  else { c with base := some w }
/-- The chain has ended: by its base word, or by a fault (R47). -/
def chainDone (c : Chain) : Bool := c.base.isSome || c.bad.isSome
/-- Read words until the chain ends. -/
def chainRead : Chain → List Half → Chain
  | c, [] => c
  | c, w :: r => if chainDone c then c else chainRead (chainAdd c w) r

/-- The fields of a chain (R39, R40). -/
structure Fld where
  ba : BitVec 3
  bb : BitVec 3
  bc : BitVec 3
  bd : BitVec 3
  xr : Half
  xv : Half
  imm : Nat
  immW : Nat

def Fld.gReg (f : Fld) (b : BitVec 3) (hiLo sp : Nat) : GReg :=
  let n : BitVec 5 := BitVec.ofNat 5 (hb f.xr (hiLo + 1) hiLo * 8 + b.toNat)
  if f.xr.getLsbD sp then .sp n else .g n
def Fld.vReg (f : Fld) (b : BitVec 3) (hiLo : Nat) : VReg := BitVec.ofNat 5 (hb f.xv (hiLo + 1) hiLo * 8 + b.toNat)
def Fld.ga (f : Fld) : GReg := f.gReg f.ba 8 3
def Fld.gb (f : Fld) : GReg := f.gReg f.bb 6 2
def Fld.gc (f : Fld) : GReg := f.gReg f.bc 4 1
def Fld.va (f : Fld) : VReg := f.vReg f.ba 8
def Fld.vb (f : Fld) : VReg := f.vReg f.bb 6
def Fld.vc (f : Fld) : VReg := f.vReg f.bc 4
def Fld.vm (f : Fld) : MReg := BitVec.ofNat 3 (hb f.xv 3 1)
def Fld.la (f : Fld) : BitVec 3 := f.ba
def Fld.lb (f : Fld) : BitVec 3 := f.bb
def Fld.lc (f : Fld) : BitVec 3 := f.bc
def Fld.ld (f : Fld) : BitVec 3 := f.bd
/-- The assembled immediate sign-extended (R39). -/
def Fld.si (f : Fld) (n : Nat) : BitVec n :=
  if 2 ^ (f.immW - 1) ≤ f.imm then BitVec.ofInt n ((f.imm : Int) - 2 ^ f.immW) else BitVec.ofNat n f.imm
/-- The assembled immediate zero-extended (R39). -/
def Fld.zi (f : Fld) (n : Nat) : BitVec n := BitVec.ofNat n f.imm

/-- A row of R33 or R44: its selector, the kinds of fields a, b and c, where its base immediate lies and how wide it is,
its XI max, whether it takes a mask, the low bits that are fixed at 0, and the instruction. -/
structure Row where
  fn : Nat
  ka : Fk
  kb : Fk
  kc : Fk
  immLo : Nat
  immW : Nat
  xiMax : Nat
  mask : Bool
  low : Nat
  build : Fld → Instr

def rowsMajor0_0 : List Row :=
  [ ⟨0x00, .gw, .gr, .gr, 0, 0, 0, false, 0, fun f => .add f.ga f.gb f.gc⟩,
    ⟨0x01, .gw, .gr, .gr, 0, 0, 0, false, 0, fun f => .sub f.ga f.gb f.gc⟩,
    ⟨0x02, .gw, .gr, .gr, 0, 0, 0, false, 0, fun f => .and f.ga f.gb f.gc⟩,
    ⟨0x03, .gw, .gr, .gr, 0, 0, 0, false, 0, fun f => .or f.ga f.gb f.gc⟩,
    ⟨0x04, .gw, .gr, .gr, 0, 0, 0, false, 0, fun f => .xor f.ga f.gb f.gc⟩,
    ⟨0x05, .gw, .gr, .gr, 0, 0, 0, false, 0, fun f => .sll f.ga f.gb f.gc⟩,
    ⟨0x06, .gw, .gr, .gr, 0, 0, 0, false, 0, fun f => .srl f.ga f.gb f.gc⟩,
    ⟨0x07, .gw, .gr, .gr, 0, 0, 0, false, 0, fun f => .sra f.ga f.gb f.gc⟩ ]
def rowsMajor0 : List Row := rowsMajor0_0

def rowsMajor1_0 : List Row :=
  [ ⟨0x00, .gw, .gr, .l, 0, 6, 2, false, 0, fun f => .addi f.ga f.gb (f.si 30)⟩ ]
def rowsMajor1 : List Row := rowsMajor1_0

def rowsMajor2_0 : List Row :=
  [ ⟨0x00, .gw, .l, .l, 0, 9, 2, false, 0, fun f => .li f.ga (f.si 33)⟩ ]
def rowsMajor2 : List Row := rowsMajor2_0

def rowsMajor3_0 : List Row :=
  [ ⟨0x00, .gw, .l, .l, 0, 8, 1, false, 0, fun f => .adh f.ga (f.si 20)⟩,
    ⟨0x01, .gw, .l, .l, 0, 8, 1, false, 0, fun f => .adpc f.ga (f.si 20)⟩ ]
def rowsMajor3 : List Row := rowsMajor3_0

def rowsMajor4_0 : List Row :=
  [ ⟨0x00, .gw, .gr, .l, 0, 4, 2, false, 0, fun f => .ldB f.ga f.gb (f.si 28)⟩,
    ⟨0x01, .gw, .gr, .l, 0, 4, 2, false, 0, fun f => .ldH f.ga f.gb (f.si 28)⟩,
    ⟨0x02, .gw, .gr, .l, 0, 4, 2, false, 0, fun f => .ldW f.ga f.gb (f.si 28)⟩,
    ⟨0x03, .gw, .gr, .l, 0, 4, 2, false, 0, fun f => .ldD f.ga f.gb (f.si 28)⟩ ]
def rowsMajor4 : List Row := rowsMajor4_0

def rowsMajor5_0 : List Row :=
  [ ⟨0x00, .gr, .gr, .l, 0, 4, 2, false, 0, fun f => .stB f.ga f.gb (f.si 28)⟩,
    ⟨0x01, .gr, .gr, .l, 0, 4, 2, false, 0, fun f => .stH f.ga f.gb (f.si 28)⟩,
    ⟨0x02, .gr, .gr, .l, 0, 4, 2, false, 0, fun f => .stW f.ga f.gb (f.si 28)⟩,
    ⟨0x03, .gr, .gr, .l, 0, 4, 2, false, 0, fun f => .stD f.ga f.gb (f.si 28)⟩ ]
def rowsMajor5 : List Row := rowsMajor5_0

def rowsMajor6_0 : List Row :=
  [ ⟨0x00, .gr, .gr, .l, 0, 3, 1, false, 0, fun f => .brEq f.ga f.gb (f.si 15)⟩,
    ⟨0x01, .gr, .gr, .l, 0, 3, 1, false, 0, fun f => .brNe f.ga f.gb (f.si 15)⟩,
    ⟨0x02, .gr, .gr, .l, 0, 3, 1, false, 0, fun f => .brLt f.ga f.gb (f.si 15)⟩,
    ⟨0x03, .gr, .gr, .l, 0, 3, 1, false, 0, fun f => .brGe f.ga f.gb (f.si 15)⟩,
    ⟨0x04, .gr, .gr, .l, 0, 3, 1, false, 0, fun f => .brLtu f.ga f.gb (f.si 15)⟩,
    ⟨0x05, .gr, .gr, .l, 0, 3, 1, false, 0, fun f => .brGeu f.ga f.gb (f.si 15)⟩,
    ⟨0x06, .z, .z, .l, 0, 3, 1, false, 0, fun f => .brPop (f.si 15)⟩ ]
def rowsMajor6 : List Row := rowsMajor6_0

def rowsMajor7_0 : List Row :=
  [ ⟨0x00, .l, .l, .l, 0, 11, 1, false, 0, fun f => .j (f.si 23)⟩,
    ⟨0x01, .l, .l, .l, 0, 11, 1, false, 0, fun f => .call (f.si 23)⟩ ]
def rowsMajor7 : List Row := rowsMajor7_0

def rowsMajor8_0 : List Row :=
  [ ⟨0x00, .gr, .l, .z, 0, 0, 0, false, 7, fun f => .jr f.ga⟩,
    ⟨0x01, .gr, .l, .z, 0, 0, 0, false, 7, fun f => .callr f.ga⟩,
    ⟨0x02, .gr, .l, .z, 0, 0, 0, false, 7, fun f => .ret f.ga⟩,
    ⟨0x03, .l, .l, .z, 0, 0, 0, false, 7, fun f => .apply f.la⟩ ]
def rowsMajor8 : List Row := rowsMajor8_0

def rowsMajor9_0 : List Row :=
  [ ⟨0x00, .l, .z, .z, 0, 0, 0, false, 7, fun _ => .padJ⟩,
    ⟨0x01, .l, .z, .z, 0, 0, 0, false, 7, fun _ => .padC⟩,
    ⟨0x02, .l, .z, .z, 0, 0, 0, false, 7, fun _ => .padK⟩,
    ⟨0x03, .l, .z, .z, 0, 0, 0, false, 7, fun _ => .padN⟩,
    ⟨0x04, .l, .z, .z, 0, 0, 0, false, 7, fun _ => .padF⟩,
    ⟨0x05, .l, .z, .z, 0, 0, 0, false, 7, fun _ => .padT⟩ ]
def rowsMajor9 : List Row := rowsMajor9_0

def rowsMajorA_0 : List Row :=
  [ ⟨0x00, .v, .v, .v, 0, 0, 0, true, 0, fun f => .vadd f.va f.vb f.vc f.vm⟩,
    ⟨0x01, .v, .v, .v, 0, 0, 0, true, 0, fun f => .vsub f.va f.vb f.vc f.vm⟩,
    ⟨0x02, .v, .v, .v, 0, 0, 0, true, 0, fun f => .vmul f.va f.vb f.vc f.vm⟩,
    ⟨0x03, .v, .v, .v, 0, 0, 0, true, 0, fun f => .vmacc f.va f.vb f.vc f.vm⟩,
    ⟨0x04, .v, .v, .v, 0, 0, 0, true, 0, fun f => .vmin f.va f.vb f.vc f.vm⟩,
    ⟨0x05, .v, .v, .v, 0, 0, 0, true, 0, fun f => .vmax f.va f.vb f.vc f.vm⟩,
    ⟨0x06, .v, .v, .v, 0, 0, 0, true, 0, fun f => .vand f.va f.vb f.vc f.vm⟩,
    ⟨0x07, .v, .v, .v, 0, 0, 0, true, 0, fun f => .vor f.va f.vb f.vc f.vm⟩ ]
def rowsMajorA : List Row := rowsMajorA_0

def rowsMajorB_0 : List Row :=
  [ ⟨0x00, .v, .gr, .z, 0, 0, 0, true, 0, fun f => .vld f.va f.gb f.vm⟩,
    ⟨0x02, .v, .gr, .gr, 0, 0, 0, true, 0, fun f => .vlds f.va f.gb f.gc f.vm⟩,
    ⟨0x04, .v, .gr, .v, 0, 0, 0, true, 0, fun f => .vldx f.va f.gb f.vc f.vm⟩,
    ⟨0x06, .v, .gr, .z, 0, 0, 0, true, 0, fun f => .vldff f.va f.gb f.vm⟩,
    ⟨0x01, .v, .gr, .z, 0, 0, 0, true, 0, fun f => .vst f.va f.gb f.vm⟩,
    ⟨0x03, .v, .gr, .gr, 0, 0, 0, true, 0, fun f => .vsts f.va f.gb f.gc f.vm⟩,
    ⟨0x05, .v, .gr, .v, 0, 0, 0, true, 0, fun f => .vstx f.va f.gb f.vc f.vm⟩ ]
def rowsMajorB : List Row := rowsMajorB_0

def rowsMajorC_0 : List Row :=
  [ ⟨0x00, .l, .l, .l, 0, 0, 0, false, 0, fun f => .wait f.la f.lb f.lc f.ld⟩ ]
def rowsMajorC : List Row := rowsMajorC_0

def rowsPage1_0 : List Row :=
  [ ⟨0x00, .gw, .gr, .gr, 0, 0, 0, false, 0, fun f => .mul f.ga f.gb f.gc⟩,
    ⟨0x01, .gw, .gr, .gr, 0, 0, 0, false, 0, fun f => .mulh f.ga f.gb f.gc⟩,
    ⟨0x02, .gw, .gr, .gr, 0, 0, 0, false, 0, fun f => .mulhu f.ga f.gb f.gc⟩,
    ⟨0x03, .gw, .gr, .gr, 0, 0, 0, false, 0, fun f => .mulhsu f.ga f.gb f.gc⟩,
    ⟨0x04, .gw, .gr, .gr, 0, 0, 0, false, 0, fun f => .div f.ga f.gb f.gc⟩,
    ⟨0x05, .gw, .gr, .gr, 0, 0, 0, false, 0, fun f => .divu f.ga f.gb f.gc⟩,
    ⟨0x06, .gw, .gr, .gr, 0, 0, 0, false, 0, fun f => .rem f.ga f.gb f.gc⟩,
    ⟨0x07, .gw, .gr, .gr, 0, 0, 0, false, 0, fun f => .remu f.ga f.gb f.gc⟩,
    ⟨0x08, .gw, .gr, .gr, 0, 0, 0, false, 0, fun f => .slt f.ga f.gb f.gc⟩,
    ⟨0x09, .gw, .gr, .gr, 0, 0, 0, false, 0, fun f => .sltu f.ga f.gb f.gc⟩,
    ⟨0x0A, .gw, .gr, .gr, 0, 0, 0, false, 0, fun f => .min f.ga f.gb f.gc⟩,
    ⟨0x0B, .gw, .gr, .gr, 0, 0, 0, false, 0, fun f => .max f.ga f.gb f.gc⟩,
    ⟨0x0C, .gw, .gr, .gr, 0, 0, 0, false, 0, fun f => .minu f.ga f.gb f.gc⟩,
    ⟨0x0D, .gw, .gr, .gr, 0, 0, 0, false, 0, fun f => .maxu f.ga f.gb f.gc⟩ ]
def rowsPage1_1 : List Row :=
  [ ⟨0x0E, .gw, .gr, .gr, 0, 0, 0, false, 0, fun f => .andn f.ga f.gb f.gc⟩,
    ⟨0x0F, .gw, .gr, .gr, 0, 0, 0, false, 0, fun f => .orn f.ga f.gb f.gc⟩,
    ⟨0x10, .gw, .gr, .z, 0, 0, 0, false, 0, fun f => .clz f.ga f.gb⟩,
    ⟨0x11, .gw, .gr, .z, 0, 0, 0, false, 0, fun f => .ctz f.ga f.gb⟩,
    ⟨0x12, .gw, .gr, .z, 0, 0, 0, false, 0, fun f => .popc f.ga f.gb⟩,
    ⟨0x13, .gw, .gr, .z, 0, 0, 0, false, 0, fun f => .rev8 f.ga f.gb⟩,
    ⟨0x14, .gw, .gr, .z, 0, 0, 0, false, 0, fun f => .sextB f.ga f.gb⟩,
    ⟨0x15, .gw, .gr, .z, 0, 0, 0, false, 0, fun f => .sextH f.ga f.gb⟩,
    ⟨0x16, .gw, .gr, .z, 0, 0, 0, false, 0, fun f => .sextW f.ga f.gb⟩,
    ⟨0x17, .gw, .gr, .z, 0, 0, 0, false, 0, fun f => .zextW f.ga f.gb⟩,
    ⟨0x18, .gw, .gr, .gr, 0, 0, 0, false, 0, fun f => .rol f.ga f.gb f.gc⟩,
    ⟨0x19, .gw, .gr, .gr, 0, 0, 0, false, 0, fun f => .ror f.ga f.gb f.gc⟩ ]
def rowsPage1 : List Row := rowsPage1_0 ++ rowsPage1_1

def rowsPage2_0 : List Row :=
  [ ⟨0x00, .gw, .gr, .l, 3, 3, 2, false, 0, fun f => .andi f.ga f.gb (f.si 27)⟩,
    ⟨0x01, .gw, .gr, .l, 3, 3, 2, false, 0, fun f => .ori f.ga f.gb (f.si 27)⟩,
    ⟨0x02, .gw, .gr, .l, 3, 3, 2, false, 0, fun f => .xori f.ga f.gb (f.si 27)⟩,
    ⟨0x03, .gw, .gr, .l, 3, 3, 2, false, 0, fun f => .slli f.ga f.gb (f.zi 27)⟩,
    ⟨0x04, .gw, .gr, .l, 3, 3, 2, false, 0, fun f => .srli f.ga f.gb (f.zi 27)⟩,
    ⟨0x05, .gw, .gr, .l, 3, 3, 2, false, 0, fun f => .srai f.ga f.gb (f.zi 27)⟩,
    ⟨0x06, .gw, .gr, .l, 3, 3, 2, false, 0, fun f => .slti f.ga f.gb (f.si 27)⟩,
    ⟨0x07, .gw, .gr, .l, 3, 3, 2, false, 0, fun f => .sltiu f.ga f.gb (f.si 27)⟩,
    ⟨0x08, .gw, .gr, .l, 3, 3, 2, false, 0, fun f => .muli f.ga f.gb (f.si 27)⟩,
    ⟨0x09, .gw, .gr, .l, 3, 3, 2, false, 0, fun f => .rori f.ga f.gb (f.zi 27)⟩ ]
def rowsPage2 : List Row := rowsPage2_0

def rowsPage3_0 : List Row :=
  [ ⟨0x00, .gw, .gr, .l, 3, 3, 2, false, 0, fun f => .lduB f.ga f.gb (f.si 27)⟩,
    ⟨0x01, .gw, .gr, .l, 3, 3, 2, false, 0, fun f => .lduH f.ga f.gb (f.si 27)⟩,
    ⟨0x02, .gw, .gr, .l, 3, 3, 2, false, 0, fun f => .lduW f.ga f.gb (f.si 27)⟩,
    ⟨0x08, .gw, .gr, .gr, 0, 0, 0, false, 0, fun f => .amoaddW f.ga f.gb f.gc⟩,
    ⟨0x09, .gw, .gr, .gr, 0, 0, 0, false, 0, fun f => .amoaddD f.ga f.gb f.gc⟩,
    ⟨0x0A, .gw, .gr, .gr, 0, 0, 0, false, 0, fun f => .amoswapW f.ga f.gb f.gc⟩,
    ⟨0x0B, .gw, .gr, .gr, 0, 0, 0, false, 0, fun f => .amoswapD f.ga f.gb f.gc⟩,
    ⟨0x0C, .gw, .gr, .gr, 0, 0, 0, false, 0, fun f => .amoandD f.ga f.gb f.gc⟩,
    ⟨0x0D, .gw, .gr, .gr, 0, 0, 0, false, 0, fun f => .amoorD f.ga f.gb f.gc⟩,
    ⟨0x0E, .gw, .gr, .gr, 0, 0, 0, false, 0, fun f => .amomaxD f.ga f.gb f.gc⟩,
    ⟨0x0F, .gw, .gr, .gr, 0, 0, 0, false, 0, fun f => .amominD f.ga f.gb f.gc⟩,
    ⟨0x10, .gw, .gr, .gr, 0, 0, 0, false, 0, fun f => .amocasD f.ga f.gb f.gc⟩,
    ⟨0x18, .gr, .gr, .l, 3, 3, 2, false, 0, fun f => .gldB f.ga f.gb (f.si 27)⟩,
    ⟨0x19, .gr, .gr, .l, 3, 3, 2, false, 0, fun f => .gldH f.ga f.gb (f.si 27)⟩ ]
def rowsPage3_1 : List Row :=
  [ ⟨0x1A, .gr, .gr, .l, 3, 3, 2, false, 0, fun f => .gldW f.ga f.gb (f.si 27)⟩,
    ⟨0x1B, .gr, .gr, .l, 3, 3, 2, false, 0, fun f => .gldD f.ga f.gb (f.si 27)⟩,
    ⟨0x1C, .gr, .gr, .l, 3, 3, 2, false, 0, fun f => .gstB f.ga f.gb (f.si 27)⟩,
    ⟨0x1D, .gr, .gr, .l, 3, 3, 2, false, 0, fun f => .gstH f.ga f.gb (f.si 27)⟩,
    ⟨0x1E, .gr, .gr, .l, 3, 3, 2, false, 0, fun f => .gstW f.ga f.gb (f.si 27)⟩,
    ⟨0x1F, .gr, .gr, .l, 3, 3, 2, false, 0, fun f => .gstD f.ga f.gb (f.si 27)⟩,
    ⟨0x20, .gr, .gr, .gr, 0, 0, 0, false, 0, fun f => .gamoAdd f.ga f.gb f.gc⟩,
    ⟨0x21, .gr, .gr, .gr, 0, 0, 0, false, 0, fun f => .gamoSwap f.ga f.gb f.gc⟩,
    ⟨0x22, .gr, .gr, .gr, 0, 0, 0, false, 0, fun f => .gamoAnd f.ga f.gb f.gc⟩,
    ⟨0x23, .gr, .gr, .gr, 0, 0, 0, false, 0, fun f => .gamoOr f.ga f.gb f.gc⟩,
    ⟨0x24, .gr, .gr, .gr, 0, 0, 0, false, 0, fun f => .gamoMax f.ga f.gb f.gc⟩,
    ⟨0x25, .gr, .gr, .gr, 0, 0, 0, false, 0, fun f => .gamoMin f.ga f.gb f.gc⟩,
    ⟨0x26, .gr, .gr, .gr, 0, 0, 0, false, 0, fun f => .gamoCas f.ga f.gb f.gc⟩,
    ⟨0x28, .z, .gr, .gr, 0, 0, 0, false, 0, fun f => .pref f.gb f.gc⟩ ]
def rowsPage3_2 : List Row :=
  [ ⟨0x29, .z, .gr, .gr, 0, 0, 0, false, 0, fun f => .mscfl f.gb f.gc⟩ ]
def rowsPage3 : List Row := rowsPage3_0 ++ rowsPage3_1 ++ rowsPage3_2

def rowsPage4_0 : List Row :=
  [ ⟨0x00, .gw, .gr, .gr, 0, 0, 0, false, 0, fun f => .fadd f.ga f.gb f.gc⟩,
    ⟨0x01, .gw, .gr, .gr, 0, 0, 0, false, 0, fun f => .fsub f.ga f.gb f.gc⟩,
    ⟨0x02, .gw, .gr, .gr, 0, 0, 0, false, 0, fun f => .fmul f.ga f.gb f.gc⟩,
    ⟨0x03, .gw, .gr, .gr, 0, 0, 0, false, 0, fun f => .fdiv f.ga f.gb f.gc⟩,
    ⟨0x04, .gw, .gr, .z, 0, 0, 0, false, 0, fun f => .fsqrt f.ga f.gb⟩,
    ⟨0x05, .gw, .gr, .gr, 0, 0, 0, false, 0, fun f => .fmin f.ga f.gb f.gc⟩,
    ⟨0x06, .gw, .gr, .gr, 0, 0, 0, false, 0, fun f => .fmax f.ga f.gb f.gc⟩,
    ⟨0x07, .gw, .gr, .gr, 0, 0, 0, false, 0, fun f => .ffma f.ga f.gb f.gc⟩,
    ⟨0x08, .gw, .gr, .z, 0, 0, 0, false, 0, fun f => .fneg f.ga f.gb⟩,
    ⟨0x09, .gw, .gr, .z, 0, 0, 0, false, 0, fun f => .fabs f.ga f.gb⟩,
    ⟨0x0A, .gw, .gr, .gr, 0, 0, 0, false, 0, fun f => .feq f.ga f.gb f.gc⟩,
    ⟨0x0B, .gw, .gr, .gr, 0, 0, 0, false, 0, fun f => .flt f.ga f.gb f.gc⟩,
    ⟨0x0C, .gw, .gr, .gr, 0, 0, 0, false, 0, fun f => .fle f.ga f.gb f.gc⟩,
    ⟨0x0D, .gw, .gr, .z, 0, 0, 0, false, 0, fun f => .fclass f.ga f.gb⟩ ]
def rowsPage4_1 : List Row :=
  [ ⟨0x10, .gw, .gr, .z, 0, 0, 0, false, 0, fun f => .fcvtWS f.ga f.gb⟩,
    ⟨0x11, .gw, .gr, .z, 0, 0, 0, false, 0, fun f => .fcvtLS f.ga f.gb⟩,
    ⟨0x12, .gw, .gr, .z, 0, 0, 0, false, 0, fun f => .fcvtSW f.ga f.gb⟩,
    ⟨0x13, .gw, .gr, .z, 0, 0, 0, false, 0, fun f => .fcvtSL f.ga f.gb⟩,
    ⟨0x14, .gw, .gr, .z, 0, 0, 0, false, 0, fun f => .fcvtWuS f.ga f.gb⟩,
    ⟨0x15, .gw, .gr, .z, 0, 0, 0, false, 0, fun f => .fcvtSWu f.ga f.gb⟩,
    ⟨0x16, .gw, .gr, .z, 0, 0, 0, false, 0, fun f => .fcvtBfS f.ga f.gb⟩,
    ⟨0x17, .gw, .gr, .z, 0, 0, 0, false, 0, fun f => .fcvtSBf f.ga f.gb⟩,
    ⟨0x18, .gw, .gr, .z, 0, 0, 0, false, 0, fun f => .fcvtHS f.ga f.gb⟩,
    ⟨0x19, .gw, .gr, .z, 0, 0, 0, false, 0, fun f => .fcvtSH f.ga f.gb⟩ ]
def rowsPage4 : List Row := rowsPage4_0 ++ rowsPage4_1

def rowsPage8_0 : List Row :=
  [ ⟨0x00, .v, .v, .v, 0, 0, 0, true, 0, fun f => .vxor f.va f.vb f.vc f.vm⟩,
    ⟨0x01, .v, .v, .v, 0, 0, 0, true, 0, fun f => .vsll f.va f.vb f.vc f.vm⟩,
    ⟨0x02, .v, .v, .v, 0, 0, 0, true, 0, fun f => .vsrl f.va f.vb f.vc f.vm⟩,
    ⟨0x03, .v, .v, .v, 0, 0, 0, true, 0, fun f => .vsra f.va f.vb f.vc f.vm⟩,
    ⟨0x04, .v, .v, .v, 0, 0, 0, true, 0, fun f => .vmulh f.va f.vb f.vc f.vm⟩,
    ⟨0x05, .v, .v, .v, 0, 0, 0, true, 0, fun f => .vmulhu f.va f.vb f.vc f.vm⟩,
    ⟨0x06, .v, .v, .v, 0, 0, 0, true, 0, fun f => .vminu f.va f.vb f.vc f.vm⟩,
    ⟨0x07, .v, .v, .v, 0, 0, 0, true, 0, fun f => .vmaxu f.va f.vb f.vc f.vm⟩,
    ⟨0x08, .v, .v, .gr, 0, 0, 0, true, 0, fun f => .vaddVx f.va f.vb f.gc f.vm⟩,
    ⟨0x09, .v, .v, .gr, 0, 0, 0, true, 0, fun f => .vsubVx f.va f.vb f.gc f.vm⟩,
    ⟨0x0A, .v, .v, .gr, 0, 0, 0, true, 0, fun f => .vmulVx f.va f.vb f.gc f.vm⟩,
    ⟨0x0B, .v, .v, .gr, 0, 0, 0, true, 0, fun f => .vandVx f.va f.vb f.gc f.vm⟩,
    ⟨0x0C, .v, .v, .gr, 0, 0, 0, true, 0, fun f => .vorVx f.va f.vb f.gc f.vm⟩,
    ⟨0x0D, .v, .v, .gr, 0, 0, 0, true, 0, fun f => .vxorVx f.va f.vb f.gc f.vm⟩ ]
def rowsPage8_1 : List Row :=
  [ ⟨0x0E, .v, .v, .gr, 0, 0, 0, true, 0, fun f => .vsllVx f.va f.vb f.gc f.vm⟩,
    ⟨0x0F, .v, .v, .gr, 0, 0, 0, true, 0, fun f => .vsrlVx f.va f.vb f.gc f.vm⟩,
    ⟨0x10, .l, .v, .v, 0, 0, 0, true, 0, fun f => .vmseq f.la f.vb f.vc f.vm⟩,
    ⟨0x11, .l, .v, .v, 0, 0, 0, true, 0, fun f => .vmsne f.la f.vb f.vc f.vm⟩,
    ⟨0x12, .l, .v, .v, 0, 0, 0, true, 0, fun f => .vmslt f.la f.vb f.vc f.vm⟩,
    ⟨0x13, .l, .v, .v, 0, 0, 0, true, 0, fun f => .vmsltu f.la f.vb f.vc f.vm⟩,
    ⟨0x14, .l, .v, .v, 0, 0, 0, true, 0, fun f => .vmsle f.la f.vb f.vc f.vm⟩,
    ⟨0x15, .l, .v, .v, 0, 0, 0, true, 0, fun f => .vmsleu f.la f.vb f.vc f.vm⟩,
    ⟨0x18, .v, .v, .v, 0, 0, 0, true, 0, fun f => .vsadd f.va f.vb f.vc f.vm⟩,
    ⟨0x19, .v, .v, .v, 0, 0, 0, true, 0, fun f => .vsaddu f.va f.vb f.vc f.vm⟩,
    ⟨0x1A, .v, .v, .v, 0, 0, 0, true, 0, fun f => .vssub f.va f.vb f.vc f.vm⟩,
    ⟨0x1B, .v, .v, .v, 0, 0, 0, true, 0, fun f => .vssubu f.va f.vb f.vc f.vm⟩,
    ⟨0x1C, .v, .z, .gr, 0, 0, 0, true, 0, fun f => .vmvVx f.va f.gc f.vm⟩,
    ⟨0x1D, .gw, .v, .z, 0, 0, 0, false, 0, fun f => .vmvXs f.ga f.vb⟩ ]
def rowsPage8_2 : List Row :=
  [ ⟨0x1E, .v, .z, .gr, 0, 0, 0, false, 0, fun f => .vmvSx f.va f.gc⟩,
    ⟨0x1F, .v, .z, .z, 0, 0, 0, true, 0, fun f => .vid f.va f.vm⟩ ]
def rowsPage8 : List Row := rowsPage8_0 ++ rowsPage8_1 ++ rowsPage8_2

def rowsPage9_0 : List Row :=
  [ ⟨0x00, .v, .v, .v, 0, 0, 0, true, 0, fun f => .vfdiv f.va f.vb f.vc f.vm⟩,
    ⟨0x01, .v, .v, .z, 0, 0, 0, true, 0, fun f => .vfsqrt f.va f.vb f.vm⟩,
    ⟨0x02, .v, .v, .v, 0, 0, 0, true, 0, fun f => .vfnmacc f.va f.vb f.vc f.vm⟩,
    ⟨0x03, .v, .v, .v, 0, 0, 0, true, 0, fun f => .vfmsac f.va f.vb f.vc f.vm⟩,
    ⟨0x04, .v, .v, .z, 0, 0, 0, true, 0, fun f => .vfneg f.va f.vb f.vm⟩,
    ⟨0x05, .v, .v, .z, 0, 0, 0, true, 0, fun f => .vfabs f.va f.vb f.vm⟩,
    ⟨0x08, .v, .v, .gr, 0, 0, 0, true, 0, fun f => .vfaddVf f.va f.vb f.gc f.vm⟩,
    ⟨0x09, .v, .v, .gr, 0, 0, 0, true, 0, fun f => .vfsubVf f.va f.vb f.gc f.vm⟩,
    ⟨0x0A, .v, .v, .gr, 0, 0, 0, true, 0, fun f => .vfmulVf f.va f.vb f.gc f.vm⟩,
    ⟨0x0B, .v, .v, .gr, 0, 0, 0, true, 0, fun f => .vfmaccVf f.va f.vb f.gc f.vm⟩,
    ⟨0x0C, .v, .v, .gr, 0, 0, 0, true, 0, fun f => .vfminVf f.va f.vb f.gc f.vm⟩,
    ⟨0x0D, .v, .v, .gr, 0, 0, 0, true, 0, fun f => .vfmaxVf f.va f.vb f.gc f.vm⟩,
    ⟨0x10, .l, .v, .v, 0, 0, 0, true, 0, fun f => .vmfeq f.la f.vb f.vc f.vm⟩,
    ⟨0x11, .l, .v, .v, 0, 0, 0, true, 0, fun f => .vmfne f.la f.vb f.vc f.vm⟩ ]
def rowsPage9_1 : List Row :=
  [ ⟨0x12, .l, .v, .v, 0, 0, 0, true, 0, fun f => .vmflt f.la f.vb f.vc f.vm⟩,
    ⟨0x13, .l, .v, .v, 0, 0, 0, true, 0, fun f => .vmfle f.la f.vb f.vc f.vm⟩,
    ⟨0x18, .v, .v, .z, 0, 0, 0, true, 0, fun f => .vfcvtXF f.va f.vb f.vm⟩,
    ⟨0x19, .v, .v, .z, 0, 0, 0, true, 0, fun f => .vfcvtFX f.va f.vb f.vm⟩,
    ⟨0x1A, .v, .v, .z, 0, 0, 0, true, 0, fun f => .vfwcvt f.va f.vb f.vm⟩,
    ⟨0x1B, .v, .v, .z, 0, 0, 0, true, 0, fun f => .vfncvt f.va f.vb f.vm⟩ ]
def rowsPage9 : List Row := rowsPage9_0 ++ rowsPage9_1

def rowsPageA_0 : List Row :=
  [ ⟨0x00, .v, .v, .gr, 0, 0, 0, true, 0, fun f => .vslideup f.va f.vb f.gc f.vm⟩,
    ⟨0x01, .v, .v, .gr, 0, 0, 0, true, 0, fun f => .vslidedn f.va f.vb f.gc f.vm⟩,
    ⟨0x02, .v, .v, .v, 0, 0, 0, true, 0, fun f => .vrgather f.va f.vb f.vc f.vm⟩,
    ⟨0x03, .v, .v, .l, 0, 0, 0, false, 0, fun f => .vcompress f.va f.vb f.lc⟩,
    ⟨0x04, .v, .v, .v, 0, 0, 0, true, 0, fun f => .vmerge f.va f.vb f.vc f.vm⟩,
    ⟨0x08, .gw, .v, .gr, 0, 0, 0, true, 0, fun f => .vredsum f.ga f.vb f.gc f.vm⟩,
    ⟨0x09, .gw, .v, .gr, 0, 0, 0, true, 0, fun f => .vredmax f.ga f.vb f.gc f.vm⟩,
    ⟨0x0A, .gw, .v, .gr, 0, 0, 0, true, 0, fun f => .vredmin f.ga f.vb f.gc f.vm⟩,
    ⟨0x0B, .gw, .v, .gr, 0, 0, 0, true, 0, fun f => .vredand f.ga f.vb f.gc f.vm⟩,
    ⟨0x0C, .gw, .v, .gr, 0, 0, 0, true, 0, fun f => .vredor f.ga f.vb f.gc f.vm⟩,
    ⟨0x0D, .gw, .v, .gr, 0, 0, 0, true, 0, fun f => .vfredsum f.ga f.vb f.gc f.vm⟩,
    ⟨0x0E, .gw, .v, .gr, 0, 0, 0, true, 0, fun f => .vfredmax f.ga f.vb f.gc f.vm⟩,
    ⟨0x0F, .gw, .v, .gr, 0, 0, 0, true, 0, fun f => .vfredmin f.ga f.vb f.gc f.vm⟩,
    ⟨0x10, .l, .l, .l, 0, 0, 0, false, 0, fun f => .vmand f.la f.lb f.lc⟩ ]
def rowsPageA_1 : List Row :=
  [ ⟨0x11, .l, .l, .l, 0, 0, 0, false, 0, fun f => .vmor f.la f.lb f.lc⟩,
    ⟨0x12, .l, .l, .l, 0, 0, 0, false, 0, fun f => .vmxor f.la f.lb f.lc⟩,
    ⟨0x13, .l, .l, .z, 0, 0, 0, false, 0, fun f => .vmnot f.la f.lb⟩,
    ⟨0x14, .gw, .l, .z, 0, 0, 0, true, 0, fun f => .vcpop f.ga f.lb f.vm⟩,
    ⟨0x15, .gw, .l, .z, 0, 0, 0, true, 0, fun f => .vfirst f.ga f.lb f.vm⟩,
    ⟨0x18, .gw, .gr, .l, 3, 3, 1, false, 0, fun f => .setvl f.ga f.gb (f.zi 15)⟩,
    ⟨0x19, .gw, .gr, .gr, 0, 0, 0, false, 0, fun f => .setvlr f.ga f.gb f.gc⟩,
    ⟨0x20, .v, .v, .l, 0, 0, 0, true, 0, fun f => .vcvtSat f.va f.vb f.lc f.vm⟩,
    ⟨0x21, .v, .v, .l, 0, 0, 0, true, 0, fun f => .vcvtNsat f.va f.vb f.lc f.vm⟩,
    ⟨0x22, .v, .v, .l, 0, 0, 0, true, 0, fun f => .vcvtW f.va f.vb f.lc f.vm⟩,
    ⟨0x23, .v, .v, .l, 0, 0, 0, true, 0, fun f => .vpack f.va f.vb f.lc f.vm⟩,
    ⟨0x24, .v, .v, .l, 0, 0, 0, true, 0, fun f => .vunpk f.va f.vb f.lc f.vm⟩,
    ⟨0x28, .v, .gr, .v, 0, 0, 0, true, 0, fun f => .vamoOr f.va f.gb f.vc f.vm⟩,
    ⟨0x29, .v, .gr, .v, 0, 0, 0, true, 0, fun f => .vamoAnd f.va f.gb f.vc f.vm⟩ ]
def rowsPageA_2 : List Row :=
  [ ⟨0x2A, .v, .gr, .v, 0, 0, 0, true, 0, fun f => .vamoAdd f.va f.gb f.vc f.vm⟩,
    ⟨0x2B, .v, .gr, .v, 0, 0, 0, true, 0, fun f => .vamoMax f.va f.gb f.vc f.vm⟩,
    ⟨0x2C, .v, .gr, .v, 0, 0, 0, true, 0, fun f => .vamoMin f.va f.gb f.vc f.vm⟩ ]
def rowsPageA : List Row := rowsPageA_0 ++ rowsPageA_1 ++ rowsPageA_2

def rowsPage10_0 : List Row :=
  [ ⟨0x00, .z, .gr, .z, 0, 0, 0, false, 0, fun f => .ago f.gb⟩,
    ⟨0x01, .z, .z, .z, 0, 0, 0, false, 0, fun _ => .aend⟩,
    ⟨0x02, .gq, .gr, .l, 0, 0, 0, false, 0, fun f => .movq f.ga f.gb f.lc⟩,
    ⟨0x03, .gw, .gr, .z, 0, 0, 0, false, 0, fun f => .qlevel f.ga f.gb⟩ ]
def rowsPage10 : List Row := rowsPage10_0

def rowsPage11_0 : List Row :=
  [ ⟨0x00, .l, .gr, .z, 0, 0, 0, false, 0, fun f => .pcfg f.la f.gb⟩,
    ⟨0x01, .gr, .gr, .gr, 0, 0, 0, false, 0, fun f => .msgPut f.ga f.gb f.gc⟩,
    ⟨0x02, .gr, .gr, .gr, 0, 0, 0, false, 0, fun f => .msgGet f.ga f.gb f.gc⟩,
    ⟨0x03, .gr, .gr, .gr, 0, 0, 0, false, 0, fun f => .msgAmo f.ga f.gb f.gc⟩,
    ⟨0x04, .gr, .gr, .z, 0, 0, 0, false, 0, fun f => .msgSig f.ga f.gb⟩ ]
def rowsPage11 : List Row := rowsPage11_0

def rowsPage12_0 : List Row :=
  [ ⟨0x00, .z, .gr, .gr, 0, 0, 0, false, 0, fun f => .task f.gb f.gc⟩,
    ⟨0x01, .z, .z, .z, 0, 0, 0, false, 0, fun _ => .tret⟩,
    ⟨0x02, .l, .z, .z, 0, 0, 0, false, 0, fun f => .tsusp f.la⟩,
    ⟨0x03, .gw, .gr, .z, 0, 0, 0, false, 0, fun f => .tqcfg f.ga f.gb⟩,
    ⟨0x04, .gw, .z, .z, 0, 0, 0, false, 0, fun f => .tqdepth f.ga⟩ ]
def rowsPage12 : List Row := rowsPage12_0

def rowsPage13_0 : List Row :=
  [ ⟨0x00, .l, .gr, .l, 3, 3, 1, false, 0, fun f => .capt f.la f.gb (f.zi 15)⟩,
    ⟨0x01, .l, .gr, .z, 0, 0, 0, false, 0, fun f => .captRef f.la f.gb⟩,
    ⟨0x02, .l, .gr, .z, 0, 0, 0, false, 0, fun f => .kdup f.la f.gb⟩,
    ⟨0x03, .l, .z, .z, 0, 0, 0, false, 0, fun f => .kdrop f.la⟩,
    ⟨0x04, .gw, .l, .l, 3, 3, 1, false, 0, fun f => .kld f.ga f.lb (f.zi 15)⟩,
    ⟨0x05, .l, .gr, .l, 3, 3, 1, false, 0, fun f => .kst f.la f.gb (f.zi 15)⟩,
    ⟨0x06, .gw, .gr, .z, 0, 0, 0, false, 0, fun f => .frame f.ga f.gb⟩,
    ⟨0x07, .gw, .z, .z, 0, 0, 0, false, 0, fun f => .unframe f.ga⟩ ]
def rowsPage13 : List Row := rowsPage13_0

def rowsPage14_0 : List Row :=
  [ ⟨0x00, .gr, .gr, .gr, 0, 0, 0, false, 0, fun f => .mmaE4m3 f.ga f.gb f.gc⟩,
    ⟨0x01, .gr, .gr, .gr, 0, 0, 0, false, 0, fun f => .mmaE5m2 f.ga f.gb f.gc⟩,
    ⟨0x02, .gr, .gr, .gr, 0, 0, 0, false, 0, fun f => .mmaE3m2 f.ga f.gb f.gc⟩,
    ⟨0x03, .gr, .gr, .gr, 0, 0, 0, false, 0, fun f => .mmaE2m3 f.ga f.gb f.gc⟩,
    ⟨0x04, .gr, .gr, .gr, 0, 0, 0, false, 0, fun f => .mmaE2m1 f.ga f.gb f.gc⟩,
    ⟨0x05, .gr, .gr, .gr, 0, 0, 0, false, 0, fun f => .mmaBf16 f.ga f.gb f.gc⟩,
    ⟨0x06, .gr, .gr, .gr, 0, 0, 0, false, 0, fun f => .mmaF16 f.ga f.gb f.gc⟩,
    ⟨0x07, .gr, .gr, .gr, 0, 0, 0, false, 0, fun f => .mmaE4m3e5m2 f.ga f.gb f.gc⟩,
    ⟨0x08, .gr, .gr, .gr, 0, 0, 0, false, 0, fun f => .mmaE5m2e4m3 f.ga f.gb f.gc⟩,
    ⟨0x10, .gr, .gr, .gr, 0, 0, 0, false, 0, fun f => .mmaE4m3Mc f.ga f.gb f.gc⟩,
    ⟨0x11, .gr, .gr, .gr, 0, 0, 0, false, 0, fun f => .mmaE5m2Mc f.ga f.gb f.gc⟩,
    ⟨0x12, .gr, .gr, .gr, 0, 0, 0, false, 0, fun f => .mmaE3m2Mc f.ga f.gb f.gc⟩,
    ⟨0x13, .gr, .gr, .gr, 0, 0, 0, false, 0, fun f => .mmaE2m3Mc f.ga f.gb f.gc⟩,
    ⟨0x14, .gr, .gr, .gr, 0, 0, 0, false, 0, fun f => .mmaE2m1Mc f.ga f.gb f.gc⟩ ]
def rowsPage14_1 : List Row :=
  [ ⟨0x15, .gr, .gr, .gr, 0, 0, 0, false, 0, fun f => .mmaBf16Mc f.ga f.gb f.gc⟩,
    ⟨0x16, .gr, .gr, .gr, 0, 0, 0, false, 0, fun f => .mmaF16Mc f.ga f.gb f.gc⟩,
    ⟨0x17, .gr, .gr, .gr, 0, 0, 0, false, 0, fun f => .mmaE4m3e5m2Mc f.ga f.gb f.gc⟩,
    ⟨0x18, .gr, .gr, .gr, 0, 0, 0, false, 0, fun f => .mmaE5m2e4m3Mc f.ga f.gb f.gc⟩,
    ⟨0x20, .z, .z, .z, 0, 0, 0, false, 0, fun _ => .mmaa⟩,
    ⟨0x21, .z, .gr, .gr, 0, 0, 0, false, 0, fun f => .scacc f.gb f.gc⟩,
    ⟨0x22, .z, .z, .z, 0, 0, 0, false, 0, fun _ => .accz⟩,
    ⟨0x23, .z, .z, .z, 0, 0, 0, false, 0, fun _ => .accswap⟩,
    ⟨0x24, .z, .gr, .z, 0, 0, 0, false, 0, fun f => .acfg f.gb⟩,
    ⟨0x25, .v, .gr, .gr, 0, 0, 0, true, 0, fun f => .accrdR f.va f.gb f.gc f.vm⟩,
    ⟨0x26, .v, .gr, .gr, 0, 0, 0, true, 0, fun f => .accwrR f.va f.gb f.gc f.vm⟩,
    ⟨0x27, .v, .gr, .gr, 0, 0, 0, true, 0, fun f => .accrdC f.va f.gb f.gc f.vm⟩,
    ⟨0x28, .v, .gr, .gr, 0, 0, 0, true, 0, fun f => .accwrC f.va f.gb f.gc f.vm⟩,
    ⟨0x29, .gr, .gr, .l, 0, 0, 0, false, 0, fun f => .accst f.ga f.gb f.lc⟩ ]
def rowsPage14 : List Row := rowsPage14_0 ++ rowsPage14_1

def rowsPage15_0 : List Row :=
  [ ⟨0x00, .gr, .gr, .gr, 0, 0, 0, false, 0, fun f => .bkAdd f.ga f.gb f.gc⟩,
    ⟨0x01, .gr, .gr, .gr, 0, 0, 0, false, 0, fun f => .bkMul f.ga f.gb f.gc⟩,
    ⟨0x02, .gr, .gr, .gr, 0, 0, 0, false, 0, fun f => .bkFma f.ga f.gb f.gc⟩,
    ⟨0x03, .gr, .gr, .gr, 0, 0, 0, false, 0, fun f => .bkMax f.ga f.gb f.gc⟩,
    ⟨0x04, .gr, .gr, .gr, 0, 0, 0, false, 0, fun f => .bkMin f.ga f.gb f.gc⟩,
    ⟨0x05, .gr, .gr, .gr, 0, 0, 0, false, 0, fun f => .bkScl f.ga f.gb f.gc⟩,
    ⟨0x06, .gr, .gr, .gr, 0, 0, 0, false, 0, fun f => .bkOr f.ga f.gb f.gc⟩,
    ⟨0x07, .gr, .gr, .gr, 0, 0, 0, false, 0, fun f => .bkAnd f.ga f.gb f.gc⟩,
    ⟨0x08, .gr, .gr, .gr, 0, 0, 0, false, 0, fun f => .bkFill f.ga f.gb f.gc⟩,
    ⟨0x09, .gr, .gr, .gr, 0, 0, 0, false, 0, fun f => .bkRsum f.ga f.gb f.gc⟩,
    ⟨0x0A, .gr, .gr, .gr, 0, 0, 0, false, 0, fun f => .bkRmax f.ga f.gb f.gc⟩,
    ⟨0x0B, .gr, .gr, .gr, 0, 0, 0, false, 0, fun f => .bkExps f.ga f.gb f.gc⟩,
    ⟨0x0C, .gr, .gr, .z, 0, 0, 0, false, 0, fun f => .bkCvt f.ga f.gb⟩,
    ⟨0x10, .gr, .gr, .v, 0, 0, 0, false, 0, fun f => .bkAddV f.ga f.gb f.vc⟩ ]
def rowsPage15_1 : List Row :=
  [ ⟨0x11, .gr, .gr, .v, 0, 0, 0, false, 0, fun f => .bkMulV f.ga f.gb f.vc⟩,
    ⟨0x12, .gr, .gr, .v, 0, 0, 0, false, 0, fun f => .bkFmaV f.ga f.gb f.vc⟩,
    ⟨0x13, .gr, .gr, .v, 0, 0, 0, false, 0, fun f => .bkMaxV f.ga f.gb f.vc⟩,
    ⟨0x14, .gr, .gr, .v, 0, 0, 0, false, 0, fun f => .bkMinV f.ga f.gb f.vc⟩,
    ⟨0x15, .gr, .gr, .v, 0, 0, 0, false, 0, fun f => .bkSclV f.ga f.gb f.vc⟩,
    ⟨0x16, .gr, .gr, .v, 0, 0, 0, false, 0, fun f => .bkOrV f.ga f.gb f.vc⟩,
    ⟨0x17, .gr, .gr, .v, 0, 0, 0, false, 0, fun f => .bkAndV f.ga f.gb f.vc⟩,
    ⟨0x18, .gr, .gr, .v, 0, 0, 0, false, 0, fun f => .bkFillV f.ga f.gb f.vc⟩,
    ⟨0x20, .gr, .gr, .gr, 0, 0, 0, false, 0, fun f => .bkAddR f.ga f.gb f.gc⟩,
    ⟨0x21, .gr, .gr, .gr, 0, 0, 0, false, 0, fun f => .bkMulR f.ga f.gb f.gc⟩,
    ⟨0x22, .gr, .gr, .gr, 0, 0, 0, false, 0, fun f => .bkFmaR f.ga f.gb f.gc⟩,
    ⟨0x23, .gr, .gr, .gr, 0, 0, 0, false, 0, fun f => .bkMaxR f.ga f.gb f.gc⟩,
    ⟨0x24, .gr, .gr, .gr, 0, 0, 0, false, 0, fun f => .bkMinR f.ga f.gb f.gc⟩,
    ⟨0x26, .gr, .gr, .gr, 0, 0, 0, false, 0, fun f => .bkOrR f.ga f.gb f.gc⟩ ]
def rowsPage15_2 : List Row :=
  [ ⟨0x27, .gr, .gr, .gr, 0, 0, 0, false, 0, fun f => .bkAndR f.ga f.gb f.gc⟩ ]
def rowsPage15 : List Row := rowsPage15_0 ++ rowsPage15_1 ++ rowsPage15_2

def rowsPage16_0 : List Row :=
  [ ⟨0x00, .l, .gr, .gr, 0, 0, 0, false, 0, fun f => .cpy f.la f.gb f.gc⟩,
    ⟨0x01, .l, .gr, .gr, 0, 0, 0, false, 0, fun f => .cpg f.la f.gb f.gc⟩,
    ⟨0x02, .l, .gr, .z, 0, 0, 0, false, 0, fun f => .cpwait f.la f.gb⟩,
    ⟨0x03, .gw, .z, .l, 0, 0, 0, false, 0, fun f => .cpstat f.ga f.lc⟩ ]
def rowsPage16 : List Row := rowsPage16_0

def rowsPage18_0 : List Row :=
  [ ⟨0x00, .z, .z, .z, 0, 0, 0, false, 0, fun _ => .fenceCore⟩,
    ⟨0x01, .z, .z, .z, 0, 0, 0, false, 0, fun _ => .fenceCl⟩,
    ⟨0x02, .z, .z, .z, 0, 0, 0, false, 0, fun _ => .fenceDie⟩,
    ⟨0x03, .z, .z, .z, 0, 0, 0, false, 0, fun _ => .fencePkg⟩,
    ⟨0x04, .z, .z, .z, 0, 0, 0, false, 0, fun _ => .fenceSys⟩,
    ⟨0x08, .z, .gr, .gr, 0, 0, 0, false, 0, fun f => .barInit f.gb f.gc⟩,
    ⟨0x09, .gw, .gr, .z, 0, 0, 0, false, 0, fun f => .barArr f.ga f.gb⟩,
    ⟨0x0A, .z, .gr, .gr, 0, 0, 0, false, 0, fun f => .barExp f.gb f.gc⟩,
    ⟨0x0B, .z, .gr, .gr, 0, 0, 0, false, 0, fun f => .barWait f.gb f.gc⟩,
    ⟨0x10, .z, .z, .z, 0, 0, 0, false, 0, fun _ => .sstep⟩ ]
def rowsPage18 : List Row := rowsPage18_0

def rowsPage19_0 : List Row :=
  [ ⟨0x00, .gw, .z, .l, 3, 3, 1, false, 0, fun f => .srd f.ga (f.zi 15)⟩,
    ⟨0x01, .z, .gr, .l, 3, 3, 1, false, 0, fun f => .swr f.gb (f.zi 15)⟩,
    ⟨0x02, .z, .z, .z, 0, 0, 0, false, 0, fun _ => .eret⟩,
    ⟨0x03, .z, .z, .l, 3, 3, 1, false, 0, fun f => .trap (f.zi 15)⟩,
    ⟨0x04, .z, .z, .z, 0, 0, 0, false, 0, fun _ => .brk⟩,
    ⟨0x05, .z, .z, .z, 0, 0, 0, false, 0, fun _ => .halt⟩,
    ⟨0x06, .z, .z, .z, 0, 0, 0, false, 0, fun _ => .fenceI⟩ ]
def rowsPage19 : List Row := rowsPage19_0

def rowsPage1A_0 : List Row :=
  [ ⟨0x00, .z, .gr, .gr, 0, 0, 0, false, 0, fun f => .wqry f.gb f.gc⟩,
    ⟨0x01, .gw, .gr, .l, 0, 0, 0, false, 0, fun f => .widF f.ga f.gb f.lc⟩ ]
def rowsPage1A : List Row := rowsPage1A_0

/-- The rows of a major opcode (R33). -/
def majorRows : Nat → List Row
  | 0 => rowsMajor0
  | 1 => rowsMajor1
  | 2 => rowsMajor2
  | 3 => rowsMajor3
  | 4 => rowsMajor4
  | 5 => rowsMajor5
  | 6 => rowsMajor6
  | 7 => rowsMajor7
  | 8 => rowsMajor8
  | 9 => rowsMajor9
  | 10 => rowsMajorA
  | 11 => rowsMajorB
  | 12 => rowsMajorC
  | _ => []
/-- The rows of a page (R44); an unassigned page has none. -/
def pageRows : Nat → List Row
  | 1 => rowsPage1
  | 2 => rowsPage2
  | 3 => rowsPage3
  | 4 => rowsPage4
  | 8 => rowsPage8
  | 9 => rowsPage9
  | 10 => rowsPageA
  | 16 => rowsPage10
  | 17 => rowsPage11
  | 18 => rowsPage12
  | 19 => rowsPage13
  | 20 => rowsPage14
  | 21 => rowsPage15
  | 22 => rowsPage16
  | 24 => rowsPage18
  | 25 => rowsPage19
  | 26 => rowsPage1A
  | _ => []
/-- The selector of an unpaged base word (R33). -/
def majorSel (w : Half) : Nat :=
  match hb w 15 12 with
  | 0x0 => hb w 2 0
  | 0x3 => hb w 8 8
  | 0x4 => hb w 5 4
  | 0x5 => hb w 5 4
  | 0x6 => hb w 5 3
  | 0x7 => hb w 11 11
  | 0x8 => hb w 8 6
  | 0x9 => hb w 11 9
  | 0xA => hb w 2 0
  | 0xB => hb w 5 3
  | _ => 0
/-- Checks 2 and 3 of R47: the row of a chain, or the cause and subcode. -/
def findRow (xp : Option Half) (w : Half) : Except (Nat × Nat) Row :=
  match hb w 15 12, xp with
  | 0xD, _ => .error (0x001, 1)
  | 0xE, none => .error (0x004, 0)
  | 0xE, some x =>
    match pageRows (hb x 9 4) with
    | [] => .error (0x001, 2)
    | rs => match rs.find? fun r => r.fn == hb x 3 1 * 8 + hb w 2 0 with
      | some r => .ok r
      | none => .error (0x001, 3)
  | m, _ => match (majorRows m).find? fun r => r.fn == majorSel w with
    | some r => .ok r
    | none => .error (0x001, 4)
def isG (k : Fk) : Bool := k == .gr || k == .gw || k == .gq
def isV (k : Fk) : Bool := k == .v
/-- Check 4 of R47, in the order of R37. -/
def check4 (r : Row) (c : Chain) : Option Nat :=
  let xr := c.xr.getD 0
  let xv := c.xv.getD 0
  let stray (k : Fk → Bool) (x : Half) : Bool :=
    (!k r.ka && hb x 9 8 != 0) || (!k r.kb && hb x 7 6 != 0) || (!k r.kc && hb x 5 4 != 0)
  let straySp := (!isG r.ka && xr.getLsbD 3) || (!isG r.kb && xr.getLsbD 2) || (!isG r.kc && xr.getLsbD 1)
  if r.xiMax < c.xis.length then some 5
  else if stray isG xr || straySp || stray isV xv then some 6
  else if !r.mask && hb xv 3 1 != 0 then some 8
  else if c.xr.isSome && !(isG r.ka || isG r.kb || isG r.kc) then some 6
  else if c.xv.isSome && !(isV r.ka || isV r.kb || isV r.kc || r.mask) then some 6
  else none
/-- The fields of a chain under a row. -/
def fieldsOf (r : Row) (c : Chain) (w : Half) : Fld :=
  let lowC := hb w 15 12 == 0xB
  let hiImm := c.xis.foldl (fun v x => v * 4096 + hb x 11 0) 0
  { ba := BitVec.ofNat 3 (hb w 11 9), bb := BitVec.ofNat 3 (hb w 8 6),
    bc := BitVec.ofNat 3 (if lowC then hb w 2 0 else hb w 5 3), bd := BitVec.ofNat 3 (hb w 2 0),
    xr := c.xr.getD 0, xv := c.xv.getD 0,
    imm := hiImm * 2 ^ r.immW + w.toNat / 2 ^ r.immLo % 2 ^ r.immW, immW := 12 * c.xis.length + r.immW }
/-- Check 5 of R47: fixed fields (0x002 subcode 0x01), then special codes (0x002 subcode 0x02). -/
def check5 (r : Row) (f : Fld) (w : Half) : Option Nat :=
  let z (k : Fk) (b : BitVec 3) : Bool := k == .z && b != 0
  let illegal (k : Fk) (g : GReg) : Bool :=
    match k with
    | .gr => !rOk g
    | .gw => !wOk g
    | .gq => !qOk g
    | _ => false
  if z r.ka f.ba || z r.kb f.bb || z r.kc f.bc || w.toNat % (r.low + 1) != 0 then some 1
  else if illegal r.ka f.ga || illegal r.kb f.gb || illegal r.kc f.gc then some 2
  else none
/-- The instruction of a chain that has ended. A chain that is no instruction of R33 to R45 is the decode trap of R46,
with the index of the word that FADDR names (R48). -/
def decodeChain (c : Chain) : Instr :=
  match c.bad, c.base with
  | some sub, _ => .decodeTrap 0x003 sub (c.count - 1)
  | none, none => .decodeTrap 0 0 0
  | none, some w =>
    let trap (cause sub : Nat) : Instr := .decodeTrap (BitVec.ofNat 9 cause) (BitVec.ofNat 7 sub) (c.count - 1)
    match findRow c.xp w with
    | .error (cause, sub) => trap cause sub
    | .ok r =>
      match check4 r c with
      | some sub => trap 0x003 sub
      | none =>
        let f := fieldsOf r c w
        match check5 r f w with
        | some sub => trap 0x002 sub
        | none => r.build f
/-- The instruction that a list of words begins with. -/
def decode (ws : List Half) : Instr := decodeChain (chainRead Chain.start ws)
/-- The decoder refuses the words: they are a decode trap. -/
def isTrap : Instr → Bool
  | .decodeTrap .. => true
  | _ => false

/-! ### The encoder -/

/-- A field to encode. -/
inductive Fe where
  | n
  | g (r : GReg)
  | v (r : VReg)
  | l (b : BitVec 3)
def feLow : Fe → Nat
  | .n => 0
  | .g (.g n) => n.toNat % 8
  | .g (.sp n) => n.toNat % 8
  | .v r => r.toNat % 8
  | .l b => b.toNat
def gHi : Fe → Nat
  | .g (.g n) => n.toNat / 8
  | .g (.sp n) => n.toNat / 8
  | _ => 0
def gSp : Fe → Nat
  | .g (.sp _) => 1
  | _ => 0
def vHi : Fe → Nat
  | .v r => r.toNat / 8
  | _ => 0
/-- The XI payloads and the base bits of an immediate. -/
structure Im where
  xis : List Half
  base : Nat
def noImm : Im := ⟨[], 0⟩
def xiWord (p : Nat) : Half := BitVec.ofNat 16 (0xF000 + p % 4096)
/-- Split an immediate of `k` XI prefixes whose unsigned pattern is `p`. -/
def imOf (p lo wb k : Nat) : Im :=
  ⟨(if k = 0 then [] else if k = 1 then [xiWord (p / 2 ^ wb)] else [xiWord (p / 2 ^ (wb + 12)), xiWord (p / 2 ^ wb)]),
   p % 2 ^ wb * 2 ^ lo⟩
def fitsS (x : Int) (w : Nat) : Bool := decide (-(2 ^ (w - 1) : Int) ≤ x ∧ x < 2 ^ (w - 1))
/-- A signed immediate with the fewest XI (R39). -/
def sw {n : Nat} (i : BitVec n) (lo wb xi : Nat) : Im :=
  let x := i.toInt
  let k := if fitsS x wb then 0 else if xi = 1 || fitsS x (wb + 12) then 1 else 2
  imOf (x % (2 ^ (wb + 12 * k) : Int)).toNat lo wb k
/-- An unsigned immediate with the fewest XI (R39). -/
def zw {n : Nat} (i : BitVec n) (lo wb xi : Nat) : Im :=
  let x := i.toNat
  let k := if x < 2 ^ wb then 0 else if xi = 1 || decide (x < 2 ^ (wb + 12)) then 1 else 2
  imOf x lo wb k
/-- The words of an instruction: prefixes in the order of R37, then the base word. -/
def asm (xp : Option Half) (base : Nat) (lowC : Bool) (a b c : Fe) (im : Im) (vm : MReg) : List Half :=
  let sp := gSp a * 8 + gSp b * 4 + gSp c * 2
  let hi := gHi a * 256 + gHi b * 64 + gHi c * 16
  let vhi := vHi a * 256 + vHi b * 64 + vHi c * 16
  im.xis ++ xp.toList ++ (if sp + hi = 0 then [] else [BitVec.ofNat 16 (0xD400 + hi + sp)]) ++
    (if vhi + vm.toNat = 0 then [] else [BitVec.ofNat 16 (0xD800 + vhi + 2 * vm.toNat)]) ++
    [BitVec.ofNat 16 (base + feLow a * 512 + feLow b * 64 + (if lowC then feLow c else feLow c * 8) + im.base)]
/-- The words of a well-formed instruction; an event has none. -/
def encode : Instr → List Half
  | .add a b c => asm none 0x0000 false (.g a) (.g b) (.g c) noImm 0
  | .sub a b c => asm none 0x0001 false (.g a) (.g b) (.g c) noImm 0
  | .and a b c => asm none 0x0002 false (.g a) (.g b) (.g c) noImm 0
  | .or a b c => asm none 0x0003 false (.g a) (.g b) (.g c) noImm 0
  | .xor a b c => asm none 0x0004 false (.g a) (.g b) (.g c) noImm 0
  | .sll a b c => asm none 0x0005 false (.g a) (.g b) (.g c) noImm 0
  | .srl a b c => asm none 0x0006 false (.g a) (.g b) (.g c) noImm 0
  | .sra a b c => asm none 0x0007 false (.g a) (.g b) (.g c) noImm 0
  | .addi a b imm => asm none 0x1000 false (.g a) (.g b) (.n) (sw imm 0 6 2) 0
  | .li a imm => asm none 0x2000 false (.g a) (.n) (.n) (sw imm 0 9 2) 0
  | .adh a imm => asm none 0x3000 false (.g a) (.n) (.n) (sw imm 0 8 1) 0
  | .adpc a imm => asm none 0x3100 false (.g a) (.n) (.n) (sw imm 0 8 1) 0
  | .ldB a b imm => asm none 0x4000 false (.g a) (.g b) (.n) (sw imm 0 4 2) 0
  | .ldH a b imm => asm none 0x4010 false (.g a) (.g b) (.n) (sw imm 0 4 2) 0
  | .ldW a b imm => asm none 0x4020 false (.g a) (.g b) (.n) (sw imm 0 4 2) 0
  | .ldD a b imm => asm none 0x4030 false (.g a) (.g b) (.n) (sw imm 0 4 2) 0
  | .stB a b imm => asm none 0x5000 false (.g a) (.g b) (.n) (sw imm 0 4 2) 0
  | .stH a b imm => asm none 0x5010 false (.g a) (.g b) (.n) (sw imm 0 4 2) 0
  | .stW a b imm => asm none 0x5020 false (.g a) (.g b) (.n) (sw imm 0 4 2) 0
  | .stD a b imm => asm none 0x5030 false (.g a) (.g b) (.n) (sw imm 0 4 2) 0
  | .brEq a b disp => asm none 0x6000 false (.g a) (.g b) (.n) (sw disp 0 3 1) 0
  | .brNe a b disp => asm none 0x6008 false (.g a) (.g b) (.n) (sw disp 0 3 1) 0
  | .brLt a b disp => asm none 0x6010 false (.g a) (.g b) (.n) (sw disp 0 3 1) 0
  | .brGe a b disp => asm none 0x6018 false (.g a) (.g b) (.n) (sw disp 0 3 1) 0
  | .brLtu a b disp => asm none 0x6020 false (.g a) (.g b) (.n) (sw disp 0 3 1) 0
  | .brGeu a b disp => asm none 0x6028 false (.g a) (.g b) (.n) (sw disp 0 3 1) 0
  | .brPop disp => asm none 0x6030 false (.n) (.n) (.n) (sw disp 0 3 1) 0
  | .j disp => asm none 0x7000 false (.n) (.n) (.n) (sw disp 0 11 1) 0
  | .call disp => asm none 0x7800 false (.n) (.n) (.n) (sw disp 0 11 1) 0
  | .jr a => asm none 0x8000 false (.g a) (.n) (.n) noImm 0
  | .callr a => asm none 0x8040 false (.g a) (.n) (.n) noImm 0
  | .ret a => asm none 0x8080 false (.g a) (.n) (.n) noImm 0
  | .apply k => asm none 0x80C0 false (.l k) (.n) (.n) noImm 0
  | .padJ => asm none 0x9000 false (.n) (.n) (.n) noImm 0
  | .padC => asm none 0x9200 false (.n) (.n) (.n) noImm 0
  | .padK => asm none 0x9400 false (.n) (.n) (.n) noImm 0
  | .padN => asm none 0x9600 false (.n) (.n) (.n) noImm 0
  | .padF => asm none 0x9800 false (.n) (.n) (.n) noImm 0
  | .padT => asm none 0x9A00 false (.n) (.n) (.n) noImm 0
  | .vadd a b c vm => asm none 0xA000 false (.v a) (.v b) (.v c) noImm vm
  | .vsub a b c vm => asm none 0xA001 false (.v a) (.v b) (.v c) noImm vm
  | .vmul a b c vm => asm none 0xA002 false (.v a) (.v b) (.v c) noImm vm
  | .vmacc a b c vm => asm none 0xA003 false (.v a) (.v b) (.v c) noImm vm
  | .vmin a b c vm => asm none 0xA004 false (.v a) (.v b) (.v c) noImm vm
  | .vmax a b c vm => asm none 0xA005 false (.v a) (.v b) (.v c) noImm vm
  | .vand a b c vm => asm none 0xA006 false (.v a) (.v b) (.v c) noImm vm
  | .vor a b c vm => asm none 0xA007 false (.v a) (.v b) (.v c) noImm vm
  | .vld a b vm => asm none 0xB000 true (.v a) (.g b) (.n) noImm vm
  | .vlds a b c vm => asm none 0xB010 true (.v a) (.g b) (.g c) noImm vm
  | .vldx a b c vm => asm none 0xB020 true (.v a) (.g b) (.v c) noImm vm
  | .vldff a b vm => asm none 0xB030 true (.v a) (.g b) (.n) noImm vm
  | .vst a b vm => asm none 0xB008 true (.v a) (.g b) (.n) noImm vm
  | .vsts a b c vm => asm none 0xB018 true (.v a) (.g b) (.g c) noImm vm
  | .vstx a b c vm => asm none 0xB028 true (.v a) (.g b) (.v c) noImm vm
  | .wait ld st bk mx => asm none (0xC000 + mx.toNat) false (.l ld) (.l st) (.l bk) noImm 0
  | .mul a b c => asm (some 0xD010) 0xE000 false (.g a) (.g b) (.g c) noImm 0
  | .mulh a b c => asm (some 0xD010) 0xE001 false (.g a) (.g b) (.g c) noImm 0
  | .mulhu a b c => asm (some 0xD010) 0xE002 false (.g a) (.g b) (.g c) noImm 0
  | .mulhsu a b c => asm (some 0xD010) 0xE003 false (.g a) (.g b) (.g c) noImm 0
  | .div a b c => asm (some 0xD010) 0xE004 false (.g a) (.g b) (.g c) noImm 0
  | .divu a b c => asm (some 0xD010) 0xE005 false (.g a) (.g b) (.g c) noImm 0
  | .rem a b c => asm (some 0xD010) 0xE006 false (.g a) (.g b) (.g c) noImm 0
  | .remu a b c => asm (some 0xD010) 0xE007 false (.g a) (.g b) (.g c) noImm 0
  | .slt a b c => asm (some 0xD012) 0xE000 false (.g a) (.g b) (.g c) noImm 0
  | .sltu a b c => asm (some 0xD012) 0xE001 false (.g a) (.g b) (.g c) noImm 0
  | .min a b c => asm (some 0xD012) 0xE002 false (.g a) (.g b) (.g c) noImm 0
  | .max a b c => asm (some 0xD012) 0xE003 false (.g a) (.g b) (.g c) noImm 0
  | .minu a b c => asm (some 0xD012) 0xE004 false (.g a) (.g b) (.g c) noImm 0
  | .maxu a b c => asm (some 0xD012) 0xE005 false (.g a) (.g b) (.g c) noImm 0
  | .andn a b c => asm (some 0xD012) 0xE006 false (.g a) (.g b) (.g c) noImm 0
  | .orn a b c => asm (some 0xD012) 0xE007 false (.g a) (.g b) (.g c) noImm 0
  | .clz a b => asm (some 0xD014) 0xE000 false (.g a) (.g b) (.n) noImm 0
  | .ctz a b => asm (some 0xD014) 0xE001 false (.g a) (.g b) (.n) noImm 0
  | .popc a b => asm (some 0xD014) 0xE002 false (.g a) (.g b) (.n) noImm 0
  | .rev8 a b => asm (some 0xD014) 0xE003 false (.g a) (.g b) (.n) noImm 0
  | .sextB a b => asm (some 0xD014) 0xE004 false (.g a) (.g b) (.n) noImm 0
  | .sextH a b => asm (some 0xD014) 0xE005 false (.g a) (.g b) (.n) noImm 0
  | .sextW a b => asm (some 0xD014) 0xE006 false (.g a) (.g b) (.n) noImm 0
  | .zextW a b => asm (some 0xD014) 0xE007 false (.g a) (.g b) (.n) noImm 0
  | .rol a b c => asm (some 0xD016) 0xE000 false (.g a) (.g b) (.g c) noImm 0
  | .ror a b c => asm (some 0xD016) 0xE001 false (.g a) (.g b) (.g c) noImm 0
  | .andi a b imm => asm (some 0xD020) 0xE000 false (.g a) (.g b) (.n) (sw imm 3 3 2) 0
  | .ori a b imm => asm (some 0xD020) 0xE001 false (.g a) (.g b) (.n) (sw imm 3 3 2) 0
  | .xori a b imm => asm (some 0xD020) 0xE002 false (.g a) (.g b) (.n) (sw imm 3 3 2) 0
  | .slli a b imm => asm (some 0xD020) 0xE003 false (.g a) (.g b) (.n) (zw imm 3 3 2) 0
  | .srli a b imm => asm (some 0xD020) 0xE004 false (.g a) (.g b) (.n) (zw imm 3 3 2) 0
  | .srai a b imm => asm (some 0xD020) 0xE005 false (.g a) (.g b) (.n) (zw imm 3 3 2) 0
  | .slti a b imm => asm (some 0xD020) 0xE006 false (.g a) (.g b) (.n) (sw imm 3 3 2) 0
  | .sltiu a b imm => asm (some 0xD020) 0xE007 false (.g a) (.g b) (.n) (sw imm 3 3 2) 0
  | .muli a b imm => asm (some 0xD022) 0xE000 false (.g a) (.g b) (.n) (sw imm 3 3 2) 0
  | .rori a b imm => asm (some 0xD022) 0xE001 false (.g a) (.g b) (.n) (zw imm 3 3 2) 0
  | .lduB a b imm => asm (some 0xD030) 0xE000 false (.g a) (.g b) (.n) (sw imm 3 3 2) 0
  | .lduH a b imm => asm (some 0xD030) 0xE001 false (.g a) (.g b) (.n) (sw imm 3 3 2) 0
  | .lduW a b imm => asm (some 0xD030) 0xE002 false (.g a) (.g b) (.n) (sw imm 3 3 2) 0
  | .amoaddW a b c => asm (some 0xD032) 0xE000 false (.g a) (.g b) (.g c) noImm 0
  | .amoaddD a b c => asm (some 0xD032) 0xE001 false (.g a) (.g b) (.g c) noImm 0
  | .amoswapW a b c => asm (some 0xD032) 0xE002 false (.g a) (.g b) (.g c) noImm 0
  | .amoswapD a b c => asm (some 0xD032) 0xE003 false (.g a) (.g b) (.g c) noImm 0
  | .amoandD a b c => asm (some 0xD032) 0xE004 false (.g a) (.g b) (.g c) noImm 0
  | .amoorD a b c => asm (some 0xD032) 0xE005 false (.g a) (.g b) (.g c) noImm 0
  | .amomaxD a b c => asm (some 0xD032) 0xE006 false (.g a) (.g b) (.g c) noImm 0
  | .amominD a b c => asm (some 0xD032) 0xE007 false (.g a) (.g b) (.g c) noImm 0
  | .amocasD a b c => asm (some 0xD034) 0xE000 false (.g a) (.g b) (.g c) noImm 0
  | .gldB a b imm => asm (some 0xD036) 0xE000 false (.g a) (.g b) (.n) (sw imm 3 3 2) 0
  | .gldH a b imm => asm (some 0xD036) 0xE001 false (.g a) (.g b) (.n) (sw imm 3 3 2) 0
  | .gldW a b imm => asm (some 0xD036) 0xE002 false (.g a) (.g b) (.n) (sw imm 3 3 2) 0
  | .gldD a b imm => asm (some 0xD036) 0xE003 false (.g a) (.g b) (.n) (sw imm 3 3 2) 0
  | .gstB a b imm => asm (some 0xD036) 0xE004 false (.g a) (.g b) (.n) (sw imm 3 3 2) 0
  | .gstH a b imm => asm (some 0xD036) 0xE005 false (.g a) (.g b) (.n) (sw imm 3 3 2) 0
  | .gstW a b imm => asm (some 0xD036) 0xE006 false (.g a) (.g b) (.n) (sw imm 3 3 2) 0
  | .gstD a b imm => asm (some 0xD036) 0xE007 false (.g a) (.g b) (.n) (sw imm 3 3 2) 0
  | .gamoAdd a b c => asm (some 0xD038) 0xE000 false (.g a) (.g b) (.g c) noImm 0
  | .gamoSwap a b c => asm (some 0xD038) 0xE001 false (.g a) (.g b) (.g c) noImm 0
  | .gamoAnd a b c => asm (some 0xD038) 0xE002 false (.g a) (.g b) (.g c) noImm 0
  | .gamoOr a b c => asm (some 0xD038) 0xE003 false (.g a) (.g b) (.g c) noImm 0
  | .gamoMax a b c => asm (some 0xD038) 0xE004 false (.g a) (.g b) (.g c) noImm 0
  | .gamoMin a b c => asm (some 0xD038) 0xE005 false (.g a) (.g b) (.g c) noImm 0
  | .gamoCas a b c => asm (some 0xD038) 0xE006 false (.g a) (.g b) (.g c) noImm 0
  | .pref b c => asm (some 0xD03A) 0xE000 false (.n) (.g b) (.g c) noImm 0
  | .mscfl b c => asm (some 0xD03A) 0xE001 false (.n) (.g b) (.g c) noImm 0
  | .fadd a b c => asm (some 0xD040) 0xE000 false (.g a) (.g b) (.g c) noImm 0
  | .fsub a b c => asm (some 0xD040) 0xE001 false (.g a) (.g b) (.g c) noImm 0
  | .fmul a b c => asm (some 0xD040) 0xE002 false (.g a) (.g b) (.g c) noImm 0
  | .fdiv a b c => asm (some 0xD040) 0xE003 false (.g a) (.g b) (.g c) noImm 0
  | .fsqrt a b => asm (some 0xD040) 0xE004 false (.g a) (.g b) (.n) noImm 0
  | .fmin a b c => asm (some 0xD040) 0xE005 false (.g a) (.g b) (.g c) noImm 0
  | .fmax a b c => asm (some 0xD040) 0xE006 false (.g a) (.g b) (.g c) noImm 0
  | .ffma a b c => asm (some 0xD040) 0xE007 false (.g a) (.g b) (.g c) noImm 0
  | .fneg a b => asm (some 0xD042) 0xE000 false (.g a) (.g b) (.n) noImm 0
  | .fabs a b => asm (some 0xD042) 0xE001 false (.g a) (.g b) (.n) noImm 0
  | .feq a b c => asm (some 0xD042) 0xE002 false (.g a) (.g b) (.g c) noImm 0
  | .flt a b c => asm (some 0xD042) 0xE003 false (.g a) (.g b) (.g c) noImm 0
  | .fle a b c => asm (some 0xD042) 0xE004 false (.g a) (.g b) (.g c) noImm 0
  | .fclass a b => asm (some 0xD042) 0xE005 false (.g a) (.g b) (.n) noImm 0
  | .fcvtWS a b => asm (some 0xD044) 0xE000 false (.g a) (.g b) (.n) noImm 0
  | .fcvtLS a b => asm (some 0xD044) 0xE001 false (.g a) (.g b) (.n) noImm 0
  | .fcvtSW a b => asm (some 0xD044) 0xE002 false (.g a) (.g b) (.n) noImm 0
  | .fcvtSL a b => asm (some 0xD044) 0xE003 false (.g a) (.g b) (.n) noImm 0
  | .fcvtWuS a b => asm (some 0xD044) 0xE004 false (.g a) (.g b) (.n) noImm 0
  | .fcvtSWu a b => asm (some 0xD044) 0xE005 false (.g a) (.g b) (.n) noImm 0
  | .fcvtBfS a b => asm (some 0xD044) 0xE006 false (.g a) (.g b) (.n) noImm 0
  | .fcvtSBf a b => asm (some 0xD044) 0xE007 false (.g a) (.g b) (.n) noImm 0
  | .fcvtHS a b => asm (some 0xD046) 0xE000 false (.g a) (.g b) (.n) noImm 0
  | .fcvtSH a b => asm (some 0xD046) 0xE001 false (.g a) (.g b) (.n) noImm 0
  | .vxor a b c vm => asm (some 0xD080) 0xE000 false (.v a) (.v b) (.v c) noImm vm
  | .vsll a b c vm => asm (some 0xD080) 0xE001 false (.v a) (.v b) (.v c) noImm vm
  | .vsrl a b c vm => asm (some 0xD080) 0xE002 false (.v a) (.v b) (.v c) noImm vm
  | .vsra a b c vm => asm (some 0xD080) 0xE003 false (.v a) (.v b) (.v c) noImm vm
  | .vmulh a b c vm => asm (some 0xD080) 0xE004 false (.v a) (.v b) (.v c) noImm vm
  | .vmulhu a b c vm => asm (some 0xD080) 0xE005 false (.v a) (.v b) (.v c) noImm vm
  | .vminu a b c vm => asm (some 0xD080) 0xE006 false (.v a) (.v b) (.v c) noImm vm
  | .vmaxu a b c vm => asm (some 0xD080) 0xE007 false (.v a) (.v b) (.v c) noImm vm
  | .vaddVx a b c vm => asm (some 0xD082) 0xE000 false (.v a) (.v b) (.g c) noImm vm
  | .vsubVx a b c vm => asm (some 0xD082) 0xE001 false (.v a) (.v b) (.g c) noImm vm
  | .vmulVx a b c vm => asm (some 0xD082) 0xE002 false (.v a) (.v b) (.g c) noImm vm
  | .vandVx a b c vm => asm (some 0xD082) 0xE003 false (.v a) (.v b) (.g c) noImm vm
  | .vorVx a b c vm => asm (some 0xD082) 0xE004 false (.v a) (.v b) (.g c) noImm vm
  | .vxorVx a b c vm => asm (some 0xD082) 0xE005 false (.v a) (.v b) (.g c) noImm vm
  | .vsllVx a b c vm => asm (some 0xD082) 0xE006 false (.v a) (.v b) (.g c) noImm vm
  | .vsrlVx a b c vm => asm (some 0xD082) 0xE007 false (.v a) (.v b) (.g c) noImm vm
  | .vmseq a b c vm => asm (some 0xD084) 0xE000 false (.l a) (.v b) (.v c) noImm vm
  | .vmsne a b c vm => asm (some 0xD084) 0xE001 false (.l a) (.v b) (.v c) noImm vm
  | .vmslt a b c vm => asm (some 0xD084) 0xE002 false (.l a) (.v b) (.v c) noImm vm
  | .vmsltu a b c vm => asm (some 0xD084) 0xE003 false (.l a) (.v b) (.v c) noImm vm
  | .vmsle a b c vm => asm (some 0xD084) 0xE004 false (.l a) (.v b) (.v c) noImm vm
  | .vmsleu a b c vm => asm (some 0xD084) 0xE005 false (.l a) (.v b) (.v c) noImm vm
  | .vsadd a b c vm => asm (some 0xD086) 0xE000 false (.v a) (.v b) (.v c) noImm vm
  | .vsaddu a b c vm => asm (some 0xD086) 0xE001 false (.v a) (.v b) (.v c) noImm vm
  | .vssub a b c vm => asm (some 0xD086) 0xE002 false (.v a) (.v b) (.v c) noImm vm
  | .vssubu a b c vm => asm (some 0xD086) 0xE003 false (.v a) (.v b) (.v c) noImm vm
  | .vmvVx a c vm => asm (some 0xD086) 0xE004 false (.v a) (.n) (.g c) noImm vm
  | .vmvXs a b => asm (some 0xD086) 0xE005 false (.g a) (.v b) (.n) noImm 0
  | .vmvSx a c => asm (some 0xD086) 0xE006 false (.v a) (.n) (.g c) noImm 0
  | .vid a vm => asm (some 0xD086) 0xE007 false (.v a) (.n) (.n) noImm vm
  | .vfdiv a b c vm => asm (some 0xD090) 0xE000 false (.v a) (.v b) (.v c) noImm vm
  | .vfsqrt a b vm => asm (some 0xD090) 0xE001 false (.v a) (.v b) (.n) noImm vm
  | .vfnmacc a b c vm => asm (some 0xD090) 0xE002 false (.v a) (.v b) (.v c) noImm vm
  | .vfmsac a b c vm => asm (some 0xD090) 0xE003 false (.v a) (.v b) (.v c) noImm vm
  | .vfneg a b vm => asm (some 0xD090) 0xE004 false (.v a) (.v b) (.n) noImm vm
  | .vfabs a b vm => asm (some 0xD090) 0xE005 false (.v a) (.v b) (.n) noImm vm
  | .vfaddVf a b c vm => asm (some 0xD092) 0xE000 false (.v a) (.v b) (.g c) noImm vm
  | .vfsubVf a b c vm => asm (some 0xD092) 0xE001 false (.v a) (.v b) (.g c) noImm vm
  | .vfmulVf a b c vm => asm (some 0xD092) 0xE002 false (.v a) (.v b) (.g c) noImm vm
  | .vfmaccVf a b c vm => asm (some 0xD092) 0xE003 false (.v a) (.v b) (.g c) noImm vm
  | .vfminVf a b c vm => asm (some 0xD092) 0xE004 false (.v a) (.v b) (.g c) noImm vm
  | .vfmaxVf a b c vm => asm (some 0xD092) 0xE005 false (.v a) (.v b) (.g c) noImm vm
  | .vmfeq a b c vm => asm (some 0xD094) 0xE000 false (.l a) (.v b) (.v c) noImm vm
  | .vmfne a b c vm => asm (some 0xD094) 0xE001 false (.l a) (.v b) (.v c) noImm vm
  | .vmflt a b c vm => asm (some 0xD094) 0xE002 false (.l a) (.v b) (.v c) noImm vm
  | .vmfle a b c vm => asm (some 0xD094) 0xE003 false (.l a) (.v b) (.v c) noImm vm
  | .vfcvtXF a b vm => asm (some 0xD096) 0xE000 false (.v a) (.v b) (.n) noImm vm
  | .vfcvtFX a b vm => asm (some 0xD096) 0xE001 false (.v a) (.v b) (.n) noImm vm
  | .vfwcvt a b vm => asm (some 0xD096) 0xE002 false (.v a) (.v b) (.n) noImm vm
  | .vfncvt a b vm => asm (some 0xD096) 0xE003 false (.v a) (.v b) (.n) noImm vm
  | .vslideup a b c vm => asm (some 0xD0A0) 0xE000 false (.v a) (.v b) (.g c) noImm vm
  | .vslidedn a b c vm => asm (some 0xD0A0) 0xE001 false (.v a) (.v b) (.g c) noImm vm
  | .vrgather a b c vm => asm (some 0xD0A0) 0xE002 false (.v a) (.v b) (.v c) noImm vm
  | .vcompress a b c => asm (some 0xD0A0) 0xE003 false (.v a) (.v b) (.l c) noImm 0
  | .vmerge a b c vm => asm (some 0xD0A0) 0xE004 false (.v a) (.v b) (.v c) noImm vm
  | .vredsum a b c vm => asm (some 0xD0A2) 0xE000 false (.g a) (.v b) (.g c) noImm vm
  | .vredmax a b c vm => asm (some 0xD0A2) 0xE001 false (.g a) (.v b) (.g c) noImm vm
  | .vredmin a b c vm => asm (some 0xD0A2) 0xE002 false (.g a) (.v b) (.g c) noImm vm
  | .vredand a b c vm => asm (some 0xD0A2) 0xE003 false (.g a) (.v b) (.g c) noImm vm
  | .vredor a b c vm => asm (some 0xD0A2) 0xE004 false (.g a) (.v b) (.g c) noImm vm
  | .vfredsum a b c vm => asm (some 0xD0A2) 0xE005 false (.g a) (.v b) (.g c) noImm vm
  | .vfredmax a b c vm => asm (some 0xD0A2) 0xE006 false (.g a) (.v b) (.g c) noImm vm
  | .vfredmin a b c vm => asm (some 0xD0A2) 0xE007 false (.g a) (.v b) (.g c) noImm vm
  | .vmand a b c => asm (some 0xD0A4) 0xE000 false (.l a) (.l b) (.l c) noImm 0
  | .vmor a b c => asm (some 0xD0A4) 0xE001 false (.l a) (.l b) (.l c) noImm 0
  | .vmxor a b c => asm (some 0xD0A4) 0xE002 false (.l a) (.l b) (.l c) noImm 0
  | .vmnot a b => asm (some 0xD0A4) 0xE003 false (.l a) (.l b) (.n) noImm 0
  | .vcpop a b vm => asm (some 0xD0A4) 0xE004 false (.g a) (.l b) (.n) noImm vm
  | .vfirst a b vm => asm (some 0xD0A4) 0xE005 false (.g a) (.l b) (.n) noImm vm
  | .setvl a b t => asm (some 0xD0A6) 0xE000 false (.g a) (.g b) (.n) (zw t 3 3 1) 0
  | .setvlr a b c => asm (some 0xD0A6) 0xE001 false (.g a) (.g b) (.g c) noImm 0
  | .vcvtSat a b f vm => asm (some 0xD0A8) 0xE000 false (.v a) (.v b) (.l f) noImm vm
  | .vcvtNsat a b f vm => asm (some 0xD0A8) 0xE001 false (.v a) (.v b) (.l f) noImm vm
  | .vcvtW a b f vm => asm (some 0xD0A8) 0xE002 false (.v a) (.v b) (.l f) noImm vm
  | .vpack a b mode vm => asm (some 0xD0A8) 0xE003 false (.v a) (.v b) (.l mode) noImm vm
  | .vunpk a b mode vm => asm (some 0xD0A8) 0xE004 false (.v a) (.v b) (.l mode) noImm vm
  | .vamoOr a b c vm => asm (some 0xD0AA) 0xE000 false (.v a) (.g b) (.v c) noImm vm
  | .vamoAnd a b c vm => asm (some 0xD0AA) 0xE001 false (.v a) (.g b) (.v c) noImm vm
  | .vamoAdd a b c vm => asm (some 0xD0AA) 0xE002 false (.v a) (.g b) (.v c) noImm vm
  | .vamoMax a b c vm => asm (some 0xD0AA) 0xE003 false (.v a) (.g b) (.v c) noImm vm
  | .vamoMin a b c vm => asm (some 0xD0AA) 0xE004 false (.v a) (.g b) (.v c) noImm vm
  | .ago b => asm (some 0xD100) 0xE000 false (.n) (.g b) (.n) noImm 0
  | .aend => asm (some 0xD100) 0xE001 false (.n) (.n) (.n) noImm 0
  | .movq a b n => asm (some 0xD100) 0xE002 false (.g a) (.g b) (.l n) noImm 0
  | .qlevel a b => asm (some 0xD100) 0xE003 false (.g a) (.g b) (.n) noImm 0
  | .pcfg p b => asm (some 0xD110) 0xE000 false (.l p) (.g b) (.n) noImm 0
  | .msgPut a b c => asm (some 0xD110) 0xE001 false (.g a) (.g b) (.g c) noImm 0
  | .msgGet a b c => asm (some 0xD110) 0xE002 false (.g a) (.g b) (.g c) noImm 0
  | .msgAmo a b c => asm (some 0xD110) 0xE003 false (.g a) (.g b) (.g c) noImm 0
  | .msgSig a b => asm (some 0xD110) 0xE004 false (.g a) (.g b) (.n) noImm 0
  | .task b c => asm (some 0xD120) 0xE000 false (.n) (.g b) (.g c) noImm 0
  | .tret => asm (some 0xD120) 0xE001 false (.n) (.n) (.n) noImm 0
  | .tsusp k => asm (some 0xD120) 0xE002 false (.l k) (.n) (.n) noImm 0
  | .tqcfg a b => asm (some 0xD120) 0xE003 false (.g a) (.g b) (.n) noImm 0
  | .tqdepth a => asm (some 0xD120) 0xE004 false (.g a) (.n) (.n) noImm 0
  | .capt k b c => asm (some 0xD130) 0xE000 false (.l k) (.g b) (.n) (zw c 3 3 1) 0
  | .captRef k b => asm (some 0xD130) 0xE001 false (.l k) (.g b) (.n) noImm 0
  | .kdup k b => asm (some 0xD130) 0xE002 false (.l k) (.g b) (.n) noImm 0
  | .kdrop k => asm (some 0xD130) 0xE003 false (.l k) (.n) (.n) noImm 0
  | .kld a k n => asm (some 0xD130) 0xE004 false (.g a) (.l k) (.n) (zw n 3 3 1) 0
  | .kst k b n => asm (some 0xD130) 0xE005 false (.l k) (.g b) (.n) (zw n 3 3 1) 0
  | .frame a b => asm (some 0xD130) 0xE006 false (.g a) (.g b) (.n) noImm 0
  | .unframe a => asm (some 0xD130) 0xE007 false (.g a) (.n) (.n) noImm 0
  | .mmaE4m3 a b c => asm (some 0xD140) 0xE000 false (.g a) (.g b) (.g c) noImm 0
  | .mmaE5m2 a b c => asm (some 0xD140) 0xE001 false (.g a) (.g b) (.g c) noImm 0
  | .mmaE3m2 a b c => asm (some 0xD140) 0xE002 false (.g a) (.g b) (.g c) noImm 0
  | .mmaE2m3 a b c => asm (some 0xD140) 0xE003 false (.g a) (.g b) (.g c) noImm 0
  | .mmaE2m1 a b c => asm (some 0xD140) 0xE004 false (.g a) (.g b) (.g c) noImm 0
  | .mmaBf16 a b c => asm (some 0xD140) 0xE005 false (.g a) (.g b) (.g c) noImm 0
  | .mmaF16 a b c => asm (some 0xD140) 0xE006 false (.g a) (.g b) (.g c) noImm 0
  | .mmaE4m3e5m2 a b c => asm (some 0xD140) 0xE007 false (.g a) (.g b) (.g c) noImm 0
  | .mmaE5m2e4m3 a b c => asm (some 0xD142) 0xE000 false (.g a) (.g b) (.g c) noImm 0
  | .mmaE4m3Mc a b c => asm (some 0xD144) 0xE000 false (.g a) (.g b) (.g c) noImm 0
  | .mmaE5m2Mc a b c => asm (some 0xD144) 0xE001 false (.g a) (.g b) (.g c) noImm 0
  | .mmaE3m2Mc a b c => asm (some 0xD144) 0xE002 false (.g a) (.g b) (.g c) noImm 0
  | .mmaE2m3Mc a b c => asm (some 0xD144) 0xE003 false (.g a) (.g b) (.g c) noImm 0
  | .mmaE2m1Mc a b c => asm (some 0xD144) 0xE004 false (.g a) (.g b) (.g c) noImm 0
  | .mmaBf16Mc a b c => asm (some 0xD144) 0xE005 false (.g a) (.g b) (.g c) noImm 0
  | .mmaF16Mc a b c => asm (some 0xD144) 0xE006 false (.g a) (.g b) (.g c) noImm 0
  | .mmaE4m3e5m2Mc a b c => asm (some 0xD144) 0xE007 false (.g a) (.g b) (.g c) noImm 0
  | .mmaE5m2e4m3Mc a b c => asm (some 0xD146) 0xE000 false (.g a) (.g b) (.g c) noImm 0
  | .mmaa => asm (some 0xD148) 0xE000 false (.n) (.n) (.n) noImm 0
  | .scacc b c => asm (some 0xD148) 0xE001 false (.n) (.g b) (.g c) noImm 0
  | .accz => asm (some 0xD148) 0xE002 false (.n) (.n) (.n) noImm 0
  | .accswap => asm (some 0xD148) 0xE003 false (.n) (.n) (.n) noImm 0
  | .acfg b => asm (some 0xD148) 0xE004 false (.n) (.g b) (.n) noImm 0
  | .accrdR a b c vm => asm (some 0xD148) 0xE005 false (.v a) (.g b) (.g c) noImm vm
  | .accwrR a b c vm => asm (some 0xD148) 0xE006 false (.v a) (.g b) (.g c) noImm vm
  | .accrdC a b c vm => asm (some 0xD148) 0xE007 false (.v a) (.g b) (.g c) noImm vm
  | .accwrC a b c vm => asm (some 0xD14A) 0xE000 false (.v a) (.g b) (.g c) noImm vm
  | .accst a b f => asm (some 0xD14A) 0xE001 false (.g a) (.g b) (.l f) noImm 0
  | .bkAdd a b c => asm (some 0xD150) 0xE000 false (.g a) (.g b) (.g c) noImm 0
  | .bkMul a b c => asm (some 0xD150) 0xE001 false (.g a) (.g b) (.g c) noImm 0
  | .bkFma a b c => asm (some 0xD150) 0xE002 false (.g a) (.g b) (.g c) noImm 0
  | .bkMax a b c => asm (some 0xD150) 0xE003 false (.g a) (.g b) (.g c) noImm 0
  | .bkMin a b c => asm (some 0xD150) 0xE004 false (.g a) (.g b) (.g c) noImm 0
  | .bkScl a b c => asm (some 0xD150) 0xE005 false (.g a) (.g b) (.g c) noImm 0
  | .bkOr a b c => asm (some 0xD150) 0xE006 false (.g a) (.g b) (.g c) noImm 0
  | .bkAnd a b c => asm (some 0xD150) 0xE007 false (.g a) (.g b) (.g c) noImm 0
  | .bkFill a b c => asm (some 0xD152) 0xE000 false (.g a) (.g b) (.g c) noImm 0
  | .bkRsum a b c => asm (some 0xD152) 0xE001 false (.g a) (.g b) (.g c) noImm 0
  | .bkRmax a b c => asm (some 0xD152) 0xE002 false (.g a) (.g b) (.g c) noImm 0
  | .bkExps a b c => asm (some 0xD152) 0xE003 false (.g a) (.g b) (.g c) noImm 0
  | .bkCvt a b => asm (some 0xD152) 0xE004 false (.g a) (.g b) (.n) noImm 0
  | .bkAddV a b c => asm (some 0xD154) 0xE000 false (.g a) (.g b) (.v c) noImm 0
  | .bkMulV a b c => asm (some 0xD154) 0xE001 false (.g a) (.g b) (.v c) noImm 0
  | .bkFmaV a b c => asm (some 0xD154) 0xE002 false (.g a) (.g b) (.v c) noImm 0
  | .bkMaxV a b c => asm (some 0xD154) 0xE003 false (.g a) (.g b) (.v c) noImm 0
  | .bkMinV a b c => asm (some 0xD154) 0xE004 false (.g a) (.g b) (.v c) noImm 0
  | .bkSclV a b c => asm (some 0xD154) 0xE005 false (.g a) (.g b) (.v c) noImm 0
  | .bkOrV a b c => asm (some 0xD154) 0xE006 false (.g a) (.g b) (.v c) noImm 0
  | .bkAndV a b c => asm (some 0xD154) 0xE007 false (.g a) (.g b) (.v c) noImm 0
  | .bkFillV a b c => asm (some 0xD156) 0xE000 false (.g a) (.g b) (.v c) noImm 0
  | .bkAddR a b c => asm (some 0xD158) 0xE000 false (.g a) (.g b) (.g c) noImm 0
  | .bkMulR a b c => asm (some 0xD158) 0xE001 false (.g a) (.g b) (.g c) noImm 0
  | .bkFmaR a b c => asm (some 0xD158) 0xE002 false (.g a) (.g b) (.g c) noImm 0
  | .bkMaxR a b c => asm (some 0xD158) 0xE003 false (.g a) (.g b) (.g c) noImm 0
  | .bkMinR a b c => asm (some 0xD158) 0xE004 false (.g a) (.g b) (.g c) noImm 0
  | .bkOrR a b c => asm (some 0xD158) 0xE006 false (.g a) (.g b) (.g c) noImm 0
  | .bkAndR a b c => asm (some 0xD158) 0xE007 false (.g a) (.g b) (.g c) noImm 0
  | .cpy ch b c => asm (some 0xD160) 0xE000 false (.l ch) (.g b) (.g c) noImm 0
  | .cpg ch b c => asm (some 0xD160) 0xE001 false (.l ch) (.g b) (.g c) noImm 0
  | .cpwait ch b => asm (some 0xD160) 0xE002 false (.l ch) (.g b) (.n) noImm 0
  | .cpstat a ch => asm (some 0xD160) 0xE003 false (.g a) (.n) (.l ch) noImm 0
  | .fenceCore => asm (some 0xD180) 0xE000 false (.n) (.n) (.n) noImm 0
  | .fenceCl => asm (some 0xD180) 0xE001 false (.n) (.n) (.n) noImm 0
  | .fenceDie => asm (some 0xD180) 0xE002 false (.n) (.n) (.n) noImm 0
  | .fencePkg => asm (some 0xD180) 0xE003 false (.n) (.n) (.n) noImm 0
  | .fenceSys => asm (some 0xD180) 0xE004 false (.n) (.n) (.n) noImm 0
  | .barInit b c => asm (some 0xD182) 0xE000 false (.n) (.g b) (.g c) noImm 0
  | .barArr a b => asm (some 0xD182) 0xE001 false (.g a) (.g b) (.n) noImm 0
  | .barExp b c => asm (some 0xD182) 0xE002 false (.n) (.g b) (.g c) noImm 0
  | .barWait b c => asm (some 0xD182) 0xE003 false (.n) (.g b) (.g c) noImm 0
  | .sstep => asm (some 0xD184) 0xE000 false (.n) (.n) (.n) noImm 0
  | .srd a csr => asm (some 0xD190) 0xE000 false (.g a) (.n) (.n) (zw csr 3 3 1) 0
  | .swr b csr => asm (some 0xD190) 0xE001 false (.n) (.g b) (.n) (zw csr 3 3 1) 0
  | .eret => asm (some 0xD190) 0xE002 false (.n) (.n) (.n) noImm 0
  | .trap n => asm (some 0xD190) 0xE003 false (.n) (.n) (.n) (zw n 3 3 1) 0
  | .brk => asm (some 0xD190) 0xE004 false (.n) (.n) (.n) noImm 0
  | .halt => asm (some 0xD190) 0xE005 false (.n) (.n) (.n) noImm 0
  | .fenceI => asm (some 0xD190) 0xE006 false (.n) (.n) (.n) noImm 0
  | .wqry b c => asm (some 0xD1A0) 0xE000 false (.n) (.g b) (.g c) noImm 0
  | .widF a b n => asm (some 0xD1A0) 0xE001 false (.g a) (.g b) (.l n) noImm 0
  | .pageattrWrite _ => []
  | .envbaseWrite _ => []
  | .frbaseWrite _ => []
  | .mbbaseWrite _ => []
  | .tqbaseWrite _ => []
  | .tqcfgWrite _ => []
  | .gdeadWrite _ => []
  | .fcsrWrite _ => []
  | .nearDispatch _ _ => []
  | .slotTakesWork _ _ => []
  | .stealRequest _ _ => []
  | .steal _ _ => []
  | .bufferDrain _ _ => []
  | .deferredLoadFaultReport _ _ => []
  | .globalLoadData _ _ => []
  | .globalWriteAck _ => []
  | .globalAccess _ => []
  | .clusterWindowAccess _ => []
  | .portWord _ => []
  | .put _ => []
  | .getRequest _ => []
  | .getData _ => []
  | .atomicRequest _ => []
  | .atomicReply _ => []
  | .signal _ => []
  | .acknowledgment _ => []
  | .taskRecordArrival _ => []
  | .closureOperation _ => []
  | .workQuery _ => []
  | .workAnswer _ => []
  | .wqryRecordEnqueue _ => []
  | .slateStealControl _ => []
  | .lossNotice _ _ => []
  | .postedTimeout _ _ _ => []
  | .mailboxAppend _ => []
  | .bankLineUpdate _ _ => []
  | .bankCommandRetire _ => []
  | .vamoRetire _ => []
  | .matrixOpRetire _ => []
  | .mcHoldExpiry _ _ => []
  | .copyTransferComplete _ _ => []
  | .completionRecordEnqueue _ _ => []
  | .accumulatorRestore _ => []
  | .preempt _ => []
  | .resume _ => []
  | .launchRecordCheck _ => []
  | .launchStart _ => []
  | .reelForward _ _ _ => []
  | .launchComplete _ => []
  | .superstepRelease _ _ => []
  | .clapperColumnRelease _ _ => []
  | .clapperEstimateRefresh => []
  | .heatMapRefresh => []
  | .patrolScrub _ _ => []
  | .parityError _ _ _ => []
  | .clockStretch _ => []
  | .drowsyEntry _ => []
  | .submit _ _ _ => []
  | .queueConfigWrite _ _ _ => []
  | .shootDown _ => []
  | .stationShootDownAck _ => []
  | .connectionWrite _ _ _ => []
  | .devcmdHalt _ => []
  | .devcmdResume _ => []
  | .devcmdEndTask _ => []
  | .devcmdApplyProfile _ => []
  | .devcmdAbortLaunch _ => []
  | .hostRegisterWrite _ _ => []
  | .hostMemWrite _ _ => []
  | .hostMemRead _ _ => []
  | .hostLinkDown => []
  | .hostLinkHoldTimeout _ => []
  | .hostLinkTrained => []
  | .inboundSend _ _ => []
  | .inboundRma _ _ _ _ => []
  | .attestation _ => []
  | .firmwareLoad _ _ => []
  | .powerUp => []
  | .powerDown => []
  | .decodeTrap _ _ _ => []
  | .clusterWindowAnswer _ => []
  | .closureAnswer _ => []
  | .copyPiece _ _ => []
  | .anchorViewAccess _ => []
  | .portLinkTrained _ _ => []

/-! ### The opcode table's numbering -/

/-- Bits of the table, first word lowest, as words; where the low half is no prefix the table puts the first word in the
high half (log 14). -/
def tableWords (nbits w : Nat) : List Half :=
  let lo : Half := BitVec.ofNat 16 w
  let hi : Half := BitVec.ofNat 16 (w / 65536)
  if nbits ≤ 16 then [lo] else if isPre lo then [lo, hi] else [hi, lo]
/-- What the decoder reads from an opcode-table word. -/
def decodeTableWord (nbits w : Nat) : Option Instr :=
  let i := decode (tableWords nbits w)
  if isTrap i then none else some i

end

end Sys2Proof
end

