-- ==== Sys2Proof/Config.lean ====
section
/-! DEFINITION. Config.lean: what the part fixes (R1), and the free values: constants without a body for what the
manual names and does not give a value to (log 8, log 9). -/
namespace Sys2Proof.Config

/-- Bytes of local memory of a core (R1, R115). -/
def localBytes : Nat := 0x200000
/-- Bytes of device memory (R328). -/
def deviceBytes : Nat := 2 ^ 41
/-- Records a home queue holds (R69). -/
def homeEntries : Nat := 1024
/-- Words the mailbox holds (R119). -/
def mailboxWords : Nat := 128
/-- Entries of the range scoreboard (R121). -/
def scoreEntries : Nat := 16
/-- Entries of a slot's table of outstanding posted operations (R141). -/
def postedEntries : Nat := 16
/-- Entries of a far body's outgoing buffer (R86). -/
def outgoingEntries : Nat := 16
/-- Operations the engine queue holds (R243). -/
def engineQueue : Nat := 8
/-- Transfers a copy channel holds (R221). -/
def channelQueue : Nat := 8
/-- Lines of the memory-side cache of a gateway die: 128 MiB (R326). -/
def cacheLines : Nat := 2 ^ 21
/-- Translation stations of the package (R326). -/
def stations : Nat := 32
/-- Bytes of one core's context area (R282). -/
def contextBytes : Nat := 0x222000

/-- FREE VALUE (log 9): Trontiun's public key, which the boot ROM of gateway die 16 holds (R392). -/
opaque bootKey : List Byte
/-- FREE VALUE (log 9): the attestation signature over a measurement set, by the key that the firmware derives at the power-up
of that number (R391). -/
opaque attestSign : Nat → List Byte → List Byte
/-- FREE VALUE (log 9): the straps of the part: identities, serial number, die positions (R391). -/
opaque straps : List Byte
/-- FREE VALUE (log 8): a metered or estimated quantity (energy, heat, current), a new one for each reading. -/
opaque meter : Nat → BitVec 64
/-- FREE VALUE (log 8): whether a row voltage, as R382 writes it, supports the divider of a CLKDIV code (R321). -/
opaque dividerOk : BitVec 8 → BitVec 3 → Bool
/-- FREE VALUE (log 18): a value that the manual leaves open while the operation goes on, a new one for each. -/
opaque freeWord : Nat → BitVec 64

end Sys2Proof.Config
end

