-- ==== Sys2Proof/Machine/State.lean ====
section
/-! DEFINITION. Machine/State.lean: the state of the NM-960 as plain data (R104, R111, R240, R326 and the rules that
each field names), the reasons a step can stop, and the state after reset. INVENTORY.md lists every field. -/
namespace Sys2Proof.Machine

/-- Why a step ends the run. -/
inductive Fault where
  /-- Raised by `exec` when the moving agent names a core that is not a core of a core die (R2: die 16 to 31 holds
  no core). Safe: the device has no such agent. -/
  | noSuchCore
  deriving DecidableEq, Repr

/-- Why a step has no meaning. -/
inductive Refusal where
  /-- Raised by an arm of `exec` for an instruction without a meaning. Safe: the machine stops. -/
  | notModelled (mnemonic : String)
  deriving DecidableEq, Repr

/-- Bytes of a memory by address, strictly rising, with no entry equal to 0, which an unlisted address reads as
(log 6; zero-filled at launch start, R346). -/
abbrev Memory := List Host.Cell

/-- A cause and a subcode (R284). -/
structure Why where
  cause : BitVec 9
  sub : BitVec 7
  deriving DecidableEq, Repr

/-- How a trap is to be recorded (R275). -/
inductive TrapKind where
  | precise
  | software
  | deferred
  | bodyStart
  deriving DecidableEq, Repr

/-- A trap that is due: what TrapEntry records (R275). -/
structure Trap where
  why : Why
  side : Side
  faddr : Word
  fpc : Word
  words : List Half
  epc : Word
  deriving DecidableEq, Repr

/-- The operators of local atomics, GAMO and MSG.AMO (R134, R137, R308). -/
inductive AmoOp where
  | add | swap | and | or | max | min | cas
  deriving DecidableEq, Repr

/-- The barrier updates that reach an object (R268 to R271). -/
inductive BarOp where
  | init (count : Word)
  | arrive
  | expect (bytes : Word)
  | wait (token : Half)
  deriving DecidableEq, Repr

/-- What a stalled stream asks of another core, and what the engine queue owes it (R189, R293, R84, R247, R252). The
number of a `closureAdd` tells the two additions of one TASK apart. -/
inductive Req where
  | load (dst : Coord) (addr size : Nat)
  | amo (dst : Coord) (addr size : Nat) (op : AmoOp) (x y : Word)
  | bar (dst : Coord) (addr : Nat) (op : BarOp)
  | checkRead (dst : Coord) (addr len : Nat)
  | closureAdd (h : Handle) (n : Fin 2)
  | closureDrop (h : Handle)
  | closureRead (h : Handle) (n : Nat)
  | closureWrite (h : Handle) (n : Nat) (v : Word)
  | closureApply (h : Handle)
  | viewLoad (home : Coord) (entry : Nat) (addr size : Nat) (user : Bool)
  | viewStore (home : Coord) (entry : Nat) (user : Bool) (elems : List (Nat × List Byte))
  | swap (ticket : Nat)
  deriving DecidableEq, Repr

/-- The answer to a `Req`. -/
inductive Ans where
  | value (v : Word)
  | env (bytes : List Byte)
  | refused (why : Why) (faddr : Word)
  deriving DecidableEq, Repr

/-- A request of a stream, with the instruction that made it, its answer once that has come (R108, R293), and the codes of
the shared queues and ports that the instruction names: no other stream pops or pushes them meanwhile (R41). -/
structure Pending where
  id : Nat
  pc : Word
  req : Req
  ans : Option Ans
  claims : List Nat
  deriving DecidableEq, Repr

/-- A place of lq: a word, or a place reserved by an outstanding load (R127, R137). -/
inductive Place where
  | word (w : Word)
  | reserved (id : Nat)
  deriving DecidableEq, Repr

/-- An outstanding GLD or GAMO in issue order (R137, R143). -/
structure GLoad where
  id : Nat
  pc : Word
  addr : Word
  dest : GReg
  data : Option Word
  failed : Option Why
  reported : Bool
  drop : Bool
  deriving DecidableEq, Repr

/-- A deferred report due at a stream's next instruction boundary (R143, R218, R257). -/
structure Due where
  why : Why
  faddr : Word
  fpc : Word
  words : List Half
  deriving DecidableEq, Repr

/-- A stream of a slot or an Ibex unit (R104, R111, R120). An Ibex unit uses g0 to g15, k0 to k3 and bk only. `rcd` is the
record that a stalled TASK or copy has read, `keeps` the shared queues whose words such a copy holds on to; `stalled` tells that
the next instruction stalled when last tried (R107), `joins` that no later load is read ahead of it: it waits on a scoreboard entry
(R395) or on another core (R294); `sbuf` are the local
stores that have not taken effect, oldest first, `early` what later loads have read ahead (R101, R262). -/
structure Thread where
  pc : Word
  g : Vector Word 32
  l0 : Word
  l1 : Word
  dead : BitVec 32
  k : Vector Handle 8
  fcsr : BitVec 32
  cmask : BitVec 32
  epc : Word
  ld : Nat
  st : Nat
  bk : Nat
  mx : Nat
  running : Bool
  gld : List GLoad
  fbuf : List (Nat × Half)
  pend : List Pending
  rcd : Option (BitVec 512)
  keeps : List Nat
  stallRt : Bool
  stalled : Bool
  joins : Bool
  due : List Due
  sbuf : List (Nat × List Byte)
  early : List (Nat × List Byte)
  deriving DecidableEq, Repr

/-- A network port of a slot: PORTCFG, the send and the receive buffer (R305, R306). A word to send goes with its stream
and the request number at its push, by which earlier and later messages are told (R311). -/
structure Port where
  cfg : BitVec 32
  send : List (Side × Nat × Word)
  recv : List Word
  deriving DecidableEq, Repr

/-- Where a posted operation goes (R140). -/
inductive Scope where
  | window
  | message (dst : Coord)
  | global
  | query
  deriving DecidableEq, Repr

/-- An entry of a slot's table of outstanding posted operations (R141), with CYCLE at its issue; `lost` where it was taken as
lost (R314), `told` where its fault was reported while other parts of it are still out. -/
structure Posted where
  seq : Nat
  scope : Scope
  side : Side
  pc : Word
  cycle : Word
  addr : Word
  failed : Option Why
  lost : Bool
  told : Bool
  deriving DecidableEq, Repr

/-- An entry of the outgoing buffer of a speculative far body (R86). -/
inductive Outgoing where
  | winStore (side : Side) (pc faddr : Word) (parts : List (Coord × List (Nat × List Byte)))
  | gst (side : Side) (pc addr : Word) (bytes : List Byte)
  | msg (side : Side) (pc ref : Word) (bytes : List Byte) (signal : Bool)
  | port (side : Side) (p : Fin 4) (w : Word)
  | task (side : Side) (pc addr : Word) (target : Coord) (rcd : BitVec 512)
  deriving DecidableEq, Repr

/-- The task that a slot or an Ibex unit runs (R105), with the buffers of a far body (R86). `entry` names the record
at its home by its arrival order. -/
structure Task where
  rcd : BitVec 512
  home : Coord
  entry : Nat
  abuf : Memory
  obuf : List Outgoing
  held : Option Trap
  deriving DecidableEq, Repr

inductive SlotState where
  | idle | running | trapped | halted
  deriving DecidableEq, Repr

/-- A thread slot (R104, R105, R159, R186); `arrived` and `released` are SSTEP's (R352), `committing` a TSUSP that waits
for its promotion (R96). -/
structure Slot where
  st : SlotState
  status : Word
  cause : Word
  fpc : Word
  fword0 : Word
  fword1 : Word
  fword2 : Word
  faddr : Word
  lq : List Place
  sq : List Word
  bo : List Word
  boProd : Option Side
  rt : List Word
  ports : Vector Port 4
  posted : List Posted
  nextSeq : Nat
  dcloss : Word
  v : Vector (BitVec 512) 32
  m : Vector (BitVec 512) 8
  vtype : Word
  vl : BitVec 10
  frames : Vector Word 64
  fgen : Vector Half 64
  depth : Nat
  task : Option Task
  starting : Option Task
  grant : Option Coord
  accWas : Bool
  serial : Nat
  arrived : Bool
  released : Bool
  committing : Bool
  deriving DecidableEq, Repr

/-- A record that a home queue holds (R69, R70), with its place in the region, the slot that a launch made it for (R90), who
runs it, whether it is promoted (R85) and the line bitmap of a speculative far task (R86). -/
structure Entry where
  seq : Nat
  rcd : BitVec 512
  place : Nat
  slot : Option (Fin 4)
  taker : Option Agent
  promoted : Bool
  bitmap : BitVec 64
  deriving DecidableEq, Repr

/-- The owner of a scoreboard entry (R121). -/
inductive Engine where
  | bank (id : Nat)
  | copy (ch : Fin 4) (id : BitVec 32)
  | get (slot : Fin 4) (seq : Nat)
  | query (slot : Fin 4) (seq : Nat)
  deriving DecidableEq, Repr

/-- An entry of the range scoreboard: byte ranges [lo, hi), whole lines (R121). -/
structure Score where
  owner : Engine
  writes : List (Nat × Nat)
  reads : List (Nat × Nat)
  deriving DecidableEq, Repr

/-- The element operations of bank commands (R207 to R209). -/
inductive BankOp where
  | add | mul | fma | max | min | scl | or | and | fill | rsum | rmax | exps | cvt
  deriving DecidableEq, Repr

/-- Where a bank command takes its operand line (R206). -/
inductive BankSrc where
  | scalar (v : Word)
  | vector (v w : BitVec 512)
  | range (base : Nat)
  deriving DecidableEq, Repr

/-- What a queued bank command does (R204, R205), or a VAMO with its lanes still to apply (R180). -/
inductive BankWork where
  | command (op : BankOp) (ty : BitVec 2) (scal : BitVec 32) (src : BankSrc) (base lines : Nat) (result : Nat)
      (todo : List Nat) (reads : List (Nat × BitVec 512))
  | vamo (op : AmoOp) (float : Bool) (size : Nat) (lanes : List (Nat × Word))
  deriving DecidableEq, Repr

/-- A bank command or VAMO at the dispatcher (R203, R212), with its issuer, flags so far and poisoned words met (R218). -/
structure BankItem where
  id : Nat
  unit : UnitId
  serial : Nat
  pc : Word
  words : List Half
  work : BankWork
  flags : BitVec 5
  poisoned : List Nat
  writer : Option (Coord × Nat)
  deriving DecidableEq, Repr

/-- A number format (R8). -/
inductive Fmt where
  | fp32 | bf16 | f16 | e4m3 | e5m2 | e3m2 | e2m3 | e2m1
  deriving DecidableEq, Repr

/-- A matrix operation (R243). -/
inductive MatOp where
  | mma (fa fb : Fmt) (mc : Bool) (baseA baseB strideA strideB : Nat)
  | mmaa
  | scacc (baseR baseC : Nat)
  | accz
  | swap
  deriving DecidableEq, Repr

/-- An operation in the engine queue, with the lines it has read early and the poisoned words it met (R243, R244, R249,
R257). Lines and words go by canonical near address: an offset in own memory, a window address elsewhere. -/
structure MatItem where
  id : Nat
  unit : UnitId
  serial : Nat
  pc : Word
  words : List Half
  op : MatOp
  lines : List (Nat × BitVec 512)
  poisoned : List Nat
  deriving DecidableEq, Repr

/-- A physical address: device memory, or host memory where `host` (R328), with log2 of the size of the page that maps it (R330). -/
structure Phys where
  addr : Nat
  host : Bool
  page : Nat
  deriving DecidableEq, Repr

/-- A transfer of a copy channel with its progress (R221, R222, R237): `next` the unit, `half` the values of it that are
already stored, `row` the index read for a gathered row, `lines` and `poisoned` the near lines read (R398), `since` the tick
from which the host link holds its access, and that access's address (R390), `granted` the address and the
translation granted for it (R334), `piece` the destination line of a piece that it has begun and not finished (R238), `acked` where the peer has acknowledged it (R388). -/
structure Transfer where
  id : BitVec 32
  gather : Bool
  unit : UnitId
  serial : Nat
  task : Option (Coord × Nat)
  pc : Word
  words : List Half
  rcd : BitVec 512
  packed : Nat
  next : Nat
  half : Nat
  flags : BitVec 5
  clipped : Bool
  skipped : Nat
  firstSkip : Option Nat
  failed : Option (Why × Word)
  row : Option (Nat × Nat)
  lines : List (Nat × BitVec 512)
  poisoned : List Nat
  since : Option (Word × Word)
  granted : Option (Word × Phys)
  piece : Option Nat
  acked : Bool
  deriving DecidableEq, Repr

/-- A failed transfer that waits to be reported (R236, R237). -/
structure CopyFail where
  id : BitVec 32
  unit : UnitId
  serial : Nat
  pc : Word
  words : List Half
  why : Why
  faddr : Word
  deriving DecidableEq, Repr

/-- A copy channel (R221, R222, R235). -/
structure Chan where
  counter : BitVec 32
  done : BitVec 32
  queue : List Transfer
  failed : List CopyFail
  held : Option (BitVec 512)
  deriving DecidableEq, Repr

/-- An Ibex unit's task (R78). -/
structure Ibex where
  task : Option Task
  starting : Option Task
  deriving DecidableEq, Repr

inductive Power where
  | on | drowsy | off
  deriving DecidableEq, Repr

/-- What waits for room in a mailbox (R119): the notice of a connection's inbound send, a signal message, a clip message of a
channel, or a record of the device's own. -/
inductive MbFrom where
  | notice (conn : Nat)
  | signal (id : Nat)
  | clip (ch : Fin 4)
  | device
  deriving DecidableEq, Repr

/-- A core (R104): local memory, slots, units, engines and the state of its home. `mbHead` is the place of the mailbox's next
word in its region, `mbHeld` the messages that wait for room, in the order in which they became ready (R119), `wStale` and `vStale`
tell that W and V are not as the save area holds them (R259), `flawed` are the words with a single-bit error (R218), `lastExec`
and `lastAcc` the slots that the issue ports chose last (R107), `answers` the words that a work query answered (R395). -/
structure Core where
  mem : Memory
  poison : List Nat
  attr : List (Nat × Byte)
  pageSel : BitVec 9
  tvec : Word
  tqbase : Word
  tqcfg : Word
  envbase : Word
  frbase : Word
  mbbase : Word
  acfg : Word
  clkdiv : BitVec 3
  cycle : Word
  threads : Vector Thread 10
  slots : Vector Slot 4
  ibex : Vector Ibex 2
  home : List Entry
  nextEntry : Nat
  maxRetired : BitVec 32
  advert : Bool
  envAllot : Nat
  mb : List Word
  mbHead : Nat
  mbHeld : List (MbFrom × List Word)
  score : List Score
  bankQ : List BankItem
  pAcc : List (Nat × BitVec 32)
  wAcc : List (Nat × BitVec 32)
  vAcc : List (Nat × BitVec 32)
  pDirty : Bool
  wDirty : Bool
  vDirty : Bool
  wStale : Bool
  vStale : Bool
  accPresent : Bool
  engQ : List MatItem
  chans : Vector Chan 4
  launch : Option Nat
  role : Nat
  members : BitVec 16
  power : Power
  drowsyAsked : Bool
  corrected : Nat
  flawed : List Nat
  held : List (BitVec 512)
  lastExec : Fin 4
  lastAcc : Fin 4
  answers : List Nat
  deriving DecidableEq, Repr

/-- Whom a posted operation or a global request belongs to. -/
structure Origin where
  core : Coord
  slot : Fin 4
  serial : Nat
  side : Side
  seq : Nat
  deriving DecidableEq, Repr

/-- What a message carries (R302): the kinds of the head flit, and the accesses of the cluster network (R290). -/
inductive Payload where
  | portWord (port : Fin 4) (slot : Fin 4) (w : Word)
  | put (ref : Word) (bytes : List Byte)
  | getReq (ref : Word) (len : Nat) (dest : Nat)
  | getData (ref : Word) (dest : Nat) (bytes : List Byte) (why : Option Why)
  | atomicReq (ref : Word) (x : Word) (dest : Nat)
  | atomicReply (dest : Nat) (old : Word) (why : Option Why)
  | signal (w : Word)
  | ack (why : Option Why) (addr : Word)
  | taskRec (rcd : BitVec 512) (addr : Word)
  | closureOp (req : Req)
  | closureAns (req : Req) (ans : Ans)
  | closureLet (h : Handle) (launch : Nat)
  | workQuery (x : Word) (h : Handle)
  | workAnswer (x : Word) (h : Handle) (id : Word)
  | notice (advertises : Bool)
  | stealAsk (slot : Fin 4)
  | stealGrant (slot : Fin 4) (home : Option Coord)
  | winStore (elems : List (Nat × List Byte))
  | winReq (req : Req)
  | winAns (req : Req) (ans : Ans)
  deriving DecidableEq, Repr

/-- The message classes (R303), and the cluster network beside them. -/
inductive Class where
  | control | reply | request | bulk | cluster
  deriving DecidableEq, Repr

/-- A message in flight (R302, R304). `unit` is the stream it belongs to, `tag` the request that an
answer answers, `origin` the posted entry it answers for, `writer` the task whose writes it makes (R87); `user` where its unit was
in U mode (R69), `held` where the destination holds it back (R304). -/
structure Msg where
  id : Nat
  src : Coord
  dst : Coord
  cls : Class
  unit : UnitId
  tag : Nat
  origin : Option Origin
  writer : Option (Coord × Nat)
  user : Bool
  held : Bool
  load : Payload
  deriving DecidableEq, Repr

/-- A global request (R136 to R139, R332). -/
inductive GKind where
  | load (size : Nat)
  | store (bytes : List Byte)
  | amo (op : AmoOp) (x y : Word)
  | pref (len : Nat)
  | mscfl (len : Nat)
  deriving DecidableEq, Repr

inductive GReply where
  | data (v : Word)
  | done
  | error (why : Why)
  deriving DecidableEq, Repr

/-- A global request of an access stream, with its reply once it is performed (R336); `granted` the
translation granted while the host link holds the request (R334), `since` the tick from which it is held (R390). -/
structure GReq where
  id : Nat
  origin : Origin
  pid : BitVec 20
  addr : Word
  kind : GKind
  held : Bool
  granted : Option Phys
  since : Word
  reply : Option GReply
  deriving DecidableEq, Repr

/-- A translation that a station keeps (R334): the leaf that maps a page. -/
structure Xlat where
  station : Nat
  pid : BitVec 20
  level : Nat
  page : Nat
  entry : Word
  deriving DecidableEq, Repr

/-- A die's fault log, counters, row voltages and Slate (R313, R320, R321, R323). -/
structure Die where
  log : List (BitVec 256)
  overflow : Nat
  stretch : Nat
  voltage : List (Nat × Byte)
  advertised : List Coord
  deriving DecidableEq, Repr

/-- A work queue (R338), with the bytes of its head record's code object once that passed its checks (R363). `since` is the access for
the record that the host link holds, the completion write of a refusal by check n or the read of the object, and its tick (R390). -/
structure Queue where
  tail : BitVec 32
  head : BitVec 32
  base : BitVec 29
  pid : BitVec 20
  prio : BitVec 3
  log2 : BitVec 4
  prof : BitVec 4
  err : Bool
  ovf : Bool
  en : Bool
  object : Option (List Byte)
  since : Option (Option Nat × Word)
  deriving DecidableEq, Repr

/-- A launch loads its reels, runs, stops for a pre-emption or an abort, is saved, or has ended. -/
inductive LaunchPhase where
  | loading | running | stopping | preempted | ended
  deriving DecidableEq, Repr

/-- The kernel's header fields that a running launch uses (R367). -/
structure Kernel where
  nf : Nat
  widths : List Nat
  extents : List Nat
  scopeDie : Bool
  frsize : Nat
  envs : Nat
  steal : Nat
  entries : List (Nat × Word)
  deriving DecidableEq, Repr

/-- The reel of a role as the launch unit prepared it: its base, its ranges (R364), the address of `__trap` or 0 (R287),
and its MEMSZ bytes (R372). -/
structure Reel where
  role : Nat
  base : Nat
  memsz : Nat
  constoff : Nat
  dataoff : Nat
  tvec : Word
  image : List Byte
  deriving DecidableEq, Repr

/-- A launch on its placement (R343 to R352), with what its pre-emption saved (R281, R282). `waited` counts the cycles in which its
cores waited at SSTEP, the most that ballast can have run (R355); `since` is the tick from which the host link holds an access for
it (R390), and `record` the completion record whose write it holds (R349). -/
structure Launch where
  id : Nat
  queue : BitVec 10
  pid : BitVec 20
  prio : BitVec 3
  rcd : BitVec 512
  index : Nat
  cores : List (Coord × Nat)
  kernel : Kernel
  reels : List Reel
  relays : List (Coord × Coord)
  phase : LaunchPhase
  aborted : Bool
  contextLost : Bool
  ordinal : Nat
  failed : Option Why
  preempts : BitVec 16
  started : Word
  cycles0 : Nat
  stretch0 : Nat
  hostCap : Nat
  clapDelay : Nat
  waited : Nat
  saved : List (Nat × Core)
  since : Option Word
  record : Option (BitVec 512)
  deriving DecidableEq, Repr

/-- A release that the Clapper has pending: the launch, its scope, the columns left and the tick from which the next
column may go (R352, R353). -/
structure Release where
  launch : Nat
  die : Option Nat
  columns : List Nat
  next : Nat
  gap : Nat
  deriving DecidableEq, Repr

/-- A connection (R387), its four words from the lowest up, with its ring position (R389) and the tick from which the host link
holds its inbound access (R390). -/
structure Conn where
  ctl : Word
  notify : Word
  peer : Word
  ring : Word
  slot : Nat
  since : Option Word
  deriving DecidableEq, Repr

/-- The registers of BAR0 (R380) and what the host has read. -/
structure HostRegs where
  cmderr : Byte
  cmdbusy : Bool
  cores : BitVec 13
  inspsel : Word
  hlto : Word
  keys : List (Nat × Byte)
  pidDir : Word
  shootTarget : Word
  shootBase : Word
  shoot : Option (BitVec 20 × Option (Nat × Nat))
  shootAcks : List Nat
  shootDone : Bool
  loader : Word
  ceil : Word
  slope : Word
  stepi : Word
  profiles : List (Nat × Byte)
  deriving DecidableEq, Repr

/-- What leaves the device for the host or a peer (R359, R388, R389, R391). -/
inductive Output where
  | hostRead (addr : Nat) (bytes : List Byte)
  | measurements (firmware config keys signature : List Byte)
  | housekeeping (energy : Word)
  | sent (conn : BitVec 12) (port : Fin 16) (kind : Nat) (addr : Word) (bytes : List Byte)
  | refusedToPeer (conn : BitVec 12)
  | rmaRead (conn : BitVec 12) (bytes : List Byte)
  deriving DecidableEq, Repr

inductive Phase where
  | off | poweredUp | running
  deriving DecidableEq, Repr

/-- What moves next (log 3): an agent's instruction, an event of the opcode table, or one of the moves that the table
has no row for: time, a prefetch (R104), the choice of an issue port (R107), a store that waits in its stream's buffer and its
drain, a load's early read (R262), an early engine read (R244), a soft error (R218), a fabric peer (R388), the host's trim
(R391) and its read of the housekeeping account (R350). -/
inductive Turn where
  | instr (a : Agent)
  | issue (c : Coord) (side : Side)
  | delayed (a : Agent)
  | storeDrain (a : Agent)
  | readAhead (a : Agent) (addr size : Nat)
  | event (e : Instr)
  | tick (n : Nat)
  | cycle (c : Coord)
  | prefetch (a : Agent) (addr : Nat)
  | engineRead (c : Coord) (id : Nat) (line : Nat)
  | softError (c : Coord) (addr : Nat) (double : Bool)
  | portSend (c : Coord) (slot : Fin 4) (p : Fin 4)
  | poisonGlobal (addr : Nat)
  | stationDrop (station : Nat)
  | cacheFill (line : Nat)
  | cacheEvict (line : Nat)
  | malformedHead (head : BitVec 128)
  | fabricFail (c : Coord) (ch : Fin 4) (sub : BitVec 7)
  | gatewayCorrected (addr : Nat)
  | copyHoldTimeout (c : Coord) (ch : Fin 4)
  | peerAck (c : Coord) (ch : Fin 4)
  | trim (bytes : List Byte)
  | readHousekeeping
  deriving DecidableEq, Repr

/-- For whom the host link holds an access that no stream made (R390): the record of a queue, a launch, the accumulator of a resumed
core, or a connection's inbound traffic. -/
inductive HeldBy where
  | queue (q : Nat)
  | launch (l : Nat)
  | restore (l c : Nat)
  | conn (n : Nat)
  deriving DecidableEq, Repr

/-- A translation that a station has granted to such an access, which completes under it (R334), and the tick from which the link
holds it. -/
structure Grant where
  owner : HeldBy
  pid : BitVec 20
  addr : Nat
  write : Bool
  phys : Phys
  since : Word
  deriving DecidableEq, Repr

/-- The machine. -/
structure State where
  cores : List (Nat × Core)
  time : Word
  net : List Msg
  gnet : List GReq
  gmem : Memory
  hmem : Memory
  gpoison : List Nat
  cache : List (Nat × Bool)
  tlb : List Xlat
  grants : List Grant
  gcorrected : List (Nat × Nat)
  dies : List (Nat × Die)
  heat : List (Nat × Byte)
  queues : List (Nat × Queue)
  launches : List Launch
  lastServed : List (Nat × Nat)
  host : HostRegs
  releases : List Release
  currentEst : Word
  housekeeping : Word
  trim : List Byte
  boot : Nat
  conns : List (Nat × Conn)
  linkUp : BitVec 16
  hostLink : Bool
  phase : Phase
  firmware : List Byte
  hostOut : List Output
  cur : Agent
  agenda : List Turn
  ir : List Half
  nextId : Nat
  freeCtr : Nat
  deriving DecidableEq, Repr

/-- A stream that runs nothing: registers 0 (log 5), CMASK naming g12 to g19 (R125). -/
def Thread.reset : Thread :=
  { pc := 0, g := Vector.replicate 32 0, l0 := 0, l1 := 0, dead := 0, k := Vector.replicate 8 0, fcsr := 0,
    cmask := 0x000FF000, epc := 0, ld := 0, st := 0, bk := 0, mx := 0, running := false, gld := [], fbuf := [],
    pend := [], rcd := none, keeps := [], stallRt := false, stalled := false, joins := false, due := [], sbuf := [], early := [] }

def Port.reset : Port := { cfg := 0, send := [], recv := [] }

/-- An idle slot (R105, R106, R125, R186); v and m 0 (log 5). -/
def Slot.reset : Slot :=
  { st := .idle, status := 0, cause := 0, fpc := 0, fword0 := 0, fword1 := 0, fword2 := 0, faddr := 0, lq := [],
    sq := [], bo := [], boProd := none, rt := [], ports := Vector.replicate 4 Port.reset, posted := [], nextSeq := 1,
    dcloss := 0, v := Vector.replicate 32 0, m := Vector.replicate 8 0, vtype := 0, vl := 0,
    frames := Vector.replicate 64 0, fgen := Vector.replicate 64 0, depth := 0, task := none, starting := none,
    grant := none, accWas := false, serial := 0, arrived := false, released := false,
    committing := false }

def Chan.reset : Chan := { counter := 0, done := 0, queue := [], failed := [], held := none }

/-- A core right after reset (R115, R118, R125, R222, R241): TQCFG with STEAL 1 and DEPTH 8 (log 7). -/
def Core.reset : Core :=
  { mem := [], poison := [], attr := [], pageSel := 0, tvec := 0, tqbase := 0, tqcfg := 0x10008, envbase := 0x10000,
    frbase := 0x18400, mbbase := 0x18000, acfg := 0, clkdiv := 0, cycle := 0,
    threads := Vector.replicate 10 Thread.reset, slots := Vector.replicate 4 Slot.reset,
    ibex := Vector.replicate 2 { task := none, starting := none }, home := [], nextEntry := 0, maxRetired := 0,
    advert := false, envAllot := 256, mb := [], mbHead := 0, mbHeld := [], score := [], bankQ := [], pAcc := [], wAcc := [],
    vAcc := [], pDirty := false, wDirty := false, vDirty := false, wStale := false, vStale := false, accPresent := true, engQ := [],
    chans := Vector.replicate 4 Chan.reset, launch := none, role := 0, members := 0, power := .on,
    drowsyAsked := false, corrected := 0, flawed := [], held := [], lastExec := 3, lastAcc := 3, answers := [] }

def Die.reset : Die := { log := [], overflow := 0, stretch := 0, voltage := [], advertised := [] }

def Queue.reset : Queue :=
  { tail := 0, head := 0, base := 0, pid := 0, prio := 0, log2 := 0, prof := 0, err := false, ovf := false,
    en := false, object := none, since := none }

def Conn.reset : Conn := { ctl := 0, notify := 0, peer := 0, ring := 0, slot := 0, since := none }

/-- BAR0 after reset (R380): HLTO 10 000 000, every other register 0. -/
def HostRegs.reset : HostRegs :=
  { cmderr := 0, cmdbusy := false, cores := 0, inspsel := 0, hlto := 10000000, keys := [], pidDir := 0,
    shootTarget := 0, shootBase := 0, shoot := none, shootAcks := [], shootDone := false, loader := 0, ceil := 0,
    slope := 0, stepi := 0, profiles := [] }

/-- The machine right after reset: powered up, its firmware not loaded (R392), every core as `Core.reset`. -/
def State.reset : State :=
  { cores := [], time := 0, net := [], gnet := [], gmem := [], hmem := [], gpoison := [], cache := [], tlb := [], grants := [],
    gcorrected := [], dies := [], heat := [], queues := [], launches := [], lastServed := [], host := HostRegs.reset,
    releases := [], currentEst := 0, housekeeping := 0, trim := [], boot := 0, conns := [], linkUp := 0, hostLink := true,
    phase := .poweredUp, firmware := [], hostOut := [], cur := ⟨0, .stream 0 .exec⟩, agenda := [], ir := [],
    nextId := 0, freeCtr := 0 }

end Sys2Proof.Machine
end

