-- ==== Sys2Proof/Machine/Sparse.lean ====
section
/-! DEFINITION. Machine/Sparse.lean: maps held as sorted lists with a default for what is not listed, bytes of memory in
that form (log 6), and bit-field and byte-order helpers (R5, R29). -/
namespace Sys2Proof.Machine

/-- The value at key `k`, `d` where none is listed. -/
def mapGet {α : Type} (d : α) : List (Nat × α) → Nat → α
  | [], _ => d
  | (j, v) :: r, k => if j = k then v else mapGet d r k

/-- Put `v` at key `k`, in order. -/
def mapPut {α : Type} (k : Nat) (v : α) : List (Nat × α) → List (Nat × α)
  | [] => [(k, v)]
  | (j, w) :: r => if j < k then (j, w) :: mapPut k v r else if j = k then (k, v) :: r else (k, v) :: (j, w) :: r

/-- List nothing at key `k`. -/
def mapDel {α : Type} (k : Nat) (m : List (Nat × α)) : List (Nat × α) := m.filter fun e => e.1 ≠ k

/-- Set key `k` to `v`, listing nothing where that is the default. -/
def mapSet {α : Type} [DecidableEq α] (d : α) (k : Nat) (v : α) (m : List (Nat × α)) : List (Nat × α) :=
  if v = d then mapDel k m else mapPut k v m

/-- Keys strictly rise. -/
def mapSorted {α : Type} : List (Nat × α) → Bool
  | [] => true
  | [_] => true
  | (j, _) :: (k, w) :: r => decide (j < k) && mapSorted ((k, w) :: r)

/-- The canonical form of a memory: strictly rising addresses, no entry 0 (log 6). -/
def Memory.wf (m : Memory) : Bool := mapSorted m && m.all fun e => e.2 != 0

/-- One byte. -/
def peek (m : Memory) (a : Nat) : Byte := mapGet 0 m a
/-- Write one byte. -/
def poke (m : Memory) (a : Nat) (b : Byte) : Memory := mapSet 0 a b m
/-- `n` bytes from `a` on. -/
def peeks (m : Memory) (a : Nat) : Nat → List Byte
  | 0 => []
  | n + 1 => peek m a :: peeks m (a + 1) n
/-- Write bytes from `a` on. -/
def pokes (m : Memory) (a : Nat) : List Byte → Memory
  | [] => m
  | b :: r => pokes (poke m a b) (a + 1) r

/-- The number that bytes hold, little-endian (R5). -/
def leNat : List Byte → Nat
  | [] => 0
  | b :: r => b.toNat + 256 * leNat r
/-- `n` bytes of a number, little-endian (R5). -/
def leBytes : Nat → Nat → List Byte
  | 0, _ => []
  | n + 1, v => BitVec.ofNat 8 v :: leBytes n (v / 256)

/-- A little-endian number of `n` bytes in memory. -/
def peekNat (m : Memory) (a n : Nat) : Nat := leNat (peeks m a n)
/-- A line of 64 bytes. -/
def peekLine (m : Memory) (a : Nat) : BitVec 512 := BitVec.ofNat 512 (peekNat m a 64)

/-- Bits [hi:lo] of a natural number. -/
def natBits (v hi lo : Nat) : Nat := v / 2 ^ lo % 2 ^ (hi + 1 - lo)
/-- Bits [hi:lo] of a bit vector, as a number. -/
def bits {n : Nat} (v : BitVec n) (hi lo : Nat) : Nat := natBits v.toNat hi lo
/-- `v` with bits [hi:lo] replaced. -/
def setBits {n : Nat} (v : BitVec n) (hi lo x : Nat) : BitVec n :=
  let mask := BitVec.ofNat n ((2 ^ (hi + 1 - lo) - 1) * 2 ^ lo)
  (v &&& ~~~mask) ||| (BitVec.ofNat n (x * 2 ^ lo) &&& mask)
/-- SignExt(v, n) of R29, to 64 bits. -/
def signExt (n v : Nat) : Word :=
  let x := v % 2 ^ n
  if 2 ^ (n - 1) ≤ x ∧ 0 < n then BitVec.ofInt 64 (x - 2 ^ n : Int) else BitVec.ofNat 64 x
/-- ZeroExt(v, n) of R29. -/
def zeroExt (n v : Nat) : Word := BitVec.ofNat 64 (v % 2 ^ n)
/-- Two's complement value of the low n bits. -/
def sInt (n v : Nat) : Int :=
  let x := v % 2 ^ n
  if 2 ^ (n - 1) ≤ x ∧ 0 < n then (x : Int) - 2 ^ n else x
/-- SatS(x, n) of R29. -/
def satS (x : Int) (n : Nat) : Int :=
  if x < -(2 ^ (n - 1) : Int) then -(2 ^ (n - 1) : Int) else if (2 ^ (n - 1) : Int) ≤ x then 2 ^ (n - 1) - 1 else x
/-- SatU(x, n) of R29. -/
def satU (x : Int) (n : Nat) : Int := if x < 0 then 0 else if (2 ^ n : Int) ≤ x then 2 ^ n - 1 else x
/-- The low n bits of an integer, as a number. -/
def wrapInt (n : Nat) (x : Int) : Nat := (x % (2 ^ n : Int)).toNat
/-- Two byte ranges meet. -/
def overlap (lo hi lo' hi' : Nat) : Bool := decide (lo < hi' ∧ lo' < hi ∧ lo < hi ∧ lo' < hi')
/-- Addresses start, start + step, … `n` of them. -/
def stepsFrom (start step : Nat) : Nat → List Nat
  | 0 => []
  | n + 1 => start :: stepsFrom (start + step) step n
/-- The lines that [lo, hi) touches. -/
def linesOf (lo hi : Nat) : List Nat :=
  if hi ≤ lo then [] else stepsFrom (lo / 64 * 64) 64 ((hi - 1) / 64 - lo / 64 + 1)
/-- The pages that [lo, hi) touches, by page number. -/
def pagesOf (lo hi : Nat) : List Nat :=
  if hi ≤ lo then [] else stepsFrom (lo / 4096) 1 ((hi - 1) / 4096 - lo / 4096 + 1)
/-- Drop the first element that satisfies `p`. -/
def dropFirst {α : Type} (p : α → Bool) : List α → List α
  | [] => []
  | x :: r => if p x then r else x :: dropFirst p r
/-- Change the first element that satisfies `p`. -/
def changeFirst {α : Type} (p : α → Bool) (f : α → α) : List α → List α
  | [] => []
  | x :: r => if p x then f x :: r else x :: changeFirst p f r
/-- Insert into a sorted list of numbers without repeats. -/
def insertNat (k : Nat) : List Nat → List Nat
  | [] => [k]
  | j :: r => if j < k then j :: insertNat k r else if j = k then j :: r else k :: j :: r

end Sys2Proof.Machine
end

