-- ==== Sys2Proof/Machine/Base.lean ====
section
/-! DEFINITION. Machine/Base.lean: reading and changing cores, slots and threads, coordinates (R2, R3), the fields of a
continuation record (R66), the order of a home (R70, R71, R85), writes to local memory with the aborts they cause (R87),
messages, the fault log (R313) and the launch status. -/
namespace Sys2Proof.Machine

/-! ### Coordinates -/

def dieOf (c : Coord) : Nat := bits c 12 8
def rowOf (c : Coord) : Nat := bits c 7 4
def colOf (c : Coord) : Nat := bits c 3 0
/-- d.r.c (R2). -/
def coordOf (d r c : Nat) : Coord := BitVec.ofNat 13 (d * 256 + r * 16 + c)
/-- Cluster-local index (R3). -/
def clidx (c : Coord) : Nat := rowOf c % 4 * 4 + colOf c % 4
/-- The core of cluster-local index `j` in the cluster of `c` (R3). -/
def member (c : Coord) (j : Nat) : Coord := coordOf (dieOf c) (rowOf c / 4 * 4 + j / 4) (colOf c / 4 * 4 + j % 4)
def sameCluster (a b : Coord) : Bool := dieOf a == dieOf b && rowOf a / 4 == rowOf b / 4 && colOf a / 4 == colOf b / 4
/-- The number of a cluster in the heat map, 0 to 255 (R344). -/
def clusterNo (c : Coord) : Nat := dieOf c * 16 + rowOf c / 4 * 4 + colOf c / 4
/-- A core of a core die (R2). -/
def isCore (c : Coord) : Bool := decide (dieOf c < 16)
def manhattan (a b : Coord) : Nat :=
  (rowOf a - rowOf b) + (rowOf b - rowOf a) + ((colOf a - colOf b) + (colOf b - colOf a))

/-! ### Access to the state -/

/-- The place of a stream or Ibex unit among a core's threads. -/
def unitIdx : UnitId → Fin 10
  | .stream 0 .exec => 0 | .stream 0 .acc => 1 | .stream 1 .exec => 2 | .stream 1 .acc => 3
  | .stream 2 .exec => 4 | .stream 2 .acc => 5 | .stream 3 .exec => 6 | .stream 3 .acc => 7
  | .ibex 0 => 8 | .ibex 1 => 9
/-- The slot of a stream. -/
def unitSlot : UnitId → Option (Fin 4)
  | .stream i _ => some i
  | .ibex _ => none
def unitSide : UnitId → Side
  | .stream _ x => x
  | .ibex _ => .exec
def coreAt (s : State) (c : Coord) : Core := mapGet Core.reset s.cores c.toNat
def setCore (s : State) (c : Coord) (k : Core) : State := { s with cores := mapPut c.toNat k s.cores }
def mapCore (s : State) (c : Coord) (f : Core → Core) : State := setCore s c (f (coreAt s c))
def threadAt (k : Core) (u : UnitId) : Thread := k.threads[unitIdx u]
def mapThread (k : Core) (u : UnitId) (f : Thread → Thread) : Core :=
  { k with threads := k.threads.set (unitIdx u) (f (threadAt k u)) }
def slotAt (k : Core) (i : Fin 4) : Slot := k.slots[i]
def mapSlot (k : Core) (i : Fin 4) (f : Slot → Slot) : Core := { k with slots := k.slots.set i (f (slotAt k i)) }
def chanAt (k : Core) (i : Fin 4) : Chan := k.chans[i]
def mapChan (k : Core) (i : Fin 4) (f : Chan → Chan) : Core := { k with chans := k.chans.set i (f (chanAt k i)) }
def ibexAt (k : Core) (i : Fin 2) : Ibex := k.ibex[i]
def mapIbex (k : Core) (i : Fin 2) (f : Ibex → Ibex) : Core := { k with ibex := k.ibex.set i (f (ibexAt k i)) }
def dieAt (s : State) (d : Nat) : Die := mapGet Die.reset s.dies d
def mapDie (s : State) (d : Nat) (f : Die → Die) : State := { s with dies := mapPut d (f (dieAt s d)) s.dies }
def allSlots : List (Fin 4) := [0, 1, 2, 3]
/-- The task of a unit: its slot's, or an Ibex unit's own. -/
def taskOf (k : Core) : UnitId → Option Task
  | .stream i _ => (slotAt k i).task
  | .ibex n => (ibexAt k n).task

/-! ### Launches -/

def launchAt (s : State) (l : Nat) : Option Launch := s.launches.find? fun x => x.id == l
def mapLaunch (s : State) (l : Nat) (f : Launch → Launch) : State :=
  { s with launches := changeFirst (fun x => x.id == l) f s.launches }
/-- The launch that holds a core. -/
def launchOf (s : State) (c : Coord) : Option Launch := ((coreAt s c).launch).bind (launchAt s)
/-- `d` is a core of the launch that holds `c`. -/
def inLaunch (s : State) (c d : Coord) : Bool :=
  isCore d && (coreAt s c).launch.isSome && (coreAt s d).launch == (coreAt s c).launch
/-- The launch's status is marked failed with its first fault (R349). -/
def failLaunch (s : State) (l : Option Nat) (w : Why) : State :=
  match l with
  | none => s
  | some i => mapLaunch s i fun x => { x with failed := x.failed.or (some w) }
def failCore (s : State) (c : Coord) (w : Why) : State := failLaunch s (coreAt s c).launch w

/-! ### The die fault log (R313) -/

def logEntry (time : Word) (src core : Coord) (slot : Fin 4) (w : Why) (event seq : Nat) (addr data : Word) : BitVec 256 :=
  BitVec.ofNat 256 (time.toNat + 2 ^ 64 * (src.toNat + 2 ^ 13 * (core.toNat + 2 ^ 13 * (slot.val + 4 *
    (w.cause.toNat + 2 ^ 9 * (w.sub.toNat + 2 ^ 7 * (event + 16 * (seq % 2 ^ 16 + 2 ^ 16 *
    (addr.toNat + 2 ^ 64 * data.toNat)))))))))
def logFault (s : State) (core src : Coord) (slot : Fin 4) (w : Why) (event seq : Nat) (addr data : Word) : State :=
  mapDie s (dieOf core) fun d =>
    let e := logEntry s.time src core slot w event seq addr data
    if d.log.length < 512 then { d with log := d.log ++ [e] }
    else { d with log := d.log.drop 1 ++ [e], overflow := d.overflow + 1 }

/-! ### Messages -/

/-- A unit is in U mode: an Ibex unit, or a slot whose STATUS.MODE is 0 (R122). -/
def unitUser (k : Core) (u : UnitId) : Bool := match unitSlot u with
  | some i => !(slotAt k i).status.getLsbD 0
  | none => true
/-- Send a message (R302). The interface keeps the order of sending (R304). -/
def send (s : State) (src dst : Coord) (cls : Class) (unit : UnitId) (tag : Nat) (origin : Option Origin)
    (writer : Option (Coord × Nat)) (p : Payload) : State :=
  { s with
    net := s.net ++ [{ id := s.nextId, src := src, dst := dst, cls := cls, unit := unit, tag := tag, origin := origin,
                       writer := writer, user := unitUser (coreAt s src) unit, held := false, load := p }]
    nextId := s.nextId + 1 }
def dropMsg (s : State) (id : Nat) : State := { s with net := dropFirst (fun m => m.id == id) s.net }
def holdMsg (s : State) (id : Nat) : State :=
  { s with net := changeFirst (fun m => m.id == id) (fun m => { m with held := true }) s.net }
/-- A message of a posted operation, or one that answers it, is on its way. -/
def partsOut (s : State) (c : Coord) (i : Fin 4) (seq : Nat) : Bool := s.net.any fun m => match m.origin with
  | some o => o.core == c && o.slot == i && o.seq == seq
  | none => false
/-- A posted entry is still unanswered: no reply, or a message of it on its way. -/
def postedOut (s : State) (c : Coord) (i : Fin 4) (p : Posted) : Bool :=
  !p.lost && (p.failed.isNone || partsOut s c i p.seq)
/-- The posted entries of a stream, with a sequence number below `n`, that FENCE.CL and FENCE.DIE wait for (R296, R315). -/
def dieBusy (s : State) (c : Coord) (i : Fin 4) (x : Side) (n : Nat) : Bool :=
  (slotAt (coreAt s c) i).posted.any fun p => p.side == x && decide (p.seq < n) && postedOut s c i p && match p.scope with
    | .window => true
    | .message d => dieOf d == dieOf c
    | _ => false
/-- Port words of a stream that were pushed before request `n` and are not yet placed (R315). -/
def portBusy (s : State) (c : Coord) (i : Fin 4) (x : Side) (n : Nat) (f : Coord → Bool) : Bool :=
  (slotAt (coreAt s c) i).ports.toList.any (fun p =>
      f (BitVec.ofNat 13 (bits p.cfg 12 0)) && p.send.any fun w => w.1 == x && decide (w.2.1 ≤ n)) ||
    s.net.any fun m => m.src == c && m.unit == .stream i x && decide (m.tag ≤ n) && f m.dst && match m.load with
      | .portWord _ _ _ => true
      | _ => false
/-- A remote barrier operation that may not leave its core yet: FENCE.DIE would still wait (R311). -/
def mayNotLeave (s : State) (m : Msg) : Bool :=
  !m.held && match m.load, m.unit, m.origin with
    | .atomicReq r _ _, .stream i x, some o =>
      decide (8 ≤ bits r 63 60) &&
        (dieBusy s m.src i x o.seq || portBusy s m.src i x m.id fun d => dieOf d == dieOf m.src)
    | _, _, _ => false
/-- A message whose destination holds it back in its virtual channel (R304): a port word or a mailbox message. -/
def channelHeld (m : Msg) : Bool :=
  m.held && match m.load with
    | .portWord _ _ _ => true
    | .signal _ => true
    | _ => false
/-- A message to a Slate, which goes no way with those to a core (R317, R320). -/
def toSlate (m : Msg) : Bool := match m.load with
  | .workQuery _ _ => true
  | .notice _ => true
  | .stealAsk _ => true
  | _ => false
/-- The request number at the push of a port word, by which its place in its stream's issue order is told. -/
def portTag (m : Msg) : Option Nat := match m.load with
  | .portWord _ _ _ => some m.tag
  | _ => none
/-- An answer: its core, not the stream that it is for, sends it. -/
def isAnswer (m : Msg) : Bool := match m.load with
  | .getData .. => true
  | .atomicReply .. => true
  | .ack .. => true
  | .closureAns .. => true
  | .winAns .. => true
  | .workAnswer .. => true
  | .stealGrant .. => true
  | _ => false
/-- Message `b` was issued before `m`, where `first` says that the interface sent it first. Two messages of one stream go by
the stream's issue order: a port word was issued at its push (R304). -/
def issuedFirst (first : Bool) (b m : Msg) : Bool :=
  if b.src == m.src && b.unit == m.unit && !isAnswer b && !isAnswer m then
    match portTag b, portTag m with
    | some t, none => decide (t ≤ m.id)
    | none, some t => decide (b.id < t)
    | some t, some u => decide (t < u) || (t == u && first)
    | none, none => first
  else first
/-- A closure operation, or a drop that the device makes (R189). -/
def onClosure (m : Msg) : Bool := match m.load with
  | .closureOp _ => true
  | .closureLet _ _ => true
  | _ => false
/-- A work query or its answer: those of different streams have no order (R317). -/
def ofQuery (m : Msg) : Bool := match m.load with
  | .workQuery _ _ => true
  | .workAnswer _ _ _ => true
  | _ => false
/-- Two messages whose order the device keeps: those of one stream, where either is a work query or its answer (R304, R317). -/
def keepOrder (b m : Msg) : Bool := if ofQuery b || ofQuery m then ofQuery b && ofQuery m && b.unit == m.unit else true
/-- The destination holds `b` back, and every other message of the class to that core behind it, whenever it was sent (R119, R304). -/
def holdsBack (b m : Msg) : Bool := channelHeld b && m.cls != .cluster && b.cls == m.cls && b.dst == m.dst && !toSlate m
/-- Message `b` goes before `m`: one that the destination holds back; one of the same class from the same core to the same core
(R304); an earlier closure operation of the core on the same home (R189); a remote barrier operation of the stream that may not leave
yet (R311), which no reply waits for (R303). -/
def goesBefore (s : State) (first : Bool) (b m : Msg) : Bool :=
  holdsBack b m || (issuedFirst first b m && toSlate b == toSlate m &&
    if m.cls == .cluster then b.cls == .cluster && b.src == m.src && b.dst == m.dst && onClosure b && onClosure m
    else (b.cls == m.cls && b.dst == m.dst && b.src == m.src && !b.held && keepOrder b m) ||
      (!isAnswer m && b.src == m.src && b.unit == m.unit && mayNotLeave s b))
/-- The class that PORTCFG names (R125, R305). -/
def portClass (cfg : BitVec 32) : Class := match bits cfg 17 16 with
  | 0 => .control
  | 1 => .reply
  | 2 => .request
  | _ => .bulk
/-- A port word of the message's stream, to the same core in the same class, was pushed before it and is still in its send
buffer (R304). -/
def portUnsent (s : State) (m : Msg) : Bool := match m.unit with
  | .ibex _ => false
  | .stream i x => !isAnswer m && !toSlate m && (slotAt (coreAt s m.src) i).ports.toList.any fun p =>
      BitVec.ofNat 13 (bits p.cfg 12 0) == m.dst && portClass p.cfg == m.cls && p.send.any fun w =>
        w.1 == x && match portTag m with
          | some t => decide (w.2.1 < t)
          | none => decide (w.2.1 ≤ m.id)
/-- The message `id` among `after`, with `before` sent before it, where nothing goes before it. -/
def msgFirst (s : State) : List Msg → Nat → List Msg → Option Msg
  | [], _, _ => none
  | m :: r, id, before =>
    if m.id == id then
      if mayNotLeave s m || portUnsent s m || before.any (fun b => goesBefore s true b m) ||
        r.any (fun b => goesBefore s false b m) then none
      else some m
    else msgFirst s r id (before ++ [m])
/-- The message `id`, where it may take effect now. -/
def msgReady (s : State) (id : Nat) : Option Msg := msgFirst s s.net id []
/-- Closure operations of a core on the home `h` are under way (R189). -/
def closuresOut (s : State) (c h : Coord) : Bool := s.net.any fun m => m.src == c && m.dst == h && onClosure m

/-! ### Continuation records (R66) -/

def rcdTs (r : BitVec 512) : Nat := bits r 95 64
def rcdAnchor (r : BitVec 512) : Word := BitVec.ofNat 64 (bits r 63 0)
def rcdValid (r : BitVec 512) : Bool := r.getLsbD 47
def rcdHome (r : BitVec 512) : Coord := BitVec.ofNat 13 (bits r 12 0)
def rcdOff (r : BitVec 512) : Nat := bits r 33 13
def rcdLen (r : BitVec 512) : Nat := bits r 46 34 + 1
def rcdNear (r : BitVec 512) : Handle := BitVec.ofNat 32 (bits r 127 96)
def rcdFar (r : BitVec 512) : Handle := BitVec.ofNat 32 (bits r 159 128)
def rcdWid (r : BitVec 512) : Word := BitVec.ofNat 64 (bits r 255 192)
def rcdArg (r : BitVec 512) (i : Nat) : Word := BitVec.ofNat 64 (r.toNat / 2 ^ (256 + 64 * i))
def rcdTnear (r : BitVec 512) : Bool := r.getLsbD 160
def rcdTfar (r : BitVec 512) : Bool := r.getLsbD 161
def rcdAborts (r : BitVec 512) : Nat := bits r 166 163
/-- Run only by a far body: FARONLY, or NEAR = 0 (R68). -/
def rcdFarOnly (r : BitVec 512) : Bool := r.getLsbD 167 || rcdNear r == 0
/-- Run only by a near body: NEARONLY, or FAR = 0 (R68). -/
def rcdNearOnly (r : BitVec 512) : Bool := r.getLsbD 168 || rcdFar r == 0
def rcdTaken (r : BitVec 512) : Bool := rcdTnear r || rcdTfar r
def setFlag (r : BitVec 512) (i : Nat) (b : Bool) : BitVec 512 := setBits r (160 + i) (160 + i) (if b then 1 else 0)
/-- A record from its fields. -/
def mkRcd (anchor : Word) (ts : Nat) (near far : Handle) (wid a0 a1 a2 a3 : Word) : BitVec 512 :=
  BitVec.ofNat 512 (anchor.toNat + 2 ^ 64 * (ts % 2 ^ 32) + 2 ^ 96 * near.toNat + 2 ^ 128 * far.toNat +
    2 ^ 192 * wid.toNat + 2 ^ 256 * a0.toNat + 2 ^ 320 * a1.toNat + 2 ^ 384 * a2.toNat + 2 ^ 448 * a3.toNat)

/-! ### The order of a home (R70 to R74, R85) -/

/-- X comes first in the order of R70. -/
def older (x y : Entry) : Bool :=
  decide (rcdTs x.rcd < rcdTs y.rcd ∨ (rcdTs x.rcd = rcdTs y.rcd ∧ x.seq < y.seq))
/-- Two anchored tasks of one home overlap (R71). -/
def rcdOverlap (x y : BitVec 512) : Bool :=
  rcdValid x && rcdValid y && overlap (rcdOff x) (rcdOff x + rcdLen x) (rcdOff y) (rcdOff y + rcdLen y)
/-- No older uncommitted task at the home overlaps it (R78, R85). -/
def eligible (k : Core) (e : Entry) : Bool := !(k.home.any fun x => older x e && rcdOverlap x.rcd e.rcd)
/-- The depth of a home (R74). -/
def homeDepth (k : Core) : Nat := (k.home.filter fun e => rcdValid e.rcd && !rcdTaken e.rcd).length
def minTs : List Nat → Option Nat
  | [] => none
  | x :: r => match minTs r with
    | none => some x
    | some y => some (min x y)
/-- The frontier of a home (R72). -/
def frontier (k : Core) : Nat :=
  match minTs ((k.home.filter fun e => rcdValid e.rcd).map fun e => rcdTs e.rcd) with
  | some t => t
  | none => k.maxRetired.toNat
/-- The home advertises (R81). -/
def advertises (k : Core) : Bool :=
  decide (bits k.tqcfg 10 0 < homeDepth k) ||
    k.home.any fun e => rcdValid e.rcd && !rcdTaken e.rcd && rcdFarOnly e.rcd && eligible k e
/-- Far tasks that no older overlapping task holds back become promoted (R85). -/
def promote (k : Core) : Core :=
  { k with home := k.home.map fun e => if rcdTfar e.rcd && eligible k e then { e with promoted := true } else e }
def entryAt (k : Core) (seq : Nat) : Option Entry := k.home.find? fun e => e.seq == seq
/-- The words of [a, a + n) that are written as a whole (R218). -/
def wholeWords (a n : Nat) : List Nat := stepsFrom ((a + 7) / 8) 1 ((a + n) / 8 - (a + 7) / 8)
/-- Bytes are written; words written whole lose their poison and their single-bit errors (R218). -/
def putBytes (k : Core) (a : Nat) (bs : List Byte) : Core :=
  let ww := wholeWords a bs.length
  { k with mem := pokes k.mem a bs, poison := k.poison.filter fun p => !ww.contains p,
           flawed := k.flawed.filter fun p => !ww.contains p }
/-- Word `p` shares a byte with [a, a + n). -/
def wordIn (a n p : Nat) : Bool := overlap (8 * p) (8 * p + 8) a (a + n)
/-- The words of [a, a + n) are read: their single-bit errors are corrected and counted (R218). -/
def readWords (k : Core) (a n : Nat) : Core :=
  { k with corrected := k.corrected + (k.flawed.filter (wordIn a n)).length, flawed := k.flawed.filter fun p => !wordIn a n p }
/-- The home writes a record into its place of the region at TQBASE (R69, log 10). -/
def putRecord (k : Core) (e : Entry) : Core := putBytes k (k.tqbase.toNat + 64 * (e.place % Config.homeEntries)) (leBytes 64 e.rcd.toNat)
/-- Byte `x` lies in the home-queue region (R69). -/
def inHome (k : Core) (x : Nat) : Bool := decide (k.tqbase.toNat ≤ x ∧ x < k.tqbase.toNat + 64 * Config.homeEntries)
def mapEntry (k : Core) (seq : Nat) (f : Entry → Entry) : Core :=
  { k with home := changeFirst (fun e => e.seq == seq) f k.home }
/-- Change an entry with its record, which the home writes. -/
def mapRecord (k : Core) (seq : Nat) (f : Entry → Entry) : Core :=
  let k := mapEntry k seq f
  match entryAt k seq with
  | some e => putRecord k e
  | none => k
/-- After a change to its records, a home tells its Slate when its advertising begins or ends (R320). -/
def advertNotice (s : State) (c : Coord) : State :=
  let k := coreAt s c
  let a := advertises k
  if a == k.advert then s
  else send (setCore s c { k with advert := a }) c c .control (.ibex 0) 0 none none (.notice a)

/-! ### Ending a body on a slot -/

/-- A stream stops: what it waited on is not begun (R108), and the places and locks of its loads are discarded (R106,
R143). -/
def stopThread (t : Thread) : Thread :=
  { t with running := false, pend := [], rcd := none, due := [], stallRt := false, stalled := false, joins := false,
           early := [], gld := t.gld.map fun x => { x with drop := true, failed := none, data := x.data.or (x.failed.map fun _ => 0) } }
/-- Pop every live frame, innermost first (R186). -/
def popFrames (x : Slot) : Slot :=
  { x with depth := 0, fgen := Vector.ofFn fun i => if i.val < x.depth then x.fgen[i] + 1 else x.fgen[i] }
/-- The slot leaves Running: its queues are discarded, its frames popped, its port words kept (R106, R186, R122). -/
def endSlot (k : Core) (i : Fin 4) : Core :=
  let k := mapSlot k i fun x =>
    popFrames { x with st := .idle, lq := [], sq := [], bo := [], boProd := none, rt := [], task := none,
                       starting := none, accWas := false, arrived := false, released := false, committing := false,
                       status := x.status &&& 2, serial := x.serial + 1 }
  mapThread (mapThread k (.stream i .exec) stopThread) (.stream i .acc) stopThread
/-- Discard a far body: the record returns to its place (R87, R100). -/
def requeue (k : Core) (seq : Nat) (aborted : Bool) : Core :=
  mapRecord k seq fun e =>
    let r := setFlag e.rcd 1 false
    let r := if aborted then setBits (setFlag r 7 true) 166 163 (min 15 (rcdAborts r + 1)) else r
    { e with rcd := r, taker := none, promoted := false, bitmap := 0 }
/-- Abort a speculative far task (R87). DESIGN CHOICE (log 74): a slot that a host command halted in the body becomes idle
with it. -/
def abortTask (s : State) (home : Coord) (seq : Nat) : State :=
  match entryAt (coreAt s home) seq with
  | some e => match e.taker, e.promoted with
    | some ⟨c, .stream i _⟩, false =>
      let s := mapCore s home fun k => requeue k seq true
      advertNotice (mapCore s c fun k => endSlot k i) home
    | _, _ => s
  | none => s

/-! ### Local memory -/

/-- Anchor line `i` of a record (R67). -/
def anchorLine (r : BitVec 512) (i : Nat) : Nat := rcdOff r / 64 * 64 + 64 * i
/-- The bitmap bits of the lines that [lo, hi) touches (R86). -/
def bitmapOf (r : BitVec 512) (lo hi : Nat) : BitVec 64 :=
  (List.range 64).foldl (fun b i => if overlap (anchorLine r i) (anchorLine r i + 64) lo hi then b ||| (1 <<< i) else b) 0
/-- The speculative far tasks of a home that a write to [lo, hi) by `w` aborts (R87). -/
def abortHits (k : Core) (c : Coord) (lo hi : Nat) (w : Option (Coord × Nat)) : List Nat :=
  (k.home.filter fun e => rcdTfar e.rcd && !e.promoted && e.bitmap &&& bitmapOf e.rcd lo hi != 0 && w != some (c, e.seq)).map (·.seq)
/-- `n` bytes of core `c` are read from `a` on. -/
def readAt (s : State) (c : Coord) (a n : Nat) : State :=
  if (coreAt s c).flawed.any (wordIn a n) then mapCore s c fun k => readWords k a n else s
/-- Write bytes to the local memory of core `c` on behalf of the task `w`: the store takes effect (R261), words written
whole lose their poison (R218), and speculative readers are aborted (R87). -/
def writeBytes (s : State) (c : Coord) (a : Nat) (bs : List Byte) (w : Option (Coord × Nat)) : State :=
  let k := coreAt s c
  let s := setCore s c (putBytes k a bs)
  (abortHits k c a (a + bs.length) w).foldl (fun s e => abortTask s c e) s
def writeNat (s : State) (c : Coord) (a n v : Nat) (w : Option (Coord × Nat)) : State := writeBytes s c a (leBytes n v) w
/-- The lowest poisoned word that [a, a + n) touches, by byte address (R218). -/
def poisonIn (k : Core) (a n : Nat) : Option Nat :=
  (k.poison.find? (wordIn a n)).map (8 * ·)
def attrOf (k : Core) (page : Nat) : Byte := mapGet 0x23 k.attr page

/-! ### Page checks (R116) -/

/-- What an access does. -/
structure Acc where
  r : Bool
  w : Bool
  deriving DecidableEq, Repr
def aRead : Acc := ⟨true, false⟩
def aWrite : Acc := ⟨false, true⟩
def aBoth : Acc := ⟨true, true⟩
def why (c s : Nat) : Why := ⟨BitVec.ofNat 9 c, BitVec.ofNat 7 s⟩
/-- A page of the home-queue region, which U mode may not reach whatever its attributes are (R69). -/
def homePage (k : Core) (page : Nat) : Bool := decide (k.tqbase.toNat / 4096 ≤ page ∧ page < k.tqbase.toNat / 4096 + 16)
/-- Local check of one page, in the order SUP, R, W. -/
def pageLocal (k : Core) (user : Bool) (x : Acc) (page : Nat) : Option Why :=
  let a := attrOf k page
  if user && (a.getLsbD 6 || homePage k page) then some (why 0x066 0)
  else if x.r && !a.getLsbD 0 then some (why 0x061 0)
  else if x.w && !a.getLsbD 1 then some (why 0x062 0)
  else none
/-- Destination check of one page for an access from another core, in the order SUP, X, R, W, then CRW or DRW. -/
def pageRemote (k : Core) (x : Acc) (cluster : Bool) (page : Nat) : Option Why :=
  let a := attrOf k page
  if a.getLsbD 6 then some (why 0x066 0)
  else if x.w && a.getLsbD 2 then some (why 0x063 0)
  else if x.r && !a.getLsbD 0 then some (why 0x061 0)
  else if x.w && !a.getLsbD 1 then some (why 0x062 0)
  else if x.w && cluster && !a.getLsbD 3 then some (why 0x067 0)
  else if x.w && !cluster && !a.getLsbD 4 then some (why 0x068 0)
  else none
/-- The first page of [lo, hi) that a check refuses, with the lowest refused byte. -/
def rangeCheck (f : Nat → Option Why) (lo hi : Nat) : Option (Why × Nat) :=
  (pagesOf lo hi).findSome? fun p => (f p).map fun w => (w, max lo (4096 * p))
/-- The destination is off or drowsy (R322). -/
def powerRefusal (k : Core) : Option Why :=
  match k.power with
  | .on => none
  | .off => some (why 0x1A0 1)
  | .drowsy => some (why 0x1A0 2)

/-! ### The range scoreboard (R121) -/

def scoreW (k : Core) (lo hi : Nat) : Bool := k.score.any fun e => e.writes.any fun r => overlap r.1 r.2 lo hi
def scoreRW (k : Core) (lo hi : Nat) : Bool :=
  k.score.any fun e => (e.writes ++ e.reads).any fun r => overlap r.1 r.2 lo hi
/-- Round a range out to whole lines. -/
def roundLines (lo hi : Nat) : Nat × Nat := (lo / 64 * 64, (hi + 63) / 64 * 64)
def freeScore (k : Core) (o : Engine) : Core := { k with score := dropFirst (fun e => e.owner == o) k.score }

/-! ### Mailbox (R119) -/

/-- The place in the region at MBBASE of the mailbox's word `i`, counted from the next to pop (R118, log 10). -/
def mbPlace (k : Core) (i : Nat) : Nat := k.mbbase.toNat + 8 * ((k.mbHead + i) % Config.mailboxWords)
/-- Append words, which the mailbox writes into its region (R118). -/
def mbAppend (k : Core) : List Word → Core
  | [] => k
  | w :: r => mbAppend { putBytes k (mbPlace k k.mb.length) (leBytes 8 w.toNat) with mb := k.mb ++ [w] } r
/-- The next word is popped. -/
def mbPop (k : Core) : Core := { k with mb := k.mb.drop 1, mbHead := (k.mbHead + 1) % Config.mailboxWords }
/-- A message of `n` words fits now, and none waits before it. -/
def mbRoom (k : Core) (n : Nat) : Bool := k.mbHeld.isEmpty && decide (k.mb.length + n ≤ Config.mailboxWords)
/-- The message of `x` waits for its turn. -/
def mbWaits (k : Core) (x : MbFrom) : Bool := k.mbHeld.any fun m => m.1 == x
/-- The message of `x` waits for room, behind those that became ready before it (R119). -/
def mbHold (k : Core) (x : MbFrom) (ws : List Word) : Core := if mbWaits k x then k else { k with mbHeld := k.mbHeld ++ [(x, ws)] }
/-- Append a message whole, or hold it until its words are free, behind those already held (R119). -/
def mailbox (k : Core) (x : MbFrom) (ws : List Word) : Core :=
  if mbRoom k ws.length then mbAppend k ws else { k with mbHeld := k.mbHeld ++ [(x, ws)] }

end Sys2Proof.Machine
end

