-- ==== Sys2Proof/Machine/Home.lean ====
section
/-! DEFINITION. Machine/Home.lean: closure environments at their home (R184 to R190, R199, R200) and the home queue's
acceptance, retirement and references (R72, R95). -/
namespace Sys2Proof.Machine

/-! ### Environments -/

def hGen (h : Handle) : Nat := bits h 31 21
def hIdx (h : Handle) : Nat := bits h 20 13
def hHome (h : Handle) : Coord := BitVec.ofNat 13 (bits h 12 0)
/-- Byte address of environment `i` (R183). -/
def envAddr (k : Core) (i : Nat) : Nat := bits k.envbase 20 15 * 0x8000 + 128 * i
/-- The header of environment `i`, 128 bits (R184). -/
def envHead (k : Core) (i : Nat) : BitVec 128 := BitVec.ofNat 128 (peekNat k.mem (envAddr k i) 16)
def envEntry (e : BitVec 128) : Nat := bits e 31 0
def envRc (e : BitVec 128) : Nat := bits e 39 32
def envGen (e : BitVec 128) : Nat := bits e 50 40
def envLive (e : BitVec 128) : Bool := e.getLsbD 51
def envNcap (e : BitVec 128) : Nat := bits e 55 52
def envNref (e : BitVec 128) : Nat := bits e 59 56
def envRefV (e : BitVec 128) (j : Nat) : Bool := e.getLsbD (79 + 16 * j)
def envRefWord (e : BitVec 128) (j : Nat) : Nat := bits e (67 + 16 * j) (64 + 16 * j)
/-- Byte address of capture word `w` (R184). -/
def envWordAddr (k : Core) (i w : Nat) : Nat := envAddr k i + 16 + 8 * w
/-- An environment named by a handle is live under its generation, below the allotment (R183, R184). -/
def hLive (k : Core) (h : Handle) : Bool :=
  decide (hIdx h < k.envAllot) && envLive (envHead k (hIdx h)) && envGen (envHead k (hIdx h)) == hGen h
/-- The next generation, 2047 followed by 1 (R185). -/
def nextGen (g : Nat) : Nat := if g = 2047 then 1 else g + 1
/-- The reset image of an environment with generation `g`: 128 bytes (R184). -/
def envReset (g : Nat) : List Byte := leBytes 16 (g % 2048 * 2 ^ 40) ++ leBytes 112 0
def writeHead (s : State) (c : Coord) (i : Nat) (e : BitVec 128) : State :=
  writeNat s c (envAddr (coreAt s c) i) 16 e.toNat none
/-- A frame identifier is live at its home (R187). -/
def frameLive (k : Core) (w : Word) : Bool :=
  let x := slotAt k (Fin.ofNat 4 (bits w 55 54))
  let i := bits w 53 48
  decide (i < x.depth) && x.fgen[i % 64]! == BitVec.ofNat 16 (bits w 47 32)
/-- The lowest by-reference slot whose frame is not live (R199). -/
def danglingRef (k : Core) (i : Nat) : Option Nat :=
  let e := envHead k i
  [0, 1, 2, 3].find? fun j =>
    envRefV e j && !frameLive k (BitVec.ofNat 64 (peekNat k.mem (envWordAddr k i (envRefWord e j)) 8))
/-- FADDR of a closure fault: the handle (R201). -/
def hWord (h : Handle) : Word := BitVec.ofNat 64 h.toNat
/-- A closure operation at the environment's home, in one step (R189, R195 to R200). -/
def closureServe (s : State) (home src : Coord) : Req → State × Ans
  | .closureAdd h _ =>
    let k := coreAt s home
    let e := envHead k (hIdx h)
    if !hLive k h then (s, .refused (why 0x0E0 1) (hWord h))
    else if envRc e = 255 then (s, .refused (why 0x0E3 0) (hWord h))
    else (writeHead s home (hIdx h) (setBits e 39 32 (envRc e + 1)), .value 0)
  | .closureDrop h =>
    let k := coreAt s home
    let e := envHead k (hIdx h)
    if !hLive k h then (s, .refused (why 0x0E4 0) (hWord h))
    else if envRc e ≤ 1 then
      (writeBytes s home (envAddr k (hIdx h)) (envReset (nextGen (envGen e))) none, .value 0)
    else (writeHead s home (hIdx h) (setBits e 39 32 (envRc e - 1)), .value 0)
  | .closureRead h n =>
    let k := coreAt s home
    if !hLive k h then (s, .refused (why 0x0E0 1) (hWord h))
    else if envNcap (envHead k (hIdx h)) ≤ n then (s, .refused (why 0x0E5 3) 0)
    else (s, .value (BitVec.ofNat 64 (peekNat k.mem (envWordAddr k (hIdx h) n) 8)))
  | .closureWrite h n v =>
    let k := coreAt s home
    let e := envHead k (hIdx h)
    if !hLive k h then (s, .refused (why 0x0E0 1) (hWord h))
    else if envNcap e ≤ n then (s, .refused (why 0x0E5 3) 0)
    else if [0, 1, 2, 3].any (fun j => envRefV e j && envRefWord e j == n) then (s, .refused (why 0x0E5 4) 0)
    else (writeNat s home (envWordAddr k (hIdx h) n) 8 v.toNat none, .value 0)
  | .closureApply h =>
    let k := coreAt s home
    let e := envHead k (hIdx h)
    let far := !sameCluster home src
    if !hLive k h then (s, .refused (why 0x0E0 1) (hWord h))
    else if far && envNref e != 0 then (s, .refused (why 0x0E1 4) (hWord h))
    else match danglingRef k (hIdx h) with
      | some j => (s, .refused (why 0x0E1 j) (hWord h))
      | none => (s, .env (peeks k.mem (envAddr k (hIdx h)) 128))
  | _ => (s, .value 0)
/-- A drop made by the device itself (R190): a handle that names no live environment is logged and marks the launch. DEDUCED
(log 80): so is a drop that reaches a home that is off or drowsy, whose environments stay as they were (R322). -/
def dropServe (s : State) (src : Coord) (h : Handle) (l : Option Nat) : State :=
  let refuse (w : Why) : State := failLaunch (logFault s (hHome h) src 0 w 3 0 (hWord h) 0) l w
  match powerRefusal (coreAt s (hHome h)) with
  | some w => refuse w
  | none => match closureServe s (hHome h) src (.closureDrop h) with
    | (_, .refused w _) => refuse w
    | (s, _) => s
/-- Drop one reference of a non-zero handle from core `c` (R188, R190). -/
def dropHandle (s : State) (c : Coord) (h : Handle) : State :=
  let l := (coreAt s c).launch
  if h = 0 then s
  else if hHome h = c then dropServe s c h l
  else send s c (hHome h) (if sameCluster c (hHome h) then .cluster else .request) (.ibex 0) 0 none none
    (.closureLet h (l.getD 0))

/-! ### The home queue -/

/-- Why a home refuses a record, in the order of R72. -/
def refusal (k : Core) (r : BitVec 512) : Option Why :=
  if rcdValid r && decide (rcdTs r < frontier k) then some (why 0x0C0 0)
  else if rcdValid r && k.home.any (fun e => rcdOverlap e.rcd r && (rcdTnear e.rcd || e.promoted) && decide (rcdTs r < rcdTs e.rcd))
  then some (why 0x0C0 1)
  else if decide (Config.homeEntries ≤ k.home.length) then some (why 0x0C1 0)
  else none
/-- The lowest place of the region that no entry occupies (R69). DESIGN CHOICE (log 10): the manual names no place. -/
def freePlace (k : Core) : Nat :=
  ((List.range Config.homeEntries).find? fun i => !k.home.any fun e => e.place == i).getD 0
/-- Add an entry, last in arrival order (R70), and write its record. -/
def addEntry (k : Core) (r : BitVec 512) (slot : Option (Fin 4)) : Core :=
  let e : Entry := { seq := k.nextEntry, rcd := r, place := freePlace k, slot := slot, taker := none, promoted := false,
                     bitmap := 0 }
  putRecord { k with home := k.home ++ [e], nextEntry := k.nextEntry + 1 } e
/-- Queue an accepted record (R70). -/
def enqueue (s : State) (c : Coord) (r : BitVec 512) : State := advertNotice (mapCore s c fun k => addEntry k r none) c
/-- The home accepts or refuses a record (R72). -/
def acceptRcd (s : State) (c : Coord) (r : BitVec 512) : State × Option Why :=
  match refusal (coreAt s c) r with
  | some w => (s, some w)
  | none => (enqueue s c r, none)
/-- A record retires (R95 step 4): its entry is freed, its references dropped, the frontier recomputed, and far tasks
that it held back are promoted (R85). -/
def retire (s : State) (c : Coord) (seq : Nat) : State :=
  match entryAt (coreAt s c) seq with
  | none => s
  | some e =>
    let s := mapCore s c fun k => promote
      { k with home := dropFirst (fun x => x.seq == seq) k.home,
               maxRetired := if rcdValid e.rcd then BitVec.ofNat 32 (max k.maxRetired.toNat (rcdTs e.rcd)) else k.maxRetired }
    advertNotice (dropHandle (dropHandle s c (rcdNear e.rcd)) c (rcdFar e.rcd)) c
/-- The record that a completion closure runs in (R235, R318). -/
def completionRcd (h : Handle) (wid a0 a1 a2 : Word) : BitVec 512 := mkRcd 0 0 0 h wid a0 a1 a2 0
/-- Top of the frame stack of slot `i` (R118). -/
def frameTop (k : Core) (i : Fin 4) : Nat := bits k.frbase 20 6 * 64 + (i.val + 1) * bits k.frbase 31 21 * 64
def frameFloor (k : Core) (i : Fin 4) : Nat := bits k.frbase 20 6 * 64 + i.val * bits k.frbase 31 21 * 64
/-- The near address of a byte of core `d` as core `c` names it (R199). -/
def nearOf (c d : Coord) (x : Nat) : Word :=
  if c = d then BitVec.ofNat 64 x else BitVec.ofNat 64 (0x40000000 + clidx d * 0x200000 + x)

end Sys2Proof.Machine
end

