-- ==== Sys2Proof/Machine/Ops.lean ====
section
/-! DEFINITION. Machine/Ops.lean: the monad of an instruction, the checks made before every instruction (R44 to R47),
near-memory accesses (R116, R133, R84, R86, R293), posted operations (R141), barrier updates (R267), taking a trap and
returning from one (R275, R277), a near body's failure (R80), and the start of a body (R91). -/
namespace Sys2Proof.Machine

open Host (Outcome)

/-- What has to be tidied when a deferred fault is reported (R142, R237). -/
inductive Clean where
  | nothing
  | posted (seq : Nat)
  | copy (ch : Fin 4) (id : BitVec 32)
  deriving DecidableEq, Repr

/-- How an instruction ends other than by completing. Nothing it did stands (R41, R273). A request that it sends (`issue`), and a
copy that keeps its record (`keep`), go with the shared queues and ports that it names; `entry` is a load's or store's stall on a
scoreboard entry (R121). -/
inductive Stop where
  | stall (onRt : Bool)
  | entry
  | trap (w : Why) (faddr : Word) (fpc : Option Word)
  | soft (w : Why)
  | deferred (side : Side) (w : Why) (faddr : Word) (fpc : Word) (words : List Half) (clean : Clean)
  | issue (r : Req) (claims : List Nat) (rcd : Option (BitVec 512))
  | arrive
  | commit
  | keep (rcd : BitVec 512) (claims : List Nat)
  deriving DecidableEq, Repr

/-- Where the stream goes after an instruction that completes. -/
inductive Next where
  | seq
  | jump (t : Word)
  | stay
  deriving DecidableEq, Repr

abbrev M (α : Type) := StateT State (Except Stop) α

def stop {α : Type} (e : Stop) : M α := fun _ => .error e
def stall {α : Type} : M α := stop (.stall false)
def stallIf (b : Bool) : M Unit := if b then stall else pure ()
/-- A load or store stalls on a scoreboard entry (R121). -/
def stallEntry (b : Bool) : M Unit := if b then stop .entry else pure ()
def getCore : M Core := fun s => .ok (coreAt s s.cur.core, s)
def getThread : M Thread := fun s => .ok (threadAt (coreAt s s.cur.core) s.cur.unit, s)
def modCore (f : Core → Core) : M Unit := fun s => .ok ((), mapCore s s.cur.core f)
def modThread (f : Thread → Thread) : M Unit := fun s => .ok ((), mapCore s s.cur.core fun k => mapThread k s.cur.unit f)
/-- The slot of the moving stream; an Ibex unit has none and reads an idle slot. -/
def slotOf (s : State) : Slot :=
  match unitSlot s.cur.unit with
  | some i => slotAt (coreAt s s.cur.core) i
  | none => Slot.reset
def getSlot : M Slot := fun s => .ok (slotOf s, s)
def changeSlot (s : State) (f : Slot → Slot) : State :=
  match unitSlot s.cur.unit with
  | some i => mapCore s s.cur.core fun k => mapSlot k i f
  | none => s
def modSlot (f : Slot → Slot) : M Unit := fun s => .ok ((), changeSlot s f)
/-- The slot number of the moving stream, 0 for an Ibex unit. -/
def slotNo (u : UnitId) : Fin 4 := (unitSlot u).getD 0
def isIbex (u : UnitId) : Bool := (unitSlot u).isNone
def isAcc (u : UnitId) : Bool := decide (unitSide u = .acc)
/-- The moving unit is in U mode (R122). -/
def userMode (s : State) : Bool := isIbex s.cur.unit || !(slotOf s).status.getLsbD 0
/-- The moving unit's thread. -/
def threadOf (s : State) : Thread := threadAt (coreAt s s.cur.core) s.cur.unit
/-- PC of the current instruction's first word (R43). -/
def pcOf (s : State) : Word := (threadOf s).pc
/-- Len of R43. -/
def lenOf (s : State) : Nat := 2 * s.ir.length
/-- Address of the base word, which FADDR holds for checks 2 to 10 of R47 (R48). -/
def baseAddr (s : State) : Word := pcOf s + BitVec.ofNat 64 (2 * (s.ir.length - 1))

/-- Trap precisely with FADDR `a`. -/
def trapA {α : Type} (c sub : Nat) (a : Word) : M α := stop (.trap (why c sub) a none)
/-- Trap with a decode cause: FADDR is the base word's address (R48). -/
def trapD {α : Type} (c sub : Nat) : M α := fun s => .error (.trap (why c sub) (baseAddr s) none)
def trapW {α : Type} (w : Why) (a : Word) : M α := stop (.trap w a none)
/-- Stop where `m` would stop, and change nothing. -/
def probe (m : M Unit) : M Unit := fun s =>
  match m s with
  | .ok _ => .ok ((), s)
  | .error e => .error e
def guardD (ok : Bool) (c sub : Nat) : M Unit := if ok then pure () else trapD c sub
def guardA (ok : Bool) (c sub : Nat) (a : Word) : M Unit := if ok then pure () else trapA c sub a

/-! ### Checks 6 to 10 of R47 -/

/-- Where an instruction executes (R44, R45); `vec` marks one that the access stream refuses with 0x008. -/
structure Units where
  e : Bool
  a : Bool
  n : Bool
  vec : Bool
  deriving DecidableEq, Repr
def uEAN : Units := ⟨true, true, true, false⟩
def uEA : Units := ⟨true, true, false, false⟩
def uE : Units := ⟨true, false, false, false⟩
def uEN : Units := ⟨true, false, true, false⟩
def uA : Units := ⟨false, true, false, false⟩
def uV : Units := ⟨true, false, false, true⟩
def uBank : Units := ⟨true, false, true, true⟩

/-- What an instruction does with an operand: reads it, writes it, takes it as a pair, as a closure register; `name` where
it only names it; `here` and `limit` where its entry says itself whether it exists on the unit, and whether the field is
within the entry's limits. -/
inductive Use where
  | rd (r : GReg)
  | wr (r : GReg)
  | pair (r : GReg)
  | kreg (k : KReg)
  | name (r : GReg)
  | here (b : Bool)
  | limit (b : Bool)
  deriving DecidableEq, Repr

/-- The mailbox or a port that a use names, by its code: both streams of a slot, and for the mailbox all of the core's,
share it (R111). -/
def useShared : Use → Option Nat
  | .rd (.sp c) => if c = 6 ∨ (8 ≤ c.toNat ∧ c.toNat ≤ 11) then some c.toNat else none
  | .wr (.sp c) => if c = 6 ∨ (8 ≤ c.toNat ∧ c.toNat ≤ 11) then some c.toNat else none
  | _ => none
/-- A request claims what its instruction names, and so does a stalled copy that keeps the record which it has checked. -/
def Stop.claim (uses : List Use) : Stop → Stop
  | .issue r _ rcd => .issue r (uses.filterMap useShared) rcd
  | .keep r _ => .keep r (uses.filterMap useShared)
  | e => e
/-- Check 6, the unit (R46). -/
def unitCheck (un : Units) (u : UnitId) : Option Why :=
  match u with
  | .ibex _ => if un.n then none else some (why 0x007 0)
  | .stream _ .exec => if un.e then none else some (why 0x00A 0)
  | .stream _ .acc => if un.a then none else if un.vec then some (why 0x008 0) else some (why 0x00A 0)
/-- The register exists on the unit (0x002 subcode 0x04). -/
def regPresent (u : UnitId) : GReg → Bool
  | .g n => !isIbex u || decide (n.toNat < 16)
  | .sp c =>
    let n := c.toNat
    if isIbex u then decide (n ≤ 1 ∨ (16 ≤ n ∧ n ≤ 19)) else if isAcc u then !decide (20 ≤ n ∧ n ≤ 23) else true
def usePresent (u : UnitId) : Use → Bool
  | .rd r => regPresent u r
  | .wr r => regPresent u r
  | .pair r => regPresent u r
  | .kreg k => (!isIbex u && !isAcc u) || decide (k.toNat < 4)
  | .name r => regPresent u r
  | .here b => b
  | .limit _ => true
/-- A queue, a port or the mailbox by its code (R40), which MOVQ and QLEVEL name (R153, R154). -/
def queueCode : GReg → Option Nat
  | .g _ => none
  | .sp c => let n := c.toNat; if (2 ≤ n ∧ n ≤ 6) ∨ (8 ≤ n ∧ n ≤ 11) then some n else none
/-- The destination of a GLD or GAMO: a general register, or lq (R137). -/
def loadDest : GReg → Bool
  | .g _ => true
  | .sp c => c == 2
/-- The direction of R40 allows reading code `n` from side `x`. -/
def mayRead (x : Side) (bo : Option Side) (n : Nat) : Bool :=
  if n = 2 then x == .exec else if n = 3 ∨ n = 5 then x == .acc else if n = 4 then bo != some x else true
/-- The direction of R40 allows writing code `n` from side `x`. -/
def mayWrite (x : Side) (bo : Option Side) (n : Nat) : Bool :=
  if n = 2 then x == .acc else if n = 3 ∨ n = 5 then x == .exec else if n = 4 then bo == none || bo == some x else true
/-- Check 8 of an operand: its direction (0x002 subcode 0x03), or a special bit on a pair or a field outside the limits of
its entry (0x002 subcode 0x05). -/
def useLegal (x : Side) (bo : Option Side) : Use → Option Why
  | .rd (.sp c) => if mayRead x bo c.toNat then none else some (why 0x002 3)
  | .wr (.sp c) => if mayWrite x bo c.toNat then none else some (why 0x002 3)
  | .pair (.sp _) => some (why 0x002 5)
  | .limit false => some (why 0x002 5)
  | _ => none
/-- Check 9: a pair is even (R42). -/
def useEven : Use → Bool
  | .pair (.g n) => n.toNat % 2 == 0
  | _ => true
/-- Checks 6 to 9 of R47, in order: unit, presence, privilege, check 8 of the operands, pairs. DEDUCED (log 16): where two
operands fail check 8, the first of them in the order of `uses` gives the subcode: b, c, a, behind the field that MOVQ, QLEVEL, GLD or
GAMO limits; a value that the instruction's own entry limits (a shift immediate, a channel, a port, a field number) comes after them. -/
def preCheck (un : Units) (priv : Bool) (uses : List Use) (s : State) : Option Why :=
  match unitCheck un s.cur.unit with
  | some w => some w
  | none =>
    if !uses.all (usePresent s.cur.unit) then some (why 0x002 4)
    else if priv && userMode s then some (why 0x009 0)
    else match uses.findSome? (useLegal (unitSide s.cur.unit) (slotOf s).boProd) with
      | some w => some w
      | none => if uses.all useEven then none else some (why 0x005 0)

/-! ### Far bodies (R84 to R86) -/

/-- The anchored task of a slot: the slot runs a far body. -/
def farTask (s : State) : Option Task :=
  match (slotOf s).task with
  | some t => if rcdValid t.rcd then some t else none
  | none => none
/-- The task is not yet promoted at its home (R85). -/
def speculative (s : State) (t : Task) : Bool :=
  rcdValid t.rcd && match entryAt (coreAt s t.home) t.entry with
    | some e => !e.promoted
    | none => false
def isSpec (s : State) : Bool := match farTask s with
  | some t => speculative s t
  | none => false
def getSpec : M Bool := fun s => .ok (isSpec s, s)
/-- A speculative far body stalls here until promotion or abort (R86, R191). -/
def stallIfSpec : M Unit := do stallIf (← getSpec)
/-- The task whose writes the moving unit makes (R87). -/
def writerOf (s : State) : Option (Coord × Nat) :=
  (taskOf (coreAt s s.cur.core) s.cur.unit).map fun t => (t.home, t.entry)
/-- [lo, hi) of own memory meets the anchor view of a far body (R84). -/
def viewHit (s : State) (lo hi : Nat) : Bool := match farTask s with
  | some t => overlap (rcdOff t.rcd) (rcdOff t.rcd + rcdLen t.rcd) lo hi
  | none => false
/-- Hold an effect in the outgoing buffer; the 17th stalls (R86). -/
def hold (o : Outgoing) : M Unit := do
  let x ← getSlot
  match x.task with
  | some t =>
    stallIf (decide (Config.outgoingEntries ≤ t.obuf.length))
    modSlot fun x => { x with task := some { t with obuf := t.obuf ++ [o] } }
  | none => pure ()

/-! ### Requests that stall the stream (R108, R189, R293) -/

/-- The answer to a request of this instruction, which is sent when first met. -/
def remote (r : Req) : M Ans := do
  let t ← getThread
  match t.pend.find? fun p => p.pc == t.pc && p.req == r with
  | some p => match p.ans with
    | some a => pure a
    | none => stall
  | none => stop (.issue r [] t.rcd)
/-- The stream has asked `r` already for this instruction. -/
def asked (s : State) (r : Req) : Bool := (threadOf s).pend.any fun p => p.pc == pcOf s && p.req == r
/-- The answer's word; a refusal traps with the address it names. -/
def ansWord : Ans → M Word
  | .value v => pure v
  | .refused w a => trapW w a
  | .env _ => pure 0

/-! ### Posted operations (R140, R141) -/

/-- Take a posted entry and charge st. -/
def postedAdd (s : State) (c : Coord) (i : Fin 4) (x : Side) (pc : Word) (sc : Scope) (a : Word) : State × Origin :=
  let o := slotAt (coreAt s c) i
  let s := mapCore s c fun k =>
    mapThread (mapSlot k i fun y =>
      { y with
        posted := y.posted ++ [{ seq := y.nextSeq, scope := sc, side := x, pc := pc, cycle := k.cycle, addr := a,
                                 failed := none, lost := false, told := false }]
        nextSeq := y.nextSeq + 1 })
      (.stream i x) fun t => { t with st := t.st + 1 }
  (s, ⟨c, i, o.serial, x, o.nextSeq⟩)
/-- The table or the counter has no room. -/
def postedFull (s : State) : Bool := decide (63 ≤ (threadOf s).st ∨ Config.postedEntries ≤ (slotOf s).posted.length)
/-- Issue a posted operation; it stalls while the table or the counter has no room (R120, R127). -/
def post (sc : Scope) (a : Word) (f : Origin → State → State) : M Unit := fun s =>
  if postedFull s then .error (.stall false)
  else
    let (s, o) := postedAdd s s.cur.core (slotNo s.cur.unit) (unitSide s.cur.unit) (pcOf s) sc a
    .ok ((), f o s)

/-! ### Near memory -/

/-- What a near address names (R4, R110, R292). -/
inductive Near where
  | own (x : Nat) (direct : Bool)
  | other (d : Coord) (x : Nat)
  | none
  deriving DecidableEq, Repr
def resolveNear (c : Coord) (ibex : Bool) (a : Word) : Near :=
  let n := a.toNat
  if n < 0x200000 then .own n true
  else if ibex then .none
  else if 0x40000000 ≤ n ∧ n < 0x42000000 then
    let j := (n - 0x40000000) / 0x200000
    let x := (n - 0x40000000) % 0x200000
    if j = clidx c then .own x false else .other (member c j) x
  else .none
/-- Core `c` marks the member as one of its launch (R291). -/
def memberOf (s : State) (c d : Coord) : Bool := (coreAt s c).members.getLsbD (clidx d) && inLaunch s c d
def memberOk (s : State) (d : Coord) : Bool := memberOf s s.cur.core d
/-- Stores that the outgoing buffer holds for the moving stream (R86). -/
def heldStores (s : State) : List (Coord × List (Nat × List Byte)) := match farTask s with
  | some t => t.obuf.flatMap fun o => match o with
    | .winStore x _ _ ps => if x == unitSide s.cur.unit then ps else []
    | _ => []
  | none => []
def touchesLine (x : Nat) (es : List (Nat × List Byte)) : Bool :=
  es.any fun e => !e.2.isEmpty && overlap e.1 (e.1 + e.2.length) (x / 64 * 64) (x / 64 * 64 + 64)
/-- An earlier cluster-window store of this stream to the line has not taken effect (R294). -/
def windowPending (s : State) (d : Coord) (x : Nat) : Bool :=
  (s.net.any fun m => m.src == s.cur.core && m.unit == s.cur.unit && m.dst == d && match m.load with
    | .winStore es => touchesLine x es
    | _ => false) || (heldStores s).any fun p => p.1 == d && touchesLine x p.2
/-- Any earlier cluster-window store of this stream has not taken effect (R296, R297). -/
def windowAny (s : State) : Bool :=
  (s.net.any fun m => m.src == s.cur.core && m.unit == s.cur.unit && match m.load with
    | .winStore _ => true
    | _ => false) || !(heldStores s).isEmpty
/-- The outgoing buffer holds a GST of the moving stream. -/
def heldGlobal (s : State) : Bool := match farTask s with
  | some t => t.obuf.any fun o => match o with
    | .gst x _ _ _ => x == unitSide s.cur.unit
    | _ => false
  | none => false
/-- An earlier global load, store or atomic of the moving stream has not been performed. -/
def globalOut (s : State) : Bool :=
  !isIbex s.cur.unit && s.gnet.any fun r => r.origin.core == s.cur.core && r.origin.slot == slotNo s.cur.unit &&
    r.origin.side == unitSide s.cur.unit && r.reply.isNone && match r.kind with
      | .load _ => true
      | .store _ => true
      | .amo _ _ _ => true
      | _ => false
/-- The anchor buffer of the moving far body holds a store to one of the bytes of core `d` (R86). -/
def bufferedAt (s : State) (d : Coord) (x n : Nat) : Bool := match farTask s with
  | some t => t.home == d && t.abuf.any fun e => decide (x ≤ e.1 ∧ e.1 < x + n)
  | none => false
/-- An engine thread issues once the stream's earlier loads and stores have taken effect (R394). DESIGN CHOICE (log 90): so does the
bank command of a speculative far body, which R210 performs directly: it waits for the stores that its outgoing buffer holds. -/
def forkReady : M Unit := do
  let s ← get
  stallIf (windowAny s || heldGlobal s || globalOut s)
/-- The local checks of R116 from the third on. -/
def checkPages (x : Acc) (lo n : Nat) (f : Nat → Word) : M Unit := fun s =>
  match rangeCheck (pageLocal (coreAt s s.cur.core) (userMode s) x) lo (lo + n) with
  | some (w, b) => .error (.trap w (f b) none)
  | none => .ok ((), s)
/-- Bytes that the anchor buffer holds over `v`, which starts at `x` (R86). -/
def overlay (buf : Memory) (x : Nat) : List Byte → List Byte
  | [] => []
  | b :: r => ((buf.find? fun e => e.1 == x).map (·.2)).getD b :: overlay buf (x + 1) r
/-- Where a checked access goes: own memory, the home through the anchor view, or another member. -/
inductive Reach where
  | own (x : Nat)
  | view (t : Task) (x : Nat)
  | window (d : Coord) (x : Nat)
  deriving DecidableEq, Repr
/-- The checks of one load or store of `n` bytes at near address `a` (R116, R291, R84, R86). A redirected access is checked
where the home serves it; a redirected store of a speculative body is checked here, as it enters the anchor buffer. -/
def reach (s : State) (a : Word) (n : Nat) (acc : Acc) : Except Why Reach :=
  match resolveNear s.cur.core (isIbex s.cur.unit) a with
  | .none => .error (why 0x060 0)
  | .other d x =>
    if !memberOk s d then .error (why 0x060 0)
    else if x % n != 0 then .error (why 0x065 0)
    else .ok (.window d x)
  | .own x direct =>
    if x % n != 0 then .error (why 0x065 0)
    else match (if direct && viewHit s x (x + n) then farTask s else none) with
      | some t =>
        if acc.w && isSpec s then
          match rangeCheck (pageLocal (coreAt s t.home) (userMode s) acc) x (x + n) with
          | some (w, _) => .error w
          | none => .ok (.view t x)
        else .ok (.view t x)
      | none =>
        match rangeCheck (pageLocal (coreAt s s.cur.core) (userMode s) acc) x (x + n) with
        | some (w, _) => .error w
        | none => .ok (.own x)
/-- Where an access whose checks passed goes. -/
def place (s : State) (a : Word) (n : Nat) : Reach :=
  match resolveNear s.cur.core (isIbex s.cur.unit) a with
  | .none => .own 0
  | .other d x => .window d x
  | .own x direct => match (if direct && viewHit s x (x + n) then farTask s else none) with
    | some t => .view t x
    | none => .own x
def reachM (a : Word) (n : Nat) (acc : Acc) : M Reach := fun s =>
  match reach s a n acc with
  | .ok r => .ok (r, s)
  | .error w => .error (.trap w a none)
/-- The stores that wait in a unit's buffer take effect, oldest first (R101). -/
def drainStores (s : State) (a : Agent) : State :=
  let w := (taskOf (coreAt s a.core) a.unit).map fun t => (t.home, t.entry)
  (threadAt (coreAt s a.core) a.unit).sbuf.foldl (fun s e => writeBytes s a.core e.1 e.2 w)
    (mapCore s a.core fun k => mapThread k a.unit fun t => { t with sbuf := [] })
/-- [x, x + n) shares a byte with an entry of a unit's store buffer or of its early reads. -/
def entryMeets (x n : Nat) (e : Nat × List Byte) : Bool := overlap e.1 (e.1 + e.2.length) x (x + n)
def allUnits : List UnitId :=
  [.stream 0 .exec, .stream 0 .acc, .stream 1 .exec, .stream 1 .acc, .stream 2 .exec, .stream 2 .acc, .stream 3 .exec,
    .stream 3 .acc, .ibex 0, .ibex 1]
/-- The waiting stores of every unit of a core that has one which `p` names take effect. -/
def settleStores (s : State) (c : Coord) (p : Nat × List Byte → Bool) : State :=
  allUnits.foldl (fun s u => if (threadAt (coreAt s c) u).sbuf.any p then drainStores s ⟨c, u⟩ else s) s
/-- A core's scoreboard takes an entry. A store of the core that has issued takes effect before it, where the entry would hold it (R121,
R214). -/
def scoreAdd (s : State) (c : Coord) (e : Score) : State :=
  mapCore (settleStores s c fun b => (e.writes ++ e.reads).any fun r => entryMeets r.1 (r.2 - r.1) b) c fun k => { k with score := k.score ++ [e] }
/-- The stream takes on other early reads. -/
def setEarly (l : List (Nat × List Byte)) : M Unit := fun s =>
  if l = (threadOf s).early then .ok ((), s)
  else .ok ((), mapCore s s.cur.core fun k => mapThread k s.cur.unit fun t => { t with early := l })
/-- No later load is performed before this point: what was read ahead is not used (R263, R395). -/
def dropAllEarly : M Unit := setEarly []
/-- What was read ahead for a later load of any of the bytes is not used: the stream stores to them, or has read them now (R101). -/
def dropEarly (x n : Nat) : M Unit := do setEarly ((← getThread).early.filter fun e => !entryMeets x n e)
/-- What a load of `n` bytes at `x` read ahead, where that is the first read of any of the bytes, and the early reads that are left
then: loads of a byte are performed in program order (R101). -/
def takeEarly (x n : Nat) (l : List (Nat × List Byte)) : Option (List Byte) × List (Nat × List Byte) :=
  match l.find? (entryMeets x n) with
  | none => (none, l)
  | some e =>
    if e.1 = x ∧ e.2.length = n then (some e.2, dropFirst (entryMeets x n) l)
    else (none, l.filter fun e => !entryMeets x n e)
/-- The stream's own stores to any of the bytes take effect before it reads them (R101). -/
def forwardOwn (x n : Nat) : M Unit := fun s =>
  .ok ((), if (threadOf s).sbuf.any (entryMeets x n) then drainStores s s.cur else s)
/-- Read own memory: the bytes that the load read ahead, else the memory's (R101, R262). A load of a word that a work query answered
lets no later load go before it (R395). -/
def readOwn (x n : Nat) : M Nat := do
  let t ← getThread
  let k ← getCore
  setEarly (if k.answers.any fun a => overlap a (a + 8) x (x + n) then [] else (takeEarly x n t.early).2)
  modify fun s => readAt s s.cur.core x n
  return match (takeEarly x n t.early).1 with
    | some bs => leNat bs
    | none => peekNat k.mem x n
/-- A load of the anchor view is done: where its home is the stream's own core, no byte read ahead of it stands for a later load of that
byte (R101), and a load of a word that a work query answered lets no later load go before it (R395). -/
def seenView (home : Coord) (x n : Nat) : M Unit := do
  let s ← get
  if (coreAt s home).answers.any fun a => overlap a (a + 8) x (x + n) then dropAllEarly
  else if home = s.cur.core then dropEarly x n
/-- Loads of these bytes wait for an earlier store of the stream that has not taken effect and is not forwarded: one of the window,
or one to the same bytes in the anchor buffer, which the access does not go through (R101, R294). -/
def loadWaits (s : State) : Reach → Nat → Bool
  | .window d x, n => windowPending s d x || bufferedAt s d x n
  | .view t x, _ => windowPending s t.home x
  | .own x, n => bufferedAt s s.cur.core x n
/-- One element of a load at near address `a`, `n` bytes, as a number (R133, R84, R293). -/
def loadNear (a : Word) (n : Nat) : M Nat := do
  let s ← get
  let r ← reachM a n aRead
  stallIf (loadWaits s r n)
  match r with
  | .window d x => return (← ansWord (← remote (.load d x n))).toNat
  | .view t x =>
    let v ← ansWord (← remote (.viewLoad t.home t.entry x n (userMode s)))
    seenView t.home x n
    return v.toNat
  | .own x =>
    stallEntry (scoreW (coreAt s s.cur.core) x (x + n))
    forwardOwn x n
    match poisonIn (← getCore) x n with
    | some p => trapA 0x181 1 (BitVec.ofNat 64 p)
    | none => readOwn x n
/-- Write own memory as the moving unit. -/
def writeOwn (x n v : Nat) : M Unit := fun s => .ok ((), writeNat s s.cur.core x n v (writerOf s))
/-- Bytes entered in an anchor buffer from `x` on. -/
def bufferBytes (b : Memory) (x : Nat) : List Byte → Memory
  | [] => b
  | v :: r => bufferBytes (mapPut x v b) (x + 1) r
/-- Put the stores of a far body to its anchor view into the anchor buffer, or perform them at the home in one step (R84,
R86). -/
def storeView : Option (Task × List (Nat × List Byte)) → M Unit
  | some (t, e :: es) => do
    dropAllEarly
    let s ← get
    if speculative s t then
      modSlot fun y => { y with task := y.task.map fun t =>
        { t with abuf := (e :: es).foldl (fun b p => bufferBytes b p.1 p.2) t.abuf } }
    else
      let _ ← ansWord (← remote (.viewStore t.home t.entry (userMode s) (e :: es)))
  | _ => pure ()
/-- Store through the window: one posted operation, or one held entry while speculative (R86, R141, R293). -/
def storeWindow (a : Word) (parts : List (Coord × List (Nat × List Byte))) : M Unit := do
  let s ← get
  if isSpec s then hold (.winStore (unitSide s.cur.unit) (pcOf s) a parts)
  else post .window a fun o s =>
    parts.foldl (fun s p => send s o.core p.1 .cluster s.cur.unit 0 (some o) (writerOf s) (.winStore p.2)) s
/-- A store of these bytes waits for an earlier store of the stream to them that goes another way and has not taken effect: one through
the window before one to the anchor view, one held in the anchor buffer before one to the core's own bytes (R101). -/
def storeWaits (s : State) : Reach → Nat → Bool
  | .window _ _, _ => false
  | .view t x, _ => windowPending s t.home x
  | .own x, n => bufferedAt s s.cur.core x n
/-- One scalar store at near address `a` (R133). -/
def storeNear (a : Word) (n v : Nat) : M Unit := do
  let s ← get
  let r ← reachM a n aWrite
  stallIf (storeWaits s r n)
  match r with
  | .window d x => storeWindow a [(d, [(x, leBytes n v)])]
  | .view t x => storeView (some (t, [(x, leBytes n v)]))
  | .own x =>
    stallEntry (scoreRW (coreAt s s.cur.core) x (x + n))
    dropEarly x n
    writeOwn x n v

/-- A store to own memory that waits in the stream's buffer; any other waits for those that do (R101, R262). -/
def storeLater (a : Word) (n v : Nat) : M Unit := do
  let s ← get
  match ← reachM a n aWrite with
  | .own x =>
    stallIf (storeWaits s (.own x) n)
    stallEntry (scoreRW (coreAt s s.cur.core) x (x + n))
    dropEarly x n
    modThread fun t => { t with sbuf := t.sbuf ++ [(x, leBytes n v)] }
  | _ =>
    stallIf (!(threadOf s).sbuf.isEmpty)
    storeNear a n v

/-! ### Atomics (R134, R137) -/

/-- The new value at the address, `n` bytes. -/
def amoNew (op : AmoOp) (n old x y : Nat) : Nat :=
  let m := 2 ^ (8 * n)
  match op with
  | .add => (old + x) % m
  | .swap => x % m
  | .and => old &&& x % m
  | .or => old ||| x % m
  | .max => if sInt (8 * n) old < sInt (8 * n) x then x % m else old
  | .min => if sInt (8 * n) x < sInt (8 * n) old then x % m else old
  | .cas => if old = x % m then y % m else old
/-- A local atomic; the old value (R134). In CAS, `x` is compared and `y` stored. `ready` stops where the destination cannot
take a result, before another member performs the atomic (R41, R127). -/
def amoNear (op : AmoOp) (n : Nat) (a : Word) (x y : Nat) (ready : M Unit) : M Nat := do
  let s ← get
  match resolveNear s.cur.core (isIbex s.cur.unit) a with
  | .none => trapA 0x060 0 a
  | .other d b =>
    guardA (memberOk s d) 0x060 0 a
    guardA (b % n == 0) 0x065 0 a
    stallIfSpec
    stallIf (windowPending s d b)
    ready
    return (← ansWord (← remote (.amo d b n op (BitVec.ofNat 64 x) (BitVec.ofNat 64 y)))).toNat
  | .own b direct =>
    guardA (b % n == 0) 0x065 0 a
    checkPages aBoth b n fun _ => a
    stallIfSpec
    guardA (!(direct && viewHit s b (b + n))) 0x0C5 1 a
    stallEntry (scoreRW (coreAt s s.cur.core) b (b + n))
    match poisonIn (coreAt s s.cur.core) b n with
    | some p => trapA 0x181 1 (BitVec.ofNat 64 p)
    | none =>
      dropEarly b n
      modify fun s => readAt s s.cur.core b n
      let old := peekNat (coreAt s s.cur.core).mem b n
      writeOwn b n (amoNew op n old x y)
      return old

/-! ### Barrier objects (R267 to R271) -/

/-- A barrier object's fields. -/
structure Bar where
  expect : Nat
  a : Nat
  e : Nat
  round : Nat
  pend : Nat
  deriving DecidableEq, Repr
def barOf (v : Nat) : Bar := ⟨natBits v 15 0, natBits v 31 16, natBits v 47 32, natBits v 63 48, natBits v 111 64⟩
def barImage (b : Bar) : Nat := b.expect + 2 ^ 16 * b.a + 2 ^ 32 * b.e + 2 ^ 48 * b.round + 2 ^ 64 * b.pend
/-- Check 6 of R268. -/
def barMalformed (v : Nat) : Bool :=
  let b := barOf v
  decide (natBits v 127 112 ≠ 0 ∨ b.expect = 0 ∨ b.expect < b.a ∨ b.expect < b.e)
/-- One flip where arrivals are complete and no bytes are pending. -/
def flip (b : Bar) : Bar :=
  if b.a = b.expect ∧ b.pend = 0 then { b with round := (b.round + 1) % 65536, a := b.e, e := 0 } else b
/-- Settle of R267: runs at most twice. -/
def settle (b : Bar) : Bar := flip (flip b)
/-- Subtract delivered bytes (R267). -/
def barSub (b : Bar) (n : Nat) : Bar := settle { b with pend := (b.pend + 2 ^ 48 - n % 2 ^ 48) % 2 ^ 48 }
/-- Round `t` has not ended (R271). -/
def waiting (b : Bar) (t : Nat) : Bool :=
  let d := (b.round + 65536 - t) % 65536
  decide (d = 0 ∨ 0x8000 ≤ d)
/-- A barrier update on the 16 bytes `v`: the new image and the result, `none` while it must wait. -/
def barUpdate (op : BarOp) (v : Nat) : Except Why (Option (Nat × Word)) :=
  let b := barOf v
  match op with
  | .init n => .ok (some (natBits n.toNat 15 0, 0))
  | .arrive =>
    if barMalformed v then .error (why 0x141 2)
    else if b.a < b.expect then .ok (some (barImage (settle { b with a := b.a + 1 }), BitVec.ofNat 64 b.round))
    else if b.e < b.expect then
      .ok (some (barImage (settle { b with e := b.e + 1 }), BitVec.ofNat 64 (0x10000 + (b.round + 1) % 65536)))
    else .error (why 0x140 0)
  | .expect n =>
    if barMalformed v then .error (why 0x141 2)
    else .ok (some (barImage (settle { b with pend := (b.pend + natBits n.toNat 47 0) % 2 ^ 48 }), 0))
  | .wait t =>
    if barMalformed v then .error (why 0x141 2)
    else if waiting b t.toNat then .ok none
    else .ok (some (barImage b, BitVec.ofNat 64 b.round))
/-- Subtract bytes at the object at `x` of core `c`, where it is well formed (R234, R310). -/
def barDeliver (s : State) (c : Coord) (x n : Nat) (w : Option (Coord × Nat)) : State :=
  writeNat (readAt s c x 16) c x 16 (barImage (barSub (barOf (peekNat (coreAt s c).mem x 16)) n)) w
def isInit : BarOp → Bool
  | .init _ => true
  | _ => false
/-- A barrier instruction on the object at near address `a` (R268, R272, R297); `ready` as for an atomic. -/
def barNear (op : BarOp) (a : Word) (ready : M Unit) : M Word := do
  let s ← get
  guardA (a.toNat % 16 == 0) 0x065 0 a
  match resolveNear s.cur.core false a with
  | .none => trapA 0x060 0 a
  | .other d x =>
    guardA (memberOk s d) 0x060 0 a
    stallIfSpec
    stallIf (windowAny s)
    ready
    ansWord (← remote (.bar d x op))
  | .own x direct =>
    checkPages aBoth x 16 fun _ => a
    guardA (!(direct && viewHit s x (x + 16))) 0x0C5 1 a
    stallIf (scoreRW (coreAt s s.cur.core) x (x + 16) || windowAny s)
    (match (if isInit op then none else poisonIn (coreAt s s.cur.core) x 16) with
      | some p => trapA 0x181 1 (BitVec.ofNat 64 p)
      | none => modify fun s => if isInit op then s else readAt s s.cur.core x 16)
    match barUpdate op (peekNat (coreAt s s.cur.core).mem x 16) with
    | .error w => trapW w a
    | .ok none => stall
    | .ok (some (v, y)) =>
      (match op with
        | .wait _ => pure ()
        | _ => writeOwn x 16 v)
      return y

/-! ### Taking a trap and returning from one (R273 to R277) -/

/-- The words of an instruction in FWORD0 to FWORD2 (R48). -/
def fwords (ws : List Half) : Word × Word × Word :=
  let w (i : Nat) : Nat := (ws.getD i 0).toNat
  (BitVec.ofNat 64 (w 0 + 65536 * w 1), BitVec.ofNat 64 (w 2 + 65536 * w 3), BitVec.ofNat 64 (w 4 + 65536 * ws.length))
/-- A fetched halfword: the fetch buffer's, else memory's (R104, R266). -/
def fetchHalf (k : Core) (t : Thread) (a : Nat) : Half :=
  match t.fbuf.find? fun e => e.1 == a with
  | some e => e.2
  | none => BitVec.ofNat 16 (peekNat k.mem a 2)
/-- A word can be fetched from the address: own local memory, a page with X (R31). -/
def fetchable (k : Core) (a : Word) : Bool := decide (a.toNat < 0x200000) && (attrOf k (a.toNat / 4096)).getLsbD 2
/-- A chain as it is fetched, with the words so far. -/
def fetchChain (k : Core) (t : Thread) : Nat → Word → Chain → List Half → Except Word Unit × List Half
  | 0, _, _, ws => (.ok (), ws)
  | n + 1, a, c, ws =>
    if chainDone c then (.ok (), ws)
    else if !fetchable k a then (.error a, ws)
    else
      let w := fetchHalf k t a.toNat
      fetchChain k t n (a + 2) (chainAdd c w) (ws ++ [w])
/-- The words of the next instruction of a unit, or the address that could not be fetched. A chain has six words at most. -/
def fetch (k : Core) (t : Thread) : Except Word Unit × List Half := fetchChain k t 6 t.pc Chain.start []
/-- The words found in memory at `pc` (R142). -/
def wordsFound (k : Core) (pc : Word) : List Half := (fetchChain k Thread.reset 6 pc Chain.start []).2
/-- The landing-pad checks of R149 against target `t`: cause, FADDR, and FPC where it is the target's, which 0x064 alone
gives: no word is read there (log 75). -/
def padCheck (k : Core) (th : Thread) (t : Word) (kind : Nat) : Option (Why × Word × Option Word) :=
  if t.getLsbD 0 then some (why 0x041 0, t, none)
  else if !fetchable k t then some (why 0x064 0, t, some t)
  else if fetchHalf k th t.toNat != BitVec.ofNat 16 (0x9000 + 0x200 * kind) then some (why 0x040 kind, t, none)
  else none
/-- A request that a stalled stream drops when it is stopped: it changes nothing where it is served (R108). -/
def reqDrops : Req → Bool
  | .load .. => true
  | .checkRead .. => true
  | .closureRead .. => true
  | .closureApply .. => true
  | .viewLoad .. => true
  | .bar _ _ (.wait _) => true
  | _ => false
/-- A request that has begun its instruction: it changes, or may by now have changed, another core or the engine queue, and cannot be
taken back. The instruction completes before its stream stops (R273). A reference that was added can be dropped again. -/
def reqBegun (p : Pending) : Bool := match p.req, p.ans with
  | _, some (.refused _ _) => false
  | .closureAdd _ _, some _ => false
  | r, _ => !reqDrops r
def threadBegun (t : Thread) : Bool := t.pend.any reqBegun
/-- A stream of the slot has begun an instruction. -/
def slotBegun (k : Core) (i : Fin 4) : Bool := threadBegun (threadAt k (.stream i .exec)) || threadBegun (threadAt k (.stream i .acc))
/-- A stream stops at its boundary: its stalled instruction is taken as not begun. -/
def pauseThread (t : Thread) : Thread :=
  { t with running := false, pend := t.pend.filter reqBegun, rcd := none, stallRt := false, stalled := false, joins := false,
           early := [] }
/-- The references that a stalled instruction of a unit had added are dropped (R108, R188). -/
def releasePend (s : State) (a : Agent) : State :=
  (threadAt (coreAt s a.core) a.unit).pend.foldl (fun s p => match p.req, p.ans with
    | .closureAdd h _, some (.value _) => dropHandle s a.core h
    | _, _ => s) s
/-- Those of both streams of a slot. -/
def releaseSlot (s : State) (c : Coord) (i : Fin 4) : State :=
  releasePend (releasePend s ⟨c, .stream i .exec⟩) ⟨c, .stream i .acc⟩
/-- A double trap halts the slot, is logged, and marks the launch failed (R275). -/
def doubleTrap (s : State) (c : Coord) (i : Fin 4) (w : Why) : State :=
  let s := mapCore s c fun k =>
    mapThread (mapThread (mapSlot k i fun x => { x with st := .halted }) (.stream i .exec) pauseThread)
      (.stream i .acc) pauseThread
  failCore (logFault s c c i w 5 0 (slotAt (coreAt s c) i).fpc 0) c (why 0x1C1 0)
/-- The record of a trap in the slot's registers (R275). -/
def trapRecord (x : Slot) (t : Trap) : Slot :=
  let ts := match x.task with
    | some y => rcdTs y.rcd
    | none => 0
  let f := fwords t.words
  { x with cause := BitVec.ofNat 64 (t.why.cause.toNat + 512 * t.why.sub.toNat +
             (if t.side = .acc then 65536 else 0) + 2 ^ 32 * ts)
           fpc := t.fpc &&& 0x1FFFFE, fword0 := f.1, fword1 := f.2.1, fword2 := f.2.2, faddr := t.faddr
           status := 4 + 2 * (x.status &&& 1) + 1, st := .trapped, arrived := false, committing := false }
/-- TrapEntry of R275. -/
def trapEntry (s : State) (c : Coord) (i : Fin 4) (t : Trap) : State :=
  let s := releaseSlot s c i
  let x := slotAt (coreAt s c) i
  if x.status.getLsbD 2 then doubleTrap s c i t.why
  else
    let s := mapCore s c fun k =>
      let accRan := (threadAt k (.stream i .acc)).running
      let k := mapSlot k i fun x => { trapRecord x t with accWas := accRan }
      let save (side : Side) (th : Thread) : Thread :=
        { pauseThread th with epc := (if t.side = side then t.epc else th.pc) &&& 0x1FFFFE }
      mapThread (mapThread k (.stream i .exec) (save .exec)) (.stream i .acc) (save .acc)
    let k := coreAt s c
    let th := threadAt k (.stream i .exec)
    let e := k.tvec
    if e = 0 then doubleTrap s c i (why 0x040 5)
    else if !fetchable k e then doubleTrap s c i (why 0x064 0)
    else if fetchHalf k th e.toNat != 0x9A00 then doubleTrap s c i (why 0x040 5)
    else mapCore s c fun k => mapThread k (.stream i .exec) fun th => { th with pc := e, running := true }
/-- A trap on a slot: held while the body is speculative (R86), else taken. -/
def takeTrap (s : State) (c : Coord) (i : Fin 4) (t : Trap) : State :=
  match (slotAt (coreAt s c) i).task with
  | some y =>
    if speculative s y then mapCore s c fun k => mapSlot k i fun x => { x with task := some { y with held := some t } }
    else trapEntry s c i t
  | none => trapEntry s c i t
/-- ERET of R277: mode restored, streams resumed at their EPCs, loads that were reported written as 0 (R143). -/
def trapReturn (k : Core) (i : Fin 4) : Core :=
  let x := slotAt k i
  let k := mapSlot k i fun x => { x with st := .running, status := (x.status &&& 2) + (x.status >>> 1 &&& 1) }
  let load (t : Thread) : Thread :=
    { t with gld := t.gld.map fun y => if y.reported then { y with data := some 0, reported := false } else y }
  mapThread (mapThread k (.stream i .exec) fun t => { t with pc := t.epc, running := true }) (.stream i .acc) fun t =>
    if x.accWas then load { t with pc := t.epc, running := true } else t

/-! ### A near body's failure (R80) and its end -/

/-- The Ibex unit becomes free. -/
def endIbex (k : Core) (n : Fin 2) : Core :=
  mapThread (mapIbex k n fun _ => { task := none, starting := none }) (.ibex n) stopThread
/-- An Ibex unit's trap ends its near body: its earlier stores take effect, then its record is retired (R70), a mailbox message made,
the launch failed with 0x0C6. -/
def nearFailure (s : State) (c : Coord) (n : Fin 2) (w : Why) (pc : Word) : State :=
  match (ibexAt (coreAt s c) n).task with
  | none => s
  | some t =>
    let s := mapCore (drainStores s ⟨c, .ibex n⟩) c fun k => endIbex k n
    let s := retire s c t.entry
    let w0 := BitVec.ofNat 64 (0x0C6 + 2 ^ 16 * w.cause.toNat + 2 ^ 25 * w.sub.toNat + 2 ^ 32 * n.val)
    let s := mapCore s c fun k => mailbox k .device [w0, pc, rcdWid t.rcd, rcdAnchor t.rcd]
    failCore s c (why 0x0C6 0)
/-- A trap of the moving unit: TrapEntry on a slot, R80 on an Ibex unit. -/
def raise (s : State) (a : Agent) (t : Trap) : State :=
  match a.unit with
  | .stream i _ => takeTrap s a.core i t
  | .ibex n => nearFailure s a.core n t.why t.fpc

/-! ### An instruction -/

/-- What a reported fault leaves behind: its posted entry, once nothing of the operation is still on its way, or its copy
failure is freed (R141, R142, R237). -/
def tidy (s : State) (c : Coord) (i : Fin 4) : Clean → State
  | .nothing => s
  | .posted n => mapCore s c fun k => mapSlot k i fun x =>
      { x with posted :=
          if partsOut s c i n then changeFirst (fun p => p.seq == n) (fun p => { p with told := true }) x.posted
          else dropFirst (fun p => p.seq == n) x.posted }
  | .copy ch id => mapCore s c fun k => mapChan k ch fun x => { x with failed := dropFirst (fun f => f.id == id) x.failed }
/-- Where a request is served, and by which network (R189, R290). -/
def reqDst (c : Coord) : Req → Coord
  | .load d _ _ => d
  | .amo d .. => d
  | .bar d _ _ => d
  | .checkRead d _ _ => d
  | .closureAdd h _ => hHome h
  | .closureDrop h => hHome h
  | .closureRead h _ => hHome h
  | .closureWrite h _ _ => hHome h
  | .closureApply h => hHome h
  | .viewLoad d .. => d
  | .viewStore d .. => d
  | .swap _ => c
/-- A request for bytes of an anchor view. -/
def isView : Req → Bool
  | .viewLoad .. => true
  | .viewStore .. => true
  | _ => false
def isWaitReq : Req → Bool
  | .bar _ _ (.wait _) => true
  | _ => false
def isClosure : Req → Bool
  | .closureAdd _ _ => true
  | .closureDrop _ => true
  | .closureRead _ _ => true
  | .closureWrite _ _ _ => true
  | .closureApply _ => true
  | _ => false
/-- The origin of a request of a unit, by which a late answer to an ended body is told (R87). -/
def reqOrigin (s : State) (a : Agent) : Origin :=
  ⟨a.core, slotNo a.unit, (slotAt (coreAt s a.core) (slotNo a.unit)).serial, unitSide a.unit, 0⟩
/-- A load of the anchor view. -/
def isViewLoad : Req → Bool
  | .viewLoad .. => true
  | _ => false
/-- Send a stalled instruction's request; ACCSWAP's enters the engine queue (R243, R252). A BAR.WAIT claims nothing, and one
that asks with another token takes its earlier request back: a wait changes nothing where it is served (R271). No later load of the
stream is performed before the answer (R294), unless it is a load of the anchor view that waits (R101). -/
def issueReq (s : State) (r : Req) (claims : List Nat) (rcd : Option (BitVec 512)) : State :=
  let a := s.cur
  let d := reqDst a.core r
  let s1 := mapCore s a.core fun k => mapThread k a.unit fun t =>
    { t with rcd := rcd, keeps := claims, stalled := false, joins := t.joins || !isViewLoad r
             early := if isViewLoad r then t.early else []
             pend := (if isWaitReq r then t.pend.filter fun p => !isWaitReq p.req else t.pend) ++
               [⟨s.nextId, t.pc, r, none, if isWaitReq r then [] else claims⟩] }
  match r with
  | .swap _ =>
    { mapCore s1 a.core fun k => { k with engQ := k.engQ ++
        [⟨s.nextId, a.unit, (slotOf s).serial, pcOf s, s.ir, .swap, [], []⟩] } with nextId := s.nextId + 1 }
  | _ =>
    send s1 a.core d (if sameCluster a.core d then .cluster else .request) a.unit s.nextId (some (reqOrigin s a))
      (writerOf s) (if isClosure r then .closureOp r else .winReq r)
/-- The answers that a faulting instruction had are done with: it asks again when it is executed again. -/
def forget (s : State) : State :=
  mapCore s s.cur.core fun k => mapThread k s.cur.unit fun t => { t with pend := [], rcd := none, joins := false }
/-- The moving stream's instruction stalled, or did not, when it was last tried (R107). -/
def markStalled (s : State) (b : Bool) : State := mapCore s s.cur.core fun k => mapThread k s.cur.unit fun t => { t with stalled := b }
/-- The state after an instruction that stopped. DESIGN CHOICE (log 75): a trap whose FPC is the target of a transfer (0x064,
R149) records the transfer's own words. -/
def onStop (s : State) : Stop → State
  | .stall rt => mapCore s s.cur.core fun k => mapThread k s.cur.unit fun t => { t with stallRt := rt, stalled := true }
  | .entry => mapCore s s.cur.core fun k => mapThread k s.cur.unit fun t =>
      { t with stallRt := false, stalled := true, joins := true, early := [] }
  | .trap w a fpc =>
    raise (forget (releasePend s s.cur)) s.cur ⟨w, unitSide s.cur.unit, a, fpc.getD (pcOf s), s.ir, fpc.getD (pcOf s)⟩
  | .soft w => raise (forget s) s.cur ⟨w, unitSide s.cur.unit, 0, pcOf s, s.ir, pcOf s + BitVec.ofNat 64 (lenOf s)⟩
  | .deferred x w a fpc ws cl =>
    raise (tidy s s.cur.core (slotNo s.cur.unit) cl) s.cur ⟨w, x, a, fpc, ws, pcOf s⟩
  | .issue r claims rcd => issueReq s r claims rcd
  | .arrive => changeSlot (markStalled s (slotOf s).arrived) fun x => { x with arrived := true }
  | .commit => changeSlot (markStalled s (slotOf s).committing) fun x => { x with committing := true }
  | .keep r claims => mapCore s s.cur.core fun k => mapThread k s.cur.unit fun t =>
      { t with rcd := some r, keeps := claims, stallRt := false, stalled := true }
/-- The moving stream goes on, and what it had asked for is done with. -/
def advance (s : State) (pc0 : Word) (len : Nat) : Next → State
  | .stay => s
  | .seq => mapCore s s.cur.core fun k => mapThread k s.cur.unit fun t =>
      { t with pc := pc0 + BitVec.ofNat 64 len, pend := t.pend.filter fun p => p.pc != pc0, rcd := none, stallRt := false,
               stalled := false, joins := false }
  | .jump a => mapCore s s.cur.core fun k => mapThread k s.cur.unit fun t =>
      { t with pc := a, pend := t.pend.filter fun p => p.pc != pc0, rcd := none, stallRt := false, stalled := false,
               joins := false }
/-- Run an instruction of the moving unit: the checks of R47 from the sixth on, then its effect. -/
def instr (un : Units) (priv : Bool) (uses : List Use) (body : M Next) (s : State) : Outcome State Fault Refusal :=
  if !isCore s.cur.core then .fault .noSuchCore
  else match preCheck un priv uses s with
    | some w => .next (onStop s (.trap w (baseAddr s) none))
    | none => match body s with
      | .ok (n, s1) => .next (advance s1 (pcOf s) (lenOf s) n)
      | .error e => .next (onStop s (e.claim uses))
/-- An event of the machine: it happens whole. -/
def event (f : State → State) (s : State) : Outcome State Fault Refusal := .next (f s)
/-- The host reaches the device: firmware runs, and the link is up (R390, R392). -/
def hostReaches (s : State) : Bool := s.phase == .running && s.hostLink
/-- A write of the host. -/
def hostEvent (f : State → State) (s : State) : Outcome State Fault Refusal :=
  event (fun s => if hostReaches s then f s else s) s

/-! ### The start of a body (R91) -/

/-- The pad kind of a side: PAD.N 3 near, PAD.F 4 far. -/
def padKind (u : UnitId) : Nat := if isIbex u then 3 else 4
/-- A fault of BodyStart: no instruction, FPC as R91 gives it. -/
def startFault (s : State) (c : Coord) (u : UnitId) (w : Why) (a fpc : Word) : State :=
  raise s ⟨c, u⟩ ⟨w, .exec, a, fpc, [], fpc⟩
/-- The capture words that reach g8 to g15, by-reference ones as near addresses (R199). -/
def captureOf (c home : Coord) (env : List Byte) (w : Nat) : Word :=
  let h : BitVec 128 := BitVec.ofNat 128 (leNat (env.take 16))
  let v := leNat ((env.drop (16 + 8 * w)).take 8)
  if [0, 1, 2, 3].any (fun j => envRefV h j && envRefWord h j == w) then nearOf c home (natBits v 31 0)
  else BitVec.ofNat 64 v
/-- The environment base that g3 receives: 0 beyond the home's cluster (R199). -/
def envNear (s : State) (c : Coord) (h : Handle) : Word :=
  if sameCluster c (hHome h) then nearOf c (hHome h) (envAddr (coreAt s (hHome h)) (hIdx h)) else 0
/-- Set the registers a body starts with, in order (R91). -/
def startRegs (g3 : Option Word) (caps : List Word) (sp : Word) (h : Handle) (r : BitVec 512) (pc : Word) (far : Bool)
    (t : Thread) : Thread :=
  let w (n : Nat) (v : Word) (t : Thread) : Thread :=
    { t with g := t.g.set! n v, dead := t.dead &&& ~~~((1 : BitVec 32) <<< n) }
  let t : Thread := { t with dead := 0xFFFFFFFE }
  let t := match g3 with
    | some v => w 3 v t
    | none => t
  let t := (List.range (min caps.length 8)).foldl (fun t i => w (8 + i) (caps.getD i 0) t) t
  let t := w 4 (rcdArg r 0) (w 5 (rcdArg r 1) (w 6 (rcdArg r 2) (w 7 (rcdArg r 3) (w 2 sp t))))
  { t with l0 := rcdWid r, l1 := rcdAnchor r, k := (Vector.replicate 8 0).set 0 h, pc := pc, running := true, pend := [],
           fcsr := if far then 0 else t.fcsr }
/-- The body's checks passed: registers set, streams started. -/
def startGo (s : State) (c : Coord) (u : UnitId) (t : Task) (h : Handle) (g3 : Option Word) (caps : List Word) (pc : Word) :
    State :=
  mapCore s c fun k =>
    match u with
    | .ibex _ => mapThread k u (startRegs g3 caps 0 h t.rcd pc false)
    | .stream i _ =>
      let k := mapSlot k i fun x => { popFrames x with starting := none, vtype := 0, vl := 0, lq := [], sq := [], bo := [],
                                                        boProd := none, rt := [], st := .running }
      let k := mapThread k (.stream i .acc) fun th => { th with running := false, fcsr := 0, pend := [] }
      mapThread k u (startRegs g3 caps (BitVec.ofNat 64 (frameTop k i)) h t.rcd pc true)
/-- The last checks and the start, once the entry is known. -/
def startAt (s : State) (c : Coord) (u : UnitId) (t : Task) (h : Handle) (g3 : Option Word) (caps : List Word) (pc : Word) :
    State :=
  match padCheck (coreAt s c) (threadAt (coreAt s c) u) pc (padKind u) with
  | some (w, a, _) => startFault s c u w a pc
  | none => startGo s c u t h g3 caps pc
/-- A body starts with the environment that its home answered. -/
def startWith (s : State) (c : Coord) (u : UnitId) (t : Task) (h : Handle) : Ans → State
  | .refused w a => startFault s c u w a 0
  | .value _ => s
  | .env e =>
    let hd : BitVec 128 := BitVec.ofNat 128 (leNat (e.take 16))
    startAt s c u t h (some (envNear s c h)) ((List.range (min (envNcap hd) 8)).map fun w => captureOf c (hHome h) e w)
      (BitVec.ofNat 64 (envEntry hd))
/-- The handle of the body that a side runs. -/
def bodyHandle (u : UnitId) (r : BitVec 512) : Handle := if isIbex u then rcdNear r else rcdFar r
/-- The entry of a launch-made free task: B + ENTRY of the role (R90, R367). -/
def roleEntry (s : State) (c : Coord) : Word :=
  match launchOf s c with
  | some l => ((l.kernel.entries.find? fun e => e.1 == (coreAt s c).role).map (·.2)).getD 0
  | none => 0
/-- BodyStart of R91. A body whose environment lies at another core waits for that home's answer (R189). -/
def bodyStart (s : State) (c : Coord) (u : UnitId) (t : Task) : State :=
  let h := bodyHandle u t.rcd
  let s := mapCore s c fun k => match u with
    | .stream i _ => mapSlot k i fun x => { x with task := some t, starting := some t, grant := none, st := .running }
    | .ibex n => mapIbex k n fun _ => { task := some t, starting := some t }
  let clear (s : State) : State := mapCore s c fun k => match u with
    | .stream i _ => mapSlot k i fun x => { x with starting := none }
    | .ibex n => mapIbex k n fun x => { x with starting := none }
  if h = 0 then startAt (clear s) c u t 0 none [] (roleEntry s c)
  else if !inLaunch s c (hHome h) then startFault (clear s) c u (why 0x0E0 2) (hWord h) 0
  else if hHome h = c then startWith (clear s) c u t h (closureServe s c c (.closureApply h)).2
  else send s c (hHome h) (if sameCluster c (hHome h) then .cluster else .request) u s.nextId (some (reqOrigin s ⟨c, u⟩)) none
    (.closureOp (.closureApply h))

end Sys2Proof.Machine
end

