-- ==== Sys2Proof/Machine/Operands.lean ====
section
/-! DEFINITION. Machine/Operands.lean: operand forms: general registers with the dead set and the locks (R111 to R113,
R127), special codes with their queues (R40, R111), results (R43), pairs (R42), closure registers (R182), immediates
(R34, R39). -/
namespace Sys2Proof.Machine

/-- The register is the destination of an outstanding GLD or GAMO of the stream (R127). -/
def locked (t : Thread) (n : BitVec 5) : Bool := t.gld.any fun x => !x.drop && x.dest == .g n
/-- The value of a general register: 0 for g0 and for a dead register (R111, R113). -/
def regVal (t : Thread) (n : BitVec 5) : Word := if n = 0 ∨ t.dead.getLsbD n.toNat then 0 else t.g[n.toNat]'n.isLt
/-- Write a general register: g0 discards, and a written register is no longer dead (R111, R113). -/
def regSet (t : Thread) (n : BitVec 5) (v : Word) : Thread :=
  if n = 0 then t else { t with g := t.g.set n.toNat v n.isLt, dead := t.dead &&& ~~~((1 : BitVec 32) <<< n.toNat) }
def readReg (n : BitVec 5) : M Word := do
  let t ← getThread
  if locked t n then stall else pure (regVal t n)
def writeReg (n : BitVec 5) (v : Word) : M Unit := do
  let t ← getThread
  if locked t n then stall else modThread fun t => regSet t n v

/-- The words present in a queue, by special code (R154). -/
def queueWords (k : Core) (x : Slot) (code : Nat) : List Word :=
  if code = 2 then x.lq.filterMap fun p => match p with
    | .word w => some w
    | .reserved _ => none
  else if code = 3 then x.sq else if code = 4 then x.bo else if code = 5 then x.rt else if code = 6 then k.mb
  else if 8 ≤ code ∧ code ≤ 11 then x.ports[Fin.ofNat 4 (code - 8)].recv else []
/-- A stalled instruction has made its request, or kept its record, and names the port or the mailbox. -/
def threadClaims (t : Thread) (code : Nat) : Bool := t.pend.any (fun p => p.claims.contains code) || (t.rcd.isSome && t.keeps.contains code)
/-- A stalled instruction of another stream, which has already made its request, names the port or the mailbox: no other
stream takes or places a word there before it completes (R41). -/
def claimed (s : State) (code : Nat) : Bool :=
  let k := coreAt s s.cur.core
  (allSlots.flatMap fun i => [UnitId.stream i .exec, UnitId.stream i .acc]).any fun u =>
    u != s.cur.unit && (code == 6 || unitSlot u == unitSlot s.cur.unit) && threadClaims (threadAt k u) code
/-- Pop one word; an empty queue, or a reserved place at its head, stalls (R107, R111). No later load goes before the pop (R263). -/
def popQ (code : Nat) : M Word := do
  dropAllEarly
  let k ← getCore
  let x ← getSlot
  if code = 2 then
    match x.lq with
    | .word w :: r => do modSlot (fun x => { x with lq := r }); pure w
    | _ => stall
  else if code = 3 then
    match x.sq with
    | w :: r => do modSlot (fun x => { x with sq := r }); pure w
    | [] => stall
  else if code = 4 then
    match x.bo with
    | w :: r => do modSlot (fun x => { x with bo := r }); pure w
    | [] => stall
  else if code = 5 then
    match x.rt with
    | w :: r => do modSlot (fun x => { x with rt := r }); pure w
    | [] => stop (.stall true)
  else if code = 6 then
    stallIf (claimed (← get) code)
    match k.mb with
    | w :: _ => do modCore mbPop; pure w
    | [] => stall
  else
    stallIf (claimed (← get) code)
    let p : Fin 4 := Fin.ofNat 4 (code - 8)
    match x.ports[p].recv with
    | w :: r => do modSlot (fun x => { x with ports := x.ports.set p { x.ports[p] with recv := r } }); pure w
    | [] => stall
/-- Send one word on a port: unbound traps, a full send buffer stalls, a speculative far body holds it (R306, R86). -/
def pushPort (p : Fin 4) (v : Word) : M Unit := do
  let s ← get
  let x := slotOf s
  guardA (x.ports[p].cfg.getLsbD 31) 0x0A2 3 0
  if isSpec s then hold (.port (unitSide s.cur.unit) p v)
  else
    stallIf (decide (8 ≤ x.ports[p].send.length) || claimed s (8 + p.val))
    modSlot fun x => { x with ports := x.ports.set p { x.ports[p] with send := x.ports[p].send ++ [(unitSide s.cur.unit, s.nextId, v)] } }
    modify fun s => { s with nextId := s.nextId + 1 }
/-- Push one word; a full queue stalls (R107, R111), and so does a store of the stream that has not taken effect (R263). The first push of bo fixes its producer (R40). No other code can be written
(R40). -/
def pushQ (code : Nat) (v : Word) : M Unit := do
  let s ← get
  let x := slotOf s
  stallIf (!(threadOf s).sbuf.isEmpty)
  if code = 2 then do
    stallIf (decide (16 ≤ x.lq.length)); modSlot fun x => { x with lq := x.lq ++ [.word v] }
  else if code = 3 then do
    stallIf (decide (16 ≤ x.sq.length)); modSlot fun x => { x with sq := x.sq ++ [v] }
  else if code = 4 then do
    stallIf (decide (8 ≤ x.bo.length))
    modSlot fun x => { x with bo := x.bo ++ [v], boProd := some (unitSide s.cur.unit) }
  else if code = 5 then do
    stallIf (decide (8 ≤ x.rt.length)); modSlot fun x => { x with rt := x.rt ++ [v] }
  else if 8 ≤ code ∧ code ≤ 11 then pushPort (Fin.ofNat 4 (code - 8)) v
  else trapD 0x002 2

/-- ReadG of R43. -/
def readG : GReg → M Word
  | .g n => readReg n
  | .sp c => do
    let t ← getThread
    if c = 0 then pure t.l0 else if c = 1 then pure t.l1
    else if 16 ≤ c.toNat ∧ c.toNat ≤ 23 then pure (BitVec.ofNat 64 (t.k[c.toNat - 16]!).toNat)
    else popQ c.toNat
/-- WriteG of R43. -/
def writeG : GReg → Word → M Unit
  | .g n, v => writeReg n v
  | .sp c, v => pushQ c.toNat v
/-- WriteResult of R43. -/
def writeResult (a : GReg) (v : Word) : M Unit := do
  writeG a v
  modThread fun t => { t with l1 := t.l0, l0 := v }
/-- The destination can take a result now: it is not locked, its queue or port has room (R41, R127). -/
def destReady (a : GReg) : M Unit := probe (writeG a 0)
/-- The two registers of a pair, the even one first (R42). -/
def readPair : GReg → M (Word × Word)
  | .g n => do
    let x ← readReg n
    let y ← readReg (n + 1)
    return (x, y)
  | .sp _ => return (0, 0)
/-- A closure register (R182). -/
def readK (k : KReg) : M Handle := do return (← getThread).k[k.toNat]'k.isLt
def writeK (k : KReg) (h : Handle) : M Unit := modThread fun t => { t with k := t.k.set k.toNat h k.isLt }
/-- Mark dead the registers that CMASK names (R113). -/
def markDead : M Unit := modThread fun t => { t with dead := t.dead ||| (t.cmask &&& 0xFFFFFFF0) }
/-- A sign-extended immediate (R39). -/
def simm {n : Nat} (i : BitVec n) : Word := i.signExtend 64
def zimm {n : Nat} (i : BitVec n) : Word := i.zeroExtend 64

/-- An instruction of one result from two sources, read b then c (R41). -/
def binop (a b c : GReg) (f : Word → Word → Word) : M Next := do
  let x ← readG b
  let y ← readG c
  writeResult a (f x y)
  return .seq
/-- An instruction of one result from one source. -/
def unop (a b : GReg) (f : Word → Word) : M Next := do
  let x ← readG b
  writeResult a (f x)
  return .seq

end Sys2Proof.Machine
end

