-- ==== Sys2Proof/Machine/Flags.lean ====
section
/-! DEFINITION. Machine/Flags.lean: the number formats and arithmetic helpers of R8 to R29 with the flags they raise
(R15), FCSR (R14), and the trap of an enabled flag (R17). -/
namespace Sys2Proof.Machine

/-! ### Formats (R8) -/

def expBits : Fmt → Nat
  | .fp32 => 8 | .bf16 => 8 | .f16 => 5 | .e4m3 => 4 | .e5m2 => 5 | .e3m2 => 3 | .e2m3 => 2 | .e2m1 => 2
def manBits : Fmt → Nat
  | .fp32 => 23 | .bf16 => 7 | .f16 => 10 | .e4m3 => 3 | .e5m2 => 2 | .e3m2 => 2 | .e2m3 => 3 | .e2m1 => 1
def bias : Fmt → Nat
  | .fp32 => 127 | .bf16 => 127 | .f16 => 15 | .e4m3 => 7 | .e5m2 => 15 | .e3m2 => 3 | .e2m3 => 1 | .e2m1 => 1
def fmtWidth (f : Fmt) : Nat := 1 + expBits f + manBits f
/-- Infinities and NaN codes as IEEE. -/
def ieee : Fmt → Bool
  | .fp32 => true | .bf16 => true | .f16 => true | .e5m2 => true | _ => false
/-- The code of the largest finite magnitude. -/
def maxCode : Fmt → Nat
  | .fp32 => 0x7F7FFFFF | .bf16 => 0x7F7F | .f16 => 0x7BFF | .e4m3 => 0x7E | .e5m2 => 0x7B | .e3m2 => 0x1F
  | .e2m3 => 0x1F | .e2m1 => 0x7
/-- DefaultNaN of R29; the formats without a NaN have none, and 0 stands there unused. -/
def defaultNaN : Fmt → Nat
  | .fp32 => 0x7FC00000 | .bf16 => 0x7FC0 | .f16 => 0x7E00 | .e4m3 => 0x7F | .e5m2 => 0x7E | _ => 0
/-- The exponent of the smallest normal. -/
def emin (f : Fmt) : Int := 1 - bias f
def signCode (f : Fmt) (neg : Bool) : Nat := if neg then 2 ^ (fmtWidth f - 1) else 0
def infCode (f : Fmt) (neg : Bool) : Nat := signCode f neg + (2 ^ expBits f - 1) * 2 ^ manBits f

/-- A decoded value: NaN, infinity, or ±m·2^e. -/
inductive FVal where
  | nan (signalling : Bool)
  | inf (neg : Bool)
  | num (neg : Bool) (m : Nat) (e : Int)
  deriving DecidableEq, Repr

/-- Decode of R29. -/
def decodeF (f : Fmt) (v : Nat) : FVal :=
  let w := fmtWidth f
  let neg := v.testBit (w - 1)
  let ex := natBits v (w - 2) (manBits f)
  let mn := v % 2 ^ manBits f
  if ieee f && ex == 2 ^ expBits f - 1 then (if mn = 0 then .inf neg else .nan (!v.testBit (manBits f - 1)))
  else if f = .e4m3 ∧ v % 128 = 0x7F then .nan false
  else if ex = 0 then .num neg mn (emin f - manBits f)
  else .num neg (mn + 2 ^ manBits f) (ex - bias f - manBits f)

/-! ### Flags -/

abbrev Flags := BitVec 5
def fV : Flags := 16
def fZ : Flags := 8
def fO : Flags := 4
def fU : Flags := 2
def fI : Flags := 1
/-- A result with the flags it raises. -/
structure Fr (α : Type) where
  v : α
  f : Flags
  deriving DecidableEq, Repr

/-! ### Rounding -/

/-- The rounding modes of FCSR.RM (R14). -/
inductive Rm where
  | rne | rz | ru | rd
  deriving DecidableEq, Repr
/-- Round q + rem/2^sh away from zero or not: `rem` the dropped bits, `sticky` anything below them. -/
def roundUp (rm : Rm) (neg : Bool) (q rem sh : Nat) (sticky : Bool) : Bool :=
  let inexact := rem != 0 || sticky
  match rm with
  | .rz => false
  | .ru => inexact && !neg
  | .rd => inexact && neg
  | .rne =>
    let h := 2 ^ sh
    if 2 * rem < h then false else if 2 * rem = h then sticky || q % 2 == 1 else true
/-- ±(m·2^e, plus something below when `sticky`) to a multiple of 2^q: the multiple and whether it is inexact. -/
def roundAt (rm : Rm) (neg : Bool) (m : Nat) (e q : Int) (sticky : Bool) : Nat × Bool :=
  if q ≤ e then (m * 2 ^ (e - q).toNat, sticky)
  else
    let sh := (q - e).toNat
    let d := m / 2 ^ sh
    let r := m % 2 ^ sh
    (if roundUp rm neg d r sh sticky then d + 1 else d, r != 0 || sticky)
/-- The exponent of the leading bit of m·2^e. -/
def topExp (m : Nat) (e : Int) : Int := (Nat.log2 m : Int) + e
/-- The code of k·2^q, where k is below 2^(manBits + 1) or that power itself, q at or above the subnormal quantum. -/
def packF (f : Fmt) (neg : Bool) (k : Nat) (q : Int) : Nat :=
  let mb := manBits f
  let base := (q - (emin f - mb)).toNat
  signCode f neg + (if k < 2 ^ mb then k else base * 2 ^ mb + k)
/-- Rounded with an unbounded exponent, the magnitude exceeds the largest finite. -/
def outOfRange (f : Fmt) (rm : Rm) (neg : Bool) (m : Nat) (e : Int) (sticky : Bool) : Bool :=
  let q := topExp m e - manBits f
  let k := (roundAt rm neg m e q sticky).1
  match decodeF f (maxCode f) with
  | .num _ mm me => decide ((mm : Int) * 2 ^ (max 0 (me - q)).toNat < (k : Int) * 2 ^ (max 0 (q - me)).toNat)
  | _ => false
/-- In range: rounded to the format; U where the result rounded with an unbounded exponent is below the smallest normal
magnitude and inexact, I where the delivered result is inexact (R15). -/
def roundIn (f : Fmt) (rm : Rm) (neg : Bool) (m : Nat) (e : Int) (sticky : Bool) : Fr Nat :=
  let t := topExp m e
  let q := max t (emin f) - manBits f
  let (k, inex) := roundAt rm neg m e q sticky
  let qu := t - manBits f
  let (ku, inexU) := roundAt rm neg m e qu sticky
  let tiny := decide (topExp ku qu < emin f)
  ⟨packF f neg k q, (if inex then fI else 0) ||| (if inexU && tiny then fU else 0)⟩
/-- Overflow by R16. -/
def overflowCode (f : Fmt) (rm : Rm) (neg : Bool) : Nat :=
  match rm, neg with
  | .rne, _ => infCode f neg
  | .rz, _ => signCode f neg + maxCode f
  | .ru, false => infCode f false
  | .ru, true => signCode f true + maxCode f
  | .rd, false => maxCode f
  | .rd, true => infCode f true
/-- RoundToFormat of a finite value (R29, R16). -/
def roundNum (f : Fmt) (rm : Rm) (neg : Bool) (m : Nat) (e : Int) (sticky : Bool) : Fr Nat :=
  if m = 0 then ⟨signCode f neg, 0⟩
  else if outOfRange f rm neg m e sticky then ⟨overflowCode f rm neg, fO ||| fI⟩
  else roundIn f rm neg m e sticky
/-- RoundToFormat of R29. -/
def roundF (f : Fmt) (rm : Rm) : FVal → Fr Nat
  | .nan _ => ⟨defaultNaN f, 0⟩
  | .inf n => ⟨infCode f n, 0⟩
  | .num n m e => roundNum f rm n m e false

/-! ### Arithmetic (R29) -/

def isNan : FVal → Bool
  | .nan _ => true
  | _ => false
def isSnan : FVal → Bool
  | .nan b => b
  | _ => false
def negV : FVal → FVal
  | .inf n => .inf (!n)
  | .num n m e => .num (!n) m e
  | x => x
def snanFlag (b : Bool) : Flags := if b then fV else 0
/-- The exact sum of two finite values, with the sign of a zero by R12. -/
def addNum (rm : Rm) (n1 : Bool) (m1 : Nat) (e1 : Int) (n2 : Bool) (m2 : Nat) (e2 : Int) : FVal :=
  let e := min e1 e2
  let a : Int := (if n1 then -1 else 1) * ((m1 * 2 ^ (e1 - e).toNat : Nat) : Int)
  let b : Int := (if n2 then -1 else 1) * ((m2 * 2 ^ (e2 - e).toNat : Nat) : Int)
  let s := a + b
  if s = 0 then .num (if n1 == n2 then n1 else decide (rm = .rd)) 0 e else .num (decide (s < 0)) s.natAbs e
/-- a + b before rounding. -/
def addV (rm : Rm) : FVal → FVal → Fr FVal
  | .nan x, b => ⟨.nan false, snanFlag (x || isSnan b)⟩
  | a, .nan y => ⟨.nan false, snanFlag (y || isSnan a)⟩
  | .inf x, .inf y => if x = y then ⟨.inf x, 0⟩ else ⟨.nan false, fV⟩
  | .inf x, _ => ⟨.inf x, 0⟩
  | _, .inf y => ⟨.inf y, 0⟩
  | .num n1 m1 e1, .num n2 m2 e2 => ⟨addNum rm n1 m1 e1 n2 m2 e2, 0⟩
def isZeroV : FVal → Bool
  | .num _ m _ => m == 0
  | _ => false
def isInfV : FVal → Bool
  | .inf _ => true
  | _ => false
def negOf : FVal → Bool
  | .inf n => n
  | .num n _ _ => n
  | .nan _ => false
/-- a·b before rounding. -/
def mulV (a b : FVal) : Fr FVal :=
  if (isInfV a && isZeroV b) || (isZeroV a && isInfV b) then ⟨.nan false, fV⟩
  else if isNan a || isNan b then ⟨.nan false, snanFlag (isSnan a || isSnan b)⟩
  else match a, b with
    | .num n1 m1 e1, .num n2 m2 e2 => ⟨.num (n1 != n2) (m1 * m2) (e1 + e2), 0⟩
    | a, b => ⟨.inf (negOf a != negOf b), 0⟩
def withRound (f : Fmt) (rm : Rm) (x : Fr FVal) : Fr Nat :=
  let r := roundF f rm x.v
  ⟨r.v, x.f ||| r.f⟩
def fAdd (f : Fmt) (rm : Rm) (a b : Nat) : Fr Nat := withRound f rm (addV rm (decodeF f a) (decodeF f b))
def fSub (f : Fmt) (rm : Rm) (a b : Nat) : Fr Nat := withRound f rm (addV rm (decodeF f a) (negV (decodeF f b)))
def fMul (f : Fmt) (rm : Rm) (a b : Nat) : Fr Nat := withRound f rm (mulV (decodeF f a) (decodeF f b))
/-- a·b + c formed exactly and rounded once; Inf × 0 raises V whatever c is (R15). -/
def fmaV (rm : Rm) (a b c : FVal) : Fr FVal :=
  let p := mulV a b
  let r := addV rm p.v c
  ⟨r.v, p.f ||| r.f⟩
def fFma (f : Fmt) (rm : Rm) (a b c : Nat) : Fr Nat := withRound f rm (fmaV rm (decodeF f a) (decodeF f b) (decodeF f c))
/-- FDiv: Z for a finite non-zero number over zero, V for 0/0 and Inf/Inf (R15). -/
def fDiv (f : Fmt) (rm : Rm) (a b : Nat) : Fr Nat :=
  match decodeF f a, decodeF f b with
  | .nan x, y => ⟨defaultNaN f, snanFlag (x || isSnan y)⟩
  | x, .nan y => ⟨defaultNaN f, snanFlag (y || isSnan x)⟩
  | .inf _, .inf _ => ⟨defaultNaN f, fV⟩
  | .inf n, .num k _ _ => ⟨infCode f (n != k), 0⟩
  | .num n _ _, .inf k => ⟨signCode f (n != k), 0⟩
  | .num n m1 e1, .num k m2 e2 =>
    if m2 = 0 then (if m1 = 0 then ⟨defaultNaN f, fV⟩ else ⟨infCode f (n != k), fZ⟩)
    else if m1 = 0 then ⟨signCode f (n != k), 0⟩
    else
      let sh := 64 + Nat.log2 m2
      let num := m1 * 2 ^ sh
      roundNum f rm (n != k) (num / m2) (e1 - e2 - sh) (num % m2 != 0)
/-- Integer square root below 2^n, bit by bit. -/
def isqrt (x : Nat) : Nat → Nat → Nat
  | 0, r => r
  | n + 1, r => isqrt x n (if (r + 2 ^ n) * (r + 2 ^ n) ≤ x then r + 2 ^ n else r)
def fSqrt (f : Fmt) (rm : Rm) (a : Nat) : Fr Nat :=
  match decodeF f a with
  | .nan x => ⟨defaultNaN f, snanFlag x⟩
  | .inf true => ⟨defaultNaN f, fV⟩
  | .inf false => ⟨infCode f false, 0⟩
  | .num n m e =>
    if m = 0 then ⟨signCode f n, 0⟩
    else if n then ⟨defaultNaN f, fV⟩
    else
      let odd := e % 2
      let x := m * 2 ^ (64 + odd.toNat)
      let r := isqrt x 48 0
      roundNum f rm false r ((e - odd) / 2 - 32) (r * r != x)
/-- Finite or infinite a < b as reals, −0 equal to +0. -/
def ltV : FVal → FVal → Bool
  | .inf x, .inf y => x && !y
  | .inf x, _ => x
  | _, .inf y => !y
  | .num n1 m1 e1, .num n2 m2 e2 =>
    match addNum .rne n1 m1 e1 (!n2) m2 e2 with
    | .num n m _ => n && m != 0
    | _ => false
  | _, _ => false
def eqV (a b : FVal) : Bool := !isNan a && !isNan b && !ltV a b && !ltV b a
/-- The order of R13, −0 below +0. -/
def belowV (x y : FVal) : Bool := ltV x y || (isZeroV x && isZeroV y && negOf x && !negOf y)
/-- FMin and FMax of R13: a lone NaN gives the other operand. -/
def fPick (f : Fmt) (a b : Nat) (second : FVal → FVal → Bool) : Fr Nat :=
  let x := decodeF f a
  let y := decodeF f b
  let fl := snanFlag (isSnan x || isSnan y)
  if isNan x && isNan y then ⟨defaultNaN f, fl⟩
  else if isNan x then ⟨b, fl⟩
  else if isNan y then ⟨a, fl⟩
  else ⟨if second x y then b else a, fl⟩
def fMin (f : Fmt) (a b : Nat) : Fr Nat := fPick f a b fun x y => belowV y x
def fMax (f : Fmt) (a b : Nat) : Fr Nat := fPick f a b fun x y => belowV x y
/-- Comparisons: V for a signalling NaN, or for any NaN where `strict` (R144). -/
def cmpF (f : Fmt) (a b : Nat) (strict : Bool) (p : FVal → FVal → Bool) : Fr Bool :=
  let x := decodeF f a
  let y := decodeF f b
  if isNan x || isNan y then ⟨false, snanFlag (strict || isSnan x || isSnan y)⟩ else ⟨p x y, 0⟩
/-- FCLASS of R144. -/
def fClass (f : Fmt) (a : Nat) : Nat :=
  match decodeF f a with
  | .nan s => if s then 256 else 512
  | .inf n => if n then 1 else 128
  | .num n m e =>
    if m = 0 then (if n then 8 else 16)
    else if topExp m e < emin f then (if n then 4 else 32) else (if n then 2 else 64)

/-! ### Conversions (R20 to R23) -/

/-- FP to FP: exact when widening (R20), rounded when narrowing (R21). -/
def cvtF (src dst : Fmt) (rm : Rm) (a : Nat) : Fr Nat :=
  let x := decodeF src a
  withRound dst rm ⟨x, snanFlag (isSnan x)⟩
/-- Saturate of R29: the conversions of R22 to the narrow formats. -/
def saturate (src dst : Fmt) (rm : Rm) (sat : Bool) (a : Nat) : Fr Nat :=
  let six := decide (dst = .e3m2 ∨ dst = .e2m3 ∨ dst = .e2m1)
  match decodeF src a with
  | .nan s => if six then ⟨maxCode dst, fV⟩ else ⟨defaultNaN dst, snanFlag s⟩
  | .inf n =>
    if sat then ⟨signCode dst n + maxCode dst, 0⟩
    else if dst = .e4m3 then ⟨0x7F, fO⟩
    else if dst = .e5m2 then ⟨infCode dst n, 0⟩
    else ⟨signCode dst n + maxCode dst, fO⟩
  | .num n m e =>
    if m = 0 then ⟨signCode dst n, 0⟩
    else if outOfRange dst rm n m e false then
      (if sat then ⟨signCode dst n + maxCode dst, fI⟩
       else if dst = .e4m3 then ⟨0x7F, fO ||| fI⟩
       else if dst = .e5m2 then ⟨overflowCode dst rm n, fO ||| fI⟩
       else ⟨signCode dst n + maxCode dst, fO ||| fI⟩)
    else roundIn dst rm n m e false
/-- FP to integer of n bits (R23). -/
def toInt (rm : Rm) (n : Nat) (signed : Bool) (x : FVal) : Fr Int :=
  let lo : Int := if signed then -(2 ^ (n - 1) : Int) else 0
  let hi : Int := if signed then 2 ^ (n - 1) - 1 else 2 ^ n - 1
  match x with
  | .nan _ => ⟨0, fV⟩
  | .inf b => ⟨if b then lo else hi, fV⟩
  | .num b m e =>
    let (k, inex) := roundAt rm b m e 0 false
    let v : Int := if b then -(k : Int) else k
    if v < lo then ⟨lo, fV⟩ else if hi < v then ⟨hi, fV⟩ else ⟨v, if inex then fI else 0⟩
/-- Integer to FP (R23). -/
def ofInt (f : Fmt) (rm : Rm) (x : Int) : Fr Nat := roundNum f rm (decide (x < 0)) x.natAbs 0 false

/-! ### FExp (R29) -/

/-- Sum of the exponential series in fixed point with 320 fraction bits. -/
def expSeries (x : Int) : Nat → Nat → Int → Int → Int
  | 0, _, _, acc => acc
  | n + 1, i, term, acc =>
    let t := term * x / 2 ^ 320 / (i + 1)
    expSeries x n (i + 1) t (acc + t)
def squares (x : Int) : Nat → Int
  | 0 => x
  | n + 1 => let y := squares x n; y * y / 2 ^ 320
/-- e^x correctly rounded to FP32 under RNE (log 17). -/
def fExp (a : Nat) : Fr Nat :=
  match decodeF .fp32 a with
  | .nan s => ⟨defaultNaN .fp32, snanFlag s⟩
  | .inf true => ⟨0, 0⟩
  | .inf false => ⟨infCode .fp32 false, 0⟩
  | .num n m e =>
    if m = 0 then ⟨0x3F800000, 0⟩
    else if 7 ≤ topExp m e then (if n then ⟨0, fU ||| fI⟩ else ⟨infCode .fp32 false, fO ||| fI⟩)
    else
      let y : Int := if -312 ≤ e then (m * 2 ^ (e + 312).toNat : Nat) else (m / 2 ^ (-(e + 312)).toNat : Nat)
      let r := squares (expSeries (if n then -y else y) 80 0 (2 ^ 320) (2 ^ 320)) 8
      roundNum .fp32 .rne false r.toNat (-320) true

/-! ### FCSR (R14, R17, R18) -/

def rmOf (fcsr : BitVec 32) : Rm :=
  match bits fcsr 17 16 with
  | 0 => .rne
  | 1 => .rz
  | 2 => .ru
  | _ => .rd
def getRm : M Rm := do return rmOf (← getThread).fcsr
/-- The first enabled flag in the order V, Z, O, U, I, as the cause's last digit. -/
def enabledFlag (fcsr : BitVec 32) (f : Flags) : Option Nat :=
  let on := BitVec.ofNat 5 (bits fcsr 12 8) &&& f
  if on.getLsbD 4 then some 0 else if on.getLsbD 3 then some 1 else if on.getLsbD 2 then some 2
  else if on.getLsbD 1 then some 3 else if on.getLsbD 0 then some 4 else none
/-- Raise flags: an enabled one traps precisely (R17), else FLAGS takes them. -/
def raiseFlags (f : Flags) : M Unit := do
  let t ← getThread
  match enabledFlag t.fcsr f with
  | some i => trapA (0x160 + i) f.toNat 0
  | none => modThread fun t => { t with fcsr := t.fcsr ||| f.zeroExtend 32 }
/-- OR the flags of an engine operation into EFLAGS (R18). -/
def orEflags (t : Thread) (f : Flags) : Thread := { t with fcsr := t.fcsr ||| (f.zeroExtend 32 <<< 24) }

end Sys2Proof.Machine
end

