-- ==== Sys2Proof/Machine/Scalar.lean ====
section
/-! DEFINITION. Machine/Scalar.lean: integer and immediate operations (R128 to R131) and scalar floating point (R144,
R145). -/
namespace Sys2Proof.Machine

open Host (Outcome)

abbrev Out := Outcome State Fault Refusal

/-! ### Integer helpers (R129) -/

def b2w (b : Bool) : Word := if b then 1 else 0
def sgn (x : Word) : Int := x.toInt
def divS (x y : Word) : Word := if y = 0 then BitVec.allOnes 64 else BitVec.ofInt 64 (Int.tdiv (sgn x) (sgn y))
def divU (x y : Word) : Word := if y = 0 then BitVec.allOnes 64 else x / y
def remS (x y : Word) : Word := if y = 0 then x else BitVec.ofInt 64 (Int.tmod (sgn x) (sgn y))
def remU (x y : Word) : Word := if y = 0 then x else x % y
def mulHigh (x y : Int) : Word := BitVec.ofInt 64 (x * y / 2 ^ 64)
/-- Number of leading zeros among the low n bits. -/
def clzN (x : Nat) : Nat → Nat
  | 0 => 0
  | n + 1 => if x.testBit n then 0 else 1 + clzN x n
/-- Number of trailing zeros among n bits from bit i on. -/
def ctzN (x i : Nat) : Nat → Nat
  | 0 => 0
  | n + 1 => if x.testBit i then 0 else 1 + ctzN x (i + 1) n
def popN (x : Nat) : Nat → Nat
  | 0 => 0
  | n + 1 => (if x.testBit n then 1 else 0) + popN x n
def rev8 (x : Word) : Word := BitVec.ofNat 64 (leNat (leBytes 8 x.toNat).reverse)
def shamt (x : Word) : Nat := x.toNat % 64

/-- An instruction with an immediate: one source and the immediate. -/
def immop (a b : GReg) (i : Word) (f : Word → Word → Word) : M Next := do
  let x ← readG b
  writeResult a (f x i)
  return .seq
/-- A shift or rotate by an immediate of 0 to 63 (R131). -/
def shiftop (a b : GReg) (i : BitVec 27) (f : Word → Nat → Word) : M Next := do
  guardD (decide (i.toNat ≤ 63)) 0x002 5
  let x ← readG b
  writeResult a (f x i.toNat)
  return .seq

/-- ADD (R128). -/
def execAdd (a b c : GReg) (s : State) : Out :=
  instr uEAN false [.rd b, .rd c, .wr a] (binop a b c fun x y => x + y) s
/-- SUB (R128). -/
def execSub (a b c : GReg) (s : State) : Out :=
  instr uEAN false [.rd b, .rd c, .wr a] (binop a b c fun x y => x - y) s
/-- AND (R128). -/
def execAnd (a b c : GReg) (s : State) : Out :=
  instr uEAN false [.rd b, .rd c, .wr a] (binop a b c fun x y => x &&& y) s
/-- OR (R128). -/
def execOr (a b c : GReg) (s : State) : Out :=
  instr uEAN false [.rd b, .rd c, .wr a] (binop a b c fun x y => x ||| y) s
/-- XOR (R128). -/
def execXor (a b c : GReg) (s : State) : Out :=
  instr uEAN false [.rd b, .rd c, .wr a] (binop a b c fun x y => x ^^^ y) s
/-- SLL (R128). -/
def execSll (a b c : GReg) (s : State) : Out :=
  instr uEAN false [.rd b, .rd c, .wr a] (binop a b c fun x y => x <<< shamt y) s
/-- SRL (R128). -/
def execSrl (a b c : GReg) (s : State) : Out :=
  instr uEAN false [.rd b, .rd c, .wr a] (binop a b c fun x y => x >>> shamt y) s
/-- SRA (R128). -/
def execSra (a b c : GReg) (s : State) : Out :=
  instr uEAN false [.rd b, .rd c, .wr a] (binop a b c fun x y => x.sshiftRight (shamt y)) s
/-- MUL (R129). -/
def execMul (a b c : GReg) (s : State) : Out :=
  instr uEAN false [.rd b, .rd c, .wr a] (binop a b c fun x y => x * y) s
/-- MULH (R129). -/
def execMulh (a b c : GReg) (s : State) : Out :=
  instr uEAN false [.rd b, .rd c, .wr a] (binop a b c fun x y => mulHigh (sgn x) (sgn y)) s
/-- MULHU (R129). -/
def execMulhu (a b c : GReg) (s : State) : Out :=
  instr uEAN false [.rd b, .rd c, .wr a] (binop a b c fun x y => mulHigh x.toNat y.toNat) s
/-- MULHSU (R129). -/
def execMulhsu (a b c : GReg) (s : State) : Out :=
  instr uEAN false [.rd b, .rd c, .wr a] (binop a b c fun x y => mulHigh (sgn x) y.toNat) s
/-- DIV (R129). -/
def execDiv (a b c : GReg) (s : State) : Out :=
  instr uEAN false [.rd b, .rd c, .wr a] (binop a b c fun x y => divS x y) s
/-- DIVU (R129). -/
def execDivu (a b c : GReg) (s : State) : Out :=
  instr uEAN false [.rd b, .rd c, .wr a] (binop a b c fun x y => divU x y) s
/-- REM (R129). -/
def execRem (a b c : GReg) (s : State) : Out :=
  instr uEAN false [.rd b, .rd c, .wr a] (binop a b c fun x y => remS x y) s
/-- REMU (R129). -/
def execRemu (a b c : GReg) (s : State) : Out :=
  instr uEAN false [.rd b, .rd c, .wr a] (binop a b c fun x y => remU x y) s
/-- SLT (R129). -/
def execSlt (a b c : GReg) (s : State) : Out :=
  instr uEAN false [.rd b, .rd c, .wr a] (binop a b c fun x y => b2w (x.slt y)) s
/-- SLTU (R129). -/
def execSltu (a b c : GReg) (s : State) : Out :=
  instr uEAN false [.rd b, .rd c, .wr a] (binop a b c fun x y => b2w (x.ult y)) s
/-- MIN (R129). -/
def execMin (a b c : GReg) (s : State) : Out :=
  instr uEAN false [.rd b, .rd c, .wr a] (binop a b c fun x y => if y.slt x then y else x) s
/-- MAX (R129). -/
def execMax (a b c : GReg) (s : State) : Out :=
  instr uEAN false [.rd b, .rd c, .wr a] (binop a b c fun x y => if x.slt y then y else x) s
/-- MINU (R129). -/
def execMinu (a b c : GReg) (s : State) : Out :=
  instr uEAN false [.rd b, .rd c, .wr a] (binop a b c fun x y => if y.ult x then y else x) s
/-- MAXU (R129). -/
def execMaxu (a b c : GReg) (s : State) : Out :=
  instr uEAN false [.rd b, .rd c, .wr a] (binop a b c fun x y => if x.ult y then y else x) s
/-- ANDN (R129). -/
def execAndn (a b c : GReg) (s : State) : Out :=
  instr uEAN false [.rd b, .rd c, .wr a] (binop a b c fun x y => x &&& ~~~y) s
/-- ORN (R129). -/
def execOrn (a b c : GReg) (s : State) : Out :=
  instr uEAN false [.rd b, .rd c, .wr a] (binop a b c fun x y => x ||| ~~~y) s
/-- ROL (R129). -/
def execRol (a b c : GReg) (s : State) : Out :=
  instr uEAN false [.rd b, .rd c, .wr a] (binop a b c fun x y => x.rotateLeft (shamt y)) s
/-- ROR (R129). -/
def execRor (a b c : GReg) (s : State) : Out :=
  instr uEAN false [.rd b, .rd c, .wr a] (binop a b c fun x y => x.rotateRight (shamt y)) s
/-- Clz (R129). -/
def execClz (a b : GReg) (s : State) : Out :=
  instr uEAN false [.rd b, .wr a] (unop a b fun x => BitVec.ofNat 64 (clzN x.toNat 64)) s
/-- Ctz (R129). -/
def execCtz (a b : GReg) (s : State) : Out :=
  instr uEAN false [.rd b, .wr a] (unop a b fun x => BitVec.ofNat 64 (ctzN x.toNat 0 64)) s
/-- Popc (R129). -/
def execPopc (a b : GReg) (s : State) : Out :=
  instr uEAN false [.rd b, .wr a] (unop a b fun x => BitVec.ofNat 64 (popN x.toNat 64)) s
/-- Rev8 (R129). -/
def execRev8 (a b : GReg) (s : State) : Out :=
  instr uEAN false [.rd b, .wr a] (unop a b fun x => rev8 x) s
/-- SextB (R129). -/
def execSextB (a b : GReg) (s : State) : Out :=
  instr uEAN false [.rd b, .wr a] (unop a b fun x => signExt 8 x.toNat) s
/-- SextH (R129). -/
def execSextH (a b : GReg) (s : State) : Out :=
  instr uEAN false [.rd b, .wr a] (unop a b fun x => signExt 16 x.toNat) s
/-- SextW (R129). -/
def execSextW (a b : GReg) (s : State) : Out :=
  instr uEAN false [.rd b, .wr a] (unop a b fun x => signExt 32 x.toNat) s
/-- ZextW (R129). -/
def execZextW (a b : GReg) (s : State) : Out :=
  instr uEAN false [.rd b, .wr a] (unop a b fun x => zeroExt 32 x.toNat) s
/-- ADDI (R130). -/
def execAddi (a b : GReg) (imm : BitVec 30) (s : State) : Out :=
  instr uEAN false [.rd b, .wr a] (immop a b (simm imm) fun x i => x + i) s
/-- LI (R130). -/
def execLi (a : GReg) (imm : BitVec 33) (s : State) : Out :=
  instr uEAN false [.wr a] (do writeResult a (simm imm); return .seq) s
/-- ADH (R34, R130). -/
def execAdh (a : GReg) (imm : BitVec 20) (s : State) : Out :=
  instr uEAN false [.wr a] (do writeResult a (simm imm * 4096); return .seq) s
/-- ADPC: from the address of its own first word (R34, R130); not on an Ibex unit (R45). -/
def execAdpc (a : GReg) (imm : BitVec 20) (s : State) : Out :=
  instr uEA false [.wr a] (do writeResult a (pcOf s + simm imm * 4096); return .seq) s
/-- ANDI (R131). -/
def execAndi (a b : GReg) (imm : BitVec 27) (s : State) : Out :=
  instr uEAN false [.rd b, .wr a] (immop a b (simm imm) fun x i => x &&& i) s
/-- ORI (R131). -/
def execOri (a b : GReg) (imm : BitVec 27) (s : State) : Out :=
  instr uEAN false [.rd b, .wr a] (immop a b (simm imm) fun x i => x ||| i) s
/-- XORI (R131). -/
def execXori (a b : GReg) (imm : BitVec 27) (s : State) : Out :=
  instr uEAN false [.rd b, .wr a] (immop a b (simm imm) fun x i => x ^^^ i) s
/-- SLTI (R131). -/
def execSlti (a b : GReg) (imm : BitVec 27) (s : State) : Out :=
  instr uEAN false [.rd b, .wr a] (immop a b (simm imm) fun x i => b2w (x.slt i)) s
/-- SLTIU (R131). -/
def execSltiu (a b : GReg) (imm : BitVec 27) (s : State) : Out :=
  instr uEAN false [.rd b, .wr a] (immop a b (simm imm) fun x i => b2w (x.ult i)) s
/-- MULI (R131). -/
def execMuli (a b : GReg) (imm : BitVec 27) (s : State) : Out :=
  instr uEAN false [.rd b, .wr a] (immop a b (simm imm) fun x i => x * i) s
/-- SLLI (R131). -/
def execSlli (a b : GReg) (imm : BitVec 27) (s : State) : Out :=
  instr uEAN false [.rd b, .wr a] (shiftop a b imm fun x n => x <<< n) s
/-- SRLI (R131). -/
def execSrli (a b : GReg) (imm : BitVec 27) (s : State) : Out :=
  instr uEAN false [.rd b, .wr a] (shiftop a b imm fun x n => x >>> n) s
/-- SRAI (R131). -/
def execSrai (a b : GReg) (imm : BitVec 27) (s : State) : Out :=
  instr uEAN false [.rd b, .wr a] (shiftop a b imm fun x n => x.sshiftRight n) s
/-- RORI (R131). -/
def execRori (a b : GReg) (imm : BitVec 27) (s : State) : Out :=
  instr uEAN false [.rd b, .wr a] (shiftop a b imm fun x n => x.rotateRight n) s

/-! ### Scalar floating point (R144, R145) -/

def lo32 (x : Word) : Nat := x.toNat % 2 ^ 32
/-- Raise the flags and write the result; a trap leaves both undone (R17, R144). -/
def fres (a : GReg) (r : Fr Nat) : M Next := do
  raiseFlags r.f
  writeResult a (BitVec.ofNat 64 r.v)
  return .seq
def fbin (a b c : GReg) (f : Rm → Nat → Nat → Fr Nat) : M Next := do
  let x ← readG b
  let y ← readG c
  fres a (f (← getRm) (lo32 x) (lo32 y))
def fun1 (a b : GReg) (f : Rm → Word → Fr Nat) : M Next := do
  let x ← readG b
  fres a (f (← getRm) x)
def fcmp (a b c : GReg) (strict : Bool) (p : FVal → FVal → Bool) : M Next :=
  fbin a b c fun _ x y => let r := cmpF .fp32 x y strict p; ⟨if r.v then 1 else 0, r.f⟩
/-- A converted integer, as the 64-bit value written (R145). -/
def intRes (r : Fr Int) (n : Nat) : Fr Nat := ⟨wrapInt n r.v, r.f⟩
/-- FADD (R144). -/
def execFadd (a b c : GReg) (s : State) : Out :=
  instr uEA false [.rd b, .rd c, .wr a] (fbin a b c fun rm x y => fAdd .fp32 rm x y) s
/-- FSUB (R144). -/
def execFsub (a b c : GReg) (s : State) : Out :=
  instr uEA false [.rd b, .rd c, .wr a] (fbin a b c fun rm x y => fSub .fp32 rm x y) s
/-- FMUL (R144). -/
def execFmul (a b c : GReg) (s : State) : Out :=
  instr uEA false [.rd b, .rd c, .wr a] (fbin a b c fun rm x y => fMul .fp32 rm x y) s
/-- FDIV (R144). -/
def execFdiv (a b c : GReg) (s : State) : Out :=
  instr uEA false [.rd b, .rd c, .wr a] (fbin a b c fun rm x y => fDiv .fp32 rm x y) s
/-- FMIN (R144, R13). -/
def execFmin (a b c : GReg) (s : State) : Out :=
  instr uEA false [.rd b, .rd c, .wr a] (fbin a b c fun _ x y => fMin .fp32 x y) s
/-- FMAX (R144, R13). -/
def execFmax (a b c : GReg) (s : State) : Out :=
  instr uEA false [.rd b, .rd c, .wr a] (fbin a b c fun _ x y => fMax .fp32 x y) s
/-- FFMA: field a is its addend, read last (R144, R41). -/
def execFfma (a b c : GReg) (s : State) : Out :=
  instr uEA false [.rd b, .rd c, .rd a, .wr a] (do
    let x ← readG b
    let y ← readG c
    let z ← readG a
    fres a (fFma .fp32 (← getRm) (lo32 x) (lo32 y) (lo32 z))) s
/-- FEQ (R144). -/
def execFeq (a b c : GReg) (s : State) : Out :=
  instr uEA false [.rd b, .rd c, .wr a] (fcmp a b c false eqV) s
/-- FLT (R144). -/
def execFlt (a b c : GReg) (s : State) : Out :=
  instr uEA false [.rd b, .rd c, .wr a] (fcmp a b c true ltV) s
/-- FLE (R144). -/
def execFle (a b c : GReg) (s : State) : Out :=
  instr uEA false [.rd b, .rd c, .wr a] (fcmp a b c true (fun x y => ltV x y || eqV x y)) s
/-- FSQRT (R144). -/
def execFsqrt (a b : GReg) (s : State) : Out :=
  instr uEA false [.rd b, .wr a] (fun1 a b fun rm x => fSqrt .fp32 rm (lo32 x)) s
/-- FNEG, no flags (R144). -/
def execFneg (a b : GReg) (s : State) : Out :=
  instr uEA false [.rd b, .wr a] (fun1 a b fun _ x => ⟨lo32 x ^^^ 0x80000000, 0⟩) s
/-- FABS, no flags (R144). -/
def execFabs (a b : GReg) (s : State) : Out :=
  instr uEA false [.rd b, .wr a] (fun1 a b fun _ x => ⟨lo32 x &&& 0x7FFFFFFF, 0⟩) s
/-- FCLASS, no flags (R144). -/
def execFclass (a b : GReg) (s : State) : Out :=
  instr uEA false [.rd b, .wr a] (fun1 a b fun _ x => ⟨fClass .fp32 (lo32 x), 0⟩) s
/-- FCVT.W.S: SignExt(i32, 32) (R145, R23). -/
def execFcvtWS (a b : GReg) (s : State) : Out :=
  instr uEA false [.rd b, .wr a] (fun1 a b fun rm x => intRes (toInt rm 32 true (decodeF .fp32 (lo32 x))) 64) s
/-- FCVT.L.S (R145). -/
def execFcvtLS (a b : GReg) (s : State) : Out :=
  instr uEA false [.rd b, .wr a] (fun1 a b fun rm x => intRes (toInt rm 64 true (decodeF .fp32 (lo32 x))) 64) s
/-- FCVT.S.W (R145). -/
def execFcvtSW (a b : GReg) (s : State) : Out :=
  instr uEA false [.rd b, .wr a] (fun1 a b fun rm x => ofInt .fp32 rm (sInt 32 x.toNat)) s
/-- FCVT.S.L (R145). -/
def execFcvtSL (a b : GReg) (s : State) : Out :=
  instr uEA false [.rd b, .wr a] (fun1 a b fun rm x => ofInt .fp32 rm x.toInt) s
/-- FCVT.WU.S: ZeroExt(u32, 32) (R145). -/
def execFcvtWuS (a b : GReg) (s : State) : Out :=
  instr uEA false [.rd b, .wr a] (fun1 a b fun rm x => intRes (toInt rm 32 false (decodeF .fp32 (lo32 x))) 64) s
/-- FCVT.S.WU (R145). -/
def execFcvtSWu (a b : GReg) (s : State) : Out :=
  instr uEA false [.rd b, .wr a] (fun1 a b fun rm x => ofInt .fp32 rm (lo32 x : Int)) s
/-- FCVT.BF.S (R145). -/
def execFcvtBfS (a b : GReg) (s : State) : Out :=
  instr uEA false [.rd b, .wr a] (fun1 a b fun rm x => cvtF .fp32 .bf16 rm (lo32 x)) s
/-- FCVT.S.BF (R145). -/
def execFcvtSBf (a b : GReg) (s : State) : Out :=
  instr uEA false [.rd b, .wr a] (fun1 a b fun rm x => cvtF .bf16 .fp32 rm (x.toNat % 65536)) s
/-- FCVT.H.S (R145). -/
def execFcvtHS (a b : GReg) (s : State) : Out :=
  instr uEA false [.rd b, .wr a] (fun1 a b fun rm x => cvtF .fp32 .f16 rm (lo32 x)) s
/-- FCVT.S.H (R145). -/
def execFcvtSH (a b : GReg) (s : State) : Out :=
  instr uEA false [.rd b, .wr a] (fun1 a b fun rm x => cvtF .f16 .fp32 rm (x.toNat % 65536)) s

end Sys2Proof.Machine
end

