-- ==== Sys2Proof/Machine/Mem.lean ====
section
/-! DEFINITION. Machine/Mem.lean: local loads, stores and atomics (R132 to R134) and the issue of global accesses
(R135 to R139). -/
namespace Sys2Proof.Machine

/-! ### Local loads and stores (R133) -/

def nearAddr (b : GReg) (imm : Word) (n : Nat) : M Word := do return (← readG b) + imm * BitVec.ofNat 64 n
def loadOp (a b : GReg) (imm : Word) (n : Nat) (signed : Bool) : M Next := do
  let v ← loadNear (← nearAddr b imm n) n
  writeResult a (if signed then signExt (8 * n) v else zeroExt (8 * n) v)
  return .seq
/-- A store, performed by `put`. -/
def storeBy (put : Word → Nat → Nat → M Unit) (a b : GReg) (imm : Word) (n : Nat) : M Next := do
  let x ← nearAddr b imm n
  let v ← readG a
  put x n (v.toNat % 2 ^ (8 * n))
  return .seq
def storeOp (a b : GReg) (imm : Word) (n : Nat) : M Next := storeBy storeNear a b imm n
/-- A local atomic: old value sign-extended (R134). -/
def amoOp (op : AmoOp) (n : Nat) (a b c : GReg) : M Next := do
  let x ← readG b
  let y ← readG c
  let old ← amoNear op n x (y.toNat % 2 ^ (8 * n)) 0 (destReady a)
  writeResult a (signExt (8 * n) old)
  return .seq
/-- AMOCAS.D: G[c+1] when old == G[c] (R134). -/
def casOp (a b c : GReg) : M Next := do
  let x ← readG b
  let (y, z) ← readPair c
  let old ← amoNear .cas 8 x y.toNat z.toNat (destReady a)
  writeResult a (BitVec.ofNat 64 old)
  return .seq

/-! ### Global accesses (R136 to R139) -/

/-- The checks of R136 for an access of `n` bytes. -/
def globalCheck (a : Word) (n : Nat) : M Unit := do
  guardA (decide (2 ^ 32 ≤ a.toNat)) 0x080 1 a
  guardA (decide (a.toNat < 2 ^ 57)) 0x080 2 a
  guardA (a.toNat % n == 0) 0x080 3 a
/-- A buffered GST of the speculative body covers the bytes (R86, R101). -/
def heldGst (s : State) (a : Word) (n : Nat) : Bool := match farTask s with
  | some t => t.obuf.any fun o => match o with
    | .gst _ _ x bs => overlap x.toNat (x.toNat + bs.length) a.toNat (a.toNat + n)
    | _ => false
  | none => false
def pidOf (s : State) (c : Coord) : BitVec 20 := match launchOf s c with
  | some l => l.pid
  | none => 0
def sendGlobal (s : State) (o : Origin) (a : Word) (k : GKind) : State :=
  { s with
    gnet := s.gnet ++ [{ id := s.nextId, origin := o, pid := pidOf s o.core, addr := a, kind := k, held := false,
                         granted := none, since := 0, reply := none }]
    nextId := s.nextId + 1 }
/-- Issue a GLD or GAMO: ld charged, destination reserved (R137, R120, R127). The write of its data to lq is a push, which the stream's
earlier stores precede (R263). -/
def globalLoad (a : GReg) (x : Word) (k : GKind) : M Unit := do
  let s ← get
  let t := threadOf s
  (match a with
    | .g n => stallIf (locked t n)
    | .sp _ => do
      stallIf (decide (16 ≤ (slotOf s).lq.length) || !t.sbuf.isEmpty)
      modSlot fun y => { y with lq := y.lq ++ [.reserved s.nextId] })
  stallIf (decide (63 ≤ t.ld))
  let l : GLoad := ⟨s.nextId, t.pc, x, a, none, none, false, false⟩
  modThread fun t => { t with ld := t.ld + 1, gld := t.gld ++ [l] }
  set (sendGlobal (← get) (reqOrigin s s.cur) x k)
def gldOp (a b : GReg) (imm : Word) (n : Nat) : M Next := do
  let x ← nearAddr b imm n
  globalCheck x n
  stallIf (heldGst (← get) x n)
  globalLoad a x (.load n)
  return .seq
def gstOp (a b : GReg) (imm : Word) (n : Nat) : M Next := do
  let x ← nearAddr b imm n
  let v ← readG a
  globalCheck x n
  let s ← get
  let bs := leBytes n v.toNat
  if isSpec s then hold (.gst (unitSide s.cur.unit) (pcOf s) x bs)
  else post .global x fun o s => sendGlobal s o x (.store bs)
  return .seq
def gamoOp (op : AmoOp) (a b c : GReg) : M Next := do
  let x ← readG b
  let y ← readG c
  globalCheck x 8
  stallIfSpec
  globalLoad a x (.amo op y 0)
  return .seq
def gcasOp (a b c : GReg) : M Next := do
  let x ← readG b
  let (y, z) ← readPair c
  globalCheck x 8
  stallIfSpec
  globalLoad a x (.amo .cas y z)
  return .seq
/-- The length that PREF and MSCFL act on (R139). -/
def lineLen (w : Word) : Nat := min w.toNat 0x200000

/-- LD.B (R133). -/
def execLdB (a b : GReg) (imm : BitVec 28) (s : State) : Out := instr uEAN false [.rd b, .wr a] (loadOp a b (simm imm) 1 true) s
/-- ST.B: base read before data (R133). -/
def execStB (a b : GReg) (imm : BitVec 28) (s : State) : Out := instr uEAN false [.rd b, .rd a] (storeOp a b (simm imm) 1) s
/-- LDU.B (R133). -/
def execLduB (a b : GReg) (imm : BitVec 27) (s : State) : Out := instr uEAN false [.rd b, .wr a] (loadOp a b (simm imm) 1 false) s
/-- GLD.B (R135, R137). -/
def execGldB (a b : GReg) (imm : BitVec 27) (s : State) : Out := instr uA false [.limit (loadDest a), .rd b, .wr a] (gldOp a b (simm imm) 1) s
/-- GST.B (R135, R138). -/
def execGstB (a b : GReg) (imm : BitVec 27) (s : State) : Out := instr uA false [.rd b, .rd a] (gstOp a b (simm imm) 1) s
/-- LD.H (R133). -/
def execLdH (a b : GReg) (imm : BitVec 28) (s : State) : Out := instr uEAN false [.rd b, .wr a] (loadOp a b (simm imm) 2 true) s
/-- ST.H: base read before data (R133). -/
def execStH (a b : GReg) (imm : BitVec 28) (s : State) : Out := instr uEAN false [.rd b, .rd a] (storeOp a b (simm imm) 2) s
/-- LDU.H (R133). -/
def execLduH (a b : GReg) (imm : BitVec 27) (s : State) : Out := instr uEAN false [.rd b, .wr a] (loadOp a b (simm imm) 2 false) s
/-- GLD.H (R135, R137). -/
def execGldH (a b : GReg) (imm : BitVec 27) (s : State) : Out := instr uA false [.limit (loadDest a), .rd b, .wr a] (gldOp a b (simm imm) 2) s
/-- GST.H (R135, R138). -/
def execGstH (a b : GReg) (imm : BitVec 27) (s : State) : Out := instr uA false [.rd b, .rd a] (gstOp a b (simm imm) 2) s
/-- LD.W (R133). -/
def execLdW (a b : GReg) (imm : BitVec 28) (s : State) : Out := instr uEAN false [.rd b, .wr a] (loadOp a b (simm imm) 4 true) s
/-- ST.W: base read before data (R133). -/
def execStW (a b : GReg) (imm : BitVec 28) (s : State) : Out := instr uEAN false [.rd b, .rd a] (storeOp a b (simm imm) 4) s
/-- LDU.W (R133). -/
def execLduW (a b : GReg) (imm : BitVec 27) (s : State) : Out := instr uEAN false [.rd b, .wr a] (loadOp a b (simm imm) 4 false) s
/-- GLD.W (R135, R137). -/
def execGldW (a b : GReg) (imm : BitVec 27) (s : State) : Out := instr uA false [.limit (loadDest a), .rd b, .wr a] (gldOp a b (simm imm) 4) s
/-- GST.W (R135, R138). -/
def execGstW (a b : GReg) (imm : BitVec 27) (s : State) : Out := instr uA false [.rd b, .rd a] (gstOp a b (simm imm) 4) s
/-- LD.D (R133). -/
def execLdD (a b : GReg) (imm : BitVec 28) (s : State) : Out := instr uEAN false [.rd b, .wr a] (loadOp a b (simm imm) 8 true) s
/-- ST.D: base read before data (R133). -/
def execStD (a b : GReg) (imm : BitVec 28) (s : State) : Out := instr uEAN false [.rd b, .rd a] (storeOp a b (simm imm) 8) s
/-- GLD.D (R135, R137). -/
def execGldD (a b : GReg) (imm : BitVec 27) (s : State) : Out := instr uA false [.limit (loadDest a), .rd b, .wr a] (gldOp a b (simm imm) 8) s
/-- GST.D (R135, R138). -/
def execGstD (a b : GReg) (imm : BitVec 27) (s : State) : Out := instr uA false [.rd b, .rd a] (gstOp a b (simm imm) 8) s
/-- AmoaddW (R134). -/
def execAmoaddW (a b c : GReg) (s : State) : Out := instr uEA false [.rd b, .rd c, .wr a] (amoOp .add 4 a b c) s
/-- AmoaddD (R134). -/
def execAmoaddD (a b c : GReg) (s : State) : Out := instr uEA false [.rd b, .rd c, .wr a] (amoOp .add 8 a b c) s
/-- AmoswapW (R134). -/
def execAmoswapW (a b c : GReg) (s : State) : Out := instr uEA false [.rd b, .rd c, .wr a] (amoOp .swap 4 a b c) s
/-- AmoswapD (R134). -/
def execAmoswapD (a b c : GReg) (s : State) : Out := instr uEA false [.rd b, .rd c, .wr a] (amoOp .swap 8 a b c) s
/-- AmoandD (R134). -/
def execAmoandD (a b c : GReg) (s : State) : Out := instr uEA false [.rd b, .rd c, .wr a] (amoOp .and 8 a b c) s
/-- AmoorD (R134). -/
def execAmoorD (a b c : GReg) (s : State) : Out := instr uEA false [.rd b, .rd c, .wr a] (amoOp .or 8 a b c) s
/-- AmomaxD (R134). -/
def execAmomaxD (a b c : GReg) (s : State) : Out := instr uEA false [.rd b, .rd c, .wr a] (amoOp .max 8 a b c) s
/-- AmominD (R134). -/
def execAmominD (a b c : GReg) (s : State) : Out := instr uEA false [.rd b, .rd c, .wr a] (amoOp .min 8 a b c) s
/-- AMOCAS.D (R134). -/
def execAmocasD (a b c : GReg) (s : State) : Out := instr uEA false [.rd b, .pair c, .wr a] (casOp a b c) s
/-- GAMO.ADD (R137). -/
def execGamoAdd (a b c : GReg) (s : State) : Out := instr uA false [.limit (loadDest a), .rd b, .rd c, .wr a] (gamoOp .add a b c) s
/-- GAMO.SWAP (R137). -/
def execGamoSwap (a b c : GReg) (s : State) : Out := instr uA false [.limit (loadDest a), .rd b, .rd c, .wr a] (gamoOp .swap a b c) s
/-- GAMO.AND (R137). -/
def execGamoAnd (a b c : GReg) (s : State) : Out := instr uA false [.limit (loadDest a), .rd b, .rd c, .wr a] (gamoOp .and a b c) s
/-- GAMO.OR (R137). -/
def execGamoOr (a b c : GReg) (s : State) : Out := instr uA false [.limit (loadDest a), .rd b, .rd c, .wr a] (gamoOp .or a b c) s
/-- GAMO.MAX (R137). -/
def execGamoMax (a b c : GReg) (s : State) : Out := instr uA false [.limit (loadDest a), .rd b, .rd c, .wr a] (gamoOp .max a b c) s
/-- GAMO.MIN (R137). -/
def execGamoMin (a b c : GReg) (s : State) : Out := instr uA false [.limit (loadDest a), .rd b, .rd c, .wr a] (gamoOp .min a b c) s
/-- GAMO.CAS (R137). -/
def execGamoCas (a b c : GReg) (s : State) : Out := instr uA false [.limit (loadDest a), .rd b, .pair c, .wr a] (gcasOp a b c) s
/-- PREF: no check, no count, no fault (R139). -/
def execPref (b c : GReg) (s : State) : Out := instr uA false [.rd b, .rd c] (do
  let x ← readG b
  let n ← readG c
  if n = 0 then return .seq
  let s ← get
  set (sendGlobal s (reqOrigin s s.cur) x (.pref (lineLen n)))
  return .seq) s
/-- MSCFL: posted, faults as GST (R139). -/
def execMscfl (b c : GReg) (s : State) : Out := instr uA false [.rd b, .rd c] (do
  let x ← readG b
  let n ← readG c
  globalCheck x 1
  post .global x fun o s => sendGlobal s o x (.mscfl (lineLen n))
  return .seq) s

end Sys2Proof.Machine
end

