-- ==== Sys2Proof/Machine/Control.lean ====
section
/-! DEFINITION. Machine/Control.lean: branches, jumps, calls and landing pads (R146 to R150), AGO and AEND (R151, R152),
MOVQ and QLEVEL (R153, R154), WAIT (R155, R156). -/
namespace Sys2Proof.Machine

/-- PC + 2·disp (R34). -/
def target (s : State) (d : Word) : Word := pcOf s + d * 2
/-- A branch: b is read before a, and A is the left operand (R146). -/
def branch (a b : GReg) (disp : BitVec 15) (p : Word → Word → Bool) : M Next := do
  let y ← readG b
  let x ← readG a
  let s ← get
  return if p x y then .jump (target s (simm disp)) else .seq
/-- BR.EQ (R146). -/
def execBrEq (a b : GReg) (disp : BitVec 15) (s : State) : Out :=
  instr uEAN false [.rd b, .rd a] (branch a b disp fun x y => x == y) s
/-- BR.NE (R146). -/
def execBrNe (a b : GReg) (disp : BitVec 15) (s : State) : Out :=
  instr uEAN false [.rd b, .rd a] (branch a b disp fun x y => x != y) s
/-- BR.LT (R146). -/
def execBrLt (a b : GReg) (disp : BitVec 15) (s : State) : Out :=
  instr uEAN false [.rd b, .rd a] (branch a b disp fun x y => x.slt y) s
/-- BR.GE (R146). -/
def execBrGe (a b : GReg) (disp : BitVec 15) (s : State) : Out :=
  instr uEAN false [.rd b, .rd a] (branch a b disp fun x y => !x.slt y) s
/-- BR.LTU (R146). -/
def execBrLtu (a b : GReg) (disp : BitVec 15) (s : State) : Out :=
  instr uEAN false [.rd b, .rd a] (branch a b disp fun x y => x.ult y) s
/-- BR.GEU (R146). -/
def execBrGeu (a b : GReg) (disp : BitVec 15) (s : State) : Out :=
  instr uEAN false [.rd b, .rd a] (branch a b disp fun x y => !x.ult y) s
/-- BR.POP: pops bo, whose consumer must execute it (R147). -/
def execBrPop (disp : BitVec 15) (s : State) : Out :=
  instr uEA false [.rd (.sp 4)] (do
    let w ← popQ 4
    let s ← get
    return if w = 0 then .seq else .jump (target s (simm disp))) s
/-- J (R148). -/
def execJ (disp : BitVec 23) (s : State) : Out :=
  instr uEAN false [] (do return .jump (target (← get) (simm disp))) s
/-- The link: the address after the whole chain (R148, R149). -/
def link (s : State) : Word := pcOf s + BitVec.ofNat 64 (lenOf s)
/-- CALL: dead registers marked before g1 is written (R148, R113). -/
def execCall (disp : BitVec 23) (s : State) : Out :=
  instr uEA false [] (do
    markDead
    writeG (.g 1) (link s)
    return .jump (target s (simm disp))) s
/-- The landing-pad checks of R149, as a trap of the transfer. -/
def needPad (t : Word) (kind : Nat) : M Unit := do
  let s ← get
  match padCheck (coreAt s s.cur.core) (threadOf s) t kind with
  | some (w, a, f) => stop (.trap w a f)
  | none => pure ()
/-- JR (R149). -/
def execJr (a : GReg) (s : State) : Out :=
  instr uEA false [.rd a] (do
    let t ← readG a
    needPad t 0
    return .jump t) s
/-- CALLR (R149). -/
def execCallr (a : GReg) (s : State) : Out :=
  instr uEA false [.rd a] (do
    let t ← readG a
    needPad t 1
    markDead
    writeG (.g 1) (link s)
    return .jump t) s
/-- RET: no landing pad (R149). -/
def execRet (a : GReg) (s : State) : Out :=
  instr uEA false [.rd a] (do
    let t ← readG a
    guardA (!t.getLsbD 0) 0x041 0 t
    markDead
    return .jump t) s
/-- PAD.J (R150). -/
def execPadJ (s : State) : Out := instr uEAN false [] (pure .seq) s
/-- PAD.C (R150). -/
def execPadC (s : State) : Out := instr uEAN false [] (pure .seq) s
/-- PAD.K (R150). -/
def execPadK (s : State) : Out := instr uEAN false [] (pure .seq) s
/-- PAD.N (R150). -/
def execPadN (s : State) : Out := instr uEAN false [] (pure .seq) s
/-- PAD.F (R150). -/
def execPadF (s : State) : Out := instr uEAN false [] (pure .seq) s
/-- PAD.T (R150). -/
def execPadT (s : State) : Out := instr uEAN false [] (pure .seq) s

/-! ### The access stream (R151, R152) -/

/-- The access stream's registers at AGO: g3 to g7 from the execute stream with their dead state, the others dead. -/
def agoThread (e : Thread) (t : Word) (a : Thread) : Thread :=
  { a with g := Vector.ofFn fun i => if 3 ≤ i.val ∧ i.val ≤ 7 then e.g[i] else a.g[i]
           dead := 0xFFFFFF06 ||| (e.dead &&& 0xF8), pc := t, running := true }
/-- AGO (R151); refused while the slot is Trapped (R276), whatever its STATUS says (log 57). -/
def execAgo (b : GReg) (s : State) : Out :=
  instr uE false [.rd b] (do
    guardD ((slotOf s).st != .trapped) 0x002 5
    let i := slotNo s.cur.unit
    stallIf (threadAt (coreAt s s.cur.core) (.stream i .acc)).running
    let t ← readG b
    needPad t 0
    modSlot fun x => { x with bo := [], boProd := none }
    let e ← getThread
    modCore fun k => mapThread k (.stream i .acc) (agoThread e t)
    return .seq) s
/-- A deferred report's subcode: bit 6 set, the cause's own below (R142). -/
def deferSub (w : Why) : Why := { w with sub := 0x40 ||| (w.sub &&& 0x3F) }
/-- Report the oldest failed posted entry of the streams `f` names, on its own stream (R142); none while the slot is
Trapped (R274). -/
def reportPosted (f : Side → Bool) : M Unit := do
  let x ← getSlot
  match (if x.st = .trapped then none else x.posted.find? fun p => f p.side && p.failed.isSome && !p.told) with
  | some p => match p.failed with
    | some w => do stop (.deferred p.side (deferSub w) p.addr p.pc (wordsFound (← getCore) p.pc) (.posted p.seq))
    | none => pure ()
  | none => pure ()
/-- AEND (R152). -/
def execAend (s : State) : Out :=
  instr uA false [] (do
    let t ← getThread
    stallIf (decide (t.ld ≠ 0))
    reportPosted (· == .acc)
    modThread fun t => { t with running := false }
    return .seq) s

/-! ### Queues (R153, R154) -/

def moveWords (dst src : Nat) : Nat → M Unit
  | 0 => pure ()
  | n + 1 => do
    pushQ dst (← popQ src)
    moveWords dst src n
/-- Both fields of MOVQ name a queue, a port or the mailbox, and not the same one (R153). -/
def movqOk (a b : GReg) : Bool := (queueCode a).isSome && (queueCode b).isSome && a != b
/-- MOVQ: n + 1 words in one step (R153). -/
def execMovq (a b : GReg) (n : Lit3) (s : State) : Out :=
  instr uEA false [.limit (movqOk a b), .rd b, .wr a] (do
    match queueCode a, queueCode b with
    | some x, some y =>
      moveWords x y (n.toNat + 1)
      return .seq
    | _, _ => trapD 0x002 5) s
/-- QLEVEL: either side, no pop (R154). -/
def execQlevel (a b : GReg) (s : State) : Out :=
  instr uEA false [.limit (queueCode b).isSome, .name b, .wr a] (do
    match queueCode b with
    | some y =>
      writeResult a (BitVec.ofNat 64 (queueWords (← getCore) (← getSlot) y).length)
      return .seq
    | none => trapD 0x002 5) s

/-! ### WAIT (R155, R156) -/

/-- The counter is within the limit; 7 is "don't care". -/
def within (limit : Lit3) (n : Nat) : Bool := limit == 7 || decide (n ≤ limit.toNat)
/-- WAIT: a st field other than 7 reports failed posted entries first (R156, R142); an Ibex unit tests bk only (R110). -/
def execWait (ld st bk mx : Lit3) (s : State) : Out :=
  instr uEAN false [] (do
    let t ← getThread
    if isIbex s.cur.unit then
      stallIf (!within bk t.bk)
      return .seq
    if st != 7 then reportPosted (· == unitSide s.cur.unit)
    stallIf (!(within ld t.ld && within st t.st && within bk t.bk && within mx t.mx))
    return .seq) s

end Sys2Proof.Machine
end

