-- ==== Sys2Proof/Machine/Vector.lean ====
section
/-! DEFINITION. Machine/Vector.lean: the vector instructions (R159 to R178). -/
namespace Sys2Proof.Machine

/-! ### Vector state (R159 to R161) -/

/-- VTYPE with VL, decoded. -/
structure VT where
  sew : Nat
  grp : Nat
  fp : Bool
  fpk : Nat
  ta : Bool
  ma : Bool
  vl : Nat
  deriving DecidableEq, Repr
def vtFields (v : Word) (vl : Nat) : VT :=
  { sew := 8 * 2 ^ bits v 1 0, grp := 2 ^ bits v 3 2, fp := v.getLsbD 6, fpk := bits v 5 4, ta := v.getLsbD 7,
    ma := v.getLsbD 8, vl := vl }
/-- (512 / SEW) × group: MaxLen of R165. -/
def maxLen (t : VT) : Nat := 512 / t.sew * t.grp
/-- Unsupported of R161. -/
def unsupported (v : Word) : Bool :=
  let t := vtFields v 0
  decide (512 ≤ v.toNat) || t.fpk == 3 || (!t.fp && t.fpk != 0) || (t.fp && t.fpk == 0 && t.sew != 32) ||
    (t.fp && t.fpk != 0 && t.sew != 16)
/-- The FP format of VTYPE. -/
def vFmt (t : VT) : Fmt := if t.fpk = 1 then .bf16 else if t.fpk = 2 then .f16 else .fp32
/-- VTYPE of the issuing slot; VILL traps (R161). -/
def getVt : M VT := do
  let x ← getSlot
  guardD (!x.vtype.getLsbD 63) 0x002 5
  return vtFields x.vtype x.vl.toNat
/-- The group EG of an operand of element width w (R160). -/
def egOf (t : VT) (w : Nat) : Nat := max 1 ((t.grp * w + t.sew - 1) / t.sew)
/-- Check 10: every group ends by v31 (R42). -/
def groupCheck (l : List (VReg × Nat)) : M Unit := guardD (l.all fun p => decide (p.1.toNat + p.2 ≤ 32)) 0x006 0
/-- The overlap check of R163. -/
def apart (a : VReg) (ca : Nat) (b : VReg) (cb : Nat) : M Unit :=
  guardD (!overlap a.toNat (a.toNat + ca) b.toNat (b.toNat + cb)) 0x002 5
/-- The bit string of a group (R160). -/
def groupOf (x : Slot) (n : Nat) : Nat → Nat
  | 0 => 0
  | c + 1 => (x.v[n]!).toNat + 2 ^ 512 * groupOf x (n + 1) c
def vGet (n : VReg) (c : Nat) : M Nat := do return groupOf (← getSlot) n.toNat c
/-- Write a bit string to a group. -/
def setGroup (x : Slot) (n v : Nat) : Nat → Slot
  | 0 => x
  | c + 1 => setGroup { x with v := x.v.set! n (BitVec.ofNat 512 v) } (n + 1) (v / 2 ^ 512) c
def vPut (n : VReg) (c v : Nat) : M Unit := modSlot fun x => setGroup x n.toNat v c
/-- Element i of width w. -/
def elemOf (w v i : Nat) : Nat := v / 2 ^ (w * i) % 2 ^ w
/-- The bit string whose elements are `f 0`, `f 1`, …, `n` of them. -/
def packElems (w : Nat) (f : Nat → Nat) : Nat → Nat
  | 0 => 0
  | n + 1 => packElems w f n + f n % 2 ^ w * 2 ^ (w * n)
/-- m0 reads as all ones (R159). -/
def maskOf (x : Slot) (m : MReg) : BitVec 512 := if m = 0 then BitVec.allOnes 512 else x.m[m.toNat]'m.isLt
def setMask (x : Slot) (m : MReg) (v : BitVec 512) : Slot := if m = 0 then x else { x with m := x.m.set m.toNat v m.isLt }
/-- The active elements, ascending (R162). -/
def active (t : VT) (mask : BitVec 512) : List Nat := (List.range t.vl).filter fun i => mask.getLsbD i
/-- Element i of a destination by R162: `r` where active. -/
def destElem (t : VT) (mask : BitVec 512) (w old : Nat) (r : Nat → Nat) (i : Nat) : Nat :=
  if i < t.vl then (if mask.getLsbD i then r i else if t.ma then 2 ^ w - 1 else elemOf w old i)
  else if t.ta then 2 ^ w - 1 else elemOf w old i
/-- A destination group of `c` registers of elements of width w, with the bits past its last whole element kept. -/
def destGroup (t : VT) (mask : BitVec 512) (w c old : Nat) (r : Nat → Nat) : Nat :=
  let n := 512 * c / w
  packElems w (destElem t mask w old r) n + old / 2 ^ (w * n) * 2 ^ (w * n)
/-- The flags of the active elements together (R164). -/
def flagsOf (l : List Nat) (r : Nat → Fr Nat) : Flags := l.foldl (fun f i => f ||| (r i).f) 0
/-- Write the active results to a group by R162, after their flags (R17); VL = 0 changes nothing. -/
def vWrite (t : VT) (w : Nat) (a : VReg) (c : Nat) (vm : MReg) (r : Nat → Fr Nat) : M Unit := do
  let mask := maskOf (← getSlot) vm
  raiseFlags (flagsOf (active t mask) r)
  let old ← vGet a c
  if t.vl = 0 then pure () else vPut a c (destGroup t mask w c old fun i => (r i).v)
/-- Write a mask destination by R162. -/
def mWrite (t : VT) (a vm : MReg) (r : Nat → Fr Bool) : M Unit := do
  let x ← getSlot
  let mask := maskOf x vm
  raiseFlags ((active t mask).foldl (fun f i => f ||| (r i).f) 0)
  if t.vl = 0 then pure ()
  else modSlot fun x =>
    setMask x a (BitVec.ofNat 512 (packElems 1 (destElem t mask 1 (maskOf x a).toNat fun i => if (r i).v then 1 else 0) 512))
def exact (v : Nat) : Fr Nat := ⟨v, 0⟩

/-! ### SETVL (R165) -/

def setVl (a : GReg) (vt : Word) (avl : Option Word) : M Unit :=
  if unsupported vt then do
    modSlot fun x => { x with vtype := (1 : Word) <<< 63, vl := 0 }
    writeResult a 0
  else do
    let m := maxLen (vtFields vt 0)
    let n := match avl with
      | some w => min w.toNat m
      | none => m
    modSlot fun x => { x with vtype := vt, vl := BitVec.ofNat 10 n }
    writeResult a (BitVec.ofNat 64 n)
/-- The requested length: MaxLen where field b is g0. -/
def readAvl (b : GReg) : M (Option Word) := if b = .g 0 then pure none else do return some (← readG b)
/-- SETVL (R165). -/
def execSetvl (a b : GReg) (t : BitVec 15) (s : State) : Out :=
  instr uV false [.rd b, .wr a] (do
    setVl a (zimm t) (← readAvl b)
    return .seq) s
/-- SETVLR (R165). -/
def execSetvlr (a b c : GReg) (s : State) : Out :=
  instr uV false [.rd b, .rd c, .wr a] (do
    let n ← readAvl b
    setVl a (← readG c) n
    return .seq) s

/-! ### Loads and stores (R166 to R169) -/

/-- The first active element whose address a check refuses. -/
def firstBad (s : State) (acc : Acc) (n : Nat) (addr : Nat → Word) : List Nat → Option (Nat × Why)
  | [] => none
  | i :: r => match reach s (addr i) n acc with
    | .error w => some (i, w)
    | .ok _ => firstBad s acc n addr r
/-- The check that the home makes of an element in the anchor view (R84). -/
def viewFail (s : State) (acc : Acc) (n : Nat) (a : Word) : Option Why := match place s a n with
  | .view t x => (rangeCheck (pageLocal (coreAt s t.home) (userMode s) acc) x (x + n)).map (·.1)
  | _ => none
/-- The first active element that fails its checks, where one fails before anything is asked of another core. -/
def checkFail (s : State) (acc : Acc) (n : Nat) (addr : Nat → Word) (act : List Nat) : Option (Nat × Why) :=
  (firstBad s acc n addr act).map fun p =>
    ((act.filter (decide <| · < p.1)).findSome? fun j => (viewFail s acc n (addr j)).map fun w => (j, w)).getD p
/-- Issue every request, then wait for every answer. -/
def remoteAll (rs : List Req) : M (List Ans) := do
  let s ← get
  match rs.find? fun r => !asked s r with
  | some r => stop (.issue r [] (threadOf s).rcd)
  | none => rs.mapM remote
/-- The request that reads an element elsewhere. -/
def elemReq (s : State) (n : Nat) : Reach → Option Req
  | .own _ => none
  | .view t x => some (.viewLoad t.home t.entry x n (userMode s))
  | .window d x => some (.load d x n)
/-- An element's own line is in a write range (R121). -/
def elemHeld (s : State) (n : Nat) : Reach → Bool
  | .own x => scoreW (coreAt s s.cur.core) x (x + n)
  | _ => false
/-- The stream's own stores to the elements' bytes take effect before the load reads them (R101). -/
def forwardElems (n : Nat) : List Reach → M Unit
  | [] => pure ()
  | .own x :: r => do
    forwardOwn x n
    forwardElems n r
  | _ :: r => forwardElems n r
/-- An element whose read was refused, in the anchor view or through the window. -/
structure Refused where
  elem : Nat
  view : Bool
  why : Why
  addr : Word
  deriving DecidableEq, Repr
/-- The refusals among the elements' answers, by element. -/
def refusedOf (s : State) (n : Nat) (at_ : Nat → Reach) (an : List (Req × Ans)) : List Nat → List Refused
  | [] => []
  | i :: r =>
    match an.find? fun p => elemReq s n (at_ i) == some p.1 with
    | some (q, .refused w a) => ⟨i, isView q, w, a⟩ :: refusedOf s n at_ an r
    | _ => refusedOf s n at_ an r
/-- A poisoned word was read (R218), which is no refusal. -/
def isPoison (w : Why) : Bool := w.cause == 0x181
/-- The refusal of the lowest address. -/
def lowestRefused : List Refused → Option Refused
  | [] => none
  | x :: r => match lowestRefused r with
    | some y => some (if y.addr.toNat < x.addr.toNat then y else x)
    | none => some x
/-- The refusal that a load traps with: the home's checks come first, by element, then the lowest refused address (R167). -/
def loadRefusal (l : List Refused) : Option Refused :=
  (l.find? fun r => r.view && !isPoison r.why).or (lowestRefused (l.filter fun r => !isPoison r.why))
def trapRefused : Option Refused → M Unit
  | some r => trapW r.why r.addr
  | none => pure ()
def ansOf (an : List (Req × Ans)) (q : Option Req) : Word :=
  match an.find? fun p => q == some p.1 with
  | some (_, .value v) => v
  | _ => 0
/-- The poisoned words among the elements below `k` (R218). -/
def poisonAmong (s : State) (n : Nat) (at_ : Nat → Reach) (l : List Refused) (act : List Nat) : List Refused :=
  (l.filter fun r => isPoison r.why && act.contains r.elem) ++ act.filterMap fun i => match at_ i with
    | .own x => (poisonIn (coreAt s s.cur.core) x n).map fun p => ⟨i, false, why 0x181 1, BitVec.ofNat 64 p⟩
    | _ => none
/-- The elements that a load reads, and whether it goes on with fewer (R168): with `ff`, the first refused element ends
them, where that is not element 0. -/
def loadLimit (ff : Bool) (bad : Option (Nat × Why)) (addr : Nat → Word) (l : List Refused) (vl : Nat) : M Nat :=
  match bad, loadRefusal l, l.find? fun r => !isPoison r.why with
  | some (i, w), _, none => if ff && i != 0 then pure i else trapW w (addr i)
  | some (i, w), _, some r => if ff && r.elem != 0 then pure (min i r.elem) else trapW w (addr i)
  | none, some x, some r => if ff && r.elem != 0 then pure r.elem else trapW x.why x.addr
  | none, _, _ => pure vl
/-- The values of the elements: own memory is read, elsewhere the answer taken. -/
def readElems (s : State) (n : Nat) (at_ : Nat → Reach) (an : List (Req × Ans)) : List Nat → M (List (Nat × Nat))
  | [] => pure []
  | i :: r => do
    let v ← match at_ i with
      | .own x => readOwn x n
      | .view t x => do
        seenView t.home x n
        pure (ansOf an (elemReq s n (.view t x))).toNat
      | p => pure (ansOf an (elemReq s n p)).toNat
    return (i, v) :: (← readElems s n at_ an r)
/-- VLD, VLDS, VLDX, and VLDFF where `ff` (R167, R168). -/
def vLoad (a : VReg) (vm : MReg) (t : VT) (addr : Nat → Word) (ff : Bool) : M Unit := do
  let s ← get
  let n := t.sew / 8
  let act := active t (maskOf (slotOf s) vm)
  let bad := checkFail s aRead n addr act
  let k ← loadLimit ff bad addr [] t.vl
  let at_ (i : Nat) : Reach := place s (addr i) n
  let act := act.filter (decide <| · < k)
  stallEntry (act.any fun i => elemHeld s n (at_ i))
  stallIf (act.any fun i => loadWaits s (at_ i) n)
  forwardElems n (act.map at_)
  let reqs := act.filterMap fun i => elemReq s n (at_ i)
  let an := reqs.zip (← remoteAll reqs)
  let l := refusedOf s n at_ an act
  let k ← loadLimit ff bad addr l t.vl
  let act := act.filter (decide <| · < k)
  trapRefused (lowestRefused (poisonAmong s n at_ l act))
  let vs ← readElems s n at_ an act
  if k < t.vl then modSlot fun x => { x with vl := BitVec.ofNat 10 k }
  vWrite { t with vl := k } t.sew a t.grp vm fun i => exact ((vs.find? fun e => e.1 == i).elim 0 (·.2))
/-- The core and offset of an element's bytes, by whichever address it names them. -/
def bytesOf (s : State) : Reach → Coord × Nat
  | .own x => (s.cur.core, x)
  | .view t x => (t.home, x)
  | .window d x => (d, x)
/-- An element's bytes are those of a higher element that goes another way, whose value remains (R167). -/
def shadowed (s : State) (n : Nat) (addr : Nat → Word) (act : List Nat) (p : Reach → Bool) (i : Nat) : Bool :=
  act.any fun j => decide (i < j) && p (place s (addr j) n) && bytesOf s (place s (addr j) n) == bytesOf s (place s (addr i) n)
def inOwn : Reach → Bool
  | .own _ => true
  | _ => false
def inAnchor : Reach → Bool
  | .view _ _ => true
  | _ => false
/-- The elements in the anchor view, in order. One that a higher element in own memory overwrites is checked and stores nothing. -/
def viewElems (s : State) (n : Nat) (addr : Nat → Word) (v : Nat → Nat) (act : List Nat) : List (Nat × List Byte) :=
  act.filterMap fun i => match place s (addr i) n with
    | .view _ x => some (x, if shadowed s n addr act inOwn i then [] else leBytes n (v i))
    | _ => none
/-- Write the elements that lie in own memory, or leave them in the stream's buffer where `late` (R262). -/
def vStoreOwn (late : Bool) (s : State) (n : Nat) (addr : Nat → Word) (v : Nat → Nat) : List Nat → M Unit
  | [] => pure ()
  | i :: r => do
    (match place s (addr i) n with
      | .own x => do
        dropEarly x n
        if late then modThread fun t => { t with sbuf := t.sbuf ++ [(x, leBytes n (v i))] } else writeOwn x n (v i)
      | _ => pure ())
    vStoreOwn late s n addr v r
/-- Every element lies in own memory. -/
def allOwn (s : State) (n : Nat) (addr : Nat → Word) (act : List Nat) : Bool := act.all fun i => inOwn (place s (addr i) n)
/-- The elements for other members, gathered by member in order. One that a higher element in the anchor view overwrites is checked
there and stores nothing. -/
def windowParts (s : State) (n : Nat) (addr : Nat → Word) (v : Nat → Nat) (act : List Nat) :
    List (Coord × List (Nat × List Byte)) :=
  let es := act.filterMap fun i => match place s (addr i) n with
    | .window d x => some (d, (x, if shadowed s n addr act inAnchor i then [] else leBytes n (v i)))
    | _ => none
  let ds := (es.map (·.1)).foldl (fun l d => if l.contains d then l else l ++ [d]) []
  ds.map fun d => (d, (es.filter fun e => e.1 == d).map (·.2))
/-- The lowest address among window elements, the address of the posted operation. -/
def firstWindow (s : State) (n : Nat) (addr : Nat → Word) : List Nat → Word
  | [] => 0
  | i :: r => match place s (addr i) n with
    | .window _ _ => addr i
    | _ => firstWindow s n addr r
/-- VST, VSTS and VSTX (R167). The elements in the anchor view are stored at the home in one step, and the stream completes the
instruction before it stops (R169, R273). A store that is to wait (`late`) does so where all of it is in own memory; otherwise it waits
for those that do (R262). -/
def vStore (late : Bool) (a : VReg) (vm : MReg) (t : VT) (addr : Nat → Word) : M Unit := do
  let s ← get
  let n := t.sew / 8
  let act := active t (maskOf (slotOf s) vm)
  let v := elemOf t.sew (groupOf (slotOf s) a.toNat t.grp)
  let waits := late && allOwn s n addr act
  let parts := windowParts s n addr v act
  let view := (farTask s).map fun f => (f, viewElems s n addr v act)
  let req := view.map fun p => Req.viewStore p.1.home p.1.entry (userMode s) p.2
  if !(req.any fun r => asked s r) then
    match checkFail s aWrite n addr act with
    | some (i, w) => trapW w (addr i)
    | none => pure ()
  stallEntry (act.any fun i => match place s (addr i) n with
    | .own x => scoreRW (coreAt s s.cur.core) x (x + n)
    | _ => false)
  stallIf (act.any fun i => storeWaits s (place s (addr i) n) n)
  stallIf ((!parts.isEmpty && !isSpec s && postedFull s) || (late && !waits && !(threadOf s).sbuf.isEmpty))
  storeView view
  if parts.isEmpty then pure () else storeWindow (firstWindow s n addr act) parts
  vStoreOwn waits s n addr v (act.filter fun i => !shadowed s n addr act inAnchor i)
def unitAddr (b : Word) (t : VT) (i : Nat) : Word := b + BitVec.ofNat 64 (i * (t.sew / 8))
/-- A unit-stride access. -/
def vUnit (a : VReg) (b : GReg) (f : VT → (Nat → Word) → M Unit) : M Next := do
  let t ← getVt
  groupCheck [(a, t.grp)]
  let x ← readG b
  f t (unitAddr x t)
  return .seq
/-- A strided access. -/
def vStride (a : VReg) (b c : GReg) (f : VT → (Nat → Word) → M Unit) : M Next := do
  let t ← getVt
  groupCheck [(a, t.grp)]
  let x ← readG b
  let d ← readG c
  f t fun i => x + BitVec.ofNat 64 i * d
  return .seq
/-- An indexed access. -/
def vIndexed (a : VReg) (b : GReg) (c : VReg) (f : VT → (Nat → Word) → M Unit) : M Next := do
  let t ← getVt
  groupCheck [(a, t.grp), (c, t.grp)]
  let x ← readG b
  let ix ← vGet c t.grp
  f t fun i => x + BitVec.ofNat 64 (elemOf t.sew ix i)
  return .seq
/-- VLD (R166, R167). -/
def execVld (a : VReg) (b : GReg) (vm : MReg) (s : State) : Out :=
  instr uV false [.rd b] (vUnit a b fun t ad => vLoad a vm t ad false) s
/-- VLDS (R166, R167). -/
def execVlds (a : VReg) (b c : GReg) (vm : MReg) (s : State) : Out :=
  instr uV false [.rd b, .rd c] (vStride a b c fun t ad => vLoad a vm t ad false) s
/-- VLDX (R166, R167). -/
def execVldx (a : VReg) (b : GReg) (c : VReg) (vm : MReg) (s : State) : Out :=
  instr uV false [.rd b] (vIndexed a b c fun t ad => vLoad a vm t ad false) s
/-- VLDFF (R168). -/
def execVldff (a : VReg) (b : GReg) (vm : MReg) (s : State) : Out :=
  instr uV false [.rd b] (vUnit a b fun t ad => vLoad a vm t ad true) s
/-- VST (R166, R167). -/
def execVst (a : VReg) (b : GReg) (vm : MReg) (s : State) : Out :=
  instr uV false [.rd b] (vUnit a b fun t ad => vStore false a vm t ad) s
/-- VSTS (R166, R167). -/
def execVsts (a : VReg) (b c : GReg) (vm : MReg) (s : State) : Out :=
  instr uV false [.rd b, .rd c] (vStride a b c fun t ad => vStore false a vm t ad) s
/-- VSTX (R166, R167). -/
def execVstx (a : VReg) (b : GReg) (c : VReg) (vm : MReg) (s : State) : Out :=
  instr uV false [.rd b] (vIndexed a b c fun t ad => vStore false a vm t ad) s

/-! ### Element-wise arithmetic (R170 to R173) -/

/-- vA = op(B, C, D) over two vector sources, D the old element. -/
def vvv (a b c : VReg) (vm : MReg) (fpOnly : Bool) (f : VT → Rm → Nat → Nat → Nat → Fr Nat) : M Next := do
  let t ← getVt
  guardD (!fpOnly || t.fp) 0x002 5
  groupCheck [(a, t.grp), (b, t.grp), (c, t.grp)]
  let x ← vGet b t.grp
  let y ← vGet c t.grp
  let z ← vGet a t.grp
  let rm ← getRm
  vWrite t t.sew a t.grp vm fun i => f t rm (elemOf t.sew x i) (elemOf t.sew y i) (elemOf t.sew z i)
  return .seq
/-- vA = op(B, S, D) with a scalar source. -/
def vvx (a b : VReg) (c : GReg) (vm : MReg) (fpOnly : Bool) (f : VT → Rm → Nat → Nat → Nat → Fr Nat) : M Next := do
  let t ← getVt
  guardD (!fpOnly || t.fp) 0x002 5
  groupCheck [(a, t.grp), (b, t.grp)]
  let y ← readG c
  let x ← vGet b t.grp
  let z ← vGet a t.grp
  let rm ← getRm
  vWrite t t.sew a t.grp vm fun i => f t rm (elemOf t.sew x i) (y.toNat % 2 ^ t.sew) (elemOf t.sew z i)
  return .seq
/-- vA = op(B). -/
def vv (a b : VReg) (vm : MReg) (f : VT → Rm → Nat → Fr Nat) : M Next := do
  let t ← getVt
  guardD t.fp 0x002 5
  groupCheck [(a, t.grp), (b, t.grp)]
  let x ← vGet b t.grp
  let rm ← getRm
  vWrite t t.sew a t.grp vm fun i => f t rm (elemOf t.sew x i)
  return .seq
/-- mA bit = p(B, C). -/
def vcmp (a : MReg) (b c : VReg) (vm : MReg) (fpOnly : Bool) (p : VT → Nat → Nat → Fr Bool) : M Next := do
  let t ← getVt
  guardD (!fpOnly || t.fp) 0x002 5
  groupCheck [(b, t.grp), (c, t.grp)]
  let x ← vGet b t.grp
  let y ← vGet c t.grp
  mWrite t a vm fun i => p t (elemOf t.sew x i) (elemOf t.sew y i)
  return .seq
/-- An integer operation of SEW bits, wrapping (R164). -/
def intOp (f : Nat → Nat → Nat → Nat → Nat) (t : VT) (_ : Rm) (x y z : Nat) : Fr Nat := exact (f t.sew x y z % 2 ^ t.sew)
/-- An integer or FP operation as VTYPE.FP says (R170). -/
def eitherOp (g : Fmt → Rm → Nat → Nat → Nat → Fr Nat) (f : Nat → Nat → Nat → Nat → Nat) (t : VT) (rm : Rm)
    (x y z : Nat) : Fr Nat := if t.fp then g (vFmt t) rm x y z else intOp f t rm x y z
def fpOp (g : Fmt → Rm → Nat → Nat → Nat → Fr Nat) (t : VT) (rm : Rm) (x y z : Nat) : Fr Nat := g (vFmt t) rm x y z
def subN (n x y : Nat) : Nat := x + 2 ^ n - y
def sraN (n x k : Nat) : Nat := wrapInt n (sInt n x / 2 ^ k)
def minSN (n x y : Nat) : Nat := if sInt n x < sInt n y then x else y
def maxSN (n x y : Nat) : Nat := if sInt n x < sInt n y then y else x
/-- FFma(a, b, c) with negated operands, exact (R172). -/
def fmaNeg (na nc : Bool) (f : Fmt) (rm : Rm) (a b c : Nat) : Fr Nat :=
  let neg (k : Bool) (x : FVal) : FVal := if k then negV x else x
  withRound f rm (fmaV rm (neg na (decodeF f a)) (decodeF f b) (neg nc (decodeF f c)))
/-- VADD (R170). -/
def execVadd (a : VReg) (b : VReg) (c : VReg) (vm : MReg) (s : State) : Out :=
  instr uV false [] (vvv a b c vm false (eitherOp (fun f rm x y _ => fAdd f rm x y) (fun _ x y _ => x + y))) s
/-- VSUB (R170). -/
def execVsub (a : VReg) (b : VReg) (c : VReg) (vm : MReg) (s : State) : Out :=
  instr uV false [] (vvv a b c vm false (eitherOp (fun f rm x y _ => fSub f rm x y) (fun n x y _ => subN n x y))) s
/-- VMUL (R170). -/
def execVmul (a : VReg) (b : VReg) (c : VReg) (vm : MReg) (s : State) : Out :=
  instr uV false [] (vvv a b c vm false (eitherOp (fun f rm x y _ => fMul f rm x y) (fun _ x y _ => x * y))) s
/-- VMACC (R170). -/
def execVmacc (a : VReg) (b : VReg) (c : VReg) (vm : MReg) (s : State) : Out :=
  instr uV false [] (vvv a b c vm false (eitherOp (fun f rm x y z => fFma f rm x y z) (fun _ x y z => z + x * y))) s
/-- VMIN (R170). -/
def execVmin (a : VReg) (b : VReg) (c : VReg) (vm : MReg) (s : State) : Out :=
  instr uV false [] (vvv a b c vm false (eitherOp (fun f _ x y _ => fMin f x y) (fun n x y _ => minSN n x y))) s
/-- VMAX (R170). -/
def execVmax (a : VReg) (b : VReg) (c : VReg) (vm : MReg) (s : State) : Out :=
  instr uV false [] (vvv a b c vm false (eitherOp (fun f _ x y _ => fMax f x y) (fun n x y _ => maxSN n x y))) s
/-- VAND (R170). -/
def execVand (a : VReg) (b : VReg) (c : VReg) (vm : MReg) (s : State) : Out :=
  instr uV false [] (vvv a b c vm false (intOp (fun _ x y _ => x &&& y))) s
/-- VOR (R170). -/
def execVor (a : VReg) (b : VReg) (c : VReg) (vm : MReg) (s : State) : Out :=
  instr uV false [] (vvv a b c vm false (intOp (fun _ x y _ => x ||| y))) s
/-- VXOR (R171). -/
def execVxor (a : VReg) (b : VReg) (c : VReg) (vm : MReg) (s : State) : Out :=
  instr uV false [] (vvv a b c vm false (intOp (fun _ x y _ => x ^^^ y))) s
/-- VSLL (R171). -/
def execVsll (a : VReg) (b : VReg) (c : VReg) (vm : MReg) (s : State) : Out :=
  instr uV false [] (vvv a b c vm false (intOp (fun n x y _ => x * 2 ^ (y % n)))) s
/-- VSRL (R171). -/
def execVsrl (a : VReg) (b : VReg) (c : VReg) (vm : MReg) (s : State) : Out :=
  instr uV false [] (vvv a b c vm false (intOp (fun n x y _ => x / 2 ^ (y % n)))) s
/-- VSRA (R171). -/
def execVsra (a : VReg) (b : VReg) (c : VReg) (vm : MReg) (s : State) : Out :=
  instr uV false [] (vvv a b c vm false (intOp (fun n x y _ => sraN n x (y % n)))) s
/-- VMULH (R171). -/
def execVmulh (a : VReg) (b : VReg) (c : VReg) (vm : MReg) (s : State) : Out :=
  instr uV false [] (vvv a b c vm false (intOp (fun n x y _ => wrapInt n (sInt n x * sInt n y / 2 ^ n)))) s
/-- VMULHU (R171). -/
def execVmulhu (a : VReg) (b : VReg) (c : VReg) (vm : MReg) (s : State) : Out :=
  instr uV false [] (vvv a b c vm false (intOp (fun n x y _ => x * y / 2 ^ n))) s
/-- VMINU (R171). -/
def execVminu (a : VReg) (b : VReg) (c : VReg) (vm : MReg) (s : State) : Out :=
  instr uV false [] (vvv a b c vm false (intOp (fun _ x y _ => min x y))) s
/-- VMAXU (R171). -/
def execVmaxu (a : VReg) (b : VReg) (c : VReg) (vm : MReg) (s : State) : Out :=
  instr uV false [] (vvv a b c vm false (intOp (fun _ x y _ => max x y))) s
/-- VSADD (R171). -/
def execVsadd (a : VReg) (b : VReg) (c : VReg) (vm : MReg) (s : State) : Out :=
  instr uV false [] (vvv a b c vm false (intOp (fun n x y _ => wrapInt n (satS (sInt n x + sInt n y) n)))) s
/-- VSADDU (R171). -/
def execVsaddu (a : VReg) (b : VReg) (c : VReg) (vm : MReg) (s : State) : Out :=
  instr uV false [] (vvv a b c vm false (intOp (fun n x y _ => wrapInt n (satU (x + y : Nat) n)))) s
/-- VSSUB (R171). -/
def execVssub (a : VReg) (b : VReg) (c : VReg) (vm : MReg) (s : State) : Out :=
  instr uV false [] (vvv a b c vm false (intOp (fun n x y _ => wrapInt n (satS (sInt n x - sInt n y) n)))) s
/-- VSSUBU (R171). -/
def execVssubu (a : VReg) (b : VReg) (c : VReg) (vm : MReg) (s : State) : Out :=
  instr uV false [] (vvv a b c vm false (intOp (fun n x y _ => wrapInt n (satU ((x : Int) - y) n)))) s
/-- VADD.VX (R171). -/
def execVaddVx (a : VReg) (b : VReg) (c : GReg) (vm : MReg) (s : State) : Out :=
  instr uV false [.rd c] (vvx a b c vm false (intOp (fun _ x y _ => x + y))) s
/-- VSUB.VX (R171). -/
def execVsubVx (a : VReg) (b : VReg) (c : GReg) (vm : MReg) (s : State) : Out :=
  instr uV false [.rd c] (vvx a b c vm false (intOp (fun n x y _ => subN n x y))) s
/-- VMUL.VX (R171). -/
def execVmulVx (a : VReg) (b : VReg) (c : GReg) (vm : MReg) (s : State) : Out :=
  instr uV false [.rd c] (vvx a b c vm false (intOp (fun _ x y _ => x * y))) s
/-- VAND.VX (R171). -/
def execVandVx (a : VReg) (b : VReg) (c : GReg) (vm : MReg) (s : State) : Out :=
  instr uV false [.rd c] (vvx a b c vm false (intOp (fun _ x y _ => x &&& y))) s
/-- VOR.VX (R171). -/
def execVorVx (a : VReg) (b : VReg) (c : GReg) (vm : MReg) (s : State) : Out :=
  instr uV false [.rd c] (vvx a b c vm false (intOp (fun _ x y _ => x ||| y))) s
/-- VXOR.VX (R171). -/
def execVxorVx (a : VReg) (b : VReg) (c : GReg) (vm : MReg) (s : State) : Out :=
  instr uV false [.rd c] (vvx a b c vm false (intOp (fun _ x y _ => x ^^^ y))) s
/-- VSLL.VX (R171). -/
def execVsllVx (a : VReg) (b : VReg) (c : GReg) (vm : MReg) (s : State) : Out :=
  instr uV false [.rd c] (vvx a b c vm false (intOp (fun n x y _ => x * 2 ^ (y % n)))) s
/-- VSRL.VX (R171). -/
def execVsrlVx (a : VReg) (b : VReg) (c : GReg) (vm : MReg) (s : State) : Out :=
  instr uV false [.rd c] (vvx a b c vm false (intOp (fun n x y _ => x / 2 ^ (y % n)))) s
/-- VMSEQ (R171). -/
def execVmseq (a : MReg) (b : VReg) (c : VReg) (vm : MReg) (s : State) : Out :=
  instr uV false [] (vcmp a b c vm false fun _ x y => ⟨x == y, 0⟩) s
/-- VMSNE (R171). -/
def execVmsne (a : MReg) (b : VReg) (c : VReg) (vm : MReg) (s : State) : Out :=
  instr uV false [] (vcmp a b c vm false fun _ x y => ⟨x != y, 0⟩) s
/-- VMSLT (R171). -/
def execVmslt (a : MReg) (b : VReg) (c : VReg) (vm : MReg) (s : State) : Out :=
  instr uV false [] (vcmp a b c vm false fun t x y => ⟨decide (sInt t.sew x < sInt t.sew y), 0⟩) s
/-- VMSLTU (R171). -/
def execVmsltu (a : MReg) (b : VReg) (c : VReg) (vm : MReg) (s : State) : Out :=
  instr uV false [] (vcmp a b c vm false fun _ x y => ⟨decide (x < y), 0⟩) s
/-- VMSLE (R171). -/
def execVmsle (a : MReg) (b : VReg) (c : VReg) (vm : MReg) (s : State) : Out :=
  instr uV false [] (vcmp a b c vm false fun t x y => ⟨decide (sInt t.sew x ≤ sInt t.sew y), 0⟩) s
/-- VMSLEU (R171). -/
def execVmsleu (a : MReg) (b : VReg) (c : VReg) (vm : MReg) (s : State) : Out :=
  instr uV false [] (vcmp a b c vm false fun _ x y => ⟨decide (x ≤ y), 0⟩) s
/-- VMV.VX (R171). -/
def execVmvVx (a : VReg) (c : GReg) (vm : MReg) (s : State) : Out :=
  instr uV false [.rd c] (do
    let t ← getVt
    groupCheck [(a, t.grp)]
    let y ← readG c
    vWrite t t.sew a t.grp vm fun _ => exact (y.toNat % 2 ^ t.sew)
    return .seq) s
/-- VMV.XS: element 0 whatever VL is (R171). -/
def execVmvXs (a : GReg) (b : VReg) (s : State) : Out :=
  instr uV false [.wr a] (do
    let t ← getVt
    groupCheck [(b, t.grp)]
    writeResult a (signExt t.sew (elemOf t.sew (← vGet b t.grp) 0))
    return .seq) s
/-- VMV.SX: element 0 only, when VL ≥ 1 (R171). -/
def execVmvSx (a : VReg) (c : GReg) (s : State) : Out :=
  instr uV false [.rd c] (do
    let t ← getVt
    groupCheck [(a, t.grp)]
    let y ← readG c
    let x ← vGet a t.grp
    if t.vl = 0 then pure () else vPut a t.grp (x / 2 ^ t.sew * 2 ^ t.sew + y.toNat % 2 ^ t.sew)
    return .seq) s
/-- VID (R171). -/
def execVid (a : VReg) (vm : MReg) (s : State) : Out :=
  instr uV false [] (do
    let t ← getVt
    groupCheck [(a, t.grp)]
    vWrite t t.sew a t.grp vm fun i => exact (i % 2 ^ t.sew)
    return .seq) s
/-- VFDIV (R172). -/
def execVfdiv (a : VReg) (b : VReg) (c : VReg) (vm : MReg) (s : State) : Out :=
  instr uV false [] (vvv a b c vm true (fpOp (fun f rm x y _ => fDiv f rm x y))) s
/-- VFNMACC (R172). -/
def execVfnmacc (a : VReg) (b : VReg) (c : VReg) (vm : MReg) (s : State) : Out :=
  instr uV false [] (vvv a b c vm true (fpOp (fmaNeg true true))) s
/-- VFMSAC (R172). -/
def execVfmsac (a : VReg) (b : VReg) (c : VReg) (vm : MReg) (s : State) : Out :=
  instr uV false [] (vvv a b c vm true (fpOp (fmaNeg false true))) s
/-- VFSQRT (R172). -/
def execVfsqrt (a : VReg) (b : VReg) (vm : MReg) (s : State) : Out :=
  instr uV false [] (vv a b vm fun t rm x => fSqrt (vFmt t) rm x) s
/-- VFNEG: no flags (R172). -/
def execVfneg (a : VReg) (b : VReg) (vm : MReg) (s : State) : Out :=
  instr uV false [] (vv a b vm fun t _ x => exact (x ^^^ 2 ^ (t.sew - 1))) s
/-- VFABS: no flags (R172). -/
def execVfabs (a : VReg) (b : VReg) (vm : MReg) (s : State) : Out :=
  instr uV false [] (vv a b vm fun t _ x => exact (x % 2 ^ (t.sew - 1))) s
/-- VFADD.VF (R172). -/
def execVfaddVf (a : VReg) (b : VReg) (c : GReg) (vm : MReg) (s : State) : Out :=
  instr uV false [.rd c] (vvx a b c vm true (fpOp (fun f rm x y _ => fAdd f rm x y))) s
/-- VFSUB.VF (R172). -/
def execVfsubVf (a : VReg) (b : VReg) (c : GReg) (vm : MReg) (s : State) : Out :=
  instr uV false [.rd c] (vvx a b c vm true (fpOp (fun f rm x y _ => fSub f rm x y))) s
/-- VFMUL.VF (R172). -/
def execVfmulVf (a : VReg) (b : VReg) (c : GReg) (vm : MReg) (s : State) : Out :=
  instr uV false [.rd c] (vvx a b c vm true (fpOp (fun f rm x y _ => fMul f rm x y))) s
/-- VFMACC.VF (R172). -/
def execVfmaccVf (a : VReg) (b : VReg) (c : GReg) (vm : MReg) (s : State) : Out :=
  instr uV false [.rd c] (vvx a b c vm true (fpOp (fun f rm x y z => fFma f rm x y z))) s
/-- VFMIN.VF (R172). -/
def execVfminVf (a : VReg) (b : VReg) (c : GReg) (vm : MReg) (s : State) : Out :=
  instr uV false [.rd c] (vvx a b c vm true (fpOp (fun f _ x y _ => fMin f x y))) s
/-- VFMAX.VF (R172). -/
def execVfmaxVf (a : VReg) (b : VReg) (c : GReg) (vm : MReg) (s : State) : Out :=
  instr uV false [.rd c] (vvx a b c vm true (fpOp (fun f _ x y _ => fMax f x y))) s
/-- VMFEQ (R172). -/
def execVmfeq (a : MReg) (b : VReg) (c : VReg) (vm : MReg) (s : State) : Out :=
  instr uV false [] (vcmp a b c vm true fun t x y => cmpF (vFmt t) x y false eqV) s
/-- VMFNE (R172). -/
def execVmfne (a : MReg) (b : VReg) (c : VReg) (vm : MReg) (s : State) : Out :=
  instr uV false [] (vcmp a b c vm true fun t x y => let r := cmpF (vFmt t) x y false eqV; ⟨!r.v, r.f⟩) s
/-- VMFLT (R172). -/
def execVmflt (a : MReg) (b : VReg) (c : VReg) (vm : MReg) (s : State) : Out :=
  instr uV false [] (vcmp a b c vm true fun t x y => cmpF (vFmt t) x y true ltV) s
/-- VMFLE (R172). -/
def execVmfle (a : MReg) (b : VReg) (c : VReg) (vm : MReg) (s : State) : Out :=
  instr uV false [] (vcmp a b c vm true fun t x y => cmpF (vFmt t) x y true fun p q => !ltV q p) s
/-- VFCVT.X.F (R173). -/
def execVfcvtXF (a : VReg) (b : VReg) (vm : MReg) (s : State) : Out :=
  instr uV false [] (vv a b vm fun t rm x => let r := toInt rm t.sew true (decodeF (vFmt t) x); ⟨wrapInt t.sew r.v, r.f⟩) s
/-- VFCVT.F.X (R173). -/
def execVfcvtFX (a : VReg) (b : VReg) (vm : MReg) (s : State) : Out :=
  instr uV false [] (vv a b vm fun t rm x => ofInt (vFmt t) rm (sInt t.sew x)) s
/-- A conversion between elements of width wb in vB and wa in vA, the groups apart (R163, R173, R177, R178). -/
def vConv (t : VT) (a : VReg) (wa ca : Nat) (b : VReg) (wb cb : Nat) (vm : MReg) (f : Rm → Nat → Fr Nat) : M Next := do
  apart a ca b cb
  groupCheck [(a, ca), (b, cb)]
  let x ← vGet b cb
  let rm ← getRm
  vWrite t wa a ca vm fun i => f rm (elemOf wb x i)
  return .seq
/-- VFWCVT (R173). -/
def execVfwcvt (a b : VReg) (vm : MReg) (s : State) : Out :=
  instr uV false [] (do
    let t ← getVt
    guardD (t.fp && t.fpk != 0 && decide (t.grp ≤ 4)) 0x002 5
    vConv t a 32 (2 * t.grp) b 16 t.grp vm fun rm x => cvtF (vFmt t) .fp32 rm x) s
/-- VFNCVT (R173). -/
def execVfncvt (a b : VReg) (vm : MReg) (s : State) : Out :=
  instr uV false [] (do
    let t ← getVt
    guardD (t.fp && t.fpk != 0 && decide (t.grp ≤ 4)) 0x002 5
    vConv t a 16 t.grp b 32 (2 * t.grp) vm fun rm x => cvtF .fp32 (vFmt t) rm x) s

/-! ### Permutes (R174) -/

/-- VSLIDEUP: elements below OFF unchanged whatever the policies (R174). -/
def execVslideup (a b : VReg) (c : GReg) (vm : MReg) (s : State) : Out :=
  instr uV false [.rd c] (do
    let t ← getVt
    apart a t.grp b t.grp
    groupCheck [(a, t.grp), (b, t.grp)]
    let off := (← readG c).toNat
    let x ← vGet b t.grp
    let old ← vGet a t.grp
    let mask := maskOf (← getSlot) vm
    if t.vl = 0 then pure ()
    else vPut a t.grp (packElems t.sew (fun i =>
      if i < off then elemOf t.sew old i else destElem t mask t.sew old (fun i => elemOf t.sew x (i - off)) i) (maxLen t))
    return .seq) s
/-- VSLIDEDN (R174). -/
def execVslidedn (a b : VReg) (c : GReg) (vm : MReg) (s : State) : Out :=
  instr uV false [.rd c] (do
    let t ← getVt
    apart a t.grp b t.grp
    groupCheck [(a, t.grp), (b, t.grp)]
    let off := (← readG c).toNat
    let x ← vGet b t.grp
    vWrite t t.sew a t.grp vm fun i => exact (if i + off < maxLen t then elemOf t.sew x (i + off) else 0)
    return .seq) s
/-- VRGATHER (R174). -/
def execVrgather (a b c : VReg) (vm : MReg) (s : State) : Out :=
  instr uV false [] (do
    let t ← getVt
    apart a t.grp b t.grp
    groupCheck [(a, t.grp), (b, t.grp), (c, t.grp)]
    let x ← vGet b t.grp
    let y ← vGet c t.grp
    vWrite t t.sew a t.grp vm fun i =>
      let j := elemOf t.sew y i
      exact (if j < maxLen t then elemOf t.sew x j else 0)
    return .seq) s
/-- VCOMPRESS: positions from the count to the group's end follow TA (R174). -/
def execVcompress (a b : VReg) (c : MReg) (s : State) : Out :=
  instr uV false [] (do
    let t ← getVt
    apart a t.grp b t.grp
    groupCheck [(a, t.grp), (b, t.grp)]
    let x ← vGet b t.grp
    let old ← vGet a t.grp
    let l := active t (maskOf (← getSlot) c)
    if t.vl = 0 then pure ()
    else vPut a t.grp (packElems t.sew (fun i => match l[i]? with
      | some j => elemOf t.sew x j
      | none => if t.ta then 2 ^ t.sew - 1 else elemOf t.sew old i) (maxLen t))
    return .seq) s
/-- VMERGE: the mask field selects (R174). -/
def execVmerge (a b c : VReg) (vm : MReg) (s : State) : Out :=
  instr uV false [] (do
    let t ← getVt
    groupCheck [(a, t.grp), (b, t.grp), (c, t.grp)]
    let x ← vGet b t.grp
    let y ← vGet c t.grp
    let sel := maskOf (← getSlot) vm
    vWrite t t.sew a t.grp 0 fun i => exact (if sel.getLsbD i then elemOf t.sew y i else elemOf t.sew x i)
    return .seq) s

/-! ### Reductions (R175, R27) -/

/-- One level of the tree of R27. -/
def pairUp {α : Type} (f : α → α → α) : List α → List α
  | x :: y :: r => f x y :: pairUp f r
  | l => l
/-- The tree of R27, in at most `n` levels. -/
def treeOf {α : Type} (f : α → α → α) : Nat → List α → Option α
  | 0, l => l.head?
  | n + 1, l => treeOf f n (pairUp f l)
/-- An operation on results, with the flags of both. -/
def liftFr (f : Nat → Nat → Fr Nat) (x y : Fr Nat) : Fr Nat :=
  let r := f x.v y.v
  ⟨r.v, x.f ||| y.f ||| r.f⟩
def vred (a : GReg) (b : VReg) (c : GReg) (vm : MReg) (fp : Bool) (f : VT → Rm → Nat → Nat → Fr Nat) : M Next := do
  let t ← getVt
  guardD (t.fp == fp) 0x002 5
  groupCheck [(b, t.grp)]
  let st := (← readG c).toNat % 2 ^ t.sew
  let x ← vGet b t.grp
  let rm ← getRm
  let l := (active t (maskOf (← getSlot) vm)).map fun i => exact (elemOf t.sew x i)
  let op := liftFr (f t rm)
  let r := match treeOf op 9 l with
    | some v => op (exact st) v
    | none => exact st
  raiseFlags r.f
  writeResult a (if fp then zeroExt t.sew r.v else signExt t.sew r.v)
  return .seq
/-- VREDSUM (R175). -/
def execVredsum (a : GReg) (b : VReg) (c : GReg) (vm : MReg) (s : State) : Out :=
  instr uV false [.rd c, .wr a] (vred a b c vm false fun t _ x y => exact ((x + y) % 2 ^ t.sew)) s
/-- VREDMAX (R175). -/
def execVredmax (a : GReg) (b : VReg) (c : GReg) (vm : MReg) (s : State) : Out :=
  instr uV false [.rd c, .wr a] (vred a b c vm false fun t _ x y => exact (maxSN t.sew x y)) s
/-- VREDMIN (R175). -/
def execVredmin (a : GReg) (b : VReg) (c : GReg) (vm : MReg) (s : State) : Out :=
  instr uV false [.rd c, .wr a] (vred a b c vm false fun t _ x y => exact (minSN t.sew x y)) s
/-- VREDAND (R175). -/
def execVredand (a : GReg) (b : VReg) (c : GReg) (vm : MReg) (s : State) : Out :=
  instr uV false [.rd c, .wr a] (vred a b c vm false fun _ _ x y => exact (x &&& y)) s
/-- VREDOR (R175). -/
def execVredor (a : GReg) (b : VReg) (c : GReg) (vm : MReg) (s : State) : Out :=
  instr uV false [.rd c, .wr a] (vred a b c vm false fun _ _ x y => exact (x ||| y)) s
/-- VFREDSUM (R175). -/
def execVfredsum (a : GReg) (b : VReg) (c : GReg) (vm : MReg) (s : State) : Out :=
  instr uV false [.rd c, .wr a] (vred a b c vm true fun t rm x y => fAdd (vFmt t) rm x y) s
/-- VFREDMAX (R175). -/
def execVfredmax (a : GReg) (b : VReg) (c : GReg) (vm : MReg) (s : State) : Out :=
  instr uV false [.rd c, .wr a] (vred a b c vm true fun t _ x y => fMax (vFmt t) x y) s
/-- VFREDMIN (R175). -/
def execVfredmin (a : GReg) (b : VReg) (c : GReg) (vm : MReg) (s : State) : Out :=
  instr uV false [.rd c, .wr a] (vred a b c vm true fun t _ x y => fMin (vFmt t) x y) s
/-! ### Masks (R176) -/

/-- A mask operation on the bits below VL; the bits from VL on follow TA. -/
def mOp (a b c : MReg) (f : BitVec 512 → BitVec 512 → BitVec 512) : M Next := do
  let t ← getVt
  let x ← getSlot
  let r := f (maskOf x b) (maskOf x c)
  mWrite t a 0 fun i => ⟨r.getLsbD i, 0⟩
  return .seq
/-- VMAND (R176). -/
def execVmand (a : MReg) (b : MReg) (c : MReg) (s : State) : Out :=
  instr uV false [] (mOp a b c fun x y => x &&& y) s
/-- VMOR (R176). -/
def execVmor (a : MReg) (b : MReg) (c : MReg) (s : State) : Out :=
  instr uV false [] (mOp a b c fun x y => x ||| y) s
/-- VMXOR (R176). -/
def execVmxor (a : MReg) (b : MReg) (c : MReg) (s : State) : Out :=
  instr uV false [] (mOp a b c fun x y => x ^^^ y) s
/-- VMNOT (R176). -/
def execVmnot (a : MReg) (b : MReg) (s : State) : Out :=
  instr uV false [] (mOp a b b fun x _ => ~~~x) s
/-- VCPOP (R176). -/
def execVcpop (a : GReg) (b : MReg) (vm : MReg) (s : State) : Out :=
  instr uV false [.wr a] (do
    let t ← getVt
    let x ← getSlot
    writeResult a (BitVec.ofNat 64 ((active t (maskOf x vm)).filter fun i => (maskOf x b).getLsbD i).length)
    return .seq) s
/-- VFIRST (R176). -/
def execVfirst (a : GReg) (b : MReg) (vm : MReg) (s : State) : Out :=
  instr uV false [.wr a] (do
    let t ← getVt
    let x ← getSlot
    writeResult a (match (active t (maskOf x vm)).find? fun i => (maskOf x b).getLsbD i with
      | some i => BitVec.ofNat 64 i
      | none => BitVec.allOnes 64)
    return .seq) s

/-! ### Narrow formats and packing (R177, R178) -/

/-- The narrow format of a format code; 5 to 7 name none. -/
def narrowOf (f : Lit3) : Option Fmt :=
  match f.toNat with
  | 0 => some .e4m3
  | 1 => some .e5m2
  | 2 => some .e3m2
  | 3 => some .e2m3
  | 4 => some .e2m1
  | _ => none
/-- VCVT.SAT and VCVT.NSAT. -/
def vToNarrow (a b : VReg) (f : Lit3) (vm : MReg) (sat : Bool) : M Next := do
  let t ← getVt
  match narrowOf f with
  | some g =>
    guardD t.fp 0x002 5
    vConv t a (fmtWidth g) (egOf t (fmtWidth g)) b t.sew t.grp vm fun rm x => saturate (vFmt t) g rm sat x
  | none => trapD 0x002 5
/-- VCVT.SAT (R177). -/
def execVcvtSat (a : VReg) (b : VReg) (f : Lit3) (vm : MReg) (s : State) : Out :=
  instr uV false [] (vToNarrow a b f vm true) s
/-- VCVT.NSAT (R177). -/
def execVcvtNsat (a : VReg) (b : VReg) (f : Lit3) (vm : MReg) (s : State) : Out :=
  instr uV false [] (vToNarrow a b f vm false) s
/-- VCVT.W (R177). -/
def execVcvtW (a b : VReg) (f : Lit3) (vm : MReg) (s : State) : Out :=
  instr uV false [] (do
    let t ← getVt
    match narrowOf f with
    | some g =>
      guardD t.fp 0x002 5
      vConv t a t.sew t.grp b (fmtWidth g) (egOf t (fmtWidth g)) vm fun rm x => cvtF g (vFmt t) rm x
    | none => trapD 0x002 5) s
/-- VPACK (R178). -/
def execVpack (a b : VReg) (mode : Lit3) (vm : MReg) (s : State) : Out :=
  instr uV false [] (do
    let t ← getVt
    guardD (!t.fp && decide (16 ≤ t.sew) && decide (mode.toNat ≤ 2)) 0x002 5
    let h := t.sew / 2
    vConv t a h (max 1 (t.grp / 2)) b t.sew t.grp vm fun _ x =>
      exact (if mode = 0 then wrapInt h (satS (sInt t.sew x) h)
        else if mode = 1 then wrapInt h (satU (sInt t.sew x) h) else x % 2 ^ h)) s
/-- VUNPK (R178). -/
def execVunpk (a b : VReg) (mode : Lit3) (vm : MReg) (s : State) : Out :=
  instr uV false [] (do
    let t ← getVt
    guardD (!t.fp && decide (16 ≤ t.sew) && decide (mode.toNat ≤ 1)) 0x002 5
    let h := t.sew / 2
    vConv t a t.sew t.grp b h (max 1 (t.grp / 2)) vm fun _ x =>
      exact (if mode = 0 then wrapInt t.sew (sInt h x) else x)) s

end Sys2Proof.Machine
end

