-- ==== Sys2Proof/Machine/Closure.lean ====
section
/-! DEFINITION. Machine/Closure.lean: the closure instructions (R182 to R201). -/
namespace Sys2Proof.Machine

/-- A closure operation: in one step where the environment is the core's own, else at its home (R189). -/
def closureOp (h : Handle) (r : Req) : M Ans := do
  let s ← get
  if hHome h = s.cur.core then
    let (s1, a) := closureServe s s.cur.core s.cur.core r
    set s1
    pure a
  else remote r
/-- A null handle, then a home outside the launch (R195, R197, R199). -/
def handleCheck (h : Handle) : M Unit := do
  let s ← get
  guardA (h != 0) 0x0E0 0 (hWord h)
  guardA (inLaunch s s.cur.core (hHome h)) 0x0E0 2 (hWord h)
/-- The registers that CAPT reads, from `n` on (R193). -/
def readRegs (n : Nat) : Nat → M (List Word)
  | 0 => pure []
  | c + 1 => do
    let x ← readReg (BitVec.ofNat 5 n)
    return x :: (← readRegs (n + 1) c)
/-- The lowest free environment below the allotment (R193). -/
def freeEnv (k : Core) : Option Nat := (List.range k.envAllot).find? fun i => !envLive (envHead k i)
/-- The image that CAPT writes: entry, count 1, the captures (R184, R193). -/
def captImage (gen entry : Nat) (caps : List Word) : List Byte :=
  leBytes 16 (entry + 2 ^ 32 + gen * 2 ^ 40 + 2 ^ 51 + caps.length * 2 ^ 52) ++
    caps.flatMap fun w => leBytes 8 w.toNat
/-- CAPT (R193). DESIGN CHOICE (log 46): FADDR of 0x0E2, for which there is no handle, is 0. -/
def execCapt (k : KReg) (b : GReg) (c : BitVec 15) (s : State) : Out :=
  instr uEA false [.rd b, .kreg k] (do
    guardD (decide (bits c 14 9 = 0)) 0x002 5
    stallIfSpec
    let n := bits c 3 0
    let r := bits c 8 4
    guardA (decide (n ≤ 14 ∧ r + n ≤ 32)) 0x0E5 1 0
    let e ← readG b
    guardA (!e.getLsbD 0 && decide (e.toNat < 0x200000)) 0x0E7 0 e
    let s ← get
    let core := coreAt s s.cur.core
    match freeEnv core with
    | none => trapA 0x0E2 0 0
    | some i =>
      let caps ← readRegs r n
      let g := envGen (envHead core i)
      set (writeBytes s s.cur.core (envAddr core i) (captImage g e.toNat caps) none)
      writeK k (BitVec.ofNat 32 (g * 2 ^ 21 + i * 2 ^ 13 + s.cur.core.toNat))
      return .seq) s
/-- Base of frame i − 1, or the top of the slot's frame stack (R186). -/
def frameAbove (k : Core) (i : Fin 4) (d : Nat) : Nat :=
  if d = 0 then frameTop k i else ((slotAt k i).frames[d - 1]!).toNat
/-- The live frame of a slot whose span holds x (R194). -/
def frameHolding (k : Core) (i : Fin 4) (x : Nat) : Option Nat :=
  (List.range (slotAt k i).depth).find? fun j =>
    decide (((slotAt k i).frames[j]!).toNat ≤ x ∧ x < frameAbove k i j)
/-- CAPT.REF (R194). -/
def execCaptRef (k : KReg) (b : GReg) (s : State) : Out :=
  instr uEA false [.rd b, .kreg k] (do
    stallIfSpec
    let h ← readK k
    let s ← get
    let c := s.cur.core
    let core := coreAt s c
    guardA (h != 0) 0x0E0 0 0
    guardA (hHome h == c) 0x0E6 5 0
    guardA (hLive core h) 0x0E0 1 (hWord h)
    let x ← readG b
    let i := slotNo s.cur.unit
    match (if x.toNat < 0x200000 then frameHolding core i x.toNat else none) with
    | none => trapA 0x0E6 4 x
    | some f =>
      let e := envHead core (hIdx h)
      let n := envNcap e
      let r := envNref e
      guardA (decide (n < 14 ∧ r < 4)) 0x0E5 2 0
      let w := i.val * 2 ^ 54 + f * 2 ^ 48 + ((slotAt core i).fgen[f]!).toNat * 2 ^ 32 + x.toNat
      let e := setBits (setBits (setBits e (79 + 16 * r) (64 + 16 * r) (0x8000 + n)) 59 56 (r + 1)) 55 52 (n + 1)
      modify fun s => writeHead (writeNat s c (envWordAddr core (hIdx h) n) 8 w none) c (hIdx h) e
      return .seq) s
/-- KDUP (R195). -/
def execKdup (k : KReg) (b : GReg) (s : State) : Out :=
  instr uEA false [.rd b, .kreg k] (do
    stallIfSpec
    let h : Handle := (← readG b).setWidth 32
    if h = 0 then
      writeK k 0
      return .seq
    handleCheck h
    let _ ← ansWord (← closureOp h (.closureAdd h 0))
    writeK k h
    return .seq) s
/-- KDROP (R196). -/
def execKdrop (k : KReg) (s : State) : Out :=
  instr uEA false [.kreg k] (do
    stallIfSpec
    let h ← readK k
    if h = 0 then return .seq
    handleCheck h
    let _ ← ansWord (← closureOp h (.closureDrop h))
    writeK k 0
    return .seq) s
/-- KLD (R197). -/
def execKld (a : GReg) (k : KReg) (n : BitVec 15) (s : State) : Out :=
  instr uEA false [.kreg k, .wr a] (do
    let h ← readK k
    handleCheck h
    writeResult a (← ansWord (← closureOp h (.closureRead h n.toNat)))
    return .seq) s
/-- KST (R197). -/
def execKst (k : KReg) (b : GReg) (n : BitVec 15) (s : State) : Out :=
  instr uEA false [.kreg k, .rd b] (do
    stallIfSpec
    let v ← readG b
    let h ← readK k
    handleCheck h
    let _ ← ansWord (← closureOp h (.closureWrite h n.toNat v))
    return .seq) s
/-- FRAME (R198). -/
def execFrame (a b : GReg) (s : State) : Out :=
  instr uEA false [.rd b, .wr a] (do
    let n := ((← readG b).toNat + 63) / 64 * 64
    let s ← get
    let k := coreAt s s.cur.core
    let i := slotNo s.cur.unit
    let d := (slotAt k i).depth
    guardA (decide (d < 64)) 0x0E6 1 0
    let p := frameAbove k i d
    guardA (decide (frameFloor k i + n ≤ p)) 0x0E6 2 0
    modSlot fun x => { x with frames := x.frames.set! d (BitVec.ofNat 64 (p - n)), depth := d + 1 }
    writeResult a (BitVec.ofNat 64 (p - n))
    return .seq) s
/-- UNFRAME (R198). -/
def execUnframe (a : GReg) (s : State) : Out :=
  instr uEA false [.wr a] (do
    let s ← get
    let k := coreAt s s.cur.core
    let i := slotNo s.cur.unit
    let d := (slotAt k i).depth
    guardA (decide (d ≠ 0)) 0x0E6 3 0
    modSlot fun x => { x with fgen := x.fgen.set! (d - 1) (x.fgen[d - 1]! + 1), depth := d - 1 }
    writeResult a (BitVec.ofNat 64 (frameAbove k i (d - 1)))
    return .seq) s
/-- Load the first eight captures into g8 onward (R199). -/
def loadCaps (c home : Coord) (env : List Byte) : Nat → Nat → M Unit
  | _, 0 => pure ()
  | w, n + 1 => do
    writeReg (BitVec.ofNat 5 (8 + w)) (captureOf c home env w)
    loadCaps c home env (w + 1) n
/-- APPLY: every check before any register changes (R199). -/
def execApply (k : KReg) (s : State) : Out :=
  instr uEA false [.kreg k] (do
    let h ← readK k
    handleCheck h
    match ← closureOp h (.closureApply h) with
    | .refused w a => trapW w a
    | .value _ => return .seq
    | .env e =>
      let s ← get
      let c := s.cur.core
      let hd : BitVec 128 := BitVec.ofNat 128 (leNat (e.take 16))
      let t := BitVec.ofNat 64 (envEntry hd)
      needPad t 2
      markDead
      writeReg 1 (link s)
      writeReg 3 (envNear s c h)
      loadCaps c (hHome h) e 0 (min (envNcap hd) 8)
      return .jump t) s

end Sys2Proof.Machine
end

