-- ==== Sys2Proof/Machine/Bank.lean ====
section
/-! DEFINITION. Machine/Bank.lean: bank commands and vector atomics: their issue (R179, R180, R203 to R211) and what the
bank ALUs do with them (R206 to R209, R212, R213, R218), and patrol scrubbing. -/
namespace Sys2Proof.Machine

/-! ### Checks of local ranges (R117) -/

/-- The place of a page cause in the order of R116. -/
def causeRank (w : Why) : Nat := if w.cause = 0x066 then 0 else if w.cause = 0x061 then 1 else 2
/-- The better of two failures: by order of check, then by address. -/
def worse (x y : Option (Why × Nat)) : Option (Why × Nat) :=
  match x, y with
  | none, _ => y
  | _, none => x
  | some (v, a), some (w, b) =>
    if causeRank v < causeRank w ∨ (causeRank v = causeRank w ∧ a ≤ b) then some (v, a) else some (w, b)
/-- Check page `p` of every range. -/
def checkPage (k : Core) (user : Bool) (p : Nat) : List (Nat × Nat × Acc) → Option (Why × Nat)
  | [] => none
  | (lo, hi, acc) :: r =>
    worse (if overlap lo hi (4096 * p) (4096 * p + 4096) then (pageLocal k user acc p).map fun w => (w, max lo (4096 * p)) else none)
      (checkPage k user p r)
/-- Every page of the ranges, in ascending address (R117): the first failure with its lowest address. -/
def pagesCheck (k : Core) (user : Bool) (rs : List (Nat × Nat × Acc)) : Option (Why × Nat) :=
  ((rs.flatMap fun r => pagesOf r.1 r.2.1).foldl (fun l p => insertNat p l) []).findSome? fun p => checkPage k user p rs
/-- The lowest of some addresses that satisfy a condition. -/
def lowest (l : List (Bool × Nat)) : Option Nat := minTs ((l.filter (·.1)).map (·.2))
def trapLowest (c sub : Nat) (l : List (Bool × Nat)) : M Unit :=
  match lowest l with
  | some a => trapA c sub (BitVec.ofNat 64 a)
  | none => pure ()
/-- The lowest byte of [lo, hi) outside local memory. -/
def outside (lo hi : Nat) : Bool × Nat := (decide (0x200000 < hi), max lo 0x200000)
/-- The lowest byte of [lo, hi) in the anchor view. -/
def inView (s : State) (lo hi : Nat) : Bool × Nat :=
  (viewHit s lo hi, match farTask s with
    | some t => max lo (rcdOff t.rcd)
    | none => lo)

/-! ### Issue (R210, R211) -/

/-- An entry held by a copy or a gather. -/
def copyEntry (e : Score) : Bool := match e.owner with
  | .copy _ _ => true
  | _ => false
def meets (x y : List (Nat × Nat)) : Bool := x.any fun r => y.any fun q => overlap r.1 r.2 q.1 q.2
/-- Queue an item at the dispatcher: bk charged, a scoreboard entry taken (R121, R211, R394). -/
def bankQueue (w : BankWork) (writes reads : List (Nat × Nat)) : M Unit := do
  let s ← get
  let k := coreAt s s.cur.core
  forkReady
  stallIf (decide (63 ≤ (threadOf s).bk) || decide (Config.scoreEntries ≤ k.score.length))
  let item : BankItem := ⟨s.nextId, s.cur.unit, (slotOf s).serial, pcOf s, s.ir, w, 0, [], writerOf s⟩
  modify fun s => scoreAdd s s.cur.core ⟨.bank item.id, writes, reads⟩
  modCore fun k => { k with bankQ := k.bankQ ++ [item] }
  modThread fun t => { t with bk := t.bk + 1 }
  modify fun s => { s with nextId := s.nextId + 1 }
/-- The function's kind, as its checks tell it. -/
def isReduce (op : BankOp) : Bool := op == .rsum || op == .rmax || op == .exps
def needsFloat (op : BankOp) : Bool := op == .exps || op == .cvt
/-- Bytes of a reduction's result. -/
def resultLen (op : BankOp) : Nat := if op = .exps then 8 else 4
/-- Issue a bank command on destination base `x` under descriptor `d` (R205, R210, R211). -/
def bankIssue (op : BankOp) (x d : Word) (src : BankSrc) (res : Option Word) : M Next := do
  let s ← get
  let k := coreAt s s.cur.core
  let ty := bits d 13 12
  guardA (decide (bits d 31 14 = 0 ∧ bits d 11 10 = 0 ∧ ty ≠ 3)) 0x002 5 d
  guardA (!(needsFloat op && ty == 0)) 0x002 5 d
  let lo := x.toNat
  let n := bits d 9 0 + 1
  let hi := lo + 64 * n
  let y : Option Nat := match src with
    | .range b => some b
    | _ => none
  let r : Option Nat := res.map (·.toNat)
  let m := resultLen op
  trapLowest 0x065 0 ([(decide (lo % 64 ≠ 0), lo)] ++ (y.map fun b => (decide (b % 64 ≠ 0), b)).toList ++
    (r.map fun b => (decide (b % m ≠ 0), b)).toList)
  trapLowest 0x060 0 ([outside lo hi] ++ (y.map fun b => outside b (b + 64 * n)).toList ++ (r.map fun b => outside b (b + m)).toList)
  guardA (match y with
    | some b => b == lo || !overlap lo hi b (b + 64 * n)
    | none => true) 0x002 5 d
  let acc := if isReduce op then aRead else if op = .fill then aWrite else aBoth
  (match pagesCheck k (userMode s) ([(lo, hi, acc)] ++ (y.map fun b => (b, b + 64 * n, aRead)).toList ++
      (r.map fun b => (b, b + m, aWrite)).toList) with
    | some (w, a) => trapW w (BitVec.ofNat 64 a)
    | none => pure ())
  trapLowest 0x0C5 2 ([inView s lo hi] ++ (y.map fun b => inView s b (b + 64 * n)).toList ++ (r.map fun b => inView s b (b + m)).toList)
  let writes := match r with
    | some b => [roundLines b (b + m)]
    | none => [(lo, hi)]
  let reads := if isReduce op then [(lo, hi)] else match y with
    | some b => [(b, b + 64 * n)]
    | none => []
  let held := k.score.filter copyEntry
  stallIf (held.any fun e => meets writes (e.writes ++ e.reads) || meets reads e.writes)
  bankQueue (.command op (BitVec.ofNat 2 ty) (BitVec.ofNat 32 (bits d 63 32)) src lo n (r.getD 0) (List.range n) []) writes reads
  return .seq
/-- The scalar form, a reduction's result address, or none for BK.CVT; read in the order b, c, a (R204). -/
def bkScalar (op : BankOp) (a b c : GReg) : M Next := do
  let d ← readG b
  let y ← readG c
  let x ← readG a
  if isReduce op then bankIssue op x d (.scalar 0) (some y) else bankIssue op x d (.scalar y) none
def bkVector (op : BankOp) (a b : GReg) (c : VReg) : M Next := do
  guardD (!(op == .fma && c == 31)) 0x006 0
  let d ← readG b
  let x ← readG a
  let v := (← getSlot).v
  bankIssue op x d (.vector v[c.toNat]! v[c.toNat + 1]!) none
def bkRange (op : BankOp) (a b c : GReg) : M Next := do
  let d ← readG b
  let y ← readG c
  let x ← readG a
  bankIssue op x d (.range y.toNat) none

/-- BK.ADD (R204, R207). -/
def execBkAdd (a b c : GReg) (s : State) : Out :=
  instr uBank false [.rd b, .rd c, .rd a] (bkScalar .add a b c) s
/-- BK.MUL (R204, R207). -/
def execBkMul (a b c : GReg) (s : State) : Out :=
  instr uBank false [.rd b, .rd c, .rd a] (bkScalar .mul a b c) s
/-- BK.FMA (R204, R207). -/
def execBkFma (a b c : GReg) (s : State) : Out :=
  instr uBank false [.rd b, .rd c, .rd a] (bkScalar .fma a b c) s
/-- BK.MAX (R204, R207). -/
def execBkMax (a b c : GReg) (s : State) : Out :=
  instr uBank false [.rd b, .rd c, .rd a] (bkScalar .max a b c) s
/-- BK.MIN (R204, R207). -/
def execBkMin (a b c : GReg) (s : State) : Out :=
  instr uBank false [.rd b, .rd c, .rd a] (bkScalar .min a b c) s
/-- BK.SCL (R204, R207). -/
def execBkScl (a b c : GReg) (s : State) : Out :=
  instr uBank false [.rd b, .rd c, .rd a] (bkScalar .scl a b c) s
/-- BK.OR (R204, R207). -/
def execBkOr (a b c : GReg) (s : State) : Out :=
  instr uBank false [.rd b, .rd c, .rd a] (bkScalar .or a b c) s
/-- BK.AND (R204, R207). -/
def execBkAnd (a b c : GReg) (s : State) : Out :=
  instr uBank false [.rd b, .rd c, .rd a] (bkScalar .and a b c) s
/-- BK.FILL (R204, R207). -/
def execBkFill (a b c : GReg) (s : State) : Out :=
  instr uBank false [.rd b, .rd c, .rd a] (bkScalar .fill a b c) s
/-- BK.RSUM (R204, R208). -/
def execBkRsum (a b c : GReg) (s : State) : Out :=
  instr uBank false [.rd b, .rd c, .rd a] (bkScalar .rsum a b c) s
/-- BK.RMAX (R204, R208). -/
def execBkRmax (a b c : GReg) (s : State) : Out :=
  instr uBank false [.rd b, .rd c, .rd a] (bkScalar .rmax a b c) s
/-- BK.EXPS (R204, R208). -/
def execBkExps (a b c : GReg) (s : State) : Out :=
  instr uBank false [.rd b, .rd c, .rd a] (bkScalar .exps a b c) s
/-- BK.CVT (R204, R209). -/
def execBkCvt (a b : GReg) (s : State) : Out :=
  instr uBank false [.rd b, .rd a] (do
    let d ← readG b
    let x ← readG a
    bankIssue .cvt x d (.scalar 0) none) s
/-- BK.ADD, vector form (R204, R207). -/
def execBkAddV (a b : GReg) (c : VReg) (s : State) : Out :=
  instr uV false [.rd b, .rd a] (bkVector .add a b c) s
/-- BK.MUL, vector form (R204, R207). -/
def execBkMulV (a b : GReg) (c : VReg) (s : State) : Out :=
  instr uV false [.rd b, .rd a] (bkVector .mul a b c) s
/-- BK.FMA, vector form (R204, R207). -/
def execBkFmaV (a b : GReg) (c : VReg) (s : State) : Out :=
  instr uV false [.rd b, .rd a] (bkVector .fma a b c) s
/-- BK.MAX, vector form (R204, R207). -/
def execBkMaxV (a b : GReg) (c : VReg) (s : State) : Out :=
  instr uV false [.rd b, .rd a] (bkVector .max a b c) s
/-- BK.MIN, vector form (R204, R207). -/
def execBkMinV (a b : GReg) (c : VReg) (s : State) : Out :=
  instr uV false [.rd b, .rd a] (bkVector .min a b c) s
/-- BK.SCL, vector form (R204, R207). -/
def execBkSclV (a b : GReg) (c : VReg) (s : State) : Out :=
  instr uV false [.rd b, .rd a] (bkVector .scl a b c) s
/-- BK.OR, vector form (R204, R207). -/
def execBkOrV (a b : GReg) (c : VReg) (s : State) : Out :=
  instr uV false [.rd b, .rd a] (bkVector .or a b c) s
/-- BK.AND, vector form (R204, R207). -/
def execBkAndV (a b : GReg) (c : VReg) (s : State) : Out :=
  instr uV false [.rd b, .rd a] (bkVector .and a b c) s
/-- BK.FILL, vector form (R204, R207). -/
def execBkFillV (a b : GReg) (c : VReg) (s : State) : Out :=
  instr uV false [.rd b, .rd a] (bkVector .fill a b c) s
/-- BK.ADD, second-range form (R204, R207). -/
def execBkAddR (a b c : GReg) (s : State) : Out :=
  instr uBank false [.rd b, .rd c, .rd a] (bkRange .add a b c) s
/-- BK.MUL, second-range form (R204, R207). -/
def execBkMulR (a b c : GReg) (s : State) : Out :=
  instr uBank false [.rd b, .rd c, .rd a] (bkRange .mul a b c) s
/-- BK.FMA, second-range form (R204, R207). -/
def execBkFmaR (a b c : GReg) (s : State) : Out :=
  instr uBank false [.rd b, .rd c, .rd a] (bkRange .fma a b c) s
/-- BK.MAX, second-range form (R204, R207). -/
def execBkMaxR (a b c : GReg) (s : State) : Out :=
  instr uBank false [.rd b, .rd c, .rd a] (bkRange .max a b c) s
/-- BK.MIN, second-range form (R204, R207). -/
def execBkMinR (a b c : GReg) (s : State) : Out :=
  instr uBank false [.rd b, .rd c, .rd a] (bkRange .min a b c) s
/-- BK.OR, second-range form (R204, R207). -/
def execBkOrR (a b c : GReg) (s : State) : Out :=
  instr uBank false [.rd b, .rd c, .rd a] (bkRange .or a b c) s
/-- BK.AND, second-range form (R204, R207). -/
def execBkAndR (a b c : GReg) (s : State) : Out :=
  instr uBank false [.rd b, .rd c, .rd a] (bkRange .and a b c) s

/-! ### VAMO (R179, R180) -/

/-- The checks of the lanes in ascending order: 0x060 outside own memory or at its own window alias, then 0x065. -/
def laneChecks (n : Nat) : List Word → M Unit
  | [] => pure ()
  | a :: r => do
    guardA (decide (a.toNat < 0x200000)) 0x060 0 a
    guardA (decide (a.toNat % n = 0)) 0x065 0 a
    laneChecks n r
/-- VAMO (R179, R180). DESIGN CHOICE (log 25): the anchor view is compared with the bytes from the lowest to the highest lane, not with
the lines that the page check takes. -/
def vamo (op : AmoOp) (a : VReg) (b : GReg) (c : VReg) (vm : MReg) : M Next := do
  let t ← getVt
  guardD (if t.fp then t.fpk == 0 else t.sew == 32 || t.sew == 64) 0x002 5
  groupCheck [(a, t.grp), (c, t.grp)]
  let base ← readG b
  let s ← get
  let x := slotOf s
  let n := t.sew / 8
  let act := active t (maskOf x vm)
  let ix := groupOf x c.toNat t.grp
  let vals := groupOf x a.toNat t.grp
  let addrs := act.map fun i => base + BitVec.ofNat 64 (elemOf t.sew ix i * n)
  laneChecks n addrs
  let places := addrs.map (·.toNat)
  match minTs places with
  | none => return .seq
  | some lo =>
    let hi := places.foldl max lo + n
    (match pagesCheck (coreAt s s.cur.core) (userMode s) [((roundLines lo hi).1, (roundLines lo hi).2, aBoth)] with
      | some (w, p) => trapW w (BitVec.ofNat 64 p)
      | none => pure ())
    trapLowest 0x0C5 2 [inView s lo hi]
    bankQueue (.vamo op t.fp n (places.zip (act.map fun i => BitVec.ofNat 64 (elemOf t.sew vals i))))
      [roundLines lo hi] []
    return .seq
/-- VAMO.OR (R179, R180). -/
def execVamoOr (a : VReg) (b : GReg) (c : VReg) (vm : MReg) (s : State) : Out :=
  instr uV false [.rd b] (vamo .or a b c vm) s
/-- VAMO.AND (R179, R180). -/
def execVamoAnd (a : VReg) (b : GReg) (c : VReg) (vm : MReg) (s : State) : Out :=
  instr uV false [.rd b] (vamo .and a b c vm) s
/-- VAMO.ADD (R179, R180). -/
def execVamoAdd (a : VReg) (b : GReg) (c : VReg) (vm : MReg) (s : State) : Out :=
  instr uV false [.rd b] (vamo .add a b c vm) s
/-- VAMO.MAX (R179, R180). -/
def execVamoMax (a : VReg) (b : GReg) (c : VReg) (vm : MReg) (s : State) : Out :=
  instr uV false [.rd b] (vamo .max a b c vm) s
/-- VAMO.MIN (R179, R180). -/
def execVamoMin (a : VReg) (b : GReg) (c : VReg) (vm : MReg) (s : State) : Out :=
  instr uV false [.rd b] (vamo .min a b c vm) s

/-! ### At the banks (R206 to R209, R212) -/

/-- The bank of a byte (R115). -/
def bankOf (a : Nat) : Nat := a / 64 % 16
def bankFmt (ty : BitVec 2) : Fmt := if ty = 2 then .bf16 else .fp32
def bankWidth (ty : BitVec 2) : Nat := if ty = 2 then 16 else 32
/-- BK.SCL on one element: an FP32 scale, one rounding (R207). -/
def sclElem (ty : BitVec 2) (x s : Nat) : Fr Nat :=
  if ty = 0 then
    let p := mulV (.num (decide (sInt 32 x < 0)) (sInt 32 x).natAbs 0) (decodeF .fp32 s)
    let r := toInt .rne 32 true p.v
    ⟨wrapInt 32 r.v, p.f ||| r.f⟩
  else withRound (bankFmt ty) .rne (mulV (decodeF (bankFmt ty) x) (decodeF .fp32 s))
/-- One element of R207. -/
def bankElem (op : BankOp) (ty : BitVec 2) (x s y : Nat) : Fr Nat :=
  let f := bankFmt ty
  match op with
  | .add => if ty = 0 then exact ((x + s) % 2 ^ 32) else fAdd f .rne x s
  | .mul => if ty = 0 then exact (x * s % 2 ^ 32) else fMul f .rne x s
  | .fma => if ty = 0 then exact ((x * s + y) % 2 ^ 32) else fFma f .rne x s y
  | .max => if ty = 0 then exact (maxSN 32 x s) else fMax f x s
  | .min => if ty = 0 then exact (minSN 32 x s) else fMin f x s
  | .scl => sclElem ty x s
  | .or => exact (x ||| s)
  | .and => exact (x &&& s)
  | .fill => exact s
  | _ => exact x
/-- Operand and addend of element i (R206). -/
def bankOperand (op : BankOp) (ty : BitVec 2) (scal : BitVec 32) (src : BankSrc) (yline : BitVec 512) (i : Nat) : Nat × Nat :=
  let w := bankWidth ty
  match src with
  | .scalar v =>
    if op = .scl then (v.toNat % 2 ^ 32, 0) else (v.toNat % 2 ^ w, v.toNat / 2 ^ w % 2 ^ w)
  | .vector v u =>
    if op = .scl then (elemOf 32 v.toNat (if ty = 2 then i / 2 else i), 0) else (elemOf w v.toNat i, elemOf w u.toNat i)
  | .range _ =>
    if op = .fma then (scal.toNat % 2 ^ w, elemOf w yline.toNat i) else (elemOf w yline.toNat i, 0)
/-- A line after BK.CVT (R209). -/
def cvtLine (ty : BitVec 2) (line : Nat) : Nat × Flags :=
  let conv (i : Nat) : Fr Nat :=
    if ty = 1 then cvtF .fp32 .bf16 .rne (elemOf 32 line i) else cvtF .bf16 .fp32 .rne (elemOf 16 line i)
  (packElems (if ty = 1 then 16 else 32) (fun i => (conv i).v) 16, flagsOf (List.range 16) conv)
/-- A line after an element command. -/
def opLine (op : BankOp) (ty : BitVec 2) (scal : BitVec 32) (src : BankSrc) (line : Nat) (yline : BitVec 512) : Nat × Flags :=
  if op = .cvt then cvtLine ty line
  else
    let w := bankWidth ty
    let el (i : Nat) : Fr Nat :=
      let o := bankOperand op ty scal src yline i
      bankElem op ty (elemOf w line i) o.1 o.2
    (packElems w (fun i => (el i).v) (512 / w), flagsOf (List.range (512 / w)) el)
/-- One line of a command at its bank: read, operate, write, in one step (R212); a poisoned line stays (R218). -/
def commandLine (s : State) (c : Coord) (it : BankItem) (op : BankOp) (ty : BitVec 2) (scal : BitVec 32) (src : BankSrc)
    (base lines result : Nat) (todo : List Nat) (reads : List (Nat × BitVec 512)) (n : Nat) : State × BankItem :=
  let k := coreAt s c
  let a := base + 64 * n
  let y := match src with
    | .range b => some (b + 64 * n)
    | _ => none
  let bad := if op = .fill then [] else (poisonIn k a 64).toList ++ (y.bind fun b => poisonIn k b 64).toList
  let todo := dropFirst (fun j => j == n) todo
  let s := if op = .fill then s else y.toList.foldl (fun s b => readAt s c b 64) (readAt s c a 64)
  if bad ≠ [] then
    (s, { it with work := .command op ty scal src base lines result todo reads, poisoned := it.poisoned ++ bad })
  else if isReduce op then
      (s, { it with work := .command op ty scal src base lines result todo (reads ++ [(n, peekLine k.mem a)]) })
  else
      let r := opLine op ty scal src (peekNat k.mem a 64) (match y with
        | some b => peekLine k.mem b
        | none => 0)
      (writeNat s c a 64 r.1 it.writer, { it with work := .command op ty scal src base lines result todo reads, flags := it.flags ||| r.2 })
/-- One lane of a VAMO at its bank (R180). DEDUCED (log 103): where a lane still to come on the line would read a poisoned word, R218
leaves that line unchanged, and only the lanes at other lines are applied. -/
def vamoLane (s : State) (c : Coord) (it : BankItem) (op : AmoOp) (fp : Bool) (n : Nat) (lanes : List (Nat × Word))
    (lane : Nat × Word) : State × BankItem :=
  let k := coreAt s c
  let onLine (l : Nat × Word) : Bool := l.1 / 64 == lane.1 / 64
  let w := BankWork.vamo op fp n (dropFirst (fun l => l == lane) lanes)
  let s := readAt s c lane.1 n
  match (lanes.filter onLine).filterMap fun l => poisonIn k l.1 n with
  | p :: ps => (s, { it with work := .vamo op fp n (lanes.filter fun l => !onLine l), poisoned := it.poisoned ++ p :: ps })
  | [] =>
    let old := peekNat k.mem lane.1 n
    let v := lane.2.toNat
    let r : Fr Nat := match op, fp with
      | .add, true => fAdd .fp32 .rne old v
      | .max, true => fMax .fp32 old v
      | .min, true => fMin .fp32 old v
      | op, _ => exact (amoNew op n old v 0)
    (writeNat s c lane.1 n r.v it.writer, { it with work := w, flags := it.flags ||| r.f })
/-- What bank `j` still has to do of an item: a line, or a lane. -/
def workAt (j : Nat) (it : BankItem) : Bool :=
  match it.work with
  | .command _ _ _ _ base _ _ todo _ => todo.any fun n => bankOf (base + 64 * n) == j
  | .vamo _ _ _ lanes => lanes.any fun l => bankOf l.1 == j
/-- The next beat of bank `j` for an item. -/
def bankBeat (s : State) (c : Coord) (j : Nat) (it : BankItem) : State × BankItem :=
  match it.work with
  | .command op ty scal src base lines result todo reads =>
    match todo.find? fun n => bankOf (base + 64 * n) == j with
    | some n => commandLine s c it op ty scal src base lines result todo reads n
    | none => (s, it)
  | .vamo op fp n lanes =>
    match lanes.find? fun l => bankOf l.1 == j with
    | some l => vamoLane s c it op fp n lanes l
    | none => (s, it)
/-- What an item still has to do touches the line at `a`: a line of X or of the second range, a reduction's result, a
lane. -/
def touches (a : Nat) (it : BankItem) : Bool :=
  match it.work with
  | .command op _ _ src base _ result todo _ =>
    (todo.any fun n => base + 64 * n == a || match src with
      | .range b => b + 64 * n == a
      | _ => false) || (isReduce op && result / 64 * 64 == a)
  | .vamo _ _ _ lanes => lanes.any fun l => l.1 / 64 * 64 == a
/-- The lines that an item's next beat at bank `j` touches. -/
def beatLines (j : Nat) (it : BankItem) : List Nat :=
  match it.work with
  | .command _ _ _ src base _ _ todo _ => match todo.find? fun n => bankOf (base + 64 * n) == j with
    | some n => match src with
      | .range b => [base + 64 * n, b + 64 * n]
      | _ => [base + 64 * n]
    | none => []
  | .vamo _ _ _ lanes => ((lanes.find? fun l => bankOf l.1 == j).map fun l => l.1 / 64 * 64).toList
/-- No item dispatched before `it` still touches one of the lines: commands that touch one line go in dispatch order (R212). -/
def lineTurn (q : List BankItem) (it : BankItem) (ls : List Nat) : Bool :=
  !(q.takeWhile fun x => x.id != it.id).any fun x => ls.any fun a => touches a x
/-- BANK_LINE_UPDATE: a bank does the next line or lane of the first item that has one there, in dispatch order of every line
that this touches (R212). -/
def execBankLineUpdate (c : Coord) (bank : Fin 16) (s : State) : Out :=
  event (fun s =>
    match (coreAt s c).bankQ.find? (workAt bank.val) with
    | none => s
    | some it =>
      if !lineTurn (coreAt s c).bankQ it (beatLines bank.val it) then s else
      let r := bankBeat s c bank.val it
      mapCore r.1 c fun k => { k with bankQ := changeFirst (fun x => x.id == it.id) (fun _ => r.2) k.bankQ }) s

/-! ### Reductions (R28, R208) and retirement (R213) -/

/-- Lane j's terms from one line: one element, or two widened bf16 elements in order. -/
def laneTerms (ty : BitVec 2) (line j : Nat) : List (Fr Nat) :=
  if ty = 2 then [cvtF .bf16 .fp32 .rne (elemOf 16 line (2 * j)), cvtF .bf16 .fp32 .rne (elemOf 16 line (2 * j + 1))]
  else [exact (elemOf 32 line j)]
/-- Combine a non-empty list from the left. -/
def chainFr (f : Nat → Nat → Fr Nat) : List (Fr Nat) → Option (Fr Nat)
  | [] => none
  | x :: r => some (r.foldl (liftFr f) x)
/-- One bank's result: its lanes over its lines, then the tree of R27. -/
def bankSum (f : Nat → Nat → Fr Nat) (term : Fr Nat → Fr Nat) (ty : BitVec 2) (lines : List Nat) : Option (Fr Nat) :=
  treeOf (liftFr f) 4 ((List.range 16).map fun j => chainFr f ((lines.flatMap fun l => laneTerms ty l j).map term)).reduceOption
/-- The order of R28: banks in ascending number, each bank's lines in ascending address. -/
def reduceBanks (f : Nat → Nat → Fr Nat) (term : Fr Nat → Fr Nat) (ty : BitVec 2) (base lines : Nat)
    (reads : List (Nat × BitVec 512)) : Fr Nat :=
  let at' (j : Nat) : List Nat := ((List.range lines).filter fun n => bankOf (base + 64 * n) == j).map fun n => (mapGet 0 reads n).toNat
  (chainFr f ((List.range 16).map fun j => bankSum f term ty (at' j)).reduceOption).getD (exact 0)
/-- A step of BK.EXPS: FExp(x − m), each rounded (R28). -/
def expTerm (m : Nat) (x : Fr Nat) : Fr Nat :=
  let d := fSub .fp32 .rne x.v m
  let e := fExp d.v
  ⟨e.v, x.f ||| d.f ||| e.f⟩
/-- The result bytes of a reduction with their flags (R208). DESIGN CHOICE (log 18): a line that was poisoned counts as zeros for the
flags, which no rule gives; the result itself is then a free value (`reduceWrite`). -/
def reduceResult (op : BankOp) (ty : BitVec 2) (scal : BitVec 32) (base lines : Nat) (reads : List (Nat × BitVec 512)) :
    List Byte × Flags :=
  let sum (x y : Nat) : Fr Nat := if ty = 0 then exact ((x + y) % 2 ^ 32) else fAdd .fp32 .rne x y
  let mx (x y : Nat) : Fr Nat := if ty = 0 then exact (maxSN 32 x y) else fMax .fp32 x y
  let red (f : Nat → Nat → Fr Nat) (term : Fr Nat → Fr Nat) : Fr Nat := reduceBanks f term ty base lines reads
  if op = .rsum then
    let r := red sum id
    (leBytes 4 r.v, r.f)
  else if op = .rmax then
    let r := red mx id
    (leBytes 4 r.v, r.f)
  else
    let r := red sum (expTerm scal.toNat)
    let q := red mx id
    (leBytes 4 r.v ++ leBytes 4 q.v, r.f ||| q.f)
/-- The stream still runs the body that issued the operation. -/
def sameBody (k : Core) (u : UnitId) (serial : Nat) (w : Option (Coord × Nat)) : Bool :=
  match unitSlot u with
  | some i => (slotAt k i).serial == serial && (slotAt k i).task.isSome
  | none => ((taskOf k u).map fun t => (t.home, t.entry)) == w
/-- Retire an item: bk released, the entry freed, flags to EFLAGS (R18), a poisoned read due as a trap (R218). DESIGN CHOICE (log 91):
where the body that issued it has left the slot or unit, there is no stream to trap, and nothing is due. -/
def bankRetire (s : State) (c : Coord) (it : BankItem) (fl : Flags) : State :=
  mapCore s c fun k =>
    let same := sameBody k it.unit it.serial it.writer
    let k := freeScore { k with bankQ := dropFirst (fun x => x.id == it.id) k.bankQ } (.bank it.id)
    mapThread k it.unit fun t =>
      let t := { t with bk := t.bk - 1 }
      let t := if same && !isIbex it.unit then orEflags t (it.flags ||| fl) else t
      match minTs it.poisoned with
      | some p => if same then { t with due := t.due ++ [⟨why 0x181 0x42, BitVec.ofNat 64 p, it.pc, it.words⟩] } else t
      | none => t
/-- Every line is done. -/
def commandDone (it : BankItem) : Bool :=
  match it.work with
  | .command _ _ _ _ _ _ _ todo _ => todo.isEmpty
  | .vamo _ _ _ _ => false
def vamoDone (it : BankItem) : Bool :=
  match it.work with
  | .command _ _ _ _ _ _ _ _ _ => false
  | .vamo _ _ _ lanes => lanes.isEmpty
/-- The lines that an item's retirement writes. -/
def resultLines (it : BankItem) : List Nat :=
  match it.work with
  | .command op _ _ _ _ _ result _ _ => if isReduce op then [result / 64 * 64] else []
  | .vamo _ _ _ _ => []
/-- Write a reduction's result; over a poisoned line its value is left open and is a free value (log 18). -/
def reduceWrite (s : State) (c : Coord) (it : BankItem) (op : BankOp) (r : List Byte) (result : Nat) : State :=
  if it.poisoned.isEmpty then writeBytes s c result r it.writer
  else { writeNat s c result (resultLen op) ((Config.freeWord s.freeCtr).toNat % 2 ^ (8 * resultLen op)) it.writer with freeCtr := s.freeCtr + 1 }
/-- BANK_COMMAND_RETIRE (R208, R213). -/
def execBankCommandRetire (c : Coord) (s : State) : Out :=
  event (fun s =>
    match (coreAt s c).bankQ.find? fun it => commandDone it && lineTurn (coreAt s c).bankQ it (resultLines it) with
    | none => s
    | some it =>
      match it.work with
      | .command op ty scal _ base lines result _ reads =>
        if isReduce op then
          let r := reduceResult op ty scal base lines reads
          bankRetire (reduceWrite s c it op r.1 result) c it r.2
        else bankRetire s c it 0
      | .vamo _ _ _ _ => s) s
/-- VAMO_RETIRE (R180). -/
def execVamoRetire (c : Coord) (s : State) : Out :=
  event (fun s =>
    match (coreAt s c).bankQ.find? vamoDone with
    | none => s
    | some it => bankRetire s c it 0) s
/-- Energy that no launch spent goes into the housekeeping account (R350). -/
def addHousekeeping (s : State) : State :=
  { s with housekeeping := s.housekeeping + Config.meter s.freeCtr, freeCtr := s.freeCtr + 1 }
/-- PATROL_4: a single-bit error is corrected, a poisoned word is recorded in the die fault log (R218, R313); the energy is
housekeeping's (R350). -/
def execPatrolScrub (c : Coord) (addr : Nat) (s : State) : Out :=
  event (fun s =>
    if !isCore c then s
    else
      let s := addHousekeeping (readAt s c (addr / 8 * 8) 8)
      if (coreAt s c).poison.contains (addr / 8) then
        logFault s c c 0 (why 0x181 0) 4 0 (BitVec.ofNat 64 (addr / 8 * 8)) 0
      else s) s

end Sys2Proof.Machine
end

