-- ==== Sys2Proof/Machine/Matrix.lean ====
section
/-! DEFINITION. Machine/Matrix.lean: the matrix engine and the accumulator (R24 to R26, R240 to R259). -/
namespace Sys2Proof.Machine

/-! ### Operands -/

/-- A matrix instruction waits until the accumulator is present (R259). -/
def needAcc : M Unit := do stallIf (!(← getCore).accPresent)
/-- Element i of a tile of 96 columns. -/
def accIdx (r c : Nat) : Nat := 96 * r + c
def accGet (m : List (Nat × BitVec 32)) (r c : Nat) : Nat := (mapGet 0 m (accIdx r c)).toNat
/-- A whole tile from its elements, +0 not listed. -/
def accOf (f : Nat → Nat → Nat) : List (Nat × BitVec 32) :=
  (List.range 6144).filterMap fun i =>
    let v := BitVec.ofNat 32 (f (i / 96) (i % 96))
    if v = 0 then none else some (i, v)
/-- The canonical near address of an operand byte: its core and offset as the issuer names them. -/
def canon (c : Coord) (a : Nat) : Nat :=
  match resolveNear c false (BitVec.ofNat 64 a) with
  | .own x _ => x
  | _ => a
/-- The core and offset of a canonical near address. -/
def placeOf (c : Coord) (a : Nat) : Coord × Nat :=
  match resolveNear c false (BitVec.ofNat 64 a) with
  | .own x _ => (c, x)
  | .other d x => (d, x)
  | .none => (c, 0)
/-- The operand ranges of an operation: canonical start and length in bytes. -/
def rowBytes (f : Fmt) : Nat := if fmtWidth f = 6 then 96 else if fmtWidth f = 4 then 64 else 128
def kOf (f : Fmt) : Nat := if fmtWidth f = 16 then 64 else 128
def spanOf (f : Fmt) (rows stride : Nat) : Nat := (rows - 1) * stride + rowBytes f
def matRanges : MatOp → List (Nat × Nat)
  | .mma fa fb _ ba bb sa sb => [(ba, spanOf fa 64 sa), (bb, spanOf fb 96 sb)]
  | .scacc br bc => [(br, 256), (bc, 384)]
  | _ => []
/-- A line as the engine reads it, with its poisoned words (R244, R257, R398). -/
def readLine (s : State) (c : Coord) (line : Nat) : BitVec 512 × List Nat :=
  let p := placeOf c line
  let k := coreAt s p.1
  (peekLine k.mem p.2, (k.poison.filter fun w => overlap (8 * w) (8 * w + 8) p.2 (p.2 + 64)).map fun w => line + (8 * w - p.2))
/-- The item with one more line read. -/
def withLine (s : State) (c : Coord) (it : MatItem) (line : Nat) : MatItem :=
  if it.lines.any fun l => l.1 == line then it
  else
    let r := readLine s c line
    { it with lines := it.lines ++ [(line, r.1)], poisoned := it.poisoned ++ r.2 }
/-- The item with every line of its operands read. -/
def allLines (s : State) (c : Coord) (it : MatItem) : MatItem :=
  ((matRanges it.op).flatMap fun r => linesOf r.1 (r.1 + r.2)).foldl (withLine s c) it
/-- The engine reads lines, by canonical near address, of the members that hold them (R218). -/
def readLines (s : State) (c : Coord) (ls : List Nat) : State :=
  ls.foldl (fun s l => readAt s (placeOf c l).1 (placeOf c l).2 64) s
/-- The poisoned words among those that are operands or scales (R257). -/
def poisonedOperands (it : MatItem) : List Nat :=
  let meets (p a n : Nat) : Bool := overlap p (p + 8) a (a + n)
  it.poisoned.filter fun p => match it.op with
    | .mma fa fb _ ba bb sa sb =>
      (List.range 64).any (fun i => meets p (ba + i * sa) (rowBytes fa)) ||
        (List.range 96).any fun j => meets p (bb + j * sb) (rowBytes fb)
    | .scacc br bc => meets p br 256 || meets p bc 384
    | _ => false
/-- `n` bytes at canonical address `a` from the lines read. -/
def spanNat (lines : List (Nat × BitVec 512)) (a n : Nat) : Nat :=
  let l0 := a / 64 * 64
  let all := (linesOf a (a + n)).foldl (fun v l => v + (mapFirst lines l).toNat * 2 ^ (8 * (l - l0))) 0
  all / 2 ^ (8 * (a - l0)) % 2 ^ (8 * n)
where
  mapFirst (m : List (Nat × BitVec 512)) (l : Nat) : BitVec 512 := ((m.find? fun e => e.1 == l).map (·.2)).getD 0
/-- A poisoned word among `n` bytes. -/
def spoiled (it : MatItem) (a n : Nat) : Bool := it.poisoned.any fun p => overlap p (p + 8) a (a + n)
/-- The decoded elements of one row (R246, R248). -/
def matRow (it : MatItem) (f : Fmt) (a : Nat) : List FVal :=
  let v := spanNat it.lines a (rowBytes f)
  (List.range (kOf f)).map fun k => decodeF f (elemOf (fmtWidth f) v k)

/-! ### The element operations (R25, R26) -/

/-- ExactSum of a group of products, rounded to FP32 under RNE. -/
def groupSum (ps : List (FVal × FVal)) : Fr Nat :=
  match ps with
  | [] => exact 0
  | (x, y) :: r =>
    let z := r.foldl (fun acc q =>
      let p := mulV q.1 q.2
      let t := addV .rne acc.v p.v
      (⟨t.v, acc.f ||| p.f ||| t.f⟩ : Fr FVal)) (mulV x y)
    withRound .fp32 .rne z
/-- Groups of G pairs. -/
def groupsOf {α : Type} (g : Nat) : Nat → List α → List (List α)
  | 0, _ => []
  | n + 1, l => l.take g :: groupsOf g n (l.drop g)
def infZero (p : FVal × FVal) : Bool := (isInfV p.1 && isZeroV p.2) || (isZeroV p.1 && isInfV p.2)
/-- An element of P (R25). -/
def mmaElem (a b : List FVal) : Fr Nat :=
  let ps := a.zip b
  if a.any isNan || b.any isNan || ps.any infZero then
    ⟨0x7FC00000, if a.any isSnan || b.any isSnan || ps.any infZero then fV else 0⟩
  else
    (chainFr (fAdd .fp32 .rne) ((groupsOf (a.length / 4) 4 ps).map groupSum)).getD (exact 0)
/-- An element of W by SCACC (R26). -/
def scaccElem (p rs cs w : Nat) : Fr Nat :=
  let t := fMul .fp32 .rne p rs
  let u := fMul .fp32 .rne t.v cs
  let r := fAdd .fp32 .rne w u.v
  ⟨r.v, t.f ||| u.f ||| r.f⟩
/-- A tile of results, with the flags of all of them together. -/
def tileOf (f : Nat → Nat → Fr Nat) : List (Nat × BitVec 32) × Flags :=
  let l := (List.range 6144).map fun i => (i, f (i / 96) (i % 96))
  (l.filterMap fun e => if e.2.v % 2 ^ 32 = 0 then none else some (e.1, BitVec.ofNat 32 e.2.v), l.foldl (fun x e => x ||| e.2.f) 0)
/-- The default NaN where a poisoned word feeds the element (R257). -/
def orNan (bad : Bool) (r : Fr Nat) : Fr Nat := if bad then ⟨0x7FC00000, 0⟩ else r
/-- What an operation does to the accumulator, with its flags (R248 to R252). An exchange takes the
dirty bits with the contents (R252). DEDUCED (log 77): one of different contents also marks both banks as not the saved ones, so that
they are saved again (R259). -/
def matEffect (k : Core) (it : MatItem) : Core × Flags :=
  match it.op with
  | .mma fa fb _ ba bb sa sb =>
    let as := (List.range 64).map fun i => (matRow it fa (ba + i * sa), spoiled it (ba + i * sa) (rowBytes fa))
    let bs := (List.range 96).map fun j => (matRow it fb (bb + j * sb), spoiled it (bb + j * sb) (rowBytes fb))
    let r := tileOf fun i j =>
      let x := as.getD i ([], false)
      let y := bs.getD j ([], false)
      orNan (x.2 || y.2) (mmaElem x.1 y.1)
    ({ k with pAcc := r.1, pDirty := true }, r.2)
  | .mmaa =>
    let r := tileOf fun i j => fAdd .fp32 .rne (accGet k.wAcc i j) (accGet k.pAcc i j)
    ({ k with wAcc := r.1, wDirty := true }, r.2)
  | .scacc br bc =>
    let r := tileOf fun i j =>
      orNan (spoiled it (br + 4 * i) 4 || spoiled it (bc + 4 * j) 4)
        (scaccElem (accGet k.pAcc i j) (spanNat it.lines (br + 4 * i) 4) (spanNat it.lines (bc + 4 * j) 4) (accGet k.wAcc i j))
    ({ k with wAcc := r.1, wDirty := true }, r.2)
  | .accz => ({ k with wAcc := [], wDirty := true }, 0)
  | .swap =>
    let stale := k.wStale || k.vStale || k.wAcc != k.vAcc
    ({ k with wAcc := k.vAcc, vAcc := k.wAcc, wDirty := k.vDirty, vDirty := k.wDirty, wStale := stale, vStale := stale }, 0)

/-! ### Issue (R243, R247) -/

/-- The core and offset that an operand base names, where the access is allowed at all (R4, R291). -/
def operandAt (s : State) (a : Word) : Option (Coord × Nat) :=
  match resolveNear s.cur.core false a with
  | .own x _ => some (s.cur.core, x)
  | .other d x => if memberOk s d then some (d, x) else none
  | .none => none
/-- Checks 3 and 4 of R247 on one operand. -/
def operandMapped (s : State) (a : Word) : M Unit := guardA (operandAt s a).isSome 0x060 0 a
def operandWhole (s : State) (a : Word) (n : Nat) : M Unit :=
  guardA (match operandAt s a with
    | some p => decide (p.2 + n ≤ 0x200000)
    | none => false) 0x101 2 a
/-- Check 5 of R247: own pages here, another member's while the stream stalls. -/
def operandPages (s : State) (a : Word) (n : Nat) : M Unit :=
  match operandAt s a with
  | none => pure ()
  | some (d, x) =>
    if d = s.cur.core then
      match pagesCheck (coreAt s d) (userMode s) [(x, x + n, aRead)] with
      | some (w, p) => trapW w (a + BitVec.ofNat 64 (p - x))
      | none => pure ()
    else do
      let _ ← ansWord (← remote (.checkRead d x n))
/-- Own operand lines in a write range of the scoreboard hold the issue, and so does an earlier store of the far body to an operand
byte that its anchor buffer holds (R244, R394). -/
def operandHeld (s : State) (a : Word) (n : Nat) : Bool :=
  match operandAt s a with
  | some (d, x) => (d == s.cur.core && (let r := roundLines x (x + n); scoreW (coreAt s d) r.1 r.2)) || bufferedAt s d x n
  | none => false
/-- Enter the engine queue; mx charged where the operation counts (R243, R394). DESIGN CHOICE (log 90): in a speculative far body, whose
matrix operations R258 performs directly, it waits for the stores that the outgoing buffer holds. -/
def engineQueue (op : MatOp) : M Unit := do
  let s ← get
  forkReady
  stallIf (decide (63 ≤ (threadOf s).mx) || decide (Config.engineQueue ≤ (coreAt s s.cur.core).engQ.length))
  modCore fun k => { k with engQ := k.engQ ++ [⟨s.nextId, s.cur.unit, (slotOf s).serial, pcOf s, s.ir, op, [], []⟩] }
  modThread fun t => { t with mx := t.mx + 1 }
  modify fun s => { s with nextId := s.nextId + 1 }
/-- MMA of every format (R246 to R249). -/
def mma (fa fb : Fmt) (mc : Bool) (a b c : GReg) : M Next := do
  needAcc
  let y ← readG b
  let st ← readG c
  let x ← readG a
  let s ← get
  let sa := bits st 31 0
  let sb := bits st 63 32
  guardA (decide (sa = 0 ∨ (sa % 32 = 0 ∧ rowBytes fa ≤ sa))) 0x101 1 (BitVec.ofNat 64 sa)
  guardA (decide (sb = 0 ∨ (sb % 32 = 0 ∧ rowBytes fb ≤ sb))) 0x101 1 (BitVec.ofNat 64 sb)
  let sa := if sa = 0 then rowBytes fa else sa
  let sb := if sb = 0 then rowBytes fb else sb
  guardA (decide (x.toNat % 32 = 0)) 0x065 0 x
  guardA (decide (y.toNat % 32 = 0)) 0x065 0 y
  operandMapped s x
  operandMapped s y
  let na := spanOf fa 64 sa
  let nb := spanOf fb 96 sb
  operandWhole s x na
  operandWhole s y nb
  operandPages s x na
  operandPages s y nb
  stallIf (operandHeld s x na || operandHeld s y nb)
  engineQueue (.mma fa fb mc (canon s.cur.core x.toNat) (canon s.cur.core y.toNat) sa sb)
  return .seq
/-- MMA.E4M3 (R246 to R249). -/
def execMmaE4m3 (a b c : GReg) (s : State) : Out :=
  instr uV false [.rd b, .rd c, .rd a] (mma .e4m3 .e4m3 false a b c) s
/-- MMA.E5M2 (R246 to R249). -/
def execMmaE5m2 (a b c : GReg) (s : State) : Out :=
  instr uV false [.rd b, .rd c, .rd a] (mma .e5m2 .e5m2 false a b c) s
/-- MMA.E3M2 (R246 to R249). -/
def execMmaE3m2 (a b c : GReg) (s : State) : Out :=
  instr uV false [.rd b, .rd c, .rd a] (mma .e3m2 .e3m2 false a b c) s
/-- MMA.E2M3 (R246 to R249). -/
def execMmaE2m3 (a b c : GReg) (s : State) : Out :=
  instr uV false [.rd b, .rd c, .rd a] (mma .e2m3 .e2m3 false a b c) s
/-- MMA.E2M1 (R246 to R249). -/
def execMmaE2m1 (a b c : GReg) (s : State) : Out :=
  instr uV false [.rd b, .rd c, .rd a] (mma .e2m1 .e2m1 false a b c) s
/-- MMA.BF16 (R246 to R249). -/
def execMmaBf16 (a b c : GReg) (s : State) : Out :=
  instr uV false [.rd b, .rd c, .rd a] (mma .bf16 .bf16 false a b c) s
/-- MMA.F16 (R246 to R249). -/
def execMmaF16 (a b c : GReg) (s : State) : Out :=
  instr uV false [.rd b, .rd c, .rd a] (mma .f16 .f16 false a b c) s
/-- MMA.E4M3E5M2 (R246 to R249). -/
def execMmaE4m3e5m2 (a b c : GReg) (s : State) : Out :=
  instr uV false [.rd b, .rd c, .rd a] (mma .e4m3 .e5m2 false a b c) s
/-- MMA.E5M2E4M3 (R246 to R249). -/
def execMmaE5m2e4m3 (a b c : GReg) (s : State) : Out :=
  instr uV false [.rd b, .rd c, .rd a] (mma .e5m2 .e4m3 false a b c) s
/-- MMA.E4M3.MC (R246 to R249). -/
def execMmaE4m3Mc (a b c : GReg) (s : State) : Out :=
  instr uV false [.rd b, .rd c, .rd a] (mma .e4m3 .e4m3 true a b c) s
/-- MMA.E5M2.MC (R246 to R249). -/
def execMmaE5m2Mc (a b c : GReg) (s : State) : Out :=
  instr uV false [.rd b, .rd c, .rd a] (mma .e5m2 .e5m2 true a b c) s
/-- MMA.E3M2.MC (R246 to R249). -/
def execMmaE3m2Mc (a b c : GReg) (s : State) : Out :=
  instr uV false [.rd b, .rd c, .rd a] (mma .e3m2 .e3m2 true a b c) s
/-- MMA.E2M3.MC (R246 to R249). -/
def execMmaE2m3Mc (a b c : GReg) (s : State) : Out :=
  instr uV false [.rd b, .rd c, .rd a] (mma .e2m3 .e2m3 true a b c) s
/-- MMA.E2M1.MC (R246 to R249). -/
def execMmaE2m1Mc (a b c : GReg) (s : State) : Out :=
  instr uV false [.rd b, .rd c, .rd a] (mma .e2m1 .e2m1 true a b c) s
/-- MMA.BF16.MC (R246 to R249). -/
def execMmaBf16Mc (a b c : GReg) (s : State) : Out :=
  instr uV false [.rd b, .rd c, .rd a] (mma .bf16 .bf16 true a b c) s
/-- MMA.F16.MC (R246 to R249). -/
def execMmaF16Mc (a b c : GReg) (s : State) : Out :=
  instr uV false [.rd b, .rd c, .rd a] (mma .f16 .f16 true a b c) s
/-- MMA.E4M3E5M2.MC (R246 to R249). -/
def execMmaE4m3e5m2Mc (a b c : GReg) (s : State) : Out :=
  instr uV false [.rd b, .rd c, .rd a] (mma .e4m3 .e5m2 true a b c) s
/-- MMA.E5M2E4M3.MC (R246 to R249). -/
def execMmaE5m2e4m3Mc (a b c : GReg) (s : State) : Out :=
  instr uV false [.rd b, .rd c, .rd a] (mma .e5m2 .e4m3 true a b c) s
/-- MMAA (R250). -/
def execMmaa (s : State) : Out :=
  instr uV false [] (do
    needAcc
    engineQueue .mmaa
    return .seq) s
/-- SCACC (R251). -/
def execScacc (b c : GReg) (s : State) : Out :=
  instr uV false [.rd b, .rd c] (do
    needAcc
    let x ← readG b
    let y ← readG c
    let s ← get
    guardA (decide (x.toNat % 4 = 0)) 0x065 0 x
    guardA (decide (y.toNat % 4 = 0)) 0x065 0 y
    operandMapped s x
    operandMapped s y
    operandWhole s x 256
    operandWhole s y 384
    operandPages s x 256
    operandPages s y 384
    stallIf (operandHeld s x 256 || operandHeld s y 384)
    engineQueue (.scacc (canon s.cur.core x.toNat) (canon s.cur.core y.toNat))
    return .seq) s
/-- ACCZ (R250). -/
def execAccz (s : State) : Out :=
  instr uV false [] (do
    needAcc
    engineQueue .accz
    return .seq) s
/-- ACCSWAP: queued, and the stream stalls until the exchange is made (R252). -/
def execAccswap (s : State) : Out :=
  instr uV false [] (do
    needAcc
    let k ← getCore
    let t ← getThread
    if t.pend.any fun p => p.pc == t.pc && p.req == .swap 0 then pure ()
    else stallIf (decide (Config.engineQueue ≤ k.engQ.length))
    let _ ← remote (.swap 0)
    return .seq) s
/-- ACFG (R253). -/
def execAcfg (b : GReg) (s : State) : Out :=
  instr uV false [.rd b] (do
    needAcc
    let v ← readG b
    let r := bits v 6 0
    let c := bits v 14 8
    guardA (decide (v = 0 ∨ (1 ≤ r ∧ r ≤ 64 ∧ [16, 32, 48, 64, 80, 96].contains c ∧ v.toNat = c * 256 + r))) 0x100 3 v
    modCore fun k => { k with acfg := v }
    return .seq) s

/-! ### The visible bank (R254, R255) -/

/-- The cell of element i: row x from column y on, or column x from row y on. -/
def cellOf (row : Bool) (x y i : Nat) : Nat × Nat := if row then (x, y + i) else (y + i, x)
def cellOk (acfg : Word) (p : Nat × Nat) : Bool := decide (p.1 < bits acfg 6 0 ∧ p.2 < bits acfg 14 8)
/-- The checks of R254 up to the cells; the type and x and y, or nothing with VL = 0. -/
def accAccess (row : Bool) (a : VReg) (b c : GReg) (vm : MReg) : M (Option (VT × Nat × Nat)) := do
  needAcc
  let t ← getVt
  guardD (t.fp && t.fpk == 0) 0x002 5
  groupCheck [(a, t.grp)]
  if t.vl = 0 then return none
  let k ← getCore
  guardA (k.acfg != 0) 0x100 1 0
  let x := (← readG b).toNat
  let y := (← readG c).toNat
  (match (active t (maskOf (← getSlot) vm)).find? fun i => !cellOk k.acfg (cellOf row x y i) with
    | some i => trapA 0x100 2 (BitVec.ofNat 64 i)
    | none => pure ())
  return some (t, x, y)
def accRead (row : Bool) (a : VReg) (b c : GReg) (vm : MReg) : M Next := do
  match ← accAccess row a b c vm with
  | none => return .seq
  | some (t, x, y) =>
    let v := (← getCore).vAcc
    vWrite t 32 a t.grp vm fun i => exact (accGet v (cellOf row x y i).1 (cellOf row x y i).2)
    return .seq
def accWrite (row : Bool) (a : VReg) (b c : GReg) (vm : MReg) : M Next := do
  match ← accAccess row a b c vm with
  | none => return .seq
  | some (t, x, y) =>
    let z ← vGet a t.grp
    let act := active t (maskOf (← getSlot) vm)
    modCore fun k => { k with
      vAcc := act.foldl (fun m i =>
        mapSet 0 (accIdx (cellOf row x y i).1 (cellOf row x y i).2) (BitVec.ofNat 32 (elemOf 32 z i)) m) k.vAcc
      vDirty := k.vDirty || !act.isEmpty }
    return .seq
/-- ACCRD.R (R254). -/
def execAccrdR (a : VReg) (b c : GReg) (vm : MReg) (s : State) : Out :=
  instr uV false [.rd b, .rd c] (accRead true a b c vm) s
/-- ACCWR.R (R254). -/
def execAccwrR (a : VReg) (b c : GReg) (vm : MReg) (s : State) : Out :=
  instr uV false [.rd b, .rd c] (accWrite true a b c vm) s
/-- ACCRD.C (R254). -/
def execAccrdC (a : VReg) (b c : GReg) (vm : MReg) (s : State) : Out :=
  instr uV false [.rd b, .rd c] (accRead false a b c vm) s
/-- ACCWR.C (R254). -/
def execAccwrC (a : VReg) (b c : GReg) (vm : MReg) (s : State) : Out :=
  instr uV false [.rd b, .rd c] (accWrite false a b c vm) s
/-- A stored element (R255). -/
def accstElem (f : Lit3) (v : Nat) : Fr Nat :=
  if f = 0 then exact v
  else if f = 1 then
    let r := cvtF .fp32 .bf16 .rne v
    if r.f &&& fO = 0 then r else ⟨signCode .bf16 (v.testBit 31) + maxCode .bf16, fO ||| fI⟩
  else saturate .fp32 .e4m3 .rne true v
def accstSize (f : Lit3) : Nat := if f = 0 then 4 else if f = 1 then 2 else 1
/-- Poisoned words that share a byte with one of the ranges count as written whole (R257). -/
def unpoison (k : Core) (rs : List (Nat × Nat)) : Core :=
  let hit (p : Nat) : Bool := rs.any fun r => overlap (8 * p) (8 * p + 8) r.1 r.2
  { k with poison := k.poison.filter fun p => !hit p, flawed := k.flawed.filter fun p => !(hit p && k.poison.contains p) }
/-- Write the rows of the window in order. -/
def accstRows (s : State) (c : Coord) (f : Lit3) (v : List (Nat × BitVec 32)) (cols base stride : Nat)
    (w : Option (Coord × Nat)) : List Nat → State
  | [] => s
  | r :: rs =>
    let s := writeBytes s c (base + r * stride) ((List.range cols).flatMap fun j =>
      leBytes (accstSize f) (accstElem f (accGet v r j)).v) w
    accstRows s c f v cols base stride w rs
/-- ACCST (R255). -/
def execAccst (a b : GReg) (f : Lit3) (s : State) : Out :=
  instr uV false [.rd b, .rd a] (do
    guardD (decide (f.toNat ≤ 2)) 0x002 5
    needAcc
    let st ← readG b
    let x ← readG a
    let s ← get
    let k := coreAt s s.cur.core
    let n := accstSize f
    let rows := bits k.acfg 6 0
    let cols := bits k.acfg 14 8
    guardA (k.acfg != 0) 0x100 1 0
    guardA (decide (x.toNat % n = 0)) 0x065 0 x
    guardA (decide (st.toNat % n = 0)) 0x065 0 st
    guardA (decide (cols * n ≤ st.toNat)) 0x101 1 st
    let row (r : Nat) : Nat × Nat := (x.toNat + r * st.toNat, x.toNat + r * st.toNat + cols * n)
    let rs := (List.range rows).map row
    trapLowest 0x060 0 (rs.map fun r => outside r.1 r.2)
    (match pagesCheck k (userMode s) (rs.map fun r => (r.1, r.2, aWrite)) with
      | some (w, p) => trapW w (BitVec.ofNat 64 p)
      | none => pure ())
    stallIf (rs.any fun r => scoreRW k (roundLines r.1 r.2).1 (roundLines r.1 r.2).2)
    let fl := (List.range (rows * cols)).foldl (fun fl i => fl ||| (accstElem f (accGet k.vAcc (i / cols) (i % cols))).f) 0
    modify fun s => accstRows s s.cur.core f k.vAcc cols x.toNat st.toNat (writerOf s) (List.range rows)
    modCore fun k => if k.poison.isEmpty then k else unpoison k rs
    modThread fun t => orEflags t fl
    return .seq) s

/-! ### The engine (R243, R244, R249, R257) -/

/-- A stream's request is answered. -/
def answerPend (k : Core) (u : UnitId) (id : Nat) (a : Ans) : Core :=
  mapThread k u fun t => { t with pend := changeFirst (fun p => p.id == id) (fun p => { p with ans := some a }) t.pend }
/-- An operation retires: result written, flags ORed, mx released, ACCSWAP's stream answered; a poisoned operand is due
as a trap. DESIGN CHOICE (log 91): where the body that issued it has left the slot, nothing is due. -/
def matRetire (k : Core) (it : MatItem) : Core :=
  let r := matEffect k it
  let k := { r.1 with engQ := r.1.engQ.drop 1 }
  let same := sameBody k it.unit it.serial none
  let counts := it.op != .swap
  let k := mapThread k it.unit fun t =>
    let t := if counts then { t with mx := t.mx - 1 } else t
    let t := if same then orEflags t r.2 else t
    match minTs (poisonedOperands it) with
    | some p => if same then { t with due := t.due ++ [⟨why 0x181 0x43, BitVec.ofNat 64 p, it.pc, it.words⟩] } else t
    | none => t
  if counts then k else answerPend k it.unit it.id (.value 0)
/-- MATRIX_OP_RETIRE: the head of the engine queue (R243). -/
def execMatrixOpRetire (c : Coord) (s : State) : Out :=
  event (fun s =>
    match (coreAt s c).engQ with
    | [] => s
    | it :: _ =>
      if (coreAt s c).accPresent then
        let whole := allLines s c it
        let s := readLines s c ((whole.lines.drop it.lines.length).map (·.1))
        mapCore s c fun k => matRetire k whole
      else s) s
/-- A queued operation reads one of its lines early (R244). -/
def engineRead (s : State) (c : Coord) (id line : Nat) : State :=
  mapCore (readLines s c [line]) c fun k => { k with engQ := changeFirst (fun x => x.id == id) (fun it =>
    if (matRanges it.op).any (fun r => (linesOf r.1 (r.1 + r.2)).contains line) then withLine s c it line else it) k.engQ }
/-- MC_HOLD_EXPIRY: a held read is served to those who asked (R249): the .MC operations of the core's cluster that need
the line read it at this moment. DESIGN CHOICE (log 111): of every core of the cluster, not of one row or column alone; which operation
is served early no access tells (R244). -/
def mcReader (s : State) (c d : Coord) (line : Nat) : State :=
  mapCore s d fun k => { k with engQ := k.engQ.map fun it =>
    match it.op with
    | .mma _ _ true _ _ _ _ =>
      (matRanges it.op).foldl (fun it r =>
        (linesOf r.1 (r.1 + r.2)).foldl (fun it l => if placeOf d l == (c, line) then withLine s d it l else it) it) it
    | _ => it }
def execMcHoldExpiry (c : Coord) (line : Nat) (s : State) : Out :=
  event (fun s =>
    (List.range 16).foldl (fun t j => mcReader t c (member c j) (line / 64 * 64)) (readAt s c (line / 64 * 64) 64)) s

end Sys2Proof.Machine
end

