-- ==== Sys2Proof/Machine/Global.lean ====
section
/-! DEFINITION. Machine/Global.lean: translation (R327 to R335), global memory (R336, R337, R139), the requests of access
streams (R135 to R143, R357), lost replies (R314, R390), and shoot-downs (R335, R380). -/
namespace Sys2Proof.Machine

/-! ### Translation -/

/-- What an access asks of a leaf (R332). -/
inductive GAccess where
  | read | write | atomic
  deriving DecidableEq, Repr
/-- The station that serves a virtual address, of 32: a[16:15] of gateway die 16 + a[14:12] (R327). -/
def stationOf (a : Nat) : Nat := natBits a 14 12 * 4 + natBits a 16 15
/-- The gateway die of a device physical address, and its channel there (R328). -/
def gatewayOf (p : Nat) : Nat := 16 + natBits p 14 12
def channelOf (p : Nat) : Nat := natBits p 20 15
/-- The gateway die that serves a physical address: die 16 for host memory (R328). -/
def servedBy (p : Phys) : Nat := if p.host then 16 else gatewayOf p.addr
/-- log2 of the page size of a leaf at level n (R330). -/
def pageBits (n : Nat) : Nat := if n = 3 then 30 else if n = 4 then 21 else 12
/-- An entry that R332 calls malformed. -/
def malformedEntry (n a : Nat) (e : Word) : Bool :=
  let leaf := e.getLsbD 1
  bits e 63 48 != 0 || bits e 11 6 != 0 || (leaf && decide (n ≤ 2)) || (!leaf && n == 5) ||
    (!leaf && bits e 5 2 != 0) || (leaf && decide (bits e 47 12 * 4096 % 2 ^ pageBits n ≠ 0)) ||
    (!e.getLsbD 5 && bits e 47 41 != 0) || (n == 5 && !e.getLsbD 5 && bits e 14 12 != natBits a 14 12)
/-- The walk from a table on: the level and entry of the leaf (R330, R332). -/
def walkFrom (s : State) (a : Nat) : List Nat → Nat → Except Why (Nat × Word)
  | [], _ => .error (why 0x084 5)
  | n :: r, t =>
    let p := t + 8 * natBits a (65 - 9 * n) (57 - 9 * n)
    let e : Word := BitVec.ofNat 64 (peekNat s.gmem p 8)
    if s.gpoison.contains (p / 8) then .error (why 0x084 n)
    else if !e.getLsbD 0 then .error (why 0x081 n)
    else if malformedEntry n a e then .error (why 0x084 n)
    else if e.getLsbD 1 then .ok (n, e)
    else walkFrom s a r (bits e 47 12 * 4096)
/-- The walk of a PID's table from its directory entry (R329, R332). -/
def walk (s : State) (pid : BitVec 20) (a : Nat) : Except Why (Nat × Word) :=
  let p := bits s.host.pidDir 40 12 * 4096 + 8 * pid.toNat
  let d : Word := BitVec.ofNat 64 (peekNat s.gmem p 8)
  if s.gpoison.contains (p / 8) || !d.getLsbD 0 || bits d 11 1 != 0 || bits d 63 41 != 0 then .error (why 0x083 0)
  else walkFrom s a [1, 2, 3, 4, 5] (bits d 40 12 * 4096)
/-- A translation that the station keeps (R334). -/
def keptXlat (s : State) (pid : BitVec 20) (a : Nat) : Option (Nat × Word) :=
  (s.tlb.find? fun x => x.station == stationOf a && x.pid == pid && x.page == a / 2 ^ pageBits x.level).map fun x => (x.level, x.entry)
/-- The subcode of a refused right (R332). -/
def rightMissing (k : GAccess) (e : Word) : Option Nat :=
  match k with
  | .read => if e.getLsbD 2 then none else some 1
  | .write => if e.getLsbD 3 then none else some 2
  | .atomic => if e.getLsbD 2 && e.getLsbD 3 && e.getLsbD 4 then none else some 3
def grant (k : GAccess) (a : Nat) (n : Nat) (e : Word) : Except Why Phys :=
  match rightMissing k e with
  | some i => .error (why 0x082 i)
  | none => .ok ⟨bits e 47 12 * 4096 + a % 2 ^ pageBits n, e.getLsbD 5, pageBits n⟩
/-- Translate of R332; a station keeps what it walks (R334). -/
def translate (s : State) (pid : BitVec 20) (a : Nat) (k : GAccess) : State × Except Why Phys :=
  match keptXlat s pid a with
  | some (n, e) => (s, grant k a n e)
  | none =>
    match walk s pid a with
    | .error w => (s, .error w)
    | .ok (n, e) => ({ s with tlb := s.tlb ++ [⟨stationOf a, pid, n, a / 2 ^ pageBits n, e⟩] }, grant k a n e)

/-- The translation that an access held by the host link has been granted, else a new one (R334). -/
def xlatFor (s : State) (pid : BitVec 20) (a : Nat) (k : GAccess) : State × Except Why Phys :=
  match s.grants.find? fun g => g.pid == pid && g.addr == a && g.write == (k == .write) with
  | some g => (s, .ok g.phys)
  | none => translate s pid a k

/-! ### Global memory -/

/-- The link carries accesses to host memory (R328, R390). -/
def carried (s : State) (p : Phys) : Bool := !p.host || s.hostLink
/-- A device word of the range that is poisoned (R337). -/
def gPoisoned (s : State) (p : Phys) (n : Nat) : Bool :=
  !p.host && s.gpoison.any fun w => overlap (8 * w) (8 * w + 8) p.addr (p.addr + n)
def gPeek (s : State) (p : Phys) (n : Nat) : List Byte := peeks (if p.host then s.hmem else s.gmem) p.addr n
/-- Line `l` becomes resident at its die's cache, dirty where `dirty`. A full cache of 128 MiB evicts one of its lines first
(R326); which one changes no access (R336). -/
def cachePut (c : List (Nat × Bool)) (l : Nat) (dirty : Bool) : List (Nat × Bool) :=
  let rival (e : Nat × Bool) : Bool := e.1 != l && gatewayOf (64 * e.1) == gatewayOf (64 * l)
  mapPut l dirty (if Config.cacheLines ≤ (c.filter rival).length then dropFirst rival c else c)
/-- A line is asked for: it becomes resident, and stays dirty where it was. -/
def cacheTouch (c : List (Nat × Bool)) (l : Nat) : List (Nat × Bool) := cachePut c l (mapGet false c l)
/-- A write takes effect at the memory-side cache; a word written as a whole loses its poison (R336, R337). -/
def gPoke (s : State) (p : Phys) (bs : List Byte) : State :=
  if p.host then { s with hmem := pokes s.hmem p.addr bs }
  else
    let ww := wholeWords p.addr bs.length
    { s with gmem := pokes s.gmem p.addr bs, gpoison := s.gpoison.filter fun w => !ww.contains w
             cache := (linesOf p.addr (p.addr + bs.length)).foldl (fun c l => cachePut c (l / 64) true) s.cache }
/-- Read `n` bytes of one page: a poisoned word refuses; `none` while the host link holds it. -/
def physRead (s : State) (p : Phys) (n : Nat) : Option (Except Why (Phys × List Byte)) :=
  if !carried s p then none
  else if gPoisoned s p n then some (.error (why 0x181 5))
  else some (.ok (p, gPeek s p n))
/-- Read bytes of one page at a virtual address, the word poisoned or the translation refused otherwise; `none` while
the host link holds it. -/
def gRead (s : State) (pid : BitVec 20) (a n : Nat) (k : GAccess) : State × Option (Except Why (Phys × List Byte)) :=
  match xlatFor s pid a k with
  | (s, .error w) => (s, some (.error w))
  | (s, .ok p) => (s, physRead s p n)
/-- Write bytes of one page at a virtual address. -/
def gWrite (s : State) (pid : BitVec 20) (a : Nat) (bs : List Byte) : State × Option (Except Why Unit) :=
  match xlatFor s pid a .write with
  | (s, .error w) => (s, some (.error w))
  | (s, .ok p) => if !carried s p then (s, none) else (gPoke s p bs, some (.ok ()))
/-- The translations that accesses at some addresses are granted, in order, as far as the first that the host link holds. -/
def grantsUpTo (s : State) (o : HeldBy) (pid : BitVec 20) (k : GAccess) : List Nat → List Grant
  | [] => []
  | a :: r => match (xlatFor s pid a k).2 with
    | .error _ => []
    | .ok p => ⟨o, pid, a, k == .write, p, s.time⟩ :: if carried s p then grantsUpTo s o pid k r else []
/-- Granted translations are kept for the accesses that the host link holds for `o` (R334). -/
def keepGrants (s : State) (l : List Grant) : State :=
  { s with grants := s.grants ++ l.filter fun g => !s.grants.any fun h => h.owner == g.owner && h.addr == g.addr && h.write == g.write }
/-- The host link holds no access that `p` names any more. -/
def freeGrants (s : State) (p : Grant → Bool) : State := { s with grants := s.grants.filter fun g => !p g }
def queueGrant (q : BitVec 10) (g : Grant) : Bool := g.owner == .queue q.toNat
def launchGrant (l : Nat) (g : Grant) : Bool := match g.owner with
  | .launch m => m == l
  | .restore m _ => m == l
  | _ => false
/-- PREF on one line: resident where the walk succeeds (R139). -/
def prefLine (s : State) (pid : BitVec 20) (l : Nat) : State :=
  if l < 2 ^ 32 ∨ 2 ^ 57 ≤ l then s
  else match translate s pid l .read with
    | (s, .ok p) => if p.host then s else { s with cache := cacheTouch s.cache (p.addr / 64) }
    | (s, .error _) => s
/-- MSCFL line by line: the first fault ends it (R139). DESIGN CHOICE (log 78): a line at or above 2^57, past the checked first
address, faults as a GST there would (R136). -/
def flushLines (s : State) (pid : BitVec 20) : List Nat → State × Option Why
  | [] => (s, none)
  | l :: r =>
    if 2 ^ 57 ≤ l then (s, some (why 0x080 2))
    else match translate s pid l .write with
    | (s, .error w) => (s, some w)
    | (s, .ok p) =>
      flushLines (if p.host then s else { s with cache := s.cache.filter fun e => !(e.1 == p.addr / 64 && e.2) }) pid r

/-! ### Requests (R336, R357) -/

def kindLen : GKind → Nat
  | .load n => n
  | .store bs => bs.length
  | .amo _ _ _ => 8
  | .pref _ => 0
  | .mscfl _ => 0
/-- An earlier request of the same stream to one of the bytes goes first (R101, R138, R357). -/
def gBefore (r e : GReq) : Bool :=
  e.origin.core == r.origin.core && e.origin.slot == r.origin.slot && e.origin.side == r.origin.side && e.reply.isNone &&
    overlap e.addr.toNat (e.addr.toNat + kindLen e.kind) r.addr.toNat (r.addr.toNat + kindLen r.kind)
/-- The request `id`, where nothing holds it back. -/
def gReady : List GReq → Nat → List GReq → Option GReq
  | [], _, _ => none
  | r :: l, id, seen =>
    if r.id == id then (if r.reply.isNone && !seen.any (gBefore r) then some r else none) else gReady l id (seen ++ [r])
def gReply (s : State) (id : Nat) (y : GReply) : State :=
  { s with gnet := changeFirst (fun r => r.id == id) (fun r => { r with reply := some y, held := false }) s.gnet }
/-- The host link holds a request from now on (R390). -/
def gHold (s : State) (id : Nat) : State :=
  { s with gnet := changeFirst (fun r => r.id == id) (fun r =>
      { r with held := true, since := if r.held then r.since else s.time }) s.gnet }
/-- A request's translation is granted once, and the request completes under it (R334). -/
def gGrant (s : State) (r : GReq) (k : GAccess) : State × Except Why Phys :=
  match r.granted with
  | some p => (s, .ok p)
  | none => match translate s r.pid r.addr.toNat k with
    | (s, .error w) => (s, .error w)
    | (s, .ok p) =>
      ({ s with gnet := changeFirst (fun x => x.id == r.id) (fun x => { x with granted := some p }) s.gnet }, .ok p)
def gDrop (s : State) (id : Nat) : State := { s with gnet := dropFirst (fun r => r.id == id) s.gnet }
/-- Perform a request at its gateway die, and answer it; held while the host link is down (R390). -/
def gPerform (s : State) (r : GReq) : State :=
  let a := r.addr.toNat
  match r.kind with
  | .load n =>
    match gGrant s r .read with
    | (s, .error w) => gReply s r.id (.error w)
    | (s, .ok p) => match physRead s p n with
      | none => gHold s r.id
      | some (.error w) => gReply s r.id (.error w)
      | some (.ok (_, bs)) => gReply s r.id (.data (signExt (8 * n) (leNat bs)))
  | .store bs =>
    match gGrant s r .write with
    | (s, .error w) => gReply s r.id (.error w)
    | (s, .ok p) => if carried s p then gReply (gPoke s p bs) r.id .done else gHold s r.id
  | .amo op x y =>
    match gGrant s r .atomic with
    | (s, .error w) => gReply s r.id (.error w)
    | (s, .ok p) => match physRead s p 8 with
      | none => gHold s r.id
      | some (.error w) => gReply s r.id (.error w)
      | some (.ok (_, bs)) =>
        gReply (gPoke s p (leBytes 8 (amoNew op 8 (leNat bs) x.toNat y.toNat))) r.id (.data (BitVec.ofNat 64 (leNat bs)))
  | .pref n => gDrop ((linesOf a (a + n)).foldl (fun s l => prefLine s r.pid l) s) r.id
  | .mscfl n =>
    match flushLines s r.pid (linesOf a (a + n)) with
    | (s, some w) => gReply s r.id (.error w)
    | (s, none) => gReply s r.id .done
/-- GLOBAL_ACCESS (R332, R336). -/
def execGlobalAccess (id : Nat) (s : State) : Out :=
  event (fun s => match gReady s.gnet id [] with
    | some r => if r.held && !s.hostLink then s else gPerform s r
    | none => s) s

/-! ### Replies -/

/-- A message or request of the same posted operation is still on its way. -/
def originBusy (s : State) (o : Origin) : Bool :=
  s.net.any (fun m => m.origin == some o && m.src == o.core) || s.net.any fun m => m.origin == some o && m.dst == o.core
/-- A reply to a posted operation: an error marks its entry failed; the last reply releases st and frees an entry that
did not fail, or whose fault is reported (R141). `a` is the refused address where one is known; the lowest counts (R167). An entry taken as lost gets no reply (R314). -/
def ackPosted (s : State) (o : Origin) (w : Option Why) (a : Option Word) : State :=
  match (slotAt (coreAt s o.core) o.slot).posted.find? fun p => p.seq == o.seq && !p.lost with
  | none => s
  | some p =>
    let keep := (p.failed.isSome || w.isSome) && !p.told
    let p1 : Posted := match if p.told then none else w with
      | none => p
      | some v => match p.failed, a with
        | some _, some b => if b.toNat < p.addr.toNat then { p with failed := some v, addr := b } else p
        | some _, none => p
        | none, _ => { p with failed := some v, addr := a.getD p.addr }
    let busy := originBusy s o
    mapCore s o.core fun k =>
      let k := mapSlot k o.slot fun x =>
        { x with posted := if keep || busy then changeFirst (fun q => q.seq == o.seq) (fun _ => p1) x.posted
                           else dropFirst (fun q => q.seq == o.seq) x.posted }
      if busy then k else mapThread k (.stream o.slot o.side) fun t => { t with st := t.st - 1 }
/-- GLOBAL_WRITE_ACK: a GST's or MSCFL's reply reaches its stream (R138, R141). -/
def execGlobalWriteAck (id : Nat) (s : State) : Out :=
  event (fun s =>
    match s.gnet.find? fun r => r.id == id with
    | some r => match r.kind, r.reply with
      | .store _, some y => ackPosted (gDrop s id) r.origin (replyWhy y) none
      | .mscfl _, some y => ackPosted (gDrop s id) r.origin (replyWhy y) none
      | _, _ => s
    | none => s) s
where
  replyWhy : GReply → Option Why
    | .error w => some w
    | _ => none
def gFind (s : State) (id : Nat) : Option GReply := (s.gnet.find? fun r => r.id == id).bind (·.reply)
/-- The value that a load may deliver now: its data, or 0 where its place was discarded. -/
def loadValue (s : State) (x : GLoad) : Option Word :=
  match x.data, gFind s x.id with
  | some v, _ => some v
  | none, some (.data v) => some v
  | none, some _ => if x.drop then some 0 else none
  | none, none => none
/-- Write a load's value to its reserved place or register (R137, R111). -/
def deliver (k : Core) (i : Fin 4) (x : GLoad) (v : Word) : Core :=
  let u : UnitId := .stream i .acc
  let k := mapThread k u fun t =>
    let t := { t with gld := t.gld.drop 1, ld := t.ld - 1 }
    if x.drop then t
    else
      let t := match x.dest with
        | .g n => regSet t n v
        | .sp _ => t
      { t with l1 := t.l0, l0 := v }
  if x.drop then k
  else mapSlot k i fun y => { y with lq := y.lq.map fun p => if p = .reserved x.id then .word v else p }
/-- GLOBAL_LOAD_DATA: the oldest load of an access stream is written, in issue order (R120, R137). -/
def execGlobalLoadData (c : Coord) (slot : Fin 4) (s : State) : Out :=
  event (fun s =>
    match (threadAt (coreAt s c) (.stream slot .acc)).gld with
    | [] => s
    | x :: _ => match loadValue s x with
      | some v => mapCore (gDrop s x.id) c fun k => deliver k slot x v
      | none => s) s
/-- A load whose error reply has come and is not reported. -/
def loadFailed (s : State) (x : GLoad) : Option Why :=
  if x.drop || x.reported || x.data.isSome then none
  else match gFind s x.id with
    | some (.error w) => some w
    | _ => none
/-- A failed load is reported at the access stream's boundary, once no instruction of the slot is under way at another core (R143,
R273, R274). -/
def reportLoad (s : State) (c : Coord) (slot : Fin 4) : State :=
  let k := coreAt s c
  let t := threadAt k (.stream slot .acc)
  let y := slotAt k slot
  if y.st == .running && t.running && (y.task.bind (·.held)).isNone && !slotBegun k slot then
    match t.gld.find? fun x => (loadFailed s x).isSome with
    | none => s
    | some x =>
      let w := (loadFailed s x).getD (why 0 0)
      let s := mapCore (gDrop s x.id) c fun k => mapThread k (.stream slot .acc) fun t =>
        { t with gld := changeFirst (fun y => y.id == x.id) (fun y => { y with reported := true, failed := some w }) t.gld }
      raise s ⟨c, .stream slot .acc⟩ ⟨deferSub w, .acc, x.addr, x.pc, wordsFound k x.pc, t.pc⟩
  else s
/-- DEFERRED_LOAD_FAULT_REPORT. -/
def execDeferredLoadFaultReport (c : Coord) (slot : Fin 4) (s : State) : Out := event (fun s => reportLoad s c slot) s

/-! ### Lost replies (R314, R390) -/

/-- An atomic that was applied while its reply was lost is logged with the old value, on the die that performed it (R314,
R328). -/
def logLostAtomic (s : State) (r : GReq) (w : Why) : State :=
  match r.kind, gFind s r.id, r.granted with
  | .amo _ _ _, some (.data v), some p =>
    logFault s (coordOf (servedBy p) 0 0) r.origin.core r.origin.slot w 2 r.origin.seq r.addr v
  | _, _, _ => s
/-- The reply to a global request is lost; where it was applied, it was performed (R314). -/
def loseGlobal (s : State) (r : GReq) (applied : Bool) : State :=
  let w := why 0x0A1 (if applied then 1 else 0)
  if applied then
    match gFind s r.id with
    | some (.error _) => s
    | some _ => gReply (logLostAtomic s r w) r.id (.error w)
    | none => s
  else if (gFind s r.id).isNone then gReply s r.id (.error w) else s
/-- The host link is down and has held an access for HLTO ticks, since tick `t` (R390). -/
def holdOver (s : State) (t : Option Word) : Bool := match t with
  | some t => !s.hostLink && decide (s.host.hlto.toNat ≤ (s.time - t).toNat)
  | none => false
/-- HOST_LINK_HOLD_TIMEOUT: a request that the link, still down, has held for HLTO ticks is answered as poisoned, or as lost
(R390). -/
def execHostLinkHoldTimeout (id : Nat) (s : State) : Out :=
  event (fun s =>
    match s.gnet.find? fun r => r.id == id with
    | some r =>
      if r.held && r.reply.isNone && holdOver s (some r.since) then gReply s id (.error (match r.kind with
        | .load _ => why 0x181 5
        | _ => why 0x0A1 0))
      else s
    | none => s) s

/-! ### Shoot-downs (R335, R380) -/

/-- SHOOT_DOWN: the host writes 0x0_1018; ignored unless it issues, or while one is in progress. -/
def execShootDown (v : Word) (s : State) : Out :=
  hostEvent (fun s =>
    if v.getLsbD 63 && bits v 62 12 == 0 && s.host.shoot.isNone then
      let t := s.host.shootTarget
      let n := if bits v 11 0 = 0 then 4096 else bits v 11 0
      { s with host := { s.host with
          shoot := some (BitVec.ofNat 20 (bits t 19 0), if t.getLsbD 20 then none else some (bits s.host.shootBase 56 12, n))
          shootAcks := [], shootDone := false } }
    else s) s
/-- A kept translation covers a page of the range. -/
def covered (pid : BitVec 20) (range : Option (Nat × Nat)) (x : Xlat) : Bool :=
  x.pid == pid && match range with
    | none => true
    | some (b, n) => overlap (x.page * 2 ^ (pageBits x.level - 12)) ((x.page + 1) * 2 ^ (pageBits x.level - 12)) b (b + n)
/-- A translation granted for the address `a` covers a page of the range. -/
def grantCovered (range : Option (Nat × Nat)) (a : Nat) (p : Phys) : Bool := match range with
  | none => true
  | some (b, n) => overlap (a / 2 ^ p.page * 2 ^ (p.page - 12)) ((a / 2 ^ p.page + 1) * 2 ^ (p.page - 12)) b (b + n)
/-- The station has granted a covered translation of the PID to a request, to a copy's access, or to one that no stream made, which the
host link has held since (R334). -/
def grantedHeld (s : State) (station : Nat) (pid : BitVec 20) (range : Option (Nat × Nat)) : Bool :=
  s.gnet.any (fun r => r.reply.isNone && r.pid == pid && stationOf r.addr.toNat == station &&
    r.granted.any (grantCovered range r.addr.toNat)) ||
  (s.cores.any fun e => pidOf s (BitVec.ofNat 13 e.1) == pid && e.2.chans.toList.any fun x => match x.queue with
    | t :: _ => t.failed.isNone && t.granted.any fun g => stationOf g.1.toNat == station && grantCovered range g.1.toNat g.2
    | [] => false) ||
  s.grants.any fun g => g.pid == pid && stationOf g.addr == station && grantCovered range g.addr g.phys
/-- STATION_SHOOT_DOWN_ACK: a station that has finished what it has granted discards what is covered and acknowledges; the
last one completes (R335). -/
def execStationShootDownAck (station : Fin 32) (s : State) : Out :=
  event (fun s =>
    match s.host.shoot with
    | none => s
    | some (pid, range) =>
      if grantedHeld s station.val pid range then s else
      let acks := insertNat station.val s.host.shootAcks
      let all := decide (Config.stations ≤ acks.length)
      { s with
        tlb := s.tlb.filter fun x => !(x.station == station.val && covered pid range x)
        host := { s.host with shootAcks := acks, shootDone := all, shoot := if all then none else s.host.shoot } }) s

end Sys2Proof.Machine
end

