-- ==== Sys2Proof/Machine/Copy.lean ====
section
/-! DEFINITION. Machine/Copy.lean: the copy engine (R221 to R239). -/
namespace Sys2Proof.Machine

/-! ### The shape record (R224) -/

def cEsz (r : BitVec 512) : Nat := bits r 66 64
def cDims (r : BitVec 512) : Nat := bits r 68 67 + 1
def cDir (r : BitVec 512) : Nat := bits r 71 69
def cExp (r : BitVec 512) : Bool := r.getLsbD 72
def cCmp (r : BitVec 512) : Bool := r.getLsbD 73
def cClip (r : BitVec 512) : Bool := r.getLsbD 74
def cBaren (r : BitVec 512) : Bool := r.getLsbD 75
def cKen (r : BitVec 512) : Bool := r.getLsbD 76
def cConv (r : BitVec 512) : Nat := bits r 79 77
def cBase (r : BitVec 512) : Nat := bits r 63 0
def cExt (r : BitVec 512) (k : Nat) : Nat := bits r (103 + 24 * k) (80 + 24 * k)
def cOrg (r : BitVec 512) (k : Nat) : Int := sInt 24 (bits r (199 + 24 * k) (176 + 24 * k))
def cBox (r : BitVec 512) (k : Nat) : Nat := bits r (283 + 12 * k) (272 + 12 * k)
def cStr (r : BitVec 512) (k : Nat) : Nat := if k = 0 then bits r 327 320 else bits r (327 + 32 * k) (296 + 32 * k)
def cBar (r : BitVec 512) : Nat := 16 * bits r 440 424
def cMeta (r : BitVec 512) : Nat := 16 * bits r 479 452
def cConn (r : BitVec 512) : Nat := bits r 467 452
def cKdone (r : BitVec 512) : Handle := BitVec.ofNat 32 (bits r 511 480)
def c24 (r : BitVec 512) : Bool := cExp r || cCmp r
/-- Bytes of a tensor element, and of a packed one (R225). -/
def eBytes (r : BitVec 512) : Nat := 2 ^ cEsz r
def pBytes (r : BitVec 512) : Nat := if cConv r = 0 then eBytes r else 4
/-- Box size with 1 in the unused dimensions. -/
def boxN (r : BitVec 512) (k : Nat) : Nat := if k < cDims r then cBox r k else 1
def orgN (r : BitVec 512) (k : Nat) : Int := if k < cDims r then cOrg r k else 0
def extN (r : BitVec 512) (k : Nat) : Nat := if k < cDims r then cExt r k else 1
def strN (r : BitVec 512) (k : Nat) : Nat := if k < cDims r then cStr r k else 0
def usedDims (r : BitVec 512) : List Nat := List.range (cDims r)
def boxTotal (r : BitVec 512) : Nat := boxN r 0 * boxN r 1 * boxN r 2 * boxN r 3
/-- The inside box in one dimension: its first coordinate and its size (R228). -/
def insideDim (r : BitVec 512) (k : Nat) : Int × Nat :=
  let lo := max (orgN r k) 0
  let hi := min (orgN r k + boxN r k) (extN r k)
  (lo, (hi - lo).toNat)
def insideEmpty (r : BitVec 512) : Bool := [0, 1, 2, 3].any fun k => (insideDim r k).2 == 0
/-- The coordinates touched in one dimension: the inside box with CLIP, else the box. -/
def touchedDim (r : BitVec 512) (k : Nat) : Int × Nat := if cClip r then insideDim r k else (orgN r k, boxN r k)

/-! ### Validation (R227) -/

/-- A fabric transfer (R224, R231). -/
def cFabric (r : BitVec 512) : Bool := decide (2 ≤ cDir r ∧ cDir r ≤ 4)
/-- META is used (R224). -/
def metaUsed (r : BitVec 512) (gather : Bool) : Bool := gather || c24 r || cFabric r
/-- Check 1. DESIGN CHOICE (log 102): META of a CPG record is the index list whatever DIR holds, so that DIR 2 to 4 with CPG fails
check 2 and not check 1. -/
def check1 (r : BitVec 512) (gather : Bool) : Bool :=
  decide (bits r 451 441 = 0) &&
    ([1, 2, 3].all fun k => decide (k < cDims r) || decide (cStr r k = 0 ∧ cBox r k = 0 ∧ cOrg r k = 0 ∧ cExt r k = 0)) &&
    (cBaren r || cBar r == 0) && (cKen r || cKdone r == 0) && (metaUsed r gather || cMeta r == 0) &&
    (!cFabric r || gather || decide (bits r 479 468 = 0))
def check2 (r : BitVec 512) (gather : Bool) : Bool :=
  decide (cEsz r ≤ 3) && decide (cDir r ≤ 4) && decide (cConv r ≤ 5) &&
    (cConv r == 0 || (if cConv r = 1 then cEsz r == 1 else cEsz r == 0)) &&
    (decide (cDir r < 2) || (cConv r == 0 && !cClip r && !c24 r)) && (!gather || (decide (cDir r < 2) && cDims r == 2))
def check3 (r : BitVec 512) : Bool := (usedDims r).all fun k => decide (1 ≤ cExt r k)
def check4 (r : BitVec 512) (gather : Bool) : Bool :=
  ((usedDims r).all fun k => decide (1 ≤ cBox r k)) && (!gather || (cBox r 0 == cExt r 0 && cOrg r 0 == 0 && cOrg r 1 == 0))
/-- E of check 5. -/
def eOf (r : BitVec 512) (k : Nat) : Nat := if k = 0 ∧ c24 r then cExt r 0 / 2 else cExt r k
def check5 (r : BitVec 512) : Bool := [1, 2, 3].all fun k => decide (cDims r ≤ k) || decide (eOf r (k - 1) * cStr r (k - 1) ≤ cStr r k)
/-- Check 6. DESIGN CHOICE (log 109): a STR0 of 0, below the range of R224, fails no check. -/
def check6 (r : BitVec 512) (p : Nat) : Bool :=
  decide (cBase r % eBytes r = 0) && ((usedDims r).all fun k => decide (cStr r k % eBytes r = 0)) && decide (p % pBytes r = 0)
def check7 (r : BitVec 512) (gather : Bool) : Bool :=
  !(cExp r && cCmp r) && (!cExp r || cDir r == 0) && (!cCmp r || cDir r == 1) &&
    (!c24 r || (decide (cExt r 0 % 4 = 0 ∧ cOrg r 0 % 4 = 0 ∧ cBox r 0 % 4 = 0) && !gather))
/-- The bytes of the tensor that a transfer touches, as integers [lo, hi); empty where the inside box is. A gather may
touch every row (R230). -/
def tensorSpan (r : BitVec 512) (gather : Bool) : Int × Int :=
  let dim (k : Nat) : Int × Nat :=
    if gather ∧ k = 1 then (0, extN r 1)
    else if k = 0 ∧ c24 r then ((touchedDim r 0).1 / 2, (touchedDim r 0).2 / 2)
    else if gather then (0, boxN r k) else touchedDim r k
  if [0, 1, 2, 3].any fun k => (dim k).2 == 0 then (cBase r, cBase r)
  else
    let lo := (cBase r : Int) + [0, 1, 2, 3].foldl (fun a k => a + (dim k).1 * strN r k) 0
    (lo, lo + [0, 1, 2, 3].foldl (fun a k => a + ((dim k).2 - 1) * strN r k) 0 + eBytes r)
/-- [lo, hi) lies inside one near window that the launch may use. -/
def inWindow (s : State) (lo hi : Int) : Bool :=
  decide (0 ≤ lo) && decide (lo < 2 ^ 32) && match operandAt s (BitVec.ofInt 64 lo) with
    | some p => decide ((p.2 : Int) + (hi - lo) ≤ 0x200000)
    | none => false
/-- The nibble index of a 2:4 group at logical coordinates x (R229). -/
def nibbleAt (r : BitVec 512) (x : Nat → Int) : Int :=
  x 0 / 4 + ((cExt r 0 / 4 : Nat) : Int) * (x 1 + extN r 1 * (x 2 + extN r 2 * x 3))
/-- The first and the last logical coordinate touched in a dimension. -/
def touchedEnds (r : BitVec 512) (k : Nat) : Int × Int := ((touchedDim r k).1, (touchedDim r k).1 + (touchedDim r k).2 - 1)
/-- Near bytes of the metadata or of the index list that a transfer may touch, [lo, hi); below META for a box that starts before the
tensor (R229). -/
def metaSpan (r : BitVec 512) (gather : Bool) : Int × Int :=
  if gather then (cMeta r, cMeta r + 4 * boxN r 1)
  else if c24 r && !([0, 1, 2, 3].any fun k => (touchedDim r k).2 == 0) then
    (cMeta r + nibbleAt r (fun k => (touchedEnds r k).1) / 2, cMeta r + nibbleAt r (fun k => (touchedEnds r k).2) / 2 + 1)
  else (cMeta r, cMeta r)
/-- [lo, hi) meets a member outside the launch (R291). -/
def foreignBytes (s : State) (lo hi : Int) : Bool := (List.range 16).any fun j =>
  decide (lo < 0x40000000 + 0x200000 * ((j : Int) + 1) ∧ 0x40000000 + 0x200000 * (j : Int) < hi ∧ j ≠ clidx s.cur.core) &&
    !memberOk s (member s.cur.core j)
/-- The metadata bytes of one row of groups, at the row's offsets in the box. -/
def metaRow (r : BitVec 512) (i1 i2 i3 : Nat) : Int × Int :=
  let at_ (x0 : Int) (k : Nat) : Int :=
    if k = 0 then x0 else (touchedDim r k).1 + (if k = 1 then i1 else if k = 2 then i2 else i3 : Nat)
  (cMeta r + nibbleAt r (at_ (touchedEnds r 0).1) / 2, cMeta r + nibbleAt r (at_ (touchedEnds r 0).2) / 2 + 1)
/-- The metadata or the index list touches a member outside the launch: under 2:4, row by row. -/
def metaForeign (s : State) (r : BitVec 512) (gather : Bool) : Bool :=
  let m := metaSpan r gather
  decide (m.1 < m.2) && foreignBytes s m.1 m.2 && (gather || (List.range (touchedDim r 3).2).any fun i3 =>
    (List.range (touchedDim r 2).2).any fun i2 => (List.range (touchedDim r 1).2).any fun i1 =>
      foreignBytes s (metaRow r i1 i2 i3).1 (metaRow r i1 i2 i3).2)
/-- Check 8, with the metadata or the index list as a copy side of R295. -/
def check8 (s : State) (r : BitVec 512) (gather : Bool) (p : Nat) : Bool :=
  let t := tensorSpan r gather
  inWindow s p (p + boxTotal r * pBytes r) && !metaForeign s r gather &&
    (decide (2 ≤ cDir r) || decide (t.1 = t.2) || (if cBase r < 2 ^ 32 then inWindow s t.1 t.2
      else decide (2 ^ 32 ≤ t.1 ∧ t.2 ≤ 2 ^ 57 ∧ t.1 / 2 ^ 30 = (t.2 - 1) / 2 ^ 30)))
/-- The first failing check. -/
def shapeCheck (s : State) (r : BitVec 512) (gather : Bool) (p : Nat) : Option Nat :=
  if !check1 r gather then some 1 else if !check2 r gather then some 2 else if !check3 r then some 3
  else if !check4 r gather then some 4 else if !check5 r then some 5 else if !check6 r p then some 6
  else if !check7 r gather then some 7 else if !check8 s r gather p then some 8 else none

/-! ### Issue (R233, R234) -/

/-- The near ranges of a transfer: [lo, hi) as named, whether written, whether it is metadata. -/
def nearSides (r : BitVec 512) (gather : Bool) (p : Nat) : List (Int × Int × Bool × Bool) :=
  let t := tensorSpan r gather
  let w := cDir r == 0 || cDir r == 4
  [((p : Int), (p : Int) + boxTotal r * pBytes r, w, false)] ++
    (if cDir r < 2 ∧ cBase r < 2 ^ 32 then [(t.1, t.2, !w, false)] else []) ++
    (if gather || c24 r then [((metaSpan r gather).1, (metaSpan r gather).2, cCmp r, true)] else [])
/-- Their parts in own memory, named directly or through the core's own entry of the window: offsets, written, metadata, whether
named directly. -/
def ownSides (c : Coord) (l : List (Int × Int × Bool × Bool)) : List (Nat × Nat × Bool × Bool × Bool) :=
  [((0 : Int), true), ((0x40000000 + clidx c * 0x200000 : Nat), false)].flatMap fun w => l.filterMap fun q =>
    let lo := max q.1 w.1
    let hi := min q.2.1 (w.1 + 0x200000)
    if lo < hi then some ((lo - w.1).toNat, (hi - w.1).toNat, q.2.2.1, q.2.2.2, w.2) else none
/-- The write and the read range of the scoreboard entry (R234). -/
def scoreRanges (l : List (Nat × Nat × Bool × Bool × Bool)) : List (Nat × Nat) × List (Nat × Nat) :=
  ((l.filter fun q => q.2.2.1 && !q.2.2.2.1).map fun q => roundLines q.1 q.2.1,
   (l.filter fun q => !q.2.2.1 || q.2.2.2.1).map fun q => roundLines q.1 q.2.1)
/-- The entry of a bank command; a VAMO is ordered with no copy (R397). -/
def bankEntry (k : Core) (e : Score) : Bool := match e.owner with
  | .bank id => k.bankQ.any fun b => b.id == id && match b.work with
    | .command .. => true
    | .vamo .. => false
  | _ => false
/-- Why KDUP would refuse a handle, as its home stands (R195, R322). DESIGN CHOICE (log 96): a null KDONE is not refused; its completion
record then has two null handles and starts as a launch-made free task, at its role's entry (R90). -/
def kdupRefusal (s : State) (h : Handle) : Option Why :=
  if h = 0 then none
  else if !inLaunch s s.cur.core (hHome h) then some (why 0x0E0 2)
  else (powerRefusal (coreAt s (hHome h))).or
    (if !hLive (coreAt s (hHome h)) h then some (why 0x0E0 1)
     else if envRc (envHead (coreAt s (hHome h)) (hIdx h)) = 255 then some (why 0x0E3 0)
     else none)
/-- The reference that the issue of a copy adds at its completion closure's home (R188, R233). DESIGN CHOICE (log 79): where KDUP would be
refused by then, nothing is added. -/
def addDone (s : State) (h : Handle) : State :=
  if (kdupRefusal s h).isSome || h == 0 then s else (closureServe s (hHome h) s.cur.core (.closureAdd h 0)).1
/-- Earlier closure operations of the core on the handle's home are under way: they go first (R189). -/
def doneWaits (s : State) (h : Handle) : Bool := h != 0 && hHome h != s.cur.core && closuresOut s s.cur.core (hHome h)
/-- Add one reference to a non-null handle for an operation (R188). -/
def takeRef (h : Handle) (n : Fin 2) : M Unit :=
  if h = 0 then pure () else do
    handleCheck h
    let _ ← ansWord (← closureOp h (.closureAdd h n))
/-- The shape record, read as a local load of 8 bytes at a multiple of 64 (R233). -/
def readRecord (ra : Word) : M (BitVec 512) := do
  let s ← get
  match resolveNear s.cur.core false ra with
  | .own x _ =>
    guardA (decide (x % 8 = 0)) 0x065 0 ra
    checkPages aRead x 8 fun _ => ra
    guardA (decide (x % 64 = 0)) 0x065 0 ra
    stallIf (scoreW (coreAt s s.cur.core) x (x + 64))
    (match poisonIn (coreAt s s.cur.core) x 64 with
      | some p => trapA 0x181 1 (BitVec.ofNat 64 p)
      | none => pure ())
    modify fun s => readAt s s.cur.core x 64
    return peekLine (coreAt s s.cur.core).mem x
  | _ => trapA 0x060 0 ra
/-- The checks of R233 on a shape record and the packed address `p`. DESIGN CHOICE (log 108): the barrier object at BAR is no range that
the anchor view is compared with; (log 110) metadata that the transfer writes needs R and W. -/
def copyChecks (gather : Bool) (r : BitVec 512) (ra : Word) (p : Nat) : M Unit := do
  let s ← get
  (match shapeCheck s r gather p with
    | some n => trapA 0x120 n ra
    | none => pure ())
  stallIf (cKen r && doneWaits s (cKdone r))
  (match (if cKen r then kdupRefusal s (cKdone r) else none) with
    | some w => trapW w (hWord (cKdone r))
    | none => pure ())
  let own := ownSides s.cur.core (nearSides r gather p)
  trapLowest 0x0C5 3 (own.map fun q => (q.2.2.2.2 && (inView s q.1 q.2.1).1, (inView s q.1 q.2.1).2))
  match pagesCheck (coreAt s s.cur.core) (userMode s) (own.map (fun q => (q.1, q.2.1,
        if q.2.2.1 then (if q.2.2.2.1 then aBoth else aWrite) else aRead)) ++
      (if cBaren r then [(cBar r, cBar r + 16, aWrite)] else [])) with
    | some (w, a) => trapW w (BitVec.ofNat 64 a)
    | none => pure ()
/-- The stall of R233, and the fork edge of R394: an earlier access of the stream is still to take effect. -/
def copyStalls (s : State) (i : Fin 4) (ws rs : List (Nat × Nat)) : Bool :=
  let k := coreAt s s.cur.core
  decide (Config.channelQueue ≤ (chanAt k i).queue.length ∨ Config.scoreEntries ≤ k.score.length) ||
    (k.score.filter (bankEntry k)).any (fun e => meets ws (e.writes ++ e.reads) || meets rs e.writes) ||
    windowAny s || heldGlobal s || globalOut s
/-- CPY and CPG (R233). A copy that stalled has been checked: it keeps its record and is not checked again. -/
def copyIssue (gather : Bool) (ch : Lit3) (b c : GReg) : M Next := do
  guardD (decide (ch.toNat ≤ 3)) 0x002 5
  stallIfSpec
  let ra ← readG b
  let p := (← readG c).toNat
  let r ← match (← getThread).rcd with
    | some r => pure r
    | none => do
      let r ← readRecord ra
      copyChecks gather r ra p
      pure r
  let s ← get
  let i : Fin 4 := Fin.ofNat 4 ch.toNat
  let sc := scoreRanges (ownSides s.cur.core (nearSides r gather p))
  if copyStalls s i sc.1 sc.2 || (cKen r && doneWaits s (cKdone r)) then stop (.keep r [])
  let id := (chanAt (coreAt s s.cur.core) i).counter + 1
  let t : Transfer :=
    { id := id, gather := gather, unit := s.cur.unit, serial := (slotOf s).serial, task := writerOf s, pc := pcOf s
      words := s.ir, rcd := r, packed := p, next := 0, half := 0, flags := 0, clipped := false, skipped := 0
      firstSkip := none, failed := none, row := none, lines := [], poisoned := [], since := none
      granted := none, piece := none, acked := false }
  modify fun s => scoreAdd s s.cur.core ⟨.copy i id, sc.1, sc.2⟩
  if cKen r then modify fun s => addDone s (cKdone r)
  modCore fun k => mapChan k i fun x => { x with counter := id, queue := x.queue ++ [t] }
  modThread fun t => { t with l1 := t.l0, l0 := id.zeroExtend 64 }
  return .seq
/-- CPY (R233). -/
def execCpy (ch : Lit3) (b c : GReg) (s : State) : Out := instr uEA false [.rd b, .rd c] (copyIssue false ch b c) s
/-- CPG (R230, R233). -/
def execCpg (ch : Lit3) (b c : GReg) (s : State) : Out := instr uEA false [.rd b, .rd c] (copyIssue true ch b c) s

/-! ### CPWAIT and CPSTAT (R236, R237) -/

/-- A is at or past B (R222). -/
def atOrPast (a b : BitVec 32) : Bool := decide ((a - b).toNat < 2 ^ 31)
/-- The oldest failure of this stream that `g` has reached. -/
def failureUpTo (x : Chan) (u : UnitId) (serial : Nat) (g : BitVec 32) : Option CopyFail :=
  x.failed.find? fun f => f.unit == u && f.serial == serial && atOrPast g f.id
/-- CPWAIT (R236); a failure met in a trap handler waits until after ERET (R274). -/
def execCpwait (ch : Lit3) (b : GReg) (s : State) : Out :=
  instr uEA false [.rd b] (do
    guardD (decide (ch.toNat ≤ 3)) 0x002 5
    let w ← readG b
    let g : BitVec 32 := w.setWidth 32
    let s ← get
    let i : Fin 4 := Fin.ofNat 4 ch.toNat
    let x := chanAt (coreAt s s.cur.core) i
    guardA (atOrPast x.counter g) 0x124 0 w
    stallIf (!atOrPast x.done g)
    match (if (slotOf s).st = .trapped then none else failureUpTo x s.cur.unit (slotOf s).serial g) with
    | some f => stop (.deferred (unitSide s.cur.unit) (deferSub f.why) f.faddr f.pc f.words (.copy i f.id))
    | none => return .seq) s
/-- CPSTAT (R236). -/
def execCpstat (a : GReg) (ch : Lit3) (s : State) : Out :=
  instr uEA false [.wr a] (do
    guardD (decide (ch.toNat ≤ 3)) 0x002 5
    let s ← get
    let x := chanAt (coreAt s s.cur.core) (Fin.ofNat 4 ch.toNat)
    let f := x.failed.any fun f => f.unit == s.cur.unit && f.serial == (slotOf s).serial
    writeResult a (BitVec.ofNat 64 (x.done.toNat + 2 ^ 32 * x.queue.length + (if f then 2 ^ 36 else 0)))
    return .seq) s

/-! ### A piece of a transfer (R225 to R231, R234) -/

/-- How an engine access ends: done, to be tried again, held by the host link at an address under a granted translation, or failed. -/
inductive Piece (α : Type) where
  | ok (s : State) (v : α)
  | wait (s : State) (held : Option (Word × Phys))
  | fail (s : State) (w : Why) (a : Word)
def Piece.bind {α β : Type} (p : Piece α) (f : State → α → Piece β) : Piece β :=
  match p with
  | .ok s v => f s v
  | .wait s a => .wait s a
  | .fail s w a => .fail s w a
/-- The check at another member for a side of a transfer of core `c` (R234, R291, R295). -/
def memberCheck (s : State) (c d : Coord) (x n : Nat) (acc : Acc) : Option Why :=
  if !memberOf s c d then some (why 0x060 0)
  else match powerRefusal (coreAt s d) with
  | some w => some w
  | none => (rangeCheck (pageRemote (coreAt s d) acc true) x (x + n)).map (·.1)
/-- What refuses the engine of core `c` an access to near bytes. DESIGN CHOICE (log 94): metadata or an index list outside near space
passes the checks at issue, and fails the transfer with 0x060 where it is read. -/
def nearRefused (s : State) (c : Coord) (a n : Nat) (acc : Acc) : Option Why :=
  match resolveNear c false (BitVec.ofNat 64 a) with
  | .own _ _ => none
  | .other d x => memberCheck s c d x n acc
  | .none => some (why 0x060 0)
/-- The transfer with the line read in which `a` lies, which the engine reads in one beat (R398). -/
def sourceLine (s : State) (c : Coord) (t : Transfer) (line : Nat) : State × Transfer :=
  if t.lines.any fun l => l.1 == line then (s, t)
  else
    let r := readLine s c line
    (readLines s c [line], { t with lines := t.lines ++ [(line, r.1)], poisoned := t.poisoned ++ r.2 })
/-- The engine reads near bytes of a transfer, of one line. -/
def nearRead (s : State) (c : Coord) (t : Transfer) (a n : Nat) : Piece (Transfer × Nat) :=
  match nearRefused s c a n aRead with
  | some w => .fail s w (BitVec.ofNat 64 a)
  | none =>
    let x := canon c a
    let r := sourceLine s c t (x / 64 * 64)
    if r.2.poisoned.any fun p => overlap p (p + 8) x (x + n) then .fail r.1 (why 0x181 4) (BitVec.ofNat 64 a)
    else .ok r.1 (r.2, spanNat r.2.lines x n)
/-- The engine writes near bytes for task `t`. -/
def nearWrite (s : State) (c : Coord) (a n v : Nat) (t : Option (Coord × Nat)) : Piece Unit :=
  match nearRefused s c a n aWrite with
  | some w => .fail s w (BitVec.ofNat 64 a)
  | none => .ok (writeNat s (placeOf c a).1 (placeOf c a).2 n v t) ()
/-- The translation of a transfer's access: the one granted for it before, where the host link has held it since (R334). -/
def copyGrant (s : State) (c : Coord) (t : Transfer) (a : Word) (k : GAccess) : State × Except Why Phys :=
  match t.granted with
  | some (b, p) => if b = a then (s, .ok p) else translate s (pidOf s c) a.toNat k
  | none => translate s (pidOf s c) a.toNat k
def tensorRead (s : State) (c : Coord) (t : Transfer) (a : Word) (n : Nat) : Piece (Transfer × Nat) :=
  if a.toNat < 2 ^ 32 then nearRead s c t a.toNat n
  else match copyGrant s c t a .read with
    | (s, .error w) => .fail s w a
    | (s, .ok p) => match physRead s p n with
      | none => .wait s (some (a, p))
      | some (.error w) => .fail s w a
      | some (.ok (_, bs)) => .ok s (t, leNat bs)
def tensorWrite (s : State) (c : Coord) (t : Transfer) (a : Word) (n v : Nat) : Piece Unit :=
  if a.toNat < 2 ^ 32 then nearWrite s c a.toNat n v t.task
  else match copyGrant s c t a .write with
    | (s, .error w) => .fail s w a
    | (s, .ok p) => if carried s p then .ok (gPoke s p (leBytes n v)) () else .wait s (some (a, p))
/-- Subtract written destination bytes from the barrier (R234). -/
def subtractBar (s : State) (c : Coord) (t : Transfer) (n : Nat) : State :=
  if cBaren t.rcd then barDeliver s c (cBar t.rcd) n t.task else s
/-- Tensor to packed, and packed to tensor (R225). -/
def convLoad (r : BitVec 512) (v : Nat) : Fr Nat :=
  match cConv r with
  | 0 => exact v
  | 1 => cvtF .bf16 .fp32 .rne v
  | 2 => cvtF .e4m3 .fp32 .rne v
  | 3 => cvtF .e4m3 .fp32 .rne v
  | _ => cvtF .e5m2 .fp32 .rne v
def convStore (r : BitVec 512) (v : Nat) : Fr Nat :=
  match cConv r with
  | 0 => exact v
  | 1 => cvtF .fp32 .bf16 .rne v
  | 2 => saturate .fp32 .e4m3 .rne true v
  | 3 => saturate .fp32 .e4m3 .rne false v
  | 4 => saturate .fp32 .e5m2 .rne true v
  | _ => saturate .fp32 .e5m2 .rne false v
/-- Box coordinates of a unit: an element, or a 2:4 group along dimension 0. -/
def unitW (r : BitVec 512) : Nat := if c24 r then 4 else 1
def unitTotal (r : BitVec 512) : Nat := boxTotal r / unitW r
def yOf (r : BitVec 512) (u k : Nat) : Nat :=
  let b0 := boxN r 0 / unitW r
  match k with
  | 0 => u % b0 * unitW r
  | 1 => u / b0 % boxN r 1
  | 2 => u / (b0 * boxN r 1) % boxN r 2
  | _ => u / (b0 * boxN r 1 * boxN r 2)
/-- Tensor coordinates; a gathered row has the index read for it (R226, R230). -/
def xOf (t : Transfer) (u k : Nat) : Int :=
  if t.gather ∧ k = 1 then (((t.row.map (·.2)).getD 0 : Nat) : Int) else orgN t.rcd k + yOf t.rcd u k
def outsideTensor (t : Transfer) (u : Nat) : Bool :=
  [0, 1, 2, 3].any fun k => decide (xOf t u k < 0 ∨ (extN t.rcd k : Int) ≤ xOf t u k)
def packedAddr (t : Transfer) (u j : Nat) : Nat := t.packed + (u * unitW t.rcd + j) * pBytes t.rcd
/-- Tensor address of a unit, or of its stored element j under 2:4 (R226, R229). -/
def tensorAddr (t : Transfer) (u j : Nat) : Word :=
  let r := t.rcd
  let e0 : Int := if c24 r then xOf t u 0 / 2 + j else xOf t u 0
  BitVec.ofInt 64 ((cBase r : Int) + e0 * strN r 0 + xOf t u 1 * strN r 1 + xOf t u 2 * strN r 2 + xOf t u 3 * strN r 3)
/-- The near address of a group's metadata nibble, and whether it is the low one (R229). DESIGN CHOICE (log 94): a byte below
address 0 wraps as an address does, and so lies outside near space. -/
def metaByte (t : Transfer) (u : Nat) : Nat × Bool :=
  let n := nibbleAt t.rcd (xOf t u)
  ((BitVec.ofInt 64 ((cMeta t.rcd : Int) + n / 2)).toNat, n % 2 == 0)
def putFlags (t : Transfer) (f : Flags) : Transfer := { t with flags := t.flags ||| f }
/-- The unit is done. -/
def stepped (t : Transfer) : Transfer := { t with next := t.next + 1, half := 0 }
/-- One more value of a 2:4 unit of `n` values is done. -/
def halfDone (n : Nat) (t : Transfer) : Transfer := if n ≤ t.half + 1 then stepped t else { t with half := t.half + 1 }
/-- One element, without 2:4. -/
def plainUnit (s : State) (c : Coord) (t : Transfer) (u : Nat) : Piece Transfer :=
  let r := t.rcd
  if cDir r = 0 then
    (tensorRead s c t (tensorAddr t u 0) (eBytes r)).bind fun s p =>
      let x := convLoad r p.2
      (nearWrite s c (packedAddr t u 0) (pBytes r) x.v t.task).bind fun s _ =>
        .ok (subtractBar s c t (pBytes r)) (stepped (putFlags p.1 x.f))
  else
    (nearRead s c t (packedAddr t u 0) (pBytes r)).bind fun s p =>
      let x := convStore r p.2
      (tensorWrite s c t (tensorAddr t u 0) (eBytes r) x.v).bind fun s _ =>
        .ok (subtractBar s c t (eBytes r)) (stepped (putFlags p.1 x.f))
/-- The stored value `i` of an EXP24 group, where position `j` takes it. -/
def expValue (s : State) (c : Coord) (t : Transfer) (u i : Nat) (takes : Bool) : Piece (Transfer × Fr Nat) :=
  if takes then (tensorRead s c t (tensorAddr t u i) (eBytes t.rcd)).bind fun s p => .ok s (p.1, convLoad t.rcd p.2)
  else .ok s (t, exact 0)
/-- EXP24, one packed element: zero, the first value at a, or the second at b (R229). -/
def expUnit (s : State) (c : Coord) (t : Transfer) (u : Nat) : Piece Transfer :=
  let r := t.rcd
  let j := t.half
  (nearRead s c t (metaByte t u).1 1).bind fun s m =>
    let n := if (metaByte t u).2 then m.2 % 16 else m.2 / 16
    (expValue s c m.1 u 0 (n % 4 == j)).bind fun s x0 =>
      (expValue s c x0.1 u 1 (n / 4 == j)).bind fun s x1 =>
        let v := if n / 4 = j then x1.2.v else x0.2.v
        (nearWrite s c (packedAddr t u j) (pBytes r) v t.task).bind fun s _ =>
          .ok (subtractBar s c t (pBytes r)) (halfDone 4 (putFlags x1.1 (x0.2.f ||| x1.2.f)))
/-- The position of the largest magnitude among those allowed, ties to the lower index (R229). -/
def largest (w : Nat) (l : List Nat) (skip : Option Nat) : Nat :=
  ((List.range 4).foldl (fun (best : Option (Nat × Nat)) i =>
    let m := l.getD i 0 % 2 ^ (8 * w - 1)
    if skip = some i then best
    else match best with
      | none => some (i, m)
      | some (_, y) => if y < m then some (i, m) else best) none).elim 0 (·.1)
/-- The four packed elements of a group. -/
def readPacked (s : State) (c : Coord) (t : Transfer) (u : Nat) : Nat → Nat → Piece (Transfer × List Nat)
  | _, 0 => .ok s (t, [])
  | j, n + 1 => (nearRead s c t (packedAddr t u j) (pBytes t.rcd)).bind fun s p =>
      (readPacked s c p.1 u (j + 1) n).bind fun s q => .ok s (q.1, p.2 :: q.2)
/-- The transfer forgets a line that it has read. -/
def forgetLine (t : Transfer) (line : Nat) : Transfer :=
  { t with lines := t.lines.filter fun l => l.1 != line, poisoned := t.poisoned.filter fun p => p / 64 * 64 != line }
/-- The group's metadata nibble is written, its byte read and written in one step. -/
def putNibble (s : State) (c : Coord) (t : Transfer) (u n : Nat) : Piece Transfer :=
  (nearRead s c (forgetLine t (canon c (metaByte t u).1 / 64 * 64)) (metaByte t u).1 1).bind fun s p =>
    let m := if (metaByte t u).2 then p.2 / 16 * 16 + n else p.2 % 16 + 16 * n
    (nearWrite s c (metaByte t u).1 1 m t.task).bind fun s _ => .ok s (halfDone 3 t)
/-- CMP24: the two largest magnitudes in ascending position, then their nibble (R229). -/
def cmpUnit (s : State) (c : Coord) (t : Transfer) (u : Nat) : Piece Transfer :=
  let r := t.rcd
  (readPacked s c t u 0 4).bind fun s q =>
    let i := largest (pBytes r) q.2 none
    let j := largest (pBytes r) q.2 (some i)
    let a := min i j
    let b := max i j
    if t.half = 2 then putNibble s c q.1 u (a + 4 * b)
    else
      let x := convStore r (q.2.getD (if t.half = 0 then a else b) 0)
      (tensorWrite s c t (tensorAddr t u t.half) (eBytes r) x.v).bind fun s _ =>
        .ok (subtractBar s c t (eBytes r)) (halfDone 3 (putFlags q.1 x.f))
/-- A connection of the device. -/
def connAt (s : State) (n : Nat) : Conn := mapGet Conn.reset s.conns n
/-- The connection is open to the launch (R387). -/
def connOpen (s : State) (c : Coord) (n : Nat) : Bool :=
  let w := (connAt s n).ctl
  decide (n < 4096) && w.getLsbD 0 && bits w 63 44 == (pidOf s c).toNat && (launchOf s c).isSome
/-- The port that a connection names, and its link (R387). -/
def connPort (x : Conn) : Nat := bits x.ctl 8 5
def connTrained (s : State) (x : Conn) : Bool := s.linkUp.getLsbD (connPort x)
/-- One element of a fabric transfer: sent to the peer through the connection's port, or read from it, while the port's link is
trained; what the peer's memory holds is a free value (log 18, R231, R387). DESIGN CHOICE (log 95): with BAREN, the bytes of a send
or an RMA write are subtracted as they are sent, not when the peer has placed them. -/
def fabricUnit (s : State) (c : Coord) (t : Transfer) (u : Nat) : Piece Transfer :=
  let r := t.rcd
  let n := cConn r
  let x := connAt s n
  if !connOpen s c n then .fail s (why 0x122 1) (BitVec.ofNat 64 (cBase r))
  else if !connTrained s x then .wait s none
  else if cDir r = 4 then
    let v := (Config.freeWord s.freeCtr).toNat
    (nearWrite { s with freeCtr := s.freeCtr + 1 } c (packedAddr t u 0) (pBytes r) v t.task).bind fun s _ =>
      .ok (subtractBar s c t (pBytes r)) (stepped t)
  else
    (nearRead s c t (packedAddr t u 0) (pBytes r)).bind fun s p =>
      let a := if cDir r = 2 then BitVec.ofNat 64 (u * pBytes r) else tensorAddr t u 0
      let o := Output.sent (BitVec.ofNat 12 n) (Fin.ofNat 16 (connPort x)) (cDir r) a (leBytes (pBytes r) p.2)
      .ok (subtractBar { s with hostOut := s.hostOut ++ [o] } c t (pBytes r)) (stepped p.1)
/-- Read the index of a gathered row where it is not yet read. -/
def withRow (s : State) (c : Coord) (t : Transfer) : Piece Transfer :=
  let i := yOf t.rcd t.next 1
  if !t.gather || (t.row.map (·.1)) == some i then .ok s t
  else (nearRead s c t (cMeta t.rcd + 4 * i) 4).bind fun s p => .ok s { p.1 with row := some (i, p.2) }
/-- The next unit, or the next value of a 2:4 unit, once its row is known: skipped, clipped or transferred. -/
def doUnit (s : State) (c : Coord) (t : Transfer) : Piece Transfer :=
  let r := t.rcd
  let u := t.next
  let i := yOf r u 1
  if t.gather ∧ extN r 1 ≤ (t.row.map (·.2)).getD 0 then
    if cClip r then
      .ok s { t with next := (i + 1) * boxN r 0, skipped := t.skipped + 1, firstSkip := t.firstSkip.or (some i) }
    else .fail s (why 0x121 0) (BitVec.ofNat 64 (cMeta r + 4 * i))
  else if 2 ≤ cDir r then fabricUnit s c t u
  else if cClip r && !t.gather && outsideTensor t u then .ok s { stepped t with clipped := true }
  else if cExp r then expUnit s c t u
  else if cCmp r then cmpUnit s c t u
  else plainUnit s c t u
/-- The destination line of the next unit, or of its next value under 2:4. -/
def destLine (t : Transfer) : Nat :=
  if cDir t.rcd = 0 ∨ cDir t.rcd = 4 then packedAddr t t.next t.half / 64
  else (tensorAddr t t.next (min t.half 1)).toNat / 64
def setHead (s : State) (c : Coord) (ch : Fin 4) (t : Transfer) : State :=
  mapCore s c fun k => mapChan k ch fun x => { x with queue := t :: x.queue.drop 1 }
/-- The transfer while an access of it waits, in the piece under way: the host link holds it from the first tick on (R390), under the
translation granted for it (R334). -/
def heldTransfer (s : State) (a : Option (Word × Phys)) (line : Option Nat) (t : Transfer) : Transfer :=
  match a with
  | some (a, p) => { t with since := t.since.or (some (s.time, a)), granted := some (a, p), piece := line }
  | none => { t with piece := line }
/-- Units up to the end of a 64-byte destination piece, at most `n` (R238). -/
def pieceRun (c : Coord) (ch : Fin 4) (line : Option Nat) : Nat → State → Transfer → State
  | 0, s, t => setHead s c ch { t with piece := line }
  | n + 1, s, t =>
    if unitTotal t.rcd ≤ t.next then setHead s c ch { t with piece := none }
    else match withRow s c t with
      | .wait s a => setHead s c ch (heldTransfer s a line t)
      | .fail s w a => setHead s c ch { t with failed := some (w, a) }
      | .ok s t =>
        if line.isSome && line != some (destLine t) then setHead s c ch { t with piece := none }
        else match doUnit s c t with
          | .wait s a => setHead s c ch (heldTransfer s a line t)
          | .fail s w a => setHead s c ch { t with failed := some (w, a) }
          | .ok s t1 =>
            pieceRun c ch (if t1.clipped && !t.clipped then line else line.or (some (destLine t))) n s
              { t1 with since := none, granted := none }
/-- A send or an RMA write that is all sent, not acknowledged, and whose connection is not open any more (R231). -/
def peerGone (s : State) (c : Coord) (t : Transfer) : Bool :=
  decide (unitTotal t.rcd ≤ t.next ∧ (cDir t.rcd = 2 ∨ cDir t.rcd = 3)) && !t.acked && !connOpen s c (cConn t.rcd)
/-- COPY_PIECE: the channel's first transfer moves a 64-byte destination piece, or the rest of one (R223, R234, R238). -/
def execCopyPiece (c : Coord) (ch : Fin 4) (s : State) : Out :=
  event (fun s =>
    let x := chanAt (coreAt s c) ch
    match x.queue with
    | [] => s
    | t :: _ =>
      if x.held.isSome || t.failed.isSome then s
      else if peerGone s c t then setHead s c ch { t with failed := some (why 0x122 1, BitVec.ofNat 64 (cBase t.rcd)) }
      else pieceRun c ch t.piece 256 s t) s

/-! ### Completion (R223, R228, R235, R237) -/

/-- Two signed 32-bit numbers in a word. -/
def twoInts (a b : Int) : Word := BitVec.ofNat 64 (wrapInt 32 a + 2 ^ 32 * wrapInt 32 b)
def fourSizes (f : Nat → Nat) : Word := BitVec.ofNat 64 (f 0 % 65536 + 65536 * (f 1 % 65536 + 65536 * (f 2 % 65536 + 65536 * (f 3 % 65536))))
/-- The clip message (R228, R230). DESIGN CHOICE (log 92): where box and tensor are disjoint in some dimensions only, those have size
0 and the requested origin, and the others the size and origin of their own intersection. -/
def clipMessage (ch : Fin 4) (t : Transfer) : List Word :=
  let r := t.rcd
  let w0 (g : Nat) : Word := BitVec.ofNat 64 (0x12C + 512 * ch.val + 2048 * g + 2 ^ 32 * t.id.toNat)
  if t.gather then
    [w0 1, BitVec.ofNat 64 t.skipped, BitVec.ofNat 64 (t.firstSkip.getD 0), 0, BitVec.ofNat 64 t.packed, 0, 0, 0]
  else
    let org (k : Nat) : Int := if insideEmpty r && (insideDim r k).2 == 0 then orgN r k else (insideDim r k).1
    let used (k n : Nat) : Nat := if k < cDims r then n else 0
    let usedI (k : Nat) (n : Int) : Int := if k < cDims r then n else 0
    [w0 0, twoInts (usedI 0 (org 0)) (usedI 1 (org 1)), twoInts (usedI 2 (org 2)) (usedI 3 (org 3)),
     fourSizes fun k => used k (insideDim r k).2, BitVec.ofNat 64 t.packed,
     twoInts (usedI 0 (orgN r 0)) (usedI 1 (orgN r 1)), twoInts (usedI 2 (orgN r 2)) (usedI 3 (orgN r 3)),
     fourSizes fun k => used k (boxN r k)]
/-- The transfer posts a clip message. DESIGN CHOICE (log 93): one that fails before it has passed a clipped element posts none. -/
def clips (t : Transfer) : Bool := t.clipped || decide (t.skipped ≠ 0)
/-- The transfer's status: 0, or its failure's cause and subcode (R235). -/
def statusOf (t : Transfer) : Word := match t.failed with
  | some (w, _) => BitVec.ofNat 64 (w.cause.toNat + 512 * w.sub.toNat)
  | none => 0
/-- A failure that no CPWAIT can report any more: logged, and the launch marked (R237). -/
def unreported (s : State) (c : Coord) (f : CopyFail) : State :=
  failCore (logFault s c c (slotNo f.unit) f.why 7 0 f.faddr 0) c f.why
/-- Steps 3 and 4 of R223, with step 5's record prepared; step 2's clip message is in the mailbox. -/
def copyFinish (s : State) (c : Coord) (ch : Fin 4) (t : Transfer) : State :=
  let same := sameBody (coreAt s c) t.unit t.serial t.task
  let s := mapCore s c fun k =>
    let k := if same then mapThread k t.unit fun th => orEflags th t.flags else k
    mapChan (freeScore k (.copy ch t.id)) ch fun x =>
      { x with queue := x.queue.drop 1, done := t.id
               held := if cKen t.rcd then some (completionRcd (cKdone t.rcd) 0 (t.id.zeroExtend 64) (statusOf t) (BitVec.ofNat 64 ch.val)) else none }
  match t.failed with
  | none => s
  | some (w, a) =>
    let f : CopyFail := ⟨t.id, t.unit, t.serial, t.pc, t.words, w, a⟩
    if same then mapCore s c fun k => mapChan k ch fun x => { x with failed := x.failed ++ [f] } else unreported s c f
/-- Every byte is written; a send or an RMA write is also acknowledged by the peer (R223, R388). -/
def copyDone (t : Transfer) : Bool :=
  decide (unitTotal t.rcd ≤ t.next) && (t.acked || !(cDir t.rcd == 2 || cDir t.rcd == 3))
/-- COPY_TRANSFER_COMPLETE (R223). A clip message that finds no room waits in the mailbox's order and holds its channel back
(R119). -/
def execCopyTransferComplete (c : Coord) (ch : Fin 4) (s : State) : Out :=
  event (fun s =>
    let k := coreAt s c
    let x := chanAt k ch
    match x.queue with
    | [] => s
    | t :: _ =>
      if !(x.held.isNone && (t.failed.isSome || copyDone t)) then s
      else if !clips t then copyFinish s c ch t
      else if mbRoom k 8 then copyFinish (mapCore s c fun k => mbAppend k (clipMessage ch t)) c ch t
      else mapCore s c fun k => mbHold k (.clip ch) (clipMessage ch t)) s
/-- COMPLETION_RECORD_ENQUEUE: the home accepts the channel's record (R235). -/
def execCompletionRecordEnqueue (c : Coord) (ch : Fin 4) (s : State) : Out :=
  event (fun s =>
    match (chanAt (coreAt s c) ch).held with
    | none => s
    | some r =>
      match acceptRcd s c r with
      | (s, none) => mapCore s c fun k => mapChan k ch fun x => { x with held := none }
      | (s, some _) => s) s
/-- A failure that comes from outside: a peer or the transport (R231), or a held host page (R390). -/
def copyFail (s : State) (c : Coord) (ch : Fin 4) (ok : Transfer → Bool) (w : Transfer → Why)
    (a : Transfer → Word) : State :=
  match (chanAt (coreAt s c) ch).queue with
  | [] => s
  | t :: _ =>
    if ok t && t.failed.isNone then setHead s c ch { t with failed := some (w t, a t) } else s
/-- The peer refuses a fabric transfer that is not complete, or the transport gives it up; one whose connection is not open fails for
that (R231). -/
def fabricFail (s : State) (c : Coord) (ch : Fin 4) (sub : BitVec 7) : State :=
  copyFail s c ch (fun t => cFabric t.rcd && !copyDone t)
    (fun t => why 0x122 (if !connOpen s c (cConn t.rcd) then 1 else if sub = 2 then 2 else 3))
    fun t => BitVec.ofNat 64 (cBase t.rcd)
/-- The host link, still down, has held an access of the transfer for HLTO (R390). -/
def copyHoldTimeout (s : State) (c : Coord) (ch : Fin 4) : State :=
  copyFail s c ch (fun t => holdOver s (t.since.map (·.1))) (fun t => if cDir t.rcd = 0 then why 0x181 5 else why 0x0A1 0)
    fun t => (t.since.map (·.2)).getD 0
/-- The peer acknowledges that every byte of a send or an RMA write is placed (R388). -/
def peerAck (s : State) (c : Coord) (ch : Fin 4) : State :=
  match (chanAt (coreAt s c) ch).queue with
  | [] => s
  | t :: _ =>
    if decide (unitTotal t.rcd ≤ t.next) && connOpen s c (cConn t.rcd) && connTrained s (connAt s (cConn t.rcd)) then setHead s c ch { t with acked := true }
    else s

end Sys2Proof.Machine
end

