-- ==== Sys2Proof/Machine/Signature.lean ====
section
/-! DEFINITION. Machine/Signature.lean: the hash and the signature of R362: SHAKE256, and pure Ed448 with an empty
context. PRESUMED (log 9): R362 names them by RFC 8032; their steps are the published ones. -/
namespace Sys2Proof.Machine

/-! ### SHAKE256 -/

/-- Lane `i` of a sponge state of 25 lanes of 64 bits, lane x + 5y at bit 64(x + 5y). -/
def lane (s i : Nat) : Nat := (s >>> (64 * i)) % 2 ^ 64
/-- A lane rotated left by `n`. -/
def rotLane (v n : Nat) : Nat := (v <<< n ||| v >>> (64 - n)) % 2 ^ 64
/-- The number whose lanes below `n` are `f`. -/
def ofLanes (f : Nat → Nat) : Nat → Nat
  | 0 => 0
  | n + 1 => f n <<< (64 * n) + ofLanes f n
/-- One turn of the 8-bit feedback register from which the round constants are read. -/
def turnReg (r : Nat) : Nat := if r < 128 then 2 * r else (2 * r) % 256 ^^^ 0x71
/-- The register after `n` turns. -/
def turnRegs : Nat → Nat → Nat
  | 0, r => r
  | n + 1, r => turnRegs n (turnReg r)
/-- A round constant: its bits 2 ^ j − 1, from bit `j` on, are what the register puts out. -/
def roundBits : Nat → Nat → Nat → Nat
  | 0, _, _ => 0
  | n + 1, j, r => r % 2 * 2 ^ (2 ^ j - 1) + roundBits n (j + 1) (turnReg r)
/-- The parities of the columns, one lane for each. -/
def columnParity (s : Nat) : Nat := s % 2 ^ 320 ^^^ (s >>> 320) % 2 ^ 320 ^^^ (s >>> 640) % 2 ^ 320 ^^^ (s >>> 960) % 2 ^ 320 ^^^ s >>> 1280
/-- Each lane takes the parities of two columns. -/
def mixColumns (s : Nat) : Nat :=
  ofLanes (fun i => lane s i ^^^ lane (columnParity s) ((i + 4) % 5) ^^^ rotLane (lane (columnParity s) ((i + 1) % 5)) 1) 25
/-- The lanes on a walk of `n` steps from lane `j`: each moves on to the next place of the walk, turned by the next triangular
number. -/
def walkLanes (s : Nat) : Nat → Nat → Nat
  | 0, _ => 0
  | n + 1, j =>
    let next := j / 5 + (2 * j + 3 * (j / 5)) % 5 * 5
    rotLane (lane s j) ((24 - n) * (25 - n) / 2 % 64) <<< (64 * next) + walkLanes s n next
/-- The lanes are rotated and change places; lane 0 stays. -/
def moveLanes (s : Nat) : Nat := lane s 0 + walkLanes s 24 1
/-- Each lane takes the two after it in its row. -/
def mixRows (s : Nat) : Nat :=
  ofLanes (fun i =>
    lane s i ^^^ ((2 ^ 64 - 1 - lane s (i / 5 * 5 + (i + 1) % 5)) &&& lane s (i / 5 * 5 + (i + 2) % 5))) 25
/-- `n` rounds from a state of the feedback register on. -/
def permute : Nat → Nat → Nat → Nat
  | 0, _, s => s
  | n + 1, r, s => permute n (turnRegs 7 r) (mixRows (moveLanes (mixColumns s)) ^^^ roundBits 7 0 r)
/-- Take in `n` blocks of 136 bytes. -/
def absorb : Nat → Nat → Nat → Nat
  | 0, _, s => s
  | n + 1, v, s => absorb n (v >>> 1088) (permute 24 1 (s ^^^ v % 2 ^ 1088))
/-- The first `n` bytes, at most 136, of SHAKE256 over a byte string. -/
def shake256 (n : Nat) (m : List Byte) : List Byte :=
  let b := m.length / 136 + 1
  leBytes n (absorb b (leNat m + 0x1F * 256 ^ m.length + 0x80 * 256 ^ (136 * b - 1)) 0)

/-! ### Ed448 -/

/-- The prime of the field, the order of the base point, and d = −39081 of the curve x² + y² = 1 + d·x²·y². -/
def edP : Nat := 2 ^ 448 - 2 ^ 224 - 1
def edL : Nat := 2 ^ 446 - 0x8335DC163BB124B65129C96FDE933D8D723A70AADC873D6D54A7BB0D
def edD : Nat := edP - 39081
/-- b ^ e in the field, for `n` bits of e. -/
def edPow : Nat → Nat → Nat → Nat
  | 0, _, _ => 1
  | n + 1, b, e => (if e % 2 = 1 then b else 1) * edPow n (b * b % edP) (e / 2) % edP
/-- A point by its projective coordinates. -/
structure EdPoint where
  x : Nat
  y : Nat
  z : Nat
  deriving DecidableEq, Repr
def edZero : EdPoint := ⟨0, 1, 1⟩
/-- The base point. -/
def edBase : EdPoint :=
  ⟨224580040295924300187604334099896036246789641632564134246125461686950415467406032909029192869357953282578032075146446173674602635247710,
    298819210078481492676017930443930673437544040154080242095928241372331506189835876003536878655418784733982303233503462500531545062832660, 1⟩
/-- The sum of two points. -/
def edAdd (a b : EdPoint) : EdPoint :=
  let m := a.z * b.z % edP
  let c := a.x * b.x % edP
  let d := a.y * b.y % edP
  let e := edD * (c * d % edP) % edP
  let f := m * m + (edP - e)
  let g := m * m + e
  ⟨m * (f % edP) % edP * ((a.x + a.y) * (b.x + b.y) % edP + (edP - c) + (edP - d)) % edP, m * (g % edP) % edP * (d + (edP - c)) % edP,
    f % edP * (g % edP) % edP⟩
/-- The multiple of a point by the low `n` bits of a number. -/
def edMul : Nat → Nat → EdPoint → EdPoint
  | 0, _, _ => edZero
  | n + 1, k, a => if k % 2 = 1 then edAdd a (edMul n (k / 2) (edAdd a a)) else edMul n (k / 2) (edAdd a a)
/-- Two points are one. -/
def edSame (a b : EdPoint) : Bool := a.x * b.z % edP == b.x * a.z % edP && a.y * b.z % edP == b.y * a.z % edP
/-- The point that 57 bytes encode: y, with the low bit of x in the last bit. -/
def edPoint (bs : List Byte) : Option EdPoint :=
  let v := leNat bs
  let y := v % 2 ^ 455
  let sign := v / 2 ^ 455
  let u := (y * y + edP - 1) % edP
  let w := (edD * (y * y % edP) + edP - 1) % edP
  let u3w := u * u % edP * u % edP * w % edP
  let x := u3w * edPow 448 (u3w * (u * u % edP) % edP * (w * w % edP) % edP) ((edP - 3) / 4) % edP
  if edP ≤ y ∨ w * (x * x % edP) % edP ≠ u ∨ (x = 0 ∧ sign = 1) then none
  else some ⟨if x % 2 = sign then x else edP - x, y, 1⟩
/-- An Ed448 signature over a message verifies under a key (R362). -/
def ed448Verify (key m sig : List Byte) : Bool :=
  let s := leNat (sig.drop 57)
  let k := leNat (shake256 114 ("SigEd448".toList.map (fun c => BitVec.ofNat 8 c.toNat) ++ [0, 0] ++ sig.take 57 ++ key ++ m))
  match edPoint (sig.take 57), edPoint key with
  | some r, some a =>
    decide (sig.length = 114 ∧ key.length = 57 ∧ s < edL) &&
      edSame (edMul 448 (4 * s) edBase) (edMul 3 4 (edAdd r (edMul 446 (k % edL) a)))
  | _, _ => false

end Sys2Proof.Machine
end

