-- ==== Sys2Proof/Machine/Message.lean ====
section
/-! DEFINITION. Machine/Message.lean: ports and messages (R305 to R312), lost replies (R314), work queries (R317 to R319),
the mailbox (R119), and what is served at another core: cluster-window accesses (R293 to R295), closure operations (R189)
and the anchor view (R84, R86). -/
namespace Sys2Proof.Machine

/-! ### Remote references (R308, R309) -/

def rOp (r : Word) : Nat := bits r 63 60
def rBar (r : Word) : Nat := 16 * bits r 51 35
def rBaren (r : Word) : Bool := r.getLsbD 34
def rDest (r : Word) : Coord := BitVec.ofNat 13 (bits r 33 21)
def rAddr (r : Word) : Nat := bits r 20 0
/-- Check 1 on a reference. -/
def refFields (r : Word) (amo : Bool) : Bool :=
  bits r 59 52 == 0 && (if amo then decide (rOp r ≤ 5 ∨ (8 ≤ rOp r ∧ rOp r ≤ 10)) && !rBaren r else rOp r == 0) &&
    (rBaren r || rBar r == 0)
/-- Checks 2 and 3: the destination. -/
def destCheck (d : Coord) : M Unit := do
  guardA (isCore d) 0x0A2 1 0
  let s ← get
  guardA (inLaunch s s.cur.core d) 0x0A2 2 0
def inLine (a n : Nat) : Bool := decide (a % 64 + n ≤ 64)
/-- Checks 4 and 5 for a payload of `n` bytes, and a remote and a local alignment. -/
def rangeChecks (r x : Word) (n ralign lalign : Nat) : M Unit := do
  guardA (inLine (rAddr r) n && rAddr r % ralign == 0) 0x065 0 (BitVec.ofNat 64 (rAddr r))
  guardA (inLine x.toNat n && x.toNat % lalign == 0) 0x065 0 x
  guardA (decide (x.toNat < 0x200000)) 0x060 0 x
/-- A remote operation issues as a posted operation to its destination. -/
def postMsg (r : Word) (p : Payload) (o : Origin) (s : State) : State :=
  send s o.core (rDest r) .request s.cur.unit 0 (some o) (writerOf s) p
/-- Take a scoreboard entry on own bytes, which counts them as written (R121). -/
def takeEntry (e : Engine) (x n : Nat) (s : State) : State := scoreAdd s s.cur.core ⟨e, [roundLines x (x + n)], []⟩
def scoreRoom : M Unit := do stallIf (decide (Config.scoreEntries ≤ (← getCore).score.length))

/-- PCFG (R305); words that a speculative body holds for the port are still to be sent. -/
def execPcfg (p : Lit3) (b : GReg) (s : State) : Out :=
  instr uEA false [.rd b] (do
    guardD (decide (p.toNat < 4)) 0x002 5
    let q : Fin 4 := Fin.ofNat 4 p.toNat
    let v ← readG b
    let d : Coord := BitVec.ofNat 13 (bits v 12 0)
    if v != 0 then
      guardD (v.getLsbD 31 && bits v 63 32 == 0 && bits v 30 18 == 0 && bits v 15 13 == 0) 0x002 5
      destCheck d
      match powerRefusal (coreAt (← get) d) with
      | some w => trapW w 0
      | none => pure ()
    let s ← get
    let held := match farTask s with
      | some t => t.obuf.any fun o => match o with
        | .port _ i _ => i == q
        | _ => false
      | none => false
    stallIf (held || !((slotOf s).ports[q]).send.isEmpty || claimed s (8 + q.val))
    modSlot fun x => { x with ports := x.ports.set q { x.ports[q] with cfg := v.setWidth 32 } }
    return .seq) s
/-- MSG.PUT (R309, R310). -/
def execMsgPut (a b c : GReg) (s : State) : Out :=
  instr uEA false [.rd b, .rd c, .rd a] (do
    let x ← readG b
    let l ← readG c
    let r ← readG a
    let n := l.toNat
    guardD (refFields r false && decide (1 ≤ n ∧ n ≤ 64)) 0x002 5
    destCheck (rDest r)
    rangeChecks r x n 1 1
    checkPages aRead x.toNat n fun y => BitVec.ofNat 64 y
    let k ← getCore
    stallIf (scoreW k x.toNat (x.toNat + n))
    (match poisonIn k x.toNat n with
      | some p => trapA 0x181 1 (BitVec.ofNat 64 p)
      | none => pure ())
    let bs := peeks k.mem x.toNat n
    modify fun s => readAt s s.cur.core x.toNat n
    let s ← get
    if isSpec s then hold (.msg (unitSide s.cur.unit) (pcOf s) r bs false)
    else post (.message (rDest r)) (BitVec.ofNat 64 (rAddr r)) (postMsg r (.put r bs))
    return .seq) s
/-- MSG.GET (R309, R310). -/
def execMsgGet (a b c : GReg) (s : State) : Out :=
  instr uEA false [.rd b, .rd c, .rd a] (do
    let x ← readG b
    let l ← readG c
    let r ← readG a
    let n := l.toNat
    guardD (refFields r false && decide (1 ≤ n ∧ n ≤ 64)) 0x002 5
    destCheck (rDest r)
    rangeChecks r x n 1 1
    checkPages aWrite x.toNat n fun y => BitVec.ofNat 64 y
    if rBaren r then checkPages aBoth (rBar r) 16 fun y => BitVec.ofNat 64 y
    stallIfSpec
    scoreRoom
    post (.message (rDest r)) (BitVec.ofNat 64 (rAddr r)) fun o s =>
      postMsg r (.getReq r n x.toNat) o (takeEntry (.get o.slot o.seq) x.toNat n s)
    return .seq) s
/-- MSG.AMO (R309, R310). -/
def execMsgAmo (a b c : GReg) (s : State) : Out :=
  instr uEA false [.rd b, .rd c, .rd a] (do
    let x ← readG b
    let y ← readG c
    let r ← readG a
    guardD (refFields r true) 0x002 5
    destCheck (rDest r)
    let al := if 8 ≤ rOp r then 16 else 8
    rangeChecks r x 8 al al
    checkPages aWrite x.toNat 8 fun y => BitVec.ofNat 64 y
    stallIfSpec
    scoreRoom
    post (.message (rDest r)) (BitVec.ofNat 64 (rAddr r)) fun o s =>
      postMsg r (.atomicReq r y x.toNat) o (takeEntry (.get o.slot o.seq) x.toNat 8 s)
    return .seq) s
/-- MSG.SIG (R310). -/
def execMsgSig (a b : GReg) (s : State) : Out :=
  instr uEA false [.rd b, .rd a] (do
    let w ← readG b
    let r ← readG a
    guardD (bits r 63 13 == 0) 0x002 5
    let d : Coord := BitVec.ofNat 13 r.toNat
    destCheck d
    let s ← get
    if isSpec s then hold (.msg (unitSide s.cur.unit) (pcOf s) r (leBytes 8 w.toNat) true)
    else post (.message d) 0 fun o s => send s o.core d .request s.cur.unit 0 (some o) (writerOf s) (.signal w)
    return .seq) s

/-! ### At the destination (R310, R312) -/

/-- How a destination's refusal of a write is reported (R312). -/
def writeWhy (w : Why) : Why :=
  if 0x060 ≤ w.cause.toNat ∧ w.cause.toNat ≤ 0x068 then why 0x0A0 (w.cause.toNat - 0x060) else w
def seqOf (m : Msg) : Nat := match m.origin with
  | some o => o.seq
  | none => 0
def slotOfMsg (m : Msg) : Fin 4 := match m.origin with
  | some o => o.slot
  | none => 0
/-- Answer a message. -/
def reply (s : State) (m : Msg) (p : Payload) : State := send s m.dst m.src .reply m.unit m.tag m.origin m.writer p
/-- Log a refusal at the destination's die (R313). -/
def logRefused (s : State) (m : Msg) (w : Why) (event addr : Nat) : State :=
  logFault s m.dst m.src (slotOfMsg m) w event (seqOf m) (BitVec.ofNat 64 addr) 0
/-- A poisoned word makes the answer poisoned: it is taken as lost, not applied (R314, R218). -/
def poisonLost (k : Core) (x n : Nat) : Option Why := (poisonIn k x n).map fun _ => why 0x0A1 0
/-- A cluster-window access (R293). -/
def onWindow : Payload → Bool
  | .winStore _ => true
  | .winReq _ => true
  | _ => false
/-- The destination check of one page. A window access of U mode does not reach the home-queue region, wherever TQBASE has put it
(R69). -/
def pageArrival (k : Core) (m : Msg) (acc : Acc) (page : Nat) : Option Why :=
  if m.user && onWindow m.load && homePage k page then some (why 0x066 0)
  else pageRemote k acc (sameCluster m.src m.dst) page
/-- The destination checks on bytes of the page of `x`. -/
def arrival (s : State) (m : Msg) (x : Nat) (acc : Acc) : Option Why :=
  let k := coreAt s m.dst
  (powerRefusal k).or (pageArrival k m acc (x / 4096))
/-- A barrier object at the destination: pages as an atomic, poison, then check 6 of R268. -/
def objectCheck (s : State) (m : Msg) (x : Nat) : Option Why :=
  let k := coreAt s m.dst
  ((arrival s m x aBoth).or (poisonLost k x 16)).or
    (if barMalformed (peekNat k.mem x 16) then some (why 0x141 2) else none)
/-- PUT (R310). -/
def execPut (id : Nat) (s : State) : Out :=
  event (fun s => match msgReady s id with
    | some m => match m.load with
      | .put r bs =>
        let s := dropMsg s id
        match (arrival s m (rAddr r) aWrite).or (if rBaren r then objectCheck s m (rBar r) else none) with
        | some w => reply (logRefused s m w 0 (rAddr r)) m (.ack (some (writeWhy w)) 0)
        | none =>
          let s := writeBytes s m.dst (rAddr r) bs m.writer
          let s := if rBaren r then barDeliver s m.dst (rBar r) bs.length m.writer else s
          reply s m (.ack none 0)
      | _ => s
    | none => s) s
/-- GET_REQUEST (R310). -/
def execGetRequest (id : Nat) (s : State) : Out :=
  event (fun s => match msgReady s id with
    | some m => match m.load with
      | .getReq r n dest =>
        let s := dropMsg s id
        let k := coreAt s m.dst
        match arrival s m (rAddr r) aRead with
        | some w => reply (logRefused s m w 1 (rAddr r)) m (.getData r dest [] (some w))
        | none => match poisonLost k (rAddr r) n with
          | some w => reply s m (.getData r dest [] (some w))
          | none => reply (readAt s m.dst (rAddr r) n) m (.getData r dest (peeks k.mem (rAddr r) n) none)
      | _ => s
    | none => s) s
/-- The posted entry of a reply still waits for it (R314). -/
def entryWaits (s : State) (o : Origin) : Bool :=
  (slotAt (coreAt s o.core) o.slot).posted.any fun p => p.seq == o.seq && !p.lost
/-- GET_DATA (R310): nothing is written where the read was refused. -/
def execGetData (id : Nat) (s : State) : Out :=
  event (fun s => match msgReady s id with
    | some m => match m.load, m.origin with
      | .getData r dest bs w, some o =>
        let s := dropMsg s id
        if !entryWaits s o then s
        else
          let s := match w with
            | some _ => s
            | none =>
              let s := writeBytes s o.core dest bs m.writer
              if rBaren r then barDeliver s o.core (rBar r) bs.length m.writer else s
          ackPosted (mapCore s o.core fun k => freeScore k (.get o.slot o.seq)) o w none
      | _, _ => s
    | none => s) s
def amoOpOf (n : Nat) : AmoOp :=
  if n = 0 then .add else if n = 1 then .swap else if n = 2 then .and else if n = 3 then .or else if n = 4 then .max else .min
/-- The barrier update of OP 8 to 10 (R310). -/
def barOpOf (n : Nat) (y : Word) : BarOp :=
  if n = 8 then .arrive else if n = 9 then .expect y else .wait (BitVec.ofNat 16 y.toNat)
/-- ATOMIC_REQUEST (R310): OP 10 is held at the object's bank until its round has ended. -/
def execAtomicRequest (id : Nat) (s : State) : Out :=
  event (fun s => match msgReady s id with
    | some m => match m.load with
      | .atomicReq r y dest =>
        let x := rAddr r
        let k := coreAt s m.dst
        let refuse (w : Why) : State :=
          let s := dropMsg s id
          let s := if w.cause = 0x0A1 then s else logRefused s m w 0 x
          reply s m (.atomicReply dest 0 (some (writeWhy w)))
        if rOp r < 8 then
          match (arrival s m x aBoth).or (poisonLost k x 8) with
          | some w => refuse w
          | none =>
            let old := peekNat k.mem x 8
            let s := writeNat (readAt (dropMsg s id) m.dst x 8) m.dst x 8 (amoNew (amoOpOf (rOp r)) 8 old y.toNat 0) m.writer
            reply s m (.atomicReply dest (BitVec.ofNat 64 old) none)
        else match objectCheck s m x with
          | some w => refuse w
          | none => match barUpdate (barOpOf (rOp r) y) (peekNat k.mem x 16) with
            | .error w => refuse w
            | .ok none => holdMsg s id
            | .ok (some (v, old)) =>
              let s := readAt (dropMsg s id) m.dst x 16
              let s := if rOp r = 10 then s else writeNat s m.dst x 16 v m.writer
              reply s m (.atomicReply dest old none)
      | _ => s
    | none => s) s
/-- The result of a remote atomic is written, 0 where it failed; its entries are freed (R310, R312). -/
def atomicResult (s : State) (m : Msg) (o : Origin) (dest : Nat) (old : Word) (w : Option Why) : State :=
  let s := writeNat s o.core dest 8 (if w.isSome then 0 else old.toNat) m.writer
  ackPosted (mapCore s o.core fun k => freeScore k (.get o.slot o.seq)) o w none
/-- ATOMIC_REPLY (R310). -/
def execAtomicReply (id : Nat) (s : State) : Out :=
  event (fun s => match msgReady s id with
    | some m => match m.load, m.origin with
      | .atomicReply dest old w, some o =>
        let s := dropMsg s id
        if entryWaits s o then atomicResult s m o dest old w else s
      | _, _ => s
    | none => s) s
/-- SIGNAL: one word for the mailbox, held in its turn while it has no room (R310, R119). -/
def execSignal (id : Nat) (s : State) : Out :=
  event (fun s => match msgReady s id with
    | some m => match m.load with
      | .signal w =>
        let k := coreAt s m.dst
        match powerRefusal k with
        | some w => reply (logRefused (dropMsg s id) m w 0 0) m (.ack (some w) 0)
        | none =>
          if mbRoom k 1 then reply (mapCore (dropMsg s id) m.dst fun k => mbAppend k [w]) m (.ack none 0)
          else holdMsg (mapCore s m.dst fun k => mbHold k (.signal id) [w]) id
      | _ => s
    | none => s) s
/-- PORT_WORD: discarded and logged at a core that is off or drowsy, held while the receive buffer is full (R306). -/
def execPortWord (id : Nat) (s : State) : Out :=
  event (fun s => match msgReady s id with
    | some m => match m.load with
      | .portWord p i w =>
        let k := coreAt s m.dst
        match powerRefusal k with
        | some v =>
          failCore (logFault (dropMsg s id) m.dst m.src i v 8 0 0 0) m.src v
        | none =>
          if (slotAt k i).ports[p].recv.length < 8 then
            mapCore (dropMsg s id) m.dst fun k => mapSlot k i fun x =>
              { x with ports := x.ports.set p { x.ports[p] with recv := x.ports[p].recv ++ [w] } }
          else holdMsg s id
      | _ => s
    | none => s) s
/-- ACKNOWLEDGMENT (R141, R312): one from the cluster network names the refused address (R167). -/
def execAcknowledgment (id : Nat) (s : State) : Out :=
  event (fun s => match msgReady s id with
    | some m => match m.load, m.origin with
      | .ack w a, some o => ackPosted (dropMsg s id) o w (if m.cls = .cluster then some a else none)
      | _, _ => s
    | none => s) s
/-- What held back its message goes on: a signal is acknowledged, a channel completes its transfer (R310, R223). -/
def mbTaken (s : State) (c : Coord) : MbFrom → State
  | .signal id => match s.net.find? fun m => m.id == id with
    | some m => reply (dropMsg s id) m (.ack none 0)
    | none => s
  | .clip ch => match (chanAt (coreAt s c) ch).queue with
    | t :: _ => copyFinish s c ch t
    | [] => s
  | _ => s
/-- MAILBOX_APPEND: the oldest held message is appended whole (R119). -/
def execMailboxAppend (c : Coord) (s : State) : Out :=
  event (fun s =>
    let k := coreAt s c
    match k.mbHeld with
    | (x, ws) :: r =>
      if k.mb.length + ws.length ≤ Config.mailboxWords && k.power == .on then
        mbTaken (setCore s c { mbAppend k ws with mbHeld := r }) c x
      else s
    | [] => s) s
/-- A port's oldest word enters the network in the class that PORTCFG names (R305, R306). -/
def portSend (s : State) (c : Coord) (i : Fin 4) (p : Fin 4) : State :=
  match (slotAt (coreAt s c) i).ports[p] with
  | ⟨cfg, (x, n, w) :: r, recv⟩ =>
    let s := mapCore s c fun k => mapSlot k i fun y => { y with ports := y.ports.set p ⟨cfg, r, recv⟩ }
    send s c (BitVec.ofNat 13 (bits cfg 12 0)) (portClass cfg) (.stream i x) n none none (.portWord p i w)
  | _ => s

/-! ### Losses (R314) -/

/-- What a lost operation still does at its issuer: an atomic's result is 0, its scoreboard entry is freed. -/
def loseEntry (s : State) (o : Origin) : State :=
  let s := match s.net.find? fun m => m.origin == some o with
    | some m => match m.load with
      | .atomicReq _ _ dest => writeNat s o.core dest 8 0 m.writer
      | .atomicReply dest _ _ => writeNat s o.core dest 8 0 m.writer
      | _ => s
    | none => s
  mapCore s o.core fun k => freeScore (freeScore k (.get o.slot o.seq)) (.query o.slot o.seq)
def postedAddr (s : State) (o : Origin) : Word :=
  (((slotAt (coreAt s o.core) o.slot).posted.find? fun p => p.seq == o.seq).map (·.addr)).getD 0
/-- The reply `m` is lost; the destination logs an applied atomic with its old value. -/
def loseReply (s : State) (m : Msg) (o : Origin) (applied : Bool) : State :=
  let w := why 0x0A1 (if applied then 1 else 0)
  let s := match m.load with
    | .atomicReply _ old none => logFault s m.src o.core o.slot w 2 o.seq (postedAddr s o) old
    | _ => s
  let s := loseEntry s o
  ackPosted (dropMsg s m.id) o (some w) none
/-- LOSS_NOTICE: the reply to a posted operation, or to a global request, cannot be delivered. -/
def execLossNotice (id : Nat) (applied : Bool) (s : State) : Out :=
  event (fun s => match s.gnet.find? fun r => r.id == id with
    | some r => loseGlobal s r applied
    | none => match s.net.find? fun m => m.id == id with
      | some m => match m.load, m.origin with
        | .ack w _, some o => if m.cls = .reply ∧ applied = w.isNone then loseReply s m o applied else s
        | .getData _ _ _ w, some o => if applied = w.isNone then loseReply s m o applied else s
        | .atomicReply _ _ w, some o => if applied = w.isNone then loseReply s m o applied else s
        | .workAnswer _ _ _, some o => if applied then loseReply s m o applied else s
        | _, _ => s
      | none => s) s
def timedOut (q : Posted) : Posted := { q with failed := q.failed.or (some (why 0x0A1 2)), lost := true }
/-- POSTED_TIMEOUT: an entry unanswered for 2^24 cycles of its core is taken as lost, its state unknown. -/
def execPostedTimeout (c : Coord) (slot : Fin 4) (seq : Nat) (s : State) : Out :=
  event (fun s =>
    let y := slotAt (coreAt s c) slot
    match y.posted.find? fun p => p.seq == seq with
    | some p =>
      if postedOut s c slot p && decide (2 ^ 24 ≤ ((coreAt s c).cycle - p.cycle).toNat) then
        let s := match s.net.find? (fun m => match m.origin with
            | some o => o.core == c && o.slot == slot && o.seq == seq
            | none => false) with
          | some m => match m.origin with
            | some o => loseEntry s o
            | none => s
          | none => s
        mapCore s c fun k =>
          let k := mapSlot k slot fun x => { x with posted := changeFirst (fun q => q.seq == seq) timedOut x.posted }
          mapThread k (.stream slot p.side) fun t => { t with st := t.st - 1 }
      else s
    | none => s) s

/-! ### Work queries (R317 to R319) -/

/-- The identifier of an ordinal, and what is left of the ordinal past the last field (R317). -/
def workIdFrom : List Nat → List Nat → Nat → Nat → Nat → Nat × Nat
  | w :: ws, e :: es, n, shift, acc => workIdFrom ws es (n / e) (shift + w) (acc + n % e * 2 ^ shift)
  | _, _, n, _, acc => (acc, n)
/-- The next answer of a launch: the next identifier, or the end token. -/
def workNext (l : Launch) : Word × Launch :=
  let r := workIdFrom l.kernel.widths l.kernel.extents l.ordinal 0 0
  if r.2 = 0 then (BitVec.ofNat 64 r.1, { l with ordinal := l.ordinal + 1 }) else (BitVec.allOnes 64, l)
/-- The serving Slate of a launch: that of its lowest-numbered die (R317), as a place on that die. -/
def servingSlate (s : State) (c : Coord) : Coord := match launchOf s c with
  | some l => coordOf ((l.cores.map fun e => dieOf e.1).foldl min 31) 0 0
  | none => c
/-- WQRY (R318). -/
def execWqry (b c : GReg) (s : State) : Out :=
  instr uEA false [.rd b, .rd c] (do
    let x ← readG b
    let h : Handle := (← readG c).setWidth 32
    if !asked (← get) (.closureAdd h 0) then
      guardA (x.toNat % 8 == 0) 0x065 0 x
      guardA (decide (x.toNat < 0x200000)) 0x060 0 x
      checkPages aWrite x.toNat 8 fun _ => x
    stallIfSpec
    forkReady
    takeRef h 0
    scoreRoom
    post .query x fun o s =>
      send (takeEntry (.query o.slot o.seq) x.toNat 8 s) o.core (servingSlate s o.core) .request s.cur.unit 0 (some o)
        (writerOf s) (.workQuery x h)
    return .seq) s
/-- WID.F (R319). -/
def execWidF (a b : GReg) (n : Lit3) (s : State) : Out :=
  instr uEA false [.rd b, .wr a] (do
    guardD (decide (n.toNat < 6)) 0x002 5
    let x ← readG b
    let s ← get
    let ws := match launchOf s s.cur.core with
      | some l => l.kernel.widths
      | none => []
    let v := match ws[n.toNat]? with
      | some w => x.toNat / 2 ^ ((ws.take n.toNat).foldl (· + ·) 0) % 2 ^ w
      | none => 0
    writeResult a (BitVec.ofNat 64 v)
    return .seq) s
/-- WORK_QUERY: the serving Slate answers with the next ordinal's identifier (R317). -/
def execWorkQuery (id : Nat) (s : State) : Out :=
  event (fun s => match msgReady s id with
    | some m => match m.load with
      | .workQuery x h => match launchOf s m.src with
        | some l =>
          let (v, l1) := workNext l
          reply (mapLaunch (dropMsg s id) l.id fun _ => l1) m (.workAnswer x h v)
        | none => dropMsg s id
      | _ => s
    | none => s) s
/-- A completion record enters its core's home, or waits while the home is full (R235, R318). -/
def enqueueHeld (s : State) (c : Coord) (r : BitVec 512) : State :=
  let k := coreAt s c
  if k.held.isEmpty && (refusal k r).isNone then enqueue s c r else setCore s c { k with held := k.held ++ [r] }
/-- WORK_ANSWER (R318). -/
def execWorkAnswer (id : Nat) (s : State) : Out :=
  event (fun s => match msgReady s id with
    | some m => match m.load, m.origin with
      | .workAnswer x h v, some o =>
        let s := dropMsg s id
        if !entryWaits s o then s
        else
          let s := writeNat s o.core x.toNat 8 v.toNat m.writer
          let s := ackPosted (mapCore s o.core fun k =>
            { freeScore k (.query o.slot o.seq) with answers := insertNat x.toNat k.answers }) o none none
          if h = 0 then s else enqueueHeld s o.core (completionRcd h v v x 0)
      | _, _ => s
    | none => s) s
/-- WQRY_RECORD_ENQUEUE: a waiting record is enqueued once the home has room (R318). -/
def execWqryRecordEnqueue (c : Coord) (s : State) : Out :=
  event (fun s =>
    let k := coreAt s c
    match k.held with
    | r :: rest => if (refusal k r).isNone then enqueue (setCore s c { k with held := rest }) c r else s
    | [] => s) s

/-! ### Cluster-window accesses at their destination (R293 to R295) -/

/-- An earlier window store of the same stream to the same core goes first (R294). -/
def storeBefore (s : State) (m : Msg) : Bool :=
  s.net.any fun b => decide (b.id < m.id) && b.src == m.src && b.unit == m.unit && b.dst == m.dst && match b.load with
    | .winStore _ => true
    | _ => false
/-- Perform the elements in order; a refused one changes nothing, nor does one with no bytes, whose value a higher element has replaced.
The lowest refused byte is kept. -/
def windowStores (s : State) (m : Msg) : List (Nat × List Byte) → Option (Why × Nat) → State × Option (Why × Nat)
  | [], bad => (s, bad)
  | (x, bs) :: r, bad =>
    match arrival s m x aWrite with
    | some w => windowStores s m r (match bad with
      | some (v, y) => if x < y then some (w, x) else some (v, y)
      | none => some (w, x))
    | none => windowStores (if bs.isEmpty then s else writeBytes s m.dst x bs m.writer) m r bad
/-- Serve a load, an atomic, a barrier instruction or an operand check; `none` where a wait must go on. -/
def serveWindow (s : State) (m : Msg) : Req → Option (State × Ans)
  | .load d x n =>
    let k := coreAt s d
    some (match arrival s m x aRead with
      | some w => (s, .refused w (nearOf m.src d x))
      | none => match poisonIn k x n with
        | some p => (s, .refused (why 0x181 1) (nearOf m.src d p))
        | none => (readAt s d x n, .value (BitVec.ofNat 64 (peekNat k.mem x n))))
  | .amo d x n op y z =>
    let k := coreAt s d
    match arrival s m x aBoth with
    | some w => some (s, .refused w (nearOf m.src d x))
    | none => match poisonIn k x n with
      | some p => some (s, .refused (why 0x181 1) (nearOf m.src d p))
      | none =>
        let old := peekNat k.mem x n
        some (writeNat (readAt s d x n) d x n (amoNew op n old y.toNat z.toNat) m.writer, .value (BitVec.ofNat 64 old))
  | .bar d x op =>
    let k := coreAt s d
    match arrival s m x aBoth with
    | some w => some (s, .refused w (nearOf m.src d x))
    | none => match (if isInit op then none else poisonIn k x 16) with
      | some p => some (s, .refused (why 0x181 1) (nearOf m.src d p))
      | none => match barUpdate op (peekNat k.mem x 16) with
        | .error w => some (s, .refused w (nearOf m.src d x))
        | .ok none => none
        | .ok (some (v, y)) =>
          let s := if isInit op then s else readAt s d x 16
          some (match op with
            | .wait _ => s
            | _ => writeNat s d x 16 v m.writer, .value y)
  | .checkRead d x n =>
    let k := coreAt s d
    some (s, match (powerRefusal k).map (fun w => (w, x)) |>.or (rangeCheck (pageArrival k m aRead) x (x + n)) with
      | some (w, y) => .refused w (nearOf m.src d y)
      | none => .value 0)
  | _ => some (s, .value 0)
/-- The request is one of the cluster window. -/
def windowReq : Req → Bool
  | .load .. => true
  | .amo .. => true
  | .bar .. => true
  | .checkRead .. => true
  | _ => false
/-- A stalled BAR.WAIT that its stream has taken back: it was stopped, or it waits for another token (R108, R271). -/
def waitGone (s : State) (m : Msg) (r : Req) : Bool :=
  isWaitReq r && !(threadAt (coreAt s m.src) m.unit).pend.any fun p => p.id == m.tag
/-- CLUSTER_WINDOW_ACCESS (R293). -/
def execClusterWindowAccess (id : Nat) (s : State) : Out :=
  event (fun s => match msgReady s id with
    | some m => match m.load with
      | .winStore es =>
        if storeBefore s m then s
        else
          let (s, bad) := windowStores (dropMsg s id) m es none
          match bad with
          | none => send s m.dst m.src .cluster m.unit 0 m.origin none (.ack none 0)
          | some (w, x) =>
            send (logRefused s m w 0 x) m.dst m.src .cluster m.unit 0 m.origin none (.ack (some w) (nearOf m.src m.dst x))
      | .winReq r =>
        if waitGone s m r then dropMsg s id
        else if windowReq r then
          match serveWindow (dropMsg s id) m r with
          | some (s, a) => send s m.dst m.src .cluster m.unit m.tag m.origin none (.winAns r a)
          | none => holdMsg s id
        else s
      | _ => s
    | none => s) s
/-- The stream that asked is still in the body that asked (R87). -/
def askerLives (s : State) (m : Msg) : Bool := match m.unit, m.origin with
  | .stream i _, some o => (slotAt (coreAt s m.dst) i).serial == o.serial
  | _, _ => true
/-- An answer reaches the stalled stream, which tries its instruction again. -/
def answerTo (s : State) (m : Msg) (a : Ans) : State :=
  if askerLives s m then
    mapCore s m.dst fun k => mapThread k m.unit fun t =>
      { t with pend := changeFirst (fun p => p.id == m.tag) (fun p => { p with ans := some a }) t.pend }
  else s
/-- The answer to a load of the anchor view, with the bytes that the body has already written forwarded (R86). -/
def forwarded (s : State) (m : Msg) (r : Req) (a : Ans) : Ans :=
  match r, a, m.unit with
  | .viewLoad _ _ x n _, .value v, .stream i _ => match (slotAt (coreAt s m.dst) i).task with
    | some t => .value (BitVec.ofNat 64 (leNat (overlay t.abuf x (leBytes n v.toNat))))
    | none => a
  | _, _, _ => a
/-- CLUSTER_WINDOW_ANSWER (R293), and the answers of the anchor view. -/
def execClusterWindowAnswer (id : Nat) (s : State) : Out :=
  event (fun s => match msgReady s id with
    | some m => match m.load with
      | .winAns r a => answerTo (dropMsg s id) m (forwarded s m r a)
      | _ => s
    | none => s) s

/-! ### Closure operations at the home (R189, R190) -/

/-- The handle that a closure request names. -/
def reqHandle : Req → Handle
  | .closureAdd h _ => h
  | .closureDrop h => h
  | .closureRead h _ => h
  | .closureWrite h _ _ => h
  | .closureApply h => h
  | _ => 0
/-- CLOSURE_OPERATION: in one step, against every other operation on the environment. -/
def execClosureOperation (id : Nat) (s : State) : Out :=
  event (fun s => match msgReady s id with
    | some m => match m.load with
      | .closureOp r =>
        let s := dropMsg s id
        let (s, a) := match powerRefusal (coreAt s m.dst) with
          | some w => (s, Ans.refused w (hWord (reqHandle r)))
          | none => closureServe s m.dst m.src r
        send s m.dst m.src (if m.cls = .cluster then .cluster else .reply) m.unit m.tag m.origin none (.closureAns r a)
      | .closureLet h l => dropServe (dropMsg s id) m.src h (some l)
      | _ => s
    | none => s) s
/-- CLOSURE_ANSWER: to the stalled stream, or to the body that is to start (R91). A reference added for a stream that is gone
is dropped. -/
def execClosureAnswer (id : Nat) (s : State) : Out :=
  event (fun s => match msgReady s id with
    | some m => match m.load with
      | .closureAns r a =>
        let s := dropMsg s id
        let k := coreAt s m.dst
        let starting := match m.unit with
          | .stream i _ => (slotAt k i).starting
          | .ibex n => (ibexAt k n).starting
        match starting with
        | some t =>
          if askerLives s m && bodyHandle m.unit t.rcd == reqHandle r then
            let s := mapCore s m.dst fun k => match m.unit with
              | .stream i _ => mapSlot k i fun x => { x with starting := none }
              | .ibex n => mapIbex k n fun x => { x with starting := none }
            startWith s m.dst m.unit t (reqHandle r) a
          else s
        | none =>
          if askerLives s m && (threadAt k m.unit).pend.any (fun p => p.id == m.tag) then answerTo s m a
          else match r, a with
            | .closureAdd h _, .value _ => dropHandle s m.dst h
            | _, _ => s
      | _ => s
    | none => s) s

/-! ### The anchor view at the home (R84, R86) -/

/-- Set the bitmap bits of the lines that a speculative body reads. -/
def markRead (s : State) (home : Coord) (e : Nat) (x n : Nat) : State :=
  mapCore s home fun k => mapEntry k e fun y => if y.promoted then y else { y with bitmap := y.bitmap ||| bitmapOf y.rcd x (x + n) }
/-- Serve a redirected access; `none` while the home's scoreboard holds its line (R102, R121). -/
def serveView (s : State) : Req → Option (State × Ans)
  | .viewLoad home e x n user =>
    let k := coreAt s home
    if scoreW k x (x + n) then none
    else some (match (powerRefusal k).or (pageLocal k user aRead (x / 4096)) with
      | some w => (s, .refused w (BitVec.ofNat 64 x))
      | none => match poisonIn k x n with
        | some p => (s, .refused (why 0x181 1) (BitVec.ofNat 64 p))
        | none => (markRead (readAt s home x n) home e x n, .value (BitVec.ofNat 64 (peekNat k.mem x n))))
  | .viewStore home e user es =>
    let k := coreAt s home
    if es.any fun p => scoreRW k p.1 (p.1 + p.2.length) then none
    else some (match es.findSome? fun p => ((powerRefusal k).or (pageLocal k user aWrite (p.1 / 4096))).map fun w => (w, p.1) with
      | some (w, x) => (s, .refused w (BitVec.ofNat 64 x))
      | none => (es.foldl (fun s p => if p.2.isEmpty then s else writeBytes s home p.1 p.2 (some (home, e))) s, .value 0))
  | _ => some (s, .value 0)
/-- The home's scoreboard holds a stream's access to the anchor view: no later load of the stream is performed before it (R395). -/
def viewHeld (s : State) (m : Msg) : State :=
  mapCore s m.src fun k => mapThread k m.unit fun t =>
    if t.pend.any fun p => p.id == m.tag then { t with joins := true, early := [] } else t
/-- ANCHOR_VIEW_ACCESS (R84). -/
def execAnchorViewAccess (id : Nat) (s : State) : Out :=
  event (fun s => match msgReady s id with
    | some m => match m.load with
      | .winReq r =>
        if windowReq r || isClosure r then s
        else
          let s1 := dropMsg s id
          let lives := match m.unit, m.origin with
            | .stream i _, some o => (slotAt (coreAt s m.src) i).serial == o.serial
            | _, _ => false
          if !lives then s1
          else match serveView s1 r with
            | some (s, a) =>
              send s m.dst m.src (if m.cls = .cluster then .cluster else .reply) m.unit m.tag m.origin none (.winAns r a)
            | none => viewHeld s m
      | _ => s
    | none => s) s

end Sys2Proof.Machine
end

