-- ==== Sys2Proof/Machine/System.lean ====
section
/-! DEFINITION. Machine/System.lean: fences (R265, R266, R296, R315, R358), barrier instructions (R268 to R271), control and
status registers (R123 to R125, R278), traps by instruction and their return (R277, R279), HALT (R280), SSTEP (R351),
decode traps (R46 to R48) and parity errors (R284). -/
namespace Sys2Proof.Machine

/-! ### Fences -/

/-- The outgoing buffer holds an entry of the moving stream that goes to a core `f` names (R86). -/
def heldFor (s : State) (f : Coord → Bool) : Bool := match farTask s with
  | some t => t.obuf.any fun o => match o with
    | .winStore x _ _ _ => x == unitSide s.cur.unit
    | .gst .. => false
    | .msg x _ r _ sig => x == unitSide s.cur.unit && f (if sig then BitVec.ofNat 13 r.toNat else rDest r)
    | .port x p _ => x == unitSide s.cur.unit && f (BitVec.ofNat 13 (bits ((slotOf s).ports[p]).cfg 12 0))
    | .task x _ _ d _ => x == unitSide s.cur.unit && f d
  | none => false
/-- An entry of the moving stream in the posted table whose scope `f` names is unanswered. -/
def postedBusy (s : State) (f : Scope → Bool) : Bool :=
  (slotOf s).posted.any fun p =>
    p.side == unitSide s.cur.unit && f p.scope && postedOut s s.cur.core (slotNo s.cur.unit) p
/-- What FENCE.CL waits for (R296). -/
def clWaits (s : State) : Bool := windowAny s || postedBusy s fun p => p == .window
/-- What FENCE.DIE waits for (R315). -/
def dieWaits (s : State) : Bool :=
  let c := s.cur.core
  let own (d : Coord) : Bool := dieOf d == dieOf c
  clWaits s || dieBusy s c (slotNo s.cur.unit) (unitSide s.cur.unit) (slotOf s).nextSeq ||
    portBusy s c (slotNo s.cur.unit) (unitSide s.cur.unit) s.nextId own || heldFor s own
/-- What FENCE.PKG waits for (R358). -/
def pkgWaits (s : State) : Bool :=
  let c := s.cur.core
  clWaits s || postedBusy s (fun p => p != .query) || heldGlobal s || heldFor s (fun _ => true) ||
    portBusy s c (slotNo s.cur.unit) (unitSide s.cur.unit) s.nextId (fun _ => true) || globalOut s
/-- A fence: the step performs the stream's waiting local stores before it executes a fence (R262, log 4), so FENCE.CORE has
nothing more to wait for. -/
def fence (f : State → Bool) : M Next := do
  stallIf (f (← get))
  return .seq
/-- FENCE.CORE (R265). -/
def execFenceCore (s : State) : Out := instr uEA false [] (fence fun _ => false) s
/-- FENCE.CL (R296). -/
def execFenceCl (s : State) : Out := instr uEA false [] (fence clWaits) s
/-- FENCE.DIE (R315). -/
def execFenceDie (s : State) : Out := instr uEA false [] (fence dieWaits) s
/-- FENCE.PKG (R358). -/
def execFencePkg (s : State) : Out := instr uEA false [] (fence pkgWaits) s
/-- FENCE.SYS: a write to host memory is visible to the host when it is acknowledged (R358). -/
def execFenceSys (s : State) : Out := instr uEA false [] (fence pkgWaits) s
/-- FENCE.I discards every fetch buffer of the core (R266). -/
def execFenceI (s : State) : Out :=
  instr uEA true [] (do
    modCore fun k => { k with threads := k.threads.map fun t => { t with fbuf := [] } }
    return .seq) s

/-! ### Barriers (R268 to R271) -/

/-- BAR.INIT (R269). -/
def execBarInit (b c : GReg) (s : State) : Out :=
  instr uEA false [.rd b, .rd c] (do
    let a ← readG b
    let n ← readG c
    guardA (decide (1 ≤ n.toNat ∧ n.toNat ≤ 65535)) 0x141 1 n
    let _ ← barNear (.init n) a (pure ())
    return .seq) s
/-- BAR.ARR (R270). -/
def execBarArr (a b : GReg) (s : State) : Out :=
  instr uEA false [.rd b, .wr a] (do
    let x ← readG b
    writeResult a (← barNear .arrive x (destReady a))
    return .seq) s
/-- BAR.EXP (R269). -/
def execBarExp (b c : GReg) (s : State) : Out :=
  instr uEA false [.rd b, .rd c] (do
    let a ← readG b
    let n ← readG c
    let _ ← barNear (.expect n) a (pure ())
    return .seq) s
/-- BAR.WAIT (R271). -/
def execBarWait (b c : GReg) (s : State) : Out :=
  instr uEA false [.rd b, .rd c] (do
    let a ← readG b
    let n ← readG c
    let _ ← barNear (.wait (BitVec.ofNat 16 n.toNat)) a (pure ())
    return .seq) s

/-! ### Control and status registers (R123 to R125) -/

/-- CPDONE of a channel, PORTCFG of a port: index below 4. -/
def four (n : Nat) : Fin 4 := Fin.ofNat 4 n
/-- MaxLen under VTYPE, 0 while VILL. -/
def vlMax (x : Slot) : Nat := if x.vtype.getLsbD 63 then 0 else maxLen (vtFields x.vtype 0)
/-- The value of a CSR for a stream; none for a number that R124 does not list. -/
def csrRead (s : State) (n : Nat) : Option Word :=
  let c := s.cur.core
  let k := coreAt s c
  let i := slotNo s.cur.unit
  let x := slotAt k i
  let t := threadOf s
  let w (v : Nat) : Option Word := some (BitVec.ofNat 64 v)
  if n = 0x000 then w (c.toNat + 65536 * clidx c)
  else if n = 0x001 then w (i.val + if isAcc s.cur.unit then 4 else 0)
  else if n = 0x002 then some s.time
  else if n = 0x003 then some k.cycle
  else if n = 0x010 then some x.status
  else if n = 0x011 then some x.cause
  else if n = 0x012 then some x.fpc
  else if n = 0x013 then some x.fword0
  else if n = 0x014 then some x.fword1
  else if n = 0x015 then some x.fword2
  else if n = 0x016 then some x.faddr
  else if n = 0x017 then some k.tvec
  else if n = 0x018 then some t.epc
  else if n = 0x020 then w t.cmask.toNat
  else if n = 0x021 then w t.fcsr.toNat
  else if n = 0x022 then w t.dead.toNat
  else if n = 0x030 then some x.vtype
  else if n = 0x031 then w x.vl.toNat
  else if n = 0x032 then w (vlMax x)
  else if n = 0x040 then w (t.ld + 2 ^ 8 * t.st + 2 ^ 16 * t.bk + 2 ^ 24 * t.mx)
  else if n = 0x041 then some x.dcloss
  else if n = 0x050 then some k.tqbase
  else if n = 0x051 then some k.tqcfg
  else if n = 0x052 then w (frontier k)
  else if n = 0x060 then some k.envbase
  else if n = 0x061 then some k.frbase
  else if n = 0x062 then w (k.mbbase.toNat + 2 ^ 32 * k.mb.length)
  else if n = 0x070 then w ((attrOf k k.pageSel.toNat).toNat + 2 ^ 16 * k.pageSel.toNat)
  else if 0x080 ≤ n ∧ n ≤ 0x083 then w (chanAt k (four (n - 0x080))).done.toNat
  else if n = 0x090 then some k.acfg
  else if 0x0A0 ≤ n ∧ n ≤ 0x0A3 then w (x.ports[four (n - 0x0A0)]).cfg.toNat
  else if n = 0x0B0 then w k.clkdiv.toNat
  else none
/-- The CSR is none of the access stream's (R123). -/
def csrHere (u : UnitId) (n : Nat) : Bool := !(isAcc u && decide (0x030 ≤ n ∧ n ≤ 0x032))
/-- A read that the U column of R124 does not allow. -/
def csrReadPriv (n : Nat) : Bool :=
  decide ((0x010 ≤ n ∧ n ≤ 0x018) ∨ n = 0x022 ∨ n = 0x050 ∨ (0x060 ≤ n ∧ n ≤ 0x062) ∨ n = 0x070)
/-- Every field of the CSR is RO. -/
def csrRo (n : Nat) : Bool :=
  decide (n ≤ 0x003 ∨ (0x030 ≤ n ∧ n ≤ 0x032) ∨ n = 0x040 ∨ n = 0x052 ∨ (0x080 ≤ n ∧ n ≤ 0x083) ∨ n = 0x090 ∨
    (0x0A0 ≤ n ∧ n ≤ 0x0A3) ∨ n = 0x0B0)
/-- A write that the U column of R124 does not allow. -/
def csrWritePriv (s : State) (n : Nat) : Bool := (csrRead s n).isSome && !decide (n = 0x020 ∨ n = 0x021 ∨ n = 0x051)

/-- The reserved regions of R118, [lo, hi): home queue, environments, mailbox, frame stacks. -/
def tqRegion (v : Word) : Nat × Nat := (bits v 20 16 * 0x10000, bits v 20 16 * 0x10000 + 0x10000)
def envRegion (v : Word) : Nat × Nat := (bits v 20 15 * 0x8000, bits v 20 15 * 0x8000 + 0x8000)
def mbRegion (v : Word) : Nat × Nat := (bits v 20 10 * 0x400, bits v 20 10 * 0x400 + 0x400)
def frRegion (v : Word) : Nat × Nat := (bits v 20 6 * 64, bits v 20 6 * 64 + 256 * bits v 31 21)
def clear (r : Nat × Nat) (l : List (Nat × Nat)) : Bool := !l.any fun q => overlap r.1 r.2 q.1 q.2
/-- TQCFG as R76 stores it. -/
def tqcfgOf (v : Word) : Word :=
  BitVec.ofNat 64 (max 1 (min 1024 (bits v 10 0)) + if v.getLsbD 16 then 65536 else 0)
/-- Every environment of the region is reset, each index with the generation it had (R118). -/
def resetEnvs (s : State) (c : Coord) (base i : Nat) : List Nat → State
  | [] => s
  | g :: r => resetEnvs (writeBytes s c (base + 128 * i) (envReset g) none) c base (i + 1) r
/-- Every access of the core that was checked under the attributes and regions as they were is performed under them: waiting stores
take effect, and no stream uses a word that it has read ahead (R117). -/
def settleCore : M Unit := do
  modify fun s => settleStores s s.cur.core fun _ => true
  modCore fun k => { k with threads := k.threads.map fun t => { t with early := [] } }
/-- Write a CSR as its map lays down (R125), with the refusals of R75 and R118. DESIGN CHOICE (log 76): ENVBASE and FRBASE
refuse a live environment or frame before they look at the placement, as R118 orders it for TQBASE; (log 107) FRBASE takes a region
that runs past local memory. -/
def csrWrite (n : Nat) (v : Word) : M Unit := do
  let s ← get
  let k ← getCore
  let tq := tqRegion k.tqbase
  let en := envRegion k.envbase
  let mb := mbRegion k.mbbase
  let fr := frRegion k.frbase
  if n = 0x010 then modSlot fun x => { x with status := (x.status &&& 1) ||| (v &&& 6) }
  else if n = 0x011 then modSlot fun x => { x with cause := v &&& 0xFFFFFFFF0001FFFF }
  else if n = 0x012 then modSlot fun x => { x with fpc := v &&& 0x1FFFFE }
  else if n = 0x013 then modSlot fun x => { x with fword0 := v &&& 0xFFFFFFFF }
  else if n = 0x014 then modSlot fun x => { x with fword1 := v &&& 0xFFFFFFFF }
  else if n = 0x015 then modSlot fun x => { x with fword2 := v &&& 0x7FFFF }
  else if n = 0x016 then modSlot fun x => { x with faddr := v }
  else if n = 0x017 then modCore fun k => { k with tvec := v &&& 0x1FFFFE }
  else if n = 0x018 then modThread fun t => { t with epc := v &&& 0x1FFFFE }
  else if n = 0x020 then modThread fun t => { t with cmask := v.setWidth 32 &&& 0xFFFFFFF0 }
  else if n = 0x021 then modThread fun t => { t with fcsr := v.setWidth 32 &&& 0x1F031F1F }
  else if n = 0x022 then modThread fun t => { t with dead := t.dead ||| (v.setWidth 32 &&& 0xFFFFFFFE) }
  else if n = 0x041 then modSlot fun x => { x with dcloss := v }
  else if n = 0x050 then do
    guardA k.home.isEmpty 0x0C1 1 0
    settleCore
    if clear (tqRegion v) [en, mb, fr] then modCore fun k => { k with tqbase := v &&& 0x1F0000 }
  else if n = 0x051 then
    set (advertNotice (mapCore s s.cur.core fun k => { k with tqcfg := tqcfgOf v }) s.cur.core)
  else if n = 0x060 then do
    guardD (!(List.range 256).any fun i => envLive (envHead k i)) 0x002 5
    if clear (envRegion v) [tq, mb, fr] then
      let s := mapCore s s.cur.core fun k => { k with envbase := v &&& 0x1F8000 }
      set (resetEnvs s s.cur.core (envRegion v).1 0 ((List.range 256).map fun i => envGen (envHead k i)))
  else if n = 0x061 then do
    guardD (allSlots.all fun i => (slotAt k i).depth == 0) 0x002 5
    if clear (frRegion v) [tq, en, mb] then modCore fun k => { k with frbase := v &&& 0xFFFFFFC0 }
  else if n = 0x062 then do
    if k.mb.isEmpty && clear (mbRegion v) [tq, en, fr] then modCore fun k => { k with mbbase := v &&& 0x1FFC00 }
  else if n = 0x070 then do
    settleCore
    modCore fun k =>
      let p : BitVec 9 := BitVec.ofNat 9 (bits v 24 16)
      { k with pageSel := p
               attr := if v.getLsbD 31 then mapSet 0x23 p.toNat (BitVec.ofNat 8 (bits v 6 0)) k.attr else k.attr }
  else trapD 0x002 5
/-- SRD (R278). -/
def execSrd (a : GReg) (csr : BitVec 15) (s : State) : Out :=
  instr uEA (csrReadPriv csr.toNat) [.here (csrHere s.cur.unit csr.toNat), .wr a] (do
    match csrRead (← get) csr.toNat with
    | some v => writeResult a v
    | none => trapD 0x002 5
    return .seq) s
/-- SWR (R278). -/
def execSwr (b : GReg) (csr : BitVec 15) (s : State) : Out :=
  instr uEA (csrWritePriv s csr.toNat) [.here (csrHere s.cur.unit csr.toNat), .rd b] (do
    guardD ((csrRead s csr.toNat).isSome && !csrRo csr.toNat) 0x002 5
    csrWrite csr.toNat (← readG b)
    return .seq) s
/-- The write that an SWR makes to one CSR. -/
def csrStep (priv : Bool) (n : Nat) (v : Word) (s : State) : Out :=
  instr uEA priv [] (do
    csrWrite n v
    return .seq) s
/-- PAGEATTR_WRITE (R125). -/
def execPageattrWrite (v : Word) (s : State) : Out := csrStep true 0x070 v s
/-- ENVBASE_WRITE (R118). -/
def execEnvbaseWrite (v : Word) (s : State) : Out := csrStep true 0x060 v s
/-- FRBASE_WRITE (R118). -/
def execFrbaseWrite (v : Word) (s : State) : Out := csrStep true 0x061 v s
/-- MBBASE_WRITE (R118). -/
def execMbbaseWrite (v : Word) (s : State) : Out := csrStep true 0x062 v s
/-- TQBASE_WRITE (R75). -/
def execTqbaseWrite (v : Word) (s : State) : Out := csrStep true 0x050 v s
/-- TQCFG_WRITE (R76). -/
def execTqcfgWrite (v : Word) (s : State) : Out := csrStep false 0x051 v s
/-- GDEAD_WRITE (R114). -/
def execGdeadWrite (v : Word) (s : State) : Out := csrStep true 0x022 v s
/-- FCSR_WRITE (R18). -/
def execFcsrWrite (v : Word) (s : State) : Out := csrStep false 0x021 v s

/-! ### Traps (R46 to R48, R277, R279), HALT (R280), parity errors (R284) -/

/-- DECODE_TRAP: the chain is no instruction; FADDR is the word that names the cause (R48). -/
def execDecodeTrap (cause : BitVec 9) (sub : BitVec 7) (pos : Nat) (s : State) : Out :=
  instr uEAN false [] (stop (.trap ⟨cause, sub⟩ (pcOf s + BitVec.ofNat 64 (2 * pos)) none)) s
/-- TRAP n (R279). -/
def execTrap (n : BitVec 15) (s : State) : Out :=
  instr uEA false [] (do
    guardD (decide (n.toNat ≤ 127)) 0x002 5
    stop (.soft (why 0x1C2 n.toNat))) s
/-- BRK (R279). -/
def execBrk (s : State) : Out := instr uEA false [] (stop (.soft (why 0x1C3 0))) s
/-- ERET (R277): never on the access stream. -/
def execEret (s : State) : Out :=
  instr uEA true [] (do
    let s ← get
    if isAcc s.cur.unit then trapD 0x009 0
    guardD ((slotOf s).status.getLsbD 2) 0x002 5
    modCore fun k => trapReturn k (slotNo s.cur.unit)
    return .stay) s
/-- An SSTEP that a release has covered is complete, its 4 bytes passed (R352). -/
def settleRelease (k : Core) (i : Fin 4) : Core :=
  if (slotAt k i).released then
    mapThread (mapSlot k i fun x => { x with released := false, arrived := false }) (.stream i .exec) fun t =>
      { t with pc := t.pc + 4 }
  else k
/-- Both streams stop and the slot is Halted, each EPC at the stream's boundary; the one on `side` has moved `len` on. The
access stream's EPC of a slot that had already stopped it is kept (R276, R280). -/
def haltSlot (k : Core) (i : Fin 4) (side : Side) (len : Nat) : Core :=
  let k := settleRelease k i
  let held := (slotAt k i).st != .running
  let accRan := (threadAt k (.stream i .acc)).running
  let stopAt (y : Side) (t : Thread) : Thread :=
    let t1 := pauseThread t
    { t1 with epc := if y = .acc ∧ held then t.epc
                     else (if y = side then t.pc + BitVec.ofNat 64 len else t.pc) &&& 0x1FFFFE }
  let k := mapSlot k i fun x =>
    { x with st := .halted, accWas := if held then x.accWas else accRan, arrived := false }
  mapThread (mapThread k (.stream i .exec) (stopAt .exec)) (.stream i .acc) (stopAt .acc)
/-- A slot is Halted; the references that its stalled instructions had added are dropped (R108, R280). -/
def stopSlot (s : State) (c : Coord) (i : Fin 4) (side : Side) (len : Nat) : State :=
  mapCore (releaseSlot s c i) c fun k => haltSlot k i side len
/-- HALT (R280). -/
def execHalt (s : State) : Out :=
  instr uEA true [] (do
    modify fun s => stopSlot s s.cur.core (slotNo s.cur.unit) (unitSide s.cur.unit) (lenOf s)
    return .stay) s
/-- PARITY_ERROR: the slot is Halted, the die's log takes an entry, the launch fails (R284). An instruction of the slot that is under
way at another core completes first (R273). -/
def execParityError (c : Coord) (slot : Fin 4) (queue : Bool) (s : State) : Out :=
  event (fun s =>
    let w := why 0x180 (if queue then 2 else 1)
    if slotBegun (coreAt s c) slot then s
    else failCore (logFault (stopSlot s c slot .exec 0) c c slot w 6 0 0 0) c w) s

/-! ### SSTEP (R351) -/

/-- Steps 1 and 2 of TRET (R95): the access stream idle, or held by a handler (R276); failures reported; st and bk 0. -/
def endSteps : M Unit := do
  let s ← get
  if isIbex s.cur.unit then stallIf (decide ((threadOf s).bk ≠ 0))
  else
    let k := coreAt s s.cur.core
    let e := threadAt k (.stream (slotNo s.cur.unit) .exec)
    let a := threadAt k (.stream (slotNo s.cur.unit) .acc)
    stallIf (a.running && (slotOf s).st != .trapped)
    reportPosted fun _ => true
    stallIf (decide (e.st ≠ 0 ∨ a.st ≠ 0 ∨ e.bk ≠ 0 ∨ a.bk ≠ 0))
/-- SSTEP: arrives, and completes once a release has covered the core. -/
def execSstep (s : State) : Out :=
  instr uE false [] (do
    stallIfSpec
    guardA (farTask s).isNone 0x142 1 0
    guardA (!(slotOf s).status.getLsbD 2) 0x142 2 0
    endSteps
    stallIf (decide ((threadOf s).ld ≠ 0) || pkgWaits s)
    if (slotOf s).released then
      modSlot fun x => { x with released := false, arrived := false }
      return .seq
    else stop .arrive) s

end Sys2Proof.Machine
end

