-- ==== Sys2Proof/Machine/Task.lean ====
section
/-! DEFINITION. Machine/Task.lean: the task instructions (R94 to R98), near dispatch (R78), slots taking and stealing work
(R82, R83, R320), and the draining of a promoted far body's buffers (R86, R88). -/
namespace Sys2Proof.Machine

/-! ### TASK (R94) -/

/-- `d` is a core of the launch of `c` and runs its reel (R67). -/
def sameReel (s : State) (c d : Coord) : Bool := inLaunch s c d && (coreAt s d).role == (coreAt s c).role
/-- The first failing check of R67 after the address, by number. -/
def rcdCheck (s : State) (c : Coord) (r : BitVec 512) : Option Nat :=
  if bits r 63 48 ≠ 0 ∨ bits r 191 169 ≠ 0 ∨ bits r 166 160 ≠ 0 then some 2
  else if rcdValid r && !decide (rcdOff r % 4 = 0 ∧ rcdOff r + rcdLen r ≤ 0x200000 ∧ rcdOff r % 64 + rcdLen r ≤ 4096) then some 3
  else if rcdValid r && !sameReel s c (rcdHome r) then some 4
  else if (rcdNear r = 0 ∧ rcdFar r = 0) ∨ (r.getLsbD 167 ∧ r.getLsbD 168) ∨ (r.getLsbD 168 ∧ rcdNear r = 0) ∨
    (r.getLsbD 167 ∧ rcdFar r = 0) then some 5
  else if !rcdValid r && !decide (rcdAnchor r = 0 ∧ rcdNear r = 0 ∧ ¬ r.getLsbD 168) then some 6
  else none
/-- The record at a near address, read as a local load reads, and checked (R67, R94); a TASK that waits for a home's answer
keeps the record that it has read. In a far body whose home is this core, what its anchor buffer holds of the bytes is read. -/
def readRcd (ra : Word) : M (BitVec 512) := do
  let s ← get
  if let some r := (threadOf s).rcd then return r
  match resolveNear s.cur.core false ra with
  | .own x _ =>
    guardA (x % 64 == 0) 0x0C2 1 ra
    let k ← getCore
    stallIf (scoreW k x (x + 64))
    (match poisonIn k x 64 with
      | some p => trapA 0x181 1 (BitVec.ofNat 64 p)
      | none => pure ())
    let buf : Memory := match farTask s with
      | some t => if t.home = s.cur.core then t.abuf else []
      | none => []
    let r : BitVec 512 := BitVec.ofNat 512 (leNat (overlay buf x (peeks k.mem x 64)))
    modify fun s => readAt s s.cur.core x 64
    match rcdCheck s s.cur.core r with
    | some n => trapA 0x0C2 n ra
    | none => do
      modThread fun t => { t with rcd := some r }
      return r
  | _ => trapA 0x0C2 1 ra
/-- Add the references of a record's two handles. Where the near one's home is this core and the far one's is not, the near
one is only checked until the far home has answered: no other agent finds a reference that may still be taken back. Where a later
check traps, the references that other homes have added are dropped with the trap. -/
def takeRefs (near far : Handle) : M Unit := do
  let s ← get
  let me := s.cur.core
  if near != 0 && hHome near == me && far != 0 && hHome far != me then
    if !asked s (.closureAdd far 1) then probe (takeRef near 0)
    takeRef far 1
    takeRef near 0
  else
    takeRef near 0
    takeRef far 1
/-- TASK (R94): field c names the pin of a free task, g0 the creating core. DESIGN CHOICE (log 81): field c may name a special
register, which is read as any source is, also for an anchored task. -/
def execTask (b c : GReg) (s : State) : Out :=
  instr uEA false [.rd b, .rd c] (do
    let ra ← readG b
    let v ← readG c
    let r ← readRcd ra
    let me := s.cur.core
    let free := !rcdValid r
    let target : Coord := if !free then rcdHome r else if c = .g 0 then me else BitVec.ofNat 13 v.toNat
    guardA (!free || c == .g 0 || sameReel s me target) 0x0C3 0 0
    let s1 ← get
    if isSpec s1 then hold (.task (unitSide s1.cur.unit) (pcOf s1) ra target r)
    else
      stallIf (target != me && postedFull s1)
      takeRefs (rcdNear r) (rcdFar r)
      if target = me then do
        let s2 ← get
        match acceptRcd s2 me r with
        | (_, some w) => trapW w ra
        | (s3, none) => set s3
      else post (.message target) ra fun o s => send s me target .request s.cur.unit 0 (some o) none (.taskRec r ra)
    return .seq) s
/-- TASK_RECORD_ARRIVAL: the home accepts or refuses; on a refusal the references that TASK added are dropped (R94). -/
def execTaskRecordArrival (id : Nat) (s : State) : Out :=
  event (fun s => match msgReady s id with
    | some m => match m.load with
      | .taskRec r _ =>
        let s := dropMsg s id
        let refuse (s : State) (w : Why) : State :=
          reply (dropHandle (dropHandle s m.dst (rcdNear r)) m.dst (rcdFar r)) m (.ack (some w) 0)
        match powerRefusal (coreAt s m.dst) with
        | some w => refuse s w
        | none => match acceptRcd s m.dst r with
          | (s, some w) => refuse s w
          | (s, none) => reply s m (.ack none 0)
      | _ => s
    | none => s) s

/-! ### The end of a body (R95, R96) -/

/-- Copy failures of a body that ends are reported by nothing else (R237). -/
def reportCopies (s : State) (c : Coord) (i : Fin 4) : State :=
  let serial := (slotAt (coreAt s c) i).serial
  let mine (f : CopyFail) : Bool := unitSlot f.unit == some i && f.serial == serial
  let fs := allSlots.flatMap fun ch => (chanAt (coreAt s c) ch).failed.filter mine
  let s := mapCore s c fun k => allSlots.foldl (fun k ch => mapChan k ch fun x =>
    { x with failed := x.failed.filter fun f => !mine f }) k
  fs.foldl (fun s f => unreported s c f) s
/-- The slot leaves its task; what a stalled instruction of its streams had added elsewhere is dropped. DESIGN CHOICE (log 97): copy
failures that are not reported yet are logged, and the launch marked, at a TSUSP as at a retirement (R237). -/
def leaveSlot (s : State) (c : Coord) (i : Fin 4) : State :=
  let s := releaseSlot s c i
  mapCore (reportCopies s c i) c fun k => endSlot k i
/-- Every store of the body to own memory takes effect: those of both streams of a slot (R70, R101). -/
def drainBody (s : State) (a : Agent) : State := match a.unit with
  | .stream i _ => drainStores (drainStores s ⟨a.core, .stream i .exec⟩) ⟨a.core, .stream i .acc⟩
  | .ibex _ => drainStores s a
/-- The unit's body ends: its record retires (R95 steps 4 and 5). -/
def endBody (s : State) (a : Agent) (t : Task) : State :=
  let s := retire (drainBody s a) t.home t.entry
  match a.unit with
  | .stream i _ => leaveSlot s a.core i
  | .ibex n => mapCore s a.core fun k => endIbex k n
/-- TRET (R95); a far body's buffers have drained once it is promoted and runs (R88). -/
def execTret (s : State) : Out :=
  instr uEN false [] (do
    endSteps
    stallIfSpec
    let s ← get
    match taskOf (coreAt s s.cur.core) s.cur.unit with
    | some t => set (endBody s s.cur t)
    | none => pure ()
    return .stay) s
/-- The continuation of a record (R96). -/
def suspended (r : BitVec 512) (h : Handle) : BitVec 512 :=
  let r := setFlag (setFlag (setFlag r 2 true) 1 false) 0 false
  let r := setBits r 159 128 h.toNat
  if rcdValid r then setBits r 127 96 0 else r
/-- TSUSP (R96): a speculative far body waits, committing, for its promotion; the reference is added before step 2 is made
again. The continuation of a promoted task stays promoted (R72). -/
def execTsusp (k : KReg) (s : State) : Out :=
  instr uE false [.kreg k] (do
    let h ← readK k
    guardA (h != 0) 0x0C4 0 0
    if !((← getSlot).committing || asked (← get) (.closureAdd h 0)) then endSteps
    if ← getSpec then stop .commit
    takeRef h 0
    endSteps
    let s0 ← get
    let s := drainBody (forget s0) s0.cur
    let c := s.cur.core
    let i := slotNo s.cur.unit
    match (slotOf s).task with
    | some t =>
      let s1 := mapCore s t.home fun k => mapRecord k t.entry fun e =>
        { e with rcd := suspended e.rcd h, slot := none, taker := none, bitmap := 0 }
      let s2 := dropHandle (dropHandle s1 t.home (rcdNear t.rcd)) t.home (rcdFar t.rcd)
      set (advertNotice (leaveSlot s2 c i) t.home)
    | none => pure ()
    return .stay) s
/-- TQCFG (R97): unchanged where field b names g0. -/
def execTqcfg (a b : GReg) (s : State) : Out :=
  instr uEA false [.rd b, .wr a] (do
    let v ← readG b
    let old := (← getCore).tqcfg
    writeResult a old
    if b != .g 0 then csrWrite 0x051 v
    return .seq) s
/-- TQDEPTH (R98). -/
def execTqdepth (a : GReg) (s : State) : Out :=
  instr uEA false [.wr a] (do
    let k ← getCore
    writeResult a (BitVec.ofNat 64 (homeDepth k + 2 ^ 16 * k.home.length + if advertises k then 2 ^ 32 else 0))
    return .seq) s

/-! ### Near dispatch, work and stealing -/

/-- The core runs: powered, of a running launch, the device brought up. -/
def coreRuns (s : State) (c : Coord) : Bool :=
  isCore c && s.phase == .running && (coreAt s c).power == .on && match launchOf s c with
    | some l => l.phase == .running && !l.aborted && !l.contextLost
    | none => false
/-- The oldest of the entries that `p` allows, or the youngest. -/
def pick (p : Entry → Bool) (oldest : Bool) : List Entry → Option Entry
  | [] => none
  | e :: r => match pick p oldest r with
    | none => if p e then some e else none
    | some f => if p e && (older e f == oldest) then some e else some f
/-- A home marks an entry taken, by TNEAR 0 or TFAR 1 for an anchored one, and far tasks that nothing holds back are
promoted (R78, R83, R85). -/
def takeEntryOf (s : State) (home : Coord) (e : Entry) (flag : Nat) (a : Agent) : State :=
  advertNotice (mapCore s home fun k => promote (mapRecord k e.seq fun x =>
    { x with rcd := if rcdValid x.rcd then setFlag x.rcd flag true else x.rcd, taker := some a, bitmap := 0 })) home
def newTask (home : Coord) (e : Entry) : Task :=
  { rcd := e.rcd, home := home, entry := e.seq, abuf := [], obuf := [], held := none }
/-- Taken and started (R91). -/
def takeAndStart (s : State) (a : Agent) (home : Coord) (e : Entry) (flag : Nat) : State :=
  bodyStart (takeEntryOf s home e flag a) a.core a.unit (newTask home e)
/-- NEAR_DISPATCH (R78): unit 0 takes first. -/
def execNearDispatch (c : Coord) (u : Fin 2) (s : State) : Out :=
  event (fun s =>
    let k := coreAt s c
    let free (n : Fin 2) : Bool := (ibexAt k n).task.isNone && (ibexAt k n).starting.isNone
    if coreRuns s c && free u && !(u == 1 && free 0) then
      match pick (fun e => rcdValid e.rcd && !rcdTaken e.rcd && !rcdFarOnly e.rcd && eligible k e) true k.home with
      | some e => takeAndStart s ⟨c, .ibex u⟩ c e 0
      | none => s
    else s) s
/-- The slot is idle, and nothing of its last task is outstanding. -/
def slotFree (k : Core) (i : Fin 4) : Bool :=
  let x := slotAt k i
  let clean (y : Side) : Bool :=
    let t := threadAt k (.stream i y)
    t.gld.isEmpty && t.sbuf.isEmpty && decide (t.bk = 0 ∧ t.mx = 0 ∧ t.ld = 0)
  x.st == .idle && x.task.isNone && x.starting.isNone && clean .exec && clean .acc
/-- Step 1 of R82 for a slot; the task that a launch made for a slot is that slot's (R90, log 83). -/
def freeRecord (k : Core) (slot : Fin 4) : Option Entry :=
  pick (fun e => !rcdValid e.rcd && e.taker.isNone && e.slot.all (· == slot)) true k.home
/-- What a far body may take (R83). -/
def stealable (k : Core) (e : Entry) : Bool :=
  rcdValid e.rcd && !rcdTaken e.rcd && !rcdNearOnly e.rcd && (rcdAborts e.rcd == 0 || eligible k e)
/-- Step 2 of R82. -/
def ownFarRecord (k : Core) : Option Entry :=
  pick (fun e => stealable k e && rcdFarOnly e.rcd && eligible k e) false k.home
/-- SLOT_TAKES_WORK (R82 steps 1 and 2). -/
def execSlotTakesWork (c : Coord) (slot : Fin 4) (s : State) : Out :=
  event (fun s =>
    let k := coreAt s c
    if coreRuns s c && slotFree k slot then
      match freeRecord k slot with
      | some e => takeAndStart s ⟨c, .stream slot .exec⟩ c e 1
      | none => match ownFarRecord k with
        | some e => takeAndStart s ⟨c, .stream slot .exec⟩ c e 1
        | none => s
    else s) s
/-- STEAL_REQUEST (R320). -/
def execStealRequest (c : Coord) (slot : Fin 4) (s : State) : Out :=
  event (fun s =>
    let k := coreAt s c
    if coreRuns s c && slotFree k slot && k.tqcfg.getLsbD 16 && (freeRecord k slot).isNone then
      send s c c .control (.stream slot .exec) 0 none none (.stealAsk slot)
    else s) s
/-- The Slate prefers a home of the requester's cluster, then the nearest, then the lowest coordinate (R82). -/
def preferred (c x y : Coord) : Bool :=
  let key (d : Coord) : Nat := ((if sameCluster c d then 0 else 1) * 64 + manhattan c d) * 8192 + d.toNat
  decide (key x ≤ key y)
def chooseHome (c : Coord) : List Coord → Option Coord
  | [] => none
  | d :: r => match chooseHome c r with
    | none => some d
    | some e => if preferred c d e then some d else some e
/-- SLATE_STEAL_CONTROL: a notice, a request, or the Slate's answer at the slot (R320). -/
def execSlateStealControl (id : Nat) (s : State) : Out :=
  event (fun s => match msgReady s id with
    | some m => match m.load with
      | .notice b =>
        mapDie (dropMsg s id) (dieOf m.src) fun d =>
          { d with advertised := (d.advertised.filter (· != m.src)) ++ if b then [m.src] else [] }
      | .stealAsk slot =>
        let l := (dieAt s (dieOf m.src)).advertised.filter fun d => sameReel s m.src d
        send (dropMsg s id) m.src m.src .control m.unit 0 none none (.stealGrant slot (chooseHome m.src l))
      | .stealGrant slot h =>
        mapCore (dropMsg s id) m.dst fun k =>
          if (slotAt k slot).st == .idle then mapSlot k slot fun x => { x with grant := h } else k
      | _ => s
    | none => s) s
/-- STEAL: the granted home gives its youngest record that qualifies; with none, or where
it is off or drowsy (R322), the slot stays idle (R83). -/
def execSteal (c : Coord) (slot : Fin 4) (s : State) : Out :=
  event (fun s =>
    let k := coreAt s c
    match (slotAt k slot).grant with
    | some h =>
      if coreRuns s c && slotFree k slot && (freeRecord k slot).isNone && (ownFarRecord k).isNone && sameReel s c h then
        let s := mapCore s c fun k => mapSlot k slot fun x => { x with grant := none }
        match powerRefusal (coreAt s h), pick (stealable (coreAt s h)) false (coreAt s h).home with
        | none, some e => takeAndStart s ⟨c, .stream slot .exec⟩ h e 1
        | _, _ => s
      else s
    | none => s) s

/-! ### Draining a promoted far body's buffers (R86, R88, R94) -/

/-- The home's line writes of an anchor buffer, in one step. -/
def applyAnchor (s : State) (t : Task) : State :=
  t.abuf.foldl (fun s e => writeBytes s t.home e.1 [e.2] (some (t.home, t.entry))) s
/-- Add the references of a drained record; the refusal, with what was added (R94). -/
def addRefs (s : State) (c : Coord) : List Handle → List Handle → State × Option (Why × List Handle)
  | [], _ => (s, none)
  | h :: r, done =>
    if h = 0 then addRefs s c r done
    else if !inLaunch s c (hHome h) then (s, some (why 0x0E0 2, done))
    else match powerRefusal (coreAt s (hHome h)), closureServe s (hHome h) c (.closureAdd h 0) with
      | some w, _ => (s, some (w, done))
      | none, (s, .refused w _) => (s, some (w, done))
      | none, (s, _) => addRefs s c r (h :: done)
/-- A drained TASK: posted also where its home is its own core (R94). DESIGN CHOICE (log 82): FADDR of a refused reference is
the entry's address, the record's. -/
def drainTask (s : State) (c : Coord) (u : UnitId) (o : Origin) (d : Coord) (ra : Word) (r : BitVec 512) : State :=
  let drop (s : State) (l : List Handle) : State := l.foldl (fun s h => dropHandle s c h) s
  match addRefs s c [rcdNear r, rcdFar r] [] with
  | (s, some (w, l)) => ackPosted (drop s l) o (some w) none
  | (s, none) =>
    if d = c then match acceptRcd s c r with
      | (s, some w) => ackPosted (drop s [rcdNear r, rcdFar r]) o (some w) none
      | (s, none) => ackPosted s o none none
    else send s c d .request u 0 (some o) none (.taskRec r ra)
/-- One outgoing entry leaves as a posted operation, or to its port; `none` while it has no room, and for a TASK while earlier
closure operations of the core on its handles' homes are under way (R189). -/
def drainEntry (s : State) (c : Coord) (i : Fin 4) (t : Task) (e : Outgoing) : Option State :=
  let w := some (t.home, t.entry)
  let full (x : Side) : Bool :=
    decide (63 ≤ (threadAt (coreAt s c) (.stream i x)).st ∨ Config.postedEntries ≤ (slotAt (coreAt s c) i).posted.length)
  let go (x : Side) (pc : Word) (sc : Scope) (a : Word) (f : Origin → State → State) : Option State :=
    if full x then none
    else
      let (s, o) := postedAdd s c i x pc sc a
      some (f o s)
  let behind (h : Handle) : Bool := h != 0 && hHome h != c && closuresOut s c (hHome h)
  match e with
  | .winStore x pc a ps => go x pc .window a fun o s =>
      ps.foldl (fun s p => send s c p.1 .cluster (.stream i x) 0 (some o) w (.winStore p.2)) s
  | .gst x pc a bs => go x pc .global a fun o s => sendGlobal s o a (.store bs)
  | .msg x pc r bs sig =>
    if sig then
      let d : Coord := BitVec.ofNat 13 r.toNat
      go x pc (.message d) 0 fun o s =>
        send s c d .request (.stream i x) 0 (some o) w (.signal (BitVec.ofNat 64 (leNat bs)))
    else go x pc (.message (rDest r)) (BitVec.ofNat 64 (rAddr r)) fun o s =>
      send s c (rDest r) .request (.stream i x) 0 (some o) w (.put r bs)
  | .port x p v =>
    if 8 ≤ ((slotAt (coreAt s c) i).ports[p]).send.length then none
    else some { mapCore s c fun k => mapSlot k i fun y =>
      { y with ports := y.ports.set p { y.ports[p] with send := y.ports[p].send ++ [(x, s.nextId, v)] } } with nextId := s.nextId + 1 }
  | .task x pc ra d r =>
    if behind (rcdNear r) || behind (rcdFar r) then none else go x pc (.message d) ra fun o s => drainTask s c (.stream i x) o d ra r
/-- The anchor buffer may drain: its home is on (R322), the home's scoreboard holds none of its lines (R102, R121), and no load of the
slot from the view is still to be answered, which the buffer forwards to (R86). -/
def anchorDrains (s : State) (c : Coord) (slot : Fin 4) (t : Task) : Bool :=
  let open' (x : Side) : Bool := (threadAt (coreAt s c) (.stream slot x)).pend.any fun p => isView p.req && p.ans.isNone
  (coreAt s t.home).power == .on && !(t.abuf.any fun e => scoreRW (coreAt s t.home) e.1 (e.1 + 1)) && !open' .exec && !open' .acc
/-- BUFFER_DRAIN: the anchor buffer first, then the outgoing entries in program order. -/
def execBufferDrain (c : Coord) (slot : Fin 4) (s : State) : Out :=
  event (fun s =>
    match (slotAt (coreAt s c) slot).task with
    | some t =>
      let put (s : State) (f : Task → Task) : State :=
        mapCore s c fun k => mapSlot k slot fun x => { x with task := x.task.map f }
      if speculative s t then s
      else if !t.abuf.isEmpty then
        if anchorDrains s c slot t then put (applyAnchor s t) fun t => { t with abuf := [] } else s
      else match t.obuf with
        | e :: _ => match drainEntry s c slot t e with
          | some s => put s fun t => { t with obuf := t.obuf.drop 1 }
          | none => s
        | [] => s
    | none => s) s

end Sys2Proof.Machine
end

