-- ==== Sys2Proof/Machine/Object.lean ====
section
/-! DEFINITION. Machine/Object.lean: the code object (R361 to R371): its checks in the order of R372, each failure as
SECT, INDEX and REASON, and the images that the launch unit prepares from it. An object is the list of its bytes. -/
namespace Sys2Proof.Machine

/-! ### Records of an object -/

/-- The number in `n` bytes at offset `a`. -/
def objNat (o : List Byte) (a n : Nat) : Nat := leNat ((o.drop a).take n)
/-- OFFSET, SIZE and COUNT of directory entry `i` (R361). -/
def dirOff (o : List Byte) (i : Nat) : Nat := objNat o (64 + 16 * i) 4
def dirSize (o : List Byte) (i : Nat) : Nat := objNat o (68 + 16 * i) 4
def dirCount (o : List Byte) (i : Nat) : Nat := objNat o (72 + 16 * i) 4
def objSize (o : List Byte) : Nat := objNat o 8 4
def nReel (o : List Byte) : Nat := objNat o 12 4
def nKern (o : List Byte) : Nat := objNat o 16 4
/-- Record `i` of a section whose records have `n` bytes. -/
def recNat (o : List Byte) (sect n i : Nat) : Nat := objNat o (dirOff o sect + n * i) n
/-- Reel-table entry `r` (R364). -/
def reelRec (o : List Byte) (r : Nat) : Nat := recNat o 0 32 r
def reelMem (o : List Byte) (r : Nat) : Nat := natBits (reelRec o r) 255 224
def reelImgSize (o : List Byte) (r : Nat) : Nat := natBits (reelRec o r) 223 192
def reelImgOff (o : List Byte) (r : Nat) : Nat := natBits (reelRec o r) 191 160
def reelData (o : List Byte) (r : Nat) : Nat := natBits (reelRec o r) 159 128
def reelConst (o : List Byte) (r : Nat) : Nat := natBits (reelRec o r) 127 96
def reelGot (o : List Byte) (r : Nat) : Nat := natBits (reelRec o r) 95 64
def reelBase (o : List Byte) (r : Nat) : Nat := natBits (reelRec o r) 63 32
/-- The stored image of reel `r`. -/
def reelImage (o : List Byte) (r : Nat) : List Byte := (o.drop (dirOff o 8 + reelImgOff o r)).take (reelImgSize o r)
/-- Kernel header `k` (R367). -/
def kernRec (o : List Byte) (k : Nat) : Nat := recNat o 3 256 k
def kRoles (h : Nat) : Nat := natBits h 503 488
def kRole (h r : Nat) : Bool := (kRoles h).testBit r
def kPlCnt (h : Nat) : Nat := natBits h 1583 1568
def kHtCnt (h : Nat) : Nat := natBits h 1631 1616
def kFrSize (h : Nat) : Nat := natBits h 482 472
def kNf (h : Nat) : Nat := natBits h 434 432
def kWidth (h f : Nat) : Nat := natBits h (384 + 8 * f + 6) (384 + 8 * f)
def kExtM1 (h f : Nat) : Nat := natBits h (64 * f + 63) (64 * f)
def kLbase (h r : Nat) : Nat := natBits h (512 + 64 * r + 63) (512 + 64 * r + 32)
def kEntry (h r : Nat) : Nat := natBits h (512 + 64 * r + 31) (512 + 64 * r)
/-- The base of reel `r` for a kernel: LBASE, or PBASE where that is 0 (R367). -/
def baseOf (o : List Byte) (h r : Nat) : Nat := if kLbase h r = 0 then reelBase o r else kLbase h r
/-- Placement record `j` of a kernel (R367). -/
def placeRec (o : List Byte) (h j : Nat) : Nat := objNat o (dirOff o 3 + natBits h 1567 1536 + 8 * j) 8
def placeRecs (o : List Byte) (h : Nat) : List Nat := (List.range (kPlCnt h)).map (placeRec o h)
def heatRec (o : List Byte) (h j : Nat) : Nat := objNat o (dirOff o 3 + natBits h 1615 1584 + 4 * j) 4
/-- The fields of a cast entry or placement record (R365). -/
def ceIndex (e : Nat) : Nat := natBits e 37 36
def ceRole (e : Nat) : Nat := natBits e 35 32
def ceDie (e : Nat) : Nat := natBits e 4 0
/-- A cast entry names the core. -/
def ceHas (e : Nat) (c : Coord) : Bool :=
  decide (dieOf c = ceDie e ∧ natBits e 19 16 ≤ rowOf c ∧ rowOf c ≤ natBits e 23 20 ∧ natBits e 27 24 ≤ colOf c ∧
    colOf c ≤ natBits e 31 28)
/-- The cores that a cast entry names, in coordinate order. -/
def ceCores (e : Nat) : List Coord :=
  ((List.range 256).map fun i => coordOf (ceDie e) (i / 16) (i % 16)).filter (ceHas e)
/-- Two cast entries share a core. -/
def ceMeet (e f : Nat) : Bool := (ceCores e).any (ceHas f)
def castRecs (o : List Byte) : List Nat := (List.range (dirCount o 1)).map (recNat o 1 8)
/-- The role a core is cast to under an index. -/
def castRole (o : List Byte) (i : Nat) (c : Coord) : Option Nat :=
  ((castRecs o).find? fun e => ceIndex e == i && ceHas e c).map ceRole
/-- The fields of a relay record (R366). -/
def reTo (e : Nat) : Coord := BitVec.ofNat 13 e
def reFrom (e : Nat) : Coord := BitVec.ofNat 13 (natBits e 28 16)
def reForwards (e : Nat) : List Coord :=
  [BitVec.ofNat 13 (natBits e 44 32), BitVec.ofNat 13 (natBits e 60 48), BitVec.ofNat 13 (natBits e 76 64)].filter (· != 0x1FFF)
def relayRecs (o : List Byte) : List Nat := (List.range (dirCount o 2)).map (recNat o 2 16)
def relayOf (o : List Byte) (c : Coord) : Option Nat := (relayRecs o).find? fun e => reTo e == c
/-- Symbol `i` (R368). -/
def symRec (o : List Byte) (i : Nat) : Nat := recNat o 7 48 i
def symValue (e : Nat) : Nat := natBits e 255 192
def symKind (e : Nat) : Nat := natBits e 259 256
def symReel (e : Nat) : Nat := natBits e 263 260
/-- The bytes of a symbol's name up to its padding. -/
def symName (e : Nat) : List Nat := ((leBytes 24 e).map (·.toNat)).takeWhile (· != 0)
/-- GOT record `i` (R369). -/
def gotRec (o : List Byte) (i : Nat) : Nat := recNat o 5 8 i
def gotSlot (e : Nat) : Nat := natBits e 47 32
def gotReel (e : Nat) : Nat := natBits e 51 48
/-- Relocation record `i` (R370). -/
def relRec (o : List Byte) (i : Nat) : Nat := recNat o 6 16 i
def relPair (e : Nat) : Nat := natBits e 119 104
def relType (e : Nat) : Nat := natBits e 103 100
def relReel (e : Nat) : Nat := natBits e 99 96
def relSym (e : Nat) : Nat := natBits e 63 32
def relOff (e : Nat) : Nat := natBits e 31 0

/-! ### The checks of R372 -/

/-- A failure for the loader report: SECT, INDEX, REASON (R372). -/
abbrev Report := Nat × Nat × Nat
/-- The REASON of the first condition that holds. -/
def firstReason : List (Bool × Nat) → Option Nat
  | [] => none
  | (b, r) :: l => if b then some r else firstReason l
/-- The first of `n` records of a section that fails. -/
def tableCheck (sect n : Nat) (f : Nat → Option Nat) : Option Report :=
  (List.range n).findSome? fun i => (f i).map fun r => (sect, i, r)
/-- Item 1, the header (R361). -/
def headerCheck (o : List Byte) : Option Report :=
  (firstReason
    [ (decide (objNat o 0 4 ≠ 0x4F4D594E ∨ objNat o 4 2 ≠ 1 ∨ objNat o 6 2 ≠ 0 ∨ objNat o 20 44 ≠ 0 ∨ objSize o % 64 ≠ 0), 1),
      (decide (0x04000000 < objSize o ∨ nReel o < 1 ∨ 16 < nReel o ∨ nKern o < 1 ∨ 4096 < nKern o), 2) ]).map
    fun r => (0, 0, r)
/-- SIZE of a section by its records (R361). -/
def sectionSize (o : List Byte) (i : Nat) : Nat :=
  let n := dirCount o i
  match i with
  | 0 => 32 * n
  | 1 => 8 * n
  | 2 => 16 * n
  | 3 => (List.range n).foldl (fun a k => a + 8 * kPlCnt (kernRec o k) + 4 * kHtCnt (kernRec o k)) (256 * n)
  | 4 => dirSize o 4
  | 5 => 8 * n
  | 6 => 16 * n
  | 7 => 48 * n
  | 8 => reelImgOff o (n - 1) + reelImgSize o (n - 1)
  | _ => 192
/-- The end of what stands before section `i`. -/
def sectionFloor (o : List Byte) (i : Nat) : Nat := if i = 0 then 224 else dirOff o (i - 1) + dirSize o (i - 1)
/-- Item 1, directory entry `i` (R361). DEDUCED (log 84): a constant block is not empty, so that there are as many blocks as
COUNT says only where COUNT is at most SIZE / 64, and 0 where SIZE is. -/
def dirCheck (o : List Byte) (i : Nat) : Option Nat :=
  firstReason
    [ (decide (objNat o (76 + 16 * i) 4 ≠ 0 ∨ dirOff o i % 64 ≠ 0), 1),
      (decide (dirOff o i < sectionFloor o i ∨ objSize o < dirOff o i + dirSize o i), 2),
      (decide ((i = 0 ∨ i = 8) ∧ dirCount o i ≠ nReel o) || decide (i = 3 ∧ dirCount o i ≠ nKern o) ||
        decide (i = 9 ∧ dirCount o i ≠ 1) || decide (i = 4 ∧ (dirSize o i % 64 ≠ 0 ∨ dirSize o i / 64 < dirCount o i ∨ (dirCount o i = 0 ∧ dirSize o i ≠ 0))) || decide (dirSize o i ≠ sectionSize o i) ||
        decide (i = 9 ∧ dirOff o i + dirSize o i ≠ objSize o) ||
        ((o.drop (sectionFloor o i)).take (dirOff o i - sectionFloor o i)).any (· != 0), 1) ]
def dirChecks (o : List Byte) : Option Report := (List.range 10).findSome? fun i => (dirCheck o i).map fun r => (i, 0, r)
/-- Item 2 (R362): the key is one that the host entered, and the signature is valid. -/
def signatureCheck (h : HostRegs) (o : List Byte) : Option Report :=
  let a := dirOff o 9
  let key := (o.drop (a + 114)).take 57
  let entered (i : Nat) : Bool :=
    (mapGet 0 h.keys (64 * i + 63)).getLsbD 0 && (List.range 57).map (fun j => mapGet 0 h.keys (64 * i + j)) == key
  (firstReason
    [ (decide (objNat o (a + 171) 21 ≠ 0), 1),
      (!(List.range 8).any entered, 6),
      (!ed448Verify key (shake256 64 (o.take a)) ((o.drop a).take 114), 3) ]).map fun r => (9, 0, r)
/-- Item 3 (R364). -/
def reelCheck (o : List Byte) (r : Nat) : Option Nat :=
  firstReason
    [ (decide (natBits (reelRec o r) 31 0 ≠ 0 ∨ reelImgOff o r % 64 ≠ 0 ∨ reelGot o r % 8 ≠ 0 ∨ reelBase o r % 4096 ≠ 0), 1),
      (decide (reelMem o r < reelImgSize o r ∨ dirSize o 8 < reelImgOff o r + reelImgSize o r ∨
        reelData o r < reelConst o r ∨ reelMem o r < reelData o r ∨ reelGot o r < reelData o r ∨
        reelMem o r ≤ reelGot o r ∨ 0x200000 < reelBase o r + reelMem o r), 2) ]
/-- The form of a cast entry or placement record (R365). -/
def ceCheck (o : List Byte) (e : Nat) : Option Nat :=
  firstReason
    [ (decide (natBits e 63 38 ≠ 0 ∨ natBits e 15 5 ≠ 0), 1),
      (decide (16 ≤ ceDie e ∨ natBits e 31 28 < natBits e 27 24 ∨ natBits e 23 20 < natBits e 19 16 ∨ nReel o ≤ ceRole e), 2) ]
/-- Item 4 (R365). -/
def castCheck (o : List Byte) (i : Nat) : Option Nat :=
  let e := recNat o 1 8 i
  (ceCheck o e).or (firstReason
    [ ((List.range i).any fun j => ceIndex (recNat o 1 8 j) == ceIndex e && ceMeet (recNat o 1 8 j) e, 2) ])
/-- The FROM links from core `c` come back to `start`. -/
def relayLoops (o : List Byte) (start : Coord) : Nat → Coord → Bool
  | 0, _ => false
  | n + 1, c => match relayOf o c with
    | none => false
    | some e => reFrom e == start || (reFrom e != 0x1FFF && relayLoops o start n (reFrom e))
/-- Item 5 (R366). -/
def relayCheck (o : List Byte) (i : Nat) : Option Nat :=
  let e := recNat o 2 16 i
  let onDie (c : Coord) : Bool := c == 0x1FFF || decide (dieOf c = dieOf (reTo e))
  firstReason
    [ (decide (natBits e 127 77 ≠ 0 ∨ natBits e 63 61 ≠ 0 ∨ natBits e 47 45 ≠ 0 ∨ natBits e 31 29 ≠ 0 ∨ natBits e 15 13 ≠ 0), 1),
      (!isCore (reTo e) || !onDie (reFrom e) || !(reForwards e).all onDie ||
        (List.range i).any (fun j => reTo (recNat o 2 16 j) == reTo e) ||
        relayLoops o (reTo e) (dirCount o 2) (reTo e) ||
        !(reForwards e).all (fun f => (relayOf o f).any (fun x => reFrom x == reTo e) &&
          [0, 1, 2, 3].all fun n => castRole o n f == castRole o n (reTo e)), 2) ]
/-- Placement index `i` is allowed by PLACE (R341). -/
def placeAllows (place i : Nat) : Bool := place == 0 || place.testBit i
/-- The heat records of a kernel name a cluster once at most (R367). -/
def heatRepeats (o : List Byte) (h : Nat) : Bool :=
  (List.range (kHtCnt h)).any fun i => (List.range i).any fun j => natBits (heatRec o h i) 17 8 == natBits (heatRec o h j) 17 8
/-- Item 6: the launched kernel, and its records of the allowed indices (R367). -/
def kernelCheck (o : List Byte) (h place : Nat) : Option Nat :=
  let used := (List.range 16).filter (kRole h)
  let fs := List.range 6
  let nf := kNf h
  let full := (fs.map (kWidth h)).foldl (· + ·) 0
  firstReason
    [ (decide (natBits h 2047 1632 ≠ 0 ∨ natBits h 511 504 ≠ 0 ∨ natBits h 486 483 ≠ 0 ∨ natBits h 471 465 ≠ 0 ∨
        natBits h 455 451 ≠ 0 ∨ natBits h 439 435 ≠ 0) || used.any (fun r => kLbase h r % 4096 != 0) ||
        fs.any (fun f => (natBits h (384 + 8 * f + 7) (384 + 8 * f + 7) != 0) ||
          (decide (nf ≤ f) && (kWidth h f != 0 || kExtM1 h f != 0))), 1),
      (decide (kPlCnt h < 1 ∨ 4096 < kPlCnt h ∨ 4096 < kHtCnt h ∨ natBits h 464 456 < 1 ∨ 256 < natBits h 464 456 ∨
        natBits h 450 440 < 1 ∨ 1024 < natBits h 450 440 ∨ nf < 1 ∨ 6 < nf ∨ 64 < full ∨ 2 ^ nReel o ≤ kRoles h ∨
        natBits h 1567 1536 < 256 * nKern o ∨ dirSize o 3 < natBits h 1567 1536 + 8 * kPlCnt h ∨
        (kHtCnt h ≠ 0 ∧ (natBits h 1615 1584 < 256 * nKern o ∨ dirSize o 3 < natBits h 1615 1584 + 4 * kHtCnt h))) ||
        fs.any (fun f => decide (f < nf ∧ (kWidth h f < 1 ∨ 64 < kWidth h f ∨ 2 ^ kWidth h f ≤ kExtM1 h f))) ||
        (full == 64 && !fs.any fun f => decide (f < nf ∧ kExtM1 h f + 1 < 2 ^ kWidth h f)) ||
        used.any (fun r => decide (baseOf o h r < 0x19000 + 256 * kFrSize h ∨ 0x200000 < baseOf o h r + reelMem o r)), 2),
      (heatRepeats o h, 2),
      ((List.range (kHtCnt h)).any (fun j => natBits (heatRec o h j) 31 18 != 0), 1) ]
    |>.or ((placeRecs o h).findSome? fun e =>
      if placeAllows place (ceIndex e) then
        (ceCheck o e).or (firstReason
          [ (!kRole h (ceRole e), 1), (!(ceCores e).all fun c => castRole o (ceIndex e) c == some (ceRole e), 2) ])
      else none)
/-- A letter, `_` or `.`; or a digit as well (R50). -/
def nameStart (n : Nat) : Bool := decide ((65 ≤ n ∧ n ≤ 90) ∨ (97 ≤ n ∧ n ≤ 122) ∨ n = 95 ∨ n = 46)
def nameChar (n : Nat) : Bool := nameStart n || decide (48 ≤ n ∧ n ≤ 57)
def lowerCase (n : Nat) : Nat := if 65 ≤ n ∧ n ≤ 90 then n + 32 else n
/-- The register names of R52. -/
def registerNames : List String :=
  ["l0", "l1", "lq", "sq", "bo", "rt", "mb", "np0", "np1", "np2", "np3"] ++ (List.range 32).map (fun n => "g" ++ toString n) ++
    (List.range 8).map (fun n => "k" ++ toString n) ++ (List.range 32).map (fun n => "v" ++ toString n) ++
    (List.range 8).map (fun n => "m" ++ toString n)
/-- A name in the spelling of R50, padded with zeros. -/
def nameOk (e : Nat) : Bool :=
  let all := (leBytes 24 e).map (·.toNat)
  let n := symName e
  n.all nameChar && (n.take 1).any nameStart && decide (n.length ≤ 23) && (all.drop n.length).all (· == 0) &&
    !registerNames.any fun x => x.toList.map Char.toNat == n.map lowerCase
/-- Item 7 (R368). -/
def symCheck (o : List Byte) (i : Nat) : Option Nat :=
  let e := symRec o i
  firstReason [ (decide (natBits e 383 265 ≠ 0 ∨ 3 < symKind e) || !nameOk e, 1), (decide (symKind e = 0 ∧ nReel o ≤ symReel e), 2) ]
/-- Item 8 (R369). -/
def gotCheck (o : List Byte) (i : Nat) : Option Nat :=
  let e := gotRec o i
  firstReason
    [ (decide (natBits e 63 52 ≠ 0), 1),
      (decide (dirCount o 7 ≤ natBits e 31 0 ∨ nReel o ≤ gotReel e ∨
        reelMem o (gotReel e) < reelGot o (gotReel e) + 8 * gotSlot e + 8), 2) ]

/-! ### Relocation (R371) -/

/-- Halfword `i` of the chain at offset `off` of an image; beyond the image its zeros. -/
def chainHalf (img : List Byte) (off i : Nat) : Nat := objNat img (off + 2 * i) 2
/-- XI prefixes of a type's chain. -/
def relXi (t : Nat) : Nat := if t = 7 then 2 else 1
/-- Bits of the base word that a type writes. -/
def relBaseBits (t : Nat) : Nat :=
  if t = 1 ∨ t = 2 then 8 else if t = 3 ∨ t = 4 then 6 else if t = 5 then 3 else if t = 6 then 11 else 9
/-- The instruction of a relocation's type (R54). -/
def relInstr : Nat → Instr → Bool
  | 1, .adh _ _ => true
  | 2, .adpc _ _ => true
  | 3, .addi _ _ _ => true
  | 4, .addi _ _ _ => true
  | 5, .brEq _ _ _ => true
  | 5, .brNe _ _ _ => true
  | 5, .brLt _ _ _ => true
  | 5, .brGe _ _ _ => true
  | 5, .brLtu _ _ _ => true
  | 5, .brGeu _ _ _ => true
  | 5, .brPop _ => true
  | 6, .j _ => true
  | 6, .call _ => true
  | 7, .li _ _ => true
  | _, _ => false
/-- The chain at an offset of an image. -/
def relChain (img : List Byte) (off : Nat) : Chain :=
  chainRead Chain.start ((List.range 6).map fun i => BitVec.ofNat 16 (chainHalf img off i))
/-- The instruction of a chain without XP, where checks 1 to 5 of R47 pass. -/
def plainInstr (c : Chain) : Option Instr :=
  match c.bad, c.xp, c.base with
  | none, none, some w => match (majorRows (hb w 15 12)).find? fun r => r.fn == majorSel w with
    | some r =>
      if (Sys2Proof.check4 r c).isSome || (Sys2Proof.check5 r (fieldsOf r c w) w).isSome then none else some (r.build (fieldsOf r c w))
    | none => none
  | _, _, _ => none
/-- Where the base word of a chain stands: after its XIs and an XR. -/
def relBaseAt (img : List Byte) (off t : Nat) : Nat := if (relChain img off).xr.isSome then relXi t + 1 else relXi t
/-- The chain is exactly the type's instruction, with its number of XI, on a word boundary. -/
def chainForm (img : List Byte) (off t : Nat) : Bool :=
  off % 2 == 0 && (relChain img off).xis.length == relXi t && (relChain img off).xv.isNone &&
    (plainInstr (relChain img off)).any (relInstr t)
/-- The chain at an offset is an ADPC, with however many XIs. -/
def chainAdpc (img : List Byte) (off : Nat) : Bool := off % 2 == 0 && (plainInstr (relChain img off)).any (relInstr 2)
/-- S of a symbol (R368). -/
def symS (o : List Byte) (h obj i : Nat) : Nat :=
  let e := symRec o i
  if symKind e = 0 then baseOf o h (symReel e) + symValue e
  else if symKind e = 1 then obj + dirOff o 4 + symValue e
  else symValue e
/-- S + A as a 64-bit two's complement number. -/
def relX (o : List Byte) (h obj e : Nat) : Int :=
  (BitVec.ofInt 64 (symS o h obj (relSym e) + sInt 32 (natBits e 95 64))).toInt
/-- x minus its HI20 part (R371). -/
def lo12 (x : Int) : Int := x - (x + 0x800) / 4096 * 4096
/-- The value of a record, and whether it is accepted (R371). -/
def relValue (o : List Byte) (h obj e : Nat) : Int × Bool :=
  let x := relX o h obj e
  let p : Int := baseOf o h (relReel e) + relOff e
  let t := relType e
  if t = 1 then
    let v := (x + 0x800) / 4096
    (v, decide (-(2 ^ 19) ≤ v ∧ v < 2 ^ 19))
  else if t = 2 then
    let v := (x - p + 0x800) / 4096
    (v, decide (-(2 ^ 19) ≤ v ∧ v < 2 ^ 19))
  else if t = 3 then (lo12 x, true)
  else if t = 4 then
    (lo12 (x - (p - relPair e)), decide (relPair e ≤ relOff e) && chainAdpc (reelImage o (relReel e)) (relOff e - relPair e))
  else if t = 5 then
    let d := (x - p) / 2
    (d, decide ((x - p) % 2 = 0 ∧ -(2 ^ 14) ≤ d ∧ d < 2 ^ 14))
  else if t = 6 then
    let d := (x - p) / 2
    (d, decide ((x - p) % 2 = 0 ∧ -(2 ^ 22) ≤ d ∧ d < 2 ^ 22))
  else if t = 7 then
    let v : Int := baseOf o h (relReel e) + reelGot o (relReel e) + 8 * gotSlot (gotRec o (relSym e))
    (v, decide (v < 0x200000))
  else (x, true)
/-- Item 9 (R370, R371, R376): the form of every record, the value only of the kernel's reels. -/
def relCheck (o : List Byte) (h obj i : Nat) : Option Nat :=
  let e := relRec o i
  let t := relType e
  firstReason
    [ (decide (natBits e 127 120 ≠ 0 ∨ t < 1 ∨ 8 < t ∨ (t ≠ 4 ∧ relPair e ≠ 0)), 1),
      (decide (nReel o ≤ relReel e ∨ (if t = 7 then dirCount o 5 else dirCount o 7) ≤ relSym e ∨
        (t = 8 ∧ reelMem o (relReel e) < relOff e + 8)), 2),
      (t != 8 && !chainForm (reelImage o (relReel e)) (relOff e) t, 5),
      (kRole h (relReel e) && !(relValue o h obj e).2, 4) ]
/-- Bytes with those at offset `a` replaced. -/
def splice (l : List Byte) (a : Nat) (bs : List Byte) : List Byte := l.take a ++ bs ++ l.drop (a + bs.length)
/-- Replace the low `n` bits of the halfword at `a`. -/
def putLow (l : List Byte) (a n v : Nat) : List Byte :=
  let w := objNat l a 2
  splice l a (leBytes 2 (w / 2 ^ n * 2 ^ n + v % 2 ^ n))
/-- Write a value into the chain at `off`: high bits to the XIs, low bits to the base word (R371). -/
def putChain (img buf : List Byte) (off t v : Nat) : List Byte :=
  let n := relXi t
  let b := relBaseBits t
  let buf := (List.range n).foldl (fun buf i => putLow buf (off + 2 * i) 12 (v / 2 ^ (b + 12 * (n - 1 - i)))) buf
  putLow buf (off + 2 * relBaseAt img off t) b v
/-- Apply relocation `i` to the image of its reel. -/
def relApply (o : List Byte) (h obj : Nat) (buf : List Byte) (e : Nat) : List Byte :=
  let v := wrapInt 64 (relValue o h obj e).1
  if relType e = 8 then splice buf (relOff e) (leBytes 8 v)
  else putChain (reelImage o (relReel e)) buf (relOff e) (relType e) v

/-! ### What the launch unit takes from an object -/

/-- The prepared image of reel `r`: stored bytes and zeros up to MEMSZ, GOT records, then relocations in record order (R372). -/
def prepare (o : List Byte) (h obj r : Nat) : List Byte :=
  let buf := reelImage o r ++ List.replicate (reelMem o r - reelImgSize o r) 0
  let buf := ((List.range (dirCount o 5)).map (gotRec o)).foldl (fun buf e =>
    if gotReel e = r then splice buf (reelGot o r + 8 * gotSlot e) (leBytes 8 (symS o h obj (natBits e 31 0))) else buf) buf
  ((List.range (dirCount o 6)).map (relRec o)).foldl (fun buf e => if relReel e = r then relApply o h obj buf e else buf) buf
/-- The local address of the global symbol `__trap` of reel `r`, 0 where it exports none (R287). -/
def trapSymbol (o : List Byte) (h r : Nat) : Word :=
  match ((List.range (dirCount o 7)).map (symRec o)).find? fun e =>
      symKind e == 0 && symReel e == r && e.testBit 264 && symName e == "__trap".toList.map Char.toNat with
  | some e => BitVec.ofNat 64 (baseOf o h r + symValue e)
  | none => 0
def reelOf (o : List Byte) (h obj r : Nat) : Reel :=
  { role := r, base := baseOf o h r, memsz := reelMem o r, constoff := reelConst o r, dataoff := reelData o r
    tvec := trapSymbol o h r, image := prepare o h obj r }
/-- The header fields of a kernel (R367). -/
def kernelOf (o : List Byte) (h : Nat) : Kernel :=
  { nf := kNf h, widths := (List.range (kNf h)).map (kWidth h), extents := (List.range (kNf h)).map fun f => kExtM1 h f + 1
    scopeDie := natBits h 487 487 == 1, frsize := kFrSize h, envs := natBits h 464 456, steal := natBits h 450 440
    entries := ((List.range 16).filter (kRole h)).map fun r => (r, BitVec.ofNat 64 (baseOf o h r + kEntry h r)) }
/-- The cores of a kernel under an index, each with its role, in coordinate order. -/
def placement (o : List Byte) (h i : Nat) : List (Coord × Nat) :=
  ((placeRecs o h).filter fun e => ceIndex e == i).foldl
    (fun l e => (ceCores e).foldl (fun l c => mapPut c.toNat (ceRole e) l) l) [] |>.map fun x => (BitVec.ofNat 13 x.1, x.2)
/-- The index has a placement record for every role of the kernel (R342 check 5). -/
def indexComplete (o : List Byte) (h i : Nat) : Bool :=
  (List.range 16).all fun r => !kRole h r || (placeRecs o h).any fun e => ceIndex e == i && ceRole e == r
/-- The indices that a record allows and its kernel places in full. -/
def indicesOf (o : List Byte) (h place : Nat) : List Nat :=
  [0, 1, 2, 3].filter fun i => placeAllows place i && indexComplete o h i
/-- Weight of cluster `n` under index `i` (R344, R367). -/
def heatWeight (o : List Byte) (h i n : Nat) : Nat :=
  match ((List.range (kHtCnt h)).map (heatRec o h)).find? fun e => natBits e 17 16 == i && natBits e 15 8 == n with
  | some e => natBits e 7 0
  | none => 1
/-- Cost of an index: weight × heat over the clusters that hold a core of it (R344). -/
def indexCost (heat : List (Nat × Byte)) (o : List Byte) (h i : Nat) : Nat :=
  let ns := (placement o h i).foldl (fun l c => insertNat (clusterNo c.1) l) []
  (ns.map fun n => heatWeight o h i n * (mapGet 0 heat n).toNat).foldl (· + ·) 0

end Sys2Proof.Machine
end

