-- ==== Sys2Proof/Machine/Launch.lean ====
section
/-! DEFINITION. Machine/Launch.lean: the launch unit: record checks (R341, R342), placement and arbitration (R343 to R345),
launch start (R346) with power profiles (R321, R382) and the relay tree (R366), completion (R348 to R350), pre-emption and
resume (R281 to R283, R259), supersteps and the Clapper (R352 to R355), and the power events of R321 and R323. -/
namespace Sys2Proof.Machine

/-! ### Queues and records -/

def queueAt (s : State) (q : BitVec 10) : Queue := mapGet Queue.reset s.queues q.toNat
def mapQueue (s : State) (q : BitVec 10) (f : Queue → Queue) : State :=
  { s with queues := mapPut q.toNat (f (queueAt s q)) s.queues }
/-- DPA of the ring slot of record number `n` (R340). -/
def ringSlot (x : Queue) (n : BitVec 32) : Nat := x.base.toNat * 4096 + 64 * (n.toNat % 2 ^ x.log2.toNat)
/-- The record at the head of a queue. -/
def headRcd (s : State) (x : Queue) : BitVec 512 := peekLine s.gmem (ringSlot x x.head)
/-- The fields of a launch record (R341). -/
def lrObj (r : BitVec 512) : Nat := bits r 63 0
def lrKidx (r : BitVec 512) : Nat := bits r 91 80
def lrPlace (r : BitVec 512) : Nat := bits r 95 92
def lrSerial (r : BitVec 512) : Bool := r.getLsbD 96
def lrArg (r : BitVec 512) (i : Nat) : Word := BitVec.ofNat 64 (bits r (191 + 64 * i) (128 + 64 * i))
def lrComp (r : BitVec 512) : Nat := bits r 447 384
def lrCtx (r : BitVec 512) : Nat := bits r 511 448
/-- Every page of [a, a + n) translates for an access, or has been granted to one that the host link holds (R334); nothing is kept in
a station. -/
def allTranslate (s : State) (pid : BitVec 20) (a n : Nat) (k : GAccess) : Bool :=
  (pagesOf a (a + n)).all fun p => (s.grants.any fun g => g.pid == pid && g.addr / 4096 == p && g.write == (k == .write)) ||
    match (translate s pid (4096 * p) k).2 with
    | .ok _ => true
    | .error _ => false
/-- Read pieces, each within a page; `none` while the host link holds one, `some none` where one fails. -/
def readParts (s : State) (pid : BitVec 20) : List (Nat × Nat) → Option (Option (List Byte))
  | [] => some (some [])
  | (a, n) :: r => match (gRead s pid a n .read).2 with
    | none => none
    | some (.error _) => some none
    | some (.ok (_, bs)) => match readParts s pid r with
      | some (some l) => some (some (bs ++ l))
      | x => x
/-- [a, a + n) by pages, from a page boundary on. -/
def pageParts (a n : Nat) : List (Nat × Nat) :=
  (List.range ((n + 4095) / 4096)).map fun i => (a + 4096 * i, min 4096 (n - 4096 * i))
/-- Write pieces, each within a page; `none` while the host link holds one. The Bool tells whether all were written. -/
def writeParts (s : State) (pid : BitVec 20) : List (Nat × List Byte) → Option (State × Bool)
  | [] => some (s, true)
  | (a, bs) :: r => match gWrite s pid a bs with
    | (_, none) => none
    | (_, some (.error _)) => some (s, false)
    | (s, some (.ok _)) => writeParts s pid r
/-- `n` pages of bytes from a page boundary on. -/
def pageBytes (a n : Nat) (bs : List Byte) : List (Nat × List Byte) :=
  (List.range n).map fun i => (a + 4096 * i, (bs.drop (4096 * i)).take 4096)
/-- A completion record (R349). -/
def completionRecord (status : Nat) (w : Why) (preempts mhz energy : Nat) (start fin : Word) (hostCap clapDelay droop ballast : Nat) :
    BitVec 512 :=
  BitVec.ofNat 512 (status + 2 ^ 32 * w.cause.toNat + 2 ^ 41 * w.sub.toNat + 2 ^ 48 * (preempts % 2 ^ 16) + 2 ^ 64 * (mhz % 2 ^ 16) +
    2 ^ 80 * (energy % 2 ^ 48) + 2 ^ 128 * start.toNat + 2 ^ 192 * fin.toNat + 2 ^ 256 * (hostCap % 2 ^ 64) +
    2 ^ 320 * (clapDelay % 2 ^ 64) + 2 ^ 384 * (droop % 2 ^ 64) + 2 ^ 448 * (ballast % 2 ^ 64))
/-- An address of global space (R4). -/
def inGlobal (a : Nat) : Bool := decide (2 ^ 32 ≤ a ∧ a < 2 ^ 57)
/-- Write a completion record; ERR where it cannot be written, as where COMP fails check 2 (R342); `none` while the host link
holds it. -/
def writeCompletion (s : State) (q : BitVec 10) (pid : BitVec 20) (comp : Nat) (r : BitVec 512) : Option State :=
  let failed (s : State) : State := mapQueue s q fun x => { x with err := true }
  if !inGlobal comp || comp % 64 != 0 then some (failed s)
  else match writeParts s pid [(comp, leBytes 64 r.toNat)] with
    | none => none
    | some (s, true) => some s
    | some (s, false) => some (failed s)

/-! ### Power profiles (R382) -/

def profileByte (s : State) (p : BitVec 4) (i : Nat) : Nat := (mapGet 0 s.host.profiles (p.toNat * 0x4000 + i)).toNat
/-- Every byte lies in its range. -/
def profileOk (s : State) (p : BitVec 4) : Bool :=
  (List.range 256).all (fun i => decide (profileByte s p i ≤ 60)) && (List.range 4096).all fun i => decide (profileByte s p (256 + i) ≤ 6)
/-- Apply the profile's voltage to the row of a core. -/
def applyRow (s : State) (p : BitVec 4) (c : Coord) : State :=
  mapDie s (dieOf c) fun d => { d with voltage := mapSet 0 (rowOf c) (BitVec.ofNat 8 (profileByte s p (c.toNat / 16))) d.voltage }
/-- A core without power loses its memory and registers (R321). -/
def bareCore (k : Core) : Core :=
  { Core.reset with power := k.power, clkdiv := k.clkdiv, cycle := k.cycle, corrected := k.corrected, drowsyAsked := k.drowsyAsked }
/-- A launch that has not ended places the core. -/
def placed (s : State) (c : Coord) : Bool := s.launches.any fun l => l.phase != .ended && l.cores.any fun e => e.1 == c
/-- Apply the profile's byte to a core; false where R321 refuses it. -/
def applyCore (s : State) (p : BitVec 4) (c : Coord) : State × Bool :=
  let v := profileByte s p (256 + c.toNat)
  if v ≤ 4 then
    if Config.dividerOk (mapGet 0 (dieAt s (dieOf c)).voltage (rowOf c)) (BitVec.ofNat 3 v) then
      (mapCore s c fun k => { k with clkdiv := BitVec.ofNat 3 v, power := .on, drowsyAsked := false }, true)
    else (s, false)
  else if v = 5 then
    (mapCore s c fun k => { k with drowsyAsked := true, power := if k.power = .off then .on else k.power }, true)
  else if placed s c then (s, false)
  else (mapCore s c fun k => { bareCore k with power := .off, drowsyAsked := false }, true)

/-! ### Record checks (R342) -/

/-- What the checks of a record find: it waits for the host link, is refused by a check, or passes with its object. -/
inductive Verdict where
  | waits
  | refused (check : Nat) (report : Option Report)
  | passed (o : List Byte)
  deriving DecidableEq, Repr
/-- Checks 3 to 5 on the bytes of an object. -/
def bytesVerdict (s : State) (o : List Byte) (obj kidx place : Nat) : Verdict :=
  let h := kernRec o kidx
  match (dirChecks o).or ((signatureCheck s.host o).or ((tableCheck 0 (nReel o) (reelCheck o)).or
      ((tableCheck 1 (dirCount o 1) (castCheck o)).or (tableCheck 2 (dirCount o 2) (relayCheck o))))) with
  | some r => .refused 3 (some r)
  | none =>
    if nKern o ≤ kidx then .refused 4 none
    else match ((kernelCheck o h place).map fun r => ((3, kidx, r) : Report)).or ((tableCheck 7 (dirCount o 7) (symCheck o)).or
        ((tableCheck 5 (dirCount o 5) (gotCheck o)).or (tableCheck 6 (dirCount o 6) (relCheck o h obj)))) with
      | some r => .refused 3 (some r)
      | none => if (indicesOf o h place).isEmpty then .refused 5 none else .passed o
/-- Checks 3 to 5: the object is read once (R363). One that runs past global space does not translate (R4). -/
def objectVerdict (s : State) (pid : BitVec 20) (obj kidx place : Nat) : Verdict :=
  match readParts s pid [(obj, 64)] with
  | none => .waits
  | some none => .refused 3 none
  | some (some hd) => match headerCheck hd with
    | some r => .refused 3 (some r)
    | none => if 2 ^ 57 < obj + objSize hd then .refused 3 none else match readParts s pid (pageParts obj (objSize hd)) with
      | none => .waits
      | some none => .refused 3 none
      | some (some o) => bytesVerdict s o obj kidx place
/-- The checks of R342 on a record of a queue. -/
def recordVerdict (s : State) (x : Queue) (r : BitVec 512) : Verdict :=
  if bits r 79 64 ≠ 0 ∨ bits r 127 97 ≠ 0 then .refused 1 none
  else if lrObj r % 4096 ≠ 0 ∨ lrComp r % 64 ≠ 0 ∨ lrCtx r % 4096 ≠ 0 ∨ !inGlobal (lrObj r) ∨ !inGlobal (lrComp r) ∨
    (lrCtx r ≠ 0 ∧ !inGlobal (lrCtx r)) then .refused 2 none
  else match objectVerdict s x.pid (lrObj r) (lrKidx r) (lrPlace r) with
    | .passed o =>
      if !allTranslate s x.pid (lrComp r) 64 .write ||
        (lrCtx r != 0 && !(inGlobal (lrCtx r + 4096 * Config.contextBytes - 1) &&
          allTranslate s x.pid (lrCtx r) (4096 * Config.contextBytes) .write)) then .refused 6 none
      else if !profileOk s x.prof then .refused 7 none
      else .passed o
    | v => v
/-- The loader report (R372). -/
def loaderReport (q : BitVec 10) (r : Report) : Word :=
  BitVec.ofNat 64 (q.toNat * 2 ^ 54 + r.2.1 % 2 ^ 32 * 256 + r.1 * 16 + r.2.2)
/-- The host link holds the access `n` for a queue's record, from the first try on (R390), under what it has been granted (R334). -/
def queueHeld (s : State) (q : BitVec 10) (n : Option Nat) (g : List Grant) : State :=
  keepGrants (mapQueue s q fun x =>
    { x with since := match x.since with
        | some (m, t) => if m = n then some (m, t) else some (n, s.time)
        | none => some (n, s.time) }) g
/-- The host link holds no access for the queue's record. -/
def queueServed (s : State) (q : BitVec 10) : State := freeGrants (mapQueue s q fun x => { x with since := none }) (queueGrant q)
/-- That access has been held for HLTO. -/
def queueOver (s : State) (x : Queue) (n : Option Nat) : Bool := match x.since with
  | some (m, t) => m == n && holdOver s (some t)
  | none => false
/-- The completion record of a record that check `n` refuses, then HEAD advances; a write that the link has held for HLTO is lost
(R342, R390). -/
def refuseRecord (s : State) (q : BitVec 10) (n : Nat) : State :=
  let x := queueAt s q
  let next (s : State) : State := mapQueue (queueServed s q) q fun x => { x with head := x.head + 1 }
  match writeCompletion s q x.pid (lrComp (headRcd s x)) (completionRecord 3 (why 0 n) 0 0 0 0 0 0 0 0 0) with
  | some s => next s
  | none => if queueOver s x (some n) then next (mapQueue s q fun x => { x with err := true })
    else queueHeld s q (some n) (grantsUpTo s (.queue q.toNat) x.pid .write [lrComp (headRcd s x)])
/-- The addresses at which the object of a record is read: its header, then its pages. -/
def objectReads (s : State) (pid : BitVec 20) (obj : Nat) : List Nat :=
  obj :: match readParts s pid [(obj, 64)] with
    | some (some hd) => (pageParts obj (objSize hd)).map (·.1)
    | _ => []
/-- LAUNCH_RECORD_CHECK (R342): a refused record gets its completion record, and HEAD advances. DESIGN CHOICE (log 98): an object
that the host link has held for HLTO counts as poisoned, so that check 3 fails (R390). -/
def execLaunchRecordCheck (q : BitVec 10) (s : State) : Out :=
  event (fun s =>
    let x := queueAt s q
    if s.phase == .running && x.en && x.head != x.tail && x.object.isNone then
      match x.since with
      | some (some n, _) => refuseRecord s q n
      | _ => match recordVerdict s x (headRcd s x) with
        | .waits =>
          if queueOver s x none then refuseRecord s q 3
          else queueHeld s q none (grantsUpTo s (.queue q.toNat) x.pid .read (objectReads s x.pid (lrObj (headRcd s x))))
        | .passed o => mapQueue (queueServed s q) q fun x => { x with object := some o }
        | .refused n rep => refuseRecord (match rep with
          | some rep => { s with host := { s.host with loader := loaderReport q rep } }
          | none => s) q n
    else s) s

/-! ### Arbitration and placement (R343 to R345) -/

/-- What the launch unit serves next; `victims` are the launches to pre-empt first. -/
inductive Choice where
  | resume (l : Nat)
  | start (q : BitVec 10) (index : Nat) (victims : List Nat)
  deriving DecidableEq, Repr
def isFree (s : State) (c : Coord) : Bool := (coreAt s c).launch.isNone
/-- The cores of the candidate at the head of a queue under an index. -/
def candCores (s : State) (x : Queue) (o : List Byte) (i : Nat) : List Coord :=
  (placement o (kernRec o (lrKidx (headRcd s x))) i).map (·.1)
/-- The index of lowest cost, the lowest of those (R344). -/
def cheapest (cost : Nat → Nat) : List Nat → Option Nat
  | [] => none
  | i :: r => match cheapest cost r with
    | none => some i
    | some j => if cost i ≤ cost j then some i else some j
/-- The launches that hold cores. -/
def holders (s : State) (cs : List Coord) : List Nat := cs.foldl (fun l c => match (coreAt s c).launch with
  | some i => insertNat i l
  | none => l) []
/-- A launch that a candidate of priority `p` may displace (R345), not one that has completed and waits for its record's write. -/
def displaceable (s : State) (p : BitVec 3) (l : Nat) : Bool := match launchAt s l with
  | some x => decide (x.prio.toNat < p.toNat) && lrCtx x.rcd != 0 && x.record.isNone
  | none => false
/-- The previous launch of a queue, the last that it started, has completed (R343). -/
def queueDone (s : State) (q : BitVec 10) : Bool :=
  match s.launches.reverse.find? fun l => l.queue == q with
  | none => true
  | some l => l.phase == .ended
/-- The candidate of a queue, where it is ready. -/
def candidate (s : State) (q : BitVec 10) (x : Queue) : Option Choice :=
  match x.object with
  | none => none
  | some o =>
    let r := headRcd s x
    let h := kernRec o (lrKidx r)
    let is := indicesOf o h (lrPlace r)
    let cost (i : Nat) : Nat := indexCost s.heat o h i
    if !x.en || x.head == x.tail || (lrSerial r && !queueDone s q) then none
    else match cheapest cost (is.filter fun i => (candCores s x o i).all (isFree s)) with
      | some i => some (.start q i [])
      | none => match cheapest cost (is.filter fun i => (holders s (candCores s x o i)).all (displaceable s x.prio)) with
        | some i => some (.start q i (holders s (candCores s x o i)))
        | none => none
/-- The next of the ready queues in turn after `last`. -/
def inTurn (last : Nat) : List (Nat × Choice) → Option (Nat × Choice)
  | [] => none
  | x :: r => match inTurn last r with
    | none => some x
    | some y => if (x.1 + 1023 - last) % 1024 ≤ (y.1 + 1023 - last) % 1024 then some x else some y
/-- A pre-empted launch may resume: the same cores are all free (R345). -/
def resumable (s : State) (l : Launch) : Bool :=
  l.phase == .preempted && !l.aborted && !l.contextLost && l.cores.all fun e => isFree s e.1
/-- The choice at one priority: resumes first, then the heads round robin. -/
def choiceAt (s : State) (p : Nat) : Option Choice :=
  match s.launches.find? fun l => resumable s l && l.prio.toNat == p with
  | some l => some (.resume l.id)
  | none =>
    let ready := s.queues.filterMap fun e =>
      if e.2.prio.toNat == p then (candidate s (BitVec.ofNat 10 e.1) e.2).map fun c => (e.1, c) else none
    (inTurn (mapGet 1023 s.lastServed p) ready).map (·.2)
/-- What the launch unit serves next; it starts one launch at a time (R343). -/
def serveNext (s : State) : Option Choice :=
  if s.phase == .running && !(s.launches.any fun l => l.phase == .loading) then [7, 6, 5, 4, 3, 2, 1, 0].findSome? (choiceAt s) else none

/-! ### Launch start (R346) -/

/-- Attribute byte of a page (R298, R118). -/
def launchAttr (r : Reel) (frsize page : Nat) : Byte :=
  let on (lo hi : Nat) : Bool := overlap lo hi (4096 * page) (4096 * page + 4096)
  if page ≤ 0x18 then 0x63
  else if on 0x19000 (0x19000 + 256 * frsize) then 0x2B
  else if on r.base (r.base + r.constoff) then 0x25
  else if on (r.base + r.constoff) (r.base + r.dataoff) then 0x21
  else if on (r.base + r.dataoff) (r.base + r.memsz) then 0x2B
  else 0x23
/-- Cluster-local indices of the launch's cores in the cluster of `c` (R291). -/
def membersOf (l : Launch) (c : Coord) : BitVec 16 :=
  l.cores.foldl (fun b e => if sameCluster e.1 c then b ||| (1 <<< clidx e.1) else b) 0
/-- A free task of the launch (R90). -/
def launchTask (r : BitVec 512) : BitVec 512 := mkRcd 0 0 0 0 0 (lrArg r 0) (lrArg r 1) (lrArg r 2) (lrArg r 3)
/-- The state that R346 step 4 sets, and the free tasks of step 5, one for each slot (R90). -/
def startCore (l : Launch) (r : Reel) (c : Coord) (k : Core) : Core :=
  allSlots.foldl (fun k i => addEntry k (launchTask l.rcd) (some i)) { k with
    mem := (List.range 256).foldl (fun m i => pokes m (0x10000 + 128 * i) (envReset 1)) k.mem
    attr := (List.range 512).foldl (fun m p => mapSet 0x23 p (launchAttr r l.kernel.frsize p) m) []
    tvec := r.tvec &&& 0x1FFFFE, tqbase := 0, envbase := 0x10000, mbbase := 0x18000
    tqcfg := BitVec.ofNat 64 (0x10000 + l.kernel.steal)
    frbase := BitVec.ofNat 64 (0x19000 + 2 ^ 21 * l.kernel.frsize)
    acfg := 0, envAllot := l.kernel.envs, members := membersOf l c, maxRetired := 0, advert := false
    mb := [], mbHead := 0, mbHeld := []
    threads := k.threads.map fun t => { t with fbuf := [] }
    slots := k.slots.map fun x => { x with depth := 0, fgen := Vector.replicate 64 0 }
    chans := Vector.replicate 4 Chan.reset
    pAcc := [], wAcc := [], vAcc := [], pDirty := false, wDirty := false, vDirty := false, wStale := false, vStale := false
    accPresent := true, engQ := [], home := [], answers := [] }
def reelFor (l : Launch) (role : Nat) : Reel :=
  (l.reels.find? fun r => r.role == role).getD ⟨role, 0, 0, 0, 0, 0, []⟩
/-- Cycles of the placement's cores, and stretched cycles of their dies (R349). -/
def cyclesOf (s : State) (l : Launch) : Nat := (l.cores.map fun e => (coreAt s e.1).cycle.toNat).foldl (· + ·) 0
def stretchOf (s : State) (l : Launch) : Nat := (l.cores.map fun e => (dieAt s (dieOf e.1)).stretch).foldl (· + ·) 0
/-- Address of the context area of a core (R282). -/
def ctxArea (l : Launch) (c : Coord) : Nat := lrCtx l.rcd + c.toNat * Config.contextBytes
/-- Zeros for the accumulator save areas (R282). -/
def zeroAreas (l : Launch) : List (Nat × List Byte) :=
  if lrCtx l.rcd = 0 then []
  else l.cores.flatMap fun e => pageBytes (ctxArea l e.1 + 0x210000) 18 (List.replicate (18 * 4096) 0)
/-- The host link has held an access for a launch for HLTO (R390). -/
def launchOverdue (s : State) (l : Nat) : Bool := (launchAt s l).any fun x => holdOver s x.since
/-- The host link holds an access for a launch, from the first try on, under what it has been granted (R334). -/
def launchHeld (s : State) (l : Nat) (g : List Grant) : State :=
  keepGrants (mapLaunch s l fun x => { x with since := x.since.or (some s.time) }) g
/-- The host link holds no access for the launch. -/
def launchServed (s : State) (l : Nat) : State := freeGrants (mapLaunch s l fun x => { x with since := none }) (launchGrant l)
/-- The context of a launch is lost (R283): also where the host link has held its area for HLTO (R390, log 98). -/
def loseContext (s : State) (l : Nat) : State := mapLaunch (launchServed s l) l fun x => { x with contextLost := true }
/-- Steps 4 and 5 of R346, where the context areas were written, or were not. -/
def startAll (s : State) (l : Launch) (ok : Bool) : State :=
  let s := l.cores.foldl (fun s e => mapCore s e.1 (startCore l (reelFor l e.2) e.1)) s
  mapLaunch (launchServed s l.id) l.id fun x =>
    { x with phase := if ok then .running else .stopping, contextLost := !ok, relays := [], started := s.time
             cycles0 := cyclesOf s l, stretch0 := stretchOf s l }
/-- Steps 4 and 5 of R346, once every reel is in place; while the host link holds the context areas, the launch stays loading. -/
def finishStart (s : State) (l : Launch) : State :=
  match writeParts s l.pid (zeroAreas l) with
  | some (s, ok) => startAll s l ok
  | none =>
    if launchOverdue s l.id then startAll s l false
    else launchHeld s l.id (grantsUpTo s (.launch l.id) l.pid .write ((zeroAreas l).map (·.1)))
/-- A reel in place in a core's memory (R346 step 3). -/
def putReel (l : Launch) (role : Nat) (k : Core) : Core :=
  { k with mem := pokes k.mem (reelFor l role).base (reelFor l role).image }
/-- The relay pairs of a placement: FROM and TO both in it (R366). -/
def relaysOf (o : List Byte) (cs : List (Coord × Nat)) : List (Coord × Coord) :=
  cs.filterMap fun e => match relayOf o e.1 with
    | some r => if cs.any fun d => d.1 == reFrom r then some (reFrom r, e.1) else none
    | none => none
/-- Step 1 of R346 at one core; false where R321 refuses the core's setting. -/
def applyStart (p : BitVec 4) (x : State × Bool) (c : Coord) : State × Bool :=
  let y := applyCore (applyRow x.1 p c) p c
  (y.1, x.2 && y.2)
/-- Steps 1 to 3 of R346, as far as the launch unit itself sends reels. DESIGN CHOICE (log 85): a setting that R321 refuses at a
launch start is reported to the host as one of DEVCMD is, by CMDERR 3. -/
def beginStart (s : State) (q : BitVec 10) (x : Queue) (o : List Byte) (index : Nat) : State × Launch :=
  let r := headRcd s x
  let h := kernRec o (lrKidx r)
  let cs := placement o h index
  let l : Launch :=
    { id := s.nextId, queue := q, pid := x.pid, prio := x.prio, rcd := r, index := index, cores := cs, kernel := kernelOf o h
      reels := ((List.range 16).filter (kRole h)).map (reelOf o h (lrObj r)), relays := relaysOf o cs, phase := .loading
      aborted := false, contextLost := false, ordinal := 0, failed := none, preempts := 0, started := s.time, cycles0 := 0
      stretch0 := 0, hostCap := 0, clapDelay := 0, waited := 0, saved := [], since := none, record := none }
  let l := { l with cycles0 := cyclesOf s l, stretch0 := stretchOf s l }
  let s := { mapQueue s q fun x => { x with head := x.head + 1, object := none } with
    launches := s.launches ++ [l], nextId := s.nextId + 1, lastServed := mapPut x.prio.toNat q.toNat s.lastServed }
  let y := (cs.map (·.1)).foldl (applyStart x.prof) (s, true)
  let s := if y.2 then y.1 else { y.1 with host := { y.1.host with cmderr := 3 } }
  let s := cs.foldl (fun s e => mapCore s e.1 fun k =>
    { k with mem := [], poison := [], flawed := [], launch := some l.id, role := e.2 }) s
  let direct := cs.filter fun e => !l.relays.any fun p => p.2 == e.1
  (direct.foldl (fun s e => mapCore s e.1 (putReel l e.2)) s, l)
/-- The launch of a queue that has its reels in place and waits for its context areas. -/
def startWaits (s : State) (q : BitVec 10) : Option Launch :=
  s.launches.find? fun l => l.queue == q && l.phase == .loading && l.relays.isEmpty
/-- LAUNCH_START (R346); where the host link held the context areas, step 4 is tried again. -/
def execLaunchStart (q : BitVec 10) (s : State) : Out :=
  event (fun s =>
    let x := queueAt s q
    if let some l := startWaits s q then finishStart s l
    else match serveNext s, x.object with
    | some (.start q1 index []), some o =>
      if q1 = q then
        let (s1, l) := beginStart s q x o index
        if l.relays.isEmpty then finishStart s1 l else s1
      else s
    | _, _ => s) s
/-- REEL_FORWARD (R366): a core that holds its whole reel sends it on. -/
def execReelForward (l : Nat) (src dst : Coord) (s : State) : Out :=
  event (fun s => match launchAt s l with
    | some x =>
      if x.phase == .loading && x.relays.contains (src, dst) && !x.relays.any (fun p => p.2 == src) then
        let role := ((x.cores.find? fun e => e.1 == dst).map (·.2)).getD 0
        let rest := x.relays.filter (· != (src, dst))
        let s1 := mapLaunch (mapCore s dst (putReel x role)) l fun y => { y with relays := rest }
        if rest.isEmpty then finishStart s1 x else s1
      else s
    | none => s) s

/-! ### Stopping a launch (R281 steps 1 to 3, R100) -/

/-- The unit is at a boundary where a deferred report may be taken: not while its slot is Trapped or Halted (R274), nor inside an
instruction that another core has already seen (R273). -/
def mayReport (k : Core) (u : UnitId) : Bool :=
  (threadAt k u).running && !threadBegun (threadAt k u) && match unitSlot u with
    | some i => (slotAt k i).st == .running && ((slotAt k i).task.bind (·.held)).isNone
    | none => true
/-- An instruction of the slot, or of the Ibex unit, is under way at another core. -/
def unitBegun (k : Core) (u : UnitId) : Bool := match unitSlot u with
  | some i => slotBegun k i
  | none => threadBegun (threadAt k u)
/-- The oldest report due on a stream is taken (R143, R218, R257); an instruction of the slot that is under way completes first. -/
def raiseDue (s : State) (a : Agent) : State :=
  if mayReport (coreAt s a.core) a.unit && !unitBegun (coreAt s a.core) a.unit then
    match (threadAt (coreAt s a.core) a.unit).due with
    | [] => s
    | d :: r =>
      let s := mapCore s a.core fun k => mapThread (match unitSlot a.unit with
        | some i => settleRelease k i
        | none => k) a.unit fun t => { t with due := r }
      raise s a ⟨d.why, unitSide a.unit, d.faddr, d.fpc, d.words, (threadAt (coreAt s a.core) a.unit).pc⟩
  else s
/-- The task is a far body that is promoted and has not drained its buffers (R86, R88). -/
def undrained (s : State) (t : Task) : Bool :=
  rcdValid t.rcd && !speculative s t && !(t.abuf.isEmpty && t.obuf.isEmpty)
/-- The held trap of a far body that has become promoted and has drained, no instruction of its slot being under way (R86, R273); a
Halted slot keeps it (R280). -/
def dueHeld (s : State) (c : Coord) (i : Fin 4) : Option Trap :=
  match (slotAt (coreAt s c) i).task with
  | some t =>
    if (slotAt (coreAt s c) i).st != .halted && !speculative s t && !undrained s t && !slotBegun (coreAt s c) i then t.held else none
  | none => none
/-- Take a held trap. -/
def takeHeld (s : State) (c : Coord) (i : Fin 4) (t : Trap) : State :=
  trapEntry (mapCore s c fun k => mapSlot k i fun x => { x with task := x.task.map fun y => { y with held := none } }) c i t
/-- Traps due at the boundaries of a core are entered: held ones that are released, reports, failed loads. -/
def enterDue (s : State) (c : Coord) : State :=
  let s := allSlots.foldl (fun s i => match dueHeld s c i with
    | some t => takeHeld s c i t
    | none => s) s
  allSlots.foldl (fun s i => reportLoad s c i) (allUnits.foldl (fun s u => raiseDue s ⟨c, u⟩) s)
/-- The speculative far tasks of a home are discarded (R100). -/
def discardFar (s : State) (c : Coord) : State :=
  (coreAt s c).home.foldl (fun s e => match e.taker with
    | some ⟨d, .stream i _⟩ =>
      if rcdTfar e.rcd && !e.promoted then
        advertNotice (mapCore (mapCore s c fun k => requeue k e.seq false) d fun k => endSlot k i) c
      else s
    | _ => s) s
/-- The stalled instruction of a stream is taken as not begun (R108), unless another core has already seen it. -/
def unbeginThread (t : Thread) : Thread :=
  if threadBegun t then t
  else { t with pend := [], rcd := none, stallRt := false, stalled := false, joins := false, early := [] }
/-- Stalled instructions are taken as not begun: the references that they had added are dropped (R108, R188). -/
def unbegin (s : State) (c : Coord) : State :=
  mapCore (allUnits.foldl (fun s u => if threadBegun (threadAt (coreAt s c) u) then s else releasePend s ⟨c, u⟩) s) c fun k =>
    { k with threads := k.threads.map unbeginThread, slots := k.slots.map fun x => { x with arrived := false } }
/-- Every stream and Ibex unit of a launch stops at its boundary (R281 step 1), and speculative far tasks are discarded (step 2). -/
def stopCores (s : State) (l : Launch) : State :=
  let s := l.cores.foldl (fun s e => mapCore s e.1 fun k => allSlots.foldl settleRelease k) s
  let s := l.cores.foldl (fun s e => enterDue s e.1) s
  let s := l.cores.foldl (fun s e => discardFar s e.1) s
  l.cores.foldl (fun s e => unbegin s e.1) s
/-- A launch stops; a pending release is withheld (R345, R354). An instruction that another core has already seen completes while the
launch is stopping (R273). -/
def stopLaunch (s : State) (l : Launch) : State :=
  let s := launchServed (stopCores s l) l.id
  { mapLaunch s l.id (fun x => { x with phase := .stopping }) with
    releases := s.releases.filter fun r => r.launch != l.id }
/-- A message of home advertising or stealing (R320). -/
def quietMsg (m : Msg) : Bool := match m.load with
  | .notice _ => true
  | .stealAsk _ => true
  | .stealGrant _ _ => true
  | _ => false
def holdsCore (l : Launch) (c : Coord) : Bool := l.cores.any fun e => e.1 == c
/-- The request of a stalled BAR.WAIT that its stream has taken back (R108). -/
def takenBack (s : State) (m : Msg) : Bool := match m.load with
  | .winReq r => waitGone s m r
  | _ => false
/-- No message of the launch is on its way, but for those that `p` leaves out. -/
def netQuiet (s : State) (l : Launch) (p : Msg → Bool) : Bool :=
  !s.net.any fun m => !p m && !takenBack s m && (holdsCore l m.src || holdsCore l m.dst)
/-- Every global request of the launch has been performed. -/
def globalQuiet (s : State) (l : Launch) : Bool := !s.gnet.any fun r => holdsCore l r.origin.core && r.reply.isNone
/-- A request of a stream is answered, or is an ACCSWAP in the engine queue. -/
def pendDone (p : Pending) : Bool := p.ans.isSome || match p.req with
  | .swap _ => true
  | _ => false
/-- Loads have filled their places, but for those behind one that was reported. -/
def loadsDone (s : State) (t : Thread) : Bool := match t.gld with
  | [] => true
  | x :: r => x.reported && r.all fun y => y.reported || y.data.isSome || (gFind s y.id).isSome
/-- The channel stands at the boundary of a piece, with no access held (R238). -/
def atPiece (x : Chan) : Bool := match x.queue with
  | t :: _ => t.failed.isSome || (t.piece.isNone && t.since.isNone)
  | [] => true
/-- Step 3 of R281 on one core; no promoted far task has anything left to drain (R100). -/
def coreDrained (s : State) (c : Coord) : Bool :=
  let k := coreAt s c
  k.bankQ.isEmpty && k.chans.toList.all atPiece && k.threads.toList.all (fun t => t.pend.all pendDone && loadsDone s t && t.sbuf.isEmpty) &&
    allSlots.all fun i => !(slotAt k i).posted.any (postedOut s c i) &&
      (slotAt k i).task.all fun t => t.abuf.isEmpty && t.obuf.isEmpty
/-- Step 3 of R281. -/
def launchDrained (s : State) (l : Launch) : Bool :=
  l.cores.all (fun e => coreDrained s e.1) && netQuiet s l quietMsg && globalQuiet s l
/-- The launch's cores leave the directories of the Slates. -/
def unregister (s : State) (l : Launch) : State :=
  { s with
    dies := s.dies.map fun d => (d.1, { d.2 with advertised := d.2.advertised.filter fun c => !holdsCore l c })
    net := s.net.filter fun m => !(quietMsg m && (holdsCore l m.src || holdsCore l m.dst)) }
/-- The launch's cores are free, their state discarded. -/
def discardCores (s : State) (l : Launch) : State :=
  l.cores.foldl (fun s e => if (coreAt s e.1).launch = some l.id then mapCore s e.1 bareCore else s) (unregister s l)

/-! ### Completion (R348, R349) -/

/-- A core of a launch has nothing left to do. -/
def coreDone (s : State) (c : Coord) : Bool :=
  let k := coreAt s c
  k.home.isEmpty && k.held.isEmpty && k.bankQ.isEmpty && k.engQ.isEmpty && k.score.isEmpty &&
    k.chans.toList.all (fun x => x.queue.isEmpty && x.held.isNone) &&
    k.ibex.toList.all (fun x => x.task.isNone && x.starting.isNone) &&
    k.threads.toList.all (fun t => t.gld.isEmpty && t.sbuf.isEmpty) &&
    allSlots.all fun i => (slotAt k i).st == .idle && (slotAt k i).task.isNone && (slotAt k i).starting.isNone &&
      !(slotAt k i).posted.any (postedOut s c i)
/-- Messages that completion does not wait for: port words, which R348 does not name, and those of advertising. -/
def pastEnd (m : Msg) : Bool := quietMsg m || match m.load with
  | .portWord _ _ _ => true
  | _ => false
/-- The launch has completed (R348), or its abort or its lost context lets it end. -/
def launchOver (s : State) (l : Launch) : Bool :=
  match l.phase with
  | .running => l.cores.all (fun e => coreDone s e.1) && netQuiet s l pastEnd && globalQuiet s l
  | .stopping => (l.aborted || l.contextLost) && launchDrained s l
  | .preempted => l.aborted || l.contextLost
  | _ => false
def statusOfLaunch (l : Launch) : Nat :=
  if l.contextLost then 5 else if l.aborted then 2 else if l.failed.isSome then 1 else 0
/-- MHZ (R349). -/
def launchMhz (s : State) (l : Launch) : Nat :=
  let dt := s.time.toNat - l.started.toNat
  if dt = 0 then 0 else min 1750 ((cyclesOf s l - l.cycles0) * 1000 / (l.cores.length * dt))
/-- The completion record. BALLAST is a free value (log 8), no more than the cycles in which cores waited (R355). -/
def launchRecord (s : State) (l : Launch) : BitVec 512 :=
  completionRecord (statusOfLaunch l) (if l.contextLost then why 0x1C0 0 else l.failed.getD (why 0 0)) l.preempts.toNat (launchMhz s l)
    (Config.meter s.freeCtr).toNat l.started s.time l.hostCap l.clapDelay (stretchOf s l - l.stretch0)
    ((Config.meter (s.freeCtr + 1)).toNat % (l.waited + 1))
/-- LAUNCH_COMPLETE: the record is written, the cores are free, and the launch has ended; a write that the host link holds is that of the
record as the launch completed (R349), and one held for HLTO is lost (R342, R390). -/
def execLaunchComplete (l : Nat) (s : State) : Out :=
  event (fun s => match launchAt s l with
    | some x =>
      if x.record.isSome || launchOver s x then
        let r := x.record.getD (launchRecord s x)
        let s := if x.record.isSome then s else { mapLaunch s l (fun y => { y with record := some r }) with freeCtr := s.freeCtr + 2 }
        match (writeCompletion s x.queue x.pid (lrComp x.rcd) r).or
            (if launchOverdue s l then some (mapQueue s x.queue fun y => { y with err := true }) else none) with
        | none => launchHeld s l (grantsUpTo s (.launch l) x.pid .write [lrComp x.rcd])
        | some s =>
          let s := if x.phase == .running then
              x.cores.foldl (fun s e => mapCore s e.1 fun k => { k with launch := none, advert := false }) (unregister s x)
            else discardCores s x
          { mapLaunch (launchServed s l) l (fun y => { y with phase := .ended, saved := [] }) with
            releases := s.releases.filter fun r => r.launch != l }
      else s
    | none => s) s

/-! ### Pre-emption and resume (R281 to R283) -/

/-- Bytes of an accumulator part: 64 rows of 96 words (R282). -/
def accBytes (m : List (Nat × BitVec 32)) : List Byte := (List.range 6144).flatMap fun i => leBytes 4 (mapGet 0 m i).toNat
def accFrom (bs : List Byte) : List (Nat × BitVec 32) :=
  (List.range 6144).foldl (fun m i => mapSet 0 i (BitVec.ofNat 32 (objNat bs (4 * i) 4)) m) []
/-- Pages of a core with P = 1 (R115). -/
@[irreducible] def savedPages (k : Core) : List Nat := (List.range 512).filter fun p => (attrOf k p).getLsbD 5
/-- The bytes of a state area, in a layout that only the device reads: free values from number `n` on (R282, log 66). -/
def stateBytes (n : Nat) : List Byte := (List.range 8192).flatMap fun i => leBytes 8 (Config.freeWord (n + i)).toNat
/-- What the save of a core writes (R282, R259). -/
def saveParts (a n : Nat) (k : Core) : List (Nat × List Byte) :=
  (savedPages k).map (fun p => (a + 4096 * p, peeks k.mem (4096 * p) 4096)) ++ pageBytes (a + 0x200000) 16 (stateBytes n) ++
    (if k.pDirty then pageBytes (a + 0x210000) 6 (accBytes k.pAcc) else []) ++
    (if k.wDirty || k.wStale then pageBytes (a + 0x216000) 6 (accBytes k.wAcc) else []) ++
    (if k.vDirty || k.vStale then pageBytes (a + 0x21C000) 6 (accBytes k.vAcc) else [])
/-- Byte `a` lies on a page that is not saved, and reads as zero after a resume (R283). -/
def unsaved (k : Core) (a : Nat) : Bool := !(attrOf k (a / 4096)).getLsbD 5
/-- What the device keeps of local memory besides its bytes, as a restored image has it: words of the mailbox and records of the home
that lie on pages with P = 0 are zeros, and no word of such a page is poisoned (R282, R283). -/
def keptOnPages (k : Core) : Core :=
  { k with
    poison := k.poison.filter fun p => !unsaved k (8 * p)
    mb := k.mb.mapIdx fun i w => if unsaved k (mbPlace k i) then 0 else w
    home := k.home.map fun e => if unsaved k (k.tqbase.toNat + 64 * (e.place % Config.homeEntries)) then { e with rcd := 0 } else e }
/-- The state area of a core: all but its memory and accumulator. -/
def savedCore (k : Core) : Core :=
  { keptOnPages k with
    mem := [], pAcc := [], wAcc := [], vAcc := [], pDirty := false, wDirty := false, vDirty := false, wStale := false, vStale := false
    accPresent := false, advert := false, flawed := [] }
/-- The save reads the pages that it writes (R218). -/
def readSaved (k : Core) : Core := (savedPages k).foldl (fun k p => readWords k (4096 * p) 4096) k
/-- The context areas are written, and the cores are free. -/
def saveLaunch (s : State) (l : Launch) : State :=
  let s := l.cores.foldl (fun s e => mapCore s e.1 readSaved) s
  match writeParts { s with freeCtr := s.freeCtr + 8192 * l.cores.length } l.pid (l.cores.zipIdx.flatMap fun e =>
      saveParts (ctxArea l e.1.1) (s.freeCtr + 8192 * e.2) (coreAt s e.1.1)) with
  | none =>
    if launchOverdue s l.id then loseContext s l.id
    else launchHeld s l.id (grantsUpTo s (.launch l.id) l.pid .write (l.cores.flatMap fun e =>
      (saveParts (ctxArea l e.1) 0 (coreAt s e.1)).map (·.1)))
  | some (s, false) => loseContext s l.id
  | some (s1, true) =>
    mapLaunch (discardCores (launchServed s1 l.id) l) l.id fun x =>
      { x with phase := .preempted, saved := l.cores.map fun e => (e.1.toNat, savedCore (coreAt s1 e.1)) }
/-- No stream of the launch is inside an instruction, but for one whose ACCSWAP stands in the engine queue (R281, R259). -/
def atBoundaries (s : State) (l : Launch) : Bool := l.cores.all fun e => (coreAt s e.1).threads.toList.all fun t =>
  t.pend.all fun p => p.ans.isNone && match p.req with
    | .swap _ => true
    | _ => false
/-- A stopping launch that has drained enters what has become due since, and is saved if it is still drained. -/
def saveDrained (s : State) (l : Launch) : State :=
  let s := stopCores s l
  if atBoundaries s l && launchDrained s l then saveLaunch s l else s
/-- PREEMPT: the launch that the next candidate displaces stops, and is saved once it has drained. -/
def execPreempt (l : Nat) (s : State) : Out :=
  event (fun s => match launchAt s l with
    | some x =>
      match x.phase with
      | .running => match serveNext s with
        | some (.start _ _ vs) =>
          if vs.contains l && !x.aborted && !x.contextLost && x.record.isNone then
            mapLaunch (stopLaunch s x) l fun y => { y with preempts := y.preempts + 1 }
          else s
        | _ => s
      | .stopping => if !x.aborted && !x.contextLost && launchDrained s x then saveDrained s x else s
      | _ => s
    | none => s) s
/-- The pages of a saved core's context area that a resume reads: its memory image and its state area. -/
def restoreReads (l : Launch) (c : Coord) (k : Core) : List (Nat × Nat) :=
  (savedPages k).map (fun p => (ctxArea l c + 4096 * p, 4096)) ++ pageParts (ctxArea l c + 0x200000) 0x10000
/-- The memory image of a saved core, read with its state area; pages with P = 0 read as zero (R283). -/
def restoreMem (s : State) (l : Launch) (c : Coord) (k : Core) : Option (Option Memory) :=
  match readParts s l.pid (restoreReads l c k) with
  | none => none
  | some none => some none
  | some (some bs) => some (some ((savedPages k).foldl (fun (x : Memory × List Byte) p =>
      (pokes x.1 (4096 * p) (x.2.take 4096), x.2.drop 4096)) ([], bs)).1)
/-- A saved core back on its place, with the power, divider, cycles and error count that the place has now. -/
def restoredCore (l : Nat) (live k : Core) (m : Memory) : Core :=
  { k with mem := m, launch := some l, power := live.power, clkdiv := live.clkdiv, cycle := live.cycle
           corrected := live.corrected, drowsyAsked := live.drowsyAsked }
/-- The memory images of the saved cores. -/
def restoreMems (s : State) (l : Launch) : List (Nat × Core) → Option (Option (List (Coord × Core × Memory)))
  | [] => some (some [])
  | (c, k) :: r => match restoreMem s l (BitVec.ofNat 13 c) k with
    | none => none
    | some none => some none
    | some (some m) => match restoreMems s l r with
      | some (some ms) => some (some ((BitVec.ofNat 13 c, k, m) :: ms))
      | x => x
/-- The saved cores back on their places in `t`. -/
def restoreAll (s : State) (l : Launch) (saved : List (Nat × Core)) (t : State) : Option (Option State) :=
  match restoreMems s l saved with
  | none => none
  | some none => some none
  | some (some ms) =>
    some (some (ms.foldl (fun t e => mapCore t e.1 fun live => restoredCore l.id live e.2.1 e.2.2) t))
/-- RESUME: memory and state are restored, and homes that advertise tell their Slates again. -/
def execResume (l : Nat) (s : State) : Out :=
  event (fun s => match launchAt s l, serveNext s with
    | some x, some (.resume l1) =>
      if l1 = l then
        match restoreAll s x x.saved s with
        | none =>
          if launchOverdue s l then loseContext s l
          else launchHeld s l (grantsUpTo s (.launch l) x.pid .read
            (x.saved.flatMap fun e => (restoreReads x (BitVec.ofNat 13 e.1) e.2).map (·.1)))
        | some none => loseContext s l
        | some (some t) =>
          x.cores.foldl (fun t e => advertNotice t e.1) (mapLaunch (launchServed t l) l fun y => { y with phase := .running, saved := [] })
      else s
    | _, _ => s) s
/-- The stream's next instruction is one of page 0x14. -/
def nextOnMatrixPage (k : Core) (u : UnitId) : Bool :=
  let t := threadAt k u
  t.running && (fetch k t).2.any fun w => isXp w && hb w 9 4 == 0x14
/-- The accumulator is wanted: by a resumed queued operation, or by an instruction of page 0x14 (R259). -/
def accWanted (k : Core) : Bool :=
  !k.engQ.isEmpty || allSlots.any fun i => nextOnMatrixPage k (.stream i .exec) || nextOnMatrixPage k (.stream i .acc)
/-- The addresses of a core's accumulator save area, and the host link's hold of it (R334, R390). -/
def accReads (l : Launch) (c : Coord) : List (Nat × Nat) := pageParts (ctxArea l c + 0x210000) 0x12000
def accOverdue (s : State) (l : Launch) (c : Coord) : Bool :=
  s.grants.any fun g => g.owner == .restore l.id c.toNat && holdOver s (some g.since)
/-- ACCUMULATOR_RESTORE: P, W and V are loaded from the save area, present and clean (R259); a failure ends the launch. -/
def execAccumulatorRestore (c : Coord) (s : State) : Out :=
  event (fun s => match launchOf s c with
    | some l =>
      if (coreAt s c).accPresent || !accWanted (coreAt s c) then s
      else match (readParts s l.pid (accReads l c)).or (if accOverdue s l c then some none else none) with
        | none => keepGrants s (grantsUpTo s (.restore l.id c.toNat) l.pid .read ((accReads l c).map (·.1)))
        | some none => loseContext (if l.phase == .running then stopLaunch s l else s) l.id
        | some (some bs) => mapCore (freeGrants s fun g => g.owner == .restore l.id c.toNat) c fun k =>
            { k with pAcc := accFrom (bs.take 0x6000), wAcc := accFrom ((bs.drop 0x6000).take 0x6000), vAcc := accFrom (bs.drop 0xC000)
                     accPresent := true, pDirty := false, wDirty := false, vDirty := false, wStale := false, vStale := false }
    | none => s) s

/-! ### Supersteps and the Clapper (R352 to R355) -/

/-- The cores of a superstep's scope: a die's, or all. -/
def scopeCores (l : Launch) (die : Option Nat) : List Coord :=
  (l.cores.map (·.1)).filter fun c => match die with
    | some d => dieOf c == d
    | none => true
/-- The slot runs a free task. -/
def holdsFree (x : Slot) : Bool := x.task.any fun t => !rcdValid t.rcd
/-- A WQRY that names a closure is outstanding at the core (R352 condition 4). -/
def queryOut (s : State) (c : Coord) : Bool :=
  !(coreAt s c).held.isEmpty || s.net.any fun m => match m.load with
    | .workQuery _ h => m.src == c && h != 0
    | .workAnswer _ h _ => m.dst == c && h != 0
    | _ => false
/-- The conditions of R352 at one core. -/
def coreArrived (s : State) (c : Coord) : Bool :=
  let k := coreAt s c
  allSlots.all (fun i => match (slotAt k i).task with
    | some t => !rcdValid t.rcd && (slotAt k i).arrived
    | none => true) &&
  k.home.all (fun e => !rcdValid e.rcd && e.taker.isSome) &&
  k.ibex.toList.all (fun x => x.task.isNone) &&
  k.chans.toList.all (fun x => x.held.isNone && !x.queue.any fun t => cKen t.rcd) && !queryOut s c
/-- Release columns (R353). -/
def columnOf (c : Coord) : Nat := 16 * (dieOf c % 4) + colOf c
def columnCores (cs : List Coord) (k : Nat) : List Coord := cs.filter fun c => columnOf c == k
/-- Ticks between two columns: ceil(1000 × max ΔI / SLOPE); with SLOPE 0 and a current to add, longer than TIME runs. -/
def columnGap (s : State) (cs : List Coord) : Nat :=
  let n := (List.range 64).foldl (fun n k => max n (columnCores cs k).length) 0 * s.host.stepi.toNat
  if s.host.slope = 0 then (if n = 0 then 0 else 2 ^ 64) else (n + s.host.slope.toNat - 1) / s.host.slope.toNat
def scopeOf (l : Launch) (die : Nat) : Option Nat := if l.kernel.scopeDie then some die else none
def releaseAt (s : State) (l : Nat) (die : Option Nat) : Option Release := s.releases.find? fun r => r.launch == l && r.die == die
/-- SUPERSTEP_RELEASE: a release becomes due (R352). -/
def execSuperstepRelease (l die : Nat) (s : State) : Out :=
  event (fun s => match launchAt s l with
    | some x =>
      let d := scopeOf x die
      let cs := scopeCores x d
      if x.phase == .running && !x.aborted && (releaseAt s l d).isNone && cs.all (coreArrived s) &&
        cs.any (fun c => allSlots.any fun i => holdsFree (slotAt (coreAt s c) i)) then
        { s with releases := s.releases ++ [⟨l, d, (List.range 64).filter fun k => !(columnCores cs k).isEmpty, 0, columnGap s cs⟩] }
      else s
    | none => s) s
/-- A core's column is released: its arrived SSTEPs complete, and its frontier is 0 (R352, R73). -/
def releaseCore (k : Core) : Core :=
  { k with slots := k.slots.map fun x => if x.arrived then { x with arrived := false, released := true } else x, maxRetired := 0 }
/-- CLAPPER_COLUMN_RELEASE (R353). -/
def execClapperColumnRelease (l die : Nat) (s : State) : Out :=
  event (fun s => match launchAt s l with
    | some x =>
      let d := scopeOf x die
      match releaseAt s l d with
      | some ⟨_, _, col :: rest, next, gap⟩ =>
        let cs := columnCores (scopeCores x d) col
        if next ≤ s.time.toNat ∧ 1000 * s.currentEst.toNat + cs.length * s.host.stepi.toNat ≤ 1000 * s.host.ceil.toNat then
          let s := cs.foldl (fun s c => mapCore s c releaseCore) s
          let this (r : Release) : Bool := r.launch == l && r.die == d
          let after : Release := ⟨l, d, rest, s.time.toNat + gap, gap⟩
          { s with releases := if rest.isEmpty then dropFirst this s.releases else changeFirst this (fun _ => after) s.releases }
        else s
      | _ => s
    | none => s) s
/-- CLAPPER_ESTIMATE_REFRESH: every 1000 ticks (R353). -/
def execClapperEstimateRefresh (s : State) : Out :=
  event (fun s =>
    if s.time.toNat % 1000 = 0 then { s with currentEst := Config.meter s.freeCtr, freeCtr := s.freeCtr + 1 } else s) s

/-! ### Heat, clock and power (R344, R323, R321) -/

/-- HEAT_MAP_REFRESH: every 10 000 ticks, min(255, floor(E / 8 µJ)) of each cluster's metered energy. -/
def execHeatMapRefresh (s : State) : Out :=
  event (fun s =>
    if s.time.toNat % 10000 = 0 then
      { s with
        heat := (List.range 256).foldl (fun m i => mapSet 0 i (BitVec.ofNat 8 (min 255 ((Config.meter (s.freeCtr + i)).toNat / 8))) m) []
        freeCtr := s.freeCtr + 256 }
    else s) s
/-- CLOCK_STRETCH (R323). -/
def execClockStretch (die : Nat) (s : State) : Out :=
  event (fun s => mapDie s die fun d => { d with stretch := d.stretch + 1 }) s
/-- DROWSY_ENTRY: a core that was told to, with every slot and Ibex unit idle and nothing outstanding (R321). DESIGN CHOICE (log 99):
a record of its home that a body elsewhere runs counts as outstanding, so that no retirement or suspension reaches a drowsy home
(R322). -/
def execDrowsyEntry (c : Coord) (s : State) : Out :=
  event (fun s =>
    let k := coreAt s c
    if k.drowsyAsked && k.power == .on && k.bankQ.isEmpty && k.engQ.isEmpty && k.score.isEmpty &&
      k.chans.toList.all (fun x => x.queue.isEmpty && x.held.isNone) &&
      k.ibex.toList.all (fun x => x.task.isNone && x.starting.isNone) && k.threads.toList.all (fun t => t.gld.isEmpty && t.sbuf.isEmpty) &&
      k.held.isEmpty && k.home.all (fun e => e.taker.isNone) && allSlots.all (fun i => (slotAt k i).st == .idle && (slotAt k i).task.isNone && (slotAt k i).starting.isNone &&
        (slotAt k i).ports.toList.all (fun p => p.send.isEmpty) && !(slotAt k i).posted.any (postedOut s c i)) && !s.net.any (fun m => m.src == c && !quietMsg m) then
      mapCore s c fun k => { k with power := .drowsy }
    else s) s

end Sys2Proof.Machine
end

