-- ==== Sys2Proof/Machine/Host.lean ====
section
/-! DEFINITION. Machine/Host.lean: the host: work-queue entries and submissions (R338 to R340), BAR0 and device commands (R380,
R381), inspection (R383 to R385), connections and inbound fabric traffic (R387 to R389), CXL.mem (R359), the host link (R390),
attestation (R391), bring-up and power (R392). Register and memory accesses reach the device once its firmware runs and while
the link is up. -/
namespace Sys2Proof.Machine

def mapHost (s : State) (f : HostRegs → HostRegs) : State := { s with host := f s.host }

/-! ### Work queues (R338 to R340) -/

/-- SUBMIT: a 64-byte write at offset 0 of a window; any other write is dropped (R379, R340). -/
def execSubmit (q : BitVec 10) (offset : Nat) (bytes : List Byte) (s : State) : Out :=
  hostEvent (fun s =>
    let x := queueAt s q
    if offset = 0 ∧ bytes.length = 64 ∧ x.en = true ∧ (x.tail - x.head).toNat < 2 ^ x.log2.toNat then
      mapQueue (gPoke s ⟨ringSlot x x.tail, false, 12⟩ bytes) q fun x => { x with tail := x.tail + 1 }
    else mapQueue s q fun x => { x with ovf := true }) s
/-- A write of the low word of a queue entry (R338, R339). One that finds EN at 0 makes the head's checks start anew: the link holds
nothing for it any more (R390). -/
def queueWrite (x : Queue) (v : Word) : Queue :=
  let base : BitVec 29 := BitVec.ofNat 29 (bits v 63 35)
  let log2 : BitVec 4 := BitVec.ofNat 4 (bits v 11 8)
  let y := if x.en then x else
    { x with base := base, pid := BitVec.ofNat 20 (bits v 34 15), prio := BitVec.ofNat 3 (bits v 14 12), log2 := log2
             prof := BitVec.ofNat 4 (bits v 7 4), object := none, since := none
             head := if base != x.base || log2 != x.log2 then x.tail else x.head }
  { y with en := v.getLsbD 0 && (x.en || decide (1 ≤ log2.toNat ∧ log2.toNat ≤ 12))
           err := y.err && !v.getLsbD 2, ovf := y.ovf && !v.getLsbD 1 }
/-- QUEUE_CONFIG_WRITE: the high word, TAIL and HEAD, is read-only. -/
def execQueueConfigWrite (q : BitVec 10) (hi : Bool) (v : Word) (s : State) : Out :=
  hostEvent (fun s =>
    if hi then s
    else
      let t := mapQueue s q fun x => queueWrite x v
      if (queueAt s q).en then t else freeGrants t (queueGrant q)) s

/-! ### Device commands (R381) -/

def cmdErr (s : State) (n : Nat) : State := mapHost s fun h => { h with cmderr := BitVec.ofNat 8 n }
def cmdCore (v : Word) : Coord := BitVec.ofNat 13 v.toNat
def cmdSlot (v : Word) : Fin 4 := Fin.ofNat 4 (bits v 14 13)
def cmdArg (v : Word) : Nat := bits v 31 16
/-- Bits of a command that no field holds are 0. -/
def cmdForm (v : Word) : Bool := bits v 59 32 == 0 && !v.getLsbD 15
/-- A write of DEVCMD with operation `op`: ignored while one is in progress; `f` answers the new state and CMDERR. -/
def devcmd (op : Nat) (v : Word) (f : State → State × Nat) (s : State) : Out :=
  hostEvent (fun s =>
    if s.host.cmdbusy || bits v 63 60 != op then s
    else if !cmdForm v then cmdErr s 1
    else
      let r := f s
      cmdErr r.1 r.2) s
/-- Op 1: halt the slot as HALT does; a slot that is Idle or Halted is not in that state. -/
def cmdHalt (v : Word) (s : State) : State × Nat :=
  let x := slotAt (coreAt s (cmdCore v)) (cmdSlot v)
  if !isCore (cmdCore v) then (s, 1)
  else if x.st == .running || x.st == .trapped then (stopSlot s (cmdCore v) (cmdSlot v) .exec 0, 0)
  else (s, 2)
/-- A Halted slot resumes at its EPCs in its current mode; in a trap, with its access stream held (R276, R280). -/
def resumeSlot (k : Core) (i : Fin 4) : Core :=
  let x := slotAt k i
  if x.task.isNone then mapSlot k i fun x => { x with st := .idle }
  else
    let inTrap := x.status.getLsbD 2
    let k := mapSlot k i fun x => { x with st := if inTrap then .trapped else .running }
    mapThread (mapThread k (.stream i .exec) fun t => { t with pc := t.epc, running := true }) (.stream i .acc) fun t =>
      if x.accWas && !inTrap then { t with pc := t.epc, running := true } else t
/-- Op 2. -/
def cmdResume (v : Word) (s : State) : State × Nat :=
  if !isCore (cmdCore v) then (s, 1)
  else if (slotAt (coreAt s (cmdCore v)) (cmdSlot v)).st == .halted then
    (mapCore s (cmdCore v) fun k => resumeSlot k (cmdSlot v), 0)
  else (s, 2)
/-- Op 3: the slot's task retires as a failed task, and the slot becomes Idle. -/
def cmdEndTask (v : Word) (s : State) : State × Nat :=
  if !isCore (cmdCore v) then (s, 1)
  else match (slotAt (coreAt s (cmdCore v)) (cmdSlot v)).task with
    | none => (s, 2)
    | some t => (endBody (failCore s (cmdCore v) (why 0x1C4 0)) ⟨cmdCore v, .stream (cmdSlot v) .exec⟩ t, 0)
/-- Op 4: apply a profile to the core and its row. -/
def cmdApplyProfile (v : Word) (s : State) : State × Nat :=
  let p : BitVec 4 := BitVec.ofNat 4 (cmdArg v)
  if !isCore (cmdCore v) || decide (16 ≤ cmdArg v) then (s, 1)
  else if !profileOk s p then (s, 3)
  else
    let r := applyCore (applyRow s p (cmdCore v)) p (cmdCore v)
    (r.1, if r.2 then 0 else 3)
/-- The launch's cores are stopped for an abort (R348). -/
def abortLaunch (s : State) (l : Launch) : State :=
  let s := match l.phase with
    | .running => if l.contextLost then s else stopLaunch s l
    | .loading => mapLaunch s l.id fun x => { x with phase := .stopping, relays := [] }
    | _ => s
  mapLaunch (launchServed s l.id) l.id fun x => { x with aborted := true }
/-- Op 5: abort the oldest running launch of a queue; one whose completion record waits for the link has completed. DESIGN CHOICE
(log 105): the command's core and slot fields are not looked at. -/
def cmdAbortLaunch (v : Word) (s : State) : State × Nat :=
  if 1024 ≤ cmdArg v then (s, 1)
  else match s.launches.find? fun l => l.queue.toNat == cmdArg v && l.phase != .ended && !l.aborted && l.record.isNone with
    | some l => (abortLaunch s l, 0)
    | none => (s, 4)
/-- The halt takes effect once no instruction of the slot is under way at another core (R273, R280). -/
def execDevcmdHalt (v : Word) (s : State) : Out :=
  if isCore (cmdCore v) && slotBegun (coreAt s (cmdCore v)) (cmdSlot v) then .next s else devcmd 1 v (cmdHalt v) s
def execDevcmdResume (v : Word) (s : State) : Out := devcmd 2 v (cmdResume v) s
def execDevcmdEndTask (v : Word) (s : State) : Out := devcmd 3 v (cmdEndTask v) s
def execDevcmdApplyProfile (v : Word) (s : State) : Out := devcmd 4 v (cmdApplyProfile v) s
def execDevcmdAbortLaunch (v : Word) (s : State) : Out := devcmd 5 v (cmdAbortLaunch v) s

/-! ### BAR0 (R380) -/

/-- Writable bits of a word of the key slots: bytes 0 to 56, and byte 63 bit 0. -/
def keyMask (off : Nat) : Word :=
  if off % 64 < 56 then 0xFFFFFFFFFFFFFFFF else 0x01000000000000FF
/-- A write of a BAR0 register that has no row of its own. DESIGN CHOICE (log 86): R353 bounds CEIL by 9000 A and gives a larger
value no refusal; it is kept as written, and columns are released against it. -/
def regWrite (h : HostRegs) (off : Nat) (v : Word) : HostRegs :=
  if off = 0x8 then (if h.cmdbusy || decide (1 ≤ bits v 63 60 ∧ bits v 63 60 ≤ 5) then h else { h with cmderr := 1 })
  else if off = 0x10 then { h with inspsel := v &&& 0xF0001FFF00000007 }
  else if off = 0x18 then { h with hlto := v }
  else if 0x100 ≤ off ∧ off < 0x300 then { h with keys := pokes h.keys (off - 0x100) (leBytes 8 (v &&& keyMask off).toNat) }
  else if off = 0x1000 then { h with pidDir := v &&& 0x1FFFFFFF000 }
  else if off = 0x1008 then { h with shootTarget := v &&& 0x1FFFFF }
  else if off = 0x1010 then { h with shootBase := v &&& 0x1FFFFFFFFFFF000 }
  else if off = 0x2000 then { h with ceil := v }
  else if off = 0x2008 then { h with slope := v }
  else if off = 0x2010 then { h with stepi := v }
  else if 0x40000 ≤ off ∧ off < 0x80000 ∧ (off - 0x40000) % 0x4000 < 0x1100 then
    { h with profiles := pokes h.profiles (off - 0x40000) (leBytes 8 v.toNat) }
  else h
/-- An access of the one form that BAR0 answers: 8 bytes, aligned (R380). -/
def barAligned (a : BarAccess) : Bool := a.offset % 8 == 0 && a.size == 8
/-- HOST_REGISTER_WRITE: one that is not an aligned 8-byte access is ignored (R380). -/
def execHostRegisterWrite (a : BarAccess) (v : Word) (s : State) : Out :=
  hostEvent (fun s => if barAligned a then mapHost s fun h => regWrite h a.offset v else s) s
/-- A connection entry has bits of its own only in these places of its words (R387). -/
def connMask (w : Fin 4) : Word :=
  if w = 0 then 0xFFFFFFFF000001F1 else if w = 1 then 0x1FFF else 0xFFFFFFFFFFFFFFFF
/-- A write of word `w` of a connection entry; OPEN stays 0 while the named port is not trained (R387). -/
def connWrite (up : BitVec 16) (x : Conn) (w : Fin 4) (v : Word) : Conn :=
  let v := v &&& connMask w
  if w = 0 then
    let v := if up.getLsbD (bits v 8 5) then v else v &&& 0xFFFFFFFFFFFFFFFE
    { x with ctl := v, slot := if v.getLsbD 0 && !x.ctl.getLsbD 0 then 0 else x.slot }
  else if w = 1 then { x with notify := v } else if w = 2 then { x with peer := v } else { x with ring := v }
/-- CONNECTION_WRITE. -/
def execConnectionWrite (n : BitVec 12) (w : Fin 4) (v : Word) (s : State) : Out :=
  hostEvent (fun s => { s with conns := mapPut n.toNat (connWrite s.linkUp (connAt s n.toNat) w v) s.conns }) s
/-- The word of a queue entry (R338). -/
def queueWord (x : Queue) (hi : Bool) : Word :=
  if hi then BitVec.ofNat 64 (x.head.toNat + 2 ^ 32 * x.tail.toNat)
  else BitVec.ofNat 64 ((if x.en then 1 else 0) + (if x.ovf then 2 else 0) + (if x.err then 4 else 0) + 16 * x.prof.toNat +
    2 ^ 8 * x.log2.toNat + 2 ^ 12 * x.prio.toNat + 2 ^ 15 * x.pid.toNat + 2 ^ 35 * x.base.toNat)
def connWord (x : Conn) (w : Nat) : Word := if w = 0 then x.ctl else if w = 1 then x.notify else if w = 2 then x.peer else x.ring
/-- What the host reads by an access of BAR0; one that is not an aligned 8-byte access reads 0 (R380). -/
def barRead (s : State) (a : BarAccess) : Word :=
  let h := s.host
  let off := a.offset
  if !barAligned a then 0
  else if off = 0 then BitVec.ofNat 64 (h.cores.toNat + (if h.cmdbusy then 2 ^ 16 else 0) + 2 ^ 32 * h.cmderr.toNat)
  else if off = 0x10 then h.inspsel
  else if off = 0x18 then h.hlto
  else if 0x100 ≤ off ∧ off < 0x300 then BitVec.ofNat 64 (peekNat h.keys (off - 0x100) 8)
  else if off = 0x1000 then h.pidDir
  else if off = 0x1008 then h.shootTarget
  else if off = 0x1010 then h.shootBase
  else if off = 0x1018 then (if h.shoot.isNone && h.shootDone then 1 else 0)
  else if off = 0x1100 then h.loader
  else if off = 0x2000 then h.ceil
  else if off = 0x2008 then h.slope
  else if off = 0x2010 then h.stepi
  else if 0x10000 ≤ off ∧ off < 0x14000 then
    queueWord (queueAt s (BitVec.ofNat 10 ((off - 0x10000) / 16))) ((off / 8) % 2 == 1)
  else if 0x20000 ≤ off ∧ off < 0x40000 then connWord (connAt s ((off - 0x20000) / 32)) (off / 8 % 4)
  else if 0x40000 ≤ off ∧ off < 0x80000 then BitVec.ofNat 64 (peekNat h.profiles (off - 0x40000) 8)
  else 0

/-! ### Inspection (R383 to R385) -/

/-- Records in the order of R70. -/
def insertEntry (e : Entry) : List Entry → List Entry
  | [] => [e]
  | x :: r => if older e x then e :: x :: r else x :: insertEntry e r
def inOrder (l : List Entry) : List Entry := l.foldl (fun l e => insertEntry e l) []
/-- Queue `j` of a slot as class 0 shows it: lq, sq, bo, rt, the words received on ports 0 to 3, then those to send. -/
def shownQueue (k : Core) (x : Slot) (j : Nat) : List Word :=
  if j < 4 then queueWords k x (j + 2)
  else if j < 8 then queueWords k x (j + 4)
  else x.ports[Fin.ofNat 4 (j - 8)].send.map (·.2.2)
/-- The queue levels and contents of class 0. DESIGN CHOICE (log 18): R384 gives their first offset alone; the level of queue `j`
stands at 8j, its words from 0x1000 + 0x200·j on. -/
def shownQueues (k : Core) (x : Slot) (off : Nat) : Word :=
  if off < 96 then BitVec.ofNat 64 (shownQueue k x (off / 8)).length
  else if 0x1000 ≤ off ∧ off < 0x2800 then (shownQueue k x ((off - 0x1000) / 0x200)).getD (off % 0x200 / 8) 0
  else 0
/-- PC of a stream as class 0 shows it: where a held stream resumes, which is its EPC (R276). -/
def shownPc (x : Slot) (acc : Bool) (t : Thread) : Word :=
  if acc then (if x.accWas then t.epc else t.pc) else if x.st == .halted then t.epc else t.pc
/-- Class 0: registers of a slot that is Halted or Trapped; m0 reads as all ones (R159). -/
def inspectSlot (s : State) (c : Coord) (sel off : Nat) : Word :=
  let k := coreAt s c
  let i := Fin.ofNat 4 (sel / 2)
  let x := slotAt k i
  let t := threadAt k (.stream i (if sel % 2 = 0 then .exec else .acc))
  if x.st != .halted && x.st != .trapped then 0xFFFFFFFFFFFFFFFF
  else if off < 0x100 then regVal t (BitVec.ofNat 5 (off / 8))
  else if off = 0x100 then t.l0
  else if off = 0x108 then t.l1
  else if off = 0x110 then BitVec.ofNat 64 t.dead.toNat
  else if off = 0x118 then shownPc x (sel % 2 == 1) t
  else if 0x120 ≤ off ∧ off < 0x160 then BitVec.ofNat 64 (t.k[(off - 0x120) / 8]!).toNat
  else if 0x400 ≤ off ∧ off < 0xC00 then BitVec.ofNat 64 ((x.v[(off - 0x400) / 64]!).toNat / 2 ^ (8 * (off % 64)))
  else if 0xC00 ≤ off ∧ off < 0xC40 then 0xFFFFFFFFFFFFFFFF
  else if 0xC40 ≤ off ∧ off < 0xE00 then BitVec.ofNat 64 ((x.m[(off - 0xC00) / 64]!).toNat / 2 ^ (8 * (off % 64)))
  else if 0x1000 ≤ off then shownQueues k x (off - 0x1000)
  else 0
/-- INSPSEL names a core, or for the fault log a die, that the package has (R2). -/
def inspectable (cls : Nat) (c : Coord) : Bool :=
  if cls = 4 then decide (dieOf c < 24) else decide (3 < cls) || isCore c
/-- What the host reads at an offset of the inspection aperture; reading changes nothing. DESIGN CHOICE (log 87): a COORD of no
core, or for class 4 of no die, shows all ones, as a slot that is not shown does. -/
def inspect (s : State) (off : Nat) : Word :=
  let v := s.host.inspsel
  let c : Coord := BitVec.ofNat 13 (bits v 44 32)
  let sel := bits v 2 0
  let cls := bits v 63 60
  let k := coreAt s c
  let home := inOrder k.home
  let d := dieAt s (dieOf c)
  if off % 8 ≠ 0 then 0
  else if !inspectable cls c then 0xFFFFFFFFFFFFFFFF
  else if cls = 0 then inspectSlot s c sel off
  else if cls = 1 then BitVec.ofNat 64 (peekNat k.mem (sel % 2 * 0x100000 + off) 8)
  else if cls = 2 then (csrRead { s with cur := ⟨c, .stream 0 .exec⟩ } (off / 8)).getD 0
  else if cls = 3 then
    (if off = 0x10000 then BitVec.ofNat 64 home.length
     else match home[off / 64]? with
      | some e => BitVec.ofNat 64 (e.rcd.toNat / 2 ^ (8 * (off % 64)))
      | none => 0)
  else if cls = 4 then
    (if off = 0x4000 then BitVec.ofNat 64 d.overflow
     else match d.log[off / 32]? with
      | some e => BitVec.ofNat 64 (e.toNat / 2 ^ (8 * (off % 32)))
      | none => 0)
  else if cls = 5 then
    (if off < 0x100 then BitVec.ofNat 64 (peekNat s.heat off 8)
     else if 0x1000 ≤ off then BitVec.ofNat 64 (coreAt s (BitVec.ofNat 13 ((off - 0x1000) / 8))).corrected
     else 0)
  else 0

/-! ### CXL.mem (R359) and the host link (R390) -/

/-- HOST_MEM_WRITE: the write takes effect at the memory-side cache. -/
def execHostMemWrite (addr : Nat) (bytes : List Byte) (s : State) : Out :=
  hostEvent (fun s => if addr + bytes.length ≤ Config.deviceBytes then gPoke s ⟨addr, false, 12⟩ bytes else s) s
/-- Bytes that the host reads; those of a poisoned word are free values (log 18). -/
def hostBytes (s : State) (addr n : Nat) : List Byte :=
  (List.range n).map fun i =>
    if s.gpoison.contains ((addr + i) / 8) then BitVec.ofNat 8 (Config.freeWord (s.freeCtr + i)).toNat else peek s.gmem (addr + i)
/-- HOST_MEM_READ: the value at the memory-side cache. -/
def execHostMemRead (addr n : Nat) (s : State) : Out :=
  hostEvent (fun s =>
    if addr + n ≤ Config.deviceBytes then
      { s with hostOut := s.hostOut ++ [.hostRead addr (hostBytes s addr n)], freeCtr := s.freeCtr + n }
    else s) s
/-- HOST_LINK_DOWN: no reset; launches run on. -/
def execHostLinkDown (s : State) : Out := event (fun s => { s with hostLink := false }) s
/-- HOST_LINK_TRAINED: held requests may be performed again. -/
def execHostLinkTrained (s : State) : Out := event (fun s => { s with hostLink := true }) s

/-! ### Inbound fabric traffic (R387 to R389) -/

/-- PORT_LINK_TRAINED. -/
def execPortLinkTrained (port : Fin 16) (up : Bool) (s : State) : Out :=
  event (fun s =>
    let b : BitVec 16 := 1 <<< port.val
    { s with linkUp := if up then s.linkUp ||| b else s.linkUp &&& ~~~b }) s
def connPid (x : Conn) : BitVec 20 := BitVec.ofNat 20 (bits x.ctl 63 44)
def connSlots (x : Conn) : Nat := bits x.ctl 39 32
def connSlotBytes (x : Conn) : Nat := 2 ^ (12 + bits x.ctl 43 40)
/-- Traffic reaches the device on an open connection whose port is trained. -/
def connLive (s : State) (x : Conn) : Bool := s.phase == .running && x.ctl.getLsbD 0 && connTrained s x
/-- [a, a + n) cut at page boundaries, each piece with its offset. -/
def cutPages (a n : Nat) : List (Nat × Nat) :=
  (pagesOf a (a + n)).map fun p => (max a (4096 * p), min (a + n) (4096 * p + 4096) - max a (4096 * p))
/-- The pieces with the bytes they take. -/
def cutBytes (a : Nat) (bs : List Byte) : List (Nat × List Byte) :=
  (cutPages a bs.length).map fun p => (p.1, (bs.drop (p.1 - a)).take p.2)
/-- The first ring slot of a list whose length word is 0; one whose word is refused is not released, `none` while the host link holds
one. -/
def firstFree (s : State) (x : Conn) : List Nat → Option (Option Nat)
  | [] => some none
  | i :: r => match readParts s (connPid x) [(x.ring.toNat + 8 * i, 8)] with
    | none => none
    | some (some bs) => if leNat bs = 0 then some (some i) else firstFree s x r
    | some none => firstFree s x r
/-- The next released ring slot, in turn. -/
def nextSlot (s : State) (x : Conn) : Option (Option Nat) :=
  firstFree s x ((List.range (connSlots x)).map fun j => (x.slot + j) % connSlots x)
def mapConn (s : State) (n : BitVec 12) (f : Conn → Conn) : State := { s with conns := mapPut n.toNat (f (connAt s n.toNat)) s.conns }
def refusePeer (s : State) (n : BitVec 12) : State := { s with hostOut := s.hostOut ++ [.refusedToPeer n] }
/-- The host link holds no access of the connection at the addresses `as` any more. -/
def inboundDone (s : State) (n : BitVec 12) (as : List Nat) : State :=
  let s := freeGrants s fun g => g.owner == .conn n.toNat && as.contains g.addr
  if s.grants.any fun g => g.owner == .conn n.toNat then s else mapConn s n fun x => { x with since := none }
/-- What an inbound event at the addresses `as` does that the host link holds back: it waits from the first try on, under what it has
been granted (R334), then it is refused to the peer (R390). DESIGN CHOICE (log 98). -/
def inboundHeld (s : State) (n : BitVec 12) (as : List Nat) (g : List Grant) : State :=
  if holdOver s (connAt s n.toNat).since then refusePeer (inboundDone s n as) n
  else keepGrants (mapConn s n fun x => { x with since := x.since.or (some s.time) }) g
/-- What is granted to a connection's reads at some addresses, as far as the first that the link holds. -/
def readGrants (s : State) (n : BitVec 12) (as : List Nat) : List Grant :=
  grantsUpTo s (.conn n.toNat) (connPid (connAt s n.toNat)) .read as
/-- What is granted to accesses at some addresses, each for itself: to the writes of an inbound event before the first is made. -/
def eachGrant (s : State) (n : BitVec 12) (k : GAccess) (as : List Nat) : List Grant :=
  as.flatMap fun a => grantsUpTo s (.conn n.toNat) (connPid (connAt s n.toNat)) k [a]
/-- The addresses of a connection's ring words, from the next slot on. -/
def ringWords (x : Conn) : List Nat := (List.range (connSlots x)).map fun j => x.ring.toNat + 8 * ((x.slot + j) % connSlots x)
/-- INBOUND_SEND: the slot's bytes at RING + 4096 + slot × size (log 39), its length word, then the notice (R389). It is held
back while an earlier notice of the connection waits for room in a mailbox (R119). DESIGN CHOICE (log 104): it is refused to the peer
where NOTIFY names no core; (log 106): of an address outside global space the walk uses bits [56:12]. -/
def execInboundSend (conn : BitVec 12) (bytes : List Byte) (s : State) : Out :=
  event (fun s =>
    let x := connAt s conn.toNat
    let c : Coord := BitVec.ofNat 13 x.notify.toNat
    if !connLive s x || s.cores.any (fun e => mbWaits e.2 (.notice conn.toNat)) then s
    else match nextSlot s x with
      | none => inboundHeld s conn (ringWords x) (readGrants s conn (ringWords x))
      | some none => refusePeer (inboundDone s conn (ringWords x)) conn
      | some (some i) =>
        let ws := cutBytes (x.ring.toNat + 4096 + i * connSlotBytes x) bytes ++ [(x.ring.toNat + 8 * i, leBytes 8 bytes.length)]
        let as := ringWords x ++ ws.map (·.1)
        if connSlotBytes x < bytes.length ∨ !isCore c ∨ (powerRefusal (coreAt s c)).isSome then refusePeer (inboundDone s conn as) conn
        else if !ws.all fun p => allTranslate s (connPid x) p.1 p.2.length .write then refusePeer (inboundDone s conn as) conn
          else match writeParts s (connPid x) ws with
            | none =>
              inboundHeld s conn as (eachGrant s conn .read ((ringWords x).takeWhile (· != x.ring.toNat + 8 * i)) ++
                eachGrant s conn .read [x.ring.toNat + 8 * i] ++ eachGrant s conn .write (ws.map (·.1)))
            | some (s, _) =>
              let s := mapConn (inboundDone s conn as) conn fun x => { x with slot := (i + 1) % connSlots x }
              mapCore s c fun k => mailbox k (.notice conn.toNat) [BitVec.ofNat 64 (conn.toNat + 65536 * i), BitVec.ofNat 64 bytes.length]) s
/-- INBOUND_RMA: translated under the connection's PID, whole or refused (R389). A read takes as many bytes as `bytes` has. DESIGN
CHOICE (log 106): no address is refused for lying outside global space; the walk uses bits [56:12]. -/
def execInboundRma (conn : BitVec 12) (addr : Word) (write : Bool) (bytes : List Byte) (s : State) : Out :=
  event (fun s =>
    let x := connAt s conn.toNat
    let a := addr.toNat
    let as := (cutPages a bytes.length).map (·.1)
    if !connLive s x then s
    else if write then
      (if !(cutBytes a bytes).all fun p => allTranslate s (connPid x) p.1 p.2.length .write then refusePeer (inboundDone s conn as) conn
       else match writeParts s (connPid x) (cutBytes a bytes) with
        | none => inboundHeld s conn as (eachGrant s conn .write as)
        | some (s, _) => inboundDone s conn as)
    else match readParts s (connPid x) (cutPages a bytes.length) with
      | none => inboundHeld s conn as (readGrants s conn as)
      | some none => refusePeer (inboundDone s conn as) conn
      | some (some bs) => inboundDone { s with hostOut := s.hostOut ++ [.rmaRead conn bs] } conn as) s

/-! ### Attestation, bring-up and power (R391, R392) -/

/-- ATTESTATION: measurements 1 to 3 and a signature over them and the nonce, by the key of this power-up. DESIGN CHOICE (log 112): they
are signed in this order. -/
def execAttestation (nonce : List Byte) (s : State) : Out :=
  event (fun s =>
    if s.phase == .running then
      let m1 := shake256 64 s.firmware
      let m2 := Config.straps ++ s.trim
      let m3 := peeks s.host.keys 0 512
      { s with hostOut := s.hostOut ++ [.measurements m1 m2 m3 (Config.attestSign s.boot (m1 ++ m2 ++ m3 ++ nonce))] }
    else s) s
/-- FIRMWARE_LOAD: the boot ROM takes an image only with a valid signature; it then brings up the device. -/
def execFirmwareLoad (image signature : List Byte) (s : State) : Out :=
  event (fun s =>
    if s.phase == .poweredUp && ed448Verify Config.bootKey image signature then
      { s with phase := .running, firmware := image, host := { s.host with cores := 4096 }
               housekeeping := s.housekeeping + Config.meter s.freeCtr, freeCtr := s.freeCtr + 1 }
    else s) s
/-- Every state of the device as at reset; what is not the device's stays: host memory, what the host has read, what moves
next, the number of power-ups, and the counters of free values and names. -/
def coldState (s : State) (p : Phase) : State :=
  { State.reset with phase := p, hmem := s.hmem, hostOut := s.hostOut, cur := s.cur, agenda := s.agenda, nextId := s.nextId,
                     freeCtr := s.freeCtr, hostLink := s.hostLink, boot := s.boot }
/-- POWER_UP, from which the firmware's key is new (R391). -/
def execPowerUp (s : State) : Out :=
  event (fun s => if s.phase == .off then { coldState s .poweredUp with boot := s.boot + 1 } else s) s
/-- The host writes the trim at bring-up (R391). DESIGN CHOICE (log 88): the manual does not say how; a turn of its own holds it. -/
def setTrim (s : State) (bytes : List Byte) : State := if s.phase != .off && s.hostLink then { s with trim := bytes } else s
/-- The host reads the housekeeping account (R350, log 88). -/
def readHousekeeping (s : State) : State :=
  if hostReaches s then { s with hostOut := s.hostOut ++ [.housekeeping s.housekeeping] } else s
/-- A gateway corrects an error at a device address (R337): the count of its channel goes up (R328). -/
def gatewayCorrected (s : State) (addr : Nat) : State :=
  if addr < Config.deviceBytes then
    let n := gatewayOf addr * 64 + channelOf addr
    { s with gcorrected := mapPut n (mapGet 0 s.gcorrected n + 1) s.gcorrected }
  else s
/-- The corrected errors of a gateway die, over its 64 channels (R337). -/
def gatewayCount (s : State) (d : Nat) : Nat := ((List.range 64).map fun n => mapGet 0 s.gcorrected (d * 64 + n)).foldl (· + ·) 0
/-- POWER_DOWN: device memory and all state are lost. -/
def execPowerDown (s : State) : Out := event (fun s => coldState s .off) s

end Sys2Proof.Machine
end

