-- ==== Sys2Proof/Machine/Dispatch.lean ====
section
/-! DEFINITION. Machine/Dispatch.lean: one arm for each row of the opcode table. -/
namespace Sys2Proof.Machine

/-- What an instruction, or an event of the table, does to the machine. -/
def exec (i : Instr) (s : State) : Host.Outcome State Fault Refusal :=
  match i with
  | .add a b c => Sys2Proof.Machine.execAdd a b c s
  | .sub a b c => Sys2Proof.Machine.execSub a b c s
  | .and a b c => Sys2Proof.Machine.execAnd a b c s
  | .or a b c => Sys2Proof.Machine.execOr a b c s
  | .xor a b c => Sys2Proof.Machine.execXor a b c s
  | .sll a b c => Sys2Proof.Machine.execSll a b c s
  | .srl a b c => Sys2Proof.Machine.execSrl a b c s
  | .sra a b c => Sys2Proof.Machine.execSra a b c s
  | .addi a b imm => Sys2Proof.Machine.execAddi a b imm s
  | .li a imm => Sys2Proof.Machine.execLi a imm s
  | .adh a imm => Sys2Proof.Machine.execAdh a imm s
  | .adpc a imm => Sys2Proof.Machine.execAdpc a imm s
  | .ldB a b imm => Sys2Proof.Machine.execLdB a b imm s
  | .ldH a b imm => Sys2Proof.Machine.execLdH a b imm s
  | .ldW a b imm => Sys2Proof.Machine.execLdW a b imm s
  | .ldD a b imm => Sys2Proof.Machine.execLdD a b imm s
  | .stB a b imm => Sys2Proof.Machine.execStB a b imm s
  | .stH a b imm => Sys2Proof.Machine.execStH a b imm s
  | .stW a b imm => Sys2Proof.Machine.execStW a b imm s
  | .stD a b imm => Sys2Proof.Machine.execStD a b imm s
  | .brEq a b disp => Sys2Proof.Machine.execBrEq a b disp s
  | .brNe a b disp => Sys2Proof.Machine.execBrNe a b disp s
  | .brLt a b disp => Sys2Proof.Machine.execBrLt a b disp s
  | .brGe a b disp => Sys2Proof.Machine.execBrGe a b disp s
  | .brLtu a b disp => Sys2Proof.Machine.execBrLtu a b disp s
  | .brGeu a b disp => Sys2Proof.Machine.execBrGeu a b disp s
  | .brPop disp => Sys2Proof.Machine.execBrPop disp s
  | .j disp => Sys2Proof.Machine.execJ disp s
  | .call disp => Sys2Proof.Machine.execCall disp s
  | .jr a => Sys2Proof.Machine.execJr a s
  | .callr a => Sys2Proof.Machine.execCallr a s
  | .ret a => Sys2Proof.Machine.execRet a s
  | .apply k => Sys2Proof.Machine.execApply k s
  | .padJ => Sys2Proof.Machine.execPadJ s
  | .padC => Sys2Proof.Machine.execPadC s
  | .padK => Sys2Proof.Machine.execPadK s
  | .padN => Sys2Proof.Machine.execPadN s
  | .padF => Sys2Proof.Machine.execPadF s
  | .padT => Sys2Proof.Machine.execPadT s
  | .vadd a b c vm => Sys2Proof.Machine.execVadd a b c vm s
  | .vsub a b c vm => Sys2Proof.Machine.execVsub a b c vm s
  | .vmul a b c vm => Sys2Proof.Machine.execVmul a b c vm s
  | .vmacc a b c vm => Sys2Proof.Machine.execVmacc a b c vm s
  | .vmin a b c vm => Sys2Proof.Machine.execVmin a b c vm s
  | .vmax a b c vm => Sys2Proof.Machine.execVmax a b c vm s
  | .vand a b c vm => Sys2Proof.Machine.execVand a b c vm s
  | .vor a b c vm => Sys2Proof.Machine.execVor a b c vm s
  | .vld a b vm => Sys2Proof.Machine.execVld a b vm s
  | .vlds a b c vm => Sys2Proof.Machine.execVlds a b c vm s
  | .vldx a b c vm => Sys2Proof.Machine.execVldx a b c vm s
  | .vldff a b vm => Sys2Proof.Machine.execVldff a b vm s
  | .vst a b vm => Sys2Proof.Machine.execVst a b vm s
  | .vsts a b c vm => Sys2Proof.Machine.execVsts a b c vm s
  | .vstx a b c vm => Sys2Proof.Machine.execVstx a b c vm s
  | .wait ld st bk mx => Sys2Proof.Machine.execWait ld st bk mx s
  | .mul a b c => Sys2Proof.Machine.execMul a b c s
  | .mulh a b c => Sys2Proof.Machine.execMulh a b c s
  | .mulhu a b c => Sys2Proof.Machine.execMulhu a b c s
  | .mulhsu a b c => Sys2Proof.Machine.execMulhsu a b c s
  | .div a b c => Sys2Proof.Machine.execDiv a b c s
  | .divu a b c => Sys2Proof.Machine.execDivu a b c s
  | .rem a b c => Sys2Proof.Machine.execRem a b c s
  | .remu a b c => Sys2Proof.Machine.execRemu a b c s
  | .slt a b c => Sys2Proof.Machine.execSlt a b c s
  | .sltu a b c => Sys2Proof.Machine.execSltu a b c s
  | .min a b c => Sys2Proof.Machine.execMin a b c s
  | .max a b c => Sys2Proof.Machine.execMax a b c s
  | .minu a b c => Sys2Proof.Machine.execMinu a b c s
  | .maxu a b c => Sys2Proof.Machine.execMaxu a b c s
  | .andn a b c => Sys2Proof.Machine.execAndn a b c s
  | .orn a b c => Sys2Proof.Machine.execOrn a b c s
  | .clz a b => Sys2Proof.Machine.execClz a b s
  | .ctz a b => Sys2Proof.Machine.execCtz a b s
  | .popc a b => Sys2Proof.Machine.execPopc a b s
  | .rev8 a b => Sys2Proof.Machine.execRev8 a b s
  | .sextB a b => Sys2Proof.Machine.execSextB a b s
  | .sextH a b => Sys2Proof.Machine.execSextH a b s
  | .sextW a b => Sys2Proof.Machine.execSextW a b s
  | .zextW a b => Sys2Proof.Machine.execZextW a b s
  | .rol a b c => Sys2Proof.Machine.execRol a b c s
  | .ror a b c => Sys2Proof.Machine.execRor a b c s
  | .andi a b imm => Sys2Proof.Machine.execAndi a b imm s
  | .ori a b imm => Sys2Proof.Machine.execOri a b imm s
  | .xori a b imm => Sys2Proof.Machine.execXori a b imm s
  | .slli a b imm => Sys2Proof.Machine.execSlli a b imm s
  | .srli a b imm => Sys2Proof.Machine.execSrli a b imm s
  | .srai a b imm => Sys2Proof.Machine.execSrai a b imm s
  | .slti a b imm => Sys2Proof.Machine.execSlti a b imm s
  | .sltiu a b imm => Sys2Proof.Machine.execSltiu a b imm s
  | .muli a b imm => Sys2Proof.Machine.execMuli a b imm s
  | .rori a b imm => Sys2Proof.Machine.execRori a b imm s
  | .lduB a b imm => Sys2Proof.Machine.execLduB a b imm s
  | .lduH a b imm => Sys2Proof.Machine.execLduH a b imm s
  | .lduW a b imm => Sys2Proof.Machine.execLduW a b imm s
  | .amoaddW a b c => Sys2Proof.Machine.execAmoaddW a b c s
  | .amoaddD a b c => Sys2Proof.Machine.execAmoaddD a b c s
  | .amoswapW a b c => Sys2Proof.Machine.execAmoswapW a b c s
  | .amoswapD a b c => Sys2Proof.Machine.execAmoswapD a b c s
  | .amoandD a b c => Sys2Proof.Machine.execAmoandD a b c s
  | .amoorD a b c => Sys2Proof.Machine.execAmoorD a b c s
  | .amomaxD a b c => Sys2Proof.Machine.execAmomaxD a b c s
  | .amominD a b c => Sys2Proof.Machine.execAmominD a b c s
  | .amocasD a b c => Sys2Proof.Machine.execAmocasD a b c s
  | .gldB a b imm => Sys2Proof.Machine.execGldB a b imm s
  | .gldH a b imm => Sys2Proof.Machine.execGldH a b imm s
  | .gldW a b imm => Sys2Proof.Machine.execGldW a b imm s
  | .gldD a b imm => Sys2Proof.Machine.execGldD a b imm s
  | .gstB a b imm => Sys2Proof.Machine.execGstB a b imm s
  | .gstH a b imm => Sys2Proof.Machine.execGstH a b imm s
  | .gstW a b imm => Sys2Proof.Machine.execGstW a b imm s
  | .gstD a b imm => Sys2Proof.Machine.execGstD a b imm s
  | .gamoAdd a b c => Sys2Proof.Machine.execGamoAdd a b c s
  | .gamoSwap a b c => Sys2Proof.Machine.execGamoSwap a b c s
  | .gamoAnd a b c => Sys2Proof.Machine.execGamoAnd a b c s
  | .gamoOr a b c => Sys2Proof.Machine.execGamoOr a b c s
  | .gamoMax a b c => Sys2Proof.Machine.execGamoMax a b c s
  | .gamoMin a b c => Sys2Proof.Machine.execGamoMin a b c s
  | .gamoCas a b c => Sys2Proof.Machine.execGamoCas a b c s
  | .pref b c => Sys2Proof.Machine.execPref b c s
  | .mscfl b c => Sys2Proof.Machine.execMscfl b c s
  | .fadd a b c => Sys2Proof.Machine.execFadd a b c s
  | .fsub a b c => Sys2Proof.Machine.execFsub a b c s
  | .fmul a b c => Sys2Proof.Machine.execFmul a b c s
  | .fdiv a b c => Sys2Proof.Machine.execFdiv a b c s
  | .fsqrt a b => Sys2Proof.Machine.execFsqrt a b s
  | .fmin a b c => Sys2Proof.Machine.execFmin a b c s
  | .fmax a b c => Sys2Proof.Machine.execFmax a b c s
  | .ffma a b c => Sys2Proof.Machine.execFfma a b c s
  | .fneg a b => Sys2Proof.Machine.execFneg a b s
  | .fabs a b => Sys2Proof.Machine.execFabs a b s
  | .feq a b c => Sys2Proof.Machine.execFeq a b c s
  | .flt a b c => Sys2Proof.Machine.execFlt a b c s
  | .fle a b c => Sys2Proof.Machine.execFle a b c s
  | .fclass a b => Sys2Proof.Machine.execFclass a b s
  | .fcvtWS a b => Sys2Proof.Machine.execFcvtWS a b s
  | .fcvtLS a b => Sys2Proof.Machine.execFcvtLS a b s
  | .fcvtSW a b => Sys2Proof.Machine.execFcvtSW a b s
  | .fcvtSL a b => Sys2Proof.Machine.execFcvtSL a b s
  | .fcvtWuS a b => Sys2Proof.Machine.execFcvtWuS a b s
  | .fcvtSWu a b => Sys2Proof.Machine.execFcvtSWu a b s
  | .fcvtBfS a b => Sys2Proof.Machine.execFcvtBfS a b s
  | .fcvtSBf a b => Sys2Proof.Machine.execFcvtSBf a b s
  | .fcvtHS a b => Sys2Proof.Machine.execFcvtHS a b s
  | .fcvtSH a b => Sys2Proof.Machine.execFcvtSH a b s
  | .vxor a b c vm => Sys2Proof.Machine.execVxor a b c vm s
  | .vsll a b c vm => Sys2Proof.Machine.execVsll a b c vm s
  | .vsrl a b c vm => Sys2Proof.Machine.execVsrl a b c vm s
  | .vsra a b c vm => Sys2Proof.Machine.execVsra a b c vm s
  | .vmulh a b c vm => Sys2Proof.Machine.execVmulh a b c vm s
  | .vmulhu a b c vm => Sys2Proof.Machine.execVmulhu a b c vm s
  | .vminu a b c vm => Sys2Proof.Machine.execVminu a b c vm s
  | .vmaxu a b c vm => Sys2Proof.Machine.execVmaxu a b c vm s
  | .vaddVx a b c vm => Sys2Proof.Machine.execVaddVx a b c vm s
  | .vsubVx a b c vm => Sys2Proof.Machine.execVsubVx a b c vm s
  | .vmulVx a b c vm => Sys2Proof.Machine.execVmulVx a b c vm s
  | .vandVx a b c vm => Sys2Proof.Machine.execVandVx a b c vm s
  | .vorVx a b c vm => Sys2Proof.Machine.execVorVx a b c vm s
  | .vxorVx a b c vm => Sys2Proof.Machine.execVxorVx a b c vm s
  | .vsllVx a b c vm => Sys2Proof.Machine.execVsllVx a b c vm s
  | .vsrlVx a b c vm => Sys2Proof.Machine.execVsrlVx a b c vm s
  | .vmseq a b c vm => Sys2Proof.Machine.execVmseq a b c vm s
  | .vmsne a b c vm => Sys2Proof.Machine.execVmsne a b c vm s
  | .vmslt a b c vm => Sys2Proof.Machine.execVmslt a b c vm s
  | .vmsltu a b c vm => Sys2Proof.Machine.execVmsltu a b c vm s
  | .vmsle a b c vm => Sys2Proof.Machine.execVmsle a b c vm s
  | .vmsleu a b c vm => Sys2Proof.Machine.execVmsleu a b c vm s
  | .vsadd a b c vm => Sys2Proof.Machine.execVsadd a b c vm s
  | .vsaddu a b c vm => Sys2Proof.Machine.execVsaddu a b c vm s
  | .vssub a b c vm => Sys2Proof.Machine.execVssub a b c vm s
  | .vssubu a b c vm => Sys2Proof.Machine.execVssubu a b c vm s
  | .vmvVx a c vm => Sys2Proof.Machine.execVmvVx a c vm s
  | .vmvXs a b => Sys2Proof.Machine.execVmvXs a b s
  | .vmvSx a c => Sys2Proof.Machine.execVmvSx a c s
  | .vid a vm => Sys2Proof.Machine.execVid a vm s
  | .vfdiv a b c vm => Sys2Proof.Machine.execVfdiv a b c vm s
  | .vfsqrt a b vm => Sys2Proof.Machine.execVfsqrt a b vm s
  | .vfnmacc a b c vm => Sys2Proof.Machine.execVfnmacc a b c vm s
  | .vfmsac a b c vm => Sys2Proof.Machine.execVfmsac a b c vm s
  | .vfneg a b vm => Sys2Proof.Machine.execVfneg a b vm s
  | .vfabs a b vm => Sys2Proof.Machine.execVfabs a b vm s
  | .vfaddVf a b c vm => Sys2Proof.Machine.execVfaddVf a b c vm s
  | .vfsubVf a b c vm => Sys2Proof.Machine.execVfsubVf a b c vm s
  | .vfmulVf a b c vm => Sys2Proof.Machine.execVfmulVf a b c vm s
  | .vfmaccVf a b c vm => Sys2Proof.Machine.execVfmaccVf a b c vm s
  | .vfminVf a b c vm => Sys2Proof.Machine.execVfminVf a b c vm s
  | .vfmaxVf a b c vm => Sys2Proof.Machine.execVfmaxVf a b c vm s
  | .vmfeq a b c vm => Sys2Proof.Machine.execVmfeq a b c vm s
  | .vmfne a b c vm => Sys2Proof.Machine.execVmfne a b c vm s
  | .vmflt a b c vm => Sys2Proof.Machine.execVmflt a b c vm s
  | .vmfle a b c vm => Sys2Proof.Machine.execVmfle a b c vm s
  | .vfcvtXF a b vm => Sys2Proof.Machine.execVfcvtXF a b vm s
  | .vfcvtFX a b vm => Sys2Proof.Machine.execVfcvtFX a b vm s
  | .vfwcvt a b vm => Sys2Proof.Machine.execVfwcvt a b vm s
  | .vfncvt a b vm => Sys2Proof.Machine.execVfncvt a b vm s
  | .vslideup a b c vm => Sys2Proof.Machine.execVslideup a b c vm s
  | .vslidedn a b c vm => Sys2Proof.Machine.execVslidedn a b c vm s
  | .vrgather a b c vm => Sys2Proof.Machine.execVrgather a b c vm s
  | .vcompress a b c => Sys2Proof.Machine.execVcompress a b c s
  | .vmerge a b c vm => Sys2Proof.Machine.execVmerge a b c vm s
  | .vredsum a b c vm => Sys2Proof.Machine.execVredsum a b c vm s
  | .vredmax a b c vm => Sys2Proof.Machine.execVredmax a b c vm s
  | .vredmin a b c vm => Sys2Proof.Machine.execVredmin a b c vm s
  | .vredand a b c vm => Sys2Proof.Machine.execVredand a b c vm s
  | .vredor a b c vm => Sys2Proof.Machine.execVredor a b c vm s
  | .vfredsum a b c vm => Sys2Proof.Machine.execVfredsum a b c vm s
  | .vfredmax a b c vm => Sys2Proof.Machine.execVfredmax a b c vm s
  | .vfredmin a b c vm => Sys2Proof.Machine.execVfredmin a b c vm s
  | .vmand a b c => Sys2Proof.Machine.execVmand a b c s
  | .vmor a b c => Sys2Proof.Machine.execVmor a b c s
  | .vmxor a b c => Sys2Proof.Machine.execVmxor a b c s
  | .vmnot a b => Sys2Proof.Machine.execVmnot a b s
  | .vcpop a b vm => Sys2Proof.Machine.execVcpop a b vm s
  | .vfirst a b vm => Sys2Proof.Machine.execVfirst a b vm s
  | .setvl a b t => Sys2Proof.Machine.execSetvl a b t s
  | .setvlr a b c => Sys2Proof.Machine.execSetvlr a b c s
  | .vcvtSat a b f vm => Sys2Proof.Machine.execVcvtSat a b f vm s
  | .vcvtNsat a b f vm => Sys2Proof.Machine.execVcvtNsat a b f vm s
  | .vcvtW a b f vm => Sys2Proof.Machine.execVcvtW a b f vm s
  | .vpack a b mode vm => Sys2Proof.Machine.execVpack a b mode vm s
  | .vunpk a b mode vm => Sys2Proof.Machine.execVunpk a b mode vm s
  | .vamoOr a b c vm => Sys2Proof.Machine.execVamoOr a b c vm s
  | .vamoAnd a b c vm => Sys2Proof.Machine.execVamoAnd a b c vm s
  | .vamoAdd a b c vm => Sys2Proof.Machine.execVamoAdd a b c vm s
  | .vamoMax a b c vm => Sys2Proof.Machine.execVamoMax a b c vm s
  | .vamoMin a b c vm => Sys2Proof.Machine.execVamoMin a b c vm s
  | .ago b => Sys2Proof.Machine.execAgo b s
  | .aend => Sys2Proof.Machine.execAend s
  | .movq a b n => Sys2Proof.Machine.execMovq a b n s
  | .qlevel a b => Sys2Proof.Machine.execQlevel a b s
  | .pcfg p b => Sys2Proof.Machine.execPcfg p b s
  | .msgPut a b c => Sys2Proof.Machine.execMsgPut a b c s
  | .msgGet a b c => Sys2Proof.Machine.execMsgGet a b c s
  | .msgAmo a b c => Sys2Proof.Machine.execMsgAmo a b c s
  | .msgSig a b => Sys2Proof.Machine.execMsgSig a b s
  | .task b c => Sys2Proof.Machine.execTask b c s
  | .tret => Sys2Proof.Machine.execTret s
  | .tsusp k => Sys2Proof.Machine.execTsusp k s
  | .tqcfg a b => Sys2Proof.Machine.execTqcfg a b s
  | .tqdepth a => Sys2Proof.Machine.execTqdepth a s
  | .capt k b c => Sys2Proof.Machine.execCapt k b c s
  | .captRef k b => Sys2Proof.Machine.execCaptRef k b s
  | .kdup k b => Sys2Proof.Machine.execKdup k b s
  | .kdrop k => Sys2Proof.Machine.execKdrop k s
  | .kld a k n => Sys2Proof.Machine.execKld a k n s
  | .kst k b n => Sys2Proof.Machine.execKst k b n s
  | .frame a b => Sys2Proof.Machine.execFrame a b s
  | .unframe a => Sys2Proof.Machine.execUnframe a s
  | .mmaE4m3 a b c => Sys2Proof.Machine.execMmaE4m3 a b c s
  | .mmaE5m2 a b c => Sys2Proof.Machine.execMmaE5m2 a b c s
  | .mmaE3m2 a b c => Sys2Proof.Machine.execMmaE3m2 a b c s
  | .mmaE2m3 a b c => Sys2Proof.Machine.execMmaE2m3 a b c s
  | .mmaE2m1 a b c => Sys2Proof.Machine.execMmaE2m1 a b c s
  | .mmaBf16 a b c => Sys2Proof.Machine.execMmaBf16 a b c s
  | .mmaF16 a b c => Sys2Proof.Machine.execMmaF16 a b c s
  | .mmaE4m3e5m2 a b c => Sys2Proof.Machine.execMmaE4m3e5m2 a b c s
  | .mmaE5m2e4m3 a b c => Sys2Proof.Machine.execMmaE5m2e4m3 a b c s
  | .mmaE4m3Mc a b c => Sys2Proof.Machine.execMmaE4m3Mc a b c s
  | .mmaE5m2Mc a b c => Sys2Proof.Machine.execMmaE5m2Mc a b c s
  | .mmaE3m2Mc a b c => Sys2Proof.Machine.execMmaE3m2Mc a b c s
  | .mmaE2m3Mc a b c => Sys2Proof.Machine.execMmaE2m3Mc a b c s
  | .mmaE2m1Mc a b c => Sys2Proof.Machine.execMmaE2m1Mc a b c s
  | .mmaBf16Mc a b c => Sys2Proof.Machine.execMmaBf16Mc a b c s
  | .mmaF16Mc a b c => Sys2Proof.Machine.execMmaF16Mc a b c s
  | .mmaE4m3e5m2Mc a b c => Sys2Proof.Machine.execMmaE4m3e5m2Mc a b c s
  | .mmaE5m2e4m3Mc a b c => Sys2Proof.Machine.execMmaE5m2e4m3Mc a b c s
  | .mmaa => Sys2Proof.Machine.execMmaa s
  | .scacc b c => Sys2Proof.Machine.execScacc b c s
  | .accz => Sys2Proof.Machine.execAccz s
  | .accswap => Sys2Proof.Machine.execAccswap s
  | .acfg b => Sys2Proof.Machine.execAcfg b s
  | .accrdR a b c vm => Sys2Proof.Machine.execAccrdR a b c vm s
  | .accwrR a b c vm => Sys2Proof.Machine.execAccwrR a b c vm s
  | .accrdC a b c vm => Sys2Proof.Machine.execAccrdC a b c vm s
  | .accwrC a b c vm => Sys2Proof.Machine.execAccwrC a b c vm s
  | .accst a b f => Sys2Proof.Machine.execAccst a b f s
  | .bkAdd a b c => Sys2Proof.Machine.execBkAdd a b c s
  | .bkMul a b c => Sys2Proof.Machine.execBkMul a b c s
  | .bkFma a b c => Sys2Proof.Machine.execBkFma a b c s
  | .bkMax a b c => Sys2Proof.Machine.execBkMax a b c s
  | .bkMin a b c => Sys2Proof.Machine.execBkMin a b c s
  | .bkScl a b c => Sys2Proof.Machine.execBkScl a b c s
  | .bkOr a b c => Sys2Proof.Machine.execBkOr a b c s
  | .bkAnd a b c => Sys2Proof.Machine.execBkAnd a b c s
  | .bkFill a b c => Sys2Proof.Machine.execBkFill a b c s
  | .bkRsum a b c => Sys2Proof.Machine.execBkRsum a b c s
  | .bkRmax a b c => Sys2Proof.Machine.execBkRmax a b c s
  | .bkExps a b c => Sys2Proof.Machine.execBkExps a b c s
  | .bkCvt a b => Sys2Proof.Machine.execBkCvt a b s
  | .bkAddV a b c => Sys2Proof.Machine.execBkAddV a b c s
  | .bkMulV a b c => Sys2Proof.Machine.execBkMulV a b c s
  | .bkFmaV a b c => Sys2Proof.Machine.execBkFmaV a b c s
  | .bkMaxV a b c => Sys2Proof.Machine.execBkMaxV a b c s
  | .bkMinV a b c => Sys2Proof.Machine.execBkMinV a b c s
  | .bkSclV a b c => Sys2Proof.Machine.execBkSclV a b c s
  | .bkOrV a b c => Sys2Proof.Machine.execBkOrV a b c s
  | .bkAndV a b c => Sys2Proof.Machine.execBkAndV a b c s
  | .bkFillV a b c => Sys2Proof.Machine.execBkFillV a b c s
  | .bkAddR a b c => Sys2Proof.Machine.execBkAddR a b c s
  | .bkMulR a b c => Sys2Proof.Machine.execBkMulR a b c s
  | .bkFmaR a b c => Sys2Proof.Machine.execBkFmaR a b c s
  | .bkMaxR a b c => Sys2Proof.Machine.execBkMaxR a b c s
  | .bkMinR a b c => Sys2Proof.Machine.execBkMinR a b c s
  | .bkOrR a b c => Sys2Proof.Machine.execBkOrR a b c s
  | .bkAndR a b c => Sys2Proof.Machine.execBkAndR a b c s
  | .cpy ch b c => Sys2Proof.Machine.execCpy ch b c s
  | .cpg ch b c => Sys2Proof.Machine.execCpg ch b c s
  | .cpwait ch b => Sys2Proof.Machine.execCpwait ch b s
  | .cpstat a ch => Sys2Proof.Machine.execCpstat a ch s
  | .fenceCore => Sys2Proof.Machine.execFenceCore s
  | .fenceCl => Sys2Proof.Machine.execFenceCl s
  | .fenceDie => Sys2Proof.Machine.execFenceDie s
  | .fencePkg => Sys2Proof.Machine.execFencePkg s
  | .fenceSys => Sys2Proof.Machine.execFenceSys s
  | .barInit b c => Sys2Proof.Machine.execBarInit b c s
  | .barArr a b => Sys2Proof.Machine.execBarArr a b s
  | .barExp b c => Sys2Proof.Machine.execBarExp b c s
  | .barWait b c => Sys2Proof.Machine.execBarWait b c s
  | .sstep => Sys2Proof.Machine.execSstep s
  | .srd a csr => Sys2Proof.Machine.execSrd a csr s
  | .swr b csr => Sys2Proof.Machine.execSwr b csr s
  | .eret => Sys2Proof.Machine.execEret s
  | .trap n => Sys2Proof.Machine.execTrap n s
  | .brk => Sys2Proof.Machine.execBrk s
  | .halt => Sys2Proof.Machine.execHalt s
  | .fenceI => Sys2Proof.Machine.execFenceI s
  | .wqry b c => Sys2Proof.Machine.execWqry b c s
  | .widF a b n => Sys2Proof.Machine.execWidF a b n s
  | .pageattrWrite v => Sys2Proof.Machine.execPageattrWrite v s
  | .envbaseWrite v => Sys2Proof.Machine.execEnvbaseWrite v s
  | .frbaseWrite v => Sys2Proof.Machine.execFrbaseWrite v s
  | .mbbaseWrite v => Sys2Proof.Machine.execMbbaseWrite v s
  | .tqbaseWrite v => Sys2Proof.Machine.execTqbaseWrite v s
  | .tqcfgWrite v => Sys2Proof.Machine.execTqcfgWrite v s
  | .gdeadWrite v => Sys2Proof.Machine.execGdeadWrite v s
  | .fcsrWrite v => Sys2Proof.Machine.execFcsrWrite v s
  | .nearDispatch c u => Sys2Proof.Machine.execNearDispatch c u s
  | .slotTakesWork c slot => Sys2Proof.Machine.execSlotTakesWork c slot s
  | .stealRequest c slot => Sys2Proof.Machine.execStealRequest c slot s
  | .steal c slot => Sys2Proof.Machine.execSteal c slot s
  | .bufferDrain c slot => Sys2Proof.Machine.execBufferDrain c slot s
  | .deferredLoadFaultReport c slot => Sys2Proof.Machine.execDeferredLoadFaultReport c slot s
  | .globalLoadData c slot => Sys2Proof.Machine.execGlobalLoadData c slot s
  | .globalWriteAck id => Sys2Proof.Machine.execGlobalWriteAck id s
  | .globalAccess id => Sys2Proof.Machine.execGlobalAccess id s
  | .clusterWindowAccess id => Sys2Proof.Machine.execClusterWindowAccess id s
  | .portWord id => Sys2Proof.Machine.execPortWord id s
  | .put id => Sys2Proof.Machine.execPut id s
  | .getRequest id => Sys2Proof.Machine.execGetRequest id s
  | .getData id => Sys2Proof.Machine.execGetData id s
  | .atomicRequest id => Sys2Proof.Machine.execAtomicRequest id s
  | .atomicReply id => Sys2Proof.Machine.execAtomicReply id s
  | .signal id => Sys2Proof.Machine.execSignal id s
  | .acknowledgment id => Sys2Proof.Machine.execAcknowledgment id s
  | .taskRecordArrival id => Sys2Proof.Machine.execTaskRecordArrival id s
  | .closureOperation id => Sys2Proof.Machine.execClosureOperation id s
  | .workQuery id => Sys2Proof.Machine.execWorkQuery id s
  | .workAnswer id => Sys2Proof.Machine.execWorkAnswer id s
  | .wqryRecordEnqueue c => Sys2Proof.Machine.execWqryRecordEnqueue c s
  | .slateStealControl id => Sys2Proof.Machine.execSlateStealControl id s
  | .lossNotice id applied => Sys2Proof.Machine.execLossNotice id applied s
  | .postedTimeout c slot seq => Sys2Proof.Machine.execPostedTimeout c slot seq s
  | .mailboxAppend c => Sys2Proof.Machine.execMailboxAppend c s
  | .bankLineUpdate c bank => Sys2Proof.Machine.execBankLineUpdate c bank s
  | .bankCommandRetire c => Sys2Proof.Machine.execBankCommandRetire c s
  | .vamoRetire c => Sys2Proof.Machine.execVamoRetire c s
  | .matrixOpRetire c => Sys2Proof.Machine.execMatrixOpRetire c s
  | .mcHoldExpiry c line => Sys2Proof.Machine.execMcHoldExpiry c line s
  | .copyTransferComplete c ch => Sys2Proof.Machine.execCopyTransferComplete c ch s
  | .completionRecordEnqueue c ch => Sys2Proof.Machine.execCompletionRecordEnqueue c ch s
  | .accumulatorRestore c => Sys2Proof.Machine.execAccumulatorRestore c s
  | .preempt l => Sys2Proof.Machine.execPreempt l s
  | .resume l => Sys2Proof.Machine.execResume l s
  | .launchRecordCheck q => Sys2Proof.Machine.execLaunchRecordCheck q s
  | .launchStart q => Sys2Proof.Machine.execLaunchStart q s
  | .reelForward l src dst => Sys2Proof.Machine.execReelForward l src dst s
  | .launchComplete l => Sys2Proof.Machine.execLaunchComplete l s
  | .superstepRelease l die => Sys2Proof.Machine.execSuperstepRelease l die s
  | .clapperColumnRelease l die => Sys2Proof.Machine.execClapperColumnRelease l die s
  | .clapperEstimateRefresh => Sys2Proof.Machine.execClapperEstimateRefresh s
  | .heatMapRefresh => Sys2Proof.Machine.execHeatMapRefresh s
  | .patrolScrub c addr => Sys2Proof.Machine.execPatrolScrub c addr s
  | .parityError c slot queue => Sys2Proof.Machine.execParityError c slot queue s
  | .clockStretch die => Sys2Proof.Machine.execClockStretch die s
  | .drowsyEntry c => Sys2Proof.Machine.execDrowsyEntry c s
  | .submit q offset bytes => Sys2Proof.Machine.execSubmit q offset bytes s
  | .queueConfigWrite q hi v => Sys2Proof.Machine.execQueueConfigWrite q hi v s
  | .shootDown v => Sys2Proof.Machine.execShootDown v s
  | .stationShootDownAck station => Sys2Proof.Machine.execStationShootDownAck station s
  | .connectionWrite n w v => Sys2Proof.Machine.execConnectionWrite n w v s
  | .devcmdHalt v => Sys2Proof.Machine.execDevcmdHalt v s
  | .devcmdResume v => Sys2Proof.Machine.execDevcmdResume v s
  | .devcmdEndTask v => Sys2Proof.Machine.execDevcmdEndTask v s
  | .devcmdApplyProfile v => Sys2Proof.Machine.execDevcmdApplyProfile v s
  | .devcmdAbortLaunch v => Sys2Proof.Machine.execDevcmdAbortLaunch v s
  | .hostRegisterWrite a v => Sys2Proof.Machine.execHostRegisterWrite a v s
  | .hostMemWrite addr bytes => Sys2Proof.Machine.execHostMemWrite addr bytes s
  | .hostMemRead addr n => Sys2Proof.Machine.execHostMemRead addr n s
  | .hostLinkDown => Sys2Proof.Machine.execHostLinkDown s
  | .hostLinkHoldTimeout id => Sys2Proof.Machine.execHostLinkHoldTimeout id s
  | .hostLinkTrained => Sys2Proof.Machine.execHostLinkTrained s
  | .inboundSend conn bytes => Sys2Proof.Machine.execInboundSend conn bytes s
  | .inboundRma conn addr write bytes => Sys2Proof.Machine.execInboundRma conn addr write bytes s
  | .attestation nonce => Sys2Proof.Machine.execAttestation nonce s
  | .firmwareLoad image signature => Sys2Proof.Machine.execFirmwareLoad image signature s
  | .powerUp => Sys2Proof.Machine.execPowerUp s
  | .powerDown => Sys2Proof.Machine.execPowerDown s
  | .decodeTrap cause sub pos => Sys2Proof.Machine.execDecodeTrap cause sub pos s
  | .clusterWindowAnswer id => Sys2Proof.Machine.execClusterWindowAnswer id s
  | .closureAnswer id => Sys2Proof.Machine.execClosureAnswer id s
  | .copyPiece c ch => Sys2Proof.Machine.execCopyPiece c ch s
  | .anchorViewAccess id => Sys2Proof.Machine.execAnchorViewAccess id s
  | .portLinkTrained port up => Sys2Proof.Machine.execPortLinkTrained port up s

end Sys2Proof.Machine
end

