-- ==== Sys2Proof/Machine/Sched.lean ====
section
/-! DEFINITION. Machine/Sched.lean: what moves (log 3): whether a unit may execute (R105, R107), the fetch of its next
instruction (R31, R43), a unit's move with the reports due before it (R86, R143, R274), and the moves that the opcode table
has no row for. -/
namespace Sys2Proof.Machine

noncomputable section

/-- A row of the opcode table that is no instruction. -/
def isEvent : Instr → Bool
  | .nearDispatch _ _ => true
  | .slotTakesWork _ _ => true
  | .stealRequest _ _ => true
  | .steal _ _ => true
  | .bufferDrain _ _ => true
  | .deferredLoadFaultReport _ _ => true
  | .globalLoadData _ _ => true
  | .globalWriteAck _ => true
  | .globalAccess _ => true
  | .clusterWindowAccess _ => true
  | .portWord _ => true
  | .put _ => true
  | .getRequest _ => true
  | .getData _ => true
  | .atomicRequest _ => true
  | .atomicReply _ => true
  | .signal _ => true
  | .acknowledgment _ => true
  | .taskRecordArrival _ => true
  | .closureOperation _ => true
  | .workQuery _ => true
  | .workAnswer _ => true
  | .wqryRecordEnqueue _ => true
  | .slateStealControl _ => true
  | .lossNotice _ _ => true
  | .postedTimeout _ _ _ => true
  | .mailboxAppend _ => true
  | .bankLineUpdate _ _ => true
  | .bankCommandRetire _ => true
  | .vamoRetire _ => true
  | .matrixOpRetire _ => true
  | .mcHoldExpiry _ _ => true
  | .copyTransferComplete _ _ => true
  | .completionRecordEnqueue _ _ => true
  | .accumulatorRestore _ => true
  | .preempt _ => true
  | .resume _ => true
  | .launchRecordCheck _ => true
  | .launchStart _ => true
  | .reelForward _ _ _ => true
  | .launchComplete _ => true
  | .superstepRelease _ _ => true
  | .clapperColumnRelease _ _ => true
  | .clapperEstimateRefresh => true
  | .heatMapRefresh => true
  | .patrolScrub _ _ => true
  | .parityError _ _ _ => true
  | .clockStretch _ => true
  | .drowsyEntry _ => true
  | .submit _ _ _ => true
  | .queueConfigWrite _ _ _ => true
  | .shootDown _ => true
  | .stationShootDownAck _ => true
  | .connectionWrite _ _ _ => true
  | .devcmdHalt _ => true
  | .devcmdResume _ => true
  | .devcmdEndTask _ => true
  | .devcmdApplyProfile _ => true
  | .devcmdAbortLaunch _ => true
  | .hostRegisterWrite _ _ => true
  | .hostMemWrite _ _ => true
  | .hostMemRead _ _ => true
  | .hostLinkDown => true
  | .hostLinkHoldTimeout _ => true
  | .hostLinkTrained => true
  | .inboundSend _ _ => true
  | .inboundRma _ _ _ _ => true
  | .attestation _ => true
  | .firmwareLoad _ _ => true
  | .powerUp => true
  | .powerDown => true
  | .clusterWindowAnswer _ => true
  | .closureAnswer _ => true
  | .copyPiece _ _ => true
  | .anchorViewAccess _ => true
  | .portLinkTrained _ _ => true
  | _ => false

/-! ### A unit's move -/

/-- The core lets an instruction complete that another core has already seen: it runs, or its launch is stopping (R273, R281). -/
def coreLive (s : State) (c : Coord) : Bool :=
  coreRuns s c || (isCore c && s.phase == .running && (coreAt s c).power == .on && match launchOf s c with
    | some l => l.phase == .stopping
    | none => false)
/-- A unit may execute: its core runs, its slot runs or is in a handler, no start and no trap of its task is held (R105). An
instruction that another core has already seen completes also where its launch is stopping or the slot holds a trap (R273). -/
def canRun (s : State) (a : Agent) : Bool :=
  let k := coreAt s a.core
  let th := threadAt k a.unit
  (coreRuns s a.core || (threadBegun th && coreLive s a.core)) && th.running && match a.unit with
    | .stream i x =>
      let y := slotAt k i
      (y.st == .running || (y.st == .trapped && x == .exec)) && y.starting.isNone && match y.task with
        | some t => (t.held.isNone || threadBegun th) && !undrained s t
        | none => false
    | .ibex n => (ibexAt k n).task.isSome && (ibexAt k n).starting.isNone
/-- The held trap of a unit's slot that is to be taken now (R86). -/
def heldTrap (s : State) (a : Agent) : Option (Fin 4 × Trap) :=
  match a.unit with
  | .stream i _ => if coreRuns s a.core then (dueHeld s a.core i).map fun t => (i, t) else none
  | .ibex _ => none
/-- The page that a chain's XP names, 0 without one, and the major opcode of its base word (R33, R36). -/
def wordsPage (ws : List Half) : Nat := ((ws.find? isXp).map fun w => hb w 9 4).getD 0
def wordsMajor (ws : List Half) : Nat := (ws.getLast?.map fun w => hb w 15 12).getD 0
/-- The instruction runs while earlier stores of its stream wait in their buffer: a load, or one that computes, branches or moves
queue words (R101, R262; a push waits for them itself, R263). DESIGN CHOICE (log 4): before every other instruction they take
effect. -/
def passesStores (i : Instr) (ws : List Half) : Bool := match i with
  | .apply _ => false
  | .ago _ => false
  | .aend => false
  | .vamoOr .. => false
  | .vamoAnd .. => false
  | .vamoAdd .. => false
  | .vamoMax .. => false
  | .vamoMin .. => false
  | .lduB .. => true
  | .lduH .. => true
  | .lduW .. => true
  | .gldB .. => true
  | .gldH .. => true
  | .gldW .. => true
  | .gldD .. => true
  | .pref .. => true
  | .vst .. => false
  | .vsts .. => false
  | .vstx .. => false
  | _ =>
    if wordsPage ws = 0 then [0, 1, 2, 3, 4, 6, 7, 8, 9, 0xA, 0xB].contains (wordsMajor ws)
    else [1, 2, 4, 8, 9, 0xA, 0x10].contains (wordsPage ws)
/-- What the stream has read ahead of the instruction may still be used after it: it is none that observes a completion, orders
accesses or issues an engine thread (R102, R265, R395; a pop forgets it itself, R263). DESIGN CHOICE (log 4): every other
instruction forgets it. -/
def keepsEarly (i : Instr) (ws : List Half) : Bool :=
  passesStores i ws || wordsPage ws == 3 || (wordsPage ws == 0 && [5, 0xB].contains (wordsMajor ws))
/-- A far body runs at its home, whose loads of the anchor view find the stores of the stream in the home's memory (R101). -/
def atHome (s : State) : Bool := (farTask s).any fun t => t.home == s.cur.core
/-- The stream as an instruction finds it: its waiting stores have taken effect, and what it had read ahead is forgotten, unless the
instruction lets them be. -/
def readied (i : Instr) (s : State) : State :=
  let s := if (passesStores i s.ir && !atHome s) || (threadOf s).sbuf.isEmpty then s else drainStores s s.cur
  if keepsEarly i s.ir || (threadOf s).early.isEmpty then s
  else mapCore s s.cur.core fun k => mapThread k s.cur.unit fun t => { t with early := [] }
/-- Execute an instruction. A store that is to wait (`late`) goes to its stream's buffer (R262). -/
def perform (late : Bool) (i : Instr) (s : State) : Out :=
  let aside (a b : GReg) (imm : Word) (n : Nat) : Out := instr uEAN false [.rd b, .rd a] (storeBy storeLater a b imm n) s
  match late, i with
  | true, .stB a b imm => aside a b (simm imm) 1
  | true, .stH a b imm => aside a b (simm imm) 2
  | true, .stW a b imm => aside a b (simm imm) 4
  | true, .stD a b imm => aside a b (simm imm) 8
  | true, .vst a b vm => instr uV false [.rd b] (vUnit a b fun t ad => vStore true a vm t ad) s
  | true, .vsts a b c vm => instr uV false [.rd b, .rd c] (vStride a b c fun t ad => vStore true a vm t ad) s
  | true, .vstx a b c vm => instr uV false [.rd b] (vIndexed a b c fun t ad => vStore true a vm t ad) s
  | _, i => exec i (readied i s)
/-- A unit fetches its next instruction and executes it. DESIGN CHOICE (log 75): where an instruction's first word cannot be
fetched, no word is recorded and WCNT is 0, as for BodyStart (R48). -/
def fetchAndRun (late : Bool) (s : State) : Out :=
  let k := coreAt s s.cur.core
  match fetch k (threadAt k s.cur.unit) with
  | (.ok _, ws) => perform late (decode ws) { s with ir := ws }
  | (.error a, ws) => .next (onStop { s with ir := ws } (.trap (why 0x064 0) a none))
/-- A report is due on a unit. -/
def reportDue (s : State) (a : Agent) : Bool :=
  mayReport (coreAt s a.core) a.unit && !(threadAt (coreAt s a.core) a.unit).due.isEmpty
/-- The other stream of a unit's slot has an instruction under way that has already changed another core: it completes before
the slot stops (R273). -/
def partnerBusy (s : State) (a : Agent) : Bool := match a.unit with
  | .stream i x => threadBegun (threadAt (coreAt s a.core) (.stream i (if x = .exec then .acc else .exec)))
  | .ibex _ => false
/-- The slot stops where the partner has nothing under way; otherwise the moving stream waits. -/
def stopsWhole (s : State) : Out → Out
  | .next s1 =>
    let stopped (s : State) : Bool := (slotOf s).st == .trapped || (slotOf s).st == .halted
    if !stopped s && stopped { s1 with cur := s.cur } && partnerBusy s s.cur then .next (markStalled s true) else .next s1
  | o => o
/-- The move of the unit that `cur` names. -/
def runUnit (late : Bool) (s : State) : Out :=
  if !isCore s.cur.core then .fault .noSuchCore
  else match heldTrap s s.cur with
    | some (i, t) => .next (takeHeld s s.cur.core i t)
    | none =>
      if !canRun s s.cur then .next s
      else if reportDue s s.cur then .next (if partnerBusy s s.cur then markStalled s true else raiseDue s s.cur)
      else stopsWhole s (fetchAndRun late s)

/-! ### The issue ports (R107) -/

/-- The unit moves when it is its turn: it can run, or takes a held trap. -/
def moves (s : State) (a : Agent) : Bool := canRun s a || (heldTrap s a).isSome
/-- The unit, tried anew. -/
def retried (s : State) (a : Agent) : State :=
  let s := { s with cur := a, ir := [] }
  if (threadOf s).stalled then markStalled s false else s
/-- The port of a stream's kind has chosen the stream; an Ibex unit goes through no port. -/
def portChose (s : State) (a : Agent) : State := match a.unit with
  | .stream i x => mapCore s a.core fun k => if x = .exec then { k with lastExec := i } else { k with lastAcc := i }
  | .ibex _ => s
/-- The state after the move of `a` from `s`, with its port's choice recorded where the stream issued. -/
def recorded (s : State) (a : Agent) : Out → Out
  | .next s1 => .next (if moves s a && !(threadAt (coreAt s1 a.core) a.unit).stalled then portChose s1 a else s1)
  | o => o
/-- Unit `a` moves. -/
def runTurnOf (late : Bool) (s : State) (a : Agent) : Out := recorded s a (runUnit late (retried s a))
/-- The port's choice: the first stream of the list that does not stall when it is tried. -/
def issueFirst (c : Coord) (x : Side) : List (Fin 4) → State → State
  | [], s => s
  | i :: r, s =>
    let a : Agent := ⟨c, .stream i x⟩
    if !moves s a then issueFirst c x r s
    else match runUnit false (retried s a) with
      | .next s1 => if (threadAt (coreAt s1 c) a.unit).stalled then issueFirst c x r s1 else portChose s1 a
      | _ => s
/-- The streams in slot order after the one that the port last chose. -/
def issueOrder (s : State) (c : Coord) (x : Side) : List (Fin 4) :=
  let last : Nat := (if x = .exec then (coreAt s c).lastExec else (coreAt s c).lastAcc).val
  [1, 2, 3, 4].map fun n => Fin.ofNat 4 (last + n)
def issuePort (s : State) (c : Coord) (x : Side) : State := issueFirst c x (issueOrder s c x) s

/-! ### Moves without a row -/

/-- The core's launch loses cycles to a divider, waits for a due column release, or waits at SSTEP (R349, R354, R355). -/
def countLaunch (s : State) (c : Coord) : State :=
  let d := 2 ^ (coreAt s c).clkdiv.toNat
  match launchOf s c with
  | none => s
  | some l =>
    let waits := s.releases.any fun r => r.launch == l.id && (scopeCores l r.die).contains c && r.columns.contains (columnOf c)
    let idle := allSlots.any fun i => (slotAt (coreAt s c) i).arrived
    mapLaunch s l.id fun x => { x with hostCap := x.hostCap + (d - 1), clapDelay := x.clapDelay + (if waits then d else 0),
                                       waited := x.waited + if idle then d else 0 }
/-- A cycle of a core: CYCLE, and DCLOSS of the slots whose access stream is Running and stalled on a pop of rt that is still
empty (R109, R125). -/
def coreCycle (s : State) (c : Coord) : State :=
  if (coreAt s c).power != .on then s
  else
    let s := mapCore s c fun k =>
      let k := { k with cycle := k.cycle + 1 }
      allSlots.foldl (fun k i =>
        let t := threadAt k (.stream i .acc)
        if t.running && t.stallRt && (slotAt k i).st == .running && (slotAt k i).rt.isEmpty then mapSlot k i fun x => { x with dcloss := x.dcloss + 1 } else k) k
    countLaunch s c
/-- A unit fetches a word ahead; the fetch buffer holds 32 (R104). -/
def prefetch (s : State) (a : Agent) (addr : Nat) : State :=
  let k := coreAt s a.core
  if coreRuns s a.core && addr % 2 == 0 && fetchable k (BitVec.ofNat 64 addr) then
    mapCore s a.core fun k => mapThread k a.unit fun t =>
      let b := if 32 ≤ t.fbuf.length then t.fbuf.drop 1 else t.fbuf
      { t with fbuf := mapPut addr (BitVec.ofNat 16 (peekNat k.mem addr 2)) b }
  else s
/-- An error in a word of local memory: one bit is corrected and counted where the word is next read, two poison it (R218). -/
def softError (s : State) (c : Coord) (addr : Nat) (double : Bool) : State :=
  if Config.localBytes ≤ addr || !isCore c then s
  else if double then mapCore s c fun k => { k with poison := insertNat (addr / 8) k.poison }
  else mapCore s c fun k => { k with flawed := insertNat (addr / 8) k.flawed }
/-- The oldest waiting store of a unit takes effect (R262). -/
def storeDrain (s : State) (a : Agent) : State :=
  match (threadAt (coreAt s a.core) a.unit).sbuf with
  | [] => s
  | (x, bs) :: r =>
    writeBytes (mapCore s a.core fun k => mapThread k a.unit fun t => { t with sbuf := r }) a.core x bs
      ((taskOf (coreAt s a.core) a.unit).map fun t => (t.home, t.entry))
/-- A unit reads an aligned word of own memory for a later load, which may be performed before its earlier stores to other bytes
and its earlier loads of other addresses (R101, R262): not past an instruction that waits on a scoreboard entry (R395) or on another
core (R294), and only where a load of it would be allowed (R116). -/
def readAhead (s : State) (a : Agent) (x n : Nat) : State :=
  let k := coreAt s a.core
  let t := threadAt k a.unit
  if canRun s a && [1, 2, 4, 8].contains n && x % n == 0 && decide (x < Config.localBytes) && !scoreW k x (x + n) &&
      (poisonIn k x n).isNone && (pageLocal k (unitUser k a.unit) aRead (x / 4096)).isNone && !t.joins &&
      !t.sbuf.any (entryMeets x n) && !bufferedAt { s with cur := a } a.core x n then
    mapCore s a.core fun k => mapThread k a.unit fun t => { t with early := t.early ++ [(x, peeks k.mem x n)] }
  else s
/-- A head flit with reserved bits, or of a reserved kind, is discarded and logged (R302, R313). -/
def malformedHead (s : State) (h : BitVec 128) : State :=
  if bits h 31 26 = 0 ∧ bits h 39 36 < 13 then s
  else
    let dst : Coord := BitVec.ofNat 13 (bits h 12 0)
    logFault s dst (BitVec.ofNat 13 (bits h 25 13)) (Fin.ofNat 4 (bits h 35 34)) (why 0 0) 9 (bits h 55 40) 0 0
/-- One move. -/
def runTurn (s : State) : Turn → Out
  | .instr a => runTurnOf false s a
  | .issue c x => .next (issuePort s c x)
  | .delayed a => runTurnOf true s a
  | .storeDrain a => .next (storeDrain s a)
  | .readAhead a x n => .next (readAhead s a x n)
  | .event e => if isEvent e then exec e s else .next s
  | .tick n => .next { s with time := s.time + BitVec.ofNat 64 n }
  | .cycle c => .next (coreCycle s c)
  | .prefetch a addr => .next (prefetch s a addr)
  | .engineRead c id line => .next (engineRead s c id line)
  | .softError c addr double => .next (softError s c addr double)
  | .portSend c i p => .next (if coreLive s c then portSend s c i p else s)
  | .poisonGlobal addr => .next (if addr < Config.deviceBytes then { s with gpoison := insertNat (addr / 8) s.gpoison } else s)
  | .stationDrop n => .next { s with tlb := s.tlb.filter fun x => x.station != n }
  | .cacheFill line => .next (if 64 * line < Config.deviceBytes then { s with cache := cacheTouch s.cache line } else s)
  | .cacheEvict line => .next { s with cache := s.cache.filter fun e => e.1 != line }
  | .malformedHead h => .next (malformedHead s h)
  | .fabricFail c ch sub => .next (fabricFail s c ch sub)
  | .gatewayCorrected addr => .next (gatewayCorrected s addr)
  | .copyHoldTimeout c ch => .next (copyHoldTimeout s c ch)
  | .peerAck c ch => .next (peerAck s c ch)
  | .trim bytes => .next (setTrim s bytes)
  | .readHousekeeping => .next (readHousekeeping s)
/-- The next move: the agenda's first, or the same unit again where the agenda is empty. -/
def advanceAll (s : State) : Out :=
  match s.agenda with
  | [] => runTurnOf false s s.cur
  | t :: r => runTurn { s with agenda := r } t

/-! ### Placing an instruction (log 13) -/

/-- The words of an opcode-table word, with zeros up to the longest instruction. -/
def placeWords (nbits w : Nat) : List Half := tableWords nbits w ++ List.replicate (6 - (tableWords nbits w).length) 0
/-- The bytes of words as they lie in memory (R5). -/
def wordBytes (ws : List Half) : List Byte := ws.flatMap fun w => leBytes 2 w.toNat
/-- The unit that can execute an instruction: an access stream for one that the execute stream refuses. -/
def placeUnit (i : Instr) (u : UnitId) : UnitId :=
  match i, u with
  | .gldB .., .stream n _ => .stream n .acc
  | .gldH .., .stream n _ => .stream n .acc
  | .gldW .., .stream n _ => .stream n .acc
  | .gldD .., .stream n _ => .stream n .acc
  | .gstB .., .stream n _ => .stream n .acc
  | .gstH .., .stream n _ => .stream n .acc
  | .gstW .., .stream n _ => .stream n .acc
  | .gstD .., .stream n _ => .stream n .acc
  | .gamoAdd .., .stream n _ => .stream n .acc
  | .gamoSwap .., .stream n _ => .stream n .acc
  | .gamoAnd .., .stream n _ => .stream n .acc
  | .gamoOr .., .stream n _ => .stream n .acc
  | .gamoMax .., .stream n _ => .stream n .acc
  | .gamoMin .., .stream n _ => .stream n .acc
  | .gamoCas .., .stream n _ => .stream n .acc
  | .pref .., .stream n _ => .stream n .acc
  | .mscfl .., .stream n _ => .stream n .acc
  | .aend, .stream n _ => .stream n .acc
  | _, u => u
/-- The agent that runs the placed instruction: `cur`, or slot 0 of core 0.0.0. -/
def placeAgent (s : State) (i : Instr) : Agent :=
  let a : Agent := if isCore s.cur.core then s.cur else ⟨0, .stream 0 .exec⟩
  ⟨a.core, placeUnit i a.unit⟩
/-- A launch that holds one core and runs. -/
def placeLaunch (s : State) (c : Coord) : Launch :=
  { id := s.nextId, queue := 0, pid := 0, prio := 0, rcd := 0, index := 0, cores := [(c, 0)]
    kernel := ⟨1, [64], [2 ^ 64 - 1], false, 0, 256, 8, []⟩, reels := [], relays := [], phase := .running, aborted := false
    contextLost := false, ordinal := 0, failed := none, preempts := 0, started := 0, cycles0 := 0, stretch0 := 0, hostCap := 0
    clapDelay := 0, waited := 0, saved := [], since := none, record := none }
/-- The core runs: the device is up, and a launch that runs holds the core. -/
def placeCore (s : State) (c : Coord) : State :=
  if coreRuns s c then s
  else
    let s1 := mapCore { s with phase := .running, launches := s.launches ++ [placeLaunch s c], nextId := s.nextId + 1 } c fun k =>
      { k with launch := some s.nextId, power := .on, members := k.members ||| (1 <<< clidx c) }
    s1
/-- A free task of the core. -/
def placeTask (c : Coord) : Task := { rcd := 0, home := c, entry := 0, abuf := [], obuf := [], held := none }
/-- The unit runs at `pc`, with nothing fetched ahead, under way or due. -/
def placeThread (pc : Word) (t : Thread) : Thread :=
  { t with pc := pc, running := true, fbuf := [], pend := [], rcd := none, keeps := [], stalled := false, joins := false, due := [],
           sbuf := [], early := [] }
/-- The place of the instruction: the unit's pc, or 0 where that leaves no room in local memory. -/
def placePc (t : Thread) : Word := if t.pc.toNat % 2 = 0 ∧ t.pc.toNat + 12 ≤ Config.localBytes then t.pc else 0
/-- The words stored at `pc`, on pages with X. -/
def placeCode (pc : Nat) (bs : List Byte) (k : Core) : Core :=
  { k with
    mem := pokes k.mem pc bs
    attr := (pagesOf pc (pc + bs.length)).foldl (fun m p => mapSet 0x23 p (mapGet 0x23 m p ||| 4) m) k.attr }
/-- The machine with an instruction where its next step fetches it. -/
def placeInstr (s : State) (nbits w : Nat) : State :=
  let ws := placeWords nbits w
  let a := placeAgent s (decode ws)
  let s := placeCore { s with agenda := [], cur := a } a.core
  mapCore s a.core fun k =>
    let pc := placePc (threadAt k a.unit)
    let k := mapThread (placeCode pc.toNat (wordBytes ws) k) a.unit (placeThread pc)
    match a.unit with
    | .stream i x => mapSlot k i fun y =>
        { y with task := some (placeTask a.core), starting := none, committing := false
                 st := if y.st = .trapped ∧ x = .exec then .trapped else .running }
    | .ibex n => mapIbex k n fun y => { task := some (y.task.getD (placeTask a.core)), starting := none }

end

end Sys2Proof.Machine
end

