-- ==== Sys2Proof/Machine/Step.lean ====
section
/-! DEFINITION. Machine/Step.lean: one step of the machine, and the placing of an instruction for it. -/
namespace Sys2Proof.Machine

noncomputable section

/-- One step: one move of one agent, or one event, whole and indivisible (R31, file 95). -/
def step (s : State) : Host.Outcome State Fault Refusal := advanceAll s
/-- The machine with the instruction whose bits are `w` where the next step fetches it (log 13). -/
def State.withFetchWord (s : State) (nbits w : Nat) : State := placeInstr s nbits w

end

end Sys2Proof.Machine
end

