-- ==== Sys2Proof/Safety.lean ====
section
/-! DEFINITION. Safety.lean: what counts as a safe run (no step faults or is refused), the invariant that every step keeps
(memories in canonical form, log 6), and the terms in which the statements speak of a step: what an instruction leaves
unchanged, and where it goes on. -/
namespace Sys2Proof

/-- The outcome is a next state. -/
def goesOn {σ φ ρ : Type} : Host.Outcome σ φ ρ → Bool
  | .next _ => true
  | .fault _ => false
  | .refused _ => false
/-- `n` steps from `s` all go on. -/
def SafeRun (s : Machine.State) (n : Nat) : Prop := goesOn (core.run n s) = true

namespace Claim
open Sys2Proof.Machine

/-- Every memory is in canonical form: the local memories of the cores, live and saved, device memory and host memory. -/
def Canonical (s : State) : Prop :=
  (∀ e ∈ s.cores, e.2.mem.wf = true) ∧ s.gmem.wf = true ∧ s.hmem.wf = true ∧
    ∀ l ∈ s.launches, ∀ e ∈ l.saved, e.2.mem.wf = true

/-! ### What a statement says of a step -/

/-- The core of the moving unit. -/
abbrev here (s : State) : Core := coreAt s s.cur.core
/-- The stream goes on behind the instruction: PC + Len (R43). `s` is the state the instruction began in, `s1` what its
effect left. -/
abbrev goes (s s1 : State) : State := advance s1 (pcOf s) (lenOf s) .seq
/-- The stream goes on at `a`. -/
abbrev jumps (s s1 : State) (a : Word) : State := advance s1 (pcOf s) (lenOf s) (.jump a)
/-- The moving unit is of a core of a core die, and checks 6 to 9 of R47 pass: the unit, the operands' presence, the
privilege and the operands' direction. -/
def Passes (un : Units) (priv : Bool) (uses : List Use) (s : State) : Prop :=
  isCore s.cur.core = true ∧ preCheck un priv uses s = none
/-- Nothing of the machine differs but cores, of these the moving unit's only, and the counter by which the model names the words
that ports send (log 12). -/
def OnlyHere (s t : State) : Prop :=
  { t with cores := s.cores, nextId := s.nextId } = s ∧ ∀ d, d ≠ s.cur.core → coreAt t d = coreAt s d
/-- Nothing of the moving unit's core differs but its threads, its slots and the mailbox, which a special operand may pop. -/
def CoreKept (s t : State) : Prop :=
  { here t with threads := (here s).threads, slots := (here s).slots, mb := (here s).mb, mbHead := (here s).mbHead } = here s
/-- Every other thread of the core is as before. -/
def OtherThreads (s t : State) : Prop := ∀ u, u ≠ s.cur.unit → threadAt (here t) u = threadAt (here s) u
/-- Every other slot of the core is as before; the moving unit's own is, but for the queues and ports that a special
operand pops or pushes (R40) and the task's buffers that hold a port word (R86). -/
def SlotsKept (s t : State) : Prop :=
  ∀ j, { slotAt (here t) j with lq := (slotAt (here s) j).lq, sq := (slotAt (here s) j).sq, bo := (slotAt (here s) j).bo,
                                boProd := (slotAt (here s) j).boProd, rt := (slotAt (here s) j).rt,
                                ports := (slotAt (here s) j).ports, task := (slotAt (here s) j).task } = slotAt (here s) j ∧
    (unitSlot s.cur.unit ≠ some j → slotAt (here t) j = slotAt (here s) j)
/-- The moving thread is as before but for PC, g registers with their dead set, l0 and l1, and FCSR; the requests of the
instruction and its stalls are done with; what it reads ahead may be used up or forgotten (log 4). -/
def ThreadKept (s t : State) : Prop :=
  { threadOf t with pc := (threadOf s).pc, g := (threadOf s).g, dead := (threadOf s).dead, l0 := (threadOf s).l0,
                    l1 := (threadOf s).l1, fcsr := (threadOf s).fcsr, pend := (threadOf s).pend, rcd := (threadOf s).rcd,
                    stallRt := (threadOf s).stallRt, stalled := (threadOf s).stalled, joins := (threadOf s).joins,
                    early := (threadOf s).early } = threadOf s
/-- Every g register but the destination `a`, with its dead state, is as before. -/
def RegsKept (a : GReg) (s t : State) : Prop :=
  ∀ n : BitVec 5, a ≠ .g n → regVal (threadOf t) n = regVal (threadOf s) n ∧
    (threadOf t).dead.getLsbD n.toNat = (threadOf s).dead.getLsbD n.toNat
/-- No byte of the moving unit's local memory differs. -/
def MemKept (s t : State) : Prop := ∀ x, peek (here t).mem x = peek (here s).mem x
/-- What an instruction with a scalar destination `a` and no store leaves unchanged (FCSR apart). -/
def ScalarFrame (a : GReg) (s t : State) : Prop :=
  OnlyHere s t ∧ CoreKept s t ∧ MemKept s t ∧ OtherThreads s t ∧ SlotsKept s t ∧ ThreadKept s t ∧ RegsKept a s t
/-- The number that `n` bytes hold, little-endian (R5). -/
def leValue (m : Memory) (a n : Nat) : Nat := ((List.range n).map fun i => (peek m (a + i)).toNat * 256 ^ i).sum
/-- U mode may reach the page of the byte: SUP is clear, and it is none of the home-queue region (R115, R69). -/
def userPage (s : State) (x : Nat) : Prop :=
  (attrOf (here s) (x / 4096)).getLsbD 6 = false ∧ homePage (here s) (x / 4096) = false
/-- The page of the byte lets the unit read it: R set, and open to U mode where the unit is in it (R116). -/
def pageRead (s : State) (x : Nat) : Prop :=
  (attrOf (here s) (x / 4096)).getLsbD 0 = true ∧ (userMode s = true → userPage s x)
/-- The page of the byte lets the unit write it: W set, and open to U mode where the unit is in it (R116). -/
def pageWrite (s : State) (x : Nat) : Prop :=
  (attrOf (here s) (x / 4096)).getLsbD 1 = true ∧ (userMode s = true → userPage s x)

/-- An instruction that writes the one result `v` to `a` and does nothing else, done: `v` in the destination, l0 and l1
moved on (R43), the PC behind the instruction, all else as before. -/
def ResultDone (a : GReg) (v : Word) (s t : State) : Prop :=
  ScalarFrame a s t ∧ (threadOf t).l0 = v ∧ (threadOf t).l1 = (threadOf s).l0 ∧
    (∀ n, a = .g n → regVal (threadOf t) n = if n = 0 then 0 else v) ∧
    (threadOf t).pc = pcOf s + BitVec.ofNat 64 (lenOf s)

/-! ### Local memory -/

/-- The near address `A` names byte `y` of the unit's own local memory, and the `n` bytes from there are no anchor view's
(R84, R110, R292): below 2 MiB, or in the core's own part of the cluster window, which an Ibex unit does not have. -/
def OwnPlace (s : State) (A : Word) (n y : Nat) : Prop :=
  (A.toNat < 0x200000 ∧ y = A.toNat ∧ viewHit s y (y + n) = false) ∨
  (isIbex s.cur.unit = false ∧ y < 0x200000 ∧ A.toNat = 0x40000000 + clidx s.cur.core * 0x200000 + y)
/-- The near address `A` names byte `y` of another member `d` of the cluster that runs the same launch (R291, R292). -/
def WindowPlace (s : State) (A : Word) (d : Coord) (y : Nat) : Prop :=
  isIbex s.cur.unit = false ∧ memberOk s d = true ∧ sameCluster s.cur.core d = true ∧ clidx d ≠ clidx s.cur.core ∧
    y < 0x200000 ∧ A.toNat = 0x40000000 + clidx d * 0x200000 + y
/-- Every byte of [y, y + n) may be read, may be written, or both. -/
def MayRead (s : State) (y n : Nat) : Prop := ∀ z, y ≤ z → z < y + n → pageRead s z
def MayWrite (s : State) (y n : Nat) : Prop := ∀ z, y ≤ z → z < y + n → pageWrite s z
/-- The `n` bytes `v` holds, little-endian, sign- or zero-extended to a word (R133). -/
def extended (n : Nat) (signed : Bool) (v : Nat) : Word :=
  if signed ∧ 2 ^ (8 * n - 1) ≤ v % 2 ^ (8 * n) then BitVec.ofInt 64 ((v % 2 ^ (8 * n) : Nat) - (2 ^ (8 * n) : Nat) : Int)
  else BitVec.ofNat 64 (v % 2 ^ (8 * n))
/-- In local memory the `n` bytes from `y` are those of `v`, and every other byte is as before; a store that aborts a far task
leaves the task's record changed in the home-queue region (R87, R69). -/
def Stored (y n v : Nat) (s t : State) : Prop :=
  ∀ z, abortHits (here s) s.cur.core y (y + n) (writerOf s) = [] ∨ inHome (here s) z = false → peek (here t).mem z = if y ≤ z ∧ z < y + n then BitVec.ofNat 8 (v / 256 ^ (z - y)) else peek (here s).mem z
/-- Poison goes from the words that a store writes whole, and from no other (R218). -/
def PoisonKept (y n : Nat) (s t : State) : Prop :=
  ∀ p, p ∈ (here t).poison ↔ p ∈ (here s).poison ∧ ¬(y ≤ 8 * p ∧ 8 * p + 8 ≤ y + n)
/-- What a store with no destination register leaves unchanged on the moving thread, whatever it aborts. -/
def StoreRegs (s t : State) : Prop :=
  (∀ n : BitVec 5, regVal (threadOf t) n = regVal (threadOf s) n) ∧ (threadOf t).dead = (threadOf s).dead ∧
    (threadOf t).l0 = (threadOf s).l0 ∧ (threadOf t).l1 = (threadOf s).l1 ∧ (threadOf t).fcsr = (threadOf s).fcsr ∧
    (threadOf t).k = (threadOf s).k ∧ (threadOf t).cmask = (threadOf s).cmask
/-- Nothing of the moving unit's core differs but its threads, its slots, the mailbox, local memory and its ECC state. -/
def CoreKeptButMem (s t : State) : Prop :=
  { here t with threads := (here s).threads, slots := (here s).slots, mb := (here s).mb, mbHead := (here s).mbHead, mem := (here s).mem,
                poison := (here s).poison, flawed := (here s).flawed } = here s
/-- The store aborts no speculative far task (R87). -/
def AbortsNone (s : State) (y n : Nat) : Prop := abortHits (here s) s.cur.core y (y + n) (writerOf s) = []
/-- What a store that aborts no far task leaves unchanged, its bytes apart. -/
def StoreFrame (s t : State) : Prop :=
  OnlyHere s t ∧ CoreKeptButMem s t ∧ OtherThreads s t ∧ SlotsKept s t ∧ ThreadKept s t
/-- The answer to a request of the current instruction: none asked, asked and unanswered, or answered. -/
def request (s : State) (r : Req) : Option Pending := (threadOf s).pend.find? fun p => p.pc == pcOf s && p.req == r

/-! ### Traps (R275) -/

/-- The stalled instruction of a thread holds no reference that it has added: what stops the thread drops such a reference (R188). -/
def holdsNone (t : Thread) : Bool := t.pend.all fun p => match p.req, p.ans with
  | .closureAdd _ _, some (.value _) => false
  | _, _ => true
/-- Neither stream of the slot holds such a reference. -/
def slotHoldsNone (k : Core) (i : Fin 4) : Bool := holdsNone (threadAt k (.stream i .exec)) && holdsNone (threadAt k (.stream i .acc))
/-- TrapEntry can start the handler: no handler runs, the body is not speculative, no reference of a stalled instruction is to be
dropped, and TVEC names a word PAD.T that can be fetched. -/
def TrapReady (s : State) (c : Coord) (i : Fin 4) : Prop :=
  let k := coreAt s c
  (slotAt k i).status.getLsbD 2 = false ∧ (∀ y, (slotAt k i).task = some y → speculative s y = false) ∧ slotHoldsNone k i = true ∧
    k.tvec ≠ 0 ∧
    k.tvec.toNat < 0x200000 ∧ (attrOf k (k.tvec.toNat / 4096)).getLsbD 2 = true ∧
    fetchHalf k (threadAt k (.stream i .exec)) k.tvec.toNat = 0x9A00
/-- The timestamp of the record of the slot's task, 0 where it runs none. -/
def slotTs (x : Slot) : Nat := match x.task with
  | some y => rcdTs y.rcd
  | none => 0
/-- What TrapEntry leaves: the record in the slot's registers, S mode with the old mode saved, both EPCs, the handler
started at TVEC, the access stream held; every register of both streams, the vectors, the other slots and local memory
as before. -/
def TrapTaken (s t : State) (c : Coord) (i : Fin 4) (r : Trap) : Prop :=
  let k := coreAt s c
  let x := slotAt k i
  let y := slotAt (coreAt t c) i
  let e := threadAt (coreAt t c) (.stream i .exec)
  let a := threadAt (coreAt t c) (.stream i .acc)
  y.st = .trapped ∧ y.status = 5 + 2 * (x.status &&& 1) ∧
    y.cause.toNat = r.why.cause.toNat + 2 ^ 9 * r.why.sub.toNat + (if r.side = .acc then 2 ^ 16 else 0) + 2 ^ 32 * slotTs x ∧
    y.fpc = r.fpc &&& 0x1FFFFE ∧ (y.fword0, y.fword1, y.fword2) = fwords r.words ∧ y.faddr = r.faddr ∧
    e.pc = k.tvec ∧ e.running = true ∧ a.running = false ∧
    e.epc = (if r.side = .exec then r.epc else (threadAt k (.stream i .exec)).pc) &&& 0x1FFFFE ∧
    a.epc = (if r.side = .acc then r.epc else (threadAt k (.stream i .acc)).pc) &&& 0x1FFFFE ∧
    (∀ z : Side, let p := threadAt k (.stream i z); let q := threadAt (coreAt t c) (.stream i z)
      q.g = p.g ∧ q.dead = p.dead ∧ q.l0 = p.l0 ∧ q.l1 = p.l1 ∧ q.k = p.k ∧ q.fcsr = p.fcsr) ∧
    y.v = x.v ∧ y.m = x.m ∧ y.lq = x.lq ∧ y.sq = x.sq ∧ y.task = x.task ∧
    (∀ j, j ≠ i → slotAt (coreAt t c) j = slotAt k j) ∧ (coreAt t c).mem = k.mem

/-! ### Memory of any core -/

/-- In the local memory of core `c` the `n` bytes from `y` are those of `v`, and every other byte is as before, on the terms of
`Stored`. -/
def StoredAt (c : Coord) (y n v : Nat) (s t : State) : Prop :=
  ∀ z, abortHits (coreAt s c) c y (y + n) none = [] ∨ inHome (coreAt s c) z = false → peek (coreAt t c).mem z = if y ≤ z ∧ z < y + n then BitVec.ofNat 8 (v / 256 ^ (z - y)) else peek (coreAt s c).mem z

end Claim

end Sys2Proof
end

