-- ==== Sys2Proof/Certificates/Slice0/Obligations.lean ====
section
/-! DEFINITION. Obligations.lean: what the provers are asked to prove: the tables of the spec as the statements read them,
then the statements. -/
namespace Sys2Proof.Claim
open Sys2Proof.Machine

/-! ### Integer instructions -/

/-- R128 and R129: a, b, c and the result x of B and C. -/
def aluTable : Instr → Option (GReg × GReg × GReg × (Word → Word → Word))
  | .add a b c => some (a, b, c, fun B C => B + C)
  | .sub a b c => some (a, b, c, fun B C => B - C)
  | .and a b c => some (a, b, c, fun B C => B &&& C)
  | .or a b c => some (a, b, c, fun B C => B ||| C)
  | .xor a b c => some (a, b, c, fun B C => B ^^^ C)
  | .sll a b c => some (a, b, c, fun B C => B <<< (C.toNat % 64))
  | .srl a b c => some (a, b, c, fun B C => B >>> (C.toNat % 64))
  | .sra a b c => some (a, b, c, fun B C => BitVec.ofInt 64 (B.toInt / 2 ^ (C.toNat % 64)))
  | .mul a b c => some (a, b, c, fun B C => BitVec.ofNat 64 (B.toNat * C.toNat))
  | .mulh a b c => some (a, b, c, fun B C => BitVec.ofInt 64 (B.toInt * C.toInt / 2 ^ 64))
  | .mulhu a b c => some (a, b, c, fun B C => BitVec.ofNat 64 (B.toNat * C.toNat / 2 ^ 64))
  | .mulhsu a b c => some (a, b, c, fun B C => BitVec.ofInt 64 (B.toInt * (C.toNat : Int) / 2 ^ 64))
  | .div a b c => some (a, b, c, fun B C => if C = 0 then BitVec.allOnes 64 else BitVec.ofInt 64 (B.toInt.tdiv C.toInt))
  | .divu a b c => some (a, b, c, fun B C => if C = 0 then BitVec.allOnes 64 else BitVec.ofNat 64 (B.toNat / C.toNat))
  | .rem a b c => some (a, b, c, fun B C => if C = 0 then B else B - C * BitVec.ofInt 64 (B.toInt.tdiv C.toInt))
  | .remu a b c => some (a, b, c, fun B C => if C = 0 then B else BitVec.ofNat 64 (B.toNat % C.toNat))
  | .slt a b c => some (a, b, c, fun B C => if B.toInt < C.toInt then 1 else 0)
  | .sltu a b c => some (a, b, c, fun B C => if B.toNat < C.toNat then 1 else 0)
  | .min a b c => some (a, b, c, fun B C => if B.toInt ≤ C.toInt then B else C)
  | .max a b c => some (a, b, c, fun B C => if C.toInt ≤ B.toInt then B else C)
  | .minu a b c => some (a, b, c, fun B C => if B.toNat ≤ C.toNat then B else C)
  | .maxu a b c => some (a, b, c, fun B C => if C.toNat ≤ B.toNat then B else C)
  | .andn a b c => some (a, b, c, fun B C => B &&& ~~~C)
  | .orn a b c => some (a, b, c, fun B C => B ||| ~~~C)
  | .rol a b c => some (a, b, c, fun B C => B <<< (C.toNat % 64) ||| B >>> (64 - C.toNat % 64))
  | .ror a b c => some (a, b, c, fun B C => B >>> (C.toNat % 64) ||| B <<< (64 - C.toNat % 64))
  | _ => none
/-- The bits of x that are set. -/
def setBitsOf (x : Word) : List Nat := (List.range 64).filter fun i => x.getLsbD i
/-- R129's unary forms: a, b and the result of B. -/
def unaryTable : Instr → Option (GReg × GReg × (Word → Word))
  | .clz a b => some (a, b, fun B => BitVec.ofNat 64 (63 - ((setBitsOf B).getLast?.elim (-1) fun i => (i : Int))).toNat)
  | .ctz a b => some (a, b, fun B => BitVec.ofNat 64 ((setBitsOf B).head?.getD 64))
  | .popc a b => some (a, b, fun B => BitVec.ofNat 64 (setBitsOf B).length)
  | .rev8 a b => some (a, b, fun B => BitVec.ofNat 64 (((List.range 8).map fun i => B.toNat / 256 ^ i % 256 * 256 ^ (7 - i)).sum))
  | .sextB a b => some (a, b, fun B => (B.setWidth 8).signExtend 64)
  | .sextH a b => some (a, b, fun B => (B.setWidth 16).signExtend 64)
  | .sextW a b => some (a, b, fun B => (B.setWidth 32).signExtend 64)
  | .zextW a b => some (a, b, fun B => (B.setWidth 32).setWidth 64)
  | _ => none
/-- R130 and R131 for one source and an immediate: a, b, whether the immediate is one that the instruction takes, and
the result of B. -/
def immTable : Instr → Option (GReg × GReg × Prop × (Word → Word))
  | .addi a b i => some (a, b, True, fun B => B + i.signExtend 64)
  | .andi a b i => some (a, b, True, fun B => B &&& i.signExtend 64)
  | .ori a b i => some (a, b, True, fun B => B ||| i.signExtend 64)
  | .xori a b i => some (a, b, True, fun B => B ^^^ i.signExtend 64)
  | .slli a b i => some (a, b, i.toNat ≤ 63, fun B => B <<< i.toNat)
  | .srli a b i => some (a, b, i.toNat ≤ 63, fun B => B >>> i.toNat)
  | .srai a b i => some (a, b, i.toNat ≤ 63, fun B => BitVec.ofInt 64 (B.toInt / 2 ^ i.toNat))
  | .slti a b i => some (a, b, True, fun B => if B.toInt < i.toInt then 1 else 0)
  | .sltiu a b i => some (a, b, True, fun B => if B.toNat < (i.signExtend 64).toNat then 1 else 0)
  | .muli a b i => some (a, b, True, fun B => B * i.signExtend 64)
  | .rori a b i => some (a, b, i.toNat ≤ 63, fun B => B >>> i.toNat ||| B <<< (64 - i.toNat))
  | _ => none
/-- R130 for a result from the immediate alone: the units, a and the result, with the PC of the instruction. -/
def constTable : Instr → Option (Units × GReg × (Word → Word))
  | .li a i => some (uEAN, a, fun _ => i.signExtend 64)
  | .adh a i => some (uEAN, a, fun _ => i.signExtend 64 * 4096)
  | .adpc a i => some (uEA, a, fun PC => PC + i.signExtend 64 * 4096)
  | _ => none

end Sys2Proof.Claim

open Sys2Proof Sys2Proof.Machine Sys2Proof.Claim

/-- R128, R129 (three operands): on every unit, with b read before c and the destination written last (R41), the result
of the table is written by WriteResult (R43), and the stream goes on at PC + Len. Nothing traps: division never does. -/
def Sys2Proof.Claim.IntegerOperations : Prop :=
  ∀ i a b c f, aluTable i = some (a, b, c, f) → ∀ s s1 s2 s3 x y,
    Passes uEAN false [.rd b, .rd c, .wr a] s → readG b s = .ok (x, s1) → readG c s1 = .ok (y, s2) →
    writeResult a (f x y) s2 = .ok ((), s3) → exec i s = .next (goes s s3)

/-- R129 (unary forms). -/
def Sys2Proof.Claim.IntegerUnaryOperations : Prop :=
  ∀ i a b f, unaryTable i = some (a, b, f) → ∀ s s1 s2 x,
    Passes uEAN false [.rd b, .wr a] s → readG b s = .ok (x, s1) → writeResult a (f x) s1 = .ok ((), s2) →
    exec i s = .next (goes s s2)

/-- R130: LI, ADH and ADPC from the immediate alone, ADPC from the address of its own first word. -/
def Sys2Proof.Claim.ConstantOperations : Prop :=
  (∀ i un a f, constTable i = some (un, a, f) → ∀ s s1,
    Passes un false [.wr a] s → writeResult a (f (pcOf s)) s = .ok ((), s1) → exec i s = .next (goes s s1))

namespace Sys2Proof.Claim
/-- R131: the XP word, the function code in the base word, and the instruction, for fields a and b and the immediate bits m. -/
def pageTwo (a b : GReg) (m : BitVec 3) : List (Half × Nat × Instr) :=
  [(0xD020, 0, .andi a b (m.signExtend 27)), (0xD020, 1, .ori a b (m.signExtend 27)), (0xD020, 2, .xori a b (m.signExtend 27)),
   (0xD020, 3, .slli a b (m.setWidth 27)), (0xD020, 4, .srli a b (m.setWidth 27)), (0xD020, 5, .srai a b (m.setWidth 27)),
   (0xD020, 6, .slti a b (m.signExtend 27)), (0xD020, 7, .sltiu a b (m.signExtend 27)), (0xD022, 0, .muli a b (m.signExtend 27)),
   (0xD022, 1, .rori a b (m.setWidth 27))]
end Sys2Proof.Claim

/-- R131: each page 0x02 operation reads B and writes the table's result on every unit, under the words of the table, its immediate's
low 3 bits in field c; a shift or rotate immediate above 63 raises 0x002 subcode 0x05, with FADDR the base word's address (R48). -/
def Obligations.PageTwoImmediates : Prop :=
  (∀ i a b p f, immTable i = some (a, b, p, f) → p → ∀ s s1 s2 x,
    Passes uEAN false [.rd b, .wr a] s → readG b s = .ok (x, s1) → writeResult a (f x) s1 = .ok ((), s2) →
    exec i s = .next (goes s s2)) ∧
  (∀ (a b : GReg) (n : BitVec 27) (i : Instr), i ∈ [Instr.slli a b n, .srli a b n, .srai a b n, .rori a b n] → 63 < n.toNat →
    ∀ s, Passes uEAN false [.rd b, .wr a] s → exec i s = .next (onStop s (.trap ⟨2, 5⟩ (baseAddr s) none))) ∧
  (∀ (a b m : BitVec 3), ∀ r ∈ pageTwo (.g (a.setWidth 5)) (.g (b.setWidth 5)) m,
    decode [r.1, BitVec.ofNat 16 (0xE000 + a.toNat * 512 + b.toNat * 64 + m.toNat * 8 + r.2.1)] = r.2.2) ∧
  decode [0xD020, 0xE95B] = .slli (.g 4) (.g 5) 3 ∧ decode [0xF005, 0xD020, 0xE945] = .srai (.g 4) (.g 5) 40

/-- The integer and immediate instructions for every form of their operands: where the operands can be read and the
destination written, the instruction completes with the table's result as its one result, and nothing else differs: no
other register, no flag, no byte of memory; a special operand's queue or port moves as R40 says. -/
def Obligations.IntegerFrame : Prop :=
  (∀ i a b c f, aluTable i = some (a, b, c, f) → ∀ s s1 s2 s3 x y,
    Passes uEAN false [.rd b, .rd c, .wr a] s → readG b s = .ok (x, s1) → readG c s1 = .ok (y, s2) →
    writeResult a (f x y) s2 = .ok ((), s3) →
    ∃ t, exec i s = .next t ∧ ResultDone a (f x y) s t ∧ (threadOf t).fcsr = (threadOf s).fcsr) ∧
  (∀ i a b f, (unaryTable i = some (a, b, f) ∨ ∃ p, immTable i = some (a, b, p, f) ∧ p) → ∀ s s1 s2 x,
    Passes uEAN false [.rd b, .wr a] s → readG b s = .ok (x, s1) → writeResult a (f x) s1 = .ok ((), s2) →
    ∃ t, exec i s = .next t ∧ ResultDone a (f x) s t ∧ (threadOf t).fcsr = (threadOf s).fcsr) ∧
  (∀ i un a f, constTable i = some (un, a, f) → ∀ s s1,
    Passes un false [.wr a] s → writeResult a (f (pcOf s)) s = .ok ((), s1) →
    ∃ t, exec i s = .next t ∧ ResultDone a (f (pcOf s)) s t ∧ (threadOf t).fcsr = (threadOf s).fcsr)


/-! ### Local memory (R132 to R134) -/

namespace Sys2Proof.Claim
/-- R133's loads: a, b, the displacement in units of the size, the size, whether the value is sign-extended. -/
def loadTable : Instr → Option (GReg × GReg × Word × Nat × Bool)
  | .ldB a b i => some (a, b, i.signExtend 64, 1, true)
  | .ldH a b i => some (a, b, i.signExtend 64, 2, true)
  | .ldW a b i => some (a, b, i.signExtend 64, 4, true)
  | .ldD a b i => some (a, b, i.signExtend 64, 8, true)
  | .lduB a b i => some (a, b, i.signExtend 64, 1, false)
  | .lduH a b i => some (a, b, i.signExtend 64, 2, false)
  | .lduW a b i => some (a, b, i.signExtend 64, 4, false)
  | _ => none
/-- R133's stores: a (the data), b, the displacement in units of the size, the size. -/
def storeTable : Instr → Option (GReg × GReg × Word × Nat)
  | .stB a b i => some (a, b, i.signExtend 64, 1)
  | .stH a b i => some (a, b, i.signExtend 64, 2)
  | .stW a b i => some (a, b, i.signExtend 64, 4)
  | .stD a b i => some (a, b, i.signExtend 64, 8)
  | _ => none
/-- R134's atomics on one operand register: a, b, c, the size and the new value from the old one and the operand, both of
that size. -/
def amoTable : Instr → Option (GReg × GReg × GReg × Nat × (Nat → Nat → Nat))
  | .amoaddW a b c => some (a, b, c, 4, fun o v => (o + v) % 2 ^ 32)
  | .amoaddD a b c => some (a, b, c, 8, fun o v => (o + v) % 2 ^ 64)
  | .amoswapW a b c => some (a, b, c, 4, fun _ v => v)
  | .amoswapD a b c => some (a, b, c, 8, fun _ v => v)
  | .amoandD a b c => some (a, b, c, 8, fun o v => o &&& v)
  | .amoorD a b c => some (a, b, c, 8, fun o v => o ||| v)
  | .amomaxD a b c => some (a, b, c, 8, fun o v => if (BitVec.ofNat 64 o).toInt < (BitVec.ofNat 64 v).toInt then v else o)
  | .amominD a b c => some (a, b, c, 8, fun o v => if (BitVec.ofNat 64 v).toInt < (BitVec.ofNat 64 o).toInt then v else o)
  | _ => none
end Sys2Proof.Claim

namespace Sys2Proof.Claim
/-- None of the bytes is of a word that a work query answered (R395). -/
def NoAnswer (s : State) (y n : Nat) : Prop := ∀ a ∈ (here s).answers, overlap a (a + 8) y (y + n) = false
/-- Own local memory may be read for `n` bytes at place `y` of near address `A`: no copy writes them (R121), and no store of the body
to them is held in the anchor buffer (R101). -/
def OwnLoad (s : State) (A : Word) (n y : Nat) : Prop :=
  OwnPlace s A n y ∧ y % n = 0 ∧ MayRead s y n ∧ scoreW (here s) y (y + n) = false ∧ bufferedAt s s.cur.core y n = false
/-- No store that waits at a unit of the core meets the ranges: a scoreboard entry of them lets no store take effect (R121, R214). -/
def NoneWaits (s : State) (l : List (Nat × Nat)) : Prop :=
  ∀ u, ∀ e ∈ (threadAt (here s) u).sbuf, ∀ r ∈ l, entryMeets r.1 (r.2 - r.1) e = false
/-- So it may, without poison, and none of the bytes waits in the unit's store buffer or was read ahead; a word that a work query
answered finds nothing read ahead. -/
def OwnRead (s : State) (A : Word) (n y : Nat) : Prop :=
  OwnLoad s A n y ∧ poisonIn (here s) y n = none ∧
    (∀ e ∈ (threadOf s).sbuf ++ (threadOf s).early, entryMeets y n e = false) ∧ (NoAnswer s y n ∨ (threadOf s).early = [])
/-- The machine once single-bit errors in the `n` bytes that the unit reads at `y` are corrected and counted (R218). -/
abbrev readDone (s : State) (y n : Nat) : State := readAt s s.cur.core y n
end Sys2Proof.Claim

/-- R133 (own local memory): the bytes at B + disp, little-endian, extended, are the one result; nothing else differs, but for
the count of errors that the read corrects (R218). -/
def Sys2Proof.Claim.LocalLoads : Prop :=
  ∀ i a b d n sg, loadTable i = some (a, b, d, n, sg) → ∀ s s1 s2 x y,
    Passes uEAN false [.rd b, .wr a] s → readG b s = .ok (x, s1) → OwnRead s1 (x + d * BitVec.ofNat 64 n) n y →
    writeResult a (extended n sg (leValue (here s).mem y n)) (readDone s1 y n) = .ok ((), s2) →
    exec i s = .next (goes s s2) ∧ ResultDone a (extended n sg (leValue (here s).mem y n)) (readDone s y n) (goes s s2) ∧
      (threadOf (goes s s2)).fcsr = (threadOf s).fcsr

/-- R133 (own local memory): the base is read before the data; the `n` bytes at B + disp become those of the data, every
other byte stays, poison goes from words written whole (R218), no register or flag changes. Where no speculative far task
is aborted (R87), nothing else of the machine differs. While the body's anchor buffer holds an earlier store to one of the bytes, the
store stalls (R101). -/
def Sys2Proof.Claim.LocalStores : Prop :=
  ∀ i a b d n, storeTable i = some (a, b, d, n) → ∀ s s1 s2 x v y,
    Passes uEAN false [.rd b, .rd a] s → readG b s = .ok (x, s1) → readG a s1 = .ok (v, s2) →
    OwnPlace s2 (x + d * BitVec.ofNat 64 n) n y → y % n = 0 → MayWrite s2 y n →
    (bufferedAt s2 s.cur.core y n = true → exec i s = .next (onStop s (.stall false))) ∧
    (bufferedAt s2 s.cur.core y n = false → scoreRW (here s2) y (y + n) = false →
      ∃ t, exec i s = .next t ∧ Stored y n v.toNat s t ∧ PoisonKept y n s t ∧ StoreRegs s t ∧
        (threadOf t).pc = pcOf s + BitVec.ofNat 64 (lenOf s) ∧ (AbortsNone s2 y n → StoreFrame s t))

/-- R262, R101: a store may wait in its stream's buffer, with memory unchanged, and takes effect later, the oldest first. A load
of bytes that wait lets the stream's stores take effect first; a load of other bytes may have read them ahead, which no load does
past one that waits on a scoreboard entry or on another core, or reads a word that a work query answered (R294, R395). An entry that the
scoreboard takes lets the stores that it would hold take effect first (R121, R214). The model's choice (log 4): an instruction that may
not pass waiting stores, and any of a far body at its home, finds its stream's stores in effect, and one that keeps nothing read ahead
forgets it. -/
def Sys2Proof.Claim.WaitingStores : Prop :=
  (∀ i a b d n, storeTable i = some (a, b, d, n) → ∀ s s1 s2 x v y,
    Passes uEAN false [.rd b, .rd a] s → readG b s = .ok (x, s1) → readG a s1 = .ok (v, s2) →
    OwnPlace s2 (x + d * BitVec.ofNat 64 n) n y → y % n = 0 → MayWrite s2 y n → bufferedAt s2 s.cur.core y n = false →
    scoreRW (here s2) y (y + n) = false → ∃ t, perform true i s = .next t ∧ (threadOf t).sbuf = (threadOf s).sbuf ++ [(y, leBytes n v.toNat)] ∧ MemKept s t ∧
      (threadOf t).pc = pcOf s + BitVec.ofNat 64 (lenOf s)) ∧
  (∀ s a x bs r, (threadAt (coreAt s a.core) a.unit).sbuf = (x, bs) :: r →
    StoredAt a.core x bs.length (leNat bs) s (storeDrain s a) ∧ (threadAt (coreAt (storeDrain s a) a.core) a.unit).sbuf = r) ∧
  (∀ s c e, e ∈ (coreAt (scoreAdd s c e) c).score ∧ ∀ u, ∀ b ∈ (threadAt (coreAt (scoreAdd s c e) c) u).sbuf, ∀ r ∈ e.writes ++ e.reads,
    entryMeets r.1 (r.2 - r.1) b = false) ∧
  (∀ i s, perform false i s = exec i (readied i s) ∧ (passesStores i s.ir = true → atHome s = false → readied i s = s) ∧
    (passesStores i s.ir = false ∨ atHome s = true → (threadOf (readied i s)).sbuf = []) ∧ (keepsEarly i s.ir = false → (threadOf (readied i s)).early = [])) ∧
  (∀ s a x n, canRun s a = true → n ∈ [1, 2, 4, 8] → x % n = 0 → x < 0x200000 →
    OwnLoad { s with cur := a } (BitVec.ofNat 64 x) n x → poisonIn (coreAt s a.core) x n = none →
    (∀ e ∈ (threadAt (coreAt s a.core) a.unit).sbuf, entryMeets x n e = false) →
    ((threadAt (coreAt s a.core) a.unit).joins = true → readAhead s a x n = s) ∧
    ((threadAt (coreAt s a.core) a.unit).joins = false → readAhead s a x n = mapCore s a.core fun k => mapThread k a.unit fun t =>
      { t with early := t.early ++ [(x, peeks k.mem x n)] })) ∧
  (∀ s, (threadOf (onStop s .entry)).early = [] ∧ (threadOf (onStop s .entry)).joins = true) ∧
  (∀ s r l b, isViewLoad r = false → (threadOf (issueReq s r l b)).early = [] ∧ (threadOf (issueReq s r l b)).joins = true) ∧
  (∀ i a b d n sg, loadTable i = some (a, b, d, n, sg) → ∀ s s1 x y, Passes uEAN false [.rd b, .wr a] s → readG b s = .ok (x, s1) →
    OwnLoad s1 (x + d * BitVec.ofNat 64 n) n y →
    (∀ s2 s3, (∃ e ∈ (threadOf s1).sbuf, entryMeets y n e = true) → s2 = drainStores s1 s.cur → poisonIn (here s2) y n = none →
      (∀ e ∈ (threadOf s2).early, entryMeets y n e = false) → (NoAnswer s1 y n ∨ (threadOf s2).early = []) →
      writeResult a (extended n sg (leValue (here s2).mem y n)) (readDone s2 y n) = .ok ((), s3) → exec i s = .next (goes s s3)) ∧
    (∀ bs r l s2 s3, (∀ e ∈ (threadOf s1).sbuf, entryMeets y n e = false) → poisonIn (here s1) y n = none →
      (threadOf s1).early = (y, bs) :: r → bs.length = n → (NoAnswer s1 y n ∧ l = r ∨ ¬NoAnswer s1 y n ∧ l = []) →
      s2 = mapCore s1 s.cur.core (fun k => mapThread k s.cur.unit fun t => { t with early := l }) →
      writeResult a (extended n sg (leNat bs)) (readDone s2 y n) = .ok ((), s3) → exec i s = .next (goes s s3)))

/-- R134 (own local memory): read, new value stored, the old one sign-extended as the one result, in one step; while the body is
speculative, the instruction stalls (R86). -/
def Obligations.LocalAtomics : Prop :=
  (∀ i a b c n f, amoTable i = some (a, b, c, n, f) → ∀ s s1 s2 s3 x v y,
    Passes uEA false [.rd b, .rd c, .wr a] s → readG b s = .ok (x, s1) → readG c s1 = .ok (v, s2) →
    OwnRead s2 x n y → MayWrite s2 y n → isSpec s2 = false → scoreRW (here s2) y (y + n) = false →
    writeResult a (extended n true (leValue (here s).mem y n))
      (writeNat (readDone s2 y n) s.cur.core y n (f (leValue (here s).mem y n) (v.toNat % 2 ^ (8 * n))) (writerOf s2)) = .ok ((), s3) →
    exec i s = .next (goes s s3) ∧
      Stored y n (f (leValue (here s).mem y n) (v.toNat % 2 ^ (8 * n))) s (goes s s3) ∧
      (AbortsNone s2 y n → StoreFrame (readDone s y n) (goes s s3) ∧ RegsKept a s (goes s s3) ∧
        (threadOf (goes s s3)).fcsr = (threadOf s).fcsr)) ∧
  (∀ a b c s s1 s2 s3 x v w y,
    Passes uEA false [.rd b, .pair c, .wr a] s → readG b s = .ok (x, s1) → readPair c s1 = .ok ((v, w), s2) →
    OwnRead s2 x 8 y → MayWrite s2 y 8 → isSpec s2 = false → scoreRW (here s2) y (y + 8) = false →
    writeResult a (BitVec.ofNat 64 (leValue (here s).mem y 8))
      (writeNat (readDone s2 y 8) s.cur.core y 8 (if leValue (here s).mem y 8 = v.toNat then w.toNat else leValue (here s).mem y 8)
        (writerOf s2)) = .ok ((), s3) →
    exec (.amocasD a b c) s = .next (goes s s3) ∧
      Stored y 8 (if leValue (here s).mem y 8 = v.toNat then w.toNat else leValue (here s).mem y 8) s (goes s s3) ∧
      (AbortsNone s2 y 8 → StoreFrame (readDone s y 8) (goes s s3) ∧ RegsKept a s (goes s s3) ∧
        (threadOf (goes s s3)).fcsr = (threadOf s).fcsr)) ∧
  (∀ i a b c n f, amoTable i = some (a, b, c, n, f) → ∀ s s1 s2 x v y,
    Passes uEA false [.rd b, .rd c, .wr a] s → readG b s = .ok (x, s1) → readG c s1 = .ok (v, s2) →
    OwnPlace s2 x n y → y % n = 0 → MayRead s2 y n → MayWrite s2 y n → isSpec s2 = true →
    exec i s = .next (onStop s (.stall false))) ∧
  (∀ a b c s s1 s2 x v w y,
    Passes uEA false [.rd b, .pair c, .wr a] s → readG b s = .ok (x, s1) → readPair c s1 = .ok ((v, w), s2) →
    OwnPlace s2 x 8 y → y % 8 = 0 → MayRead s2 y 8 → MayWrite s2 y 8 → isSpec s2 = true →
    exec (.amocasD a b c) s = .next (onStop s (.stall false)))

namespace Sys2Proof.Claim
/-- The shared queues and ports that the operands of an instruction name (R41). -/
abbrev claimsOf (us : List Use) : List Nat := us.filterMap useShared
end Sys2Proof.Claim

/-- R293, R291: a load of another member's memory asks that member once, stalls until it is answered, and then gives the answer
as its result; a store is one posted operation (R141) whose message goes to the member, which a speculative body holds while its
outgoing buffer has room (R86). -/
def Obligations.WindowAccesses : Prop :=
  (∀ i a b d n sg, loadTable i = some (a, b, d, n, sg) → ∀ s s1 x e y,
    Passes uEAN false [.rd b, .wr a] s → readG b s = .ok (x, s1) →
    WindowPlace s1 (x + d * BitVec.ofNat 64 n) e y → y % n = 0 → windowPending s1 e y = false →
    bufferedAt s1 e y n = false →
    (request s1 (.load e y n) = none →
      exec i s = .next (issueReq s (.load e y n) (claimsOf [.rd b, .wr a]) (threadOf s1).rcd)) ∧
    (∀ p, request s1 (.load e y n) = some p → p.ans = none → exec i s = .next (onStop s (.stall false))) ∧
    (∀ p v s2, request s1 (.load e y n) = some p → p.ans = some (.value v) →
      writeResult a (extended n sg v.toNat) s1 = .ok ((), s2) → exec i s = .next (goes s s2))) ∧
  (∀ i a b d n, storeTable i = some (a, b, d, n) → ∀ s s1 s2 x v e y,
    Passes uEAN false [.rd b, .rd a] s → readG b s = .ok (x, s1) → readG a s1 = .ok (v, s2) →
    WindowPlace s2 (x + d * BitVec.ofNat 64 n) e y → y % n = 0 → isSpec s2 = false → postedFull s2 = false →
    ∃ t m p, exec i s = .next t ∧ t.net = s2.net ++ [m] ∧ m.dst = e ∧ m.cls = .cluster ∧
      m.load = .winStore [(y, leBytes n v.toNat)] ∧
      (slotAt (here t) (slotNo s.cur.unit)).posted = (slotAt (here s) (slotNo s.cur.unit)).posted ++ [p] ∧
      p.scope = .window ∧ p.pc = pcOf s ∧ p.addr = x + d * BitVec.ofNat 64 n ∧ p.failed = none ∧
      (threadOf t).st = (threadOf s).st + 1 ∧ (threadOf t).pc = pcOf s + BitVec.ofNat 64 (lenOf s)) ∧
  (∀ i a b d n, storeTable i = some (a, b, d, n) → ∀ s s1 s2 x v e y k,
    Passes uEAN false [.rd b, .rd a] s → readG b s = .ok (x, s1) → readG a s1 = .ok (v, s2) →
    WindowPlace s2 (x + d * BitVec.ofNat 64 n) e y → y % n = 0 → isSpec s2 = true → (slotOf s2).task = some k → k.obuf.length < 16 →
    ∃ t, exec i s = .next t ∧ t.net = s2.net ∧ (slotOf t).task = some { k with obuf := k.obuf ++
      [.winStore (unitSide s.cur.unit) (pcOf s) (x + d * BitVec.ofNat 64 n) [(e, [(y, leBytes n v.toNat)])]] })

/-- R116: the checks of a load or store of own local memory in their order, each a precise trap with FADDR the address:
outside near memory 0x060, alignment 0x065, then per page SUP, or the home-queue region in U mode (R69), 0x066, R 0x061, W 0x062. -/
def Sys2Proof.Claim.NearAccessTraps : Prop :=
  ∀ s A n acc, n ∈ [1, 2, 4, 8] → acc ∈ [aRead, aWrite] →
    (resolveNear s.cur.core (isIbex s.cur.unit) A = .none ↔
      0x200000 ≤ A.toNat ∧ (isIbex s.cur.unit = true ∨ A.toNat < 0x40000000 ∨ 0x42000000 ≤ A.toNat)) ∧
    (resolveNear s.cur.core (isIbex s.cur.unit) A = .none → reachM A n acc s = .error (.trap (why 0x060 0) A none)) ∧
    (∀ y, OwnPlace s A n y →
      (y % n ≠ 0 → reachM A n acc s = .error (.trap (why 0x065 0) A none)) ∧
      (y % n = 0 → userMode s = true → ¬userPage s y →
        reachM A n acc s = .error (.trap (why 0x066 0) A none)) ∧
      (y % n = 0 → (userMode s = true → userPage s y) →
        (acc = aRead → (attrOf (here s) (y / 4096)).getLsbD 0 = false → reachM A n acc s = .error (.trap (why 0x061 0) A none)) ∧
        (acc = aWrite → (attrOf (here s) (y / 4096)).getLsbD 1 = false → reachM A n acc s = .error (.trap (why 0x062 0) A none))))

/-- R133, R273: an access that a check refuses traps before anything of the instruction happens. -/
def Sys2Proof.Claim.LoadStoreTraps : Prop :=
  (∀ i a b d n sg, loadTable i = some (a, b, d, n, sg) → ∀ s s1 x w A, Passes uEAN false [.rd b, .wr a] s →
    readG b s = .ok (x, s1) → reachM (x + d * BitVec.ofNat 64 n) n aRead s1 = .error (.trap w A none) →
    exec i s = .next (onStop s (.trap w A none))) ∧
  (∀ i a b d n, storeTable i = some (a, b, d, n) → ∀ s s1 s2 x v w A, Passes uEAN false [.rd b, .rd a] s →
    readG b s = .ok (x, s1) → readG a s1 = .ok (v, s2) → reachM (x + d * BitVec.ofNat 64 n) n aWrite s2 = .error (.trap w A none) →
    exec i s = .next (onStop s (.trap w A none)))


/-! ### Control flow, queues, counters (R146 to R156) -/

namespace Sys2Proof.Claim
/-- R146: a, b, the displacement and the condition on A and B. -/
def branchTable : Instr → Option (GReg × GReg × BitVec 15 × (Word → Word → Prop))
  | .brEq a b d => some (a, b, d, fun A B => A = B)
  | .brNe a b d => some (a, b, d, fun A B => A ≠ B)
  | .brLt a b d => some (a, b, d, fun A B => A.toInt < B.toInt)
  | .brGe a b d => some (a, b, d, fun A B => B.toInt ≤ A.toInt)
  | .brLtu a b d => some (a, b, d, fun A B => A.toNat < B.toNat)
  | .brGeu a b d => some (a, b, d, fun A B => B.toNat ≤ A.toNat)
  | _ => none
/-- The first halfword of PAD kind `k`, 0 to 5 (R149, R150): main opcode 36, the kind in bits 11 to 9. -/
def padWord (k : Nat) : Half := BitVec.ofNat 16 (36 * 1024 + k * 512)
/-- At byte `T` of own memory a landing pad of kind `k` stands on a page that may be executed (R149). -/
def PadAt (s : State) (T : Word) (k : Nat) : Prop :=
  T.toNat % 2 = 0 ∧ T.toNat < 0x200000 ∧ (attrOf (here s) (T.toNat / 4096)).getLsbD 2 = true ∧
    fetchHalf (here s) (threadOf s) T.toNat = padWord k
/-- The thread with g1 linked after a call: the registers that CMASK names dead, g4 and above only (R113), then g1 = PC + Len. -/
def called (s : State) (t : Thread) : Thread :=
  { t with g := t.g.set 1 (pcOf s + BitVec.ofNat 64 (lenOf s)),
           dead := (t.dead ||| (t.cmask &&& 0xFFFFFFF0)) &&& 0xFFFFFFFD }
/-- `s` with the moving thread changed. -/
def withThread (s : State) (f : Thread → Thread) : State := mapCore s s.cur.core fun k => mapThread k s.cur.unit f
/-- No register of the moving stream is the destination of an outstanding global load. -/
def NoLock (s : State) (n : BitVec 5) : Prop := ∀ x ∈ (threadOf s).gld, x.drop = false → x.dest ≠ .g n
/-- The codes that MOVQ and QLEVEL name (R153). -/
def queueCodes : List Nat := [2, 3, 4, 5, 6, 8, 9, 10, 11]
/-- The places of a queue as a source, first to come out first; of a port, its receive buffer. -/
def sourceOf (s : State) (c : Nat) : List Place :=
  if c = 2 then (slotOf s).lq
  else List.map Place.word (if c = 3 then (slotOf s).sq else if c = 4 then (slotOf s).bo else if c = 5 then (slotOf s).rt
    else if c = 6 then (here s).mb else (slotOf s).ports[Fin.ofNat 4 (c - 8)].recv)
/-- The places of a queue as a destination; of a port, its send buffer. -/
def sinkOf (s : State) (c : Nat) : List Place :=
  if c = 2 then (slotOf s).lq
  else List.map Place.word (if c = 3 then (slotOf s).sq else if c = 4 then (slotOf s).bo else if c = 5 then (slotOf s).rt
    else (slotOf s).ports[Fin.ofNat 4 (c - 8)].send.map (·.2.2))
/-- The capacities of R107; a port must be bound, and its words are held elsewhere while a far body is speculative. -/
def sinkRoom (s : State) (c : Nat) : Nat := (if c = 2 ∨ c = 3 then 16 else 8) - (sinkOf s c).length
def portReady (s : State) (c : Nat) : Prop :=
  8 ≤ c → (slotOf s).ports[Fin.ofNat 4 (c - 8)].cfg.getLsbD 31 = true ∧ isSpec s = false
end Sys2Proof.Claim

/-- R146, R147, R148: a branch reads b, then a, compares A with B, and goes to PC + 2·disp, or on at PC + Len; BR.POP
pops bo and goes where the word is not 0; J always goes. Nothing but the PC differs. -/
def Sys2Proof.Claim.Branches : Prop :=
  (∀ i a b d p, branchTable i = some (a, b, d, p) → ∀ s s1 s2 x y, Passes uEAN false [.rd b, .rd a] s →
    readG b s = .ok (y, s1) → readG a s1 = .ok (x, s2) →
    (p x y → exec i s = .next (jumps s s2 (pcOf s + d.signExtend 64 * 2))) ∧
    (¬p x y → exec i s = .next (goes s s2))) ∧
  (∀ d s s1 x, Passes uEA false [.rd (.sp 4)] s → readG (.sp 4) s = .ok (x, s1) →
    exec (.brPop d) s = .next (if x = 0 then goes s s1 else jumps s s1 (pcOf s + d.signExtend 64 * 2))) ∧
  (∀ d s, Passes uEAN false [] s → exec (.j d) s = .next (jumps s s (pcOf s + d.signExtend 64 * 2)))

/-- The frame of branches, J and the landing pads: with general-register operands only the PC of the moving stream
differs, and the stream's requests are done with. -/
def Sys2Proof.Claim.BranchFrame : Prop :=
  (∀ i a b d p s t, branchTable i = some (.g a, .g b, d, p) → Passes uEAN false [.rd (.g b), .rd (.g a)] s →
    exec i s = .next t → t = withThread s fun th =>
      { th with pc := pcOf t, pend := (threadOf t).pend, rcd := none, stallRt := false, stalled := false, joins := false }) ∧
  (∀ i s t, (∃ d, i = .j d) ∨ i ∈ [Instr.padJ, .padC, .padK, .padN, .padF, .padT] → Passes uEAN false [] s →
    exec i s = .next t → t = withThread s fun th =>
      { th with pc := pcOf t, pend := (threadOf t).pend, rcd := none, stallRt := false, stalled := false, joins := false })

/-- R150: a landing pad that the stream passes does nothing. -/
def Sys2Proof.Claim.LandingPads : Prop :=
  ∀ i ∈ [Instr.padJ, .padC, .padK, .padN, .padF, .padT], ∀ s, Passes uEAN false [] s → exec i s = .next (goes s s)

/-- R148, R149, R113: CALL and CALLR mark the registers of CMASK dead and link g1 = PC + Len; CALLR goes only to a PAD.C,
JR only to a PAD.J, RET to any even address and marks the registers of CMASK dead. -/
def Sys2Proof.Claim.CallsAndReturns : Prop :=
  (∀ d s, Passes uEA false [] s → NoLock s 1 →
    exec (.call d) s = .next (jumps s (withThread s (called s)) (pcOf s + d.signExtend 64 * 2))) ∧
  (∀ a s s1 T, Passes uEA false [.rd a] s → readG a s = .ok (T, s1) → PadAt s1 T 1 → NoLock s 1 →
    exec (.callr a) s = .next (jumps s (withThread s1 (called s)) T)) ∧
  (∀ a s s1 T, Passes uEA false [.rd a] s → readG a s = .ok (T, s1) → PadAt s1 T 0 → exec (.jr a) s = .next (jumps s s1 T)) ∧
  (∀ a s s1 T, Passes uEA false [.rd a] s → readG a s = .ok (T, s1) → T.toNat % 2 = 0 →
    exec (.ret a) s = .next (jumps s (withThread s1 fun t => { t with dead := t.dead ||| (t.cmask &&& 0xFFFFFFF0) }) T))

/-- R149: what JR and CALLR refuse, in its order: an odd target 0x041, a target outside own memory or on a page without
X 0x064, which FPC names too, each with the target in FADDR, and a halfword that is not the pad 0x040 with the pad's kind as
subcode. -/
def Sys2Proof.Claim.LandingPadTraps : Prop :=
  ∀ i a k, ((i = Instr.jr a ∧ k = 0) ∨ (i = Instr.callr a ∧ k = 1)) → ∀ s s1 T, Passes uEA false [.rd a] s →
    readG a s = .ok (T, s1) →
    (T.toNat % 2 = 1 → exec i s = .next (onStop s (.trap (why 0x041 0) T none))) ∧
    (T.toNat % 2 = 0 → (0x200000 ≤ T.toNat ∨ (attrOf (here s1) (T.toNat / 4096)).getLsbD 2 = false) →
      exec i s = .next (onStop s (.trap (why 0x064 0) T (some T)))) ∧
    (T.toNat % 2 = 0 → T.toNat < 0x200000 → (attrOf (here s1) (T.toNat / 4096)).getLsbD 2 = true →
      fetchHalf (here s1) (threadOf s1) T.toNat ≠ padWord k → exec i s = .next (onStop s (.trap (why 0x040 k) T none)))

/-- R151, R152: AGO starts an idle access stream at its target with g3 to g7 and their dead state, every other register
of it dead but g0, and bo empty with no producer; AEND ends it once its loads are done and no posted entry of it failed. -/
def Sys2Proof.Claim.AccessStream : Prop :=
  (∀ b i s s1 T, Passes uE false [.rd b] s → s.cur.unit = .stream i .exec → (slotOf s).st ≠ .trapped →
    (threadAt (here s) (.stream i .acc)).running = false → readG b s = .ok (T, s1) → PadAt s1 T 0 →
    ∃ t, exec (.ago b) s = .next t ∧ (slotAt (here t) i).bo = [] ∧ (slotAt (here t) i).boProd = none ∧
      (threadAt (here t) (.stream i .acc)).running = true ∧ (threadAt (here t) (.stream i .acc)).pc = T ∧
      (∀ n : BitVec 5, 3 ≤ n.toNat → n.toNat ≤ 7 →
        regVal (threadAt (here t) (.stream i .acc)) n = regVal (threadOf s) n ∧
        (threadAt (here t) (.stream i .acc)).dead.getLsbD n.toNat = (threadOf s).dead.getLsbD n.toNat) ∧
      (∀ n : BitVec 5, 0 < n.toNat → n.toNat < 3 ∨ 7 < n.toNat → (threadAt (here t) (.stream i .acc)).dead.getLsbD n.toNat = true) ∧
      (threadOf t).pc = pcOf s + BitVec.ofNat 64 (lenOf s) ∧ MemKept s t) ∧
  (∀ s, Passes uA false [] s → (threadOf s).ld = 0 → (∀ p ∈ (slotOf s).posted, p.side = .acc → p.failed = none) →
    exec .aend s = .next (goes s (withThread s fun t => { t with running := false })))

/-- R153, R154: MOVQ moves n + 1 words from one queue to another in their order, where the source holds them, the destination
has room and no stalled instruction of another stream has a claim on either (R41); it waits for the stores of its stream that have
not taken effect (R263); the mailbox as destination is 0x002 subcode 0x02 (R40, R46); it raises 0x002 subcode 0x05 for one queue in
both fields and for a field that names none; QLEVEL counts the words present without popping, and raises the same for anything that
is no queue. The model's choice (log 16), where R47 gives no order within check 8: that subcode 0x05 comes before the operands'
0x03. -/
def Sys2Proof.Claim.QueueMoves : Prop :=
  (∀ s n (a b : BitVec 5) (ws : List Word) rest, Passes uEA false [.rd (.sp b), .wr (.sp a)] s → a ≠ b →
    a.toNat ∈ queueCodes → a ≠ 6 → b.toNat ∈ queueCodes → ws.length = n.toNat + 1 →
    sourceOf s b.toNat = ws.map Place.word ++ rest → ws.length ≤ sinkRoom s a.toNat → portReady s a.toNat →
    claimed s a.toNat = false → claimed s b.toNat = false → (threadOf s).sbuf = [] →
    ∃ t, exec (.movq (.sp a) (.sp b) n) s = .next t ∧ sourceOf t b.toNat = rest ∧
      sinkOf t a.toNat = sinkOf s a.toNat ++ ws.map Place.word ∧ (threadOf t).pc = pcOf s + BitVec.ofNat 64 (lenOf s) ∧
      (∀ r, regVal (threadOf t) r = regVal (threadOf s) r) ∧ (threadOf t).l0 = (threadOf s).l0 ∧
      (threadOf t).l1 = (threadOf s).l1 ∧ MemKept s t ∧ OnlyHere s t) ∧
  (∀ s n (a b : BitVec 5) (w : Word) rest, Passes uEA false [.rd (.sp b), .wr (.sp a)] s → a ≠ b → a.toNat ∈ queueCodes →
    b.toNat ∈ queueCodes → sourceOf s b.toNat = .word w :: rest → claimed s b.toNat = false → (threadOf s).sbuf ≠ [] →
    exec (.movq (.sp a) (.sp b) n) s = .next (onStop s (.stall false))) ∧
  decode [0xD100, 0xD40C, 0xEC82] = .decodeTrap 2 2 2 ∧
  (∀ s a b n, Passes uEA false [.name b, .name a] s → (a = b ∨ queueCode a = none ∨ queueCode b = none) →
    exec (.movq a b n) s = .next (onStop s (.trap (why 0x002 5) (baseAddr s) none))) ∧
  (∀ s s1 a (c : BitVec 5), Passes uEA false [.name (.sp c), .wr a] s → c.toNat ∈ queueCodes →
    writeResult a (BitVec.ofNat 64 (queueWords (here s) (slotOf s) c.toNat).length) s = .ok ((), s1) →
    exec (.qlevel a (.sp c)) s = .next (goes s s1)) ∧
  (∀ s a b, Passes uEA false [.name b, .name a] s → (∀ c : BitVec 5, c.toNat ∈ queueCodes → b ≠ .sp c) →
    exec (.qlevel a b) s = .next (onStop s (.trap (why 0x002 5) (baseAddr s) none)))

/-- R155, R156: WAIT goes on once each counter of the stream is within its limit, a field of 7 asking nothing, and while
one is not the stream stalls, an Ibex unit testing bk alone (R110); a limit on st other than 7 reports a failed posted entry of the stream first (R142). -/
def Sys2Proof.Claim.WaitCounters : Prop :=
  (∀ s ld st bk mx, Passes uEAN false [] s → isIbex s.cur.unit = false →
    (st = 7 ∨ ∀ p ∈ (slotOf s).posted, p.side = unitSide s.cur.unit → p.failed = none) →
    ((∀ q ∈ [(ld, (threadOf s).ld), (st, (threadOf s).st), (bk, (threadOf s).bk), (mx, (threadOf s).mx)],
        q.1 = 7 ∨ q.2 ≤ q.1.toNat) → exec (.wait ld st bk mx) s = .next (goes s s)) ∧
    ((∃ q ∈ [(ld, (threadOf s).ld), (st, (threadOf s).st), (bk, (threadOf s).bk), (mx, (threadOf s).mx)],
        q.1 ≠ 7 ∧ q.1.toNat < q.2) → exec (.wait ld st bk mx) s = .next (onStop s (.stall false)))) ∧
  (∀ s ld st bk mx, Passes uEAN false [] s → isIbex s.cur.unit = true →
    (bk = 7 ∨ (threadOf s).bk ≤ bk.toNat → exec (.wait ld st bk mx) s = .next (goes s s)) ∧
    (bk ≠ 7 → bk.toNat < (threadOf s).bk → exec (.wait ld st bk mx) s = .next (onStop s (.stall false)))) ∧
  (∀ s ld st bk mx p w, Passes uEAN false [] s → isIbex s.cur.unit = false → st ≠ 7 → (slotOf s).st ≠ .trapped →
    (slotOf s).posted.find? (fun p => p.side == unitSide s.cur.unit && p.failed.isSome && !p.told) = some p → p.failed = some w →
    exec (.wait ld st bk mx) s = .next (onStop s (.deferred p.side ⟨w.cause, 0x40 ||| w.sub &&& 0x3F⟩ p.addr p.pc
      (wordsFound (here s) p.pc) (.posted p.seq))))


/-! ### Scalar floating point (R8 to R23, R144, R145) -/

namespace Sys2Proof.Claim
/-- The real number of a finite value. -/
noncomputable def realOf : FVal → Option ℝ
  | .num neg m e => some ((if neg then -1 else 1) * (m : ℝ) * (2 : ℝ) ^ e)
  | _ => none
/-- The real number of a code of a format. -/
noncomputable def codeReal (f : Fmt) (c : Nat) : Option ℝ := realOf (decodeF f c)
/-- `y`, the value of code `r`, is the largest of the format's values that do not exceed `x`. -/
def RoundsDown (f : Fmt) (x : ℝ) (r : Nat) : Prop :=
  ∃ y, codeReal f r = some y ∧ y ≤ x ∧ ∀ c < 2 ^ fmtWidth f, ∀ z, codeReal f c = some z → z ≤ x → z ≤ y
def RoundsUp (f : Fmt) (x : ℝ) (r : Nat) : Prop :=
  ∃ y, codeReal f r = some y ∧ x ≤ y ∧ ∀ c < 2 ^ fmtWidth f, ∀ z, codeReal f c = some z → x ≤ z → y ≤ z
/-- No value of the format is nearer to `x` than that of `r`; of two equally near the one with an even code. -/
def RoundsNearest (f : Fmt) (x : ℝ) (r : Nat) : Prop :=
  ∃ y, codeReal f r = some y ∧ ∀ c < 2 ^ fmtWidth f, ∀ z, codeReal f c = some z →
    |y - x| ≤ |z - x| ∧ (|y - x| = |z - x| → z ≠ y → r % 2 = 0)
/-- RoundToFormat (R14, R29) of a real number that lies within the format's finite values. -/
def RoundsTo (f : Fmt) (rm : Rm) (x : ℝ) (r : Nat) : Prop :=
  match rm with
  | .rne => RoundsNearest f x r
  | .rz => if 0 ≤ x then RoundsDown f x r else RoundsUp f x r
  | .ru => RoundsUp f x r
  | .rd => RoundsDown f x r
/-- `x` lies within the format's finite values. -/
def InRange (f : Fmt) (x : ℝ) : Prop := ∃ y, codeReal f (maxCode f) = some y ∧ |x| ≤ y
/-- A result for a real number other than 0 within range: it is rounded, I is raised exactly where it is not exact, and
neither V nor Z nor O is (R15). -/
def Rounded (f : Fmt) (rm : Rm) (x : ℝ) (r : Fr Nat) : Prop :=
  RoundsTo f rm x r.v ∧ (r.f.getLsbD 0 = true ↔ codeReal f r.v ≠ some x) ∧
    r.f.getLsbD 4 = false ∧ r.f.getLsbD 3 = false ∧ r.f.getLsbD 2 = false
/-- FP32 operands are the low 32 bits of their registers (R144). -/
def low32 (x : Word) : Nat := x.toNat % 2 ^ 32
/-- A comparison of R144 by a relation of the values; `any`: every NaN raises V. -/
def comparison (any : Bool) (p : FVal → FVal → Bool) (x y : Nat) : Fr Nat :=
  if isNan (decodeF .fp32 x) ∨ isNan (decodeF .fp32 y) then
    ⟨0, if any ∨ isSnan (decodeF .fp32 x) ∨ isSnan (decodeF .fp32 y) then 16 else 0⟩
  else ⟨if p (decodeF .fp32 x) (decodeF .fp32 y) then 1 else 0, 0⟩
/-- R144's forms with two operands: a, b, c, and the result with its flags from the rounding mode, B and C. -/
def fpTable : Instr → Option (GReg × GReg × GReg × (Rm → Nat → Nat → Fr Nat))
  | .fadd a b c => some (a, b, c, fun rm B C => fAdd .fp32 rm B C)
  | .fsub a b c => some (a, b, c, fun rm B C => fSub .fp32 rm B C)
  | .fmul a b c => some (a, b, c, fun rm B C => fMul .fp32 rm B C)
  | .fdiv a b c => some (a, b, c, fun rm B C => fDiv .fp32 rm B C)
  | .fmin a b c => some (a, b, c, fun _ B C => fMin .fp32 B C)
  | .fmax a b c => some (a, b, c, fun _ B C => fMax .fp32 B C)
  | .feq a b c => some (a, b, c, fun _ B C => comparison false eqV B C)
  | .flt a b c => some (a, b, c, fun _ B C => comparison true ltV B C)
  | .fle a b c => some (a, b, c, fun _ B C => comparison true (fun x y => ltV x y || eqV x y) B C)
  | _ => none
/-- R144's and R145's forms with one operand: a, b, and the result with its flags from the rounding mode and G[b]. -/
def fpUnaryTable : Instr → Option (GReg × GReg × (Rm → Word → Fr Nat))
  | .fsqrt a b => some (a, b, fun rm x => fSqrt .fp32 rm (low32 x))
  | .fneg a b => some (a, b, fun _ x => ⟨low32 x ^^^ 0x80000000, 0⟩)
  | .fabs a b => some (a, b, fun _ x => ⟨low32 x &&& 0x7FFFFFFF, 0⟩)
  | .fclass a b => some (a, b, fun _ x => ⟨fClass .fp32 (low32 x), 0⟩)
  | .fcvtWS a b => some (a, b, fun rm x => let r := toInt rm 32 true (decodeF .fp32 (low32 x)); ⟨(BitVec.ofInt 64 r.v).toNat, r.f⟩)
  | .fcvtLS a b => some (a, b, fun rm x => let r := toInt rm 64 true (decodeF .fp32 (low32 x)); ⟨(BitVec.ofInt 64 r.v).toNat, r.f⟩)
  | .fcvtWuS a b => some (a, b, fun rm x => let r := toInt rm 32 false (decodeF .fp32 (low32 x)); ⟨(BitVec.ofInt 64 r.v).toNat, r.f⟩)
  | .fcvtSW a b => some (a, b, fun rm x => ofInt .fp32 rm (x.setWidth 32).toInt)
  | .fcvtSL a b => some (a, b, fun rm x => ofInt .fp32 rm x.toInt)
  | .fcvtSWu a b => some (a, b, fun rm x => ofInt .fp32 rm (low32 x))
  | .fcvtBfS a b => some (a, b, fun rm x => cvtF .fp32 .bf16 rm (low32 x))
  | .fcvtSBf a b => some (a, b, fun rm x => cvtF .bf16 .fp32 rm (x.toNat % 2 ^ 16))
  | .fcvtHS a b => some (a, b, fun rm x => cvtF .fp32 .f16 rm (low32 x))
  | .fcvtSH a b => some (a, b, fun rm x => cvtF .f16 .fp32 rm (x.toNat % 2 ^ 16))
  | _ => none
/-- FCSR.FLAGS with the flags of a result ORed in (R14). -/
def flagged (s : State) (f : Flags) : State := withThread s fun t => { t with fcsr := t.fcsr ||| f.setWidth 32 }
/-- No flag of the result is enabled in FCSR.TEN, bits 12 to 8 (R14, R17). -/
def noneEnabled (s : State) (f : Flags) : Prop := ∀ i < 5, f.getLsbD i = true → (threadOf s).fcsr.getLsbD (8 + i) = false
/-- The first enabled flag in the order V, Z, O, U, I gives cause 0x160 + `i` (R17). -/
def firstEnabled (s : State) (f : Flags) (i : Nat) : Prop :=
  i < 5 ∧ f.getLsbD (4 - i) = true ∧ (threadOf s).fcsr.getLsbD (12 - i) = true ∧
    ∀ j < i, ¬(f.getLsbD (4 - j) = true ∧ (threadOf s).fcsr.getLsbD (12 - j) = true)
end Sys2Proof.Claim

/-- R144, R145 on the execute and access streams: the result of the table under FCSR.RM, written as the one result, and
its flags ORed into FCSR.FLAGS, where none of them is enabled; nothing else differs. FFMA reads field a last, as its addend. -/
def Sys2Proof.Claim.ScalarFloat : Prop :=
  (∀ i a b c f, fpTable i = some (a, b, c, f) → ∀ s s1 s2 s3 x y, Passes uEA false [.rd b, .rd c, .wr a] s →
    readG b s = .ok (x, s1) → readG c s1 = .ok (y, s2) →
    let r := f (rmOf (threadOf s).fcsr) (low32 x) (low32 y)
    noneEnabled s r.f → writeResult a (BitVec.ofNat 64 r.v) (flagged s2 r.f) = .ok ((), s3) →
    exec i s = .next (goes s s3) ∧ ResultDone a (BitVec.ofNat 64 r.v) s (goes s s3) ∧
      (threadOf (goes s s3)).fcsr = (threadOf s).fcsr ||| r.f.setWidth 32) ∧
  (∀ i a b f, fpUnaryTable i = some (a, b, f) → ∀ s s1 s2 x, Passes uEA false [.rd b, .wr a] s → readG b s = .ok (x, s1) →
    let r := f (rmOf (threadOf s).fcsr) x
    noneEnabled s r.f → writeResult a (BitVec.ofNat 64 r.v) (flagged s1 r.f) = .ok ((), s2) →
    exec i s = .next (goes s s2) ∧ ResultDone a (BitVec.ofNat 64 r.v) s (goes s s2) ∧
      (threadOf (goes s s2)).fcsr = (threadOf s).fcsr ||| r.f.setWidth 32) ∧
  (∀ a b c s s1 s2 s3 s4 x y z, Passes uEA false [.rd b, .rd c, .rd a, .wr a] s →
    readG b s = .ok (x, s1) → readG c s1 = .ok (y, s2) → readG a s2 = .ok (z, s3) →
    let r := fFma .fp32 (rmOf (threadOf s).fcsr) (low32 x) (low32 y) (low32 z)
    noneEnabled s r.f → writeResult a (BitVec.ofNat 64 r.v) (flagged s3 r.f) = .ok ((), s4) →
    exec (.ffma a b c) s = .next (goes s s4) ∧ ResultDone a (BitVec.ofNat 64 r.v) s (goes s s4) ∧
      (threadOf (goes s s4)).fcsr = (threadOf s).fcsr ||| r.f.setWidth 32)

/-- R17: an enabled flag traps precisely, first in the order V, Z, O, U, I, with every flag of the instruction as subcode
and FADDR 0; nothing of the instruction happens. -/
def Sys2Proof.Claim.FlagTraps : Prop :=
  ∀ i a b c f, fpTable i = some (a, b, c, f) → ∀ s s1 s2 x y n, Passes uEA false [.rd b, .rd c, .wr a] s →
    readG b s = .ok (x, s1) → readG c s1 = .ok (y, s2) →
    let r := f (rmOf (threadOf s).fcsr) (low32 x) (low32 y)
    firstEnabled s r.f n → exec i s = .next (onStop s (.trap (why (0x160 + n) r.f.toNat) 0 none))

/-- R29, R12, R15: FAdd, FSub, FMul and FFma form the exact result of finite operands and round it once, in every format and mode. -/
def Sys2Proof.Claim.SumsAndProductsRound : Prop :=
  ∀ f rm a b c x y z, codeReal f a = some x → codeReal f b = some y → codeReal f c = some z →
    (x + y ≠ 0 → InRange f (x + y) → Rounded f rm (x + y) (fAdd f rm a b)) ∧
    (x - y ≠ 0 → InRange f (x - y) → Rounded f rm (x - y) (fSub f rm a b)) ∧
    (x * y ≠ 0 → InRange f (x * y) → Rounded f rm (x * y) (fMul f rm a b)) ∧
    (x * y + z ≠ 0 → InRange f (x * y + z) → Rounded f rm (x * y + z) (fFma f rm a b c))

/-- R29, R15: FDiv and FSqrt on FP32 round the exact quotient and the exact square root. -/
def Sys2Proof.Claim.QuotientsAndRootsRound : Prop :=
  ∀ rm a b x y, codeReal .fp32 a = some x → codeReal .fp32 b = some y →
    (x ≠ 0 → y ≠ 0 → InRange .fp32 (x / y) → Rounded .fp32 rm (x / y) (fDiv .fp32 rm a b)) ∧
    (0 < x → Rounded .fp32 rm (Real.sqrt x) (fSqrt .fp32 rm a))

/-- R20, R21, R29: rounding a finite code's own value to its format gives the code back and raises no flag, for every format
and mode; FP32 comparisons are those of the values. -/
def Obligations.ExactValuesStay : Prop :=
  (∀ f rm c, c < 2 ^ fmtWidth f → (∃ x, codeReal f c = some x) → roundF f rm (decodeF f c) = ⟨c, 0⟩) ∧
  (∀ a b x y, realOf a = some x → realOf b = some y → (ltV a b = true ↔ x < y) ∧ (eqV a b = true ↔ x = y))


/-! ### Vector instructions (R159 to R178) -/

namespace Sys2Proof.Claim
/-- VTYPE of the slot with VL (R161), usable: VILL clear. -/
def vtOf (s : State) : VT := vtFields (slotOf s).vtype (slotOf s).vl.toNat
def VOk (s : State) : Prop := (slotOf s).vtype.getLsbD 63 = false
/-- The bit string of the group of `c` registers from v`n` on (R160). -/
def groupBits (x : Slot) (n c : Nat) : Nat := ((List.range c).map fun j => ((x.v.toList.getD (n + j) 0).toNat) * 2 ^ (512 * j)).sum
/-- Element i of width `w` of a group of `c` registers (R160). -/
def velem (s : State) (n : VReg) (c w i : Nat) : Nat := groupBits (slotOf s) n.toNat c / 2 ^ (w * i) % 2 ^ w
/-- Element i is active under the mask field `vm` (R162). -/
def activeIn (s : State) (vm : MReg) (i : Nat) : Prop := i < (vtOf s).vl ∧ (vm = 0 ∨ (maskOf (slotOf s) vm).getLsbD i = true)
/-- What element i of a destination of width `w` holds after it: `old` before, `r` its result (R162). -/
def Policy (s : State) (vm : MReg) (w old r i new : Nat) : Prop :=
  ((vtOf s).vl = 0 → new = old) ∧
  ((vtOf s).vl ≠ 0 →
    (activeIn s vm i → new = r % 2 ^ w) ∧
    (¬activeIn s vm i → i < (vtOf s).vl → new = if (vtOf s).ma then 2 ^ w - 1 else old) ∧
    (¬i < (vtOf s).vl → new = if (vtOf s).ta then 2 ^ w - 1 else old))
/-- The flags of all active elements together (R164). -/
def activeFlags (s : State) (vm : MReg) (r : Nat → Flags) : Flags :=
  ((List.range (vtOf s).vl).filter fun i => vm = 0 || (maskOf (slotOf s) vm).getLsbD i).foldr (fun i f => r i ||| f) 0
/-- What a vector instruction leaves unchanged: all of the machine but FCSR, the PC, the vector state named apart and a
special operand's queue or port. -/
def VecFrame (s t : State) : Prop :=
  OnlyHere s t ∧ CoreKept s t ∧ MemKept s t ∧ OtherThreads s t ∧
    (∀ j, unitSlot s.cur.unit ≠ some j → slotAt (here t) j = slotAt (here s) j) ∧ ThreadKept s t ∧
    (slotOf t).frames = (slotOf s).frames ∧ (slotOf t).fgen = (slotOf s).fgen ∧ (slotOf t).depth = (slotOf s).depth ∧
    (slotOf t).status = (slotOf s).status ∧ (slotOf t).posted = (slotOf s).posted ∧
    (threadOf t).pc = pcOf s + BitVec.ofNat 64 (lenOf s)
/-- No scalar result: the g registers, their dead state, l0 and l1 are as before. -/
def ScalarsKept (s t : State) : Prop :=
  (threadOf t).g = (threadOf s).g ∧ (threadOf t).dead = (threadOf s).dead ∧ (threadOf t).l0 = (threadOf s).l0 ∧
    (threadOf t).l1 = (threadOf s).l1
def MasksKept (s t : State) : Prop := (slotOf t).m = (slotOf s).m
def VTypeKept (s t : State) : Prop := (slotOf t).vtype = (slotOf s).vtype ∧ (slotOf t).vl = (slotOf s).vl
/-- Every vector register outside the group of `c` from `a` on is as before. -/
def VRegsKept (a : VReg) (c : Nat) (s t : State) : Prop :=
  ∀ n : Nat, n < 32 → n < a.toNat ∨ a.toNat + c ≤ n → (slotOf t).v.toList.getD n 0 = (slotOf s).v.toList.getD n 0
def FlagsSet (f : Flags) (s t : State) : Prop := (threadOf t).fcsr = (threadOf s).fcsr ||| f.setWidth 32
/-- Nothing but vector registers, the PC and a special operand's queue or port differs. -/
def OnlyVRegs (s t : State) : Prop :=
  MasksKept s t ∧ VTypeKept s t ∧ ScalarsKept s t ∧ FlagsSet 0 s t ∧ VecFrame s t
/-- A vector result: the destination's elements by R162, the flags of the active elements, nothing else. -/
def VecDone (a : VReg) (c w : Nat) (vm : MReg) (r : Nat → Fr Nat) (s t : State) : Prop :=
  (∀ i < 512 * c / w, Policy s vm w (velem s a c w i) (r i).v i (velem t a c w i)) ∧ VRegsKept a c s t ∧ MasksKept s t ∧
    VTypeKept s t ∧ ScalarsKept s t ∧ FlagsSet (activeFlags s vm fun i => (r i).f) s t ∧ VecFrame s t
/-- A mask result (R162): bit i by the policies of a 1-bit element; m0 discards it (R159). -/
def MaskDone (a : MReg) (vm : MReg) (r : Nat → Fr Bool) (s t : State) : Prop :=
  (a ≠ 0 → ∀ i < 512, Policy s vm 1 ((maskOf (slotOf s) a).getLsbD i).toNat ((r i).v).toNat i ((maskOf (slotOf t) a).getLsbD i).toNat) ∧
    (∀ b : MReg, b ≠ 0 → b ≠ a → maskOf (slotOf t) b = maskOf (slotOf s) b) ∧ (slotOf t).v = (slotOf s).v ∧
    VTypeKept s t ∧ ScalarsKept s t ∧ FlagsSet (activeFlags s vm fun i => (r i).f) s t ∧ VecFrame s t
/-- A group that starts at `a` ends by v31 (R42). -/
def Fits (a : VReg) (c : Nat) : Prop := a.toNat + c ≤ 32
/-- Two groups have no register in common (R163). -/
def Apart (a : VReg) (ca : Nat) (b : VReg) (cb : Nat) : Prop := a.toNat + ca ≤ b.toNat ∨ b.toNat + cb ≤ a.toNat
/-- The signed reading of an element, and the element of a number that wraps (R164). -/
def sval (n x : Nat) : Int := if x % 2 ^ n < 2 ^ (n - 1) then (x % 2 ^ n : Nat) else (x % 2 ^ n : Nat) - (2 ^ n : Nat)
def wrapTo (n : Nat) (z : Int) : Nat := (z % (2 ^ n : Nat)).toNat
/-- Saturation to the signed and to the unsigned range of n bits (R29). -/
def clampS (n : Nat) (z : Int) : Int := max (-(2 ^ (n - 1) : Nat)) (min z ((2 ^ (n - 1) : Nat) - 1))
def clampU (n : Nat) (z : Int) : Int := max 0 (min z ((2 ^ n : Nat) - 1))
/-- An integer result raises no flag. -/
def noFlag {α : Type} (x : α) : Fr α := ⟨x, 0⟩
/-- FFma with negated product, negated addend (R172). -/
def fmaSigned (np nc : Bool) (f : Fmt) (rm : Rm) (a b c : Nat) : Fr Nat :=
  withRound f rm (fmaV rm (if np then negV (decodeF f a) else decodeF f a) (decodeF f b) (if nc then negV (decodeF f c) else decodeF f c))
/-- Integer elements or FP elements, as VTYPE.FP says (R170). -/
def bySew (t : VT) (x : Fr Nat) (y : Nat) : Fr Nat := if t.fp then x else noFlag y
abbrev ElemOp := VT → Rm → Nat → Nat → Nat → Fr Nat
/-- The operations on two source vectors (R170 to R172): vA, vB, vC, the mask, whether VTYPE.FP must be set, and the result of
element B, C and the old D. -/
def vvTable : Instr → Option (VReg × VReg × VReg × MReg × Bool × ElemOp)
  | .vadd a b c m => some (a, b, c, m, false, fun t rm B C _ => bySew t (fAdd (vFmt t) rm B C) (wrapTo t.sew (B + C)))
  | .vsub a b c m => some (a, b, c, m, false, fun t rm B C _ => bySew t (fSub (vFmt t) rm B C) (wrapTo t.sew (B - C)))
  | .vmul a b c m => some (a, b, c, m, false, fun t rm B C _ => bySew t (fMul (vFmt t) rm B C) (wrapTo t.sew (B * C)))
  | .vmacc a b c m => some (a, b, c, m, false, fun t rm B C D => bySew t (fFma (vFmt t) rm B C D) (wrapTo t.sew (B * C + D)))
  | .vmin a b c m => some (a, b, c, m, false, fun t _ B C _ => bySew t (fMin (vFmt t) B C) (if sval t.sew B ≤ sval t.sew C then B else C))
  | .vmax a b c m => some (a, b, c, m, false, fun t _ B C _ => bySew t (fMax (vFmt t) B C) (if sval t.sew C ≤ sval t.sew B then B else C))
  | .vand a b c m => some (a, b, c, m, false, fun _ _ B C _ => noFlag (B &&& C))
  | .vor a b c m => some (a, b, c, m, false, fun _ _ B C _ => noFlag (B ||| C))
  | .vxor a b c m => some (a, b, c, m, false, fun _ _ B C _ => noFlag (B ^^^ C))
  | .vsll a b c m => some (a, b, c, m, false, fun t _ B C _ => noFlag (wrapTo t.sew (B * 2 ^ (C % t.sew) : Nat)))
  | .vsrl a b c m => some (a, b, c, m, false, fun t _ B C _ => noFlag (B / 2 ^ (C % t.sew)))
  | .vsra a b c m => some (a, b, c, m, false, fun t _ B C _ => noFlag (wrapTo t.sew (sval t.sew B / 2 ^ (C % t.sew))))
  | .vmulh a b c m => some (a, b, c, m, false, fun t _ B C _ => noFlag (wrapTo t.sew (sval t.sew B * sval t.sew C / 2 ^ t.sew)))
  | .vmulhu a b c m => some (a, b, c, m, false, fun t _ B C _ => noFlag (B * C / 2 ^ t.sew))
  | .vminu a b c m => some (a, b, c, m, false, fun _ _ B C _ => noFlag (min B C))
  | .vmaxu a b c m => some (a, b, c, m, false, fun _ _ B C _ => noFlag (max B C))
  | .vsadd a b c m => some (a, b, c, m, false, fun t _ B C _ => noFlag (wrapTo t.sew (clampS t.sew (sval t.sew B + sval t.sew C))))
  | .vsaddu a b c m => some (a, b, c, m, false, fun t _ B C _ => noFlag (wrapTo t.sew (clampU t.sew (B + C))))
  | .vssub a b c m => some (a, b, c, m, false, fun t _ B C _ => noFlag (wrapTo t.sew (clampS t.sew (sval t.sew B - sval t.sew C))))
  | .vssubu a b c m => some (a, b, c, m, false, fun t _ B C _ => noFlag (wrapTo t.sew (clampU t.sew (B - C))))
  | .vfdiv a b c m => some (a, b, c, m, true, fun t rm B C _ => fDiv (vFmt t) rm B C)
  | .vfnmacc a b c m => some (a, b, c, m, true, fun t rm B C D => fmaSigned true true (vFmt t) rm B C D)
  | .vfmsac a b c m => some (a, b, c, m, true, fun t rm B C D => fmaSigned false true (vFmt t) rm B C D)
  | _ => none
/-- The operations on a vector and a scalar (R171, R172). -/
def vxTable : Instr → Option (VReg × VReg × GReg × MReg × Bool × ElemOp)
  | .vaddVx a b c m => some (a, b, c, m, false, fun t _ B S _ => noFlag (wrapTo t.sew (B + S)))
  | .vsubVx a b c m => some (a, b, c, m, false, fun t _ B S _ => noFlag (wrapTo t.sew (B - S)))
  | .vmulVx a b c m => some (a, b, c, m, false, fun t _ B S _ => noFlag (wrapTo t.sew (B * S)))
  | .vandVx a b c m => some (a, b, c, m, false, fun _ _ B S _ => noFlag (B &&& S))
  | .vorVx a b c m => some (a, b, c, m, false, fun _ _ B S _ => noFlag (B ||| S))
  | .vxorVx a b c m => some (a, b, c, m, false, fun _ _ B S _ => noFlag (B ^^^ S))
  | .vsllVx a b c m => some (a, b, c, m, false, fun t _ B S _ => noFlag (wrapTo t.sew (B * 2 ^ (S % t.sew) : Nat)))
  | .vsrlVx a b c m => some (a, b, c, m, false, fun t _ B S _ => noFlag (B / 2 ^ (S % t.sew)))
  | .vfaddVf a b c m => some (a, b, c, m, true, fun t rm B S _ => fAdd (vFmt t) rm B S)
  | .vfsubVf a b c m => some (a, b, c, m, true, fun t rm B S _ => fSub (vFmt t) rm B S)
  | .vfmulVf a b c m => some (a, b, c, m, true, fun t rm B S _ => fMul (vFmt t) rm B S)
  | .vfmaccVf a b c m => some (a, b, c, m, true, fun t rm B S D => fFma (vFmt t) rm B S D)
  | .vfminVf a b c m => some (a, b, c, m, true, fun t _ B S _ => fMin (vFmt t) B S)
  | .vfmaxVf a b c m => some (a, b, c, m, true, fun t _ B S _ => fMax (vFmt t) B S)
  | _ => none
/-- A compare of FP elements: the relation, or no NaN being equal to anything; `any`: every NaN raises V (R172). -/
def fpCompare (any unequal : Bool) (p : FVal → FVal → Bool) (f : Fmt) (B C : Nat) : Fr Bool :=
  if isNan (decodeF f B) ∨ isNan (decodeF f C) then
    ⟨unequal, if any ∨ isSnan (decodeF f B) ∨ isSnan (decodeF f C) then 16 else 0⟩
  else ⟨p (decodeF f B) (decodeF f C), 0⟩
/-- The compares (R171, R172): mA, vB, vC, the mask, whether VTYPE.FP must be set, and the bit. -/
def cmpTable : Instr → Option (MReg × VReg × VReg × MReg × Bool × (VT → Nat → Nat → Fr Bool))
  | .vmseq a b c m => some (a, b, c, m, false, fun _ B C => noFlag (decide (B = C)))
  | .vmsne a b c m => some (a, b, c, m, false, fun _ B C => noFlag (decide (B ≠ C)))
  | .vmslt a b c m => some (a, b, c, m, false, fun t B C => noFlag (decide (sval t.sew B < sval t.sew C)))
  | .vmsltu a b c m => some (a, b, c, m, false, fun _ B C => noFlag (decide (B < C)))
  | .vmsle a b c m => some (a, b, c, m, false, fun t B C => noFlag (decide (sval t.sew B ≤ sval t.sew C)))
  | .vmsleu a b c m => some (a, b, c, m, false, fun _ B C => noFlag (decide (B ≤ C)))
  | .vmfeq a b c m => some (a, b, c, m, true, fun t B C => fpCompare false false eqV (vFmt t) B C)
  | .vmfne a b c m => some (a, b, c, m, true, fun t B C => fpCompare false true (fun x y => !eqV x y) (vFmt t) B C)
  | .vmflt a b c m => some (a, b, c, m, true, fun t B C => fpCompare true false ltV (vFmt t) B C)
  | .vmfle a b c m => some (a, b, c, m, true, fun t B C => fpCompare true false (fun x y => ltV x y || eqV x y) (vFmt t) B C)
  | _ => none
/-- The narrow formats of R177, with their widths. -/
def narrowTable (f : Lit3) : Option Fmt := [Fmt.e4m3, .e5m2, .e3m2, .e2m3, .e2m1][f.toNat]?
/-- The conversions of one vector (R172, R173, R177, R178): vA, vB, the mask, what VTYPE must be, the width and the group of
A and of B, and the result of element B. -/
def convTable (t : VT) : Instr → Option (VReg × VReg × MReg × Prop × (Nat × Nat) × (Nat × Nat) × (Rm → Nat → Fr Nat))
  | .vfsqrt a b m => some (a, b, m, t.fp = true, (t.sew, t.grp), (t.sew, t.grp), fun rm B => fSqrt (vFmt t) rm B)
  | .vfneg a b m => some (a, b, m, t.fp = true, (t.sew, t.grp), (t.sew, t.grp), fun _ B => noFlag (B ^^^ 2 ^ (t.sew - 1)))
  | .vfabs a b m => some (a, b, m, t.fp = true, (t.sew, t.grp), (t.sew, t.grp), fun _ B => noFlag (B % 2 ^ (t.sew - 1)))
  | .vfcvtXF a b m => some (a, b, m, t.fp = true, (t.sew, t.grp), (t.sew, t.grp), fun rm B =>
      let r := toInt rm t.sew true (decodeF (vFmt t) B); ⟨wrapTo t.sew r.v, r.f⟩)
  | .vfcvtFX a b m => some (a, b, m, t.fp = true, (t.sew, t.grp), (t.sew, t.grp), fun rm B => ofInt (vFmt t) rm (sval t.sew B))
  | .vfwcvt a b m => some (a, b, m, t.fp = true ∧ t.fpk ≠ 0 ∧ t.grp ≤ 4, (32, 2 * t.grp), (16, t.grp), fun rm B => cvtF (vFmt t) .fp32 rm B)
  | .vfncvt a b m => some (a, b, m, t.fp = true ∧ t.fpk ≠ 0 ∧ t.grp ≤ 4, (16, t.grp), (32, 2 * t.grp), fun rm B => cvtF .fp32 (vFmt t) rm B)
  | .vcvtSat a b f m => (narrowTable f).map fun g => (a, b, m, t.fp = true, (fmtWidth g, egOf t (fmtWidth g)), (t.sew, t.grp),
      fun rm B => saturate (vFmt t) g rm true B)
  | .vcvtNsat a b f m => (narrowTable f).map fun g => (a, b, m, t.fp = true, (fmtWidth g, egOf t (fmtWidth g)), (t.sew, t.grp),
      fun rm B => saturate (vFmt t) g rm false B)
  | .vcvtW a b f m => (narrowTable f).map fun g => (a, b, m, t.fp = true, (t.sew, t.grp), (fmtWidth g, egOf t (fmtWidth g)),
      fun rm B => cvtF g (vFmt t) rm B)
  | .vpack a b k m => some (a, b, m, t.fp = false ∧ 16 ≤ t.sew ∧ k.toNat ≤ 2, (t.sew / 2, max 1 (t.grp / 2)), (t.sew, t.grp),
      fun _ B => noFlag (if k = 0 then wrapTo (t.sew / 2) (clampS (t.sew / 2) (sval t.sew B))
        else if k = 1 then wrapTo (t.sew / 2) (clampU (t.sew / 2) (sval t.sew B)) else B % 2 ^ (t.sew / 2)))
  | .vunpk a b k m => some (a, b, m, t.fp = false ∧ 16 ≤ t.sew ∧ k.toNat ≤ 1, (t.sew, t.grp), (t.sew / 2, max 1 (t.grp / 2)),
      fun _ B => noFlag (if k = 0 then wrapTo t.sew (sval (t.sew / 2) B) else B))
  | _ => none
/-- The instructions of `convTable` whose groups must lie apart (R163). -/
def crossWidth : Instr → Prop
  | .vfsqrt _ _ _ => False | .vfneg _ _ _ => False | .vfabs _ _ _ => False | .vfcvtXF _ _ _ => False | .vfcvtFX _ _ _ => False
  | _ => True
/-- R175: a, vB, c, the mask, whether the elements are FP, and the combination. -/
def redTable : Instr → Option (GReg × VReg × GReg × MReg × Bool × (VT → Rm → Nat → Nat → Fr Nat))
  | .vredsum a b c m => some (a, b, c, m, false, fun t _ x y => noFlag ((x + y) % 2 ^ t.sew))
  | .vredmax a b c m => some (a, b, c, m, false, fun t _ x y => noFlag (if sval t.sew y ≤ sval t.sew x then x else y))
  | .vredmin a b c m => some (a, b, c, m, false, fun t _ x y => noFlag (if sval t.sew x ≤ sval t.sew y then x else y))
  | .vredand a b c m => some (a, b, c, m, false, fun _ _ x y => noFlag (x &&& y))
  | .vredor a b c m => some (a, b, c, m, false, fun _ _ x y => noFlag (x ||| y))
  | .vfredsum a b c m => some (a, b, c, m, true, fun t rm x y => fAdd (vFmt t) rm x y)
  | .vfredmax a b c m => some (a, b, c, m, true, fun t _ x y => fMax (vFmt t) x y)
  | .vfredmin a b c m => some (a, b, c, m, true, fun t _ x y => fMin (vFmt t) x y)
  | _ => none
/-- The flags of every combination add up (R164). -/
def combine (f : Nat → Nat → Fr Nat) (x y : Fr Nat) : Fr Nat := ⟨(f x.v y.v).v, x.f ||| y.f ||| (f x.v y.v).f⟩
/-- The pairwise tree of R27: `TreeIs l r` says that the levels over `l` end in the one value `r`. -/
inductive TreeIs (f : Fr Nat → Fr Nat → Fr Nat) : List (Fr Nat) → Fr Nat → Prop where
  | one (x) : TreeIs f [x] x
  | level (l r) : 2 ≤ l.length →
      TreeIs f ((List.range ((l.length + 1) / 2)).map fun i =>
        if 2 * i + 1 < l.length then f (l.getD (2 * i) ⟨0, 0⟩) (l.getD (2 * i + 1) ⟨0, 0⟩) else l.getD (2 * i) ⟨0, 0⟩) r →
      TreeIs f l r
/-- The active elements of a group, in ascending index, with no flags. -/
def activeElems (s : State) (b : VReg) (vm : MReg) : List (Fr Nat) :=
  ((List.range (vtOf s).vl).filter fun i => vm = 0 || (maskOf (slotOf s) vm).getLsbD i).map fun i =>
    noFlag (velem s b (vtOf s).grp (vtOf s).sew i)
end Sys2Proof.Claim

/-- R170 to R172 with R162 to R164: the element-wise operations, over two vectors or a vector and a scalar, for every
element width, group, mask and policy. -/
def Sys2Proof.Claim.VectorArithmetic : Prop :=
  (∀ i a b c m fpo f, vvTable i = some (a, b, c, m, fpo, f) → ∀ s, Passes uV false [] s → VOk s →
    (fpo = true → (vtOf s).fp = true) → Fits a (vtOf s).grp → Fits b (vtOf s).grp → Fits c (vtOf s).grp →
    let t := vtOf s
    let r := fun k => f t (rmOf (threadOf s).fcsr) (velem s b t.grp t.sew k) (velem s c t.grp t.sew k) (velem s a t.grp t.sew k)
    noneEnabled s (activeFlags s m fun k => (r k).f) → ∃ u, exec i s = .next u ∧ VecDone a t.grp t.sew m r s u) ∧
  (∀ i a b c m fpo f, vxTable i = some (a, b, c, m, fpo, f) → ∀ s s1 x, Passes uV false [.rd c] s → VOk s →
    (fpo = true → (vtOf s).fp = true) → Fits a (vtOf s).grp → Fits b (vtOf s).grp → readG c s = .ok (x, s1) →
    let t := vtOf s
    let r := fun k => f t (rmOf (threadOf s).fcsr) (velem s b t.grp t.sew k) (x.toNat % 2 ^ t.sew) (velem s a t.grp t.sew k)
    noneEnabled s (activeFlags s m fun k => (r k).f) → ∃ u, exec i s = .next u ∧ VecDone a t.grp t.sew m r s u)

/-- R171, R172: the compares write mask bits by R162. -/
def Sys2Proof.Claim.VectorCompares : Prop :=
  ∀ i a b c m fpo f, cmpTable i = some (a, b, c, m, fpo, f) → ∀ s, Passes uV false [] s → VOk s →
    (fpo = true → (vtOf s).fp = true) → Fits b (vtOf s).grp → Fits c (vtOf s).grp →
    let t := vtOf s
    let r := fun k => f t (velem s b t.grp t.sew k) (velem s c t.grp t.sew k)
    noneEnabled s (activeFlags s m fun k => (r k).f) → ∃ u, exec i s = .next u ∧ MaskDone a m r s u

/-- R172, R173, R177, R178: the unary operations and the conversions, same-width, widening, narrowing, to and from the narrow
formats, packing and unpacking. -/
def Sys2Proof.Claim.VectorConversions : Prop :=
  ∀ s i a b m p wa ca wb cb f, convTable (vtOf s) i = some (a, b, m, p, (wa, ca), (wb, cb), f) → Passes uV false [] s → VOk s →
    p → Fits a ca → Fits b cb → (crossWidth i → Apart a ca b cb) →
    let r := fun k => f (rmOf (threadOf s).fcsr) (velem s b cb wb k)
    noneEnabled s (activeFlags s m fun k => (r k).f) → ∃ u, exec i s = .next u ∧ VecDone a ca wa m r s u

/-- R171, R174: VMV.VX, VID, VMERGE, VSLIDEDN and VRGATHER; out-of-range positions give 0. -/
def Sys2Proof.Claim.VectorMoves : Prop :=
  (∀ a c m s s1 x, Passes uV false [.rd c] s → VOk s → Fits a (vtOf s).grp → readG c s = .ok (x, s1) →
    ∃ u, exec (.vmvVx a c m) s = .next u ∧ VecDone a (vtOf s).grp (vtOf s).sew m (fun _ => noFlag (x.toNat % 2 ^ (vtOf s).sew)) s u) ∧
  (∀ a m s, Passes uV false [] s → VOk s → Fits a (vtOf s).grp →
    ∃ u, exec (.vid a m) s = .next u ∧ VecDone a (vtOf s).grp (vtOf s).sew m (fun k => noFlag (k % 2 ^ (vtOf s).sew)) s u) ∧
  (∀ a b c m s, Passes uV false [] s → VOk s → Fits a (vtOf s).grp → Fits b (vtOf s).grp → Fits c (vtOf s).grp →
    ∃ u, exec (.vmerge a b c m) s = .next u ∧ VecDone a (vtOf s).grp (vtOf s).sew 0 (fun k => noFlag
      (if m = 0 ∨ (maskOf (slotOf s) m).getLsbD k then velem s c (vtOf s).grp (vtOf s).sew k
       else velem s b (vtOf s).grp (vtOf s).sew k)) s u) ∧
  (∀ a b c m s s1 x, Passes uV false [.rd c] s → VOk s → Fits a (vtOf s).grp → Fits b (vtOf s).grp →
    Apart a (vtOf s).grp b (vtOf s).grp → readG c s = .ok (x, s1) →
    ∃ u, exec (.vslidedn a b c m) s = .next u ∧ VecDone a (vtOf s).grp (vtOf s).sew m (fun k => noFlag
      (if k + x.toNat < 512 / (vtOf s).sew * (vtOf s).grp then velem s b (vtOf s).grp (vtOf s).sew (k + x.toNat) else 0)) s u) ∧
  (∀ a b c m s, Passes uV false [] s → VOk s → Fits a (vtOf s).grp → Fits b (vtOf s).grp → Fits c (vtOf s).grp →
    Apart a (vtOf s).grp b (vtOf s).grp →
    ∃ u, exec (.vrgather a b c m) s = .next u ∧ VecDone a (vtOf s).grp (vtOf s).sew m (fun k => noFlag
      (if velem s c (vtOf s).grp (vtOf s).sew k < 512 / (vtOf s).sew * (vtOf s).grp
       then velem s b (vtOf s).grp (vtOf s).sew (velem s c (vtOf s).grp (vtOf s).sew k) else 0)) s u)

/-- R171, R174: VSLIDEUP leaves the elements below the offset, VCOMPRESS packs the selected ones, VMV.XS reads element 0 and
VMV.SX writes it where VL ≥ 1. -/
def Sys2Proof.Claim.VectorPlacement : Prop :=
  (∀ a b c m s s1 x, Passes uV false [.rd c] s → VOk s → Fits a (vtOf s).grp → Fits b (vtOf s).grp →
    Apart a (vtOf s).grp b (vtOf s).grp → readG c s = .ok (x, s1) →
    let t := vtOf s
    ∃ u, exec (.vslideup a b c m) s = .next u ∧ VRegsKept a t.grp s u ∧ OnlyVRegs s u ∧
      (∀ k < 512 * t.grp / t.sew,
        (k < x.toNat → velem u a t.grp t.sew k = velem s a t.grp t.sew k) ∧
        (x.toNat ≤ k → Policy s m t.sew (velem s a t.grp t.sew k) (velem s b t.grp t.sew (k - x.toNat)) k (velem u a t.grp t.sew k)))) ∧
  (∀ a b (c : MReg) s, Passes uV false [] s → VOk s → Fits a (vtOf s).grp → Fits b (vtOf s).grp →
    Apart a (vtOf s).grp b (vtOf s).grp →
    let t := vtOf s
    let l := (List.range t.vl).filter fun i => c = 0 || (maskOf (slotOf s) c).getLsbD i
    ∃ u, exec (.vcompress a b c) s = .next u ∧ VRegsKept a t.grp s u ∧ OnlyVRegs s u ∧
      (∀ k < 512 * t.grp / t.sew, velem u a t.grp t.sew k =
        if t.vl = 0 then velem s a t.grp t.sew k
        else if h : k < l.length then velem s b t.grp t.sew l[k]
        else if t.ta then 2 ^ t.sew - 1 else velem s a t.grp t.sew k)) ∧
  (∀ a b s s1, Passes uV false [.wr a] s → VOk s → Fits b (vtOf s).grp →
    let v := BitVec.ofInt 64 (sval (vtOf s).sew (velem s b (vtOf s).grp (vtOf s).sew 0))
    writeResult a v s = .ok ((), s1) → exec (.vmvXs a b) s = .next (goes s s1)) ∧
  (∀ a c s s1 x, Passes uV false [.rd c] s → VOk s → Fits a (vtOf s).grp → readG c s = .ok (x, s1) →
    let t := vtOf s
    ∃ u, exec (.vmvSx a c) s = .next u ∧ VRegsKept a t.grp s u ∧ OnlyVRegs s u ∧
      (∀ k < 512 * t.grp / t.sew, velem u a t.grp t.sew k =
        if k = 0 ∧ t.vl ≠ 0 then x.toNat % 2 ^ t.sew else velem s a t.grp t.sew k))

/-- R175, R27: the start operand combined last with the pairwise tree of the active elements; sign-extended for integers,
zero-extended for FP. -/
def Sys2Proof.Claim.VectorReductions : Prop :=
  ∀ i a b c m fp f, redTable i = some (a, b, c, m, fp, f) → ∀ s s1 s2 x r, Passes uV false [.rd c, .wr a] s → VOk s →
    (vtOf s).fp = fp → (vtOf s).vl ≤ 512 → Fits b (vtOf s).grp → readG c s = .ok (x, s1) →
    let t := vtOf s
    let op := combine (f t (rmOf (threadOf s).fcsr))
    (activeElems s b m = [] ∧ r = noFlag (x.toNat % 2 ^ t.sew) ∨
      ∃ tree, TreeIs op (activeElems s b m) tree ∧ r = op (noFlag (x.toNat % 2 ^ t.sew)) tree) →
    noneEnabled s r.f →
    writeResult a (if fp then BitVec.ofNat 64 (r.v % 2 ^ t.sew) else BitVec.ofInt 64 (sval t.sew r.v)) (flagged s1 r.f) = .ok ((), s2) →
    exec i s = .next (goes s s2)

/-- R176: mask logic on the bits below VL, VCPOP and VFIRST. -/
def Sys2Proof.Claim.VectorMasks : Prop :=
  (∀ a b c i f, (i, f) ∈ [(Instr.vmand a b c, fun x y : Bool => x && y), (.vmor a b c, fun x y => x || y),
      (.vmxor a b c, fun x y => x != y), (.vmnot a b, fun x _ => !x)] →
    ∀ s, Passes uV false [] s → VOk s → ∃ u, exec i s = .next u ∧
      MaskDone a 0 (fun k => noFlag (f ((maskOf (slotOf s) b).getLsbD k) ((maskOf (slotOf s) c).getLsbD k))) s u) ∧
  (∀ a b m s s1, Passes uV false [.wr a] s → VOk s →
    let l := (List.range (vtOf s).vl).filter fun k => (m = 0 || (maskOf (slotOf s) m).getLsbD k) && (maskOf (slotOf s) b).getLsbD k
    (writeResult a (BitVec.ofNat 64 l.length) s = .ok ((), s1) → exec (.vcpop a b m) s = .next (goes s s1)) ∧
    (writeResult a (match l with | [] => BitVec.allOnes 64 | k :: _ => BitVec.ofNat 64 k) s = .ok ((), s1) →
      exec (.vfirst a b m) s = .next (goes s s1)))

/-- R165, R161: SETVL takes the requested length, all of it or MaxLen, MaxLen where field b is g0; an unsupported vtype
gives VILL, VL 0 and result 0. That SETVLR reads b before c (R41) is the model's choice (log 19, DEDUCED). -/
def Obligations.SetVectorLength : Prop :=
  ∀ i a b vt s s1 s2 s3 (avl : Option Word),
    ((∃ t : BitVec 15, i = .setvl a b t ∧ vt = t.setWidth 64 ∧ s2 = s1 ∧ Passes uV false [.rd b, .wr a] s) ∨
      (∃ c, i = .setvlr a b c ∧ readG c s1 = .ok (vt, s2) ∧ Passes uV false [.rd b, .rd c, .wr a] s)) →
    ((b = .g 0 ∧ avl = none ∧ s1 = s) ∨ (b ≠ .g 0 ∧ ∃ x, readG b s = .ok (x, s1) ∧ avl = some x)) →
    let bad := 512 ≤ vt.toNat ∨ vt.toNat / 16 % 4 = 3 ∨ (vt.toNat / 64 % 2 = 0 ∧ vt.toNat / 16 % 4 ≠ 0) ∨
      (vt.toNat / 64 % 2 = 1 ∧ vt.toNat / 16 % 4 = 0 ∧ vt.toNat % 4 ≠ 2) ∨ (vt.toNat / 64 % 2 = 1 ∧ vt.toNat / 16 % 4 ≠ 0 ∧ vt.toNat % 4 ≠ 1)
    let len := 64 / 2 ^ (vt.toNat % 4) * 2 ^ (vt.toNat / 4 % 4)
    let n := match avl with
      | some x => min x.toNat len
      | none => len
    (bad → writeResult a 0 (changeSlot s2 fun x => { x with vtype := 0x8000000000000000, vl := 0 }) = .ok ((), s3) →
      exec i s = .next (goes s s3)) ∧
    (¬bad → writeResult a (BitVec.ofNat 64 n) (changeSlot s2 fun x => { x with vtype := vt, vl := BitVec.ofNat 10 n }) = .ok ((), s3) →
      exec i s = .next (goes s s3))

namespace Sys2Proof.Claim
/-- The vector loads (R166 to R168): the instruction, the operands it reads, the destination, the mask, the state after the
scalar operands are read, and the address of element k. -/
def VLoadOf (s : State) (i : Instr) (uses : List Use) (a : VReg) (m : MReg) (s1 : State) (addr : Nat → Word) : Prop :=
  (∃ b x, (i = .vld a b m ∨ i = .vldff a b m) ∧ uses = [.rd b] ∧ readG b s = .ok (x, s1) ∧
    addr = fun k => x + BitVec.ofNat 64 (k * ((vtOf s).sew / 8))) ∨
  (∃ b c x d s', i = .vlds a b c m ∧ uses = [.rd b, .rd c] ∧ readG b s = .ok (x, s') ∧ readG c s' = .ok (d, s1) ∧
    addr = fun k => x + BitVec.ofNat 64 k * d) ∨
  (∃ b c x, i = .vldx a b c m ∧ uses = [.rd b] ∧ readG b s = .ok (x, s1) ∧ Fits c (vtOf s).grp ∧
    addr = fun k => x + BitVec.ofNat 64 (velem s c (vtOf s).grp (vtOf s).sew k))
/-- The vector stores (R166, R167). -/
def VStoreOf (s : State) (i : Instr) (uses : List Use) (a : VReg) (m : MReg) (s1 : State) (addr : Nat → Word) : Prop :=
  (∃ b x, i = .vst a b m ∧ uses = [.rd b] ∧ readG b s = .ok (x, s1) ∧
    addr = fun k => x + BitVec.ofNat 64 (k * ((vtOf s).sew / 8))) ∨
  (∃ b c x d s', i = .vsts a b c m ∧ uses = [.rd b, .rd c] ∧ readG b s = .ok (x, s') ∧ readG c s' = .ok (d, s1) ∧
    addr = fun k => x + BitVec.ofNat 64 k * d) ∨
  (∃ b c x, i = .vstx a b c m ∧ uses = [.rd b] ∧ readG b s = .ok (x, s1) ∧ Fits c (vtOf s).grp ∧
    addr = fun k => x + BitVec.ofNat 64 (velem s c (vtOf s).grp (vtOf s).sew k))
/-- The machine once the active elements are read at their places: the single-bit errors there are corrected and counted (R218). -/
def elemsRead (s : State) (m : MReg) (n : Nat) (y : Nat → Nat) : State :=
  ((List.range (vtOf s).vl).filter fun k => m = 0 || (maskOf (slotOf s) m).getLsbD k).foldl
    (fun t k => readAt t s.cur.core (y k) n) s
/-- The active elements that a vector store stores, in order (R167). -/
def storedElems (s : State) (m : MReg) : List Nat :=
  (List.range (vtOf s).vl).filter fun k => m = 0 || (maskOf (slotOf s) m).getLsbD k
def Storable (s : State) (A : Word) (n y : Nat) : Prop :=
  OwnPlace s A n y ∧ y % n = 0 ∧ MayWrite s y n ∧ scoreRW (here s) y (y + n) = false ∧ bufferedAt s s.cur.core y n = false
end Sys2Proof.Claim

/-- R167, R168 (own local memory): every active element is the bytes at its address; VLDFF cuts VL where element k > 0 is
the lowest that a check refuses. Nothing else differs, but for the count of errors that the reads correct (R218). Where a store of
the stream to an element's bytes waits, its stores take effect first (R101). -/
def Sys2Proof.Claim.VectorLoads : Prop :=
  ∀ s i uses a m s1 addr (y : Nat → Nat), VLoadOf s i uses a m s1 addr → Passes uV false uses s → VOk s → Fits a (vtOf s).grp →
    let n := (vtOf s).sew / 8
    ((∀ k, activeIn s m k → OwnRead s1 (addr k) n (y k)) → ∃ u, exec i s = .next u ∧
      VecDone a (vtOf s).grp (vtOf s).sew m (fun k => noFlag (leValue (here s).mem (y k) n)) (elemsRead s m n y) u) ∧
    (∀ s2, (∃ k, activeIn s m k ∧ ∃ e ∈ (threadOf s1).sbuf, entryMeets (y k) n e = true) → s2 = drainStores s1 s.cur →
      (∀ k, activeIn s m k → OwnLoad s1 (addr k) n (y k) ∧ OwnRead s2 (addr k) n (y k)) → ∃ u, exec i s = .next u ∧
      VecDone a (vtOf s).grp (vtOf s).sew m (fun k => noFlag (leValue (here s2).mem (y k) n)) (elemsRead s2 m n y) u) ∧
    (∀ b k w, i = .vldff a b m → 0 < k → activeIn s m k → (∀ j < k, activeIn s m j → OwnRead s1 (addr j) n (y j)) →
      reach s1 (addr k) n aRead = .error w →
      let s' := changeSlot s fun x => { x with vl := BitVec.ofNat 10 k }
      ∃ u, exec i s = .next u ∧
        VecDone a (vtOf s).grp (vtOf s).sew m (fun j => noFlag (leValue (here s).mem (y j) n)) (elemsRead s' m n y) u) ∧
    (∀ k w, activeIn s m k → (∀ j < k, activeIn s m j → OwnRead s1 (addr j) n (y j)) → reach s1 (addr k) n aRead = .error w →
      ((∀ b, i ≠ .vldff a b m) ∨ k = 0) → exec i s = .next (onStop s (.trap w (addr k) none)))

/-- R167 (own local memory): every active element's bytes are stored at its address, of elements at one place the highest
remains, every other byte stays, but for the records of tasks that are aborted (R87, R69); nothing else differs where none is. Its
elements may wait in the stream's buffer instead, with memory unchanged (R262). -/
def Sys2Proof.Claim.VectorStores : Prop :=
  ∀ s i uses a m s1 addr (y : Nat → Nat), VStoreOf s i uses a m s1 addr → Passes uV false uses s → VOk s → Fits a (vtOf s).grp →
    let n := (vtOf s).sew / 8
    let free := fun z => (∀ k, activeIn s m k → AbortsNone s1 (y k) n) ∨ inHome (here s) z = false
    (∀ k, activeIn s m k → Storable s1 (addr k) n (y k)) →
    (∃ u, perform true i s = .next u ∧ MemKept s u ∧ (threadOf u).pc = pcOf s + BitVec.ofNat 64 (lenOf s) ∧
      (threadOf u).sbuf = (threadOf s).sbuf ++
        (storedElems s m).map fun k => (y k, leBytes n (velem s a (vtOf s).grp (vtOf s).sew k))) ∧
    ∃ u, exec i s = .next u ∧
      (∀ k, activeIn s m k → (∀ j, activeIn s m j → k < j → y j ≠ y k) → ∀ q < n, free (y k + q) →
        peek (here u).mem (y k + q) = BitVec.ofNat 8 (velem s a (vtOf s).grp (vtOf s).sew k / 256 ^ q)) ∧
      (∀ z, free z → (∀ k, activeIn s m k → ¬(y k ≤ z ∧ z < y k + n)) → peek (here u).mem z = peek (here s).mem z) ∧
      StoreRegs s u ∧ (slotOf u).v = (slotOf s).v ∧ MasksKept s u ∧ VTypeKept s u ∧
      (threadOf u).pc = pcOf s + BitVec.ofNat 64 (lenOf s) ∧
      ((∀ k, activeIn s m k → AbortsNone s1 (y k) n) → StoreFrame s u)


/-! ### Bank commands and vector atomics (R179, R180, R203 to R213) -/

namespace Sys2Proof.Claim
/-- The commands with a register in field c: an operand, or the result's address for a reduction (R204). -/
def bankScalarTable : Instr → Option (BankOp × GReg × GReg × GReg)
  | .bkAdd a b c => some (.add, a, b, c)
  | .bkMul a b c => some (.mul, a, b, c)
  | .bkFma a b c => some (.fma, a, b, c)
  | .bkMax a b c => some (.max, a, b, c)
  | .bkMin a b c => some (.min, a, b, c)
  | .bkScl a b c => some (.scl, a, b, c)
  | .bkOr a b c => some (.or, a, b, c)
  | .bkAnd a b c => some (.and, a, b, c)
  | .bkFill a b c => some (.fill, a, b, c)
  | _ => none
def bankReduceTable : Instr → Option (BankOp × GReg × GReg × GReg)
  | .bkRsum a b c => some (.rsum, a, b, c)
  | .bkRmax a b c => some (.rmax, a, b, c)
  | .bkExps a b c => some (.exps, a, b, c)
  | _ => none
/-- The vector-operand forms (R204). -/
def bankVectorTable : Instr → Option (BankOp × GReg × GReg × VReg)
  | .bkAddV a b c => some (.add, a, b, c)
  | .bkMulV a b c => some (.mul, a, b, c)
  | .bkFmaV a b c => some (.fma, a, b, c)
  | .bkMaxV a b c => some (.max, a, b, c)
  | .bkMinV a b c => some (.min, a, b, c)
  | .bkSclV a b c => some (.scl, a, b, c)
  | .bkOrV a b c => some (.or, a, b, c)
  | .bkAndV a b c => some (.and, a, b, c)
  | .bkFillV a b c => some (.fill, a, b, c)
  | _ => none
/-- The second-range forms (R204). -/
def bankRangeTable : Instr → Option (BankOp × GReg × GReg × GReg)
  | .bkAddR a b c => some (.add, a, b, c)
  | .bkMulR a b c => some (.mul, a, b, c)
  | .bkFmaR a b c => some (.fma, a, b, c)
  | .bkMaxR a b c => some (.max, a, b, c)
  | .bkMinR a b c => some (.min, a, b, c)
  | .bkOrR a b c => some (.or, a, b, c)
  | .bkAndR a b c => some (.and, a, b, c)
  | _ => none
/-- The descriptor is one that the command takes (R205): reserved bits 0, TYPE not 3, and not i32 for BK.EXPS and BK.CVT. -/
def BankDesc (op : BankOp) (d : Word) : Prop :=
  d.toNat / 2 ^ 14 % 2 ^ 18 = 0 ∧ d.toNat / 2 ^ 10 % 4 = 0 ∧ d.toNat / 2 ^ 12 % 4 ≠ 3 ∧
    ((op = .exps ∨ op = .cvt) → d.toNat / 2 ^ 12 % 4 ≠ 0)
/-- The lines of the range that the descriptor gives, and its TYPE (R205). -/
def bankLines (d : Word) : Nat := d.toNat % 2 ^ 10 + 1
def bankType (d : Word) : BitVec 2 := BitVec.ofNat 2 (d.toNat / 2 ^ 12)
def bankScal (d : Word) : BitVec 32 := BitVec.ofNat 32 (d.toNat / 2 ^ 32)
/-- A whole-line range lies in local memory, away from the anchor view of a far body. -/
def LineRange (s : State) (lo n : Nat) : Prop := lo % 64 = 0 ∧ lo + 64 * n ≤ 0x200000 ∧ viewHit s lo (lo + 64 * n) = false
/-- The stream's earlier window stores and global accesses have taken effect, and none is held (R394). -/
def Forks (s : State) : Prop := windowAny s = false ∧ heldGlobal s = false ∧ globalOut s = false
/-- The item may be queued now (R211, R394): room in the scoreboard and in bk, no copy or gather in its way, and nothing of the
stream under way that it would have to see; no store waits that its entry would hold. -/
def BankRoom (s : State) (writes reads : List (Nat × Nat)) : Prop :=
  Forks s ∧ NoneWaits s (writes ++ reads) ∧
  (threadOf s).bk < 63 ∧ (here s).score.length < 16 ∧ ∀ e ∈ (here s).score, copyEntry e = true →
    meets writes (e.writes ++ e.reads) = false ∧ meets reads e.writes = false
/-- The work is queued behind what the dispatcher has, its ranges are held in the scoreboard, bk is charged, the stream goes
on; no register, flag or byte of memory differs, the queue of a special operand apart (R211). -/
def BankQueued (s t : State) (w : BankWork) (writes reads : List (Nat × Nat)) : Prop :=
  (∃ it, (here t).bankQ = (here s).bankQ ++ [it] ∧ it.work = w ∧ it.unit = s.cur.unit ∧ it.pc = pcOf s ∧ it.words = s.ir ∧
    it.flags = 0 ∧ it.poisoned = [] ∧ it.writer = writerOf s ∧
    (here t).score = (here s).score ++ [⟨.bank it.id, writes, reads⟩]) ∧
  (threadOf t).bk = (threadOf s).bk + 1 ∧ MemKept s t ∧ StoreRegs s t ∧ OtherThreads s t ∧
  (threadOf t).pc = pcOf s + BitVec.ofNat 64 (lenOf s) ∧ { t with cores := s.cores, nextId := s.nextId } = s ∧
  ∀ d, d ≠ s.cur.core → coreAt t d = coreAt s d
end Sys2Proof.Claim

/-- R204 to R206, R210, R211: every form of a bank command, with its operands read in the order b, c, a and its ranges in
order, is queued with the operand line its form gives. -/
def Sys2Proof.Claim.BankCommandsQueue : Prop :=
  (∀ i op a b c, bankScalarTable i = some (op, a, b, c) → ∀ s s1 s2 s3 d y x, Passes uBank false [.rd b, .rd c, .rd a] s →
    readG b s = .ok (d, s1) → readG c s1 = .ok (y, s2) → readG a s2 = .ok (x, s3) → BankDesc op d →
    LineRange s3 x.toNat (bankLines d) → MayWrite s3 x.toNat (64 * bankLines d) → (op = .fill ∨ MayRead s3 x.toNat (64 * bankLines d)) →
    BankRoom s3 [(x.toNat, x.toNat + 64 * bankLines d)] [] →
    ∃ t, exec i s = .next t ∧ BankQueued s t (.command op (bankType d) (bankScal d) (.scalar y) x.toNat (bankLines d) 0
      (List.range (bankLines d)) []) [(x.toNat, x.toNat + 64 * bankLines d)] []) ∧
  (∀ i op a b c, bankReduceTable i = some (op, a, b, c) → ∀ s s1 s2 s3 d y x, Passes uBank false [.rd b, .rd c, .rd a] s →
    readG b s = .ok (d, s1) → readG c s1 = .ok (y, s2) → readG a s2 = .ok (x, s3) → BankDesc op d →
    let m := if op = .exps then 8 else 4
    let line := (y.toNat / 64 * 64, y.toNat / 64 * 64 + 64)
    LineRange s3 x.toNat (bankLines d) → MayRead s3 x.toNat (64 * bankLines d) → y.toNat % m = 0 → y.toNat + m ≤ 0x200000 →
    viewHit s3 y.toNat (y.toNat + m) = false → MayWrite s3 y.toNat m →
    BankRoom s3 [line] [(x.toNat, x.toNat + 64 * bankLines d)] →
    ∃ t, exec i s = .next t ∧ BankQueued s t (.command op (bankType d) (bankScal d) (.scalar 0) x.toNat (bankLines d) y.toNat
      (List.range (bankLines d)) []) [line] [(x.toNat, x.toNat + 64 * bankLines d)]) ∧
  (∀ a b s s1 s2 d x, Passes uBank false [.rd b, .rd a] s → readG b s = .ok (d, s1) → readG a s1 = .ok (x, s2) →
    BankDesc .cvt d → LineRange s2 x.toNat (bankLines d) → MayRead s2 x.toNat (64 * bankLines d) →
    MayWrite s2 x.toNat (64 * bankLines d) → BankRoom s2 [(x.toNat, x.toNat + 64 * bankLines d)] [] →
    ∃ t, exec (.bkCvt a b) s = .next t ∧ BankQueued s t (.command .cvt (bankType d) (bankScal d) (.scalar 0) x.toNat (bankLines d) 0
      (List.range (bankLines d)) []) [(x.toNat, x.toNat + 64 * bankLines d)] []) ∧
  (∀ i op a b c, bankVectorTable i = some (op, a, b, c) → ∀ s s1 s2 d x, Passes uV false [.rd b, .rd a] s →
    (op = .fma → c ≠ 31) → readG b s = .ok (d, s1) → readG a s1 = .ok (x, s2) → BankDesc op d →
    LineRange s2 x.toNat (bankLines d) → MayWrite s2 x.toNat (64 * bankLines d) → (op = .fill ∨ MayRead s2 x.toNat (64 * bankLines d)) →
    BankRoom s2 [(x.toNat, x.toNat + 64 * bankLines d)] [] →
    ∃ t w, exec i s = .next t ∧ (op = .fma → w = (slotOf s).v.toList.getD (c.toNat + 1) 0) ∧
      BankQueued s t (.command op (bankType d) (bankScal d) (.vector ((slotOf s).v.toList.getD c.toNat 0) w) x.toNat (bankLines d) 0
        (List.range (bankLines d)) []) [(x.toNat, x.toNat + 64 * bankLines d)] []) ∧
  (∀ i op a b c, bankRangeTable i = some (op, a, b, c) → ∀ s s1 s2 s3 d y x, Passes uBank false [.rd b, .rd c, .rd a] s →
    readG b s = .ok (d, s1) → readG c s1 = .ok (y, s2) → readG a s2 = .ok (x, s3) → BankDesc op d →
    LineRange s3 x.toNat (bankLines d) → MayRead s3 x.toNat (64 * bankLines d) → MayWrite s3 x.toNat (64 * bankLines d) →
    LineRange s3 y.toNat (bankLines d) → MayRead s3 y.toNat (64 * bankLines d) →
    (y = x ∨ y.toNat + 64 * bankLines d ≤ x.toNat ∨ x.toNat + 64 * bankLines d ≤ y.toNat) →
    BankRoom s3 [(x.toNat, x.toNat + 64 * bankLines d)] [(y.toNat, y.toNat + 64 * bankLines d)] →
    ∃ t, exec i s = .next t ∧ BankQueued s t (.command op (bankType d) (bankScal d) (.range y.toNat) x.toNat (bankLines d) 0
      (List.range (bankLines d)) []) [(x.toNat, x.toNat + 64 * bankLines d)] [(y.toNat, y.toNat + 64 * bankLines d)])

/-- R205, R210: a descriptor with reserved bits set, TYPE 3, or i32 for BK.EXPS, traps with 0x002 subcode 0x05 and the
descriptor in FADDR; a base off its line with 0x065, a range past local memory with 0x060 at the lowest such address. -/
def Sys2Proof.Claim.BankCommandTraps : Prop :=
  ∀ i op a b c, (bankScalarTable i = some (op, a, b, c) ∨ bankReduceTable i = some (op, a, b, c)) → ∀ s s1 s2 s3 d y x,
    Passes uBank false [.rd b, .rd c, .rd a] s → readG b s = .ok (d, s1) → readG c s1 = .ok (y, s2) → readG a s2 = .ok (x, s3) →
    (¬BankDesc op d → exec i s = .next (onStop s (.trap (why 0x002 5) d none))) ∧
    (bankReduceTable i = none → BankDesc op d → x.toNat % 64 ≠ 0 → exec i s = .next (onStop s (.trap (why 0x065 0) x none))) ∧
    (bankReduceTable i = none → BankDesc op d → x.toNat % 64 = 0 → 0x200000 < x.toNat + 64 * bankLines d →
      exec i s = .next (onStop s (.trap (why 0x060 0) (BitVec.ofNat 64 (max x.toNat 0x200000)) none)))

namespace Sys2Proof.Claim
/-- R179: the operation, the values, the base, the indexes and the mask. -/
def vamoTable : Instr → Option (AmoOp × VReg × GReg × VReg × MReg)
  | .vamoOr a b c m => some (.or, a, b, c, m)
  | .vamoAnd a b c m => some (.and, a, b, c, m)
  | .vamoAdd a b c m => some (.add, a, b, c, m)
  | .vamoMax a b c m => some (.max, a, b, c, m)
  | .vamoMin a b c m => some (.min, a, b, c, m)
  | _ => none
/-- The active lanes, ascending. -/
def activeLanes (s : State) (m : MReg) : List Nat :=
  (List.range (vtOf s).vl).filter fun i => m = 0 || (maskOf (slotOf s) m).getLsbD i
end Sys2Proof.Claim

/-- R179, R180: a VAMO queues its active lanes, each at base + index·(SEW/8), under one scoreboard entry over the lines
from the lowest to the highest; with no active lane it does nothing. -/
def Sys2Proof.Claim.VectorAtomicsQueue : Prop :=
  ∀ i op a b c m, vamoTable i = some (op, a, b, c, m) → ∀ s s1 x, Passes uV false [.rd b] s → VOk s →
    (if (vtOf s).fp then (vtOf s).fpk = 0 else (vtOf s).sew = 32 ∨ (vtOf s).sew = 64) → Fits a (vtOf s).grp → Fits c (vtOf s).grp →
    readG b s = .ok (x, s1) →
    let t := vtOf s
    let n := t.sew / 8
    let place := fun k => (x + BitVec.ofNat 64 (velem s c t.grp t.sew k * n)).toNat
    let lanes := activeLanes s m
    (lanes = [] → exec i s = .next (goes s s1)) ∧
    (∀ lo hi, lanes ≠ [] → (∀ k ∈ lanes, lo ≤ place k ∧ place k + n ≤ hi ∧ place k < 0x200000 ∧ place k % n = 0) →
      (∃ k ∈ lanes, place k = lo) → (∃ k ∈ lanes, place k + n = hi) →
      let line := (lo / 64 * 64, (hi + 63) / 64 * 64)
      MayRead s1 line.1 (line.2 - line.1) → MayWrite s1 line.1 (line.2 - line.1) → viewHit s1 lo hi = false →
      Forks s1 → NoneWaits s1 [line] → (threadOf s1).bk < 63 → (here s1).score.length < 16 →
      ∃ u, exec i s = .next u ∧ BankQueued s u (.vamo op t.fp n (lanes.map fun k =>
        (place k, BitVec.ofNat 64 (velem s a t.grp t.sew k)))) [line] [])

namespace Sys2Proof.Claim
/-- R207 on one element: i32 wraps; f32 and bf16 round to nearest even; BK.SCL multiplies by an FP32 scale. -/
def bankResult (op : BankOp) (ty : BitVec 2) (x s y : Nat) : Fr Nat :=
  let f := if ty = 2 then Fmt.bf16 else .fp32
  match op with
  | .add => if ty = 0 then noFlag (wrapTo 32 (x + s)) else fAdd f .rne x s
  | .mul => if ty = 0 then noFlag (wrapTo 32 (x * s)) else fMul f .rne x s
  | .fma => if ty = 0 then noFlag (wrapTo 32 (x * s + y)) else fFma f .rne x s y
  | .max => if ty = 0 then noFlag (if sval 32 s ≤ sval 32 x then x else s) else fMax f x s
  | .min => if ty = 0 then noFlag (if sval 32 x ≤ sval 32 s then x else s) else fMin f x s
  | .or => noFlag (x ||| s)
  | .and => noFlag (x &&& s)
  | .fill => noFlag s
  | _ => noFlag x
/-- Element i, of width `w`, of the line at byte `a` of a memory. -/
def lineElem (m : Memory) (a w i : Nat) : Nat := leValue m a 64 / 2 ^ (w * i) % 2 ^ w
/-- A core whose first item with work at bank `j` is a command, and the line of it that the bank does next; no item dispatched
earlier has still to touch it, or its line of the second range (R212). -/
def NextLine (s : State) (c : Coord) (j : Fin 16) (it : BankItem) (op : BankOp) (ty : BitVec 2) (scal : BitVec 32) (src : BankSrc)
    (base lines result : Nat) (todo : List Nat) (reads : List (Nat × BitVec 512)) (n : Nat) : Prop :=
  (coreAt s c).bankQ.find? (fun x => workAt j.val x) = some it ∧ it.work = .command op ty scal src base lines result todo reads ∧
    todo.find? (fun k => (base + 64 * k) / 64 % 16 == j.val) = some n ∧
    ∀ x ∈ (coreAt s c).bankQ.takeWhile fun x => x.id != it.id,
      touches (base + 64 * n) x = false ∧ ∀ b, src = .range b → touches (b + 64 * n) x = false
end Sys2Proof.Claim

/-- R212, R207: a bank's step takes the next line it holds of the first item that has one there, and replaces every element
of it, a second range's line read in the same step (R206); nothing else of memory differs but the records of tasks that this aborts
(R87, R69). A line without poison is meant: a poisoned one stays (R218). -/
def Sys2Proof.Claim.BankLineUpdates : Prop :=
  ∀ s c j it op ty scal src base lines result todo reads n,
    NextLine s c j it op ty scal src base lines result todo reads n →
    op ∈ [BankOp.add, .mul, .fma, .max, .min, .or, .and, .fill] →
    let w := if ty = 2 then 16 else 32
    let a := base + 64 * n
    let m := (coreAt s c).mem
    (op ≠ .fill → poisonIn (coreAt s c) a 64 = none ∧ ∀ b, src = .range b → poisonIn (coreAt s c) (b + 64 * n) 64 = none) →
    let quiet := abortHits (coreAt s c) c a (a + 64) it.writer = []
    ∃ t, exec (.bankLineUpdate c j) s = .next t ∧
      (∀ z, quiet ∨ inHome (coreAt s c) z = false → z < a ∨ a + 64 ≤ z → peek (coreAt t c).mem z = peek m z) ∧
      ((quiet ∨ ∀ z, a ≤ z → z < a + 64 → inHome (coreAt s c) z = false) → ∀ i < 512 / w,
        (∀ v, src = .scalar v → lineElem (coreAt t c).mem a w i =
          (bankResult op ty (lineElem m a w i) (v.toNat % 2 ^ w) (v.toNat / 2 ^ w % 2 ^ w)).v % 2 ^ w) ∧
        (∀ v u, src = .vector v u → lineElem (coreAt t c).mem a w i =
          (bankResult op ty (lineElem m a w i) (v.toNat / 2 ^ (w * i) % 2 ^ w) (u.toNat / 2 ^ (w * i) % 2 ^ w)).v % 2 ^ w) ∧
        (∀ b, src = .range b → op ≠ .fma → lineElem (coreAt t c).mem a w i =
          (bankResult op ty (lineElem m a w i) (lineElem m (b + 64 * n) w i) 0).v % 2 ^ w) ∧
        (∀ b, src = .range b → op = .fma → lineElem (coreAt t c).mem a w i =
          (bankResult op ty (lineElem m a w i) (scal.toNat % 2 ^ w) (lineElem m (b + 64 * n) w i)).v % 2 ^ w)) ∧
      (∃ x ∈ (coreAt t c).bankQ, x.id = it.id ∧ ∃ todo', x.work = .command op ty scal src base lines result todo' reads ∧
        todo'.length + 1 = todo.length)

/-- R180, R212, R218: the next lane that a bank holds of a VAMO is one step, the old element read and the new one written, and nothing
else of memory differs where no task is aborted; where a lane still to come on the line would read a poisoned word, that line stays
unchanged and all its lanes are done. That R218 goes before R180 there is the model's reading (log 103, DEDUCED). -/
def Sys2Proof.Claim.VectorAtomicLanes : Prop :=
  ∀ s c (j : Fin 16) it op fp n lanes lane, (coreAt s c).bankQ.find? (fun x => workAt j.val x) = some it → it.work = .vamo op fp n lanes →
    lanes.find? (fun l => l.1 / 64 % 16 == j.val) = some lane →
    (∀ x ∈ (coreAt s c).bankQ.takeWhile fun x => x.id != it.id, touches (lane.1 / 64 * 64) x = false) →
    let k := coreAt s c
    ((∀ l ∈ lanes, l.1 / 64 = lane.1 / 64 → poisonIn k l.1 n = none) → fp = false → abortHits k c lane.1 (lane.1 + n) it.writer = [] →
      ∃ t, exec (.bankLineUpdate c j) s = .next t ∧
        leValue (coreAt t c).mem lane.1 n = amoNew op n (leValue k.mem lane.1 n) lane.2.toNat 0 % 2 ^ (8 * n) ∧
        (∀ z, z < lane.1 ∨ lane.1 + n ≤ z → peek (coreAt t c).mem z = peek k.mem z) ∧
        ∃ x ∈ (coreAt t c).bankQ, x.id = it.id ∧ x.work = .vamo op fp n (dropFirst (fun l => l == lane) lanes) ∧ x.poisoned = it.poisoned) ∧
    ((∃ l ∈ lanes, l.1 / 64 = lane.1 / 64 ∧ poisonIn k l.1 n ≠ none) →
      ∃ t, exec (.bankLineUpdate c j) s = .next t ∧ (coreAt t c).mem = k.mem ∧
        ∃ x ∈ (coreAt t c).bankQ, x.id = it.id ∧ x.poisoned ≠ [] ∧
          x.work = .vamo op fp n (lanes.filter fun l => decide (l.1 / 64 ≠ lane.1 / 64)))

namespace Sys2Proof.Claim
/-- What retiring an item leaves of its thread (R213, R18, R218): bk one less, its flags in EFLAGS where the body that
issued it still runs on a slot, and for a poisoned line a trap due. -/
def RetiredThread (s t : State) (c : Coord) (it : BankItem) (f : Flags) : Prop :=
  let same := sameBody (coreAt s c) it.unit it.serial it.writer
  let th := threadAt (coreAt s c) it.unit
  let th' := threadAt (coreAt t c) it.unit
  th'.bk = th.bk - 1 ∧ th'.fcsr = (if same ∧ isIbex it.unit = false then th.fcsr ||| (f.setWidth 32 <<< 24) else th.fcsr) ∧
    (it.poisoned = [] → th'.due = th.due) ∧ th'.g = th.g ∧ th'.pc = th.pc
end Sys2Proof.Claim

/-- R213, R208, R180: a command with no line left retires, a reduction writing its result first, once no earlier item has still
to touch that line (R212); a VAMO with no lane left retires; the scoreboard entry is freed. The patrol corrects the word that it
reads, adds its energy to the housekeeping account (R350) and logs a poisoned word (R218): cause 0x181 with subcode 0 and event 4
are the model's choice (log 29). -/
def Sys2Proof.Claim.BankRetirements : Prop :=
  (∀ s c it op ty scal src base lines result reads,
    (coreAt s c).bankQ.find? (fun x => commandDone x && lineTurn (coreAt s c).bankQ x (resultLines x)) = some it →
    it.work = .command op ty scal src base lines result [] reads → it.poisoned = [] →
    ∃ t, exec (.bankCommandRetire c) s = .next t ∧
      (coreAt t c).bankQ = dropFirst (fun x => x.id == it.id) (coreAt s c).bankQ ∧
      (coreAt t c).score = dropFirst (fun e => e.owner == .bank it.id) (coreAt s c).score ∧
      (isReduce op = false → RetiredThread s t c it it.flags ∧ (coreAt t c).mem = (coreAt s c).mem) ∧
      (isReduce op = true → ∀ z, abortHits (coreAt s c) c result (result + if op = .exps then 8 else 4) it.writer = [] ∨ inHome (coreAt s c) z = false →
        peek (coreAt t c).mem z =
        if result ≤ z ∧ z < result + (if op = .exps then 8 else 4) then (reduceResult op ty scal base lines reads).1.getD (z - result) 0
        else peek (coreAt s c).mem z)) ∧
  (∀ s c it op fp n, (coreAt s c).bankQ.find? vamoDone = some it → it.work = .vamo op fp n [] → it.poisoned = [] →
    ∃ t, exec (.vamoRetire c) s = .next t ∧ (coreAt t c).bankQ = dropFirst (fun x => x.id == it.id) (coreAt s c).bankQ ∧
      (coreAt t c).score = dropFirst (fun e => e.owner == .bank it.id) (coreAt s c).score ∧
      RetiredThread s t c it it.flags ∧ (coreAt t c).mem = (coreAt s c).mem) ∧
  (∀ s (c : Coord) a, c.toNat / 2 ^ 8 < 16 → a / 8 ∈ (coreAt s c).poison →
    exec (.patrolScrub c a) s = .next (logFault (addHousekeeping (readAt s c (a / 8 * 8) 8)) c c 0 (why 0x181 0) 4 0 (BitVec.ofNat 64 (a / 8 * 8)) 0))


/-! ### Closures (R182 to R201) -/

namespace Sys2Proof.Claim
/-- Byte address of environment `i` of the moving unit's core, and the fields of its header (R183, R184). -/
def envAt (s : State) (i : Nat) : Nat := (here s).envbase.toNat / 2 ^ 15 % 2 ^ 6 * 0x8000 + 128 * i
def headAt (s : State) (i : Nat) : Nat := leValue (here s).mem (envAt s i) 16
def liveAt (s : State) (i : Nat) : Prop := headAt s i / 2 ^ 51 % 2 = 1
def countAt (s : State) (i : Nat) : Nat := headAt s i / 2 ^ 32 % 2 ^ 8
def genAt (s : State) (i : Nat) : Nat := headAt s i / 2 ^ 40 % 2 ^ 11
def ncapAt (s : State) (i : Nat) : Nat := headAt s i / 2 ^ 52 % 2 ^ 4
def nrefAt (s : State) (i : Nat) : Nat := headAt s i / 2 ^ 56 % 2 ^ 4
/-- By-reference slot `j` of the header marks capture word `w` (R184). -/
def refersTo (s : State) (i j w : Nat) : Prop := headAt s i / 2 ^ (79 + 16 * j) % 2 = 1 ∧ headAt s i / 2 ^ (64 + 16 * j) % 2 ^ 4 = w
/-- The handle names environment `i` of the moving unit's own core, live under the handle's generation, in a launch (R182,
R195). -/
def OwnEnv (s : State) (h : Handle) (i : Nat) : Prop :=
  h ≠ 0 ∧ h.toNat % 2 ^ 13 = s.cur.core.toNat ∧ h.toNat / 2 ^ 13 % 2 ^ 8 = i ∧ i < (here s).envAllot ∧ liveAt s i ∧
    genAt s i = h.toNat / 2 ^ 21 ∧ inLaunch s s.cur.core s.cur.core = true
/-- A write to [lo, hi) aborts no speculative far task (R87). -/
def Quiet (s : State) (lo hi : Nat) : Prop := abortHits (here s) s.cur.core lo hi none = []
/-- No byte of local memory outside [lo, hi) differs, but for the records of tasks that the write aborts (R87, R69). -/
def MemKeptBut (lo hi : Nat) (s t : State) : Prop :=
  ∀ z, Quiet s lo hi ∨ inHome (here s) z = false → z < lo ∨ hi ≤ z → peek (here t).mem z = peek (here s).mem z
/-- The environment's bytes lie outside the home-queue region, from which R118 keeps environments apart, where a write to them
aborts a task. -/
def EnvClear (s : State) (i : Nat) : Prop :=
  Quiet s (envAt s i) (envAt s i + 128) ∨ ∀ z, envAt s i ≤ z → z < envAt s i + 128 → inHome (here s) z = false
/-- The PC goes on, and of the registers only k`k` may differ. -/
def OnlyK (k : KReg) (h : Handle) (s t : State) : Prop :=
  (threadOf t).k = (threadOf s).k.set k.toNat h k.isLt ∧ (∀ n : BitVec 5, regVal (threadOf t) n = regVal (threadOf s) n) ∧
    (threadOf t).dead = (threadOf s).dead ∧ (threadOf t).l0 = (threadOf s).l0 ∧ (threadOf t).l1 = (threadOf s).l1 ∧
    (threadOf t).fcsr = (threadOf s).fcsr ∧ (threadOf t).pc = pcOf s + BitVec.ofNat 64 (lenOf s)
def kReg (s : State) (k : KReg) : Handle := (threadOf s).k[k.toNat]'k.isLt
end Sys2Proof.Claim

/-- R193: CAPT takes the lowest free environment, writes entry, count 1, its generation kept, and the captures from the
registers that field c names, and puts the handle in kA. -/
def Sys2Proof.Claim.CaptureClosure : Prop :=
  ∀ k b (c : BitVec 15) s s1 e i, Passes uEA false [.rd b, .kreg k] s → c.toNat < 2 ^ 9 → isSpec s = false →
    c.toNat % 16 ≤ 14 → c.toNat / 16 + c.toNat % 16 ≤ 32 → readG b s = .ok (e, s1) → e.toNat % 2 = 0 → e.toNat < 0x200000 →
    i < (here s).envAllot → ¬liveAt s i → (∀ j < i, liveAt s j) → EnvClear s i →
    (∀ j < c.toNat % 16, NoLock s1 (BitVec.ofNat 5 (c.toNat / 16 + j))) →
    ∃ t, exec (.capt k b c) s = .next t ∧
      headAt t i = e.toNat + 2 ^ 32 + genAt s i * 2 ^ 40 + 2 ^ 51 + c.toNat % 16 * 2 ^ 52 ∧
      (∀ j < c.toNat % 16, leValue (here t).mem (envAt s i + 16 + 8 * j) 8 =
        (regVal (threadOf s) (BitVec.ofNat 5 (c.toNat / 16 + j))).toNat) ∧
      MemKeptBut (envAt s i) (envAt s i + 16 + 8 * (c.toNat % 16)) s t ∧
      OnlyK k (BitVec.ofNat 32 (genAt s i * 2 ^ 21 + i * 2 ^ 13 + s.cur.core.toNat)) s t

/-- R194: CAPT.REF adds one capture that refers to a byte of a live frame of the slot: the frame identifier with the
address, and the next by-reference slot of the header marks it. -/
def Sys2Proof.Claim.CaptureReference : Prop :=
  ∀ k b s s1 x i f (q : Fin 4), Passes uEA false [.rd b, .kreg k] s → isSpec s = false → s.cur.unit = .stream q (unitSide s.cur.unit) →
    OwnEnv s (kReg s k) i → readG b s = .ok (x, s1) → x.toNat < 0x200000 →
    EnvClear s i → frameHolding (here s) q x.toNat = some f → f < 64 → ncapAt s i < 14 → nrefAt s i < 4 →
    ∃ t, exec (.captRef k b) s = .next t ∧ ncapAt t i = ncapAt s i + 1 ∧ nrefAt t i = nrefAt s i + 1 ∧
      refersTo t i (nrefAt s i) (ncapAt s i) ∧ countAt t i = countAt s i ∧ genAt t i = genAt s i ∧ (liveAt t i ↔ liveAt s i) ∧
      leValue (here t).mem (envAt s i + 16 + 8 * ncapAt s i) 8 =
        q.val * 2 ^ 54 + f * 2 ^ 48 + ((slotAt (here s) q).fgen.toList.getD f 0).toNat * 2 ^ 32 + x.toNat ∧
      MemKeptBut (envAt s i) (envAt s i + 128) s t ∧ OnlyK k (kReg s k) s t

/-- R195, R196: KDUP adds a reference and copies the handle, KDROP drops one and clears kA, the last one freeing the
environment under its next generation, 2047 followed by 1; a null handle copies or does nothing. -/
def Sys2Proof.Claim.CountReferences : Prop :=
  (∀ k b s s1 x, Passes uEA false [.rd b, .kreg k] s → isSpec s = false → readG b s = .ok (x, s1) →
    (x.setWidth 32 = 0 → ∃ t, exec (.kdup k b) s = .next t ∧ MemKept s t ∧ OnlyK k 0 s t) ∧
    (∀ i, OwnEnv s (x.setWidth 32) i → EnvClear s i → countAt s i < 255 → ∃ t, exec (.kdup k b) s = .next t ∧
      headAt t i = headAt s i + 2 ^ 32 ∧ MemKeptBut (envAt s i) (envAt s i + 16) s t ∧ OnlyK k (x.setWidth 32) s t) ∧
    (∀ i, OwnEnv s (x.setWidth 32) i → countAt s i = 255 →
      exec (.kdup k b) s = .next (onStop s (.trap (why 0x0E3 0) (BitVec.ofNat 64 (x.setWidth 32).toNat) none)))) ∧
  (∀ k s, Passes uEA false [.kreg k] s → isSpec s = false →
    (kReg s k = 0 → exec (.kdrop k) s = .next (goes s s)) ∧
    (∀ i, OwnEnv s (kReg s k) i → EnvClear s i → 1 < countAt s i → ∃ t, exec (.kdrop k) s = .next t ∧ headAt t i + 2 ^ 32 = headAt s i ∧
      MemKeptBut (envAt s i) (envAt s i + 16) s t ∧ OnlyK k 0 s t) ∧
    (∀ i, OwnEnv s (kReg s k) i → EnvClear s i → countAt s i ≤ 1 → ∃ t, exec (.kdrop k) s = .next t ∧
      headAt t i = (if genAt s i = 2047 then 1 else genAt s i + 1) * 2 ^ 40 ∧
      (∀ z, envAt s i + 16 ≤ z → z < envAt s i + 128 → peek (here t).mem z = 0) ∧
      MemKeptBut (envAt s i) (envAt s i + 128) s t ∧ OnlyK k 0 s t))

/-- R197: KLD reads a capture word of an environment of the core, KST writes one that no by-reference slot marks. -/
def Sys2Proof.Claim.CaptureWords : Prop :=
  (∀ a k (n : BitVec 15) s s1 i, Passes uEA false [.kreg k, .wr a] s → OwnEnv s (kReg s k) i → n.toNat < ncapAt s i →
    writeResult a (BitVec.ofNat 64 (leValue (here s).mem (envAt s i + 16 + 8 * n.toNat) 8)) s = .ok ((), s1) →
    exec (.kld a k n) s = .next (goes s s1)) ∧
  (∀ k b (n : BitVec 15) s s1 v i, Passes uEA false [.kreg k, .rd b] s → isSpec s = false → readG b s = .ok (v, s1) →
    OwnEnv s (kReg s k) i → n.toNat < ncapAt s i → (∀ j < 4, ¬refersTo s i j n.toNat) →
    ∃ t, exec (.kst k b n) s = .next t ∧ StoredAt s.cur.core (envAt s i + 16 + 8 * n.toNat) 8 v.toNat s t ∧ StoreRegs s t ∧
      (threadOf t).pc = pcOf s + BitVec.ofNat 64 (lenOf s))

/-- R198: FRAME takes its operand rounded up to lines below the innermost frame, and UNFRAME gives the innermost back under
the next frame generation. -/
def Sys2Proof.Claim.Frames : Prop :=
  (∀ a b s s1 s2 x (q : Fin 4), Passes uEA false [.rd b, .wr a] s → unitSlot s.cur.unit = some q → readG b s = .ok (x, s1) →
    let n := (x.toNat + 63) / 64 * 64
    let d := (slotAt (here s) q).depth
    let p := if d = 0 then frameTop (here s) q else ((slotAt (here s) q).frames.toList.getD (d - 1) 0).toNat
    (d = 64 → exec (.frame a b) s = .next (onStop s (.trap (why 0x0E6 1) 0 none))) ∧
    (d < 64 → p < frameFloor (here s) q + n → exec (.frame a b) s = .next (onStop s (.trap (why 0x0E6 2) 0 none))) ∧
    (d < 64 → frameFloor (here s) q + n ≤ p →
      writeResult a (BitVec.ofNat 64 (p - n)) (changeSlot s1 fun y =>
        { y with frames := y.frames.set! d (BitVec.ofNat 64 (p - n)), depth := d + 1 }) = .ok ((), s2) →
      exec (.frame a b) s = .next (goes s s2))) ∧
  (∀ a s s1 (q : Fin 4), Passes uEA false [.wr a] s → unitSlot s.cur.unit = some q →
    let d := (slotAt (here s) q).depth
    (d = 0 → exec (.unframe a) s = .next (onStop s (.trap (why 0x0E6 3) 0 none))) ∧
    (0 < d →
      let p := if d = 1 then frameTop (here s) q else ((slotAt (here s) q).frames.toList.getD (d - 2) 0).toNat
      writeResult a (BitVec.ofNat 64 p) (changeSlot s fun y =>
        { y with fgen := y.fgen.set! (d - 1) (y.fgen.toList.getD (d - 1) 0 + 1), depth := d - 1 }) = .ok ((), s1) →
      exec (.unframe a) s = .next (goes s s1)))

/-- R199 (an environment of the core without by-reference captures): APPLY goes to the entry, which must be a PAD.K, with
the registers of CMASK dead, g1 the link, g3 the environment and the first eight captures in g8 onward. -/
def Sys2Proof.Claim.ApplyClosure : Prop :=
  ∀ k s i, Passes uEA false [.kreg k] s → OwnEnv s (kReg s k) i → nrefAt s i = 0 → (∀ j < 4, headAt s i / 2 ^ (79 + 16 * j) % 2 = 0) →
    PadAt s (BitVec.ofNat 64 (headAt s i % 2 ^ 32)) 2 → (∀ n : BitVec 5, NoLock s n) →
    ∃ t, exec (.apply k) s = .next t ∧ (threadOf t).pc = BitVec.ofNat 64 (headAt s i % 2 ^ 32) ∧
      regVal (threadOf t) 1 = pcOf s + BitVec.ofNat 64 (lenOf s) ∧ regVal (threadOf t) 3 = BitVec.ofNat 64 (envAt s i) ∧
      (∀ j < min (ncapAt s i) 8, regVal (threadOf t) (BitVec.ofNat 5 (8 + j)) =
        BitVec.ofNat 64 (leValue (here s).mem (envAt s i + 16 + 8 * j) 8)) ∧
      (∀ n : BitVec 5, n ≠ 1 → n ≠ 3 → (n.toNat < 8 ∨ 8 + min (ncapAt s i) 8 ≤ n.toNat) →
        (threadOf t).dead.getLsbD n.toNat =
          ((threadOf s).dead.getLsbD n.toNat || (decide (4 ≤ n.toNat) && (threadOf s).cmask.getLsbD n.toNat))) ∧
      MemKept s t ∧ (threadOf t).l0 = (threadOf s).l0 ∧ (threadOf t).k = (threadOf s).k

/-- R189, R200, R201: a closure operation on an environment of another core of the launch is asked of its home once, with the
shared queues that the instruction names claimed until it completes (R41); a handle of no core of the launch raises 0x0E0
subcode 2, a null one of KLD, KST and APPLY subcode 0. Where a KDUP's stream stops with the reference added and the instruction not
completed, the reference is dropped again (R188, R108). -/
def Sys2Proof.Claim.RemoteClosures : Prop :=
  (∀ s k, kReg s k = 0 →
    (Passes uEA false [.kreg k] s → exec (.apply k) s = .next (onStop s (.trap (why 0x0E0 0) 0 none))) ∧
    (∀ a n, Passes uEA false [.kreg k, .wr a] s → exec (.kld a k n) s = .next (onStop s (.trap (why 0x0E0 0) 0 none))) ∧
    (∀ b n v s1, Passes uEA false [.kreg k, .rd b] s → isSpec s = false → readG b s = .ok (v, s1) →
      exec (.kst k b n) s = .next (onStop s (.trap (why 0x0E0 0) 0 none)))) ∧
  (∀ s k, Passes uEA false [.kreg k] s → isSpec s = false → kReg s k ≠ 0 → (BitVec.ofNat 13 (kReg s k).toNat) ≠ s.cur.core →
    (inLaunch s s.cur.core (BitVec.ofNat 13 (kReg s k).toNat) = false →
      exec (.kdrop k) s = .next (onStop s (.trap (why 0x0E0 2) (BitVec.ofNat 64 (kReg s k).toNat) none)) ∧
      exec (.apply k) s = .next (onStop s (.trap (why 0x0E0 2) (BitVec.ofNat 64 (kReg s k).toNat) none))) ∧
    (inLaunch s s.cur.core (BitVec.ofNat 13 (kReg s k).toNat) = true →
      (request s (.closureDrop (kReg s k)) = none →
        exec (.kdrop k) s = .next (issueReq s (.closureDrop (kReg s k)) [] (threadOf s).rcd)) ∧
      (request s (.closureApply (kReg s k)) = none →
        exec (.apply k) s = .next (issueReq s (.closureApply (kReg s k)) [] (threadOf s).rcd)) ∧
      (∀ a n, Passes uEA false [.kreg k, .wr a] s → request s (.closureRead (kReg s k) n.toNat) = none →
        exec (.kld a k n) s = .next (issueReq s (.closureRead (kReg s k) n.toNat) (claimsOf [.wr a]) (threadOf s).rcd)) ∧
      (∀ b n v s1, Passes uEA false [.kreg k, .rd b] s → readG b s = .ok (v, s1) → request s (.closureWrite (kReg s k) n.toNat v) = none →
        exec (.kst k b n) s = .next (issueReq s (.closureWrite (kReg s k) n.toNat v) (claimsOf [.rd b]) (threadOf s).rcd)) ∧
      (∀ p v, request s (.closureDrop (kReg s k)) = some p → p.ans = some (.value v) →
        ∃ t, exec (.kdrop k) s = .next t ∧ OnlyK k 0 s t ∧ MemKept s t))) ∧
  (∀ s k b x s1, Passes uEA false [.rd b, .kreg k] s → isSpec s = false → readG b s = .ok (x, s1) → x.setWidth 32 ≠ (0 : Handle) →
    BitVec.ofNat 13 (x.setWidth 32).toNat ≠ s.cur.core → inLaunch s s.cur.core (BitVec.ofNat 13 (x.setWidth 32).toNat) = true →
    (request s (.closureAdd (x.setWidth 32) 0) = none →
      exec (.kdup k b) s = .next (issueReq s (.closureAdd (x.setWidth 32) 0) (claimsOf [.rd b]) (threadOf s1).rcd)) ∧
    (∀ p v, request s (.closureAdd (x.setWidth 32) 0) = some p → p.ans = some (.value v) →
      ∃ t, exec (.kdup k b) s = .next t ∧ OnlyK k (x.setWidth 32) s t ∧ MemKept s t)) ∧
  (∀ s h n p v, (threadOf s).pend = [p] → p.req = .closureAdd h n → p.ans = some (.value v) →
    releasePend s s.cur = dropHandle s s.cur.core h ∧ (pauseThread (threadOf s)).pend = [])


/-! ### The matrix engine and the accumulator (R24 to R26, R240 to R259) -/

namespace Sys2Proof.Claim
/-- R246: the formats of A and B, whether the operand reads are shared in the cluster (.MC), and a, b, c. -/
def mmaTable : Instr → Option (Fmt × Fmt × Bool × GReg × GReg × GReg)
  | .mmaE4m3 a b c => some (.e4m3, .e4m3, false, a, b, c)
  | .mmaE5m2 a b c => some (.e5m2, .e5m2, false, a, b, c)
  | .mmaE3m2 a b c => some (.e3m2, .e3m2, false, a, b, c)
  | .mmaE2m3 a b c => some (.e2m3, .e2m3, false, a, b, c)
  | .mmaE2m1 a b c => some (.e2m1, .e2m1, false, a, b, c)
  | .mmaBf16 a b c => some (.bf16, .bf16, false, a, b, c)
  | .mmaF16 a b c => some (.f16, .f16, false, a, b, c)
  | .mmaE4m3e5m2 a b c => some (.e4m3, .e5m2, false, a, b, c)
  | .mmaE5m2e4m3 a b c => some (.e5m2, .e4m3, false, a, b, c)
  | .mmaE4m3Mc a b c => some (.e4m3, .e4m3, true, a, b, c)
  | .mmaE5m2Mc a b c => some (.e5m2, .e5m2, true, a, b, c)
  | .mmaE3m2Mc a b c => some (.e3m2, .e3m2, true, a, b, c)
  | .mmaE2m3Mc a b c => some (.e2m3, .e2m3, true, a, b, c)
  | .mmaE2m1Mc a b c => some (.e2m1, .e2m1, true, a, b, c)
  | .mmaBf16Mc a b c => some (.bf16, .bf16, true, a, b, c)
  | .mmaF16Mc a b c => some (.f16, .f16, true, a, b, c)
  | .mmaE4m3e5m2Mc a b c => some (.e4m3, .e5m2, true, a, b, c)
  | .mmaE5m2e4m3Mc a b c => some (.e5m2, .e4m3, true, a, b, c)
  | _ => none
/-- Elements of a row, and its bytes (R246, R10): 64 of BF16 or F16, 128 of a narrow format. -/
def rowElems (f : Fmt) : Nat := if f = .bf16 ∨ f = .f16 then 64 else 128
def rowLen (f : Fmt) : Nat := rowElems f * fmtWidth f / 8
/-- The stride that a word gives: dense for 0, else a multiple of 32 that no two rows overlap under (R247). -/
def strideOk (f : Fmt) (n : Nat) : Prop := n = 0 ∨ (n % 32 = 0 ∧ rowLen f ≤ n)
def strideOf (f : Fmt) (n : Nat) : Nat := if n = 0 then rowLen f else n
/-- The near address names byte `y` of the core's own memory, the `n` bytes lie there and may be read, and no engine's
write holds a line of them, nor the anchor buffer a store to one (R244, R247). -/
def OwnOperand (s : State) (A : Word) (n y : Nat) : Prop :=
  ((A.toNat < 0x200000 ∧ y = A.toNat) ∨ (y < 0x200000 ∧ A.toNat = 0x40000000 + clidx s.cur.core * 0x200000 + y)) ∧
    y + n ≤ 0x200000 ∧ MayRead s y n ∧ scoreW (here s) (y / 64 * 64) ((y + n + 63) / 64 * 64) = false ∧
    bufferedAt s s.cur.core y n = false
/-- The operation is queued last at the engine and charged to mx, and nothing else differs (R243). -/
def MatQueued (s t : State) (op : MatOp) : Prop :=
  (∃ it, (here t).engQ = (here s).engQ ++ [it] ∧ it.op = op ∧ it.unit = s.cur.unit ∧ it.pc = pcOf s ∧ it.words = s.ir ∧
    it.lines = [] ∧ it.poisoned = []) ∧
  (threadOf t).mx = (threadOf s).mx + 1 ∧ MemKept s t ∧ StoreRegs s t ∧ OtherThreads s t ∧
  (here t).wAcc = (here s).wAcc ∧ (here t).pAcc = (here s).pAcc ∧ (here t).vAcc = (here s).vAcc ∧
  (threadOf t).pc = pcOf s + BitVec.ofNat 64 (lenOf s) ∧ { t with cores := s.cores, nextId := s.nextId } = s ∧
  ∀ d, d ≠ s.cur.core → coreAt t d = coreAt s d
/-- The engine takes one more operation of the stream (R243, R394). -/
def MatRoom (s : State) : Prop := Forks s ∧ (here s).accPresent = true ∧ (threadOf s).mx < 63 ∧ (here s).engQ.length < 8
end Sys2Proof.Claim

/-- R243, R247, R250, R251: an MMA of every format and SCACC, with operands in the core's own memory, MMAA and ACCZ are
queued at the engine. -/
def Sys2Proof.Claim.MatrixQueues : Prop :=
  (∀ i fa fb mc a b c, mmaTable i = some (fa, fb, mc, a, b, c) → ∀ s s1 s2 s3 y st x xo yo,
    Passes uV false [.rd b, .rd c, .rd a] s → MatRoom s → readG b s = .ok (y, s1) → readG c s1 = .ok (st, s2) →
    readG a s2 = .ok (x, s3) →
    let sa := st.toNat % 2 ^ 32
    let sb := st.toNat / 2 ^ 32
    strideOk fa sa → strideOk fb sb → x.toNat % 32 = 0 → y.toNat % 32 = 0 →
    OwnOperand s3 x (63 * strideOf fa sa + rowLen fa) xo → OwnOperand s3 y (95 * strideOf fb sb + rowLen fb) yo →
    ∃ t, exec i s = .next t ∧ MatQueued s t (.mma fa fb mc xo yo (strideOf fa sa) (strideOf fb sb))) ∧
  (∀ b c s s1 s2 x y xo yo, Passes uV false [.rd b, .rd c] s → MatRoom s → readG b s = .ok (x, s1) → readG c s1 = .ok (y, s2) →
    x.toNat % 4 = 0 → y.toNat % 4 = 0 → OwnOperand s2 x 256 xo → OwnOperand s2 y 384 yo →
    ∃ t, exec (.scacc b c) s = .next t ∧ MatQueued s t (.scacc xo yo)) ∧
  (∀ s, Passes uV false [] s → MatRoom s → (∃ t, exec .mmaa s = .next t ∧ MatQueued s t .mmaa) ∧
    (∃ t, exec .accz s = .next t ∧ MatQueued s t .accz))

/-- R247: what MMA refuses, first its strides with 0x101 subcode 1, then its bases off a multiple of 32 with 0x065. -/
def Sys2Proof.Claim.MatrixOperandTraps : Prop :=
  ∀ i fa fb mc a b c, mmaTable i = some (fa, fb, mc, a, b, c) → ∀ s s1 s2 s3 y st x,
    Passes uV false [.rd b, .rd c, .rd a] s → (here s).accPresent = true → readG b s = .ok (y, s1) → readG c s1 = .ok (st, s2) →
    readG a s2 = .ok (x, s3) →
    let sa := st.toNat % 2 ^ 32
    let sb := st.toNat / 2 ^ 32
    (¬strideOk fa sa → exec i s = .next (onStop s (.trap (why 0x101 1) (BitVec.ofNat 64 sa) none))) ∧
    (strideOk fa sa → ¬strideOk fb sb → exec i s = .next (onStop s (.trap (why 0x101 1) (BitVec.ofNat 64 sb) none))) ∧
    (strideOk fa sa → strideOk fb sb → x.toNat % 32 ≠ 0 → exec i s = .next (onStop s (.trap (why 0x065 0) x none))) ∧
    (strideOk fa sa → strideOk fb sb → x.toNat % 32 = 0 → y.toNat % 32 ≠ 0 →
      exec i s = .next (onStop s (.trap (why 0x065 0) y none)))

namespace Sys2Proof.Claim
/-- Row i of an operand as the engine decodes it from memory (R246). -/
def operandRow (m : Memory) (f : Fmt) (base stride i : Nat) : List FVal :=
  (List.range (rowElems f)).map fun k => decodeF f (leValue m (base + i * stride) (rowLen f) / 2 ^ (fmtWidth f * k) % 2 ^ fmtWidth f)
/-- The real sum of a list of products of finite values. -/
noncomputable def productSum : List (FVal × FVal) → Option ℝ
  | [] => some 0
  | (x, y) :: r => do return (← realOf x) * (← realOf y) + (← productSum r)
/-- R25's element from its four groups, each rounded: FAdd in order. -/
def chainOf4 (g : Nat → Nat) : Nat :=
  (fAdd .fp32 .rne (fAdd .fp32 .rne (fAdd .fp32 .rne (g 0) (g 1)).v (g 2)).v (g 3)).v
/-- The head of a core's engine queue, none of its lines read early, with its operands unpoisoned in own memory. -/
def EngineHead (s : State) (c : Coord) (it : MatItem) : Prop :=
  (∃ r, (coreAt s c).engQ = it :: r) ∧ (coreAt s c).accPresent = true ∧ it.lines = [] ∧ it.poisoned = [] ∧
    (coreAt s c).poison = [] ∧ c.toNat / 2 ^ 8 < 16
/-- The head is gone and its mx is given back; no memory differs, and of the other cores only the count of errors that the reads
of their lines correct (R218). -/
def EngineRetired (s t : State) (c : Coord) (it : MatItem) : Prop :=
  (coreAt t c).engQ = (coreAt s c).engQ.drop 1 ∧
    (threadAt (coreAt t c) it.unit).mx = (threadAt (coreAt s c) it.unit).mx - (if it.op = .swap then 0 else 1) ∧
    (coreAt t c).mem = (coreAt s c).mem ∧
    (∀ d, d ≠ c → { coreAt t d with flawed := (coreAt s d).flawed, corrected := (coreAt s d).corrected } = coreAt s d)
end Sys2Proof.Claim

/-- R25, R26, R250 to R252: what a retiring operation leaves in the accumulator: P from the rows of A and B, W with P added
or with P scaled and added, W cleared, W and V exchanged with their dirty bits; every element of the 64 by 96 tile. That an exchange of
different contents also marks both banks to be saved again is the model's reading (log 77). -/
def Sys2Proof.Claim.MatrixRetires : Prop :=
  (∀ s c it, EngineHead s c it → ∃ t, exec (.matrixOpRetire c) s = .next t ∧ EngineRetired s t c it ∧
    let k := coreAt s c
    let k' := coreAt t c
    (∀ fa fb mc ba bb sa sb, it.op = .mma fa fb mc ba bb sa sb → rowElems fa = rowElems fb →
      ba + 63 * sa + rowLen fa ≤ 0x200000 → bb + 95 * sb + rowLen fb ≤ 0x200000 →
      k'.wAcc = k.wAcc ∧ k'.vAcc = k.vAcc ∧ k'.pDirty = true ∧
      ∀ i < 64, ∀ j < 96, accGet k'.pAcc i j = (mmaElem (operandRow k.mem fa ba sa i) (operandRow k.mem fb bb sb j)).v % 2 ^ 32) ∧
    (it.op = .mmaa → k'.pAcc = k.pAcc ∧ k'.vAcc = k.vAcc ∧ k'.wDirty = true ∧
      ∀ i < 64, ∀ j < 96, accGet k'.wAcc i j = (fAdd .fp32 .rne (accGet k.wAcc i j) (accGet k.pAcc i j)).v % 2 ^ 32) ∧
    (∀ br bc, it.op = .scacc br bc → br + 256 ≤ 0x200000 → bc + 384 ≤ 0x200000 →
      k'.pAcc = k.pAcc ∧ k'.vAcc = k.vAcc ∧ k'.wDirty = true ∧
      ∀ i < 64, ∀ j < 96, accGet k'.wAcc i j =
        (fAdd .fp32 .rne (accGet k.wAcc i j) (fMul .fp32 .rne (fMul .fp32 .rne (accGet k.pAcc i j)
          (leValue k.mem (br + 4 * i) 4)).v (leValue k.mem (bc + 4 * j) 4)).v).v % 2 ^ 32) ∧
    (it.op = .accz → k'.pAcc = k.pAcc ∧ k'.vAcc = k.vAcc ∧ k'.wDirty = true ∧ ∀ i j, accGet k'.wAcc i j = 0) ∧
    (it.op = .swap → k'.pAcc = k.pAcc ∧ k'.wAcc = k.vAcc ∧ k'.vAcc = k.wAcc ∧
      k'.wDirty = k.vDirty ∧ k'.vDirty = k.wDirty ∧
      (k.wAcc ≠ k.vAcc → k'.wStale = true ∧ k'.vStale = true) ∧
      (k.wAcc = k.vAcc → k'.wStale = (k.wStale || k.vStale) ∧ k'.vStale = (k.wStale || k.vStale))))

/-- R25: for finite rows an element is the FAdd chain of its four groups, each the exact sum of its products rounded to
nearest even. -/
def Obligations.MatrixGroupsRound : Prop :=
  ∀ (a b : List FVal) (n : Nat) (x : Nat → ℝ), a.length = 4 * n → b.length = 4 * n → 0 < n →
    (∀ g < 4, productSum (((a.zip b).drop (g * n)).take n) = some (x g) ∧ x g ≠ 0 ∧ InRange .fp32 (x g)) →
    ∃ r : Nat → Nat, (∀ g < 4, RoundsNearest .fp32 (x g) (r g)) ∧ (mmaElem a b).v = chainOf4 r

/-- R252: ACCSWAP is queued at the engine by a request, and its stream goes on when the exchange is made. -/
def Sys2Proof.Claim.AccumulatorSwap : Prop :=
  ∀ s, Passes uV false [] s → (here s).accPresent = true →
    (request s (.swap 0) = none → (here s).engQ.length < 8 → exec .accswap s = .next (issueReq s (.swap 0) [] (threadOf s).rcd) ∧
      ∃ it, (here (issueReq s (.swap 0) [] (threadOf s).rcd)).engQ = (here s).engQ ++ [it] ∧ it.op = .swap ∧ it.unit = s.cur.unit) ∧
    (∀ p v, request s (.swap 0) = some p → p.ans = some (.value v) → exec .accswap s = .next (goes s s))

/-- R253: ACFG takes 0 or a shape of 1 to 64 rows and 16 to 96 columns by 16, and raises 0x100 subcode 3 for any other
value, with the value in FADDR. -/
def Sys2Proof.Claim.AccumulatorShape : Prop :=
  ∀ b s s1 v, Passes uV false [.rd b] s → (here s).accPresent = true → readG b s = .ok (v, s1) →
    let legal := v = 0 ∨ ∃ r c : Nat, 1 ≤ r ∧ r ≤ 64 ∧ 1 ≤ c ∧ c ≤ 6 ∧ v = BitVec.ofNat 64 (r + 256 * (16 * c))
    (legal → exec (.acfg b) s = .next (goes s (mapCore s1 s.cur.core fun k => { k with acfg := v }))) ∧
    (¬legal → exec (.acfg b) s = .next (onStop s (.trap (why 0x100 3) v none)))

namespace Sys2Proof.Claim
/-- The row and column of V that element i names (R254): along a row from a column, or along a column from a row. -/
def cellIn (byRow : Bool) (x y i : Nat) : Nat × Nat := if byRow then (x, y + i) else (y + i, x)
/-- The cell lies in the window of ACFG. -/
def InWindow (s : State) (p : Nat × Nat) : Prop := p.1 < (here s).acfg.toNat % 2 ^ 7 ∧ p.2 < (here s).acfg.toNat / 2 ^ 8 % 2 ^ 7
/-- The operands of an access to V are those of R254, for VL above 0. -/
def AccessV (s : State) (byRow : Bool) (a : VReg) (b c : GReg) (m : MReg) (x y : Word) : Prop :=
  Passes uV false [.rd b, .rd c] s ∧ (here s).accPresent = true ∧ VOk s ∧ (vtOf s).fp = true ∧ (vtOf s).fpk = 0 ∧ (vtOf s).sew = 32 ∧
    Fits a (vtOf s).grp ∧ (vtOf s).vl ≠ 0 ∧ (here s).acfg ≠ 0 ∧
    (here s).acfg.toNat % 2 ^ 7 ≤ 64 ∧ (here s).acfg.toNat / 2 ^ 8 % 2 ^ 7 ≤ 96 ∧ (∃ s1 s2, readG b s = .ok (x, s1) ∧ readG c s1 = .ok (y, s2)) ∧
    ∀ i, activeIn s m i → InWindow s (cellIn byRow x.toNat y.toNat i)
/-- An element that ACCST stores: FP32 as it is, BF16 rounded with the largest finite on overflow, or E4M3 saturated
(R255). -/
def storedElem (f : Lit3) (v : Nat) : Nat :=
  if f = 0 then v
  else if f = 1 then
    if (cvtF .fp32 .bf16 .rne v).f &&& 4 = 0 then (cvtF .fp32 .bf16 .rne v).v else v / 2 ^ 31 % 2 * 2 ^ 15 + 0x7F7F
  else (saturate .fp32 .e4m3 .rne true v).v
def elemSize (f : Lit3) : Nat := if f = 0 then 4 else if f = 1 then 2 else 1
end Sys2Proof.Claim

/-- R254: ACCRD reads cells of V into active elements, ACCWR writes them; R255: ACCST stores the window row by row, each
element in format f, and changes no other byte, but for the records of tasks that it aborts (R87, R69); a poisoned word that shares a
byte with a row stops being poisoned (R257). -/
def Sys2Proof.Claim.AccumulatorAccess : Prop :=
  (∀ i byRow a b c m, ((i = .accrdR a b c m ∧ byRow = true) ∨ (i = .accrdC a b c m ∧ byRow = false)) → ∀ s x y,
    AccessV s byRow a b c m x y → ∃ t, exec i s = .next t ∧
      VecDone a (vtOf s).grp 32 m (fun k => noFlag (accGet (here s).vAcc (cellIn byRow x.toNat y.toNat k).1
        (cellIn byRow x.toNat y.toNat k).2)) s t) ∧
  (∀ i byRow a b c m, ((i = .accwrR a b c m ∧ byRow = true) ∨ (i = .accwrC a b c m ∧ byRow = false)) → ∀ s x y,
    AccessV s byRow a b c m x y → ∃ t, exec i s = .next t ∧ StoreRegs s t ∧ MemKept s t ∧ (slotOf t).v = (slotOf s).v ∧
      (∀ k, activeIn s m k → accGet (here t).vAcc (cellIn byRow x.toNat y.toNat k).1 (cellIn byRow x.toNat y.toNat k).2 =
        velem s a (vtOf s).grp 32 k) ∧
      (∀ r < 64, ∀ q < 96, (∀ k, activeIn s m k → cellIn byRow x.toNat y.toNat k ≠ (r, q)) →
        accGet (here t).vAcc r q = accGet (here s).vAcc r q) ∧
      (threadOf t).pc = pcOf s + BitVec.ofNat 64 (lenOf s)) ∧
  (∀ a b (f : Lit3) s s1 s2 d x, Passes uV false [.rd b, .rd a] s → f.toNat ≤ 2 → (here s).accPresent = true →
    readG b s = .ok (d, s1) → readG a s1 = .ok (x, s2) → (here s).acfg ≠ 0 →
    let n := elemSize f
    let rows := (here s).acfg.toNat % 2 ^ 7
    let cols := (here s).acfg.toNat / 2 ^ 8 % 2 ^ 7
    x.toNat % n = 0 → d.toNat % n = 0 → 0 < cols → cols * n ≤ d.toNat →
    (∀ r < rows, x.toNat + r * d.toNat + cols * n ≤ 0x200000 ∧ MayWrite s2 (x.toNat + r * d.toNat) (cols * n) ∧
      scoreRW (here s2) ((x.toNat + r * d.toNat) / 64 * 64) ((x.toNat + r * d.toNat + cols * n + 63) / 64 * 64) = false) →
    let free := fun z => (∀ r < rows, AbortsNone s2 (x.toNat + r * d.toNat) (cols * n)) ∨ inHome (here s) z = false
    ∃ t, exec (.accst a b f) s = .next t ∧
      (∀ r < rows, ∀ q < cols, (∀ z, x.toNat + r * d.toNat + q * n ≤ z → z < x.toNat + r * d.toNat + q * n + n → free z) →
        leValue (here t).mem (x.toNat + r * d.toNat + q * n) n =
        storedElem f (accGet (here s).vAcc r q) % 2 ^ (8 * n)) ∧
      (∀ z, free z → (∀ r < rows, z < x.toNat + r * d.toNat ∨ x.toNat + r * d.toNat + cols * n ≤ z) →
        peek (here t).mem z = peek (here s).mem z) ∧
      ((∀ r < rows, AbortsNone s2 (x.toNat + r * d.toNat) (cols * n)) → ∀ p, p ∈ (here t).poison ↔ p ∈ (here s).poison ∧
        ∀ r < rows, overlap (8 * p) (8 * p + 8) (x.toNat + r * d.toNat) (x.toNat + r * d.toNat + cols * n) = false) ∧
      (here t).vAcc = (here s).vAcc ∧ (∀ r, regVal (threadOf t) r = regVal (threadOf s) r) ∧
      (threadOf t).fcsr.setWidth 24 = (threadOf s).fcsr.setWidth 24 ∧ (threadOf t).pc = pcOf s + BitVec.ofNat 64 (lenOf s))

/-- R249, R257: when a held read is served, every .MC operation queued in the cluster that needs the line has it read then;
the operations stay what they are, and no other state of any core changes but the count of errors that the read corrects (R218). R249
gives an A line to the operations of the same cluster row and a B line to those of the same cluster column; that every queued .MC
operation of the cluster that names the line is served is the model's choice, not the manual's, and R244 makes it unobservable (log 111,
DESIGN CHOICE). -/
def Sys2Proof.Claim.HeldReadServed : Prop :=
  ∀ s (c : Coord) line, ∃ t, exec (.mcHoldExpiry c line) s = .next t ∧ { t with cores := s.cores } = s ∧
    ∀ d, { coreAt t d with engQ := (coreAt s d).engQ, flawed := (coreAt s d).flawed, corrected := (coreAt s d).corrected } = coreAt s d ∧
      (coreAt t d).engQ.map (fun it => (it.id, it.op)) = ((coreAt s d).engQ.map fun it => (it.id, it.op)) ∧
      ∀ j < 16, d = member c j → ∀ it ∈ (coreAt s d).engQ, ∀ fa fb ba bb sa sb, it.op = .mma fa fb true ba bb sa sb →
        ∀ r ∈ matRanges it.op, ∀ l ∈ linesOf r.1 (r.1 + r.2), placeOf d l = (c, line / 64 * 64) →
          ∃ it' ∈ (coreAt t d).engQ, it'.id = it.id ∧ it'.op = it.op ∧ ∃ v, (l, v) ∈ it'.lines


/-! ### The copy engine (R221 to R239) -/

namespace Sys2Proof.Claim
/-- The 64 bytes at a shape record's address, where they can be read (R224, R233). -/
def RecordAt (s : State) (ra : Word) (r : BitVec 512) : Prop :=
  ∃ y, ((ra.toNat < 0x200000 ∧ y = ra.toNat) ∨ (y < 0x200000 ∧ ra.toNat = 0x40000000 + clidx s.cur.core * 0x200000 + y)) ∧
    y % 64 = 0 ∧ MayRead s y 64 ∧ scoreW (here s) y (y + 64) = false ∧ poisonIn (here s) y 64 = none ∧
    r.toNat = leValue (here s).mem y 64
/-- The transfer's own-memory ranges are open to it, away from the anchor view; the barrier's 16 bytes may be written (R233, R234). -/
def CopyAllowed (s : State) (r : BitVec 512) (gather : Bool) (p : Nat) : Prop :=
  let own := ownSides s.cur.core (nearSides r gather p)
  (∀ q ∈ own, (q.2.2.1 = true → MayWrite s q.1 (q.2.1 - q.1)) ∧ (q.2.2.1 = false ∨ q.2.2.2.1 = true → MayRead s q.1 (q.2.1 - q.1)) ∧
    (q.2.2.2.2 = true → viewHit s q.1 q.2.1 = false)) ∧
  (cBaren r = true → MayWrite s (cBar r) 16)
/-- An entry of the scoreboard is a queued bank command's (R397 lists no VAMO). -/
def CommandEntry (s : State) (e : Score) : Prop :=
  ∃ b ∈ (here s).bankQ, e.owner = .bank b.id ∧ ∃ op ty scal src base lines result todo reads,
    b.work = .command op ty scal src base lines result todo reads
/-- No bank command is in the transfer's way, and channel and scoreboard have room (R233). -/
def CopyRoom (s : State) (q : Fin 4) (r : BitVec 512) (gather : Bool) (p : Nat) : Prop :=
  let own := ownSides s.cur.core (nearSides r gather p)
  (∀ e ∈ (here s).score, CommandEntry s e →
    meets (scoreRanges own).1 (e.writes ++ e.reads) = false ∧ meets (scoreRanges own).2 e.writes = false) ∧
  (chanAt (here s) q).queue.length < 8 ∧ (here s).score.length < 16
/-- Transfer `t` is the one that the instruction names. -/
def CopyItem (s : State) (t : Transfer) (id : BitVec 32) (gather : Bool) (r : BitVec 512) (p : Nat) : Prop :=
  t.id = id ∧ t.gather = gather ∧ t.rcd = r ∧ t.packed = p ∧ t.unit = s.cur.unit ∧ t.pc = pcOf s ∧ t.words = s.ir ∧ t.next = 0 ∧
    t.flags = 0 ∧ t.clipped = false ∧ t.skipped = 0 ∧ t.failed = none
/-- Sequence number `a` is at or past `b` in the channel's 32-bit order (R222). -/
def Reached (a b : BitVec 32) : Prop := (a - b).toNat < 2 ^ 31
end Sys2Proof.Claim

/-- R222, R233, R234: CPY and CPG with a valid record queue a transfer at the channel under the next number, which is their
result in l0, once the stream's earlier window stores and global accesses have taken effect (R394); the scoreboard holds its
own-memory ranges, and the closure of KDONE has one reference more. A record that fails check n of R227 raises 0x120 subcode n. The
model's choices, not the manual's: a copy that finds no room keeps its record and is not checked again, and adds the reference when it
issues (log 79, DESIGN CHOICE); a null KDONE with KEN = 1 passes the checks and takes no reference (log 96, DESIGN CHOICE). -/
def Sys2Proof.Claim.CopiesQueue : Prop :=
  ∀ i gather (ch : Lit3) b c, ((i = .cpy ch b c ∧ gather = false) ∨ (i = .cpg ch b c ∧ gather = true)) → ∀ s s1 s2 ra p r (q : Fin 4),
    Passes uEA false [.rd b, .rd c] s → ch.toNat = q.val → isSpec s = false → readG b s = .ok (ra, s1) → readG c s1 = .ok (p, s2) →
    ((threadOf s).rcd = none → RecordAt s2 ra r → ∀ n, shapeCheck s2 r gather p.toNat = some n →
      exec i s = .next (onStop s (.trap (why 0x120 n) ra none))) ∧
    (((threadOf s).rcd = some r ∨
      (threadOf s).rcd = none ∧ RecordAt s2 ra r ∧ shapeCheck s2 r gather p.toNat = none ∧ CopyAllowed s2 r gather p.toNat) →
      (cKen r = false ∨ hHome (cKdone r) = s.cur.core ∧ ((threadOf s).rcd = some r ∨ kdupRefusal s2 (cKdone r) = none) ∨ cKdone r = 0) →
      ¬(CopyRoom s2 q r gather p.toNat ∧ Forks s2) →
      exec i s = .next (onStop s (.keep r (claimsOf [.rd b, .rd c])))) ∧
    (((threadOf s).rcd = some r ∨
      (threadOf s).rcd = none ∧ RecordAt s2 ra r ∧ shapeCheck s2 r gather p.toNat = none ∧ CopyAllowed s2 r gather p.toNat) →
      CopyRoom s2 q r gather p.toNat → Forks s2 →
      (let own := scoreRanges (ownSides s.cur.core (nearSides r gather p.toNat)); NoneWaits s2 (own.1 ++ own.2)) →
      (cKen r = false ∨ cKdone r = 0 ∨ ∃ e, OwnEnv s (cKdone r) e ∧ EnvClear s e ∧ countAt s e < 255 ∧ (here s).power = .on) →
      ∃ t x, exec i s = .next t ∧ CopyItem s x ((chanAt (here s) q).counter + 1) gather r p.toNat ∧
        (chanAt (here t) q).queue = (chanAt (here s) q).queue ++ [x] ∧ (chanAt (here t) q).counter = (chanAt (here s) q).counter + 1 ∧
        (here t).score = (here s).score ++ [⟨.copy q x.id, (scoreRanges (ownSides s.cur.core (nearSides r gather p.toNat))).1,
          (scoreRanges (ownSides s.cur.core (nearSides r gather p.toNat))).2⟩] ∧
        (threadOf t).l0 = x.id.setWidth 64 ∧ (threadOf t).l1 = (threadOf s).l0 ∧ (∀ n, regVal (threadOf t) n = regVal (threadOf s) n) ∧
        (threadOf t).fcsr = (threadOf s).fcsr ∧ (threadOf t).pc = pcOf s + BitVec.ofNat 64 (lenOf s) ∧
        (cKen r = false ∨ cKdone r = 0 → MemKept s t) ∧
        (∀ e, cKen r = true → OwnEnv s (cKdone r) e → headAt t e = headAt s e + 2 ^ 32 ∧ MemKeptBut (envAt s e) (envAt s e + 16) s t))

/-- R236, R237: CPWAIT of a number not yet given raises 0x124, stalls until the channel has done it, and then goes on
where no transfer of the stream up to it failed (that it compares the low 32 bits of its operand is the model's choice, log 34);
CPSTAT reads the last done, the queue's length and whether one failed. -/
def Sys2Proof.Claim.CopyWaits : Prop :=
  (∀ (ch : Lit3) b s s1 w (q : Fin 4), Passes uEA false [.rd b] s → ch.toNat = q.val → readG b s = .ok (w, s1) →
    let x := chanAt (here s) q
    let g : BitVec 32 := w.setWidth 32
    (¬Reached x.counter g → exec (.cpwait ch b) s = .next (onStop s (.trap (why 0x124 0) w none))) ∧
    (Reached x.counter g → ¬Reached x.done g → exec (.cpwait ch b) s = .next (onStop s (.stall false))) ∧
    (Reached x.counter g → Reached x.done g →
      (∀ f ∈ x.failed, f.unit = s.cur.unit → f.serial = (slotOf s).serial → ¬Reached g f.id) →
      exec (.cpwait ch b) s = .next (goes s s1))) ∧
  (∀ a (ch : Lit3) s s1 (q : Fin 4) bit, Passes uEA false [.wr a] s → ch.toNat = q.val →
    ((bit = 1 ∧ ∃ f ∈ (chanAt (here s) q).failed, f.unit = s.cur.unit ∧ f.serial = (slotOf s).serial) ∨
      (bit = 0 ∧ ∀ f ∈ (chanAt (here s) q).failed, ¬(f.unit = s.cur.unit ∧ f.serial = (slotOf s).serial))) →
    writeResult a (BitVec.ofNat 64 ((chanAt (here s) q).done.toNat + 2 ^ 32 * (chanAt (here s) q).queue.length + bit * 2 ^ 36)) s = .ok ((), s1) →
    exec (.cpstat a ch) s = .next (goes s s1)) ∧
  (∀ i (ch : Lit3) a b c s, (i = .cpy ch b c ∧ Passes uEA false [.rd b, .rd c] s ∨ i = .cpg ch b c ∧ Passes uEA false [.rd b, .rd c] s ∨
      i = .cpwait ch b ∧ Passes uEA false [.rd b] s ∨ i = .cpstat a ch ∧ Passes uEA false [.wr a] s) → 3 < ch.toNat →
    exec i s = .next (onStop s (.trap (why 0x002 5) (baseAddr s) none)))

namespace Sys2Proof.Claim
/-- Where unit `u` of a plain transfer is read from and written to, as how many bytes, and how its value is converted (R225,
R226): DIR 0 reads the tensor, DIR 1 the packed side. -/
def srcOf (t : Transfer) (u : Nat) : Nat := if cDir t.rcd = 0 then (tensorAddr t u 0).toNat else packedAddr t u 0
def dstOf (t : Transfer) (u : Nat) : Nat := if cDir t.rcd = 0 then packedAddr t u 0 else (tensorAddr t u 0).toNat
def srcLen (t : Transfer) : Nat := if cDir t.rcd = 0 then eBytes t.rcd else pBytes t.rcd
def dstLen (t : Transfer) : Nat := if cDir t.rcd = 0 then pBytes t.rcd else eBytes t.rcd
/-- The value that unit `u` writes, with its flags: from a line that the engine has read already, else from memory (R398). -/
def unitValue (s : State) (c : Coord) (t : Transfer) (u : Nat) : Fr Nat :=
  let v := if t.lines.any (fun l => l.1 == srcOf t u / 64 * 64) then spanNat t.lines (srcOf t u) (srcLen t)
    else leValue (coreAt s c).mem (srcOf t u) (srcLen t)
  if cDir t.rcd = 0 then convLoad t.rcd v else convStore t.rcd v
/-- Byte `z` is none that aborts of the piece's writes may change: none happens, or it is outside the home-queue region. -/
def PieceFree (s : State) (c : Coord) (t : Transfer) (m z : Nat) : Prop :=
  ((∀ u, t.next ≤ u → u < m → abortHits (coreAt s c) c (dstOf t u) (dstOf t u + dstLen t) t.task = []) ∧
    (cBaren t.rcd = true → abortHits (coreAt s c) c (cBar t.rcd) (cBar t.rcd + 16) t.task = [])) ∨ inHome (coreAt s c) z = false
/-- Units [t.next, m) are what is left of the channel's first transfer up to the end of a 64-byte destination piece, or of the
transfer: plain and inside the tensor, no other piece under way, both sides aligned in the core's own memory without poison, no source byte written by
them, and the barrier's 16 bytes apart from both sides. -/
def PieceUnits (s : State) (c : Coord) (q : Fin 4) (t : Transfer) (m : Nat) : Prop :=
  (∃ r, (chanAt (coreAt s c) q).queue = t :: r) ∧ (chanAt (coreAt s c) q).held = none ∧ t.failed = none ∧ t.half = 0 ∧
    (t.piece = none ∨ t.piece = some (dstOf t t.next / 64)) ∧ t.gather = false ∧ c24 t.rcd = false ∧ cDir t.rcd < 2 ∧ cEsz t.rcd ≤ 3 ∧ (coreAt s c).poison = [] ∧ t.poisoned = [] ∧
    t.next < m ∧ m ≤ unitTotal t.rcd ∧ m ≤ t.next + 64 ∧ (m = unitTotal t.rcd ∨ dstOf t m / 64 ≠ dstOf t t.next / 64) ∧
    (∀ u, t.next ≤ u → u < m → outsideTensor t u = false ∧ dstOf t u / 64 = dstOf t t.next / 64 ∧
      srcOf t u % srcLen t = 0 ∧ srcOf t u + srcLen t ≤ 0x200000 ∧ dstOf t u + dstLen t ≤ 0x200000 ∧
      (∀ z, srcOf t u ≤ z → z < srcOf t u + srcLen t → PieceFree s c t m z) ∧
      (∀ w, t.next ≤ w → w < m → dstOf t w + dstLen t ≤ srcOf t u ∨ srcOf t u + srcLen t ≤ dstOf t w) ∧
      (cBaren t.rcd = true → (cBar t.rcd + 16 ≤ srcOf t u ∨ srcOf t u + srcLen t ≤ cBar t.rcd) ∧
        (cBar t.rcd + 16 ≤ dstOf t u ∨ dstOf t u + dstLen t ≤ cBar t.rcd)))
end Sys2Proof.Claim

/-- R225, R226, R234, R238: COPY_PIECE moves every element left up to the end of a destination piece, between tensor and packed
side, converted as CONV says, with their flags; the transfer then stands at the next piece, nothing of it moved twice. With BAREN
each element's destination bytes are subtracted from the barrier. A channel without a transfer, or with one that failed or whose
record is still held, does nothing. -/
def Sys2Proof.Claim.CopyPieceMoves : Prop :=
  (∀ s c q t m, PieceUnits s c q t m →
    ∃ v, exec (.copyPiece c q) s = .next v ∧
      (∃ t' r, (chanAt (coreAt s c) q).queue = t :: r ∧ (chanAt (coreAt v c) q).queue = t' :: r ∧ t'.id = t.id ∧ t'.rcd = t.rcd ∧
        t'.next = m ∧ t'.half = 0 ∧ t'.piece = none ∧ t'.failed = none ∧ t'.clipped = t.clipped ∧
        t'.flags = (List.range (m - t.next)).foldl (fun f k => f ||| (unitValue s c t (t.next + k)).f) t.flags) ∧
      (∀ u, t.next ≤ u → u < m → ∀ i < dstLen t, PieceFree s c t m (dstOf t u + i) →
        (∀ w, u < w → w < m → ¬(dstOf t w ≤ dstOf t u + i ∧ dstOf t u + i < dstOf t w + dstLen t)) →
        peek (coreAt v c).mem (dstOf t u + i) = BitVec.ofNat 8 ((unitValue s c t u).v / 256 ^ i)) ∧
      (cBaren t.rcd = true → (∀ z, cBar t.rcd ≤ z → z < cBar t.rcd + 16 → PieceFree s c t m z) →
        leValue (coreAt v c).mem (cBar t.rcd) 16 =
          (fun b => barImage (barSub (barOf b) (dstLen t)))^[m - t.next] (leValue (coreAt s c).mem (cBar t.rcd) 16)) ∧
      (∀ z, PieceFree s c t m z → (∀ u, t.next ≤ u → u < m → z < dstOf t u ∨ dstOf t u + dstLen t ≤ z) →
        (cBaren t.rcd = true → z < cBar t.rcd ∨ cBar t.rcd + 16 ≤ z) →
        peek (coreAt v c).mem z = peek (coreAt s c).mem z)) ∧
  (∀ s c (q : Fin 4), ((chanAt (coreAt s c) q).queue = [] ∨ (chanAt (coreAt s c) q).held ≠ none ∨
      ∃ t r, (chanAt (coreAt s c) q).queue = t :: r ∧ t.failed ≠ none) → exec (.copyPiece c q) s = .next s)

namespace Sys2Proof.Claim
/-- The channel's first transfer may complete (R223, R228): it failed, or every byte is written and, of a send or an RMA write,
acknowledged by the peer; no earlier completion record is held. -/
def MayComplete (s : State) (c : Coord) (q : Fin 4) (t : Transfer) : Prop :=
  (∃ r, (chanAt (coreAt s c) q).queue = t :: r) ∧ (chanAt (coreAt s c) q).held = none ∧
    (t.failed ≠ none ∨ (unitTotal t.rcd ≤ t.next ∧ (cDir t.rcd = 2 ∨ cDir t.rcd = 3 → t.acked = true)))
/-- A message of 8 words fits into the mailbox, and none waits before it (R119). -/
def EightFree (k : Core) : Prop := k.mbHeld = [] ∧ k.mb.length + 8 ≤ 128
/-- The status that a completion closure receives: 0, or the failure's cause and subcode (R235). -/
def endStatus (t : Transfer) : Word := match t.failed with
  | some (w, _) => BitVec.ofNat 64 (w.cause.toNat + 2 ^ 9 * w.sub.toNat)
  | none => 0
end Sys2Proof.Claim

/-- R223, R228, R235, R237: a transfer that has all its bytes moved, or has failed, completes: the channel's done number becomes
its own, its scoreboard entry is freed, a clipped one's message goes to the mailbox, its failure waits at the channel for the body
that issued it, and with KEN its completion record is ready; that record is queued at the home when the home takes it. What is not
ready waits; so does a clip message without room, in the mailbox's order, and its transfer with it (R119). -/
def Sys2Proof.Claim.CopyCompletes : Prop :=
  (∀ s c (q : Fin 4) t, MayComplete s c q t → (t.clipped = true ∨ t.skipped ≠ 0 → EightFree (coreAt s c)) →
    ∃ v, exec (.copyTransferComplete c q) s = .next v ∧ (chanAt (coreAt v c) q).queue = (chanAt (coreAt s c) q).queue.drop 1 ∧
      (chanAt (coreAt v c) q).done = t.id ∧ (chanAt (coreAt v c) q).counter = (chanAt (coreAt s c) q).counter ∧
      (coreAt v c).score = dropFirst (fun e => e.owner == .copy q t.id) (coreAt s c).score ∧
      (t.clipped = false ∧ t.skipped = 0 → (coreAt v c).mem = (coreAt s c).mem ∧ (coreAt v c).mb = (coreAt s c).mb) ∧
      (t.clipped = true ∨ t.skipped ≠ 0 → (coreAt v c).mb = (coreAt s c).mb ++ clipMessage q t) ∧
      (t.failed = none → (chanAt (coreAt v c) q).failed = (chanAt (coreAt s c) q).failed) ∧
      (∀ w a, t.failed = some (w, a) → sameBody (coreAt s c) t.unit t.serial t.task = true →
        (chanAt (coreAt v c) q).failed = (chanAt (coreAt s c) q).failed ++ [⟨t.id, t.unit, t.serial, t.pc, t.words, w, a⟩]) ∧
      (chanAt (coreAt v c) q).held = if cKen t.rcd then
        some (mkRcd 0 0 0 (cKdone t.rcd) 0 (t.id.setWidth 64) (endStatus t) (BitVec.ofNat 64 q.val) 0) else none) ∧
  (∀ s c (q : Fin 4) t, MayComplete s c q t → (t.clipped = true ∨ t.skipped ≠ 0) → ¬EightFree (coreAt s c) →
    exec (.copyTransferComplete c q) s = .next (mapCore s c fun k =>
      if k.mbHeld.any fun m => m.1 == .clip q then k else { k with mbHeld := k.mbHeld ++ [(.clip q, clipMessage q t)] })) ∧
  (∀ s c (q : Fin 4), (∀ t, ¬MayComplete s c q t) → exec (.copyTransferComplete c q) s = .next s) ∧
  (∀ s c (q : Fin 4) r, (chanAt (coreAt s c) q).held = some r →
    (refusal (coreAt s c) r = none → ∃ v e, exec (.completionRecordEnqueue c q) s = .next v ∧
      (coreAt v c).home = (coreAt s c).home ++ [e] ∧ e.rcd = r ∧ e.taker = none ∧ e.promoted = false ∧ (chanAt (coreAt v c) q).held = none) ∧
    (refusal (coreAt s c) r ≠ none → exec (.completionRecordEnqueue c q) s = .next s) ∧
    (rcdValid r = false → (refusal (coreAt s c) r = none ↔ (coreAt s c).home.length < 1024))) ∧
  (∀ s c (q : Fin 4), (chanAt (coreAt s c) q).held = none → exec (.completionRecordEnqueue c q) s = .next s)


/-! ### Tasks (R66 to R98) -/

namespace Sys2Proof.Claim
/-- The continuation record at near address `ra`, on a line of own memory, unpoisoned and not being written, none of it held in the
body's anchor buffer (R67, R94, R101). -/
def TaskRecord (s : State) (ra : Word) (r : BitVec 512) : Prop :=
  ∃ y, ((ra.toNat < 0x200000 ∧ y = ra.toNat) ∨ (y < 0x200000 ∧ ra.toNat = 0x40000000 + clidx s.cur.core * 0x200000 + y)) ∧
    y % 64 = 0 ∧ scoreW (here s) y (y + 64) = false ∧ poisonIn (here s) y 64 = none ∧
      bufferedAt s s.cur.core y 64 = false ∧ r.toNat = leValue (here s).mem y 64
/-- A handle of a record to which the creating core can add a reference or two: null, or of a live environment of its own,
whose header no speculative far task has read (R87) and which lies outside the home-queue region, as R118 keeps it. -/
def Addable (s : State) (h : Handle) : Prop :=
  h = 0 ∨ ∃ e, OwnEnv s h e ∧ countAt s e < 254 ∧ abortHits (here s) s.cur.core (envAt s e) (envAt s e + 16) none = [] ∧
    ∀ z, envAt s e ≤ z → z < envAt s e + 16 → inHome (here s) z = false
/-- Each environment of the core that the handles name has one reference more for each; every other byte is as before, but for the
home-queue region, where a record may be added (R69). -/
def RefsAdded (s t : State) (hs : List Handle) : Prop :=
  (∀ h ∈ hs, h ≠ 0 → ∀ e, OwnEnv s h e → countAt t e = countAt s e + (hs.filter fun x => x == h).length) ∧
    ∀ z, inHome (here s) z = false → (∀ h ∈ hs, h ≠ 0 → ∀ e, OwnEnv s h e → z < envAt s e ∨ envAt s e + 16 ≤ z) → peek (here t).mem z = peek (here s).mem z
/-- The record with nothing of it yet under way, last at a home, its bytes in the home-queue region (R69, R70). -/
def Enqueued (k k' : Core) (r : BitVec 512) : Prop :=
  ∃ e, k'.home = k.home ++ [e] ∧ e.rcd = r ∧ e.taker = none ∧ e.promoted = false ∧ e.bitmap = 0 ∧ e.seq = k.nextEntry ∧
    e.place < 1024 ∧ leValue k'.mem (k'.tqbase.toNat + 64 * e.place) 64 = r.toNat
/-- What TRET and TSUSP ask of the slot `i` (R95): no access stream but one that a handler holds, no failed posted entry left
to report, st and bk of both streams 0, no speculation. -/
def BodyDone (s : State) (i : Fin 4) : Prop :=
  s.cur.unit = .stream i .exec ∧ isSpec s = false ∧
    ((threadAt (here s) (.stream i .acc)).running = false ∨ (slotAt (here s) i).st = .trapped) ∧
    (∀ p ∈ (slotAt (here s) i).posted, p.failed = none) ∧
    ∀ x : Side, (threadAt (here s) (.stream i x)).st = 0 ∧ (threadAt (here s) (.stream i x)).bk = 0
/-- The slot has left its task: idle, its queues and frames empty, both streams stopped (R106, R186). -/
def SlotLeft (k' : Core) (i : Fin 4) : Prop :=
  (slotAt k' i).st = .idle ∧ (slotAt k' i).task = none ∧ (slotAt k' i).lq = [] ∧ (slotAt k' i).sq = [] ∧ (slotAt k' i).bo = [] ∧
    (slotAt k' i).rt = [] ∧ (slotAt k' i).depth = 0 ∧ ∀ x : Side, (threadAt k' (.stream i x)).running = false
end Sys2Proof.Claim

/-- R94, R70: TASK with a valid record whose home is the creating core queues it there, last in arrival order, with one
reference added for each handle; a free one for another core goes there as a posted message. A TASK that has waited for a home's
answer has kept its record. -/
def Sys2Proof.Claim.TaskCreation : Prop :=
  ∀ b c s s1 s2 ra v r, Passes uEA false [.rd b, .rd c] s → isSpec s = false → readG b s = .ok (ra, s1) → readG c s1 = .ok (v, s2) →
    ((threadOf s).rcd = some r ∨ (threadOf s).rcd = none ∧ TaskRecord s2 ra r ∧ rcdCheck s2 s.cur.core r = none) → Addable s (rcdNear r) → Addable s (rcdFar r) →
    let target : Coord := if rcdValid r then rcdHome r else if c = .g 0 then s.cur.core else BitVec.ofNat 13 v.toNat
    (rcdValid r = false → c ≠ .g 0 → sameReel s s.cur.core target = true) →
    (target = s.cur.core → refusal (here s) r = none → ∃ t, exec (.task b c) s = .next t ∧ Enqueued (here s) (here t) r ∧
      RefsAdded s t [rcdNear r, rcdFar r] ∧ StoreRegs s t ∧ (threadOf t).pc = pcOf s + BitVec.ofNat 64 (lenOf s)) ∧
    (target ≠ s.cur.core → postedFull s = false → ∃ t m p, exec (.task b c) s = .next t ∧ t.net = s2.net ++ [m] ∧ m.dst = target ∧
      m.load = .taskRec r ra ∧ m.cls = .request ∧
      (slotAt (here t) (slotNo s.cur.unit)).posted = (slotAt (here s) (slotNo s.cur.unit)).posted ++ [p] ∧ p.scope = .message target ∧
      p.addr = ra ∧ RefsAdded s t [rcdNear r, rcdFar r] ∧ (threadOf t).st = (threadOf s).st + 1)

/-- R95: TRET of a body that is done retires its record, which its home then holds no more, and frees the slot or the Ibex
unit; TSUSP puts the record back under the continuation kA, its near handle dropped where it is anchored (R96). -/
def Sys2Proof.Claim.TaskEnds : Prop :=
  (∀ s i tk, Passes uEN false [] s → BodyDone s i → (slotAt (here s) i).task = some tk →
    ∃ t, exec .tret s = .next t ∧ SlotLeft (here t) i ∧
      (coreAt t tk.home).home.map (·.seq) = dropFirst (fun n => n == tk.entry) ((coreAt s tk.home).home.map (·.seq))) ∧
  (∀ s (n : Fin 2) tk, Passes uEN false [] s → s.cur.unit = .ibex n → (threadOf s).bk = 0 → (ibexAt (here s) n).task = some tk →
    ∃ t, exec .tret s = .next t ∧ (ibexAt (here t) n).task = none ∧ (threadAt (here t) (.ibex n)).running = false ∧
      (coreAt t tk.home).home.map (·.seq) = dropFirst (fun n => n == tk.entry) ((coreAt s tk.home).home.map (·.seq))) ∧
  (∀ s i tk k x, Passes uE false [.kreg k] s → BodyDone s i → (slotAt (here s) i).task = some tk → kReg s k ≠ 0 →
    Addable s (kReg s k) → entryAt (coreAt s tk.home) tk.entry = some x →
    ∃ t y, exec (.tsusp k) s = .next t ∧ SlotLeft (here t) i ∧ entryAt (coreAt t tk.home) tk.entry = some y ∧ y.taker = none ∧
      rcdFar y.rcd = kReg s k ∧ rcdTnear y.rcd = false ∧ rcdTfar y.rcd = false ∧ y.rcd.getLsbD 162 = true ∧
      (rcdValid x.rcd = true → rcdNear y.rcd = 0) ∧ rcdAnchor y.rcd = rcdAnchor x.rcd ∧ rcdTs y.rcd = rcdTs x.rcd ∧
      rcdWid y.rcd = rcdWid x.rcd ∧ ∀ j < 4, rcdArg y.rcd j = rcdArg x.rcd j) ∧
  (∀ s k, Passes uE false [.kreg k] s → kReg s k = 0 → exec (.tsusp k) s = .next (onStop s (.trap (why 0x0C4 0) 0 none)))

/-- R97, R98, R76: TQCFG gives the old setting and, unless field b names g0, sets DEPTH, held within 1 to 1024, and STEAL;
TQDEPTH gives the anchored records not taken, all records held, and whether the home advertises. -/
def Sys2Proof.Claim.TaskQueueRegisters : Prop :=
  (∀ a s s1 s2 v, Passes uEA false [.rd (.g 0), .wr a] s → readG (.g 0) s = .ok (v, s1) → writeResult a (here s).tqcfg s1 = .ok ((), s2) →
    exec (.tqcfg a (.g 0)) s = .next (goes s s2)) ∧
  (∀ a b s s1 s2 v, Passes uEA false [.rd b, .wr a] s → b ≠ .g 0 → readG b s = .ok (v, s1) → writeResult a (here s).tqcfg s1 = .ok ((), s2) →
    ∃ t, exec (.tqcfg a b) s = .next t ∧ (threadOf t).l0 = (here s).tqcfg ∧ (threadOf t).pc = pcOf s + BitVec.ofNat 64 (lenOf s) ∧
      (here t).tqcfg.toNat = (if v.toNat % 2 ^ 11 = 0 then 1 else min 1024 (v.toNat % 2 ^ 11)) + v.toNat / 2 ^ 16 % 2 * 2 ^ 16 ∧
      (here t).home = (here s).home ∧ MemKept s t) ∧
  (∀ a s s1 bit, Passes uEA false [.wr a] s → (bit = 0 ∨ bit = 1) → (bit = 1 ↔ advertises (here s) = true) →
    writeResult a (BitVec.ofNat 64 (((here s).home.filter fun e => rcdValid e.rcd && !rcdTnear e.rcd && !rcdTfar e.rcd).length +
      2 ^ 16 * (here s).home.length + 2 ^ 32 * bit)) s = .ok ((), s1) →
    exec (.tqdepth a) s = .next (goes s s1))

namespace Sys2Proof.Claim
/-- Environment `i` of core `c` can start a body of pad kind `k` on unit `u` (R91, R149): live under the handle, without
by-reference captures, its entry a landing pad of that kind, both outside the home-queue region (R118). -/
def CanStart (s : State) (c : Coord) (u : UnitId) (h : Handle) (i k : Nat) : Prop :=
  h ≠ 0 ∧ h.toNat % 2 ^ 13 = c.toNat ∧ h.toNat / 2 ^ 13 % 2 ^ 8 = i ∧ hLive (coreAt s c) h = true ∧
    (∀ j < 4, (envHead (coreAt s c) i).getLsbD (79 + 16 * j) = false) ∧
    let T := envEntry (envHead (coreAt s c) i)
    T % 2 = 0 ∧ T < 0x200000 ∧ (attrOf (coreAt s c) (T / 4096)).getLsbD 2 = true ∧
      fetchHalf (coreAt s c) (threadAt (coreAt s c) u) T = padWord k ∧ inHome (coreAt s c) T = false ∧ inHome (coreAt s c) (T + 1) = false ∧
      ∀ z, envAddr (coreAt s c) i ≤ z → z < envAddr (coreAt s c) i + 128 → inHome (coreAt s c) z = false
/-- The registers that a body of record `r` starts with (R91, R199): l0 the WID, l1 the anchor, k0 the handle, g4 to g7 the
arguments, g3 the environment, g8 onward its first captures; every other g register but g2 dead. -/
def StartedWith (t : State) (s : State) (c : Coord) (u : UnitId) (h : Handle) (i : Nat) (r : BitVec 512) : Prop :=
  let th := threadAt (coreAt t c) u
  let n := min (envNcap (envHead (coreAt s c) i)) 8
  th.running = true ∧ th.pc = BitVec.ofNat 64 (envEntry (envHead (coreAt s c) i)) ∧ th.l0 = rcdWid r ∧ th.l1 = rcdAnchor r ∧
    th.k[0] = h ∧ regVal th 3 = BitVec.ofNat 64 (envAddr (coreAt s c) i) ∧
    (∀ j < 4, regVal th (BitVec.ofNat 5 (4 + j)) = rcdArg r j) ∧
    (∀ j < n, regVal th (BitVec.ofNat 5 (8 + j)) = BitVec.ofNat 64 (leValue (coreAt s c).mem (envWordAddr (coreAt s c) i j) 8)) ∧
    (∀ q : BitVec 5, q.toNat = 1 ∨ 8 + n ≤ q.toNat → th.dead.getLsbD q.toNat = true)
/-- The home's entry `e`, the only one of its number, is marked as taken by `a`. -/
def Taken (t : State) (home : Coord) (e : Entry) (a : Agent) : Prop :=
  ∃ x ∈ (coreAt t home).home, x.seq = e.seq ∧ x.taker = some a
def OnlyOne (k : Core) (e : Entry) : Prop := e ∈ k.home ∧ ∀ x ∈ k.home, x.seq = e.seq → x = e
end Sys2Proof.Claim

/-- R78, R91: a free Ibex unit, unit 0 before unit 1, takes the oldest anchored record that may run near and that no older
overlapping one holds back, and starts its near body. -/
def Sys2Proof.Claim.NearBodiesStart : Prop :=
  ∀ s c (u : Fin 2) e i, coreRuns s c = true → (ibexAt (coreAt s c) u).task = none → (ibexAt (coreAt s c) u).starting = none →
    (u = 1 → ((ibexAt (coreAt s c) 0).task ≠ none ∨ (ibexAt (coreAt s c) 0).starting ≠ none)) → OnlyOne (coreAt s c) e →
    let may := fun x : Entry => rcdValid x.rcd && !rcdTaken x.rcd && !rcdFarOnly x.rcd && eligible (coreAt s c) x
    may e = true → (∀ x ∈ (coreAt s c).home, may x = true → x = e ∨ older e x = true) →
    CanStart s c (.ibex u) (rcdNear e.rcd) i 3 →
    ∃ t, exec (.nearDispatch c u) s = .next t ∧ Taken t c e ⟨c, .ibex u⟩ ∧
      (∃ tk, (ibexAt (coreAt t c) u).task = some tk ∧ tk.home = c ∧ tk.entry = e.seq ∧ tk.rcd = e.rcd) ∧
      StartedWith t s c (.ibex u) (rcdNear e.rcd) i e.rcd

/-- R82, R83, R91: an idle slot takes the oldest free record of its core that is not another slot's (that the task which a launch
makes for a slot is that slot's is the model's reading of R90, log 83) and starts its far body, with g2 at the top of its
frame stack, VTYPE and VL 0 and empty queues; without one it asks the Slate, and it takes the youngest record that qualifies
of the home granted to it, waiting for that home's environment. -/
def Sys2Proof.Claim.FarBodiesStart : Prop :=
  (∀ s c (q : Fin 4) e i, coreRuns s c = true → slotFree (coreAt s c) q = true → OnlyOne (coreAt s c) e →
    let may := fun x : Entry => rcdValid x.rcd = false ∧ x.taker = none ∧ (x.slot = none ∨ x.slot = some q)
    may e → (∀ x ∈ (coreAt s c).home, may x → x = e ∨ older e x = true) →
    CanStart s c (.stream q .exec) (rcdFar e.rcd) i 4 →
    ∃ t, exec (.slotTakesWork c q) s = .next t ∧ Taken t c e ⟨c, .stream q .exec⟩ ∧
      StartedWith t s c (.stream q .exec) (rcdFar e.rcd) i e.rcd ∧ (slotAt (coreAt t c) q).st = .running ∧
      (slotAt (coreAt t c) q).vtype = 0 ∧ (slotAt (coreAt t c) q).vl = 0 ∧ (slotAt (coreAt t c) q).lq = [] ∧
      (slotAt (coreAt t c) q).depth = 0 ∧
      regVal (threadAt (coreAt t c) (.stream q .exec)) 2 = BitVec.ofNat 64 (frameTop (coreAt s c) q)) ∧
  (∀ s c (q : Fin 4), coreRuns s c = true → slotFree (coreAt s c) q = true → (coreAt s c).tqcfg.getLsbD 16 = true →
    (∀ x ∈ (coreAt s c).home, rcdValid x.rcd = true ∨ x.taker ≠ none) →
    ∃ t m, exec (.stealRequest c q) s = .next t ∧ t.net = s.net ++ [m] ∧ m.src = c ∧ m.dst = c ∧ m.cls = .control ∧ m.load = .stealAsk q ∧
      t.cores = s.cores) ∧
  (∀ s c (q : Fin 4) h e, coreRuns s c = true → slotFree (coreAt s c) q = true → (slotAt (coreAt s c) q).grant = some h → h ≠ c →
    (∀ x ∈ (coreAt s c).home, rcdValid x.rcd = true ∧ rcdFarOnly x.rcd = false) → sameReel s c h = true → OnlyOne (coreAt s h) e →
    stealable (coreAt s h) e = true → (∀ x ∈ (coreAt s h).home, stealable (coreAt s h) x = true → x = e ∨ older x e = true) →
    rcdFar e.rcd ≠ 0 → hHome (rcdFar e.rcd) = h → (coreAt s h).power = .on →
    ∃ t m tk, exec (.steal c q) s = .next t ∧ Taken t h e ⟨c, .stream q .exec⟩ ∧ (slotAt (coreAt t c) q).st = .running ∧
      (slotAt (coreAt t c) q).starting = some tk ∧ tk.home = h ∧ tk.entry = e.seq ∧ m ∈ t.net ∧ m.src = c ∧ m.dst = h ∧
      m.load = .closureOp (.closureApply (rcdFar e.rcd)))

/-- R86, R88: a promoted far body's anchor buffer is written at its home in one step, once the home is on, its scoreboard holds
none of the lines (R121) and no load of the slot from the view is unanswered; of other bytes only the records of tasks that this aborts differ (R87, R69). Then its outgoing entries
leave in order, a word to its port, a GST as a posted operation. -/
def Sys2Proof.Claim.BuffersDrain : Prop :=
  ∀ s c (q : Fin 4) tk, (slotAt (coreAt s c) q).task = some tk → speculative s tk = false →
    (tk.abuf ≠ [] → (coreAt s tk.home).power = .on → (∀ e ∈ tk.abuf, scoreRW (coreAt s tk.home) e.1 (e.1 + 1) = false) →
      (∀ x : Side, ∀ p ∈ (threadAt (coreAt s c) (.stream q x)).pend, isView p.req = true → p.ans ≠ none) →
      ∃ t, exec (.bufferDrain c q) s = .next t ∧
      (∀ z, (∀ e ∈ tk.abuf, abortHits (coreAt s tk.home) tk.home e.1 (e.1 + 1) (some (tk.home, tk.entry)) = []) ∨
          inHome (coreAt s tk.home) z = false → peek (coreAt t tk.home).mem z = match tk.abuf.reverse.find? fun e => e.1 == z with
        | some e => e.2
        | none => peek (coreAt s tk.home).mem z)) ∧
    (∀ x p v r, tk.abuf = [] → tk.obuf = .port x p v :: r → (slotAt (coreAt s c) q).ports[p].send.length < 8 →
      ∃ t, exec (.bufferDrain c q) s = .next t ∧
        (slotAt (coreAt t c) q).ports[p].send = (slotAt (coreAt s c) q).ports[p].send ++ [(x, s.nextId, v)] ∧
        (slotAt (coreAt t c) q).task = some { tk with obuf := r }) ∧
    (∀ x pc a bs r, tk.abuf = [] → tk.obuf = .gst x pc a bs :: r → (threadAt (coreAt s c) (.stream q x)).st < 63 →
      (slotAt (coreAt s c) q).posted.length < 16 →
      ∃ t g, exec (.bufferDrain c q) s = .next t ∧ t.gnet = s.gnet ++ [g] ∧ g.addr = a ∧ g.kind = .store bs ∧
        (threadAt (coreAt t c) (.stream q x)).st = (threadAt (coreAt s c) (.stream q x)).st + 1 ∧
        (slotAt (coreAt t c) q).posted.length = (slotAt (coreAt s c) q).posted.length + 1)


/-! ### Global memory (R135 to R143, R327 to R336) -/

namespace Sys2Proof.Claim
def gldTable : Instr → Option (GReg × GReg × BitVec 27 × Nat)
  | .gldB a b i => some (a, b, i, 1)
  | .gldH a b i => some (a, b, i, 2)
  | .gldW a b i => some (a, b, i, 4)
  | .gldD a b i => some (a, b, i, 8)
  | _ => none
def gstTable : Instr → Option (GReg × GReg × BitVec 27 × Nat)
  | .gstB a b i => some (a, b, i, 1)
  | .gstH a b i => some (a, b, i, 2)
  | .gstW a b i => some (a, b, i, 4)
  | .gstD a b i => some (a, b, i, 8)
  | _ => none
def gamoTable : Instr → Option (GReg × GReg × GReg × AmoOp)
  | .gamoAdd a b c => some (a, b, c, .add)
  | .gamoSwap a b c => some (a, b, c, .swap)
  | .gamoAnd a b c => some (a, b, c, .and)
  | .gamoOr a b c => some (a, b, c, .or)
  | .gamoMax a b c => some (a, b, c, .max)
  | .gamoMin a b c => some (a, b, c, .min)
  | _ => none
/-- The first check of R136 that the address fails: 1 below global space, 2 above it, 3 alignment. -/
def globalFails (A : Word) (n k : Nat) : Prop :=
  (k = 1 ∧ A.toNat < 2 ^ 32) ∨ (k = 2 ∧ 2 ^ 57 ≤ A.toNat) ∨ (k = 3 ∧ 2 ^ 32 ≤ A.toNat ∧ A.toNat < 2 ^ 57 ∧ A.toNat % n ≠ 0)
def globalOk (A : Word) (n : Nat) : Prop := 2 ^ 32 ≤ A.toNat ∧ A.toNat < 2 ^ 57 ∧ A.toNat % n = 0
/-- Nothing but the moving core and the requests on their way differs, and of that core no register, no byte of memory and
no other thread. -/
def IssueFrame (s t : State) : Prop :=
  { t with cores := s.cores, gnet := s.gnet, nextId := s.nextId } = s ∧ (∀ d, d ≠ s.cur.core → coreAt t d = coreAt s d) ∧
    CoreKept s t ∧ MemKept s t ∧ OtherThreads s t ∧ StoreRegs s t ∧ (threadOf t).pc = pcOf s + BitVec.ofNat 64 (lenOf s)
/-- The request that leaves, under the PID of the launch (R327). -/
def Leaves (s t : State) (A : Word) (k : GKind) : Prop :=
  ∃ g, t.gnet = s.gnet ++ [g] ∧ g.id = s.nextId ∧ g.pid = pidOf s s.cur.core ∧ g.addr = A ∧ g.kind = k ∧ g.held = false ∧
    g.reply = none ∧ g.origin.core = s.cur.core ∧ g.origin.slot = slotNo s.cur.unit ∧ g.origin.side = unitSide s.cur.unit
/-- Room for a load's destination: a register that no load locks, or a place of lq, which no store of the stream that has not taken
effect precedes (R127, R137, R263). -/
def DestFree (s : State) : GReg → Prop
  | .g n => locked (threadOf s) n = false
  | .sp c => c = 2 ∧ (slotOf s).lq.length < 16 ∧ (threadOf s).sbuf = []
/-- The load is charged to ld, and its destination is reserved behind those before it (R137). -/
def Reserved (s s1 t : State) (a : GReg) (A : Word) : Prop :=
  (threadOf t).ld = (threadOf s).ld + 1 ∧
    (∃ l, (threadOf t).gld = (threadOf s).gld ++ [l] ∧ l.id = s.nextId ∧ l.dest = a ∧ l.addr = A ∧ l.pc = pcOf s ∧
      l.data = none ∧ l.failed = none ∧ l.drop = false) ∧
    (a = .sp 2 → (slotOf t).lq = (slotOf s1).lq ++ [.reserved s.nextId])
/-- The posted operation is charged to st and has its entry (R138, R141). -/
def PostedEntry (s t : State) (sc : Scope) (A : Word) : Prop :=
  (threadOf t).st = (threadOf s).st + 1 ∧ (slotOf t).nextSeq = (slotOf s).nextSeq + 1 ∧
    ∃ p, (slotOf t).posted = (slotOf s).posted ++ [p] ∧ p.seq = (slotOf s).nextSeq ∧ p.scope = sc ∧ p.side = unitSide s.cur.unit ∧
      p.pc = pcOf s ∧ p.addr = A ∧ p.failed = none ∧ p.lost = false
end Sys2Proof.Claim

/-- R136, R137: a GLD or GAMO whose address passes leaves as a request of its width and operation, charged to ld, its
destination reserved; the stream goes on. A GAMO waits out speculation (R86). A special code other than lq in field a raises 0x002
subcode 0x05; that it does so before the subcode 0x03 of an operand of the wrong direction, of which R47 gives no order, is the model's
choice (log 16). -/
def Sys2Proof.Claim.GlobalLoadsIssue : Prop :=
  (∀ i a b imm n, gldTable i = some (a, b, imm, n) → ∀ s s1 x, Passes uA false [.rd b, .wr a] s → readG b s = .ok (x, s1) →
    let A := x + imm.signExtend 64 * BitVec.ofNat 64 n
    (∀ k, loadDest a = true → globalFails A n k → exec i s = .next (onStop s (.trap (why 0x080 k) A none))) ∧
    (globalOk A n → heldGst s A n = false → DestFree s a → (threadOf s).ld < 63 →
      ∃ t, exec i s = .next t ∧ Leaves s t A (.load n) ∧ Reserved s s1 t a A ∧ IssueFrame s t)) ∧
  (∀ i a b c op, gamoTable i = some (a, b, c, op) → ∀ s s1 s2 A y, Passes uA false [.rd b, .rd c, .wr a] s → readG b s = .ok (A, s1) →
    readG c s1 = .ok (y, s2) → globalOk A 8 → isSpec s = false → DestFree s a → (threadOf s).ld < 63 →
    ∃ t, exec i s = .next t ∧ Leaves s t A (.amo op y 0) ∧ Reserved s s2 t a A ∧ IssueFrame s t) ∧
  (∀ a b c s s1 s2 A y z, Passes uA false [.rd b, .pair c, .wr a] s → readG b s = .ok (A, s1) → readPair c s1 = .ok ((y, z), s2) →
    globalOk A 8 → isSpec s = false → DestFree s a → (threadOf s).ld < 63 →
    ∃ t, exec (.gamoCas a b c) s = .next t ∧ Leaves s t A (.amo .cas y z) ∧ Reserved s s2 t a A ∧ IssueFrame s t) ∧
  (∀ i (c : BitVec 5) us s, c ≠ 2 → ((∃ b imm n, gldTable i = some (.sp c, b, imm, n) ∧ us = [.name b, .name (.sp c)]) ∨
      (∃ b d op, gamoTable i = some (.sp c, b, d, op) ∧ us = [.name b, .name d, .name (.sp c)]) ∨
      (∃ b d, i = .gamoCas (.sp c) b d ∧ us = [.name b, .name d, .name (.sp c)])) → Passes uA false us s →
    exec i s = .next (onStop s (.trap (why 0x002 5) (baseAddr s) none)))

/-- R138, R86, R139: a GST leaves as a posted write of its bytes, or is held in a speculative body's outgoing buffer; MSCFL
leaves as a posted operation on its lines (that a speculative body's does so at once is the model's choice, log 42); PREF leaves a request and counts nowhere, one of length 0 asks for nothing. -/
def Sys2Proof.Claim.GlobalStoresIssue : Prop :=
  (∀ i a b imm n, gstTable i = some (a, b, imm, n) → ∀ s s1 s2 x v, Passes uA false [.rd b, .rd a] s → readG b s = .ok (x, s1) →
    readG a s1 = .ok (v, s2) →
    let A := x + imm.signExtend 64 * BitVec.ofNat 64 n
    (∀ k, globalFails A n k → exec i s = .next (onStop s (.trap (why 0x080 k) A none))) ∧
    (globalOk A n → isSpec s = false → postedFull s = false →
      ∃ t, exec i s = .next t ∧ Leaves s t A (.store (leBytes n v.toNat)) ∧ PostedEntry s t .global A ∧ IssueFrame s t) ∧
    (globalOk A n → isSpec s = true → ∀ k, (slotOf s).task = some k → k.obuf.length < 16 →
      ∃ t, exec i s = .next t ∧ t.gnet = s.gnet ∧ IssueFrame s t ∧ (slotOf t).task =
        some { k with obuf := k.obuf ++ [.gst (unitSide s.cur.unit) (pcOf s) A (leBytes n v.toNat)] })) ∧
  (∀ b c s s1 s2 A n, Passes uA false [.rd b, .rd c] s → readG b s = .ok (A, s1) → readG c s1 = .ok (n, s2) →
    (globalOk A 1 → postedFull s = false →
      ∃ t, exec (.mscfl b c) s = .next t ∧ Leaves s t A (.mscfl (min n.toNat 0x200000)) ∧ PostedEntry s t .global A ∧ IssueFrame s t) ∧
    (n ≠ 0 → ∃ t, exec (.pref b c) s = .next t ∧ Leaves s t A (.pref (min n.toNat 0x200000)) ∧ IssueFrame s t ∧
      (threadOf t).st = (threadOf s).st ∧ (threadOf t).ld = (threadOf s).ld) ∧
    (n = 0 → exec (.pref b c) s = .next (goes s s2)))

namespace Sys2Proof.Claim
/-- Entry of the table at `t` that level `n` reads for address `a` (R330). -/
def tableEntry (s : State) (t a n : Nat) : Word := BitVec.ofNat 64 (leValue s.gmem (t + 8 * (a / 2 ^ (57 - 9 * n) % 512)) 8)
def entryPoisoned (s : State) (t a n : Nat) : Prop := (t + 8 * (a / 2 ^ (57 - 9 * n) % 512)) / 8 ∈ s.gpoison
/-- The tables that the walk passes before level `n`: the root from a valid directory entry, then each pointer's (R329, R332). -/
def WalkTo (s : State) (pid : BitVec 20) (a n : Nat) (T : Nat → Nat) : Prop :=
  let p := s.host.pidDir.toNat / 2 ^ 12 % 2 ^ 29 * 4096 + 8 * pid.toNat
  let d := leValue s.gmem p 8
  p / 8 ∉ s.gpoison ∧ d % 4096 = 1 ∧ d < 2 ^ 41 ∧ T 1 = d - 1 ∧
    ∀ j, 1 ≤ j → j < n → ¬entryPoisoned s (T j) a j ∧ (tableEntry s (T j) a j).getLsbD 0 = true ∧
      (tableEntry s (T j) a j).getLsbD 1 = false ∧ malformedEntry j a (tableEntry s (T j) a j) = false ∧
      T (j + 1) = (tableEntry s (T j) a j).toNat / 2 ^ 12 % 2 ^ 36 * 4096
/-- The walk ends at the leaf `e` of level `n` (R330, R332). -/
def LeafAt (s : State) (pid : BitVec 20) (a n : Nat) (e : Word) : Prop :=
  3 ≤ n ∧ n ≤ 5 ∧ ∃ T, WalkTo s pid a n T ∧ ¬entryPoisoned s (T n) a n ∧ e = tableEntry s (T n) a n ∧ e.getLsbD 0 = true ∧
    e.getLsbD 1 = true ∧ malformedEntry n a e = false
/-- The translation that the station uses: one that it keeps, or the walk's (R332, R334). -/
def Leaf (s : State) (pid : BitVec 20) (a n : Nat) (e : Word) : Prop :=
  keptXlat s pid a = some (n, e) ∨ (keptXlat s pid a = none ∧ LeafAt s pid a n e)
/-- The physical address of `a` under the leaf `e` of level `n`. -/
def leafAddr (e : Word) (n a : Nat) : Nat :=
  e.toNat / 2 ^ 12 % 2 ^ 36 * 4096 + a % 2 ^ (if n = 3 then 30 else if n = 4 then 21 else 12)
/-- The memory that the leaf names: device memory, or host memory where H is set (R328). -/
def leafMem (s : State) (e : Word) : Memory := if e.getLsbD 5 then s.hmem else s.gmem
/-- The `n` bytes at `p` of the leaf's memory become those of `v`; the other memory, and every other byte, is as before. -/
def LeafStored (e : Word) (p n v : Nat) (s t : State) : Prop :=
  (∀ z, peek (leafMem t e) z = if p ≤ z ∧ z < p + n then BitVec.ofNat 8 (v / 256 ^ (z - p)) else peek (leafMem s e) z) ∧
    (if e.getLsbD 5 then t.gmem = s.gmem else t.hmem = s.hmem)
def MemoriesKept (s t : State) : Prop := t.gmem = s.gmem ∧ t.hmem = s.hmem ∧ t.cores = s.cores
/-- The leaf's bytes can be reached: the host link is up for host memory, no device word is poisoned (R337, R390). -/
def LeafOpen (s : State) (e : Word) (p n : Nat) : Prop :=
  (e.getLsbD 5 = true → s.hostLink = true) ∧
    (e.getLsbD 5 = false → ∀ w ∈ s.gpoison, 8 * w + 8 ≤ p ∨ p + n ≤ 8 * w)
/-- The request `r` is the next of its stream to its bytes, and the host link, where it held it, is up again. -/
def RequestReady (s : State) (id : Nat) (r : GReq) : Prop := gReady s.gnet id [] = some r ∧ (r.held = true → s.hostLink = true)
end Sys2Proof.Claim

/-- R332, R336, R137 to R139: a request is translated and performed at its memory in one step, and answered: a load with its
sign-extended bytes, an atomic with the old word, a store and MSCFL when done; PREF only fills the cache. A right that the
leaf lacks, or an entry that is not valid, is answered with its cause and changes no memory. -/
def Sys2Proof.Claim.GlobalAccesses : Prop :=
  ∀ s id r n e, RequestReady s id r → r.granted = none → r.addr.toNat < 2 ^ 57 → Leaf s r.pid r.addr.toNat n e →
    let p := leafAddr e n r.addr.toNat
    (∀ w, r.kind = .load w → w ∈ [1, 2, 4, 8] →
      (e.getLsbD 2 = true → LeafOpen s e p w → ∃ t, exec (.globalAccess id) s = .next t ∧ MemoriesKept s t ∧
        gFind t id = some (.data (extended w true (leValue (leafMem s e) p w)))) ∧
      (e.getLsbD 2 = false → ∃ t, exec (.globalAccess id) s = .next t ∧ MemoriesKept s t ∧ gFind t id = some (.error (why 0x082 1)))) ∧
    (∀ bs, r.kind = .store bs →
      (e.getLsbD 3 = true → (e.getLsbD 5 = true → s.hostLink = true) → ∃ t, exec (.globalAccess id) s = .next t ∧ gFind t id = some .done ∧
        LeafStored e p bs.length (leNat bs) s t ∧ t.cores = s.cores) ∧
      (e.getLsbD 3 = false → ∃ t, exec (.globalAccess id) s = .next t ∧ MemoriesKept s t ∧ gFind t id = some (.error (why 0x082 2)))) ∧
    (∀ op x y, r.kind = .amo op x y →
      (e.getLsbD 2 = true ∧ e.getLsbD 3 = true ∧ e.getLsbD 4 = true → LeafOpen s e p 8 → ∃ t, exec (.globalAccess id) s = .next t ∧
        gFind t id = some (.data (BitVec.ofNat 64 (leValue (leafMem s e) p 8))) ∧ t.cores = s.cores ∧
        LeafStored e p 8 (amoNew op 8 (leValue (leafMem s e) p 8) x.toNat y.toNat) s t) ∧
      (¬(e.getLsbD 2 = true ∧ e.getLsbD 3 = true ∧ e.getLsbD 4 = true) →
        ∃ t, exec (.globalAccess id) s = .next t ∧ MemoriesKept s t ∧ gFind t id = some (.error (why 0x082 3)))) ∧
    (∀ k, r.kind = .mscfl k → 0 < k → r.addr.toNat % 64 + k ≤ 64 → e.getLsbD 3 = true → e.getLsbD 5 = false →
      ∃ t, exec (.globalAccess id) s = .next t ∧ MemoriesKept s t ∧ gFind t id = some .done ∧
        ∀ x ∈ t.cache, x ∈ s.cache ∧ (x.1 = p / 64 → x.2 = false)) ∧
    (∀ k, r.kind = .pref k → ∃ t, exec (.globalAccess id) s = .next t ∧ MemoriesKept s t ∧ t.gnet = dropFirst (fun x => x.id == id) s.gnet)

/-- R332, R333: a walk that meets an entry that is not valid, or one that is malformed or poisoned, at level n is answered
with 0x081 or 0x084 and that level, whatever the access; R390: while the host link is down, an access to host memory is held, under
the translation that it was granted, and R334: it completes under that one once the link is up. -/
def Sys2Proof.Claim.TranslationFailures : Prop :=
  ∀ s id r, RequestReady s id r → (∃ w, r.kind = .load w) ∨ (∃ bs, r.kind = .store bs) ∨ (∃ op x y, r.kind = .amo op x y) →
    (∀ n T, r.granted = none → 1 ≤ n → n ≤ 5 → keptXlat s r.pid r.addr.toNat = none → WalkTo s r.pid r.addr.toNat n T →
      let e := tableEntry s (T n) r.addr.toNat n
      (¬entryPoisoned s (T n) r.addr.toNat n → e.getLsbD 0 = false →
        ∃ t, exec (.globalAccess id) s = .next t ∧ MemoriesKept s t ∧ gFind t id = some (.error (why 0x081 n))) ∧
      (entryPoisoned s (T n) r.addr.toNat n ∨ (e.getLsbD 0 = true ∧ malformedEntry n r.addr.toNat e = true) →
        ∃ t, exec (.globalAccess id) s = .next t ∧ MemoriesKept s t ∧ gFind t id = some (.error (why 0x084 n)))) ∧
    (∀ n e, r.granted = none → Leaf s r.pid r.addr.toNat n e → e.getLsbD 2 = true → e.getLsbD 3 = true → e.getLsbD 4 = true → e.getLsbD 5 = true →
      s.hostLink = false → ∃ t, exec (.globalAccess id) s = .next t ∧ MemoriesKept s t ∧ gFind t id = none ∧
        let place : Phys := ⟨leafAddr e n r.addr.toNat, true, if n = 3 then 30 else if n = 4 then 21 else 12⟩
        { r with held := true, since := s.time, granted := some place } ∈ t.gnet) ∧
    (∀ bs p w, r.kind = .store bs → r.granted = some ⟨p, true, w⟩ → s.hostLink = true →
      ∃ t, exec (.globalAccess id) s = .next t ∧ gFind t id = some .done ∧ t.gmem = s.gmem ∧ t.tlb = s.tlb ∧
        ∀ z, peek t.hmem z = if p ≤ z ∧ z < p + bs.length then bs.getD (z - p) 0 else peek s.hmem z)

namespace Sys2Proof.Claim
/-- Nothing of the posted operation is on its way any more. -/
def LastOf (l : List Msg) (o : Origin) : Prop := ∀ m ∈ l, m.origin = some o → m.src ≠ o.core ∧ m.dst ≠ o.core
/-- The reply `w` has reached the entry `p` of `o`, the only one of its number: st is released, and the entry is freed or
keeps its failure for the report (R141, R142). -/
def Acked (s t : State) (o : Origin) (p : Posted) (w : Option Why) : Prop :=
  (threadAt (coreAt t o.core) (.stream o.slot o.side)).st = (threadAt (coreAt s o.core) (.stream o.slot o.side)).st - 1 ∧
    (w = none → (slotAt (coreAt t o.core) o.slot).posted = dropFirst (fun q => q.seq == o.seq) (slotAt (coreAt s o.core) o.slot).posted) ∧
    (∀ v, w = some v → (slotAt (coreAt t o.core) o.slot).posted =
      changeFirst (fun q => q.seq == o.seq) (fun _ => { p with failed := some v }) (slotAt (coreAt s o.core) o.slot).posted)
/-- The entry waits: unanswered, not taken as lost, the only one of its number. -/
def Waiting (s : State) (o : Origin) (p : Posted) : Prop :=
  p ∈ (slotAt (coreAt s o.core) o.slot).posted ∧ p.seq = o.seq ∧ p.failed = none ∧ p.lost = false ∧
    p.told = false ∧ ∀ q ∈ (slotAt (coreAt s o.core) o.slot).posted, q.seq = o.seq → q = p
/-- The one request of number `id`. -/
def OneRequest (s : State) (id : Nat) (r : GReq) : Prop := r ∈ s.gnet ∧ r.id = id ∧ ∀ x ∈ s.gnet, x.id = id → x = r
end Sys2Proof.Claim

/-- R137, R120, R138, R141, R143: the oldest load's data is written to its reserved place and ld released; a write's reply
releases st and its entry; a failed load is reported at the access stream's boundary with SUB[6] set and the words found at its FPC. -/
def Sys2Proof.Claim.GlobalReplies : Prop :=
  (∀ s c (q : Fin 4) x l v, (threadAt (coreAt s c) (.stream q .acc)).gld = x :: l → x.drop = false → x.data = none →
    gFind s x.id = some (.data v) →
    ∃ t, exec (.globalLoadData c q) s = .next t ∧
      let p := threadAt (coreAt s c) (.stream q .acc)
      let u := threadAt (coreAt t c) (.stream q .acc)
      u.gld = l ∧ u.ld = p.ld - 1 ∧ u.l0 = v ∧ u.l1 = p.l0 ∧ u.pc = p.pc ∧
      (∀ n : BitVec 5, regVal u n = if x.dest = .g n ∧ n ≠ 0 then v else regVal p n) ∧
      (∀ j : Nat, (slotAt (coreAt t c) q).lq[j]? = if (slotAt (coreAt s c) q).lq[j]? = some (.reserved x.id) then some (.word v)
        else (slotAt (coreAt s c) q).lq[j]?) ∧ (coreAt t c).mem = (coreAt s c).mem ∧ t.gmem = s.gmem ∧ t.hmem = s.hmem) ∧
  (∀ s id r p, OneRequest s id r → ((∃ bs, r.kind = .store bs) ∨ ∃ k, r.kind = .mscfl k) → Waiting s r.origin p → LastOf s.net r.origin →
    ∀ w, (w = none ∧ r.reply = some .done ∨ ∃ v, w = some v ∧ r.reply = some (.error v)) →
    ∃ t, exec (.globalWriteAck id) s = .next t ∧ Acked s t r.origin p w ∧ t.gnet = dropFirst (fun x => x.id == id) s.gnet) ∧
  (∀ s c (q : Fin 4) x l w, (slotAt (coreAt s c) q).st = .running → (threadAt (coreAt s c) (.stream q .acc)).running = true →
    (∀ y, (slotAt (coreAt s c) q).task = some y → y.held = none) → slotBegun (coreAt s c) q = false → TrapReady s c q →
    (threadAt (coreAt s c) (.stream q .acc)).gld = x :: l → x.drop = false → x.reported = false → x.data = none →
    gFind s x.id = some (.error w) →
    ∃ t, exec (.deferredLoadFaultReport c q) s = .next t ∧
      TrapTaken s t c q ⟨⟨w.cause, 0x40 ||| (w.sub &&& 0x3F)⟩, .acc, x.addr, x.pc, wordsFound (coreAt s c) x.pc, (threadAt (coreAt s c) (.stream q .acc)).pc⟩ ∧
      (threadAt (coreAt t c) (.stream q .acc)).gld = { x with reported := true, failed := some w } :: l)

/-- R335, R380, R390: a write of 0x0_1018 that issues names the PID and the pages and starts a shoot-down, one that does not, or
comes while one is under way, does nothing (that it does nothing either while the device is not running or the host link is down is
the model's choice, log 70); each station, once no request and no copy's access for which it granted a covered translation is held by
the host link, discards what it keeps of those pages and acknowledges, and the last acknowledgment completes it. A
request that the host link, still down, has held for HLTO is answered as poisoned or lost. -/
def Sys2Proof.Claim.ShootDowns : Prop :=
  (∀ s v, (s.phase = .running → s.hostLink = true → v.getLsbD 63 = true → v.toNat / 2 ^ 12 % 2 ^ 51 = 0 → s.host.shoot = none →
      ∃ t, exec (.shootDown v) s = .next t ∧ t.host.shootDone = false ∧ t.host.shootAcks = [] ∧ t.tlb = s.tlb ∧
        t.host.shoot = some (s.host.shootTarget.setWidth 20, if s.host.shootTarget.getLsbD 20 then none else
          some (s.host.shootBase.toNat / 2 ^ 12 % 2 ^ 45, if v.toNat % 2 ^ 12 = 0 then 4096 else v.toNat % 2 ^ 12))) ∧
    (s.phase ≠ .running ∨ s.hostLink = false ∨ v.getLsbD 63 = false ∨ v.toNat / 2 ^ 12 % 2 ^ 51 ≠ 0 ∨ s.host.shoot ≠ none → exec (.shootDown v) s = .next s)) ∧
  (∀ s (n : Fin 32) pid range, s.host.shoot = some (pid, range) →
    (grantedHeld s n.val pid range = true → exec (.stationShootDownAck n) s = .next s) ∧
    (grantedHeld s n.val pid range = false → ∃ t, exec (.stationShootDownAck n) s = .next t ∧ (∀ x, x ∈ t.tlb ↔ x ∈ s.tlb ∧ ¬(x.station = n.val ∧ covered pid range x = true)) ∧
      n.val ∈ t.host.shootAcks ∧ (∀ j ∈ s.host.shootAcks, j ∈ t.host.shootAcks) ∧
      (t.host.shootAcks.length < 32 → t.host.shootDone = false ∧ t.host.shoot = s.host.shoot) ∧
      (32 ≤ t.host.shootAcks.length → t.host.shootDone = true ∧ t.host.shoot = none) ∧ t.cores = s.cores ∧ t.gmem = s.gmem)) ∧
  (∀ s id r, OneRequest s id r → (s.hostLink = true ∨ (s.time - r.since).toNat < s.host.hlto.toNat) → exec (.hostLinkHoldTimeout id) s = .next s) ∧
  (∀ s id r, OneRequest s id r → r.held = true → r.reply = none → s.hostLink = false → s.host.hlto.toNat ≤ (s.time - r.since).toNat →
    ∃ t, exec (.hostLinkHoldTimeout id) s = .next t ∧
    ((∃ n, r.kind = .load n) → gFind t id = some (.error (why 0x181 5))) ∧
    ((∀ n, r.kind ≠ .load n) → gFind t id = some (.error (why 0x0A1 0))) ∧ t.cores = s.cores ∧ t.hmem = s.hmem)


/-! ### Messages (R302 to R320) and the cluster network (R290 to R295) -/

namespace Sys2Proof.Claim
/-- What a message instruction leaves unchanged: all but the core's threads, slots, mailbox and scoreboard, the messages on
their way and the correction of single-bit errors in what is read (R218); of the core no register, no byte of memory and no other thread. -/
def MessageFrame (s t : State) : Prop :=
  { t with cores := s.cores, net := s.net, nextId := s.nextId } = s ∧ (∀ d, d ≠ s.cur.core → coreAt t d = coreAt s d) ∧
    { here t with threads := (here s).threads, slots := (here s).slots, mb := (here s).mb, mbHead := (here s).mbHead, score := (here s).score,
                  flawed := (here s).flawed, corrected := (here s).corrected } = here s ∧
    OtherThreads s t ∧ StoreRegs s t ∧ (threadOf t).pc = pcOf s + BitVec.ofNat 64 (lenOf s)
/-- The message that leaves for `d`, in class Request (R303), for the posted entry taken. -/
def Posts (s t : State) (d : Coord) (p : Payload) : Prop :=
  ∃ m o, t.net = s.net ++ [m] ∧ m.src = s.cur.core ∧ m.dst = d ∧ m.cls = .request ∧ m.unit = s.cur.unit ∧ m.held = false ∧ m.load = p ∧
    m.origin = some o ∧ o.core = s.cur.core ∧ o.slot = slotNo s.cur.unit ∧ o.side = unitSide s.cur.unit ∧ o.seq = (slotOf s).nextSeq
/-- The destination and the address of a remote reference (R308). -/
def refDest (r : Word) : Coord := BitVec.ofNat 13 (r.toNat / 2 ^ 21)
def refAddr (r : Word) : Nat := r.toNat % 2 ^ 21
def refOp (r : Word) : Nat := r.toNat / 2 ^ 60
def refBar (r : Word) : Nat := r.toNat / 2 ^ 35 % 2 ^ 17 * 16
/-- A reference that passes checks 1 to 3 of R309: its fields, and a core of the same launch. -/
def Reference (s : State) (r : Word) (amo : Bool) : Prop :=
  r.toNat / 2 ^ 52 % 2 ^ 8 = 0 ∧ (amo = true → (refOp r ≤ 5 ∨ (8 ≤ refOp r ∧ refOp r ≤ 10)) ∧ r.getLsbD 34 = false) ∧
    (amo = false → refOp r = 0) ∧ (r.getLsbD 34 = false → refBar r = 0) ∧ isCore (refDest r) = true ∧
    inLaunch s s.cur.core (refDest r) = true
/-- `n` bytes from `x` lie in one line. -/
def WithinLine (x n : Nat) : Prop := x % 64 + n ≤ 64
end Sys2Proof.Claim

/-- R309, R310, R86: MSG.PUT, MSG.GET, MSG.AMO and MSG.SIG with a reference and ranges that pass leave as posted messages; a GET
and an AMO take a scoreboard entry on the line they will write. A speculative body's PUT and SIG are held. -/
def Sys2Proof.Claim.MessagesIssue : Prop :=
  (∀ a b c s s1 s2 s3 x l r, Passes uEA false [.rd b, .rd c, .rd a] s → readG b s = .ok (x, s1) → readG c s1 = .ok (l, s2) →
    readG a s2 = .ok (r, s3) → x.toNat < 0x200000 →
    let n := l.toNat
    (Reference s r false → 1 ≤ n → n ≤ 64 → WithinLine (refAddr r) n → WithinLine x.toNat n →
      (MayRead s x.toNat n → scoreW (here s) x.toNat (x.toNat + n) = false → poisonIn (here s) x.toNat n = none →
        (isSpec s = false → postedFull s = false → ∃ t, exec (.msgPut a b c) s = .next t ∧
          Posts s t (refDest r) (.put r (peeks (here s).mem x.toNat n)) ∧
          PostedEntry s t (.message (refDest r)) (BitVec.ofNat 64 (refAddr r)) ∧ MessageFrame s t ∧ (here t).score = (here s).score) ∧
        (isSpec s = true → ∀ k, (slotOf s).task = some k → k.obuf.length < 16 → ∃ t, exec (.msgPut a b c) s = .next t ∧
          t.net = s.net ∧ MessageFrame s t ∧ (slotOf t).task = some { k with obuf := k.obuf ++
            [.msg (unitSide s.cur.unit) (pcOf s) r (peeks (here s).mem x.toNat n) false] })) ∧
      (MayWrite s x.toNat n → (r.getLsbD 34 = true → MayRead s (refBar r) 16 ∧ MayWrite s (refBar r) 16) → isSpec s = false →
        (here s).score.length < 16 → NoneWaits s [(x.toNat / 64 * 64, (x.toNat + n + 63) / 64 * 64)] → postedFull s = false →
        ∃ t, exec (.msgGet a b c) s = .next t ∧
        Posts s t (refDest r) (.getReq r n x.toNat) ∧ PostedEntry s t (.message (refDest r)) (BitVec.ofNat 64 (refAddr r)) ∧
        MessageFrame s t ∧ (here t).score = (here s).score ++
          [⟨.get (slotNo s.cur.unit) (slotOf s).nextSeq, [(x.toNat / 64 * 64, (x.toNat + n + 63) / 64 * 64)], []⟩])) ∧
    (Reference s r true → (if 8 ≤ refOp r then refAddr r % 16 = 0 ∧ x.toNat % 16 = 0 else refAddr r % 8 = 0 ∧ x.toNat % 8 = 0) →
      MayWrite s x.toNat 8 → isSpec s = false → (here s).score.length < 16 →
      NoneWaits s [(x.toNat / 64 * 64, (x.toNat + 8 + 63) / 64 * 64)] → postedFull s = false →
      ∃ t, exec (.msgAmo a b c) s = .next t ∧ Posts s t (refDest r) (.atomicReq r l x.toNat) ∧
        PostedEntry s t (.message (refDest r)) (BitVec.ofNat 64 (refAddr r)) ∧ MessageFrame s t ∧ (here t).score = (here s).score ++
          [⟨.get (slotNo s.cur.unit) (slotOf s).nextSeq, [(x.toNat / 64 * 64, (x.toNat + 8 + 63) / 64 * 64)], []⟩])) ∧
  (∀ a b s s1 s2 w r, Passes uEA false [.rd b, .rd a] s → readG b s = .ok (w, s1) → readG a s1 = .ok (r, s2) → r.toNat < 2 ^ 13 →
    let d : Coord := BitVec.ofNat 13 r.toNat
    isCore d = true → inLaunch s s.cur.core d = true →
    (isSpec s = false → postedFull s = false → ∃ t, exec (.msgSig a b) s = .next t ∧ Posts s t d (.signal w) ∧
      PostedEntry s t (.message d) 0 ∧ MessageFrame s t) ∧
    (isSpec s = true → ∀ k, (slotOf s).task = some k → k.obuf.length < 16 → ∃ t, exec (.msgSig a b) s = .next t ∧ t.net = s.net ∧
      MessageFrame s t ∧ (slotOf t).task = some { k with obuf := k.obuf ++
        [.msg (unitSide s.cur.unit) (pcOf s) r (leBytes 8 w.toNat) true] }))

/-- R309: checks 1 to 3 of a message's reference, in order, with their causes: fields 0x002 subcode 0x05, a destination that is
no core 0x0A2 subcode 1, one outside the launch 0x0A2 subcode 2. -/
def Sys2Proof.Claim.MessageTraps : Prop :=
  ∀ a b c s s1 s2 s3 x l r amo i, Passes uEA false [.rd b, .rd c, .rd a] s → readG b s = .ok (x, s1) → readG c s1 = .ok (l, s2) →
    readG a s2 = .ok (r, s3) → (i = .msgPut a b c ∧ amo = false ∨ i = .msgGet a b c ∧ amo = false ∨ i = .msgAmo a b c ∧ amo = true) →
    let good := r.toNat / 2 ^ 52 % 2 ^ 8 = 0 ∧ (amo = true → (refOp r ≤ 5 ∨ (8 ≤ refOp r ∧ refOp r ≤ 10)) ∧ r.getLsbD 34 = false) ∧
      (amo = false → refOp r = 0 ∧ 1 ≤ l.toNat ∧ l.toNat ≤ 64) ∧ (r.getLsbD 34 = false → refBar r = 0)
    (¬good → exec i s = .next (onStop s (.trap (why 0x002 5) (baseAddr s) none))) ∧
    (good → isCore (refDest r) = false → exec i s = .next (onStop s (.trap (why 0x0A2 1) 0 none))) ∧
    (good → isCore (refDest r) = true → inLaunch s s.cur.core (refDest r) = false →
      exec i s = .next (onStop s (.trap (why 0x0A2 2) 0 none)))

namespace Sys2Proof.Claim
/-- The destination lets the message read, or write, the page of byte `x`: powered, SUP clear, R for a read, W without X and
the remote right for a write (R116, R312, R322). -/
def OpenTo (s : State) (m : Msg) (x : Nat) (r w : Bool) : Prop :=
  let a := attrOf (coreAt s m.dst) (x / 4096)
  (coreAt s m.dst).power = .on ∧ a.getLsbD 6 = false ∧ (r = true → a.getLsbD 0 = true) ∧
    (w = true → a.getLsbD 2 = false ∧ a.getLsbD 1 = true ∧ a.getLsbD (if sameCluster m.src m.dst then 3 else 4) = true)
/-- No core differs but in the single-bit errors that a read corrects (R218). -/
def CoresRead (s t : State) : Prop :=
  ∀ c, { coreAt t c with flawed := (coreAt s c).flawed, corrected := (coreAt s c).corrected } = coreAt s c
/-- The message is done with, and its answer is the last on its way. -/
def Answers (s t : State) (m : Msg) (cls : Machine.Class) (tag : Nat) (p : Payload) : Prop :=
  ∃ x, t.net = dropFirst (fun y => y.id == m.id) s.net ++ [x] ∧ x.src = m.dst ∧ x.dst = m.src ∧ x.cls = cls ∧ x.unit = m.unit ∧
    x.tag = tag ∧ x.origin = m.origin ∧ x.load = p
def Gone (s t : State) (m : Msg) : Prop := t.net = dropFirst (fun y => y.id == m.id) s.net
/-- Writes to [y, y + n) of core `c` abort no far task (R87). -/
def NoAbort (s : State) (c : Coord) (y n : Nat) (w : Option (Coord × Nat)) : Prop := abortHits (coreAt s c) c y (y + n) w = []
/-- The barrier object at byte `x` of core `c`, well formed (R267, R268). -/
def ObjectAt (s : State) (c : Coord) (x : Nat) (b : Bar) : Prop :=
  let v := leValue (coreAt s c).mem x 16
  b = barOf v ∧ v / 2 ^ 112 = 0 ∧ b.expect ≠ 0 ∧ b.a ≤ b.expect ∧ b.e ≤ b.expect ∧ poisonIn (coreAt s c) x 16 = none
/-- A round ends where every arrival is in and no bytes are pending, and at most two do (R267). -/
def ended (b : Bar) : Bar :=
  let f := fun b : Bar => if b.a = b.expect ∧ b.pend = 0 then (⟨b.expect, b.e, 0, (b.round + 1) % 2 ^ 16, b.pend⟩ : Bar) else b
  f (f b)
/-- The log entry of a refusal at the destination's die (R313). -/
def Logged (s t : State) (m : Msg) (e : BitVec 256) : Prop :=
  (dieAt s (dieOf m.dst)).log.length < 512 → (dieAt t (dieOf m.dst)).log = (dieAt s (dieOf m.dst)).log ++ [e]
end Sys2Proof.Claim

/-- R310: a PUT is written and, with BAREN, its bytes are counted at the barrier object; a GET's bytes are sent back; an
atomic gives its old word, or updates the barrier object, OP 10 waiting for its round; a signal enters the mailbox, or waits for its
turn there (R119). -/
def Sys2Proof.Claim.MessagesServed : Prop :=
  ∀ s id m, msgReady s id = some m →
    (∀ r bs, m.load = .put r bs → OpenTo s m (refAddr r) false true → NoAbort s m.dst (refAddr r) bs.length m.writer →
      (r.getLsbD 34 = false → ∃ t, exec (.put id) s = .next t ∧ StoredAt m.dst (refAddr r) bs.length (leNat bs) s t ∧
        Answers s t m .reply m.tag (.ack none 0)) ∧
      (∀ b, r.getLsbD 34 = true → OpenTo s m (refBar r) true true → ObjectAt s m.dst (refBar r) b → NoAbort s m.dst (refBar r) 16 m.writer →
        (refAddr r + bs.length ≤ refBar r ∨ refBar r + 16 ≤ refAddr r) → ∃ t, exec (.put id) s = .next t ∧
        Answers s t m .reply m.tag (.ack none 0) ∧
        leValue (coreAt t m.dst).mem (refBar r) 16 = barImage (ended { b with pend := (b.pend + 2 ^ 48 - bs.length % 2 ^ 48) % 2 ^ 48 }) ∧
        ∀ z, z < refBar r ∨ refBar r + 16 ≤ z → peek (coreAt t m.dst).mem z = if refAddr r ≤ z ∧ z < refAddr r + bs.length then
          BitVec.ofNat 8 (leNat bs / 256 ^ (z - refAddr r)) else peek (coreAt s m.dst).mem z)) ∧
    (∀ r n d, m.load = .getReq r n d → OpenTo s m (refAddr r) true false → poisonIn (coreAt s m.dst) (refAddr r) n = none →
      ∃ t, exec (.getRequest id) s = .next t ∧ CoresRead s t ∧
        Answers s t m .reply m.tag (.getData r d (peeks (coreAt s m.dst).mem (refAddr r) n) none)) ∧
    (∀ r y d, m.load = .atomicReq r y d → refOp r ≤ 5 → OpenTo s m (refAddr r) true true →
      poisonIn (coreAt s m.dst) (refAddr r) 8 = none → NoAbort s m.dst (refAddr r) 8 m.writer →
      let old := leValue (coreAt s m.dst).mem (refAddr r) 8
      ∃ t, exec (.atomicRequest id) s = .next t ∧ Answers s t m .reply m.tag (.atomicReply d (BitVec.ofNat 64 old) none) ∧
        StoredAt m.dst (refAddr r) 8 (amoNew ([AmoOp.add, .swap, .and, .or, .max, .min].getD (refOp r) .min) 8 old y.toNat 0) s t) ∧
    (∀ r y d b, m.load = .atomicReq r y d → 8 ≤ refOp r → OpenTo s m (refAddr r) true true → ObjectAt s m.dst (refAddr r) b →
      NoAbort s m.dst (refAddr r) 16 m.writer →
      (refOp r = 8 → b.a < b.expect → ∃ t, exec (.atomicRequest id) s = .next t ∧
        StoredAt m.dst (refAddr r) 16 (barImage (ended { b with a := b.a + 1 })) s t ∧
        Answers s t m .reply m.tag (.atomicReply d (BitVec.ofNat 64 b.round) none)) ∧
      (refOp r = 9 → ∃ t, exec (.atomicRequest id) s = .next t ∧ Answers s t m .reply m.tag (.atomicReply d 0 none) ∧
        StoredAt m.dst (refAddr r) 16 (barImage (ended { b with pend := (b.pend + y.toNat % 2 ^ 48) % 2 ^ 48 })) s t) ∧
      (refOp r = 10 → let past := (b.round + 2 ^ 16 - y.toNat % 2 ^ 16) % 2 ^ 16;
        ∃ t, exec (.atomicRequest id) s = .next t ∧ CoresRead s t ∧
          if past = 0 ∨ 2 ^ 15 ≤ past then t.net = changeFirst (fun x => x.id == id) (fun x => { x with held := true }) s.net
          else Answers s t m .reply m.tag (.atomicReply d (BitVec.ofNat 64 b.round) none))) ∧
    (∀ w, m.load = .signal w → (coreAt s m.dst).power = .on →
      ((coreAt s m.dst).mbHeld = [] ∧ (coreAt s m.dst).mb.length < 128 → ∃ t, exec (.signal id) s = .next t ∧
        (coreAt t m.dst).mb = (coreAt s m.dst).mb ++ [w] ∧ Answers s t m .reply m.tag (.ack none 0)) ∧
      (¬((coreAt s m.dst).mbHeld = [] ∧ (coreAt s m.dst).mb.length < 128) → ∃ t, exec (.signal id) s = .next t ∧
        (coreAt t m.dst).mb = (coreAt s m.dst).mb ∧ (coreAt t m.dst).mem = (coreAt s m.dst).mem ∧
        (coreAt t m.dst).mbHeld = (if (coreAt s m.dst).mbHeld.any fun x => x.1 == .signal id then (coreAt s m.dst).mbHeld
          else (coreAt s m.dst).mbHeld ++ [(.signal id, [w])]) ∧
        t.net = changeFirst (fun x => x.id == id) (fun x => { x with held := true }) s.net))

/-- R312, R313: a destination that refuses a PUT, a GET's read or an atomic changes nothing, answers with the cause, a page
refusal of a write as 0x0A0 with its number, and logs it (a refused atomic as EVENT 0, with the remote address, is the model's choice,
log 50, DEDUCED). -/
def Sys2Proof.Claim.MessagesRefused : Prop :=
  ∀ s id m w r, msgReady s id = some m →
    let log := fun ev : Nat => logEntry s.time m.src m.dst (slotOfMsg m) w ev (seqOf m) (BitVec.ofNat 64 (refAddr r)) 0
    (∀ bs, m.load = .put r bs → arrival s m (refAddr r) aWrite = some w → ∃ t, exec (.put id) s = .next t ∧ t.cores = s.cores ∧
      Answers s t m .reply m.tag (.ack (some (writeWhy w)) 0) ∧ Logged s t m (log 0)) ∧
    (∀ n d, m.load = .getReq r n d → arrival s m (refAddr r) aRead = some w → ∃ t, exec (.getRequest id) s = .next t ∧
      t.cores = s.cores ∧ Answers s t m .reply m.tag (.getData r d [] (some w)) ∧ Logged s t m (log 1)) ∧
    (∀ y d, m.load = .atomicReq r y d → refOp r ≤ 5 → arrival s m (refAddr r) aBoth = some w → ∃ t, exec (.atomicRequest id) s = .next t ∧
      t.cores = s.cores ∧ Answers s t m .reply m.tag (.atomicReply d 0 (some (writeWhy w))) ∧ Logged s t m (log 0))

/-- R310, R141, R312: the answer to a GET or a remote atomic is written at its issuer, its scoreboard and posted entries are
freed; an acknowledgment frees its posted entry, or marks it failed with the cause. -/
def Sys2Proof.Claim.RepliesArrive : Prop :=
  ∀ s id m o p, msgReady s id = some m → m.origin = some o → Waiting s o p → LastOf (dropFirst (fun x => x.id == id) s.net) o →
    (∀ r d bs, m.load = .getData r d bs none → r.getLsbD 34 = false → NoAbort s o.core d bs.length m.writer →
      ∃ t, exec (.getData id) s = .next t ∧ StoredAt o.core d bs.length (leNat bs) s t ∧ Acked s t o p none ∧ Gone s t m ∧
        (coreAt t o.core).score = dropFirst (fun e => e.owner == .get o.slot o.seq) (coreAt s o.core).score) ∧
    (∀ d old w, m.load = .atomicReply d old w → NoAbort s o.core d 8 m.writer →
      ∃ t, exec (.atomicReply id) s = .next t ∧ StoredAt o.core d 8 (if w = none then old.toNat else 0) s t ∧ Acked s t o p w ∧ Gone s t m ∧
        (coreAt t o.core).score = dropFirst (fun e => e.owner == .get o.slot o.seq) (coreAt s o.core).score) ∧
    (∀ w a, m.load = .ack w a → m.cls ≠ .cluster → ∃ t, exec (.acknowledgment id) s = .next t ∧ Acked s t o p w ∧ Gone s t m ∧
      (coreAt t o.core).mem = (coreAt s o.core).mem)

/-- R314: an acknowledgment that cannot be delivered fails its entry with 0x0A1, subcode 1 where the operation was applied
and 0 where not; an entry that gets no answer within 2^24 cycles of its core is taken as lost with subcode 2 and charges st no more. -/
def Sys2Proof.Claim.LostReplies : Prop :=
  (∀ s id m o p w a applied, (∀ r ∈ s.gnet, r.id ≠ id) → m ∈ s.net → m.id = id → (∀ x ∈ s.net, x.id = id → x = m) →
    m.load = .ack w a → m.cls = .reply → m.origin = some o → (∀ x ∈ s.net, x.origin = some o → x = m) → Waiting s o p →
    (applied = true ↔ w = none) → LastOf (dropFirst (fun x => x.id == id) s.net) o →
    ∃ t, exec (.lossNotice id applied) s = .next t ∧ Acked s t o p (some (why 0x0A1 (if applied then 1 else 0))) ∧ Gone s t m ∧
      (coreAt t o.core).mem = (coreAt s o.core).mem) ∧
  (∀ s c (q : Fin 4) p, p ∈ (slotAt (coreAt s c) q).posted → (∀ x ∈ (slotAt (coreAt s c) q).posted, x.seq = p.seq → x = p) →
    p.failed = none → p.lost = false → (∀ m ∈ s.net, ∀ o, m.origin = some o → o.core = c → o.slot = q → o.seq ≠ p.seq) →
    (((coreAt s c).cycle - p.cycle).toNat < 2 ^ 24 → exec (.postedTimeout c q p.seq) s = .next s) ∧
    (2 ^ 24 ≤ ((coreAt s c).cycle - p.cycle).toNat → ∃ t, exec (.postedTimeout c q p.seq) s = .next t ∧ (slotAt (coreAt t c) q).posted = changeFirst (fun x => x.seq == p.seq)
        (fun _ => { p with failed := some (why 0x0A1 2), lost := true }) (slotAt (coreAt s c) q).posted ∧
      (threadAt (coreAt t c) (.stream q p.side)).st = (threadAt (coreAt s c) (.stream q p.side)).st - 1 ∧
      (coreAt t c).mem = (coreAt s c).mem ∧ t.net = s.net))

/-- R305, R306, R119: PCFG binds a port to a powered core of the launch once its send buffer is empty, and unbinds it with 0; a
port word enters the receive buffer that has room; the oldest held mailbox message is appended whole once it fits, and what it held
back goes on: a signal is acknowledged, a channel completes its transfer. -/
def Sys2Proof.Claim.PortsAndMailbox : Prop :=
  (∀ (n : Lit3) b s s1 v (q : Fin 4), Passes uEA false [.rd b] s → n.toNat = q.val → readG b s = .ok (v, s1) →
    (v = 0 ∨ (v.toNat < 2 ^ 32 ∧ v.getLsbD 31 = true ∧ v.toNat / 2 ^ 18 % 2 ^ 13 = 0 ∧ v.toNat / 2 ^ 13 % 2 ^ 3 = 0 ∧
      isCore (BitVec.ofNat 13 v.toNat) = true ∧ inLaunch s s.cur.core (BitVec.ofNat 13 v.toNat) = true ∧
      (coreAt s (BitVec.ofNat 13 v.toNat)).power = .on)) →
    (slotOf s).ports[q].send = [] → claimed s (8 + q.val) = false → (∀ k, (slotOf s).task = some k → ∀ x w, Outgoing.port x q w ∉ k.obuf) → isIbex s.cur.unit = false →
    ∃ t, exec (.pcfg n b) s = .next t ∧ (slotOf t).ports[q] = { (slotOf s1).ports[q] with cfg := v.setWidth 32 } ∧
      (∀ j : Fin 4, j ≠ q → (slotOf t).ports[j] = (slotOf s1).ports[j]) ∧ StoreRegs s t ∧ MemKept s t ∧ t.net = s.net ∧
      (threadOf t).pc = pcOf s + BitVec.ofNat 64 (lenOf s)) ∧
  (∀ s id m p (q : Fin 4) w, msgReady s id = some m → m.load = .portWord p q w → (coreAt s m.dst).power = .on →
    (((slotAt (coreAt s m.dst) q).ports[p].recv.length < 8 → ∃ t, exec (.portWord id) s = .next t ∧ Gone s t m ∧
      (slotAt (coreAt t m.dst) q).ports[p].recv = (slotAt (coreAt s m.dst) q).ports[p].recv ++ [w]) ∧
    (8 ≤ (slotAt (coreAt s m.dst) q).ports[p].recv.length → ∃ t, exec (.portWord id) s = .next t ∧ t.cores = s.cores ∧
      t.net = changeFirst (fun x => x.id == id) (fun x => { x with held := true }) s.net))) ∧
  (∀ s c x ws r, (coreAt s c).mbHeld = (x, ws) :: r →
    (128 < (coreAt s c).mb.length + ws.length ∨ (coreAt s c).power ≠ .on → exec (.mailboxAppend c) s = .next s) ∧
    ((coreAt s c).mb.length + ws.length ≤ 128 → (coreAt s c).power = .on → ∃ t, exec (.mailboxAppend c) s = .next t ∧
      (coreAt t c).mb = (coreAt s c).mb ++ ws ∧ (coreAt t c).mbHeld = r ∧
      (x = .device ∨ (∃ n, x = .notice n) → t.net = s.net) ∧
      (∀ i m, x = .signal i → s.net.find? (fun y => y.id == i) = some m → Answers s t m .reply m.tag (.ack none 0)) ∧
      (∀ q k l, x = .clip q → (chanAt (coreAt s c) q).queue = k :: l →
        (chanAt (coreAt t c) q).queue = l ∧ (chanAt (coreAt t c) q).done = k.id)))

namespace Sys2Proof.Claim
/-- The identifier of ordinal `n` under field widths and extents, the first field lowest and fastest (R317). -/
def workIdOf (ws es : List Nat) (n : Nat) : Nat :=
  ((List.range ws.length).map fun i => n / (es.take i).prod % es.getD i 1 * 2 ^ (ws.take i).sum).sum
end Sys2Proof.Claim

/-- R317 to R319: WQRY asks the serving Slate for the next work identifier; the Slate answers with that of the launch's next
ordinal, or with all ones past the last; the answer is written, and with a completion closure its record is queued; WID.F
takes field n of an identifier. -/
def Sys2Proof.Claim.WorkQueries : Prop :=
  (∀ b c s s1 s2 x h, Passes uEA false [.rd b, .rd c] s → readG b s = .ok (x, s1) → readG c s1 = .ok (h, s2) → x.toNat % 8 = 0 →
    x.toNat < 0x200000 → MayWrite s x.toNat 8 → isSpec s = false → Forks s → h.setWidth 32 = (0 : Handle) → (here s).score.length < 16 →
    postedFull s = false → ∃ t, exec (.wqry b c) s = .next t ∧ Posts s t (servingSlate s s.cur.core) (.workQuery x 0) ∧
      PostedEntry s t .query x ∧ MessageFrame s t ∧ (here t).score = (here s).score ++
        [⟨.query (slotNo s.cur.unit) (slotOf s).nextSeq, [(x.toNat / 64 * 64, (x.toNat + 8 + 63) / 64 * 64)], []⟩]) ∧
  (∀ a b (n : Lit3) s s1 s2 x l v, Passes uEA false [.rd b, .wr a] s → readG b s = .ok (x, s1) → n.toNat < 6 →
    launchOf s s.cur.core = some l →
    v = (match l.kernel.widths[n.toNat]? with
      | some w => x.toNat / 2 ^ (l.kernel.widths.take n.toNat).sum % 2 ^ w
      | none => 0) →
    writeResult a (BitVec.ofNat 64 v) s1 = .ok ((), s2) → exec (.widF a b n) s = .next (goes s s2)) ∧
  (∀ s id m x h l, msgReady s id = some m → m.load = .workQuery x h → launchOf s m.src = some l →
    l.kernel.widths.length = l.kernel.extents.length → (∀ e ∈ l.kernel.extents, 0 < e) →
    (l.ordinal < l.kernel.extents.prod → ∃ t, exec (.workQuery id) s = .next t ∧
      launchOf t m.src = some { l with ordinal := l.ordinal + 1 } ∧
      Answers s t m .reply m.tag (.workAnswer x h (BitVec.ofNat 64 (workIdOf l.kernel.widths l.kernel.extents l.ordinal)))) ∧
    (l.kernel.extents.prod ≤ l.ordinal → ∃ t, exec (.workQuery id) s = .next t ∧ launchOf t m.src = some l ∧
      Answers s t m .reply m.tag (.workAnswer x h (BitVec.allOnes 64)))) ∧
  (∀ s id m o p x h v, msgReady s id = some m → m.load = .workAnswer x h v → m.origin = some o → Waiting s o p →
    LastOf (dropFirst (fun x => x.id == id) s.net) o → NoAbort s o.core x.toNat 8 m.writer → (coreAt s o.core).held = [] →
    (coreAt s o.core).home.length < 1024 →
    ∃ t, exec (.workAnswer id) s = .next t ∧ Acked s t o p none ∧ x.toNat ∈ (coreAt t o.core).answers ∧
      (∀ z, h = 0 ∨ inHome (coreAt s o.core) z = false → peek (coreAt t o.core).mem z = if x.toNat ≤ z ∧ z < x.toNat + 8 then
        BitVec.ofNat 8 (v.toNat / 256 ^ (z - x.toNat)) else peek (coreAt s o.core).mem z) ∧
      (h = 0 → (coreAt t o.core).home = (coreAt s o.core).home) ∧
      (h ≠ 0 → Enqueued (coreAt s o.core) (coreAt t o.core) (mkRcd 0 0 0 h v v x 0 0))) ∧
  (∀ s c r l, (coreAt s c).held = r :: l → rcdValid r = false → (coreAt s c).home.length < 1024 →
    ∃ t, exec (.wqryRecordEnqueue c) s = .next t ∧ Enqueued (coreAt s c) (coreAt t c) r ∧ (coreAt t c).held = l)

/-- R320, R82: a notice enters or leaves the die's list of advertising homes; a request is answered with the preferred
advertised home of the requester's reel; the answer is the idle slot's grant. R72, R94: a task record that its home accepts is
queued and acknowledged, one that it refuses is answered with the cause. -/
def Sys2Proof.Claim.SlateAndRecords : Prop :=
  (∀ s id m, msgReady s id = some m →
    (∀ b, m.load = .notice b → ∃ t, exec (.slateStealControl id) s = .next t ∧ Gone s t m ∧ t.cores = s.cores ∧
      ∀ d, d ∈ (dieAt t (dieOf m.src)).advertised ↔ (d ≠ m.src ∧ d ∈ (dieAt s (dieOf m.src)).advertised) ∨ (d = m.src ∧ b = true)) ∧
    (∀ q, m.load = .stealAsk q → ∃ t x, exec (.slateStealControl id) s = .next t ∧ t.cores = s.cores ∧
      t.net = dropFirst (fun y => y.id == id) s.net ++ [x] ∧ x.dst = m.src ∧ x.cls = .control ∧ x.load = .stealGrant q
        (chooseHome m.src ((dieAt s (dieOf m.src)).advertised.filter fun d => sameReel s m.src d))) ∧
    (∀ q h, m.load = .stealGrant q h → (slotAt (coreAt s m.dst) q).st = .idle → ∃ t, exec (.slateStealControl id) s = .next t ∧
      Gone s t m ∧ (slotAt (coreAt t m.dst) q).grant = h)) ∧
  (∀ s id m r a, msgReady s id = some m → m.load = .taskRec r a → (coreAt s m.dst).power = .on →
    (refusal (coreAt s m.dst) r = none → ∃ t, exec (.taskRecordArrival id) s = .next t ∧ Enqueued (coreAt s m.dst) (coreAt t m.dst) r ∧
      ∃ x ∈ t.net, x.src = m.dst ∧ x.dst = m.src ∧ x.origin = m.origin ∧ x.load = .ack none 0) ∧
    (∀ w, refusal (coreAt s m.dst) r = some w → rcdNear r = 0 → rcdFar r = 0 → ∃ t, exec (.taskRecordArrival id) s = .next t ∧
      t.cores = s.cores ∧ Answers s t m .reply m.tag (.ack (some w) 0)))

namespace Sys2Proof.Claim
/-- A window access may go on where the destination lets the message read, or write, the byte, and it is none of U mode to the
home-queue region (R69). -/
def WindowOpen (s : State) (m : Msg) (x : Nat) (r w : Bool) : Prop :=
  OpenTo s m x r w ∧ (m.user = true → homePage (coreAt s m.dst) (x / 4096) = false)
/-- What the last element that covers byte `z` stores there. -/
def lastOver (es : List (Nat × List Byte)) (z : Nat) : Option Byte :=
  es.reverse.findSome? fun e => if e.1 ≤ z then e.2[z - e.1]? else none
/-- Environment `i` of core `d`, live under the handle, at its home. -/
def EnvOf (s : State) (d : Coord) (h : Handle) (i : Nat) : Prop := hLive (coreAt s d) h = true ∧ h.toNat / 2 ^ 13 % 2 ^ 8 = i
def headOf (s : State) (d : Coord) (i : Nat) : Nat := leValue (coreAt s d).mem (envAddr (coreAt s d) i) 16
end Sys2Proof.Claim

/-- R293 to R295: accesses through the cluster window are performed at their core in order, a store acknowledged, a load or an
atomic answered with its value; an access of U mode to another core's home-queue region is refused there with 0x066: that it is refused at
its destination, and with this cause, is the model's reading of R69, R118 and R294 (log 100, DEDUCED); the answer reaches the stalled request, that of a load of the anchor view with the body's own buffered
bytes over it (R86). -/
def Sys2Proof.Claim.WindowServed : Prop :=
  ∀ s id m, msgReady s id = some m →
    (∀ es, m.load = .winStore es → storeBefore s m = false → (∀ e ∈ es, WindowOpen s m e.1 false true ∧ NoAbort s m.dst e.1 e.2.length m.writer) →
      ∃ t, exec (.clusterWindowAccess id) s = .next t ∧ Answers s t m .cluster 0 (.ack none 0) ∧
        ∀ z, peek (coreAt t m.dst).mem z = (lastOver es z).getD (peek (coreAt s m.dst).mem z)) ∧
    (∀ x n, m.load = .winReq (.load m.dst x n) → m.user = true → homePage (coreAt s m.dst) (x / 4096) = true →
      (coreAt s m.dst).power = .on → ∃ t, exec (.clusterWindowAccess id) s = .next t ∧ t.cores = s.cores ∧
        Answers s t m .cluster m.tag (.winAns (.load m.dst x n) (.refused (why 0x066 0) (nearOf m.src m.dst x)))) ∧
    (∀ x n, m.load = .winReq (.load m.dst x n) → WindowOpen s m x true false → poisonIn (coreAt s m.dst) x n = none →
      ∃ t, exec (.clusterWindowAccess id) s = .next t ∧ CoresRead s t ∧
        Answers s t m .cluster m.tag (.winAns (.load m.dst x n) (.value (BitVec.ofNat 64 (leValue (coreAt s m.dst).mem x n))))) ∧
    (∀ x n op y v, m.load = .winReq (.amo m.dst x n op y v) → WindowOpen s m x true true → poisonIn (coreAt s m.dst) x n = none →
      NoAbort s m.dst x n m.writer →
      let old := leValue (coreAt s m.dst).mem x n
      ∃ t, exec (.clusterWindowAccess id) s = .next t ∧ StoredAt m.dst x n (amoNew op n old y.toNat v.toNat) s t ∧
        Answers s t m .cluster m.tag (.winAns (.amo m.dst x n op y v) (.value (BitVec.ofNat 64 old)))) ∧
    (∀ r a b i x o, m.load = .winAns r a → m.unit = .stream i x → m.origin = some o → (slotAt (coreAt s m.dst) i).serial = o.serial →
      ((∀ h e x n u, r ≠ .viewLoad h e x n u) ∧ b = a ∨ (∃ h e x n u v k, r = .viewLoad h e x n u ∧ a = .value v ∧
        (slotAt (coreAt s m.dst) i).task = some k ∧ b = .value (BitVec.ofNat 64 (leNat (overlay k.abuf x (leBytes n v.toNat)))))) →
      ∃ t, exec (.clusterWindowAnswer id) s = .next t ∧ Gone s t m ∧ (threadAt (coreAt t m.dst) m.unit).pend =
        changeFirst (fun p => p.id == m.tag) (fun p => { p with ans := some b }) (threadAt (coreAt s m.dst) m.unit).pend)

/-- R189, R195 to R200: a closure operation from another core is done at the environment's home in one step and answered; its
answer reaches the stalled stream. R84 to R86: so is an access through the anchor view, a speculative read marking its
lines. -/
def Sys2Proof.Claim.HomeServed : Prop :=
  ∀ s id m, msgReady s id = some m →
    (∀ h i, (coreAt s m.dst).power = .on → EnvOf s m.dst h i → NoAbort s m.dst (envAddr (coreAt s m.dst) i) 16 none →
      let cls : Machine.Class := if m.cls = .cluster then .cluster else .reply
      let rc := headOf s m.dst i / 2 ^ 32 % 2 ^ 8
      (∀ n, m.load = .closureOp (.closureAdd h n) → rc < 255 → ∃ t, exec (.closureOperation id) s = .next t ∧
        headOf t m.dst i = headOf s m.dst i + 2 ^ 32 ∧ Answers s t m cls m.tag (.closureAns (.closureAdd h n) (.value 0))) ∧
      (m.load = .closureOp (.closureDrop h) → 1 < rc → ∃ t, exec (.closureOperation id) s = .next t ∧
        headOf t m.dst i + 2 ^ 32 = headOf s m.dst i ∧ Answers s t m cls m.tag (.closureAns (.closureDrop h) (.value 0))) ∧
      (∀ n, m.load = .closureOp (.closureRead h n) → n < headOf s m.dst i / 2 ^ 52 % 2 ^ 4 → ∃ t,
        exec (.closureOperation id) s = .next t ∧ t.cores = s.cores ∧ Answers s t m cls m.tag (.closureAns (.closureRead h n)
          (.value (BitVec.ofNat 64 (leValue (coreAt s m.dst).mem (envAddr (coreAt s m.dst) i + 16 + 8 * n) 8)))))) ∧
    (∀ r a i x o, m.load = .closureAns r a → m.unit = .stream i x → m.origin = some o → (slotAt (coreAt s m.dst) i).serial = o.serial →
      (slotAt (coreAt s m.dst) i).starting = none → (∃ p ∈ (threadAt (coreAt s m.dst) m.unit).pend, p.id = m.tag) → ∃ t, exec (.closureAnswer id) s = .next t ∧ Gone s t m ∧
        (threadAt (coreAt t m.dst) m.unit).pend =
          changeFirst (fun p => p.id == m.tag) (fun p => { p with ans := some a }) (threadAt (coreAt s m.dst) m.unit).pend) ∧
    (∀ e i z o u, m.unit = .stream i z → m.origin = some o → (slotAt (coreAt s m.src) i).serial = o.serial →
      (coreAt s m.dst).power = .on →
      let open' := fun (x bit : Nat) => (attrOf (coreAt s m.dst) (x / 4096)).getLsbD bit = true ∧
        (u = true → (attrOf (coreAt s m.dst) (x / 4096)).getLsbD 6 = false ∧ homePage (coreAt s m.dst) (x / 4096) = false)
      let cls : Machine.Class := if m.cls = .cluster then .cluster else .reply
      (∀ x n, m.load = .winReq (.viewLoad m.dst e x n u) → open' x 0 → scoreW (coreAt s m.dst) x (x + n) = false →
        poisonIn (coreAt s m.dst) x n = none → ∃ t, exec (.anchorViewAccess id) s = .next t ∧ (coreAt t m.dst).mem = (coreAt s m.dst).mem ∧
        Answers s t m cls m.tag (.winAns (.viewLoad m.dst e x n u) (.value (BitVec.ofNat 64 (leValue (coreAt s m.dst).mem x n)))) ∧
        (∀ y, entryAt (coreAt s m.dst) e = some y → ∃ y', entryAt (coreAt t m.dst) e = some y' ∧ y'.rcd = y.rcd ∧
          ∀ j < 64, y'.bitmap.getLsbD j = (y.bitmap.getLsbD j || (!y.promoted &&
            decide (anchorLine y.rcd j < x + n ∧ x < anchorLine y.rcd j + 64 ∧ 0 < n))))) ∧
      (∀ es, m.load = .winReq (.viewStore m.dst e u es) → (∀ p ∈ es, open' p.1 1 ∧ scoreRW (coreAt s m.dst) p.1 (p.1 + p.2.length) = false ∧
        NoAbort s m.dst p.1 p.2.length (some (m.dst, e))) → ∃ t, exec (.anchorViewAccess id) s = .next t ∧
        Answers s t m cls m.tag (.winAns (.viewStore m.dst e u es) (.value 0)) ∧
        ∀ z, peek (coreAt t m.dst).mem z = (lastOver es z).getD (peek (coreAt s m.dst).mem z)))


/-! ### Fences, barriers, CSRs, traps (R265 to R280, R123 to R125, R351) -/

namespace Sys2Proof.Claim
/-- What FENCE.CL waits for: a window store of the moving stream on its way or in the outgoing buffer, or an unanswered posted entry of
the window (R296). -/
def WindowLeft (s : State) : Prop :=
  (∃ m ∈ s.net, m.src = s.cur.core ∧ m.unit = s.cur.unit ∧ ∃ es, m.load = .winStore es) ∨
    (∃ k pc a ps, farTask s = some k ∧ Outgoing.winStore (unitSide s.cur.unit) pc a ps ∈ k.obuf ∧ ps ≠ []) ∨
    ∃ p ∈ (slotOf s).posted, p.side = unitSide s.cur.unit ∧ p.scope = .window ∧ postedOut s s.cur.core (slotNo s.cur.unit) p = true
/-- An unanswered posted entry of the moving stream, for a message to a core that `f` names. -/
def MessagesLeft (s : State) (f : Coord → Prop) : Prop :=
  ∃ p ∈ (slotOf s).posted, ∃ d, p.side = unitSide s.cur.unit ∧ p.scope = .message d ∧ f d ∧ p.seq < (slotOf s).nextSeq ∧
    postedOut s s.cur.core (slotNo s.cur.unit) p = true
/-- A port word of the moving stream to a core that `f` names, in the port or on its way, not yet placed (R315). -/
def WordsLeft (s : State) (f : Coord → Prop) : Prop :=
  (∃ p : Fin 4, f (BitVec.ofNat 13 (slotAt (here s) (slotNo s.cur.unit)).ports[p].cfg.toNat) ∧
    ∃ w ∈ (slotAt (here s) (slotNo s.cur.unit)).ports[p].send, w.1 = unitSide s.cur.unit ∧ w.2.1 ≤ s.nextId) ∨
    ∃ m ∈ s.net, m.src = s.cur.core ∧ m.unit = s.cur.unit ∧ m.tag ≤ s.nextId ∧ f m.dst ∧ ∃ p q w, m.load = .portWord p q w
/-- An entry of the outgoing buffer is a window store of the moving stream, or a message, port word or task of it to a core that `f`
names (R86). -/
def GoesTo (s : State) (f : Coord → Prop) : Outgoing → Prop
  | .winStore x _ _ _ => x = unitSide s.cur.unit
  | .gst .. => False
  | .msg x _ r _ sig => x = unitSide s.cur.unit ∧ f (if sig then BitVec.ofNat 13 r.toNat else rDest r)
  | .port x p _ => x = unitSide s.cur.unit ∧ f (BitVec.ofNat 13 (slotOf s).ports[p].cfg.toNat)
  | .task x _ _ d _ => x = unitSide s.cur.unit ∧ f d
def OutgoingLeft (s : State) (f : Coord → Prop) : Prop := ∃ k, farTask s = some k ∧ ∃ o ∈ k.obuf, GoesTo s f o
/-- What FENCE.DIE waits for (R315). -/
def DieLeft (s : State) : Prop :=
  let own : Coord → Prop := fun d => dieOf d = dieOf s.cur.core
  WindowLeft s ∨ MessagesLeft s own ∨ WordsLeft s own ∨ OutgoingLeft s own
/-- An earlier global load, store or atomic of the moving stream that is not performed, or a GST in the outgoing buffer (R358). -/
def GlobalLeft (s : State) : Prop :=
  (∃ k pc a bs, farTask s = some k ∧ Outgoing.gst (unitSide s.cur.unit) pc a bs ∈ k.obuf) ∨
    ∃ r ∈ s.gnet, r.origin.core = s.cur.core ∧ r.origin.slot = slotNo s.cur.unit ∧ r.origin.side = unitSide s.cur.unit ∧ r.reply = none ∧
      ((∃ n, r.kind = .load n) ∨ (∃ bs, r.kind = .store bs) ∨ ∃ op x y, r.kind = .amo op x y)
/-- What FENCE.PKG and FENCE.SYS wait for (R358). -/
def PkgLeft (s : State) : Prop :=
  WindowLeft s ∨ WordsLeft s (fun _ => True) ∨ OutgoingLeft s (fun _ => True) ∨ GlobalLeft s ∨
    ∃ p ∈ (slotOf s).posted, p.side = unitSide s.cur.unit ∧ p.scope ≠ .query ∧ postedOut s s.cur.core (slotNo s.cur.unit) p = true
/-- The words `ws` stand at the moving unit's PC, each where it may fetch, with nothing fetched ahead, and are one chain (R30, R31, R104). -/
def WordsAt (s : State) (ws : List Half) : Prop :=
  (threadOf s).fbuf = [] ∧ ws.length ≤ 6 ∧ chainDone (chainRead Chain.start ws) = true ∧
    (∀ n, n < ws.length → chainDone (chainRead Chain.start (ws.take n)) = false) ∧
    ∀ j, (h : j < ws.length) → let a := pcOf s + BitVec.ofNat 64 (2 * j)
      a.toNat < 0x200000 ∧ (attrOf (here s) (a.toNat / 4096)).getLsbD 2 = true ∧ leValue (here s).mem a.toNat 2 = ws[j].toNat
/-- The unit that moves may execute: a unit of a core whose launch runs, with no report, held trap or undrained buffer due before it. -/
def MayExecute (s : State) : Prop :=
  isCore s.cur.core = true ∧ heldTrap s s.cur = none ∧ canRun s s.cur = true ∧ reportDue s s.cur = false
/-- The fences that wait, with the low bits of their base words. -/
def fences : List (Half × Instr) := [(0, .fenceCore), (1, .fenceCl), (2, .fenceDie), (3, .fencePkg), (4, .fenceSys)]
end Sys2Proof.Claim

/-- R265, R296, R315, R358, R266: a fence goes on where nothing is left that it waits for, stalls where something is, and changes
nothing else: FENCE.CL for window stores, FENCE.DIE for messages and port words to its own die as well, FENCE.PKG and FENCE.SYS for
everything the stream has sent, global accesses included, whether it is on its way, unanswered, or still in the outgoing buffer. What
FENCE.CORE waits for, the step does first: a step at any of the fences leaves nothing in the stream's store buffer, and nothing read
ahead (log 4, DESIGN CHOICE), so that FENCE.CORE itself never stalls. FENCE.I empties the fetch buffers of the core. -/
def Obligations.Fences : Prop :=
  (∀ s, Passes uEA false [] s →
    exec .fenceCore s = .next (goes s s) ∧
    (WindowLeft s → exec .fenceCl s = .next (onStop s (.stall false))) ∧ (¬WindowLeft s → exec .fenceCl s = .next (goes s s)) ∧
    (DieLeft s → exec .fenceDie s = .next (onStop s (.stall false))) ∧ (¬DieLeft s → exec .fenceDie s = .next (goes s s)) ∧
    ∀ i ∈ [Instr.fencePkg, .fenceSys],
      (PkgLeft s → exec i s = .next (onStop s (.stall false))) ∧ (¬PkgLeft s → exec i s = .next (goes s s))) ∧
  (∀ s, ∀ e ∈ fences, s.agenda = [] → MayExecute s → isIbex s.cur.unit = false → WordsAt s [0xD180, 0xE000 + e.1] →
    ∃ t, step s = .next t ∧ decode [0xD180, 0xE000 + e.1] = e.2 ∧ (threadAt (coreAt t s.cur.core) s.cur.unit).sbuf = [] ∧
      (threadAt (coreAt t s.cur.core) s.cur.unit).early = []) ∧
  (∀ s, ∀ e ∈ fences, s.ir = [0xD180, 0xE000 + e.1] → perform false e.2 s = exec e.2 (readied e.2 s) ∧
    (threadOf (readied e.2 s)).sbuf = [] ∧ (threadOf (readied e.2 s)).early = []) ∧
  (∀ s, Passes uEA true [] s → ∃ t, exec .fenceI s = .next t ∧ (∀ u, (threadAt (here t) u).fbuf = []) ∧ StoreRegs s t ∧ MemKept s t ∧
    OnlyHere s t ∧ (threadOf t).pc = pcOf s + BitVec.ofNat 64 (lenOf s))

namespace Sys2Proof.Claim
/-- The near address names 16 own bytes at a multiple of 16 that the unit may read and write, with no engine or earlier window
store in the way (R268, R272, R297). -/
def BarrierPlace (s : State) (A : Word) (y : Nat) : Prop :=
  OwnPlace s A 16 y ∧ A.toNat % 16 = 0 ∧ y % 16 = 0 ∧ MayRead s y 16 ∧ MayWrite s y 16 ∧ scoreRW (here s) y (y + 16) = false ∧
    windowAny s = false
/-- What a barrier instruction without a result leaves: the 16 bytes, the registers, the PC. -/
def BarrierDone (s t : State) (y v : Nat) : Prop :=
  Stored y 16 v s t ∧ StoreRegs s t ∧ (threadOf t).pc = pcOf s + BitVec.ofNat 64 (lenOf s)
end Sys2Proof.Claim

/-- R267 to R271: BAR.INIT writes an object of the count; BAR.ARR arrives in the round, or in the next one, with its number
as the result, and overruns when both are full; BAR.EXP adds pending bytes; BAR.WAIT goes on once the round has ended. Reading the
object corrects its single-bit errors (R218). -/
def Obligations.BarrierInstructions : Prop :=
  (∀ b c s s1 s2 A n y, Passes uEA false [.rd b, .rd c] s → readG b s = .ok (A, s1) → readG c s1 = .ok (n, s2) → BarrierPlace s2 A y →
    AbortsNone s2 y 16 →
    (1 ≤ n.toNat ∧ n.toNat ≤ 65535 → ∃ t, exec (.barInit b c) s = .next t ∧ BarrierDone s t y n.toNat) ∧
    (n.toNat = 0 ∨ 65535 < n.toNat → exec (.barInit b c) s = .next (onStop s (.trap (why 0x141 1) n none))) ∧
    (∀ o, ObjectAt s2 s.cur.core y o →
      (∃ t, exec (.barExp b c) s = .next t ∧ BarrierDone s t y (barImage (ended { o with pend := (o.pend + n.toNat % 2 ^ 48) % 2 ^ 48 }))) ∧
      (let past := (o.round + 2 ^ 16 - n.toNat % 2 ^ 16) % 2 ^ 16;
        exec (.barWait b c) s = .next (if past = 0 ∨ 2 ^ 15 ≤ past then onStop s (.stall false)
          else goes s (readAt s2 s.cur.core y 16))))) ∧
  (∀ a b s s1 s2 A y o, Passes uEA false [.rd b, .wr a] s → readG b s = .ok (A, s1) → BarrierPlace s1 A y → ObjectAt s1 s.cur.core y o →
    (o.a < o.expect → writeResult a (BitVec.ofNat 64 o.round)
        (writeNat (readAt s1 s.cur.core y 16) s.cur.core y 16 (barImage (ended { o with a := o.a + 1 })) (writerOf s1)) = .ok ((), s2) →
      exec (.barArr a b) s = .next (goes s s2)) ∧
    (o.a = o.expect → o.e < o.expect → writeResult a (BitVec.ofNat 64 (2 ^ 16 + (o.round + 1) % 2 ^ 16))
        (writeNat (readAt s1 s.cur.core y 16) s.cur.core y 16 (barImage (ended { o with e := o.e + 1 })) (writerOf s1)) = .ok ((), s2) →
      exec (.barArr a b) s = .next (goes s s2)) ∧
    (o.a = o.expect → o.e = o.expect → exec (.barArr a b) s = .next (onStop s (.trap (why 0x140 0) A none)))) ∧
  (∀ b c s s1 s2 A n y v, Passes uEA false [.rd b, .rd c] s → readG b s = .ok (A, s1) → readG c s1 = .ok (n, s2) → BarrierPlace s2 A y →
    poisonIn (here s2) y 16 = none → v = leValue (here s2).mem y 16 →
    (v / 2 ^ 112 ≠ 0 ∨ v % 2 ^ 16 = 0 ∨ v % 2 ^ 16 < v / 2 ^ 16 % 2 ^ 16 ∨ v % 2 ^ 16 < v / 2 ^ 32 % 2 ^ 16) →
    ∀ i ∈ [Instr.barExp b c, .barWait b c], exec i s = .next (onStop s (.trap (why 0x141 2) A none)))

namespace Sys2Proof.Claim
/-- R124, R125: number, S mode only to read, value, for the moving stream. -/
def csrMap (s : State) : List (Nat × Bool × Word) :=
  let k := here s
  let t := threadOf s
  let x := slotAt k (slotNo s.cur.unit)
  let w := BitVec.ofNat 64
  [(0x000, false, w (s.cur.core.toNat + 2 ^ 16 * clidx s.cur.core)),
   (0x001, false, w ((slotNo s.cur.unit).val + if unitSide s.cur.unit = .acc then 4 else 0)), (0x002, false, s.time),
   (0x003, false, k.cycle), (0x010, true, x.status), (0x011, true, x.cause), (0x012, true, x.fpc), (0x013, true, x.fword0),
   (0x014, true, x.fword1), (0x015, true, x.fword2), (0x016, true, x.faddr), (0x017, true, k.tvec), (0x018, true, t.epc),
   (0x020, false, t.cmask.setWidth 64), (0x021, false, t.fcsr.setWidth 64), (0x022, true, t.dead.setWidth 64),
   (0x030, false, x.vtype), (0x031, false, x.vl.setWidth 64), (0x032, false, w (vlMax x)),
   (0x040, false, w (t.ld + 2 ^ 8 * t.st + 2 ^ 16 * t.bk + 2 ^ 24 * t.mx)), (0x041, false, x.dcloss), (0x050, true, k.tqbase),
   (0x051, false, k.tqcfg), (0x052, false, w (frontier k)), (0x060, true, k.envbase), (0x061, true, k.frbase),
   (0x062, true, w (k.mbbase.toNat + 2 ^ 32 * k.mb.length)),
   (0x070, true, w ((attrOf k k.pageSel.toNat).toNat + 2 ^ 16 * k.pageSel.toNat)),
   (0x080, false, (chanAt k 0).done.setWidth 64), (0x081, false, (chanAt k 1).done.setWidth 64),
   (0x082, false, (chanAt k 2).done.setWidth 64), (0x083, false, (chanAt k 3).done.setWidth 64), (0x090, false, k.acfg),
   (0x0A0, false, x.ports[0].cfg.setWidth 64), (0x0A1, false, x.ports[1].cfg.setWidth 64), (0x0A2, false, x.ports[2].cfg.setWidth 64),
   (0x0A3, false, x.ports[3].cfg.setWidth 64), (0x0B0, false, k.clkdiv.setWidth 64)]
/-- The access stream has no VTYPE, VL and VLMAX (R123). -/
def csrThere (s : State) (n : Nat) : Bool := !(decide (unitSide s.cur.unit = .acc) && decide (n ∈ [0x030, 0x031, 0x032]))
def withSlot (s : State) (f : Slot → Slot) : State := changeSlot s f
def withCore (s : State) (f : Core → Core) : State := mapCore s s.cur.core f
/-- The waiting stores of every stream of the core have taken effect, and no stream holds a word that it has read ahead (R117, log 4). -/
def settled (s : State) : State :=
  withCore (settleStores s s.cur.core fun _ => true) fun k => { k with threads := k.threads.map fun t => { t with early := [] } }
/-- R125: number, S mode only to write, and what SWR of v leaves, for the CSRs that take every write. -/
def csrStores : List (Nat × Bool × (Word → State → State)) :=
  [(0x010, true, fun v s => withSlot s fun x => { x with status := (x.status &&& 1) ||| (v &&& 6) }),
   (0x011, true, fun v s => withSlot s fun x => { x with cause := v &&& 0xFFFFFFFF0001FFFF }),
   (0x012, true, fun v s => withSlot s fun x => { x with fpc := v &&& 0x1FFFFE }),
   (0x013, true, fun v s => withSlot s fun x => { x with fword0 := v &&& 0xFFFFFFFF }),
   (0x014, true, fun v s => withSlot s fun x => { x with fword1 := v &&& 0xFFFFFFFF }),
   (0x015, true, fun v s => withSlot s fun x => { x with fword2 := v &&& 0x7FFFF }),
   (0x016, true, fun v s => withSlot s fun x => { x with faddr := v }),
   (0x017, true, fun v s => withCore s fun k => { k with tvec := v &&& 0x1FFFFE }),
   (0x018, true, fun v s => withThread s fun t => { t with epc := v &&& 0x1FFFFE }),
   (0x020, false, fun v s => withThread s fun t => { t with cmask := v.setWidth 32 &&& 0xFFFFFFF0 }),
   (0x021, false, fun v s => withThread s fun t => { t with fcsr := v.setWidth 32 &&& 0x1F031F1F }),
   (0x022, true, fun v s => withThread s fun t => { t with dead := t.dead ||| (v.setWidth 32 &&& 0xFFFFFFFE) }),
   (0x041, true, fun v s => withSlot s fun x => { x with dcloss := v })]
/-- An SWR of number `n` of the value `v`, or the event that makes that one write: the instruction, and the state when its
operand is read. -/
def Writes (i : Instr) (n : Nat) (priv : Bool) (v : Word) (s s1 : State) : Prop :=
  (∃ b m, i = .swr b m ∧ m.toNat = n ∧ Passes uEA priv [.here (csrThere s n), .rd b] s ∧ readG b s = .ok (v, s1)) ∨
    (s1 = s ∧ Passes uEA priv [] s ∧ ((n = 0x070 ∧ i = .pageattrWrite v) ∨ (n = 0x060 ∧ i = .envbaseWrite v) ∨
      (n = 0x061 ∧ i = .frbaseWrite v) ∨ (n = 0x062 ∧ i = .mbbaseWrite v) ∨ (n = 0x050 ∧ i = .tqbaseWrite v) ∨
      (n = 0x051 ∧ i = .tqcfgWrite v) ∨ (n = 0x022 ∧ i = .gdeadWrite v) ∨ (n = 0x021 ∧ i = .fcsrWrite v)))
/-- No reserved region of `l` meets the region `r` (R118). -/
def RegionsApart (r : Nat × Nat) (l : List (Nat × Nat)) : Prop := ∀ q ∈ l, ¬(r.1 < q.2 ∧ q.1 < r.2 ∧ r.1 < r.2 ∧ q.1 < q.2)
end Sys2Proof.Claim

/-- R123, R124, R278: SRD reads each CSR of the table for the issuing stream, those that the U column does not open in S mode
only; any other number raises 0x002 subcode 0x05, and so does an SWR to it or to one whose fields are all RO. -/
def Obligations.CsrReads : Prop :=
  (∀ a (n : BitVec 15) p v s s1, (n.toNat, p, v) ∈ csrMap s → Passes uEA p [.here (csrThere s n.toNat), .wr a] s →
    writeResult a v s = .ok ((), s1) → exec (.srd a n) s = .next (goes s s1)) ∧
  (∀ a b (n : BitVec 15) s, (∀ r ∈ csrMap s, r.1 ≠ n.toNat) →
    (Passes uEA false [.wr a] s → exec (.srd a n) s = .next (onStop s (.trap (why 0x002 5) (baseAddr s) none))) ∧
    (Passes uEA false [.rd b] s → exec (.swr b n) s = .next (onStop s (.trap (why 0x002 5) (baseAddr s) none)))) ∧
  (∀ b (n : BitVec 15) s, n.toNat ∈ [0x000, 0x001, 0x002, 0x003, 0x030, 0x031, 0x032, 0x040, 0x052, 0x080, 0x081, 0x082, 0x083, 0x090, 0x0A0,
      0x0A1, 0x0A2, 0x0A3, 0x0B0] → Passes uEA true [.here (csrThere s n.toNat), .rd b] s →
    exec (.swr b n) s = .next (onStop s (.trap (why 0x002 5) (baseAddr s) none)))

/-- R125, R278, R114, R18: SWR writes the fields of each CSR that its map makes writable, and no other bit (STATUS.INTRAP too,
which leaves the slot's state alone: the model's choice, log 57, DEDUCED); GDEAD only adds to the dead set; PAGEATTR selects a page and,
with WE, writes its attributes, and no stream of the core uses a word that it read ahead under the old ones (the model's reading
ahead, log 4); TQCFG keeps DEPTH within 1 to 1024. -/
def Sys2Proof.Claim.CsrWrites : Prop :=
  (∀ n p f i v s s1, (n, p, f) ∈ csrStores → Writes i n p v s s1 → exec i s = .next (goes s (f v s1))) ∧
  (∀ i v s s1, Writes i 0x070 true v s s1 → ∃ t, exec i s = .next t ∧ ∀ u, (threadAt (here t) u).early = [] ∧ (threadAt (here t) u).sbuf = []) ∧
  (∀ i v s s1, Writes i 0x070 true v s s1 → (∀ u, (threadAt (here s) u).sbuf = []) → ∃ t, exec i s = .next t ∧ (here t).pageSel.toNat = v.toNat / 2 ^ 16 % 2 ^ 9 ∧
    (∀ g, g < 512 → attrOf (here t) g = if v.getLsbD 31 = true ∧ g = v.toNat / 2 ^ 16 % 2 ^ 9 then BitVec.ofNat 8 (v.toNat % 2 ^ 7)
      else attrOf (here s) g) ∧ MemKept s t ∧ StoreRegs s t ∧ (threadOf t).pc = pcOf s + BitVec.ofNat 64 (lenOf s)) ∧
  (∀ i v s s1, Writes i 0x051 false v s s1 → ∃ t, exec i s = .next t ∧ (here t).tqcfg.toNat =
      (if v.toNat % 2 ^ 11 = 0 then 1 else min 1024 (v.toNat % 2 ^ 11)) + v.toNat / 2 ^ 16 % 2 * 2 ^ 16 ∧
    MemKept s t ∧ StoreRegs s t ∧ (here t).home = (here s).home ∧ (threadOf t).pc = pcOf s + BitVec.ofNat 64 (lenOf s))

/-- R75, R118: a region base moves only while its region is empty: TQBASE without records, ENVBASE without live environments,
FRBASE without live frames, MBBASE without words; and to a place that meets no other reserved region. A new environment
region is reset, each index with its generation. The model's choices: any of the 256 environments that is live refuses ENVBASE
(log 58, DEDUCED), a live environment or frame refuses before the placement is looked at (log 76, DESIGN CHOICE), a write of
TQBASE lets the waiting stores of the core take effect and ends what its streams have read ahead (log 4, DESIGN CHOICE), and FRBASE takes
a region that runs past local memory (log 107, DESIGN CHOICE). -/
def Sys2Proof.Claim.RegionBases : Prop :=
  ∀ i v s s1,
    (Writes i 0x050 true v s s1 →
      ((here s).home ≠ [] → exec i s = .next (onStop s (.trap (why 0x0C1 1) 0 none))) ∧
      ((here s).home = [] → RegionsApart (tqRegion v) [envRegion (here s).envbase, mbRegion (here s).mbbase, frRegion (here s).frbase] →
        exec i s = .next (goes s (withCore (settled s1) fun k => { k with tqbase := v &&& 0x1F0000 }))) ∧
      ((here s).home = [] → ¬RegionsApart (tqRegion v) [envRegion (here s).envbase, mbRegion (here s).mbbase, frRegion (here s).frbase] →
        exec i s = .next (goes s (settled s1)))) ∧
    (Writes i 0x061 true v s s1 →
      ((∃ q, (slotAt (here s) q).depth ≠ 0) → exec i s = .next (onStop s (.trap (why 0x002 5) (baseAddr s) none))) ∧
      ((∀ q, (slotAt (here s) q).depth = 0) → RegionsApart (frRegion v) [tqRegion (here s).tqbase, envRegion (here s).envbase,
          mbRegion (here s).mbbase] → exec i s = .next (goes s (withCore s1 fun k => { k with frbase := v &&& 0xFFFFFFC0 })))) ∧
    (Writes i 0x062 true v s s1 →
      ((here s1).mb = [] → RegionsApart (mbRegion v) [tqRegion (here s).tqbase, envRegion (here s).envbase, frRegion (here s).frbase] →
        exec i s = .next (goes s (withCore s1 fun k => { k with mbbase := v &&& 0x1FFC00 }))) ∧
      ((here s).mb ≠ [] → s1 = s → exec i s = .next (goes s s1))) ∧
    (Writes i 0x060 true v s s1 →
      ((∃ j < 256, liveAt s j) → exec i s = .next (onStop s (.trap (why 0x002 5) (baseAddr s) none))) ∧
      ((∀ j < 256, ¬liveAt s j) → RegionsApart (envRegion v) [tqRegion (here s).tqbase, mbRegion (here s).mbbase, frRegion (here s).frbase] →
        (∀ j < 256, NoAbort s s.cur.core ((envRegion v).1 + 128 * j) 128 none) →
        ∃ t, exec i s = .next t ∧ (here t).envbase = v &&& 0x1F8000 ∧ (∀ j < 256, headAt t j = genAt s j * 2 ^ 40 ∧
          ∀ w < 14, leValue (here t).mem (envAt t j + 16 + 8 * w) 8 = 0) ∧ MemKeptBut (envRegion v).1 (envRegion v).2 s t ∧
          (threadOf t).pc = pcOf s + BitVec.ofNat 64 (lenOf s)))

namespace Sys2Proof.Claim
/-- R279: the cause of a trap by instruction. -/
def trapTable : Instr → Option Why
  | .trap n => if n.toNat ≤ 127 then some (why 0x1C2 n.toNat) else none
  | .brk => some (why 0x1C3 0)
  | _ => none
/-- The near body of Ibex unit `n` has failed (R80): the unit is free, its record gone from its home, the launch marked
failed with 0x0C6 unless an earlier fault holds that place, and the mailbox has the message. -/
def NearFailed (s t : State) (c : Coord) (n : Fin 2) (k : Task) (w : Why) (pc : Word) : Prop :=
  (ibexAt (coreAt t c) n).task = none ∧ (threadAt (coreAt t c) (.ibex n)).running = false ∧ (threadAt (coreAt t c) (.ibex n)).sbuf = [] ∧
    (coreAt t c).home.map (·.seq) = dropFirst (fun x => x == k.entry) ((coreAt s c).home.map (·.seq)) ∧
    (∀ l, launchOf s c = some l → ∃ l', launchOf t c = some l' ∧ l'.failed = l.failed.or (some (why 0x0C6 0))) ∧
    ((coreAt s c).mbHeld = [] → (coreAt s c).mb.length + 4 ≤ Config.mailboxWords → (coreAt t c).mb = (coreAt s c).mb ++
      [BitVec.ofNat 64 (0x0C6 + 2 ^ 16 * w.cause.toNat + 2 ^ 25 * w.sub.toNat + 2 ^ 32 * n.val), pc, rcdWid k.rcd, rcdAnchor k.rcd])
end Sys2Proof.Claim

/-- R275, R86, R80: a precise trap of a stream is TrapEntry at the instruction's address; a speculative body's is held with
nothing else done; with STATUS.INTRAP set it halts the slot and fails the launch with 0x1C1; on an Ibex unit it ends the
near body, whose waiting stores take effect first (the model's buffer of log 4). The references that a stopped instruction had
added are RemoteClosures' part. -/
def Obligations.TrapEntry : Prop :=
  ∀ s w a,
    (∀ i x, s.cur.unit = .stream i x → TrapReady s s.cur.core i →
      TrapTaken s (onStop s (.trap w a none)) s.cur.core i ⟨w, x, a, pcOf s, s.ir, pcOf s⟩) ∧
    (∀ i x y, s.cur.unit = .stream i x → (slotOf s).task = some y → speculative s y = true → holdsNone (threadOf s) = true →
      (slotOf (onStop s (.trap w a none))).task = some { y with held := some ⟨w, x, a, pcOf s, s.ir, pcOf s⟩ } ∧
      (slotOf (onStop s (.trap w a none))).st = (slotOf s).st ∧ pcOf (onStop s (.trap w a none)) = pcOf s) ∧
    (∀ i x, s.cur.unit = .stream i x → (slotOf s).status.getLsbD 2 = true → (∀ y, (slotOf s).task = some y → speculative s y = false) →
      slotHoldsNone (here s) i = true →
      let t := onStop s (.trap w a none)
      (slotOf t).st = .halted ∧ (∀ z : Side, (threadAt (here t) (.stream i z)).running = false) ∧
      ((dieAt s (dieOf s.cur.core)).log.length < 512 → (dieAt t (dieOf s.cur.core)).log = (dieAt s (dieOf s.cur.core)).log ++
        [logEntry s.time s.cur.core s.cur.core i w 5 0 (slotOf s).fpc 0]) ∧
      (∀ l, launchOf s s.cur.core = some l → ∃ l', launchOf t s.cur.core = some l' ∧ l'.failed = l.failed.or (some (why 0x1C1 0)))) ∧
    (∀ n k, s.cur.unit = .ibex n → (ibexAt (here s) n).task = some k → k.home = s.cur.core → (∃ x, entryAt (here s) k.entry = some x ∧
        rcdNear x.rcd = 0 ∧ rcdFar x.rcd = 0) →
      holdsNone (threadOf s) = true →
      NearFailed s (onStop s (.trap w a none)) s.cur.core n k w (pcOf s))

/-- R279: TRAP n and BRK trap with the next instruction as EPC, cause 0x1C2 with subcode n and 0x1C3 with subcode 0; the record is
TrapEntry's. A value of n above 127 raises 0x002 subcode 0x05 instead. They run on both streams and on no Ibex unit. -/
def Obligations.SoftwareTraps : Prop :=
  (∀ i w s, trapTable i = some w → Passes uEA false [] s → exec i s = .next (onStop s (.soft w))) ∧
  (∀ i w s q x, trapTable i = some w → Passes uEA false [] s → s.cur.unit = .stream q x → TrapReady s s.cur.core q →
    ∃ t, exec i s = .next t ∧ TrapTaken s t s.cur.core q ⟨w, x, 0, pcOf s, s.ir, pcOf s + BitVec.ofNat 64 (lenOf s)⟩) ∧
  (∀ (n : BitVec 15) s, 127 < n.toNat → Passes uEA false [] s →
    exec (.trap n) s = .next (onStop s (.trap (why 0x002 5) (baseAddr s) none))) ∧
  (∀ i s n, isCore s.cur.core = true → s.cur.unit = .ibex n → (i = .brk ∨ ∃ m, i = .trap m) →
    exec i s = .next (onStop s (.trap (why 0x007 0) (baseAddr s) none))) ∧
  (∀ q x s, isCore s.cur.core = true → s.cur.unit = .stream q x → Passes uEA false [] s)

/-- R277, R280, R46, R48, R284: an undecodable chain traps with the word that names the cause in FADDR; ERET restores the mode and
resumes both streams at their EPCs; HALT halts the slot behind itself; a parity error halts it, once no instruction of the slot is
under way at another core (R273). -/
def Obligations.TrapsAndReturn : Prop :=
  (∀ c u pos s q x, isCore s.cur.core = true → s.cur.unit = .stream q x → TrapReady s s.cur.core q →
    ∃ t, exec (.decodeTrap c u pos) s = .next t ∧
      TrapTaken s t s.cur.core q ⟨⟨c, u⟩, x, pcOf s + BitVec.ofNat 64 (2 * pos), pcOf s, s.ir, pcOf s⟩) ∧
  (∀ s q, Passes uEA true [] s → s.cur.unit = .stream q .exec →
    ((slotOf s).status.getLsbD 2 = false → exec .eret s = .next (onStop s (.trap (why 0x002 5) (baseAddr s) none))) ∧
    ((slotOf s).status.getLsbD 2 = true → ∃ t, exec .eret s = .next t ∧ (slotOf t).st = .running ∧
      (slotOf t).status = (((slotOf s).status &&& 2) ||| (((slotOf s).status >>> 1) &&& 1)) ∧ (threadOf t).pc = (threadOf s).epc ∧
      (threadOf t).running = true ∧ (∀ n : BitVec 5, regVal (threadOf t) n = regVal (threadOf s) n) ∧ MemKept s t ∧
      let p := threadAt (here s) (.stream q .acc)
      let u := threadAt (here t) (.stream q .acc)
      ((slotOf s).accWas = true → u.pc = p.epc ∧ u.running = true) ∧ ((slotOf s).accWas = false → u = p))) ∧
  (∀ s q, Passes uEA true [] s → s.cur.unit = .stream q .exec → (slotOf s).released = false → slotHoldsNone (here s) q = true →
    ∃ t, exec .halt s = .next t ∧ (slotOf t).st = .halted ∧ (∀ z : Side, (threadAt (here t) (.stream q z)).running = false) ∧
      (threadOf t).epc = (pcOf s + BitVec.ofNat 64 (lenOf s)) &&& 0x1FFFFE ∧ (slotOf t).status = (slotOf s).status ∧
      (∀ n : BitVec 5, regVal (threadOf t) n = regVal (threadOf s) n) ∧ MemKept s t ∧
      ((slotOf s).st = .running →
        (threadAt (here t) (.stream q .acc)).epc = (threadAt (here s) (.stream q .acc)).pc &&& 0x1FFFFE)) ∧
  (∀ s c (q : Fin 4) b, slotBegun (coreAt s c) q = true → exec (.parityError c q b) s = .next s) ∧
  (∀ s c (q : Fin 4) b, slotBegun (coreAt s c) q = false → slotHoldsNone (coreAt s c) q = true → ∃ t, exec (.parityError c q b) s = .next t ∧ (slotAt (coreAt t c) q).st = .halted ∧
    (∀ z : Side, (threadAt (coreAt t c) (.stream q z)).running = false) ∧ (coreAt t c).mem = (coreAt s c).mem ∧
    ((dieAt s (dieOf c)).log.length < 512 → (dieAt t (dieOf c)).log = (dieAt s (dieOf c)).log ++
      [logEntry s.time c c q (why 0x180 (if b then 2 else 1)) 6 0 0 0]) ∧
    ∀ l, launchOf s c = some l → ∃ l', launchOf t c = some l' ∧ l'.failed = l.failed.or (some (why 0x180 (if b then 2 else 1))))

/-- R351: SSTEP traps in an anchored task and in a handler; otherwise, with the access stream idle and everything earlier
done, it arrives, and goes on once a release covers the core. It writes no register. -/
def Sys2Proof.Claim.Supersteps : Prop :=
  ∀ s q, Passes uE false [] s → s.cur.unit = .stream q .exec → isSpec s = false →
    (farTask s ≠ none → exec .sstep s = .next (onStop s (.trap (why 0x142 1) 0 none))) ∧
    (farTask s = none → (slotOf s).status.getLsbD 2 = true → exec .sstep s = .next (onStop s (.trap (why 0x142 2) 0 none))) ∧
    (farTask s = none → (slotOf s).status.getLsbD 2 = false → (threadAt (here s) (.stream q .acc)).running = false →
      (∀ p ∈ (slotOf s).posted, p.failed = none) →
      (∀ x : Side, (threadAt (here s) (.stream q x)).st = 0 ∧ (threadAt (here s) (.stream q x)).bk = 0) → (threadOf s).ld = 0 →
      pkgWaits s = false →
      ((slotOf s).released = true → exec .sstep s = .next (goes s (withSlot s fun x => { x with released := false, arrived := false }))) ∧
      ((slotOf s).released = false → exec .sstep s = .next (withSlot (markStalled s (slotOf s).arrived) fun x => { x with arrived := true })))


/-! ### Launches and the host (R321 to R323, R338 to R355, R380 to R392) -/

namespace Sys2Proof.Claim
/-- The translation that a write held by the host link has been granted (R334). -/
def WriteGranted (s : State) (pid : BitVec 20) (a : Nat) (g : Grant) : Prop :=
  s.grants.find? (fun g => g.pid == pid && g.addr == a && g.write) = some g
/-- The completion address of a record is a line of device memory at `p`: by the translation that its write has been granted, else by
one with which the queue's PID may write (R334, R342, R349). -/
def CompLine (s : State) (pid : BitVec 20) (comp p : Nat) : Prop :=
  comp % 64 = 0 ∧ 2 ^ 32 ≤ comp ∧ comp < 2 ^ 57 ∧
    ((∃ g, WriteGranted s pid comp g ∧ g.phys.host = false ∧ p = g.phys.addr) ∨
      ((∀ g, ¬WriteGranted s pid comp g) ∧
        ∃ n e, Leaf s pid comp n e ∧ e.getLsbD 3 = true ∧ e.getLsbD 5 = false ∧ p = leafAddr e n comp))
/-- Nothing of device memory differs but the 64 bytes at `p`, which hold `v`. -/
def LineWritten (s t : State) (p v : Nat) : Prop :=
  ∀ z, peek t.gmem z = if p ≤ z ∧ z < p + 64 then BitVec.ofNat 8 (v / 256 ^ (z - p)) else peek s.gmem z
/-- The queue has a record at its head that is not yet checked, and the device runs. -/
def HeadWaits (s : State) (q : BitVec 10) : Prop :=
  s.phase = .running ∧ (queueAt s q).en = true ∧ (queueAt s q).head ≠ (queueAt s q).tail ∧ (queueAt s q).object = none
/-- The refusal of the record has not been found yet; the host link may hold a read of the object (R390). -/
def NotRefused (x : Queue) : Prop := ∀ n t, x.since ≠ some (some n, t)
/-- The host link has held the reads of the record's object for HLTO (R390). -/
def HeldForHlto (s : State) (x : Queue) : Prop :=
  s.hostLink = false ∧ ∃ t, x.since = some (none, t) ∧ s.host.hlto.toNat ≤ (s.time - t).toNat
/-- The launch of number `i`, the only one. -/
def LaunchIs (s : State) (i : Nat) (l : Launch) : Prop := launchAt s i = some l ∧ l.id = i
/-- The launch unit serves this head next (R343 to R345), without displacing a launch; its kernel's placement names each
core once, the record has no context area, and the new launch's number is a new one. -/
def Starts (s : State) (q : BitVec 10) (i : Nat) (o : List Byte) (cs : List (Coord × Nat)) : Prop :=
  serveNext s = some (.start q i []) ∧ (queueAt s q).object = some o ∧
    cs = placement o (kernRec o (lrKidx (headRcd s (queueAt s q)))) i ∧ (cs.map (·.1)).Nodup ∧ lrCtx (headRcd s (queueAt s q)) = 0 ∧
    ∀ l ∈ s.launches, l.id ≠ s.nextId
/-- What launch start leaves on core `c` of role `r` (R346, R118, R90): the launch's reel in memory past the reserved regions,
a reset environment store, the region bases, four free tasks of the record's arguments, one for each slot (log 83, DEDUCED). The
model's choice, not the manual's: the four records stand in the first four places of 64 bytes of the home-queue region (log 10,
DESIGN CHOICE). -/
def CoreStarted (k : Core) (l : Launch) (c : Coord) (r : Nat) : Prop :=
  k.launch = some l.id ∧ k.role = r ∧ k.tqbase = 0 ∧ k.envbase = 0x10000 ∧ k.mbbase = 0x18000 ∧
    k.frbase.toNat = 0x19000 + 2 ^ 21 * l.kernel.frsize ∧ k.tvec = (reelFor l r).tvec &&& 0x1FFFFE ∧ k.acfg = 0 ∧ k.mb = [] ∧
    k.mbHeld = [] ∧ k.answers = [] ∧ k.flawed = [] ∧ k.engQ = [] ∧
    k.members = membersOf l c ∧ k.envAllot = l.kernel.envs ∧ k.accPresent = true ∧ k.poison = [] ∧
    (∀ p < 512, attrOf k p = launchAttr (reelFor l r) l.kernel.frsize p) ∧
    k.home.map (·.rcd) = List.replicate 4 (launchTask l.rcd) ∧ (∀ e ∈ k.home, e.taker = none) ∧
    k.home.map (·.slot) = [some 0, some 1, some 2, some 3] ∧ (∀ j < 4, leValue k.mem (64 * j) 64 = (launchTask l.rcd).toNat) ∧
    (∀ j < 256, leValue k.mem (0x10000 + 128 * j) 16 = 2 ^ 40) ∧
    ∀ z, 0x18000 ≤ z → peek k.mem z = (if (reelFor l r).base ≤ z then ((reelFor l r).image[z - (reelFor l r).base]?).getD 0 else 0)
end Sys2Proof.Claim

/-- R342, R340, R349, R372: the record at a queue's head that passes keeps its object; one that fails check n gets a completion
record of status 3 with n, the queue goes on, and a loader report is kept; where COMP itself is no line of global space, ERR is set.
A record whose object the host link holds waits (R390), and one whose object it has held for HLTO fails check 3 (the model's choice,
log 98, DESIGN CHOICE). -/
def Sys2Proof.Claim.LaunchRecordsChecked : Prop :=
  ∀ s q, HeadWaits s q →
    let x := queueAt s q
    let r := headRcd s x
    (∀ o, NotRefused x → recordVerdict s x r = .passed o → ∃ t, exec (.launchRecordCheck q) s = .next t ∧
      queueAt t q = { x with object := some o, since := none } ∧ t.gmem = s.gmem ∧ t.cores = s.cores) ∧
    (∀ n rep p, NotRefused x → recordVerdict s x r = .refused n rep → n < 8 → CompLine s x.pid (lrComp r) p →
      ∃ t, exec (.launchRecordCheck q) s = .next t ∧ queueAt t q = { x with head := x.head + 1, since := none } ∧
        LineWritten s t p (3 + 2 ^ 41 * n) ∧ t.cores = s.cores ∧ t.host.loader = (match rep with
          | some w => loaderReport q w
          | none => s.host.loader)) ∧
    (NotRefused x → recordVerdict s x r = .waits → ¬HeldForHlto s x → ∃ t, exec (.launchRecordCheck q) s = .next t ∧ t.gmem = s.gmem ∧
      t.cores = s.cores ∧ queueAt t q = { x with since := some (none, match x.since with
        | some (_, t) => t
        | none => s.time) }) ∧
    (∀ p, recordVerdict s x r = .waits → HeldForHlto s x → CompLine s x.pid (lrComp r) p → ∃ t, exec (.launchRecordCheck q) s = .next t ∧
      queueAt t q = { x with head := x.head + 1, since := none } ∧ LineWritten s t p (3 + 2 ^ 41 * 3) ∧ t.cores = s.cores) ∧
    (∀ n t0 p, x.since = some (some n, t0) → n < 8 → CompLine s x.pid (lrComp r) p → ∃ t, exec (.launchRecordCheck q) s = .next t ∧
      queueAt t q = { x with head := x.head + 1, since := none } ∧ LineWritten s t p (3 + 2 ^ 41 * n) ∧ t.cores = s.cores ∧
      t.host.loader = s.host.loader) ∧
    (r.toNat / 2 ^ 64 % 2 ^ 16 ≠ 0 ∨ r.toNat / 2 ^ 97 % 2 ^ 31 ≠ 0 → recordVerdict s x r = .refused 1 none) ∧
    (r.toNat / 2 ^ 64 % 2 ^ 16 = 0 → r.toNat / 2 ^ 97 % 2 ^ 31 = 0 → r.toNat % 2 ^ 12 ≠ 0 ∨ r.toNat / 2 ^ 384 % 2 ^ 6 ≠ 0 ∨
        r.toNat % 2 ^ 64 < 2 ^ 32 ∨ 2 ^ 57 ≤ r.toNat % 2 ^ 64 ∨ r.toNat / 2 ^ 384 % 2 ^ 64 < 2 ^ 32 ∨ 2 ^ 57 ≤ r.toNat / 2 ^ 384 % 2 ^ 64 →
      recordVerdict s x r = .refused 2 none) ∧
    (∀ n, NotRefused x → recordVerdict s x r = .refused n none → n < 8 → lrComp r % 64 ≠ 0 ∨ lrComp r < 2 ^ 32 ∨ 2 ^ 57 ≤ lrComp r →
      ∃ t, exec (.launchRecordCheck q) s = .next t ∧ queueAt t q = { x with head := x.head + 1, err := true, since := none } ∧ t.gmem = s.gmem)

/-- R346, R366, R118: the launch that is served next starts: with no relay every core is prepared at once; with relays the
cores they feed wait, a core that holds its reel forwards it, and the last forward starts the launch. A launch whose context areas
the host link held starts once they are written (R390). The places of the four task records in CoreStarted are the model's choice
(log 10, DESIGN CHOICE), and so is that each is for one slot (log 83, DEDUCED). -/
def Sys2Proof.Claim.LaunchesStart : Prop :=
  (∀ s q i o cs, Starts s q i o cs →
    (relaysOf o cs = [] → ∃ t l, exec (.launchStart q) s = .next t ∧ LaunchIs t s.nextId l ∧ l.phase = .running ∧ l.cores = cs ∧
      l.queue = q ∧ l.pid = (queueAt s q).pid ∧ l.rcd = headRcd s (queueAt s q) ∧ l.started = s.time ∧
      (queueAt t q).head = (queueAt s q).head + 1 ∧ (queueAt t q).object = none ∧
      ∀ e ∈ cs, CoreStarted (coreAt t e.1) l e.1 e.2) ∧
    (relaysOf o cs ≠ [] → ∃ t l, exec (.launchStart q) s = .next t ∧ LaunchIs t s.nextId l ∧
      l.phase = .loading ∧ l.relays = relaysOf o cs ∧ l.cores = cs ∧
      ∀ e ∈ cs, (∀ p ∈ l.relays, p.2 ≠ e.1) → ∀ z, peek (coreAt t e.1).mem z =
        (if (reelFor l e.2).base ≤ z then ((reelFor l e.2).image[z - (reelFor l e.2).base]?).getD 0 else 0))) ∧
  (∀ s i l src dst r, LaunchIs s i l → l.phase = .loading → (src, dst) ∈ l.relays → (∀ p ∈ l.relays, p.2 ≠ src) →
    l.cores.find? (fun e => e.1 == dst) = some (dst, r) → lrCtx l.rcd = 0 →
    ((∃ p ∈ l.relays, p ≠ (src, dst)) → ∃ t l', exec (.reelForward i src dst) s = .next t ∧ LaunchIs t i l' ∧ l'.phase = .loading ∧
      l'.relays = l.relays.filter (fun p => p != (src, dst)) ∧
      ∀ z, peek (coreAt t dst).mem z = (if (reelFor l r).base ≤ z ∧ z < (reelFor l r).base + (reelFor l r).image.length then
        ((reelFor l r).image[z - (reelFor l r).base]?).getD 0 else peek (coreAt s dst).mem z)) ∧
    ((∀ p ∈ l.relays, p = (src, dst)) → ∃ t l', exec (.reelForward i src dst) s = .next t ∧ LaunchIs t i l' ∧ l'.phase = .running ∧
      l'.relays = [])) ∧
  (∀ s q i l u ok, startWaits s q = some l → LaunchIs s i l → writeParts s l.pid (zeroAreas l) = some (u, ok) →
    ∃ t l', exec (.launchStart q) s = .next t ∧ LaunchIs t i l' ∧ l'.phase = (if ok then .running else .stopping) ∧
      l'.contextLost = !ok ∧ l'.started = s.time ∧ t.gmem = u.gmem ∧ ∀ e ∈ l.cores, (coreAt t e.1).accPresent = true) ∧
  (∀ s q i l, startWaits s q = some l → LaunchIs s i l → writeParts s l.pid (zeroAreas l) = none → launchOverdue s i = false →
    ∃ t l', exec (.launchStart q) s = .next t ∧ LaunchIs t i l' ∧ l'.phase = .loading ∧ t.gmem = s.gmem ∧ t.cores = s.cores)

/-- R348, R349, R390: a launch that is over gets its completion record, its status from the abort or the first fault, and its cores
are free. A record whose write the host link holds is kept as the launch completed, with its END, and is what is written later. -/
def Sys2Proof.Claim.LaunchesComplete : Prop :=
  (∀ s i l p r, LaunchIs s i l → l.record = some r ∨ (l.record = none ∧ launchOver s l = true ∧ r = launchRecord s l) →
    CompLine s l.pid (lrComp l.rcd) p →
    ∃ t l', exec (.launchComplete i) s = .next t ∧ LaunchIs t i l' ∧ l'.phase = .ended ∧ l'.saved = [] ∧ LineWritten s t p r.toNat ∧
      (l.phase = .running → ∀ e ∈ l.cores, (coreAt t e.1).launch = none) ∧ ∀ r ∈ t.releases, r.launch ≠ i) ∧
  (∀ s l, (launchRecord s l).toNat % 2 ^ 4 = (if l.contextLost then 5 else if l.aborted then 2 else if l.failed.isSome then 1 else 0) ∧
    (launchRecord s l).toNat / 2 ^ 128 % 2 ^ 64 = l.started.toNat ∧ (launchRecord s l).toNat / 2 ^ 192 % 2 ^ 64 = s.time.toNat) ∧
  (∀ s i l, LaunchIs s i l → l.record = none → launchOver s l = true →
    writeCompletion s l.queue l.pid (lrComp l.rcd) (launchRecord s l) = none → launchOverdue s i = false →
    ∃ t l', exec (.launchComplete i) s = .next t ∧ LaunchIs t i l' ∧ l'.record = some (launchRecord s l) ∧ l'.phase = l.phase ∧
      t.gmem = s.gmem ∧ t.cores = s.cores) ∧
  (∀ s i l, LaunchIs s i l → l.record = none → launchOver s l = false → exec (.launchComplete i) s = .next s)

/-- R281 to R283, R345, R259: a launch that the next candidate displaces stops and counts a pre-emption, is saved once it has
drained, its pages read (R218) and its state area written (free bytes, log 66), and resumes on the same cores with the state that was
saved, memory as its area holds it with the pages of P = 0 zero, and no poison kept of those; an accumulator is loaded from its area when an instruction of page
0x14 or a queued operation wants it, and not before. The model's choice, not the manual's: the memory of a core that a saved launch
has left lists nothing (log 89, DESIGN CHOICE). -/
def Sys2Proof.Claim.PreemptionAndResume : Prop :=
  (∀ s i l q n vs, LaunchIs s i l → l.phase = .running → serveNext s = some (.start q n vs) → i ∈ vs → l.aborted = false →
    l.contextLost = false → ∃ t l', exec (.preempt i) s = .next t ∧ LaunchIs t i l' ∧ l'.phase = .stopping ∧ l'.preempts = l.preempts + 1 ∧
      l'.cores = l.cores ∧ ∀ r ∈ t.releases, r.launch ≠ i) ∧
  (∀ s i l r u, LaunchIs s i l → l.phase = .stopping → l.aborted = false → l.contextLost = false → launchDrained s l = true →
    atBoundaries (stopCores s l) l = true → launchDrained (stopCores s l) l = true →
    r = l.cores.foldl (fun s e => mapCore s e.1 readSaved) (stopCores s l) →
    writeParts { r with freeCtr := r.freeCtr + 8192 * l.cores.length } l.pid (l.cores.zipIdx.flatMap fun e =>
      saveParts (ctxArea l e.1.1) (r.freeCtr + 8192 * e.2) (coreAt r e.1.1)) = some (u, true) →
    ∃ t l', exec (.preempt i) s = .next t ∧ LaunchIs t i l' ∧ l'.phase = .preempted ∧
      l'.saved = (l.cores.map fun e => (e.1.toNat, savedCore (coreAt r e.1))) ∧ t.gmem = u.gmem ∧
      ∀ e ∈ l.cores, (coreAt r e.1).launch = some i → (coreAt t e.1).launch = none ∧ (coreAt t e.1).mem = []) ∧
  (∀ k w, w ∈ (savedCore k).poison ↔ w ∈ k.poison ∧ (attrOf k (8 * w / 4096)).getLsbD 5 = true) ∧
  (∀ s i l u, LaunchIs s i l → serveNext s = some (.resume i) → restoreAll s l l.saved s = some (some u) →
    ∃ t l', exec (.resume i) s = .next t ∧ LaunchIs t i l' ∧ l'.phase = .running ∧ l'.saved = [] ∧
      ((l.saved.map (·.1)).Nodup → ∀ c k, (c, k) ∈ l.saved → (∀ e ∈ l.saved, e.1 < 2 ^ 13) → let d : Coord := BitVec.ofNat 13 c
        (coreAt t d).launch = some i ∧ (coreAt t d).threads = k.threads ∧ (coreAt t d).slots = k.slots ∧ (coreAt t d).home = k.home ∧
        (coreAt t d).power = (coreAt s d).power ∧ (coreAt t d).clkdiv = (coreAt s d).clkdiv ∧ (coreAt t d).poison = k.poison ∧
        ∀ p < 512, ((attrOf k p).getLsbD 5 = false → ∀ o < 4096, peek (coreAt t d).mem (4096 * p + o) = 0) ∧
          ∀ bs, (attrOf k p).getLsbD 5 = true → readParts s l.pid [(ctxArea l d + 4096 * p, 4096)] = some (some bs) → bs.length = 4096 →
            ∀ o < 4096, peek (coreAt t d).mem (4096 * p + o) = bs.getD o 0)) ∧
  (∀ s i l, LaunchIs s i l → serveNext s = some (.resume i) → restoreAll s l l.saved s = some none →
    ∃ t l', exec (.resume i) s = .next t ∧ LaunchIs t i l' ∧ l'.contextLost = true ∧ t.cores = s.cores) ∧
  (∀ s c l, launchOf s c = some l → (coreAt s c).accPresent = false → accWanted (coreAt s c) = false →
    exec (.accumulatorRestore c) s = .next s) ∧
  (∀ s c l bs, launchOf s c = some l → (coreAt s c).accPresent = false → accWanted (coreAt s c) = true →
    readParts s l.pid (pageParts (ctxArea l c + 0x210000) 0x12000) = some (some bs) → bs.length = 0x12000 →
    ∃ t, exec (.accumulatorRestore c) s = .next t ∧ (coreAt t c).accPresent = true ∧ (coreAt t c).pDirty = false ∧
      (coreAt t c).mem = (coreAt s c).mem ∧ ∀ j < 6144,
        (mapGet 0 (coreAt t c).pAcc j).toNat = leNat ((bs.drop (4 * j)).take 4) ∧
        (mapGet 0 (coreAt t c).wAcc j).toNat = leNat ((bs.drop (0x6000 + 4 * j)).take 4) ∧
        (mapGet 0 (coreAt t c).vAcc j).toNat = leNat ((bs.drop (0xC000 + 4 * j)).take 4))

/-- R352 to R354, R73: a release is due once every slot with a free task has arrived and nothing else is left in the scope;
its columns go one by one, each when its time has come and the current allows, completing the SSTEPs of its cores. -/
def Sys2Proof.Claim.ReleasesGo : Prop :=
  (∀ s i die l, LaunchIs s i l → l.phase = .running → l.aborted = false → releaseAt s i (scopeOf l die) = none →
    (∀ c ∈ scopeCores l (scopeOf l die), coreArrived s c = true) →
    (∃ c ∈ scopeCores l (scopeOf l die), ∃ q k, (slotAt (coreAt s c) q).task = some k ∧ rcdValid k.rcd = false) →
    ∃ t r, exec (.superstepRelease i die) s = .next t ∧ t.releases = s.releases ++ [r] ∧ r.launch = i ∧ r.die = scopeOf l die ∧
      t.cores = s.cores ∧ ∀ k, k ∈ r.columns ↔ ∃ c ∈ scopeCores l (scopeOf l die), 16 * (dieOf c % 4) + colOf c = k) ∧
  (∀ s i die l r col rest, LaunchIs s i l → releaseAt s i (scopeOf l die) = some r → r.columns = col :: rest → r.next ≤ s.time.toNat →
    let cs := (scopeCores l (scopeOf l die)).filter fun c => 16 * (dieOf c % 4) + colOf c == col
    cs.Nodup → 1000 * s.currentEst.toNat + cs.length * s.host.stepi.toNat ≤ 1000 * s.host.ceil.toNat →
    ∃ t, exec (.clapperColumnRelease i die) s = .next t ∧
      (∀ c ∈ cs, (coreAt t c).maxRetired = 0 ∧ (coreAt t c).mem = (coreAt s c).mem ∧ ∀ q, slotAt (coreAt t c) q =
        if (slotAt (coreAt s c) q).arrived = true then { slotAt (coreAt s c) q with arrived := false, released := true }
        else slotAt (coreAt s c) q) ∧
      (∀ c, c ∉ cs → coreAt t c = coreAt s c)) ∧
  (∀ s i die l r, LaunchIs s i l → releaseAt s i (scopeOf l die) = some r → s.time.toNat < r.next → exec (.clapperColumnRelease i die) s = .next s)

/-- R353, R344, R323, R321: the Clapper's estimate and the heat map are refreshed from the meters at their times; a stretched
cycle is counted; an idle core that was told to goes into drowsy retention, its memory kept, but not while a body elsewhere runs a
record of its home (the model's choice, log 99, DESIGN CHOICE). -/
def Sys2Proof.Claim.PowerEvents : Prop :=
  (∀ s, s.time.toNat % 1000 = 0 → ∃ t, exec .clapperEstimateRefresh s = .next t ∧ t.currentEst = Config.meter s.freeCtr ∧ t.cores = s.cores) ∧
  (∀ s, s.time.toNat % 10000 = 0 → ∃ t, exec .heatMapRefresh s = .next t ∧ t.cores = s.cores ∧ ∀ j < 256,
    (mapGet 0 t.heat j).toNat = min 255 ((Config.meter (s.freeCtr + j)).toNat / 8)) ∧
  (∀ s d, ∃ t, exec (.clockStretch d) s = .next t ∧ (dieAt t d).stretch = (dieAt s d).stretch + 1 ∧ t.cores = s.cores) ∧
  (∀ s c, let k := coreAt s c
    k.drowsyAsked = true → k.power = .on → k.bankQ = [] → k.engQ = [] → k.score = [] → (∀ q, (chanAt k q).queue = [] ∧ (chanAt k q).held = none) →
    (∀ n, (ibexAt k n).task = none ∧ (ibexAt k n).starting = none) → (∀ u, (threadAt k u).gld = [] ∧ (threadAt k u).sbuf = []) →
    k.held = [] → (∀ e ∈ k.home, e.taker = none) → (∀ q (p : Fin 4), (slotAt k q).ports[p].send = []) →
    (∀ q, (slotAt k q).st = .idle ∧ (slotAt k q).task = none ∧ (slotAt k q).starting = none ∧ (slotAt k q).posted = []) →
    (∀ m ∈ s.net, m.src = c → quietMsg m = true) → ∃ t, exec (.drowsyEntry c) s = .next t ∧ coreAt t c = { k with power := .drowsy }) ∧
  (∀ s c, (∃ e ∈ (coreAt s c).home, e.taker ≠ none) → exec (.drowsyEntry c) s = .next s)

namespace Sys2Proof.Claim
/-- The host reaches the device (R390, R392). -/
def Reached0 (s : State) : Prop := s.phase = .running ∧ s.hostLink = true
/-- Only BAR0's registers may differ. -/
def OnlyHost (s t : State) : Prop := { t with host := s.host } = s
/-- A device command word: the operation, and its other bits 0 (R381). -/
def Command (v : Word) (op : Nat) : Prop :=
  v.toNat / 2 ^ 60 = op ∧ v.toNat / 2 ^ 32 % 2 ^ 28 = 0 ∧ v.getLsbD 15 = false
end Sys2Proof.Claim

/-- R338 to R340: a whole 64-byte submission goes to the ring slot of TAIL, which advances; any other, or one to a full or
disabled queue, sets OVF. An entry's fields change only while it is disabled, a new ring starts empty, and the checks of its head
start anew. -/
def Sys2Proof.Claim.WorkQueueWrites : Prop :=
  (∀ s q off bs, Reached0 s → let x := queueAt s q
    (off = 0 ∧ bs.length = 64 ∧ x.en = true ∧ (x.tail - x.head).toNat < 2 ^ x.log2.toNat → ∃ t, exec (.submit q off bs) s = .next t ∧
      queueAt t q = { x with tail := x.tail + 1 } ∧
      LineWritten s t (x.base.toNat * 4096 + 64 * (x.tail.toNat % 2 ^ x.log2.toNat)) (leNat bs) ∧ t.cores = s.cores) ∧
    (¬(off = 0 ∧ bs.length = 64 ∧ x.en = true ∧ (x.tail - x.head).toNat < 2 ^ x.log2.toNat) → ∃ t, exec (.submit q off bs) s = .next t ∧
      queueAt t q = { x with ovf := true } ∧ t.gmem = s.gmem ∧ t.cores = s.cores)) ∧
  (∀ s q v, Reached0 s → let x := queueAt s q
    exec (.queueConfigWrite q true v) s = .next s ∧ ∃ t, exec (.queueConfigWrite q false v) s = .next t ∧ t.cores = s.cores ∧
      let y := queueAt t q
      (y.tail = x.tail ∧ y.ovf = (x.ovf && !v.getLsbD 1) ∧ y.err = (x.err && !v.getLsbD 2)) ∧
      (x.en = true → y.base = x.base ∧ y.pid = x.pid ∧ y.prio = x.prio ∧ y.log2 = x.log2 ∧ y.prof = x.prof ∧ y.head = x.head ∧
        y.en = v.getLsbD 0) ∧
      (x.en = false → y.base.toNat = v.toNat / 2 ^ 35 ∧ y.pid.toNat = v.toNat / 2 ^ 15 % 2 ^ 20 ∧ y.prio.toNat = v.toNat / 2 ^ 12 % 2 ^ 3 ∧
        y.log2.toNat = v.toNat / 2 ^ 8 % 2 ^ 4 ∧ y.prof.toNat = v.toNat / 2 ^ 4 % 2 ^ 4 ∧
        (y.en = true ↔ v.getLsbD 0 = true ∧ 1 ≤ y.log2.toNat ∧ y.log2.toNat ≤ 12) ∧
        (y.head = if y.base ≠ x.base ∨ y.log2 ≠ x.log2 then x.tail else x.head) ∧ y.object = none ∧ y.since = none))

/-- R380, R387: a register of BAR0 takes its writable bits, and no other register changes; a key slot takes its bytes 0 to 56 and bit
0 of byte 63; an access that is no aligned 8-byte access is ignored on write and reads 0; a word of a connection entry takes its own,
OPEN only while the port it names is trained. The model's choice, not the manual's: CEIL takes every value, those above R353's
9000 A too (log 86, DESIGN CHOICE). -/
def Sys2Proof.Claim.RegisterWrites : Prop :=
  (∀ s off size v, off % 8 ≠ 0 ∨ size ≠ 8 → Reached0 s →
    exec (.hostRegisterWrite ⟨off, size⟩ v) s = .next s ∧ barRead s ⟨off, size⟩ = 0) ∧
  (∀ s off v, Reached0 s → ∃ t, exec (.hostRegisterWrite ⟨off, 8⟩ v) s = .next t ∧ OnlyHost s t ∧
    (off = 0x10 → t.host = { s.host with inspsel := v &&& 0xF0001FFF00000007 }) ∧ (off = 0x18 → t.host = { s.host with hlto := v }) ∧
    (off = 0x1000 → t.host = { s.host with pidDir := v &&& 0x1FFFFFFF000 }) ∧
    (off = 0x1008 → t.host = { s.host with shootTarget := v &&& 0x1FFFFF }) ∧
    (off = 0x1010 → t.host = { s.host with shootBase := v &&& 0x1FFFFFFFFFFF000 }) ∧
    (off = 0x2000 → t.host = { s.host with ceil := v }) ∧ (off = 0x2008 → t.host = { s.host with slope := v }) ∧
    (off = 0x2010 → t.host = { s.host with stepi := v }) ∧
    (off % 8 = 0 → 0x100 ≤ off → off < 0x300 → off % 64 < 56 → ∀ j < 512, peek t.host.keys j =
      if off - 0x100 ≤ j ∧ j < off - 0x100 + 8 then BitVec.ofNat 8 (v.toNat / 256 ^ (j - (off - 0x100))) else peek s.host.keys j) ∧
    (off % 64 = 56 → 0x100 ≤ off → off < 0x300 → ∀ j < 512, peek t.host.keys j =
      if j = off - 0x100 then BitVec.ofNat 8 v.toNat
      else if j = off - 0x100 + 7 then BitVec.ofNat 8 (v.toNat / 2 ^ 56 % 2)
      else if off - 0x100 < j ∧ j < off - 0x100 + 7 then 0 else peek s.host.keys j)) ∧
  (∀ s n (w : Fin 4) v, Reached0 s → ∃ t, exec (.connectionWrite n w v) s = .next t ∧ t.cores = s.cores ∧ t.gmem = s.gmem ∧
    let x := connAt s n.toNat
    let y := connAt t n.toNat
    (w = 0 → y.notify = x.notify ∧ y.peer = x.peer ∧ y.ring = x.ring ∧
      y.ctl = (if s.linkUp.getLsbD (v.toNat / 2 ^ 5 % 2 ^ 4) then v &&& 0xFFFFFFFF000001F1 else v &&& 0xFFFFFFFF000001F0)) ∧
    (w = 1 → y = { x with notify := v &&& 0x1FFF }) ∧ (w = 2 → y = { x with peer := v }) ∧ (w = 3 → y = { x with ring := v }) ∧
    ∀ m, m ≠ n.toNat → connAt t m = connAt s m)

/-- R381: a device command that names what it needs is done and leaves CMDERR 0: HALT stops the slot, RESUME restarts a Halted one at
its EPCs, END TASK retires its task and fails the launch, APPLY PROFILE sets row voltage and divider, drowsy retention, or off, which
loses the core's memory and registers and is refused while a launch places the core; ABORT marks the queue's oldest launch. Otherwise
CMDERR says why, and nothing else changes; a divider that the row voltage does not support leaves CMDERR 3 and the core as it was,
and the row voltage is set all the same (the model's choice, log 8, DESIGN CHOICE). What a core holds while off, and after it, its
memory listing nothing, its threads and slots and the rest as at reset, and the bit of a drowsy request as the column last left it, is
the model's choice too (log 68, DEDUCED; logs 5 and 6, DESIGN CHOICE). So is that a HALT waits while an
instruction of the slot is under way at another core (log 101, DEDUCED), and that operation 5 ignores the coordinate (log 105,
DESIGN CHOICE). -/
def Sys2Proof.Claim.DeviceCommands : Prop :=
  ∀ s v, Reached0 s → s.host.cmdbusy = false →
    let c : Coord := BitVec.ofNat 13 v.toNat
    let q : Fin 4 := Fin.ofNat 4 (v.toNat / 2 ^ 13)
    let x := slotAt (coreAt s c) q
    let err := fun n : Nat => { s with host := { s.host with cmderr := BitVec.ofNat 8 n } }
    (Command v 1 → isCore c = true → slotBegun (coreAt s c) q = true → exec (.devcmdHalt v) s = .next s) ∧
    (Command v 1 → isCore c = true → slotBegun (coreAt s c) q = false → x.st = .running ∨ x.st = .trapped → ∃ t, exec (.devcmdHalt v) s = .next t ∧ t.host.cmderr = 0 ∧
      (slotAt (coreAt t c) q).st = .halted ∧ ∀ z : Side, (threadAt (coreAt t c) (.stream q z)).running = false) ∧
    (Command v 1 → isCore c = true → slotBegun (coreAt s c) q = false → x.st = .idle ∨ x.st = .halted → exec (.devcmdHalt v) s = .next (err 2)) ∧
    (Command v 2 → isCore c = true → x.st = .halted → x.task ≠ none → ∃ t, exec (.devcmdResume v) s = .next t ∧ t.host.cmderr = 0 ∧
      (slotAt (coreAt t c) q).st = (if x.status.getLsbD 2 then .trapped else .running) ∧
      (threadAt (coreAt t c) (.stream q .exec)).running = true ∧
      (threadAt (coreAt t c) (.stream q .exec)).pc = (threadAt (coreAt s c) (.stream q .exec)).epc) ∧
    (Command v 2 → isCore c = true → x.st ≠ .halted → exec (.devcmdResume v) s = .next (err 2)) ∧
    (∀ k, Command v 3 → isCore c = true → x.task = some k → ∃ t, exec (.devcmdEndTask v) s = .next t ∧ t.host.cmderr = 0 ∧
      (slotAt (coreAt t c) q).st = .idle ∧ (slotAt (coreAt t c) q).task = none ∧
      (coreAt t k.home).home.map (·.seq) = dropFirst (fun n => n == k.entry) ((coreAt s k.home).home.map (·.seq))) ∧
    (Command v 3 → isCore c = true → x.task = none → exec (.devcmdEndTask v) s = .next (err 2)) ∧
    (Command v 4 → isCore c = true → v.toNat / 2 ^ 16 % 2 ^ 16 < 16 →
      let p : BitVec 4 := BitVec.ofNat 4 (v.toNat / 2 ^ 16)
      (profileOk s p = false → exec (.devcmdApplyProfile v) s = .next (err 3)) ∧
      (profileOk s p = true → let b := profileByte s p (256 + c.toNat)
        ∃ t, exec (.devcmdApplyProfile v) s = .next t ∧
        (mapGet 0 (dieAt t (dieOf c)).voltage (rowOf c)).toNat = profileByte s p (c.toNat / 16) ∧
        (b < 6 → (coreAt t c).mem = (coreAt s c).mem) ∧
        (b ≤ 4 → Config.dividerOk (BitVec.ofNat 8 (profileByte s p (c.toNat / 16))) (BitVec.ofNat 3 b) = true →
          (coreAt t c).clkdiv.toNat = b ∧ (coreAt t c).power = .on ∧ t.host.cmderr = 0) ∧
        (b ≤ 4 → Config.dividerOk (BitVec.ofNat 8 (profileByte s p (c.toNat / 16))) (BitVec.ofNat 3 b) = false →
          coreAt t c = coreAt s c ∧ t.host.cmderr = 3) ∧
        (b = 5 → (coreAt t c).drowsyAsked = true ∧ t.host.cmderr = 0) ∧
        (b = 6 → (∀ l ∈ s.launches, l.phase = .ended ∨ ∀ e ∈ l.cores, e.1 ≠ c) → (coreAt t c).power = .off ∧ t.host.cmderr = 0 ∧
          (coreAt t c).mem = [] ∧ (coreAt t c).threads = Core.reset.threads ∧ (coreAt t c).slots = Core.reset.slots) ∧
        (b = 6 → (∃ l ∈ s.launches, l.phase ≠ .ended ∧ ∃ e ∈ l.cores, e.1 = c) → coreAt t c = coreAt s c ∧ t.host.cmderr = 3))) ∧
    (∀ l, Command v 5 → v.toNat / 2 ^ 16 % 2 ^ 16 < 1024 →
      s.launches.find? (fun l => l.queue.toNat == v.toNat / 2 ^ 16 % 2 ^ 16 && l.phase != .ended && !l.aborted && l.record.isNone) = some l →
      LaunchIs s l.id l → ∃ t l', exec (.devcmdAbortLaunch v) s = .next t ∧ t.host.cmderr = 0 ∧ LaunchIs t l.id l' ∧ l'.aborted = true) ∧
    (Command v 5 → (∀ l ∈ s.launches, l.queue.toNat = v.toNat / 2 ^ 16 % 2 ^ 16 → l.phase = .ended ∨ l.aborted = true ∨ l.record ≠ none) →
      v.toNat / 2 ^ 16 % 2 ^ 16 < 1024 → exec (.devcmdAbortLaunch v) s = .next (err 4))

/-- R359, R390, R392, R391: the host writes and reads device memory where its caches see it; the links go down and come up; the
boot ROM starts only an image with a valid Ed448 signature; power down loses all, power up resets; an attestation signs the measurements
with the key of this power-up. The model's choices, not the manual's: that measurement 2 is the straps and then the trim, both of any
length (log 9, PRESUMED), that the signed bytes are the
measurements and the nonce in this order (log 112, DESIGN CHOICE), and that after power is lost device memory and the cores' memories
list nothing and so read 0 (log 6, DESIGN CHOICE), with registers at their reset values (log 5, DESIGN CHOICE). -/
def Sys2Proof.Claim.HostEvents : Prop :=
  (∀ s a bs, Reached0 s → a + bs.length ≤ Config.deviceBytes → ∃ t, exec (.hostMemWrite a bs) s = .next t ∧ t.cores = s.cores ∧
    ∀ z, peek t.gmem z = if a ≤ z ∧ z < a + bs.length then BitVec.ofNat 8 (leNat bs / 256 ^ (z - a)) else peek s.gmem z) ∧
  (∀ s a n, Reached0 s → a + n ≤ Config.deviceBytes → (∀ w ∈ s.gpoison, 8 * w + 8 ≤ a ∨ a + n ≤ 8 * w) → ∃ t,
    exec (.hostMemRead a n) s = .next t ∧ t.hostOut = s.hostOut ++ [.hostRead a (peeks s.gmem a n)] ∧ t.gmem = s.gmem ∧ t.cores = s.cores) ∧
  (∀ s, exec .hostLinkDown s = .next { s with hostLink := false } ∧ exec .hostLinkTrained s = .next { s with hostLink := true }) ∧
  (∀ s (p : Fin 16) up, ∃ t, exec (.portLinkTrained p up) s = .next t ∧ { t with linkUp := s.linkUp } = s ∧
    ∀ j < 16, t.linkUp.getLsbD j = if j = p.val then up else s.linkUp.getLsbD j) ∧
  (∀ s nonce, s.phase = .running → ∃ t, exec (.attestation nonce) s = .next t ∧ t.cores = s.cores ∧
    let m1 := shake256 64 s.firmware
    let m2 := Config.straps ++ s.trim
    let m3 := peeks s.host.keys 0 512
    t.hostOut = s.hostOut ++ [.measurements m1 m2 m3 (Config.attestSign s.boot (m1 ++ m2 ++ m3 ++ nonce))]) ∧
  (∀ s image sig, s.phase = .poweredUp → ed448Verify Config.bootKey image sig = true → ∃ t,
    exec (.firmwareLoad image sig) s = .next t ∧ t.phase = .running ∧ t.firmware = image ∧ t.host.cores = 4096 ∧ t.cores = s.cores) ∧
  (∀ s image sig, s.phase ≠ .poweredUp ∨ ed448Verify Config.bootKey image sig = false → exec (.firmwareLoad image sig) s = .next s) ∧
  (∀ s, ∃ t, exec .powerDown s = .next t ∧ t.phase = .off ∧ t.gmem = [] ∧ t.cores = [] ∧ t.launches = [] ∧ t.hmem = s.hmem) ∧
  (∀ s, s.phase = .off → ∃ t, exec .powerUp s = .next t ∧ t.phase = .poweredUp ∧ t.cores = [] ∧ t.gmem = [] ∧ t.host = State.reset.host ∧
    t.hmem = s.hmem ∧ t.boot = s.boot + 1) ∧
  (∀ s, s.phase ≠ .off → exec .powerUp s = .next s)

/-- R388, R389: a send on an open connection whose port is trained is written to its next released ring slot with its length, and
the notified core's mailbox is told, and a send is held back while an earlier notice of its connection waits for room (R119); an RMA is performed under the connection's PID, or refused whole. Traffic that the host link holds back waits (R390). The model's
choices, not the manual's: slot i's data stand at RING + 4096 + i times the slot size (log 39, DEDUCED), an RMA of which any page is
refused is refused whole (log 71, DEDUCED), and inbound traffic that the link has held for HLTO is refused to the peer (log 98,
DESIGN CHOICE), and so is a send on a connection whose NOTIFY names no core (log 104, DESIGN CHOICE); of an address outside global
space the walk uses bits [56:12] (log 106, DESIGN CHOICE). The grants of a connection's held accesses are those of R334. -/
def Sys2Proof.Claim.InboundTraffic : Prop :=
  (∀ s n bs i d ws as u, let x := connAt s n.toNat
    connLive s x = true → s.cores.any (fun e => mbWaits e.2 (.notice n.toNat)) = false → nextSlot s x = some (some i) →
    bs.length ≤ connSlotBytes x → d = BitVec.ofNat 13 x.notify.toNat → isCore d = true →
    (coreAt s d).power = .on → (coreAt s d).mbHeld = [] → (coreAt s d).mb.length + 2 ≤ Config.mailboxWords →
    ws = cutBytes (x.ring.toNat + 4096 + i * connSlotBytes x) bs ++ [(x.ring.toNat + 8 * i, leBytes 8 bs.length)] →
    as = ringWords x ++ ws.map (·.1) → (∀ p ∈ ws, allTranslate s (connPid x) p.1 p.2.length .write = true) →
    writeParts s (connPid x) ws = some (u, true) →
    ∃ t, exec (.inboundSend n bs) s = .next t ∧ t.gmem = u.gmem ∧ t.hmem = u.hmem ∧
      (coreAt t d).mb = (coreAt s d).mb ++ [BitVec.ofNat 64 (n.toNat + 65536 * i), BitVec.ofNat 64 bs.length] ∧
      connAt t n.toNat = { connAt (inboundDone s n as) n.toNat with slot := (i + 1) % connSlots x }) ∧
  (∀ s n bs, connLive s (connAt s n.toNat) = true → s.cores.any (fun e => mbWaits e.2 (.notice n.toNat)) = true → exec (.inboundSend n bs) s = .next s) ∧
  (∀ s n bs, let x := connAt s n.toNat
    connLive s x = true → s.cores.any (fun e => mbWaits e.2 (.notice n.toNat)) = false →
    (nextSlot s x = some none → exec (.inboundSend n bs) s = .next (refusePeer (inboundDone s n (ringWords x)) n)) ∧
    (nextSlot s x = none → exec (.inboundSend n bs) s = .next (inboundHeld s n (ringWords x) (readGrants s n (ringWords x))))) ∧
  (∀ s n bs i, let x := connAt s n.toNat
    connLive s x = true → s.cores.any (fun e => mbWaits e.2 (.notice n.toNat)) = false → nextSlot s x = some (some i) →
    isCore (BitVec.ofNat 13 x.notify.toNat) = false ∨ connSlotBytes x < bs.length → ∃ as, exec (.inboundSend n bs) s = .next (refusePeer (inboundDone s n as) n)) ∧
  (∀ s n a bs, connLive s (connAt s n.toNat) = false → exec (.inboundSend n bs) s = .next s ∧
    ∀ w, exec (.inboundRma n a w bs) s = .next s) ∧
  (∀ s n a bs u as, let x := connAt s n.toNat
    connLive s x = true → as = (cutPages a.toNat bs.length).map (·.1) →
    (∀ p ∈ cutBytes a.toNat bs, allTranslate s (connPid x) p.1 p.2.length .write = true) →
    (writeParts s (connPid x) (cutBytes a.toNat bs) = some (u, true) → exec (.inboundRma n a true bs) s = .next (inboundDone u n as)) ∧
    (writeParts s (connPid x) (cutBytes a.toNat bs) = none →
      exec (.inboundRma n a true bs) s = .next (inboundHeld s n as (eachGrant s n .write as)))) ∧
  (∀ s n a bs l as, let x := connAt s n.toNat
    connLive s x = true → as = (cutPages a.toNat bs.length).map (·.1) →
    (readParts s (connPid x) (cutPages a.toNat bs.length) = some (some l) →
      exec (.inboundRma n a false bs) s = .next (inboundDone { s with hostOut := s.hostOut ++ [.rmaRead n l] } n as)) ∧
    (readParts s (connPid x) (cutPages a.toNat bs.length) = some none →
      exec (.inboundRma n a false bs) s = .next (refusePeer (inboundDone s n as) n)) ∧
    (readParts s (connPid x) (cutPages a.toNat bs.length) = none →
      exec (.inboundRma n a false bs) s = .next (inboundHeld s n as (readGrants s n as)))) ∧
  (∀ s n a bs, let x := connAt s n.toNat
    connLive s x = true → (∃ p ∈ cutBytes a.toNat bs, allTranslate s (connPid x) p.1 p.2.length .write = false) →
    exec (.inboundRma n a true bs) s = .next (refusePeer (inboundDone s n ((cutPages a.toNat bs.length).map (·.1))) n)) ∧
  (∀ s n as g, let x := connAt s n.toNat
    { refusePeer s n with hostOut := s.hostOut } = s ∧ (refusePeer s n).hostOut = s.hostOut ++ [.refusedToPeer n] ∧
    { inboundDone s n as with conns := s.conns, grants := s.grants } = s ∧
    (inboundDone s n as).grants = s.grants.filter (fun h => !(h.owner == .conn n.toNat && as.contains h.addr)) ∧
    connAt (inboundDone s n as) n.toNat =
      (if ∃ h ∈ s.grants, h.owner = .conn n.toNat ∧ h.addr ∉ as then x else { x with since := none }) ∧
    (holdOver s x.since = true → inboundHeld s n as g = refusePeer (inboundDone s n as) n) ∧
    (holdOver s x.since = false → { inboundHeld s n as g with conns := s.conns, grants := s.grants } = s ∧
      (∀ h ∈ s.grants, h ∈ (inboundHeld s n as g).grants) ∧
      connAt (inboundHeld s n as g) n.toNat = { x with since := some (x.since.getD s.time) }))


/-! ### The machine: operands, units, encodings, the step, reset (R31, R33 to R48, R107, R111, R113) -/

namespace Sys2Proof.Claim
/-- The words of lq up to its first reserved place (R127, R137). -/
def readyWords : List Place → List Word
  | .word w :: r => w :: readyWords r
  | _ => []
/-- The words that a special code pops, the next first (R40, R111). -/
def queueAt (s : State) (c : BitVec 5) : List Word :=
  if c = 2 then readyWords (slotOf s).lq else if c = 3 then (slotOf s).sq else if c = 4 then (slotOf s).bo
  else if c = 5 then (slotOf s).rt else if c = 6 then (here s).mb
  else if 8 ≤ c.toNat ∧ c.toNat ≤ 11 then (slotOf s).ports[Fin.ofNat 4 (c.toNat - 8)].recv else []
/-- A code that pops. -/
def popCodes : List (BitVec 5) := [2, 3, 4, 5, 6, 8, 9, 10, 11]
/-- What an operand leaves unchanged: registers, flags, local memory, every other core and thread. -/
def OperandKept (s t : State) : Prop :=
  StoreRegs s t ∧ MemKept s t ∧ OnlyHere s t ∧ OtherThreads s t ∧ pcOf t = pcOf s ∧ t.ir = s.ir
end Sys2Proof.Claim

/-- R40, R43, R111, R113, R127: what ReadG, WriteG and WriteResult do. g0 and a dead register read as 0, g0 discards a
write, a written register leaves the dead set, the destination of an outstanding global load stalls; l0 and l1 move with
each result; a special code pops one word and stalls where there is none, and one of the mailbox or a port also while a stalled
instruction of another stream, which has asked another core already, names it; a push appends and stalls where the queue is full, and while a store of the stream waits in its buffer (R263, log 4). -/
def Sys2Proof.Claim.OperandRules : Prop :=
  (∀ (n : BitVec 5) s, ¬(locked (threadOf s) n = true) →
    readG (.g n) s = .ok (if n = 0 ∨ (threadOf s).dead.getLsbD n.toNat = true then 0 else (threadOf s).g[n.toNat]'n.isLt, s)) ∧
  (∀ (n : BitVec 5) s v, ¬(locked (threadOf s) n = true) → ∃ t, writeG (.g n) v s = .ok ((), t) ∧
    (∀ m, regVal (threadOf t) m = if m = n ∧ n ≠ 0 then v else regVal (threadOf s) m) ∧ MemKept s t ∧ OnlyHere s t ∧ OtherThreads s t ∧
    (threadOf t).l0 = (threadOf s).l0 ∧ (threadOf t).l1 = (threadOf s).l1 ∧ pcOf t = pcOf s) ∧
  (∀ (n : BitVec 5) s v, locked (threadOf s) n = true →
    readG (.g n) s = .error (.stall false) ∧ writeG (.g n) v s = .error (.stall false)) ∧
  (∀ s, readG (.sp 0) s = .ok ((threadOf s).l0, s) ∧ readG (.sp 1) s = .ok ((threadOf s).l1, s)) ∧
  (∀ (j : Fin 8) s, readG (.sp (BitVec.ofNat 5 (16 + j))) s = .ok (((threadOf s).k[j]).setWidth 64, s)) ∧
  (∀ c s v r, c ∈ popCodes → queueAt s c = v :: r → isIbex s.cur.unit = false → (c.toNat < 6 ∨ claimed s c.toNat = false) → ∃ t, readG (.sp c) s = .ok (v, t) ∧ queueAt t c = r ∧
    (∀ d ∈ popCodes, d ≠ c → queueAt t d = queueAt s d) ∧ OperandKept s t) ∧
  (∀ c s, c ∈ popCodes → queueAt s c = [] → readG (.sp c) s = .error (.stall (decide (c = 5)))) ∧
  (∀ c s, c ∈ popCodes → 6 ≤ c.toNat → claimed s c.toNat = true → readG (.sp c) s = .error (.stall false)) ∧
  (∀ a s s1 v, writeG a v s = .ok ((), s1) → ∃ t, writeResult a v s = .ok ((), t) ∧ (threadOf t).l0 = v ∧ (threadOf t).l1 = (threadOf s).l0 ∧
    (∀ n, regVal (threadOf t) n = regVal (threadOf s1) n) ∧ slotOf t = slotOf s1 ∧ MemKept s1 t) ∧
  (∀ s v (c : BitVec 5), c.toNat ∈ [2, 3, 4, 5, 8, 9, 10, 11] → (threadOf s).sbuf ≠ [] → writeG (.sp c) v s = .error (.stall false)) ∧
  (∀ s v, isIbex s.cur.unit = false → (threadOf s).sbuf = [] →
    (((slotOf s).lq.length < 16 → ∃ t, writeG (.sp 2) v s = .ok ((), t) ∧ (slotOf t).lq = (slotOf s).lq ++ [.word v] ∧ OperandKept s t) ∧
     (16 ≤ (slotOf s).lq.length → writeG (.sp 2) v s = .error (.stall false))) ∧
    (((slotOf s).sq.length < 16 → ∃ t, writeG (.sp 3) v s = .ok ((), t) ∧ (slotOf t).sq = (slotOf s).sq ++ [v] ∧ OperandKept s t) ∧
     (16 ≤ (slotOf s).sq.length → writeG (.sp 3) v s = .error (.stall false))) ∧
    (((slotOf s).bo.length < 8 → ∃ t, writeG (.sp 4) v s = .ok ((), t) ∧ (slotOf t).bo = (slotOf s).bo ++ [v] ∧
        (slotOf t).boProd = some (unitSide s.cur.unit) ∧ OperandKept s t) ∧
     (8 ≤ (slotOf s).bo.length → writeG (.sp 4) v s = .error (.stall false))) ∧
    (((slotOf s).rt.length < 8 → ∃ t, writeG (.sp 5) v s = .ok ((), t) ∧ (slotOf t).rt = (slotOf s).rt ++ [v] ∧ OperandKept s t) ∧
     (8 ≤ (slotOf s).rt.length → writeG (.sp 5) v s = .error (.stall false))))

/-- R40, R86, R305, R306: a word written to a port goes to the end of its send buffer, with the stream that wrote it; an unbound port
raises 0x0A2 subcode 3; a full send buffer stalls, and so does a port that a stalled instruction of another stream names; a speculative far body holds the word in its outgoing buffer. -/
def Sys2Proof.Claim.PortWrites : Prop :=
  ∀ (p : Fin 4) s v, isIbex s.cur.unit = false → (threadOf s).sbuf = [] →
    ((slotOf s).ports[p].cfg.getLsbD 31 = false →
      writeG (.sp (BitVec.ofNat 5 (8 + p))) v s = .error (.trap (why 0x0A2 3) 0 none)) ∧
    ((slotOf s).ports[p].cfg.getLsbD 31 = true →
      (isSpec s = false → (slotOf s).ports[p].send.length < 8 → claimed s (8 + p.val) = false → ∃ t, writeG (.sp (BitVec.ofNat 5 (8 + p))) v s = .ok ((), t) ∧
        (slotOf t).ports[p].send = (slotOf s).ports[p].send ++ [(unitSide s.cur.unit, s.nextId, v)] ∧
        (slotOf t).ports[p].recv = (slotOf s).ports[p].recv ∧ OperandKept s t) ∧
      (isSpec s = false → 8 ≤ (slotOf s).ports[p].send.length ∨ claimed s (8 + p.val) = true → writeG (.sp (BitVec.ofNat 5 (8 + p))) v s = .error (.stall false)) ∧
      (∀ k, isSpec s = true → (slotOf s).task = some k →
        (k.obuf.length < 16 → ∃ t, writeG (.sp (BitVec.ofNat 5 (8 + p))) v s = .ok ((), t) ∧ OperandKept s t ∧
          (slotOf t).task = some { k with obuf := k.obuf ++ [.port (unitSide s.cur.unit) p v] } ∧ (slotOf t).ports = (slotOf s).ports) ∧
        (16 ≤ k.obuf.length → writeG (.sp (BitVec.ofNat 5 (8 + p))) v s = .error (.stall false))))

namespace Sys2Proof.Claim
/-- The units of R44 and R45: E, A, N; `vec` marks a vector, matrix or bank instruction. -/
def unitsOf : Instr → Option Units
  | .add .. | .sub .. | .and .. | .or .. | .xor .. | .sll .. | .srl .. | .sra .. | .addi .. | .li .. | .adh .. | .ldB ..
  | .ldH .. | .ldW .. | .ldD .. | .stB .. | .stH .. | .stW .. | .stD .. | .brEq .. | .brNe .. | .brLt .. | .brGe .. | .brLtu ..
  | .brGeu .. | .j .. | .padJ .. | .padC .. | .padK .. | .padN .. | .padF .. | .padT .. | .wait .. | .mul .. | .mulh ..
  | .mulhu .. | .mulhsu .. | .div .. | .divu .. | .rem .. | .remu .. | .slt .. | .sltu .. | .min .. | .max .. | .minu ..
  | .maxu .. | .andn .. | .orn .. | .clz .. | .ctz .. | .popc .. | .rev8 .. | .sextB .. | .sextH .. | .sextW .. | .zextW ..
  | .rol .. | .ror .. | .andi .. | .ori .. | .xori .. | .slli .. | .srli .. | .srai .. | .slti .. | .sltiu .. | .muli ..
  | .rori .. | .lduB .. | .lduH .. | .lduW .. => some uEAN
  | .adpc .. | .brPop .. | .call .. | .jr .. | .callr .. | .ret .. | .apply .. | .amoaddW .. | .amoaddD .. | .amoswapW ..
  | .amoswapD .. | .amoandD .. | .amoorD .. | .amomaxD .. | .amominD .. | .amocasD .. | .fadd .. | .fsub .. | .fmul ..
  | .fdiv .. | .fsqrt .. | .fmin .. | .fmax .. | .ffma .. | .fneg .. | .fabs .. | .feq .. | .flt .. | .fle .. | .fclass ..
  | .fcvtWS .. | .fcvtLS .. | .fcvtSW .. | .fcvtSL .. | .fcvtWuS .. | .fcvtSWu .. | .fcvtBfS .. | .fcvtSBf .. | .fcvtHS ..
  | .fcvtSH .. | .movq .. | .qlevel .. | .pcfg .. | .msgPut .. | .msgGet .. | .msgAmo .. | .msgSig .. | .task .. | .tqcfg ..
  | .tqdepth .. | .capt .. | .captRef .. | .kdup .. | .kdrop .. | .kld .. | .kst .. | .frame .. | .unframe .. | .cpy ..
  | .cpg .. | .cpwait .. | .cpstat .. | .fenceCore .. | .fenceCl .. | .fenceDie .. | .fencePkg .. | .fenceSys .. | .barInit ..
  | .barArr .. | .barExp .. | .barWait .. | .srd .. | .swr .. | .eret .. | .trap .. | .brk .. | .halt .. | .fenceI ..
  | .wqry .. | .widF .. => some uEA
  | .vadd .. | .vsub .. | .vmul .. | .vmacc .. | .vmin .. | .vmax .. | .vand .. | .vor .. | .vld .. | .vlds .. | .vldx ..
  | .vldff .. | .vst .. | .vsts .. | .vstx .. | .vxor .. | .vsll .. | .vsrl .. | .vsra .. | .vmulh .. | .vmulhu .. | .vminu ..
  | .vmaxu .. | .vaddVx .. | .vsubVx .. | .vmulVx .. | .vandVx .. | .vorVx .. | .vxorVx .. | .vsllVx .. | .vsrlVx ..
  | .vmseq .. | .vmsne .. | .vmslt .. | .vmsltu .. | .vmsle .. | .vmsleu .. | .vsadd .. | .vsaddu .. | .vssub .. | .vssubu ..
  | .vmvVx .. | .vmvXs .. | .vmvSx .. | .vid .. | .vfdiv .. | .vfsqrt .. | .vfnmacc .. | .vfmsac .. | .vfneg .. | .vfabs ..
  | .vfaddVf .. | .vfsubVf .. | .vfmulVf .. | .vfmaccVf .. | .vfminVf .. | .vfmaxVf .. | .vmfeq .. | .vmfne .. | .vmflt ..
  | .vmfle .. | .vfcvtXF .. | .vfcvtFX .. | .vfwcvt .. | .vfncvt .. | .vslideup .. | .vslidedn .. | .vrgather ..
  | .vcompress .. | .vmerge .. | .vredsum .. | .vredmax .. | .vredmin .. | .vredand .. | .vredor .. | .vfredsum ..
  | .vfredmax .. | .vfredmin .. | .vmand .. | .vmor .. | .vmxor .. | .vmnot .. | .vcpop .. | .vfirst .. | .setvl ..
  | .setvlr .. | .vcvtSat .. | .vcvtNsat .. | .vcvtW .. | .vpack .. | .vunpk .. | .vamoOr .. | .vamoAnd .. | .vamoAdd ..
  | .vamoMax .. | .vamoMin .. | .mmaE4m3 .. | .mmaE5m2 .. | .mmaE3m2 .. | .mmaE2m3 .. | .mmaE2m1 .. | .mmaBf16 .. | .mmaF16 ..
  | .mmaE4m3e5m2 .. | .mmaE5m2e4m3 .. | .mmaE4m3Mc .. | .mmaE5m2Mc .. | .mmaE3m2Mc .. | .mmaE2m3Mc .. | .mmaE2m1Mc ..
  | .mmaBf16Mc .. | .mmaF16Mc .. | .mmaE4m3e5m2Mc .. | .mmaE5m2e4m3Mc .. | .mmaa .. | .scacc .. | .accz .. | .accswap ..
  | .acfg .. | .accrdR .. | .accwrR .. | .accrdC .. | .accwrC .. | .accst .. | .bkAddV .. | .bkMulV .. | .bkFmaV ..
  | .bkMaxV .. | .bkMinV .. | .bkSclV .. | .bkOrV .. | .bkAndV .. | .bkFillV .. => some uV
  | .gldB .. | .gldH .. | .gldW .. | .gldD .. | .gstB .. | .gstH .. | .gstW .. | .gstD .. | .gamoAdd .. | .gamoSwap ..
  | .gamoAnd .. | .gamoOr .. | .gamoMax .. | .gamoMin .. | .gamoCas .. | .pref .. | .mscfl .. | .aend .. => some uA
  | .ago .. | .tsusp .. | .sstep .. => some uE
  | .tret .. => some uEN
  | .bkAdd .. | .bkMul .. | .bkFma .. | .bkMax .. | .bkMin .. | .bkScl .. | .bkOr .. | .bkAnd .. | .bkFill .. | .bkRsum ..
  | .bkRmax .. | .bkExps .. | .bkCvt .. | .bkAddR .. | .bkMulR .. | .bkFmaR .. | .bkMaxR .. | .bkMinR .. | .bkOrR ..
  | .bkAndR .. => some uBank
  | _ => none
/-- What a unit that does not execute an instruction raises (R46). -/
def wrongUnit (un : Units) (u : UnitId) : Option Why :=
  match u with
  | .ibex _ => if un.n = true then none else some ⟨0x007, 0⟩
  | .stream _ .exec => if un.e = true then none else some ⟨0x00A, 0⟩
  | .stream _ .acc => if un.a = true then none else if un.vec = true then some ⟨0x008, 0⟩ else some ⟨0x00A, 0⟩
/-- The instruction raises the decode cause at its base word, before any effect (R46, R48). -/
def Refuses (i : Instr) (s : State) (w : Why) : Prop := exec i s = .next (onStop s (.trap w (baseAddr s) none))
end Sys2Proof.Claim

/-- R44 to R47: each instruction that has words is of the units of the tables of R44 and R45, and traps on any other. -/
def Sys2Proof.Claim.UnitTraps : Prop :=
  (∀ i, wellFormed i = true → ∃ un, unitsOf i = some un) ∧
  (∀ i un s w, unitsOf i = some un → isCore s.cur.core = true → wrongUnit un s.cur.unit = some w → Refuses i s w)

/-- R40, R42, R46, R122: the decode causes that depend on the unit and the mode: an S-mode instruction in U mode; a register that an
Ibex unit does not have; a queue read or written against its direction; an odd pair, and a special code on a pair. -/
def Sys2Proof.Claim.OperandTraps : Prop :=
  (∀ s i, i ∈ [Instr.eret, .halt, .fenceI] → isCore s.cur.core = true → isIbex s.cur.unit = false → userMode s = true →
    Refuses i s ⟨0x009, 0⟩) ∧
  (∀ s i a b c f (n : BitVec 5), aluTable i = some (a, b, c, f) → isCore s.cur.core = true → 16 ≤ n.toNat → isIbex s.cur.unit = true →
    (a = .g n ∨ b = .g n ∨ c = .g n) → Refuses i s ⟨0x002, 4⟩) ∧
  (∀ s i a b c f (n : BitVec 5), aluTable i = some (a, b, c, f) → isCore s.cur.core = true →
    (isIbex s.cur.unit = true ∧ (2 ≤ n.toNat ∧ n.toNat ≤ 11 ∨ 20 ≤ n.toNat ∧ n.toNat ≤ 23) ∨
      isAcc s.cur.unit = true ∧ isIbex s.cur.unit = false ∧ 20 ≤ n.toNat ∧ n.toNat ≤ 23) →
    (a = .sp n ∨ b = .sp n ∨ c = .sp n) → Refuses i s ⟨0x002, 4⟩) ∧
  (∀ s i (a b c : GReg) f j, aluTable i = some (a, b, c, f) → isCore s.cur.core = true → wellFormed i = true →
    (s.cur.unit = .stream j .exec → b ∈ [GReg.sp 3, .sp 5] ∨ c ∈ [GReg.sp 3, .sp 5] ∨ a = .sp 2 → Refuses i s ⟨0x002, 3⟩) ∧
    (s.cur.unit = .stream j .acc → (∀ r ∈ [a, b, c], ∀ n, r = .sp n → n.toNat < 20) →
      b = .sp 2 ∨ c = .sp 2 ∨ a ∈ [GReg.sp 3, .sp 5] → Refuses i s ⟨0x002, 3⟩)) ∧
  (∀ s a b (n : BitVec 5), isCore s.cur.core = true → Passes uEA false [.rd b, .wr a] s →
    (n.toNat % 2 = 1 → Refuses (.amocasD a b (.g n)) s ⟨0x005, 0⟩) ∧
    (regPresent s.cur.unit (.sp n) = true → Refuses (.amocasD a b (.sp n)) s ⟨0x002, 5⟩))

/-- An instruction of an integer table: its words decode to it, each operand at every value and each immediate at every value that
its prefixes can give (R34, R36 to R40). -/
def Obligations.IntegerEncodings : Prop :=
  ∀ i, wellFormed i = true →
    ((∃ x, aluTable i = some x) ∨ (∃ x, unaryTable i = some x) ∨ (∃ x, immTable i = some x) ∨ ∃ x, constTable i = some x) →
    decode (encode i) = i

/-- Every other instruction with words: its words decode to it. -/
def Obligations.EveryEncoding : Prop :=
  ∀ i, wellFormed i = true → aluTable i = none → unaryTable i = none → (∀ x, immTable i ≠ some x) → (∀ x, constTable i ≠ some x) →
    decode (encode i) = i

/-- Every step that goes on keeps every memory in canonical form (log 6). -/
def Obligations.StepKeepsCanonical : Prop := ∀ s t, Canonical s → step s = .next t → Canonical t

/-- R5, R110, R111, R115, R118, R122, R125, R222, R392: the machine after reset. The model's choices, not the manual's: memories list
nothing and read as 0 (log 6, DESIGN CHOICE), and the values that no rule gives, of the phase, the launches, the threads, the slots and
the like (log 7, DESIGN CHOICE). By the rules each core has the attribute byte 0x23 on every page, its regions at their reset placements, TVEC 0, idle slots in U mode with no flag and
no fault recorded, streams that do not run; power is up, firmware is not loaded. -/
def Obligations.ResetValues : Prop :=
  let s := State.reset;
  Canonical s ∧ s.gmem = [] ∧ s.hmem = [] ∧ s.time = 0 ∧ s.phase = .poweredUp ∧ s.launches = [] ∧ s.host.hlto = 10000000 ∧
  ∀ c, let k := coreAt s c
    (∀ x, peek k.mem x = 0) ∧ (∀ p, attrOf k p = 0x23) ∧ k.tqbase = 0 ∧ k.envbase = 0x10000 ∧ k.mbbase = 0x18000 ∧ k.frbase = 0x18400 ∧
    k.tvec = 0 ∧ k.cycle = 0 ∧ k.mb = [] ∧ k.home = [] ∧ k.score = [] ∧
    (∀ i, let x := slotAt k i
      x.st = .idle ∧ x.status = 0 ∧ x.cause = 0 ∧ x.fpc = 0 ∧ x.fword0 = 0 ∧ x.fword1 = 0 ∧ x.fword2 = 0 ∧ x.faddr = 0 ∧ x.vtype = 0 ∧
        x.vl = 0 ∧ x.dcloss = 0 ∧ (∀ p : Fin 4, x.ports[p].cfg = 0)) ∧
    (∀ u, let t := threadAt k u
      t.running = false ∧ regVal t 0 = 0 ∧ t.cmask = 0x000FF000 ∧ t.fcsr = 0 ∧ t.dead = 0 ∧ t.epc = 0 ∧ (t.ld, t.st, t.bk, t.mx) = (0, 0, 0, 0)) ∧
    (∀ ch, (chanAt k ch).done = 0)

namespace Sys2Proof.Claim
/-- Nothing stands between the moving unit and the bare effect of its instruction: none of its stores waits in a buffer and
nothing is read ahead (R262, log 4), and the other stream of the slot has no request under way that has changed another core (R273). -/
def NothingWaits (s : State) : Prop := (threadOf s).sbuf = [] ∧ (threadOf s).early = [] ∧ partnerBusy s s.cur = false
/-- Unit `a` begins its instruction anew, with the words `ws` as Len and the trap records take them (R43, R48). -/
def begins (s : State) (a : Agent) (ws : List Half) : State := { retried s a with ir := ws }
/-- The issue port of the unit's kind keeps the stream that it last chose, where the instruction has issued (R107). -/
def chosen (a : Agent) : Host.Outcome State Fault Refusal → Host.Outcome State Fault Refusal
  | .next t => .next (if (threadAt (coreAt t a.core) a.unit).stalled then t else portChose t a)
  | o => o
end Sys2Proof.Claim

/-- R31, R43, R107, R262, R273: a step of a unit whose words are an instruction is that instruction's effect, with the words as Len
and the trap records take them, and its issue port keeps the choice; one that would stop its slot waits for the other stream's request.
The model's choices, not the manual's: which unit or event moves is the agenda's first entry, or the same unit again (log 3, DESIGN
CHOICE); which instructions let the stream's waiting stores take effect first or end what it has read ahead (readied), and that a store
waits only where the agenda says so (.delayed) (log 4, DESIGN CHOICE); that the port's choice is kept on every turn that issues
(log 12, DESIGN CHOICE); and that a first word that cannot be fetched is recorded as no word (log 75, DESIGN CHOICE). -/
def Obligations.StepRunsDecoded : Prop :=
  (∀ s ws, s.agenda = [] → MayExecute s → WordsAt s ws → NothingWaits s →
    step s = chosen s.cur (exec (decode ws) (begins s s.cur ws))) ∧
  (∀ s ws, s.agenda = [] → MayExecute s → WordsAt s ws →
    step s = chosen s.cur (stopsWhole (retried s s.cur) (perform false (decode ws) (begins s s.cur ws)))) ∧
  (∀ s i, perform false i s = exec i (readied i s)) ∧
  (∀ s i, (passesStores i s.ir = false ∨ atHome s = true → (threadOf (readied i s)).sbuf = []) ∧ (keepsEarly i s.ir = false → (threadOf (readied i s)).early = []) ∧
    (passesStores i s.ir = true → keepsEarly i s.ir = true → atHome s = false → readied i s = s) ∧
    ((threadOf s).sbuf = [] → (threadOf s).early = [] → readied i s = s)) ∧
  (∀ s r a ws, s.agenda = .delayed a :: r → MayExecute { s with agenda := r, cur := a } → WordsAt { s with cur := a } ws →
    step s = chosen a (stopsWhole (retried { s with agenda := r } a) (perform true (decode ws) (begins { s with agenda := r } a ws)))) ∧
  (∀ s r a ws, s.agenda = .instr a :: r → MayExecute { s with agenda := r, cur := a } → WordsAt { s with cur := a } ws →
    NothingWaits { s with cur := a } → step s = chosen a (exec (decode ws) (begins { s with agenda := r } a ws))) ∧
  (∀ s r e, s.agenda = .event e :: r → isEvent e = true → step s = exec e { s with agenda := r }) ∧
  (∀ s, s.agenda = [] → MayExecute s → fetchable (here s) (pcOf s) = false → partnerBusy s s.cur = false →
    step s = chosen s.cur (.next (onStop (begins s s.cur []) (.trap (why 0x064 0) (pcOf s) none)))) ∧
  (∀ s c x r i a t, s.agenda = .issue c x :: r → a = (⟨c, .stream i x⟩ : Agent) → (issueOrder { s with agenda := r } c x).head? = some i →
    moves { s with agenda := r } a = true → runUnit false (retried { s with agenda := r } a) = .next t →
    (threadAt (coreAt t c) a.unit).stalled = false → step s = .next (portChose t a))

/-- R33 to R46: words written out from the spec's encodings, of one instruction or more of every family, and what they decode to;
and three that are no instruction, with the cause of R46. -/
def Obligations.DecodedWords : Prop :=
  decode [0x0298] = .add (.g 1) (.g 2) (.g 3) ∧ decode [0xD408, 0x0498] = .add (.sp 2) (.g 2) (.g 3) ∧
  decode [0xF000, 0xD500, 0x292C] = .li (.g 12) 300 ∧ decode [0xD540, 0x193F] = .addi (.g 12) (.g 12) (-1) ∧
  decode [0xF091, 0xD500, 0x2345] = .li (.g 9) 0x12345 ∧ decode [0xD010, 0xE970] = .mul (.g 4) (.g 5) (.g 6) ∧
  decode [0xF005, 0xD020, 0xE945] = .srai (.g 4) (.g 5) 40 ∧
  decode [0xD500, 0x680E] = .brNe (.g 12) (.g 0) (-2) ∧ decode [0x8280] = .ret (.g 1) ∧ decode [0x9200] = .padC ∧
  decode [0x7003] = .j 3 ∧ decode [0x7802] = .call 2 ∧ decode [0xCFC7] = .wait 7 7 0 7 ∧
  decode [0x46B1] = .ldD (.g 3) (.g 2) 1 ∧ decode [0x56AF] = .stW (.g 3) (.g 2) (-1) ∧
  decode [0xA298] = .vadd 1 2 3 0 ∧ decode [0xD040, 0xE298] = .fadd (.g 1) (.g 2) (.g 3) ∧
  decode [0xD036, 0xE283] = .gldD (.g 1) (.g 2) 0 ∧ decode [0xD120, 0xE098] = .task (.g 2) (.g 3) ∧
  decode [0xD160, 0xE298] = .cpy 1 (.g 2) (.g 3) ∧ decode [0xF002, 0xD190, 0xE238] = .srd (.g 1) 0x017 ∧
  decode [0xD100, 0xD40C, 0xE59A] = .movq (.sp 2) (.sp 6) 3 ∧ decode [0xD180, 0xE001] = .fenceCl ∧ decode [0xD184, 0xE000] = .sstep ∧
  decode [0xDC00] = .decodeTrap 0x001 1 0 ∧ decode [0xE970] = .decodeTrap 0x004 0 0 ∧ decode [0x6038] = .decodeTrap 0x001 4 0 ∧
  decode [0xD010, 0xF001] = .decodeTrap 0x003 1 1 ∧ decode [0xF000, 0x0920] = .decodeTrap 0x003 5 1


/-! ### Statements of several parts -/

/-- Integer operations complete with the results of the tables: IntegerOperations, IntegerUnaryOperations, ConstantOperations. On every
unit that the opcode tables give an integer instruction of three or two operands, or LI, ADH or ADPC: where the sources can be read
in the order b, c and the result can be written, the step of the instruction is that state with the PC at PC + Len. Division never
traps. -/
def Obligations.IntegerOperations : Prop :=
  Claim.IntegerOperations ∧ Claim.IntegerUnaryOperations ∧ Claim.ConstantOperations

/-- Loads and stores of own local memory, with their frames: LocalLoads, LocalStores, WaitingStores. A load of own local memory gives
the extended little-endian bytes at B + disp as its one result and changes nothing else. A store writes exactly its bytes at B +
disp, takes poison only from words written whole, and changes no register or flag; where it aborts no speculative far task nothing
else of the machine differs. A store may wait in its stream's buffer, and its own stream's loads see it; a scoreboard entry lets the
stores it would hold take effect first (R262, R121; which instructions pass waiting stores is log 4, DESIGN CHOICE). -/
def Obligations.LocalLoadsAndStores : Prop :=
  Claim.LocalLoads ∧ Claim.LocalStores ∧ Claim.WaitingStores

/-- The checks of a local access and their traps: NearAccessTraps, LoadStoreTraps. The checks of a load or store of own local memory are
made in the order of the table, each a precise trap with the address in FADDR, before anything of the instruction happens. -/
def Obligations.LocalAccessTraps : Prop :=
  Claim.NearAccessTraps ∧ Claim.LoadStoreTraps

/-- Branches, jumps and pads: where the stream goes, and nothing else changes: Branches, BranchFrame, LandingPads. A branch compares A
with B and goes to PC + 2 times its displacement or on at PC + Len; BR.POP pops bo; J always goes; a landing pad does nothing. With
general-register operands nothing but the PC differs. -/
def Obligations.Branches : Prop :=
  Claim.Branches ∧ Claim.BranchFrame ∧ Claim.LandingPads

/-- Calls, returns, landing-pad traps, AGO and AEND: CallsAndReturns, LandingPadTraps, AccessStream. CALL and CALLR mark the registers
of CMASK dead and link g1; CALLR goes only to PAD.C and JR only to PAD.J; RET marks dead and goes to an even address; a refused
target raises 0x041, 0x064 or 0x040 in that order. AGO starts an idle access stream with g3 to g7, AEND ends it. -/
def Obligations.CallsReturnsAndStreams : Prop :=
  Claim.CallsAndReturns ∧ Claim.LandingPadTraps ∧ Claim.AccessStream

/-- MOVQ, QLEVEL and WAIT: QueueMoves, WaitCounters. MOVQ moves n + 1 words between two queues in order and raises 0x002 subcode 0x05
for one queue in both fields; QLEVEL counts words without popping; WAIT goes on once each counter is within its limit, stalls until
then, and first reports a failed posted entry where it waits on st. That MOVQ's subcode 0x05 comes ahead of the other checks of its
operands is the model's choice, log 16 (DEDUCED). -/
def Obligations.QueuesAndWaits : Prop :=
  Claim.QueueMoves ∧ Claim.WaitCounters

/-- Scalar floating point: result, flags and flag traps: ScalarFloat, FlagTraps. A scalar FP instruction writes the result of the table
under the rounding mode and ORs its flags into FCSR where none is enabled; an enabled flag traps precisely in the order V, Z, O, U,
I with nothing of the instruction done. -/
def Obligations.ScalarFloat : Prop :=
  Claim.ScalarFloat ∧ Claim.FlagTraps

/-- Every sum, product, fused product, quotient and root is the exact value rounded once: SumsAndProductsRound, QuotientsAndRootsRound.
On finite operands FAdd, FSub, FMul and FFma of every format and mode, and FDiv and FSqrt on FP32, are the exact rational (or, for a
root, the exact comparison of squares) rounded once by RoundToFormat. -/
def Obligations.ArithmeticRoundsOnce : Prop :=
  Claim.SumsAndProductsRound ∧ Claim.QuotientsAndRootsRound

/-- Element-wise vector operations and conversions: VectorArithmetic, VectorConversions. For every element width, group, mask and
policy, the element-wise operations over two vectors or a vector and a scalar, the unary operations, and the conversions to and from
narrow formats write the result of their table in active elements, and inactive and tail elements by the policy. -/
def Obligations.VectorArithmetic : Prop :=
  Claim.VectorArithmetic ∧ Claim.VectorConversions

/-- Vector compares, mask logic and reductions: VectorCompares, VectorMasks, VectorReductions. Compares write mask bits; mask logic
works on the bits below VL; VCPOP and VFIRST count and find; reductions combine the start operand last with the pairwise tree of the
active elements. -/
def Obligations.VectorMasks : Prop :=
  Claim.VectorCompares ∧ Claim.VectorMasks ∧ Claim.VectorReductions

/-- Vector moves, slides, gathers and compress: VectorMoves, VectorPlacement. VMV, VID, VMERGE, VSLIDEUP, VSLIDEDN, VRGATHER and
VCOMPRESS place the elements the rules name; positions out of range give 0; VMV.XS reads element 0 and VMV.SX writes it where VL is
at least 1. -/
def Obligations.VectorMoves : Prop :=
  Claim.VectorMoves ∧ Claim.VectorPlacement

/-- Vector loads and stores of own local memory: VectorLoads, VectorStores. Every active element of a vector load is the bytes at its
address; VLDFF cuts VL where a later element is refused; every active element of a store is written at its address, the highest
element winning, and every other byte stays. That a vector load first lets the waiting stores of its own stream take effect where
they share a byte with it, and that a vector store may itself wait in that buffer, is the model's buffer, log 4 (DESIGN CHOICE). -/
def Obligations.VectorMemory : Prop :=
  Claim.VectorLoads ∧ Claim.VectorStores

/-- Bank commands and vector atomics: what is queued and what is refused: BankCommandsQueue, BankCommandTraps, VectorAtomicsQueue. Every
form of a bank command reads b, c and a in that order and is queued with the operand line of its form and its scoreboard entry; a
bad descriptor raises 0x002 subcode 0x05, a misaligned base 0x065, a range past local memory 0x060. A VAMO queues each active lane
under one scoreboard entry over the lines from the lowest to the highest; with no active lane it does nothing. -/
def Obligations.BankCommandsQueue : Prop :=
  Claim.BankCommandsQueue ∧ Claim.BankCommandTraps ∧ Claim.VectorAtomicsQueue

/-- A bank updates one whole line per step, and commands retire when no line is left: BankLineUpdates, VectorAtomicLanes,
BankRetirements. A step of a bank replaces every element of the next line it holds of the first item that has one there and nothing
else of memory, or makes the next lane of a VAMO one step; a line of which a lane would read a poisoned word stays, with all its
lanes (log 103, DEDUCED from R218 over R180); a command or VAMO with nothing left retires, a reduction writing its result first, and
frees its scoreboard entry. A poisoned word met by the patrol is logged, with cause 0x181 subcode 0 and event 4: the model's choice,
log 29 (DEDUCED). -/
def Obligations.BankSteps : Prop :=
  Claim.BankLineUpdates ∧ Claim.VectorAtomicLanes ∧ Claim.BankRetirements

/-- CAPT, CAPT.REF, KLD and KST: CaptureClosure, CaptureReference, CaptureWords. CAPT takes the lowest free environment, writes its
header and captures and puts the handle in kA; CAPT.REF adds one capture that refers to a frame byte; KLD reads a capture word and
KST writes one that no by-reference slot marks. -/
def Obligations.CaptureAndWords : Prop :=
  Claim.CaptureClosure ∧ Claim.CaptureReference ∧ Claim.CaptureWords

/-- KDUP, KDROP and closures of other cores: CountReferences, RemoteClosures. KDUP adds a reference and copies the handle; KDROP drops
one and clears kA, the last one freeing the environment under its next generation; a closure of another core of the launch is asked
of its home once; a null handle and a handle of no core of the launch raise their causes. -/
def Obligations.ClosureReferences : Prop :=
  Claim.CountReferences ∧ Claim.RemoteClosures

/-- FRAME, UNFRAME and APPLY: Frames, ApplyClosure. FRAME takes its operand rounded up to lines below the innermost frame, UNFRAME gives
the innermost back; APPLY goes to the PAD.K entry with the registers of CMASK dead, the link in g1, the environment in g3 and the
first eight captures from g8. -/
def Obligations.FramesAndApply : Prop :=
  Claim.Frames ∧ Claim.ApplyClosure

/-- Matrix operations are queued at the engine or refused: MatrixQueues, MatrixOperandTraps. An MMA of every format, SCACC, MMAA and
ACCZ with operands in own memory are queued at the engine and charged to mx; strides and bases that are refused raise their causes. -/
def Obligations.MatrixQueues : Prop :=
  Claim.MatrixQueues ∧ Claim.MatrixOperandTraps

/-- What a retiring matrix operation leaves in the accumulator, and held reads (their wider delivery is the model's choice, log 111):
MatrixRetires, HeldReadServed. A retiring operation sets P from the rows of A and B, W with P added or scaled and added, W cleared,
or W and V exchanged, for every element of the 64 by 96 tile, with the dirty bits exchanged as well; a held read that is served
gives every queued .MC operation of the cluster its line, which is the model's choice (log 111, DESIGN CHOICE): R249 names the
operations of the same cluster row for A and of the same cluster column for B, and R244 makes the difference unobservable. -/
def Obligations.MatrixRetires : Prop :=
  Claim.MatrixRetires ∧ Claim.HeldReadServed

/-- ACCSWAP, ACFG, ACCRD, ACCWR and ACCST: AccumulatorSwap, AccumulatorShape, AccumulatorAccess. ACCSWAP queues the exchange and goes on
when it is made; ACFG takes 0 or a shape within the limits and raises 0x100 subcode 3 for another; ACCRD and ACCWR move cells of the
visible bank, ACCST stores its window row by row in the format and changes no other byte. -/
def Obligations.Accumulator : Prop :=
  Claim.AccumulatorSwap ∧ Claim.AccumulatorShape ∧ Claim.AccumulatorAccess

/-- CPY, CPG, CPWAIT and CPSTAT: CopiesQueue, CopyWaits. CPY and CPG with a valid record queue a transfer under the next number of the
channel, which is their result; a record that fails check n raises 0x120 subcode n; CPWAIT and CPSTAT wait for and report the
numbers done. The model's choices: a copy that waits for room keeps its record, is not checked again, and adds the reference of
KDONE when it issues (log 79, DESIGN CHOICE); a null KDONE with KEN = 1 passes the checks and takes no reference (log 96, DESIGN
CHOICE). That CPWAIT compares the low 32 bits of its operand is the model's choice, log 34 (DEDUCED). -/
def Obligations.CopiesIssue : Prop :=
  Claim.CopiesQueue ∧ Claim.CopyWaits

/-- Copy pieces move their elements, and transfers complete: CopyPieceMoves, CopyCompletes. COPY_PIECE completes: it moves every element
left up to the end of a destination piece between tensor and packed side, converted as the record says, and the transfer then stands
at the next piece; with no transfer to move it does nothing. COPY_TRANSFER_COMPLETE completes for a transfer with nothing left or a
failure: its number is the done number, its scoreboard entry is freed, its completion record is ready; COMPLETION_RECORD_ENQUEUE
queues that record where the home takes it. What is not ready waits. -/
def Obligations.CopiesMove : Prop :=
  Claim.CopyPieceMoves ∧ Claim.CopyCompletes

/-- TASK, TRET and TSUSP: TaskCreation, TaskEnds. TASK with a valid record whose home is the creating core queues it there last in
arrival order with one reference added for each handle; a free one for another core goes there as a posted message. TRET of a body
that is done retires its record and frees the slot or the Ibex unit; TSUSP puts the record back under the continuation kA. -/
def Obligations.TaskRecords : Prop :=
  Claim.TaskCreation ∧ Claim.TaskEnds

/-- Near and far bodies start, and promoted bodies drain their buffers: NearBodiesStart, FarBodiesStart, BuffersDrain. A free Ibex unit
takes the oldest anchored record that may run near and starts its near body; an idle slot takes the oldest free record, or the
youngest that qualifies of the home granted to it, and starts its far body with the registers of BodyStart. A promoted far body has
its anchor buffer written at its home in one step, then its outgoing entries leave in order. -/
def Obligations.Bodies : Prop :=
  Claim.NearBodiesStart ∧ Claim.FarBodiesStart ∧ Claim.BuffersDrain

/-- Global loads, atomics, stores, PREF and MSCFL leave as requests: GlobalLoadsIssue, GlobalStoresIssue. A GLD or GAMO leaves as a
request charged to ld with its destination reserved; a GST leaves as a posted write or is held by a speculative body; MSCFL is
posted and PREF counts nowhere; that an MSCFL of a speculative body leaves at once is the model's choice, log 42 (DEDUCED); that a
special code other than lq as destination raises 0x05 ahead of the 0x03 of b and c is the model's choice, log 16 (DEDUCED). -/
def Obligations.GlobalIssue : Prop :=
  Claim.GlobalLoadsIssue ∧ Claim.GlobalStoresIssue

/-- Global accesses are translated and performed in one step, or answered with their cause: GlobalAccesses, TranslationFailures. A
global request is translated and performed at its memory in one step and answered; a missing right, an invalid or malformed entry is
answered with its cause and level and changes no memory; while the host link is down an access to host memory is held. -/
def Obligations.GlobalAccesses : Prop :=
  Claim.GlobalAccesses ∧ Claim.TranslationFailures

/-- Replies of global accesses, and shoot-downs: GlobalReplies, ShootDowns. The oldest load's data goes to its reserved place and ld is
released; a write's reply releases st and its entry; a failed load is reported at the boundary. A shoot-down starts, is acknowledged
by each station that discards the pages, and completes with the last; that nothing happens while firmware does not run or the host
link is down is the model's choice, log 70 (DEDUCED). -/
def Obligations.GlobalReplies : Prop :=
  Claim.GlobalReplies ∧ Claim.ShootDowns

/-- Messages are issued as posted operations, or refused in order: MessagesIssue, MessageTraps. MSG.PUT, MSG.GET, MSG.AMO and MSG.SIG
whose reference and ranges pass leave as posted messages, a GET and an AMO with a scoreboard entry; checks 1 to 3 of the reference
raise their causes in order; a speculative body holds a PUT and a SIG. -/
def Obligations.MessagesIssue : Prop :=
  Claim.MessagesIssue ∧ Claim.MessageTraps

/-- Messages are served or refused whole at their destination: MessagesServed, MessagesRefused. A PUT is written and counted at its
barrier object; a GET sends its bytes back; an atomic gives the old word or updates a barrier object; a signal enters the mailbox; a
refusal changes nothing, answers with its cause and is logged; that a refused atomic is logged as EVENT 0 with the remote address is
the model's choice, log 50 (DEDUCED). -/
def Obligations.MessagesServed : Prop :=
  Claim.MessagesServed ∧ Claim.MessagesRefused

/-- Replies and acknowledgments arrive or are lost: RepliesArrive, LostReplies. A reply is written at its issuer and frees its
scoreboard and posted entries; an acknowledgment frees its entry or marks it failed; one that is lost fails it with 0x0A1 and the
subcode of what happened. -/
def Obligations.RepliesArrive : Prop :=
  Claim.RepliesArrive ∧ Claim.LostReplies

/-- Ports, mailbox, the Slate and work queries: PortsAndMailbox, SlateAndRecords, WorkQueries. PCFG binds and unbinds ports; a port word
and a mailbox message enter where there is room; the Slate keeps the advertising homes and answers requests; WQRY and WID.F; a task
record that its home accepts is queued and acknowledged. -/
def Obligations.PortsMailboxAndSlate : Prop :=
  Claim.PortsAndMailbox ∧ Claim.SlateAndRecords ∧ Claim.WorkQueries

/-- Cluster-window accesses, closure operations and anchor-view accesses are served; the refusal of a U-mode home-queue access is log
100's reading: WindowServed, HomeServed. Accesses through the cluster window are performed at their core and answered; closure
operations are done at the home of the environment in one step and answered; so are accesses through the anchor view, a speculative
read marking its lines. That a U-mode access to another core's home-queue region is refused at its destination with 0x066 is the
model's reading of R69, R118 and R294 (log 100, DEDUCED). -/
def Obligations.RemoteServed : Prop :=
  Claim.WindowServed ∧ Claim.HomeServed

/-- CSR writes change their writable fields only; region bases move only while empty: CsrWrites, RegionBases, TaskQueueRegisters. SWR,
and the write events of the opcode table, write the fields of each CSR that its map makes writable and no other bit; a region base
moves only while its region is empty and to a place that meets no other; TQCFG and TQDEPTH read and set the task queue. The model's
choices: a write of STATUS.INTRAP leaves the slot state (log 57, DEDUCED), any live environment of the 256 refuses ENVBASE (log 58,
DEDUCED), and live ones refuse before the placement is looked at (log 76); writes of TQBASE and PAGEATTR let the waiting stores of
the core take effect and end what its streams have read ahead (log 4), and FRBASE takes a region past local memory (log 107). -/
def Obligations.CsrWrites : Prop :=
  Claim.CsrWrites ∧ Claim.RegionBases ∧ Claim.TaskQueueRegisters

/-- SSTEP arrives, and releases let the columns go on: Supersteps, ReleasesGo. SSTEP traps in an anchored task and in a handler;
otherwise it arrives once all before it is done and goes on once a release covers the core; a release is due once every slot with a
free task has arrived, and its columns go one by one. -/
def Obligations.Supersteps : Prop :=
  Claim.Supersteps ∧ Claim.ReleasesGo

/-- Launch records are checked and launches start: LaunchRecordsChecked, LaunchesStart. The record at a queue's head that passes keeps
its object, one that fails check n gets a completion record of status 3; the launch served next starts, its cores prepared at once
or as their reels are forwarded. The model's choices: the places of the four task records (log 10, DESIGN CHOICE), one free task for
each slot (log 83, DEDUCED), and that an object the host link has held for HLTO fails check 3 (log 98, DESIGN CHOICE). -/
def Obligations.LaunchesStart : Prop :=
  Claim.LaunchRecordsChecked ∧ Claim.LaunchesStart

/-- Launches complete, are pre-empted and resume: LaunchesComplete, PreemptionAndResume. A launch that is over gets its completion
record and its cores are free; a record whose write the host link holds is kept as the launch completed and written later; one that
is displaced stops, is saved once drained, and resumes on the same cores with what was saved; an accumulator is loaded from its area
when an instruction or a queued operation wants it. The bytes of the state area are free values (log 66); that the memory of a core
which a saved launch has left lists nothing is the model's choice, log 89 (DESIGN CHOICE). -/
def Obligations.LaunchesEnd : Prop :=
  Claim.LaunchesComplete ∧ Claim.PreemptionAndResume

/-- Meters, stretching, drowsy cores and device commands: PowerEvents, DeviceCommands. The current estimate and the heat map are
refreshed at their times, a stretched cycle is counted, an idle core goes drowsy with its memory kept; a device command that names
what it needs is done, another says why in CMDERR and changes nothing else. The model's choices: the row voltage is set where the
divider is refused (log 8, DESIGN CHOICE), a HALT waits while an instruction of the slot is under way at another core (log 101,
DEDUCED), a record of the home that a body elsewhere runs keeps a core from going drowsy (log 99, DESIGN CHOICE), what a core holds
after an off column, its memory listing nothing, its threads and slots as at reset and no drowsy request, is log 68 (DEDUCED) over
logs 5 and 6 (DESIGN CHOICE), and operation 5 ignores the coordinate (log 105, DESIGN CHOICE). -/
def Obligations.PowerAndDeviceCommands : Prop :=
  Claim.PowerEvents ∧ Claim.DeviceCommands

/-- Submissions, queue entries, BAR0 and connection entries: WorkQueueWrites, RegisterWrites. A whole submission goes to the ring slot
of TAIL, another sets OVF; an entry changes only while disabled; a register of BAR0 and a word of a connection entry take their
writable bits and no other register changes; that CEIL takes every value is the model's choice, log 86 (DESIGN CHOICE). -/
def Obligations.HostRegisters : Prop :=
  Claim.WorkQueueWrites ∧ Claim.RegisterWrites

/-- Host accesses, links, power, attestation, and inbound sends and RMA: HostEvents, InboundTraffic. The host reads and writes device
memory where its caches see it; links, firmware and power change as the rules say; an inbound send is written to its next released
ring slot and notified; an RMA is performed whole or refused. The model's choices: the place of slot data (log 39, DEDUCED), that an
RMA with a refused page is refused whole (log 71, DEDUCED), the measurement of straps and trim (log 9, PRESUMED), the order of the
signed bytes (log 112, DESIGN CHOICE), that memories list nothing and read 0 (log 6, DESIGN CHOICE) and registers have their reset
values (log 5, DESIGN CHOICE) after power is lost, where R392 says only that contents are lost, what becomes of inbound traffic that
the host link has held for HLTO (log 98, DESIGN CHOICE), a NOTIFY that names no core (log 104, DESIGN CHOICE) and inbound addresses
outside global space (log 106, DESIGN CHOICE). -/
def Obligations.HostAndFabric : Prop :=
  Claim.HostEvents ∧ Claim.InboundTraffic

/-- What reading and writing an operand does: OperandRules, PortWrites. g0 and dead registers read as 0, g0 discards writes, a written
register leaves the dead set, an outstanding destination stalls; l0 and l1 move with each result; a special code pops one word and
stalls where there is none; a push appends and stalls where full; a port write needs a bound port. -/
def Obligations.OperandRules : Prop :=
  Claim.OperandRules ∧ Claim.PortWrites

/-- Units, privilege and operands: the decode causes checked at issue: UnitTraps, OperandTraps. Every instruction with words has the
units of the tables and traps with 0x007, 0x008 or 0x00A on another; an S-mode instruction in U mode raises 0x009; absent registers,
misdirected queues, odd pairs and special codes on pairs raise their causes. -/
def Obligations.UnitAndOperandTraps : Prop :=
  Claim.UnitTraps ∧ Claim.OperandTraps
end

