-- ==== Sys2Proof/Laws/State.lean ====
section
/-! SUPPORT. Laws/State.lean: what each named update of the state leaves alone, one lemma per field, true by unfolding; and
what it changes, read back. -/
namespace Sys2Proof.Machine

@[simp] theorem setCore_time (s : State) (c : Coord) (k : Core) : (setCore s c k).time = s.time := rfl
@[simp] theorem setCore_net (s : State) (c : Coord) (k : Core) : (setCore s c k).net = s.net := rfl
@[simp] theorem setCore_gnet (s : State) (c : Coord) (k : Core) : (setCore s c k).gnet = s.gnet := rfl
@[simp] theorem setCore_gmem (s : State) (c : Coord) (k : Core) : (setCore s c k).gmem = s.gmem := rfl
@[simp] theorem setCore_hmem (s : State) (c : Coord) (k : Core) : (setCore s c k).hmem = s.hmem := rfl
@[simp] theorem setCore_gpoison (s : State) (c : Coord) (k : Core) : (setCore s c k).gpoison = s.gpoison := rfl
@[simp] theorem setCore_cache (s : State) (c : Coord) (k : Core) : (setCore s c k).cache = s.cache := rfl
@[simp] theorem setCore_tlb (s : State) (c : Coord) (k : Core) : (setCore s c k).tlb = s.tlb := rfl
@[simp] theorem setCore_grants (s : State) (c : Coord) (k : Core) : (setCore s c k).grants = s.grants := rfl
@[simp] theorem setCore_gcorrected (s : State) (c : Coord) (k : Core) : (setCore s c k).gcorrected = s.gcorrected := rfl
@[simp] theorem setCore_dies (s : State) (c : Coord) (k : Core) : (setCore s c k).dies = s.dies := rfl
@[simp] theorem setCore_heat (s : State) (c : Coord) (k : Core) : (setCore s c k).heat = s.heat := rfl
@[simp] theorem setCore_queues (s : State) (c : Coord) (k : Core) : (setCore s c k).queues = s.queues := rfl
@[simp] theorem setCore_launches (s : State) (c : Coord) (k : Core) : (setCore s c k).launches = s.launches := rfl
@[simp] theorem setCore_lastServed (s : State) (c : Coord) (k : Core) : (setCore s c k).lastServed = s.lastServed := rfl
@[simp] theorem setCore_host (s : State) (c : Coord) (k : Core) : (setCore s c k).host = s.host := rfl
@[simp] theorem setCore_releases (s : State) (c : Coord) (k : Core) : (setCore s c k).releases = s.releases := rfl
@[simp] theorem setCore_currentEst (s : State) (c : Coord) (k : Core) : (setCore s c k).currentEst = s.currentEst := rfl
@[simp] theorem setCore_housekeeping (s : State) (c : Coord) (k : Core) : (setCore s c k).housekeeping = s.housekeeping := rfl
@[simp] theorem setCore_trim (s : State) (c : Coord) (k : Core) : (setCore s c k).trim = s.trim := rfl
@[simp] theorem setCore_boot (s : State) (c : Coord) (k : Core) : (setCore s c k).boot = s.boot := rfl
@[simp] theorem setCore_conns (s : State) (c : Coord) (k : Core) : (setCore s c k).conns = s.conns := rfl
@[simp] theorem setCore_linkUp (s : State) (c : Coord) (k : Core) : (setCore s c k).linkUp = s.linkUp := rfl
@[simp] theorem setCore_hostLink (s : State) (c : Coord) (k : Core) : (setCore s c k).hostLink = s.hostLink := rfl
@[simp] theorem setCore_phase (s : State) (c : Coord) (k : Core) : (setCore s c k).phase = s.phase := rfl
@[simp] theorem setCore_firmware (s : State) (c : Coord) (k : Core) : (setCore s c k).firmware = s.firmware := rfl
@[simp] theorem setCore_hostOut (s : State) (c : Coord) (k : Core) : (setCore s c k).hostOut = s.hostOut := rfl
@[simp] theorem setCore_cur (s : State) (c : Coord) (k : Core) : (setCore s c k).cur = s.cur := rfl
@[simp] theorem setCore_agenda (s : State) (c : Coord) (k : Core) : (setCore s c k).agenda = s.agenda := rfl
@[simp] theorem setCore_ir (s : State) (c : Coord) (k : Core) : (setCore s c k).ir = s.ir := rfl
@[simp] theorem setCore_nextId (s : State) (c : Coord) (k : Core) : (setCore s c k).nextId = s.nextId := rfl
@[simp] theorem setCore_freeCtr (s : State) (c : Coord) (k : Core) : (setCore s c k).freeCtr = s.freeCtr := rfl

@[simp] theorem mapCore_time (s : State) (c : Coord) (f : Core → Core) : (mapCore s c f).time = s.time := rfl
@[simp] theorem mapCore_net (s : State) (c : Coord) (f : Core → Core) : (mapCore s c f).net = s.net := rfl
@[simp] theorem mapCore_gnet (s : State) (c : Coord) (f : Core → Core) : (mapCore s c f).gnet = s.gnet := rfl
@[simp] theorem mapCore_gmem (s : State) (c : Coord) (f : Core → Core) : (mapCore s c f).gmem = s.gmem := rfl
@[simp] theorem mapCore_hmem (s : State) (c : Coord) (f : Core → Core) : (mapCore s c f).hmem = s.hmem := rfl
@[simp] theorem mapCore_gpoison (s : State) (c : Coord) (f : Core → Core) : (mapCore s c f).gpoison = s.gpoison := rfl
@[simp] theorem mapCore_cache (s : State) (c : Coord) (f : Core → Core) : (mapCore s c f).cache = s.cache := rfl
@[simp] theorem mapCore_tlb (s : State) (c : Coord) (f : Core → Core) : (mapCore s c f).tlb = s.tlb := rfl
@[simp] theorem mapCore_grants (s : State) (c : Coord) (f : Core → Core) : (mapCore s c f).grants = s.grants := rfl
@[simp] theorem mapCore_gcorrected (s : State) (c : Coord) (f : Core → Core) : (mapCore s c f).gcorrected = s.gcorrected := rfl
@[simp] theorem mapCore_dies (s : State) (c : Coord) (f : Core → Core) : (mapCore s c f).dies = s.dies := rfl
@[simp] theorem mapCore_heat (s : State) (c : Coord) (f : Core → Core) : (mapCore s c f).heat = s.heat := rfl
@[simp] theorem mapCore_queues (s : State) (c : Coord) (f : Core → Core) : (mapCore s c f).queues = s.queues := rfl
@[simp] theorem mapCore_launches (s : State) (c : Coord) (f : Core → Core) : (mapCore s c f).launches = s.launches := rfl
@[simp] theorem mapCore_lastServed (s : State) (c : Coord) (f : Core → Core) : (mapCore s c f).lastServed = s.lastServed := rfl
@[simp] theorem mapCore_host (s : State) (c : Coord) (f : Core → Core) : (mapCore s c f).host = s.host := rfl
@[simp] theorem mapCore_releases (s : State) (c : Coord) (f : Core → Core) : (mapCore s c f).releases = s.releases := rfl
@[simp] theorem mapCore_currentEst (s : State) (c : Coord) (f : Core → Core) : (mapCore s c f).currentEst = s.currentEst := rfl
@[simp] theorem mapCore_housekeeping (s : State) (c : Coord) (f : Core → Core) : (mapCore s c f).housekeeping = s.housekeeping := rfl
@[simp] theorem mapCore_trim (s : State) (c : Coord) (f : Core → Core) : (mapCore s c f).trim = s.trim := rfl
@[simp] theorem mapCore_boot (s : State) (c : Coord) (f : Core → Core) : (mapCore s c f).boot = s.boot := rfl
@[simp] theorem mapCore_conns (s : State) (c : Coord) (f : Core → Core) : (mapCore s c f).conns = s.conns := rfl
@[simp] theorem mapCore_linkUp (s : State) (c : Coord) (f : Core → Core) : (mapCore s c f).linkUp = s.linkUp := rfl
@[simp] theorem mapCore_hostLink (s : State) (c : Coord) (f : Core → Core) : (mapCore s c f).hostLink = s.hostLink := rfl
@[simp] theorem mapCore_phase (s : State) (c : Coord) (f : Core → Core) : (mapCore s c f).phase = s.phase := rfl
@[simp] theorem mapCore_firmware (s : State) (c : Coord) (f : Core → Core) : (mapCore s c f).firmware = s.firmware := rfl
@[simp] theorem mapCore_hostOut (s : State) (c : Coord) (f : Core → Core) : (mapCore s c f).hostOut = s.hostOut := rfl
@[simp] theorem mapCore_cur (s : State) (c : Coord) (f : Core → Core) : (mapCore s c f).cur = s.cur := rfl
@[simp] theorem mapCore_agenda (s : State) (c : Coord) (f : Core → Core) : (mapCore s c f).agenda = s.agenda := rfl
@[simp] theorem mapCore_ir (s : State) (c : Coord) (f : Core → Core) : (mapCore s c f).ir = s.ir := rfl
@[simp] theorem mapCore_nextId (s : State) (c : Coord) (f : Core → Core) : (mapCore s c f).nextId = s.nextId := rfl
@[simp] theorem mapCore_freeCtr (s : State) (c : Coord) (f : Core → Core) : (mapCore s c f).freeCtr = s.freeCtr := rfl

@[simp] theorem mapDie_cores (s : State) (d : Nat) (f : Die → Die) : (mapDie s d f).cores = s.cores := rfl
@[simp] theorem mapDie_time (s : State) (d : Nat) (f : Die → Die) : (mapDie s d f).time = s.time := rfl
@[simp] theorem mapDie_net (s : State) (d : Nat) (f : Die → Die) : (mapDie s d f).net = s.net := rfl
@[simp] theorem mapDie_gnet (s : State) (d : Nat) (f : Die → Die) : (mapDie s d f).gnet = s.gnet := rfl
@[simp] theorem mapDie_gmem (s : State) (d : Nat) (f : Die → Die) : (mapDie s d f).gmem = s.gmem := rfl
@[simp] theorem mapDie_hmem (s : State) (d : Nat) (f : Die → Die) : (mapDie s d f).hmem = s.hmem := rfl
@[simp] theorem mapDie_gpoison (s : State) (d : Nat) (f : Die → Die) : (mapDie s d f).gpoison = s.gpoison := rfl
@[simp] theorem mapDie_cache (s : State) (d : Nat) (f : Die → Die) : (mapDie s d f).cache = s.cache := rfl
@[simp] theorem mapDie_tlb (s : State) (d : Nat) (f : Die → Die) : (mapDie s d f).tlb = s.tlb := rfl
@[simp] theorem mapDie_grants (s : State) (d : Nat) (f : Die → Die) : (mapDie s d f).grants = s.grants := rfl
@[simp] theorem mapDie_gcorrected (s : State) (d : Nat) (f : Die → Die) : (mapDie s d f).gcorrected = s.gcorrected := rfl
@[simp] theorem mapDie_heat (s : State) (d : Nat) (f : Die → Die) : (mapDie s d f).heat = s.heat := rfl
@[simp] theorem mapDie_queues (s : State) (d : Nat) (f : Die → Die) : (mapDie s d f).queues = s.queues := rfl
@[simp] theorem mapDie_launches (s : State) (d : Nat) (f : Die → Die) : (mapDie s d f).launches = s.launches := rfl
@[simp] theorem mapDie_lastServed (s : State) (d : Nat) (f : Die → Die) : (mapDie s d f).lastServed = s.lastServed := rfl
@[simp] theorem mapDie_host (s : State) (d : Nat) (f : Die → Die) : (mapDie s d f).host = s.host := rfl
@[simp] theorem mapDie_releases (s : State) (d : Nat) (f : Die → Die) : (mapDie s d f).releases = s.releases := rfl
@[simp] theorem mapDie_currentEst (s : State) (d : Nat) (f : Die → Die) : (mapDie s d f).currentEst = s.currentEst := rfl
@[simp] theorem mapDie_housekeeping (s : State) (d : Nat) (f : Die → Die) : (mapDie s d f).housekeeping = s.housekeeping := rfl
@[simp] theorem mapDie_trim (s : State) (d : Nat) (f : Die → Die) : (mapDie s d f).trim = s.trim := rfl
@[simp] theorem mapDie_boot (s : State) (d : Nat) (f : Die → Die) : (mapDie s d f).boot = s.boot := rfl
@[simp] theorem mapDie_conns (s : State) (d : Nat) (f : Die → Die) : (mapDie s d f).conns = s.conns := rfl
@[simp] theorem mapDie_linkUp (s : State) (d : Nat) (f : Die → Die) : (mapDie s d f).linkUp = s.linkUp := rfl
@[simp] theorem mapDie_hostLink (s : State) (d : Nat) (f : Die → Die) : (mapDie s d f).hostLink = s.hostLink := rfl
@[simp] theorem mapDie_phase (s : State) (d : Nat) (f : Die → Die) : (mapDie s d f).phase = s.phase := rfl
@[simp] theorem mapDie_firmware (s : State) (d : Nat) (f : Die → Die) : (mapDie s d f).firmware = s.firmware := rfl
@[simp] theorem mapDie_hostOut (s : State) (d : Nat) (f : Die → Die) : (mapDie s d f).hostOut = s.hostOut := rfl
@[simp] theorem mapDie_cur (s : State) (d : Nat) (f : Die → Die) : (mapDie s d f).cur = s.cur := rfl
@[simp] theorem mapDie_agenda (s : State) (d : Nat) (f : Die → Die) : (mapDie s d f).agenda = s.agenda := rfl
@[simp] theorem mapDie_ir (s : State) (d : Nat) (f : Die → Die) : (mapDie s d f).ir = s.ir := rfl
@[simp] theorem mapDie_nextId (s : State) (d : Nat) (f : Die → Die) : (mapDie s d f).nextId = s.nextId := rfl
@[simp] theorem mapDie_freeCtr (s : State) (d : Nat) (f : Die → Die) : (mapDie s d f).freeCtr = s.freeCtr := rfl

@[simp] theorem mapLaunch_cores (s : State) (l : Nat) (f : Launch → Launch) : (mapLaunch s l f).cores = s.cores := rfl
@[simp] theorem mapLaunch_time (s : State) (l : Nat) (f : Launch → Launch) : (mapLaunch s l f).time = s.time := rfl
@[simp] theorem mapLaunch_net (s : State) (l : Nat) (f : Launch → Launch) : (mapLaunch s l f).net = s.net := rfl
@[simp] theorem mapLaunch_gnet (s : State) (l : Nat) (f : Launch → Launch) : (mapLaunch s l f).gnet = s.gnet := rfl
@[simp] theorem mapLaunch_gmem (s : State) (l : Nat) (f : Launch → Launch) : (mapLaunch s l f).gmem = s.gmem := rfl
@[simp] theorem mapLaunch_hmem (s : State) (l : Nat) (f : Launch → Launch) : (mapLaunch s l f).hmem = s.hmem := rfl
@[simp] theorem mapLaunch_gpoison (s : State) (l : Nat) (f : Launch → Launch) : (mapLaunch s l f).gpoison = s.gpoison := rfl
@[simp] theorem mapLaunch_cache (s : State) (l : Nat) (f : Launch → Launch) : (mapLaunch s l f).cache = s.cache := rfl
@[simp] theorem mapLaunch_tlb (s : State) (l : Nat) (f : Launch → Launch) : (mapLaunch s l f).tlb = s.tlb := rfl
@[simp] theorem mapLaunch_grants (s : State) (l : Nat) (f : Launch → Launch) : (mapLaunch s l f).grants = s.grants := rfl
@[simp] theorem mapLaunch_gcorrected (s : State) (l : Nat) (f : Launch → Launch) : (mapLaunch s l f).gcorrected = s.gcorrected := rfl
@[simp] theorem mapLaunch_dies (s : State) (l : Nat) (f : Launch → Launch) : (mapLaunch s l f).dies = s.dies := rfl
@[simp] theorem mapLaunch_heat (s : State) (l : Nat) (f : Launch → Launch) : (mapLaunch s l f).heat = s.heat := rfl
@[simp] theorem mapLaunch_queues (s : State) (l : Nat) (f : Launch → Launch) : (mapLaunch s l f).queues = s.queues := rfl
@[simp] theorem mapLaunch_lastServed (s : State) (l : Nat) (f : Launch → Launch) : (mapLaunch s l f).lastServed = s.lastServed := rfl
@[simp] theorem mapLaunch_host (s : State) (l : Nat) (f : Launch → Launch) : (mapLaunch s l f).host = s.host := rfl
@[simp] theorem mapLaunch_releases (s : State) (l : Nat) (f : Launch → Launch) : (mapLaunch s l f).releases = s.releases := rfl
@[simp] theorem mapLaunch_currentEst (s : State) (l : Nat) (f : Launch → Launch) : (mapLaunch s l f).currentEst = s.currentEst := rfl
@[simp] theorem mapLaunch_housekeeping (s : State) (l : Nat) (f : Launch → Launch) : (mapLaunch s l f).housekeeping = s.housekeeping := rfl
@[simp] theorem mapLaunch_trim (s : State) (l : Nat) (f : Launch → Launch) : (mapLaunch s l f).trim = s.trim := rfl
@[simp] theorem mapLaunch_boot (s : State) (l : Nat) (f : Launch → Launch) : (mapLaunch s l f).boot = s.boot := rfl
@[simp] theorem mapLaunch_conns (s : State) (l : Nat) (f : Launch → Launch) : (mapLaunch s l f).conns = s.conns := rfl
@[simp] theorem mapLaunch_linkUp (s : State) (l : Nat) (f : Launch → Launch) : (mapLaunch s l f).linkUp = s.linkUp := rfl
@[simp] theorem mapLaunch_hostLink (s : State) (l : Nat) (f : Launch → Launch) : (mapLaunch s l f).hostLink = s.hostLink := rfl
@[simp] theorem mapLaunch_phase (s : State) (l : Nat) (f : Launch → Launch) : (mapLaunch s l f).phase = s.phase := rfl
@[simp] theorem mapLaunch_firmware (s : State) (l : Nat) (f : Launch → Launch) : (mapLaunch s l f).firmware = s.firmware := rfl
@[simp] theorem mapLaunch_hostOut (s : State) (l : Nat) (f : Launch → Launch) : (mapLaunch s l f).hostOut = s.hostOut := rfl
@[simp] theorem mapLaunch_cur (s : State) (l : Nat) (f : Launch → Launch) : (mapLaunch s l f).cur = s.cur := rfl
@[simp] theorem mapLaunch_agenda (s : State) (l : Nat) (f : Launch → Launch) : (mapLaunch s l f).agenda = s.agenda := rfl
@[simp] theorem mapLaunch_ir (s : State) (l : Nat) (f : Launch → Launch) : (mapLaunch s l f).ir = s.ir := rfl
@[simp] theorem mapLaunch_nextId (s : State) (l : Nat) (f : Launch → Launch) : (mapLaunch s l f).nextId = s.nextId := rfl
@[simp] theorem mapLaunch_freeCtr (s : State) (l : Nat) (f : Launch → Launch) : (mapLaunch s l f).freeCtr = s.freeCtr := rfl

@[simp] theorem dropMsg_cores (s : State) (id : Nat) : (dropMsg s id).cores = s.cores := rfl
@[simp] theorem dropMsg_time (s : State) (id : Nat) : (dropMsg s id).time = s.time := rfl
@[simp] theorem dropMsg_gnet (s : State) (id : Nat) : (dropMsg s id).gnet = s.gnet := rfl
@[simp] theorem dropMsg_gmem (s : State) (id : Nat) : (dropMsg s id).gmem = s.gmem := rfl
@[simp] theorem dropMsg_hmem (s : State) (id : Nat) : (dropMsg s id).hmem = s.hmem := rfl
@[simp] theorem dropMsg_gpoison (s : State) (id : Nat) : (dropMsg s id).gpoison = s.gpoison := rfl
@[simp] theorem dropMsg_cache (s : State) (id : Nat) : (dropMsg s id).cache = s.cache := rfl
@[simp] theorem dropMsg_tlb (s : State) (id : Nat) : (dropMsg s id).tlb = s.tlb := rfl
@[simp] theorem dropMsg_grants (s : State) (id : Nat) : (dropMsg s id).grants = s.grants := rfl
@[simp] theorem dropMsg_gcorrected (s : State) (id : Nat) : (dropMsg s id).gcorrected = s.gcorrected := rfl
@[simp] theorem dropMsg_dies (s : State) (id : Nat) : (dropMsg s id).dies = s.dies := rfl
@[simp] theorem dropMsg_heat (s : State) (id : Nat) : (dropMsg s id).heat = s.heat := rfl
@[simp] theorem dropMsg_queues (s : State) (id : Nat) : (dropMsg s id).queues = s.queues := rfl
@[simp] theorem dropMsg_launches (s : State) (id : Nat) : (dropMsg s id).launches = s.launches := rfl
@[simp] theorem dropMsg_lastServed (s : State) (id : Nat) : (dropMsg s id).lastServed = s.lastServed := rfl
@[simp] theorem dropMsg_host (s : State) (id : Nat) : (dropMsg s id).host = s.host := rfl
@[simp] theorem dropMsg_releases (s : State) (id : Nat) : (dropMsg s id).releases = s.releases := rfl
@[simp] theorem dropMsg_currentEst (s : State) (id : Nat) : (dropMsg s id).currentEst = s.currentEst := rfl
@[simp] theorem dropMsg_housekeeping (s : State) (id : Nat) : (dropMsg s id).housekeeping = s.housekeeping := rfl
@[simp] theorem dropMsg_trim (s : State) (id : Nat) : (dropMsg s id).trim = s.trim := rfl
@[simp] theorem dropMsg_boot (s : State) (id : Nat) : (dropMsg s id).boot = s.boot := rfl
@[simp] theorem dropMsg_conns (s : State) (id : Nat) : (dropMsg s id).conns = s.conns := rfl
@[simp] theorem dropMsg_linkUp (s : State) (id : Nat) : (dropMsg s id).linkUp = s.linkUp := rfl
@[simp] theorem dropMsg_hostLink (s : State) (id : Nat) : (dropMsg s id).hostLink = s.hostLink := rfl
@[simp] theorem dropMsg_phase (s : State) (id : Nat) : (dropMsg s id).phase = s.phase := rfl
@[simp] theorem dropMsg_firmware (s : State) (id : Nat) : (dropMsg s id).firmware = s.firmware := rfl
@[simp] theorem dropMsg_hostOut (s : State) (id : Nat) : (dropMsg s id).hostOut = s.hostOut := rfl
@[simp] theorem dropMsg_cur (s : State) (id : Nat) : (dropMsg s id).cur = s.cur := rfl
@[simp] theorem dropMsg_agenda (s : State) (id : Nat) : (dropMsg s id).agenda = s.agenda := rfl
@[simp] theorem dropMsg_ir (s : State) (id : Nat) : (dropMsg s id).ir = s.ir := rfl
@[simp] theorem dropMsg_nextId (s : State) (id : Nat) : (dropMsg s id).nextId = s.nextId := rfl
@[simp] theorem dropMsg_freeCtr (s : State) (id : Nat) : (dropMsg s id).freeCtr = s.freeCtr := rfl

@[simp] theorem holdMsg_cores (s : State) (id : Nat) : (holdMsg s id).cores = s.cores := rfl
@[simp] theorem holdMsg_time (s : State) (id : Nat) : (holdMsg s id).time = s.time := rfl
@[simp] theorem holdMsg_gnet (s : State) (id : Nat) : (holdMsg s id).gnet = s.gnet := rfl
@[simp] theorem holdMsg_gmem (s : State) (id : Nat) : (holdMsg s id).gmem = s.gmem := rfl
@[simp] theorem holdMsg_hmem (s : State) (id : Nat) : (holdMsg s id).hmem = s.hmem := rfl
@[simp] theorem holdMsg_gpoison (s : State) (id : Nat) : (holdMsg s id).gpoison = s.gpoison := rfl
@[simp] theorem holdMsg_cache (s : State) (id : Nat) : (holdMsg s id).cache = s.cache := rfl
@[simp] theorem holdMsg_tlb (s : State) (id : Nat) : (holdMsg s id).tlb = s.tlb := rfl
@[simp] theorem holdMsg_grants (s : State) (id : Nat) : (holdMsg s id).grants = s.grants := rfl
@[simp] theorem holdMsg_gcorrected (s : State) (id : Nat) : (holdMsg s id).gcorrected = s.gcorrected := rfl
@[simp] theorem holdMsg_dies (s : State) (id : Nat) : (holdMsg s id).dies = s.dies := rfl
@[simp] theorem holdMsg_heat (s : State) (id : Nat) : (holdMsg s id).heat = s.heat := rfl
@[simp] theorem holdMsg_queues (s : State) (id : Nat) : (holdMsg s id).queues = s.queues := rfl
@[simp] theorem holdMsg_launches (s : State) (id : Nat) : (holdMsg s id).launches = s.launches := rfl
@[simp] theorem holdMsg_lastServed (s : State) (id : Nat) : (holdMsg s id).lastServed = s.lastServed := rfl
@[simp] theorem holdMsg_host (s : State) (id : Nat) : (holdMsg s id).host = s.host := rfl
@[simp] theorem holdMsg_releases (s : State) (id : Nat) : (holdMsg s id).releases = s.releases := rfl
@[simp] theorem holdMsg_currentEst (s : State) (id : Nat) : (holdMsg s id).currentEst = s.currentEst := rfl
@[simp] theorem holdMsg_housekeeping (s : State) (id : Nat) : (holdMsg s id).housekeeping = s.housekeeping := rfl
@[simp] theorem holdMsg_trim (s : State) (id : Nat) : (holdMsg s id).trim = s.trim := rfl
@[simp] theorem holdMsg_boot (s : State) (id : Nat) : (holdMsg s id).boot = s.boot := rfl
@[simp] theorem holdMsg_conns (s : State) (id : Nat) : (holdMsg s id).conns = s.conns := rfl
@[simp] theorem holdMsg_linkUp (s : State) (id : Nat) : (holdMsg s id).linkUp = s.linkUp := rfl
@[simp] theorem holdMsg_hostLink (s : State) (id : Nat) : (holdMsg s id).hostLink = s.hostLink := rfl
@[simp] theorem holdMsg_phase (s : State) (id : Nat) : (holdMsg s id).phase = s.phase := rfl
@[simp] theorem holdMsg_firmware (s : State) (id : Nat) : (holdMsg s id).firmware = s.firmware := rfl
@[simp] theorem holdMsg_hostOut (s : State) (id : Nat) : (holdMsg s id).hostOut = s.hostOut := rfl
@[simp] theorem holdMsg_cur (s : State) (id : Nat) : (holdMsg s id).cur = s.cur := rfl
@[simp] theorem holdMsg_agenda (s : State) (id : Nat) : (holdMsg s id).agenda = s.agenda := rfl
@[simp] theorem holdMsg_ir (s : State) (id : Nat) : (holdMsg s id).ir = s.ir := rfl
@[simp] theorem holdMsg_nextId (s : State) (id : Nat) : (holdMsg s id).nextId = s.nextId := rfl
@[simp] theorem holdMsg_freeCtr (s : State) (id : Nat) : (holdMsg s id).freeCtr = s.freeCtr := rfl

@[simp] theorem send_cores (s : State) (src dst : Coord) (cls : Class) (u : UnitId) (n : Nat) (og : Option Origin) (w : Option (Coord × Nat)) (p : Payload) : (send s src dst cls u n og w p).cores = s.cores := rfl
@[simp] theorem send_time (s : State) (src dst : Coord) (cls : Class) (u : UnitId) (n : Nat) (og : Option Origin) (w : Option (Coord × Nat)) (p : Payload) : (send s src dst cls u n og w p).time = s.time := rfl
@[simp] theorem send_gnet (s : State) (src dst : Coord) (cls : Class) (u : UnitId) (n : Nat) (og : Option Origin) (w : Option (Coord × Nat)) (p : Payload) : (send s src dst cls u n og w p).gnet = s.gnet := rfl
@[simp] theorem send_gmem (s : State) (src dst : Coord) (cls : Class) (u : UnitId) (n : Nat) (og : Option Origin) (w : Option (Coord × Nat)) (p : Payload) : (send s src dst cls u n og w p).gmem = s.gmem := rfl
@[simp] theorem send_hmem (s : State) (src dst : Coord) (cls : Class) (u : UnitId) (n : Nat) (og : Option Origin) (w : Option (Coord × Nat)) (p : Payload) : (send s src dst cls u n og w p).hmem = s.hmem := rfl
@[simp] theorem send_gpoison (s : State) (src dst : Coord) (cls : Class) (u : UnitId) (n : Nat) (og : Option Origin) (w : Option (Coord × Nat)) (p : Payload) : (send s src dst cls u n og w p).gpoison = s.gpoison := rfl
@[simp] theorem send_cache (s : State) (src dst : Coord) (cls : Class) (u : UnitId) (n : Nat) (og : Option Origin) (w : Option (Coord × Nat)) (p : Payload) : (send s src dst cls u n og w p).cache = s.cache := rfl
@[simp] theorem send_tlb (s : State) (src dst : Coord) (cls : Class) (u : UnitId) (n : Nat) (og : Option Origin) (w : Option (Coord × Nat)) (p : Payload) : (send s src dst cls u n og w p).tlb = s.tlb := rfl
@[simp] theorem send_grants (s : State) (src dst : Coord) (cls : Class) (u : UnitId) (n : Nat) (og : Option Origin) (w : Option (Coord × Nat)) (p : Payload) : (send s src dst cls u n og w p).grants = s.grants := rfl
@[simp] theorem send_gcorrected (s : State) (src dst : Coord) (cls : Class) (u : UnitId) (n : Nat) (og : Option Origin) (w : Option (Coord × Nat)) (p : Payload) : (send s src dst cls u n og w p).gcorrected = s.gcorrected := rfl
@[simp] theorem send_dies (s : State) (src dst : Coord) (cls : Class) (u : UnitId) (n : Nat) (og : Option Origin) (w : Option (Coord × Nat)) (p : Payload) : (send s src dst cls u n og w p).dies = s.dies := rfl
@[simp] theorem send_heat (s : State) (src dst : Coord) (cls : Class) (u : UnitId) (n : Nat) (og : Option Origin) (w : Option (Coord × Nat)) (p : Payload) : (send s src dst cls u n og w p).heat = s.heat := rfl
@[simp] theorem send_queues (s : State) (src dst : Coord) (cls : Class) (u : UnitId) (n : Nat) (og : Option Origin) (w : Option (Coord × Nat)) (p : Payload) : (send s src dst cls u n og w p).queues = s.queues := rfl
@[simp] theorem send_launches (s : State) (src dst : Coord) (cls : Class) (u : UnitId) (n : Nat) (og : Option Origin) (w : Option (Coord × Nat)) (p : Payload) : (send s src dst cls u n og w p).launches = s.launches := rfl
@[simp] theorem send_lastServed (s : State) (src dst : Coord) (cls : Class) (u : UnitId) (n : Nat) (og : Option Origin) (w : Option (Coord × Nat)) (p : Payload) : (send s src dst cls u n og w p).lastServed = s.lastServed := rfl
@[simp] theorem send_host (s : State) (src dst : Coord) (cls : Class) (u : UnitId) (n : Nat) (og : Option Origin) (w : Option (Coord × Nat)) (p : Payload) : (send s src dst cls u n og w p).host = s.host := rfl
@[simp] theorem send_releases (s : State) (src dst : Coord) (cls : Class) (u : UnitId) (n : Nat) (og : Option Origin) (w : Option (Coord × Nat)) (p : Payload) : (send s src dst cls u n og w p).releases = s.releases := rfl
@[simp] theorem send_currentEst (s : State) (src dst : Coord) (cls : Class) (u : UnitId) (n : Nat) (og : Option Origin) (w : Option (Coord × Nat)) (p : Payload) : (send s src dst cls u n og w p).currentEst = s.currentEst := rfl
@[simp] theorem send_housekeeping (s : State) (src dst : Coord) (cls : Class) (u : UnitId) (n : Nat) (og : Option Origin) (w : Option (Coord × Nat)) (p : Payload) : (send s src dst cls u n og w p).housekeeping = s.housekeeping := rfl
@[simp] theorem send_trim (s : State) (src dst : Coord) (cls : Class) (u : UnitId) (n : Nat) (og : Option Origin) (w : Option (Coord × Nat)) (p : Payload) : (send s src dst cls u n og w p).trim = s.trim := rfl
@[simp] theorem send_boot (s : State) (src dst : Coord) (cls : Class) (u : UnitId) (n : Nat) (og : Option Origin) (w : Option (Coord × Nat)) (p : Payload) : (send s src dst cls u n og w p).boot = s.boot := rfl
@[simp] theorem send_conns (s : State) (src dst : Coord) (cls : Class) (u : UnitId) (n : Nat) (og : Option Origin) (w : Option (Coord × Nat)) (p : Payload) : (send s src dst cls u n og w p).conns = s.conns := rfl
@[simp] theorem send_linkUp (s : State) (src dst : Coord) (cls : Class) (u : UnitId) (n : Nat) (og : Option Origin) (w : Option (Coord × Nat)) (p : Payload) : (send s src dst cls u n og w p).linkUp = s.linkUp := rfl
@[simp] theorem send_hostLink (s : State) (src dst : Coord) (cls : Class) (u : UnitId) (n : Nat) (og : Option Origin) (w : Option (Coord × Nat)) (p : Payload) : (send s src dst cls u n og w p).hostLink = s.hostLink := rfl
@[simp] theorem send_phase (s : State) (src dst : Coord) (cls : Class) (u : UnitId) (n : Nat) (og : Option Origin) (w : Option (Coord × Nat)) (p : Payload) : (send s src dst cls u n og w p).phase = s.phase := rfl
@[simp] theorem send_firmware (s : State) (src dst : Coord) (cls : Class) (u : UnitId) (n : Nat) (og : Option Origin) (w : Option (Coord × Nat)) (p : Payload) : (send s src dst cls u n og w p).firmware = s.firmware := rfl
@[simp] theorem send_hostOut (s : State) (src dst : Coord) (cls : Class) (u : UnitId) (n : Nat) (og : Option Origin) (w : Option (Coord × Nat)) (p : Payload) : (send s src dst cls u n og w p).hostOut = s.hostOut := rfl
@[simp] theorem send_cur (s : State) (src dst : Coord) (cls : Class) (u : UnitId) (n : Nat) (og : Option Origin) (w : Option (Coord × Nat)) (p : Payload) : (send s src dst cls u n og w p).cur = s.cur := rfl
@[simp] theorem send_agenda (s : State) (src dst : Coord) (cls : Class) (u : UnitId) (n : Nat) (og : Option Origin) (w : Option (Coord × Nat)) (p : Payload) : (send s src dst cls u n og w p).agenda = s.agenda := rfl
@[simp] theorem send_ir (s : State) (src dst : Coord) (cls : Class) (u : UnitId) (n : Nat) (og : Option Origin) (w : Option (Coord × Nat)) (p : Payload) : (send s src dst cls u n og w p).ir = s.ir := rfl
@[simp] theorem send_freeCtr (s : State) (src dst : Coord) (cls : Class) (u : UnitId) (n : Nat) (og : Option Origin) (w : Option (Coord × Nat)) (p : Payload) : (send s src dst cls u n og w p).freeCtr = s.freeCtr := rfl

@[simp] theorem logFault_cores (s : State) (co src : Coord) (i : Fin 4) (w : Why) (e q : Nat) (a v : Word) : (logFault s co src i w e q a v).cores = s.cores := rfl
@[simp] theorem logFault_time (s : State) (co src : Coord) (i : Fin 4) (w : Why) (e q : Nat) (a v : Word) : (logFault s co src i w e q a v).time = s.time := rfl
@[simp] theorem logFault_net (s : State) (co src : Coord) (i : Fin 4) (w : Why) (e q : Nat) (a v : Word) : (logFault s co src i w e q a v).net = s.net := rfl
@[simp] theorem logFault_gnet (s : State) (co src : Coord) (i : Fin 4) (w : Why) (e q : Nat) (a v : Word) : (logFault s co src i w e q a v).gnet = s.gnet := rfl
@[simp] theorem logFault_gmem (s : State) (co src : Coord) (i : Fin 4) (w : Why) (e q : Nat) (a v : Word) : (logFault s co src i w e q a v).gmem = s.gmem := rfl
@[simp] theorem logFault_hmem (s : State) (co src : Coord) (i : Fin 4) (w : Why) (e q : Nat) (a v : Word) : (logFault s co src i w e q a v).hmem = s.hmem := rfl
@[simp] theorem logFault_gpoison (s : State) (co src : Coord) (i : Fin 4) (w : Why) (e q : Nat) (a v : Word) : (logFault s co src i w e q a v).gpoison = s.gpoison := rfl
@[simp] theorem logFault_cache (s : State) (co src : Coord) (i : Fin 4) (w : Why) (e q : Nat) (a v : Word) : (logFault s co src i w e q a v).cache = s.cache := rfl
@[simp] theorem logFault_tlb (s : State) (co src : Coord) (i : Fin 4) (w : Why) (e q : Nat) (a v : Word) : (logFault s co src i w e q a v).tlb = s.tlb := rfl
@[simp] theorem logFault_grants (s : State) (co src : Coord) (i : Fin 4) (w : Why) (e q : Nat) (a v : Word) : (logFault s co src i w e q a v).grants = s.grants := rfl
@[simp] theorem logFault_gcorrected (s : State) (co src : Coord) (i : Fin 4) (w : Why) (e q : Nat) (a v : Word) : (logFault s co src i w e q a v).gcorrected = s.gcorrected := rfl
@[simp] theorem logFault_heat (s : State) (co src : Coord) (i : Fin 4) (w : Why) (e q : Nat) (a v : Word) : (logFault s co src i w e q a v).heat = s.heat := rfl
@[simp] theorem logFault_queues (s : State) (co src : Coord) (i : Fin 4) (w : Why) (e q : Nat) (a v : Word) : (logFault s co src i w e q a v).queues = s.queues := rfl
@[simp] theorem logFault_launches (s : State) (co src : Coord) (i : Fin 4) (w : Why) (e q : Nat) (a v : Word) : (logFault s co src i w e q a v).launches = s.launches := rfl
@[simp] theorem logFault_lastServed (s : State) (co src : Coord) (i : Fin 4) (w : Why) (e q : Nat) (a v : Word) : (logFault s co src i w e q a v).lastServed = s.lastServed := rfl
@[simp] theorem logFault_host (s : State) (co src : Coord) (i : Fin 4) (w : Why) (e q : Nat) (a v : Word) : (logFault s co src i w e q a v).host = s.host := rfl
@[simp] theorem logFault_releases (s : State) (co src : Coord) (i : Fin 4) (w : Why) (e q : Nat) (a v : Word) : (logFault s co src i w e q a v).releases = s.releases := rfl
@[simp] theorem logFault_currentEst (s : State) (co src : Coord) (i : Fin 4) (w : Why) (e q : Nat) (a v : Word) : (logFault s co src i w e q a v).currentEst = s.currentEst := rfl
@[simp] theorem logFault_housekeeping (s : State) (co src : Coord) (i : Fin 4) (w : Why) (e q : Nat) (a v : Word) : (logFault s co src i w e q a v).housekeeping = s.housekeeping := rfl
@[simp] theorem logFault_trim (s : State) (co src : Coord) (i : Fin 4) (w : Why) (e q : Nat) (a v : Word) : (logFault s co src i w e q a v).trim = s.trim := rfl
@[simp] theorem logFault_boot (s : State) (co src : Coord) (i : Fin 4) (w : Why) (e q : Nat) (a v : Word) : (logFault s co src i w e q a v).boot = s.boot := rfl
@[simp] theorem logFault_conns (s : State) (co src : Coord) (i : Fin 4) (w : Why) (e q : Nat) (a v : Word) : (logFault s co src i w e q a v).conns = s.conns := rfl
@[simp] theorem logFault_linkUp (s : State) (co src : Coord) (i : Fin 4) (w : Why) (e q : Nat) (a v : Word) : (logFault s co src i w e q a v).linkUp = s.linkUp := rfl
@[simp] theorem logFault_hostLink (s : State) (co src : Coord) (i : Fin 4) (w : Why) (e q : Nat) (a v : Word) : (logFault s co src i w e q a v).hostLink = s.hostLink := rfl
@[simp] theorem logFault_phase (s : State) (co src : Coord) (i : Fin 4) (w : Why) (e q : Nat) (a v : Word) : (logFault s co src i w e q a v).phase = s.phase := rfl
@[simp] theorem logFault_firmware (s : State) (co src : Coord) (i : Fin 4) (w : Why) (e q : Nat) (a v : Word) : (logFault s co src i w e q a v).firmware = s.firmware := rfl
@[simp] theorem logFault_hostOut (s : State) (co src : Coord) (i : Fin 4) (w : Why) (e q : Nat) (a v : Word) : (logFault s co src i w e q a v).hostOut = s.hostOut := rfl
@[simp] theorem logFault_cur (s : State) (co src : Coord) (i : Fin 4) (w : Why) (e q : Nat) (a v : Word) : (logFault s co src i w e q a v).cur = s.cur := rfl
@[simp] theorem logFault_agenda (s : State) (co src : Coord) (i : Fin 4) (w : Why) (e q : Nat) (a v : Word) : (logFault s co src i w e q a v).agenda = s.agenda := rfl
@[simp] theorem logFault_ir (s : State) (co src : Coord) (i : Fin 4) (w : Why) (e q : Nat) (a v : Word) : (logFault s co src i w e q a v).ir = s.ir := rfl
@[simp] theorem logFault_nextId (s : State) (co src : Coord) (i : Fin 4) (w : Why) (e q : Nat) (a v : Word) : (logFault s co src i w e q a v).nextId = s.nextId := rfl
@[simp] theorem logFault_freeCtr (s : State) (co src : Coord) (i : Fin 4) (w : Why) (e q : Nat) (a v : Word) : (logFault s co src i w e q a v).freeCtr = s.freeCtr := rfl

@[simp] theorem mapThread_mem (k : Core) (u : UnitId) (f : Thread → Thread) : (mapThread k u f).mem = k.mem := rfl
@[simp] theorem mapThread_poison (k : Core) (u : UnitId) (f : Thread → Thread) : (mapThread k u f).poison = k.poison := rfl
@[simp] theorem mapThread_attr (k : Core) (u : UnitId) (f : Thread → Thread) : (mapThread k u f).attr = k.attr := rfl
@[simp] theorem mapThread_pageSel (k : Core) (u : UnitId) (f : Thread → Thread) : (mapThread k u f).pageSel = k.pageSel := rfl
@[simp] theorem mapThread_tvec (k : Core) (u : UnitId) (f : Thread → Thread) : (mapThread k u f).tvec = k.tvec := rfl
@[simp] theorem mapThread_tqbase (k : Core) (u : UnitId) (f : Thread → Thread) : (mapThread k u f).tqbase = k.tqbase := rfl
@[simp] theorem mapThread_tqcfg (k : Core) (u : UnitId) (f : Thread → Thread) : (mapThread k u f).tqcfg = k.tqcfg := rfl
@[simp] theorem mapThread_envbase (k : Core) (u : UnitId) (f : Thread → Thread) : (mapThread k u f).envbase = k.envbase := rfl
@[simp] theorem mapThread_frbase (k : Core) (u : UnitId) (f : Thread → Thread) : (mapThread k u f).frbase = k.frbase := rfl
@[simp] theorem mapThread_mbbase (k : Core) (u : UnitId) (f : Thread → Thread) : (mapThread k u f).mbbase = k.mbbase := rfl
@[simp] theorem mapThread_acfg (k : Core) (u : UnitId) (f : Thread → Thread) : (mapThread k u f).acfg = k.acfg := rfl
@[simp] theorem mapThread_clkdiv (k : Core) (u : UnitId) (f : Thread → Thread) : (mapThread k u f).clkdiv = k.clkdiv := rfl
@[simp] theorem mapThread_cycle (k : Core) (u : UnitId) (f : Thread → Thread) : (mapThread k u f).cycle = k.cycle := rfl
@[simp] theorem mapThread_slots (k : Core) (u : UnitId) (f : Thread → Thread) : (mapThread k u f).slots = k.slots := rfl
@[simp] theorem mapThread_ibex (k : Core) (u : UnitId) (f : Thread → Thread) : (mapThread k u f).ibex = k.ibex := rfl
@[simp] theorem mapThread_home (k : Core) (u : UnitId) (f : Thread → Thread) : (mapThread k u f).home = k.home := rfl
@[simp] theorem mapThread_nextEntry (k : Core) (u : UnitId) (f : Thread → Thread) : (mapThread k u f).nextEntry = k.nextEntry := rfl
@[simp] theorem mapThread_maxRetired (k : Core) (u : UnitId) (f : Thread → Thread) : (mapThread k u f).maxRetired = k.maxRetired := rfl
@[simp] theorem mapThread_advert (k : Core) (u : UnitId) (f : Thread → Thread) : (mapThread k u f).advert = k.advert := rfl
@[simp] theorem mapThread_envAllot (k : Core) (u : UnitId) (f : Thread → Thread) : (mapThread k u f).envAllot = k.envAllot := rfl
@[simp] theorem mapThread_mb (k : Core) (u : UnitId) (f : Thread → Thread) : (mapThread k u f).mb = k.mb := rfl
@[simp] theorem mapThread_mbHead (k : Core) (u : UnitId) (f : Thread → Thread) : (mapThread k u f).mbHead = k.mbHead := rfl
@[simp] theorem mapThread_mbHeld (k : Core) (u : UnitId) (f : Thread → Thread) : (mapThread k u f).mbHeld = k.mbHeld := rfl
@[simp] theorem mapThread_score (k : Core) (u : UnitId) (f : Thread → Thread) : (mapThread k u f).score = k.score := rfl
@[simp] theorem mapThread_bankQ (k : Core) (u : UnitId) (f : Thread → Thread) : (mapThread k u f).bankQ = k.bankQ := rfl
@[simp] theorem mapThread_pAcc (k : Core) (u : UnitId) (f : Thread → Thread) : (mapThread k u f).pAcc = k.pAcc := rfl
@[simp] theorem mapThread_wAcc (k : Core) (u : UnitId) (f : Thread → Thread) : (mapThread k u f).wAcc = k.wAcc := rfl
@[simp] theorem mapThread_vAcc (k : Core) (u : UnitId) (f : Thread → Thread) : (mapThread k u f).vAcc = k.vAcc := rfl
@[simp] theorem mapThread_pDirty (k : Core) (u : UnitId) (f : Thread → Thread) : (mapThread k u f).pDirty = k.pDirty := rfl
@[simp] theorem mapThread_wDirty (k : Core) (u : UnitId) (f : Thread → Thread) : (mapThread k u f).wDirty = k.wDirty := rfl
@[simp] theorem mapThread_vDirty (k : Core) (u : UnitId) (f : Thread → Thread) : (mapThread k u f).vDirty = k.vDirty := rfl
@[simp] theorem mapThread_wStale (k : Core) (u : UnitId) (f : Thread → Thread) : (mapThread k u f).wStale = k.wStale := rfl
@[simp] theorem mapThread_vStale (k : Core) (u : UnitId) (f : Thread → Thread) : (mapThread k u f).vStale = k.vStale := rfl
@[simp] theorem mapThread_accPresent (k : Core) (u : UnitId) (f : Thread → Thread) : (mapThread k u f).accPresent = k.accPresent := rfl
@[simp] theorem mapThread_engQ (k : Core) (u : UnitId) (f : Thread → Thread) : (mapThread k u f).engQ = k.engQ := rfl
@[simp] theorem mapThread_chans (k : Core) (u : UnitId) (f : Thread → Thread) : (mapThread k u f).chans = k.chans := rfl
@[simp] theorem mapThread_launch (k : Core) (u : UnitId) (f : Thread → Thread) : (mapThread k u f).launch = k.launch := rfl
@[simp] theorem mapThread_role (k : Core) (u : UnitId) (f : Thread → Thread) : (mapThread k u f).role = k.role := rfl
@[simp] theorem mapThread_members (k : Core) (u : UnitId) (f : Thread → Thread) : (mapThread k u f).members = k.members := rfl
@[simp] theorem mapThread_power (k : Core) (u : UnitId) (f : Thread → Thread) : (mapThread k u f).power = k.power := rfl
@[simp] theorem mapThread_drowsyAsked (k : Core) (u : UnitId) (f : Thread → Thread) : (mapThread k u f).drowsyAsked = k.drowsyAsked := rfl
@[simp] theorem mapThread_corrected (k : Core) (u : UnitId) (f : Thread → Thread) : (mapThread k u f).corrected = k.corrected := rfl
@[simp] theorem mapThread_flawed (k : Core) (u : UnitId) (f : Thread → Thread) : (mapThread k u f).flawed = k.flawed := rfl
@[simp] theorem mapThread_held (k : Core) (u : UnitId) (f : Thread → Thread) : (mapThread k u f).held = k.held := rfl
@[simp] theorem mapThread_lastExec (k : Core) (u : UnitId) (f : Thread → Thread) : (mapThread k u f).lastExec = k.lastExec := rfl
@[simp] theorem mapThread_lastAcc (k : Core) (u : UnitId) (f : Thread → Thread) : (mapThread k u f).lastAcc = k.lastAcc := rfl
@[simp] theorem mapThread_answers (k : Core) (u : UnitId) (f : Thread → Thread) : (mapThread k u f).answers = k.answers := rfl

@[simp] theorem mapSlot_mem (k : Core) (i : Fin 4) (f : Slot → Slot) : (mapSlot k i f).mem = k.mem := rfl
@[simp] theorem mapSlot_poison (k : Core) (i : Fin 4) (f : Slot → Slot) : (mapSlot k i f).poison = k.poison := rfl
@[simp] theorem mapSlot_attr (k : Core) (i : Fin 4) (f : Slot → Slot) : (mapSlot k i f).attr = k.attr := rfl
@[simp] theorem mapSlot_pageSel (k : Core) (i : Fin 4) (f : Slot → Slot) : (mapSlot k i f).pageSel = k.pageSel := rfl
@[simp] theorem mapSlot_tvec (k : Core) (i : Fin 4) (f : Slot → Slot) : (mapSlot k i f).tvec = k.tvec := rfl
@[simp] theorem mapSlot_tqbase (k : Core) (i : Fin 4) (f : Slot → Slot) : (mapSlot k i f).tqbase = k.tqbase := rfl
@[simp] theorem mapSlot_tqcfg (k : Core) (i : Fin 4) (f : Slot → Slot) : (mapSlot k i f).tqcfg = k.tqcfg := rfl
@[simp] theorem mapSlot_envbase (k : Core) (i : Fin 4) (f : Slot → Slot) : (mapSlot k i f).envbase = k.envbase := rfl
@[simp] theorem mapSlot_frbase (k : Core) (i : Fin 4) (f : Slot → Slot) : (mapSlot k i f).frbase = k.frbase := rfl
@[simp] theorem mapSlot_mbbase (k : Core) (i : Fin 4) (f : Slot → Slot) : (mapSlot k i f).mbbase = k.mbbase := rfl
@[simp] theorem mapSlot_acfg (k : Core) (i : Fin 4) (f : Slot → Slot) : (mapSlot k i f).acfg = k.acfg := rfl
@[simp] theorem mapSlot_clkdiv (k : Core) (i : Fin 4) (f : Slot → Slot) : (mapSlot k i f).clkdiv = k.clkdiv := rfl
@[simp] theorem mapSlot_cycle (k : Core) (i : Fin 4) (f : Slot → Slot) : (mapSlot k i f).cycle = k.cycle := rfl
@[simp] theorem mapSlot_threads (k : Core) (i : Fin 4) (f : Slot → Slot) : (mapSlot k i f).threads = k.threads := rfl
@[simp] theorem mapSlot_ibex (k : Core) (i : Fin 4) (f : Slot → Slot) : (mapSlot k i f).ibex = k.ibex := rfl
@[simp] theorem mapSlot_home (k : Core) (i : Fin 4) (f : Slot → Slot) : (mapSlot k i f).home = k.home := rfl
@[simp] theorem mapSlot_nextEntry (k : Core) (i : Fin 4) (f : Slot → Slot) : (mapSlot k i f).nextEntry = k.nextEntry := rfl
@[simp] theorem mapSlot_maxRetired (k : Core) (i : Fin 4) (f : Slot → Slot) : (mapSlot k i f).maxRetired = k.maxRetired := rfl
@[simp] theorem mapSlot_advert (k : Core) (i : Fin 4) (f : Slot → Slot) : (mapSlot k i f).advert = k.advert := rfl
@[simp] theorem mapSlot_envAllot (k : Core) (i : Fin 4) (f : Slot → Slot) : (mapSlot k i f).envAllot = k.envAllot := rfl
@[simp] theorem mapSlot_mb (k : Core) (i : Fin 4) (f : Slot → Slot) : (mapSlot k i f).mb = k.mb := rfl
@[simp] theorem mapSlot_mbHead (k : Core) (i : Fin 4) (f : Slot → Slot) : (mapSlot k i f).mbHead = k.mbHead := rfl
@[simp] theorem mapSlot_mbHeld (k : Core) (i : Fin 4) (f : Slot → Slot) : (mapSlot k i f).mbHeld = k.mbHeld := rfl
@[simp] theorem mapSlot_score (k : Core) (i : Fin 4) (f : Slot → Slot) : (mapSlot k i f).score = k.score := rfl
@[simp] theorem mapSlot_bankQ (k : Core) (i : Fin 4) (f : Slot → Slot) : (mapSlot k i f).bankQ = k.bankQ := rfl
@[simp] theorem mapSlot_pAcc (k : Core) (i : Fin 4) (f : Slot → Slot) : (mapSlot k i f).pAcc = k.pAcc := rfl
@[simp] theorem mapSlot_wAcc (k : Core) (i : Fin 4) (f : Slot → Slot) : (mapSlot k i f).wAcc = k.wAcc := rfl
@[simp] theorem mapSlot_vAcc (k : Core) (i : Fin 4) (f : Slot → Slot) : (mapSlot k i f).vAcc = k.vAcc := rfl
@[simp] theorem mapSlot_pDirty (k : Core) (i : Fin 4) (f : Slot → Slot) : (mapSlot k i f).pDirty = k.pDirty := rfl
@[simp] theorem mapSlot_wDirty (k : Core) (i : Fin 4) (f : Slot → Slot) : (mapSlot k i f).wDirty = k.wDirty := rfl
@[simp] theorem mapSlot_vDirty (k : Core) (i : Fin 4) (f : Slot → Slot) : (mapSlot k i f).vDirty = k.vDirty := rfl
@[simp] theorem mapSlot_wStale (k : Core) (i : Fin 4) (f : Slot → Slot) : (mapSlot k i f).wStale = k.wStale := rfl
@[simp] theorem mapSlot_vStale (k : Core) (i : Fin 4) (f : Slot → Slot) : (mapSlot k i f).vStale = k.vStale := rfl
@[simp] theorem mapSlot_accPresent (k : Core) (i : Fin 4) (f : Slot → Slot) : (mapSlot k i f).accPresent = k.accPresent := rfl
@[simp] theorem mapSlot_engQ (k : Core) (i : Fin 4) (f : Slot → Slot) : (mapSlot k i f).engQ = k.engQ := rfl
@[simp] theorem mapSlot_chans (k : Core) (i : Fin 4) (f : Slot → Slot) : (mapSlot k i f).chans = k.chans := rfl
@[simp] theorem mapSlot_launch (k : Core) (i : Fin 4) (f : Slot → Slot) : (mapSlot k i f).launch = k.launch := rfl
@[simp] theorem mapSlot_role (k : Core) (i : Fin 4) (f : Slot → Slot) : (mapSlot k i f).role = k.role := rfl
@[simp] theorem mapSlot_members (k : Core) (i : Fin 4) (f : Slot → Slot) : (mapSlot k i f).members = k.members := rfl
@[simp] theorem mapSlot_power (k : Core) (i : Fin 4) (f : Slot → Slot) : (mapSlot k i f).power = k.power := rfl
@[simp] theorem mapSlot_drowsyAsked (k : Core) (i : Fin 4) (f : Slot → Slot) : (mapSlot k i f).drowsyAsked = k.drowsyAsked := rfl
@[simp] theorem mapSlot_corrected (k : Core) (i : Fin 4) (f : Slot → Slot) : (mapSlot k i f).corrected = k.corrected := rfl
@[simp] theorem mapSlot_flawed (k : Core) (i : Fin 4) (f : Slot → Slot) : (mapSlot k i f).flawed = k.flawed := rfl
@[simp] theorem mapSlot_held (k : Core) (i : Fin 4) (f : Slot → Slot) : (mapSlot k i f).held = k.held := rfl
@[simp] theorem mapSlot_lastExec (k : Core) (i : Fin 4) (f : Slot → Slot) : (mapSlot k i f).lastExec = k.lastExec := rfl
@[simp] theorem mapSlot_lastAcc (k : Core) (i : Fin 4) (f : Slot → Slot) : (mapSlot k i f).lastAcc = k.lastAcc := rfl
@[simp] theorem mapSlot_answers (k : Core) (i : Fin 4) (f : Slot → Slot) : (mapSlot k i f).answers = k.answers := rfl

@[simp] theorem mapChan_mem (k : Core) (i : Fin 4) (f : Chan → Chan) : (mapChan k i f).mem = k.mem := rfl
@[simp] theorem mapChan_poison (k : Core) (i : Fin 4) (f : Chan → Chan) : (mapChan k i f).poison = k.poison := rfl
@[simp] theorem mapChan_attr (k : Core) (i : Fin 4) (f : Chan → Chan) : (mapChan k i f).attr = k.attr := rfl
@[simp] theorem mapChan_pageSel (k : Core) (i : Fin 4) (f : Chan → Chan) : (mapChan k i f).pageSel = k.pageSel := rfl
@[simp] theorem mapChan_tvec (k : Core) (i : Fin 4) (f : Chan → Chan) : (mapChan k i f).tvec = k.tvec := rfl
@[simp] theorem mapChan_tqbase (k : Core) (i : Fin 4) (f : Chan → Chan) : (mapChan k i f).tqbase = k.tqbase := rfl
@[simp] theorem mapChan_tqcfg (k : Core) (i : Fin 4) (f : Chan → Chan) : (mapChan k i f).tqcfg = k.tqcfg := rfl
@[simp] theorem mapChan_envbase (k : Core) (i : Fin 4) (f : Chan → Chan) : (mapChan k i f).envbase = k.envbase := rfl
@[simp] theorem mapChan_frbase (k : Core) (i : Fin 4) (f : Chan → Chan) : (mapChan k i f).frbase = k.frbase := rfl
@[simp] theorem mapChan_mbbase (k : Core) (i : Fin 4) (f : Chan → Chan) : (mapChan k i f).mbbase = k.mbbase := rfl
@[simp] theorem mapChan_acfg (k : Core) (i : Fin 4) (f : Chan → Chan) : (mapChan k i f).acfg = k.acfg := rfl
@[simp] theorem mapChan_clkdiv (k : Core) (i : Fin 4) (f : Chan → Chan) : (mapChan k i f).clkdiv = k.clkdiv := rfl
@[simp] theorem mapChan_cycle (k : Core) (i : Fin 4) (f : Chan → Chan) : (mapChan k i f).cycle = k.cycle := rfl
@[simp] theorem mapChan_threads (k : Core) (i : Fin 4) (f : Chan → Chan) : (mapChan k i f).threads = k.threads := rfl
@[simp] theorem mapChan_slots (k : Core) (i : Fin 4) (f : Chan → Chan) : (mapChan k i f).slots = k.slots := rfl
@[simp] theorem mapChan_ibex (k : Core) (i : Fin 4) (f : Chan → Chan) : (mapChan k i f).ibex = k.ibex := rfl
@[simp] theorem mapChan_home (k : Core) (i : Fin 4) (f : Chan → Chan) : (mapChan k i f).home = k.home := rfl
@[simp] theorem mapChan_nextEntry (k : Core) (i : Fin 4) (f : Chan → Chan) : (mapChan k i f).nextEntry = k.nextEntry := rfl
@[simp] theorem mapChan_maxRetired (k : Core) (i : Fin 4) (f : Chan → Chan) : (mapChan k i f).maxRetired = k.maxRetired := rfl
@[simp] theorem mapChan_advert (k : Core) (i : Fin 4) (f : Chan → Chan) : (mapChan k i f).advert = k.advert := rfl
@[simp] theorem mapChan_envAllot (k : Core) (i : Fin 4) (f : Chan → Chan) : (mapChan k i f).envAllot = k.envAllot := rfl
@[simp] theorem mapChan_mb (k : Core) (i : Fin 4) (f : Chan → Chan) : (mapChan k i f).mb = k.mb := rfl
@[simp] theorem mapChan_mbHead (k : Core) (i : Fin 4) (f : Chan → Chan) : (mapChan k i f).mbHead = k.mbHead := rfl
@[simp] theorem mapChan_mbHeld (k : Core) (i : Fin 4) (f : Chan → Chan) : (mapChan k i f).mbHeld = k.mbHeld := rfl
@[simp] theorem mapChan_score (k : Core) (i : Fin 4) (f : Chan → Chan) : (mapChan k i f).score = k.score := rfl
@[simp] theorem mapChan_bankQ (k : Core) (i : Fin 4) (f : Chan → Chan) : (mapChan k i f).bankQ = k.bankQ := rfl
@[simp] theorem mapChan_pAcc (k : Core) (i : Fin 4) (f : Chan → Chan) : (mapChan k i f).pAcc = k.pAcc := rfl
@[simp] theorem mapChan_wAcc (k : Core) (i : Fin 4) (f : Chan → Chan) : (mapChan k i f).wAcc = k.wAcc := rfl
@[simp] theorem mapChan_vAcc (k : Core) (i : Fin 4) (f : Chan → Chan) : (mapChan k i f).vAcc = k.vAcc := rfl
@[simp] theorem mapChan_pDirty (k : Core) (i : Fin 4) (f : Chan → Chan) : (mapChan k i f).pDirty = k.pDirty := rfl
@[simp] theorem mapChan_wDirty (k : Core) (i : Fin 4) (f : Chan → Chan) : (mapChan k i f).wDirty = k.wDirty := rfl
@[simp] theorem mapChan_vDirty (k : Core) (i : Fin 4) (f : Chan → Chan) : (mapChan k i f).vDirty = k.vDirty := rfl
@[simp] theorem mapChan_wStale (k : Core) (i : Fin 4) (f : Chan → Chan) : (mapChan k i f).wStale = k.wStale := rfl
@[simp] theorem mapChan_vStale (k : Core) (i : Fin 4) (f : Chan → Chan) : (mapChan k i f).vStale = k.vStale := rfl
@[simp] theorem mapChan_accPresent (k : Core) (i : Fin 4) (f : Chan → Chan) : (mapChan k i f).accPresent = k.accPresent := rfl
@[simp] theorem mapChan_engQ (k : Core) (i : Fin 4) (f : Chan → Chan) : (mapChan k i f).engQ = k.engQ := rfl
@[simp] theorem mapChan_launch (k : Core) (i : Fin 4) (f : Chan → Chan) : (mapChan k i f).launch = k.launch := rfl
@[simp] theorem mapChan_role (k : Core) (i : Fin 4) (f : Chan → Chan) : (mapChan k i f).role = k.role := rfl
@[simp] theorem mapChan_members (k : Core) (i : Fin 4) (f : Chan → Chan) : (mapChan k i f).members = k.members := rfl
@[simp] theorem mapChan_power (k : Core) (i : Fin 4) (f : Chan → Chan) : (mapChan k i f).power = k.power := rfl
@[simp] theorem mapChan_drowsyAsked (k : Core) (i : Fin 4) (f : Chan → Chan) : (mapChan k i f).drowsyAsked = k.drowsyAsked := rfl
@[simp] theorem mapChan_corrected (k : Core) (i : Fin 4) (f : Chan → Chan) : (mapChan k i f).corrected = k.corrected := rfl
@[simp] theorem mapChan_flawed (k : Core) (i : Fin 4) (f : Chan → Chan) : (mapChan k i f).flawed = k.flawed := rfl
@[simp] theorem mapChan_held (k : Core) (i : Fin 4) (f : Chan → Chan) : (mapChan k i f).held = k.held := rfl
@[simp] theorem mapChan_lastExec (k : Core) (i : Fin 4) (f : Chan → Chan) : (mapChan k i f).lastExec = k.lastExec := rfl
@[simp] theorem mapChan_lastAcc (k : Core) (i : Fin 4) (f : Chan → Chan) : (mapChan k i f).lastAcc = k.lastAcc := rfl
@[simp] theorem mapChan_answers (k : Core) (i : Fin 4) (f : Chan → Chan) : (mapChan k i f).answers = k.answers := rfl

@[simp] theorem mapIbex_mem (k : Core) (i : Fin 2) (f : Ibex → Ibex) : (mapIbex k i f).mem = k.mem := rfl
@[simp] theorem mapIbex_poison (k : Core) (i : Fin 2) (f : Ibex → Ibex) : (mapIbex k i f).poison = k.poison := rfl
@[simp] theorem mapIbex_attr (k : Core) (i : Fin 2) (f : Ibex → Ibex) : (mapIbex k i f).attr = k.attr := rfl
@[simp] theorem mapIbex_pageSel (k : Core) (i : Fin 2) (f : Ibex → Ibex) : (mapIbex k i f).pageSel = k.pageSel := rfl
@[simp] theorem mapIbex_tvec (k : Core) (i : Fin 2) (f : Ibex → Ibex) : (mapIbex k i f).tvec = k.tvec := rfl
@[simp] theorem mapIbex_tqbase (k : Core) (i : Fin 2) (f : Ibex → Ibex) : (mapIbex k i f).tqbase = k.tqbase := rfl
@[simp] theorem mapIbex_tqcfg (k : Core) (i : Fin 2) (f : Ibex → Ibex) : (mapIbex k i f).tqcfg = k.tqcfg := rfl
@[simp] theorem mapIbex_envbase (k : Core) (i : Fin 2) (f : Ibex → Ibex) : (mapIbex k i f).envbase = k.envbase := rfl
@[simp] theorem mapIbex_frbase (k : Core) (i : Fin 2) (f : Ibex → Ibex) : (mapIbex k i f).frbase = k.frbase := rfl
@[simp] theorem mapIbex_mbbase (k : Core) (i : Fin 2) (f : Ibex → Ibex) : (mapIbex k i f).mbbase = k.mbbase := rfl
@[simp] theorem mapIbex_acfg (k : Core) (i : Fin 2) (f : Ibex → Ibex) : (mapIbex k i f).acfg = k.acfg := rfl
@[simp] theorem mapIbex_clkdiv (k : Core) (i : Fin 2) (f : Ibex → Ibex) : (mapIbex k i f).clkdiv = k.clkdiv := rfl
@[simp] theorem mapIbex_cycle (k : Core) (i : Fin 2) (f : Ibex → Ibex) : (mapIbex k i f).cycle = k.cycle := rfl
@[simp] theorem mapIbex_threads (k : Core) (i : Fin 2) (f : Ibex → Ibex) : (mapIbex k i f).threads = k.threads := rfl
@[simp] theorem mapIbex_slots (k : Core) (i : Fin 2) (f : Ibex → Ibex) : (mapIbex k i f).slots = k.slots := rfl
@[simp] theorem mapIbex_home (k : Core) (i : Fin 2) (f : Ibex → Ibex) : (mapIbex k i f).home = k.home := rfl
@[simp] theorem mapIbex_nextEntry (k : Core) (i : Fin 2) (f : Ibex → Ibex) : (mapIbex k i f).nextEntry = k.nextEntry := rfl
@[simp] theorem mapIbex_maxRetired (k : Core) (i : Fin 2) (f : Ibex → Ibex) : (mapIbex k i f).maxRetired = k.maxRetired := rfl
@[simp] theorem mapIbex_advert (k : Core) (i : Fin 2) (f : Ibex → Ibex) : (mapIbex k i f).advert = k.advert := rfl
@[simp] theorem mapIbex_envAllot (k : Core) (i : Fin 2) (f : Ibex → Ibex) : (mapIbex k i f).envAllot = k.envAllot := rfl
@[simp] theorem mapIbex_mb (k : Core) (i : Fin 2) (f : Ibex → Ibex) : (mapIbex k i f).mb = k.mb := rfl
@[simp] theorem mapIbex_mbHead (k : Core) (i : Fin 2) (f : Ibex → Ibex) : (mapIbex k i f).mbHead = k.mbHead := rfl
@[simp] theorem mapIbex_mbHeld (k : Core) (i : Fin 2) (f : Ibex → Ibex) : (mapIbex k i f).mbHeld = k.mbHeld := rfl
@[simp] theorem mapIbex_score (k : Core) (i : Fin 2) (f : Ibex → Ibex) : (mapIbex k i f).score = k.score := rfl
@[simp] theorem mapIbex_bankQ (k : Core) (i : Fin 2) (f : Ibex → Ibex) : (mapIbex k i f).bankQ = k.bankQ := rfl
@[simp] theorem mapIbex_pAcc (k : Core) (i : Fin 2) (f : Ibex → Ibex) : (mapIbex k i f).pAcc = k.pAcc := rfl
@[simp] theorem mapIbex_wAcc (k : Core) (i : Fin 2) (f : Ibex → Ibex) : (mapIbex k i f).wAcc = k.wAcc := rfl
@[simp] theorem mapIbex_vAcc (k : Core) (i : Fin 2) (f : Ibex → Ibex) : (mapIbex k i f).vAcc = k.vAcc := rfl
@[simp] theorem mapIbex_pDirty (k : Core) (i : Fin 2) (f : Ibex → Ibex) : (mapIbex k i f).pDirty = k.pDirty := rfl
@[simp] theorem mapIbex_wDirty (k : Core) (i : Fin 2) (f : Ibex → Ibex) : (mapIbex k i f).wDirty = k.wDirty := rfl
@[simp] theorem mapIbex_vDirty (k : Core) (i : Fin 2) (f : Ibex → Ibex) : (mapIbex k i f).vDirty = k.vDirty := rfl
@[simp] theorem mapIbex_wStale (k : Core) (i : Fin 2) (f : Ibex → Ibex) : (mapIbex k i f).wStale = k.wStale := rfl
@[simp] theorem mapIbex_vStale (k : Core) (i : Fin 2) (f : Ibex → Ibex) : (mapIbex k i f).vStale = k.vStale := rfl
@[simp] theorem mapIbex_accPresent (k : Core) (i : Fin 2) (f : Ibex → Ibex) : (mapIbex k i f).accPresent = k.accPresent := rfl
@[simp] theorem mapIbex_engQ (k : Core) (i : Fin 2) (f : Ibex → Ibex) : (mapIbex k i f).engQ = k.engQ := rfl
@[simp] theorem mapIbex_chans (k : Core) (i : Fin 2) (f : Ibex → Ibex) : (mapIbex k i f).chans = k.chans := rfl
@[simp] theorem mapIbex_launch (k : Core) (i : Fin 2) (f : Ibex → Ibex) : (mapIbex k i f).launch = k.launch := rfl
@[simp] theorem mapIbex_role (k : Core) (i : Fin 2) (f : Ibex → Ibex) : (mapIbex k i f).role = k.role := rfl
@[simp] theorem mapIbex_members (k : Core) (i : Fin 2) (f : Ibex → Ibex) : (mapIbex k i f).members = k.members := rfl
@[simp] theorem mapIbex_power (k : Core) (i : Fin 2) (f : Ibex → Ibex) : (mapIbex k i f).power = k.power := rfl
@[simp] theorem mapIbex_drowsyAsked (k : Core) (i : Fin 2) (f : Ibex → Ibex) : (mapIbex k i f).drowsyAsked = k.drowsyAsked := rfl
@[simp] theorem mapIbex_corrected (k : Core) (i : Fin 2) (f : Ibex → Ibex) : (mapIbex k i f).corrected = k.corrected := rfl
@[simp] theorem mapIbex_flawed (k : Core) (i : Fin 2) (f : Ibex → Ibex) : (mapIbex k i f).flawed = k.flawed := rfl
@[simp] theorem mapIbex_held (k : Core) (i : Fin 2) (f : Ibex → Ibex) : (mapIbex k i f).held = k.held := rfl
@[simp] theorem mapIbex_lastExec (k : Core) (i : Fin 2) (f : Ibex → Ibex) : (mapIbex k i f).lastExec = k.lastExec := rfl
@[simp] theorem mapIbex_lastAcc (k : Core) (i : Fin 2) (f : Ibex → Ibex) : (mapIbex k i f).lastAcc = k.lastAcc := rfl
@[simp] theorem mapIbex_answers (k : Core) (i : Fin 2) (f : Ibex → Ibex) : (mapIbex k i f).answers = k.answers := rfl

@[simp] theorem freeScore_mem (k : Core) (e : Engine) : (freeScore k e).mem = k.mem := rfl
@[simp] theorem freeScore_poison (k : Core) (e : Engine) : (freeScore k e).poison = k.poison := rfl
@[simp] theorem freeScore_attr (k : Core) (e : Engine) : (freeScore k e).attr = k.attr := rfl
@[simp] theorem freeScore_pageSel (k : Core) (e : Engine) : (freeScore k e).pageSel = k.pageSel := rfl
@[simp] theorem freeScore_tvec (k : Core) (e : Engine) : (freeScore k e).tvec = k.tvec := rfl
@[simp] theorem freeScore_tqbase (k : Core) (e : Engine) : (freeScore k e).tqbase = k.tqbase := rfl
@[simp] theorem freeScore_tqcfg (k : Core) (e : Engine) : (freeScore k e).tqcfg = k.tqcfg := rfl
@[simp] theorem freeScore_envbase (k : Core) (e : Engine) : (freeScore k e).envbase = k.envbase := rfl
@[simp] theorem freeScore_frbase (k : Core) (e : Engine) : (freeScore k e).frbase = k.frbase := rfl
@[simp] theorem freeScore_mbbase (k : Core) (e : Engine) : (freeScore k e).mbbase = k.mbbase := rfl
@[simp] theorem freeScore_acfg (k : Core) (e : Engine) : (freeScore k e).acfg = k.acfg := rfl
@[simp] theorem freeScore_clkdiv (k : Core) (e : Engine) : (freeScore k e).clkdiv = k.clkdiv := rfl
@[simp] theorem freeScore_cycle (k : Core) (e : Engine) : (freeScore k e).cycle = k.cycle := rfl
@[simp] theorem freeScore_threads (k : Core) (e : Engine) : (freeScore k e).threads = k.threads := rfl
@[simp] theorem freeScore_slots (k : Core) (e : Engine) : (freeScore k e).slots = k.slots := rfl
@[simp] theorem freeScore_ibex (k : Core) (e : Engine) : (freeScore k e).ibex = k.ibex := rfl
@[simp] theorem freeScore_home (k : Core) (e : Engine) : (freeScore k e).home = k.home := rfl
@[simp] theorem freeScore_nextEntry (k : Core) (e : Engine) : (freeScore k e).nextEntry = k.nextEntry := rfl
@[simp] theorem freeScore_maxRetired (k : Core) (e : Engine) : (freeScore k e).maxRetired = k.maxRetired := rfl
@[simp] theorem freeScore_advert (k : Core) (e : Engine) : (freeScore k e).advert = k.advert := rfl
@[simp] theorem freeScore_envAllot (k : Core) (e : Engine) : (freeScore k e).envAllot = k.envAllot := rfl
@[simp] theorem freeScore_mb (k : Core) (e : Engine) : (freeScore k e).mb = k.mb := rfl
@[simp] theorem freeScore_mbHead (k : Core) (e : Engine) : (freeScore k e).mbHead = k.mbHead := rfl
@[simp] theorem freeScore_mbHeld (k : Core) (e : Engine) : (freeScore k e).mbHeld = k.mbHeld := rfl
@[simp] theorem freeScore_bankQ (k : Core) (e : Engine) : (freeScore k e).bankQ = k.bankQ := rfl
@[simp] theorem freeScore_pAcc (k : Core) (e : Engine) : (freeScore k e).pAcc = k.pAcc := rfl
@[simp] theorem freeScore_wAcc (k : Core) (e : Engine) : (freeScore k e).wAcc = k.wAcc := rfl
@[simp] theorem freeScore_vAcc (k : Core) (e : Engine) : (freeScore k e).vAcc = k.vAcc := rfl
@[simp] theorem freeScore_pDirty (k : Core) (e : Engine) : (freeScore k e).pDirty = k.pDirty := rfl
@[simp] theorem freeScore_wDirty (k : Core) (e : Engine) : (freeScore k e).wDirty = k.wDirty := rfl
@[simp] theorem freeScore_vDirty (k : Core) (e : Engine) : (freeScore k e).vDirty = k.vDirty := rfl
@[simp] theorem freeScore_wStale (k : Core) (e : Engine) : (freeScore k e).wStale = k.wStale := rfl
@[simp] theorem freeScore_vStale (k : Core) (e : Engine) : (freeScore k e).vStale = k.vStale := rfl
@[simp] theorem freeScore_accPresent (k : Core) (e : Engine) : (freeScore k e).accPresent = k.accPresent := rfl
@[simp] theorem freeScore_engQ (k : Core) (e : Engine) : (freeScore k e).engQ = k.engQ := rfl
@[simp] theorem freeScore_chans (k : Core) (e : Engine) : (freeScore k e).chans = k.chans := rfl
@[simp] theorem freeScore_launch (k : Core) (e : Engine) : (freeScore k e).launch = k.launch := rfl
@[simp] theorem freeScore_role (k : Core) (e : Engine) : (freeScore k e).role = k.role := rfl
@[simp] theorem freeScore_members (k : Core) (e : Engine) : (freeScore k e).members = k.members := rfl
@[simp] theorem freeScore_power (k : Core) (e : Engine) : (freeScore k e).power = k.power := rfl
@[simp] theorem freeScore_drowsyAsked (k : Core) (e : Engine) : (freeScore k e).drowsyAsked = k.drowsyAsked := rfl
@[simp] theorem freeScore_corrected (k : Core) (e : Engine) : (freeScore k e).corrected = k.corrected := rfl
@[simp] theorem freeScore_flawed (k : Core) (e : Engine) : (freeScore k e).flawed = k.flawed := rfl
@[simp] theorem freeScore_held (k : Core) (e : Engine) : (freeScore k e).held = k.held := rfl
@[simp] theorem freeScore_lastExec (k : Core) (e : Engine) : (freeScore k e).lastExec = k.lastExec := rfl
@[simp] theorem freeScore_lastAcc (k : Core) (e : Engine) : (freeScore k e).lastAcc = k.lastAcc := rfl
@[simp] theorem freeScore_answers (k : Core) (e : Engine) : (freeScore k e).answers = k.answers := rfl

/-- The unit of a place among a core's threads. -/
def idxUnit (n : Fin 10) : UnitId :=
  if n.val < 8 then .stream (Fin.ofNat 4 (n.val / 2)) (if n.val % 2 = 0 then .exec else .acc) else .ibex (Fin.ofNat 2 (n.val - 8))
theorem idxUnit_unitIdx : ∀ u : UnitId, idxUnit (unitIdx u) = u
  | .stream 0 .exec => rfl | .stream 0 .acc => rfl | .stream 1 .exec => rfl | .stream 1 .acc => rfl
  | .stream 2 .exec => rfl | .stream 2 .acc => rfl | .stream 3 .exec => rfl | .stream 3 .acc => rfl
  | .ibex 0 => rfl | .ibex 1 => rfl
theorem unitIdx_inj (u v : UnitId) (h : unitIdx u = unitIdx v) : u = v := by
  rw [← idxUnit_unitIdx u, h, idxUnit_unitIdx]
@[simp] theorem threadAt_mapThread (k : Core) (u : UnitId) (f : Thread → Thread) : threadAt (mapThread k u f) u = f (threadAt k u) := by
  simp [threadAt, mapThread]
theorem threadAt_mapThread_ne (k : Core) {u v : UnitId} (f : Thread → Thread) (h : v ≠ u) :
    threadAt (mapThread k u f) v = threadAt k v := by
  have : unitIdx u ≠ unitIdx v := fun e => h (unitIdx_inj _ _ e).symm
  simp [threadAt, mapThread, Vector.getElem_set, Fin.ext_iff] at *
  omega
@[simp] theorem slotAt_mapSlot (k : Core) (i : Fin 4) (f : Slot → Slot) : slotAt (mapSlot k i f) i = f (slotAt k i) := by
  simp [slotAt, mapSlot]
theorem slotAt_mapSlot_ne (k : Core) {i j : Fin 4} (f : Slot → Slot) (h : j ≠ i) : slotAt (mapSlot k i f) j = slotAt k j := by
  simp [slotAt, mapSlot, Vector.getElem_set, Fin.ext_iff] at *
  omega
@[simp] theorem threadAt_mapSlot (k : Core) (i : Fin 4) (f : Slot → Slot) (u : UnitId) : threadAt (mapSlot k i f) u = threadAt k u := rfl
@[simp] theorem slotAt_mapThread (k : Core) (u : UnitId) (f : Thread → Thread) (i : Fin 4) : slotAt (mapThread k u f) i = slotAt k i := rfl
@[simp] theorem chanAt_mapChan (k : Core) (i : Fin 4) (f : Chan → Chan) : chanAt (mapChan k i f) i = f (chanAt k i) := by
  simp [chanAt, mapChan]
theorem chanAt_mapChan_ne (k : Core) {i j : Fin 4} (f : Chan → Chan) (h : j ≠ i) : chanAt (mapChan k i f) j = chanAt k j := by
  simp [chanAt, mapChan, Vector.getElem_set, Fin.ext_iff] at *
  omega
@[simp] theorem ibexAt_mapIbex (k : Core) (i : Fin 2) (f : Ibex → Ibex) : ibexAt (mapIbex k i f) i = f (ibexAt k i) := by
  simp [ibexAt, mapIbex]

end Sys2Proof.Machine
end

