-- ==== Sys2Proof/Laws/Sparse.lean ====
section
/-! SUPPORT. Laws/Sparse.lean: maps and memories held as sorted lists: a read after a write, and the canonical form (log 6). -/
namespace Sys2Proof.Machine

@[simp] theorem mapGet_mapPut {α : Type} (d : α) (k : Nat) (v : α) (m : List (Nat × α)) : mapGet d (mapPut k v m) k = v := by
  induction m with
  | nil => simp [mapPut, mapGet]
  | cons e r ih =>
    obtain ⟨j, w⟩ := e
    unfold mapPut
    split
    · simp only [mapGet, ih]; split <;> first | omega | rfl
    · split <;> simp [mapGet]
theorem mapGet_mapPut_ne {α : Type} (d : α) {k j : Nat} (v : α) (m : List (Nat × α)) (h : j ≠ k) :
    mapGet d (mapPut k v m) j = mapGet d m j := by
  induction m with
  | nil => simp [mapPut, mapGet]; omega
  | cons e r ih =>
    obtain ⟨i, w⟩ := e
    unfold mapPut
    split
    · simp only [mapGet, ih]
    · split
      · simp only [mapGet]; split <;> split <;> first | omega | rfl
      · simp only [mapGet]; split <;> first | omega | rfl
/-- Every key is above `lo`. -/
def keysAbove {α : Type} (lo : Nat) (m : List (Nat × α)) : Prop := ∀ e ∈ m, lo < e.1
theorem mapSorted_cons {α : Type} (e : Nat × α) (m : List (Nat × α)) :
    mapSorted (e :: m) = true ↔ keysAbove e.1 m ∧ mapSorted m = true := by
  induction m generalizing e with
  | nil => simp [mapSorted, keysAbove]
  | cons f r ih =>
    obtain ⟨j, v⟩ := e
    obtain ⟨k, w⟩ := f
    simp only [mapSorted, Bool.and_eq_true, decide_eq_true_eq, keysAbove, List.mem_cons, forall_eq_or_imp] at *
    constructor
    · rintro ⟨h, hs⟩
      exact ⟨⟨h, fun e he => by have := ((ih (k, w)).mp hs).1 e he; simp at this; omega⟩, hs⟩
    · rintro ⟨⟨h, _⟩, hs⟩
      exact ⟨h, hs⟩
theorem keysAbove_mapPut {α : Type} {lo k : Nat} (v : α) {m : List (Nat × α)} (h : keysAbove lo m) (hk : lo < k) :
    keysAbove lo (mapPut k v m) := by
  induction m with
  | nil => simpa [mapPut, keysAbove] using hk
  | cons e r ih =>
    obtain ⟨j, w⟩ := e
    have hr : keysAbove lo r := fun x hx => h x (List.mem_cons_of_mem _ hx)
    have hj : lo < j := h (j, w) (by simp)
    unfold mapPut
    split
    · intro x hx
      rcases List.mem_cons.mp hx with rfl | hx
      · exact hj
      · exact ih hr x hx
    · split
      · intro x hx
        rcases List.mem_cons.mp hx with rfl | hx
        · exact hk
        · exact hr x hx
      · intro x hx
        rcases List.mem_cons.mp hx with rfl | hx
        · exact hk
        · exact h x hx
theorem mapSorted_mapPut {α : Type} (k : Nat) (v : α) {m : List (Nat × α)} (h : mapSorted m = true) :
    mapSorted (mapPut k v m) = true := by
  induction m with
  | nil => simp [mapPut, mapSorted]
  | cons e r ih =>
    obtain ⟨j, w⟩ := e
    have ⟨ha, hs⟩ := (mapSorted_cons _ _).mp h
    unfold mapPut
    split
    · exact (mapSorted_cons _ _).mpr ⟨keysAbove_mapPut v ha (by simpa using ‹j < k›), ih hs⟩
    · split
      · exact (mapSorted_cons _ _).mpr ⟨fun x hx => by have := ha x hx; simp at *; omega, hs⟩
      · refine (mapSorted_cons _ _).mpr ⟨fun x hx => ?_, h⟩
        rcases List.mem_cons.mp hx with rfl | hx
        · simp; omega
        · have := ha x hx; simp at *; omega
theorem keysAbove_filter {α : Type} {lo : Nat} (p : Nat × α → Bool) {m : List (Nat × α)} (h : keysAbove lo m) :
    keysAbove lo (m.filter p) := fun e he => h e (List.mem_filter.mp he).1
theorem mapSorted_filter {α : Type} (p : Nat × α → Bool) {m : List (Nat × α)} (h : mapSorted m = true) :
    mapSorted (m.filter p) = true := by
  induction m with
  | nil => simpa using h
  | cons e r ih =>
    have ⟨ha, hs⟩ := (mapSorted_cons _ _).mp h
    rw [List.filter_cons]
    split
    · exact (mapSorted_cons _ _).mpr ⟨keysAbove_filter p ha, ih hs⟩
    · exact ih hs
theorem mapSorted_mapDel {α : Type} (k : Nat) {m : List (Nat × α)} (h : mapSorted m = true) : mapSorted (mapDel k m) = true :=
  mapSorted_filter _ h
theorem mem_mapPut {α : Type} {k : Nat} {v : α} {m : List (Nat × α)} {e : Nat × α} (h : e ∈ mapPut k v m) :
    e = (k, v) ∨ e ∈ m := by
  induction m with
  | nil => simpa [mapPut] using h
  | cons f r ih =>
    obtain ⟨j, w⟩ := f
    unfold mapPut at h
    split at h
    · rcases List.mem_cons.mp h with rfl | h
      · simp
      · rcases ih h with h | h <;> simp [h]
    · split at h
      · rcases List.mem_cons.mp h with rfl | h <;> simp_all
      · rcases List.mem_cons.mp h with rfl | h <;> simp_all
theorem mapGet_mapDel {α : Type} (d : α) {k : Nat} {m : List (Nat × α)} : mapGet d (mapDel k m) k = d := by
  induction m with
  | nil => simp [mapDel, mapGet]
  | cons e r ih =>
    obtain ⟨j, w⟩ := e
    simp only [mapDel, List.filter_cons] at *
    split <;> rename_i hh
    · simp only [mapGet, ih]; split
      · simp_all
      · rfl
    · exact ih
theorem mapGet_mapDel_ne {α : Type} (d : α) {k j : Nat} {m : List (Nat × α)} (h : j ≠ k) : mapGet d (mapDel k m) j = mapGet d m j := by
  induction m with
  | nil => simp [mapDel]
  | cons e r ih =>
    obtain ⟨i, w⟩ := e
    simp only [mapDel, List.filter_cons] at *
    split <;> rename_i hh
    · simp only [mapGet, ih]
    · simp only [mapGet, ih]; split
      · simp_all
      · rfl
theorem mapGet_mapSet {α : Type} [DecidableEq α] (d : α) (k : Nat) (v : α) (m : List (Nat × α)) : mapGet d (mapSet d k v m) k = v := by
  unfold mapSet; split
  · rw [mapGet_mapDel, ‹v = d›]
  · simp
theorem mapGet_mapSet_ne {α : Type} [DecidableEq α] (d : α) {k j : Nat} (v : α) (m : List (Nat × α)) (h : j ≠ k) :
    mapGet d (mapSet d k v m) j = mapGet d m j := by
  unfold mapSet; split
  · exact mapGet_mapDel_ne d h
  · exact mapGet_mapPut_ne d v m h

/-! ### Memory -/

/-- A byte just written reads back. -/
@[simp] theorem peek_poke (m : Memory) (a : Nat) (b : Byte) : peek (poke m a b) a = b := mapGet_mapSet 0 a b m
/-- A write of one byte leaves every other byte alone. -/
theorem peek_poke_ne (m : Memory) {a x : Nat} (b : Byte) (h : x ≠ a) : peek (poke m a b) x = peek m x := mapGet_mapSet_ne 0 b m h
/-- Writing bytes: those of the range are the new ones, all others stay. -/
theorem peek_pokes (m : Memory) (a : Nat) (bs : List Byte) (x : Nat) :
    peek (pokes m a bs) x = if a ≤ x ∧ x < a + bs.length then bs.getD (x - a) 0 else peek m x := by
  induction bs generalizing m a with
  | nil => simp only [pokes, List.length_nil]; rw [if_neg (by omega)]
  | cons b r ih =>
    rw [pokes, ih]
    by_cases hx : x = a
    · subst hx; rw [if_neg (by omega), if_pos (by simp), peek_poke]; simp
    · by_cases hr : a + 1 ≤ x ∧ x < a + 1 + r.length
      · have h1 : a ≤ x ∧ x < a + (b :: r).length := by simp; omega
        have : x - a = (x - (a + 1)) + 1 := by omega
        rw [if_pos hr, if_pos h1, this, List.getD_cons_succ]
      · have h1 : ¬(a ≤ x ∧ x < a + (b :: r).length) := by simp; omega
        rw [if_neg hr, if_neg h1, peek_poke_ne m b hx]
theorem wf_iff (m : Memory) : m.wf = true ↔ mapSorted m = true ∧ ∀ e ∈ m, e.2 ≠ 0 := by simp [Memory.wf]
/-- The canonical form is kept by a write of one byte. -/
theorem wf_poke {m : Memory} (h : m.wf = true) (a : Nat) (b : Byte) : (poke m a b).wf = true := by
  rw [wf_iff] at *
  unfold poke mapSet
  split
  · exact ⟨mapSorted_mapDel _ h.1, fun e he => h.2 e (List.mem_filter.mp he).1⟩
  · refine ⟨mapSorted_mapPut _ _ h.1, fun e he => ?_⟩
    rcases mem_mapPut he with rfl | he
    · exact ‹¬b = 0›
    · exact h.2 e he
/-- The canonical form is kept by a write of bytes. -/
theorem wf_pokes {m : Memory} (h : m.wf = true) (a : Nat) (bs : List Byte) : (pokes m a bs).wf = true := by
  induction bs generalizing m a with
  | nil => exact h
  | cons b r ih => exact ih (wf_poke h a b) (a + 1)
theorem wf_nil : Memory.wf [] = true := rfl
@[simp] theorem peeks_length (m : Memory) (a n : Nat) : (peeks m a n).length = n := by
  induction n generalizing a with
  | zero => rfl
  | succ n ih => simp [peeks, ih]
@[simp] theorem leBytes_length (n v : Nat) : (leBytes n v).length = n := by
  induction n generalizing v with
  | zero => rfl
  | succ n ih => simp [leBytes, ih]

/-! ### Cores -/

@[simp] theorem coreAt_setCore (s : State) (c : Coord) (k : Core) : coreAt (setCore s c k) c = k := by simp [coreAt, setCore]
theorem coreAt_setCore_ne (s : State) {c d : Coord} (k : Core) (h : d ≠ c) : coreAt (setCore s c k) d = coreAt s d := by
  have : d.toNat ≠ c.toNat := fun e => h (BitVec.eq_of_toNat_eq e)
  simp [coreAt, setCore, mapGet_mapPut_ne _ _ _ this]
@[simp] theorem coreAt_mapCore (s : State) (c : Coord) (f : Core → Core) : coreAt (mapCore s c f) c = f (coreAt s c) := by
  simp [mapCore]
theorem coreAt_mapCore_ne (s : State) {c d : Coord} (f : Core → Core) (h : d ≠ c) : coreAt (mapCore s c f) d = coreAt s d :=
  coreAt_setCore_ne s _ h
theorem dieAt_mapDie (s : State) (d : Nat) (f : Die → Die) : dieAt (mapDie s d f) d = f (dieAt s d) := by simp [dieAt, mapDie]

end Sys2Proof.Machine
end

