-- ==== Sys2Proof/Laws/Instr.lean ====
section
/-! SUPPORT. Laws/Instr.lean: what the operations that every instruction shares can do: the monad of an instruction, its
checks, its operands and results, and the outcomes of `instr`. -/
namespace Sys2Proof.Machine
open Sys2Proof.Claim

/-! ### The monad -/

@[simp] theorem pure_run {α : Type} (a : α) (s : State) : (pure a : M α) s = .ok (a, s) := rfl
@[simp] theorem stop_run {α : Type} (e : Stop) (s : State) : (stop e : M α) s = .error e := rfl
@[simp] theorem stall_run {α : Type} (s : State) : (stall : M α) s = .error (.stall false) := rfl
@[simp] theorem getCore_run (s : State) : getCore s = .ok (here s, s) := rfl
@[simp] theorem getThread_run (s : State) : getThread s = .ok (threadOf s, s) := rfl
@[simp] theorem getSlot_run (s : State) : getSlot s = .ok (slotOf s, s) := rfl
@[simp] theorem get_run (s : State) : (get : M State) s = .ok (s, s) := rfl
@[simp] theorem modCore_run (f : Core → Core) (s : State) : modCore f s = .ok ((), mapCore s s.cur.core f) := rfl
@[simp] theorem modThread_run (f : Thread → Thread) (s : State) :
    modThread f s = .ok ((), mapCore s s.cur.core fun k => mapThread k s.cur.unit f) := rfl
@[simp] theorem modSlot_run (f : Slot → Slot) (s : State) : modSlot f s = .ok ((), changeSlot s f) := rfl
@[simp] theorem trapA_run {α : Type} (c sub : Nat) (a : Word) (s : State) :
    (trapA c sub a : M α) s = .error (.trap (why c sub) a none) := rfl
@[simp] theorem trapD_run {α : Type} (c sub : Nat) (s : State) :
    (trapD c sub : M α) s = .error (.trap (why c sub) (baseAddr s) none) := rfl

/-- A sequence completes where both parts do, the second from where the first left. -/
theorem bind_ok {α β : Type} (x : M α) (f : α → M β) (s : State) (r : β × State) :
    (x >>= f) s = .ok r ↔ ∃ a s1, x s = .ok (a, s1) ∧ f a s1 = .ok r := by
  show Except.bind (x s) (fun p => f p.1 p.2) = .ok r ↔ _
  rcases x s with e | ⟨a, s1⟩ <;> simp [Except.bind]
/-- A sequence stops where its first part stops, or its second does from where the first left. -/
theorem bind_error {α β : Type} (x : M α) (f : α → M β) (s : State) (e : Stop) :
    (x >>= f) s = .error e ↔ x s = .error e ∨ ∃ a s1, x s = .ok (a, s1) ∧ f a s1 = .error e := by
  show Except.bind (x s) (fun p => f p.1 p.2) = .error e ↔ _
  rcases x s with e' | ⟨a, s1⟩ <;> simp [Except.bind]
/-- Run a sequence whose first part completes. -/
theorem bind_run {α β : Type} {x : M α} {f : α → M β} {s : State} {a : α} {s1 : State} (h : x s = .ok (a, s1)) :
    (x >>= f) s = f a s1 := by
  show (x s >>= fun p => f p.1 p.2) = _
  rw [h]; rfl
theorem map_ok {α β : Type} (f : α → β) (x : M α) (s : State) (r : β × State) :
    (f <$> x) s = .ok r ↔ ∃ a s1, x s = .ok (a, s1) ∧ (f a, s1) = r := by
  rw [map_eq_pure_bind, bind_ok]; simp

theorem stallIf_run (b : Bool) (s : State) : stallIf b s = if b then .error (.stall false) else .ok ((), s) := by
  cases b <;> rfl
theorem stallIf_ok (b : Bool) (s : State) (r : Unit × State) : stallIf b s = .ok r ↔ b = false ∧ r = ((), s) := by
  cases b <;> simp [stallIf_run, eq_comm]
theorem guardA_run (ok : Bool) (c sub : Nat) (a : Word) (s : State) :
    guardA ok c sub a s = if ok then .ok ((), s) else .error (.trap (why c sub) a none) := by cases ok <;> rfl
theorem guardA_ok (ok : Bool) (c sub : Nat) (a : Word) (s : State) (r : Unit × State) :
    guardA ok c sub a s = .ok r ↔ ok = true ∧ r = ((), s) := by cases ok <;> simp [guardA_run, eq_comm]
theorem guardD_run (ok : Bool) (c sub : Nat) (s : State) :
    guardD ok c sub s = if ok then .ok ((), s) else .error (.trap (why c sub) (baseAddr s) none) := by cases ok <;> rfl
theorem guardD_ok (ok : Bool) (c sub : Nat) (s : State) (r : Unit × State) :
    guardD ok c sub s = .ok r ↔ ok = true ∧ r = ((), s) := by cases ok <;> simp [guardD_run, eq_comm]

/-! ### The outcomes of an instruction -/

/-- A stop claims nothing, but for a request and a copy that keeps its record. -/
@[simp] theorem claim_stall (rt : Bool) (u : List Use) : (Stop.stall rt).claim u = .stall rt := rfl
@[simp] theorem claim_trap (w : Why) (a : Word) (f : Option Word) (u : List Use) : (Stop.trap w a f).claim u = .trap w a f := rfl
@[simp] theorem claim_soft (w : Why) (u : List Use) : (Stop.soft w).claim u = .soft w := rfl
@[simp] theorem claim_entry (u : List Use) : Stop.entry.claim u = .entry := rfl
@[simp] theorem claim_keep (r : BitVec 512) (l : List Nat) (u : List Use) :
    (Stop.keep r l).claim u = .keep r (u.filterMap useShared) := rfl
@[simp] theorem claim_arrive (u : List Use) : Stop.arrive.claim u = .arrive := rfl
@[simp] theorem claim_commit (u : List Use) : Stop.commit.claim u = .commit := rfl
@[simp] theorem claim_issue (r : Req) (l : List Nat) (b : Option (BitVec 512)) (u : List Use) :
    (Stop.issue r l b).claim u = .issue r (u.filterMap useShared) b := rfl
/-- All that an instruction can end in: no such core, a refused check, its effect with the stream moved on, or a stop. -/
theorem instr_cases (un : Units) (priv : Bool) (uses : List Use) (body : M Next) (s : State) :
    (isCore s.cur.core = false ∧ instr un priv uses body s = .fault .noSuchCore) ∨
    (isCore s.cur.core = true ∧ ∃ w, preCheck un priv uses s = some w ∧
      instr un priv uses body s = .next (onStop s (.trap w (baseAddr s) none))) ∨
    (Passes un priv uses s ∧ ∃ n s1, body s = .ok (n, s1) ∧
      instr un priv uses body s = .next (advance s1 (pcOf s) (lenOf s) n)) ∨
    (Passes un priv uses s ∧ ∃ e, body s = .error e ∧ instr un priv uses body s = .next (onStop s (e.claim uses))) := by
  unfold instr Passes
  cases hc : isCore s.cur.core with
  | false => simp
  | true =>
    cases hp : preCheck un priv uses s with
    | some w => simp
    | none =>
      cases hb : body s with
      | error e => simp
      | ok p => exact .inr (.inr (.inl ⟨⟨rfl, rfl⟩, p.1, p.2, rfl, rfl⟩))
/-- An instruction whose checks pass and whose effect completes answers the state its effect left, the stream moved on. -/
theorem instr_ok {un : Units} {priv : Bool} {uses : List Use} {body : M Next} {s s1 : State} {n : Next}
    (h : Passes un priv uses s) (hb : body s = .ok (n, s1)) :
    instr un priv uses body s = .next (advance s1 (pcOf s) (lenOf s) n) := by
  simp [instr, h.1, h.2, hb]
theorem instr_stop {un : Units} {priv : Bool} {uses : List Use} {body : M Next} {s : State} {e : Stop}
    (h : Passes un priv uses s) (hb : body s = .error e) : instr un priv uses body s = .next (onStop s (e.claim uses)) := by
  simp [instr, h.1, h.2, hb]
theorem instr_refused {un : Units} {priv : Bool} {uses : List Use} {body : M Next} {s : State} {w : Why}
    (hc : isCore s.cur.core = true) (hp : preCheck un priv uses s = some w) :
    instr un priv uses body s = .next (onStop s (.trap w (baseAddr s) none)) := by
  simp [instr, hc, hp]
theorem event_run (f : State → State) (s : State) : event f s = .next (f s) := rfl

/-! ### The moving unit -/

@[simp] theorem here_mapCore (s : State) (f : Core → Core) : here (mapCore s s.cur.core f) = f (here s) := coreAt_mapCore s _ f
/-- The moving thread after a change to it. -/
theorem threadOf_modThread (s : State) (f : Thread → Thread) :
    threadOf (mapCore s s.cur.core fun k => mapThread k s.cur.unit f) = f (threadOf s) := by
  simp only [threadOf, mapCore_cur, coreAt_mapCore, threadAt_mapThread]

/-! ### Registers -/

@[simp] theorem regVal_zero (t : Thread) : regVal t 0 = 0 := by simp [regVal]
/-- A register written reads the value; g0 reads 0. -/
theorem regVal_regSet (t : Thread) (n : BitVec 5) (v : Word) : regVal (regSet t n v) n = if n = 0 then 0 else v := by
  unfold regVal regSet
  by_cases h : n = 0
  · simp [h]
  · have hg : (t.dead &&& ~~~((1 : BitVec 32) <<< n.toNat)).getLsbD n.toNat = false := by
      simp [BitVec.getLsbD_shiftLeft]
    simp only [if_neg h, hg, Vector.getElem_set_self, Bool.false_eq_true, or_false]
/-- A write of one register leaves the value of every other. -/
theorem regVal_regSet_ne (t : Thread) {n m : BitVec 5} (v : Word) (h : m ≠ n) : regVal (regSet t n v) m = regVal t m := by
  have hn : n.toNat ≠ m.toNat := fun e => h (BitVec.eq_of_toNat_eq e).symm
  have hs : ¬(m.toNat - n.toNat = 0 ∧ n.toNat ≤ m.toNat) := by omega
  unfold regSet
  split
  · rfl
  · unfold regVal
    have hg : ((1 : BitVec 32) <<< n.toNat).getLsbD m.toNat = false := by
      simp [BitVec.getLsbD_shiftLeft]; omega
    simp only [BitVec.getLsbD_and, BitVec.getLsbD_not, hg, Vector.getElem_set_ne _ _ hn]
    simp [m.isLt]
theorem readReg_ok {n : BitVec 5} {s : State} (h : locked (threadOf s) n = false) :
    readReg n s = .ok (regVal (threadOf s) n, s) := by
  show (if locked (threadOf s) n then stall else pure (regVal (threadOf s) n) : M Word) s = _
  rw [h]; rfl
theorem readReg_locked {n : BitVec 5} {s : State} (h : locked (threadOf s) n = true) : readReg n s = .error (.stall false) := by
  show (if locked (threadOf s) n then stall else pure (regVal (threadOf s) n) : M Word) s = _
  rw [h]; rfl
theorem writeReg_ok {n : BitVec 5} {v : Word} {s : State} (h : locked (threadOf s) n = false) :
    writeReg n v s = .ok ((), mapCore s s.cur.core fun k => mapThread k s.cur.unit fun t => regSet t n v) := by
  show (if locked (threadOf s) n then stall else modThread fun t => regSet t n v : M Unit) s = _
  rw [h]; rfl
theorem writeReg_locked {n : BitVec 5} {v : Word} {s : State} (h : locked (threadOf s) n = true) :
    writeReg n v s = .error (.stall false) := by
  show (if locked (threadOf s) n then stall else modThread fun t => regSet t n v : M Unit) s = _
  rw [h]; rfl
@[simp] theorem readG_reg (n : BitVec 5) : readG (.g n) = readReg n := rfl
@[simp] theorem writeG_reg (n : BitVec 5) (v : Word) : writeG (.g n) v = writeReg n v := rfl
/-- l0 and l1 are read as they stand. -/
theorem readG_l0 (s : State) : readG (.sp 0) s = .ok ((threadOf s).l0, s) := rfl
theorem readG_l1 (s : State) : readG (.sp 1) s = .ok ((threadOf s).l1, s) := rfl
/-- A result goes to its destination, and l0 and l1 move on (R43). -/
theorem writeResult_ok {a : GReg} {v : Word} {s s1 : State} (h : writeG a v s = .ok ((), s1)) :
    writeResult a v s = .ok ((), mapCore s1 s1.cur.core fun k => mapThread k s1.cur.unit fun t => { t with l1 := t.l0, l0 := v }) := by
  unfold writeResult; rw [bind_run h]; rfl
/-- Two sources and a result (R41). -/
theorem binop_ok {a b c : GReg} {f : Word → Word → Word} {s s1 s2 s3 : State} {x y : Word} (hb : readG b s = .ok (x, s1))
    (hc : readG c s1 = .ok (y, s2)) (ha : writeResult a (f x y) s2 = .ok ((), s3)) : binop a b c f s = .ok (.seq, s3) := by
  unfold binop; rw [bind_run hb, bind_run hc, bind_run ha]; rfl
theorem unop_ok {a b : GReg} {f : Word → Word} {s s1 s2 : State} {x : Word} (hb : readG b s = .ok (x, s1))
    (ha : writeResult a (f x) s1 = .ok ((), s2)) : unop a b f s = .ok (.seq, s2) := by
  unfold unop; rw [bind_run hb, bind_run ha]; rfl
/-- An operation on numbered registers, none locked: all it does. -/
theorem binop_regs {a b c : BitVec 5} {f : Word → Word → Word} {s : State} (ha : locked (threadOf s) a = false)
    (hb : locked (threadOf s) b = false) (hc : locked (threadOf s) c = false) :
    ∃ t, binop (.g a) (.g b) (.g c) f s = .ok (.seq, t) ∧ threadOf t =
      (let v := f (regVal (threadOf s) b) (regVal (threadOf s) c)
       let u := regSet (threadOf s) a v
       { u with l1 := u.l0, l0 := v }) := by
  refine ⟨_, binop_ok (readReg_ok hb) (readReg_ok hc) (writeResult_ok (writeReg_ok ha)), ?_⟩
  rw [threadOf_modThread, threadOf_modThread]
theorem unop_regs {a b : BitVec 5} {f : Word → Word} {s : State} (ha : locked (threadOf s) a = false)
    (hb : locked (threadOf s) b = false) :
    ∃ t, unop (.g a) (.g b) f s = .ok (.seq, t) ∧ threadOf t =
      (let v := f (regVal (threadOf s) b)
       let u := regSet (threadOf s) a v
       { u with l1 := u.l0, l0 := v }) := by
  refine ⟨_, unop_ok (readReg_ok hb) (writeResult_ok (writeReg_ok ha)), ?_⟩
  rw [threadOf_modThread, threadOf_modThread]
/-- Moving on sets the PC and ends what the instruction had asked for; no other field of the thread differs. -/
theorem threadOf_advance_seq (s : State) (pc : Word) (len : Nat) : threadOf (advance s pc len .seq) =
    { threadOf s with pc := pc + BitVec.ofNat 64 len, pend := (threadOf s).pend.filter fun p => p.pc != pc, rcd := none, stallRt := false,
                       stalled := false, joins := false } :=
  threadOf_modThread s _
theorem threadOf_advance_jump (s : State) (pc : Word) (len : Nat) (a : Word) : threadOf (advance s pc len (.jump a)) =
    { threadOf s with pc := a, pend := (threadOf s).pend.filter fun p => p.pc != pc, rcd := none, stallRt := false, stalled := false, joins := false } :=
  threadOf_modThread s _
@[simp] theorem advance_cur (s : State) (pc : Word) (len : Nat) (n : Next) : (advance s pc len n).cur = s.cur := by
  cases n <;> rfl

end Sys2Proof.Machine
end

