-- ==== Sys2Proof/Laws/Canonical.lean ====
section
/-! SUPPORT. Laws/Canonical.lean: the operations that every step is built from keep every memory in canonical form (log 6):
changes of a core, writes of local memory, messages, traps, and the sequencing of an instruction. -/
namespace Sys2Proof.Machine
open Sys2Proof.Claim

/-! ### Changes of the state -/

/-- A change that touches no memory, no core and no launch keeps the form. -/
theorem canonical_of_eq {s t : State} (h : Canonical s) (hc : t.cores = s.cores) (hg : t.gmem = s.gmem) (hh : t.hmem = s.hmem)
    (hl : t.launches = s.launches) : Canonical t := by
  unfold Canonical at *; rwa [hc, hg, hh, hl]
theorem canonical_nextId {s : State} (h : Canonical s) (n : Nat) : Canonical { s with nextId := n } := h
theorem canonical_net {s : State} (h : Canonical s) (n : List Msg) : Canonical { s with net := n } := h
theorem canonical_gnet {s : State} (h : Canonical s) (n : List GReq) : Canonical { s with gnet := n } := h
theorem canonical_gmem {s : State} (h : Canonical s) {m : Memory} (hm : m.wf = true) : Canonical { s with gmem := m } :=
  ⟨h.1, hm, h.2.2⟩
theorem canonical_hmem {s : State} (h : Canonical s) {m : Memory} (hm : m.wf = true) : Canonical { s with hmem := m } :=
  ⟨h.1, h.2.1, hm, h.2.2.2⟩
theorem wf_coreAt {s : State} (h : Canonical s) (c : Coord) : (coreAt s c).mem.wf = true := by
  have : ∀ m : List (Nat × Core), (∀ e ∈ m, e.2.mem.wf = true) → ∀ n, (mapGet Core.reset m n).mem.wf = true := by
    intro m
    induction m with
    | nil => intro _ n; rfl
    | cons e r ih =>
      intro hm n
      unfold mapGet
      split
      · exact hm e (by simp)
      · exact ih (fun e he => hm e (by simp [he])) n
  exact this _ h.1 _
theorem canonical_setCore {s : State} (h : Canonical s) (c : Coord) {k : Core} (hk : k.mem.wf = true) : Canonical (setCore s c k) := by
  refine ⟨?_, h.2⟩
  intro e he
  rcases mem_mapPut he with rfl | he
  · exact hk
  · exact h.1 e he
/-- A change of a core that keeps its memory's form keeps the machine's. -/
theorem canonical_mapCore {s : State} (h : Canonical s) (c : Coord) {f : Core → Core} (hf : ∀ k : Core, k.mem.wf = true → (f k).mem.wf = true) :
    Canonical (mapCore s c f) := canonical_setCore h c (hf _ (wf_coreAt h c))
/-- A change of a core that leaves its memory alone. -/
theorem canonical_mapCore_mem {s : State} (h : Canonical s) (c : Coord) {f : Core → Core} (hf : ∀ k : Core, (f k).mem = k.mem) :
    Canonical (mapCore s c f) := canonical_mapCore h c fun k hk => by rw [hf]; exact hk
theorem canonical_changeSlot {s : State} (h : Canonical s) (f : Slot → Slot) : Canonical (changeSlot s f) := by
  unfold changeSlot; split
  · exact canonical_mapCore_mem h _ fun _ => rfl
  · exact h
theorem canonical_mapDie {s : State} (h : Canonical s) (d : Nat) (f : Die → Die) : Canonical (mapDie s d f) := h
theorem mem_changeFirst {α : Type} {p : α → Bool} {f : α → α} {l : List α} {x : α} (h : x ∈ changeFirst p f l) :
    x ∈ l ∨ ∃ y ∈ l, x = f y := by
  induction l with
  | nil => simp [changeFirst] at h
  | cons y r ih =>
    unfold changeFirst at h
    split at h
    · rcases List.mem_cons.mp h with rfl | h
      · exact .inr ⟨y, by simp, rfl⟩
      · exact .inl (by simp [h])
    · rcases List.mem_cons.mp h with rfl | h
      · exact .inl (by simp)
      · rcases ih h with h | ⟨z, hz, rfl⟩
        · exact .inl (by simp [h])
        · exact .inr ⟨z, by simp [hz], rfl⟩
/-- A change of a launch that keeps what it saved. -/
theorem canonical_mapLaunch {s : State} (h : Canonical s) (l : Nat) {f : Launch → Launch} (hf : ∀ x, (f x).saved = x.saved) :
    Canonical (mapLaunch s l f) := by
  refine ⟨h.1, h.2.1, h.2.2.1, ?_⟩
  intro x hx
  rcases mem_changeFirst hx with hx | ⟨y, hy, rfl⟩
  · exact h.2.2.2 x hx
  · rw [hf]; exact h.2.2.2 y hy
theorem canonical_failLaunch {s : State} (h : Canonical s) (l : Option Nat) (w : Why) : Canonical (failLaunch s l w) := by
  unfold failLaunch; split
  · exact h
  · exact canonical_mapLaunch h _ fun _ => rfl
theorem canonical_failCore {s : State} (h : Canonical s) (c : Coord) (w : Why) : Canonical (failCore s c w) :=
  canonical_failLaunch h _ w
theorem canonical_logFault {s : State} (h : Canonical s) (c d : Coord) (i : Fin 4) (w : Why) (e q : Nat) (a b : Word) :
    Canonical (logFault s c d i w e q a b) := h
theorem canonical_send {s : State} (h : Canonical s) (a b : Coord) (cl : Machine.Class) (u : UnitId) (t : Nat) (o : Option Origin)
    (w : Option (Coord × Nat)) (p : Payload) : Canonical (send s a b cl u t o w p) := h
theorem canonical_dropMsg {s : State} (h : Canonical s) (i : Nat) : Canonical (dropMsg s i) := h
theorem canonical_holdMsg {s : State} (h : Canonical s) (i : Nat) : Canonical (holdMsg s i) := h
theorem canonical_advertNotice {s : State} (h : Canonical s) (c : Coord) : Canonical (advertNotice s c) := by
  unfold advertNotice; dsimp only; split
  · exact h
  · refine canonical_send ?_ _ _ _ _ _ _ _ _
    refine canonical_setCore h c ?_
    exact wf_coreAt h c
/-- Bytes written to a core's memory keep its form. -/
theorem wf_putBytes {k : Core} (h : k.mem.wf = true) (a : Nat) (bs : List Byte) : (putBytes k a bs).mem.wf = true := wf_pokes h a bs
/-- A home writes the record that it changes (R69). -/
theorem wf_mapRecord {k : Core} (h : k.mem.wf = true) (n : Nat) (f : Entry → Entry) : (mapRecord k n f).mem.wf = true := by
  unfold mapRecord; dsimp only; split
  · exact wf_putBytes h _ _
  · exact h
theorem wf_addEntry {k : Core} (h : k.mem.wf = true) (r : BitVec 512) (i : Option (Fin 4)) : (addEntry k r i).mem.wf = true := by
  unfold addEntry; exact wf_putBytes h _ _
/-- The mailbox writes the words appended to it (R118). -/
theorem wf_mbAppend (ws : List Word) {k : Core} (h : k.mem.wf = true) : (mbAppend k ws).mem.wf = true := by
  induction ws generalizing k with
  | nil => exact h
  | cons w r ih => unfold mbAppend; exact ih (wf_putBytes h _ _)
theorem wf_mailbox {k : Core} (h : k.mem.wf = true) (n : MbFrom) (ws : List Word) : (mailbox k n ws).mem.wf = true := by
  unfold mailbox; split
  · exact wf_mbAppend ws h
  · exact h
theorem canonical_abortTask {s : State} (h : Canonical s) (c : Coord) (n : Nat) : Canonical (abortTask s c n) := by
  unfold abortTask; split
  · split
    · dsimp only
      refine canonical_advertNotice ?_ _
      refine canonical_mapCore_mem ?_ _ fun _ => rfl
      exact canonical_mapCore h _ fun k hk => wf_mapRecord hk _ _
    · exact h
  · exact h
/-- A fold of steps that each keep the form keeps it. -/
theorem canonical_foldl {α : Type} {f : State → α → State} (hf : ∀ s a, Canonical s → Canonical (f s a)) (l : List α) {s : State}
    (h : Canonical s) : Canonical (l.foldl f s) := by
  induction l generalizing s with
  | nil => exact h
  | cons a r ih => exact ih (hf s a h)

/-! ### Local memory -/

/-- A write of local memory keeps the form, whatever it aborts. -/
theorem canonical_writeBytes {s : State} (h : Canonical s) (c : Coord) (a : Nat) (bs : List Byte) (w : Option (Coord × Nat)) :
    Canonical (writeBytes s c a bs w) := by
  unfold writeBytes; dsimp only
  refine canonical_foldl (fun s e hs => canonical_abortTask hs c e) _ ?_
  refine canonical_setCore h c ?_
  exact wf_pokes (wf_coreAt h c) a bs
theorem canonical_writeNat {s : State} (h : Canonical s) (c : Coord) (a n v : Nat) (w : Option (Coord × Nat)) :
    Canonical (writeNat s c a n v w) := canonical_writeBytes h c a _ w
/-- The stores that a unit's buffer holds take effect. -/
theorem canonical_drainStores {s : State} (h : Canonical s) (a : Agent) : Canonical (drainStores s a) := by
  unfold drainStores; dsimp only
  refine canonical_foldl (fun s e hs => canonical_writeBytes hs _ _ _ _) _ ?_
  exact canonical_mapCore_mem h _ fun _ => rfl
/-- The stores that wait at a core's units take effect, where some of a unit's are named. -/
theorem canonical_settleStores {s : State} (h : Canonical s) (c : Coord) (p : Nat × List Byte → Bool) :
    Canonical (settleStores s c p) := by
  unfold settleStores
  refine canonical_foldl (fun s u hs => ?_) _ h
  split
  · exact canonical_drainStores hs _
  · exact hs
theorem canonical_scoreAdd {s : State} (h : Canonical s) (c : Coord) (e : Score) : Canonical (scoreAdd s c e) :=
  canonical_mapCore_mem (canonical_settleStores h c _) c fun _ => rfl
theorem canonical_writeHead {s : State} (h : Canonical s) (c : Coord) (i : Nat) (e : BitVec 128) : Canonical (writeHead s c i e) :=
  canonical_writeNat h ..
theorem canonical_closureServe {s : State} (h : Canonical s) (c d : Coord) (r : Req) : Canonical (closureServe s c d r).1 := by
  cases r with
  | closureAdd k n =>
    unfold closureServe; dsimp only; repeat' split
    · exact h
    · exact h
    · exact canonical_writeHead h c _ _
  | closureDrop k =>
    unfold closureServe; dsimp only; repeat' split
    · exact h
    · exact canonical_writeBytes h c _ _ _
    · exact canonical_writeHead h c _ _
  | closureRead k n => unfold closureServe; dsimp only; (repeat' split) <;> exact h
  | closureWrite k n v =>
    unfold closureServe; dsimp only; repeat' split
    · exact h
    · exact h
    · exact h
    · exact canonical_writeNat h c _ _ _ _
  | closureApply k => unfold closureServe; dsimp only; (repeat' split) <;> exact h
  | _ => exact h
theorem canonical_dropServe {s : State} (h : Canonical s) (c : Coord) (k : Handle) (l : Option Nat) : Canonical (dropServe s c k l) := by
  unfold dropServe; dsimp only; split
  · exact canonical_failLaunch (canonical_logFault h ..) ..
  · have := canonical_closureServe h (hHome k) c (.closureDrop k)
    split
    · exact canonical_failLaunch (canonical_logFault h ..) ..
    · rename_i hs; rw [hs] at this; exact this
theorem canonical_dropHandle {s : State} (h : Canonical s) (c : Coord) (k : Handle) : Canonical (dropHandle s c k) := by
  unfold dropHandle; dsimp only; repeat' split
  · exact h
  · exact canonical_dropServe h _ _ _
  · exact h
  · exact h
theorem canonical_enqueue {s : State} (h : Canonical s) (c : Coord) (r : BitVec 512) : Canonical (enqueue s c r) := by
  unfold enqueue
  refine canonical_advertNotice ?_ _
  exact canonical_mapCore h _ fun k hk => wf_addEntry hk _ _
theorem canonical_acceptRcd {s : State} (h : Canonical s) (c : Coord) (r : BitVec 512) : Canonical (acceptRcd s c r).1 := by
  unfold acceptRcd; split
  · exact h
  · exact canonical_enqueue h _ _
theorem canonical_retire {s : State} (h : Canonical s) (c : Coord) (n : Nat) : Canonical (retire s c n) := by
  unfold retire; split
  · exact h
  · dsimp only
    refine canonical_advertNotice ?_ _
    refine canonical_dropHandle ?_ _ _
    refine canonical_dropHandle ?_ _ _
    exact canonical_mapCore_mem h _ fun _ => rfl

/-! ### Traps -/

theorem canonical_releasePend {s : State} (h : Canonical s) (a : Agent) : Canonical (releasePend s a) := by
  unfold releasePend
  refine canonical_foldl (fun s p hs => ?_) _ h
  split
  · exact canonical_dropHandle hs _ _
  · exact hs
theorem canonical_releaseSlot {s : State} (h : Canonical s) (c : Coord) (i : Fin 4) : Canonical (releaseSlot s c i) :=
  canonical_releasePend (canonical_releasePend h _) _

theorem canonical_doubleTrap {s : State} (h : Canonical s) (c : Coord) (i : Fin 4) (w : Why) : Canonical (doubleTrap s c i w) := by
  unfold doubleTrap; dsimp only
  refine canonical_failCore ?_ _ _
  refine canonical_logFault ?_ _ _ _ _ _ _ _ _
  exact canonical_mapCore_mem h _ fun _ => rfl
theorem canonical_trapEntry {s : State} (h : Canonical s) (c : Coord) (i : Fin 4) (t : Trap) : Canonical (trapEntry s c i t) := by
  unfold trapEntry
  have h := canonical_releaseSlot h c i
  generalize releaseSlot s c i = s at h ⊢
  dsimp only; split
  · exact canonical_doubleTrap h _ _ _
  · generalize hs : mapCore s c (fun k => _) = s1
    have h1 : Canonical s1 := by
      rw [← hs]
      refine canonical_mapCore_mem h c ?_
      intro k; rfl
    clear hs
    split
    · exact canonical_doubleTrap h1 _ _ _
    · split
      · exact canonical_doubleTrap h1 _ _ _
      · split
        · exact canonical_doubleTrap h1 _ _ _
        · exact canonical_mapCore_mem h1 _ fun _ => rfl
theorem canonical_takeTrap {s : State} (h : Canonical s) (c : Coord) (i : Fin 4) (t : Trap) : Canonical (takeTrap s c i t) := by
  unfold takeTrap; repeat' split
  · exact canonical_mapCore_mem h _ fun _ => rfl
  · exact canonical_trapEntry h _ _ _
  · exact canonical_trapEntry h _ _ _
theorem canonical_nearFailure {s : State} (h : Canonical s) (c : Coord) (n : Fin 2) (w : Why) (pc : Word) :
    Canonical (nearFailure s c n w pc) := by
  unfold nearFailure; split
  · exact h
  · dsimp only
    refine canonical_failCore ?_ _ _
    refine canonical_mapCore ?_ _ fun k hk => wf_mailbox hk _ _
    refine canonical_retire ?_ _ _
    exact canonical_mapCore_mem (canonical_drainStores h _) _ fun _ => rfl
/-- Whatever a trap does, on a slot or an Ibex unit, the form is kept. -/
theorem canonical_raise {s : State} (h : Canonical s) (a : Agent) (t : Trap) : Canonical (raise s a t) := by
  unfold raise; split
  · exact canonical_takeTrap h _ _ _
  · exact canonical_nearFailure h _ _ _ _
theorem canonical_tidy {s : State} (h : Canonical s) (c : Coord) (i : Fin 4) (x : Clean) : Canonical (tidy s c i x) := by
  cases x
  · exact h
  · exact canonical_mapCore_mem h _ fun _ => rfl
  · exact canonical_mapCore_mem h _ fun _ => rfl
theorem canonical_forget {s : State} (h : Canonical s) : Canonical (forget s) := canonical_mapCore_mem h _ fun _ => rfl
theorem canonical_markStalled {s : State} (h : Canonical s) (b : Bool) : Canonical (markStalled s b) :=
  canonical_mapCore_mem h _ fun _ => rfl
theorem canonical_issueReq {s : State} (h : Canonical s) (r : Req) (l : List Nat) (b : Option (BitVec 512)) :
    Canonical (issueReq s r l b) := by
  unfold issueReq; dsimp only
  generalize hs : mapCore s s.cur.core (fun k => _) = s1
  have h1 : Canonical s1 := by
    rw [← hs]
    refine canonical_mapCore_mem h _ ?_
    intro k; rfl
  clear hs
  split
  · refine canonical_nextId ?_ _
    exact canonical_mapCore_mem h1 _ fun _ => rfl
  · exact canonical_send h1 _ _ _ _ _ _ _ _
/-- However an instruction stops, the form is kept. -/
theorem canonical_onStop {s : State} (h : Canonical s) (e : Stop) : Canonical (onStop s e) := by
  cases e with
  | stall => exact canonical_mapCore_mem h _ fun _ => rfl
  | entry => exact canonical_mapCore_mem h _ fun _ => rfl
  | trap => exact canonical_raise (canonical_forget (canonical_releasePend h _)) _ _
  | soft => exact canonical_raise (canonical_forget h) _ _
  | deferred => exact canonical_raise (canonical_tidy h _ _ _) _ _
  | issue r l b => exact canonical_issueReq h r l b
  | arrive => exact canonical_changeSlot (canonical_markStalled h _) _
  | commit => exact canonical_changeSlot (canonical_markStalled h _) _
  | keep => exact canonical_mapCore_mem h _ fun _ => rfl
theorem canonical_advance {s : State} (h : Canonical s) (pc : Word) (len : Nat) (n : Next) : Canonical (advance s pc len n) := by
  cases n
  · exact canonical_mapCore_mem h _ fun _ => rfl
  · exact canonical_mapCore_mem h _ fun _ => rfl
  · exact h

/-! ### Instructions -/

/-- A computation of an instruction keeps the form where it completes. -/
def KeepsForm {α : Type} (x : M α) : Prop := ∀ s a t, Canonical s → x s = .ok (a, t) → Canonical t

theorem keepsForm_pure {α : Type} (a : α) : KeepsForm (pure a : M α) := by
  intro s b t h e; cases e; exact h
theorem keepsForm_stop {α : Type} (e : Stop) : KeepsForm (stop e : M α) := by intro s b t _ h; cases h
theorem keepsForm_bind {α β : Type} {x : M α} {f : α → M β} (hx : KeepsForm x) (hf : ∀ a, KeepsForm (f a)) : KeepsForm (x >>= f) := by
  intro s b t h e
  obtain ⟨a, s1, h1, h2⟩ := (bind_ok _ _ _ _).mp e
  exact hf a s1 b t (hx s a s1 h h1) h2
/-- A computation that reads the state only. -/
theorem keepsForm_read {α : Type} {x : M α} (hx : ∀ s a t, x s = .ok (a, t) → t = s) : KeepsForm x := by
  intro s a t h e; rw [hx s a t e]; exact h
theorem keepsForm_get : KeepsForm (get : M State) := keepsForm_read fun s a t h => by cases h; rfl
theorem keepsForm_getCore : KeepsForm getCore := keepsForm_read fun s a t h => by cases h; rfl
theorem keepsForm_getThread : KeepsForm getThread := keepsForm_read fun s a t h => by cases h; rfl
theorem keepsForm_getSlot : KeepsForm getSlot := keepsForm_read fun s a t h => by cases h; rfl
theorem keepsForm_getSpec : KeepsForm getSpec := keepsForm_read fun s a t h => by cases h; rfl
theorem keepsForm_stall {α : Type} : KeepsForm (stall : M α) := keepsForm_stop _
theorem keepsForm_trapA {α : Type} (c n : Nat) (a : Word) : KeepsForm (trapA c n a : M α) := keepsForm_stop _
theorem keepsForm_trapW {α : Type} (w : Why) (a : Word) : KeepsForm (trapW w a : M α) := keepsForm_stop _
theorem keepsForm_trapD {α : Type} (c n : Nat) : KeepsForm (trapD c n : M α) := by intro s b t _ h; cases h
theorem keepsForm_stallIf (b : Bool) : KeepsForm (stallIf b) := by
  cases b
  · exact keepsForm_pure ()
  · exact keepsForm_stall
theorem keepsForm_stallEntry (b : Bool) : KeepsForm (stallEntry b) := by
  cases b
  · exact keepsForm_pure ()
  · exact keepsForm_stop _
theorem keepsForm_guardA (b : Bool) (c n : Nat) (a : Word) : KeepsForm (guardA b c n a) := by
  cases b
  · exact keepsForm_trapA _ _ _
  · exact keepsForm_pure ()
theorem keepsForm_guardD (b : Bool) (c n : Nat) : KeepsForm (guardD b c n) := by
  cases b
  · exact keepsForm_trapD _ _
  · exact keepsForm_pure ()
/-- A change of the state that keeps the form. -/
theorem keepsForm_change {x : M Unit} {f : State → State} (hx : ∀ s, x s = .ok ((), f s)) (hf : ∀ s, Canonical s → Canonical (f s)) :
    KeepsForm x := by
  intro s a t h e; rw [hx] at e; cases e; exact hf s h
theorem keepsForm_modCore {f : Core → Core} (hf : ∀ k : Core, (f k).mem = k.mem) : KeepsForm (modCore f) :=
  keepsForm_change (fun _ => rfl) fun _ h => canonical_mapCore_mem h _ hf
theorem keepsForm_modThread (f : Thread → Thread) : KeepsForm (modThread f) :=
  keepsForm_change (fun _ => rfl) fun _ h => canonical_mapCore_mem h _ fun _ => rfl
theorem keepsForm_modSlot (f : Slot → Slot) : KeepsForm (modSlot f) :=
  keepsForm_change (fun _ => rfl) fun _ h => canonical_changeSlot h f
theorem keepsForm_ite {α : Type} {c : Prop} [Decidable c] {x y : M α} (hx : KeepsForm x) (hy : KeepsForm y) :
    KeepsForm (if c then x else y) := by
  split
  · exact hx
  · exact hy
theorem keepsForm_writeOwn (x n v : Nat) : KeepsForm (writeOwn x n v) :=
  keepsForm_change (fun _ => rfl) fun _ h => canonical_writeNat h ..
theorem keepsForm_reachM (a : Word) (n : Nat) (x : Acc) : KeepsForm (reachM a n x) := by
  intro s r t h e
  unfold reachM at e
  split at e <;> cases e
  exact h
theorem keepsForm_checkPages (x : Acc) (lo n : Nat) (f : Nat → Word) : KeepsForm (checkPages x lo n f) := by
  intro s r t h e
  unfold checkPages at e
  split at e <;> cases e
  exact h
theorem keepsForm_remote (r : Req) : KeepsForm (remote r) := by
  unfold remote
  refine keepsForm_bind keepsForm_getThread fun t => ?_
  split
  · split
    · exact keepsForm_pure _
    · exact keepsForm_stall
  · exact keepsForm_stop _
theorem keepsForm_ansWord (a : Ans) : KeepsForm (ansWord a) := by
  cases a
  · exact keepsForm_pure _
  · exact keepsForm_pure _
  · exact keepsForm_trapW _ _
theorem canonical_postedAdd {s : State} (h : Canonical s) (c : Coord) (i : Fin 4) (x : Side) (pc : Word) (sc : Scope)
    (a : Word) : Canonical (postedAdd s c i x pc sc a).1 := canonical_mapCore_mem h _ fun _ => rfl
/-- A posted operation keeps the form where what it does at issue does. -/
theorem keepsForm_post (sc : Scope) (a : Word) {f : Origin → State → State} (hf : ∀ o s, Canonical s → Canonical (f o s)) :
    KeepsForm (post sc a f) := by
  intro s r t h e
  unfold post at e
  split at e
  · cases e
  · cases e
    exact hf _ _ (canonical_postedAdd h ..)
theorem keepsForm_hold (o : Outgoing) : KeepsForm (hold o) := by
  unfold hold
  refine keepsForm_bind keepsForm_getSlot fun x => ?_
  split
  · exact keepsForm_bind (keepsForm_stallIf _) fun _ => keepsForm_modSlot _
  · exact keepsForm_pure _
theorem keepsForm_readReg (n : BitVec 5) : KeepsForm (readReg n) :=
  keepsForm_bind keepsForm_getThread fun _ => keepsForm_ite keepsForm_stall (keepsForm_pure _)
theorem keepsForm_writeReg (n : BitVec 5) (v : Word) : KeepsForm (writeReg n v) :=
  keepsForm_bind keepsForm_getThread fun _ => keepsForm_ite keepsForm_stall (keepsForm_modThread _)
theorem keepsForm_setEarly (l : List (Nat × List Byte)) : KeepsForm (setEarly l) := by
  intro s a t h e
  unfold setEarly at e
  split at e <;> cases e
  · exact h
  · exact canonical_mapCore_mem h _ fun _ => rfl
theorem keepsForm_dropAllEarly : KeepsForm dropAllEarly := keepsForm_setEarly _
theorem keepsForm_dropEarly (x n : Nat) : KeepsForm (dropEarly x n) :=
  keepsForm_bind keepsForm_getThread fun _ => keepsForm_setEarly _
theorem keepsForm_settleCore : KeepsForm settleCore :=
  keepsForm_bind (keepsForm_change (fun _ => rfl) fun _ h => canonical_settleStores h _ _) fun _ => keepsForm_modCore fun _ => rfl
/-- A word popped, where the queue has one. -/
theorem keepsForm_popWord (f : Slot → Slot) (v : Word) : KeepsForm (do modSlot f; pure v) :=
  keepsForm_bind (keepsForm_modSlot f) fun _ => keepsForm_pure v
theorem keepsForm_popQ (n : Nat) : KeepsForm (popQ n) := by
  unfold popQ
  refine keepsForm_bind keepsForm_dropAllEarly fun _ => keepsForm_bind keepsForm_getCore fun k => keepsForm_bind keepsForm_getSlot fun x => ?_
  dsimp only
  repeat' first
    | exact keepsForm_popWord _ _
    | exact keepsForm_stop _
    | exact keepsForm_bind (keepsForm_modCore fun _ => rfl) fun _ => keepsForm_pure _
    | refine keepsForm_ite ?_ ?_
    | refine keepsForm_bind keepsForm_get fun _ => keepsForm_bind (keepsForm_stallIf _) fun _ => ?_
    | split
theorem keepsForm_pushPort (p : Fin 4) (v : Word) : KeepsForm (pushPort p v) := by
  unfold pushPort
  refine keepsForm_bind keepsForm_get fun s => keepsForm_bind (keepsForm_guardA _ _ _ _) fun _ => keepsForm_ite (keepsForm_hold _) ?_
  exact keepsForm_bind (keepsForm_stallIf _) fun _ => keepsForm_bind (keepsForm_modSlot _) fun _ =>
    keepsForm_change (fun _ => rfl) fun _ h => canonical_nextId h _
theorem keepsForm_pushQ (n : Nat) (v : Word) : KeepsForm (pushQ n v) := by
  unfold pushQ
  refine keepsForm_bind keepsForm_get fun s => ?_
  dsimp only
  refine keepsForm_bind (keepsForm_stallIf _) fun _ => ?_
  repeat' first
    | exact keepsForm_bind (keepsForm_stallIf _) fun _ => keepsForm_modSlot _
    | exact keepsForm_pushPort _ _
    | exact keepsForm_trapD _ _
    | refine keepsForm_ite ?_ ?_
/-- Reading an operand, popping included, keeps the form. -/
theorem keepsForm_readG (r : GReg) : KeepsForm (readG r) := by
  cases r with
  | g n => exact keepsForm_readReg n
  | sp c =>
    unfold readG
    exact keepsForm_bind keepsForm_getThread fun t => keepsForm_ite (keepsForm_pure _) (keepsForm_ite (keepsForm_pure _)
      (keepsForm_ite (keepsForm_pure _) (keepsForm_popQ _)))
theorem keepsForm_writeG (r : GReg) (v : Word) : KeepsForm (writeG r v) := by
  cases r with
  | g n => exact keepsForm_writeReg n v
  | sp c => exact keepsForm_pushQ _ _
theorem keepsForm_writeResult (r : GReg) (v : Word) : KeepsForm (writeResult r v) :=
  keepsForm_bind (keepsForm_writeG r v) fun _ => keepsForm_modThread _
theorem keepsForm_readPair (r : GReg) : KeepsForm (readPair r) := by
  cases r with
  | g n => exact keepsForm_bind (keepsForm_readReg _) fun _ => keepsForm_bind (keepsForm_readReg _) fun _ => keepsForm_pure _
  | sp c => exact keepsForm_pure _
theorem keepsForm_readK (k : KReg) : KeepsForm (readK k) := keepsForm_bind keepsForm_getThread fun _ => keepsForm_pure _
theorem keepsForm_writeK (k : KReg) (h : Handle) : KeepsForm (writeK k h) := keepsForm_modThread _
theorem keepsForm_markDead : KeepsForm markDead := keepsForm_modThread _
theorem keepsForm_binop (a b c : GReg) (f : Word → Word → Word) : KeepsForm (binop a b c f) :=
  keepsForm_bind (keepsForm_readG b) fun _ => keepsForm_bind (keepsForm_readG c) fun _ =>
    keepsForm_bind (keepsForm_writeResult _ _) fun _ => keepsForm_pure _
theorem keepsForm_unop (a b : GReg) (f : Word → Word) : KeepsForm (unop a b f) :=
  keepsForm_bind (keepsForm_readG b) fun _ => keepsForm_bind (keepsForm_writeResult _ _) fun _ => keepsForm_pure _
theorem canonical_readAt {s : State} (h : Canonical s) (c : Coord) (a n : Nat) : Canonical (readAt s c a n) := by
  unfold readAt; split
  · exact canonical_mapCore_mem h _ fun _ => rfl
  · exact h
theorem keepsForm_forwardOwn (x n : Nat) : KeepsForm (forwardOwn x n) :=
  keepsForm_change (fun _ => rfl) fun s h => by
    split
    · exact canonical_drainStores h _
    · exact h
theorem keepsForm_readOwn (x n : Nat) : KeepsForm (readOwn x n) :=
  keepsForm_bind keepsForm_getThread fun _ => keepsForm_bind keepsForm_getCore fun _ => keepsForm_bind (keepsForm_setEarly _) fun _ =>
    keepsForm_bind (keepsForm_change (fun _ => rfl) fun _ h => canonical_readAt h _ _ _) fun _ => keepsForm_pure _
theorem keepsForm_seenView (d : Coord) (x n : Nat) : KeepsForm (seenView d x n) := by
  unfold seenView
  exact keepsForm_bind keepsForm_get fun _ => keepsForm_ite keepsForm_dropAllEarly
    (keepsForm_ite (keepsForm_dropEarly _ _) (keepsForm_pure _))
theorem keepsForm_loadNear (a : Word) (n : Nat) : KeepsForm (loadNear a n) := by
  unfold loadNear
  refine keepsForm_bind keepsForm_get fun s => keepsForm_bind (keepsForm_reachM _ _ _) fun r =>
    keepsForm_bind (keepsForm_stallIf _) fun _ => ?_
  split
  · exact keepsForm_bind (keepsForm_remote _) fun _ => keepsForm_bind (keepsForm_ansWord _) fun _ => keepsForm_pure _
  · exact keepsForm_bind (keepsForm_remote _) fun _ => keepsForm_bind (keepsForm_ansWord _) fun _ =>
      keepsForm_bind (keepsForm_seenView _ _ _) fun _ => keepsForm_pure _
  · refine keepsForm_bind (keepsForm_stallEntry _) fun _ => keepsForm_bind (keepsForm_forwardOwn _ _) fun _ =>
      keepsForm_bind keepsForm_getCore fun _ => ?_
    split
    · exact keepsForm_trapA _ _ _
    · exact keepsForm_readOwn _ _
theorem keepsForm_storeWindow (a : Word) (ps : List (Coord × List (Nat × List Byte))) : KeepsForm (storeWindow a ps) := by
  unfold storeWindow
  refine keepsForm_bind keepsForm_get fun s => keepsForm_ite (keepsForm_hold _) (keepsForm_post _ _ fun o s h => ?_)
  exact canonical_foldl (fun s p hs => canonical_send hs ..) _ h
theorem keepsForm_storeView (v : Option (Task × List (Nat × List Byte))) : KeepsForm (storeView v) := by
  unfold storeView; split
  · refine keepsForm_bind keepsForm_dropAllEarly fun _ => keepsForm_bind keepsForm_get fun s => keepsForm_ite (keepsForm_modSlot _) ?_
    exact keepsForm_bind (keepsForm_remote _) fun _ => keepsForm_bind (keepsForm_ansWord _) fun _ => keepsForm_pure _
  · exact keepsForm_pure _
/-- A scalar store keeps the form wherever it goes. -/
theorem keepsForm_storeNear (a : Word) (n v : Nat) : KeepsForm (storeNear a n v) := by
  unfold storeNear
  refine keepsForm_bind keepsForm_get fun s => keepsForm_bind (keepsForm_reachM _ _ _) fun r =>
    keepsForm_bind (keepsForm_stallIf _) fun _ => ?_
  split
  · exact keepsForm_storeWindow _ _
  · exact keepsForm_storeView _
  · exact keepsForm_bind (keepsForm_stallEntry _) fun _ => keepsForm_bind (keepsForm_dropEarly _ _) fun _ => keepsForm_writeOwn _ _ _
/-- A store that waits keeps the form, as does one that may not. -/
theorem keepsForm_storeLater (a : Word) (n v : Nat) : KeepsForm (storeLater a n v) := by
  unfold storeLater
  refine keepsForm_bind keepsForm_get fun s => keepsForm_bind (keepsForm_reachM _ _ _) fun r => ?_
  split
  · exact keepsForm_bind (keepsForm_stallIf _) fun _ => keepsForm_bind (keepsForm_stallEntry _) fun _ =>
      keepsForm_bind (keepsForm_dropEarly _ _) fun _ => keepsForm_modThread _
  · exact keepsForm_bind (keepsForm_stallIf _) fun _ => keepsForm_storeNear _ _ _
/-- An instruction whose effect keeps the form keeps it, whether it completes, stalls or traps. -/
theorem canonical_instr {un : Units} {priv : Bool} {uses : List Use} {body : M Next} (hb : KeepsForm body) {s t : State}
    (h : Canonical s) (e : instr un priv uses body s = .next t) : Canonical t := by
  rcases instr_cases un priv uses body s with ⟨_, h1⟩ | ⟨_, _, _, h1⟩ | ⟨_, n, s1, h1, h2⟩ | ⟨_, _, _, h1⟩
  · rw [h1] at e; cases e
  · rw [h1] at e; cases e; exact canonical_onStop h _
  · rw [h2] at e; cases e; exact canonical_advance (hb s n s1 h h1) ..
  · rw [h1] at e; cases e; exact canonical_onStop h _

end Sys2Proof.Machine
end

