-- ==== Sys2Proof/Laws/Memory.lean ====
section
/-! SUPPORT. Laws/Memory.lean: what a write of local memory leaves in every byte of every core, and that messages, aborts and
taking a trap on a slot leave local memory alone, but for the records that an abort writes in its home's region and the closure
whose reference a trap drops. -/
namespace Sys2Proof.Machine
open Sys2Proof.Claim

/-- The bytes of a number, lowest first (R5). -/
theorem leBytes_getD (n v i : Nat) (h : i < n) : (leBytes n v).getD i 0 = BitVec.ofNat 8 (v / 256 ^ i) := by
  induction n generalizing v i with
  | zero => omega
  | succ n ih =>
    cases i with
    | zero => simp [leBytes]
    | succ i =>
      simp only [leBytes, List.getD_cons_succ]
      rw [ih _ _ (by omega), Nat.div_div_eq_div_mul, Nat.pow_succ, Nat.mul_comm]
/-- The memory of a core after a change of a core that leaves its memory alone. -/
theorem mem_mapCore (s : State) (c d : Coord) {f : Core → Core} (hf : ∀ k, (f k).mem = k.mem) :
    (coreAt (mapCore s c f) d).mem = (coreAt s d).mem := by
  by_cases h : d = c
  · subst h; rw [coreAt_mapCore, hf]
  · rw [coreAt_mapCore_ne s f h]
theorem mem_changeSlot (s : State) (f : Slot → Slot) (d : Coord) : (coreAt (changeSlot s f) d).mem = (coreAt s d).mem := by
  unfold changeSlot; split
  · exact mem_mapCore s _ d fun _ => rfl
  · rfl
theorem coreAt_of_cores {s t : State} (h : t.cores = s.cores) (d : Coord) : coreAt t d = coreAt s d := by
  unfold coreAt; rw [h]
theorem coreAt_send (s : State) (a b : Coord) (cl : Machine.Class) (u : UnitId) (t : Nat) (o : Option Origin)
    (w : Option (Coord × Nat)) (p : Payload) (d : Coord) : coreAt (send s a b cl u t o w p) d = coreAt s d := rfl
theorem coreAt_logFault (s : State) (c e : Coord) (i : Fin 4) (w : Why) (v q : Nat) (a b : Word) (d : Coord) :
    coreAt (logFault s c e i w v q a b) d = coreAt s d := rfl
theorem coreAt_failCore (s : State) (c : Coord) (w : Why) (d : Coord) : coreAt (failCore s c w) d = coreAt s d := by
  unfold failCore failLaunch; split <;> rfl
theorem mem_advertNotice (s : State) (c d : Coord) : (coreAt (advertNotice s c) d).mem = (coreAt s d).mem := by
  unfold advertNotice; dsimp only; split
  · rfl
  · rw [coreAt_send]
    by_cases h : d = c
    · subst h; rw [coreAt_setCore]
    · rw [coreAt_setCore_ne s _ h]
/-- A home writes records in its region alone (R69). -/
theorem peek_mapRecord (k : Core) (n : Nat) (f : Entry → Entry) {x : Nat} (h : inHome k x = false) :
    peek (mapRecord k n f).mem x = peek k.mem x := by
  unfold mapRecord; dsimp only; split
  · rename_i e _
    have hp : e.place % Config.homeEntries < 1024 := Nat.mod_lt _ (by decide)
    have hx : ¬(k.tqbase.toNat ≤ x ∧ x < k.tqbase.toNat + 64 * 1024) := of_decide_eq_false h
    unfold putRecord putBytes; dsimp only
    rw [peek_pokes, leBytes_length, if_neg]
    · rfl
    · show ¬(k.tqbase.toNat + 64 * (e.place % Config.homeEntries) ≤ x ∧ x < k.tqbase.toNat + 64 * (e.place % Config.homeEntries) + 64); omega
  · rfl
theorem inHome_mapRecord (k : Core) (n : Nat) (f : Entry → Entry) (x : Nat) : inHome (mapRecord k n f) x = inHome k x := by
  unfold mapRecord; dsimp only; split <;> rfl
/-- The place of a home's region after a change of a core that leaves it. -/
theorem inHome_mapCore (s : State) (c d : Coord) {f : Core → Core} {x : Nat} (hf : ∀ k, inHome (f k) x = inHome k x) :
    inHome (coreAt (mapCore s c f) d) x = inHome (coreAt s d) x := by
  by_cases h : d = c
  · subst h; rw [coreAt_mapCore, hf]
  · rw [coreAt_mapCore_ne s f h]
theorem inHome_advertNotice (s : State) (c d : Coord) (x : Nat) : inHome (coreAt (advertNotice s c) d) x = inHome (coreAt s d) x := by
  unfold advertNotice; dsimp only; split
  · rfl
  · rw [coreAt_send]
    by_cases h : d = c
    · subst h; rw [coreAt_setCore]; rfl
    · rw [coreAt_setCore_ne s _ h]
/-- An abort writes one record, in the region of its home. -/
theorem peek_abortTask (s : State) (c : Coord) (n : Nat) (d : Coord) {x : Nat} (h : d = c → inHome (coreAt s c) x = false) :
    peek (coreAt (abortTask s c n) d).mem x = peek (coreAt s d).mem x := by
  unfold abortTask; split
  · split
    · dsimp only
      rw [mem_advertNotice, mem_mapCore (f := fun k => endSlot k _) (hf := fun _ => rfl)]
      by_cases hd : d = c
      · subst hd; rw [coreAt_mapCore]; exact peek_mapRecord _ _ _ (h rfl)
      · rw [coreAt_mapCore_ne s _ hd]
    · rfl
  · rfl
theorem inHome_abortTask (s : State) (c : Coord) (n : Nat) (d : Coord) (x : Nat) :
    inHome (coreAt (abortTask s c n) d) x = inHome (coreAt s d) x := by
  unfold abortTask; split
  · split
    · dsimp only
      rw [inHome_advertNotice, inHome_mapCore (f := fun k => endSlot k _) (hf := fun _ => rfl)]
      exact inHome_mapCore s c d fun k => inHome_mapRecord k _ _ x
    · rfl
  · rfl
theorem peek_foldl_abortTask (c d : Coord) {x : Nat} (l : List Nat) (s : State) (h : d = c → inHome (coreAt s c) x = false) :
    peek (coreAt (l.foldl (fun s e => abortTask s c e) s) d).mem x = peek (coreAt s d).mem x := by
  induction l generalizing s with
  | nil => rfl
  | cons e r ih =>
    rw [List.foldl_cons, ih _ fun hd => (inHome_abortTask s c e c x).trans (h hd), peek_abortTask s c e d h]
/-- Every byte of every core after a write of bytes that aborts no far task, or one outside the region where an abort writes. -/
theorem peek_writeBytes (s : State) (c : Coord) (a : Nat) (bs : List Byte) (w : Option (Coord × Nat)) (d : Coord) (x : Nat)
    (h : d = c → abortHits (coreAt s c) c a (a + bs.length) w = [] ∨ inHome (coreAt s c) x = false) :
    peek (coreAt (writeBytes s c a bs w) d).mem x =
      if d = c ∧ a ≤ x ∧ x < a + bs.length then bs.getD (x - a) 0 else peek (coreAt s d).mem x := by
  have hw : peek (coreAt (setCore s c (putBytes (coreAt s c) a bs)) d).mem x =
      if d = c ∧ a ≤ x ∧ x < a + bs.length then bs.getD (x - a) 0 else peek (coreAt s d).mem x := by
    by_cases hd : d = c
    · subst hd; rw [coreAt_setCore]; simp only [putBytes, true_and, peek_pokes]
    · rw [coreAt_setCore_ne s _ hd]; simp only [hd, false_and, if_false]
  rw [← hw]
  unfold writeBytes; dsimp only
  by_cases hd : d = c
  · rcases h hd with h | h
    · rw [h]; rfl
    · refine peek_foldl_abortTask c d _ _ fun _ => ?_
      rw [coreAt_setCore]; exact h
  · exact peek_foldl_abortTask c d _ _ fun e => absurd e hd
/-- Every byte of every core after a write of a number, on the same terms. -/
theorem peek_writeNat (s : State) (c : Coord) (a n v : Nat) (w : Option (Coord × Nat)) (d : Coord) (x : Nat)
    (h : d = c → abortHits (coreAt s c) c a (a + n) w = [] ∨ inHome (coreAt s c) x = false) :
    peek (coreAt (writeNat s c a n v w) d).mem x =
      if d = c ∧ a ≤ x ∧ x < a + n then BitVec.ofNat 8 (v / 256 ^ (x - a)) else peek (coreAt s d).mem x := by
  unfold writeNat
  rw [peek_writeBytes _ _ _ _ _ _ _ (by rw [leBytes_length]; exact h), leBytes_length]
  split
  · rename_i h; rw [leBytes_getD _ _ _ (by omega)]
  · rfl
/-- A double trap leaves every local memory alone. -/
theorem mem_doubleTrap (s : State) (c : Coord) (i : Fin 4) (w : Why) (d : Coord) :
    (coreAt (doubleTrap s c i w) d).mem = (coreAt s d).mem := by
  unfold doubleTrap; dsimp only
  rw [coreAt_failCore, coreAt_logFault]
  exact mem_mapCore s c d fun _ => rfl
/-- A unit whose stalled instruction holds no added reference has none to drop (R108). -/
theorem releasePend_of_holdsNone (s : State) (a : Agent) (h : holdsNone (threadAt (coreAt s a.core) a.unit) = true) :
    releasePend s a = s := by
  unfold releasePend
  have h := List.all_eq_true.mp h
  generalize (threadAt (coreAt s a.core) a.unit).pend = l at h
  induction l with
  | nil => rfl
  | cons p r ih =>
    have hp := h p (List.mem_cons_self ..)
    rw [List.foldl_cons]
    split
    · rename_i h1 h2; rw [h1, h2] at hp; exact absurd hp Bool.false_ne_true
    · exact ih fun q hq => h q (List.mem_cons_of_mem _ hq)
theorem releaseSlot_of_holdsNone (s : State) (c : Coord) (i : Fin 4)
    (h : slotHoldsNone (coreAt s c) i = true) : releaseSlot s c i = s := by
  obtain ⟨he, ha⟩ := (Bool.and_eq_true _ _).mp h
  unfold releaseSlot; rw [releasePend_of_holdsNone s ⟨c, .stream i .exec⟩ he, releasePend_of_holdsNone s ⟨c, .stream i .acc⟩ ha]
/-- Taking a trap on a slot changes no local memory but by the references that it drops (R108, R275). -/
theorem mem_trapEntry (s : State) (c : Coord) (i : Fin 4) (t : Trap) (d : Coord) :
    (coreAt (trapEntry s c i t) d).mem = (coreAt (releaseSlot s c i) d).mem := by
  unfold trapEntry
  generalize releaseSlot s c i = s
  dsimp only; split
  · exact mem_doubleTrap s c i _ d
  · generalize hs : mapCore s c (fun k => _) = s1
    have h1 : (coreAt s1 d).mem = (coreAt s d).mem := by
      rw [← hs]
      refine mem_mapCore s c d ?_
      intro k; rfl
    clear hs
    split
    · rw [mem_doubleTrap, h1]
    · split
      · rw [mem_doubleTrap, h1]
      · split
        · rw [mem_doubleTrap, h1]
        · rw [mem_mapCore, h1]
          intro k; rfl
/-- A trap of a slot that holds no reference leaves every local memory alone, taken or held (R86, R275). -/
theorem mem_takeTrap (s : State) (c : Coord) (i : Fin 4) (t : Trap) (d : Coord)
    (h : slotHoldsNone (coreAt s c) i = true) :
    (coreAt (takeTrap s c i t) d).mem = (coreAt s d).mem := by
  unfold takeTrap; split
  · split
    · exact mem_mapCore s c d fun _ => rfl
    · rw [mem_trapEntry, releaseSlot_of_holdsNone s c i h]
  · rw [mem_trapEntry, releaseSlot_of_holdsNone s c i h]
/-- Moving on leaves every local memory alone. -/
theorem mem_advance (s : State) (pc : Word) (len : Nat) (n : Next) (d : Coord) :
    (coreAt (advance s pc len n) d).mem = (coreAt s d).mem := by
  cases n
  · exact mem_mapCore s _ d fun _ => rfl
  · exact mem_mapCore s _ d fun _ => rfl
  · rfl

end Sys2Proof.Machine
end

