-- ==== Sys2Proof/Tests/Slice0.lean ====
section
/-! SUPPORT. Tests/Slice0.lean: the smoke test of WellFormed, words of the spec's encodings, single steps on small states, and for every
statement operands and states that meet its hypotheses. -/
namespace Sys2Proof.Tests
open Sys2Proof Sys2Proof.Machine Sys2Proof.Claim

set_option maxRecDepth 100000
set_option Elab.async false

/-! ### Small states -/

/-- The statement has been applied to operands and a state that meet its hypotheses. -/
def Met {p : Prop} (_ : p) : Prop := True
/-- Core 0.0.0 of a launch, its home queue at 0x100000, slot 0 running a free task, its execute stream at 0x20000 and its access stream at 0x20100. -/
def core0 : Core :=
  mapThread (mapThread (mapSlot { Core.reset with launch := some 0, members := 3, tqbase := 0x100000, attr := [(32, 0x27)] } 0 fun x =>
    { x with st := .running, task := some (placeTask 0) }) (.stream 0 .exec) fun t => { t with running := true, pc := 0x20000 })
    (.stream 0 .acc) fun t => { t with pc := 0x20100 }
/-- The machine with that core, its launch, and whatever `f` changes of the core. -/
def box (f : Core → Core) : State :=
  { State.reset with phase := .running, launches := [placeLaunch State.reset 0], nextId := 1, cores := [(0, f core0)], ir := [0x0298] }
/-- The moving unit's thread changed. -/
def thread (f : Thread → Thread) (k : Core) : Core := mapThread k (.stream 0 .exec) f
def slot (f : Slot → Slot) (k : Core) : Core := mapSlot k 0 f
/-- General registers of the execute stream. -/
def regs (l : List (BitVec 5 × Word)) : Core → Core := thread fun t => l.foldl (fun t e => regSet t e.1 e.2) t
/-- Bytes of local memory. -/
def bytes (a : Nat) (bs : List Byte) (k : Core) : Core := { k with mem := pokes k.mem a bs }
/-- Another unit moves. -/
def on (u : UnitId) (s : State) : State := { s with cur := ⟨0, u⟩ }
/-- Slot 0 runs a far body whose record is not promoted. -/
def specTask : Task := { placeTask 0 with rcd := BitVec.ofNat 512 (2 ^ 47) }
def spec (s : State) : State := mapCore s 0 fun k =>
  { slot (fun x => { x with task := some specTask }) k with home := [⟨0, specTask.rcd, 0, none, some ⟨0, .stream 0 .exec⟩, false, 0⟩] }
theorem forks_of {s : State} (h : (!windowAny s && !heldGlobal s && !globalOut s) = true) : Forks s := by
  simpa [Forks, and_assoc] using h
/-- The result of an operand operation. -/
def okOf {α : Type} (m : Except Stop (α × State)) : Bool := match m with
  | .ok _ => true
  | .error _ => false
/-- Passes, where the two checks evaluate. -/
theorem passes_of {un : Units} {priv : Bool} {uses : List Use} {s : State}
    (h : (isCore s.cur.core && (preCheck un priv uses s == none)) = true) : Passes un priv uses s := by
  simpa [Passes] using h
theorem own_of {s : State} {A : Word} {n y : Nat}
    (h : (decide (A.toNat < 0x200000) && decide (y = A.toNat) && !viewHit s y (y + n)) = true) : OwnPlace s A n y := by
  left; simpa [and_assoc] using h
/-- No store waits at any unit of the moving unit's core. -/
theorem sbufs_of {s : State} (h : ((here s).threads.toList.all fun t => t.sbuf.isEmpty) = true) : ∀ u, (threadAt (here s) u).sbuf = [] := by
  intro u
  have := List.all_eq_true.mp h (threadAt (here s) u) (Vector.mem_toList_iff.mpr (Vector.getElem_mem _))
  simpa using this
theorem none_of {s : State} {l : List (Nat × Nat)} (h : ((here s).threads.toList.all fun t => t.sbuf.isEmpty) = true) : NoneWaits s l := by
  intro u e he
  rw [sbufs_of h u] at he
  cases he
/-- A byte is in a page that lets the unit read it, or write it. -/
def byteOk (b : Nat) (s : State) (z : Nat) : Bool :=
  (attrOf (here s) (z / 4096)).getLsbD b && !(userMode s && ((attrOf (here s) (z / 4096)).getLsbD 6 || homePage (here s) (z / 4096)))
theorem range_of {p : Nat → Prop} {b : Nat → Bool} (hb : ∀ z, b z = true → p z) {y n : Nat}
    (h : ((List.range n).all fun i => b (y + i)) = true) : ∀ z, y ≤ z → z < y + n → p z := by
  intro z h1 h2
  have := List.all_eq_true.mp h (z - y) (by simp; omega)
  rw [Nat.add_sub_cancel' h1] at this
  exact hb z this
theorem read_of {s : State} {y n : Nat} (h : ((List.range n).all fun i => byteOk 0 s (y + i)) = true) : MayRead s y n :=
  range_of (b := byteOk 0 s) (fun z hz => by
    simp only [byteOk, pageRead, userPage] at *; cases h : userMode s <;> simp_all) h
theorem write_of {s : State} {y n : Nat} (h : ((List.range n).all fun i => byteOk 1 s (y + i)) = true) : MayWrite s y n :=
  range_of (b := byteOk 1 s) (fun z hz => by
    simp only [byteOk, pageWrite, userPage] at *; cases h : userMode s <;> simp_all) h
/-- Own bytes that may be read, with nothing of them waiting or read ahead. -/
theorem read_at {s : State} {A : Word} {n y : Nat} (hp : (decide (A.toNat < 0x200000) && decide (y = A.toNat) && !viewHit s y (y + n)) = true)
    (hm : decide (y % n = 0) = true) (hr : ((List.range n).all fun i => byteOk 0 s (y + i)) = true)
    (hq : (!scoreW (here s) y (y + n) && !bufferedAt s s.cur.core y n && (poisonIn (here s) y n).isNone &&
      ((threadOf s).sbuf ++ (threadOf s).early).isEmpty) = true) :
    OwnRead s A n y := by
  simp only [Bool.and_eq_true, Bool.not_eq_true', Option.isNone_iff_eq_none, List.isEmpty_iff] at hq
  exact ⟨⟨own_of hp, of_decide_eq_true hm, read_of hr, hq.1.1.1, hq.1.1.2⟩, hq.1.2, by simp [hq.2],
    .inr (List.append_eq_nil_iff.mp hq.2).2⟩
/-- Own bytes that a load may reach, whatever waits or was read ahead. -/
theorem load_at {s : State} {A : Word} {n y : Nat} (hp : (decide (A.toNat < 0x200000) && decide (y = A.toNat) && !viewHit s y (y + n)) = true)
    (hm : decide (y % n = 0) = true) (hr : ((List.range n).all fun i => byteOk 0 s (y + i)) = true)
    (hq : (!scoreW (here s) y (y + n) && !bufferedAt s s.cur.core y n) = true) : OwnLoad s A n y := by
  simp only [Bool.and_eq_true, Bool.not_eq_true'] at hq
  exact ⟨own_of hp, of_decide_eq_true hm, read_of hr, hq.1, hq.2⟩


/-! ### Witnesses: integer instructions -/

/-- g5 = 7, g6 = −3. -/
def sInt : State := box (regs [(5, 7), (6, -3)])
theorem test_witness_IntegerOperations (h : Obligations.IntegerOperations) :
    Met (h.1 (.sub (.g 4) (.g 5) (.g 6)) _ _ _ _ rfl sInt _ _ _ _ _ (passes_of (by decide +kernel)) rfl rfl rfl) ∧
    Met (h.1 (.divu (.g 0) (.g 6) (.g 0)) _ _ _ _ rfl (on (.ibex 1) sInt) _ _ _ _ _ (passes_of (by decide +kernel)) rfl rfl rfl) ∧
    Met (h.2.1 (.clz (.g 4) (.g 0)) _ _ _ rfl sInt _ _ _ (passes_of (by decide +kernel)) rfl rfl) ∧
    Met (h.2.2 (.adpc (.g 4) (-1)) _ _ _ rfl sInt _ (passes_of (by decide +kernel)) rfl) := ⟨trivial, trivial, trivial, trivial⟩

theorem test_witness_PageTwoImmediates (h : Obligations.PageTwoImmediates) :
    Met (h.1 (.srai (.g 4) (.g 6) 63) _ _ _ _ rfl (by decide) sInt _ _ _ (passes_of (by decide +kernel)) rfl rfl) ∧
    Met (h.1 (.sltiu (.g 4) (.g 5) (-1)) _ _ _ _ rfl trivial sInt _ _ _ (passes_of (by decide +kernel)) rfl rfl) ∧
    Met (h.2.1 (.g 4) (.g 5) 64 (.rori (.g 4) (.g 5) 64) (by decide) (by decide) sInt (passes_of (by decide +kernel))) ∧
    Met (h.2.2.1 7 0 4 (0xD022, 1, .rori (.g 7) (.g 0) 4) (by decide)) := ⟨trivial, trivial, trivial, trivial⟩

theorem test_witness_IntegerFrame (h : Obligations.IntegerFrame) :
    Met (h.1 (.add (.g 4) (.g 5) (.g 5)) _ _ _ _ rfl sInt _ _ _ _ _ (passes_of (by decide +kernel)) rfl rfl rfl) ∧
    Met (h.2.1 (.sextB (.sp 5) (.g 6)) _ _ _ (.inl rfl) sInt _ _ _ (passes_of (by decide +kernel)) rfl rfl) ∧
    Met (h.2.1 (.slli (.g 4) (.g 6) 63) _ _ _ (.inr ⟨_, rfl, by decide⟩) sInt _ _ _ (passes_of (by decide +kernel)) rfl rfl) ∧
    Met (h.2.2 (.li (.g 0) (-1)) _ _ _ rfl sInt _ (passes_of (by decide +kernel)) rfl) := ⟨trivial, trivial, trivial, trivial⟩

/-! ### Witnesses: local memory -/

/-- g5 = 0x1008, g6 = the last word of local memory, g7 = −2, g8 the local memory of member 1; eight bytes at 0x1008. -/
def sMem : State := box fun k => bytes 0x1008 [1, 2, 3, 0x84, 5, 6, 7, 0x88] (regs [(5, 0x1008), (6, 0x1FFFF8), (7, -2), (8, 0x40200000), (9, 0x1009), (10, 0x200000)] k)
/-- The same for Ibex unit 0. -/
def sIbexMem : State := box fun k => mapThread k (.ibex 0) fun t => regSet t 5 0x1008
/-- The anchor buffer of a speculative body of this home holds the byte at 0x100A. -/
def sHeldStore : State := mapCore (spec sMem) 0 (slot fun x => { x with task := some { specTask with abuf := [(0x100A, 7)] } })
theorem test_witness_LocalLoads (h : Claim.LocalLoads) :
    Met (h (.ldW (.g 4) (.g 5) 1) _ _ _ _ _ rfl sMem _ _ _ 0x100C (passes_of (by decide +kernel)) rfl (read_at (by decide +kernel) rfl rfl rfl) rfl) ∧
    Met (h (.lduB (.sp 5) (.g 6) 7) _ _ _ _ _ rfl sMem _ _ _ 0x1FFFFF (passes_of (by decide +kernel)) rfl (read_at (by decide +kernel) rfl rfl rfl) rfl) := ⟨trivial, trivial⟩
theorem test_witness_LocalStores (h : Claim.LocalStores) :
    Met ((h (.stD (.g 7) (.g 6) 0) _ _ _ _ rfl sMem _ _ _ _ 0x1FFFF8 (passes_of (by decide +kernel)) rfl rfl (own_of (by decide +kernel))
      (by decide) (write_of (by decide +kernel))).2 (by decide +kernel) (by decide +kernel)) ∧
    Met ((h (.stD (.g 7) (.g 5) 0) _ _ _ _ rfl sHeldStore _ _ _ _ 0x1008 (passes_of (by decide +kernel)) rfl rfl (own_of (by decide +kernel))
      (by decide) (write_of (by decide +kernel))).1 (by decide +kernel)) ∧
    Met ((h (.stB (.g 7) (.g 5) (-8)) _ _ _ _ rfl (on (.ibex 0) sIbexMem) _ _ _ _ 0x1000 (passes_of (by decide +kernel)) rfl rfl
      (own_of (by decide +kernel)) (by decide) (write_of (by decide +kernel))).2 (by decide +kernel) (by decide +kernel)) :=
  ⟨trivial, trivial, trivial⟩
theorem test_witness_LocalAtomics (h : Obligations.LocalAtomics) :
    Met (h.1 (.amomaxD (.g 4) (.g 5) (.g 7)) _ _ _ _ _ rfl sMem _ _ _ _ _ 0x1008 (passes_of (by decide +kernel)) rfl rfl
      (read_at (by decide +kernel) rfl rfl rfl) (write_of rfl) rfl rfl rfl) ∧
    Met (h.2.1 (.g 5) (.g 5) (.g 6) sMem _ _ _ _ _ _ 0x1008 (passes_of (by decide +kernel)) rfl rfl
      (read_at (by decide +kernel) rfl rfl rfl) (write_of rfl) rfl rfl rfl) ∧
    Met (h.2.2.1 (.amoaddW (.g 4) (.g 5) (.g 7)) _ _ _ _ _ rfl (spec sMem) _ _ _ _ 0x1008 (passes_of (by decide +kernel)) rfl rfl
      (own_of (by decide +kernel)) rfl (read_of rfl) (write_of rfl) rfl) ∧
    Met (h.2.2.2 (.g 4) (.g 5) (.g 6) (spec sMem) _ _ _ _ _ 0x1008 (passes_of (by decide +kernel)) rfl rfl
      (own_of (by decide +kernel)) rfl (read_of rfl) (write_of rfl) rfl) := ⟨trivial, trivial, trivial, trivial⟩
/-- The load of member 1's first word by g8 has been answered with 9. -/
def sAnswered : State := box fun k => thread (fun t => { t with pend := [⟨0, 0x20000, .load 1 0 8, some (.value 9), []⟩] }) (regs [(8, 0x40200000)] k)
/-- It has been asked and not answered. -/
def sAsked : State := box fun k => thread (fun t => { t with pend := [⟨0, 0x20000, .load 1 0 8, none, []⟩] }) (regs [(8, 0x40200000)] k)
/-- Member 1 runs the same launch. -/
def two (s : State) : State :=
  { s with launches := [{ placeLaunch State.reset 0 with cores := [(0, 0), (1, 0)] }]
           cores := s.cores ++ [(1, { Core.reset with launch := some 0, members := 3 })] }
theorem window_of {s : State} {A : Word} {d : Coord} {y : Nat}
    (h : (!isIbex s.cur.unit && memberOk s d && sameCluster s.cur.core d && decide (clidx d ≠ clidx s.cur.core) && decide (y < 0x200000) &&
      decide (A.toNat = 0x40000000 + clidx d * 0x200000 + y)) = true) : WindowPlace s A d y := by
  simpa [WindowPlace, and_assoc] using h
theorem test_witness_WindowAccesses (h : Obligations.WindowAccesses) :
    Met ((h.1 (.ldD (.g 4) (.g 8) 0) _ _ _ _ _ rfl (two sMem) _ _ 1 0 (passes_of (by decide +kernel)) rfl (window_of (by decide +kernel))
      (by decide) (by decide +kernel) (by decide +kernel)).1 (by decide +kernel)) ∧
    Met ((h.1 (.ldD (.g 4) (.g 8) 0) _ _ _ _ _ rfl (two sAnswered) _ _ 1 0 (passes_of (by decide +kernel)) rfl (window_of (by decide +kernel))
      (by decide) (by decide +kernel) (by decide +kernel)).2.2 ⟨0, 0x20000, .load 1 0 8, some (.value 9), []⟩ 9 _ (by decide +kernel) rfl rfl) ∧
    Met ((h.1 (.ldD (.g 4) (.g 8) 0) _ _ _ _ _ rfl (two sAsked) _ _ 1 0 (passes_of (by decide +kernel)) rfl (window_of (by decide +kernel))
      (by decide) (by decide +kernel) (by decide +kernel)).2.1 ⟨0, 0x20000, .load 1 0 8, none, []⟩ (by decide +kernel) rfl) ∧
    Met (h.2.1 (.stB (.g 7) (.g 8) 3) _ _ _ _ rfl (two sMem) _ _ _ _ 1 3 (passes_of (by decide +kernel)) rfl rfl (window_of (by decide +kernel))
      (by decide) (by decide +kernel) (by decide +kernel)) ∧
    Met (h.2.2 (.stB (.g 7) (.g 8) 3) _ _ _ _ rfl (two (spec sMem)) _ _ _ _ 1 3 specTask (passes_of (by decide +kernel)) rfl rfl
      (window_of (by decide +kernel)) (by decide) (by decide +kernel) rfl (by decide)) := ⟨trivial, trivial, trivial, trivial, trivial⟩
/-- A store to 0x1008 waits in the buffer, and the bytes at 0x100C were read ahead. -/
def sWaits : State := box fun k => thread (fun t => { t with sbuf := [(0x1008, [9, 0, 0, 0])], early := [(0x100C, [5, 6, 7, 8])] })
  (regs [(5, 0x1008), (7, -2)] k)
/-- The bytes at 0x100C were read ahead, and a work query answered the word at 0x1008. -/
def sAnswerRead : State := box fun k => { thread (fun t => { t with early := [(0x100C, [5, 6, 7, 8]), (0x1010, [1])] })
  (regs [(5, 0x1008), (7, -2)] k) with answers := [0x1008] }
def sJoins : State := box (thread fun t => { t with joins := true })
theorem test_witness_WaitingStores (h : Claim.WaitingStores) :
    Met (h.1 (.stW (.g 7) (.g 5) 2) _ _ _ _ rfl sWaits _ _ _ _ 0x1010 (passes_of (by decide +kernel)) rfl rfl (own_of (by decide +kernel))
      (by decide) (write_of rfl) (by decide +kernel) (by decide +kernel)) ∧
    Met (h.2.1 sWaits ⟨0, .stream 0 .exec⟩ 0x1008 [9, 0, 0, 0] [] rfl) ∧
    Met (h.2.2.1 sWaits 0 ⟨.bank 0, [(0x1000, 0x1040)], []⟩) ∧
    Met ((h.2.2.2.1 (.ldW (.g 4) (.g 5) 0) { sWaits with ir := [0x44A8] }).2.1 (by decide +kernel) (by decide +kernel)) ∧
    Met ((h.2.2.2.1 (.amoaddW (.g 4) (.g 5) (.g 7)) { sWaits with ir := [0xD034, 0xE000] }).2.2.1 (.inl (by decide +kernel))) ∧
    Met ((h.2.2.2.1 (.ldW (.g 4) (.g 5) 0) { spec sWaits with ir := [0x44A8] }).2.2.1 (.inr (by decide +kernel))) ∧
    Met ((h.2.2.2.1 .aend sWaits).2.2.2 (by decide +kernel)) ∧
    Met ((h.2.2.2.2.1 sWaits ⟨0, .stream 0 .exec⟩ 0x1000 8 (by decide +kernel) (by decide) (by decide) (by decide)
      (load_at (by decide +kernel) rfl rfl rfl) (by decide +kernel) (by decide +kernel)).2 (by decide +kernel)) ∧
    Met ((h.2.2.2.2.1 sJoins ⟨0, .stream 0 .exec⟩ 0x1000 8 (by decide +kernel) (by decide) (by decide) (by decide)
      (load_at (by decide +kernel) rfl rfl rfl) (by decide +kernel) (by decide +kernel)).1 (by decide +kernel)) ∧
    Met (h.2.2.2.2.2.1 sWaits) ∧ Met (h.2.2.2.2.2.2.1 sWaits (.load 1 0 8) [] none rfl) ∧
    (let g := h.2.2.2.2.2.2.2 (.ldW (.g 4) (.g 5) 0) _ _ _ _ _ rfl sWaits _ _ 0x1008 (passes_of (by decide +kernel)) rfl (load_at (by decide +kernel) rfl rfl rfl)
     Met (g.1 _ _ ⟨_, List.mem_singleton_self _, rfl⟩ rfl (by decide +kernel) (by decide +kernel) (.inl (by unfold NoAnswer; decide +kernel)) rfl)) ∧
    (let g := h.2.2.2.2.2.2.2 (.ldW (.g 4) (.g 5) 1) _ _ _ _ _ rfl sWaits _ _ 0x100C (passes_of (by decide +kernel)) rfl (load_at (by decide +kernel) rfl rfl rfl)
     Met (g.2 [5, 6, 7, 8] _ _ _ _ (by decide +kernel) (by decide +kernel) rfl rfl (.inl ⟨by unfold NoAnswer; decide +kernel, rfl⟩) rfl rfl)) ∧
    (let g := h.2.2.2.2.2.2.2 (.ldW (.g 4) (.g 5) 1) _ _ _ _ _ rfl sAnswerRead _ _ 0x100C (passes_of (by decide +kernel)) rfl (load_at (by decide +kernel) rfl rfl rfl)
     Met (g.2 [5, 6, 7, 8] _ _ _ _ (by decide +kernel) (by decide +kernel) rfl rfl (.inr ⟨by unfold NoAnswer; decide +kernel, rfl⟩) rfl rfl)) :=
  ⟨trivial, trivial, trivial, trivial, trivial, trivial, trivial, trivial, trivial, trivial, trivial, trivial, trivial, trivial⟩
/-- Page 1 refuses U mode, page 2 reads, page 3 writes. -/
def sPages : State := box fun k => { k with attr := [(1, 0x63), (2, 0x22), (3, 0x21)] }
theorem test_witness_LocalAccessTraps (h : Obligations.LocalAccessTraps) :
    Met ((h.1 sMem 0x200000 8 aRead (by decide) (by decide)).2.1 (by decide +kernel)) ∧
    Met (((h.1 sMem 0x1009 8 aRead (by decide) (by decide)).2.2 0x1009 (own_of (by decide +kernel))).1 (by decide)) ∧
    Met (((h.1 sPages 0x1FF8 8 aWrite (by decide) (by decide)).2.2 0x1FF8 (own_of (by decide +kernel))).2.1 (by decide) (by decide +kernel) (by unfold userPage; decide +kernel)) ∧
    Met ((((h.1 sPages 0x2000 1 aRead (by decide) (by decide)).2.2 0x2000 (own_of (by decide +kernel))).2.2 (by decide) (by unfold userPage; decide +kernel)).1 rfl (by decide +kernel)) ∧
    Met ((((h.1 sPages 0x3FFC 4 aWrite (by decide) (by decide)).2.2 0x3FFC (own_of (by decide +kernel))).2.2 (by decide) (by unfold userPage; decide +kernel)).2 rfl (by decide +kernel)) ∧
    Met (h.2.1 (.ldH (.g 4) (.g 9) 0) _ _ _ _ _ rfl sMem _ _ (why 0x065 0) 0x1009 (passes_of (by decide +kernel)) rfl (by rfl)) ∧
    Met (h.2.2 (.stD (.g 4) (.g 10) 0) _ _ _ _ rfl sMem _ _ _ _ (why 0x060 0) 0x200000 (passes_of (by decide +kernel)) rfl rfl (by rfl)) :=
  ⟨trivial, trivial, trivial, trivial, trivial, trivial, trivial⟩

/-! ### Witnesses: control flow, queues, counters -/

/-- Pads J and C at 0x20010 and 0x20012; g5 and g6 name them, g7 is odd, g8 outside, g9 on a page without X; CMASK names g5. -/
def sCtl : State := box fun k => bytes 0x20010 [0x00, 0x90, 0x00, 0x92] (thread (fun t => { t with cmask := 0x20 })
  (regs [(5, 0x20010), (6, 0x20012), (7, 0x20011), (8, 0x200000), (9, 0x1000)] k))
theorem test_witness_Branches (h : Claim.Branches) :
    Met ((h.1 (.brLt (.g 5) (.g 6) (-1)) _ _ _ _ rfl sCtl _ _ _ _ (passes_of (by decide +kernel)) rfl rfl).1 (by decide +kernel)) ∧
    Met ((h.1 (.brNe (.g 5) (.g 5) 4) _ _ _ _ rfl sCtl _ _ _ _ (passes_of (by decide +kernel)) rfl rfl).2 (by decide +kernel)) ∧
    Met (h.2.1 (-2) (box (slot fun x => { x with bo := [1], boProd := some .acc })) _ _ (passes_of (by decide +kernel)) rfl) ∧
    Met (h.2.2 0x3FFFFF (on (.ibex 1) sCtl) (passes_of (by decide +kernel))) := ⟨trivial, trivial, trivial, trivial⟩
theorem test_witness_BranchFrame (h : Claim.BranchFrame) :
    Met (h.1 (.brEq (.g 5) (.g 0) 3) _ _ _ _ sCtl _ rfl (passes_of (by decide +kernel)) rfl) ∧
    Met (h.2 .padF sCtl _ (.inr (by decide)) (passes_of (by decide +kernel)) rfl) := ⟨trivial, trivial⟩
theorem test_witness_LandingPads (h : Claim.LandingPads) :
    Met (h .padT (by decide) sCtl (passes_of (by decide +kernel))) := trivial
theorem test_witness_CallsAndReturns (h : Claim.CallsAndReturns) :
    Met (h.1 (-1) sCtl (passes_of (by decide +kernel)) (by unfold NoLock; decide +kernel)) ∧
    Met (h.2.1 (.g 6) sCtl _ _ (passes_of (by decide +kernel)) rfl (by unfold PadAt; decide +kernel) (by unfold NoLock; decide +kernel)) ∧
    Met (h.2.2.1 (.g 5) sCtl _ _ (passes_of (by decide +kernel)) rfl (by unfold PadAt; decide +kernel)) ∧
    Met (h.2.2.2 (.g 8) sCtl _ _ (passes_of (by decide +kernel)) rfl (by decide +kernel)) := ⟨trivial, trivial, trivial, trivial⟩
theorem test_witness_LandingPadTraps (h : Claim.LandingPadTraps) :
    Met ((h (.jr (.g 7)) _ 0 (.inl ⟨rfl, rfl⟩) sCtl _ _ (passes_of (by decide +kernel)) rfl).1 (by decide +kernel)) ∧
    Met ((h (.callr (.g 8)) _ 1 (.inr ⟨rfl, rfl⟩) sCtl _ _ (passes_of (by decide +kernel)) rfl).2.1 (by decide +kernel) (.inl (by decide +kernel))) ∧
    Met ((h (.callr (.g 9)) _ 1 (.inr ⟨rfl, rfl⟩) sCtl _ _ (passes_of (by decide +kernel)) rfl).2.1 (by decide +kernel) (.inr (by decide +kernel))) ∧
    Met ((h (.jr (.g 6)) _ 0 (.inl ⟨rfl, rfl⟩) sCtl _ _ (passes_of (by decide +kernel)) rfl).2.2 (by decide +kernel) (by decide +kernel)
      (by decide +kernel) (by decide +kernel)) := ⟨trivial, trivial, trivial, trivial⟩
theorem test_witness_AccessStream (h : Claim.AccessStream) :
    Met (h.1 (.g 5) 0 sCtl _ _ (passes_of (by decide +kernel)) rfl (by decide) (by decide +kernel) rfl (by unfold PadAt; decide +kernel)) ∧
    Met (h.2 (on (.stream 0 .acc) sCtl) (passes_of (by decide +kernel)) (by decide +kernel) (by decide +kernel)) := ⟨trivial, trivial⟩
/-- Sixteen words in sq and one in bo; port 0 bound. -/
def sQueues : State := on (.stream 0 .acc) (box (slot fun x =>
  { x with sq := (List.range 16).map (BitVec.ofNat 64), bo := [7], boProd := some .exec, ports := x.ports.set 0 { cfg := 0x80000001, send := [], recv := [5] } }))
/-- A store of the access stream waits. -/
def sQueuesWait : State := mapCore sQueues 0 fun k => mapThread k (.stream 0 .acc) fun t => { t with sbuf := [(0x1008, [9])] }
theorem test_witness_QueueMoves (h : Claim.QueueMoves) :
    Met (h.1 sQueues 7 2 3 [0, 1, 2, 3, 4, 5, 6, 7] ((List.range 8).map fun i => .word (BitVec.ofNat 64 (8 + i))) (passes_of (by decide +kernel))
      (by decide) (by decide) (by decide) (by decide) (by decide) (by decide +kernel) (by decide +kernel) (by intro h8; exact absurd h8 (by decide)) rfl rfl rfl) ∧
    Met (h.1 sQueues 0 8 4 [7] [] (passes_of (by decide +kernel))
      (by decide) (by decide) (by decide) (by decide) (by decide) (by decide +kernel) (by decide +kernel)
      (by intro _; exact ⟨by decide +kernel, rfl⟩) rfl rfl rfl) ∧
    Met (h.2.1 sQueuesWait 0 8 4 7 [] (passes_of (by decide +kernel)) (by decide) (by decide) (by decide) (by decide +kernel) rfl (by decide +kernel)) ∧
    Met (h.2.2.2.1 sQueues (.sp 8) (.sp 8) 0 (passes_of (by decide +kernel)) (.inl rfl)) ∧
    Met (h.2.2.2.1 sQueues (.sp 16) (.sp 8) 7 (passes_of (by decide +kernel)) (.inr (.inl rfl))) ∧
    Met (h.2.2.2.2.1 sQueues _ (.g 4) 11 (passes_of (by decide +kernel)) (by decide) rfl) ∧
    Met (h.2.2.2.2.2 sQueues (.g 4) (.g 7) (passes_of (by decide +kernel)) (by intro c _; simp)) := ⟨trivial, trivial, trivial, trivial, trivial, trivial, trivial⟩
/-- Counters 6, 1, 0 and 63. -/
def sWait : State := box (thread fun t => { t with ld := 6, st := 1, mx := 63 })
/-- A window store of the stream has failed. -/
def sFailedEntry : Posted := ⟨4, .window, .exec, 0x20010, 0, 0x40200008, some (why 0x067 0), false, false⟩
def sFailed : State := box (slot fun x => { x with posted := [sFailedEntry] })
theorem test_witness_WaitCounters (h : Claim.WaitCounters) :
    Met ((h.1 sWait 6 1 0 7 (passes_of (by decide +kernel)) rfl (.inr (by decide +kernel))).1 (by decide +kernel)) ∧
    Met ((h.1 sWait 7 7 7 6 (passes_of (by decide +kernel)) rfl (.inl rfl)).2 (by decide +kernel)) ∧
    Met ((h.2.1 (on (.ibex 0) sWait) 0 0 0 0 (passes_of (by decide +kernel)) rfl).1 (.inr (by decide +kernel))) ∧
    Met ((h.2.1 (on (.ibex 0) (box fun k => mapThread k (.ibex 0) fun t => { t with bk := 2 })) 0 0 1 0 (passes_of (by decide +kernel)) rfl).2 (by decide) (by decide +kernel)) ∧
    Met (h.2.2 sFailed 7 0 7 7 sFailedEntry (why 0x067 0) (passes_of (by decide +kernel)) rfl (by decide) (by decide) rfl rfl) := ⟨trivial, trivial, trivial, trivial, trivial⟩

/-! ### Witnesses: scalar floating point -/

/-- g5 = 1.0, g6 = −2.5, g7 a signalling NaN, g8 = 3.0; TEN as given. -/
def sFp (ten : BitVec 32) : State := box fun k => thread (fun t => { t with fcsr := ten })
  (regs [(5, 0x3F800000), (6, 0xC0200000), (7, 0x7F800001), (8, 0x40400000)] k)
theorem test_witness_ScalarFloat (h : Claim.ScalarFloat) :
    Met (h.1 (.fdiv (.g 4) (.g 5) (.g 8)) _ _ _ _ rfl (sFp 0) _ _ _ _ _ (passes_of (by decide +kernel)) rfl rfl (by unfold noneEnabled; decide +kernel) rfl) ∧
    Met (h.2.1 (.fsqrt (.g 4) (.g 7)) _ _ _ rfl (sFp 0) _ _ _ (passes_of (by decide +kernel)) rfl (by unfold noneEnabled; decide +kernel) rfl) ∧
    Met (h.2.2 (.g 4) (.g 5) (.g 8) (sFp 0x1E00) _ _ _ _ _ _ _ (passes_of (by decide +kernel)) rfl rfl rfl
      (by unfold noneEnabled; decide +kernel) rfl) := ⟨trivial, trivial, trivial⟩
theorem test_witness_FlagTraps (h : Claim.FlagTraps) :
    Met (h (.fadd (.g 4) (.g 5) (.g 7)) _ _ _ _ rfl (sFp 0x1F00) _ _ _ _ 0 (passes_of (by decide +kernel)) rfl rfl (by unfold firstEnabled; decide +kernel)) ∧
    Met (h (.fdiv (.g 4) (.g 5) (.g 8)) _ _ _ _ rfl (sFp 0x100) _ _ _ _ 4 (passes_of (by decide +kernel)) rfl rfl (by unfold firstEnabled; decide +kernel)) :=
  ⟨trivial, trivial⟩
theorem one_fp32 : codeReal .fp32 0x3F800000 = some 1 := by
  have : decodeF .fp32 0x3F800000 = .num false 8388608 (-23) := by decide +kernel
  simp only [codeReal, this, realOf]; norm_num
theorem max_fp32 : InRange .fp32 2 := by
  refine ⟨16777215 * 2 ^ 104, ?_, ?_⟩
  · have : decodeF .fp32 (maxCode .fp32) = .num false 16777215 104 := by decide +kernel
    simp only [codeReal, this, realOf]; norm_num
  · norm_num
theorem one_in : InRange .fp32 1 := by obtain ⟨y, h, l⟩ := max_fp32; exact ⟨y, h, by norm_num at l ⊢; linarith⟩
theorem zero_fp32 : codeReal .fp32 0 = some 0 := by
  have : decodeF .fp32 0 = .num false 0 (-149) := by decide +kernel
  simp only [codeReal, this, realOf]; norm_num
theorem test_witness_SumsAndProductsRound (h : Claim.SumsAndProductsRound) :
    Met ((h .fp32 .rne _ _ _ _ _ _ one_fp32 one_fp32 zero_fp32).1 (by norm_num) (by norm_num; exact max_fp32)) ∧
    Met ((h .fp32 .rz _ _ _ _ _ _ one_fp32 zero_fp32 zero_fp32).2.1 (by norm_num) (by norm_num; exact one_in)) ∧
    Met ((h .fp32 .ru _ _ _ _ _ _ one_fp32 one_fp32 zero_fp32).2.2.1 (by norm_num) (by norm_num; exact one_in)) ∧
    Met ((h .fp32 .rd _ _ _ _ _ _ one_fp32 one_fp32 one_fp32).2.2.2 (by norm_num) (by norm_num; exact max_fp32)) := ⟨trivial, trivial, trivial, trivial⟩
theorem test_witness_QuotientsAndRootsRound (h : Claim.QuotientsAndRootsRound) :
    Met ((h .rne _ _ _ _ one_fp32 one_fp32).1 (by norm_num) (by norm_num) (by norm_num; exact one_in)) ∧
    Met ((h .rd _ _ _ _ one_fp32 one_fp32).2 (by norm_num)) := ⟨trivial, trivial⟩
theorem test_witness_ExactValuesStay (h : Obligations.ExactValuesStay) :
    Met (h.1 .fp32 .rd 0x3F800000 (by decide) ⟨1, one_fp32⟩) ∧
    Met (h.2 (decodeF .fp32 0x3F800000) (decodeF .fp32 0) 1 0 one_fp32 zero_fp32) := ⟨trivial, trivial⟩

/-! ### Witnesses: vectors -/

/-- The slot's VTYPE, VL and masks, with something in v1 to v4 and v8. -/
def sVec (vt : Word) (vl : BitVec 10) : State := box fun k => regs [(5, 3), (6, 0x1000), (7, 8), (8, 0x3F800000), (9, 0x200000)] (slot (fun x =>
  { x with vtype := vt, vl := vl, m := x.m.set 1 5
           v := ((((x.v.set 1 0x3F8000003F800000BF8000004).set 2 0x00000003FFFFFFFF80000000).set 3 0x0000000140000000).set 4 0x0102030405060708).set 8 0x0000001000000008 }) k)
theorem test_witness_VectorArithmetic (h : Claim.VectorArithmetic) :
    Met (h.1 (.vsra 1 2 3 1) _ _ _ _ _ _ rfl (sVec 0x82 3) (passes_of (by decide +kernel)) (by unfold VOk; decide +kernel) (by decide +kernel)
      (by unfold Fits; decide +kernel) (by unfold Fits; decide +kernel) (by unfold Fits; decide +kernel) (by unfold noneEnabled; decide +kernel)) ∧
    Met (h.1 (.vfmsac 24 8 16 0) _ _ _ _ _ _ rfl (sVec 0x4E 2) (passes_of (by decide +kernel)) (by unfold VOk; decide +kernel) (by decide +kernel)
      (by unfold Fits; decide +kernel) (by unfold Fits; decide +kernel) (by unfold Fits; decide +kernel) (by unfold noneEnabled; decide +kernel)) ∧
    Met (h.2 (.vsubVx 1 2 (.g 5) 0) _ _ _ _ _ _ rfl (sVec 0x100 64) _ _ (passes_of (by decide +kernel)) (by unfold VOk; decide +kernel) (by decide +kernel)
      (by unfold Fits; decide +kernel) (by unfold Fits; decide +kernel) rfl (by unfold noneEnabled; decide +kernel)) := ⟨trivial, trivial, trivial⟩
theorem test_witness_VectorCompares (h : Claim.VectorCompares) :
    Met (h (.vmslt 2 2 3 1) _ _ _ _ _ _ rfl (sVec 2 3) (passes_of (by decide +kernel)) (by unfold VOk; decide +kernel) (by decide +kernel)
      (by unfold Fits; decide +kernel) (by unfold Fits; decide +kernel) (by unfold noneEnabled; decide +kernel)) ∧
    Met (h (.vmfle 0 1 1 0) _ _ _ _ _ _ rfl (sVec 0x42 0) (passes_of (by decide +kernel)) (by unfold VOk; decide +kernel) (by decide +kernel)
      (by unfold Fits; decide +kernel) (by unfold Fits; decide +kernel) (by unfold noneEnabled; decide +kernel)) := ⟨trivial, trivial⟩
theorem test_witness_VectorConversions (h : Claim.VectorConversions) :
    Met (h (sVec 0x42 2) (.vfcvtXF 1 1 0) _ _ _ _ _ _ _ _ _ rfl (passes_of (by decide +kernel)) (by unfold VOk; decide +kernel) (by decide +kernel)
      (by unfold Fits; decide +kernel) (by unfold Fits; decide +kernel) (fun x => x.elim) (by unfold noneEnabled; decide +kernel)) ∧
    Met (h (sVec 0x59 2) (.vfwcvt 24 1 1) _ _ _ _ _ _ _ _ _ rfl (passes_of (by decide +kernel)) (by unfold VOk; decide +kernel) (by decide +kernel)
      (by unfold Fits; decide +kernel) (by unfold Fits; decide +kernel) (fun _ => by unfold Apart; decide +kernel) (by unfold noneEnabled; decide +kernel)) ∧
    Met (h (sVec 0x42 3) (.vcvtSat 5 1 4 0) _ _ _ _ _ _ _ _ _ rfl (passes_of (by decide +kernel)) (by unfold VOk; decide +kernel) (by decide +kernel)
      (by unfold Fits; decide +kernel) (by unfold Fits; decide +kernel) (fun _ => by unfold Apart; decide +kernel) (by unfold noneEnabled; decide +kernel)) ∧
    Met (h (sVec 2 3) (.vpack 5 2 2 0) _ _ _ _ _ _ _ _ _ rfl (passes_of (by decide +kernel)) (by unfold VOk; decide +kernel) (by decide +kernel)
      (by unfold Fits; decide +kernel) (by unfold Fits; decide +kernel) (fun _ => by unfold Apart; decide +kernel) (by unfold noneEnabled; decide +kernel)) :=
  ⟨trivial, trivial, trivial, trivial⟩
theorem test_witness_VectorMoves (h : Claim.VectorMoves) :
    Met (h.1 31 (.g 6) 0 (sVec 3 8) _ _ (passes_of (by decide +kernel)) (by unfold VOk; decide +kernel) (by unfold Fits; decide +kernel) rfl) ∧
    Met (h.2.1 1 1 (sVec 0 3) (passes_of (by decide +kernel)) (by unfold VOk; decide +kernel) (by unfold Fits; decide +kernel)) ∧
    Met (h.2.2.1 1 1 3 1 (sVec 2 3) (passes_of (by decide +kernel)) (by unfold VOk; decide +kernel) (by unfold Fits; decide +kernel) (by unfold Fits; decide +kernel)
      (by unfold Fits; decide +kernel)) ∧
    Met (h.2.2.2.1 1 2 (.g 5) 0 (sVec 2 16) _ _ (passes_of (by decide +kernel)) (by unfold VOk; decide +kernel) (by unfold Fits; decide +kernel) (by unfold Fits; decide +kernel)
      (by unfold Apart; decide +kernel) rfl) ∧
    Met (h.2.2.2.2 1 2 8 0 (sVec 2 2) (passes_of (by decide +kernel)) (by unfold VOk; decide +kernel) (by unfold Fits; decide +kernel) (by unfold Fits; decide +kernel)
      (by unfold Fits; decide +kernel) (by unfold Apart; decide +kernel)) := ⟨trivial, trivial, trivial, trivial, trivial⟩
theorem test_witness_VectorPlacement (h : Claim.VectorPlacement) :
    Met (h.1 1 2 (.g 5) 0 (sVec 0x82 5) _ _ (passes_of (by decide +kernel)) (by unfold VOk; decide +kernel) (by unfold Fits; decide +kernel) (by unfold Fits; decide +kernel)
      (by unfold Apart; decide +kernel) rfl) ∧
    Met (h.2.1 1 2 1 (sVec 0x82 3) (passes_of (by decide +kernel)) (by unfold VOk; decide +kernel) (by unfold Fits; decide +kernel) (by unfold Fits; decide +kernel)
      (by unfold Apart; decide +kernel)) ∧
    Met (h.2.2.1 (.g 4) 2 (sVec 0 3) _ (passes_of (by decide +kernel)) (by unfold VOk; decide +kernel) (by unfold Fits; decide +kernel) rfl) ∧
    Met (h.2.2.2 1 (.g 6) (sVec 1 1) _ _ (passes_of (by decide +kernel)) (by unfold VOk; decide +kernel) (by unfold Fits; decide +kernel) rfl) := ⟨trivial, trivial, trivial, trivial⟩
theorem test_witness_VectorReductions (h : Claim.VectorReductions) :
    Met (h (.vredsum (.g 4) 2 (.g 5) 0) _ _ _ _ _ _ rfl (sVec 2 2) _ _ _ _ (passes_of (by decide +kernel)) (by unfold VOk; decide +kernel) rfl (by decide +kernel)
      (by unfold Fits; decide +kernel) rfl (.inr ⟨_, .level _ _ (by decide +kernel) (.one _), rfl⟩) (by unfold noneEnabled; decide +kernel) rfl) ∧
    Met (h (.vfredmax (.g 4) 2 (.g 8) 0) _ _ _ _ _ _ rfl (sVec 0x42 0) _ _ _ _ (passes_of (by decide +kernel)) (by unfold VOk; decide +kernel) rfl (by decide +kernel)
      (by unfold Fits; decide +kernel) rfl (.inl ⟨rfl, rfl⟩) (by unfold noneEnabled; decide +kernel) rfl) := ⟨trivial, trivial⟩
theorem test_witness_VectorMasks (h : Claim.VectorMasks) :
    Met (h.1 2 1 0 _ _ (List.mem_cons_self ..) (sVec 0 3) (passes_of (by decide +kernel)) (by unfold VOk; decide +kernel)) ∧
    Met ((h.2 (.g 4) 1 0 (sVec 0 64) _ (passes_of (by decide +kernel)) (by unfold VOk; decide +kernel)).1 rfl) ∧
    Met ((h.2 (.g 4) 1 2 (sVec 0 64) _ (passes_of (by decide +kernel)) (by unfold VOk; decide +kernel)).2 rfl) := ⟨trivial, trivial, trivial⟩
theorem test_witness_SetVectorLength (h : Obligations.SetVectorLength) :
    Met ((h (.setvl (.g 4) (.g 5) 0xC2) (.g 4) (.g 5) 0xC2 (sVec 0 0) _ _ _ (some 3) (.inl ⟨0xC2, rfl, rfl, rfl, passes_of (by decide +kernel)⟩)
      (.inr ⟨by decide, _, rfl, rfl⟩)).2 (by decide +kernel) rfl) ∧
    Met ((h (.setvlr (.g 4) (.g 0) (.g 6)) (.g 4) (.g 0) 0x1000 (sVec 0 0) _ _ _ none (.inr ⟨.g 6, rfl, rfl, passes_of (by decide +kernel)⟩)
      (.inl ⟨rfl, rfl, rfl⟩)).1 (by decide +kernel) rfl) := ⟨trivial, trivial⟩
theorem active_of {s : State} {m : MReg} {p : Nat → Prop} {n : Nat} (hv : (vtOf s).vl = n) (h : ∀ k < n, p k) : ∀ k, activeIn s m k → p k :=
  fun k hk => h k (hv ▸ hk.1)
theorem below_two {p : Nat → Prop} (h0 : p 0) (h1 : p 1) : ∀ k < 2, p k := by
  intro k hk
  match k, hk with
  | 0, _ => exact h0
  | 1, _ => exact h1
/-- A store of the first element's bytes waits. -/
def sVecWait : State := mapCore (sVec 2 2) 0 (thread fun t => { t with sbuf := [(0x1000, [9, 0, 0, 0])] })
theorem test_witness_VectorLoads (h : Claim.VectorLoads) :
    Met ((h (sVec 2 2) (.vlds 1 (.g 6) (.g 7) 0) _ 1 0 _ _ (fun k => 0x1000 + 8 * k) (.inr (.inl ⟨_, _, _, _, _, rfl, rfl, rfl, rfl, rfl⟩)) (passes_of (by decide +kernel))
      (by unfold VOk; decide +kernel) (by unfold Fits; decide +kernel)).1 (active_of (n := 2) (by decide +kernel) (below_two
        (read_at (by decide +kernel) (by decide +kernel) (by decide +kernel) (by decide +kernel))
        (read_at (by decide +kernel) (by decide +kernel) (by decide +kernel) (by decide +kernel))))) ∧
    Met ((h (box fun k => regs [(9, 0x1FFFFC)] (slot (fun x => { x with vtype := 2, vl := 2 }) k)) (.vldff 1 (.g 9) 0) _ 1 0 _ _ (fun k => 0x1FFFFC + 4 * k)
      (.inl ⟨_, _, .inr rfl, rfl, rfl, rfl⟩) (passes_of (by decide +kernel)) (by unfold VOk; decide +kernel) (by unfold Fits; decide +kernel)).2.2.1 _ 1 (why 0x060 0) rfl (by decide)
      (by unfold activeIn; decide +kernel) (fun j hj _ => by
        have hj : j = 0 := by omega
        subst hj
        exact (read_at (by decide +kernel) (by decide +kernel) (by decide +kernel) (by decide +kernel))) (by rfl)) ∧
    Met ((h (sVec 2 2) (.vld 1 (.g 9) 0) _ 1 0 _ _ (fun k => k) (.inl ⟨_, _, .inl rfl, rfl, rfl, rfl⟩) (passes_of (by decide +kernel)) (by unfold VOk; decide +kernel)
      (by unfold Fits; decide +kernel)).2.2.2 0 (why 0x060 0) (by unfold activeIn; decide +kernel) (fun j hj _ => absurd hj (Nat.not_lt_zero _)) (by rfl)
      (.inr rfl)) ∧
    Met ((h sVecWait (.vlds 1 (.g 6) (.g 7) 0) _ 1 0 _ _ (fun k => 0x1000 + 8 * k) (.inr (.inl ⟨_, _, _, _, _, rfl, rfl, rfl, rfl, rfl⟩)) (passes_of (by decide +kernel))
      (by unfold VOk; decide +kernel) (by unfold Fits; decide +kernel)).2.1 _ ⟨0, by unfold activeIn; decide +kernel, (0x1000, [9, 0, 0, 0]), by decide +kernel, by decide +kernel⟩ rfl
      (active_of (n := 2) (by decide +kernel) (below_two
        ⟨load_at (by decide +kernel) (by decide +kernel) (by decide +kernel) (by decide +kernel), read_at (by decide +kernel) (by decide +kernel) (by decide +kernel) (by decide +kernel)⟩
        ⟨load_at (by decide +kernel) (by decide +kernel) (by decide +kernel) (by decide +kernel), read_at (by decide +kernel) (by decide +kernel) (by decide +kernel) (by decide +kernel)⟩))) :=
  ⟨trivial, trivial, trivial, trivial⟩
theorem test_witness_VectorStores (h : Claim.VectorStores) :
    Met (h (sVec 2 2) (.vstx 1 (.g 6) 8 0) _ 1 0 _ _ (fun k => 0x1008 + 8 * k) (.inr (.inr ⟨_, _, _, rfl, rfl, rfl, by unfold Fits; decide +kernel, rfl⟩))
      (passes_of (by decide +kernel)) (by unfold VOk; decide +kernel) (by unfold Fits; decide +kernel) (active_of (n := 2) (by decide +kernel) (below_two
        ⟨own_of (by decide +kernel), by decide +kernel, write_of (by decide +kernel), by decide +kernel⟩
        ⟨own_of (by decide +kernel), by decide +kernel, write_of (by decide +kernel), by decide +kernel⟩))) := trivial

/-! ### Witnesses: bank commands -/

/-- g5 a base, g6 a descriptor of two i32 lines, g7 an operand, g8 a second range, g9 a descriptor of one f32 line, g10 one with a
reserved bit, g11 a base off its line, g12 the last line of local memory, g13 a descriptor of 1024 lines. -/
def sBank : State := box fun k => regs [(5, 0x1000), (6, 1), (7, 9), (8, 0x2000), (9, 0x1000), (10, 0x4000), (11, 0x1004), (12, 0x1FFFC0), (13, 0x3FF)] k
theorem bank_room_of {s : State} {ws rs : List (Nat × Nat)} (hf : (!windowAny s && !heldGlobal s && !globalOut s) = true)
    (hn : ((here s).threads.toList.all fun t => t.sbuf.isEmpty) = true)
    (h : (threadOf s).bk < 63 ∧ (here s).score.length < 16 ∧ ∀ e ∈ (here s).score, copyEntry e = true →
      meets ws (e.writes ++ e.reads) = false ∧ meets rs e.writes = false) : BankRoom s ws rs :=
  ⟨forks_of hf, none_of hn, h⟩
theorem test_witness_BankCommandsQueue (h : Claim.BankCommandsQueue) :
    Met (h.1 (.bkMul (.g 5) (.g 6) (.g 7)) _ _ _ _ rfl sBank _ _ _ _ _ _ (passes_of (by decide +kernel)) rfl rfl rfl (by unfold BankDesc; decide +kernel)
      (by unfold LineRange; decide +kernel) (write_of (by decide +kernel)) (.inr (read_of (by decide +kernel))) (bank_room_of rfl (by decide +kernel) (by decide))) ∧
    Met (h.1 (.bkFill (.g 12) (.g 9) (.g 7)) _ _ _ _ rfl (on (.ibex 0) (box fun k => mapThread k (.ibex 0) fun t => regSet (regSet t 12 0x1FFFC0) 9 0x1000)) _ _ _ _ _ _
      (passes_of (by decide +kernel)) rfl rfl rfl (by unfold BankDesc; decide +kernel)
      (by unfold LineRange; decide +kernel) (write_of (by decide +kernel)) (.inl rfl) (bank_room_of rfl (by decide +kernel) (by decide))) ∧
    Met (h.2.1 (.bkExps (.g 5) (.g 9) (.g 8)) _ _ _ _ rfl sBank _ _ _ _ _ _ (passes_of (by decide +kernel)) rfl rfl rfl (by unfold BankDesc; decide +kernel)
      (by unfold LineRange; decide +kernel) (read_of (by decide +kernel)) (by decide +kernel) (by decide +kernel) (by decide +kernel) (write_of (by decide +kernel))
      (bank_room_of rfl (by decide +kernel) (by decide))) ∧
    Met (h.2.2.1 (.g 5) (.g 9) sBank _ _ _ _ (passes_of (by decide +kernel)) rfl rfl (by unfold BankDesc; decide +kernel)
      (by unfold LineRange; decide +kernel) (read_of (by decide +kernel)) (write_of (by decide +kernel)) (bank_room_of rfl (by decide +kernel) (by decide))) ∧
    Met (h.2.2.2.1 (.bkFmaV (.g 5) (.g 9) 30) _ _ _ _ rfl sBank _ _ _ _ (passes_of (by decide +kernel)) (by decide) rfl rfl (by unfold BankDesc; decide +kernel)
      (by unfold LineRange; decide +kernel) (write_of (by decide +kernel)) (.inr (read_of (by decide +kernel))) (bank_room_of rfl (by decide +kernel) (by decide))) ∧
    Met (h.2.2.2.2 (.bkMaxR (.g 5) (.g 6) (.g 8)) _ _ _ _ rfl sBank _ _ _ _ _ _ (passes_of (by decide +kernel)) rfl rfl rfl (by unfold BankDesc; decide +kernel)
      (by unfold LineRange; decide +kernel) (read_of (by decide +kernel)) (write_of (by decide +kernel)) (by unfold LineRange; decide +kernel) (read_of (by decide +kernel))
      (.inr (.inr (by decide +kernel))) (bank_room_of rfl (by decide +kernel) (by decide))) := ⟨trivial, trivial, trivial, trivial, trivial, trivial⟩
theorem test_witness_BankCommandTraps (h : Claim.BankCommandTraps) :
    Met ((h (.bkAdd (.g 5) (.g 10) (.g 7)) _ _ _ _ (.inl rfl) sBank _ _ _ _ _ _ (passes_of (by decide +kernel)) rfl rfl rfl).1 (by unfold BankDesc; decide +kernel)) ∧
    Met ((h (.bkExps (.g 5) (.g 6) (.g 8)) _ _ _ _ (.inr rfl) sBank _ _ _ _ _ _ (passes_of (by decide +kernel)) rfl rfl rfl).1 (by unfold BankDesc; decide +kernel)) ∧
    Met ((h (.bkAdd (.g 11) (.g 6) (.g 7)) _ _ _ _ (.inl rfl) sBank _ _ _ _ _ _ (passes_of (by decide +kernel)) rfl rfl rfl).2.1 rfl (by unfold BankDesc; decide +kernel) (by decide +kernel)) ∧
    Met ((h (.bkAdd (.g 12) (.g 6) (.g 7)) _ _ _ _ (.inl rfl) sBank _ _ _ _ _ _ (passes_of (by decide +kernel)) rfl rfl rfl).2.2 rfl (by unfold BankDesc; decide +kernel) (by decide +kernel)
      (by decide +kernel)) := ⟨trivial, trivial, trivial, trivial⟩
theorem test_witness_VectorAtomicsQueue (h : Claim.VectorAtomicsQueue) :
    Met ((h (.vamoAdd 1 (.g 6) 8 0) _ _ _ _ _ rfl (sVec 2 0) _ _ (passes_of (by decide +kernel)) (by unfold VOk; decide +kernel) (by decide +kernel)
      (by unfold Fits; decide +kernel) (by unfold Fits; decide +kernel) rfl).1 (by decide +kernel)) ∧
    Met ((h (.vamoMax 1 (.g 6) 8 1) _ _ _ _ _ rfl (sVec 2 3) _ _ (passes_of (by decide +kernel)) (by unfold VOk; decide +kernel) (by decide +kernel)
      (by unfold Fits; decide +kernel) (by unfold Fits; decide +kernel) rfl).2 0x1000 0x1024 (by decide +kernel) (by decide +kernel) (by decide +kernel) (by decide +kernel)
      (read_of (by decide +kernel)) (write_of (by decide +kernel)) (by decide +kernel) (forks_of rfl) (none_of (by decide +kernel)) (by decide) (by decide)) := ⟨trivial, trivial⟩
/-- A command at the dispatcher with the lines `todo` left, and a VAMO with its lanes left. -/
def command (op : BankOp) (src : BankSrc) (todo : List Nat) (lanes : List (Nat × Word)) : State := box fun k =>
  bytes 0x1000 [1, 0, 0, 0, 0xFF, 0xFF, 0xFF, 0x7F] { k with
    bankQ := [⟨5, .stream 0 .exec, 0, 0x20000, [0xD150, 0xE000], .command op 0 3 src 0x1000 2 0x2000 todo [(0, 7)], 0, [], none⟩,
      ⟨6, .stream 0 .exec, 0, 0x20004, [0xD10A, 0xE000], .vamo .or false 4 lanes, 1, [], none⟩]
    score := [⟨.bank 5, [(0x1000, 0x1080)], []⟩, ⟨.bank 6, [(0x3000, 0x3040)], []⟩], poison := [0x800] }
theorem next_of {s : State} {c : Coord} {j : Fin 16} {it : BankItem} {op : BankOp} {ty : BitVec 2} {scal : BitVec 32} {src : BankSrc}
    {base lines result : Nat} {todo : List Nat} {reads : List (Nat × BitVec 512)} {n : Nat}
    (h1 : (coreAt s c).bankQ.find? (fun x => workAt j.val x) = some it) (h2 : it.work = .command op ty scal src base lines result todo reads)
    (h3 : todo.find? (fun k => (base + 64 * k) / 64 % 16 == j.val) = some n)
    (h4 : ((coreAt s c).bankQ.takeWhile fun x => x.id != it.id) = []) : NextLine s c j it op ty scal src base lines result todo reads n :=
  ⟨h1, h2, h3, by rw [h4]; simp⟩
theorem test_witness_BankLineUpdates (h : Claim.BankLineUpdates) :
    Met (h (command .add (.scalar 1) [0, 1] []) 0 0 ⟨5, .stream 0 .exec, 0, 0x20000, [0xD150, 0xE000], .command .add 0 3 (.scalar 1) 0x1000 2 0x2000 [0, 1] [(0, 7)], 0, [], none⟩
      .add 0 3 (.scalar 1) 0x1000 2 0x2000 [0, 1] [(0, 7)] 0 (next_of (by decide +kernel) rfl rfl rfl) (by decide)
      (fun _ => ⟨by decide +kernel, fun b hb => by cases hb⟩)) ∧
    Met (h (command .fma (.range 0x4000) [1] []) 0 1 ⟨5, .stream 0 .exec, 0, 0x20000, [0xD150, 0xE000], .command .fma 0 3 (.range 0x4000) 0x1000 2 0x2000 [1] [(0, 7)], 0, [], none⟩
      .fma 0 3 (.range 0x4000) 0x1000 2 0x2000 [1] [(0, 7)] 1 (next_of (by decide +kernel) rfl rfl rfl) (by decide)
      (fun _ => ⟨by decide +kernel, fun b hb => by cases hb; decide +kernel⟩)) := ⟨trivial, trivial⟩
theorem test_witness_BankRetirements (h : Claim.BankRetirements) :
    Met (h.1 (command .rsum (.scalar 0) [] []) 0 ⟨5, .stream 0 .exec, 0, 0x20000, [0xD150, 0xE000], .command .rsum 0 3 (.scalar 0) 0x1000 2 0x2000 [] [(0, 7)], 0, [], none⟩
      .rsum 0 3 (.scalar 0) 0x1000 2 0x2000 [(0, 7)] (by decide +kernel) rfl rfl) ∧
    Met (h.2.1 (command .or (.scalar 0) [0] []) 0 ⟨6, .stream 0 .exec, 0, 0x20004, [0xD10A, 0xE000], .vamo .or false 4 [], 1, [], none⟩ .or false 4 (by decide +kernel) rfl rfl) ∧
    Met (h.2.2 (command .or (.scalar 0) [0] []) 0 0x4007 (by decide) (by decide +kernel)) := ⟨trivial, trivial, trivial⟩

/-- A VAMO at the dispatcher, its next lanes at 0x4000 and 0x4008 (the word at 0x4000 poisoned) or at 0x1000 and 0x1008. -/
def lanes (l : List (Nat × Word)) : State := box fun k =>
  bytes 0x1000 [1, 0, 0, 0] { k with bankQ := [⟨6, .stream 0 .exec, 0, 0x20004, [0xD10A, 0xE000], .vamo .add false 4 l, 1, [], none⟩], poison := [0x800] }
theorem test_witness_VectorAtomicLanes (h : Claim.VectorAtomicLanes) :
    Met ((h (lanes [(0x1000, 2), (0x1008, 3)]) 0 0 ⟨6, .stream 0 .exec, 0, 0x20004, [0xD10A, 0xE000], .vamo .add false 4 [(0x1000, 2), (0x1008, 3)], 1, [], none⟩
      .add false 4 _ (0x1000, 2) (by decide +kernel) rfl (by decide +kernel) (by decide +kernel)).1 (by decide +kernel) rfl (by decide +kernel)) ∧
    Met ((h (lanes [(0x4008, 3), (0x4000, 2)]) 0 0 ⟨6, .stream 0 .exec, 0, 0x20004, [0xD10A, 0xE000], .vamo .add false 4 [(0x4008, 3), (0x4000, 2)], 1, [], none⟩
      .add false 4 _ (0x4008, 3) (by decide +kernel) rfl (by decide +kernel) (by decide +kernel)).2 ⟨(0x4000, 2), by decide, rfl, by decide +kernel⟩) := ⟨trivial, trivial⟩

/-! ### Witnesses: closures -/

/-- An environment's bytes: entry, count, generation, captures, references. -/
def env (entry count gen live ncap nref : Nat) : List Byte :=
  leBytes 16 (entry + count * 2 ^ 32 + gen * 2 ^ 40 + live * 2 ^ 51 + ncap * 2 ^ 52 + nref * 2 ^ 56) ++ [7, 0, 0, 0, 0, 0, 0, 0x80]
/-- Environment 0 of generation 3 with two references, environment 1 of generation 2047 with one, environment 2 with 255, environment 3
free; a PAD.K at 0x20010; k0 to k2 name them, k4 is null, k5 names core 5, k6 core 1; a frame of one line in frame stack 0. -/
def sEnv : State := box fun k =>
  { bytes 0x20010 [0x00, 0x94] (bytes 0x10000 (env 0x20010 2 3 1 2 0) (bytes 0x10080 (env 0x20010 1 2047 1 1 0) (bytes 0x10100 (env 0x20010 255 1 1 0 0)
    (bytes 0x10180 (env 0 0 9 0 0 0)
    (slot (fun x => { x with frames := x.frames.set 0 0x190C0, fgen := x.fgen.set 0 4, depth := 1 })
    (thread (fun t => { t with k := ((((t.k.set 0 0x600000).set 1 0xFFE02000).set 2 0x204000).set 5 5).set 6 0x200001 })
      (regs [(5, 0x600000), (6, 0x204000), (7, 0x20010), (8, 0x190C8), (9, 65)] k))))))) with frbase := 0x19000 + 4 * 2 ^ 21 }
/-- The same with every place of frame stack 0 taken, or none. -/
def deep (d : Nat) : State := box fun k => { slot (fun x => { x with depth := d }) (regs [(9, 65)] k) with frbase := 0x19000 + 4 * 2 ^ 21 }
theorem clear_of {s : State} {i : Nat} (h : abortHits (here s) s.cur.core (envAt s i) (envAt s i + 128) none = []) : EnvClear s i := .inl h
theorem test_witness_CaptureClosure (h : Claim.CaptureClosure) :
    Met (h 3 (.g 7) 0x42 sEnv _ _ 3 (passes_of (by decide +kernel)) (by decide) (by decide +kernel) (by decide) (by decide) rfl (by decide +kernel) (by decide +kernel)
      (by decide +kernel) (by unfold liveAt; decide +kernel) (by unfold liveAt; decide +kernel) (clear_of rfl) (by unfold NoLock; decide +kernel)) := trivial
theorem test_witness_CaptureReference (h : Claim.CaptureReference) :
    Met (h 0 (.g 8) sEnv _ _ 0 0 0 (passes_of (by decide +kernel)) (by decide +kernel) rfl (by unfold OwnEnv liveAt; decide +kernel) rfl (by decide +kernel) (clear_of rfl) (by decide +kernel)
      (by decide) (by decide +kernel) (by decide +kernel)) := trivial
theorem test_witness_CountReferences (h : Claim.CountReferences) :
    Met ((h.1 3 (.g 0) sEnv _ _ (passes_of (by decide +kernel)) (by decide +kernel) rfl).1 (by decide +kernel)) ∧
    Met ((h.1 3 (.g 5) sEnv _ _ (passes_of (by decide +kernel)) (by decide +kernel) rfl).2.1 0 (by unfold OwnEnv liveAt; decide +kernel) (clear_of rfl) (by decide +kernel)) ∧
    Met ((h.1 3 (.g 6) sEnv _ _ (passes_of (by decide +kernel)) (by decide +kernel) rfl).2.2 2 (by unfold OwnEnv liveAt; decide +kernel) (by decide +kernel)) ∧
    Met ((h.2 4 sEnv (passes_of (by decide +kernel)) (by decide +kernel)).1 (by decide +kernel)) ∧
    Met ((h.2 0 sEnv (passes_of (by decide +kernel)) (by decide +kernel)).2.1 0 (by unfold OwnEnv liveAt; decide +kernel) (clear_of rfl) (by decide +kernel)) ∧
    Met ((h.2 1 sEnv (passes_of (by decide +kernel)) (by decide +kernel)).2.2 1 (by unfold OwnEnv liveAt; decide +kernel) (clear_of rfl) (by decide +kernel)) :=
  ⟨trivial, trivial, trivial, trivial, trivial, trivial⟩
theorem test_witness_CaptureWords (h : Claim.CaptureWords) :
    Met (h.1 (.g 4) 0 1 sEnv _ 0 (passes_of (by decide +kernel)) (by unfold OwnEnv liveAt; decide +kernel) (by decide +kernel) rfl) ∧
    Met (h.2 1 (.g 7) 0 sEnv _ _ 1 (passes_of (by decide +kernel)) (by decide +kernel) rfl (by unfold OwnEnv liveAt; decide +kernel) (by decide +kernel)
      (by unfold refersTo; decide +kernel)) := ⟨trivial, trivial⟩
theorem test_witness_Frames (h : Claim.Frames) :
    Met ((h.1 (.g 2) (.g 9) (deep 64) _ sEnv _ 0 (passes_of (by decide +kernel)) rfl rfl).1 (by decide +kernel)) ∧
    Met ((h.1 (.g 2) (.g 7) sEnv _ sEnv _ 0 (passes_of (by decide +kernel)) rfl rfl).2.1 (by decide +kernel) (by decide +kernel)) ∧
    Met ((h.1 (.g 2) (.g 9) sEnv _ _ _ 0 (passes_of (by decide +kernel)) rfl rfl).2.2 (by decide +kernel) (by decide +kernel) rfl) ∧
    Met ((h.2 (.g 2) (deep 0) sEnv 0 (passes_of (by decide +kernel)) rfl).1 (by decide +kernel)) ∧
    Met ((h.2 (.g 2) sEnv _ 0 (passes_of (by decide +kernel)) rfl).2 (by decide +kernel) rfl) := ⟨trivial, trivial, trivial, trivial, trivial⟩
theorem test_witness_ApplyClosure (h : Claim.ApplyClosure) :
    Met (h 0 sEnv 0 (passes_of (by decide +kernel)) (by unfold OwnEnv liveAt; decide +kernel) (by decide +kernel) (by decide +kernel) (by unfold PadAt; decide +kernel)
      (by unfold NoLock; decide +kernel)) := trivial
/-- The drop of core 1's environment has been answered. -/
def sDropped : State := two { sEnv with cores := [(0, thread (fun t => { t with pend := [⟨0, 0x20000, .closureDrop 0x200001, some (.value 0), []⟩] }) (coreAt sEnv 0))] }
/-- KDUP's reference on core 1's environment has been added; g10 holds its handle. -/
def sDup : State := two { sEnv with cores := [(0, thread (fun t => { regSet t 10 0x200001 with
  pend := [⟨0, 0x20000, .closureAdd 0x200001 0, some (.value 0), []⟩] }) (coreAt sEnv 0))] }
def sDupAsks : State := two { sEnv with cores := [(0, thread (fun t => regSet t 10 0x200001) (coreAt sEnv 0))] }
theorem test_witness_RemoteClosures (h : Claim.RemoteClosures) :
    (let g := h.1 sEnv 4 (by decide +kernel)
     Met (g.1 (passes_of (by decide +kernel))) ∧ Met (g.2.1 (.g 4) 0 (passes_of (by decide +kernel))) ∧
     Met (g.2.2 (.g 7) 0 _ _ (passes_of (by decide +kernel)) rfl rfl)) ∧
    Met ((h.2.1 sEnv 5 (passes_of (by decide +kernel)) rfl (by decide +kernel) (by decide +kernel)).1 (by decide +kernel)) ∧
    (let g := (h.2.1 (two sEnv) 6 (passes_of (by decide +kernel)) rfl (by decide +kernel) (by decide +kernel)).2 (by decide +kernel)
     Met (g.1 rfl) ∧ Met (g.2.1 rfl) ∧ Met (g.2.2.1 (.g 4) 0 (passes_of (by decide +kernel)) rfl) ∧
     Met (g.2.2.2.1 (.g 7) 0 _ _ (passes_of (by decide +kernel)) rfl rfl)) ∧
    Met (((h.2.1 sDropped 6 (passes_of (by decide +kernel)) rfl (by decide +kernel) (by decide +kernel)).2 (by decide +kernel)).2.2.2.2
      ⟨0, 0x20000, .closureDrop 0x200001, some (.value 0), []⟩ 0 (by decide +kernel) rfl) ∧
    Met ((h.2.2.1 sDupAsks 0 (.g 10) _ _ (passes_of (by decide +kernel)) (by decide +kernel) rfl (by decide) (by decide +kernel) (by decide +kernel)).1 rfl) ∧
    Met ((h.2.2.1 sDup 0 (.g 10) _ _ (passes_of (by decide +kernel)) (by decide +kernel) rfl (by decide) (by decide +kernel) (by decide +kernel)).2
      ⟨0, 0x20000, .closureAdd 0x200001 0, some (.value 0), []⟩ 0 (by decide +kernel) rfl) ∧
    Met (h.2.2.2 sDup 0x200001 0 _ 0 rfl rfl rfl) :=
  ⟨⟨trivial, trivial, trivial⟩, trivial, ⟨trivial, trivial, trivial, trivial⟩, trivial, trivial, trivial, trivial⟩

/-! ### Witnesses: the matrix engine and the accumulator -/

/-- g5 = 0x1000, g6 = 0x4000, g7 strides of 160 and 96 bytes, g8 strides too short, g9 = 0x1010, g10 = 4, g11 a legal shape, g12 none, g13 a
column, g14 = 8. -/
def sMat (f : Core → Core) : State := box fun k => f { slot (fun x => { x with vtype := 0x42, vl := 2, m := x.m.set 1 1, v := x.v.set 1 0x4000000040400000 })
  (regs [(5, 0x1000), (6, 0x4000), (7, 160 + 96 * 2 ^ 32), (8, 0x20), (9, 0x1010), (10, 4), (11, 4 + 256 * 16), (12, 0x4000), (13, 15), (14, 64), (15, 1), (16, 160 + 32 * 2 ^ 32)] k) with
  acfg := 2 + 256 * 16, vAcc := [(0, 0x3F800000), (97, 0x40000000)] }
theorem own_operand_of {s : State} {A : Word} {n y : Nat}
    (h : (decide (A.toNat < 0x200000) && decide (y = A.toNat) && decide (y + n ≤ 0x200000) && ((List.range n).all fun i => byteOk 0 s (y + i)) &&
      !scoreW (here s) (y / 64 * 64) ((y + n + 63) / 64 * 64) && !bufferedAt s s.cur.core y n) = true) : OwnOperand s A n y := by
  simp only [Bool.and_eq_true, decide_eq_true_eq, Bool.not_eq_true'] at h
  exact ⟨.inl ⟨h.1.1.1.1.1, h.1.1.1.1.2⟩, h.1.1.1.2, read_of h.1.1.2, h.1.2, h.2⟩
theorem test_witness_MatrixQueues (h : Claim.MatrixQueues) :
    Met (h.1 (.mmaE2m3 (.g 5) (.g 6) (.g 7)) _ _ _ _ _ _ rfl (sMat id) _ _ _ _ _ _ 0x1000 0x4000 (passes_of (by decide +kernel)) (by unfold MatRoom Forks; decide +kernel) rfl rfl rfl
      (by unfold strideOk; decide +kernel) (by unfold strideOk; decide +kernel) (by decide +kernel) (by decide +kernel) (own_operand_of (by decide +kernel)) (own_operand_of (by decide +kernel))) ∧
    Met (h.2.1 (.g 5) (.g 6) (sMat id) _ _ _ _ 0x1000 0x4000 (passes_of (by decide +kernel)) (by unfold MatRoom Forks; decide +kernel) rfl rfl (by decide +kernel) (by decide +kernel)
      (own_operand_of (by decide +kernel)) (own_operand_of (by decide +kernel))) ∧
    Met (h.2.2 (sMat id) (passes_of (by decide +kernel)) (by unfold MatRoom Forks; decide +kernel)) := ⟨trivial, trivial, trivial⟩
theorem test_witness_MatrixOperandTraps (h : Claim.MatrixOperandTraps) :
    Met ((h (.mmaF16 (.g 5) (.g 6) (.g 8)) _ _ _ _ _ _ rfl (sMat id) _ _ (sMat id) _ _ _ (passes_of (by decide +kernel)) rfl rfl rfl rfl).1 (by unfold strideOk; decide +kernel)) ∧
    Met ((h (.mmaE2m3 (.g 5) (.g 6) (.g 16)) _ _ _ _ _ _ rfl (sMat id) _ _ (sMat id) _ _ _ (passes_of (by decide +kernel)) rfl rfl rfl rfl).2.1 (by unfold strideOk; decide +kernel)
      (by unfold strideOk; decide +kernel)) ∧
    Met ((h (.mmaE2m1Mc (.g 9) (.g 6) (.g 0)) _ _ _ _ _ _ rfl (sMat id) _ _ (sMat id) _ _ _ (passes_of (by decide +kernel)) rfl rfl rfl rfl).2.2.1 (by unfold strideOk; decide +kernel)
      (by unfold strideOk; decide +kernel) (by decide +kernel)) ∧
    Met ((h (.mmaE4m3 (.g 5) (.g 9) (.g 0)) _ _ _ _ _ _ rfl (sMat id) _ _ (sMat id) _ _ _ (passes_of (by decide +kernel)) rfl rfl rfl rfl).2.2.2 (by unfold strideOk; decide +kernel)
      (by unfold strideOk; decide +kernel) (by decide +kernel) (by decide +kernel)) := ⟨trivial, trivial, trivial, trivial⟩
/-- An operation at the head of the engine. -/
def matItem (op : MatOp) : MatItem := ⟨4, .stream 0 .exec, 0, 0x20000, [0xD140, 0xE000], op, [], []⟩
def engine (op : MatOp) : State := sMat fun k => { k with engQ := [matItem op], pAcc := [(1, 0x3F800000)], wAcc := [(1, 0x3F800000)] }
theorem test_witness_MatrixRetires (h : Claim.MatrixRetires) :
    Met (h (engine .accz) 0 (matItem .accz) ⟨⟨_, rfl⟩, by decide +kernel, rfl, rfl, by decide +kernel, by decide⟩) ∧
    Met (h (engine .swap) 0 (matItem .swap) ⟨⟨_, rfl⟩, by decide +kernel, rfl, rfl, by decide +kernel, by decide⟩) := ⟨trivial, trivial⟩
theorem one_real : realOf (.num false 1 0) = some 1 := by simp only [realOf]; norm_num
theorem test_witness_MatrixGroupsRound (h : Obligations.MatrixGroupsRound) :
    Met (h (List.replicate 4 (.num false 1 0)) (List.replicate 4 (.num false 1 0)) 1 (fun _ => 1) rfl rfl (by decide) (by
      intro g hg
      have hz : (((List.replicate 4 (FVal.num false 1 0)).zip (List.replicate 4 (FVal.num false 1 0))).drop (g * 1)).take 1
          = [(FVal.num false 1 0, FVal.num false 1 0)] := by
        have : g = 0 ∨ g = 1 ∨ g = 2 ∨ g = 3 := by omega
        rcases this with rfl | rfl | rfl | rfl <;> rfl
      rw [hz]
      refine ⟨?_, one_ne_zero, one_in⟩
      simp [productSum, one_real])) := trivial
/-- The exchange that ACCSWAP asked for has been made. -/
def sSwapped : State := sMat (thread fun t => { t with pend := [⟨0, 0x20000, .swap 0, some (.value 0), []⟩] })
theorem test_witness_AccumulatorSwap (h : Claim.AccumulatorSwap) :
    Met ((h (sMat id) (passes_of (by decide +kernel)) rfl).1 (by decide +kernel) (by decide +kernel)) ∧
    Met ((h sSwapped (passes_of (by decide +kernel)) rfl).2 ⟨0, 0x20000, .swap 0, some (.value 0), []⟩ 0 (by decide +kernel) rfl) := ⟨trivial, trivial⟩
theorem test_witness_AccumulatorShape (h : Claim.AccumulatorShape) :
    Met ((h (.g 11) (sMat id) _ _ (passes_of (by decide +kernel)) rfl rfl).1 (.inr ⟨4, 1, by decide, by decide, by decide, by decide, by decide +kernel⟩)) ∧
    Met ((h (.g 0) (sMat id) _ _ (passes_of (by decide +kernel)) rfl rfl).1 (.inl (by decide +kernel))) ∧
    Met ((h (.g 12) (sMat id) _ _ (passes_of (by decide +kernel)) rfl rfl).2 (by
      rintro (h0 | ⟨r, c, _, _, _, _, h5⟩)
      · exact absurd h0 (by decide +kernel)
      · have h7 : (0x4000 : Word).toNat = (BitVec.ofNat 64 (r + 256 * (16 * c))).toNat := by rw [← h5]; decide +kernel
        simp at h7; omega)) := ⟨trivial, trivial, trivial⟩
theorem test_witness_AccumulatorAccess (h : Claim.AccumulatorAccess) :
    Met (h.1 (.accrdR 8 (.g 15) (.g 0) 0) true 8 (.g 15) (.g 0) 0 (.inl ⟨rfl, rfl⟩) (sMat id) _ _ ⟨passes_of (by decide +kernel), rfl, by unfold VOk; decide +kernel, rfl,
      rfl, rfl, by unfold Fits; decide +kernel, by decide, by decide, by decide, by decide, ⟨_, _, rfl, rfl⟩,
      active_of (n := 2) (by decide +kernel) (below_two (by unfold InWindow; decide +kernel) (by unfold InWindow; decide +kernel))⟩) ∧
    Met (h.2.1 (.accwrC 1 (.g 13) (.g 15) 1) false 1 (.g 13) (.g 15) 1 (.inr ⟨rfl, rfl⟩) (sMat id) _ _ ⟨passes_of (by decide +kernel), rfl, by unfold VOk; decide +kernel, rfl,
      rfl, rfl, by unfold Fits; decide +kernel, by decide, by decide, by decide, by decide, ⟨_, _, rfl, rfl⟩, by
        intro i hi
        have h2 : i < 2 := lt_of_lt_of_eq hi.1 (by decide +kernel)
        have h1 : i = 0 := by
          rcases hi.2 with h0 | hm
          · exact absurd h0 (by decide)
          · match i, h2, hm with
            | 0, _, _ => rfl
            | 1, _, hm => exact absurd hm (by decide +kernel)
        subst h1
        unfold InWindow; decide +kernel⟩) ∧
    Met (h.2.2 (.g 5) (.g 14) 2 (sMat id) _ _ _ _ (passes_of (by decide +kernel)) (by decide) rfl rfl rfl (by decide +kernel) (by decide +kernel) (by decide +kernel) (by decide +kernel)
      (by decide +kernel) (by
        intro r hr
        have h2 : r < 2 := lt_of_lt_of_eq hr (by decide +kernel)
        match r, h2 with
        | 0, _ => exact ⟨by decide +kernel, write_of (by decide +kernel), by decide +kernel⟩
        | 1, _ => exact ⟨by decide +kernel, write_of (by decide +kernel), by decide +kernel⟩)) := ⟨trivial, trivial, trivial⟩
theorem test_witness_HeldReadServed (h : Claim.HeldReadServed) :
    Met (h (engine (.mma .e4m3 .e4m3 true 0x1000 0x4000 128 128)) 0 0x1040) := trivial

/-! ### Witnesses: the copy engine -/

/-- A one-dimensional shape record of 4-byte elements: base, direction, extent, box, completion record and its closure. -/
def shape (base dir ext box ken kdone : Nat) : Nat :=
  base + 2 * 2 ^ 64 + dir * 2 ^ 69 + ken * 2 ^ 76 + ext * 2 ^ 80 + box * 2 ^ 272 + 4 * 2 ^ 320 + kdone * 2 ^ 480
/-- Records at 0x1000, 0x1040 and 0x1080; the last names the closure of environment 0, the second an empty box. -/
def sCopy : State := box fun k => bytes 0x1000 (leBytes 64 (shape 0x2000 0 8 4 0 0) ++ leBytes 64 (shape 0x2000 1 8 0 0 0) ++ leBytes 64 (shape 0x2000 1 8 4 1 0x600000))
  (bytes 0x10000 (env 0x20010 254 3 1 2 0) (regs [(5, 0x1000), (6, 0x3000), (7, 0x1040), (8, 0x1080), (9, 2), (10, 3), (11, 1)]
    { k with chans := k.chans.set 3 { counter := 2, done := 1, queue := [], failed := [⟨2, .stream 0 .exec, 0, 0, [], why 0x120 1, 0⟩], held := none } }))
theorem record_of {s : State} {ra : Word} {r : BitVec 512} (y : Nat)
    (h : (decide (ra.toNat < 0x200000) && decide (y = ra.toNat) && decide (y % 64 = 0) && ((List.range 64).all fun i => byteOk 0 s (y + i)) &&
      !scoreW (here s) y (y + 64) && (poisonIn (here s) y 64 == none) && decide (r.toNat = leValue (here s).mem y 64)) = true) : RecordAt s ra r := by
  simp only [Bool.and_eq_true, decide_eq_true_eq, Bool.not_eq_true', beq_iff_eq] at h
  exact ⟨y, .inl ⟨h.1.1.1.1.1.1, h.1.1.1.1.1.2⟩, h.1.1.1.1.2, read_of h.1.1.1.2, h.1.1.2, h.1.2, h.2⟩
/-- Every byte of the ranges is open, in a form that evaluates. -/
def allowedOk (s : State) (r : BitVec 512) (gather : Bool) (p : Nat) : Bool :=
  (ownSides s.cur.core (nearSides r gather p)).all (fun q =>
    (!q.2.2.1 || (List.range (q.2.1 - q.1)).all fun i => byteOk 1 s (q.1 + i)) && ((q.2.2.1 && !q.2.2.2.1) || (List.range (q.2.1 - q.1)).all fun i => byteOk 0 s (q.1 + i)) &&
      (!q.2.2.2.2 || !viewHit s q.1 q.2.1)) && !cBaren r
theorem allowed_of {s : State} {r : BitVec 512} {gather : Bool} {p : Nat} (h : allowedOk s r gather p = true) : CopyAllowed s r gather p := by
  simp only [allowedOk, Bool.and_eq_true, List.all_eq_true, Bool.or_eq_true, Bool.not_eq_true'] at h
  obtain ⟨h1, h2⟩ := h
  refine ⟨fun q hq => ?_, fun hb => absurd hb (by simp [h2])⟩
  obtain ⟨⟨hw, hr⟩, hv⟩ := h1 q hq
  refine ⟨fun e => ?_, fun e => ?_, fun e => ?_⟩
  · rcases hw with hw | hw
    · simp [e] at hw
    · exact write_of (List.all_eq_true.mpr hw)
  · rcases hr with hr | hr
    · rcases e with e | e <;> simp [e] at hr
    · exact read_of (List.all_eq_true.mpr hr)
  · rcases hv with hv | hv
    · simp [e] at hv
    · exact hv
theorem room_of {s : State} {q : Fin 4} {r : BitVec 512} {gather : Bool} {p : Nat}
    (h : ((here s).score.isEmpty && decide ((chanAt (here s) q).queue.length < 8)) = true) : CopyRoom s q r gather p := by
  simp only [Bool.and_eq_true, List.isEmpty_iff, decide_eq_true_eq] at h
  exact ⟨by simp [h.1], h.2, by simp [h.1]⟩
/-- The scoreboard is full; the second holds the record of a copy that stalled so. -/
def sCopyFull : State := mapCore sCopy 0 fun k => { k with score := List.replicate 16 ⟨.copy 1 0, [], []⟩ }
def sCopyKept (full : Bool) : State := mapCore (if full then sCopyFull else sCopy) 0
  (thread fun t => { t with rcd := some (BitVec.ofNat 512 (shape 0x2000 0 8 4 0 0)) })
theorem test_witness_CopiesQueue (h : Claim.CopiesQueue) :
    Met ((h (.cpy 0 (.g 7) (.g 6)) false 0 (.g 7) (.g 6) (.inl ⟨rfl, rfl⟩) sCopy _ _ _ _ (BitVec.ofNat 512 (shape 0x2000 1 8 0 0 0)) 0 (passes_of (by decide +kernel)) rfl rfl
      rfl rfl).1 rfl (record_of 0x1040 (by decide +kernel)) 4 (by decide +kernel)) ∧
    Met ((h (.cpg 0 (.g 5) (.g 6)) true 0 (.g 5) (.g 6) (.inr ⟨rfl, rfl⟩) sCopy _ _ _ _ (BitVec.ofNat 512 (shape 0x2000 0 8 4 0 0)) 0 (passes_of (by decide +kernel)) rfl rfl
      rfl rfl).1 rfl (record_of 0x1000 (by decide +kernel)) 2 (by decide +kernel)) ∧
    Met ((h (.cpy 3 (.g 5) (.g 6)) false 3 (.g 5) (.g 6) (.inl ⟨rfl, rfl⟩) sCopyFull _ _ _ _ (BitVec.ofNat 512 (shape 0x2000 0 8 4 0 0)) 3 (passes_of (by decide +kernel)) rfl rfl
      rfl rfl).2.1 (.inr ⟨rfl, record_of 0x1000 (by decide +kernel), by decide +kernel, allowed_of (by decide +kernel)⟩) (.inl (by decide +kernel))
      (fun e => absurd e.1.2.2 (by decide +kernel))) ∧
    Met ((h (.cpy 3 (.g 5) (.g 6)) false 3 (.g 5) (.g 6) (.inl ⟨rfl, rfl⟩) (sCopyKept true) _ _ _ _ (BitVec.ofNat 512 (shape 0x2000 0 8 4 0 0)) 3 (passes_of (by decide +kernel)) rfl rfl
      rfl rfl).2.1 (.inl rfl) (.inl (by decide +kernel)) (fun e => absurd e.1.2.2 (by decide +kernel))) ∧
    Met ((h (.cpy 3 (.g 5) (.g 6)) false 3 (.g 5) (.g 6) (.inl ⟨rfl, rfl⟩) (sCopyKept false) _ _ _ _ (BitVec.ofNat 512 (shape 0x2000 0 8 4 0 0)) 3 (passes_of (by decide +kernel)) rfl rfl
      rfl rfl).2.2 (.inl rfl) (room_of (by decide +kernel)) (forks_of rfl) (none_of (by decide +kernel)) (.inl (by decide +kernel))) ∧
    Met ((h (.cpy 3 (.g 5) (.g 6)) false 3 (.g 5) (.g 6) (.inl ⟨rfl, rfl⟩) sCopy _ _ _ _ (BitVec.ofNat 512 (shape 0x2000 0 8 4 0 0)) 3 (passes_of (by decide +kernel)) rfl rfl
      rfl rfl).2.2 (.inr ⟨rfl, record_of 0x1000 (by decide +kernel), by decide +kernel, allowed_of (by decide +kernel)⟩) (room_of (by decide +kernel)) (forks_of rfl) (none_of (by decide +kernel)) (.inl (by decide +kernel))) ∧
    Met ((h (.cpy 0 (.g 8) (.g 6)) false 0 (.g 8) (.g 6) (.inl ⟨rfl, rfl⟩) sCopy _ _ _ _ (BitVec.ofNat 512 (shape 0x2000 1 8 4 1 0x600000)) 0 (passes_of (by decide +kernel)) rfl rfl
      rfl rfl).2.2 (.inr ⟨rfl, record_of 0x1080 (by decide +kernel), by decide +kernel, allowed_of (by decide +kernel)⟩) (room_of (by decide +kernel)) (forks_of rfl)
      (none_of (by decide +kernel)) (.inr (.inr ⟨0, by unfold OwnEnv liveAt; decide +kernel, clear_of rfl, by decide +kernel, rfl⟩))) ∧
    Met ((h (.cpy 0 (.g 8) (.g 6)) false 0 (.g 8) (.g 6) (.inl ⟨rfl, rfl⟩) sCopyFull _ _ _ _ (BitVec.ofNat 512 (shape 0x2000 1 8 4 1 0x600000)) 0 (passes_of (by decide +kernel)) rfl rfl
      rfl rfl).2.1 (.inr ⟨rfl, record_of 0x1080 (by decide +kernel), by decide +kernel, allowed_of (by decide +kernel)⟩)
      (.inr (.inl ⟨by decide +kernel, .inr (by decide +kernel)⟩)) (fun e => absurd e.1.2.2 (by decide +kernel))) :=
  ⟨trivial, trivial, trivial, trivial, trivial, trivial, trivial, trivial⟩
theorem test_witness_CopyWaits (h : Claim.CopyWaits) :
    Met ((h.1 3 (.g 10) sCopy _ _ 3 (passes_of (by decide +kernel)) rfl rfl).1 (by unfold Reached; decide +kernel)) ∧
    Met ((h.1 3 (.g 9) sCopy _ _ 3 (passes_of (by decide +kernel)) rfl rfl).2.1 (by unfold Reached; decide +kernel) (by unfold Reached; decide +kernel)) ∧
    Met ((h.1 3 (.g 11) sCopy _ _ 3 (passes_of (by decide +kernel)) rfl rfl).2.2 (by unfold Reached; decide +kernel) (by unfold Reached; decide +kernel) (by unfold Reached; decide +kernel)) ∧
    Met (h.2.1 (.g 4) 3 sCopy _ 3 1 (passes_of (by decide +kernel)) rfl (.inl ⟨rfl, by decide +kernel⟩) rfl) ∧
    Met (h.2.1 (.g 4) 0 sCopy _ 0 0 (passes_of (by decide +kernel)) rfl (.inr ⟨rfl, by decide +kernel⟩) rfl) ∧
    Met (h.2.2 (.cpstat (.g 4) 4) 4 (.g 4) (.g 0) (.g 0) sCopy (.inr (.inr (.inr ⟨rfl, passes_of (by decide +kernel)⟩))) (by decide)) :=
  ⟨trivial, trivial, trivial, trivial, trivial, trivial⟩
/-- A transfer at the head of channel 0 with `n` elements done. -/
def transfer (dir n ken : Nat) : Transfer :=
  ⟨3, false, .stream 0 .exec, 0, none, 0x20000, [0xD160, 0xE000], BitVec.ofNat 512 (shape 0x2000 dir 8 4 ken 0), 0x3000, n, 0, 0, false, 0, none, none, none, [], [], none, none, none, false⟩
def channel (t : Transfer) : State := box fun k => bytes 0x200C [1, 2, 3, 4] (bytes 0x300C [9, 8, 7, 6] { k with
  chans := k.chans.set 0 { counter := 3, done := 2, queue := [t], failed := [], held := none }, score := [⟨.copy 0 3, [(0x3000, 0x3040)], []⟩] })
/-- The units of a piece without a barrier, in a form that evaluates. -/
def pieceOk (s : State) (t : Transfer) (m : Nat) : Bool :=
  (t.piece == none && t.half == 0 && !t.gather && !c24 t.rcd && decide (cDir t.rcd < 2) && decide (cEsz t.rcd ≤ 3) && !cBaren t.rcd && (here s).poison.isEmpty && t.poisoned.isEmpty) &&
  (decide (t.next < m) && decide (m ≤ unitTotal t.rcd) && decide (m ≤ t.next + 64) && (m == unitTotal t.rcd || dstOf t m / 64 != dstOf t t.next / 64)) &&
  (List.range m).all fun u => decide (u < t.next) || (!outsideTensor t u && dstOf t u / 64 == dstOf t t.next / 64 && srcOf t u % srcLen t == 0 &&
    decide (srcOf t u + srcLen t ≤ 0x200000) && decide (dstOf t u + dstLen t ≤ 0x200000) && (abortHits (here s) 0 (dstOf t u) (dstOf t u + dstLen t) t.task).isEmpty &&
    (List.range m).all fun w => decide (w < t.next) || decide (dstOf t w + dstLen t ≤ srcOf t u) || decide (srcOf t u + srcLen t ≤ dstOf t w))
theorem piece_of {s : State} {q : Fin 4} {t : Transfer} {m : Nat} (hc : s.cur.core = 0) (hq : ∃ r, (chanAt (coreAt s 0) q).queue = t :: r)
    (hh : (chanAt (coreAt s 0) q).held = none) (hf : t.failed = none) (h : pieceOk s t m = true) : PieceUnits s 0 q t m := by
  simp only [pieceOk, Bool.and_eq_true, Bool.or_eq_true, List.all_eq_true, List.mem_range, decide_eq_true_eq, beq_iff_eq, bne_iff_ne,
    Bool.not_eq_true', List.isEmpty_iff, here, hc] at h
  obtain ⟨⟨⟨⟨⟨⟨⟨⟨⟨⟨h0, h1⟩, h2⟩, h3⟩, h4⟩, h5⟩, h6⟩, h7⟩, h8⟩, ⟨⟨h9, h10⟩, h11⟩, h12⟩, hu⟩ := h
  have free (z : Nat) : PieceFree s 0 t m z := .inl ⟨fun u e1 e2 => ((hu u e2).resolve_left (by omega)).1.2, fun e => absurd e (by simp [h6])⟩
  refine ⟨hq, hh, hf, h1, .inl h0, h2, h3, h4, h5, h7, h8, h9, h10, h11, h12, fun u e1 e2 => ?_⟩
  obtain ⟨⟨⟨⟨⟨⟨a1, a2⟩, a3⟩, a4⟩, a5⟩, -⟩, a7⟩ := (hu u e2).resolve_left (by omega)
  exact ⟨a1, a2, a3, a4, a5, fun z _ _ => free z, fun w e3 e4 => by rcases a7 w e4 with (h | h) | h <;> omega, fun e => absurd e (by simp [h6])⟩
theorem test_witness_CopyPieceMoves (h : Claim.CopyPieceMoves) :
    Met (h.1 (channel (transfer 0 3 0)) 0 0 (transfer 0 3 0) 4 (piece_of rfl ⟨_, rfl⟩ rfl rfl (by decide +kernel))) ∧
    Met (h.1 (channel (transfer 1 1 0)) 0 0 (transfer 1 1 0) 4 (piece_of rfl ⟨_, rfl⟩ rfl rfl (by decide +kernel))) ∧
    Met (h.2 (box id) 0 1 (.inl rfl)) := ⟨trivial, trivial, trivial⟩
/-- Channel 2 of a core whose home has `n` entries holds record `r`. -/
def heldAt (n : Nat) (r : BitVec 512) : State := box fun k => { k with
  chans := k.chans.set 2 { Chan.reset with held := some r }, home := List.replicate n ⟨0, 0, 0, none, none, false, 0⟩ }
/-- A waiting message goes before the clip message of channel 0. -/
def channelBehind (t : Transfer) : State := mapCore (channel t) 0 fun k => { k with mbHeld := [(.device, [1])] }
theorem test_witness_CopyCompletes (h : Claim.CopyCompletes) :
    Met (h.1 (channel (transfer 0 4 1)) 0 0 (transfer 0 4 1) ⟨⟨_, rfl⟩, rfl, .inr ⟨by decide +kernel, by decide +kernel⟩⟩ (fun _ => ⟨rfl, by decide⟩)) ∧
    Met (h.1 (channel { transfer 0 4 1 with clipped := true }) 0 0 _ ⟨⟨_, rfl⟩, rfl, .inr ⟨by decide +kernel, by decide +kernel⟩⟩ (fun _ => ⟨rfl, by decide⟩)) ∧
    Met (h.1 (channel { transfer 0 3 0 with failed := some (why 0x120 1, 0x2000) }) 0 0 _ ⟨⟨_, rfl⟩, rfl, .inl (by decide)⟩ (fun _ => ⟨rfl, by decide⟩)) ∧
    Met (h.2.1 (channelBehind { transfer 0 4 1 with clipped := true }) 0 0 _ ⟨⟨_, rfl⟩, rfl, .inr ⟨by decide +kernel, by decide +kernel⟩⟩ (.inl rfl)
      (fun e => absurd e.1 (by decide +kernel))) ∧
    Met (h.2.2.1 (box id) 0 1 (fun t ⟨⟨_, e⟩, _⟩ => absurd (show ([] : List Transfer) = _ from e) (by simp))) ∧
    Met ((h.2.2.2.1 (heldAt 0 0) 0 2 0 rfl).1 (by decide +kernel)) ∧ Met ((h.2.2.2.1 (heldAt 1024 0) 0 2 0 rfl).2.1 (by decide +kernel)) ∧
    Met ((h.2.2.2.1 (heldAt 0 0) 0 2 0 rfl).2.2 (by decide +kernel)) ∧ Met (h.2.2.2.2 (box id) 0 2 rfl) :=
  ⟨trivial, trivial, trivial, trivial, trivial, trivial, trivial, trivial, trivial⟩

/-! ### Witnesses: tasks -/

/-- A continuation record: anchor, time stamp, near and far handles, flags, arguments. -/
def contRec (anchor ts near far flags : Nat) : Nat :=
  anchor + ts * 2 ^ 64 + near * 2 ^ 96 + far * 2 ^ 128 + flags * 2 ^ 160 + 77 * 2 ^ 192 + 5 * 2 ^ 256 + 6 * 2 ^ 448
/-- The anchor of 64 bytes at 0x3000 of core `c`. -/
def anchorAt (c : Nat) : Nat := c + 0x3000 * 2 ^ 13 + 63 * 2 ^ 34 + 2 ^ 47
/-- The near body of environment 0, then its free far body. -/
def nearRec : BitVec 512 := BitVec.ofNat 512 (contRec (anchorAt 0) 9 0x600000 0 0)
def freeRec : BitVec 512 := BitVec.ofNat 512 (contRec 0 9 0 0x600000 0)
/-- The records at 0x1000 and 0x1040; environment 0 starts at a pad of kind `k` at 0x20020 + 0x10 k. -/
def sTask (k : Nat) (f : Core → Core) : State := box fun c => f (bytes 0x1000 (leBytes 64 nearRec.toNat ++ leBytes 64 freeRec.toNat)
  (bytes 0x10000 (env (0x20020 + 0x10 * k) 2 3 1 2 0) (bytes (0x20020 + 0x10 * k) [0, BitVec.ofNat 8 (0x90 + 2 * k)]
    (thread (fun t => { t with k := t.k.set 0 0x600000 }) (regs [(5, 0x1000), (6, 0x1040), (7, 1), (8, 0x10800)] c)))))
theorem task_record {s : State} {ra : Word} {r : BitVec 512} (y : Nat)
    (h : (decide (ra.toNat < 0x200000) && decide (y = ra.toNat) && decide (y % 64 = 0) && !scoreW (here s) y (y + 64) &&
      (poisonIn (here s) y 64 == none) && !bufferedAt s s.cur.core y 64 && decide (r.toNat = leValue (here s).mem y 64)) = true) : TaskRecord s ra r := by
  simp only [Bool.and_eq_true, decide_eq_true_eq, Bool.not_eq_true', beq_iff_eq] at h
  exact ⟨y, .inl ⟨h.1.1.1.1.1.1, h.1.1.1.1.1.2⟩, h.1.1.1.1.2, h.1.1.1.2, h.1.1.2, h.1.2, h.2⟩
theorem addable_of {s : State} {h : Handle} (e : Nat) (h1 : OwnEnv s h e)
    (h2 : (decide (countAt s e < 254) && (abortHits (here s) s.cur.core (envAt s e) (envAt s e + 16) none).isEmpty &&
      (List.range 16).all fun i => !inHome (here s) (envAt s e + i)) = true) : Addable s h := by
  simp only [Bool.and_eq_true, decide_eq_true_eq, List.isEmpty_iff, List.all_eq_true, List.mem_range, Bool.not_eq_true'] at h2
  refine .inr ⟨e, h1, h2.1.1, h2.1.2, fun z e1 e2 => ?_⟩
  have := h2.2 (z - envAt s e) (by omega)
  rwa [Nat.add_sub_cancel' e1] at this
theorem test_witness_TaskCreation (h : Claim.TaskCreation) :
    Met ((h (.g 5) (.g 0) (sTask 0 id) _ _ _ _ nearRec (passes_of (by decide +kernel)) (by decide +kernel) rfl rfl (.inr ⟨rfl, task_record 0x1000 (by decide +kernel), by decide +kernel⟩) (addable_of 0 (by unfold OwnEnv liveAt; decide +kernel) (by decide +kernel)) (.inl (by decide +kernel))
      (by intro _ h0; exact absurd rfl h0)).1 (by decide +kernel) (by decide +kernel)) ∧
    Met ((h (.g 6) (.g 7) (two (sTask 0 id)) _ _ _ _ freeRec (passes_of (by decide +kernel)) (by decide +kernel) rfl rfl (.inr ⟨rfl, task_record 0x1040 (by decide +kernel), by decide +kernel⟩) (.inl (by decide +kernel)) (addable_of 0 (by unfold OwnEnv liveAt; decide +kernel) (by decide +kernel))
      (by intro _ _; decide +kernel)).2 (by decide +kernel) (by decide +kernel)) ∧
    Met ((h (.g 5) (.g 0) (sTask 0 (thread fun t => { t with rcd := some nearRec })) _ _ _ _ nearRec (passes_of (by decide +kernel)) (by decide +kernel) rfl rfl
      (.inl rfl) (addable_of 0 (by unfold OwnEnv liveAt; decide +kernel) (by decide +kernel)) (.inl (by decide +kernel))
      (by intro _ h0; exact absurd rfl h0)).1 (by decide +kernel) (by decide +kernel)) := ⟨trivial, trivial, trivial⟩
/-- Ibex unit 0, or slot 0, has taken the record, which the home holds. -/
def sTaken : State := sTask 0 fun c =>
  let k := slot (fun x => { x with task := some { placeTask 0 with rcd := nearRec } }) c
  { mapIbex k 0 (fun y => { y with task := some { placeTask 0 with rcd := nearRec } }) with
    home := [⟨0, nearRec, 0, none, some ⟨0, .stream 0 .exec⟩, true, 0⟩, ⟨1, nearRec, 1, none, none, false, 0⟩], nextEntry := 2 }
theorem done_of {s : State} {i : Fin 4}
    (h : (decide (s.cur.unit = .stream i .exec) && !isSpec s && !(threadAt (here s) (.stream i .acc)).running &&
      ((slotAt (here s) i).posted.all fun p => p.failed == none) &&
      [Side.exec, .acc].all fun x => decide ((threadAt (here s) (.stream i x)).st = 0 ∧ (threadAt (here s) (.stream i x)).bk = 0)) = true) : BodyDone s i := by
  simp only [Bool.and_eq_true, decide_eq_true_eq, Bool.not_eq_true', List.all_eq_true, beq_iff_eq] at h
  exact ⟨h.1.1.1.1, h.1.1.1.2, .inl h.1.1.2, h.1.2, fun x => h.2 x (by cases x <;> decide)⟩
theorem test_witness_TaskEnds (h : Claim.TaskEnds) :
    Met (h.1 sTaken 0 { placeTask 0 with rcd := nearRec } (passes_of (by decide +kernel)) (done_of (by decide +kernel)) (by decide +kernel)) ∧
    Met (h.2.1 (on (.ibex 0) sTaken) 0 { placeTask 0 with rcd := nearRec } (passes_of (by decide +kernel)) rfl (by decide +kernel) (by decide +kernel)) ∧
    Met (h.2.2.1 sTaken 0 { placeTask 0 with rcd := nearRec } 0 ⟨0, nearRec, 0, none, some ⟨0, .stream 0 .exec⟩, true, 0⟩ (passes_of (by decide +kernel)) (done_of (by decide +kernel))
      (by decide +kernel) (by decide +kernel) (addable_of 0 (by unfold OwnEnv liveAt; decide +kernel) (by decide +kernel)) (by decide +kernel)) ∧
    Met (h.2.2.2 sTaken 1 (passes_of (by decide +kernel)) (by decide +kernel)) := ⟨trivial, trivial, trivial, trivial⟩
theorem test_witness_TaskQueueRegisters (h : Claim.TaskQueueRegisters) :
    Met (h.1 (.g 4) (sTask 0 id) _ _ _ (passes_of (by decide +kernel)) rfl rfl) ∧
    Met (h.2.1 (.g 4) (.g 8) (sTask 0 id) _ _ _ (passes_of (by decide +kernel)) (by decide) rfl rfl) ∧
    Met (h.2.2 (.g 4) sTaken _ 0 (passes_of (by decide +kernel)) (.inl rfl) (by decide +kernel) rfl) := ⟨trivial, trivial, trivial⟩
def waiting (r : BitVec 512) : Entry := ⟨4, r, 0, none, none, false, 0⟩
/-- The home of core 0 holds the record. -/
def sHome (k : Nat) (r : BitVec 512) : State := sTask k fun c => { c with home := [waiting r], nextEntry := 5 }
theorem test_witness_NearBodiesStart (h : Claim.NearBodiesStart) :
    Met (h (sHome 3 nearRec) 0 0 (waiting nearRec) 0 (by decide +kernel) (by decide +kernel) (by decide +kernel) (by decide) (by unfold OnlyOne; decide +kernel) (by decide +kernel)
      (by decide +kernel) (by unfold CanStart; decide +kernel)) := trivial
/-- The far body of environment 0 of core 1, anchored there. -/
def farRec : BitVec 512 := BitVec.ofNat 512 (contRec (anchorAt 1) 9 0 0x200001 0)
def sGranted : State :=
  let s := two (sTask 0 fun c => mapSlot c 1 fun x => { x with grant := some 1 })
  { s with cores := [(0, coreAt s 0), (1, { coreAt s 1 with home := [waiting farRec], nextEntry := 5 })] }
theorem test_witness_FarBodiesStart (h : Claim.FarBodiesStart) :
    Met (h.1 (sHome 4 freeRec) 0 1 (waiting freeRec) 0 (by decide +kernel) (by decide +kernel) (by unfold OnlyOne; decide +kernel) (by decide +kernel) (by decide +kernel)
      (by unfold CanStart; decide +kernel)) ∧
    Met (h.2.1 (sTask 0 id) 0 2 (by decide +kernel) (by decide +kernel) (by decide +kernel) (by decide +kernel)) ∧
    Met (h.2.2 sGranted 0 1 1 (waiting farRec) (by decide +kernel) (by decide +kernel) (by decide +kernel) (by decide) (by decide +kernel) (by decide +kernel)
      (by unfold OnlyOne; decide +kernel) (by decide +kernel) (by decide +kernel) (by decide +kernel) (by decide +kernel)) := ⟨trivial, trivial, trivial⟩
/-- A promoted body with these buffers. -/
def sPromoted (a : Memory) (l : List Outgoing) : State := box (slot fun x => { x with task := some { placeTask 0 with abuf := a, obuf := l } })
theorem test_witness_BuffersDrain (h : Claim.BuffersDrain) :
    Met ((h (sPromoted [(0x3000, 5)] []) 0 0 { placeTask 0 with abuf := [(0x3000, 5)], obuf := [] } (by decide +kernel) (by decide +kernel)).1 (by decide) rfl (by decide +kernel)
      (by intro x p hp; cases x <;> cases hp)) ∧
    Met ((h (sPromoted [] [.port .acc 2 7]) 0 0 { placeTask 0 with abuf := [], obuf := [.port .acc 2 7] } (by decide +kernel) (by decide +kernel)).2.1 .acc 2 7 [] rfl rfl (by decide +kernel)) ∧
    Met ((h (sPromoted [] [.gst .exec 0x20000 0x100000000 [1, 2]]) 0 0 { placeTask 0 with abuf := [], obuf := [.gst .exec 0x20000 0x100000000 [1, 2]] } (by decide +kernel)
      (by decide +kernel)).2.2 .exec 0x20000 0x100000000 [1, 2] [] rfl rfl (by decide +kernel) (by decide +kernel)) := ⟨trivial, trivial, trivial⟩

/-! ### Witnesses: global memory -/

/-- The access stream: g5 = 2^32, g6 = 2^57, g7 = 4, g8 = 8, g9 = 2^32 + 1. -/
def accs (k : Core) : Core := mapThread k (.stream 0 .acc) fun t =>
  [(5, 0x100000000), (6, 0x200000000000000), (7, 4), (8, 8), (9, 0x100000001)].foldl (fun t (e : BitVec 5 × Word) => regSet t e.1 e.2) { t with running := true }
def sAcc : State := on (.stream 0 .acc) (box accs)
/-- The same for a body that is not promoted. -/
def sSpec : State := on (.stream 0 .acc) (spec (box accs))
theorem test_witness_GlobalLoadsIssue (h : Claim.GlobalLoadsIssue) :
    Met ((h.1 (.gldW (.g 4) (.g 7) 0) _ _ _ _ rfl sAcc _ _ (passes_of (by decide +kernel)) rfl).1 1 rfl (by unfold globalFails; decide +kernel)) ∧
    Met ((h.1 (.gldW (.g 4) (.g 6) 0) _ _ _ _ rfl sAcc _ _ (passes_of (by decide +kernel)) rfl).1 2 rfl (by unfold globalFails; decide +kernel)) ∧
    Met ((h.1 (.gldW (.g 4) (.g 9) 1) _ _ _ _ rfl sAcc _ _ (passes_of (by decide +kernel)) rfl).1 3 rfl (by unfold globalFails; decide +kernel)) ∧
    Met ((h.1 (.gldH (.g 4) (.g 6) (-1)) _ _ _ _ rfl sAcc _ _ (passes_of (by decide +kernel)) rfl).2 (by unfold globalOk; decide +kernel) (by decide +kernel)
      (by unfold DestFree; decide +kernel) (by decide +kernel)) ∧
    Met ((h.1 (.gldB (.sp 2) (.g 5) 7) _ _ _ _ rfl sAcc _ _ (passes_of (by decide +kernel)) rfl).2 (by unfold globalOk; decide +kernel) (by decide +kernel)
      (.intro rfl (by decide +kernel)) (by decide +kernel)) ∧
    Met (h.2.1 (.gamoMax (.g 4) (.g 5) (.g 8)) _ _ _ _ rfl sAcc _ _ _ _ (passes_of (by decide +kernel)) rfl rfl (by unfold globalOk; decide +kernel) (by decide +kernel)
      (by unfold DestFree; decide +kernel) (by decide +kernel)) ∧
    Met (h.2.2.1 (.sp 2) (.g 5) (.g 8) sAcc _ _ _ _ _ (passes_of (by decide +kernel)) rfl rfl (by unfold globalOk; decide +kernel) (by decide +kernel)
      (.intro rfl (by decide +kernel)) (by decide +kernel)) ∧
    Met (h.2.2.2 (.gldW (.sp 4) (.g 5) 0) 4 _ sAcc (by decide) (.inl ⟨_, _, _, rfl, rfl⟩) (passes_of (by decide +kernel))) ∧
    Met (h.2.2.2 (.gamoAdd (.sp 3) (.g 5) (.g 8)) 3 _ sAcc (by decide) (.inr (.inl ⟨_, _, _, rfl, rfl⟩)) (passes_of (by decide +kernel))) ∧
    Met (h.2.2.2 (.gamoCas (.sp 4) (.g 5) (.g 9)) 4 _ sAcc (by decide) (.inr (.inr ⟨_, _, rfl, rfl⟩)) (passes_of (by decide +kernel))) :=
  ⟨trivial, trivial, trivial, trivial, trivial, trivial, trivial, trivial, trivial, trivial⟩
theorem test_witness_GlobalStoresIssue (h : Claim.GlobalStoresIssue) :
    Met ((h.1 (.gstH (.g 4) (.g 9) 0) _ _ _ _ rfl sAcc _ _ _ _ (passes_of (by decide +kernel)) rfl rfl).1 3 (by unfold globalFails; decide +kernel)) ∧
    Met ((h.1 (.gstD (.g 8) (.g 5) 3) _ _ _ _ rfl sAcc _ _ _ _ (passes_of (by decide +kernel)) rfl rfl).2.1 (by unfold globalOk; decide +kernel) (by decide +kernel) (by decide +kernel)) ∧
    Met ((h.1 (.gstB (.g 8) (.g 6) (-1)) _ _ _ _ rfl sSpec _ _ _ _ (passes_of (by decide +kernel)) rfl rfl).2.2 (by unfold globalOk; decide +kernel) (by decide +kernel)
      specTask (by decide +kernel) (by decide)) ∧
    Met ((h.2 (.g 5) (.g 6) sAcc _ _ _ _ (passes_of (by decide +kernel)) rfl rfl).1 (by unfold globalOk; decide +kernel) (by decide +kernel)) ∧
    Met ((h.2 (.g 7) (.g 7) sAcc _ _ _ _ (passes_of (by decide +kernel)) rfl rfl).2.1 (by decide +kernel)) ∧
    Met ((h.2 (.g 5) (.g 0) sAcc _ _ _ _ (passes_of (by decide +kernel)) rfl rfl).2.2 rfl) := ⟨trivial, trivial, trivial, trivial, trivial, trivial⟩
/-- PID 0's tables at 0x2000, 0x3000 and 0x4000; 1 GiB leaves from 2^32 on: every right, only V, host memory, not valid, malformed, poisoned. -/
def tables : Memory :=
  let put (m : Memory) (a v : Nat) : Memory := pokes m a (leBytes 8 v)
  put (put (put (put (put (put (put (put [] 0x1000 0x2001) 0x2000 0x3001) 0x3000 0x4001) 0x4020 0x4000001F) 0x4028 3) 0x4030 0x4000003F) 0x4040 0x11) 0x40000008 0x8899
def sGlobal (a : Nat) (k : GKind) (up : Bool) : State :=
  { sAcc with gmem := tables, gpoison := [0x809], hostLink := up, host := { sAcc.host with pidDir := 0x1000 }
              gnet := [⟨3, ⟨0, 0, 0, .acc, 1⟩, 0, BitVec.ofNat 64 a, k, false, none, 0, none⟩] }
theorem walk_of {s : State} {pid : BitVec 20} {a n : Nat} {T : Nat → Nat}
    (h : (let p := s.host.pidDir.toNat / 2 ^ 12 % 2 ^ 29 * 4096 + 8 * pid.toNat
      let d := leValue s.gmem p 8
      decide (p / 8 ∉ s.gpoison) && decide (d % 4096 = 1) && decide (d < 2 ^ 41) && decide (T 1 = d - 1) && (List.range n).all fun j =>
        j == 0 || (decide ((T j + 8 * (a / 2 ^ (57 - 9 * j) % 512)) / 8 ∉ s.gpoison) && (tableEntry s (T j) a j).getLsbD 0 &&
          !(tableEntry s (T j) a j).getLsbD 1 && !malformedEntry j a (tableEntry s (T j) a j) &&
          decide (T (j + 1) = (tableEntry s (T j) a j).toNat / 2 ^ 12 % 2 ^ 36 * 4096))) = true) : WalkTo s pid a n T := by
  simp only [Bool.and_eq_true, decide_eq_true_eq, List.all_eq_true, Bool.or_eq_true, Bool.not_eq_true', List.mem_range, beq_iff_eq] at h
  obtain ⟨⟨⟨⟨h1, h2⟩, h3⟩, h4⟩, h5⟩ := h
  refine ⟨h1, h2, h3, h4, fun j hj hn => ?_⟩
  rcases h5 j hn with h | h
  · omega
  · exact ⟨h.1.1.1.1, h.1.1.1.2, h.1.1.2, h.1.2, h.2⟩
def T3 (j : Nat) : Nat := 0x1000 + 0x1000 * j
theorem leaf_of {s : State} {pid : BitVec 20} {a : Nat} {e : Word} (hw : WalkTo s pid a 3 T3)
    (h : ((keptXlat s pid a == none) && decide ((T3 3 + 8 * (a / 2 ^ (57 - 9 * 3) % 512)) / 8 ∉ s.gpoison) && decide (e = tableEntry s (T3 3) a 3) &&
      e.getLsbD 0 && e.getLsbD 1 && !malformedEntry 3 a e) = true) : Leaf s pid a 3 e := by
  simp only [Bool.and_eq_true, decide_eq_true_eq, Bool.not_eq_true', beq_iff_eq] at h
  exact .inr ⟨h.1.1.1.1.1, by decide, by decide, T3, hw, h.1.1.1.1.2, h.1.1.1.2, h.1.1.2, h.1.2, h.2⟩
theorem ready_of {s : State} {id : Nat} {r : GReq} (h : (decide (gReady s.gnet id [] = some r) && (!r.held || s.hostLink)) = true) : RequestReady s id r := by
  simp only [Bool.and_eq_true, decide_eq_true_eq, Bool.or_eq_true, Bool.not_eq_true'] at h
  exact ⟨h.1, fun e => h.2.resolve_left (by simp [e])⟩
theorem open_of {s : State} {e : Word} {p n : Nat}
    (h : ((!e.getLsbD 5 || s.hostLink) && (e.getLsbD 5 || s.gpoison.all fun w => decide (8 * w + 8 ≤ p ∨ p + n ≤ 8 * w))) = true) : LeafOpen s e p n := by
  simp only [Bool.and_eq_true, Bool.or_eq_true, Bool.not_eq_true', List.all_eq_true, decide_eq_true_eq] at h
  exact ⟨fun g => h.1.resolve_left (by rw [g]; decide), fun g => h.2.resolve_left (by rw [g]; decide)⟩
def asks (a : Nat) (k : GKind) : GReq := ⟨3, ⟨0, 0, 0, .acc, 1⟩, 0, BitVec.ofNat 64 a, k, false, none, 0, none⟩
theorem test_witness_GlobalAccesses (h : Claim.GlobalAccesses) :
    Met (((h (sGlobal 0x100000008 (.load 2) true) 3 (asks 0x100000008 (.load 2)) 3 0x4000001F (ready_of (by decide +kernel)) rfl (by decide) (leaf_of (walk_of (by decide +kernel)) (by decide +kernel))).1
      2 rfl (by decide)).1 (by decide) (open_of (by decide +kernel))) ∧
    Met (((h (sGlobal 0x140000008 (.load 8) true) 3 (asks 0x140000008 (.load 8)) 3 3 (ready_of (by decide +kernel)) rfl (by decide) (leaf_of (walk_of (by decide +kernel)) (by decide +kernel))).1
      8 rfl (by decide)).2 (by decide)) ∧
    Met (((h (sGlobal 0x180000008 (.store [1, 2]) true) 3 (asks 0x180000008 (.store [1, 2])) 3 0x4000003F (ready_of (by decide +kernel)) rfl (by decide) (leaf_of (walk_of (by decide +kernel)) (by decide +kernel))).2.1
      [1, 2] rfl).1 (by decide) (by decide +kernel)) ∧
    Met (((h (sGlobal 0x140000008 (.store [1, 2]) true) 3 (asks 0x140000008 (.store [1, 2])) 3 3 (ready_of (by decide +kernel)) rfl (by decide) (leaf_of (walk_of (by decide +kernel)) (by decide +kernel))).2.1
      [1, 2] rfl).2 (by decide)) ∧
    Met (((h (sGlobal 0x100000008 (.amo .add 1 0) true) 3 (asks 0x100000008 (.amo .add 1 0)) 3 0x4000001F (ready_of (by decide +kernel)) rfl (by decide) (leaf_of (walk_of (by decide +kernel)) (by decide +kernel))).2.2.1
      .add 1 0 rfl).1 (by decide) (open_of (by decide +kernel))) ∧
    Met (((h (sGlobal 0x140000008 (.amo .add 1 0) true) 3 (asks 0x140000008 (.amo .add 1 0)) 3 3 (ready_of (by decide +kernel)) rfl (by decide) (leaf_of (walk_of (by decide +kernel)) (by decide +kernel))).2.2.1
      .add 1 0 rfl).2 (by decide)) ∧
    Met ((h (sGlobal 0x100000008 (.mscfl 56) true) 3 (asks 0x100000008 (.mscfl 56)) 3 0x4000001F (ready_of (by decide +kernel)) rfl (by decide) (leaf_of (walk_of (by decide +kernel)) (by decide +kernel))).2.2.2.1
      56 rfl (by decide) (by decide +kernel) (by decide) (by decide)) ∧
    Met ((h (sGlobal 0x100000008 (.pref 56) true) 3 (asks 0x100000008 (.pref 56)) 3 0x4000001F (ready_of (by decide +kernel)) rfl (by decide) (leaf_of (walk_of (by decide +kernel)) (by decide +kernel))).2.2.2.2 56 rfl) :=
  ⟨trivial, trivial, trivial, trivial, trivial, trivial, trivial, trivial⟩
/-- A store to host memory that the link held under its translation. -/
def granted : GReq := { asks 0x180000008 (.store [1]) with held := true, granted := some ⟨0x40000008, true, 30⟩ }
theorem test_witness_TranslationFailures (h : Claim.TranslationFailures) :
    Met (((h (sGlobal 0x1C0000008 (.load 2) true) 3 (asks 0x1C0000008 (.load 2)) (ready_of (by decide +kernel)) (.inl ⟨2, rfl⟩)).1 3 T3 rfl (by decide) (by decide) (by decide +kernel)
      (walk_of (by decide +kernel))).1 (by unfold entryPoisoned; decide +kernel) (by decide +kernel)) ∧
    Met (((h (sGlobal 0x8000000000000 (.store [1]) true) 3 (asks 0x8000000000000 (.store [1])) (ready_of (by decide +kernel)) (.inr (.inl ⟨[1], rfl⟩))).1 1 T3 rfl (by decide) (by decide) (by decide +kernel)
      (walk_of (by decide +kernel))).1 (by unfold entryPoisoned; decide +kernel) (by decide +kernel)) ∧
    Met (((h (sGlobal 0x200000008 (.load 2) true) 3 (asks 0x200000008 (.load 2)) (ready_of (by decide +kernel)) (.inl ⟨2, rfl⟩)).1 3 T3 rfl (by decide) (by decide) (by decide +kernel)
      (walk_of (by decide +kernel))).2 (.inr (by decide +kernel))) ∧
    Met (((h (sGlobal 0x240000008 (.amo .or 1 0) true) 3 (asks 0x240000008 (.amo .or 1 0)) (ready_of (by decide +kernel)) (.inr (.inr ⟨.or, 1, 0, rfl⟩))).1 3 T3 rfl (by decide) (by decide) (by decide +kernel)
      (walk_of (by decide +kernel))).2 (.inl (by unfold entryPoisoned; decide +kernel))) ∧
    Met ((h (sGlobal 0x180000008 (.load 2) false) 3 (asks 0x180000008 (.load 2)) (ready_of (by decide +kernel)) (.inl ⟨2, rfl⟩)).2.1 3 0x4000003F rfl
      (leaf_of (walk_of (by decide +kernel)) (by decide +kernel)) (by decide) (by decide) (by decide) (by decide) rfl) ∧
    Met ((h { sGlobal 0x180000008 (.store [1]) true with gnet := [granted] } 3 granted (ready_of (by decide +kernel)) (.inr (.inl ⟨[1], rfl⟩))).2.2 [1] 0x40000008 30 rfl rfl rfl) :=
  ⟨trivial, trivial, trivial, trivial, trivial, trivial⟩
/-- A load of the access stream whose place in lq is reserved, a posted store, and the reply to one of them. -/
def gload : GLoad := ⟨3, 0x20100, 0x100000000, .sp 2, none, none, false, false⟩
def posted1 : Posted := ⟨1, .global, .acc, 0x20100, 0, 0x100000000, none, false, false⟩
def sReply (k : GKind) (r : GReply) : State :=
  { on (.stream 0 .acc) (box fun c => { slot (fun x => { x with lq := [.word 1, .reserved 3], posted := [posted1] })
      (bytes 0x20200 [0x00, 0x9A] (mapThread (accs c) (.stream 0 .acc) fun t => { t with gld := [gload], ld := 1, st := 1 })) with tvec := 0x20200 }) with
    gnet := [⟨3, ⟨0, 0, 0, .acc, 1⟩, 0, 0x100000000, k, false, none, 0, some r⟩] }
theorem test_witness_GlobalReplies (h : Claim.GlobalReplies) :
    Met (h.1 (sReply (.load 8) (.data 9)) 0 0 gload [] 9 (by decide +kernel) rfl rfl (by decide +kernel)) ∧
    Met (h.2.1 (sReply (.store [1]) .done) 3 ⟨3, ⟨0, 0, 0, .acc, 1⟩, 0, 0x100000000, .store [1], false, none, 0, some .done⟩ posted1 (by unfold OneRequest; decide +kernel) (.inl ⟨[1], rfl⟩)
      (by unfold Waiting; decide +kernel) (by unfold LastOf; decide +kernel) none (.inl ⟨rfl, rfl⟩)) ∧
    Met (h.2.1 (sReply (.mscfl 64) (.error (why 0x082 2))) 3 ⟨3, ⟨0, 0, 0, .acc, 1⟩, 0, 0x100000000, .mscfl 64, false, none, 0, some (.error (why 0x082 2))⟩ posted1 (by unfold OneRequest; decide +kernel)
      (.inr ⟨64, rfl⟩) (by unfold Waiting; decide +kernel) (by unfold LastOf; decide +kernel) (some (why 0x082 2)) (.inr ⟨_, rfl, rfl⟩)) ∧
    Met (h.2.2 (sReply (.load 8) (.error (why 0x081 3))) 0 0 gload [] (why 0x081 3) (by decide +kernel) (by decide +kernel) (by decide +kernel) (by decide +kernel) (by unfold TrapReady; decide +kernel) (by decide +kernel)
      rfl rfl rfl (by decide +kernel)) := ⟨trivial, trivial, trivial, trivial⟩
/-- A shoot-down of every page of PID 7 is under way. -/
def sShoot : State := { sAcc with host := { sAcc.host with shoot := some (7, none) }, tlb := [⟨3, 7, 5, 0x100000, 0x40001F⟩, ⟨3, 8, 5, 0x100000, 0x40001F⟩] }
/-- The host link is down, and has held a read for `n` cycles. -/
def sHeld (n : Nat) : State :=
  { sGlobal 0x180000008 (.load 2) false with time := BitVec.ofNat 64 n, gnet := [{ asks 0x180000008 (.load 2) with held := true, granted := some ⟨0x40000008, true, 30⟩ }] }
theorem test_witness_ShootDowns (h : Claim.ShootDowns) :
    Met ((h.1 sAcc 0x8000000000000002).1 rfl rfl (by decide) (by decide) rfl) ∧
    Met ((h.1 sAcc 2).2 (.inr (.inr (.inl (by decide))))) ∧ Met ((h.1 sShoot 0x8000000000000002).2 (.inr (.inr (.inr (.inr (by decide)))))) ∧
    Met ((h.2.1 { sShoot with gnet := [{ asks 0x180000008 (.load 2) with held := true, granted := some ⟨0x40000008, true, 30⟩, pid := 7 }] } 0 7 none rfl).1 (by decide +kernel)) ∧
    Met ((h.2.1 sShoot 3 7 none rfl).2 (by decide +kernel)) ∧
    Met (h.2.2.1 (sHeld 9999999) 3 _ (by unfold OneRequest; exact ⟨List.mem_singleton_self _, rfl, fun x hx _ => List.mem_singleton.mp hx⟩) (.inr (by decide +kernel))) ∧
    Met (h.2.2.2 (sHeld 10000000) 3 _ (by unfold OneRequest; exact ⟨List.mem_singleton_self _, rfl, fun x hx _ => List.mem_singleton.mp hx⟩) rfl rfl rfl (by decide +kernel)) :=
  ⟨trivial, trivial, trivial, trivial, trivial, trivial, trivial⟩

/-! ### Witnesses: messages and the cluster network -/

/-- g5 = 0x1008, g6 = 8, g7 a reference to byte 0x2000 of core 1, g8 the same with operation 8, g9 = 0x1010, g10 with operation 15, g11 to
no core, g12 to core 2 of no launch, g13 = 1, g14 to core 1 with the barrier object 0x2100. -/
def msgRegs : Core → Core := regs [(5, 0x1008), (6, 8), (7, 0x202000), (8, 0x8000000000202000), (9, 0x1010), (10, 0xF000000000202000),
  (11, 0x3FFE02000), (12, 0x402000), (13, 1), (14, 0x108400202000)]
def sMsg : State := two (box msgRegs)
def sMsgSpec : State := two (spec (box msgRegs))
theorem test_witness_MessagesIssue (h : Claim.MessagesIssue) :
    Met (((h.1 (.g 7) (.g 5) (.g 6) sMsg _ _ _ _ _ _ (passes_of (by decide +kernel)) rfl rfl rfl (by decide +kernel)).1 (by unfold Reference; decide +kernel) (by decide +kernel)
      (by decide +kernel) (by unfold WithinLine; decide +kernel) (by unfold WithinLine; decide +kernel)).1 (read_of (by decide +kernel)) (by decide +kernel) (by decide +kernel)
      |>.1 (by decide +kernel) (by decide +kernel)) ∧
    Met (((h.1 (.g 14) (.g 5) (.g 6) sMsgSpec _ _ _ _ _ _ (passes_of (by decide +kernel)) rfl rfl rfl (by decide +kernel)).1 (by unfold Reference; decide +kernel) (by decide +kernel)
      (by decide +kernel) (by unfold WithinLine; decide +kernel) (by unfold WithinLine; decide +kernel)).1 (read_of (by decide +kernel)) (by decide +kernel) (by decide +kernel)
      |>.2 (by decide +kernel) specTask (by decide +kernel) (by decide)) ∧
    Met (((h.1 (.g 14) (.g 5) (.g 6) sMsg _ _ _ _ _ _ (passes_of (by decide +kernel)) rfl rfl rfl (by decide +kernel)).1 (by unfold Reference; decide +kernel) (by decide +kernel)
      (by decide +kernel) (by unfold WithinLine; decide +kernel) (by unfold WithinLine; decide +kernel)).2 (write_of (by decide +kernel))
      (by intro _; exact ⟨read_of (by decide +kernel), write_of (by decide +kernel)⟩) (by decide +kernel) (by decide +kernel) (none_of (by decide +kernel)) (by decide +kernel)) ∧
    Met ((h.1 (.g 7) (.g 5) (.g 6) sMsg _ _ _ _ _ _ (passes_of (by decide +kernel)) rfl rfl rfl (by decide +kernel)).2 (by unfold Reference; decide +kernel) (by decide +kernel)
      (write_of (by decide +kernel)) (by decide +kernel) (by decide +kernel) (none_of (by decide +kernel)) (by decide +kernel)) ∧
    Met ((h.1 (.g 8) (.g 9) (.g 6) sMsg _ _ _ _ _ _ (passes_of (by decide +kernel)) rfl rfl rfl (by decide +kernel)).2 (by unfold Reference; decide +kernel) (by decide +kernel)
      (write_of (by decide +kernel)) (by decide +kernel) (by decide +kernel) (none_of (by decide +kernel)) (by decide +kernel)) ∧
    Met ((h.2 (.g 13) (.g 6) sMsg _ _ _ _ (passes_of (by decide +kernel)) rfl rfl (by decide +kernel) (by decide +kernel) (by decide +kernel)).1 (by decide +kernel) (by decide +kernel)) ∧
    Met ((h.2 (.g 0) (.g 6) sMsgSpec _ _ _ _ (passes_of (by decide +kernel)) rfl rfl (by decide +kernel) (by decide +kernel) (by decide +kernel)).2 (by decide +kernel)
      specTask (by decide +kernel) (by decide)) := ⟨trivial, trivial, trivial, trivial, trivial, trivial, trivial⟩
theorem test_witness_MessageTraps (h : Claim.MessageTraps) :
    Met ((h (.g 10) (.g 5) (.g 6) sMsg _ _ _ _ _ _ false (.msgPut (.g 10) (.g 5) (.g 6)) (passes_of (by decide +kernel)) rfl rfl rfl (.inl ⟨rfl, rfl⟩)).1 (by decide +kernel)) ∧
    Met ((h (.g 7) (.g 5) (.g 0) sMsg _ _ _ _ _ _ false (.msgGet (.g 7) (.g 5) (.g 0)) (passes_of (by decide +kernel)) rfl rfl rfl (.inr (.inl ⟨rfl, rfl⟩))).1 (by decide +kernel)) ∧
    Met ((h (.g 14) (.g 5) (.g 6) sMsg _ _ _ _ _ _ true (.msgAmo (.g 14) (.g 5) (.g 6)) (passes_of (by decide +kernel)) rfl rfl rfl (.inr (.inr ⟨rfl, rfl⟩))).1 (by decide +kernel)) ∧
    Met ((h (.g 11) (.g 5) (.g 6) sMsg _ _ _ _ _ _ false (.msgPut (.g 11) (.g 5) (.g 6)) (passes_of (by decide +kernel)) rfl rfl rfl (.inl ⟨rfl, rfl⟩)).2.1 (by decide +kernel) (by decide +kernel)) ∧
    Met ((h (.g 12) (.g 5) (.g 6) sMsg _ _ _ _ _ _ true (.msgAmo (.g 12) (.g 5) (.g 6)) (passes_of (by decide +kernel)) rfl rfl rfl (.inr (.inr ⟨rfl, rfl⟩))).2.2 (by decide +kernel)
      (by decide +kernel) (by decide +kernel)) := ⟨trivial, trivial, trivial, trivial, trivial⟩
/-- The message from core `a` to core `1 - a` for posted entry 1 of core 0's slot 0, cores 0 and 1 changed by `f` and `g`. -/
def origin1 : Origin := ⟨0, 0, 0, .exec, 1⟩
def mail (a : Bool) (cls : Machine.Class) (p : Payload) : Msg := ⟨3, if a then 1 else 0, if a then 0 else 1, cls, .stream 0 .exec, 9, some origin1, none, false, false, p⟩
def sNet (a : Bool) (cls : Machine.Class) (f g : Core → Core) (p : Payload) : State :=
  let s := two (box f)
  { s with cores := [(0, coreAt s 0), (1, g (coreAt s 1))], net := [mail a cls p] }
/-- Pages 2 and 3 of a destination, open to everyone; a barrier object at 0x2100 that expects 2, with one arrival in round 7. -/
def bar1 : Bar := ⟨2, 1, 2, 7, 0⟩
def dest (k : Core) : Core := bytes 0x2100 (leBytes 16 (barImage bar1)) (bytes 0x2000 [1, 2, 3, 4, 5, 6, 7, 8] { k with attr := [(2, 0x1B), (3, 0x1B)] })
def sAt (p : Payload) : State := sNet false .request id dest p
theorem test_witness_MessagesServed (h : Claim.MessagesServed) :
    Met (((h (sAt (.put 0x202000 [9, 8])) 3 (mail false .request (.put 0x202000 [9, 8])) (by decide +kernel)).1 0x202000 [9, 8] rfl (by unfold OpenTo; decide +kernel)
      (by unfold NoAbort; decide +kernel)).1 (by decide)) ∧
    Met (((h (sAt (.put 0x108400202000 [9, 8])) 3 (mail false .request (.put 0x108400202000 [9, 8])) (by decide +kernel)).1 0x108400202000 [9, 8] rfl (by unfold OpenTo; decide +kernel)
      (by unfold NoAbort; decide +kernel)).2 bar1 (by decide) (by unfold OpenTo; decide +kernel) (by unfold ObjectAt; decide +kernel) (by unfold NoAbort; decide +kernel) (by decide)) ∧
    Met ((h (sAt (.getReq 0x202000 8 0x3000)) 3 (mail false .request (.getReq 0x202000 8 0x3000)) (by decide +kernel)).2.1 0x202000 8 0x3000 rfl (by unfold OpenTo; decide +kernel) (by decide +kernel)) ∧
    Met ((h (sAt (.atomicReq 0x4000000000202000 5 0x3000)) 3 (mail false .request (.atomicReq 0x4000000000202000 5 0x3000)) (by decide +kernel)).2.2.1 0x4000000000202000 5 0x3000 rfl
      (by decide) (by unfold OpenTo; decide +kernel) (by decide +kernel) (by unfold NoAbort; decide +kernel)) ∧
    Met (((h (sAt (.atomicReq 0x8000000000202100 0 0x3000)) 3 (mail false .request (.atomicReq 0x8000000000202100 0 0x3000)) (by decide +kernel)).2.2.2.1 0x8000000000202100 0 0x3000 bar1 rfl
      (by decide) (by unfold OpenTo; decide +kernel) (by unfold ObjectAt; decide +kernel) (by unfold NoAbort; decide +kernel)).1 (by decide) (by decide)) ∧
    Met (((h (sAt (.atomicReq 0x9000000000202100 64 0x3000)) 3 (mail false .request (.atomicReq 0x9000000000202100 64 0x3000)) (by decide +kernel)).2.2.2.1 0x9000000000202100 64 0x3000 bar1 rfl
      (by decide) (by unfold OpenTo; decide +kernel) (by unfold ObjectAt; decide +kernel) (by unfold NoAbort; decide +kernel)).2.1 (by decide)) ∧
    Met (((h (sAt (.atomicReq 0xA000000000202100 7 0x3000)) 3 (mail false .request (.atomicReq 0xA000000000202100 7 0x3000)) (by decide +kernel)).2.2.2.1 0xA000000000202100 7 0x3000 bar1 rfl
      (by decide) (by unfold OpenTo; decide +kernel) (by unfold ObjectAt; decide +kernel) (by unfold NoAbort; decide +kernel)).2.2 (by decide)) ∧
    Met (((h (sAt (.atomicReq 0xA000000000202100 6 0x3000)) 3 (mail false .request (.atomicReq 0xA000000000202100 6 0x3000)) (by decide +kernel)).2.2.2.1 0xA000000000202100 6 0x3000 bar1 rfl
      (by decide) (by unfold OpenTo; decide +kernel) (by unfold ObjectAt; decide +kernel) (by unfold NoAbort; decide +kernel)).2.2 (by decide)) ∧
    Met (((h (sAt (.signal 77)) 3 (mail false .request (.signal 77)) (by decide +kernel)).2.2.2.2 77 rfl (by decide +kernel)).1 (by decide +kernel)) ∧
    Met (((h (sNet false .request id (fun k => { k with mbHeld := [(.device, [1])] }) (.signal 77)) 3 (mail false .request (.signal 77)) (by decide +kernel)).2.2.2.2 77 rfl
      (by decide +kernel)).2 (by decide +kernel)) :=
  ⟨trivial, trivial, trivial, trivial, trivial, trivial, trivial, trivial, trivial, trivial⟩
/-- The destination's page 2 is closed to a write from afar, and to a read. -/
def shut (k : Core) : Core := { k with attr := [(2, 0x02)] }
theorem test_witness_MessagesRefused (h : Claim.MessagesRefused) :
    Met ((h (sNet false .request id shut (.put 0x202000 [9])) 3 (mail false .request (.put 0x202000 [9])) (why 0x067 0) 0x202000 (by decide +kernel)).1 [9] rfl (by decide +kernel)) ∧
    Met ((h (sNet false .request id shut (.getReq 0x202000 8 0x3000)) 3 (mail false .request (.getReq 0x202000 8 0x3000)) (why 0x061 0) 0x202000 (by decide +kernel)).2.1 8 0x3000 rfl (by decide +kernel)) ∧
    Met ((h (sNet false .request id shut (.atomicReq 0x202000 5 0x3000)) 3 (mail false .request (.atomicReq 0x202000 5 0x3000)) (why 0x061 0) 0x202000 (by decide +kernel)).2.2 5 0x3000 rfl
      (by decide) (by decide +kernel)) := ⟨trivial, trivial, trivial⟩
/-- Core 0 waits for the answer of posted entry 1, with its scoreboard entry. -/
def entry1 : Posted := ⟨1, .message 1, .exec, 0x20000, 0, 0x2000, none, false, false⟩
def waits (k : Core) : Core := { slot (fun x => { x with posted := [entry1] }) (thread (fun t => { t with st := 1 }) k) with score := [⟨.get 0 1, [(0x3000, 0x3040)], []⟩] }
theorem test_witness_RepliesArrive (h : Claim.RepliesArrive) :
    Met ((h (sNet true .reply waits id (.getData 0x202000 0x3000 [1, 2] none)) 3 (mail true .reply (.getData 0x202000 0x3000 [1, 2] none)) origin1 entry1 (by decide +kernel) rfl
      (by unfold Waiting; decide +kernel) (by unfold LastOf; decide +kernel)).1 0x202000 0x3000 [1, 2] rfl (by decide) (by unfold NoAbort; decide +kernel)) ∧
    Met ((h (sNet true .reply waits id (.atomicReply 0x3000 5 none)) 3 (mail true .reply (.atomicReply 0x3000 5 none)) origin1 entry1 (by decide +kernel) rfl
      (by unfold Waiting; decide +kernel) (by unfold LastOf; decide +kernel)).2.1 0x3000 5 none rfl (by unfold NoAbort; decide +kernel)) ∧
    Met ((h (sNet true .reply waits id (.ack (some (why 0x0A0 1)) 0)) 3 (mail true .reply (.ack (some (why 0x0A0 1)) 0)) origin1 entry1 (by decide +kernel) rfl
      (by unfold Waiting; decide +kernel) (by unfold LastOf; decide +kernel)).2.2 (some (why 0x0A0 1)) 0 rfl (by decide)) := ⟨trivial, trivial, trivial⟩
/-- The same at a later cycle of core 0. -/
def late (n : Nat) (k : Core) : Core := { waits k with cycle := BitVec.ofNat 64 n }
theorem test_witness_LostReplies (h : Claim.LostReplies) :
    Met (h.1 (sNet true .reply waits id (.ack none 0)) 3 (mail true .reply (.ack none 0)) origin1 entry1 none 0 true (by decide +kernel) (by decide +kernel) rfl (by decide +kernel) rfl rfl rfl
      (by decide +kernel) (by unfold Waiting; decide +kernel) (by decide) (by unfold LastOf; decide +kernel)) ∧
    Met (h.1 (sNet true .reply waits id (.ack (some (why 0x0A0 1)) 0)) 3 (mail true .reply (.ack (some (why 0x0A0 1)) 0)) origin1 entry1 (some (why 0x0A0 1)) 0 false (by decide +kernel)
      (by decide +kernel) rfl (by decide +kernel) rfl rfl rfl (by decide +kernel) (by unfold Waiting; decide +kernel) (by decide) (by unfold LastOf; decide +kernel)) ∧
    Met ((h.2 { sNet true .reply (late 0xFFFFFF) id (.ack none 0) with net := [] } 0 0 entry1 (by decide +kernel) (by decide +kernel) rfl rfl (by intro m hm; cases hm)).1 (by decide +kernel)) ∧
    Met ((h.2 { sNet true .reply (late 0x1000000) id (.ack none 0) with net := [] } 0 0 entry1 (by decide +kernel) (by decide +kernel) rfl rfl (by intro m hm; cases hm)).2 (by decide +kernel)) :=
  ⟨trivial, trivial, trivial, trivial⟩
/-- A core with port 2 of slot 0 full, or one whose mailbox holds a message back. -/
def fullPort (n : Nat) (k : Core) : Core := slot (fun x => { x with ports := x.ports.set 2 { cfg := 0, send := [], recv := List.replicate n 5 } }) k
theorem test_witness_PortsAndMailbox (h : Claim.PortsAndMailbox) :
    Met (h.1 2 (.g 5) (two (box (regs [(5, 0x80000001)]))) _ _ 2 (passes_of (by decide +kernel)) rfl rfl (.inr (by decide +kernel)) rfl rfl
      (by intro k hk; have : k = placeTask 0 := by injection hk with e; exact e.symm
          subst this; intro x w hx; cases hx) rfl) ∧
    Met (h.1 3 (.g 0) sMsg _ _ 3 (passes_of (by decide +kernel)) rfl rfl (.inl rfl) rfl rfl
      (by intro k hk; have : k = placeTask 0 := by injection hk with e; exact e.symm
          subst this; intro x w hx; cases hx) rfl) ∧
    Met ((h.2.1 (sNet false .request id (fullPort 7) (.portWord 2 0 6)) 3 (mail false .request (.portWord 2 0 6)) 2 0 6 (by decide +kernel) rfl (by decide +kernel)).1 (by decide +kernel)) ∧
    Met ((h.2.1 (sNet false .request id (fullPort 8) (.portWord 2 0 6)) 3 (mail false .request (.portWord 2 0 6)) 2 0 6 (by decide +kernel) rfl (by decide +kernel)).2 (by decide +kernel)) ∧
    Met ((h.2.2 (box fun k => { k with mb := List.replicate 127 1, mbHeld := [(.notice 0, [2, 3]), (.device, [4])] }) 0 (.notice 0) [2, 3] [(.device, [4])] (by decide +kernel)).1
      (by decide +kernel)) ∧
    Met ((h.2.2 (box fun k => { k with mb := [1], mbHeld := [(.notice 0, [2, 3]), (.device, [4])] }) 0 (.notice 0) [2, 3] [(.device, [4])] (by decide +kernel)).2
      (by decide +kernel) (by decide +kernel)) := ⟨trivial, trivial, trivial, trivial, trivial, trivial⟩
/-- A launch of three identifiers of two bits, `n` served. -/
def served (n : Nat) (s : State) : State :=
  { s with launches := s.launches.map fun l => { l with kernel := { l.kernel with widths := [2, 62], extents := [3, 1] }, ordinal := n } }
theorem test_witness_WorkQueries (h : Claim.WorkQueries) :
    Met (h.1 (.g 5) (.g 0) sMsg _ _ _ _ (passes_of (by decide +kernel)) rfl rfl (by decide +kernel) (by decide +kernel) (write_of (by decide +kernel)) rfl (forks_of rfl) rfl (by decide)
      (by decide +kernel)) ∧
    Met (h.2.1 (.g 4) (.g 7) 1 (served 0 sMsg) _ _ _ _ _ (passes_of (by decide +kernel)) rfl (by decide) rfl rfl rfl) ∧
    Met (h.2.1 (.g 4) (.g 7) 5 (served 0 sMsg) _ _ _ _ _ (passes_of (by decide +kernel)) rfl (by decide) rfl rfl rfl) ∧
    Met ((h.2.2.1 (served 2 (sAt (.workQuery 0x3000 0))) 3 (mail false .request (.workQuery 0x3000 0)) 0x3000 0 _ (by decide +kernel) rfl rfl (by decide +kernel) (by decide +kernel)).1 (by decide +kernel)) ∧
    Met ((h.2.2.1 (served 3 (sAt (.workQuery 0x3000 0))) 3 (mail false .request (.workQuery 0x3000 0)) 0x3000 0 _ (by decide +kernel) rfl rfl (by decide +kernel) (by decide +kernel)).2 (by decide +kernel)) ∧
    Met (h.2.2.2.1 (sNet true .reply waits id (.workAnswer 0x3000 0x600000 6)) 3 (mail true .reply (.workAnswer 0x3000 0x600000 6)) origin1 entry1 0x3000 0x600000 6 (by decide +kernel) rfl rfl
      (by unfold Waiting; decide +kernel) (by unfold LastOf; decide +kernel) (by unfold NoAbort; decide +kernel) (by decide +kernel) (by decide +kernel)) ∧
    Met (h.2.2.2.2 (box fun k => { k with held := [freeRec, nearRec] }) 0 freeRec [nearRec] (by decide +kernel) (by decide +kernel) (by decide +kernel)) :=
  ⟨trivial, trivial, trivial, trivial, trivial, trivial, trivial⟩
/-- A free record, and one that an older record taken at its home refuses. -/
def lateRec : BitVec 512 := BitVec.ofNat 512 (anchorAt 1 + 2 * 2 ^ 64)
theorem test_witness_SlateAndRecords (h : Claim.SlateAndRecords) :
    Met ((h.1 (sNet false .control id id (.notice true)) 3 (mail false .control (.notice true)) (by decide +kernel)).1 true rfl) ∧
    Met ((h.1 (sNet false .control id id (.stealAsk 2)) 3 (mail false .control (.stealAsk 2)) (by decide +kernel)).2.1 2 rfl) ∧
    Met ((h.1 (sNet false .control id id (.stealGrant 2 (some 0))) 3 (mail false .control (.stealGrant 2 (some 0))) (by decide +kernel)).2.2 2 (some 0) rfl (by decide +kernel)) ∧
    Met ((h.2 (sAt (.taskRec freeRec 0x1040)) 3 (mail false .request (.taskRec freeRec 0x1040)) freeRec 0x1040 (by decide +kernel) rfl (by decide +kernel)).1 (by decide +kernel)) ∧
    Met ((h.2 (sNet false .request id (fun k => { k with maxRetired := 3 }) (.taskRec lateRec 0x1040)) 3 (mail false .request (.taskRec lateRec 0x1040)) lateRec 0x1040 (by decide +kernel) rfl
      (by decide +kernel)).2 (why 0x0C0 0) (by decide +kernel) (by decide +kernel) (by decide +kernel)) := ⟨trivial, trivial, trivial, trivial, trivial⟩
/-- Core 0's stream waits for the answer to request 9. -/
def pending (r : Req) (k : Core) : Core := thread (fun t => { t with pend := [⟨9, 0x20000, r, none, []⟩] }) k
/-- The slot's body has stored byte 7 at 0x3009 of its anchor view. -/
def buffered (k : Core) : Core := slot (fun x => { x with task := some { placeTask 0 with abuf := [(0x3009, 7)] } }) k
/-- U mode sent the messages on their way. -/
def ofUser (s : State) : State := { s with net := s.net.map fun m => { m with user := true } }
theorem test_witness_WindowServed (h : Claim.WindowServed) :
    Met ((h (sNet false .cluster id dest (.winStore [(0x2000, [1, 2]), (0x2001, [3])])) 3 (mail false .cluster (.winStore [(0x2000, [1, 2]), (0x2001, [3])])) (by decide +kernel)).1
      [(0x2000, [1, 2]), (0x2001, [3])] rfl (by decide +kernel) (by unfold WindowOpen OpenTo NoAbort; decide +kernel)) ∧
    Met ((h (ofUser (sNet false .cluster id (fun k => { k with tqbase := 0x100000 }) (.winReq (.load 1 0x100004 4)))) 3 { mail false .cluster (.winReq (.load 1 0x100004 4)) with user := true } (by decide +kernel)).2.1
      0x100004 4 rfl rfl (by decide +kernel) (by decide +kernel)) ∧
    Met ((h (sNet false .cluster id dest (.winReq (.load 1 0x2004 4))) 3 (mail false .cluster (.winReq (.load 1 0x2004 4))) (by decide +kernel)).2.2.1 0x2004 4 rfl (by unfold WindowOpen OpenTo; decide +kernel)
      (by decide +kernel)) ∧
    Met ((h (sNet false .cluster id dest (.winReq (.amo 1 0x2004 4 .cas 1 2))) 3 (mail false .cluster (.winReq (.amo 1 0x2004 4 .cas 1 2))) (by decide +kernel)).2.2.2.1 0x2004 4 .cas 1 2 rfl
      (by unfold WindowOpen OpenTo; decide +kernel) (by decide +kernel) (by unfold NoAbort; decide +kernel)) ∧
    Met ((h (sNet true .cluster (pending (.load 1 0x2004 4)) id (.winAns (.load 1 0x2004 4) (.value 6))) 3 (mail true .cluster (.winAns (.load 1 0x2004 4) (.value 6))) (by decide +kernel)).2.2.2.2
      (.load 1 0x2004 4) (.value 6) (.value 6) 0 .exec origin1 rfl rfl rfl (by decide +kernel) (.inl ⟨(by intro _ _ _ _ _ e; cases e), rfl⟩)) ∧
    Met ((h (sNet true .cluster (fun k => buffered (pending (.viewLoad 1 4 0x3008 2 false) k)) id (.winAns (.viewLoad 1 4 0x3008 2 false) (.value 6))) 3
      (mail true .cluster (.winAns (.viewLoad 1 4 0x3008 2 false) (.value 6))) (by decide +kernel)).2.2.2.2 (.viewLoad 1 4 0x3008 2 false) (.value 6)
      (.value (BitVec.ofNat 64 (leNat (overlay [(0x3009, 7)] 0x3008 (leBytes 2 6))))) 0 .exec origin1 rfl rfl rfl (by decide +kernel)
      (.inr ⟨1, 4, 0x3008, 2, false, 6, { placeTask 0 with abuf := [(0x3009, 7)] }, rfl, rfl, rfl, rfl⟩)) := ⟨trivial, trivial, trivial, trivial, trivial, trivial⟩
/-- Environment 0 of core 1, generation 1, with three references and two captures. -/
def envHome (k : Core) : Core := bytes 0x10000 (env 0x20010 3 1 1 2 0) { dest k with home := [⟨4, BitVec.ofNat 512 (anchorAt 1), 0, none, some ⟨0, .stream 0 .exec⟩, false, 0⟩] }
theorem test_witness_HomeServed (h : Claim.HomeServed) :
    Met (((h (sNet false .request id envHome (.closureOp (.closureAdd 0x200001 0))) 3 (mail false .request (.closureOp (.closureAdd 0x200001 0))) (by decide +kernel)).1 0x200001 0 (by decide +kernel)
      (by unfold EnvOf; decide +kernel) (by unfold NoAbort; decide +kernel)).1 0 rfl (by decide +kernel)) ∧
    Met (((h (sNet false .request id envHome (.closureOp (.closureDrop 0x200001))) 3 (mail false .request (.closureOp (.closureDrop 0x200001))) (by decide +kernel)).1 0x200001 0 (by decide +kernel)
      (by unfold EnvOf; decide +kernel) (by unfold NoAbort; decide +kernel)).2.1 rfl (by decide +kernel)) ∧
    Met (((h (sNet false .cluster id envHome (.closureOp (.closureRead 0x200001 1))) 3 (mail false .cluster (.closureOp (.closureRead 0x200001 1))) (by decide +kernel)).1 0x200001 0 (by decide +kernel)
      (by unfold EnvOf; decide +kernel) (by unfold NoAbort; decide +kernel)).2.2 1 rfl (by decide +kernel)) ∧
    Met ((h (sNet true .cluster (pending (.closureDrop 0x200001)) id (.closureAns (.closureDrop 0x200001) (.value 0))) 3 (mail true .cluster (.closureAns (.closureDrop 0x200001) (.value 0)))
      (by decide +kernel)).2.1 (.closureDrop 0x200001) (.value 0) 0 .exec origin1 rfl rfl rfl (by decide +kernel) (by decide +kernel)) ∧
    Met (((h (sNet false .cluster id envHome (.winReq (.viewLoad 1 4 0x3008 8 false))) 3 (mail false .cluster (.winReq (.viewLoad 1 4 0x3008 8 false))) (by decide +kernel)).2.2 4 0 .exec origin1
      false rfl rfl (by decide +kernel) (by decide +kernel)).1 0x3008 8 rfl (by decide +kernel) (by decide +kernel) (by decide +kernel)) ∧
    Met (((h (sNet false .cluster id envHome (.winReq (.viewStore 1 4 true [(0x20008, [7, 8])]))) 3 (mail false .cluster (.winReq (.viewStore 1 4 true [(0x20008, [7, 8])]))) (by decide +kernel)).2.2
      4 0 .exec origin1 true rfl rfl (by decide +kernel) (by decide +kernel)).2 [(0x20008, [7, 8])] rfl
      (by intro p hp; cases List.mem_singleton.mp hp; exact ⟨⟨by decide +kernel, fun _ => by decide +kernel⟩, by decide +kernel, by unfold NoAbort; decide +kernel⟩)) :=
  ⟨trivial, trivial, trivial, trivial, trivial, trivial⟩

/-! ### Witnesses: fences, barriers, CSRs, traps -/

/-- Slot 0 of every core in S mode. -/
def sup (s : State) : State := { s with cores := s.cores.map fun e => (e.1, slot (fun x => { x with status := x.status ||| 1 }) e.2) }
/-- Barrier objects at 0x2100 to 0x2130: with room, with the round full, with both full, malformed; g5 to g8 name them. -/
def sBar : State := sup (box fun k => bytes 0x2100 (leBytes 16 (barImage bar1) ++ leBytes 16 (barImage ⟨2, 2, 1, 7, 5⟩) ++ leBytes 16 (barImage ⟨2, 2, 2, 7, 5⟩) ++ leBytes 16 (barImage ⟨2, 3, 1, 7, 5⟩))
  (regs [(5, 0x2100), (6, 0x2110), (7, 0x2120), (8, 0x2130), (9, 7), (10, 6), (11, 65536), (12, 65535)] k))
theorem place_of {s : State} {A : Word} (y : Nat)
    (h : (decide (A.toNat < 0x200000) && decide (y = A.toNat) && !viewHit s y (y + 16) && decide (A.toNat % 16 = 0) && decide (y % 16 = 0) &&
      ((List.range 16).all fun i => byteOk 0 s (y + i)) && ((List.range 16).all fun i => byteOk 1 s (y + i)) && !scoreRW (here s) y (y + 16) &&
      !windowAny s) = true) : BarrierPlace s A y := by
  simp only [Bool.and_eq_true, decide_eq_true_eq, Bool.not_eq_true'] at h
  exact ⟨.inl ⟨h.1.1.1.1.1.1.1.1, h.1.1.1.1.1.1.1.2, h.1.1.1.1.1.1.2⟩, h.1.1.1.1.1.2, h.1.1.1.1.2, read_of h.1.1.1.2, write_of h.1.1.2, h.1.2, h.2⟩
theorem words_at {s : State} {ws : List Half} (h : ((threadOf s).fbuf.isEmpty && decide (ws.length ≤ 6) && chainDone (chainRead Chain.start ws) &&
    ((List.range ws.length).all fun n => !chainDone (chainRead Chain.start (ws.take n))) &&
    (List.range ws.length).all fun j => let a := pcOf s + BitVec.ofNat 64 (2 * j)
      decide (a.toNat < 0x200000) && (attrOf (here s) (a.toNat / 4096)).getLsbD 2 && decide (leValue (here s).mem a.toNat 2 = (ws[j]?.getD 0).toNat)) = true) : WordsAt s ws := by
  simp only [Bool.and_eq_true, List.isEmpty_iff, decide_eq_true_eq, List.all_eq_true, List.mem_range, Bool.not_eq_true'] at h
  refine ⟨h.1.1.1.1, h.1.1.1.2, h.1.1.2, h.1.2, fun j hj => ?_⟩
  have := h.2 j hj
  rw [List.getElem?_eq_getElem hj] at this
  exact ⟨this.1.1, this.1.2, this.2⟩
theorem mem4 : ∀ p : Fin 4, p ∈ [0, 1, 2, 3] := by decide
/-- Nothing of the stream is on its way, in its ports, unanswered or in its outgoing buffer. -/
theorem nothing_left {s : State} (h : (s.net.isEmpty && s.gnet.isEmpty && (match farTask s with
    | some k => k.obuf.isEmpty
    | none => true) && (slotOf s).posted.isEmpty &&
    [0, 1, 2, 3].all fun p : Fin 4 => (slotAt (here s) (slotNo s.cur.unit)).ports[p].send.isEmpty) = true) :
    ¬WindowLeft s ∧ ¬DieLeft s ∧ ¬PkgLeft s := by
  simp only [Bool.and_eq_true, List.isEmpty_iff, List.all_eq_true] at h
  obtain ⟨⟨⟨⟨h1, h2⟩, h3⟩, h4⟩, h5⟩ := h
  have ho (k) (e : farTask s = some k) : k.obuf = [] := by rw [e] at h3; exact List.isEmpty_iff.mp h3
  have hw : ¬WindowLeft s := by
    rintro (⟨m, hm, -⟩ | ⟨k, pc, a, ps, e, hm, -⟩ | ⟨p, hp, -⟩)
    · simp [h1] at hm
    · simp [ho k e] at hm
    · simp [h4] at hp
  have hq (f : Coord → Prop) : ¬WordsLeft s f := by
    rintro (⟨p, -, w, hp, -⟩ | ⟨m, hm, -⟩)
    · rw [h5 p (mem4 p)] at hp; cases hp
    · simp [h1] at hm
  have hb (f : Coord → Prop) : ¬OutgoingLeft s f := by
    rintro ⟨k, e, o, hm, -⟩
    simp [ho k e] at hm
  refine ⟨hw, ?_, ?_⟩
  · rintro (e | ⟨p, d, e⟩ | e | e)
    · exact hw e
    · simp [h4] at d
    · exact hq _ e
    · exact hb _ e
  · rintro (e | e | e | e | ⟨p, hp, -⟩)
    · exact hw e
    · exact hq _ e
    · exact hb _ e
    · obtain ⟨k, pc, a, bs, ek, hm⟩ | ⟨r, hr, -⟩ := e
      · simp [ho k ek] at hm
      · simp [h2] at hr
    · simp [h4] at hp
/-- One posted entry of the scope is open. -/
def sPosted (sc : Scope) : State := box (slot fun x => { x with posted := [{ entry1 with scope := sc }], nextSeq := 2 })
/-- A port that is bound to the own core still has a word; an outgoing buffer has a task for a core of another die; a GST is under way. -/
def sWord : State := box (slot fun x => { x with ports := x.ports.set 2 { cfg := 0x80000000, send := [(.exec, 0, 5)], recv := [] } })
def sTaskOut : State := box fun k => { slot (fun x => { x with task := some { specTask with obuf := [.task .exec 0x20000 0x1000 0x1000 0] } }) k with
  home := [⟨0, specTask.rcd, 0, none, some ⟨0, .stream 0 .exec⟩, true, 0⟩] }
/-- The fence of base word 0xE000 + `n` at the PC, a store of the stream waiting and a word of it read ahead. -/
def sFence (n : Half) : State := box fun k => bytes 0x20000 [0x80, 0xD1, n.setWidth 8, 0xE0]
  (thread (fun t => { t with sbuf := [(0x2000, [1, 2])], early := [(0x3000, [1])] }) k)
theorem test_witness_Fences (h : Obligations.Fences) :
    Met ((h.1 sBar (passes_of (by decide +kernel))).1) ∧
    Met ((h.1 (sPosted .window) (passes_of (by decide +kernel))).2.1 (.inr (.inr ⟨_, List.mem_singleton.mpr rfl, by decide +kernel, rfl, by decide +kernel⟩))) ∧
    Met ((h.1 sBar (passes_of (by decide +kernel))).2.2.1 (nothing_left (by decide +kernel)).1) ∧
    Met ((h.1 (sPosted (.message 0)) (passes_of (by decide +kernel))).2.2.2.1
      (.inr (.inl ⟨_, List.mem_singleton.mpr rfl, 0, by decide +kernel, rfl, by decide +kernel, by decide +kernel, by decide +kernel⟩))) ∧
    Met ((h.1 sWord (passes_of (by decide +kernel))).2.2.2.1 (.inr (.inr (.inl (.inl ⟨2, by decide +kernel, (.exec, 0, 5), by decide +kernel, by decide +kernel, by decide +kernel⟩))))) ∧
    Met ((h.1 sBar (passes_of (by decide +kernel))).2.2.2.2.1 (nothing_left (by decide +kernel)).2.1) ∧
    Met (((h.1 sTaskOut (passes_of (by decide +kernel))).2.2.2.2.2 .fencePkg (by decide)).1 (.inr (.inr (.inl
      ⟨{ specTask with obuf := [.task .exec 0x20000 0x1000 0x1000 0] }, by decide +kernel, .task .exec 0x20000 0x1000 0x1000 0, by decide +kernel, by decide +kernel, trivial⟩)))) ∧
    Met (((h.1 (sPosted .global) (passes_of (by decide +kernel))).2.2.2.2.2 .fenceSys (by decide)).1
      (.inr (.inr (.inr (.inr ⟨_, List.mem_singleton.mpr rfl, by decide +kernel, by decide +kernel, by decide +kernel⟩))))) ∧
    Met (((h.1 sBar (passes_of (by decide +kernel))).2.2.2.2.2 .fenceSys (by decide)).2 (nothing_left (by decide +kernel)).2.2) ∧
    Met (h.2.1 (sFence 0) (0, .fenceCore) (by decide) rfl (by unfold MayExecute; decide +kernel) rfl (words_at (by decide +kernel))) ∧
    Met (h.2.1 (sFence 4) (4, .fenceSys) (by decide) rfl (by unfold MayExecute; decide +kernel) rfl (words_at (by decide +kernel))) ∧
    Met (h.2.2.1 { sFence 3 with ir := [0xD180, 0xE003] } (3, .fencePkg) (by decide) rfl) ∧
    Met (h.2.2.2 sBar (passes_of (by decide +kernel))) :=
  ⟨trivial, trivial, trivial, trivial, trivial, trivial, trivial, trivial, trivial, trivial, trivial, trivial, trivial⟩
theorem test_witness_BarrierInstructions (h : Obligations.BarrierInstructions) :
    Met ((h.1 (.g 5) (.g 12) sBar _ _ _ _ 0x2100 (passes_of (by decide +kernel)) rfl rfl (place_of 0x2100 (by decide +kernel)) (by unfold AbortsNone; decide +kernel)).1 (by decide +kernel)) ∧
    Met ((h.1 (.g 5) (.g 11) sBar _ _ _ _ 0x2100 (passes_of (by decide +kernel)) rfl rfl (place_of 0x2100 (by decide +kernel)) (by unfold AbortsNone; decide +kernel)).2.1 (by decide +kernel)) ∧
    Met (((h.1 (.g 5) (.g 9) sBar _ _ _ _ 0x2100 (passes_of (by decide +kernel)) rfl rfl (place_of 0x2100 (by decide +kernel)) (by unfold AbortsNone; decide +kernel)).2.2 bar1
      (by unfold ObjectAt; decide +kernel)).1) ∧
    Met (((h.1 (.g 5) (.g 10) sBar _ _ _ _ 0x2100 (passes_of (by decide +kernel)) rfl rfl (place_of 0x2100 (by decide +kernel)) (by unfold AbortsNone; decide +kernel)).2.2 bar1
      (by unfold ObjectAt; decide +kernel)).2) ∧
    Met ((h.2.1 (.g 4) (.g 5) sBar _ _ _ 0x2100 bar1 (passes_of (by decide +kernel)) rfl (place_of 0x2100 (by decide +kernel)) (by unfold ObjectAt; decide +kernel)).1 (by decide) rfl) ∧
    Met ((h.2.1 (.g 4) (.g 6) sBar _ _ _ 0x2110 ⟨2, 2, 1, 7, 5⟩ (passes_of (by decide +kernel)) rfl (place_of 0x2110 (by decide +kernel)) (by unfold ObjectAt; decide +kernel)).2.1 rfl (by decide) rfl) ∧
    Met ((h.2.1 (.g 4) (.g 7) sBar _ (box id) _ 0x2120 ⟨2, 2, 2, 7, 5⟩ (passes_of (by decide +kernel)) rfl (place_of 0x2120 (by decide +kernel)) (by unfold ObjectAt; decide +kernel)).2.2 rfl rfl) ∧
    Met (h.2.2 (.g 8) (.g 9) sBar _ _ _ _ 0x2130 _ (passes_of (by decide +kernel)) rfl rfl (place_of 0x2130 (by decide +kernel)) (by decide +kernel) rfl (by decide +kernel) (.barWait (.g 8) (.g 9)) (by decide)) :=
  ⟨trivial, trivial, trivial, trivial, trivial, trivial, trivial, trivial⟩
theorem test_witness_CsrReads (h : Obligations.CsrReads) :
    Met (h.1 (.g 4) 0x040 false _ sBar _ (List.mem_of_getElem? (i := 19) rfl)
      (passes_of (by decide +kernel)) rfl) ∧
    Met ((h.2.1 (.g 4) (.g 5) 0x063 sBar (by decide +kernel)).1 (passes_of (by decide +kernel))) ∧
    Met ((h.2.1 (.g 4) (.g 5) 0x063 sBar (by decide +kernel)).2 (passes_of (by decide +kernel))) ∧
    Met (h.2.2 (.g 5) 0x052 sBar (by decide) (passes_of (by decide +kernel))) := ⟨trivial, trivial, trivial, trivial⟩
theorem test_witness_CsrWrites (h : Claim.CsrWrites) :
    Met (h.1 0x020 false _ (.swr (.g 11) 0x020) _ sBar _ (List.mem_of_getElem? (i := 9) rfl)
      (.inl ⟨.g 11, 0x020, rfl, rfl, passes_of (by decide +kernel), rfl⟩)) ∧
    Met (h.2.1 (.pageattrWrite 0x80020007) 0x80020007 sBar sBar (.inr ⟨rfl, passes_of (by decide +kernel), .inl ⟨rfl, rfl⟩⟩)) ∧
    Met (h.2.2.1 (.pageattrWrite 0x80020007) 0x80020007 sBar sBar (.inr ⟨rfl, passes_of (by decide +kernel), .inl ⟨rfl, rfl⟩⟩) (sbufs_of (by decide +kernel))) ∧
    Met (h.2.2.2 (.tqcfgWrite 0x10000) 0x10000 sBar sBar (.inr ⟨rfl, passes_of (by decide +kernel), .inr (.inr (.inr (.inr (.inr (.inl ⟨rfl, rfl⟩)))))⟩)) := ⟨trivial, trivial, trivial, trivial⟩
/-- Regions apart: the task queue at 0, the environments at 0x10000, the mailbox at 0x18000, the frames at 0x18400. -/
def sFrame : State := sup (box (slot fun x => { x with depth := 1 }))
def sMailed : State := sup (box fun k => { k with mb := [1] })
theorem test_witness_RegionBases (h : Claim.RegionBases) :
    Met (((h (.tqbaseWrite 0x20000) 0x20000 (sup sTaken) (sup sTaken)).1 (.inr ⟨rfl, passes_of (by decide +kernel), .inr (.inr (.inr (.inr (.inl ⟨rfl, rfl⟩))))⟩)).1 (by decide +kernel)) ∧
    Met (((h (.tqbaseWrite 0x20000) 0x20000 sBar sBar).1 (.inr ⟨rfl, passes_of (by decide +kernel), .inr (.inr (.inr (.inr (.inl ⟨rfl, rfl⟩))))⟩)).2.1 (by decide +kernel)
      (by unfold RegionsApart; decide +kernel)) ∧
    Met (((h (.tqbaseWrite 0x10000) 0x10000 sBar sBar).1 (.inr ⟨rfl, passes_of (by decide +kernel), .inr (.inr (.inr (.inr (.inl ⟨rfl, rfl⟩))))⟩)).2.2 (by decide +kernel)
      (by unfold RegionsApart; decide +kernel)) ∧
    Met (((h (.frbaseWrite 0x819000) 0x819000 sFrame sFrame).2.1 (.inr ⟨rfl, passes_of (by decide +kernel), .inr (.inr (.inl ⟨rfl, rfl⟩))⟩)).1 ⟨0, by decide +kernel⟩) ∧
    Met (((h (.frbaseWrite 0x819000) 0x819000 sBar sBar).2.1 (.inr ⟨rfl, passes_of (by decide +kernel), .inr (.inr (.inl ⟨rfl, rfl⟩))⟩)).2 (by decide +kernel) (by unfold RegionsApart; decide +kernel)) ∧
    Met (((h (.mbbaseWrite 0x30400) 0x30400 sBar sBar).2.2.1 (.inr ⟨rfl, passes_of (by decide +kernel), .inr (.inr (.inr (.inl ⟨rfl, rfl⟩)))⟩)).1 (by decide +kernel) (by unfold RegionsApart; decide +kernel)) ∧
    Met (((h (.mbbaseWrite 0x30400) 0x30400 sMailed sMailed).2.2.1
      (.inr ⟨rfl, passes_of (by decide +kernel), .inr (.inr (.inr (.inl ⟨rfl, rfl⟩)))⟩)).2 (by decide +kernel) rfl) ∧
    Met (((h (.envbaseWrite 0x30000) 0x30000 (sup sEnv) (sup sEnv)).2.2.2 (.inr ⟨rfl, passes_of (by decide +kernel), .inr (.inl ⟨rfl, rfl⟩)⟩)).1 ⟨0, by decide, by unfold liveAt; decide +kernel⟩) ∧
    Met (((h (.envbaseWrite 0x30000) 0x30000 sBar sBar).2.2.2 (.inr ⟨rfl, passes_of (by decide +kernel), .inr (.inl ⟨rfl, rfl⟩)⟩)).2 (by unfold liveAt; decide +kernel) (by unfold RegionsApart; decide +kernel)
      (by unfold NoAbort; decide +kernel)) := ⟨trivial, trivial, trivial, trivial, trivial, trivial, trivial, trivial, trivial⟩
/-- A handler at 0x20200. -/
def sTrap (f : Slot → Slot) : State := sup (box fun k => { slot f (bytes 0x20200 [0x00, 0x9A] k) with tvec := 0x20200 })
def inTrap (x : Slot) : Slot := { x with status := 7, st := .trapped, accWas := true }
def sSpecTrap : State := on (.stream 0 .exec) sSpec
/-- Ibex unit 0's near body, of a record without handles. -/
def sNear : State := on (.ibex 0) (box fun k => { mapIbex k 0 (fun y => { y with task := some (placeTask 0) }) with home := [⟨0, 0, 0, none, some ⟨0, .ibex 0⟩, true, 0⟩], nextEntry := 1 })
theorem test_witness_TrapEntry (h : Obligations.TrapEntry) :
    Met ((h (sTrap id) (why 0x060 0) 0x200000).1 0 .exec rfl (by unfold TrapReady; decide +kernel)) ∧
    Met ((h sSpecTrap (why 0x060 0) 0x200000).2.1 0 .exec specTask rfl (by decide +kernel) (by decide +kernel) rfl) ∧
    Met ((h (sTrap inTrap) (why 0x060 0) 0x200000).2.2.1 0 .exec rfl (by decide +kernel) (by decide +kernel) (by decide +kernel)) ∧
    Met ((h sNear (why 0x060 0) 0x200000).2.2.2 0 (placeTask 0) rfl (by decide +kernel) rfl ⟨⟨0, 0, 0, none, some ⟨0, .ibex 0⟩, true, 0⟩, by decide +kernel, by decide +kernel, by decide +kernel⟩ rfl) :=
  ⟨trivial, trivial, trivial, trivial⟩
theorem test_witness_SoftwareTraps (h : Obligations.SoftwareTraps) :
    Met (h.1 (.trap 127) _ (sTrap id) rfl (passes_of (by decide +kernel))) ∧
    Met (h.2.1 .brk _ (on (.stream 0 .acc) (sTrap id)) 0 .acc rfl (passes_of (by decide +kernel)) rfl (by unfold TrapReady; decide +kernel)) ∧
    Met (h.2.2.1 128 (sTrap id) (by decide) (passes_of (by decide +kernel))) ∧
    Met (h.2.2.2.1 .brk sNear 0 (by decide +kernel) rfl (.inl rfl)) ∧
    Met (h.2.2.2.2 0 .exec (sTrap id) (by decide +kernel) rfl) := ⟨trivial, trivial, trivial, trivial, trivial⟩
theorem test_witness_TrapsAndReturn (h : Obligations.TrapsAndReturn) :
    Met (h.1 0x000 0 0 (sTrap id) 0 .exec (by decide +kernel) rfl (by unfold TrapReady; decide +kernel)) ∧
    Met ((h.2.1 (sTrap id) 0 (passes_of (by decide +kernel)) rfl).1 (by decide +kernel)) ∧
    Met ((h.2.1 (sTrap inTrap) 0 (passes_of (by decide +kernel)) rfl).2 (by decide +kernel)) ∧
    Met (h.2.2.1 (sTrap id) 0 (passes_of (by decide +kernel)) rfl (by decide +kernel) (by decide +kernel)) ∧
    Met (h.2.2.2.1 (box (pending (.amo 1 0x2000 8 .add 1 0))) 0 0 false (by decide +kernel)) ∧
    Met (h.2.2.2.2 (sTrap id) 0 0 true (by decide +kernel) (by decide +kernel)) := ⟨trivial, trivial, trivial, trivial, trivial, trivial⟩
/-- The task is anchored and promoted. -/
def sAnchored : State := box fun k => { slot (fun x => { x with task := some specTask }) k with
  home := [⟨0, specTask.rcd, 0, none, some ⟨0, .stream 0 .exec⟩, true, 0⟩] }
theorem test_witness_Supersteps (h : Claim.Supersteps) :
    Met ((h sAnchored 0 (passes_of (by decide +kernel)) rfl (by decide +kernel)).1 (by decide +kernel)) ∧
    Met ((h (sTrap inTrap) 0 (passes_of (by decide +kernel)) rfl (by decide +kernel)).2.1 (by decide +kernel) (by decide +kernel)) ∧
    Met (((h (sTrap fun x => { x with released := true, arrived := true }) 0 (passes_of (by decide +kernel)) rfl (by decide +kernel)).2.2 (by decide +kernel) (by decide +kernel) (by decide +kernel) (by decide +kernel)
      (by intro x; cases x <;> decide +kernel) (by decide +kernel) (by decide +kernel)).1 (by decide +kernel)) ∧
    Met (((h (sTrap id) 0 (passes_of (by decide +kernel)) rfl (by decide +kernel)).2.2 (by decide +kernel) (by decide +kernel) (by decide +kernel) (by decide +kernel)
      (by intro x; cases x <;> decide +kernel) (by decide +kernel) (by decide +kernel)).2 (by decide +kernel)) := ⟨trivial, trivial, trivial, trivial⟩

/-! ### Witnesses: launches and the host -/

/-- An object (R361 to R367) of one reel of 0x40 bytes at 0x20000 and one kernel of role 0 on columns 0 to `c` of row 0 of die 0, with an
identifier of two bits and four environments; where `c` is 1, core 0 forwards to core 1. Its key and signature are zeros. Each pair is a
length in bytes and a number. -/
@[irreducible] def obj (c : Nat) : List Byte :=
  ([(4, 0x4F4D594E), (4, 1), (4, 0x400), (4, 1), (4, 1), (44, 0), (4, 0x100), (4, 32), (4, 1), (4, 0), (4, 0x140), (4, 8)] ++
    [(4, 1), (4, 0), (4, 0x180), (4, 16 * c), (4, c), (4, 0), (4, 0x1C0), (4, 264), (4, 1), (4, 0), (4, 0x300), (12, 0)] ++
    [(4, 0x300), (12, 0), (4, 0x300), (12, 0), (4, 0x300), (12, 0), (4, 0x300), (4, 4), (4, 1), (4, 0), (4, 0x340), (4, 192)] ++
    [(4, 1), (40, 0), (4, 0x20000), (4, 0x20), (4, 0x10), (4, 0x20), (4, 0), (4, 4), (4, 0x40), (32, 0), (8, c * 2 ^ 28), (56, 0)] ++
    [(16, c * (1 + 0x1FFF1FFF1FFF * 2 ^ 32)), (48, 0), (8, 2), (40, 0), (1, 2), (5, 0), (1, 1), (2, 8), (2, 4), (2, 0), (2, 1), (129, 0)] ++
    [(4, 256), (2, 1), (58, 0), (8, c * 2 ^ 28), (56, 0), (4, 0x12345678), (252, 0)]).flatMap fun (e : Nat × Nat) => leBytes e.1 e.2
/-- A launch record: object at 2^32 + 0x1000, arguments 5 and 6, completion line at 2^32 + 0x40; `bad` is added. -/
@[irreducible] def launchRec (bad : Nat) : Nat := 0x100001000 + bad + 5 * 2 ^ 128 + 6 * 2 ^ 192 + 0x100000040 * 2 ^ 384
/-- Memory with the bytes from `a` on. -/
def cells : Nat → List Byte → Memory
  | _, [] => []
  | a, b :: r => if b = 0 then cells (a + 1) r else (a, b) :: cells (a + 1) r
/-- Queue 5 with the record in slot 0 of its ring at 0x6000, and the object in device memory; one key slot holds the key of zeros. -/
@[irreducible] def queue5 (o : Option (List Byte)) (prio : BitVec 3) : Queue := { Queue.reset with tail := 1, base := 6, log2 := 1, prio := prio, en := true, object := o }
@[irreducible] def sQueue (bad : Nat) (o : Option (List Byte)) (prio : BitVec 3) : State :=
  { State.reset with phase := .running, queues := [(5, queue5 o prio)]
                     gmem := cells 0x1000 (leBytes 8 0x2001) ++ cells 0x2000 (leBytes 8 0x3001) ++ cells 0x3000 (leBytes 8 0x4001) ++
                       cells 0x4020 (leBytes 8 0x4000001F) ++ cells 0x4030 (leBytes 8 0x4000003F) ++ cells 0x6000 (leBytes 64 (launchRec bad)) ++ cells 0x40001000 (obj 0)
                     host := { HostRegs.reset with pidDir := 0x1000, keys := [(63, 1)] } }
theorem comp_of {s : State} {e : Word} {pid : BitVec 20} {a b p : Nat} (hl : Leaf s 0 b 3 e)
    (h : (s.grants.isEmpty && decide (pid = 0) && decide (a = b) && e.getLsbD 3 && !e.getLsbD 5 && decide (p = leafAddr e 3 a) && decide (a % 64 = 0 ∧ 2 ^ 32 ≤ a ∧ a < 2 ^ 57)) = true) : CompLine s pid a p := by
  simp only [Bool.and_eq_true, Bool.not_eq_true', decide_eq_true_eq] at h
  obtain ⟨⟨⟨⟨⟨⟨hg, rfl⟩, rfl⟩, h1⟩, h2⟩, h3⟩, h4⟩ := h
  refine ⟨h4.1, h4.2.1, h4.2.2, .inr ⟨fun g hw => ?_, 3, e, hl, h1, h2, h3⟩⟩
  rw [WriteGranted, List.isEmpty_iff.mp hg] at hw
  cases hw
/-- The object's signature verifies: key, R and S are zeros, so both points are the one of order 4 that y = 0 encodes. -/
theorem obj_signed : signatureCheck (sQueue 0 none 0).host (obj 0) = none := by
  have h1 : dirOff (obj 0) 9 = 0x340 := by decide +kernel
  have h2 : ((obj 0).drop (0x340 + 114)).take 57 = List.replicate 57 0 := by decide +kernel
  have h3 : ((obj 0).drop 0x340).take 114 = List.replicate 114 0 := by decide +kernel
  have hv : ed448Verify (List.replicate 57 0) (shake256 64 ((obj 0).take 0x340)) (List.replicate 114 0) = true := by decide +kernel
  unfold signatureCheck
  simp only [h1, h2, h3, hv]
  decide +kernel
theorem bytes_pass {s : State} (hs : signatureCheck s.host (obj 0) = none) : bytesVerdict s (obj 0) 0x100001000 0 0 = .passed (obj 0) := by
  unfold bytesVerdict
  rw [hs]
  decide +kernel
theorem object_passes {s : State} {pid : BitVec 20} {a kidx place : Nat} {hd o : List Byte} (h1 : readParts s pid [(a, 64)] = some (some hd)) (h2 : headerCheck hd = none)
    (h3 : readParts s pid (pageParts a (objSize hd)) = some (some o)) (h4 : bytesVerdict s o a kidx place = .passed o) (h5 : ¬2 ^ 57 < a + objSize hd) : objectVerdict s pid a kidx place = .passed o := by
  unfold objectVerdict
  simp only [h1, h2, h3, h4, if_neg h5]
theorem record_passes {s : State} {x : Queue} {r : BitVec 512} {o : List Byte} {a : Nat} (h1 : bits r 79 64 = 0 ∧ bits r 127 97 = 0) (h2 : lrObj r = a ∧ a % 4096 = 0 ∧ inGlobal a = true)
    (h3 : lrComp r % 64 = 0 ∧ inGlobal (lrComp r) = true ∧ lrCtx r = 0) (h4 : lrKidx r = 0 ∧ lrPlace r = 0) (h5 : objectVerdict s x.pid a 0 0 = .passed o)
    (h6 : allTranslate s x.pid (lrComp r) 64 .write = true) (h7 : profileOk s x.prof = true) : recordVerdict s x r = .passed o := by
  unfold recordVerdict
  simp [h1, h2, h3, h4, h5, h6, h7]
theorem profile_zero {s : State} {p : BitVec 4} (h : s.host.profiles = []) : profileOk s p = true := by
  simp [profileOk, profileByte, h, mapGet]
theorem obj_passes :
    recordVerdict (sQueue 0 none 0) (queue5 none 0) (BitVec.ofNat 512 (launchRec 0)) = .passed (obj 0) :=
  record_passes (a := 0x100001000) (by decide +kernel) (by decide +kernel) (by decide +kernel) (by decide +kernel)
    (object_passes (hd := (obj 0).take 64) (by decide +kernel) (by decide +kernel) (by decide +kernel) (bytes_pass obj_signed) (by decide +kernel)) (by decide +kernel) (profile_zero (by decide +kernel))
theorem head_of (bad : Nat) (hb : bad ∈ [0]) : Machine.queueAt (sQueue bad none 0) 5 = queue5 none 0 ∧ headRcd (sQueue bad none 0) (queue5 none 0) = BitVec.ofNat 512 (launchRec bad) := by
  revert bad; decide +kernel
/-- A record whose completion line is `a`. -/
@[irreducible] def compRec (a : Nat) : Nat := 0x100001000 + a * 2 ^ 384
@[irreducible] def sComp (a : Nat) : State := { sQueue 0 none 0 with gmem := cells 0x6000 (leBytes 64 (compRec a)) }
theorem not_refused {x : Queue} (h : (match x.since with
    | some (some _, _) => false
    | _ => true) = true) : NotRefused x := fun n t e => by rw [e] at h; cases h
/-- The record's object is in host memory, the link down since cycle 0, `n` cycles later. -/
@[irreducible] def sHostObj (n : Nat) (w : Option (Option Nat × Word)) : State :=
  let s := sQueue 0x80000000 none 0
  { s with hostLink := false, time := BitVec.ofNat 64 n, queues := [(5, { queue5 none 0 with since := w })] }
theorem comp_line {s : State} {x : Queue} (hl : Leaf s 0 0x100000040 3 0x4000001F)
    (h : (s.grants.isEmpty && decide (x.pid = 0) && decide (lrComp (headRcd s x) = 0x100000040)) = true) : CompLine s x.pid (lrComp (headRcd s x)) 0x40000040 := by
  simp only [Bool.and_eq_true, decide_eq_true_eq] at h
  exact comp_of hl (by rw [h.1.1, h.1.2, h.2]; decide +kernel)
theorem test_witness_LaunchRecordsChecked (h : Claim.LaunchRecordsChecked) :
    Met ((h (sQueue 0 none 0) 5 (by unfold HeadWaits; decide +kernel)).1 (obj 0) (not_refused (by decide +kernel))
      (by rw [(head_of 0 (by decide)).1, (head_of 0 (by decide)).2]; exact obj_passes)) ∧
    Met ((h (sQueue (2 ^ 64) none 0) 5 (by unfold HeadWaits; decide +kernel)).2.1 1 none 0x40000040 (not_refused (by decide +kernel)) (by decide +kernel) (by decide)
      (comp_line (leaf_of (walk_of (by decide +kernel)) (by decide +kernel)) (by decide +kernel))) ∧
    Met ((h (sHostObj 0 none) 5 (by unfold HeadWaits; decide +kernel)).2.2.1 (not_refused (by decide +kernel)) (by decide +kernel)
      (by rintro ⟨-, t, e, -⟩; rw [show (Machine.queueAt (sHostObj 0 none) 5).since = none from by decide +kernel] at e; cases e)) ∧
    Met ((h (sHostObj 10000000 (some (none, 0))) 5 (by unfold HeadWaits; decide +kernel)).2.2.2.1 0x40000040 (by decide +kernel)
      ⟨by decide +kernel, 0, by decide +kernel, by decide +kernel⟩ (comp_line (leaf_of (walk_of (by decide +kernel)) (by decide +kernel)) (by decide +kernel))) ∧
    Met ((h (sHostObj 0 (some (some 7, 0))) 5 (by unfold HeadWaits; decide +kernel)).2.2.2.2.1 7 0 0x40000040 (by decide +kernel) (by decide)
      (comp_line (leaf_of (walk_of (by decide +kernel)) (by decide +kernel)) (by decide +kernel))) ∧
    Met ((h (sQueue (2 ^ 97) none 0) 5 (by unfold HeadWaits; decide +kernel)).2.2.2.2.2.1 (.inr (by decide +kernel))) ∧
    Met ((h (sQueue 1 none 0) 5 (by unfold HeadWaits; decide +kernel)).2.2.2.2.2.2.1 (by decide +kernel) (by decide +kernel) (.inl (by decide +kernel))) ∧
    Met ((h (sComp 0x100000041) 5 (by unfold HeadWaits; decide +kernel)).2.2.2.2.2.2.2 2 (not_refused (by decide +kernel)) (by decide +kernel) (by decide) (.inl (by decide +kernel))) ∧
    Met ((h (sComp 0xFFFFFFC0) 5 (by unfold HeadWaits; decide +kernel)).2.2.2.2.2.2.2 2 (not_refused (by decide +kernel)) (by decide +kernel) (by decide) (.inr (.inl (by decide +kernel)))) ∧
    Met ((h (sComp (2 ^ 57)) 5 (by unfold HeadWaits; decide +kernel)).2.2.2.2.2.2.2 2 (not_refused (by decide +kernel)) (by decide +kernel) (by decide) (.inr (.inr (by decide +kernel)))) :=
  ⟨trivial, trivial, trivial, trivial, trivial, trivial, trivial, trivial, trivial, trivial⟩
/-- Core 0 of launch 7 holds its reel, core 1 waits for it, and perhaps core 2. -/
@[irreducible] def relayed (l : List (Coord × Coord)) : Launch :=
  { placeLaunch State.reset 0 with id := 7, phase := .loading, relays := l, cores := [(0, 0), (1, 0), (2, 0)], kernel := kernelOf (obj 1) (kernRec (obj 1) 0)
                                   reels := [⟨0, 0x20000, 0x40, 0x10, 0x20, 0, [1, 2, 3]⟩] }
@[irreducible] def sRelay (l : List (Coord × Coord)) : State := { State.reset with phase := .running, launches := [relayed l], nextId := 8 }
theorem none_to {l : List (Coord × Coord)} {c : Coord} (h : (l.all fun p => p.2 != c) = true) : ∀ p ∈ l, p.2 ≠ c := fun p hp => by
  simpa using List.all_eq_true.mp h p hp
theorem only_one {l : List (Coord × Coord)} {c : Coord × Coord} (h : (l.all fun p => p == c) = true) : ∀ p ∈ l, p = c := fun p hp => by
  simpa using List.all_eq_true.mp h p hp
/-- Launch 0 of PID 0 and completion line 2^32 + 0x40, with a context area, on core 0 that has nothing left to do. -/
@[irreducible] def launch0 (ph : LaunchPhase) : Launch := { placeLaunch State.reset 0 with phase := ph, rcd := BitVec.ofNat 512 (0x100000040 * 2 ^ 384 + 0x180000000 * 2 ^ 448) }
@[irreducible] def sLaunch (ph : LaunchPhase) (f : Core → Core) : State :=
  { sQueue 0 (some (obj 0)) 1 with launches := [launch0 ph], nextId := 1, cores := [(0, f { Core.reset with launch := some 0, members := 1 })] }
def written (r : Option (State × Bool)) : State := (r.map (·.1)).getD State.reset
theorem written_of {r : Option (State × Bool)} (h : (r.map (·.2) == some true) = true) : r = some (written r, true) := by
  rcases r with _ | ⟨s, b⟩ <;> simp_all [written]
theorem test_witness_LaunchesStart (h : Claim.LaunchesStart) :
    Met ((h.1 (sQueue 0 (some (obj 0)) 0) 5 0 (obj 0) [(0, 0)] (by unfold Starts; decide +kernel)).1 (by decide +kernel)) ∧
    Met ((h.1 (sQueue 0 (some (obj 1)) 0) 5 0 (obj 1) [(0, 0), (1, 0)] (by unfold Starts; decide +kernel)).2 (by decide +kernel)) ∧
    Met ((h.2.1 (sRelay [(0, 1), (0, 2)]) 7 (relayed [(0, 1), (0, 2)]) 0 1 0 (by unfold LaunchIs; decide +kernel) (by decide +kernel) (by decide +kernel) (none_to (by decide +kernel)) (by decide +kernel)
      (by decide +kernel)).1 ⟨(0, 2), by decide +kernel, by decide +kernel⟩) ∧
    Met ((h.2.1 (sRelay [(0, 1)]) 7 (relayed [(0, 1)]) 0 1 0 (by unfold LaunchIs; decide +kernel) (by decide +kernel) (by decide +kernel) (none_to (by decide +kernel)) (by decide +kernel)
      (by decide +kernel)).2 (only_one (by decide +kernel))) ∧
    Met (h.2.2.1 (sLaunch .loading id) (launch0 .loading).queue 0 (launch0 .loading) _ true (by decide +kernel) (by unfold LaunchIs; decide +kernel) (written_of (by decide +kernel))) ∧
    Met (h.2.2.2 { sLaunch .loading id with hostLink := false } (launch0 .loading).queue 0 (launch0 .loading) (by decide +kernel) (by unfold LaunchIs; decide +kernel) (by decide +kernel)
      (by decide +kernel)) :=
  ⟨trivial, trivial, trivial, trivial, trivial, trivial⟩
/-- Launch 7 on core 0, whose slot 0 runs a free task and has arrived. -/
@[irreducible] def launch7 : Launch := { placeLaunch State.reset 0 with id := 7 }
@[irreducible] def sStep (l : List Release) : State :=
  { State.reset with phase := .running, launches := [launch7], releases := l, cores := [(0, slot (fun x => { x with st := .running, task := some (placeTask 0), arrived := true }) { Core.reset with launch := some 7 })] }
/-- The launch completed earlier, its record held by the host link; a write of the completion line that was granted earlier. -/
@[irreducible] def heldRec : BitVec 512 := BitVec.ofNat 512 (77 * 2 ^ 192)
@[irreducible] def launchKept : Launch := { launch0 .running with record := some heldRec }
@[irreducible] def sKept (l : List Grant) : State := { sLaunch .running id with launches := [launchKept], grants := l }
def grant1 : Grant := ⟨.launch 0, 0, 0x100000040, true, ⟨0x5000, false, 0⟩, 0⟩
/-- The completion line is in host memory, and the link is down. -/
@[irreducible] def launchAway : Launch := { launch0 .running with rcd := BitVec.ofNat 512 (0x180000040 * 2 ^ 384) }
@[irreducible] def sAway : State := { sLaunch .running id with launches := [launchAway], hostLink := false }
theorem test_witness_LaunchesComplete (h : Claim.LaunchesComplete) :
    Met (h.1 (sLaunch .running id) 0 (launch0 .running) 0x40000040 _ (by unfold LaunchIs; decide +kernel) (.inr ⟨by decide +kernel, by decide +kernel, rfl⟩)
      (comp_of (b := 0x100000040) (e := 0x4000001F) (leaf_of (walk_of (by decide +kernel)) (by decide +kernel)) (by decide +kernel))) ∧
    Met (h.1 (sKept [grant1]) 0 launchKept 0x5000 heldRec (by unfold LaunchIs; decide +kernel) (.inl (by decide +kernel))
      ⟨by decide +kernel, by decide +kernel, by decide +kernel, .inl ⟨grant1, by unfold WriteGranted; decide +kernel, rfl, rfl⟩⟩) ∧
    Met (h.2.2.1 sAway 0 launchAway (by unfold LaunchIs; decide +kernel) (by decide +kernel) (by decide +kernel) (by decide +kernel) (by decide +kernel)) ∧
    Met (h.2.2.2 (sStep []) 7 launch7 (by unfold LaunchIs; decide +kernel) (by decide +kernel) (by decide +kernel)) := ⟨trivial, trivial, trivial, trivial⟩
/-- No page is kept over a pre-emption. -/
def dropPages (k : Core) : Core := { k with attr := (List.range 512).map fun p => (p, 0x03) }
theorem mapGet_same (v d : Byte) (a : Nat) (l : List Nat) : mapGet d (l.map fun p => (p, v)) a = v ∨ mapGet d (l.map fun p => (p, v)) a = d ∧ a ∉ l := by
  induction l with
  | nil => exact .inr ⟨rfl, by simp⟩
  | cons x r ih =>
    by_cases h : x = a
    · exact .inl (by simp [mapGet, h])
    · rcases ih with h1 | h1
      · exact .inl (by simpa [mapGet, h] using h1)
      · exact .inr (by simpa [mapGet, h, Ne.symm h] using h1)
theorem saved_none (k : Core) : savedPages (dropPages k) = [] := by
  unfold savedPages
  refine List.filter_eq_nil_iff.mpr fun p hp => ?_
  rcases mapGet_same 0x03 0x23 p (List.range 512) with h | h
  · show ¬(mapGet (0x23 : Byte) ((List.range 512).map fun p => (p, (0x03 : Byte))) p).getLsbD 5 = true
    rw [h]; decide
  · exact absurd hp h.2
/-- Launch 0 saved with one register written. -/
def savedCore1 : Core := savedCore (dropPages (regs [(5, 9)] Core.reset))
@[irreducible] def pausedLaunch : Launch := { launch0 .preempted with saved := [(0, savedCore1)] }
@[irreducible] def sPaused : State := { sLaunch .preempted id with queues := [], launches := [pausedLaunch], cores := [] }
theorem saved_none1 : savedPages savedCore1 = [] := by
  have := saved_none (regs [(5, 9)] Core.reset)
  unfold savedPages at this ⊢
  exact this
/-- A page of host memory, which holds zeros. -/
def zeroPage (s : State) (pid : BitVec 20) (a : Nat) : Bool := match xlatFor s pid a .read with
  | (s1, .ok x) => x.host && s1.hostLink && s1.hmem.isEmpty
  | _ => false
theorem zeros (n y : Nat) : peeks ([] : Memory) y n = List.replicate n 0 := by
  induction n generalizing y with
  | zero => rfl
  | succ n ih => simp [peeks, peek, mapGet, ih, List.replicate_succ]
theorem read_zero {s : State} {pid : BitVec 20} (l : List (Nat × Nat)) (n : Nat) (h : (l.all fun p => zeroPage s pid p.1) = true) (hn : (l.map (·.2)).sum = n) :
    readParts s pid l = some (some (List.replicate n 0)) := by
  subst hn
  induction l with
  | nil => rfl
  | cons p r ih =>
    obtain ⟨a, n⟩ := p
    simp only [List.all_cons, Bool.and_eq_true] at h
    have hg : (gRead s pid a n .read).2.bind (fun y => y.toOption.map (·.2)) = some (List.replicate n 0) := by
      have hp := h.1
      unfold zeroPage at hp
      unfold gRead
      split at hp
      · rename_i s1 x ht
        simp only [Bool.and_eq_true, List.isEmpty_iff] at hp
        rw [ht]
        simp [physRead, carried, gPoisoned, gPeek, hp, zeros, Except.toOption]
      · cases hp
    rcases hq : (gRead s pid a n .read).2 with _ | _ | ⟨y, bs⟩ <;> rw [hq] at hg <;> simp [Except.toOption] at hg
    subst hg
    simp only [readParts, hq, ih h.2, List.map_cons, List.sum_cons]
    rw [List.replicate_add]
    rfl
theorem paused_reads (s : State) (l : Launch) (k : Core) (hk : savedPages k = [])
    (h : ((pageParts (ctxArea l 0 + 0x200000) 0x10000).all fun p => zeroPage s l.pid p.1) = true) :
    restoreAll s l [(0, k)] s = some (some (mapCore s 0 fun x => restoredCore l.id x k [])) := by
  have h0 : restoreMem s l (BitVec.ofNat 13 0) k = some (some []) := by
    unfold restoreMem
    rw [restoreReads, hk, List.map_nil, List.nil_append, show BitVec.ofNat 13 0 = (0 : Coord) from rfl, read_zero _ 0x10000 h (by simp only [pageParts, List.map_map, Function.comp_def]; decide)]
    rfl
  simp only [restoreAll, restoreMems, h0, List.foldl_cons, List.foldl_nil]
  rfl
/-- A saved launch whose area is at addresses that its PID does not translate. -/
@[irreducible] def lostLaunch : Launch := { launch0 .preempted with saved := [(0, savedCore Core.reset)], rcd := BitVec.ofNat 512 (0x1C0000000 * 2 ^ 448) }
@[irreducible] def sLost : State := { sLaunch .preempted id with queues := [], launches := [lostLaunch], cores := [] }
/-- Core 0 of launch 0, its accumulator not in place; its save area is in host memory. -/
@[irreducible] def sNoAcc (q : List MatItem) : State := sLaunch .running fun k => { k with accPresent := false, engQ := q }
theorem test_witness_PreemptionAndResume (h : Claim.PreemptionAndResume) :
    Met (h.1 (sLaunch .running id) 0 (launch0 .running) 5 0 [0] (by unfold LaunchIs; decide +kernel) (by decide +kernel) (by decide +kernel) (by decide) (by decide +kernel) (by decide +kernel)) ∧
    Met (h.2.1 (sLaunch .stopping dropPages) 0 (launch0 .stopping) _ _ (by unfold LaunchIs; decide +kernel) (by decide +kernel) (by decide +kernel) (by decide +kernel)
      (by decide +kernel) (by decide +kernel) (by decide +kernel) rfl (written_of (by decide +kernel))) ∧
    Met (h.2.2.1 { Core.reset with attr := [(1, 0x03)], poison := [0x1FF, 0x200] } 0x200) ∧
    Met (h.2.2.2.1 sPaused 0 pausedLaunch _ (by unfold LaunchIs; decide +kernel) (by decide +kernel)
      (by rw [show pausedLaunch.saved = [(0, savedCore1)] from by decide +kernel]; exact paused_reads _ _ _ saved_none1 (by decide +kernel))) ∧
    Met (h.2.2.2.2.1 sLost 0 lostLaunch (by unfold LaunchIs; decide +kernel) (by decide +kernel) (by decide +kernel)) ∧
    Met (h.2.2.2.2.2.1 (sNoAcc []) 0 (launch0 .running) (by decide +kernel) (by decide +kernel) (by decide +kernel)) ∧
    Met (h.2.2.2.2.2.2 (sNoAcc [⟨4, .stream 0 .exec, 0, 0x20000, [], .accz, [], []⟩]) 0 (launch0 .running) _ (by decide +kernel) (by decide +kernel) (by decide +kernel)
      (read_zero _ 0x12000 (by decide +kernel) (by decide +kernel)) List.length_replicate) := ⟨trivial, trivial, trivial, trivial, trivial, trivial, trivial⟩
def release7 (n : Nat) : Release := ⟨7, none, [0], n, 0⟩
theorem all_cores {l : List Coord} {p : Coord → Bool} (h : l.all p = true) : ∀ c ∈ l, p c = true := fun c hc => List.all_eq_true.mp h c hc
theorem test_witness_ReleasesGo (h : Claim.ReleasesGo) :
    Met (h.1 (sStep []) 7 0 launch7 (by unfold LaunchIs; decide +kernel) (by decide +kernel) (by decide +kernel) (by decide +kernel) (all_cores (by decide +kernel))
      ⟨0, by decide +kernel, 0, placeTask 0, by decide +kernel, by decide +kernel⟩) ∧
    Met (h.2.1 (sStep [release7 0]) 7 0 launch7 (release7 0) 0 [] (by unfold LaunchIs; decide +kernel) (by decide +kernel) rfl (by decide +kernel) (by decide +kernel) (by decide +kernel)) ∧
    Met (h.2.2 (sStep [release7 9]) 7 0 launch7 (release7 9) (by unfold LaunchIs; decide +kernel) (by decide +kernel) (by decide +kernel)) := ⟨trivial, trivial, trivial⟩
/-- An idle core that was told to sleep. -/
@[irreducible] def sIdle : State := { State.reset with cores := [(5, { Core.reset with drowsyAsked := true })] }
theorem idle_quiet : (coreAt sIdle 5).drowsyAsked = true ∧ (coreAt sIdle 5).power = .on ∧ (coreAt sIdle 5).bankQ = [] ∧ (coreAt sIdle 5).engQ = [] ∧ (coreAt sIdle 5).score = [] := by decide +kernel
theorem test_witness_PowerEvents (h : Claim.PowerEvents) :
    Met (h.1 State.reset rfl) ∧ Met (h.2.1 State.reset rfl) ∧
    Met (h.2.2.2.1 sIdle 5 idle_quiet.1 idle_quiet.2.1 idle_quiet.2.2.1 idle_quiet.2.2.2.1 idle_quiet.2.2.2.2 (by decide +kernel) (by decide +kernel)
      (by intro u; rcases u with ⟨i, x⟩ | n
          · revert i; cases x <;> decide +kernel
          · revert n; decide +kernel) (by decide +kernel) (by decide +kernel) (by decide +kernel) (by decide +kernel) (by decide +kernel)) ∧
    Met (h.2.2.2.2 sNear 0 ⟨_, List.mem_singleton_self _, by decide⟩) := ⟨trivial, trivial, trivial, trivial⟩
/-- The host, and a queue of two slots of which `n` are taken. -/
@[irreducible] def sHost (n : BitVec 32) : State := { State.reset with phase := .running, linkUp := 1, queues := [(5, { Queue.reset with tail := n, base := 6, log2 := 1, en := true })] }
theorem reached {n : BitVec 32} : Reached0 (sHost n) := by unfold sHost; exact ⟨rfl, rfl⟩
theorem test_witness_WorkQueueWrites (h : Claim.WorkQueueWrites) :
    Met ((h.1 (sHost 1) 5 0 (List.replicate 64 7) reached).1 (by decide +kernel)) ∧
    Met ((h.1 (sHost 2) 5 0 (List.replicate 64 7) reached).2 (by decide +kernel)) ∧
    Met ((h.1 (sHost 1) 6 0 (List.replicate 64 7) reached).2 (by decide +kernel)) ∧
    Met (h.2 (sHost 1) 5 0x30000000B1 reached) ∧ Met (h.2 (sHost 1) 6 0x3000000191 reached) := ⟨trivial, trivial, trivial, trivial, trivial⟩
theorem test_witness_RegisterWrites (h : Claim.RegisterWrites) :
    Met (h.1 (sHost 0) 0x1008 4 (-1) (.inr (by decide)) reached) ∧ Met (h.1 (sHost 0) 0x1001 8 (-1) (.inl (by decide)) reached) ∧
    Met (h.2.1 (sHost 0) 0x178 (-1) reached) ∧ Met (h.2.1 (sHost 0) 0x1008 (-1) reached) ∧
    Met (h.2.2 (sHost 0) 4095 0 0x1F1 reached) ∧ Met (h.2.2 (sHost 0) 4095 0 0x11 reached) := ⟨trivial, trivial, trivial, trivial, trivial, trivial⟩
/-- Slot 0 of core 0 runs a task, slot 1 is halted with one, slot 2 is idle; a profile with a byte out of range; a launch of queue 3. -/
@[irreducible] def sCommand (k : List (Nat × Byte)) : State :=
  { State.reset with phase := .running, host := { HostRegs.reset with profiles := k }, launches := [{ launch7 with queue := 3, cores := [] }]
                     cores := [(0, mapSlot (slot (fun x => { x with st := .running, task := some (placeTask 0) }) Core.reset) 1 fun x =>
                       { x with st := .halted, task := some (placeTask 0) })] }
theorem commands {k : List (Nat × Byte)} : Reached0 (sCommand k) ∧ (sCommand k).host.cmdbusy = false := by unfold sCommand; exact ⟨⟨rfl, rfl⟩, rfl⟩
/-- An atomic of slot 0 is under way at another core. -/
def sBegun : State := { box (pending (.amo 1 0x2000 8 .add 1 0)) with hostLink := true }
theorem test_witness_DeviceCommands (h : Claim.DeviceCommands) :
    Met ((h sBegun 0x1000000000000000 ⟨rfl, rfl⟩ rfl).1 (by unfold Command; decide +kernel) (by decide +kernel) (by decide +kernel)) ∧
    Met ((h (sCommand []) 0x1000000000000000 commands.1 commands.2).2.1 (by unfold Command; decide +kernel) (by decide +kernel) (by decide +kernel) (.inl (by decide +kernel))) ∧
    Met ((h (sCommand []) 0x1000000000004000 commands.1 commands.2).2.2.1 (by unfold Command; decide +kernel) (by decide +kernel) (by decide +kernel) (.inl (by decide +kernel))) ∧
    Met ((h (sCommand []) 0x2000000000002000 commands.1 commands.2).2.2.2.1 (by unfold Command; decide +kernel) (by decide +kernel) (by decide +kernel) (by decide +kernel)) ∧
    Met ((h (sCommand []) 0x2000000000000000 commands.1 commands.2).2.2.2.2.1 (by unfold Command; decide +kernel) (by decide +kernel) (by decide +kernel)) ∧
    Met ((h (sCommand []) 0x3000000000000000 commands.1 commands.2).2.2.2.2.2.1 (placeTask 0) (by unfold Command; decide +kernel) (by decide +kernel) (by decide +kernel)) ∧
    Met ((h (sCommand []) 0x3000000000004000 commands.1 commands.2).2.2.2.2.2.2.1 (by unfold Command; decide +kernel) (by decide +kernel) (by decide +kernel)) ∧
    Met (((h (sCommand [(0x4000, 61)]) 0x4000000000010000 commands.1 commands.2).2.2.2.2.2.2.2.1 (by unfold Command; decide +kernel) (by decide +kernel) (by decide +kernel)).1 (by decide +kernel)) ∧
    Met (((h (sCommand []) 0x4000000000010000 commands.1 commands.2).2.2.2.2.2.2.2.1 (by unfold Command; decide +kernel) (by decide +kernel) (by decide +kernel)).2 (profile_zero (by decide +kernel))) ∧
    Met ((h (sCommand []) 0x5000000000030000 commands.1 commands.2).2.2.2.2.2.2.2.2.1 { launch7 with queue := 3, cores := [] } (by unfold Command; decide +kernel) (by decide +kernel) (by decide +kernel)
      (by unfold LaunchIs; decide +kernel)) ∧
    Met ((h (sCommand []) 0x5000000000040000 commands.1 commands.2).2.2.2.2.2.2.2.2.2 (by unfold Command; decide +kernel) (by decide +kernel) (by decide +kernel)) :=
  ⟨trivial, trivial, trivial, trivial, trivial, trivial, trivial, trivial, trivial, trivial, trivial⟩
/-- The key of the boot ROM is a value of Config: which image it accepts is a hypothesis. -/
theorem test_witness_HostEvents (h : Claim.HostEvents) (image sig : List Byte) (hv : ed448Verify Config.bootKey image sig = true) :
    Met (h.1 (sHost 0) 0x1234 [1, 2, 3] reached (by decide)) ∧ Met (h.2.1 (sHost 0) 0x1234 3 reached (by decide) (by decide +kernel)) ∧
    Met (h.2.2.2.2.1 (sHost 0) [1] (by decide +kernel)) ∧ Met (h.2.2.2.2.2.1 State.reset image sig rfl hv) ∧
    Met (h.2.2.2.2.2.2.1 (sHost 0) image sig (.inl (by decide +kernel))) ∧ Met (h.2.2.2.2.2.2.2.2.1 { State.reset with phase := .off } rfl) ∧
    Met (h.2.2.2.2.2.2.2.2.2 State.reset (by decide)) := ⟨trivial, trivial, trivial, trivial, trivial, trivial, trivial⟩
/-- Connection 9 is open on port 0, two slots of 4096 bytes at 2^32 + 0x2000, notice to core 0; connection 8 has no slot. -/
@[irreducible] def sConn : State := { sQueue 0 none 0 with linkUp := 1, conns := [(8, { ctl := 1, notify := 0, peer := 0, ring := 0, slot := 0, since := none }), (9, { ctl := 0x200000001, notify := 0, peer := 0, ring := 0x100002000, slot := 1, since := none })] }
/-- The same while a notice of connection 9 waits at core 0. -/
@[irreducible] def sConnHeld : State := { sConn with cores := [(0, { Core.reset with mbHeld := [(.notice 9, [9, 1])] })] }
theorem conn_open : connLive sConn (connAt sConn 9) = true ∧ sConn.cores.any (fun e => mbWaits e.2 (.notice 9)) = false ∧ nextSlot sConn (connAt sConn 9) = some (some 1) ∧
    3 ≤ connSlotBytes (connAt sConn 9) := by decide +kernel
/-- The host link is down; connection 9 has its ring in host memory. -/
@[irreducible] def sConnDown : State :=
  { sConn with hostLink := false, conns := [(9, { ctl := 0x200000001, notify := 0, peer := 0, ring := 0x180002000, slot := 1, since := none })] }
/-- NOTIFY of connection 9 names no core. -/
@[irreducible] def sConnNone : State :=
  { sConn with conns := [(9, { ctl := 0x200000001, notify := 0x1000, peer := 0, ring := 0x100002000, slot := 1, since := none })] }
/-- The host link has held a piece of connection 9 for HLTO. -/
@[irreducible] def sConnOver : State :=
  { sConnDown with time := 10000000, conns := [(9, { ctl := 0x200000001, notify := 0, peer := 0, ring := 0x180002000, slot := 1, since := some 0 })] }
theorem test_witness_InboundTraffic (h : Claim.InboundTraffic) :
    Met (h.1 sConn 9 [1, 2, 3] 1 0 _ _ _ conn_open.1 conn_open.2.1 conn_open.2.2.1 conn_open.2.2.2 (by decide +kernel)
      (by decide +kernel) (by decide +kernel) (by decide +kernel) (by decide +kernel) rfl rfl (by decide +kernel) (written_of (by decide +kernel))) ∧
    Met (h.2.1 sConnHeld 9 [1, 2, 3] (by decide +kernel) (by decide +kernel)) ∧
    Met ((h.2.2.1 sConn 8 [1, 2, 3] (by decide +kernel) (by decide +kernel)).1 (by decide +kernel)) ∧
    Met ((h.2.2.1 sConnDown 9 [1, 2, 3] (by decide +kernel) (by decide +kernel)).2 (by decide +kernel)) ∧
    Met (h.2.2.2.1 sConnNone 9 [1, 2, 3] 1 (by decide +kernel) (by decide +kernel) (by decide +kernel) (.inl (by decide +kernel))) ∧
    Met (h.2.2.2.2.1 sConn 7 0x100002000 [1, 2, 3] (by decide +kernel)) ∧
    Met ((h.2.2.2.2.2.1 sConn 9 0x100002FFE [1, 2, 3] _ _ (by decide +kernel) rfl (by decide +kernel)).1 (written_of (by decide +kernel))) ∧
    Met ((h.2.2.2.2.2.1 sConnDown 9 0x180000FFE [1, 2, 3] State.reset _ (by decide +kernel) rfl (by decide +kernel)).2 (by decide +kernel)) ∧
    Met ((h.2.2.2.2.2.2.1 sConn 9 0x180000FFE [1, 2, 3] [0, 0, 0] _ (by decide +kernel) rfl).1 (by decide +kernel)) ∧
    Met ((h.2.2.2.2.2.2.1 sConn 9 0x1C0000000 [1, 2, 3] [] _ (by decide +kernel) rfl).2.1 (by decide +kernel)) ∧
    Met ((h.2.2.2.2.2.2.1 sConnDown 9 0x180000FFE [1, 2, 3] [] _ (by decide +kernel) rfl).2.2 (by decide +kernel)) ∧
    Met (h.2.2.2.2.2.2.2.1 sConn 9 0x1C0000000 [1, 2, 3] (by decide +kernel) (by decide +kernel)) ∧
    Met ((h.2.2.2.2.2.2.2.2 sConnOver 9 [0x180002000] []).2.2.2.2.2.1 (by decide +kernel)) ∧
    Met ((h.2.2.2.2.2.2.2.2 sConnDown 9 [0x180002000] []).2.2.2.2.2.2 (by decide +kernel)) :=
  ⟨trivial, trivial, trivial, trivial, trivial, trivial, trivial, trivial, trivial, trivial, trivial, trivial, trivial, trivial⟩

/-! ### Witnesses: the machine -/

/-- Word queues with words, g5 = 7, g6 locked by an outstanding load of the access stream. -/
def sRules : State := on (.stream 0 .acc) (box fun k => slot (fun x =>
  { x with lq := [.word 1, .reserved 3], sq := [2], bo := List.replicate 8 3, boProd := some .exec, rt := [4], ports := x.ports.set 1 { cfg := 0x80000001, send := [], recv := [5] } })
    (mapThread k (.stream 0 .acc) fun t => { regSet t 5 7 with running := true, gld := [{ gload with dest := .g 6 }] }))
/-- The execute stream waits for another core with a word of port 1. -/
def sClaimed : State := { sRules with cores := sRules.cores.map fun e => (e.1, thread (fun t => { t with pend := [⟨9, 0x20000, .load 1 0 8, none, [9]⟩] }) e.2) }
theorem test_witness_OperandRules (h : Claim.OperandRules) :
    Met (h.1 5 sRules (by decide +kernel)) ∧ Met (h.1 0 sRules (by decide +kernel)) ∧ Met (h.2.1 5 sRules 9 (by decide +kernel)) ∧ Met (h.2.2.1 6 sRules 9 (by decide +kernel)) ∧
    Met (h.2.2.2.1 sRules) ∧ Met (h.2.2.2.2.1 7 sRules) ∧
    Met (h.2.2.2.2.2.1 2 sRules 1 [] (by decide) (by decide +kernel) rfl (.inl (by decide))) ∧
    Met (h.2.2.2.2.2.1 9 sRules 5 [] (by decide) (by decide +kernel) rfl (.inr rfl)) ∧
    Met (h.2.2.2.2.2.2.1 11 sRules (by decide) (by decide +kernel)) ∧
    Met (h.2.2.2.2.2.2.2.1 9 sClaimed (by decide) (by decide) (by decide +kernel)) ∧ Met (h.2.2.2.2.2.2.2.2.1 (.g 5) sRules _ 9 rfl) ∧
    Met (h.2.2.2.2.2.2.2.2.2.1 sWaits 9 11 (by decide) (by decide +kernel)) ∧
    Met ((h.2.2.2.2.2.2.2.2.2.2 sRules 9 rfl rfl).1.1 (by decide +kernel)) ∧ Met ((h.2.2.2.2.2.2.2.2.2.2 sRules 9 rfl rfl).2.1.1 (by decide +kernel)) ∧
    Met ((h.2.2.2.2.2.2.2.2.2.2 sRules 9 rfl rfl).2.2.1.2 (by decide +kernel)) ∧ Met ((h.2.2.2.2.2.2.2.2.2.2 sRules 9 rfl rfl).2.2.2.1 (by decide +kernel)) :=
  ⟨trivial, trivial, trivial, trivial, trivial, trivial, trivial, trivial, trivial, trivial, trivial, trivial, trivial, trivial, trivial, trivial⟩
/-- Port 1 bound, with `n` words to send, for the task `k`. -/
def sPort (n : Nat) (k : Task) : State := box fun c =>
  { slot (fun x => { x with task := some k, ports := x.ports.set 1 { cfg := 0x80000001, send := List.replicate n (.exec, 0, 5), recv := [] } }) c with
    home := [⟨0, specTask.rcd, 0, none, some ⟨0, .stream 0 .exec⟩, false, 0⟩] }
/-- The access stream waits for another core with a word for port 1. -/
def sPortClaimed : State :=
  { sPort 0 (placeTask 0) with cores := (sPort 0 (placeTask 0)).cores.map fun e => (e.1, mapThread e.2 (.stream 0 .acc) fun t => { t with pend := [⟨9, 0x20000, .load 1 0 8, none, [9]⟩] }) }
def fullTask : Task := { specTask with obuf := List.replicate 16 (.port .exec 1 5) }
theorem test_witness_PortWrites (h : Claim.PortWrites) :
    Met ((h 0 (sPort 0 (placeTask 0)) 9 rfl rfl).1 (by decide +kernel)) ∧
    Met (((h 1 (sPort 7 (placeTask 0)) 9 rfl rfl).2 (by decide +kernel)).1 (by decide +kernel) (by decide +kernel) rfl) ∧
    Met (((h 1 (sPort 8 (placeTask 0)) 9 rfl rfl).2 (by decide +kernel)).2.1 (by decide +kernel) (.inl (by decide +kernel))) ∧
    Met (((h 1 sPortClaimed 9 rfl rfl).2 (by decide +kernel)).2.1 (by decide +kernel) (.inr (by decide +kernel))) ∧
    Met ((((h 1 (sPort 8 specTask) 9 rfl rfl).2 (by decide +kernel)).2.2 specTask (by decide +kernel) (by decide +kernel)).1 (by decide)) ∧
    Met ((((h 1 (sPort 8 fullTask) 9 rfl rfl).2 (by decide +kernel)).2.2 fullTask (by decide +kernel) (by decide +kernel)).2 (by decide)) := ⟨trivial, trivial, trivial, trivial, trivial, trivial⟩
theorem test_witness_UnitTraps (h : Claim.UnitTraps) :
    Met (h.1 (.add (.g 1) (.g 2) (.g 3)) (by decide +kernel)) ∧
    Met (h.2 (.vadd 1 2 3 0) uV sRules ⟨0x008, 0⟩ rfl (by decide +kernel) rfl) ∧
    Met (h.2 (.gldD (.g 1) (.g 2) 0) uA (box id) ⟨0x00A, 0⟩ rfl (by decide +kernel) rfl) ∧
    Met (h.2 (.fadd (.g 1) (.g 2) (.g 3)) uEA sNear ⟨0x007, 0⟩ rfl (by decide +kernel) rfl) := ⟨trivial, trivial, trivial, trivial⟩
theorem test_witness_OperandTraps (h : Claim.OperandTraps) :
    Met (h.1 (box id) .halt (by decide) (by decide +kernel) rfl (by decide +kernel)) ∧
    Met (h.2.1 sNear (.add (.g 1) (.g 31) (.g 3)) _ _ _ _ 31 rfl (by decide +kernel) (by decide) rfl (.inr (.inl rfl))) ∧
    Met (h.2.2.1 sNear (.add (.g 1) (.g 2) (.sp 6)) _ _ _ _ 6 rfl (by decide +kernel) (.inl (by decide)) (.inr (.inr rfl))) ∧
    Met (h.2.2.1 sRules (.add (.g 1) (.g 2) (.sp 20)) _ _ _ _ 20 rfl (by decide +kernel) (.inr (by decide)) (.inr (.inr rfl))) ∧
    Met ((h.2.2.2.1 (box id) (.add (.sp 2) (.g 2) (.g 3)) _ _ _ _ 0 rfl (by decide +kernel) (by decide +kernel)).1 rfl (.inr (.inr rfl))) ∧
    Met ((h.2.2.2.1 sRules (.add (.g 1) (.sp 2) (.g 3)) _ _ _ _ 0 rfl (by decide +kernel) (by decide +kernel)).2 rfl (by decide) (.inl rfl)) ∧
    Met ((h.2.2.2.2 (box id) (.g 1) (.g 2) 3 (by decide +kernel) (passes_of (by decide +kernel))).1 (by decide)) ∧
    Met ((h.2.2.2.2 (box id) (.g 1) (.g 2) 2 (by decide +kernel) (passes_of (by decide +kernel))).2 (by decide +kernel)) := ⟨trivial, trivial, trivial, trivial, trivial, trivial, trivial, trivial⟩
theorem test_witness_IntegerEncodings (h : Obligations.IntegerEncodings) :
    Met (h (.xor (.sp 2) (.g 31) (.g 0)) (by decide +kernel) (.inl ⟨_, rfl⟩)) ∧ Met (h (.clz (.g 9) (.g 7)) (by decide +kernel) (.inr (.inl ⟨_, rfl⟩))) ∧
    Met (h (.addi (.g 9) (.g 7) 0x3FFFFFFF) (by decide +kernel) (.inr (.inr (.inl ⟨_, rfl⟩)))) ∧ Met (h (.li (.g 9) (-1)) (by decide +kernel) (.inr (.inr (.inr ⟨_, rfl⟩)))) := ⟨trivial, trivial, trivial, trivial⟩
theorem test_witness_EveryEncoding (h : Obligations.EveryEncoding) : Met (h (.vfmaccVf 31 7 (.g 3) 5) (by decide +kernel) rfl rfl (by intro x hx; cases hx) (by intro x hx; cases hx)) := trivial
/-- A step of core 0's execute stream at 0x20000, which has the words of ADD g1, g2, g3 and of LI g12, 300. -/
def sRun : State := box fun k => bytes 0x20000 [0x98, 0x02, 0x00, 0xF0, 0x00, 0xD5, 0x2C, 0x29] (regs [(2, 5), (3, 6)] k)
noncomputable def nextOf (s : State) : State := match step s with
  | .next t => t
  | _ => s
theorem stepped_of {s : State} (h : (match step s with
    | .next _ => true
    | _ => false) = true) : step s = .next (nextOf s) := by
  unfold nextOf
  revert h
  cases step s <;> simp
theorem test_witness_StepKeepsCanonical (h : Obligations.StepKeepsCanonical) :
    Met (h sRun (nextOf sRun) (by unfold Canonical; decide +kernel) (stepped_of (by decide +kernel))) := trivial
theorem waits_none {s : State} (h : ((threadOf s).sbuf.isEmpty && (threadOf s).early.isEmpty && !partnerBusy s s.cur) = true) : NothingWaits s := by
  simpa [NothingWaits, and_assoc] using h
/-- A step that an agenda begins with. -/
def sAgenda (m : Turn) : State := { sRun with cur := ⟨7, .ibex 0⟩, agenda := [m, .tick 1] }
def ran (o : Out) : State := match o with
  | .next t => t
  | _ => State.reset
theorem ran_of {o : Out} (h : (match o with
    | .next _ => true
    | _ => false) = true) : o = .next (ran o) := by cases o <;> simp_all [ran]
theorem test_witness_StepRunsDecoded (h : Obligations.StepRunsDecoded) :
    Met (h.1 sRun [0x0298] rfl (by unfold MayExecute; decide +kernel) (words_at (by decide +kernel)) (waits_none (by decide +kernel))) ∧
    Met (h.2.1 sRun [0x0298] rfl (by unfold MayExecute; decide +kernel) (words_at (by decide +kernel))) ∧ Met (h.2.2.1 sRun (.j 3)) ∧
    Met ((h.2.2.2.1 sWaits (.ldW (.g 4) (.g 5) 0)).2.2.1) ∧
    Met (h.2.2.2.2.1 (sAgenda (.delayed ⟨0, .stream 0 .exec⟩)) _ _ [0x0298] rfl (by unfold MayExecute; decide +kernel) (words_at (by decide +kernel))) ∧
    Met (h.2.2.2.2.2.1 (sAgenda (.instr ⟨0, .stream 0 .exec⟩)) _ _ [0x0298] rfl (by unfold MayExecute; decide +kernel) (words_at (by decide +kernel)) (waits_none (by decide +kernel))) ∧
    Met (h.2.2.2.2.2.2.1 (sAgenda (.event (.globalAccess 3))) _ _ rfl rfl) ∧
    Met (h.2.2.2.2.2.2.2.1 (box (thread fun t => { t with pc := 0x1000 })) rfl (by unfold MayExecute; decide +kernel) (by decide +kernel) (by decide +kernel)) ∧
    Met (h.2.2.2.2.2.2.2.2 (sAgenda (.issue 0 .exec)) 0 .exec [.tick 1] 0 _ _ rfl rfl (by decide +kernel) (by decide +kernel) (ran_of (by decide +kernel)) (by decide +kernel)) :=
  ⟨trivial, trivial, trivial, trivial, trivial, trivial, trivial, trivial, trivial⟩

/-! ### Terms that WellFormed refuses: one for each check (R36 to R40) -/

/-- R40: codes 7, 12 to 15 and 24 to 31 name nothing. -/
theorem test_wf_undefined_source : wellFormed (.add (.g 1) (.sp 7) (.g 2)) = false := by decide +kernel
theorem test_wf_undefined_code : wellFormed (.jr (.sp 24)) = false := by decide +kernel
/-- R40: l0 and the mailbox are read only. -/
theorem test_wf_read_only_destination : wellFormed (.add (.sp 0) (.g 1) (.g 2)) = false := by decide +kernel
theorem test_wf_mailbox_destination : wellFormed (.ldD (.sp 6) (.g 1) 0) = false := by decide +kernel
/-- R38: an instruction has XR or XV, not both. -/
theorem test_wf_both_prefixes : wellFormed (.vld 9 (.g 12) 0) = false := by decide +kernel
theorem test_wf_mask_and_special : wellFormed (.vmvVx 1 (.sp 2) 3) = false := by decide +kernel
/-- An event has no words, and a decode trap is none's meaning. -/
theorem test_wf_event : wellFormed .clapperEstimateRefresh = false := by decide +kernel
theorem test_wf_decode_trap : wellFormed (.decodeTrap 0 0 0) = false := by decide +kernel

/-! ### Words of the spec's encodings (R34 to R45), written out field by field -/

theorem test_word_integer : decode [0b0000_001_010_011_001] = .sub (.g 1) (.g 2) (.g 3) := by decide +kernel
theorem test_word_shift : decode [0b1101_0000_0010_0000, 0b1110_001_010_111_011] = .slli (.g 1) (.g 2) 7 := by decide +kernel
theorem test_word_load : decode [0b1101_0000_0011_0000, 0b1110_001_010_011_000] = .lduB (.g 1) (.g 2) 3 := by decide +kernel
theorem test_word_branch : decode [0b0110_001_010_100_111] = .brLtu (.g 1) (.g 2) (-1) := by decide +kernel
theorem test_word_atomic : decode [0b1101_0000_0011_0100, 0b1110_001_010_100_000] = .amocasD (.g 1) (.g 2) (.g 4) := by decide +kernel
theorem test_word_global : decode [0b1101_0000_0011_1000, 0b1110_001_010_100_110] = .gamoCas (.g 1) (.g 2) (.g 4) := by decide +kernel
theorem test_word_float : decode [0b1101_0000_0100_0100, 0b1110_001_010_000_000] = .fcvtWS (.g 1) (.g 2) := by decide +kernel
theorem test_word_vector : decode [0b1101_0000_1000_0010, 0b1110_001_010_011_000] = .vaddVx 1 2 (.g 3) 0 := by decide +kernel
theorem test_word_mask : decode [0b1101_0000_1010_0100, 0b1110_001_010_011_000] = .vmand 1 2 3 := by decide +kernel
theorem test_word_vector_atomic : decode [0b1101_0000_1010_1010, 0b1110_001_010_011_010] = .vamoAdd 1 (.g 2) 3 0 := by decide +kernel
theorem test_word_stream : decode [0b1101_0001_0000_0000, 0b1110_000_010_000_000] = .ago (.g 2) := by decide +kernel
theorem test_word_message : decode [0b1101_0001_0001_0000, 0b1110_001_010_011_001] = .msgPut (.g 1) (.g 2) (.g 3) := by decide +kernel
theorem test_word_task : decode [0b1101_0001_0010_0000, 0b1110_101_000_000_010] = .tsusp 5 := by decide +kernel
theorem test_word_closure : decode [0b1101_0001_0011_0000, 0b1110_101_010_011_000] = .capt 5 (.g 2) 3 := by decide +kernel
theorem test_word_matrix : decode [0b1101_0001_0100_0000, 0b1110_001_010_011_000] = .mmaE4m3 (.g 1) (.g 2) (.g 3) := by decide +kernel
theorem test_word_bank : decode [0b1101_0001_0101_0010, 0b1110_001_010_011_011] = .bkExps (.g 1) (.g 2) (.g 3) := by decide +kernel
theorem test_word_copy : decode [0b1101_0001_0110_0000, 0b1110_001_010_011_001] = .cpg 1 (.g 2) (.g 3) := by decide +kernel
theorem test_word_barrier : decode [0b1101_0001_1000_0010, 0b1110_001_010_000_001] = .barArr (.g 1) (.g 2) := by decide +kernel
theorem test_word_trap : decode [0b1111_0000_0000_0001, 0b1101_0001_1001_0000, 0b1110_000_000_010_011] = .trap 10 := by decide +kernel
theorem test_word_work : decode [0b1101_0001_1010_0000, 0b1110_000_010_011_000] = .wqry (.g 2) (.g 3) := by decide +kernel

/-! ### Single steps, with results worked out by hand from the rules -/

/-- The state after an instruction. -/
def after (i : Instr) (s : State) (p : State → Bool) : Bool := match exec i s with
  | .next t => p t
  | _ => false
def gIs (n : BitVec 5) (v : Word) (t : State) : Bool := regVal (threadOf t) n == v
/-- R128: addition wraps, and l0 and l1 move (R111). -/
theorem test_add_wraps : after (.add (.g 4) (.g 5) (.g 5)) (box (regs [(5, 0x8000000000000001)])) (fun t => gIs 4 2 t && (threadOf t).l0 == 2) = true := by decide +kernel
/-- R111: g0 discards the write. -/
theorem test_add_to_g0 : after (.add (.g 0) (.g 5) (.g 5)) (box (regs [(5, 3)])) (fun t => gIs 0 0 t && (threadOf t).l0 == 6 && pcOf t == 0x20002) = true := by decide +kernel
/-- R129: the most negative number by −1, and by 0. -/
theorem test_div_overflow : after (.div (.g 4) (.g 5) (.g 6)) (box (regs [(5, 0x8000000000000000), (6, -1)])) (gIs 4 0x8000000000000000) = true := by decide +kernel
theorem test_rem_by_zero : after (.rem (.g 4) (.g 5) (.g 0)) (box (regs [(5, -7)])) (gIs 4 (-7)) = true := by decide +kernel
/-- R128: a shift uses six bits of c. -/
theorem test_shift_by_64 : after (.sll (.g 4) (.g 5) (.g 6)) (box (regs [(5, 3), (6, 65)])) (gIs 4 6) = true := by decide +kernel
/-- R132: a byte load extends its sign. -/
theorem test_load_sign : after (.ldB (.g 4) (.g 5) 3) sMem (gIs 4 0xFFFFFFFFFFFFFF84) = true := by decide +kernel
/-- R132: the last word of local memory is stored. -/
theorem test_store_top : after (.stD (.g 7) (.g 6) 0) sMem (fun t => peek (here t).mem 0x1FFFFF == 0xFF && peek (here t).mem 0x1FFFF8 == 0xFE) = true := by decide +kernel
/-- R116, R275: a load beyond local memory enters the handler with cause 0x060 and the address. -/
theorem test_load_outside : after (.ldD (.g 4) (.g 5) 0) (box fun k => { regs [(5, 0x200000)] (bytes 0x20200 [0x00, 0x9A] k) with tvec := 0x20200 })
    (fun t => pcOf t == 0x20200 && (slotOf t).cause == 0x060 && (slotOf t).faddr == 0x200000 && (slotOf t).status == 5) = true := by decide +kernel
/-- R144, R145: 1 + 1 is 2, and 1 by 0 is infinite with its flag (FCSR bit 3 or the flag field of R126). -/
theorem test_fadd : after (.fadd (.g 4) (.g 5) (.g 5)) (box (regs [(5, 0x3F800000)])) (gIs 4 0x40000000) = true := by decide +kernel
theorem test_fdiv_zero : after (.fdiv (.g 4) (.g 5) (.g 0)) (box (regs [(5, 0x3F800000)])) (gIs 4 0x7F800000) = true := by decide +kernel
/-- R109: a taken branch goes to PC plus two times its displacement. -/
theorem test_branch_taken : after (.brEq (.g 0) (.g 0) (-4)) (box id) (fun t => pcOf t == 0x1FFF8) = true := by decide +kernel
/-- R280: ERET outside a handler is the decode cause of R46. -/
theorem test_eret_outside : after .eret (sTrap id) (fun t => (slotOf t).cause == 0x002 + 2 ^ 9 * 5) = true := by decide +kernel
/-- R15: 2^-75 squared is exact with an unbounded exponent, and 0 after rounding to even: I alone, no U. -/
theorem test_fmul_exact_tiny : after (.fmul (.g 4) (.g 5) (.g 5)) (box (regs [(5, 0x1A000000)])) (fun t => gIs 4 0 t && (threadOf t).fcsr &&& 0x1F == 1) = true := by decide +kernel
/-- R362: the first bytes of SHAKE256 of no bytes (FIPS 202), and the Ed448 signature of no bytes of RFC 8032, which another message fails. -/
theorem test_shake256_empty : shake256 16 [] = (leBytes 16 0x46b9dd2b0ba88d13233b3feb743eeb24).reverse := by decide +kernel
def blankKey : List Byte := (leBytes 57 0x5fd7449b59b461fd2ce787ec616ad46a1da1342485a70e1f8a0ea75d80e96778edf124769b46c7061bd6783df1e50f6cd1fa1abeafe8256180).reverse
def blankSig : List Byte := (leBytes 114 0x533a37f6bbe457251f023c0d88f976ae2dfb504a843e34d2074fd823d41a591f2b233f034f628281f2fd7a22ddd47d7828c59bd0a21bfd3980ff0d2028d4b18a9df63e006c5d1c2d345b925d8dc00b4104852db99ac5c7cdda8530a113a0f4dbb61149f05a7363268c71d95808ff2e652600).reverse
theorem test_ed448_blank : ed448Verify blankKey [] blankSig = true := by decide +kernel
theorem test_ed448_other : ed448Verify blankKey [0] blankSig = false := by decide +kernel

end Sys2Proof.Tests
end

/-! # Every step keeps every memory in canonical form (O57)

The proof follows the model's own layers. `KeepsForm` says of a computation of an instruction, `KeepsStep` of an instruction or event,
and `Canonical` of a change of the state, that the form is kept. Each operation of the model has one lemma, whose proof has the shape of
the operation; the obligation is the last of them, about `advanceAll`. Memory changes only by `pokes`, by being emptied, or by a reset. -/
namespace Sys2Proof.Machine
open Sys2Proof.Claim

/-! ### Sequences and branches that keep the form -/

theorem KeepsForm.bind {α β : Type} {x : M α} {f : α → M β} (hx : KeepsForm x) (hf : ∀ a, KeepsForm (f a)) :
    KeepsForm (x >>= f) := keepsForm_bind hx hf
theorem KeepsForm.next {α β : Type} {x : M α} {f : α → β} (hx : KeepsForm x) : KeepsForm (x >>= fun a => pure (f a)) :=
  hx.bind fun _ => keepsForm_pure _
/-- What a computation does with the state that it has read may rely on that state's form. -/
theorem keepsForm_getThen {β : Type} {f : State → M β} (hf : ∀ s, Canonical s → KeepsForm (f s)) :
    KeepsForm ((get : M State) >>= f) := by
  intro s b t h e
  obtain ⟨a, s1, h1, h2⟩ := (bind_ok _ _ _ _).mp e
  cases h1
  exact hf s h s b t h h2
theorem keepsForm_set {s : State} (h : Canonical s) : KeepsForm (set s : M PUnit) := by
  intro r a t _ e; cases e; exact h
theorem keepsForm_modify {f : State → State} (hf : ∀ s, Canonical s → Canonical (f s)) : KeepsForm (modify f : M PUnit) :=
  keepsForm_change (fun _ => rfl) hf
theorem keepsForm_probe {x : M Unit} : KeepsForm (probe x) := keepsForm_read fun s a t e => by
  unfold probe at e
  split at e <;> cases e
  rfl

/-! ### Operands, flags and scalar operations -/

theorem keepsForm_getRm : KeepsForm getRm := keepsForm_getThread.next
theorem keepsForm_raiseFlags {f : Flags} : KeepsForm (raiseFlags f) := by
  unfold raiseFlags
  refine keepsForm_getThread.bind fun t => ?_
  split
  · exact keepsForm_trapA _ _ _
  · exact keepsForm_modThread _
theorem keepsForm_immop {a b : GReg} {i : Word} {f : Word → Word → Word} : KeepsForm (immop a b i f) :=
  (keepsForm_readG b).bind fun _ => (keepsForm_writeResult a _).next
theorem keepsForm_shiftop {a b : GReg} {i : BitVec 27} {f : Word → Nat → Word} : KeepsForm (shiftop a b i f) :=
  (keepsForm_guardD _ _ _).bind fun _ => (keepsForm_readG b).bind fun _ => (keepsForm_writeResult a _).next
theorem keepsForm_fres {a : GReg} {r : Fr Nat} : KeepsForm (fres a r) :=
  keepsForm_raiseFlags.bind fun _ => (keepsForm_writeResult a _).next
theorem keepsForm_fbin {a b c : GReg} {f : Rm → Nat → Nat → Fr Nat} : KeepsForm (fbin a b c f) :=
  (keepsForm_readG b).bind fun _ => (keepsForm_readG c).bind fun _ => keepsForm_getRm.bind fun _ => keepsForm_fres
theorem keepsForm_fun1 {a b : GReg} {f : Rm → Word → Fr Nat} : KeepsForm (fun1 a b f) :=
  (keepsForm_readG b).bind fun _ => keepsForm_getRm.bind fun _ => keepsForm_fres

/-! ### Local memory -/

theorem keepsForm_nearAddr {b : GReg} {imm : Word} {n : Nat} : KeepsForm (nearAddr b imm n) := (keepsForm_readG b).next
theorem keepsForm_loadOp {a b : GReg} {imm : Word} {n : Nat} {x : Bool} : KeepsForm (loadOp a b imm n x) :=
  keepsForm_nearAddr.bind fun _ => (keepsForm_loadNear _ n).bind fun _ => (keepsForm_writeResult a _).next
theorem keepsForm_storeBy {put : Word → Nat → Nat → M Unit} (hp : ∀ x n v, KeepsForm (put x n v)) {a b : GReg} {imm : Word}
    {n : Nat} : KeepsForm (storeBy put a b imm n) :=
  keepsForm_nearAddr.bind fun _ => (keepsForm_readG a).bind fun _ => (hp _ _ _).next
theorem keepsForm_storeOp {a b : GReg} {imm : Word} {n : Nat} : KeepsForm (storeOp a b imm n) :=
  keepsForm_storeBy keepsForm_storeNear
theorem keepsForm_stallIfSpec : KeepsForm stallIfSpec := keepsForm_getSpec.bind fun _ => keepsForm_stallIf _
theorem keepsForm_readAt {x n : Nat} : KeepsForm (modify fun s => readAt s s.cur.core x n : M PUnit) :=
  keepsForm_modify fun _ h => canonical_readAt h _ x n
theorem keepsForm_amoNear {op : AmoOp} {n : Nat} {a : Word} {x y : Nat} {ready : M Unit} (hr : KeepsForm ready) :
    KeepsForm (amoNear op n a x y ready) := by
  unfold amoNear
  refine keepsForm_get.bind fun s => ?_
  split
  · exact keepsForm_trapA _ _ _
  · exact (keepsForm_guardA _ _ _ _).bind fun _ => (keepsForm_guardA _ _ _ _).bind fun _ => keepsForm_stallIfSpec.bind fun _ =>
      (keepsForm_stallIf _).bind fun _ => hr.bind fun _ => (keepsForm_remote _).bind fun _ => (keepsForm_ansWord _).next
  · refine (keepsForm_guardA _ _ _ _).bind fun _ => (keepsForm_checkPages _ _ _ _).bind fun _ => keepsForm_stallIfSpec.bind fun _ =>
      (keepsForm_guardA _ _ _ _).bind fun _ => (keepsForm_stallEntry _).bind fun _ => ?_
    split
    · exact keepsForm_trapA _ _ _
    · exact (keepsForm_dropEarly _ _).bind fun _ => keepsForm_readAt.bind fun _ => (keepsForm_writeOwn _ _ _).next
theorem keepsForm_amoOp {op : AmoOp} {n : Nat} {a b c : GReg} : KeepsForm (amoOp op n a b c) :=
  (keepsForm_readG b).bind fun _ => (keepsForm_readG c).bind fun _ => (keepsForm_amoNear keepsForm_probe).bind fun _ =>
    (keepsForm_writeResult a _).next
theorem keepsForm_casOp {a b c : GReg} : KeepsForm (casOp a b c) :=
  (keepsForm_readG b).bind fun _ => (keepsForm_readPair c).bind fun _ => (keepsForm_amoNear keepsForm_probe).bind fun _ =>
    (keepsForm_writeResult a _).next

/-! ### Global accesses -/

theorem keepsForm_globalCheck {a : Word} {n : Nat} : KeepsForm (globalCheck a n) :=
  (keepsForm_guardA _ _ _ _).bind fun _ => (keepsForm_guardA _ _ _ _).bind fun _ => keepsForm_guardA _ _ _ _
theorem canonical_sendGlobal {s : State} (h : Canonical s) (o : Origin) (a : Word) (k : GKind) : Canonical (sendGlobal s o a k) := h
/-- A request to global memory is sent from the state as it is now. -/
theorem keepsForm_setSendGlobal (o : Origin) (a : Word) (k : GKind) :
    KeepsForm ((get : M State) >>= fun s => (set (sendGlobal s o a k) : M PUnit)) :=
  keepsForm_getThen fun _ h => keepsForm_set (canonical_sendGlobal h o a k)
theorem keepsForm_globalLoad {a : GReg} {x : Word} {k : GKind} : KeepsForm (globalLoad a x k) := by
  unfold globalLoad
  refine keepsForm_get.bind fun s => KeepsForm.bind ?_ fun _ => (keepsForm_stallIf _).bind fun _ =>
    (keepsForm_modThread _).bind fun _ => keepsForm_setSendGlobal _ x k
  cases a with
  | g n => exact keepsForm_stallIf _
  | sp c => exact (keepsForm_stallIf _).bind fun _ => keepsForm_modSlot _
theorem keepsForm_gldOp {a b : GReg} {imm : Word} {n : Nat} : KeepsForm (gldOp a b imm n) :=
  keepsForm_nearAddr.bind fun _ => keepsForm_globalCheck.bind fun _ => keepsForm_get.bind fun _ =>
    (keepsForm_stallIf _).bind fun _ => keepsForm_globalLoad.next
theorem keepsForm_gstOp {a b : GReg} {imm : Word} {n : Nat} : KeepsForm (gstOp a b imm n) := by
  refine keepsForm_nearAddr.bind fun x => (keepsForm_readG a).bind fun v => keepsForm_globalCheck.bind fun _ =>
    keepsForm_get.bind fun s => ?_
  dsimp only
  split
  · exact (keepsForm_hold _).next
  · exact (keepsForm_post _ _ fun o s h => canonical_sendGlobal h o x _).next
theorem keepsForm_gamoOp {op : AmoOp} {a b c : GReg} : KeepsForm (gamoOp op a b c) :=
  (keepsForm_readG b).bind fun _ => (keepsForm_readG c).bind fun _ => keepsForm_globalCheck.bind fun _ =>
    keepsForm_stallIfSpec.bind fun _ => keepsForm_globalLoad.next
theorem keepsForm_gcasOp {a b c : GReg} : KeepsForm (gcasOp a b c) :=
  (keepsForm_readG b).bind fun _ => (keepsForm_readPair c).bind fun _ => keepsForm_globalCheck.bind fun _ =>
    keepsForm_stallIfSpec.bind fun _ => keepsForm_globalLoad.next

/-! ### Control -/

theorem keepsForm_branch {a b : GReg} {d : BitVec 15} {p : Word → Word → Bool} : KeepsForm (branch a b d p) :=
  (keepsForm_readG b).bind fun _ => (keepsForm_readG a).bind fun _ => keepsForm_get.next
theorem keepsForm_needPad {t : Word} {n : Nat} : KeepsForm (needPad t n) := by
  unfold needPad
  refine keepsForm_get.bind fun s => ?_
  split
  · exact keepsForm_stop _
  · exact keepsForm_pure _
theorem keepsForm_reportPosted {f : Side → Bool} : KeepsForm (reportPosted f) := by
  unfold reportPosted
  refine keepsForm_getSlot.bind fun x => ?_
  split
  · split
    · exact keepsForm_getCore.bind fun _ => keepsForm_stop _
    · exact keepsForm_pure _
  · exact keepsForm_pure _
theorem keepsForm_moveWords {d c n : Nat} : KeepsForm (moveWords d c n) := by
  induction n with
  | zero => exact keepsForm_pure _
  | succ n ih => exact (keepsForm_popQ c).bind fun _ => (keepsForm_pushQ d _).bind fun _ => ih

/-! ### Vector state -/

theorem keepsForm_getVt : KeepsForm getVt := keepsForm_getSlot.bind fun _ => (keepsForm_guardD _ _ _).next
theorem keepsForm_groupCheck {l : List (VReg × Nat)} : KeepsForm (groupCheck l) := keepsForm_guardD _ _ _
theorem keepsForm_apart {a : VReg} {ca : Nat} {b : VReg} {cb : Nat} : KeepsForm (apart a ca b cb) := keepsForm_guardD _ _ _
theorem keepsForm_vGet {n : VReg} {c : Nat} : KeepsForm (vGet n c) := keepsForm_getSlot.next
theorem keepsForm_vPut {n : VReg} {c v : Nat} : KeepsForm (vPut n c v) := keepsForm_modSlot _
theorem keepsForm_vWrite {t : VT} {w : Nat} {a : VReg} {c : Nat} {vm : MReg} {r : Nat → Fr Nat} : KeepsForm (vWrite t w a c vm r) :=
  keepsForm_getSlot.bind fun _ => keepsForm_raiseFlags.bind fun _ => keepsForm_vGet.bind fun _ =>
    keepsForm_ite (keepsForm_pure _) keepsForm_vPut
theorem keepsForm_mWrite {t : VT} {a vm : MReg} {r : Nat → Fr Bool} : KeepsForm (mWrite t a vm r) :=
  keepsForm_getSlot.bind fun _ => keepsForm_raiseFlags.bind fun _ => keepsForm_ite (keepsForm_pure _) (keepsForm_modSlot _)
theorem keepsForm_setVl {a : GReg} {vt : Word} {avl : Option Word} : KeepsForm (setVl a vt avl) :=
  keepsForm_ite ((keepsForm_modSlot _).bind fun _ => keepsForm_writeResult a _)
    ((keepsForm_modSlot _).bind fun _ => keepsForm_writeResult a _)
theorem keepsForm_readAvl {b : GReg} : KeepsForm (readAvl b) := keepsForm_ite (keepsForm_pure _) (keepsForm_readG b).next

/-! ### Vector loads and stores -/

theorem keepsForm_mapM {α β : Type} {f : α → M β} (hf : ∀ a, KeepsForm (f a)) (l : List α) : KeepsForm (l.mapM f) := by
  induction l with
  | nil => exact keepsForm_pure _
  | cons a r ih => rw [List.mapM_cons]; exact (hf a).bind fun _ => ih.next
theorem keepsForm_remoteAll {rs : List Req} : KeepsForm (remoteAll rs) := by
  unfold remoteAll
  refine keepsForm_get.bind fun s => ?_
  split
  · exact keepsForm_stop _
  · exact keepsForm_mapM keepsForm_remote rs
theorem keepsForm_forwardElems {n : Nat} {l : List Reach} : KeepsForm (forwardElems n l) := by
  induction l with
  | nil => exact keepsForm_pure _
  | cons p r ih =>
    cases p with
    | own x => exact (keepsForm_forwardOwn x n).bind fun _ => ih
    | view t x => exact ih
    | window d x => exact ih
theorem keepsForm_trapRefused {r : Option Refused} : KeepsForm (trapRefused r) := by
  cases r with
  | none => exact keepsForm_pure _
  | some r => exact keepsForm_trapW _ _
theorem keepsForm_loadLimit {ff : Bool} {bad : Option (Nat × Why)} {addr : Nat → Word} {l : List Refused} {vl : Nat} :
    KeepsForm (loadLimit ff bad addr l vl) := by
  unfold loadLimit
  split
  · exact keepsForm_ite (keepsForm_pure _) (keepsForm_trapW _ _)
  · exact keepsForm_ite (keepsForm_pure _) (keepsForm_trapW _ _)
  · exact keepsForm_ite (keepsForm_pure _) (keepsForm_trapW _ _)
  · exact keepsForm_pure _
theorem keepsForm_readElems {s : State} {n : Nat} {p : Nat → Reach} {an : List (Req × Ans)} {l : List Nat} :
    KeepsForm (readElems s n p an l) := by
  induction l with
  | nil => exact keepsForm_pure _
  | cons i r ih =>
    unfold readElems
    extract_lets rest
    have hr : ∀ v, KeepsForm (rest v) := fun _ => ih.next
    split
    · exact (keepsForm_readOwn _ _).bind hr
    · exact (keepsForm_seenView _ _ _).bind fun _ => (keepsForm_pure _).bind hr
    · exact (keepsForm_pure _).bind hr
theorem keepsForm_vLoad {a : VReg} {vm : MReg} {t : VT} {addr : Nat → Word} {ff : Bool} : KeepsForm (vLoad a vm t addr ff) :=
  keepsForm_get.bind fun _ => keepsForm_loadLimit.bind fun _ => (keepsForm_stallEntry _).bind fun _ =>
    (keepsForm_stallIf _).bind fun _ => keepsForm_forwardElems.bind fun _ => keepsForm_remoteAll.bind fun _ =>
    keepsForm_loadLimit.bind fun _ => keepsForm_trapRefused.bind fun _ => keepsForm_readElems.bind fun _ =>
    keepsForm_ite ((keepsForm_modSlot _).bind fun _ => keepsForm_vWrite) keepsForm_vWrite
theorem keepsForm_vStoreOwn {late : Bool} {s : State} {n : Nat} {addr : Nat → Word} {v : Nat → Nat} {l : List Nat} :
    KeepsForm (vStoreOwn late s n addr v l) := by
  induction l with
  | nil => exact keepsForm_pure _
  | cons i r ih =>
    unfold vStoreOwn
    refine KeepsForm.bind ?_ fun _ => ih
    split
    · exact (keepsForm_dropEarly _ _).bind fun _ => keepsForm_ite (keepsForm_modThread _) (keepsForm_writeOwn _ _ _)
    · exact keepsForm_pure _
theorem keepsForm_vStore {late : Bool} {a : VReg} {vm : MReg} {t : VT} {addr : Nat → Word} : KeepsForm (vStore late a vm t addr) := by
  unfold vStore
  refine keepsForm_get.bind fun s => ?_
  extract_lets n act v waits parts view req own rest
  have ho : ∀ u, KeepsForm (own u) := fun _ => keepsForm_vStoreOwn
  have hr : ∀ u, KeepsForm (rest u) := fun _ =>
    (keepsForm_stallEntry _).bind fun _ => (keepsForm_stallIf _).bind fun _ => (keepsForm_stallIf _).bind fun _ =>
      (keepsForm_storeView _).bind fun _ => keepsForm_ite (ho ()) ((keepsForm_storeWindow _ _).bind ho)
  refine keepsForm_ite ?_ (hr ())
  split
  · exact (keepsForm_trapW _ _).bind hr
  · exact hr ()
/-- A unit-stride, strided or indexed access keeps the form where what it does with each address does. -/
theorem keepsForm_vUnit {a : VReg} {b : GReg} {f : VT → (Nat → Word) → M Unit} (hf : ∀ t ad, KeepsForm (f t ad)) :
    KeepsForm (vUnit a b f) :=
  keepsForm_getVt.bind fun _ => keepsForm_groupCheck.bind fun _ => (keepsForm_readG b).bind fun _ => (hf _ _).next
theorem keepsForm_vStride {a : VReg} {b c : GReg} {f : VT → (Nat → Word) → M Unit} (hf : ∀ t ad, KeepsForm (f t ad)) :
    KeepsForm (vStride a b c f) :=
  keepsForm_getVt.bind fun _ => keepsForm_groupCheck.bind fun _ => (keepsForm_readG b).bind fun _ => (keepsForm_readG c).bind fun _ =>
    (hf _ _).next
theorem keepsForm_vIndexed {a : VReg} {b : GReg} {c : VReg} {f : VT → (Nat → Word) → M Unit} (hf : ∀ t ad, KeepsForm (f t ad)) :
    KeepsForm (vIndexed a b c f) :=
  keepsForm_getVt.bind fun _ => keepsForm_groupCheck.bind fun _ => (keepsForm_readG b).bind fun _ => keepsForm_vGet.bind fun _ =>
    (hf _ _).next

/-! ### Vector arithmetic -/

theorem keepsForm_vvv {a b c : VReg} {vm : MReg} {fp : Bool} {f : VT → Rm → Nat → Nat → Nat → Fr Nat} : KeepsForm (vvv a b c vm fp f) :=
  keepsForm_getVt.bind fun _ => (keepsForm_guardD _ _ _).bind fun _ => keepsForm_groupCheck.bind fun _ => keepsForm_vGet.bind fun _ =>
    keepsForm_vGet.bind fun _ => keepsForm_vGet.bind fun _ => keepsForm_getRm.bind fun _ => keepsForm_vWrite.next
theorem keepsForm_vvx {a b : VReg} {c : GReg} {vm : MReg} {fp : Bool} {f : VT → Rm → Nat → Nat → Nat → Fr Nat} :
    KeepsForm (vvx a b c vm fp f) :=
  keepsForm_getVt.bind fun _ => (keepsForm_guardD _ _ _).bind fun _ => keepsForm_groupCheck.bind fun _ => (keepsForm_readG c).bind fun _ =>
    keepsForm_vGet.bind fun _ => keepsForm_vGet.bind fun _ => keepsForm_getRm.bind fun _ => keepsForm_vWrite.next
theorem keepsForm_vv {a b : VReg} {vm : MReg} {f : VT → Rm → Nat → Fr Nat} : KeepsForm (vv a b vm f) :=
  keepsForm_getVt.bind fun _ => (keepsForm_guardD _ _ _).bind fun _ => keepsForm_groupCheck.bind fun _ => keepsForm_vGet.bind fun _ =>
    keepsForm_getRm.bind fun _ => keepsForm_vWrite.next
theorem keepsForm_vcmp {a : MReg} {b c : VReg} {vm : MReg} {fp : Bool} {p : VT → Nat → Nat → Fr Bool} : KeepsForm (vcmp a b c vm fp p) :=
  keepsForm_getVt.bind fun _ => (keepsForm_guardD _ _ _).bind fun _ => keepsForm_groupCheck.bind fun _ => keepsForm_vGet.bind fun _ =>
    keepsForm_vGet.bind fun _ => keepsForm_mWrite.next
theorem keepsForm_vConv {t : VT} {a : VReg} {wa ca : Nat} {b : VReg} {wb cb : Nat} {vm : MReg} {f : Rm → Nat → Fr Nat} :
    KeepsForm (vConv t a wa ca b wb cb vm f) :=
  (keepsForm_apart).bind fun _ => keepsForm_groupCheck.bind fun _ => keepsForm_vGet.bind fun _ =>
    keepsForm_getRm.bind fun _ => keepsForm_vWrite.next
theorem keepsForm_vred {a : GReg} {b : VReg} {c : GReg} {vm : MReg} {fp : Bool} {f : VT → Rm → Nat → Nat → Fr Nat} :
    KeepsForm (vred a b c vm fp f) :=
  keepsForm_getVt.bind fun _ => (keepsForm_guardD _ _ _).bind fun _ => keepsForm_groupCheck.bind fun _ => (keepsForm_readG c).bind fun _ =>
    keepsForm_vGet.bind fun _ => keepsForm_getRm.bind fun _ => keepsForm_getSlot.bind fun _ => keepsForm_raiseFlags.bind fun _ =>
    (keepsForm_writeResult a _).next
theorem keepsForm_mOp {a b c : MReg} {f : BitVec 512 → BitVec 512 → BitVec 512} : KeepsForm (mOp a b c f) :=
  keepsForm_getVt.bind fun _ => keepsForm_getSlot.bind fun _ => keepsForm_mWrite.next
theorem keepsForm_vToNarrow {a b : VReg} {f : Lit3} {vm : MReg} {sat : Bool} : KeepsForm (vToNarrow a b f vm sat) := by
  unfold vToNarrow
  refine keepsForm_getVt.bind fun t => ?_
  split
  · exact (keepsForm_guardD _ _ _).bind fun _ => keepsForm_vConv
  · exact keepsForm_trapD _ _

/-! ### Instructions and events as steps -/

/-- What a step answers where it goes on is in canonical form where the state it began in is. -/
def KeepsStep (f : State → Out) : Prop := ∀ s t, Canonical s → f s = .next t → Canonical t
theorem keepsStep_event {f : State → State} (hf : ∀ s, Canonical s → Canonical (f s)) : KeepsStep (event f) := by
  intro s t h e; cases e; exact hf s h
theorem keepsStep_hostEvent {f : State → State} (hf : ∀ s, Canonical s → Canonical (f s)) : KeepsStep (hostEvent f) :=
  keepsStep_event fun s h => by
    split
    · exact hf s h
    · exact h
theorem keepsStep_instr {un : Units} {priv : Bool} {uses : List Use} {body : M Next} (hb : KeepsForm body) :
    KeepsStep (instr un priv uses body) := fun _ _ => canonical_instr hb

section
variable {a b c : GReg} {k : KReg} {n : Nat} {p i : Lit3}

/-! ### One-off scalar, memory and control instructions -/

theorem keepsForm_setResult {v : Word} : KeepsForm (do writeResult a v; return Next.seq) := (keepsForm_writeResult a v).next
theorem keepsStep_execAdpc {v : BitVec 20} : KeepsStep (execAdpc a v) := fun _ _ => canonical_instr keepsForm_setResult
theorem keepsStep_execFfma : KeepsStep (execFfma a b c) :=
  keepsStep_instr <| (keepsForm_readG b).bind fun _ => (keepsForm_readG c).bind fun _ => (keepsForm_readG a).bind fun _ =>
    keepsForm_getRm.bind fun _ => keepsForm_fres
theorem keepsStep_execPref : KeepsStep (execPref b c) :=
  keepsStep_instr <| (keepsForm_readG b).bind fun _ => (keepsForm_readG c).bind fun _ => keepsForm_ite (keepsForm_pure _) <|
    keepsForm_getThen fun _ h => (keepsForm_set (canonical_sendGlobal h _ _ _)).next
theorem keepsStep_execMscfl : KeepsStep (execMscfl b c) :=
  keepsStep_instr <| (keepsForm_readG b).bind fun x => (keepsForm_readG c).bind fun _ => keepsForm_globalCheck.bind fun _ =>
    (keepsForm_post _ _ fun o _ h => canonical_sendGlobal h o x _).next
theorem keepsStep_execBrPop {d : BitVec 15} : KeepsStep (execBrPop d) :=
  keepsStep_instr <| (keepsForm_popQ 4).bind fun _ => keepsForm_get.next
theorem keepsStep_execJ {d : BitVec 23} : KeepsStep (execJ d) := keepsStep_instr keepsForm_get.next
theorem keepsStep_execCall {d : BitVec 23} : KeepsStep (execCall d) := fun _ _ =>
  canonical_instr <| keepsForm_markDead.bind fun _ => (keepsForm_writeG _ _).next
theorem keepsStep_execJr : KeepsStep (execJr a) :=
  keepsStep_instr <| (keepsForm_readG a).bind fun _ => keepsForm_needPad.next
theorem keepsStep_execCallr : KeepsStep (execCallr a) := fun _ _ =>
  canonical_instr <| (keepsForm_readG a).bind fun _ => keepsForm_needPad.bind fun _ => keepsForm_markDead.bind fun _ =>
    (keepsForm_writeG _ _).next
theorem keepsStep_execRet : KeepsStep (execRet a) :=
  keepsStep_instr <| (keepsForm_readG a).bind fun _ => (keepsForm_guardA _ _ _ _).bind fun _ => keepsForm_markDead.next
theorem keepsStep_execAgo : KeepsStep (execAgo b) := fun _ _ =>
  canonical_instr <| (keepsForm_guardD _ _ _).bind fun _ => (keepsForm_stallIf _).bind fun _ => (keepsForm_readG b).bind fun _ =>
    keepsForm_needPad.bind fun _ => (keepsForm_modSlot _).bind fun _ => keepsForm_getThread.bind fun _ =>
    (keepsForm_modCore fun _ => by rfl).next
theorem keepsStep_execAend : KeepsStep execAend :=
  keepsStep_instr <| keepsForm_getThread.bind fun _ => (keepsForm_stallIf _).bind fun _ => keepsForm_reportPosted.bind fun _ =>
    (keepsForm_modThread _).next
theorem keepsStep_execMovq : KeepsStep (execMovq a b i) := keepsStep_instr <| by
  split
  · exact keepsForm_moveWords.next
  · exact keepsForm_trapD _ _
theorem keepsStep_execQlevel : KeepsStep (execQlevel a b) := keepsStep_instr <| by
  split
  · exact keepsForm_getCore.bind fun _ => keepsForm_getSlot.bind fun _ => (keepsForm_writeResult a _).next
  · exact keepsForm_trapD _ _
theorem keepsStep_execWait {ld st bk mx : Lit3} : KeepsStep (execWait ld st bk mx) := fun _ _ =>
  canonical_instr <| keepsForm_getThread.bind fun _ => by
    have rest : ∀ x, KeepsForm (do stallIf x; return Next.seq) := fun x => (keepsForm_stallIf x).next
    exact keepsForm_ite (rest _) (keepsForm_ite (keepsForm_reportPosted.bind fun _ => rest _) (rest _))

/-! ### One-off vector instructions -/

theorem keepsStep_execSetvl {t : BitVec 15} : KeepsStep (execSetvl a b t) :=
  keepsStep_instr <| keepsForm_readAvl.bind fun _ => keepsForm_setVl.next
theorem keepsStep_execSetvlr : KeepsStep (execSetvlr a b c) :=
  keepsStep_instr <| keepsForm_readAvl.bind fun _ => (keepsForm_readG c).bind fun _ => keepsForm_setVl.next
theorem keepsStep_execVmvVx {x : VReg} {vm : MReg} : KeepsStep (execVmvVx x c vm) :=
  keepsStep_instr <| keepsForm_getVt.bind fun _ => keepsForm_groupCheck.bind fun _ => (keepsForm_readG c).bind fun _ => keepsForm_vWrite.next
theorem keepsStep_execVmvXs {x : VReg} : KeepsStep (execVmvXs a x) :=
  keepsStep_instr <| keepsForm_getVt.bind fun _ => keepsForm_groupCheck.bind fun _ => keepsForm_vGet.bind fun _ =>
    (keepsForm_writeResult a _).next
theorem keepsStep_execVmvSx {x : VReg} : KeepsStep (execVmvSx x c) :=
  keepsStep_instr <| keepsForm_getVt.bind fun _ => keepsForm_groupCheck.bind fun _ => (keepsForm_readG c).bind fun _ =>
    keepsForm_vGet.bind fun _ => keepsForm_ite (keepsForm_pure _) keepsForm_vPut.next
theorem keepsStep_execVid {x : VReg} {vm : MReg} : KeepsStep (execVid x vm) :=
  keepsStep_instr <| keepsForm_getVt.bind fun _ => keepsForm_groupCheck.bind fun _ => keepsForm_vWrite.next
theorem keepsStep_execVfwcvt {x y : VReg} {vm : MReg} : KeepsStep (execVfwcvt x y vm) :=
  keepsStep_instr <| keepsForm_getVt.bind fun _ => (keepsForm_guardD _ _ _).bind fun _ => keepsForm_vConv
theorem keepsStep_execVfncvt {x y : VReg} {vm : MReg} : KeepsStep (execVfncvt x y vm) :=
  keepsStep_instr <| keepsForm_getVt.bind fun _ => (keepsForm_guardD _ _ _).bind fun _ => keepsForm_vConv
theorem keepsStep_execVslideup {x y : VReg} {vm : MReg} : KeepsStep (execVslideup x y c vm) :=
  keepsStep_instr <| keepsForm_getVt.bind fun _ => keepsForm_apart.bind fun _ => keepsForm_groupCheck.bind fun _ =>
    (keepsForm_readG c).bind fun _ => keepsForm_vGet.bind fun _ => keepsForm_vGet.bind fun _ => keepsForm_getSlot.bind fun _ =>
    keepsForm_ite (keepsForm_pure _) keepsForm_vPut.next
theorem keepsStep_execVslidedn {x y : VReg} {vm : MReg} : KeepsStep (execVslidedn x y c vm) :=
  keepsStep_instr <| keepsForm_getVt.bind fun _ => keepsForm_apart.bind fun _ => keepsForm_groupCheck.bind fun _ =>
    (keepsForm_readG c).bind fun _ => keepsForm_vGet.bind fun _ => keepsForm_vWrite.next
theorem keepsStep_execVrgather {x y z : VReg} {vm : MReg} : KeepsStep (execVrgather x y z vm) :=
  keepsStep_instr <| keepsForm_getVt.bind fun _ => keepsForm_apart.bind fun _ => keepsForm_groupCheck.bind fun _ =>
    keepsForm_vGet.bind fun _ => keepsForm_vGet.bind fun _ => keepsForm_vWrite.next
theorem keepsStep_execVcompress {x y : VReg} {m : MReg} : KeepsStep (execVcompress x y m) :=
  keepsStep_instr <| keepsForm_getVt.bind fun _ => keepsForm_apart.bind fun _ => keepsForm_groupCheck.bind fun _ =>
    keepsForm_vGet.bind fun _ => keepsForm_vGet.bind fun _ => keepsForm_getSlot.bind fun _ =>
    keepsForm_ite (keepsForm_pure _) keepsForm_vPut.next
theorem keepsStep_execVmerge {x y z : VReg} {vm : MReg} : KeepsStep (execVmerge x y z vm) :=
  keepsStep_instr <| keepsForm_getVt.bind fun _ => keepsForm_groupCheck.bind fun _ => keepsForm_vGet.bind fun _ => keepsForm_vGet.bind fun _ =>
    keepsForm_getSlot.bind fun _ => keepsForm_vWrite.next
theorem keepsStep_execVcpop {m vm : MReg} : KeepsStep (execVcpop a m vm) :=
  keepsStep_instr <| keepsForm_getVt.bind fun _ => keepsForm_getSlot.bind fun _ => (keepsForm_writeResult a _).next
theorem keepsStep_execVfirst {m vm : MReg} : KeepsStep (execVfirst a m vm) :=
  keepsStep_instr <| keepsForm_getVt.bind fun _ => keepsForm_getSlot.bind fun _ => (keepsForm_writeResult a _).next
theorem keepsStep_execVcvtW {x y : VReg} {vm : MReg} : KeepsStep (execVcvtW x y i vm) :=
  keepsStep_instr <| keepsForm_getVt.bind fun _ => by
    split
    · exact (keepsForm_guardD _ _ _).bind fun _ => keepsForm_vConv
    · exact keepsForm_trapD _ _
theorem keepsStep_execVpack {x y : VReg} {vm : MReg} : KeepsStep (execVpack x y i vm) :=
  keepsStep_instr <| keepsForm_getVt.bind fun _ => (keepsForm_guardD _ _ _).bind fun _ => keepsForm_vConv
theorem keepsStep_execVunpk {x y : VReg} {vm : MReg} : KeepsStep (execVunpk x y i vm) :=
  keepsStep_instr <| keepsForm_getVt.bind fun _ => (keepsForm_guardD _ _ _).bind fun _ => keepsForm_vConv

/-! ### Closures -/

theorem keepsForm_closureOp {h : Handle} {r : Req} : KeepsForm (closureOp h r) :=
  keepsForm_getThen fun _ hs => keepsForm_ite ((keepsForm_set (canonical_closureServe hs _ _ r)).next) (keepsForm_remote r)
theorem keepsForm_handleCheck {h : Handle} : KeepsForm (handleCheck h) :=
  keepsForm_get.bind fun _ => (keepsForm_guardA _ _ _ _).bind fun _ => keepsForm_guardA _ _ _ _
theorem keepsForm_readRegs {m : Nat} : KeepsForm (readRegs n m) := by
  induction m generalizing n with
  | zero => exact keepsForm_pure _
  | succ m ih => exact (keepsForm_readReg _).bind fun _ => ih.next
theorem keepsStep_execCapt {d : BitVec 15} : KeepsStep (execCapt k b d) :=
  keepsStep_instr <| (keepsForm_guardD _ _ _).bind fun _ => keepsForm_stallIfSpec.bind fun _ => (keepsForm_guardA _ _ _ _).bind fun _ =>
    (keepsForm_readG b).bind fun _ => (keepsForm_guardA _ _ _ _).bind fun _ => keepsForm_getThen fun _ h => by
    dsimp only
    split
    · exact keepsForm_trapA _ _ _
    · exact keepsForm_readRegs.bind fun _ => (keepsForm_set (canonical_writeBytes h ..)).bind fun _ => (keepsForm_writeK k _).next
theorem keepsStep_execCaptRef : KeepsStep (execCaptRef k b) :=
  keepsStep_instr <| keepsForm_stallIfSpec.bind fun _ => (keepsForm_readK k).bind fun _ => keepsForm_get.bind fun _ =>
    (keepsForm_guardA _ _ _ _).bind fun _ => (keepsForm_guardA _ _ _ _).bind fun _ => (keepsForm_guardA _ _ _ _).bind fun _ =>
    (keepsForm_readG b).bind fun _ => by
    dsimp only
    split
    · exact keepsForm_trapA _ _ _
    · exact (keepsForm_guardA _ _ _ _).bind fun _ =>
        (keepsForm_modify fun _ h => canonical_writeHead (canonical_writeNat h ..) ..).next
theorem keepsStep_execKdup : KeepsStep (execKdup k b) :=
  keepsStep_instr <| keepsForm_stallIfSpec.bind fun _ => (keepsForm_readG b).bind fun _ =>
    keepsForm_ite (keepsForm_writeK k 0).next <| keepsForm_handleCheck.bind fun _ => keepsForm_closureOp.bind fun _ =>
    (keepsForm_ansWord _).bind fun _ => (keepsForm_writeK k _).next
theorem keepsStep_execKdrop : KeepsStep (execKdrop k) :=
  keepsStep_instr <| keepsForm_stallIfSpec.bind fun _ => (keepsForm_readK k).bind fun _ =>
    keepsForm_ite (keepsForm_pure _) <| keepsForm_handleCheck.bind fun _ => keepsForm_closureOp.bind fun _ =>
    (keepsForm_ansWord _).bind fun _ => (keepsForm_writeK k 0).next
theorem keepsStep_execKld {w : BitVec 15} : KeepsStep (execKld a k w) :=
  keepsStep_instr <| (keepsForm_readK k).bind fun _ => keepsForm_handleCheck.bind fun _ => keepsForm_closureOp.bind fun _ =>
    (keepsForm_ansWord _).bind fun _ => (keepsForm_writeResult a _).next
theorem keepsStep_execKst {w : BitVec 15} : KeepsStep (execKst k b w) :=
  keepsStep_instr <| keepsForm_stallIfSpec.bind fun _ => (keepsForm_readG b).bind fun _ => (keepsForm_readK k).bind fun _ =>
    keepsForm_handleCheck.bind fun _ => keepsForm_closureOp.bind fun _ => (keepsForm_ansWord _).next
theorem keepsStep_execFrame : KeepsStep (execFrame a b) :=
  keepsStep_instr <| (keepsForm_readG b).bind fun _ => keepsForm_get.bind fun _ => (keepsForm_guardA _ _ _ _).bind fun _ =>
    (keepsForm_guardA _ _ _ _).bind fun _ => (keepsForm_modSlot _).bind fun _ => (keepsForm_writeResult a _).next
theorem keepsStep_execUnframe : KeepsStep (execUnframe a) :=
  keepsStep_instr <| keepsForm_get.bind fun _ => (keepsForm_guardA _ _ _ _).bind fun _ => (keepsForm_modSlot _).bind fun _ =>
    (keepsForm_writeResult a _).next
theorem keepsForm_loadCaps {d home : Coord} {env : List Byte} {w m : Nat} : KeepsForm (loadCaps d home env w m) := by
  induction m generalizing w with
  | zero => exact keepsForm_pure _
  | succ m ih => exact (keepsForm_writeReg _ _).bind fun _ => ih
theorem keepsStep_execApply : KeepsStep (execApply k) :=
  keepsStep_instr <| (keepsForm_readK k).bind fun _ => keepsForm_handleCheck.bind fun _ => keepsForm_closureOp.bind fun r => by
    cases r with
    | refused w x => exact keepsForm_trapW w x
    | value _ => exact keepsForm_pure _
    | env e =>
      exact keepsForm_get.bind fun _ => keepsForm_needPad.bind fun _ => keepsForm_markDead.bind fun _ =>
        (keepsForm_writeReg _ _).bind fun _ => (keepsForm_writeReg _ _).bind fun _ => keepsForm_loadCaps.next

end

section
variable {a b c : GReg}

/-! ### Issue of bank commands and vector atomics -/

theorem keepsForm_trapLowest {x sub : Nat} {l : List (Bool × Nat)} : KeepsForm (trapLowest x sub l) := by
  unfold trapLowest
  split
  · exact keepsForm_trapA _ _ _
  · exact keepsForm_pure _
theorem keepsForm_forkReady : KeepsForm forkReady := keepsForm_get.bind fun _ => keepsForm_stallIf _
theorem keepsForm_bankQueue {w : BankWork} {x y : List (Nat × Nat)} : KeepsForm (bankQueue w x y) :=
  keepsForm_get.bind fun _ => keepsForm_forkReady.bind fun _ => (keepsForm_stallIf _).bind fun _ =>
    (keepsForm_modify fun _ h => canonical_scoreAdd h _ _).bind fun _ => (keepsForm_modCore fun _ => by rfl).bind fun _ =>
    (keepsForm_modThread _).bind fun _ => keepsForm_modify fun _ h => canonical_nextId h _
theorem keepsForm_bankIssue {op : BankOp} {x d : Word} {src : BankSrc} {res : Option Word} : KeepsForm (bankIssue op x d src res) := by
  refine keepsForm_get.bind fun _ => (keepsForm_guardA _ _ _ _).bind fun _ => (keepsForm_guardA _ _ _ _).bind fun _ =>
    keepsForm_trapLowest.bind fun _ => keepsForm_trapLowest.bind fun _ => (keepsForm_guardA _ _ _ _).bind fun _ =>
    KeepsForm.bind ?_ fun _ => keepsForm_trapLowest.bind fun _ => (keepsForm_stallIf _).bind fun _ => keepsForm_bankQueue.next
  split
  · exact keepsForm_trapW _ _
  · exact keepsForm_pure _
theorem keepsForm_bkScalar {op : BankOp} : KeepsForm (bkScalar op a b c) :=
  (keepsForm_readG b).bind fun _ => (keepsForm_readG c).bind fun _ => (keepsForm_readG a).bind fun _ =>
    keepsForm_ite keepsForm_bankIssue keepsForm_bankIssue
theorem keepsForm_bkVector {op : BankOp} {v : VReg} : KeepsForm (bkVector op a b v) :=
  (keepsForm_guardD _ _ _).bind fun _ => (keepsForm_readG b).bind fun _ => (keepsForm_readG a).bind fun _ =>
    keepsForm_getSlot.bind fun _ => keepsForm_bankIssue
theorem keepsForm_bkRange {op : BankOp} : KeepsForm (bkRange op a b c) :=
  (keepsForm_readG b).bind fun _ => (keepsForm_readG c).bind fun _ => (keepsForm_readG a).bind fun _ => keepsForm_bankIssue
theorem keepsStep_execBkCvt : KeepsStep (execBkCvt a b) :=
  keepsStep_instr <| (keepsForm_readG b).bind fun _ => (keepsForm_readG a).bind fun _ => keepsForm_bankIssue
theorem keepsForm_laneChecks {n : Nat} {l : List Word} : KeepsForm (laneChecks n l) := by
  induction l with
  | nil => exact keepsForm_pure _
  | cons x r ih => exact (keepsForm_guardA _ _ _ _).bind fun _ => (keepsForm_guardA _ _ _ _).bind fun _ => ih
theorem keepsForm_vamo {op : AmoOp} {x y : VReg} {vm : MReg} : KeepsForm (vamo op x b y vm) := by
  refine keepsForm_getVt.bind fun _ => (keepsForm_guardD _ _ _).bind fun _ => keepsForm_groupCheck.bind fun _ =>
    (keepsForm_readG b).bind fun _ => keepsForm_get.bind fun _ => keepsForm_laneChecks.bind fun _ => ?_
  dsimp only
  split
  · exact keepsForm_pure _
  · refine KeepsForm.bind ?_ fun _ => keepsForm_trapLowest.bind fun _ => keepsForm_bankQueue.next
    split
    · exact keepsForm_trapW _ _
    · exact keepsForm_pure _
end

/-! ### Bank work -/

theorem canonical_ite {p : Prop} [Decidable p] {s t : State} (hs : Canonical s) (ht : Canonical t) : Canonical (if p then s else t) := by
  split
  · exact hs
  · exact ht
theorem canonical_readAts {s : State} (h : Canonical s) (c : Coord) (n : Nat) (l : List Nat) :
    Canonical (l.foldl (fun s b => readAt s c b n) s) := canonical_foldl (fun _ b hs => canonical_readAt hs c b n) l h
theorem canonical_commandLine {s : State} (h : Canonical s) (c : Coord) (it : BankItem) (op : BankOp) (ty : BitVec 2) (scal : BitVec 32)
    (src : BankSrc) (base lines result : Nat) (todo : List Nat) (reads : List (Nat × BitVec 512)) (n : Nat) :
    Canonical (commandLine s c it op ty scal src base lines result todo reads n).1 := by
  unfold commandLine
  extract_lets k a y bad todo s1
  have h1 : Canonical s1 := canonical_ite h (canonical_readAts (canonical_readAt h ..) ..)
  repeat' split
  · exact h1
  · exact h1
  · exact canonical_writeNat h1 ..
theorem canonical_vamoLane {s : State} (h : Canonical s) (c : Coord) (it : BankItem) (op : AmoOp) (fp : Bool) (n : Nat)
    (lanes : List (Nat × Word)) (lane : Nat × Word) : Canonical (vamoLane s c it op fp n lanes lane).1 := by
  unfold vamoLane
  extract_lets k onLine w s1
  have h1 : Canonical s1 := canonical_readAt h ..
  split
  · exact h1
  · exact canonical_writeNat h1 ..
theorem canonical_bankBeat {s : State} (h : Canonical s) (c : Coord) (j : Nat) (it : BankItem) : Canonical (bankBeat s c j it).1 := by
  unfold bankBeat
  repeat' split
  · exact canonical_commandLine h ..
  · exact h
  · exact canonical_vamoLane h ..
  · exact h
theorem keepsStep_execBankLineUpdate {c : Coord} {j : Fin 16} : KeepsStep (execBankLineUpdate c j) :=
  keepsStep_event fun s h => by
    split
    · exact h
    · exact canonical_ite h (canonical_mapCore_mem (canonical_bankBeat h ..) _ fun _ => rfl)
theorem canonical_bankRetire {s : State} (h : Canonical s) (c : Coord) (it : BankItem) (fl : Flags) : Canonical (bankRetire s c it fl) :=
  canonical_mapCore_mem h _ fun _ => by simp
theorem canonical_reduceWrite {s : State} (h : Canonical s) (c : Coord) (it : BankItem) (op : BankOp) (r : List Byte) (x : Nat) :
    Canonical (reduceWrite s c it op r x) := canonical_ite (canonical_writeBytes h ..) (canonical_writeNat h ..)
theorem keepsStep_execBankCommandRetire {c : Coord} : KeepsStep (execBankCommandRetire c) :=
  keepsStep_event fun s h => by
    split
    · exact h
    · split
      · exact canonical_ite (canonical_bankRetire (canonical_reduceWrite h ..) ..) (canonical_bankRetire h ..)
      · exact h
theorem keepsStep_execVamoRetire {c : Coord} : KeepsStep (execVamoRetire c) :=
  keepsStep_event fun s h => by
    split
    · exact h
    · exact canonical_bankRetire h ..
theorem keepsStep_execPatrolScrub {c : Coord} {x : Nat} : KeepsStep (execPatrolScrub c x) :=
  keepsStep_event fun s h => by
    have h1 : Canonical (addHousekeeping (readAt s c (x / 8 * 8) 8)) := canonical_readAt h c _ _
    exact canonical_ite h (canonical_ite (canonical_logFault h1 ..) h1)

section
variable {a b c : GReg} {x y z : Word} {n : Nat} {s : State}

/-! ### Issue of matrix operations -/

theorem keepsForm_needAcc : KeepsForm needAcc := keepsForm_getCore.bind fun _ => keepsForm_stallIf _
theorem keepsForm_operandMapped : KeepsForm (operandMapped s x) := keepsForm_guardA _ _ _ _
theorem keepsForm_operandWhole : KeepsForm (operandWhole s x n) := keepsForm_guardA _ _ _ _
theorem keepsForm_operandPages : KeepsForm (operandPages s x n) := by
  unfold operandPages
  split
  · exact keepsForm_pure _
  · split
    · split
      · exact keepsForm_trapW _ _
      · exact keepsForm_pure _
    · exact (keepsForm_remote _).bind fun _ => (keepsForm_ansWord _).next
/-- The checks of two operands (R247). -/
theorem keepsForm_operandsThen {x y : Word} {m n : Nat} {rest : M Next} (hr : KeepsForm rest) :
    KeepsForm (do operandMapped s x; operandMapped s y; operandWhole s x m; operandWhole s y n; operandPages s x m
                  operandPages s y n; rest) :=
  keepsForm_operandMapped.bind fun _ => keepsForm_operandMapped.bind fun _ => keepsForm_operandWhole.bind fun _ =>
    keepsForm_operandWhole.bind fun _ => keepsForm_operandPages.bind fun _ => keepsForm_operandPages.bind fun _ => hr
theorem keepsForm_engineQueue {op : MatOp} : KeepsForm (engineQueue op) :=
  keepsForm_get.bind fun _ => keepsForm_forkReady.bind fun _ => (keepsForm_stallIf _).bind fun _ =>
    (keepsForm_modCore fun _ => by rfl).bind fun _ => (keepsForm_modThread _).bind fun _ => keepsForm_modify fun _ h => canonical_nextId h _
theorem keepsForm_mma {f g : Fmt} {mc : Bool} : KeepsForm (mma f g mc a b c) :=
  keepsForm_needAcc.bind fun _ => (keepsForm_readG b).bind fun _ => (keepsForm_readG c).bind fun _ => (keepsForm_readG a).bind fun _ =>
    keepsForm_get.bind fun _ => (keepsForm_guardA _ _ _ _).bind fun _ => (keepsForm_guardA _ _ _ _).bind fun _ =>
    (keepsForm_guardA _ _ _ _).bind fun _ => (keepsForm_guardA _ _ _ _).bind fun _ =>
    keepsForm_operandsThen <| (keepsForm_stallIf _).bind fun _ => keepsForm_engineQueue.next
theorem keepsStep_execMmaa : KeepsStep execMmaa := keepsStep_instr <| keepsForm_needAcc.bind fun _ => keepsForm_engineQueue.next
theorem keepsStep_execAccz : KeepsStep execAccz := keepsStep_instr <| keepsForm_needAcc.bind fun _ => keepsForm_engineQueue.next
theorem keepsStep_execScacc : KeepsStep (execScacc b c) :=
  keepsStep_instr <| keepsForm_needAcc.bind fun _ => (keepsForm_readG b).bind fun _ => (keepsForm_readG c).bind fun _ =>
    keepsForm_get.bind fun _ => (keepsForm_guardA _ _ _ _).bind fun _ => (keepsForm_guardA _ _ _ _).bind fun _ =>
    keepsForm_operandsThen <| (keepsForm_stallIf _).bind fun _ => keepsForm_engineQueue.next
theorem keepsStep_execAccswap : KeepsStep execAccswap :=
  keepsStep_instr <| keepsForm_needAcc.bind fun _ => keepsForm_getCore.bind fun _ => keepsForm_getThread.bind fun _ =>
    keepsForm_ite (keepsForm_remote _).next <| (keepsForm_stallIf _).bind fun _ => (keepsForm_remote _).next
theorem keepsStep_execAcfg : KeepsStep (execAcfg b) :=
  keepsStep_instr <| keepsForm_needAcc.bind fun _ => (keepsForm_readG b).bind fun _ => (keepsForm_guardA _ _ _ _).bind fun _ =>
    (keepsForm_modCore fun _ => by rfl).next

/-! ### The visible bank -/

theorem keepsForm_accAccess {row : Bool} {v : VReg} {vm : MReg} : KeepsForm (accAccess row v b c vm) := by
  refine keepsForm_needAcc.bind fun _ => keepsForm_getVt.bind fun _ => (keepsForm_guardD _ _ _).bind fun _ => keepsForm_groupCheck.bind fun _ =>
    keepsForm_ite (keepsForm_pure _) <| keepsForm_getCore.bind fun _ => (keepsForm_guardA _ _ _ _).bind fun _ =>
    (keepsForm_readG b).bind fun _ => (keepsForm_readG c).bind fun _ => keepsForm_getSlot.bind fun _ => KeepsForm.next ?_
  split
  · exact keepsForm_trapA _ _ _
  · exact keepsForm_pure _
theorem keepsForm_accRead {row : Bool} {v : VReg} {vm : MReg} : KeepsForm (accRead row v b c vm) := by
  refine keepsForm_accAccess.bind fun r => ?_
  split
  · exact keepsForm_pure _
  · exact keepsForm_getCore.bind fun _ => keepsForm_vWrite.next
theorem keepsForm_accWrite {row : Bool} {v : VReg} {vm : MReg} : KeepsForm (accWrite row v b c vm) := by
  refine keepsForm_accAccess.bind fun r => ?_
  split
  · exact keepsForm_pure _
  · exact keepsForm_vGet.bind fun _ => keepsForm_getSlot.bind fun _ => (keepsForm_modCore fun _ => by rfl).next
theorem canonical_accstRows {f : Lit3} {v : List (Nat × BitVec 32)} {cols base stride : Nat} {w : Option (Coord × Nat)} {d : Coord}
    (l : List Nat) (h : Canonical s) : Canonical (accstRows s d f v cols base stride w l) := by
  induction l generalizing s with
  | nil => exact h
  | cons r rs ih => exact ih (canonical_writeBytes h ..)
theorem unpoison_mem (k : Core) (rs : List (Nat × Nat)) : (unpoison k rs).mem = k.mem := rfl
theorem keepsStep_execAccst {f : Lit3} : KeepsStep (execAccst a b f) :=
  keepsStep_instr <| by
    refine (keepsForm_guardD _ _ _).bind fun _ => keepsForm_needAcc.bind fun _ => (keepsForm_readG b).bind fun _ =>
      (keepsForm_readG a).bind fun _ => keepsForm_get.bind fun _ => (keepsForm_guardA _ _ _ _).bind fun _ =>
      (keepsForm_guardA _ _ _ _).bind fun _ => (keepsForm_guardA _ _ _ _).bind fun _ => (keepsForm_guardA _ _ _ _).bind fun _ =>
      keepsForm_trapLowest.bind fun _ => KeepsForm.bind ?_ fun _ => (keepsForm_stallIf _).bind fun _ =>
      (keepsForm_modify fun _ h => canonical_accstRows _ h).bind fun _ => (keepsForm_modCore fun k => ?_).bind fun _ =>
      (keepsForm_modThread _).next
    · split
      · exact keepsForm_trapW _ _
      · exact keepsForm_pure _
    · split
      · rfl
      · exact unpoison_mem k _

/-! ### The matrix engine -/

@[simp] theorem answerPend_mem (k : Core) (u : UnitId) (id : Nat) (r : Ans) : (answerPend k u id r).mem = k.mem := mapThread_mem ..
theorem matEffect_mem (k : Core) (it : MatItem) : (matEffect k it).1.mem = k.mem := by
  unfold matEffect
  split <;> rfl
theorem matRetire_mem (k : Core) (it : MatItem) : (matRetire k it).mem = k.mem := by
  unfold matRetire
  dsimp only
  split <;> simp [matEffect_mem]
theorem canonical_readLines (h : Canonical s) (d : Coord) (l : List Nat) : Canonical (readLines s d l) :=
  canonical_foldl (fun _ _ hs => canonical_readAt hs _ _ _) l h
theorem keepsStep_execMatrixOpRetire {d : Coord} : KeepsStep (execMatrixOpRetire d) :=
  keepsStep_event fun s h => by
    split
    · exact h
    · exact canonical_ite (canonical_mapCore_mem (canonical_readLines h ..) _ fun k => matRetire_mem k _) h
theorem canonical_engineRead (h : Canonical s) (d : Coord) (i l : Nat) : Canonical (engineRead s d i l) :=
  canonical_mapCore_mem (canonical_readLines h ..) _ fun _ => rfl
theorem canonical_mcReader (h : Canonical s) (d e : Coord) (l : Nat) : Canonical (mcReader s d e l) :=
  canonical_mapCore_mem h _ fun _ => rfl
theorem keepsStep_execMcHoldExpiry {d : Coord} {l : Nat} : KeepsStep (execMcHoldExpiry d l) :=
  keepsStep_event fun _ h => canonical_foldl (fun _ _ ht => canonical_mcReader ht ..) _ (canonical_readAt h ..)
end

section
variable {s : State}

/-- A state paired with a result keeps the form where the pair's does. -/
theorem canonical_of_pair {α : Type} {r : State × α} {t : State} {x : α} (h : Canonical r.1) (e : r = (t, x)) : Canonical t := by
  subst e; exact h

/-! ### Translation and global memory -/

theorem canonical_translate (h : Canonical s) (pid : BitVec 20) (a : Nat) (k : GAccess) : Canonical (translate s pid a k).1 := by
  unfold translate
  split
  · exact h
  · split <;> exact h
theorem canonical_xlatFor (h : Canonical s) (pid : BitVec 20) (a : Nat) (k : GAccess) : Canonical (xlatFor s pid a k).1 := by
  unfold xlatFor
  split
  · exact h
  · exact canonical_translate h ..
theorem canonical_gPoke (h : Canonical s) (p : Phys) (bs : List Byte) : Canonical (gPoke s p bs) := by
  obtain ⟨hc, hg, hh, hl⟩ := h
  exact canonical_ite ⟨hc, hg, wf_pokes hh _ _, hl⟩ ⟨hc, wf_pokes hg _ _, hh, hl⟩
theorem canonical_gWrite (h : Canonical s) (pid : BitVec 20) (a : Nat) (bs : List Byte) : Canonical (gWrite s pid a bs).1 := by
  have hx := canonical_xlatFor h pid a .write
  unfold gWrite
  split
  next e => exact canonical_of_pair hx e
  next e =>
    split
    · exact canonical_of_pair hx e
    · exact canonical_gPoke (canonical_of_pair hx e) _ _
theorem canonical_keepGrants (h : Canonical s) (l : List Grant) : Canonical (keepGrants s l) := h
theorem canonical_freeGrants (h : Canonical s) (p : Grant → Bool) : Canonical (freeGrants s p) := h
theorem canonical_prefLine (h : Canonical s) (pid : BitVec 20) (l : Nat) : Canonical (prefLine s pid l) := by
  have ht := canonical_translate h pid l .read
  unfold prefLine
  split
  · exact h
  · split
    next e =>
      have h1 := canonical_of_pair ht e
      exact canonical_ite h1 h1
    next e => exact canonical_of_pair ht e
theorem canonical_flushLines (pid : BitVec 20) (l : List Nat) (h : Canonical s) : Canonical (flushLines s pid l).1 := by
  induction l generalizing s with
  | nil => exact h
  | cons a r ih =>
    have ht := canonical_translate h pid a .write
    unfold flushLines
    split
    · exact h
    · split
      next e => exact canonical_of_pair ht e
      next e =>
        have h1 := canonical_of_pair ht e
        exact ih (canonical_ite h1 h1)

/-! ### Requests to global memory and their replies -/

theorem canonical_gReply (h : Canonical s) (i : Nat) (y : GReply) : Canonical (gReply s i y) := h
theorem canonical_gHold (h : Canonical s) (i : Nat) : Canonical (gHold s i) := h
theorem canonical_gDrop (h : Canonical s) (i : Nat) : Canonical (gDrop s i) := h
theorem canonical_gGrant (h : Canonical s) (r : GReq) (k : GAccess) : Canonical (gGrant s r k).1 := by
  have ht := canonical_translate h r.pid r.addr.toNat k
  unfold gGrant
  split
  · exact h
  · split
    next e => exact canonical_of_pair ht e
    next e =>
      have h1 := canonical_of_pair ht e
      exact h1
theorem canonical_gPerform (h : Canonical s) (r : GReq) : Canonical (gPerform s r) := by
  have hg := canonical_gGrant h r
  unfold gPerform
  dsimp only
  split
  · split
    next e => exact canonical_gReply (canonical_of_pair (hg _) e) _ _
    next e =>
      have h1 := canonical_of_pair (hg _) e
      split <;> exact h1
  · split
    next e => exact canonical_gReply (canonical_of_pair (hg _) e) _ _
    next e =>
      have h1 := canonical_of_pair (hg _) e
      exact canonical_ite (canonical_gReply (canonical_gPoke h1 _ _) _ _) (canonical_gHold h1 _)
  · split
    next e => exact canonical_gReply (canonical_of_pair (hg _) e) _ _
    next e =>
      have h1 := canonical_of_pair (hg _) e
      split
      · exact h1
      · exact h1
      · exact canonical_gReply (canonical_gPoke h1 _ _) _ _
  · exact canonical_gDrop (canonical_foldl (fun _ l hs => canonical_prefLine hs _ l) _ h) _
  · split
    next e => exact canonical_gReply (canonical_of_pair (canonical_flushLines _ _ h) e) _ _
    next e => exact canonical_gReply (canonical_of_pair (canonical_flushLines _ _ h) e) _ _
theorem keepsStep_execGlobalAccess {i : Nat} : KeepsStep (execGlobalAccess i) :=
  keepsStep_event fun s h => by
    split
    · exact canonical_ite h (canonical_gPerform h _)
    · exact h
theorem canonical_ackPosted (h : Canonical s) (o : Origin) (w : Option Why) (a : Option Word) : Canonical (ackPosted s o w a) := by
  unfold ackPosted
  split
  · exact h
  · exact canonical_mapCore_mem h _ fun k => by dsimp only; split <;> simp
theorem keepsStep_execGlobalWriteAck {i : Nat} : KeepsStep (execGlobalWriteAck i) :=
  keepsStep_event fun s h => by
    have hd : Canonical (gDrop s i) := h
    split
    · split
      · exact canonical_ackPosted hd ..
      · exact canonical_ackPosted hd ..
      · exact h
    · exact h
@[simp] theorem deliver_mem (k : Core) (i : Fin 4) (x : GLoad) (v : Word) : (deliver k i x v).mem = k.mem := by
  unfold deliver
  dsimp only
  split <;> simp
theorem keepsStep_execGlobalLoadData {c : Coord} {i : Fin 4} : KeepsStep (execGlobalLoadData c i) :=
  keepsStep_event fun s h => by
    split
    · exact h
    · split
      · exact canonical_mapCore_mem (canonical_gDrop h _) _ fun k => deliver_mem k _ _ _
      · exact h
theorem canonical_reportLoad (h : Canonical s) (c : Coord) (i : Fin 4) : Canonical (reportLoad s c i) := by
  unfold reportLoad
  dsimp only
  split
  · split
    · exact h
    · exact canonical_raise (canonical_mapCore_mem (canonical_gDrop h _) _ fun _ => mapThread_mem ..) _ _
  · exact h
theorem keepsStep_execDeferredLoadFaultReport {c : Coord} {i : Fin 4} : KeepsStep (execDeferredLoadFaultReport c i) :=
  keepsStep_event fun _ h => canonical_reportLoad h c i
theorem canonical_logLostAtomic (h : Canonical s) (r : GReq) (w : Why) : Canonical (logLostAtomic s r w) := by
  unfold logLostAtomic
  split <;> exact h
theorem canonical_loseGlobal (h : Canonical s) (r : GReq) (ap : Bool) : Canonical (loseGlobal s r ap) := by
  unfold loseGlobal
  dsimp only
  split
  · split
    · exact h
    · exact canonical_logLostAtomic h r _
    · exact h
  · exact canonical_ite h h
theorem keepsStep_execHostLinkHoldTimeout {i : Nat} : KeepsStep (execHostLinkHoldTimeout i) :=
  keepsStep_event fun s h => by
    split
    · exact canonical_ite h h
    · exact h
theorem keepsStep_execShootDown {v : Word} : KeepsStep (execShootDown v) := keepsStep_hostEvent fun _ h => canonical_ite h h
theorem keepsStep_execStationShootDownAck {i : Fin 32} : KeepsStep (execStationShootDownAck i) :=
  keepsStep_event fun s h => by
    split
    · exact h
    · exact canonical_ite h h
end

section
variable {a b c : GReg} {ch : Lit3}

/-! ### Issue of copies -/

theorem keepsForm_takeRef {h : Handle} {n : Fin 2} : KeepsForm (takeRef h n) :=
  keepsForm_ite (keepsForm_pure _) <| keepsForm_handleCheck.bind fun _ => keepsForm_closureOp.bind fun _ => (keepsForm_ansWord _).next
theorem keepsForm_readRecord {x : Word} : KeepsForm (readRecord x) := by
  refine keepsForm_get.bind fun _ => ?_
  split
  · refine (keepsForm_guardA _ _ _ _).bind fun _ => (keepsForm_checkPages _ _ _ _).bind fun _ => (keepsForm_guardA _ _ _ _).bind fun _ =>
      (keepsForm_stallIf _).bind fun _ => KeepsForm.bind ?_ fun _ => keepsForm_readAt.next
    split
    · exact keepsForm_trapA _ _ _
    · exact keepsForm_pure _
  · exact keepsForm_trapA _ _ _
theorem keepsForm_copyChecks {g : Bool} {r : BitVec 512} {x : Word} {n : Nat} : KeepsForm (copyChecks g r x n) := by
  refine keepsForm_get.bind fun _ => KeepsForm.bind ?_ fun _ => (keepsForm_stallIf _).bind fun _ => KeepsForm.bind ?_ fun _ =>
    keepsForm_trapLowest.bind fun _ => ?_
  · split
    · exact keepsForm_trapA _ _ _
    · exact keepsForm_pure _
  · split
    · exact keepsForm_trapW _ _
    · exact keepsForm_pure _
  · split
    · exact keepsForm_trapW _ _
    · exact keepsForm_pure _
theorem canonical_addDone {s : State} (h : Canonical s) (k : Handle) : Canonical (addDone s k) :=
  canonical_ite h (canonical_closureServe h ..)
theorem keepsForm_copyIssue {g : Bool} : KeepsForm (copyIssue g ch b c) := by
  have enter : ∀ (i : Fin 4) (id : BitVec 32) (t : Transfer), KeepsForm (do
      modCore fun k => mapChan k i fun x => { x with counter := id, queue := x.queue ++ [t] }
      modThread fun t => { t with l1 := t.l0, l0 := id.zeroExtend 64 }
      return Next.seq) := fun i id t => (keepsForm_modCore fun _ => mapChan_mem ..).bind fun _ => (keepsForm_modThread _).next
  have score : ∀ e : Score, KeepsForm (modify fun s => scoreAdd s s.cur.core e : M PUnit) := fun e =>
    keepsForm_modify fun _ h => canonical_scoreAdd h _ e
  have done : ∀ k : Handle, KeepsForm (modify fun s => addDone s k : M PUnit) := fun k =>
    keepsForm_modify fun _ h => canonical_addDone h k
  refine (keepsForm_guardD _ _ _).bind fun _ => keepsForm_stallIfSpec.bind fun _ => (keepsForm_readG b).bind fun _ =>
    (keepsForm_readG c).bind fun _ => keepsForm_getThread.bind fun t => ?_
  extract_lets i rest
  have hr : ∀ r, KeepsForm (rest r) := fun r => keepsForm_get.bind fun s =>
    keepsForm_ite ((keepsForm_stop _).bind fun _ => (score _).bind fun _ => keepsForm_ite ((done _).bind fun _ => enter _ _ _) (enter _ _ _))
      ((score _).bind fun _ => keepsForm_ite ((done _).bind fun _ => enter _ _ _) (enter _ _ _))
  split
  · exact (keepsForm_pure _).bind hr
  · exact keepsForm_readRecord.bind fun _ => keepsForm_copyChecks.bind fun _ => (keepsForm_pure _).bind hr
theorem keepsStep_execCpwait : KeepsStep (execCpwait ch b) :=
  keepsStep_instr <| (keepsForm_guardD _ _ _).bind fun _ => (keepsForm_readG b).bind fun _ => keepsForm_get.bind fun _ =>
    (keepsForm_guardA _ _ _ _).bind fun _ => (keepsForm_stallIf _).bind fun _ => by
    split
    · exact keepsForm_stop _
    · exact keepsForm_pure _
theorem keepsStep_execCpstat : KeepsStep (execCpstat a ch) :=
  keepsStep_instr <| (keepsForm_guardD _ _ _).bind fun _ => keepsForm_get.bind fun _ => (keepsForm_writeResult a _).next
end

/-! ### Pieces of a transfer -/

/-- The state in which an engine access ends. -/
def Piece.state {α : Type} : Piece α → State
  | .ok s _ => s
  | .wait s _ => s
  | .fail s _ _ => s
theorem canonical_of_piece {α : Type} {p q : Piece α} (h : Canonical p.state) (e : p = q) : Canonical q.state := e ▸ h
theorem Piece.canonical_bind {α β : Type} {p : Piece α} {f : State → α → Piece β} (hp : Canonical p.state)
    (hf : ∀ s v, Canonical s → Canonical (f s v).state) : Canonical (p.bind f).state := by
  cases p with
  | ok s v => exact hf s v hp
  | wait s x => exact hp
  | fail s w x => exact hp
theorem Piece.canonical_ite {α : Type} {x : Prop} [Decidable x] {p q : Piece α} (hp : Canonical p.state) (hq : Canonical q.state) :
    Canonical (if x then p else q).state := by
  split
  · exact hp
  · exact hq

section
variable {s : State} (h : Canonical s) (c : Coord) (t : Transfer)
include h

theorem canonical_sourceLine (l : Nat) : Canonical (sourceLine s c t l).1 := by
  unfold sourceLine
  split
  · exact h
  · exact canonical_readLines h _ _
theorem canonical_nearRead (x n : Nat) : Canonical (nearRead s c t x n).state := by
  unfold nearRead
  split
  · exact h
  · exact Piece.canonical_ite (canonical_sourceLine h ..) (canonical_sourceLine h ..)
theorem canonical_nearWrite (x n v : Nat) (w : Option (Coord × Nat)) : Canonical (nearWrite s c x n v w).state := by
  unfold nearWrite
  split
  · exact h
  · exact canonical_writeNat h ..
theorem canonical_copyGrant (x : Word) (k : GAccess) : Canonical (copyGrant s c t x k).1 := by
  unfold copyGrant
  split
  · split
    · exact h
    · exact canonical_translate h ..
  · exact canonical_translate h ..
theorem canonical_tensorRead (x : Word) (n : Nat) : Canonical (tensorRead s c t x n).state := by
  have hg := canonical_copyGrant h c t x .read
  refine Piece.canonical_ite (canonical_nearRead h ..) ?_
  split
  next e => exact canonical_of_pair hg e
  next e =>
    have h1 := canonical_of_pair hg e
    split <;> exact h1
theorem canonical_tensorWrite (x : Word) (n v : Nat) : Canonical (tensorWrite s c t x n v).state := by
  have hg := canonical_copyGrant h c t x .write
  refine Piece.canonical_ite (canonical_nearWrite h ..) ?_
  split
  next e => exact canonical_of_pair hg e
  next e =>
    have h1 := canonical_of_pair hg e
    exact Piece.canonical_ite (canonical_gPoke h1 ..) h1
theorem canonical_barDeliver (x n : Nat) (w : Option (Coord × Nat)) : Canonical (barDeliver s c x n w) :=
  canonical_writeNat (canonical_readAt h ..) ..
theorem canonical_subtractBar (n : Nat) : Canonical (subtractBar s c t n) := canonical_ite (canonical_barDeliver h ..) h
theorem canonical_plainUnit (u : Nat) : Canonical (plainUnit s c t u).state :=
  Piece.canonical_ite
    (Piece.canonical_bind (canonical_tensorRead h ..) fun _ _ h1 => Piece.canonical_bind (canonical_nearWrite h1 ..) fun _ _ h2 =>
      canonical_subtractBar h2 ..)
    (Piece.canonical_bind (canonical_nearRead h ..) fun _ _ h1 => Piece.canonical_bind (canonical_tensorWrite h1 ..) fun _ _ h2 =>
      canonical_subtractBar h2 ..)
theorem canonical_expValue (u i : Nat) (x : Bool) : Canonical (expValue s c t u i x).state :=
  Piece.canonical_ite (Piece.canonical_bind (canonical_tensorRead h ..) fun _ _ h1 => h1) h
theorem canonical_expUnit (u : Nat) : Canonical (expUnit s c t u).state :=
  Piece.canonical_bind (canonical_nearRead h ..) fun _ _ h1 => Piece.canonical_bind (canonical_expValue h1 ..) fun _ _ h2 =>
    Piece.canonical_bind (canonical_expValue h2 ..) fun _ _ h3 => Piece.canonical_bind (canonical_nearWrite h3 ..) fun _ _ h4 =>
    canonical_subtractBar h4 ..
theorem canonical_readPacked (u j n : Nat) : Canonical (readPacked s c t u j n).state := by
  induction n generalizing s t j with
  | zero => exact h
  | succ n ih => exact Piece.canonical_bind (canonical_nearRead h ..) fun _ _ h1 => Piece.canonical_bind (ih h1 ..) fun _ _ h2 => h2
theorem canonical_putNibble (u n : Nat) : Canonical (putNibble s c t u n).state :=
  Piece.canonical_bind (canonical_nearRead h ..) fun _ _ h1 => Piece.canonical_bind (canonical_nearWrite h1 ..) fun _ _ h2 => h2
theorem canonical_cmpUnit (u : Nat) : Canonical (cmpUnit s c t u).state :=
  Piece.canonical_bind (canonical_readPacked h ..) fun _ _ h1 => Piece.canonical_ite (canonical_putNibble h1 ..) <|
    Piece.canonical_bind (canonical_tensorWrite h1 ..) fun _ _ h2 => canonical_subtractBar h2 ..
theorem canonical_fabricUnit (u : Nat) : Canonical (fabricUnit s c t u).state := by
  have hf : Canonical { s with freeCtr := s.freeCtr + 1 } := h
  have hb : ∀ s : State, Canonical s → ∀ o n, Canonical (subtractBar { s with hostOut := o } c t n) := fun s hs o n =>
    canonical_subtractBar (s := { s with hostOut := o }) hs c t n
  unfold fabricUnit
  dsimp only
  refine Piece.canonical_ite h <| Piece.canonical_ite h <| Piece.canonical_ite ?_ ?_
  · exact Piece.canonical_bind (canonical_nearWrite hf ..) fun _ _ h1 => canonical_subtractBar h1 ..
  · exact Piece.canonical_bind (canonical_nearRead h ..) fun _ _ h1 => hb _ h1 _ _
theorem canonical_withRow : Canonical (withRow s c t).state :=
  Piece.canonical_ite h <| Piece.canonical_bind (canonical_nearRead h ..) fun _ _ h1 => h1
theorem canonical_doUnit : Canonical (doUnit s c t).state :=
  Piece.canonical_ite (Piece.canonical_ite h h) <| Piece.canonical_ite (canonical_fabricUnit h ..) <| Piece.canonical_ite h <|
    Piece.canonical_ite (canonical_expUnit h ..) <| Piece.canonical_ite (canonical_cmpUnit h ..) (canonical_plainUnit h ..)
theorem canonical_setHead (i : Fin 4) : Canonical (setHead s c i t) := canonical_mapCore_mem h _ fun _ => mapChan_mem ..
theorem canonical_pieceRun (i : Fin 4) (l : Option Nat) (n : Nat) : Canonical (pieceRun c i l n s t) := by
  induction n generalizing s t l with
  | zero => exact canonical_setHead h ..
  | succ n ih =>
    have hw := canonical_withRow h c t
    unfold pieceRun
    refine canonical_ite (canonical_setHead h ..) ?_
    split
    next e => exact canonical_setHead (canonical_of_piece hw e) ..
    next e => exact canonical_setHead (canonical_of_piece hw e) ..
    next s1 t1 e =>
      have h1 : Canonical s1 := canonical_of_piece hw e
      have hd := canonical_doUnit h1 c t1
      refine canonical_ite (canonical_setHead h1 ..) ?_
      split
      next e => exact canonical_setHead (canonical_of_piece hd e) ..
      next e => exact canonical_setHead (canonical_of_piece hd e) ..
      next e => exact ih (canonical_of_piece hd e) ..
end

/-! ### Completion of a transfer -/

section
variable {s : State} {c : Coord} {ch : Fin 4}

theorem keepsStep_execCopyPiece : KeepsStep (execCopyPiece c ch) :=
  keepsStep_event fun s h => by
    dsimp only
    split
    · exact h
    · exact canonical_ite h (canonical_ite (canonical_setHead h ..) (canonical_pieceRun h ..))
theorem canonical_unreported (h : Canonical s) (f : CopyFail) : Canonical (unreported s c f) :=
  canonical_failCore (canonical_logFault h ..) ..
theorem canonical_copyFinish (h : Canonical s) (t : Transfer) : Canonical (copyFinish s c ch t) := by
  unfold copyFinish
  extract_lets same s1
  have h1 : Canonical s1 := canonical_mapCore_mem h _ fun k => by dsimp only; split <;> simp
  split
  · exact h1
  · exact canonical_ite (canonical_mapCore_mem h1 _ fun _ => mapChan_mem ..) (canonical_unreported h1 _)
@[simp] theorem mbHold_mem (k : Core) (x : MbFrom) (ws : List Word) : (mbHold k x ws).mem = k.mem := by
  unfold mbHold
  split <;> rfl
theorem keepsStep_execCopyTransferComplete : KeepsStep (execCopyTransferComplete c ch) :=
  keepsStep_event fun s h => by
    dsimp only
    split
    · exact h
    · exact canonical_ite h <| canonical_ite (canonical_copyFinish h _) <| canonical_ite
        (canonical_copyFinish (canonical_mapCore h _ fun _ hk => wf_mbAppend _ hk) _) (canonical_mapCore_mem h _ fun _ => mbHold_mem ..)
theorem keepsStep_execCompletionRecordEnqueue : KeepsStep (execCompletionRecordEnqueue c ch) :=
  keepsStep_event fun s h => by
    split
    · exact h
    next r _ =>
      have ha := canonical_acceptRcd h c r
      split
      next e => exact canonical_mapCore_mem (canonical_of_pair ha e) _ fun _ => mapChan_mem ..
      next e => exact canonical_of_pair ha e
theorem canonical_copyFail (h : Canonical s) (ok : Transfer → Bool) (w : Transfer → Why) (a : Transfer → Word) :
    Canonical (copyFail s c ch ok w a) := by
  unfold copyFail
  split
  · exact h
  · exact canonical_ite (canonical_setHead h ..) h
theorem canonical_fabricFail (h : Canonical s) (x : BitVec 7) : Canonical (fabricFail s c ch x) := canonical_copyFail h ..
theorem canonical_copyHoldTimeout (h : Canonical s) : Canonical (copyHoldTimeout s c ch) := canonical_copyFail h ..
theorem canonical_peerAck (h : Canonical s) : Canonical (peerAck s c ch) := by
  unfold peerAck
  split
  · exact h
  · exact canonical_ite (canonical_setHead h ..) h
end

section
variable {a b c : GReg}

/-! ### Issue of messages -/

theorem keepsForm_destCheck {d : Coord} : KeepsForm (destCheck d) :=
  (keepsForm_guardA _ _ _ _).bind fun _ => keepsForm_get.bind fun _ => keepsForm_guardA _ _ _ _
theorem keepsForm_rangeChecks {r x : Word} {n i j : Nat} : KeepsForm (rangeChecks r x n i j) :=
  (keepsForm_guardA _ _ _ _).bind fun _ => (keepsForm_guardA _ _ _ _).bind fun _ => keepsForm_guardA _ _ _ _
theorem keepsForm_scoreRoom : KeepsForm scoreRoom := keepsForm_getCore.bind fun _ => keepsForm_stallIf _
theorem canonical_postMsg {s : State} (h : Canonical s) (r : Word) (p : Payload) (o : Origin) : Canonical (postMsg r p o s) := h
theorem canonical_takeEntry {s : State} (h : Canonical s) (e : Engine) (x n : Nat) : Canonical (takeEntry e x n s) :=
  canonical_scoreAdd h _ _
theorem keepsStep_execPcfg {p : Lit3} : KeepsStep (execPcfg p b) :=
  keepsStep_instr <| by
    refine (keepsForm_guardD _ _ _).bind fun _ => (keepsForm_readG b).bind fun v => ?_
    extract_lets d rest
    have hr : ∀ u, KeepsForm (rest u) := fun _ => keepsForm_get.bind fun _ => (keepsForm_stallIf _).bind fun _ => (keepsForm_modSlot _).next
    refine keepsForm_ite ?_ (hr ())
    refine (keepsForm_guardD _ _ _).bind fun _ => keepsForm_destCheck.bind fun _ => keepsForm_get.bind fun _ => ?_
    split
    · exact (keepsForm_trapW _ _).bind hr
    · exact hr ()
theorem keepsStep_execMsgPut : KeepsStep (execMsgPut a b c) :=
  keepsStep_instr <| by
    refine (keepsForm_readG b).bind fun x => (keepsForm_readG c).bind fun _ => (keepsForm_readG a).bind fun r =>
      (keepsForm_guardD _ _ _).bind fun _ => keepsForm_destCheck.bind fun _ => keepsForm_rangeChecks.bind fun _ =>
      (keepsForm_checkPages _ _ _ _).bind fun _ => keepsForm_getCore.bind fun _ => (keepsForm_stallIf _).bind fun _ =>
      KeepsForm.bind ?_ fun _ => keepsForm_readAt.bind fun _ => keepsForm_get.bind fun _ => keepsForm_ite (keepsForm_hold _).next
        (keepsForm_post _ _ fun o _ h => canonical_postMsg h r _ o).next
    split
    · exact keepsForm_trapA _ _ _
    · exact keepsForm_pure _
theorem keepsStep_execMsgGet : KeepsStep (execMsgGet a b c) :=
  keepsStep_instr <| by
    refine (keepsForm_readG b).bind fun x => (keepsForm_readG c).bind fun _ => (keepsForm_readG a).bind fun r =>
      (keepsForm_guardD _ _ _).bind fun _ => keepsForm_destCheck.bind fun _ => keepsForm_rangeChecks.bind fun _ =>
      (keepsForm_checkPages _ _ _ _).bind fun _ => ?_
    extract_lets rest
    have hr : ∀ u, KeepsForm (rest u) := fun _ => keepsForm_stallIfSpec.bind fun _ => keepsForm_scoreRoom.bind fun _ =>
      (keepsForm_post _ _ fun o _ h => canonical_postMsg (canonical_takeEntry h ..) r _ o).next
    exact keepsForm_ite ((keepsForm_checkPages _ _ _ _).bind hr) (hr ())
theorem keepsStep_execMsgAmo : KeepsStep (execMsgAmo a b c) :=
  keepsStep_instr <| (keepsForm_readG b).bind fun _ => (keepsForm_readG c).bind fun _ => (keepsForm_readG a).bind fun r =>
    (keepsForm_guardD _ _ _).bind fun _ => keepsForm_destCheck.bind fun _ => keepsForm_rangeChecks.bind fun _ =>
    (keepsForm_checkPages _ _ _ _).bind fun _ => keepsForm_stallIfSpec.bind fun _ => keepsForm_scoreRoom.bind fun _ =>
    (keepsForm_post _ _ fun o _ h => canonical_postMsg (canonical_takeEntry h ..) r _ o).next
theorem keepsStep_execMsgSig : KeepsStep (execMsgSig a b) :=
  keepsStep_instr <| (keepsForm_readG b).bind fun _ => (keepsForm_readG a).bind fun _ => (keepsForm_guardD _ _ _).bind fun _ =>
    keepsForm_destCheck.bind fun _ => keepsForm_get.bind fun _ => keepsForm_ite (keepsForm_hold _).next
      (keepsForm_post _ _ fun _ _ h => canonical_send h ..).next
theorem keepsStep_execWqry : KeepsStep (execWqry b c) :=
  keepsStep_instr <| by
    refine (keepsForm_readG b).bind fun x => (keepsForm_readG c).bind fun _ => keepsForm_get.bind fun _ => ?_
    extract_lets rest
    have hr : ∀ u, KeepsForm (rest u) := fun _ => keepsForm_stallIfSpec.bind fun _ => keepsForm_forkReady.bind fun _ =>
      keepsForm_takeRef.bind fun _ => keepsForm_scoreRoom.bind fun _ =>
      (keepsForm_post _ _ fun _ _ h => canonical_send (canonical_takeEntry h ..) ..).next
    exact keepsForm_ite ((keepsForm_guardA _ _ _ _).bind fun _ => (keepsForm_guardA _ _ _ _).bind fun _ =>
      (keepsForm_checkPages _ _ _ _).bind hr) (hr ())
theorem keepsStep_execWidF {n : Lit3} : KeepsStep (execWidF a b n) :=
  keepsStep_instr <| (keepsForm_guardD _ _ _).bind fun _ => (keepsForm_readG b).bind fun _ => keepsForm_get.bind fun _ =>
    (keepsForm_writeResult a _).next
end

/-! ### The start of a body -/

section
variable {s : State} (h : Canonical s)
include h

theorem canonical_startFault (c : Coord) (u : UnitId) (w : Why) (a fpc : Word) : Canonical (startFault s c u w a fpc) :=
  canonical_raise h _ _
theorem canonical_startGo (c : Coord) (u : UnitId) (t : Task) (k : Handle) (g3 : Option Word) (caps : List Word) (pc : Word) :
    Canonical (startGo s c u t k g3 caps pc) :=
  canonical_mapCore_mem h _ fun _ => by cases u <;> rfl
theorem canonical_startAt (c : Coord) (u : UnitId) (t : Task) (k : Handle) (g3 : Option Word) (caps : List Word) (pc : Word) :
    Canonical (startAt s c u t k g3 caps pc) := by
  unfold startAt
  split
  · exact canonical_startFault h ..
  · exact canonical_startGo h ..
theorem canonical_startWith (c : Coord) (u : UnitId) (t : Task) (k : Handle) (r : Ans) : Canonical (startWith s c u t k r) := by
  cases r with
  | refused w a => exact canonical_startFault h ..
  | value v => exact h
  | env e => exact canonical_startAt h ..
theorem canonical_bodyStart (c : Coord) (u : UnitId) (t : Task) : Canonical (bodyStart s c u t) := by
  unfold bodyStart
  extract_lets k s1 clear
  have h1 : Canonical s1 := canonical_mapCore_mem h _ fun _ => by cases u <;> rfl
  have hc : Canonical (clear s1) := canonical_mapCore_mem h1 _ fun _ => by cases u <;> rfl
  exact canonical_ite (canonical_startAt hc ..) <| canonical_ite (canonical_startFault hc ..) <|
    canonical_ite (canonical_startWith hc ..) (canonical_send h1 ..)

/-! ### Replies and refusals -/

theorem canonical_reply (m : Msg) (p : Payload) : Canonical (reply s m p) := h
theorem canonical_logRefused (m : Msg) (w : Why) (e a : Nat) : Canonical (logRefused s m w e a) := h
theorem canonical_freeGet (c : Coord) (e : Engine) : Canonical (mapCore s c fun k => freeScore k e) :=
  canonical_mapCore_mem h _ fun _ => freeScore_mem ..
theorem canonical_atomicResult (m : Msg) (o : Origin) (x : Nat) (v : Word) (w : Option Why) : Canonical (atomicResult s m o x v w) :=
  canonical_ackPosted (canonical_freeGet (canonical_writeNat h ..) ..) ..
theorem canonical_mbTaken (c : Coord) (x : MbFrom) : Canonical (mbTaken s c x) := by
  unfold mbTaken
  split
  · split
    · exact canonical_reply (canonical_dropMsg h _) ..
    · exact h
  · split
    · exact canonical_copyFinish h _
    · exact h
  · exact h
theorem canonical_portSend (c : Coord) (i p : Fin 4) : Canonical (portSend s c i p) := by
  unfold portSend
  split
  · exact canonical_send (canonical_mapCore_mem h _ fun _ => mapSlot_mem ..) ..
  · exact h
theorem canonical_loseEntry (o : Origin) : Canonical (loseEntry s o) := by
  unfold loseEntry
  refine canonical_mapCore_mem ?_ _ fun _ => by simp
  split
  · split
    · exact canonical_writeNat h ..
    · exact canonical_writeNat h ..
    · exact h
  · exact h
theorem canonical_loseReply (m : Msg) (o : Origin) (x : Bool) : Canonical (loseReply s m o x) := by
  refine canonical_ackPosted (canonical_dropMsg (canonical_loseEntry ?_ _) _) _ _ _
  split
  · exact canonical_logFault h ..
  · exact h
theorem canonical_enqueueHeld (c : Coord) (r : BitVec 512) : Canonical (enqueueHeld s c r) :=
  canonical_ite (canonical_enqueue h ..) (canonical_setCore h _ (wf_coreAt h c))
end

/-! ### Messages at their destination -/

section
variable {id : Nat}

theorem keepsStep_execPut : KeepsStep (execPut id) :=
  keepsStep_event fun s h => by
    split
    · split
      · have hd := canonical_dropMsg h id
        dsimp only
        split
        · exact canonical_reply (canonical_logRefused hd ..) ..
        · have hw := fun c a bs w => canonical_writeBytes hd c a bs w
          exact canonical_reply (canonical_ite (canonical_barDeliver (hw ..) ..) (hw ..)) ..
      · exact h
    · exact h
theorem keepsStep_execGetRequest : KeepsStep (execGetRequest id) :=
  keepsStep_event fun s h => by
    split
    · split
      · have hd := canonical_dropMsg h id
        dsimp only
        split
        · exact canonical_reply (canonical_logRefused hd ..) ..
        · split
          · exact canonical_reply hd ..
          · exact canonical_reply (canonical_readAt hd ..) ..
      · exact h
    · exact h
theorem keepsStep_execGetData : KeepsStep (execGetData id) :=
  keepsStep_event fun s h => by
    split
    · split
      · have hd := canonical_dropMsg h id
        refine canonical_ite hd (canonical_ackPosted (canonical_freeGet ?_ ..) ..)
        split
        · exact hd
        · have hw := fun c a bs w => canonical_writeBytes hd c a bs w
          exact canonical_ite (canonical_barDeliver (hw ..) ..) (hw ..)
      · exact h
    · exact h
theorem keepsStep_execAtomicRequest : KeepsStep (execAtomicRequest id) :=
  keepsStep_event fun s h => by
    split
    · split
      · have hd := canonical_dropMsg h id
        extract_lets x k s1 refuse
        have hr : ∀ w, Canonical (refuse w) := fun w => canonical_reply (canonical_ite hd (canonical_logRefused hd ..)) ..
        split
        · split
          · exact hr _
          · exact canonical_reply (canonical_writeNat (canonical_readAt hd ..) ..) ..
        · split
          · exact hr _
          · split
            · exact hr _
            · exact canonical_holdMsg h _
            · have ha := fun x => canonical_readAt hd x
              exact canonical_reply (canonical_ite (ha ..) (canonical_writeNat (ha ..) ..)) ..
      · exact h
    · exact h
theorem keepsStep_execAtomicReply : KeepsStep (execAtomicReply id) :=
  keepsStep_event fun s h => by
    split
    · split
      · exact canonical_ite (canonical_atomicResult (canonical_dropMsg h id) ..) (canonical_dropMsg h id)
      · exact h
    · exact h
theorem keepsStep_execSignal : KeepsStep (execSignal id) :=
  keepsStep_event fun s h => by
    split
    · split
      · have hd := canonical_dropMsg h id
        dsimp only
        split
        · exact canonical_reply (canonical_logRefused hd ..) ..
        · exact canonical_ite (canonical_reply (canonical_mapCore hd _ fun _ hk => wf_mbAppend _ hk) ..)
            (canonical_holdMsg (canonical_mapCore_mem h _ fun _ => mbHold_mem ..) _)
      · exact h
    · exact h
theorem keepsStep_execPortWord : KeepsStep (execPortWord id) :=
  keepsStep_event fun s h => by
    split
    · split
      · have hd := canonical_dropMsg h id
        dsimp only
        split
        · exact canonical_failCore (canonical_logFault hd ..) ..
        · exact canonical_ite (canonical_mapCore_mem hd _ fun _ => mapSlot_mem ..) (canonical_holdMsg h _)
      · exact h
    · exact h
theorem keepsStep_execAcknowledgment : KeepsStep (execAcknowledgment id) :=
  keepsStep_event fun s h => by
    split
    · split
      · exact canonical_ackPosted (canonical_dropMsg h id) ..
      · exact h
    · exact h
theorem keepsStep_execMailboxAppend {c : Coord} : KeepsStep (execMailboxAppend c) :=
  keepsStep_event fun s h => by
    dsimp only
    split
    · refine canonical_ite (canonical_mbTaken (canonical_setCore h _ ?_) ..) h
      exact wf_mbAppend _ (wf_coreAt h c)
    · exact h
theorem keepsStep_execLossNotice {x : Bool} : KeepsStep (execLossNotice id x) :=
  keepsStep_event fun s h => by
    split
    · exact canonical_loseGlobal h ..
    · split
      · split
        · exact canonical_ite (canonical_loseReply h ..) h
        · exact canonical_ite (canonical_loseReply h ..) h
        · exact canonical_ite (canonical_loseReply h ..) h
        · exact canonical_ite (canonical_loseReply h ..) h
        · exact h
      · exact h
theorem keepsStep_execPostedTimeout {c : Coord} {i : Fin 4} {q : Nat} : KeepsStep (execPostedTimeout c i q) :=
  keepsStep_event fun s h => by
    dsimp only
    split
    · refine canonical_ite (canonical_mapCore_mem ?_ _ fun _ => by simp) h
      split
      · split
        · exact canonical_loseEntry h _
        · exact h
      · exact h
    · exact h

/-! ### Work queries -/

theorem mem_launchOf {s : State} {c : Coord} {l : Launch} (e : launchOf s c = some l) : l ∈ s.launches := by
  unfold launchOf at e
  obtain ⟨i, _, hi⟩ := Option.bind_eq_some_iff.mp e
  exact List.mem_of_find?_eq_some hi
/-- A launch is replaced by one that has saved no other memories than some launch of the machine. -/
theorem canonical_putLaunch {s : State} (h : Canonical s) (i : Nat) {l m : Launch} (hl : l ∈ s.launches) (hs : m.saved = l.saved) :
    Canonical (mapLaunch s i fun _ => m) := by
  obtain ⟨hc, hg, hh, hsv⟩ := h
  refine ⟨hc, hg, hh, fun x hx => ?_⟩
  rcases mem_changeFirst hx with hx | ⟨_, _, rfl⟩
  · exact hsv x hx
  · rw [hs]; exact hsv l hl
theorem workNext_saved (l : Launch) : (workNext l).2.saved = l.saved := by
  unfold workNext
  dsimp only
  split <;> rfl
theorem keepsStep_execWorkQuery : KeepsStep (execWorkQuery id) :=
  keepsStep_event fun s h => by
    have hd := canonical_dropMsg h id
    split
    · split
      · split
        next l e =>
          have hl := workNext_saved l
          generalize workNext l = r at hl ⊢
          obtain ⟨v, l1⟩ := r
          have hm : l ∈ (dropMsg s id).launches := mem_launchOf e
          exact canonical_reply (canonical_putLaunch hd l.id hm hl) _ _
        next => exact hd
      · exact h
    · exact h
theorem keepsStep_execWorkAnswer : KeepsStep (execWorkAnswer id) :=
  keepsStep_event fun s h => by
    split
    · split
      · have hd := canonical_dropMsg h id
        extract_lets s1 s2 s3
        have h2 : Canonical s2 := canonical_writeNat hd ..
        have h3 : Canonical s3 := by
          refine canonical_ackPosted (canonical_mapCore_mem h2 _ fun _ => ?_) ..
          rfl
        exact canonical_ite hd (canonical_ite h3 (canonical_enqueueHeld h3 ..))
      · exact h
    · exact h
theorem keepsStep_execWqryRecordEnqueue {c : Coord} : KeepsStep (execWqryRecordEnqueue c) :=
  keepsStep_event fun s h => by
    dsimp only
    split
    · refine canonical_ite (canonical_enqueue (canonical_setCore h _ ?_) ..) h
      exact wf_coreAt h c
    · exact h

/-! ### The cluster window, closure operations and the anchor view -/

theorem canonical_windowStores (m : Msg) (l : List (Nat × List Byte)) {s : State} (h : Canonical s) (bad : Option (Why × Nat)) :
    Canonical (windowStores s m l bad).1 := by
  induction l generalizing s bad with
  | nil => exact h
  | cons p r ih =>
    unfold windowStores
    split
    · exact ih h _
    · exact ih (canonical_ite h (canonical_writeBytes h ..)) _
theorem canonical_serveWindow {s t : State} {m : Msg} {r : Req} {x : Ans} (h : Canonical s) (e : serveWindow s m r = some (t, x)) :
    Canonical t := by
  cases r with
  | load d y n =>
    simp only [serveWindow, Option.some.injEq] at e
    split at e
    · cases e; exact h
    · split at e
      · cases e; exact h
      · cases e; exact canonical_readAt h ..
  | amo d y n op v w =>
    simp only [serveWindow] at e
    split at e
    · cases e; exact h
    · split at e
      · cases e; exact h
      · cases e; exact canonical_writeNat (canonical_readAt h ..) ..
  | bar d y op =>
    simp only [serveWindow] at e
    split at e
    · cases e; exact h
    · split at e
      · cases e; exact h
      · split at e
        · cases e; exact h
        · cases e
        · have h1 : Canonical (if isInit op = true then s else readAt s d y 16) := canonical_ite h (canonical_readAt h ..)
          cases e
          split
          · exact h1
          · exact canonical_writeNat h1 ..
  | checkRead d y n => cases e; exact h
  | _ => cases e; exact h
theorem keepsStep_execClusterWindowAccess : KeepsStep (execClusterWindowAccess id) :=
  keepsStep_event fun s h => by
    have hd := canonical_dropMsg h id
    split
    next m _ =>
      split
      next es _ =>
        refine canonical_ite h ?_
        have hw := canonical_windowStores m es hd none
        generalize windowStores (dropMsg s id) m es none = r at hw ⊢
        obtain ⟨s1, bad⟩ := r
        cases bad with
        | none => exact canonical_send hw ..
        | some _ => exact canonical_send (canonical_logRefused hw ..) ..
      next r _ =>
        refine canonical_ite hd (canonical_ite ?_ h)
        split
        next e => exact canonical_send (canonical_serveWindow hd e) ..
        next => exact canonical_holdMsg h id
      next => exact h
    next => exact h
theorem canonical_answerTo {s : State} (h : Canonical s) (m : Msg) (x : Ans) : Canonical (answerTo s m x) :=
  canonical_ite (canonical_mapCore_mem h _ fun _ => mapThread_mem ..) h
theorem keepsStep_execClusterWindowAnswer : KeepsStep (execClusterWindowAnswer id) :=
  keepsStep_event fun s h => by
    split
    · split
      · exact canonical_answerTo (canonical_dropMsg h id) ..
      · exact h
    · exact h
theorem keepsStep_execClosureOperation : KeepsStep (execClosureOperation id) :=
  keepsStep_event fun s h => by
    have hd := canonical_dropMsg h id
    split
    · split
      · refine canonical_send ?_ _ _ _ _ _ _ _ _
        split
        · exact hd
        · exact canonical_closureServe hd ..
      · exact canonical_dropServe hd ..
      · exact h
    · exact h
theorem keepsStep_execClosureAnswer : KeepsStep (execClosureAnswer id) :=
  keepsStep_event fun s h => by
    have hd := canonical_dropMsg h id
    split
    next m _ =>
      split
      · dsimp only
        split
        · refine canonical_ite (canonical_startWith (canonical_mapCore_mem hd _ fun k => ?_) ..) hd
          cases m.unit <;> rfl
        · refine canonical_ite (canonical_answerTo hd ..) ?_
          split
          · exact canonical_dropHandle hd ..
          · exact hd
      · exact h
    next => exact h
theorem canonical_markRead {s : State} (h : Canonical s) (c : Coord) (e x n : Nat) : Canonical (markRead s c e x n) :=
  canonical_mapCore_mem h _ fun _ => rfl
theorem canonical_viewHeld {s : State} (h : Canonical s) (m : Msg) : Canonical (viewHeld s m) :=
  canonical_mapCore_mem h _ fun _ => mapThread_mem ..
theorem canonical_serveView {s t : State} {r : Req} {x : Ans} (h : Canonical s) (e : serveView s r = some (t, x)) : Canonical t := by
  cases r with
  | viewLoad d i y n u =>
    simp only [serveView] at e
    split at e
    · cases e
    · simp only [Option.some.injEq] at e
      split at e
      · cases e; exact h
      · split at e
        · cases e; exact h
        · cases e; exact canonical_markRead (canonical_readAt h ..) ..
  | viewStore d i u l =>
    simp only [serveView] at e
    split at e
    · cases e
    · simp only [Option.some.injEq] at e
      split at e
      · cases e; exact h
      · cases e; exact canonical_foldl (fun _ _ hs => canonical_ite hs (canonical_writeBytes hs ..)) _ h
  | _ => cases e; exact h
theorem keepsStep_execAnchorViewAccess : KeepsStep (execAnchorViewAccess id) :=
  keepsStep_event fun s h => by
    have hd := canonical_dropMsg h id
    split
    · split
      · refine canonical_ite h (canonical_ite hd ?_)
        split
        next e => exact canonical_send (canonical_serveView hd e) ..
        next => exact canonical_viewHeld h _
      · exact h
    · exact h
end

/-! ### Fences and barriers -/

section
variable {a b c : GReg}

theorem keepsForm_fence {f : State → Bool} : KeepsForm (fence f) := keepsForm_get.bind fun _ => (keepsForm_stallIf _).next
theorem keepsStep_execFenceCore : KeepsStep execFenceCore := keepsStep_instr keepsForm_fence
theorem keepsStep_execFenceI : KeepsStep execFenceI := keepsStep_instr (keepsForm_modCore fun _ => by rfl).next
theorem keepsForm_barNear {op : BarOp} {x : Word} {ready : M Unit} (hr : KeepsForm ready) : KeepsForm (barNear op x ready) := by
  refine keepsForm_get.bind fun s => (keepsForm_guardA _ _ _ _).bind fun _ => ?_
  split
  · exact keepsForm_trapA _ _ _
  · exact (keepsForm_guardA _ _ _ _).bind fun _ => keepsForm_stallIfSpec.bind fun _ => (keepsForm_stallIf _).bind fun _ =>
      hr.bind fun _ => (keepsForm_remote _).bind fun _ => keepsForm_ansWord _
  · refine (keepsForm_checkPages _ _ _ _).bind fun _ => (keepsForm_guardA _ _ _ _).bind fun _ => (keepsForm_stallIf _).bind fun _ =>
      KeepsForm.bind ?_ fun _ => ?_
    · split
      · exact keepsForm_trapA _ _ _
      · exact keepsForm_modify fun _ h => canonical_ite h (canonical_readAt h ..)
    · split
      · exact keepsForm_trapW _ _
      · exact keepsForm_stall
      · refine KeepsForm.next ?_
        split
        · exact keepsForm_pure _
        · exact keepsForm_writeOwn _ _ _
theorem keepsStep_execBarInit : KeepsStep (execBarInit b c) :=
  keepsStep_instr <| (keepsForm_readG b).bind fun _ => (keepsForm_readG c).bind fun _ => (keepsForm_guardA _ _ _ _).bind fun _ =>
    (keepsForm_barNear (keepsForm_pure _)).next
theorem keepsStep_execBarArr : KeepsStep (execBarArr a b) :=
  keepsStep_instr <| (keepsForm_readG b).bind fun _ => (keepsForm_barNear keepsForm_probe).bind fun _ => (keepsForm_writeResult a _).next
theorem keepsStep_execBarExp : KeepsStep (execBarExp b c) :=
  keepsStep_instr <| (keepsForm_readG b).bind fun _ => (keepsForm_readG c).bind fun _ => (keepsForm_barNear (keepsForm_pure _)).next
theorem keepsStep_execBarWait : KeepsStep (execBarWait b c) :=
  keepsStep_instr <| (keepsForm_readG b).bind fun _ => (keepsForm_readG c).bind fun _ => (keepsForm_barNear (keepsForm_pure _)).next

/-! ### Control and status registers -/

theorem canonical_resetEnvs {d : Coord} {base i : Nat} (l : List Nat) {s : State} (h : Canonical s) :
    Canonical (resetEnvs s d base i l) := by
  induction l generalizing s i with
  | nil => exact h
  | cons g r ih => exact ih (canonical_writeBytes h ..)
theorem keepsForm_csrWrite {n : Nat} {v : Word} : KeepsForm (csrWrite n v) := by
  have slot := keepsForm_modSlot
  have thread := keepsForm_modThread
  refine keepsForm_getThen fun s h => keepsForm_getCore.bind fun k => ?_
  refine keepsForm_ite (slot _) <| keepsForm_ite (slot _) <| keepsForm_ite (slot _) <| keepsForm_ite (slot _) <|
    keepsForm_ite (slot _) <| keepsForm_ite (slot _) <| keepsForm_ite (slot _) <|
    keepsForm_ite (keepsForm_modCore fun _ => by rfl) <| keepsForm_ite (thread _) <| keepsForm_ite (thread _) <|
    keepsForm_ite (thread _) <| keepsForm_ite (thread _) <| keepsForm_ite (slot _) <| keepsForm_ite ?tqbase <|
    keepsForm_ite ?tqcfg <| keepsForm_ite ?envbase <| keepsForm_ite ?frbase <| keepsForm_ite ?mbbase <|
    keepsForm_ite ?pageattr (keepsForm_trapD _ _)
  case tqbase =>
    exact (keepsForm_guardA _ _ _ _).bind fun _ => keepsForm_settleCore.bind fun _ =>
      keepsForm_ite (keepsForm_modCore fun _ => by rfl) (keepsForm_pure _)
  case tqcfg => exact keepsForm_set (canonical_advertNotice (canonical_mapCore_mem h _ fun _ => by rfl) _)
  case envbase =>
    exact (keepsForm_guardD _ _ _).bind fun _ => keepsForm_ite
      (keepsForm_set (canonical_resetEnvs _ (canonical_mapCore_mem h _ fun _ => by rfl))) (keepsForm_pure _)
  case frbase =>
    exact (keepsForm_guardD _ _ _).bind fun _ => keepsForm_ite (keepsForm_modCore fun _ => by rfl) (keepsForm_pure _)
  case mbbase => exact keepsForm_ite (keepsForm_modCore fun _ => by rfl) (keepsForm_pure _)
  case pageattr => exact keepsForm_settleCore.bind fun _ => keepsForm_modCore fun _ => by rfl
theorem keepsStep_execSrd {n : BitVec 15} : KeepsStep (execSrd a n) := fun _ _ =>
  canonical_instr <| keepsForm_get.bind fun _ => by
    split
    · exact (keepsForm_writeResult a _).next
    · exact (keepsForm_trapD _ _).next
theorem keepsStep_execSwr {n : BitVec 15} : KeepsStep (execSwr b n) := fun _ _ =>
  canonical_instr <| (keepsForm_guardD _ _ _).bind fun _ => (keepsForm_readG b).bind fun _ => keepsForm_csrWrite.next
theorem keepsStep_csrStep {p : Bool} {n : Nat} {v : Word} : KeepsStep (csrStep p n v) := keepsStep_instr keepsForm_csrWrite.next

/-! ### Traps by instruction, HALT and SSTEP -/

theorem keepsStep_execDecodeTrap {w : BitVec 9} {x : BitVec 7} {n : Nat} : KeepsStep (execDecodeTrap w x n) := fun _ _ =>
  canonical_instr (keepsForm_stop _)
theorem keepsStep_execTrap {n : BitVec 15} : KeepsStep (execTrap n) :=
  keepsStep_instr <| (keepsForm_guardD _ _ _).bind fun _ => keepsForm_stop _
theorem keepsStep_execBrk : KeepsStep execBrk := keepsStep_instr (keepsForm_stop _)
@[simp] theorem trapReturn_mem (k : Core) (i : Fin 4) : (trapReturn k i).mem = k.mem := by
  unfold trapReturn
  simp
theorem keepsStep_execEret : KeepsStep execEret :=
  keepsStep_instr <| keepsForm_get.bind fun s => by
    extract_lets rest
    have hr : ∀ u, KeepsForm (rest u) := fun _ => (keepsForm_guardD _ _ _).bind fun _ =>
      (keepsForm_modCore fun k => trapReturn_mem k _).next
    exact keepsForm_ite ((keepsForm_trapD _ _).bind hr) (hr ())
@[simp] theorem settleRelease_mem (k : Core) (i : Fin 4) : (settleRelease k i).mem = k.mem := by
  unfold settleRelease
  split <;> rfl
@[simp] theorem haltSlot_mem (k : Core) (i : Fin 4) (y : Side) (n : Nat) : (haltSlot k i y n).mem = k.mem := by
  unfold haltSlot
  simp
theorem canonical_stopSlot {s : State} (h : Canonical s) (d : Coord) (i : Fin 4) (y : Side) (n : Nat) : Canonical (stopSlot s d i y n) :=
  canonical_mapCore_mem (canonical_releaseSlot h ..) _ fun k => haltSlot_mem k _ _ _
theorem keepsStep_execHalt : KeepsStep execHalt :=
  keepsStep_instr (keepsForm_modify fun _ h => canonical_stopSlot h ..).next
theorem keepsStep_execParityError {d : Coord} {i : Fin 4} {q : Bool} : KeepsStep (execParityError d i q) :=
  keepsStep_event fun _ h => canonical_ite h (canonical_failCore (canonical_logFault (canonical_stopSlot h ..) ..) ..)
theorem keepsForm_endSteps : KeepsForm endSteps :=
  keepsForm_get.bind fun _ => keepsForm_ite (keepsForm_stallIf _) <| (keepsForm_stallIf _).bind fun _ =>
    keepsForm_reportPosted.bind fun _ => keepsForm_stallIf _
theorem keepsStep_execSstep : KeepsStep execSstep := fun _ _ =>
  canonical_instr <| keepsForm_stallIfSpec.bind fun _ => (keepsForm_guardA _ _ _ _).bind fun _ => (keepsForm_guardA _ _ _ _).bind fun _ =>
    keepsForm_endSteps.bind fun _ => (keepsForm_stallIf _).bind fun _ => keepsForm_ite (keepsForm_modSlot _).next (keepsForm_stop _)
end

/-! ### Task instructions -/

section
variable {a b c : GReg}

theorem keepsForm_readRcd {x : Word} : KeepsForm (readRcd x) := by
  refine keepsForm_get.bind fun s => ?_
  dsimp only
  split
  · exact keepsForm_pure _
  · split
    · refine (keepsForm_guardA _ _ _ _).bind fun _ => keepsForm_getCore.bind fun _ => (keepsForm_stallIf _).bind fun _ =>
        KeepsForm.bind ?_ fun _ => keepsForm_readAt.bind fun _ => ?_
      · split
        · exact keepsForm_trapA _ _ _
        · exact keepsForm_pure _
      · split
        · exact keepsForm_trapA _ _ _
        · exact (keepsForm_modThread _).next
    · exact keepsForm_trapA _ _ _
theorem keepsForm_takeRefs {x y : Handle} : KeepsForm (takeRefs x y) := by
  refine keepsForm_get.bind fun s => ?_
  have both : ∀ x y m n, KeepsForm (do takeRef x m; takeRef y n) := fun _ _ _ _ => keepsForm_takeRef.bind fun _ => keepsForm_takeRef
  exact keepsForm_ite (keepsForm_ite (keepsForm_probe.bind fun _ => both _ _ _ _) (both _ _ _ _)) (both _ _ _ _)
theorem keepsStep_execTask : KeepsStep (execTask b c) := fun _ _ =>
  canonical_instr <| by
    refine (keepsForm_readG b).bind fun ra => (keepsForm_readG c).bind fun v => keepsForm_readRcd.bind fun r => ?_
    extract_lets target
    refine (keepsForm_guardA _ _ _ _).bind fun _ => keepsForm_get.bind fun _ => ?_
    refine keepsForm_ite (keepsForm_hold _).next ?_
    refine (keepsForm_stallIf _).bind fun _ => keepsForm_takeRefs.bind fun _ => ?_
    split
    · refine keepsForm_getThen fun s2 h2 => ?_
      have ha := canonical_acceptRcd h2
      split
      · exact (keepsForm_trapW _ _).next
      next e => exact (keepsForm_set (canonical_of_pair (ha ..) e)).next
    · exact (keepsForm_post _ _ fun _ _ h => canonical_send h ..).next
end

/-! ### The end of a body -/

section
variable {s : State}

theorem foldl_mem {α : Type} {f : Core → α → Core} (hf : ∀ k x, (f k x).mem = k.mem) (l : List α) (k : Core) :
    (l.foldl f k).mem = k.mem := by
  induction l generalizing k with
  | nil => rfl
  | cons x r ih => exact (ih _).trans (hf k x)
theorem canonical_reportCopies (h : Canonical s) (c : Coord) (i : Fin 4) : Canonical (reportCopies s c i) :=
  canonical_foldl (fun _ _ hs => canonical_unreported hs _) _ <| canonical_mapCore_mem h _ fun k => foldl_mem (fun _ _ => mapChan_mem ..) _ k
@[simp] theorem endSlot_mem (k : Core) (i : Fin 4) : (endSlot k i).mem = k.mem := by
  unfold endSlot
  simp
@[simp] theorem endIbex_mem (k : Core) (n : Fin 2) : (endIbex k n).mem = k.mem := by
  unfold endIbex
  simp
theorem canonical_leaveSlot (h : Canonical s) (c : Coord) (i : Fin 4) : Canonical (leaveSlot s c i) := by
  unfold leaveSlot
  exact canonical_mapCore_mem (canonical_reportCopies (canonical_releaseSlot h c i) c i) c fun k => endSlot_mem k i
theorem canonical_drainBody (h : Canonical s) (a : Agent) : Canonical (drainBody s a) := by
  unfold drainBody
  split
  · exact canonical_drainStores (canonical_drainStores h _) _
  · exact canonical_drainStores h _
theorem canonical_endBody (h : Canonical s) (a : Agent) (t : Task) : Canonical (endBody s a t) := by
  have hr : Canonical (retire (drainBody s a) t.home t.entry) := canonical_retire (canonical_drainBody h a) ..
  unfold endBody
  dsimp only
  split
  · exact canonical_leaveSlot hr ..
  · exact canonical_mapCore_mem hr _ fun k => endIbex_mem k _
theorem keepsStep_execTret : KeepsStep execTret :=
  keepsStep_instr <| keepsForm_endSteps.bind fun _ => keepsForm_stallIfSpec.bind fun _ => keepsForm_getThen fun s h => by
    split
    · exact (keepsForm_set (canonical_endBody h ..)).next
    · exact keepsForm_pure _
/-- The record of a suspended body goes back to its home, and the slot leaves its task. -/
theorem keepsForm_suspend (k : Handle) : KeepsForm (do
    let s0 ← (get : M State)
    let s := drainBody (forget s0) s0.cur
    let c := s.cur.core
    let i := slotNo s.cur.unit
    match (slotOf s).task with
    | some t =>
      let s1 := mapCore s t.home fun k' => mapRecord k' t.entry fun e =>
        { e with rcd := suspended e.rcd k, slot := none, taker := none, bitmap := 0 }
      let s2 := dropHandle (dropHandle s1 t.home (rcdNear t.rcd)) t.home (rcdFar t.rcd)
      set (advertNotice (leaveSlot s2 c i) t.home)
    | none => pure ()
    return Next.stay) := keepsForm_getThen fun s0 h0 => by
  have h := canonical_drainBody (canonical_forget h0) s0.cur
  dsimp only
  split
  · refine (keepsForm_set (canonical_advertNotice (canonical_leaveSlot (canonical_dropHandle (canonical_dropHandle ?_ _ _) _ _) _ _) _)).next
    exact canonical_mapCore h _ fun _ hk => wf_mapRecord hk _ _
  · exact keepsForm_pure _
theorem keepsStep_execTsusp {k : KReg} : KeepsStep (execTsusp k) :=
  keepsStep_instr <| (keepsForm_readK k).bind fun r => (keepsForm_guardA _ _ _ _).bind fun _ => keepsForm_getSlot.bind fun _ =>
    keepsForm_get.bind fun _ => by
    extract_lets last suspend commit
    have hs : ∀ u, KeepsForm (suspend u) := fun _ => keepsForm_takeRef.bind fun _ => keepsForm_endSteps.bind fun _ => keepsForm_suspend r
    have hc : ∀ u, KeepsForm (commit u) := fun _ => keepsForm_getSpec.bind fun _ =>
      keepsForm_ite ((keepsForm_stop _).bind hs) (hs ())
    exact keepsForm_ite (keepsForm_endSteps.bind hc) (hc ())
theorem keepsStep_execTqcfg {a b : GReg} : KeepsStep (execTqcfg a b) :=
  keepsStep_instr <| (keepsForm_readG b).bind fun _ => keepsForm_getCore.bind fun _ => (keepsForm_writeResult a _).bind fun _ =>
    keepsForm_ite keepsForm_csrWrite.next (keepsForm_pure _)
theorem keepsStep_execTqdepth {a : GReg} : KeepsStep (execTqdepth a) :=
  keepsStep_instr <| keepsForm_getCore.bind fun _ => (keepsForm_writeResult a _).next
theorem keepsStep_execTaskRecordArrival {id : Nat} : KeepsStep (execTaskRecordArrival id) :=
  keepsStep_event fun s h => by
    have hd := canonical_dropMsg h id
    split
    · split
      · extract_lets s1 refuse
        have hr : ∀ s w, Canonical s → Canonical (refuse s w) := fun _ _ hs =>
          canonical_reply (canonical_dropHandle (canonical_dropHandle hs ..) ..) ..
        have ha := canonical_acceptRcd hd
        split
        · exact hr _ _ hd
        · split
          next e => exact hr _ _ (canonical_of_pair (ha ..) e)
          next e => exact canonical_reply (canonical_of_pair (ha ..) e) ..
      · exact h
    · exact h

/-! ### Work taken and stolen -/

theorem canonical_takeEntryOf (h : Canonical s) (c : Coord) (e : Entry) (n : Nat) (a : Agent) : Canonical (takeEntryOf s c e n a) := by
  refine canonical_advertNotice (canonical_mapCore h _ fun k hk => ?_) _
  exact wf_mapRecord hk _ _
theorem canonical_takeAndStart (h : Canonical s) (a : Agent) (c : Coord) (e : Entry) (n : Nat) : Canonical (takeAndStart s a c e n) :=
  canonical_bodyStart (canonical_takeEntryOf h ..) ..
theorem keepsStep_execNearDispatch {c : Coord} {u : Fin 2} : KeepsStep (execNearDispatch c u) :=
  keepsStep_event fun s h => by
    refine canonical_ite ?_ h
    split
    · exact canonical_takeAndStart h ..
    · exact h
theorem keepsStep_execSlotTakesWork {c : Coord} {i : Fin 4} : KeepsStep (execSlotTakesWork c i) :=
  keepsStep_event fun s h => by
    refine canonical_ite ?_ h
    split
    · exact canonical_takeAndStart h ..
    · split
      · exact canonical_takeAndStart h ..
      · exact h
theorem keepsStep_execStealRequest {c : Coord} {i : Fin 4} : KeepsStep (execStealRequest c i) :=
  keepsStep_event fun _ h => canonical_ite (canonical_send h ..) h
theorem keepsStep_execSlateStealControl {id : Nat} : KeepsStep (execSlateStealControl id) :=
  keepsStep_event fun s h => by
    have hd := canonical_dropMsg h id
    split
    · split
      · exact canonical_mapDie hd _ _
      · exact canonical_send hd ..
      · refine canonical_mapCore_mem hd _ fun k => ?_
        split <;> rfl
      · exact h
    · exact h
theorem keepsStep_execSteal {c : Coord} {i : Fin 4} : KeepsStep (execSteal c i) :=
  keepsStep_event fun s h => by
    dsimp only
    split
    · refine canonical_ite ?_ h
      have hm : ∀ g, Canonical (mapCore s c fun k => mapSlot k i fun x => { x with grant := g }) := fun _ =>
        canonical_mapCore_mem h _ fun _ => mapSlot_mem ..
      split
      · exact canonical_takeAndStart (hm _) ..
      · exact hm _
    · exact h

/-! ### Drained buffers -/

theorem canonical_applyAnchor (h : Canonical s) (t : Task) : Canonical (applyAnchor s t) :=
  canonical_foldl (fun _ _ hs => canonical_writeBytes hs ..) _ h
theorem canonical_addRefs (c : Coord) (l : List Handle) (h : Canonical s) (done : List Handle) : Canonical (addRefs s c l done).1 := by
  induction l generalizing s done with
  | nil => exact h
  | cons x r ih =>
    have hs := canonical_closureServe h (hHome x) c (.closureAdd x 0)
    unfold addRefs
    split
    · exact ih h _
    · split
      · exact h
      · split
        · exact h
        next e => exact canonical_of_pair hs e
        next e => exact ih (canonical_of_pair hs e) _
theorem canonical_dropHandles (c : Coord) (l : List Handle) (h : Canonical s) : Canonical (l.foldl (fun s k => dropHandle s c k) s) :=
  canonical_foldl (fun _ _ hs => canonical_dropHandle hs ..) l h
theorem canonical_drainTask (h : Canonical s) (c : Coord) (u : UnitId) (o : Origin) (d : Coord) (ra : Word) (r : BitVec 512) :
    Canonical (drainTask s c u o d ra r) := by
  have hr := canonical_addRefs c [rcdNear r, rcdFar r] h []
  unfold drainTask
  dsimp only
  split
  next e => exact canonical_ackPosted (canonical_dropHandles _ _ (canonical_of_pair hr e)) ..
  next s1 e =>
    have h1 : Canonical s1 := canonical_of_pair hr e
    have ha := canonical_acceptRcd h1 c r
    split
    · split
      next e => exact canonical_ackPosted (canonical_dropHandles c [rcdNear r, rcdFar r] (canonical_of_pair ha e)) ..
      next e => exact canonical_ackPosted (canonical_of_pair ha e) ..
    · exact canonical_send h1 ..
/-- An outgoing entry leaves, and the form is kept. -/
theorem canonical_drainEntry {t : State} {c : Coord} {i : Fin 4} {k : Task} {e : Outgoing} (h : Canonical s)
    (he : drainEntry s c i k e = some t) : Canonical t := by
  unfold drainEntry at he
  extract_lets w full go behind at he
  have hg : ∀ {x pc sc a f}, go x pc sc a f = some t → (∀ o s, Canonical s → Canonical (f o s)) → Canonical t := by
    intro x pc sc a f hgo hf
    simp only [go] at hgo
    split at hgo
    · cases hgo
    · cases hgo
      exact hf _ _ (canonical_postedAdd h ..)
  clear_value go
  cases e with
  | winStore x pc a ps =>
    dsimp only at he
    refine hg he fun _ _ hs => ?_
    exact canonical_foldl (fun _ _ hr => canonical_send hr ..) _ hs
  | gst x pc a bs =>
    dsimp only at he
    refine hg he fun _ _ hs => ?_
    exact canonical_sendGlobal hs ..
  | msg x pc r bs sig =>
    dsimp only at he
    split at he
    · refine hg he fun _ _ hs => ?_
      exact canonical_send hs ..
    · refine hg he fun _ _ hs => ?_
      exact canonical_send hs ..
  | port x p v =>
    dsimp only at he
    split at he
    · cases he
    · cases he
      exact canonical_nextId (canonical_mapCore_mem h c fun _ => mapSlot_mem ..) _
  | task x pc ra d r =>
    dsimp only at he
    split at he
    · cases he
    · refine hg he fun _ _ hs => ?_
      exact canonical_drainTask hs ..
theorem keepsStep_execBufferDrain {c : Coord} {i : Fin 4} : KeepsStep (execBufferDrain c i) :=
  keepsStep_event fun s h => by
    split
    · extract_lets put
      have hp : ∀ s f, Canonical s → Canonical (put s f) := fun _ _ hs => canonical_mapCore_mem hs _ fun _ => mapSlot_mem ..
      refine canonical_ite h ?_
      split
      · exact canonical_ite (hp _ _ (canonical_applyAnchor h _)) h
      · split
        · split
          next e => exact hp _ _ (canonical_drainEntry h e)
          next => exact h
        · exact h
    · exact h
end

section
variable {s : State}

/-! ### Queues, grants and completion records -/

theorem canonical_host (h : Canonical s) (x : HostRegs) : Canonical { s with host := x } := h
theorem canonical_mapQueue (h : Canonical s) (q : BitVec 10) (f : Queue → Queue) : Canonical (mapQueue s q f) := h
theorem canonical_writeParts {t : State} {b : Bool} (pid : BitVec 20) (l : List (Nat × List Byte)) (h : Canonical s)
    (e : writeParts s pid l = some (t, b)) : Canonical t := by
  induction l generalizing s with
  | nil => cases e; exact h
  | cons p r ih =>
    have hw := canonical_gWrite h pid p.1 p.2
    unfold writeParts at e
    split at e
    · cases e
    · cases e; exact h
    next eq => exact ih (canonical_of_pair hw eq) e
theorem canonical_writeCompletion {t : State} {q : BitVec 10} {pid : BitVec 20} {x : Nat} {r : BitVec 512} (h : Canonical s)
    (e : writeCompletion s q pid x r = some t) : Canonical t := by
  unfold writeCompletion at e
  dsimp only at e
  split at e
  · cases e; exact canonical_mapQueue h ..
  · split at e
    · cases e
    next eq => cases e; exact canonical_writeParts _ _ h eq
    next eq => cases e; exact canonical_mapQueue (canonical_writeParts _ _ h eq) ..
theorem canonical_queueHeld (h : Canonical s) (q : BitVec 10) (n : Option Nat) (g : List Grant) : Canonical (queueHeld s q n g) := h
theorem canonical_queueServed (h : Canonical s) (q : BitVec 10) : Canonical (queueServed s q) := h
theorem canonical_refuseRecord (h : Canonical s) (q : BitVec 10) (n : Nat) : Canonical (refuseRecord s q n) := by
  unfold refuseRecord
  extract_lets x next
  have hn : ∀ s, Canonical s → Canonical (next s) := fun _ hs => canonical_mapQueue (canonical_queueServed hs _) ..
  split
  next e => exact hn _ (canonical_writeCompletion h e)
  next => exact canonical_ite (hn _ (canonical_mapQueue h ..)) (canonical_queueHeld h ..)
theorem keepsStep_execLaunchRecordCheck {q : BitVec 10} : KeepsStep (execLaunchRecordCheck q) :=
  keepsStep_event fun s h => by
    refine canonical_ite ?_ h
    split
    · exact canonical_refuseRecord h ..
    · split
      · exact canonical_ite (canonical_refuseRecord h ..) (canonical_queueHeld h ..)
      · exact canonical_mapQueue (canonical_queueServed h _) ..
      · refine canonical_refuseRecord ?_ _ _
        split
        · exact canonical_host h _
        · exact h

/-! ### Power of a core -/

theorem wf_bareCore (k : Core) : (bareCore k).mem.wf = true := wf_nil
theorem canonical_applyRow (h : Canonical s) (p : BitVec 4) (c : Coord) : Canonical (applyRow s p c) := canonical_mapDie h ..
theorem canonical_applyCore (h : Canonical s) (p : BitVec 4) (c : Coord) : Canonical (applyCore s p c).1 := by
  unfold applyCore
  dsimp only
  split
  · split
    · exact canonical_mapCore_mem h _ fun _ => rfl
    · exact h
  · split
    · exact canonical_mapCore_mem h _ fun _ => rfl
    · split
      · exact h
      · exact canonical_mapCore h _ fun k _ => wf_bareCore k

/-! ### The launches that a state holds -/

/-- A change of a launch keeps the form where it keeps that of the memories which the launch saved. -/
theorem canonical_mapLaunch_saved (h : Canonical s) (l : Nat) {f : Launch → Launch}
    (hf : ∀ x : Launch, (∀ e ∈ x.saved, e.2.mem.wf = true) → ∀ e ∈ (f x).saved, e.2.mem.wf = true) : Canonical (mapLaunch s l f) := by
  obtain ⟨hc, hg, hh, hs⟩ := h
  refine ⟨hc, hg, hh, fun x hx => ?_⟩
  rcases mem_changeFirst hx with hx | ⟨y, hy, rfl⟩
  · exact hs x hx
  · exact hf y (hs y hy)
/-- A launch that has saved nothing joins the others. -/
theorem canonical_addLaunch {t : State} {l : Launch} (h : Canonical s) (hc : t.cores = s.cores) (hg : t.gmem = s.gmem)
    (hh : t.hmem = s.hmem) (hl : t.launches = s.launches ++ [l]) (hn : l.saved = []) : Canonical t := by
  obtain ⟨h1, h2, h3, h4⟩ := h
  refine ⟨hc ▸ h1, hg ▸ h2, hh ▸ h3, fun x hx => ?_⟩
  rw [hl, List.mem_append, List.mem_singleton] at hx
  rcases hx with hx | rfl
  · exact h4 x hx
  · simp [hn]
theorem canonical_launchHeld (h : Canonical s) (l : Nat) (g : List Grant) : Canonical (launchHeld s l g) :=
  canonical_keepGrants (canonical_mapLaunch h l fun _ => by rfl) g
theorem canonical_launchServed (h : Canonical s) (l : Nat) : Canonical (launchServed s l) :=
  canonical_freeGrants (canonical_mapLaunch h l fun _ => by rfl) _
theorem canonical_loseContext (h : Canonical s) (l : Nat) : Canonical (loseContext s l) :=
  canonical_mapLaunch (canonical_launchServed h l) l fun _ => rfl

/-! ### Launch start -/

theorem wf_foldl {α : Type} {f : Memory → α → Memory} (hf : ∀ m x, m.wf = true → (f m x).wf = true) (l : List α) {m : Memory}
    (h : m.wf = true) : (l.foldl f m).wf = true := by
  induction l generalizing m with
  | nil => exact h
  | cons x r ih => exact ih (hf m x h)
theorem wf_foldlCore {α : Type} {f : Core → α → Core} (hf : ∀ k x, k.mem.wf = true → (f k x).mem.wf = true) (l : List α) {k : Core}
    (h : k.mem.wf = true) : (l.foldl f k).mem.wf = true := by
  induction l generalizing k with
  | nil => exact h
  | cons x r ih => exact ih (hf k x h)
theorem wf_startCore (l : Launch) (r : Reel) (c : Coord) {k : Core} (h : k.mem.wf = true) : (startCore l r c k).mem.wf = true := by
  unfold startCore
  refine wf_foldlCore (fun _ _ hk => wf_addEntry hk _ _) _ ?_
  dsimp only
  exact wf_foldl (fun _ _ hm => wf_pokes hm _ _) _ h
theorem canonical_mapCores {α : Type} {c : α → Coord} {f : α → Core → Core} (hf : ∀ a k, k.mem.wf = true → (f a k).mem.wf = true)
    (l : List α) (h : Canonical s) : Canonical (l.foldl (fun s a => mapCore s (c a) (f a)) s) :=
  canonical_foldl (fun _ a hs => canonical_mapCore hs _ (hf a)) l h
theorem canonical_startAll (h : Canonical s) (l : Launch) (ok : Bool) : Canonical (startAll s l ok) :=
  canonical_mapLaunch (canonical_launchServed (canonical_mapCores (fun _ _ hk => wf_startCore _ _ _ hk) _ h) _) _ fun _ => rfl
theorem canonical_finishStart (h : Canonical s) (l : Launch) : Canonical (finishStart s l) := by
  unfold finishStart
  split
  next e => exact canonical_startAll (canonical_writeParts _ _ h e) ..
  next => exact canonical_ite (canonical_startAll h ..) (canonical_launchHeld h ..)
theorem wf_putReel (l : Launch) (r : Nat) {k : Core} (h : k.mem.wf = true) : (putReel l r k).mem.wf = true := wf_pokes h ..
theorem canonical_applyStart (p : BitVec 4) {x : State × Bool} (h : Canonical x.1) (c : Coord) : Canonical (applyStart p x c).1 :=
  canonical_applyCore (canonical_applyRow h ..) ..
theorem canonical_applyStarts (p : BitVec 4) (l : List Coord) {x : State × Bool} (h : Canonical x.1) :
    Canonical (l.foldl (applyStart p) x).1 := by
  induction l generalizing x with
  | nil => exact h
  | cons c r ih => exact ih (canonical_applyStart p h c)
theorem canonical_beginStart (h : Canonical s) (q : BitVec 10) (x : Queue) (o : List Byte) (i : Nat) :
    Canonical (beginStart s q x o i).1 := by
  unfold beginStart
  extract_lets r k cs l0 l s0 s1 y sy host s2 s3 direct
  have h1 : Canonical s1 := canonical_addLaunch (l := l) h rfl rfl rfl rfl rfl
  have hy : Canonical sy := canonical_applyStarts _ _ h1
  have h2 : Canonical s2 := canonical_ite hy (canonical_host hy _)
  have h3 : Canonical s3 := canonical_mapCores (fun _ _ _ => wf_nil) _ h2
  exact canonical_mapCores (fun _ _ hk => wf_putReel _ _ hk) _ h3
theorem keepsStep_execLaunchStart {q : BitVec 10} : KeepsStep (execLaunchStart q) :=
  keepsStep_event fun s h => by
    dsimp only
    split
    · exact canonical_finishStart h _
    · split
      · exact canonical_ite (canonical_ite (canonical_finishStart (canonical_beginStart h ..) _) (canonical_beginStart h ..)) h
      · exact h
theorem keepsStep_execReelForward {l : Nat} {c d : Coord} : KeepsStep (execReelForward l c d) :=
  keepsStep_event fun s h => by
    split
    next x _ =>
      have h1 : ∀ f : Launch → Launch, (∀ y, (f y).saved = y.saved) → ∀ r, Canonical (mapLaunch (mapCore s d (putReel x r)) l f) :=
        fun _ hf _ => canonical_mapLaunch (canonical_mapCore h d fun _ hk => wf_putReel _ _ hk) _ hf
      exact canonical_ite (canonical_ite (canonical_finishStart (h1 _ (fun _ => by rfl) _) _) (h1 _ (fun _ => by rfl) _)) h
    next => exact h

/-! ### Stopping a launch -/

theorem canonical_raiseDue (h : Canonical s) (a : Agent) : Canonical (raiseDue s a) := by
  unfold raiseDue
  split
  · split
    · exact h
    · refine canonical_raise (canonical_mapCore_mem h _ fun k => ?_) _ _
      rw [mapThread_mem]
      split
      · exact settleRelease_mem ..
      · rfl
  · exact h
theorem canonical_takeHeld (h : Canonical s) (c : Coord) (i : Fin 4) (t : Trap) : Canonical (takeHeld s c i t) :=
  canonical_trapEntry (canonical_mapCore_mem h _ fun _ => mapSlot_mem ..) ..
theorem canonical_enterDue (h : Canonical s) (c : Coord) : Canonical (enterDue s c) := by
  refine canonical_foldl (fun _ i hs => canonical_reportLoad hs c i) _ <| canonical_foldl (fun _ u hs => canonical_raiseDue hs _) _ <|
    canonical_foldl (fun s i hs => ?_) _ h
  split
  · exact canonical_takeHeld hs ..
  · exact hs
theorem wf_requeue {k : Core} (h : k.mem.wf = true) (n : Nat) (b : Bool) : (requeue k n b).mem.wf = true := wf_mapRecord h ..
theorem canonical_discardFar (h : Canonical s) (c : Coord) : Canonical (discardFar s c) := by
  refine canonical_foldl (fun s e hs => ?_) _ h
  split
  · refine canonical_ite (canonical_advertNotice (canonical_mapCore_mem ?_ _ fun k => endSlot_mem k _) _) hs
    exact canonical_mapCore hs _ fun _ hk => wf_requeue hk _ _
  · exact hs
theorem canonical_unbegin (h : Canonical s) (c : Coord) : Canonical (unbegin s c) :=
  canonical_mapCore_mem (canonical_foldl (fun _ _ hs => canonical_ite hs (canonical_releasePend hs _)) _ h) _ fun _ => rfl
theorem canonical_stopCores (h : Canonical s) (l : Launch) : Canonical (stopCores s l) :=
  canonical_foldl (fun _ _ hs => canonical_unbegin hs _) _ <| canonical_foldl (fun _ _ hs => canonical_discardFar hs _) _ <|
    canonical_foldl (fun _ _ hs => canonical_enterDue hs _) _ <|
    canonical_mapCores (fun _ k hk => by rw [foldl_mem settleRelease_mem]; exact hk) _ h
theorem canonical_stopLaunch (h : Canonical s) (l : Launch) : Canonical (stopLaunch s l) :=
  canonical_mapLaunch (canonical_launchServed (canonical_stopCores h l) _) l.id fun _ => rfl
theorem canonical_unregister (h : Canonical s) (l : Launch) : Canonical (unregister s l) := h
theorem canonical_discardCores (h : Canonical s) (l : Launch) : Canonical (discardCores s l) :=
  canonical_foldl (fun _ _ hs => canonical_ite (canonical_mapCore hs _ fun k _ => wf_bareCore k) hs) _ (canonical_unregister h l)
end

section
variable {s : State}

/-! ### Completion of a launch -/

theorem canonical_freeCtr (h : Canonical s) (n : Nat) : Canonical { s with freeCtr := n } := h
theorem canonical_releases (h : Canonical s) (l : List Release) : Canonical { s with releases := l } := h
theorem canonical_freeCores (h : Canonical s) (l : Launch) : Canonical (l.cores.foldl
    (fun s e => mapCore s e.1 fun k => { k with launch := none, advert := false }) (unregister s l)) :=
  canonical_mapCores (fun _ _ hk => by exact hk) _ (canonical_unregister h l)
theorem canonical_endLaunch (h : Canonical s) (l : Nat) :
    Canonical (mapLaunch (launchServed s l) l fun y => { y with phase := .ended, saved := [] }) :=
  canonical_mapLaunch_saved (canonical_launchServed h l) l fun _ _ _ he => nomatch he
theorem keepsStep_execLaunchComplete {l : Nat} : KeepsStep (execLaunchComplete l) :=
  keepsStep_event fun s h => by
    split
    next x _ =>
      refine canonical_ite ?_ h
      extract_lets r s0 s1
      have h0 : Canonical s0 := canonical_mapLaunch h l fun _ => rfl
      have h1 : Canonical s1 := canonical_ite h (canonical_freeCtr h0 _)
      split
      next => exact canonical_launchHeld h1 ..
      next t e =>
        have ht : Canonical t := by
          rcases Option.or_eq_some_iff.mp e with e | ⟨_, e⟩
          · exact canonical_writeCompletion h1 e
          · split at e <;> cases e
            exact canonical_mapQueue h1 ..
        exact canonical_releases (canonical_endLaunch (canonical_ite (canonical_freeCores ht x) (canonical_discardCores ht x)) l) _
    next => exact h

/-! ### Pre-emption and resume -/

theorem readSaved_mem (k : Core) : (readSaved k).mem = k.mem := foldl_mem (fun _ _ => by rfl) _ k
theorem wf_savedCore (k : Core) : (savedCore k).mem.wf = true := wf_nil
theorem canonical_saveLaunch (h : Canonical s) (l : Launch) : Canonical (saveLaunch s l) := by
  unfold saveLaunch
  extract_lets s1
  have h1 : Canonical s1 := canonical_mapCores (fun _ k hk => by rw [readSaved_mem]; exact hk) _ h
  have hw := fun {t b} ps => canonical_writeParts (t := t) (b := b) l.pid ps (canonical_freeCtr h1 (s1.freeCtr + 8192 * l.cores.length))
  split
  next => exact canonical_ite (canonical_loseContext h1 _) (canonical_launchHeld h1 ..)
  next e => exact canonical_loseContext (hw _ e) _
  next e =>
    refine canonical_mapLaunch_saved (canonical_discardCores (canonical_launchServed (hw _ e) _) l) _ fun _ _ e he => ?_
    obtain ⟨_, _, rfl⟩ := List.mem_map.mp he
    exact wf_savedCore _
theorem canonical_saveDrained (h : Canonical s) (l : Launch) : Canonical (saveDrained s l) :=
  canonical_ite (canonical_saveLaunch (canonical_stopCores h l) l) (canonical_stopCores h l)
theorem keepsStep_execPreempt {l : Nat} : KeepsStep (execPreempt l) :=
  keepsStep_event fun s h => by
    split
    · split
      · split
        · exact canonical_ite (canonical_mapLaunch (canonical_stopLaunch h _) _ fun _ => by rfl) h
        · exact h
      · exact canonical_ite (canonical_saveDrained h _) h
      · exact h
    · exact h
theorem wf_restoredImage (l : List Nat) {x : Memory × List Byte} (h : x.1.wf = true) :
    ((l.foldl (fun (x : Memory × List Byte) p => (pokes x.1 (4096 * p) (x.2.take 4096), x.2.drop 4096)) x).1).wf = true := by
  induction l generalizing x with
  | nil => exact h
  | cons p r ih => exact ih (wf_pokes h _ _)
theorem wf_restoreMem {l : Launch} {c : Coord} {k : Core} {m : Memory} (e : restoreMem s l c k = some (some m)) : m.wf = true := by
  unfold restoreMem at e
  split at e
  · cases e
  · cases e
  · cases e
    exact wf_restoredImage _ wf_nil
theorem wf_restoreMems {l : Launch} {saved : List (Nat × Core)} {ms : List (Coord × Core × Memory)}
    (e : restoreMems s l saved = some (some ms)) : ∀ x ∈ ms, x.2.2.wf = true := by
  induction saved generalizing ms with
  | nil => cases e; simp
  | cons p r ih =>
    unfold restoreMems at e
    split at e
    · cases e
    · cases e
    next m em =>
      split at e
      next er =>
        cases e
        intro x hx
        rcases List.mem_cons.mp hx with rfl | hx
        · exact wf_restoreMem em
        · exact ih er x hx
      next hn => exact absurd e (hn ms)
theorem canonical_restoreAll {t u : State} {l : Launch} {saved : List (Nat × Core)} (h : Canonical t)
    (e : restoreAll s l saved t = some (some u)) : Canonical u := by
  unfold restoreAll at e
  split at e
  · cases e
  · cases e
  next ms em =>
    cases e
    have hm := wf_restoreMems em
    clear em
    induction ms generalizing t with
    | nil => exact h
    | cons x r ih =>
      exact ih (canonical_mapCore h _ fun _ _ => hm x (by simp)) fun y hy => hm y (by simp [hy])
theorem keepsStep_execResume {l : Nat} : KeepsStep (execResume l) :=
  keepsStep_event fun s h => by
    split
    · refine canonical_ite ?_ h
      split
      next => exact canonical_ite (canonical_loseContext h _) (canonical_launchHeld h ..)
      next => exact canonical_loseContext h _
      next e =>
        refine canonical_foldl (fun _ _ hs => canonical_advertNotice hs _) _ ?_
        exact canonical_mapLaunch_saved (canonical_launchServed (canonical_restoreAll h e) l) l fun _ _ _ he => nomatch he
    · exact h
theorem keepsStep_execAccumulatorRestore {c : Coord} : KeepsStep (execAccumulatorRestore c) :=
  keepsStep_event fun s h => by
    split
    · refine canonical_ite h ?_
      split
      · exact canonical_keepGrants h _
      · exact canonical_loseContext (canonical_ite (canonical_stopLaunch h _) h) _
      · exact canonical_mapCore_mem (canonical_freeGrants h _) _ fun _ => by rfl
    · exact h

/-! ### Supersteps, heat, clock and power -/

theorem keepsStep_execSuperstepRelease {l d : Nat} : KeepsStep (execSuperstepRelease l d) :=
  keepsStep_event fun s h => by
    split
    · exact canonical_ite (canonical_releases h _) h
    · exact h
theorem keepsStep_execClapperColumnRelease {l d : Nat} : KeepsStep (execClapperColumnRelease l d) :=
  keepsStep_event fun s h => by
    split
    · dsimp only
      split
      · exact canonical_ite (canonical_releases (canonical_foldl (fun _ _ hs => canonical_mapCore_mem hs _ fun _ => by rfl) _ h) _) h
      · exact h
    · exact h
theorem keepsStep_execClapperEstimateRefresh : KeepsStep execClapperEstimateRefresh :=
  keepsStep_event fun _ h => canonical_ite (canonical_of_eq h rfl rfl rfl rfl) h
theorem keepsStep_execHeatMapRefresh : KeepsStep execHeatMapRefresh :=
  keepsStep_event fun _ h => canonical_ite (canonical_of_eq h rfl rfl rfl rfl) h
theorem keepsStep_execClockStretch {d : Nat} : KeepsStep (execClockStretch d) := keepsStep_event fun _ h => canonical_mapDie h _ _
theorem keepsStep_execDrowsyEntry {c : Coord} : KeepsStep (execDrowsyEntry c) :=
  keepsStep_event fun _ h => canonical_ite (canonical_mapCore_mem h _ fun _ => by rfl) h
end

section
variable {s : State}

/-! ### Work queues and registers of the host -/

theorem canonical_mapHost (h : Canonical s) (f : HostRegs → HostRegs) : Canonical (mapHost s f) := canonical_host h _
theorem keepsStep_execSubmit {q : BitVec 10} {n : Nat} {bs : List Byte} : KeepsStep (execSubmit q n bs) :=
  keepsStep_hostEvent fun _ h => canonical_ite (canonical_mapQueue (canonical_gPoke h _ _) q _) (canonical_mapQueue h q _)
theorem keepsStep_execQueueConfigWrite {q : BitVec 10} {hi : Bool} {v : Word} : KeepsStep (execQueueConfigWrite q hi v) :=
  keepsStep_hostEvent fun _ h => canonical_ite h (canonical_ite (canonical_mapQueue h q _) (canonical_freeGrants (canonical_mapQueue h q _) _))
theorem keepsStep_execHostRegisterWrite {x : BarAccess} {v : Word} : KeepsStep (execHostRegisterWrite x v) :=
  keepsStep_hostEvent fun _ h => canonical_ite (canonical_mapHost h _) h
theorem keepsStep_execConnectionWrite {n : BitVec 12} {w : Fin 4} {v : Word} : KeepsStep (execConnectionWrite n w v) :=
  keepsStep_hostEvent fun _ h => canonical_of_eq h rfl rfl rfl rfl

/-! ### Device commands -/

theorem keepsStep_devcmd {op : Nat} {v : Word} {f : State → State × Nat} (hf : ∀ s, Canonical s → Canonical (f s).1) :
    KeepsStep (devcmd op v f) :=
  keepsStep_hostEvent fun s h => canonical_ite h (canonical_ite (canonical_mapHost h _) (canonical_mapHost (hf s h) _))
theorem canonical_cmdHalt (v : Word) (h : Canonical s) : Canonical (cmdHalt v s).1 := by
  unfold cmdHalt
  dsimp only
  split
  · exact h
  · split
    · exact canonical_stopSlot h ..
    · exact h
theorem resumeSlot_mem (k : Core) (i : Fin 4) : (resumeSlot k i).mem = k.mem := by
  unfold resumeSlot
  dsimp only
  split <;> simp
theorem canonical_cmdResume (v : Word) (h : Canonical s) : Canonical (cmdResume v s).1 := by
  unfold cmdResume
  split
  · exact h
  · split
    · exact canonical_mapCore_mem h _ fun k => resumeSlot_mem k _
    · exact h
theorem canonical_cmdEndTask (v : Word) (h : Canonical s) : Canonical (cmdEndTask v s).1 := by
  unfold cmdEndTask
  split
  · exact h
  · split
    · exact h
    · dsimp only
      exact canonical_endBody (canonical_failCore h _ _) _ _
theorem canonical_cmdApplyProfile (v : Word) (h : Canonical s) : Canonical (cmdApplyProfile v s).1 := by
  unfold cmdApplyProfile
  dsimp only
  split
  · exact h
  · split
    · exact h
    · exact canonical_applyCore (canonical_applyRow h ..) ..
theorem canonical_abortLaunch (h : Canonical s) (l : Launch) : Canonical (abortLaunch s l) := by
  refine canonical_mapLaunch (canonical_launchServed ?_ l.id) l.id fun _ => rfl
  split
  · exact canonical_ite h (canonical_stopLaunch h l)
  · exact canonical_mapLaunch h l.id fun _ => rfl
  · exact h
theorem canonical_cmdAbortLaunch (v : Word) (h : Canonical s) : Canonical (cmdAbortLaunch v s).1 := by
  unfold cmdAbortLaunch
  split
  · exact h
  · split
    · exact canonical_abortLaunch h _
    · exact h
theorem keepsStep_execDevcmdHalt {v : Word} : KeepsStep (execDevcmdHalt v) := by
  intro s t h e
  unfold execDevcmdHalt at e
  split at e
  · cases e; exact h
  · exact keepsStep_devcmd (fun _ => canonical_cmdHalt v) s t h e
theorem keepsStep_execDevcmdResume {v : Word} : KeepsStep (execDevcmdResume v) := keepsStep_devcmd fun _ => canonical_cmdResume v
theorem keepsStep_execDevcmdEndTask {v : Word} : KeepsStep (execDevcmdEndTask v) := keepsStep_devcmd fun _ => canonical_cmdEndTask v
theorem keepsStep_execDevcmdApplyProfile {v : Word} : KeepsStep (execDevcmdApplyProfile v) :=
  keepsStep_devcmd fun _ => canonical_cmdApplyProfile v
theorem keepsStep_execDevcmdAbortLaunch {v : Word} : KeepsStep (execDevcmdAbortLaunch v) :=
  keepsStep_devcmd fun _ => canonical_cmdAbortLaunch v

/-! ### Memory accesses of the host, and its link -/

theorem keepsStep_execHostMemWrite {x : Nat} {bs : List Byte} : KeepsStep (execHostMemWrite x bs) :=
  keepsStep_hostEvent fun _ h => canonical_ite (canonical_gPoke h _ _) h
theorem keepsStep_execHostMemRead {x n : Nat} : KeepsStep (execHostMemRead x n) :=
  keepsStep_hostEvent fun _ h => canonical_ite (canonical_of_eq h rfl rfl rfl rfl) h
theorem keepsStep_execHostLinkDown : KeepsStep execHostLinkDown := keepsStep_event fun _ h => canonical_of_eq h rfl rfl rfl rfl
theorem keepsStep_execHostLinkTrained : KeepsStep execHostLinkTrained := keepsStep_event fun _ h => canonical_of_eq h rfl rfl rfl rfl

/-! ### Inbound fabric traffic -/

theorem keepsStep_execPortLinkTrained {p : Fin 16} {up : Bool} : KeepsStep (execPortLinkTrained p up) :=
  keepsStep_event fun _ h => canonical_of_eq h rfl rfl rfl rfl
theorem canonical_mapConn (h : Canonical s) (n : BitVec 12) (f : Conn → Conn) : Canonical (mapConn s n f) := h
theorem canonical_refusePeer (h : Canonical s) (n : BitVec 12) : Canonical (refusePeer s n) := h
theorem canonical_hostOut (h : Canonical s) (l : List Output) : Canonical { s with hostOut := l } := h
theorem canonical_inboundDone (h : Canonical s) (n : BitVec 12) (l : List Nat) : Canonical (inboundDone s n l) :=
  canonical_ite (canonical_freeGrants h _) (canonical_mapConn (canonical_freeGrants h _) n _)
theorem canonical_inboundHeld (h : Canonical s) (n : BitVec 12) (l : List Nat) (g : List Grant) : Canonical (inboundHeld s n l g) :=
  canonical_ite (canonical_refusePeer (canonical_inboundDone h n l) n) (canonical_keepGrants (canonical_mapConn h n _) g)
theorem keepsStep_execInboundSend {n : BitVec 12} {bs : List Byte} : KeepsStep (execInboundSend n bs) :=
  keepsStep_event fun s h => by
    extract_lets x c
    have hr : ∀ l, Canonical (refusePeer (inboundDone s n l) n) := fun l => canonical_refusePeer (canonical_inboundDone h n l) n
    refine canonical_ite h ?_
    split
    · exact canonical_inboundHeld h ..
    · exact hr _
    · refine canonical_ite (hr _) (canonical_ite (hr _) ?_)
      split
      next => exact canonical_inboundHeld h ..
      next e =>
        exact canonical_mapCore (canonical_mapConn (canonical_inboundDone (canonical_writeParts _ _ h e) n _) n _) c
          fun _ hk => wf_mailbox hk _ _
theorem keepsStep_execInboundRma {n : BitVec 12} {x : Word} {w : Bool} {bs : List Byte} : KeepsStep (execInboundRma n x w bs) :=
  keepsStep_event fun s h => by
    have hr : ∀ l, Canonical (refusePeer (inboundDone s n l) n) := fun l => canonical_refusePeer (canonical_inboundDone h n l) n
    dsimp only
    refine canonical_ite h (canonical_ite (canonical_ite (hr _) ?_) ?_)
    · split
      next => exact canonical_inboundHeld h ..
      next e => exact canonical_inboundDone (canonical_writeParts _ _ h e) n _
    · split
      · exact canonical_inboundHeld h ..
      · exact hr _
      · exact canonical_inboundDone (canonical_hostOut h _) n _

/-! ### Attestation, bring-up and power -/

theorem keepsStep_execAttestation {l : List Byte} : KeepsStep (execAttestation l) :=
  keepsStep_event fun _ h => canonical_ite (canonical_hostOut h _) h
theorem keepsStep_execFirmwareLoad {i g : List Byte} : KeepsStep (execFirmwareLoad i g) :=
  keepsStep_event fun _ h => canonical_ite (canonical_of_eq h rfl rfl rfl rfl) h
/-- A device without power holds nothing, and the host's memory stays. -/
theorem canonical_coldState (h : Canonical s) (p : Phase) : Canonical (coldState s p) := by
  obtain ⟨_, _, hh, _⟩ := h
  exact ⟨by simp [coldState, State.reset], wf_nil, hh, by simp [coldState, State.reset]⟩
theorem keepsStep_execPowerUp : KeepsStep execPowerUp :=
  keepsStep_event fun _ h => canonical_ite (canonical_of_eq (canonical_coldState h .poweredUp) rfl rfl rfl rfl) h
theorem keepsStep_execPowerDown : KeepsStep execPowerDown := keepsStep_event fun _ h => canonical_coldState h .off
theorem canonical_setTrim (h : Canonical s) (l : List Byte) : Canonical (setTrim s l) :=
  canonical_ite (canonical_of_eq h rfl rfl rfl rfl) h
theorem canonical_readHousekeeping (h : Canonical s) : Canonical (readHousekeeping s) := canonical_ite (canonical_hostOut h _) h
theorem canonical_gatewayCorrected (h : Canonical s) (x : Nat) : Canonical (gatewayCorrected s x) :=
  canonical_ite (canonical_of_eq h rfl rfl rfl rfl) h
end

/-- Every instruction, and every event of the table, keeps the form. -/
theorem keepsStep_exec (i : Instr) : KeepsStep (exec i) := by
  cases i with
  | add _ _ _ | sub _ _ _ | and _ _ _ | or _ _ _ | xor _ _ _ | sll _ _ _ | srl _ _ _ | sra _ _ _ | mul _ _ _ | mulh _ _ _
  | mulhu _ _ _ | mulhsu _ _ _ | div _ _ _ | divu _ _ _ | rem _ _ _ | remu _ _ _ | slt _ _ _ | sltu _ _ _ | min _ _ _
  | max _ _ _ | minu _ _ _ | maxu _ _ _ | andn _ _ _ | orn _ _ _ | rol _ _ _ | ror _ _ _ =>
    exact keepsStep_instr (keepsForm_binop _ _ _ _)
  | addi _ _ _ | andi _ _ _ | ori _ _ _ | xori _ _ _ | slti _ _ _ | sltiu _ _ _ | muli _ _ _ =>
    exact keepsStep_instr keepsForm_immop
  | li _ _ | adh _ _ => exact keepsStep_instr keepsForm_setResult
  | ldB _ _ _ | ldH _ _ _ | ldW _ _ _ | ldD _ _ _ | lduB _ _ _ | lduH _ _ _ | lduW _ _ _ => exact keepsStep_instr keepsForm_loadOp
  | stB _ _ _ | stH _ _ _ | stW _ _ _ | stD _ _ _ => exact keepsStep_instr keepsForm_storeOp
  | brEq _ _ _ | brNe _ _ _ | brLt _ _ _ | brGe _ _ _ | brLtu _ _ _ | brGeu _ _ _ => exact keepsStep_instr keepsForm_branch
  | padJ | padC | padK | padN | padF | padT => exact keepsStep_instr (keepsForm_pure _)
  | vadd _ _ _ _ | vsub _ _ _ _ | vmul _ _ _ _ | vmacc _ _ _ _ | vmin _ _ _ _ | vmax _ _ _ _ | vand _ _ _ _ | vor _ _ _ _
  | vxor _ _ _ _ | vsll _ _ _ _ | vsrl _ _ _ _ | vsra _ _ _ _ | vmulh _ _ _ _ | vmulhu _ _ _ _ | vminu _ _ _ _ | vmaxu _ _ _ _
  | vsadd _ _ _ _ | vsaddu _ _ _ _ | vssub _ _ _ _ | vssubu _ _ _ _ | vfdiv _ _ _ _ | vfnmacc _ _ _ _ | vfmsac _ _ _ _ =>
    exact keepsStep_instr keepsForm_vvv
  | vld _ _ _ | vldff _ _ _ => exact keepsStep_instr (keepsForm_vUnit fun _ _ => keepsForm_vLoad)
  | vst _ _ _ => exact keepsStep_instr (keepsForm_vUnit fun _ _ => keepsForm_vStore)
  | vlds _ _ _ _ => exact keepsStep_instr (keepsForm_vStride fun _ _ => keepsForm_vLoad)
  | vsts _ _ _ _ => exact keepsStep_instr (keepsForm_vStride fun _ _ => keepsForm_vStore)
  | vldx _ _ _ _ => exact keepsStep_instr (keepsForm_vIndexed fun _ _ => keepsForm_vLoad)
  | vstx _ _ _ _ => exact keepsStep_instr (keepsForm_vIndexed fun _ _ => keepsForm_vStore)
  | clz _ _ | ctz _ _ | popc _ _ | rev8 _ _ | sextB _ _ | sextH _ _ | sextW _ _ | zextW _ _ =>
    exact keepsStep_instr (keepsForm_unop _ _ _)
  | slli _ _ _ | srli _ _ _ | srai _ _ _ | rori _ _ _ => exact keepsStep_instr keepsForm_shiftop
  | amoaddW _ _ _ | amoaddD _ _ _ | amoswapW _ _ _ | amoswapD _ _ _ | amoandD _ _ _ | amoorD _ _ _ | amomaxD _ _ _
  | amominD _ _ _ => exact keepsStep_instr keepsForm_amoOp
  | amocasD _ _ _ => exact keepsStep_instr keepsForm_casOp
  | gldB _ _ _ | gldH _ _ _ | gldW _ _ _ | gldD _ _ _ => exact keepsStep_instr keepsForm_gldOp
  | gstB _ _ _ | gstH _ _ _ | gstW _ _ _ | gstD _ _ _ => exact keepsStep_instr keepsForm_gstOp
  | gamoAdd _ _ _ | gamoSwap _ _ _ | gamoAnd _ _ _ | gamoOr _ _ _ | gamoMax _ _ _ | gamoMin _ _ _ =>
    exact keepsStep_instr keepsForm_gamoOp
  | gamoCas _ _ _ => exact keepsStep_instr keepsForm_gcasOp
  | fadd _ _ _ | fsub _ _ _ | fmul _ _ _ | fdiv _ _ _ | fmin _ _ _ | fmax _ _ _ | feq _ _ _ | flt _ _ _ | fle _ _ _ =>
    exact keepsStep_instr keepsForm_fbin
  | fsqrt _ _ | fneg _ _ | fabs _ _ | fclass _ _ | fcvtWS _ _ | fcvtLS _ _ | fcvtSW _ _ | fcvtSL _ _ | fcvtWuS _ _ | fcvtSWu _ _
  | fcvtBfS _ _ | fcvtSBf _ _ | fcvtHS _ _ | fcvtSH _ _ => exact keepsStep_instr keepsForm_fun1
  | vaddVx _ _ _ _ | vsubVx _ _ _ _ | vmulVx _ _ _ _ | vandVx _ _ _ _ | vorVx _ _ _ _ | vxorVx _ _ _ _ | vsllVx _ _ _ _
  | vsrlVx _ _ _ _ | vfaddVf _ _ _ _ | vfsubVf _ _ _ _ | vfmulVf _ _ _ _ | vfmaccVf _ _ _ _ | vfminVf _ _ _ _ | vfmaxVf _ _ _ _ =>
    exact keepsStep_instr keepsForm_vvx
  | vmseq _ _ _ _ | vmsne _ _ _ _ | vmslt _ _ _ _ | vmsltu _ _ _ _ | vmsle _ _ _ _ | vmsleu _ _ _ _ | vmfeq _ _ _ _
  | vmfne _ _ _ _ | vmflt _ _ _ _ | vmfle _ _ _ _ => exact keepsStep_instr keepsForm_vcmp
  | vfsqrt _ _ _ | vfneg _ _ _ | vfabs _ _ _ | vfcvtXF _ _ _ | vfcvtFX _ _ _ => exact keepsStep_instr keepsForm_vv
  | vredsum _ _ _ _ | vredmax _ _ _ _ | vredmin _ _ _ _ | vredand _ _ _ _ | vredor _ _ _ _ | vfredsum _ _ _ _ | vfredmax _ _ _ _
  | vfredmin _ _ _ _ => exact keepsStep_instr keepsForm_vred
  | vmand _ _ _ | vmor _ _ _ | vmxor _ _ _ | vmnot _ _ => exact keepsStep_instr keepsForm_mOp
  | vcvtSat _ _ _ _ | vcvtNsat _ _ _ _ => exact keepsStep_instr keepsForm_vToNarrow
  | vamoOr _ _ _ _ | vamoAnd _ _ _ _ | vamoAdd _ _ _ _ | vamoMax _ _ _ _ | vamoMin _ _ _ _ => exact keepsStep_instr keepsForm_vamo
  | mmaE4m3 _ _ _ | mmaE5m2 _ _ _ | mmaE3m2 _ _ _ | mmaE2m3 _ _ _ | mmaE2m1 _ _ _ | mmaBf16 _ _ _ | mmaF16 _ _ _
  | mmaE4m3e5m2 _ _ _ | mmaE5m2e4m3 _ _ _ | mmaE4m3Mc _ _ _ | mmaE5m2Mc _ _ _ | mmaE3m2Mc _ _ _ | mmaE2m3Mc _ _ _
  | mmaE2m1Mc _ _ _ | mmaBf16Mc _ _ _ | mmaF16Mc _ _ _ | mmaE4m3e5m2Mc _ _ _ | mmaE5m2e4m3Mc _ _ _ =>
    exact keepsStep_instr keepsForm_mma
  | accrdR _ _ _ _ | accrdC _ _ _ _ => exact keepsStep_instr keepsForm_accRead
  | accwrR _ _ _ _ | accwrC _ _ _ _ => exact keepsStep_instr keepsForm_accWrite
  | bkAdd _ _ _ | bkMul _ _ _ | bkFma _ _ _ | bkMax _ _ _ | bkMin _ _ _ | bkScl _ _ _ | bkOr _ _ _ | bkAnd _ _ _ | bkFill _ _ _
  | bkRsum _ _ _ | bkRmax _ _ _ | bkExps _ _ _ => exact keepsStep_instr keepsForm_bkScalar
  | bkAddV _ _ _ | bkMulV _ _ _ | bkFmaV _ _ _ | bkMaxV _ _ _ | bkMinV _ _ _ | bkSclV _ _ _ | bkOrV _ _ _ | bkAndV _ _ _
  | bkFillV _ _ _ => exact keepsStep_instr keepsForm_bkVector
  | bkAddR _ _ _ | bkMulR _ _ _ | bkFmaR _ _ _ | bkMaxR _ _ _ | bkMinR _ _ _ | bkOrR _ _ _ | bkAndR _ _ _ =>
    exact keepsStep_instr keepsForm_bkRange
  | cpy _ _ _ | cpg _ _ _ => exact keepsStep_instr keepsForm_copyIssue
  | fenceCl | fenceDie | fencePkg | fenceSys => exact keepsStep_instr keepsForm_fence
  | pageattrWrite _ => exact keepsStep_csrStep (n := 0x070)
  | envbaseWrite _ => exact keepsStep_csrStep (n := 0x060)
  | frbaseWrite _ => exact keepsStep_csrStep (n := 0x061)
  | mbbaseWrite _ => exact keepsStep_csrStep (n := 0x062)
  | tqbaseWrite _ => exact keepsStep_csrStep (n := 0x050)
  | tqcfgWrite _ => exact keepsStep_csrStep (n := 0x051)
  | gdeadWrite _ => exact keepsStep_csrStep (n := 0x022)
  | fcsrWrite _ => exact keepsStep_csrStep (n := 0x021)
  | adpc _ _ => exact keepsStep_execAdpc
  | brPop _ => exact keepsStep_execBrPop
  | j _ => exact keepsStep_execJ
  | call _ => exact keepsStep_execCall
  | jr _ => exact keepsStep_execJr
  | callr _ => exact keepsStep_execCallr
  | ret _ => exact keepsStep_execRet
  | apply _ => exact keepsStep_execApply
  | wait _ _ _ _ => exact keepsStep_execWait
  | pref _ _ => exact keepsStep_execPref
  | mscfl _ _ => exact keepsStep_execMscfl
  | ffma _ _ _ => exact keepsStep_execFfma
  | vmvVx _ _ _ => exact keepsStep_execVmvVx
  | vmvXs _ _ => exact keepsStep_execVmvXs
  | vmvSx _ _ => exact keepsStep_execVmvSx
  | vid _ _ => exact keepsStep_execVid
  | vfwcvt _ _ _ => exact keepsStep_execVfwcvt
  | vfncvt _ _ _ => exact keepsStep_execVfncvt
  | vslideup _ _ _ _ => exact keepsStep_execVslideup
  | vslidedn _ _ _ _ => exact keepsStep_execVslidedn
  | vrgather _ _ _ _ => exact keepsStep_execVrgather
  | vcompress _ _ _ => exact keepsStep_execVcompress
  | vmerge _ _ _ _ => exact keepsStep_execVmerge
  | vcpop _ _ _ => exact keepsStep_execVcpop
  | vfirst _ _ _ => exact keepsStep_execVfirst
  | setvl _ _ _ => exact keepsStep_execSetvl
  | setvlr _ _ _ => exact keepsStep_execSetvlr
  | vcvtW _ _ _ _ => exact keepsStep_execVcvtW
  | vpack _ _ _ _ => exact keepsStep_execVpack
  | vunpk _ _ _ _ => exact keepsStep_execVunpk
  | ago _ => exact keepsStep_execAgo
  | aend => exact keepsStep_execAend
  | movq _ _ _ => exact keepsStep_execMovq
  | qlevel _ _ => exact keepsStep_execQlevel
  | pcfg _ _ => exact keepsStep_execPcfg
  | msgPut _ _ _ => exact keepsStep_execMsgPut
  | msgGet _ _ _ => exact keepsStep_execMsgGet
  | msgAmo _ _ _ => exact keepsStep_execMsgAmo
  | msgSig _ _ => exact keepsStep_execMsgSig
  | task _ _ => exact keepsStep_execTask
  | tret => exact keepsStep_execTret
  | tsusp _ => exact keepsStep_execTsusp
  | tqcfg _ _ => exact keepsStep_execTqcfg
  | tqdepth _ => exact keepsStep_execTqdepth
  | capt _ _ _ => exact keepsStep_execCapt
  | captRef _ _ => exact keepsStep_execCaptRef
  | kdup _ _ => exact keepsStep_execKdup
  | kdrop _ => exact keepsStep_execKdrop
  | kld _ _ _ => exact keepsStep_execKld
  | kst _ _ _ => exact keepsStep_execKst
  | frame _ _ => exact keepsStep_execFrame
  | unframe _ => exact keepsStep_execUnframe
  | mmaa => exact keepsStep_execMmaa
  | scacc _ _ => exact keepsStep_execScacc
  | accz => exact keepsStep_execAccz
  | accswap => exact keepsStep_execAccswap
  | acfg _ => exact keepsStep_execAcfg
  | accst _ _ _ => exact keepsStep_execAccst
  | bkCvt _ _ => exact keepsStep_execBkCvt
  | cpwait _ _ => exact keepsStep_execCpwait
  | cpstat _ _ => exact keepsStep_execCpstat
  | fenceCore => exact keepsStep_execFenceCore
  | barInit _ _ => exact keepsStep_execBarInit
  | barArr _ _ => exact keepsStep_execBarArr
  | barExp _ _ => exact keepsStep_execBarExp
  | barWait _ _ => exact keepsStep_execBarWait
  | sstep => exact keepsStep_execSstep
  | srd _ _ => exact keepsStep_execSrd
  | swr _ _ => exact keepsStep_execSwr
  | eret => exact keepsStep_execEret
  | trap _ => exact keepsStep_execTrap
  | brk => exact keepsStep_execBrk
  | halt => exact keepsStep_execHalt
  | fenceI => exact keepsStep_execFenceI
  | wqry _ _ => exact keepsStep_execWqry
  | widF _ _ _ => exact keepsStep_execWidF
  | nearDispatch _ _ => exact keepsStep_execNearDispatch
  | slotTakesWork _ _ => exact keepsStep_execSlotTakesWork
  | stealRequest _ _ => exact keepsStep_execStealRequest
  | steal _ _ => exact keepsStep_execSteal
  | bufferDrain _ _ => exact keepsStep_execBufferDrain
  | deferredLoadFaultReport _ _ => exact keepsStep_execDeferredLoadFaultReport
  | globalLoadData _ _ => exact keepsStep_execGlobalLoadData
  | globalWriteAck _ => exact keepsStep_execGlobalWriteAck
  | globalAccess _ => exact keepsStep_execGlobalAccess
  | clusterWindowAccess _ => exact keepsStep_execClusterWindowAccess
  | portWord _ => exact keepsStep_execPortWord
  | put _ => exact keepsStep_execPut
  | getRequest _ => exact keepsStep_execGetRequest
  | getData _ => exact keepsStep_execGetData
  | atomicRequest _ => exact keepsStep_execAtomicRequest
  | atomicReply _ => exact keepsStep_execAtomicReply
  | signal _ => exact keepsStep_execSignal
  | acknowledgment _ => exact keepsStep_execAcknowledgment
  | taskRecordArrival _ => exact keepsStep_execTaskRecordArrival
  | closureOperation _ => exact keepsStep_execClosureOperation
  | workQuery _ => exact keepsStep_execWorkQuery
  | workAnswer _ => exact keepsStep_execWorkAnswer
  | wqryRecordEnqueue _ => exact keepsStep_execWqryRecordEnqueue
  | slateStealControl _ => exact keepsStep_execSlateStealControl
  | lossNotice _ _ => exact keepsStep_execLossNotice
  | postedTimeout _ _ _ => exact keepsStep_execPostedTimeout
  | mailboxAppend _ => exact keepsStep_execMailboxAppend
  | bankLineUpdate _ _ => exact keepsStep_execBankLineUpdate
  | bankCommandRetire _ => exact keepsStep_execBankCommandRetire
  | vamoRetire _ => exact keepsStep_execVamoRetire
  | matrixOpRetire _ => exact keepsStep_execMatrixOpRetire
  | mcHoldExpiry _ _ => exact keepsStep_execMcHoldExpiry
  | copyTransferComplete _ _ => exact keepsStep_execCopyTransferComplete
  | completionRecordEnqueue _ _ => exact keepsStep_execCompletionRecordEnqueue
  | accumulatorRestore _ => exact keepsStep_execAccumulatorRestore
  | preempt _ => exact keepsStep_execPreempt
  | resume _ => exact keepsStep_execResume
  | launchRecordCheck _ => exact keepsStep_execLaunchRecordCheck
  | launchStart _ => exact keepsStep_execLaunchStart
  | reelForward _ _ _ => exact keepsStep_execReelForward
  | launchComplete _ => exact keepsStep_execLaunchComplete
  | superstepRelease _ _ => exact keepsStep_execSuperstepRelease
  | clapperColumnRelease _ _ => exact keepsStep_execClapperColumnRelease
  | clapperEstimateRefresh => exact keepsStep_execClapperEstimateRefresh
  | heatMapRefresh => exact keepsStep_execHeatMapRefresh
  | patrolScrub _ _ => exact keepsStep_execPatrolScrub
  | parityError _ _ _ => exact keepsStep_execParityError
  | clockStretch _ => exact keepsStep_execClockStretch
  | drowsyEntry _ => exact keepsStep_execDrowsyEntry
  | submit _ _ _ => exact keepsStep_execSubmit
  | queueConfigWrite _ _ _ => exact keepsStep_execQueueConfigWrite
  | shootDown _ => exact keepsStep_execShootDown
  | stationShootDownAck _ => exact keepsStep_execStationShootDownAck
  | connectionWrite _ _ _ => exact keepsStep_execConnectionWrite
  | devcmdHalt _ => exact keepsStep_execDevcmdHalt
  | devcmdResume _ => exact keepsStep_execDevcmdResume
  | devcmdEndTask _ => exact keepsStep_execDevcmdEndTask
  | devcmdApplyProfile _ => exact keepsStep_execDevcmdApplyProfile
  | devcmdAbortLaunch _ => exact keepsStep_execDevcmdAbortLaunch
  | hostRegisterWrite _ _ => exact keepsStep_execHostRegisterWrite
  | hostMemWrite _ _ => exact keepsStep_execHostMemWrite
  | hostMemRead _ _ => exact keepsStep_execHostMemRead
  | hostLinkDown => exact keepsStep_execHostLinkDown
  | hostLinkHoldTimeout _ => exact keepsStep_execHostLinkHoldTimeout
  | hostLinkTrained => exact keepsStep_execHostLinkTrained
  | inboundSend _ _ => exact keepsStep_execInboundSend
  | inboundRma _ _ _ _ => exact keepsStep_execInboundRma
  | attestation _ => exact keepsStep_execAttestation
  | firmwareLoad _ _ => exact keepsStep_execFirmwareLoad
  | powerUp => exact keepsStep_execPowerUp
  | powerDown => exact keepsStep_execPowerDown
  | decodeTrap _ _ _ => exact keepsStep_execDecodeTrap
  | clusterWindowAnswer _ => exact keepsStep_execClusterWindowAnswer
  | closureAnswer _ => exact keepsStep_execClosureAnswer
  | copyPiece _ _ => exact keepsStep_execCopyPiece
  | anchorViewAccess _ => exact keepsStep_execAnchorViewAccess
  | portLinkTrained _ _ => exact keepsStep_execPortLinkTrained

/-! ### The move of a unit -/

section
variable {s : State}

theorem canonical_readied (h : Canonical s) (i : Instr) : Canonical (readied i s) := by
  have h1 : Canonical (if (passesStores i s.ir && !atHome s) || (threadOf s).sbuf.isEmpty then s else drainStores s s.cur) :=
    canonical_ite h (canonical_drainStores h _)
  exact canonical_ite h1 (canonical_mapCore_mem h1 _ fun _ => mapThread_mem ..)
theorem keepsStep_perform (late : Bool) (i : Instr) : KeepsStep (perform late i) := by
  intro s t h e
  unfold perform at e
  dsimp only at e
  split at e
  · exact canonical_instr (keepsForm_storeBy keepsForm_storeLater) h e
  · exact canonical_instr (keepsForm_storeBy keepsForm_storeLater) h e
  · exact canonical_instr (keepsForm_storeBy keepsForm_storeLater) h e
  · exact canonical_instr (keepsForm_storeBy keepsForm_storeLater) h e
  · exact canonical_instr (keepsForm_vUnit fun _ _ => keepsForm_vStore) h e
  · exact canonical_instr (keepsForm_vStride fun _ _ => keepsForm_vStore) h e
  · exact canonical_instr (keepsForm_vIndexed fun _ _ => keepsForm_vStore) h e
  · exact keepsStep_exec _ _ _ (canonical_readied h _) e
theorem canonical_ir (h : Canonical s) (l : List Half) : Canonical { s with ir := l } := h
theorem keepsStep_fetchAndRun (late : Bool) : KeepsStep (fetchAndRun late) := by
  intro s t h e
  unfold fetchAndRun at e
  dsimp only at e
  split at e
  · exact keepsStep_perform _ _ _ _ (canonical_ir h _) e
  · cases e
    exact canonical_onStop (canonical_ir h _) _
/-- A slot stops whole, or the moving stream waits: in both cases the form of the two states is kept. -/
theorem canonical_stopsWhole {t : State} {o : Out} (h : Canonical s) (ho : ∀ u, o = .next u → Canonical u)
    (e : stopsWhole s o = .next t) : Canonical t := by
  cases o with
  | next u =>
    unfold stopsWhole at e
    dsimp only at e
    split at e <;> cases e
    · exact canonical_markStalled h _
    · exact ho _ rfl
  | fault f => cases e
  | refused r => cases e
theorem keepsStep_runUnit (late : Bool) : KeepsStep (runUnit late) := by
  intro s t h e
  unfold runUnit at e
  split at e
  · cases e
  · split at e
    · cases e
      exact canonical_takeHeld h ..
    · split at e
      · cases e; exact h
      · split at e
        · cases e
          exact canonical_ite (canonical_markStalled h _) (canonical_raiseDue h _)
        · exact canonical_stopsWhole h (fun u => keepsStep_fetchAndRun late s u h) e

/-! ### The issue ports -/

theorem canonical_retried (h : Canonical s) (a : Agent) : Canonical (retried s a) := by
  have h1 : Canonical { s with cur := a, ir := [] } := h
  exact canonical_ite (canonical_markStalled h1 _) h1
theorem canonical_portChose (h : Canonical s) (a : Agent) : Canonical (portChose s a) := by
  unfold portChose
  split
  · refine canonical_mapCore_mem h _ fun _ => ?_
    split <;> rfl
  · exact h
theorem keepsStep_runTurnOf (late : Bool) (a : Agent) : KeepsStep fun s => runTurnOf late s a := by
  intro s t h e
  have hr := fun u => keepsStep_runUnit late (retried s a) u (canonical_retried h a)
  dsimp only [runTurnOf] at e
  generalize runUnit late (retried s a) = o at hr e
  cases o with
  | next u =>
    cases e
    exact canonical_ite (canonical_portChose (hr u rfl) a) (hr u rfl)
  | fault f => cases e
  | refused r => cases e
theorem canonical_issueFirst (c : Coord) (x : Side) (l : List (Fin 4)) (h : Canonical s) : Canonical (issueFirst c x l s) := by
  induction l generalizing s with
  | nil => exact h
  | cons i r ih =>
    have hr := fun u => keepsStep_runUnit false (retried s ⟨c, .stream i x⟩) u (canonical_retried h _)
    unfold issueFirst
    dsimp only
    refine canonical_ite (ih h) ?_
    split
    next u e => exact canonical_ite (ih (hr u e)) (canonical_portChose (hr u e) _)
    next => exact h

/-! ### Moves without a row of the opcode table -/

theorem canonical_countLaunch (h : Canonical s) (c : Coord) : Canonical (countLaunch s c) := by
  unfold countLaunch
  dsimp only
  split
  · exact h
  · exact canonical_mapLaunch h _ fun _ => rfl
theorem canonical_coreCycle (h : Canonical s) (c : Coord) : Canonical (coreCycle s c) := by
  refine canonical_ite h (canonical_countLaunch (canonical_mapCore_mem h _ fun k => ?_) c)
  refine (foldl_mem (fun k i => ?_) _ _).trans ?_
  · dsimp only
    split <;> rfl
  · rfl
theorem canonical_prefetch (h : Canonical s) (a : Agent) (x : Nat) : Canonical (prefetch s a x) :=
  canonical_ite (canonical_mapCore_mem h _ fun _ => mapThread_mem ..) h
theorem canonical_softError (h : Canonical s) (c : Coord) (x : Nat) (b : Bool) : Canonical (softError s c x b) :=
  canonical_ite h (canonical_ite (canonical_mapCore_mem h _ fun _ => by rfl) (canonical_mapCore_mem h _ fun _ => by rfl))
theorem canonical_storeDrain (h : Canonical s) (a : Agent) : Canonical (storeDrain s a) := by
  unfold storeDrain
  split
  · exact h
  · exact canonical_writeBytes (canonical_mapCore_mem h _ fun _ => mapThread_mem ..) _ _ _ _
theorem canonical_readAhead (h : Canonical s) (a : Agent) (x n : Nat) : Canonical (readAhead s a x n) :=
  canonical_ite (canonical_mapCore_mem h _ fun _ => mapThread_mem ..) h
theorem canonical_malformedHead (h : Canonical s) (x : BitVec 128) : Canonical (malformedHead s x) :=
  canonical_ite h (canonical_logFault h ..)
theorem keepsStep_next {f : State → State} (hf : ∀ s, Canonical s → Canonical (f s)) : KeepsStep fun s => .next (f s) := keepsStep_event hf
/-- Every move keeps the form. -/
theorem keepsStep_runTurn (m : Turn) : KeepsStep fun s => runTurn s m := by
  cases m with
  | instr a => exact keepsStep_runTurnOf false a
  | issue c x => exact keepsStep_next fun _ h => canonical_issueFirst c x _ h
  | delayed a => exact keepsStep_runTurnOf true a
  | storeDrain a => exact keepsStep_next fun _ h => canonical_storeDrain h a
  | readAhead a x n => exact keepsStep_next fun _ h => canonical_readAhead h a x n
  | event i =>
    intro s t h e
    dsimp only [runTurn] at e
    split at e
    · exact keepsStep_exec i s t h e
    · cases e; exact h
  | tick n => exact keepsStep_next fun _ h => canonical_of_eq h rfl rfl rfl rfl
  | cycle c => exact keepsStep_next fun _ h => canonical_coreCycle h c
  | prefetch a x => exact keepsStep_next fun _ h => canonical_prefetch h a x
  | engineRead c i l => exact keepsStep_next fun _ h => canonical_engineRead h c i l
  | softError c x b => exact keepsStep_next fun _ h => canonical_softError h c x b
  | portSend c i p => exact keepsStep_next fun _ h => canonical_ite (canonical_portSend h c i p) h
  | poisonGlobal x => exact keepsStep_next fun _ h => canonical_ite (canonical_of_eq h rfl rfl rfl rfl) h
  | stationDrop n => exact keepsStep_next fun _ h => canonical_of_eq h rfl rfl rfl rfl
  | cacheFill l => exact keepsStep_next fun _ h => canonical_ite (canonical_of_eq h rfl rfl rfl rfl) h
  | cacheEvict l => exact keepsStep_next fun _ h => canonical_of_eq h rfl rfl rfl rfl
  | malformedHead x => exact keepsStep_next fun _ h => canonical_malformedHead h x
  | fabricFail c i x => exact keepsStep_next fun _ h => canonical_fabricFail h x
  | gatewayCorrected x => exact keepsStep_next fun _ h => canonical_gatewayCorrected h x
  | copyHoldTimeout c i => exact keepsStep_next fun _ h => canonical_copyHoldTimeout h
  | peerAck c i => exact keepsStep_next fun _ h => canonical_peerAck h
  | trim l => exact keepsStep_next fun _ h => canonical_setTrim h l
  | readHousekeeping => exact keepsStep_next fun _ h => canonical_readHousekeeping h
theorem canonical_agenda (h : Canonical s) (l : List Turn) : Canonical { s with agenda := l } := h
theorem keepsStep_advanceAll : KeepsStep advanceAll := by
  intro s t h e
  unfold advanceAll at e
  split at e
  · exact keepsStep_runTurnOf false s.cur s t h e
  · exact keepsStep_runTurn _ _ t (canonical_agenda h _) e
end

/-! ### The obligation -/

/-- Settles O57: a step is a move of the agenda, or of the unit that moved last; a unit's move is an instruction or a trap, and
every other move is an event or a change of its own, each of which keeps the form. -/
theorem stepKeepsCanonical : Obligations.StepKeepsCanonical := by
  unfold Obligations.StepKeepsCanonical
  exact keepsStep_advanceAll

end Sys2Proof.Machine

/-! # Every result is the exact value rounded once (O12, O13)

A finite code is a sign and a magnitude, and larger magnitudes have larger values. Rounding at a place is rounding the scaled magnitude
to an integer (`RoundsToInt`). Between a magnitude and any value of the format lies a multiple of the place at which it is rounded, so
that the integer's choice is the format's. What is rounded is exact, or known to within a unit far below that place (`Approx`). -/
namespace Sys2Proof.Machine
open Sys2Proof.Claim

/-! ### Codes and their values (R8) -/

/-- The sign of a value as a factor. -/
noncomputable def signR (neg : Bool) : ℝ := if neg then -1 else 1
@[simp] theorem signR_true : signR true = -1 := rfl
@[simp] theorem signR_false : signR false = 1 := rfl
@[simp] theorem abs_signR (neg : Bool) : |signR neg| = 1 := by cases neg <;> simp
theorem signR_mul_self (neg : Bool) : signR neg * signR neg = 1 := by cases neg <;> simp
/-- Exponent and mantissa of a code, as one number. -/
def codeMag (f : Fmt) (c : Nat) : Nat := c % 2 ^ (fmtWidth f - 1)
/-- The sign bit of a code. -/
def codeNeg (f : Fmt) (c : Nat) : Bool := c.testBit (fmtWidth f - 1)
/-- The significand that a magnitude stands for (R8), were its exponent field unbounded. -/
def magSig (f : Fmt) (b : Nat) : Nat := if b < 2 ^ manBits f then b else b % 2 ^ manBits f + 2 ^ manBits f
/-- The power of two of its last place; subnormals have that of the smallest normal. -/
def magExp (f : Fmt) (b : Nat) : Int := emin f - manBits f + ((b / 2 ^ manBits f - 1 : Nat) : Int)
/-- The value of a magnitude. -/
noncomputable def magReal (f : Fmt) (b : Nat) : ℝ := (magSig f b : ℝ) * 2 ^ magExp f b

theorem manBits_pos (f : Fmt) : 0 < manBits f := by cases f <;> decide
theorem manBits_lt_width (f : Fmt) : manBits f < fmtWidth f - 1 := by cases f <;> decide
theorem maxCode_lt (f : Fmt) : maxCode f < 2 ^ (fmtWidth f - 1) := by cases f <;> decide

theorem natBits_exponent (f : Fmt) (c : Nat) : natBits c (fmtWidth f - 2) (manBits f) = codeMag f c / 2 ^ manBits f := by
  cases f <;> simp only [natBits, codeMag, fmtWidth, expBits, manBits] <;> omega
theorem mod_mantissa (f : Fmt) (c : Nat) : c % 2 ^ manBits f = codeMag f c % 2 ^ manBits f :=
  (Nat.mod_mod_of_dvd c (pow_dvd_pow 2 (manBits_lt_width f).le)).symm
/-- R8: the codes above the largest finite one are those of infinities and NaNs. -/
theorem special_iff (f : Fmt) (c : Nat) :
    (ieee f = true ∧ codeMag f c / 2 ^ manBits f = 2 ^ expBits f - 1) ∨ (f = .e4m3 ∧ c % 128 = 0x7F) ↔ maxCode f < codeMag f c := by
  cases f <;> simp [ieee, maxCode, codeMag, fmtWidth, expBits, manBits] <;> omega

/-- R8: a code up to the largest finite one decodes to its sign, significand and exponent. -/
theorem decodeF_finite {f : Fmt} {c : Nat} (h : codeMag f c ≤ maxCode f) :
    decodeF f c = .num (codeNeg f c) (magSig f (codeMag f c)) (magExp f (codeMag f c)) := by
  obtain ⟨hi, he⟩ := not_or.mp fun hs => absurd ((special_iff f c).mp hs) (not_lt.mpr h)
  have hz : codeMag f c / 2 ^ manBits f = 0 ↔ codeMag f c < 2 ^ manBits f := Nat.div_eq_zero_iff_lt (Nat.two_pow_pos _)
  unfold decodeF
  simp only [natBits_exponent, mod_mantissa f c, Bool.and_eq_true, beq_iff_eq, if_neg hi, if_neg he, hz]
  by_cases hb : codeMag f c < 2 ^ manBits f
  · simp [codeNeg, magSig, magExp, hb, hz.mpr hb, Nat.mod_eq_of_lt]
  · have := mt hz.mp hb
    simp only [codeNeg, magSig, magExp, hb, if_false, emin, FVal.num.injEq, true_and]
    generalize codeMag f c / 2 ^ manBits f = E at this ⊢
    omega
theorem realOf_decodeF_of_gt {f : Fmt} {c : Nat} (h : maxCode f < codeMag f c) : realOf (decodeF f c) = none := by
  unfold decodeF
  simp only [natBits_exponent, Bool.and_eq_true, beq_iff_eq]
  rcases (special_iff f c).mpr h with hs | hs
  · rw [if_pos hs]; split <;> rfl
  · rw [if_pos hs, if_neg (by simp [hs.1, ieee])]; rfl
theorem codeReal_finite {f : Fmt} {c : Nat} (h : codeMag f c ≤ maxCode f) :
    codeReal f c = some (signR (codeNeg f c) * magReal f (codeMag f c)) := by
  rw [codeReal, decodeF_finite h]
  simp [realOf, signR, magReal]
/-- Only the codes up to the largest finite one have a real value. -/
theorem codeReal_eq_some {f : Fmt} {c : Nat} {x : ℝ} :
    codeReal f c = some x ↔ codeMag f c ≤ maxCode f ∧ signR (codeNeg f c) * magReal f (codeMag f c) = x := by
  by_cases h : codeMag f c ≤ maxCode f
  · simp [codeReal_finite h, h]
  · simp [codeReal, realOf_decodeF_of_gt (not_le.mp h), h]

/-! ### Larger magnitudes, larger values -/

/-- The value of a magnitude by its exponent field and its mantissa (R8). -/
theorem magReal_parts (f : Fmt) (E μ : Nat) (h : μ < 2 ^ manBits f) : magReal f (E * 2 ^ manBits f + μ) =
    ((if E = 0 then μ else μ + 2 ^ manBits f : Nat) : ℝ) * 2 ^ (emin f - manBits f + ((E - 1 : Nat) : Int)) := by
  have hP : 0 < 2 ^ manBits f := Nat.two_pow_pos _
  have hdiv : (E * 2 ^ manBits f + μ) / 2 ^ manBits f = E := by
    rw [mul_comm, Nat.mul_add_div hP, Nat.div_eq_of_lt h, add_zero]
  have hmod : (E * 2 ^ manBits f + μ) % 2 ^ manBits f = μ := by rw [mul_comm, Nat.mul_add_mod, Nat.mod_eq_of_lt h]
  unfold magReal magSig magExp
  rw [hdiv, hmod]
  rcases Nat.eq_zero_or_pos E with rfl | hE
  · simp [h]
  · rw [if_neg hE.ne', if_neg (by nlinarith)]
theorem magReal_lt_succ (f : Fmt) (b : Nat) : magReal f b < magReal f (b + 1) := by
  have hP : 0 < 2 ^ manBits f := Nat.two_pow_pos _
  have hlt := Nat.mod_lt b hP
  rw [← Nat.div_add_mod' b (2 ^ manBits f), add_assoc]
  generalize b / 2 ^ manBits f = E, b % 2 ^ manBits f = μ at hlt ⊢
  by_cases hw : μ + 1 < 2 ^ manBits f
  · rw [magReal_parts f E μ hlt, magReal_parts f E _ hw]
    gcongr
    split <;> omega
  · -- the next binade
    rw [show E * 2 ^ manBits f + (μ + 1) = (E + 1) * 2 ^ manBits f + 0 by rw [add_mul]; omega, magReal_parts f E μ hlt,
      magReal_parts f (E + 1) 0 hP, if_neg E.succ_ne_zero, zero_add, Nat.add_sub_cancel]
    rcases Nat.eq_zero_or_pos E with rfl | hE
    · simp only [if_true, Nat.zero_sub]; gcongr
    · rw [if_neg hE.ne', show ((E : Nat) : Int) = ((E - 1 : Nat) : Int) + 1 by omega, ← add_assoc, zpow_add_one₀ two_ne_zero,
        mul_comm _ (2 : ℝ), ← mul_assoc]
      gcongr
      exact_mod_cast (by omega : μ + 2 ^ manBits f < 2 ^ manBits f * 2)
theorem strictMono_magReal (f : Fmt) : StrictMono (magReal f) := strictMono_nat_of_lt_succ (magReal_lt_succ f)

/-! ### The code of a significand and a power of two -/

/-- What packF gives without the sign. -/
def packMag (f : Fmt) (k : Nat) (q : Int) : Nat :=
  if k < 2 ^ manBits f then k else (q - (emin f - manBits f)).toNat * 2 ^ manBits f + k
theorem packF_eq (f : Fmt) (neg : Bool) (k : Nat) (q : Int) : packF f neg k q = signCode f neg + packMag f k q := rfl
theorem codeMag_sign_add (f : Fmt) (neg : Bool) {b : Nat} (h : b < 2 ^ (fmtWidth f - 1)) : codeMag f (signCode f neg + b) = b := by
  cases neg <;> simp [codeMag, signCode, Nat.mod_eq_of_lt h]
theorem codeNeg_sign_add (f : Fmt) (neg : Bool) {b : Nat} (h : b < 2 ^ (fmtWidth f - 1)) : codeNeg f (signCode f neg + b) = neg := by
  cases neg <;> simp [codeNeg, signCode, Nat.testBit_two_pow_add_eq, Nat.testBit_lt_two_pow h]
theorem codeReal_sign_add {f : Fmt} (neg : Bool) {b : Nat} (h : b ≤ maxCode f) :
    codeReal f (signCode f neg + b) = some (signR neg * magReal f b) := by
  have hb := h.trans_lt (maxCode_lt f)
  refine codeReal_eq_some.mpr ⟨?_, ?_⟩
  · rwa [codeMag_sign_add f neg hb]
  · rw [codeMag_sign_add f neg hb, codeNeg_sign_add f neg hb]
/-- A code is its sign and its magnitude. -/
theorem sign_add_codeMag {f : Fmt} {c : Nat} (h : c < 2 ^ fmtWidth f) : signCode f (codeNeg f c) + codeMag f c = c := by
  have hw : 2 ^ fmtWidth f = 2 ^ (fmtWidth f - 1) * 2 := by
    rw [← pow_succ, Nat.sub_add_cancel (Nat.one_le_of_lt (manBits_lt_width f) |>.trans (Nat.sub_le ..))]
  have hd := Nat.div_add_mod c (2 ^ (fmtWidth f - 1))
  have hq : c / 2 ^ (fmtWidth f - 1) < 2 := Nat.div_lt_of_lt_mul (hw ▸ h)
  unfold codeNeg codeMag signCode
  rw [Nat.testBit_eq_decide_div_mod_eq]
  interval_cases c / 2 ^ (fmtWidth f - 1) <;> simp at hd ⊢ <;> omega
/-- A significand and its power of two are the value of the magnitude packed from them; 2^(manBits + 1) carries into the exponent. -/
theorem magReal_packMag {f : Fmt} {k : Nat} {q : Int} (hk : k ≤ 2 ^ (manBits f + 1)) (hq : emin f - manBits f ≤ q)
    (hsub : k < 2 ^ manBits f → q = emin f - manBits f) : magReal f (packMag f k q) = k * 2 ^ q := by
  obtain ⟨n, rfl⟩ : ∃ n : Nat, q = emin f - manBits f + n := ⟨(q - (emin f - manBits f)).toNat, by omega⟩
  rw [packMag, show (emin f - manBits f + n - (emin f - manBits f) : Int).toNat = n by omega]
  rcases lt_trichotomy k (2 ^ (manBits f + 1)) with hlt | rfl | hgt
  · by_cases hs : k < 2 ^ manBits f
    · rw [if_pos hs, hsub hs]
      simpa using magReal_parts f 0 k hs
    · rw [if_neg hs, show n * 2 ^ manBits f + k = (n + 1) * 2 ^ manBits f + (k - 2 ^ manBits f) by rw [add_mul]; omega,
        magReal_parts f (n + 1) _ (by rw [pow_succ] at hlt; omega), if_neg n.succ_ne_zero, Nat.sub_add_cancel (by omega),
        Nat.add_sub_cancel]
  · rw [if_neg (by rw [pow_succ]; have := Nat.two_pow_pos (manBits f); omega),
      show n * 2 ^ manBits f + 2 ^ (manBits f + 1) = (n + 2) * 2 ^ manBits f + 0 by rw [pow_succ]; ring,
      magReal_parts f (n + 2) 0 (Nat.two_pow_pos _), if_neg (by omega), show n + 2 - 1 = n + 1 by omega]
    push_cast
    rw [← add_assoc, zpow_add_one₀ two_ne_zero, pow_succ]
    ring
  · omega
/-- The parity of a packed code is that of its significand. -/
theorem packF_mod_two (f : Fmt) (neg : Bool) (k : Nat) (q : Int) : packF f neg k q % 2 = k % 2 := by
  have hs : 2 ∣ signCode f neg := by
    unfold signCode; split
    · exact dvd_pow_self 2 (by have := manBits_lt_width f; omega)
    · exact dvd_zero 2
  have hp : 2 ∣ 2 ^ manBits f := dvd_pow_self 2 (manBits_pos f).ne'
  rw [packF_eq, packMag]
  split <;> have := hp.mul_left (q - (emin f - manBits f)).toNat <;> omega

/-! ### Rounding to an integer -/

/-- `k` is the magnitude `u` rounded to an integer in the mode `rm`, for a value of the sign `neg` (R14). -/
def RoundsToInt (rm : Rm) (neg : Bool) (u : ℝ) (k : Int) : Prop :=
  match rm, neg with
  | .rne, _ => ∀ j : Int, |k - u| ≤ |j - u| ∧ (|k - u| = |j - u| → j ≠ k → k % 2 = 0)
  | .ru, false | .rd, true => u ≤ k ∧ ∀ j : Int, u ≤ j → k ≤ j
  | .rz, _ | .ru, true | .rd, false => k ≤ u ∧ ∀ j : Int, j ≤ u → j ≤ k

theorem roundsToInt_self (rm : Rm) (neg : Bool) (k : Int) : RoundsToInt rm neg k k := by
  have hup : (k : ℝ) ≤ k ∧ ∀ j : Int, (k : ℝ) ≤ j → k ≤ j := ⟨le_rfl, fun j h => by exact_mod_cast h⟩
  have hdown : (k : ℝ) ≤ k ∧ ∀ j : Int, (j : ℝ) ≤ k → j ≤ k := ⟨le_rfl, fun j h => by exact_mod_cast h⟩
  match rm, neg with
  | .rne, _ =>
    refine fun j => ⟨by simp, fun h hj => absurd ?_ hj⟩
    rw [sub_self, abs_zero, eq_comm, abs_eq_zero, sub_eq_zero] at h
    exact_mod_cast h
  | .ru, false | .rd, true => exact hup
  | .rz, _ | .ru, true | .rd, false => exact hdown
/-- Below an integer, rounding stays at or below it. -/
theorem RoundsToInt.le {rm : Rm} {neg : Bool} {u : ℝ} {k j : Int} (h : RoundsToInt rm neg u k) (hj : u ≤ j) : k ≤ j := by
  match rm, neg with
  | .rne, _ =>
    by_contra hlt
    have hlt' : (j : ℝ) < k := by exact_mod_cast not_le.mp hlt
    have := (h j).1
    rw [abs_of_nonneg (by linarith), abs_of_nonneg (by linarith)] at this
    linarith
  | .ru, false | .rd, true => exact h.2 j hj
  | .rz, _ | .ru, true | .rd, false => exact_mod_cast h.1.trans hj
/-- Above an integer, rounding stays at or above it. -/
theorem RoundsToInt.ge {rm : Rm} {neg : Bool} {u : ℝ} {k j : Int} (h : RoundsToInt rm neg u k) (hj : j ≤ u) : j ≤ k := by
  match rm, neg with
  | .rne, _ =>
    by_contra hlt
    have hlt' : (k : ℝ) < j := by exact_mod_cast not_le.mp hlt
    have := (h j).1
    rw [abs_of_nonpos (by linarith), abs_of_nonpos (by linarith)] at this
    linarith
  | .ru, false | .rd, true => exact_mod_cast hj.trans h.1
  | .rz, _ | .ru, true | .rd, false => exact h.2 j hj
/-- Nearest: the distance is at most a half, and of two equally near integers it is the even one. -/
theorem nearest_of_half {u : ℝ} {k : Int} (h : |k - u| ≤ 1 / 2) (he : |k - u| = 1 / 2 → k % 2 = 0) (j : Int) :
    |k - u| ≤ |j - u| ∧ (|k - u| = |j - u| → j ≠ k → k % 2 = 0) := by
  rcases eq_or_ne j k with rfl | hj
  · simp
  · have hd : (1 : ℝ) ≤ |(j : ℝ) - k| := by exact_mod_cast Int.one_le_abs (sub_ne_zero.mpr hj)
    have ht : |(j : ℝ) - k| ≤ |j - u| + |k - u| := by
      have := abs_sub_le (j : ℝ) u k
      rwa [abs_sub_comm u] at this
    exact ⟨by linarith, fun e _ => he (by linarith)⟩

section
variable {d rem sh : Nat} {sticky : Bool} {ε : ℝ} {neg : Bool}

theorem nearest_floor {φ : ℝ} (h0 : 0 ≤ φ) (h : ¬(1 / 2 < φ ∨ φ = 1 / 2 ∧ d % 2 = 1)) : RoundsToInt .rne neg (d + φ) (d : Int) := by
  obtain ⟨hle, hodd⟩ := not_or.mp h
  have habs : |((d : Int) : ℝ) - (d + φ)| = φ := by
    rw [Int.cast_natCast, sub_add_cancel_left, abs_neg, abs_of_nonneg h0]
  refine nearest_of_half (by rw [habs]; exact not_lt.mp hle) fun e => ?_
  rw [habs] at e
  have := not_and.mp hodd e
  omega
theorem nearest_ceil {φ : ℝ} (h1 : φ ≤ 1) (h : 1 / 2 < φ ∨ φ = 1 / 2 ∧ d % 2 = 1) : RoundsToInt .rne neg (d + φ) ((d + 1 : Nat) : Int) := by
  have habs : |(((d + 1 : Nat) : Int) : ℝ) - (d + φ)| = 1 - φ := by
    rw [Int.cast_natCast, Nat.cast_succ, add_sub_add_left_eq_sub, abs_of_nonneg (by linarith)]
  refine nearest_of_half (by rw [habs]; rcases h with h | h <;> linarith) fun e => ?_
  rw [habs] at e
  rcases h with h | h
  · linarith
  · omega
/-- To nearest even, `d` and the fraction (rem + ε) / 2^sh, of which `sticky` knows whether `ε` is 0, go up past a half, and at a
half from an odd `d`. -/
theorem roundUp_rne_iff (hsh : 0 < sh) (h0 : 0 ≤ ε) (h1 : ε < 1) (hs : sticky = true ↔ ε ≠ 0) :
    roundUp .rne neg d rem sh sticky = true ↔
      1 / 2 < (rem + ε) / 2 ^ sh ∨ (rem + ε) / 2 ^ sh = 1 / 2 ∧ d % 2 = 1 := by
  have hh : (0 : ℝ) < 2 ^ sh := by positivity
  rw [div_lt_div_iff₀ two_pos hh, div_eq_div_iff hh.ne' two_ne_zero]
  unfold roundUp
  rcases lt_trichotomy (2 * rem) (2 ^ sh) with hlt | heq | hgt
  · have hb : 2 * rem + 2 ≤ 2 ^ sh := by have := dvd_pow_self 2 hsh.ne'; omega
    have hb' : (2 * rem + 2 : ℝ) ≤ 2 ^ sh := by exact_mod_cast hb
    simp only [hlt, if_true, Bool.false_eq_true, false_iff]
    rintro (h | ⟨h, -⟩) <;> linarith
  · have hb : (2 * rem : ℝ) = 2 ^ sh := by exact_mod_cast heq
    have hlt : 1 * (2 : ℝ) ^ sh < (rem + ε) * 2 ↔ sticky = true := by
      rw [hs]; exact ⟨fun h he => by linarith, fun h => by linarith [lt_of_le_of_ne h0 h.symm]⟩
    have heq' : (rem + ε) * 2 = 1 * (2 : ℝ) ^ sh ↔ ¬sticky = true := by
      rw [hs, not_not]; exact ⟨fun h => by linarith, fun h => by linarith⟩
    rw [hlt, heq']
    cases sticky <;> simp [heq]
  · have hb : (2 : ℝ) ^ sh < 2 * rem := by exact_mod_cast hgt
    simp only [not_lt.mpr hgt.le, hgt.ne', if_false, true_iff]
    exact .inl (by linarith)
/-- The fraction lies from 0 to below 1, and is 0 where nothing was dropped. -/
theorem fraction_bounds (hrem : rem < 2 ^ sh) (h0 : 0 ≤ ε) (h1 : ε < 1) (hs : sticky = true ↔ ε ≠ 0) :
    0 ≤ (rem + ε) / 2 ^ sh ∧ (rem + ε) / 2 ^ sh < 1 ∧ ((rem != 0 || sticky) = true ↔ (rem + ε) / 2 ^ sh ≠ 0) := by
  have hh : (0 : ℝ) < 2 ^ sh := by positivity
  have hb : (rem + 1 : ℝ) ≤ 2 ^ sh := by exact_mod_cast hrem
  refine ⟨by positivity, by rw [div_lt_one hh]; linarith, ?_⟩
  rw [ne_eq, div_eq_zero_iff, or_iff_left hh.ne', add_eq_zero_iff_of_nonneg (by positivity) h0, Bool.or_eq_true, hs,
    Nat.cast_eq_zero, not_and_or, bne_iff_ne]
/-- One step of rounding gives the integer that the mode asks for. -/
theorem roundsToInt_roundUp (rm : Rm) (hrem : rem < 2 ^ sh) (hsh : 0 < sh) (h0 : 0 ≤ ε) (h1 : ε < 1) (hs : sticky = true ↔ ε ≠ 0) :
    RoundsToInt rm neg (d + (rem + ε) / 2 ^ sh) ((if roundUp rm neg d rem sh sticky then d + 1 else d : Nat) : Int) := by
  obtain ⟨hφ0, hφ1, hex⟩ := fraction_bounds hrem h0 h1 hs
  have hrne := roundUp_rne_iff (rem := rem) (d := d) (neg := neg) hsh h0 h1 hs
  generalize (rem + ε) / 2 ^ sh = φ at *
  have hfloor : ((d : Int) : ℝ) ≤ d + φ ∧ ∀ j : Int, (j : ℝ) ≤ d + φ → j ≤ d :=
    ⟨by simpa using hφ0, fun j hj => Int.lt_add_one_iff.mp (by
      have : (j : ℝ) < d + 1 := by linarith
      exact_mod_cast this)⟩
  have hup (h : ∀ k : Int, ((d + φ : ℝ) ≤ k ∧ ∀ j : Int, (d + φ : ℝ) ≤ j → k ≤ j) → RoundsToInt rm neg (d + φ) k) :
      RoundsToInt rm neg (d + φ) ((if (rem != 0 || sticky) = true then d + 1 else d : Nat) : Int) := by
    split
    · have hpos : 0 < φ := lt_of_le_of_ne hφ0 (hex.mp ‹_›).symm
      refine h _ ⟨by push_cast; linarith, fun j hj => ?_⟩
      have : (d : ℝ) < j := by linarith
      have : (d : Int) < j := by exact_mod_cast this
      omega
    · rw [not_not.mp (mt hex.mpr ‹_›), add_zero]; exact_mod_cast roundsToInt_self rm neg d
  match rm, neg, hrne with
  | .rz, _, _ => exact hfloor
  | .ru, true, _ | .rd, false, _ => simpa [roundUp, RoundsToInt] using hfloor
  | .ru, false, _ => simpa [roundUp] using hup fun _ h => h
  | .rd, true, _ => simpa [roundUp] using hup fun _ h => h
  | .rne, n, hrne =>
    by_cases hr : roundUp .rne n d rem sh sticky = true
    · rw [if_pos hr]; exact nearest_ceil hφ1.le (hrne.mp hr)
    · rw [if_neg hr]; exact nearest_floor hφ0 (mt hrne.mpr hr)
end

/-- `X` is m·2^e, or that and something below a unit of it where `sticky`. -/
structure Approx (m : Nat) (e : Int) (sticky : Bool) (X : ℝ) : Prop where
  lo : m * 2 ^ e ≤ X
  hi : X < (m + 1) * 2 ^ e
  sticky_iff : sticky = true ↔ X ≠ m * 2 ^ e

theorem approx_exact (m : Nat) (e : Int) : Approx m e false (m * 2 ^ e) :=
  ⟨le_rfl, by gcongr; simp, by simp⟩
theorem RoundsToInt.eq_of_int {rm : Rm} {neg : Bool} {k j : Int} (h : RoundsToInt rm neg j k) : k = j :=
  le_antisymm (h.le le_rfl) (h.ge le_rfl)
theorem roundAt_of_le {rm : Rm} {neg : Bool} {m : Nat} {e q : Int} {sticky : Bool} (h : q ≤ e) :
    roundAt rm neg m e q sticky = (m * 2 ^ (e - q).toNat, sticky) := by rw [roundAt, if_pos h]
theorem roundAt_of_lt {rm : Rm} {neg : Bool} {m sh : Nat} {e : Int} {sticky : Bool} (h : 0 < sh) :
    roundAt rm neg m e (e + sh) sticky =
      (if roundUp rm neg (m / 2 ^ sh) (m % 2 ^ sh) sh sticky then m / 2 ^ sh + 1 else m / 2 ^ sh, m % 2 ^ sh != 0 || sticky) := by
  have : (e + sh - e).toNat = sh := by omega
  rw [roundAt, if_neg (by omega), this]
/-- A power of two brought to a lower place is a natural factor. -/
theorem pow_toNat_mul {e q : Int} (h : q ≤ e) : (2 : ℝ) ^ (e - q).toNat * 2 ^ q = 2 ^ e := by
  rw [← zpow_natCast, ← zpow_add₀ two_ne_zero, Int.toNat_of_nonneg (by omega), sub_add_cancel]
/-- A natural number and a fraction make a natural number only where the fraction is 0. -/
theorem fraction_eq_zero {d k : Nat} {φ : ℝ} (h0 : 0 ≤ φ) (h1 : φ < 1) (h : d + φ = k) : φ = 0 := by
  have hle : (k : ℝ) < (d + 1 : Nat) := by push_cast; linarith
  have hge : (d : ℝ) ≤ k := by linarith
  have : k = d := le_antisymm (Nat.lt_succ_iff.mp (Nat.cast_lt.mp hle)) (Nat.cast_le.mp hge)
  rw [this] at h
  linarith
/-- roundAt rounds to a multiple of 2^q, and says whether the result is inexact. -/
theorem roundAt_spec (rm : Rm) (neg : Bool) {m : Nat} {e q : Int} {sticky : Bool} {X : ℝ} (h : Approx m e sticky X)
    (hq : sticky = true → e < q) : RoundsToInt rm neg (X / 2 ^ q) (roundAt rm neg m e q sticky).1 ∧
      ((roundAt rm neg m e q sticky).2 = true ↔ X ≠ (roundAt rm neg m e q sticky).1 * 2 ^ q) := by
  have hq0 : (0 : ℝ) < 2 ^ q := by positivity
  rw [ne_eq, ← div_eq_iff hq0.ne']
  rcases le_or_gt q e with hle | hlt
  · have hx : X = m * 2 ^ e := by simpa using mt h.sticky_iff.mpr fun hs => by have := hq hs; omega
    have hk : X / 2 ^ q = (m * 2 ^ (e - q).toNat : Nat) := by
      rw [div_eq_iff hq0.ne', hx]; push_cast
      rw [mul_assoc, pow_toNat_mul hle]
    rw [roundAt_of_le hle, h.sticky_iff]
    exact ⟨hk ▸ by exact_mod_cast roundsToInt_self rm neg _, iff_of_false (not_not.mpr hx) (not_not.mpr hk)⟩
  · obtain ⟨sh, rfl⟩ : ∃ sh : Nat, q = e + sh := ⟨(q - e).toNat, by omega⟩
    have hsh : 0 < sh := by omega
    rw [roundAt_of_lt hsh]
    have he0 : (0 : ℝ) < 2 ^ e := by positivity
    have hs : sticky = true ↔ X / 2 ^ e - m ≠ 0 := by rw [h.sticky_iff, ne_eq, ne_eq, sub_eq_zero, div_eq_iff he0.ne']
    have hε0 : 0 ≤ X / 2 ^ e - m := sub_nonneg.mpr ((le_div_iff₀ he0).mpr h.lo)
    have hε1 : X / 2 ^ e - m < 1 := by have := (div_lt_iff₀ he0).mpr h.hi; linarith
    have hX : X / 2 ^ (e + sh) = (m / 2 ^ sh : Nat) + ((m % 2 ^ sh : Nat) + (X / 2 ^ e - m)) / 2 ^ sh := by
      have hm : (m : ℝ) = 2 ^ sh * (m / 2 ^ sh : Nat) + (m % 2 ^ sh : Nat) := by exact_mod_cast (Nat.div_add_mod m (2 ^ sh)).symm
      rw [zpow_add₀ two_ne_zero, zpow_natCast, ← div_div, div_eq_iff (by positivity), add_mul, div_mul_cancel₀ _ (by positivity)]
      linear_combination hm
    have hrem := Nat.mod_lt m (Nat.two_pow_pos sh)
    obtain ⟨hφ0, hφ1, hex⟩ := fraction_bounds hrem hε0 hε1 hs
    have hr := roundsToInt_roundUp (d := m / 2 ^ sh) (neg := neg) rm hrem hsh hε0 hε1 hs
    rw [← hX] at hr
    refine ⟨hr, hex.trans (not_congr ⟨fun hφ => ?_, fun hk => fraction_eq_zero hφ0 hφ1 (hX ▸ hk)⟩)⟩
    rw [hX, hφ, add_zero, ← Int.cast_natCast] at hr
    rw [hX, hφ, add_zero]
    exact_mod_cast hr.eq_of_int.symm

/-! ### The values of a format -/

/-- What every finite value of the format is: a significand of the format's width times a power of two not below the last place of
a subnormal. -/
def InGrid (f : Fmt) (z : ℝ) : Prop := ∃ n e : Int, |n| < 2 ^ (manBits f + 1) ∧ emin f - manBits f ≤ e ∧ z = n * 2 ^ e

theorem magSig_lt (f : Fmt) (b : Nat) : magSig f b < 2 ^ (manBits f + 1) := by
  have := Nat.mod_lt b (Nat.two_pow_pos (manBits f))
  rw [magSig, pow_succ]; split <;> omega
theorem emin_le_magExp (f : Fmt) (b : Nat) : emin f - manBits f ≤ magExp f b := by unfold magExp; omega
theorem inGrid_of_codeReal {f : Fmt} {c : Nat} {z : ℝ} (h : codeReal f c = some z) : InGrid f z := by
  obtain ⟨-, rfl⟩ := codeReal_eq_some.mp h
  have hm : (magSig f (codeMag f c) : Int) < 2 ^ (manBits f + 1) := by exact_mod_cast magSig_lt f _
  refine ⟨(if codeNeg f c then -1 else 1) * magSig f (codeMag f c), magExp f (codeMag f c), ?_, emin_le_magExp f _, ?_⟩
  · cases codeNeg f c <;> simpa using hm
  · cases codeNeg f c <;> simp [signR, magReal]
theorem InGrid.neg {f : Fmt} {z : ℝ} (h : InGrid f z) : InGrid f (-z) := by
  obtain ⟨n, e, hn, he, rfl⟩ := h
  exact ⟨-n, e, by rwa [abs_neg], he, by push_cast; ring⟩

/-- The place at which a magnitude X is rounded: the last place of its binade, or that of the subnormals. -/
structure AtPlace (f : Fmt) (q : Int) (X : ℝ) : Prop where
  hi : X < 2 ^ (q + manBits f + 1)
  lo : q = emin f - manBits f ∨ 2 ^ (q + manBits f) ≤ X

/-- Between X and any value of the format lies a multiple of 2^q: the format has no finer values there. -/
theorem exists_multiple_between {f : Fmt} {q : Int} {X z : ℝ} (hp : AtPlace f q X) (hz : InGrid f z) :
    ∃ j : Int, (z ≤ j * 2 ^ q ∧ j * 2 ^ q ≤ X) ∨ (X ≤ j * 2 ^ q ∧ j * 2 ^ q ≤ z) := by
  obtain ⟨n, e, hn, he, rfl⟩ := hz
  by_cases hqe : q ≤ e
  · have : ((n * 2 ^ (e - q).toNat : Int) : ℝ) * 2 ^ q = n * 2 ^ e := by
      push_cast
      rw [mul_assoc, pow_toNat_mul hqe]
    refine ⟨n * 2 ^ (e - q).toNat, ?_⟩
    rw [this]
    rcases le_total (n * 2 ^ e : ℝ) X with h | h
    · exact .inl ⟨le_rfl, h⟩
    · exact .inr ⟨h, le_rfl⟩
  · have hlo := hp.lo.resolve_left (by omega)
    have hq : ((2 ^ manBits f : Int) : ℝ) * 2 ^ q = 2 ^ (q + manBits f) := by
      push_cast
      rw [zpow_add₀ two_ne_zero, zpow_natCast, mul_comm]
    refine ⟨2 ^ manBits f, .inl ⟨?_, hq ▸ hlo⟩⟩
    have hn' : (n : ℝ) ≤ 2 ^ (manBits f + 1) := by exact_mod_cast (le_abs_self n).trans hn.le
    calc (n : ℝ) * 2 ^ e ≤ 2 ^ (manBits f + 1) * 2 ^ (q - 1) := by
          gcongr
          · norm_num
          · omega
      _ = ((2 ^ manBits f : Int) : ℝ) * 2 ^ q := by
          rw [hq, ← zpow_natCast, ← zpow_add₀ two_ne_zero]; congr 1; push_cast; ring

section
variable {f : Fmt} {q : Int} {X z : ℝ} {k : Nat} {neg : Bool}

theorem grid_le_of_down (hp : AtPlace f q X) (hk : ∀ j : Int, j ≤ X / 2 ^ q → j ≤ k) (hz : InGrid f z) (h : z ≤ X) :
    z ≤ k * 2 ^ q := by
  have hq : (0 : ℝ) < 2 ^ q := by positivity
  obtain ⟨j, ⟨h1, h2⟩ | ⟨h1, h2⟩⟩ := exists_multiple_between hp hz
  all_goals
    have hj : (j : ℝ) ≤ (k : Int) := by exact_mod_cast hk j ((le_div_iff₀ hq).mpr (by linarith))
    have := mul_le_mul_of_nonneg_right hj hq.le
    rw [Int.cast_natCast] at this
    linarith
theorem le_grid_of_up (hp : AtPlace f q X) (hk : ∀ j : Int, X / 2 ^ q ≤ j → k ≤ j) (hz : InGrid f z) (h : X ≤ z) :
    k * 2 ^ q ≤ z := by
  have hq : (0 : ℝ) < 2 ^ q := by positivity
  obtain ⟨j, ⟨h1, h2⟩ | ⟨h1, h2⟩⟩ := exists_multiple_between hp hz
  all_goals
    have hj : ((k : Int) : ℝ) ≤ j := by exact_mod_cast hk j ((div_le_iff₀ hq).mpr (by linarith))
    have := mul_le_mul_of_nonneg_right hj hq.le
    rw [Int.cast_natCast] at this
    linarith
theorem nearest_in_grid (hp : AtPlace f q X) (hk : RoundsToInt .rne neg (X / 2 ^ q) k) (hz : InGrid f z) :
    |k * 2 ^ q - X| ≤ |z - X| ∧ (|k * 2 ^ q - X| = |z - X| → z ≠ k * 2 ^ q → k % 2 = 0) := by
  have hq : (0 : ℝ) < 2 ^ q := by positivity
  have hscale (j : Int) : |j * 2 ^ q - X| = |j - X / 2 ^ q| * 2 ^ q := by
    rw [← abs_of_pos hq, ← abs_mul, abs_of_pos hq, sub_mul, div_mul_cancel₀ _ hq.ne']
  obtain ⟨j, hj⟩ := exists_multiple_between hp hz
  have hjz : |j * 2 ^ q - X| ≤ |z - X| ∧ (|j * 2 ^ q - X| = |z - X| → z = j * 2 ^ q) := by
    rcases hj with ⟨h1, h2⟩ | ⟨h1, h2⟩
    · rw [abs_of_nonpos (by linarith), abs_of_nonpos (by linarith)]
      exact ⟨by linarith, fun h => by linarith⟩
    · rw [abs_of_nonneg (by linarith), abs_of_nonneg (by linarith)]
      exact ⟨by linarith, fun h => by linarith⟩
  obtain ⟨hle, htie⟩ := hk j
  have hkj : |(k : ℝ) * 2 ^ q - X| ≤ |j * 2 ^ q - X| := by
    have := hscale k
    rw [Int.cast_natCast] at this
    rw [this, hscale j]
    exact mul_le_mul_of_nonneg_right hle hq.le
  refine ⟨hkj.trans hjz.1, fun he hne => ?_⟩
  have hzj := hjz.2 (le_antisymm hjz.1 (he ▸ hkj))
  have hkj' : |((k : Int) : ℝ) - X / 2 ^ q| = |j - X / 2 ^ q| := by
    refine mul_right_cancel₀ hq.ne' ?_
    rw [← hscale, ← hscale, Int.cast_natCast, he, hzj]
  have := htie hkj' fun e => hne (by rw [hzj, e, Int.cast_natCast])
  omega

/-- A magnitude rounded at its place to an integer is the value rounded to the format (R14). -/
theorem roundsTo_of_roundsToInt {rm : Rm} {r : Nat} (hp : AtPlace f q X) (hX : 0 < X) (hk : RoundsToInt rm neg (X / 2 ^ q) k)
    (hv : codeReal f r = some (signR neg * (k * 2 ^ q))) (hr : r % 2 = k % 2) : RoundsTo f rm (signR neg * X) r := by
  have hq : (0 : ℝ) < 2 ^ q := by positivity
  have hdown (h : ((k : Int) : ℝ) ≤ X / 2 ^ q ∧ ∀ j : Int, j ≤ X / 2 ^ q → j ≤ k) :
      if neg then RoundsUp f (signR neg * X) r else RoundsDown f (signR neg * X) r := by
    have hle : k * 2 ^ q ≤ X := (le_div_iff₀ hq).mp (by exact_mod_cast h.1)
    cases neg
    · refine ⟨_, hv, by simpa using hle, fun c _ z hc hz => ?_⟩
      simpa using grid_le_of_down hp h.2 (inGrid_of_codeReal hc) (by simpa using hz)
    · refine ⟨_, hv, by simpa using hle, fun c _ z hc hz => ?_⟩
      have := grid_le_of_down hp h.2 (inGrid_of_codeReal hc).neg (by simpa using neg_le_neg hz)
      simpa using neg_le_neg this
  have hup (h : X / 2 ^ q ≤ ((k : Int) : ℝ) ∧ ∀ j : Int, X / 2 ^ q ≤ j → k ≤ j) :
      if neg then RoundsDown f (signR neg * X) r else RoundsUp f (signR neg * X) r := by
    have hle : X ≤ k * 2 ^ q := (div_le_iff₀ hq).mp (by exact_mod_cast h.1)
    cases neg
    · refine ⟨_, hv, by simpa using hle, fun c _ z hc hz => ?_⟩
      simpa using le_grid_of_up hp h.2 (inGrid_of_codeReal hc) (by simpa using hz)
    · refine ⟨_, hv, by simpa using hle, fun c _ z hc hz => ?_⟩
      have := le_grid_of_up hp h.2 (inGrid_of_codeReal hc).neg (by simpa using neg_le_neg hz)
      simpa using neg_le_neg this
  match rm, neg with
  | .rne, n =>
    refine ⟨_, hv, fun c _ z hc => ?_⟩
    have hz : InGrid f (signR n * z) := by
      cases n
      · simpa using inGrid_of_codeReal hc
      · simpa using (inGrid_of_codeReal hc).neg
    have hdist (a : ℝ) : |a - signR n * X| = |signR n * a - X| := by
      have : signR n * a - X = signR n * (a - signR n * X) := by rw [mul_sub, ← mul_assoc, signR_mul_self, one_mul]
      rw [this, abs_mul, abs_signR, one_mul]
    obtain ⟨h1, h2⟩ := nearest_in_grid hp hk hz
    rw [hdist, hdist z, ← mul_assoc, signR_mul_self, one_mul, hr]
    refine ⟨h1, fun he hne => h2 he fun e => hne ?_⟩
    rw [← e, ← mul_assoc, signR_mul_self, one_mul]
  | .rz, false => simpa [RoundsTo, hX.le] using hdown hk
  | .rz, true => simpa [RoundsTo, not_le.mpr hX] using hdown hk
  | .ru, true | .rd, false => exact hdown hk
  | .ru, false | .rd, true => exact hup hk
end

/-! ### Rounding to a format -/

section
variable {f : Fmt} {rm : Rm} {neg : Bool} {m k : Nat} {e q : Int} {sticky : Bool} {X z : ℝ}

theorem codeMag_maxCode (f : Fmt) : codeMag f (maxCode f) = maxCode f := Nat.mod_eq_of_lt (maxCode_lt f)
/-- A value lies in a format's range where its magnitude is at most the largest finite one. -/
theorem inRange_iff {x : ℝ} : InRange f x ↔ |x| ≤ magReal f (maxCode f) := by
  have := codeReal_sign_add (f := f) false le_rfl
  simp only [signCode, Bool.false_eq_true, if_false, zero_add, signR_false, one_mul] at this
  simp [InRange, this]
theorem inGrid_maxCode (f : Fmt) : InGrid f (magReal f (maxCode f)) :=
  inGrid_of_codeReal (c := signCode f false + maxCode f) (by simpa using codeReal_sign_add false le_rfl)
/-- What is rounded does not pass a value of the format. -/
theorem rounded_le_grid (hp : AtPlace f q X) (hk : RoundsToInt rm neg (X / 2 ^ q) k) (hz : InGrid f z) (h : X ≤ z) : k * 2 ^ q ≤ z := by
  have hq : (0 : ℝ) < 2 ^ q := by positivity
  obtain ⟨j, hj⟩ := exists_multiple_between hp hz
  have hle : ((k : Int) : ℝ) ≤ j := by exact_mod_cast hk.le ((div_le_iff₀ hq).mpr (by rcases hj with hj | hj <;> linarith [hj.1, hj.2]))
  rw [Int.cast_natCast] at hle
  have := mul_le_mul_of_nonneg_right hle hq.le
  rcases hj with hj | hj <;> linarith [hj.1, hj.2]
/-- The code packed from a rounded magnitude in range has that value. -/
theorem codeReal_packF (hp : AtPlace f q X) (he : emin f - manBits f ≤ q) (hk : RoundsToInt rm neg (X / 2 ^ q) k)
    (hX : X ≤ magReal f (maxCode f)) : codeReal f (packF f neg k q) = some (signR neg * (k * 2 ^ q)) := by
  have hq : (0 : ℝ) < 2 ^ q := by positivity
  have hhi : k ≤ 2 ^ (manBits f + 1) := by
    have : X / 2 ^ q ≤ ((2 ^ (manBits f + 1) : Int) : ℝ) := by
      rw [div_le_iff₀ hq]; push_cast
      rw [← zpow_natCast, ← zpow_add₀ two_ne_zero, add_comm _ q]; push_cast
      rw [← add_assoc]; exact hp.hi.le
    exact_mod_cast hk.le this
  have hlo : k < 2 ^ manBits f → q = emin f - manBits f := fun hlt => hp.lo.resolve_right fun h => by
    have : ((2 ^ manBits f : Int) : ℝ) ≤ X / 2 ^ q := by
      rw [le_div_iff₀ hq]; push_cast
      rwa [← zpow_natCast, ← zpow_add₀ two_ne_zero, add_comm _ q]
    have : 2 ^ manBits f ≤ k := by exact_mod_cast hk.ge this
    omega
  have hmag := magReal_packMag hhi he hlo
  have hmax : packMag f k q ≤ maxCode f := (strictMono_magReal f).le_iff_le.mp (hmag ▸ rounded_le_grid hp hk (inGrid_maxCode f) hX)
  rw [packF_eq, codeReal_sign_add neg hmax, hmag]

theorem topExp_bounds (h : Approx m e sticky X) (hm : m ≠ 0) : 2 ^ topExp m e ≤ X ∧ X < 2 ^ (topExp m e + 1) := by
  have he : (0 : ℝ) < 2 ^ e := by positivity
  have h1 : ((2 ^ Nat.log2 m : Nat) : ℝ) ≤ m := by exact_mod_cast Nat.log2_self_le hm
  have h2 : ((m + 1 : Nat) : ℝ) ≤ (2 ^ (Nat.log2 m + 1) : Nat) := by exact_mod_cast Nat.lt_log2_self
  push_cast at h1 h2
  constructor
  · rw [topExp, zpow_add₀ two_ne_zero, zpow_natCast]
    exact (mul_le_mul_of_nonneg_right h1 he.le).trans h.lo
  · rw [topExp, add_right_comm, zpow_add₀ two_ne_zero]
    refine h.hi.trans_le (mul_le_mul_of_nonneg_right ?_ he.le)
    exact_mod_cast h2
/-- The place at which roundIn rounds m·2^e. -/
def roundPlace (f : Fmt) (m : Nat) (e : Int) : Int := max (topExp m e) (emin f) - manBits f
theorem atPlace_binade (h : Approx m e sticky X) (hm : m ≠ 0) : AtPlace f (topExp m e - manBits f) X := by
  obtain ⟨h1, h2⟩ := topExp_bounds h hm
  exact ⟨by rwa [sub_add_cancel], .inr (by rwa [sub_add_cancel])⟩
theorem atPlace_roundPlace (h : Approx m e sticky X) (hm : m ≠ 0) : AtPlace f (roundPlace f m e) X := by
  unfold roundPlace
  obtain ⟨h1, h2⟩ := topExp_bounds h hm
  rcases le_total (topExp m e) (emin f) with hle | hle
  · rw [max_eq_right hle]
    refine ⟨?_, .inl rfl⟩
    rw [sub_add_cancel]
    exact h2.trans_le (zpow_le_zpow_right₀ one_le_two (by omega))
  · rw [max_eq_left hle]; exact atPlace_binade h hm

/-- Products by powers of two compared over their lower power. -/
theorem scaled_lt_iff (a b : Nat) (p q : Int) : (a : Int) * 2 ^ (max 0 (p - q)).toNat < (b : Int) * 2 ^ (max 0 (q - p)).toNat ↔
    (a : ℝ) * 2 ^ p < b * 2 ^ q := by
  have hmin : (0 : ℝ) < 2 ^ min p q := by positivity
  rw [show max 0 (p - q) = p - min p q by omega, show max 0 (q - p) = q - min p q by omega,
    ← pow_toNat_mul (min_le_left p q), ← pow_toNat_mul (min_le_right p q), ← mul_assoc, ← mul_assoc, mul_lt_mul_iff_left₀ hmin]
  exact_mod_cast Iff.rfl
theorem outOfRange_eq_false (h : Approx m e sticky X) (hm : m ≠ 0) (hs : sticky = true → manBits f < Nat.log2 m)
    (hX : X ≤ magReal f (maxCode f)) : outOfRange f rm neg m e sticky = false := by
  have hk := (roundAt_spec rm neg h (q := topExp m e - manBits f) fun c => by have := hs c; unfold topExp; omega).1
  have := rounded_le_grid (atPlace_binade h hm) hk (inGrid_maxCode f) hX
  unfold outOfRange
  rw [decodeF_finite (codeMag_maxCode f).le, codeMag_maxCode]
  simp only [decide_eq_false_iff_not, scaled_lt_iff]
  exact not_lt.mpr this

theorem roundIn_v : (roundIn f rm neg m e sticky).v =
    packF f neg (roundAt rm neg m e (roundPlace f m e) sticky).1 (roundPlace f m e) := rfl
theorem roundIn_f : ∃ u : Bool, (roundIn f rm neg m e sticky).f =
    (if (roundAt rm neg m e (roundPlace f m e) sticky).2 then fI else 0) ||| (if u then fU else 0) := ⟨_, rfl⟩
theorem flags_inexact (i u : Bool) : ((if i then fI else 0) ||| (if u then fU else 0) : Flags).getLsbD 0 = i := by
  cases i <;> cases u <;> decide
theorem flags_quiet (i u : Bool) : let f : Flags := (if i then fI else 0) ||| (if u then fU else 0)
    f.getLsbD 4 = false ∧ f.getLsbD 3 = false ∧ f.getLsbD 2 = false := by
  cases i <;> cases u <;> decide
/-- RoundToFormat (R29) of a magnitude in range, known exactly or to within a unit well below the last place: rounded, with I where
it is inexact, and none of V, Z and O (R15). -/
theorem rounded_roundNum (h : Approx m e sticky X) (hm : m ≠ 0) (hs : sticky = true → manBits f < Nat.log2 m)
    (hX : InRange f (signR neg * X)) : Rounded f rm (signR neg * X) (roundNum f rm neg m e sticky) := by
  have hpos : 0 < X := lt_of_lt_of_le (by positivity) (topExp_bounds h hm).1
  rw [inRange_iff, abs_mul, abs_signR, one_mul, abs_of_pos hpos] at hX
  have hp := atPlace_roundPlace (f := f) h hm
  obtain ⟨hk, hi⟩ := roundAt_spec rm neg h (q := roundPlace f m e) fun c => by have := hs c; unfold roundPlace topExp; omega
  have hv := codeReal_packF hp (by unfold roundPlace; omega) hk hX
  have hne : signR neg ≠ 0 := by cases neg <;> simp
  rw [roundNum, if_neg hm, if_neg (by simp [outOfRange_eq_false h hm hs hX])]
  obtain ⟨u, hf⟩ := roundIn_f (f := f) (rm := rm) (neg := neg) (m := m) (e := e) (sticky := sticky)
  refine ⟨roundsTo_of_roundsToInt hp hpos hk hv (packF_mod_two ..), ?_, hf ▸ flags_quiet _ u⟩
  rw [hf, flags_inexact, hi, roundIn_v, hv, ne_eq, ne_eq, not_iff_not, Option.some.injEq, mul_right_inj' hne, eq_comm]
end

/-! ### Exact operations -/

theorem realOf_eq_some {v : FVal} {x : ℝ} : realOf v = some x ↔ ∃ n m e, v = .num n m e ∧ x = signR n * (m * 2 ^ e) := by
  cases v <;> simp [realOf, signR, eq_comm]
theorem realOf_num (n : Bool) (m : Nat) (e : Int) : realOf (.num n m e) = some (signR n * (m * 2 ^ e)) :=
  realOf_eq_some.mpr ⟨n, m, e, rfl, rfl⟩
/-- RoundToFormat of an exact value other than 0, in range. -/
theorem rounded_roundF {f : Fmt} {rm : Rm} {v : FVal} {x : ℝ} (hv : realOf v = some x) (h0 : x ≠ 0) (hx : InRange f x) :
    Rounded f rm x (roundF f rm v) := by
  obtain ⟨n, m, e, rfl, rfl⟩ := realOf_eq_some.mp hv
  exact rounded_roundNum (approx_exact m e) (by rintro rfl; simp at h0) (by simp) hx

theorem realOf_negV {v : FVal} {x : ℝ} (h : realOf v = some x) : realOf (negV v) = some (-x) := by
  obtain ⟨n, m, e, rfl, rfl⟩ := realOf_eq_some.mp h
  cases n <;> simp [negV, realOf_num]
/-- The integer of a sign and a magnitude, at a lower place. -/
theorem signed_at_place (n : Bool) (m : Nat) {e p : Int} (h : p ≤ e) :
    (((if n then -1 else 1) * ((m * 2 ^ (e - p).toNat : Nat) : Int) : Int) : ℝ) * 2 ^ p = signR n * (m * 2 ^ e) := by
  rw [← pow_toNat_mul h]
  cases n <;> push_cast <;> simp [mul_assoc]
theorem signR_natAbs (s : Int) : signR (decide (s < 0)) * (s.natAbs : ℝ) = s := by
  rcases lt_or_ge s 0 with h | h
  · simp [h, abs_of_neg (Int.cast_lt_zero.mpr h : (s : ℝ) < 0)]
  · simp [not_lt.mpr h, abs_of_nonneg (Int.cast_nonneg h : (0 : ℝ) ≤ s)]
/-- The sum of two signed magnitudes as an integer at the lower of their places. -/
def sumAt (n1 : Bool) (m1 : Nat) (e1 : Int) (n2 : Bool) (m2 : Nat) (e2 : Int) : Int :=
  (if n1 then -1 else 1) * ((m1 * 2 ^ (e1 - min e1 e2).toNat : Nat) : Int) +
    (if n2 then -1 else 1) * ((m2 * 2 ^ (e2 - min e1 e2).toNat : Nat) : Int)
section
variable {rm : Rm} {n1 n2 : Bool} {m1 m2 : Nat} {e1 e2 : Int}
theorem addNum_eq : addNum rm n1 m1 e1 n2 m2 e2 =
    if sumAt n1 m1 e1 n2 m2 e2 = 0 then .num (if n1 == n2 then n1 else decide (rm = .rd)) 0 (min e1 e2)
    else .num (decide (sumAt n1 m1 e1 n2 m2 e2 < 0)) (sumAt n1 m1 e1 n2 m2 e2).natAbs (min e1 e2) := rfl
theorem sumAt_real : (sumAt n1 m1 e1 n2 m2 e2 : ℝ) * 2 ^ min e1 e2 = signR n1 * (m1 * 2 ^ e1) + signR n2 * (m2 * 2 ^ e2) := by
  rw [sumAt, Int.cast_add, add_mul, signed_at_place n1 m1 (min_le_left e1 e2), signed_at_place n2 m2 (min_le_right e1 e2)]
/-- The sum before rounding is exact. -/
theorem realOf_addNum : realOf (addNum rm n1 m1 e1 n2 m2 e2) = some (signR n1 * (m1 * 2 ^ e1) + signR n2 * (m2 * 2 ^ e2)) := by
  rw [addNum_eq, ← sumAt_real]
  split
  case isTrue h => rw [h, realOf_num]; simp
  case isFalse h => rw [realOf_num, ← mul_assoc, signR_natAbs]
end
theorem addV_finite {rm : Rm} {a b : FVal} {x y : ℝ} (ha : realOf a = some x) (hb : realOf b = some y) :
    realOf (addV rm a b).v = some (x + y) ∧ (addV rm a b).f = 0 := by
  obtain ⟨n1, m1, e1, rfl, rfl⟩ := realOf_eq_some.mp ha
  obtain ⟨n2, m2, e2, rfl, rfl⟩ := realOf_eq_some.mp hb
  exact ⟨realOf_addNum, rfl⟩
theorem mulV_finite {a b : FVal} {x y : ℝ} (ha : realOf a = some x) (hb : realOf b = some y) :
    realOf (mulV a b).v = some (x * y) ∧ (mulV a b).f = 0 := by
  obtain ⟨n1, m1, e1, rfl, rfl⟩ := realOf_eq_some.mp ha
  obtain ⟨n2, m2, e2, rfl, rfl⟩ := realOf_eq_some.mp hb
  have h : mulV (.num n1 m1 e1) (.num n2 m2 e2) = ⟨.num (n1 != n2) (m1 * m2) (e1 + e2), 0⟩ := by simp [mulV, isInfV, isNan]
  rw [h, realOf_num, zpow_add₀ two_ne_zero]
  refine ⟨congrArg some ?_, rfl⟩
  cases n1 <;> cases n2 <;> simp <;> ring
theorem fmaV_finite {rm : Rm} {a b c : FVal} {x y z : ℝ} (ha : realOf a = some x) (hb : realOf b = some y) (hc : realOf c = some z) :
    realOf (fmaV rm a b c).v = some (x * y + z) ∧ (fmaV rm a b c).f = 0 := by
  obtain ⟨hp, hf⟩ := mulV_finite ha hb
  obtain ⟨hr, hg⟩ := addV_finite (rm := rm) hp hc
  exact ⟨hr, by simp [fmaV, hf, hg]⟩
/-- An exact intermediate value without a flag, rounded once. -/
theorem rounded_withRound {f : Fmt} {rm : Rm} {v : Fr FVal} {x : ℝ} (hv : realOf v.v = some x ∧ v.f = 0) (h0 : x ≠ 0) (hx : InRange f x) :
    Rounded f rm x (withRound f rm v) := by
  have : withRound f rm v = roundF f rm v.v := by simp [withRound, hv.2]
  exact this ▸ rounded_roundF hv.1 h0 hx

/-! ### Sums, products, quotients and roots (R29) -/

theorem sumsAndProductsRound : Claim.SumsAndProductsRound := fun _ _ _ _ _ _ _ _ ha hb hc =>
  ⟨rounded_withRound (addV_finite ha hb),
    fun h0 hx => rounded_withRound (by rw [sub_eq_add_neg]; exact addV_finite ha (realOf_negV hb)) h0 hx,
    rounded_withRound (mulV_finite ha hb), rounded_withRound (fmaV_finite ha hb hc)⟩

/-- A quotient with a remainder is a quotient known to within a unit. -/
theorem approx_div {n d : Nat} (hd : 0 < d) (e : Int) : Approx (n / d) e (n % d != 0) ((n : ℝ) / d * 2 ^ e) := by
  have he : (0 : ℝ) < 2 ^ e := by positivity
  have hd' : (0 : ℝ) < d := by exact_mod_cast hd
  have hn : (n : ℝ) / d = (n / d : Nat) + (n % d : Nat) / d := by
    rw [div_eq_iff hd'.ne', add_mul, div_mul_cancel₀ _ hd'.ne', mul_comm]
    exact_mod_cast (Nat.div_add_mod n d).symm
  have hr : ((n % d : Nat) : ℝ) / d < 1 := by rw [div_lt_one hd']; exact_mod_cast Nat.mod_lt n hd
  refine ⟨?_, ?_, ?_⟩
  · rw [hn]; gcongr; exact le_add_of_nonneg_right (by positivity)
  · rw [hn]; gcongr
  · rw [hn, add_mul, ne_eq, add_eq_left, mul_eq_zero_iff_right he.ne', div_eq_zero_iff, or_iff_left hd'.ne', Nat.cast_eq_zero, bne_iff_ne]
theorem fDiv_finite {f : Fmt} {rm : Rm} {a b : Nat} {n1 n2 : Bool} {m1 m2 : Nat} {e1 e2 : Int} (ha : decodeF f a = .num n1 m1 e1)
    (hb : decodeF f b = .num n2 m2 e2) (h1 : m1 ≠ 0) (h2 : m2 ≠ 0) : fDiv f rm a b =
      roundNum f rm (n1 != n2) (m1 * 2 ^ (64 + Nat.log2 m2) / m2) (e1 - e2 - (64 + Nat.log2 m2 : Nat)) (m1 * 2 ^ (64 + Nat.log2 m2) % m2 != 0) := by
  simp [fDiv, ha, hb, h1, h2]
/-- A quotient formed to 64 places more than the divisor has is long enough for every format. -/
theorem two_pow_le_quotient {m1 m2 : Nat} (h1 : m1 ≠ 0) (h2 : m2 ≠ 0) : 2 ^ 63 ≤ m1 * 2 ^ (64 + Nat.log2 m2) / m2 := by
  rw [Nat.le_div_iff_mul_le (Nat.pos_of_ne_zero h2)]
  calc 2 ^ 63 * m2 ≤ 2 ^ 63 * 2 ^ (Nat.log2 m2 + 1) := Nat.mul_le_mul_left _ Nat.lt_log2_self.le
    _ = 1 * 2 ^ (64 + Nat.log2 m2) := by rw [← pow_add, one_mul]; congr 1; omega
    _ ≤ m1 * 2 ^ (64 + Nat.log2 m2) := Nat.mul_le_mul_right _ (Nat.pos_of_ne_zero h1)
theorem manBits_le (f : Fmt) : manBits f ≤ 23 := by cases f <;> decide
theorem le_log2_of_two_pow_le {m n : Nat} (h : 2 ^ n ≤ m) : n ≤ Nat.log2 m :=
  (Nat.le_log2 (by have := Nat.two_pow_pos n; omega)).mpr h
theorem rounded_fDiv {f : Fmt} {rm : Rm} {a b : Nat} {x y : ℝ} (ha : codeReal f a = some x) (hb : codeReal f b = some y) (hx : x ≠ 0)
    (hy : y ≠ 0) (hr : InRange f (x / y)) : Rounded f rm (x / y) (fDiv f rm a b) := by
  obtain ⟨n1, m1, e1, hda, rfl⟩ := realOf_eq_some.mp ha
  obtain ⟨n2, m2, e2, hdb, rfl⟩ := realOf_eq_some.mp hb
  have h1 : m1 ≠ 0 := by rintro rfl; simp at hx
  have h2 : m2 ≠ 0 := by rintro rfl; simp at hy
  have hlong := two_pow_le_quotient h1 h2
  have hlog := le_log2_of_two_pow_le hlong
  have := approx_div (n := m1 * 2 ^ (64 + Nat.log2 m2)) (Nat.pos_of_ne_zero h2) (e1 - e2 - (64 + Nat.log2 m2 : Nat))
  have hval : signR n1 * (m1 * 2 ^ e1) / (signR n2 * (m2 * 2 ^ e2)) = signR (n1 != n2) *
      (((m1 * 2 ^ (64 + Nat.log2 m2) : Nat) : ℝ) / m2 * 2 ^ (e1 - e2 - (64 + Nat.log2 m2 : Nat))) := by
    rw [zpow_sub₀ two_ne_zero, zpow_sub₀ two_ne_zero, zpow_natCast]
    push_cast
    have h2' : (m2 : ℝ) ≠ 0 := by exact_mod_cast h2
    cases n1 <;> cases n2 <;> simp <;> field_simp
  rw [hval] at hr ⊢
  rw [fDiv_finite hda hdb h1 h2]
  exact rounded_roundNum this (by have := Nat.two_pow_pos 63; omega) (fun _ => by have := manBits_le f; omega) hr

/-- isqrt finds the integer root below a bound, one bit at a time. -/
theorem isqrt_spec {x n r : Nat} (h1 : r * r ≤ x) (h2 : x < (r + 2 ^ n) * (r + 2 ^ n)) :
    isqrt x n r * isqrt x n r ≤ x ∧ x < (isqrt x n r + 1) * (isqrt x n r + 1) := by
  induction n generalizing r with
  | zero => exact ⟨h1, h2⟩
  | succ n ih =>
    rw [isqrt]
    split
    case isTrue h => exact ih h (by rwa [add_assoc, ← two_mul, ← pow_succ'])
    case isFalse h => exact ih h1 (not_le.mp h)
/-- The integer root is the root known to within a unit. -/
theorem approx_sqrt {x r : Nat} (h1 : r * r ≤ x) (h2 : x < (r + 1) * (r + 1)) (e : Int) :
    Approx r e (r * r != x) (Real.sqrt x * 2 ^ e) := by
  have he : (0 : ℝ) < 2 ^ e := by positivity
  have h1' : (r : ℝ) ^ 2 ≤ x := by rw [sq]; exact_mod_cast h1
  have h2' : (x : ℝ) < (r + 1) ^ 2 := by rw [sq]; exact_mod_cast h2
  refine ⟨?_, ?_, ?_⟩
  · gcongr; exact Real.le_sqrt_of_sq_le h1'
  · gcongr; exact (Real.sqrt_lt' (by positivity)).mpr h2'
  · rw [ne_eq, mul_left_inj' he.ne', Real.sqrt_eq_iff_mul_self_eq x.cast_nonneg r.cast_nonneg, bne_iff_ne, ne_eq, not_iff_not, eq_comm]
    exact_mod_cast Iff.rfl
/-- What FSqrt takes the integer root of: the significand with 64 more places, and one more for an odd exponent. -/
def fsqrtRadicand (m : Nat) (e : Int) : Nat := m * 2 ^ (64 + (e % 2).toNat)
def fsqrtRoot (m : Nat) (e : Int) : Nat := isqrt (fsqrtRadicand m e) 48 0
def fsqrtExp (e : Int) : Int := (e - e % 2) / 2 - 32
theorem fSqrt_finite {f : Fmt} {rm : Rm} {a m : Nat} {e : Int} (ha : decodeF f a = .num false m e) (hm : m ≠ 0) :
    fSqrt f rm a = roundNum f rm false (fsqrtRoot m e) (fsqrtExp e) (fsqrtRoot m e * fsqrtRoot m e != fsqrtRadicand m e) := by
  simp [fSqrt, ha, hm, fsqrtRoot, fsqrtRadicand, fsqrtExp]
theorem sqrt_eq_radicand (m : Nat) (e : Int) : Real.sqrt (m * 2 ^ e) = Real.sqrt (fsqrtRadicand m e) * 2 ^ fsqrtExp e := by
  have h : (m : ℝ) * 2 ^ e = fsqrtRadicand m e * (2 ^ fsqrtExp e * 2 ^ fsqrtExp e) := by
    rw [fsqrtRadicand, ← zpow_add₀ two_ne_zero]; push_cast
    rw [mul_assoc, ← zpow_natCast, ← zpow_add₀ two_ne_zero]
    congr 2; unfold fsqrtExp; push_cast; omega
  rw [h, Real.sqrt_mul (Nat.cast_nonneg _), Real.sqrt_mul_self (by positivity)]
theorem two_pow_le_radicand {m : Nat} (e : Int) (hm : m ≠ 0) : 2 ^ 64 ≤ fsqrtRadicand m e :=
  calc 2 ^ 64 ≤ 2 ^ (64 + (e % 2).toNat) := Nat.pow_le_pow_right two_pos (Nat.le_add_right ..)
    _ ≤ fsqrtRadicand m e := Nat.le_mul_of_pos_left _ (Nat.pos_of_ne_zero hm)
theorem radicand_lt {m : Nat} (e : Int) (hm : m < 2 ^ 24) : fsqrtRadicand m e < (0 + 2 ^ 48) * (0 + 2 ^ 48) :=
  calc fsqrtRadicand m e < 2 ^ 24 * 2 ^ (64 + 1) :=
        Nat.mul_lt_mul_of_lt_of_le hm (Nat.pow_le_pow_right two_pos (by omega)) (by positivity)
    _ ≤ _ := by norm_num
theorem one_le_max_fp32 : 1 ≤ magReal .fp32 (maxCode .fp32) := by
  have hs : magSig .fp32 (maxCode .fp32) = 16777215 := by decide
  have he : magExp .fp32 (maxCode .fp32) = 104 := by decide
  rw [magReal, hs, he]
  norm_num
/-- A finite FP32 value other than 0 has a root in range. -/
theorem inRange_sqrt {c : Nat} {x : ℝ} (h : codeReal .fp32 c = some x) : InRange .fp32 (Real.sqrt x) := by
  obtain ⟨hc, hx⟩ := codeReal_eq_some.mp h
  have hmax := (strictMono_magReal .fp32).monotone hc
  have h1 := one_le_max_fp32
  have hle : x ≤ magReal .fp32 (maxCode .fp32) := by
    have h0 : 0 ≤ magReal .fp32 (codeMag .fp32 c) := by unfold magReal; positivity
    rw [← hx]; cases codeNeg .fp32 c
    · simpa using hmax
    · simpa using (neg_nonpos.mpr h0).trans (h0.trans hmax)
  rw [inRange_iff, abs_of_nonneg (Real.sqrt_nonneg x), Real.sqrt_le_left (by linarith)]
  nlinarith
theorem rounded_fSqrt {rm : Rm} {a : Nat} {x : ℝ} (ha : codeReal .fp32 a = some x) (hx : 0 < x) :
    Rounded .fp32 rm (Real.sqrt x) (fSqrt .fp32 rm a) := by
  have hr := inRange_sqrt ha
  obtain ⟨n, m, e, hd, rfl⟩ := realOf_eq_some.mp ha
  have hm : m ≠ 0 := by rintro rfl; simp at hx
  obtain rfl : n = false := by
    have : 0 ≤ (m : ℝ) * 2 ^ e := by positivity
    cases n
    · rfl
    · simp at hx; linarith
  have hm24 : m < 2 ^ 24 := by
    have := decodeF_finite (codeReal_eq_some.mp ha).1
    rw [hd, FVal.num.injEq] at this
    rw [this.2.1]; exact magSig_lt .fp32 _
  have h64 := two_pow_le_radicand e hm
  obtain ⟨h1, h2⟩ : fsqrtRoot m e * fsqrtRoot m e ≤ fsqrtRadicand m e ∧ fsqrtRadicand m e < (fsqrtRoot m e + 1) * (fsqrtRoot m e + 1) :=
    isqrt_spec (Nat.zero_le _) (radicand_lt e hm24)
  have hroot : 2 ^ 32 ≤ fsqrtRoot m e := by
    by_contra hlt
    have : (fsqrtRoot m e + 1) * (fsqrtRoot m e + 1) ≤ 2 ^ 32 * 2 ^ 32 := Nat.mul_le_mul (not_le.mp hlt) (not_le.mp hlt)
    omega
  rw [signR_false, one_mul, sqrt_eq_radicand, ← one_mul (Real.sqrt _ * _), ← signR_false] at hr ⊢
  rw [fSqrt_finite hd hm]
  exact rounded_roundNum (approx_sqrt h1 h2 _) (by omega) (fun _ => lt_of_lt_of_le (by decide) (le_log2_of_two_pow_le hroot)) hr

/-- Settles O12: what is rounded is exact, or for a quotient and a root known to within a unit far below the last place. -/
theorem arithmeticRoundsOnce : Obligations.ArithmeticRoundsOnce :=
  ⟨sumsAndProductsRound, fun _ _ _ _ _ ha hb => ⟨rounded_fDiv ha hb, rounded_fSqrt ha⟩⟩

/-! ### Values that the format holds (R20, R21) -/

section
variable {f : Fmt} {b : Nat}
theorem magSig_eq_zero (h : magSig f b = 0) : b = 0 := by
  have := Nat.two_pow_pos (manBits f)
  unfold magSig at h; split at h <;> omega
/-- The place of a magnitude's own last bit is the one at which it is rounded. -/
theorem roundPlace_mag (h : magSig f b ≠ 0) : roundPlace f (magSig f b) (magExp f b) = magExp f b := by
  unfold roundPlace
  have hlt := magSig_lt f b
  rw [← Nat.log2_lt h] at hlt
  unfold topExp
  by_cases hb : b < 2 ^ manBits f
  · have hsig : Nat.log2 (magSig f b) < manBits f := (Nat.log2_lt h).mpr (by rwa [magSig, if_pos hb])
    have hexp : magExp f b = emin f - manBits f := by simp [magExp, Nat.div_eq_of_lt hb]
    omega
  · have hsig : manBits f ≤ Nat.log2 (magSig f b) := le_log2_of_two_pow_le (by rw [magSig, if_neg hb]; omega)
    have hexp := emin_le_magExp f b
    omega
theorem packMag_mag : packMag f (magSig f b) (magExp f b) = b := by
  have hd := Nat.div_add_mod' b (2 ^ manBits f)
  by_cases hb : b < 2 ^ manBits f
  · have hs : magSig f b = b := if_pos hb
    rw [packMag, hs, if_pos hb]
  · have hs : magSig f b = b % 2 ^ manBits f + 2 ^ manBits f := if_neg hb
    have hE : 1 ≤ b / 2 ^ manBits f := (Nat.one_le_div_iff (Nat.two_pow_pos _)).mpr (not_lt.mp hb)
    rw [packMag, hs, if_neg (by omega), magExp, add_sub_cancel_left, Int.toNat_natCast, Nat.sub_mul, one_mul]
    have := Nat.mul_le_mul_right (2 ^ manBits f) hE
    omega
theorem roundIn_mag {rm : Rm} {neg : Bool} (h : magSig f b ≠ 0) :
    roundIn f rm neg (magSig f b) (magExp f b) false = ⟨signCode f neg + b, 0⟩ := by
  have hq := roundPlace_mag h
  unfold roundPlace at hq
  have hu : topExp (magSig f b) (magExp f b) - manBits f ≤ magExp f b := by omega
  unfold roundIn
  simp only [hq, roundAt_of_le le_rfl, roundAt_of_le hu]
  simp [packF_eq, packMag_mag]
end
theorem roundF_decodeF {f : Fmt} {c : Nat} {x : ℝ} (rm : Rm) (hc : c < 2 ^ fmtWidth f) (hx : codeReal f c = some x) :
    roundF f rm (decodeF f c) = ⟨c, 0⟩ := by
  obtain ⟨hle, -⟩ := codeReal_eq_some.mp hx
  have hcode := sign_add_codeMag hc
  rw [decodeF_finite hle, roundF, roundNum]
  split
  case isTrue h0 => rw [magSig_eq_zero h0, add_zero] at hcode; rw [hcode]
  case isFalse h0 =>
    have hr := outOfRange_eq_false (rm := rm) (neg := codeNeg f c) (approx_exact _ (magExp f (codeMag f c))) h0 (by simp)
      ((strictMono_magReal f).monotone hle)
    rw [hr, if_neg Bool.false_ne_true, roundIn_mag h0, hcode]
theorem ltV_iff {a b : FVal} {x y : ℝ} (ha : realOf a = some x) (hb : realOf b = some y) : ltV a b = true ↔ x < y := by
  obtain ⟨n1, m1, e1, rfl, rfl⟩ := realOf_eq_some.mp ha
  obtain ⟨n2, m2, e2, rfl, rfl⟩ := realOf_eq_some.mp hb
  have hp : (0 : ℝ) < 2 ^ min e1 e2 := by positivity
  have hs := sumAt_real (n1 := n1) (m1 := m1) (e1 := e1) (n2 := !n2) (m2 := m2) (e2 := e2)
  have hneg : signR (!n2) = -signR n2 := by cases n2 <;> simp
  have hlt : sumAt n1 m1 e1 (!n2) m2 e2 < 0 ↔ signR n1 * (m1 * 2 ^ e1) < signR n2 * (m2 * 2 ^ e2) := by
    rw [hneg, neg_mul, ← sub_eq_add_neg] at hs
    rw [← Int.cast_lt_zero (R := ℝ), ← mul_lt_mul_iff_left₀ hp, zero_mul, hs, sub_neg]
  rw [← hlt]
  by_cases h : sumAt n1 m1 e1 (!n2) m2 e2 = 0 <;> simp [ltV, addNum_eq, h]
theorem eqV_iff {a b : FVal} {x y : ℝ} (ha : realOf a = some x) (hb : realOf b = some y) : eqV a b = true ↔ x = y := by
  have h1 : isNan a = false := by obtain ⟨n, m, e, rfl, -⟩ := realOf_eq_some.mp ha; rfl
  have h2 : isNan b = false := by obtain ⟨n, m, e, rfl, -⟩ := realOf_eq_some.mp hb; rfl
  simp only [eqV, h1, h2, Bool.not_false, Bool.true_and, Bool.and_eq_true, Bool.not_eq_true', ← Bool.not_eq_true, ltV_iff ha hb,
    ltV_iff hb ha, not_lt]
  exact ⟨fun h => le_antisymm h.2 h.1, fun h => ⟨h.ge, h.le⟩⟩

/-- Settles O13: a finite code's significand and exponent pack to that code at its own place, and a comparison looks at the sign of the
exact difference. -/
theorem exactValuesStay : Obligations.ExactValuesStay :=
  ⟨fun _ rm _ hc ⟨_, hx⟩ => roundF_decodeF rm hc hx, fun _ _ _ _ ha hb => ⟨ltV_iff ha hb, eqV_iff ha hb⟩⟩

end Sys2Proof.Machine

/-! # The groups of a matrix element (O26), and an MMA of a format that MMA does not have (O25) -/
namespace Sys2Proof.Machine
open Sys2Proof.Claim

/-! ### Sums of products in the matrix engine (R25) -/

theorem productSum_cons {x y : FVal} {r : List (FVal × FVal)} {t : ℝ} : productSum ((x, y) :: r) = some t ↔
    ∃ p q s, realOf x = some p ∧ realOf y = some q ∧ productSum r = some s ∧ p * q + s = t := by
  simp [productSum, Option.bind_eq_some_iff]
/-- Products that have a real sum are of finite values. -/
theorem finite_of_productSum {l : List (FVal × FVal)} {t : ℝ} (h : productSum l = some t) {x y : FVal} (hp : (x, y) ∈ l) :
    (∃ p, realOf x = some p) ∧ ∃ q, realOf y = some q := by
  induction l generalizing t with
  | nil => cases hp
  | cons a r ih =>
    obtain ⟨p, q, s, h1, h2, h3, -⟩ := productSum_cons.mp h
    rcases List.mem_cons.mp hp with rfl | hp
    · exact ⟨⟨p, h1⟩, q, h2⟩
    · exact ih h3 hp
/-- One more product of a group, before rounding. -/
def addProduct (acc : Fr FVal) (q : FVal × FVal) : Fr FVal :=
  let p := mulV q.1 q.2
  let t := addV .rne acc.v p.v
  ⟨t.v, acc.f ||| p.f ||| t.f⟩
theorem groupSum_cons (x y : FVal) (r : List (FVal × FVal)) :
    groupSum ((x, y) :: r) = withRound .fp32 .rne (r.foldl addProduct (mulV x y)) := rfl
/-- The sum of a group's finite products is formed exactly. -/
theorem foldl_addProduct_finite {acc : Fr FVal} {s t : ℝ} {r : List (FVal × FVal)} (ha : realOf acc.v = some s ∧ acc.f = 0)
    (hr : productSum r = some t) : realOf (r.foldl addProduct acc).v = some (s + t) ∧ (r.foldl addProduct acc).f = 0 := by
  induction r generalizing acc s t with
  | nil =>
    obtain rfl : 0 = t := Option.some.inj hr
    simpa using ha
  | cons q r ih =>
    obtain ⟨u, v, w, h1, h2, h3, rfl⟩ := productSum_cons.mp hr
    obtain ⟨hm, hf⟩ := mulV_finite h1 h2
    obtain ⟨hs, hg⟩ := addV_finite (rm := .rne) ha.1 hm
    rw [← add_assoc]
    exact ih ⟨hs, by simp [addProduct, ha.2, hf, hg]⟩ h3
/-- A group's exact sum, other than 0 and in range, is rounded once, to nearest even. -/
theorem groupSum_nearest {l : List (FVal × FVal)} {x : ℝ} (h : productSum l = some x) (h0 : x ≠ 0) (hx : InRange .fp32 x) :
    RoundsNearest .fp32 x (groupSum l).v := by
  cases l with
  | nil => exact absurd (Option.some.inj h).symm h0
  | cons q r =>
    obtain ⟨u, v, w, h1, h2, h3, rfl⟩ := productSum_cons.mp h
    exact (rounded_withRound (rm := .rne) (foldl_addProduct_finite (mulV_finite h1 h2) h3) h0 hx).1

theorem groupsOf_eq {α : Type} (g n : Nat) (l : List α) : groupsOf g n l = (List.range n).map fun i => (l.drop (i * g)).take g := by
  induction n generalizing l with
  | zero => rfl
  | succ n ih => simp [groupsOf, ih, List.range_succ_eq_map, Nat.succ_mul, Nat.add_comm]
/-- A list of n groups' length is made of its groups. -/
theorem mem_group_of_mem {α : Type} {g n : Nat} {l : List α} {x : α} (hl : l.length = n * g) (hx : x ∈ l) :
    ∃ i < n, x ∈ (l.drop (i * g)).take g := by
  obtain ⟨k, hk, rfl⟩ := List.mem_iff_getElem.mp hx
  have hg : 0 < g := Nat.pos_of_ne_zero fun h => by simp [hl, h] at hk
  refine ⟨k / g, Nat.div_lt_of_lt_mul (by rwa [Nat.mul_comm, ← hl]), List.mem_iff_getElem.mpr ⟨k % g, ?_, ?_⟩⟩
  all_goals have := Nat.div_add_mod' k g; have := Nat.mod_lt k hg
  · rw [List.length_take, List.length_drop]; omega
  · simp [Nat.div_add_mod']
theorem not_nan_of_real {v : FVal} (h : ∃ p, realOf v = some p) : isNan v = false := by
  obtain ⟨p, h⟩ := h; obtain ⟨n, m, e, rfl, -⟩ := realOf_eq_some.mp h; rfl
theorem not_infZero_of_real {x y : FVal} (hx : ∃ p, realOf x = some p) (hy : ∃ p, realOf y = some p) : infZero (x, y) = false := by
  obtain ⟨p, hx⟩ := hx; obtain ⟨n, m, e, rfl, -⟩ := realOf_eq_some.mp hx
  obtain ⟨q, hy⟩ := hy; obtain ⟨n', m', e', rfl, -⟩ := realOf_eq_some.mp hy
  simp [infZero, isInfV]
/-- Rows whose pairs are all finite give no NaN. -/
theorem mmaElem_finite {a b : List FVal} (hl : a.length = b.length)
    (h : ∀ x y, (x, y) ∈ a.zip b → (∃ p, realOf x = some p) ∧ ∃ q, realOf y = some q) :
    mmaElem a b = (chainFr (fAdd .fp32 .rne) ((groupsOf (a.length / 4) 4 (a.zip b)).map groupSum)).getD (exact 0) := by
  have ha : a.any isNan = false := by
    rw [← List.map_fst_zip hl.le, List.any_map, List.any_eq_false]
    exact fun p hp => by simp [not_nan_of_real (h p.1 p.2 hp).1]
  have hb : b.any isNan = false := by
    rw [← List.map_snd_zip hl.ge, List.any_map, List.any_eq_false]
    exact fun p hp => by simp [not_nan_of_real (h p.1 p.2 hp).2]
  have hz : (a.zip b).any infZero = false := by
    rw [List.any_eq_false]
    exact fun p hp => by simp [not_infZero_of_real (h p.1 p.2 hp).1 (h p.1 p.2 hp).2]
  simp [mmaElem, ha, hb, hz]

/-- Settles O26: the rows are finite, so the element is the chain of its groups, each formed exactly and rounded once. -/
theorem matrixGroupsRound : Obligations.MatrixGroupsRound := by
  intro a b n x ha hb hn hx
  have hz : (a.zip b).length = 4 * n := by simp [ha, hb]
  have hfin : ∀ u v, (u, v) ∈ a.zip b → (∃ p, realOf u = some p) ∧ ∃ q, realOf v = some q := fun u v huv => by
    obtain ⟨g, hg, hmem⟩ := mem_group_of_mem hz huv
    exact finite_of_productSum (hx g hg).1 hmem
  refine ⟨fun g => (groupSum (((a.zip b).drop (g * n)).take n)).v, fun g hg => ?_, ?_⟩
  · obtain ⟨hs, h0, hr⟩ := hx g hg
    exact groupSum_nearest hs h0 hr
  · rw [mmaElem_finite (ha.trans hb.symm) hfin, ha, Nat.mul_div_cancel_left n four_pos, groupsOf_eq]
    rfl

/-! ### A retiring matrix operation (R243, R248) -/

/-- An element of a map of results that lists what is not 0. -/
theorem mapGet_results (r : Nat → Fr Nat) (l : List Nat) (k : Nat) :
    (mapGet 0 ((l.map fun i => (i, r i)).filterMap fun e => if e.2.v % 2 ^ 32 = 0 then none else some (e.1, BitVec.ofNat 32 e.2.v)) k).toNat =
      if k ∈ l then (r k).v % 2 ^ 32 else 0 := by
  induction l with
  | nil => rfl
  | cons i l ih =>
    rw [List.map_cons]
    by_cases hz : (r i).v % 2 ^ 32 = 0
    · rw [List.filterMap_cons_none (by exact if_pos hz), ih]
      by_cases hk : k = i
      · subst hk; rw [hz, ite_self, ite_self]
      · simp [hk]
    · rw [List.filterMap_cons_some (by exact if_neg hz), mapGet]
      by_cases hk : i = k
      · subst hk; simp
      · rw [if_neg hk, ih]; simp [Ne.symm hk]
/-- An element of a tile of results. -/
theorem accGet_tileOf (f : Nat → Nat → Fr Nat) {i j : Nat} (hi : i < 64) (hj : j < 96) :
    accGet (tileOf f).1 i j = (f i j).v % 2 ^ 32 := by
  have hd : (96 * i + j) / 96 = i := by omega
  have hm : (96 * i + j) % 96 = j := by omega
  rw [accGet, accIdx, tileOf, mapGet_results, if_pos (List.mem_range.mpr (by omega)), hd, hm]
/-- What a retiring MMA makes of an element of P, from the lines it has read. -/
theorem accGet_pAcc_mma (k : Core) {it : MatItem} {fa fb : Fmt} {mc : Bool} {ba bb sa sb : Nat} (h : it.op = .mma fa fb mc ba bb sa sb)
    {i j : Nat} (hi : i < 64) (hj : j < 96) : accGet (matEffect k it).1.pAcc i j =
      (orNan (spoiled it (ba + i * sa) (rowBytes fa) || spoiled it (bb + j * sb) (rowBytes fb))
        (mmaElem (matRow it fa (ba + i * sa)) (matRow it fb (bb + j * sb)))).v % 2 ^ 32 := by
  unfold matEffect
  rw [h]
  dsimp only
  rw [accGet_tileOf _ hi hj]
  simp [hi, hj]
/-- Retirement leaves in P what the operation made of it. -/
theorem pAcc_matRetire (k : Core) (it : MatItem) : (matRetire k it).pAcc = (matEffect k it).1.pAcc := by
  unfold matRetire
  dsimp only
  split
  · rfl
  · exact mapThread_pAcc ..
/-- The head of the engine queue reads the lines it lacks and retires. -/
theorem execMatrixOpRetire_head {s : State} {c : Coord} {it : MatItem} {r : List MatItem} (hq : (coreAt s c).engQ = it :: r)
    (hp : (coreAt s c).accPresent = true) : ∃ s1, exec (.matrixOpRetire c) s =
      .next (mapCore s1 c fun k => matRetire k (allLines s c it)) := by
  refine ⟨readLines s c (((allLines s c it).lines.drop it.lines.length).map (·.1)), ?_⟩
  show execMatrixOpRetire c s = _
  rw [execMatrixOpRetire, event_run, hq]
  exact congrArg Host.Outcome.next (if_pos hp)

/-! ### A format that MMA does not have -/

/-- An MMA of two FP32 operands, both at address 0 with stride 0: no instruction queues one (R246), and the engine reads 128 bytes of a
row that would take 512. -/
def fp32Item : MatItem := ⟨0, .stream 0 .exec, 0, 0, [], .mma .fp32 .fp32 false 0 0 0 0, [], []⟩
/-- It stands at the head of core 0's engine, and element 32 of every row, at byte 128, is 1.0. -/
def fp32Head : State :=
  { State.reset with cores := [(0, { Core.reset with engQ := [fp32Item], mem := [(130, 0x80), (131, 0x3F)] })] }

theorem fp32Head_engine : EngineHead fp32Head 0 fp32Item :=
  ⟨⟨[], rfl⟩, by decide +kernel, rfl, rfl, by decide +kernel, by decide⟩
/-- The rows as the statement reads them have the product 1.0. -/
theorem fp32_rows_one : (mmaElem (operandRow (coreAt fp32Head 0).mem .fp32 0 0 0) (operandRow (coreAt fp32Head 0).mem .fp32 0 0 0)).v =
    0x3F800000 := by decide +kernel
/-- The rows as the engine reads them are 0. -/
theorem fp32_lines_zero : (let it := allLines fp32Head 0 fp32Item
    (orNan (spoiled it 0 (rowBytes .fp32) || spoiled it 0 (rowBytes .fp32)) (mmaElem (matRow it .fp32 0) (matRow it .fp32 0))).v) = 0 := by
  decide +kernel

/-- Refutes O25: MatrixRetires lets an MMA's formats be any two with rows of as many elements, FP32 among them, although no MMA takes
FP32 (R246). The statement's row of FP32 has 512 bytes, the engine's 128, so that an element past byte 128 counts in the one and not
in the other. -/
theorem not_matrixRetires : ¬Obligations.MatrixRetires := by
  rintro ⟨h, -⟩
  obtain ⟨t, ht, -, hmma, -⟩ := h fp32Head 0 fp32Item fp32Head_engine
  obtain ⟨s1, hs⟩ := execMatrixOpRetire_head (s := fp32Head) (c := 0) (it := fp32Item) (r := []) rfl (by decide +kernel)
  obtain rfl := Host.Outcome.next.inj (ht.symm.trans hs)
  have hop : (allLines fp32Head 0 fp32Item).op = .mma .fp32 .fp32 false 0 0 0 0 := by decide +kernel
  obtain ⟨-, -, -, helem⟩ := hmma _ _ _ _ _ _ _ rfl rfl (by decide) (by decide)
  have h1 := helem 0 (by decide) 0 (by decide)
  rw [fp32_rows_one, coreAt_mapCore, pAcc_matRetire, accGet_pAcc_mma _ hop (by decide) (by decide)] at h1
  exact absurd (fp32_lines_zero ▸ h1) (by decide)

end Sys2Proof.Machine

/-! # Decoding what the encoder writes (O55, O56)

The encoder writes a chain in the order of R37; reading it gives each word its place (chainRead_ordered), so that the decoder's fields
are the operands (reads_asm) where the base word is laid out as its row says (Layout). Each instruction is then a row, a layout and
operands that suit the row (decode_encode). -/
namespace Sys2Proof

/-! ### Fields of words -/

theorem hb_ofNat {n : Nat} (h : n < 65536) (hi lo : Nat) : hb (BitVec.ofNat 16 n) hi lo = n / 2 ^ lo % 2 ^ (hi + 1 - lo) := by
  rw [hb, BitVec.toNat_ofNat, Nat.mod_eq_of_lt h]
theorem toNat_ofNat_half {n : Nat} (h : n < 65536) : (BitVec.ofNat 16 n).toNat = n := by
  rw [BitVec.toNat_ofNat, Nat.mod_eq_of_lt h]
/-- The major opcode is the upper part of the tag of R36. -/
theorem hb_major (w : Half) : hb w 15 12 = hb w 15 10 / 4 := by
  simp only [hb]; omega

/-! ### Reading a chain in the order of R37 -/

theorem chainRead_cons {c : Chain} (h : chainDone c = false) (w : Half) (r : List Half) :
    chainRead c (w :: r) = chainRead (chainAdd c w) r := by
  rw [chainRead, if_neg (by simp [h])]
theorem chainRead_done {c : Chain} (h : chainDone c = true) (r : List Half) : chainRead c r = c := by
  cases r with
  | nil => rfl
  | cons w r => rw [chainRead, if_pos h]

/-- An XI word, a page word, an XR word, an XV word (R36): the tag, and bit 0 at 0. -/
def PageWord (w : Half) : Prop := hb w 15 10 = 0x34 ∧ w[0] = false
def XrWord (w : Half) : Prop := hb w 15 10 = 0x35 ∧ w[0] = false
def XvWord (w : Half) : Prop := hb w 15 10 = 0x36 ∧ w[0] = false

section
variable {xis : List Half} {xp xr xv : Option Half} {n : Nat} {w : Half}

theorem chainAdd_xi (hw : isXi w = true) (hl : xis.length < 2) :
    chainAdd ⟨xis, none, none, none, none, none, n⟩ w = ⟨xis ++ [w], none, none, none, none, none, n + 1⟩ := by
  simp [chainAdd, chainFault, hw, hl]
theorem chainAdd_xp (hw : PageWord w) :
    chainAdd ⟨xis, none, none, none, none, none, n⟩ w = ⟨xis, some w, none, none, none, none, n + 1⟩ := by
  simp [chainAdd, chainFault, isXi, isXp, hb_major, hw.1, hw.2]
theorem chainAdd_xr (hw : XrWord w) :
    chainAdd ⟨xis, xp, none, none, none, none, n⟩ w = ⟨xis, xp, some w, none, none, none, n + 1⟩ := by
  simp [chainAdd, chainFault, isXi, isXp, isXr, hb_major, hw.1, hw.2]
theorem chainAdd_xv (hw : XvWord w) :
    chainAdd ⟨xis, xp, none, none, none, none, n⟩ w = ⟨xis, xp, none, some w, none, none, n + 1⟩ := by
  simp [chainAdd, chainFault, isXi, isXp, isXr, isXv, hb_major, hw.1, hw.2]
theorem chainAdd_base (hw : isPre w = false) (hp : xp.isSome = true → hb w 15 12 = 14) :
    chainAdd ⟨xis, xp, xr, xv, none, none, n⟩ w = ⟨xis, xp, xr, xv, some w, none, n + 1⟩ := by
  simp only [isPre, Bool.or_eq_false_iff] at hw
  obtain ⟨⟨⟨h1, h2⟩, h3⟩, h4⟩ := hw
  cases xp <;> simp_all [chainAdd, chainFault]

theorem chainRead_xis (hx : ∀ x ∈ xis, isXi x = true) (hl : xis.length ≤ 2) (r : List Half) :
    ∃ m, chainRead Chain.start (xis ++ r) = chainRead ⟨xis, none, none, none, none, none, m⟩ r := by
  match xis, hx, hl with
  | [], _, _ => exact ⟨0, rfl⟩
  | [x], hx, _ =>
    refine ⟨1, ?_⟩
    rw [List.cons_append, chainRead_cons rfl, Chain.start, chainAdd_xi (hx x (by simp)) (by simp)]
    rfl
  | [x, y], hx, _ =>
    refine ⟨2, ?_⟩
    rw [List.cons_append, chainRead_cons rfl, Chain.start, chainAdd_xi (hx x (by simp)) (by simp), List.cons_append,
      chainRead_cons rfl, chainAdd_xi (hx y (by simp)) (by simp)]
    rfl
theorem chainRead_xp (hx : ∀ x ∈ xp, PageWord x) (r : List Half) :
    ∃ m, chainRead ⟨xis, none, none, none, none, none, n⟩ (xp.toList ++ r) = chainRead ⟨xis, xp, none, none, none, none, m⟩ r := by
  cases xp with
  | none => exact ⟨n, rfl⟩
  | some x => exact ⟨n + 1, by rw [← chainAdd_xp (hx x rfl)]; exact chainRead_cons rfl x r⟩
/-- A register of one kind only is extended (R38): there is an XR word or an XV word, or none. -/
theorem chainRead_ext (hr : ∀ x ∈ xr, XrWord x) (hv : ∀ x ∈ xv, XvWord x) (hone : xr = none ∨ xv = none) (r : List Half) :
    ∃ m, chainRead ⟨xis, xp, none, none, none, none, n⟩ (xr.toList ++ (xv.toList ++ r)) =
      chainRead ⟨xis, xp, xr, xv, none, none, m⟩ r := by
  match xr, xv, hone with
  | none, none, _ => exact ⟨n, rfl⟩
  | some x, none, _ => exact ⟨n + 1, by rw [← chainAdd_xr (hr x rfl)]; exact chainRead_cons rfl x r⟩
  | none, some x, _ => exact ⟨n + 1, by rw [← chainAdd_xv (hv x rfl)]; exact chainRead_cons rfl x r⟩
  | some _, some _, h => simp at h

/-- Words in the order of R37 are one chain, each word in its place. -/
theorem chainRead_ordered (hxi : ∀ x ∈ xis, isXi x = true) (hl : xis.length ≤ 2) (hxp : ∀ x ∈ xp, PageWord x)
    (hr : ∀ x ∈ xr, XrWord x) (hv : ∀ x ∈ xv, XvWord x) (hone : xr = none ∨ xv = none) (hw : isPre w = false)
    (hp : xp.isSome = true → hb w 15 12 = 14) :
    ∃ m, chainRead Chain.start (xis ++ (xp.toList ++ (xr.toList ++ (xv.toList ++ [w])))) = ⟨xis, xp, xr, xv, some w, none, m⟩ := by
  obtain ⟨m1, h1⟩ := chainRead_xis hxi hl (xp.toList ++ (xr.toList ++ (xv.toList ++ [w])))
  obtain ⟨m2, h2⟩ := chainRead_xp (xis := xis) (n := m1) hxp (xr.toList ++ (xv.toList ++ [w]))
  obtain ⟨m3, h3⟩ := chainRead_ext (xis := xis) (xp := xp) (n := m2) hr hv hone [w]
  refine ⟨m3 + 1, ?_⟩
  rw [h1, h2, h3, chainRead_cons rfl, chainAdd_base hw hp]
  exact chainRead_done rfl []
end

/-- A chain that passes checks 2 to 5 of R47 is the instruction of its row. -/
theorem decodeChain_ok {c : Chain} {w : Half} {r : Row} (hbad : c.bad = none) (hbase : c.base = some w) (hrow : findRow c.xp w = .ok r)
    (h4 : check4 r c = none) (h5 : check5 r (fieldsOf r c w) w = none) : decodeChain c = r.build (fieldsOf r c w) := by
  simp [decodeChain, hbad, hbase, hrow, h4, h5]

/-! ### XR and XV words of the encoder -/

/-- The payload of an XR word, of an XV word (R40, R39). -/
def xrBits (a b c : Fe) : Nat := gHi a * 256 + gHi b * 64 + gHi c * 16 + (gSp a * 8 + gSp b * 4 + gSp c * 2)
def xvBits (a b c : Fe) (vm : MReg) : Nat := vHi a * 256 + vHi b * 64 + vHi c * 16 + 2 * vm.toNat
/-- The word of a tag, where its payload is not 0. -/
def extWord (tag bits : Nat) : Option Half := if bits = 0 then none else some (BitVec.ofNat 16 (tag + bits))
/-- The number of the base word. -/
def baseNum (base : Nat) (lowC : Bool) (a b c : Fe) (q : Nat) : Nat :=
  base + feLow a * 512 + feLow b * 64 + (if lowC then feLow c else feLow c * 8) + q

theorem asm_eq (xp : Option Half) (base : Nat) (lowC : Bool) (a b c : Fe) (im : Im) (vm : MReg) :
    asm xp base lowC a b c im vm = im.xis ++ (xp.toList ++ ((extWord 0xD400 (xrBits a b c)).toList ++
      ((extWord 0xD800 (xvBits a b c vm)).toList ++ [BitVec.ofNat 16 (baseNum base lowC a b c im.base)]))) := by
  have hx : gSp a * 8 + gSp b * 4 + gSp c * 2 + (gHi a * 256 + gHi b * 64 + gHi c * 16) = 0 ↔ xrBits a b c = 0 := by
    unfold xrBits; omega
  have hv : vHi a * 256 + vHi b * 64 + vHi c * 16 + vm.toNat = 0 ↔ xvBits a b c vm = 0 := by
    unfold xvBits; omega
  simp only [asm, extWord, hx, hv, List.append_assoc]
  congr 4 <;> split <;> simp_all [xrBits, xvBits, Nat.add_assoc]

/-! ### Operands in their fields -/

theorem feLow_lt (x : Fe) : feLow x < 8 := by
  match x with
  | .n => decide
  | .g (.g n) | .g (.sp n) => exact Nat.mod_lt _ (by decide)
  | .v r => exact Nat.mod_lt _ (by decide)
  | .l b => exact b.isLt
theorem gHi_lt (x : Fe) : gHi x < 4 := by
  match x with
  | .g (.g n) | .g (.sp n) => have := n.isLt; simp only [gHi]; omega
  | .n | .v _ | .l _ => exact Nat.zero_lt_succ 3
theorem gSp_lt (x : Fe) : gSp x < 2 := by
  match x with
  | .g (.sp _) | .g (.g _) | .n | .v _ | .l _ => simp [gSp]
theorem vHi_lt (x : Fe) : vHi x < 4 := by
  match x with
  | .v n => have := n.isLt; simp only [vHi]; omega
  | .n | .g _ | .l _ => exact Nat.zero_lt_succ 3

/-- A payload of at most 10 bits, read back from its word or from the word's absence. -/
theorem toNat_extWord {tag n : Nat} (ht : tag ∈ [0xD400, 0xD800]) (h : n < 1024) : ((extWord tag n).getD 0).toNat % 1024 = n := by
  unfold extWord
  split
  · simp_all
  · rw [Option.getD_some, toNat_ofNat_half (by simp at ht; omega)]
    simp at ht
    omega
theorem xrBits_lt (a b c : Fe) : xrBits a b c < 1024 := by
  have := gHi_lt a; have := gHi_lt b; have := gHi_lt c
  have := gSp_lt a; have := gSp_lt b; have := gSp_lt c
  unfold xrBits; omega
theorem xvBits_lt (a b c : Fe) (vm : MReg) : xvBits a b c vm < 1024 := by
  have := vHi_lt a; have := vHi_lt b; have := vHi_lt c; have := vm.isLt
  unfold xvBits; omega
theorem xrWord_extWord (a b c : Fe) : ∀ x ∈ extWord 0xD400 (xrBits a b c), XrWord x := by
  have hlt := xrBits_lt a b c
  have heven : xrBits a b c % 2 = 0 := by unfold xrBits; omega
  intro x hx
  simp only [extWord, Option.mem_def, Option.ite_none_left_eq_some, Option.some.injEq] at hx
  obtain ⟨-, rfl⟩ := hx
  refine ⟨by rw [hb_ofNat (by omega)]; omega, ?_⟩
  simp [BitVec.getElem_eq_testBit_toNat, toNat_ofNat_half (show 0xD400 + xrBits a b c < 65536 by omega)]
  omega
theorem xvWord_extWord (a b c : Fe) (vm : MReg) : ∀ x ∈ extWord 0xD800 (xvBits a b c vm), XvWord x := by
  have hlt := xvBits_lt a b c vm
  have heven : xvBits a b c vm % 2 = 0 := by unfold xvBits; omega
  intro x hx
  simp only [extWord, Option.mem_def, Option.ite_none_left_eq_some, Option.some.injEq] at hx
  obtain ⟨-, rfl⟩ := hx
  refine ⟨by rw [hb_ofNat (by omega)]; omega, ?_⟩
  simp [BitVec.getElem_eq_testBit_toNat, toNat_ofNat_half (show 0xD800 + xvBits a b c vm < 65536 by omega)]
  omega

/-- The extension fields of XR and XV, read back. -/
structure ExtFields (xr xv : Half) (a b c : Fe) (vm : MReg) : Prop where
  ga : hb xr 9 8 = gHi a
  gb : hb xr 7 6 = gHi b
  gc : hb xr 5 4 = gHi c
  sa : xr.getLsbD 3 = decide (gSp a = 1)
  sb : xr.getLsbD 2 = decide (gSp b = 1)
  sc : xr.getLsbD 1 = decide (gSp c = 1)
  va : hb xv 9 8 = vHi a
  vb : hb xv 7 6 = vHi b
  vc : hb xv 5 4 = vHi c
  vm : hb xv 3 1 = vm.toNat
theorem extFields (a b c : Fe) (vm : MReg) :
    ExtFields ((extWord 0xD400 (xrBits a b c)).getD 0) ((extWord 0xD800 (xvBits a b c vm)).getD 0) a b c vm := by
  have hr := toNat_extWord (tag := 0xD400) (by decide) (xrBits_lt a b c)
  have hv := toNat_extWord (tag := 0xD800) (by decide) (xvBits_lt a b c vm)
  generalize (extWord 0xD400 (xrBits a b c)).getD 0 = xr at *
  generalize (extWord 0xD800 (xvBits a b c vm)).getD 0 = xv at *
  have := gHi_lt a; have := gHi_lt b; have := gHi_lt c
  have := gSp_lt a; have := gSp_lt b; have := gSp_lt c
  have := vHi_lt a; have := vHi_lt b; have := vHi_lt c; have := vm.isLt
  unfold xrBits at hr
  unfold xvBits at hv
  constructor <;>
    simp only [hb, BitVec.getLsbD, Nat.testBit_eq_decide_div_mod_eq, decide_eq_decide] <;> omega

theorem gReg_eq {f : Fld} {b : BitVec 3} {lo sp : Nat} {x : GReg} (hh : hb f.xr (lo + 1) lo = gHi (.g x))
    (hs : f.xr.getLsbD sp = decide (gSp (.g x) = 1)) (hlow : b.toNat = feLow (.g x)) : f.gReg b lo sp = x := by
  have key (n : BitVec 5) : BitVec.ofNat 5 (n.toNat / 8 * 8 + n.toNat % 8) = n := by
    rw [Nat.div_add_mod', BitVec.ofNat_toNat, BitVec.setWidth_eq]
  cases x <;> simp_all [Fld.gReg, gHi, gSp, feLow]
theorem vReg_eq {f : Fld} {b : BitVec 3} {lo : Nat} {x : VReg} (hh : hb f.xv (lo + 1) lo = vHi (.v x)) (hlow : b.toNat = feLow (.v x)) :
    f.vReg b lo = x := by
  rw [Fld.vReg, hh, hlow, vHi, feLow, Nat.div_add_mod', BitVec.ofNat_toNat, BitVec.setWidth_eq]

/-- The operand that a field of kind `k` holds is one that R40 allows there. -/
def kindOk : Fk → Fe → Bool
  | .z, .n | .v, .v _ | .l, .l _ | .l, .n => true
  | .gr, .g x => rOk x
  | .gw, .g x => wOk x
  | .gq, .g x => qOk x
  | _, _ => false
/-- A field that holds no operand, but bits of the immediate or of the selector. -/
def spare : Fk → Fe → Bool
  | .l, .n => true
  | _, _ => false
/-- An operand that needs XR, that needs XV (R36). -/
def feXr : Fe → Bool
  | .g x => needsXr x
  | _ => false
def feXv : Fe → Bool
  | .v x => decide (7 < x.toNat)
  | _ => false
/-- The operands of a row: each of its kind, a mask only where the row takes one (R39), and one kind of extension (R38). -/
def opsOk (r : Row) (a b c : Fe) (vm : MReg) : Bool :=
  kindOk r.ka a && kindOk r.kb b && kindOk r.kc c && (r.mask || vm == 0) &&
    !((feXr a || feXr b || feXr c) && (feXv a || feXv b || feXv c || vm != 0))

theorem gHi_of_feXr {x : Fe} (h : feXr x = false) : gHi x = 0 ∧ gSp x = 0 := by
  match x with
  | .g (.g n) => simp [feXr, needsXr] at h; simp [gHi, gSp]; omega
  | .g (.sp n) => simp [feXr, needsXr] at h
  | .n | .v _ | .l _ => exact ⟨rfl, rfl⟩
theorem vHi_of_feXv {x : Fe} (h : feXv x = false) : vHi x = 0 := by
  match x with
  | .v n => simp [feXv] at h; simp [vHi]; omega
  | .n | .g _ | .l _ => rfl
theorem xrBits_eq_zero {a b c : Fe} (h : (feXr a || feXr b || feXr c) = false) : xrBits a b c = 0 := by
  simp only [Bool.or_eq_false_iff] at h
  obtain ⟨⟨ha, hb⟩, hc⟩ := h
  simp [xrBits, gHi_of_feXr ha, gHi_of_feXr hb, gHi_of_feXr hc]
theorem xvBits_eq_zero {a b c : Fe} {vm : MReg} (h : (feXv a || feXv b || feXv c || vm != 0) = false) : xvBits a b c vm = 0 := by
  simp only [Bool.or_eq_false_iff, bne_eq_false_iff_eq] at h
  obtain ⟨⟨⟨ha, hb⟩, hc⟩, rfl⟩ := h
  simp [xvBits, vHi_of_feXv ha, vHi_of_feXv hb, vHi_of_feXv hc]
theorem isG_of_gHi {k : Fk} {x : Fe} (h : kindOk k x = true) (hk : isG k = false) : gHi x = 0 ∧ gSp x = 0 := by
  cases k <;> cases x <;> simp_all [kindOk, isG, gHi, gSp]
theorem isV_of_vHi {k : Fk} {x : Fe} (h : kindOk k x = true) (hk : isV k = false) : vHi x = 0 := by
  cases k <;> cases x <;> simp_all [kindOk, isV, vHi]

/-! ### Immediates (R39) -/

theorem isXi_xiWord (p : Nat) : isXi (xiWord p) = true := by
  rw [isXi, xiWord, hb_ofNat (by omega)]
  simp only [beq_iff_eq]
  omega
theorem hb_xiWord (p : Nat) : hb (xiWord p) 11 0 = p % 4096 := by
  rw [xiWord, hb_ofNat (by omega)]
  omega

section
variable {p lo wb k : Nat}

theorem isXi_imOf : ∀ x ∈ (imOf p lo wb k).xis, isXi x = true := by
  unfold imOf
  split <;> (try split) <;> simp [isXi_xiWord]
theorem length_imOf (hk : k ≤ 2) : (imOf p lo wb k).xis.length = k := by
  unfold imOf
  split <;> (try split) <;> simp <;> omega
/-- The XI payloads and the base bits give the immediate's bits again. -/
theorem assemble_imOf (hk : k ≤ 2) (hp : p < 2 ^ (wb + 12 * k)) :
    (imOf p lo wb k).xis.foldl (fun v x => v * 4096 + hb x 11 0) 0 * 2 ^ wb + p % 2 ^ wb = p := by
  have hback := Nat.div_add_mod' p (2 ^ wb)
  have hbound : p / 2 ^ wb < 2 ^ (12 * k) := Nat.div_lt_of_lt_mul (by rwa [← pow_add])
  have hsplit : p / 2 ^ (wb + 12) = p / 2 ^ wb / 4096 := by
    rw [pow_add, ← Nat.div_div_eq_div_mul]
    norm_num
  obtain rfl | rfl | rfl : k = 0 ∨ k = 1 ∨ k = 2 := by omega
  · simpa [imOf] using Nat.mod_eq_of_lt hp
  · have hmid : p / 2 ^ wb % 4096 = p / 2 ^ wb := Nat.mod_eq_of_lt hbound
    simp [imOf, hb_xiWord, hmid, hback]
  · have hmid : p / 2 ^ wb / 4096 % 4096 * 4096 + p / 2 ^ wb % 4096 = p / 2 ^ wb := by
      generalize p / 2 ^ wb = t at hbound ⊢
      omega
    simp [imOf, hb_xiWord, hsplit, hmid, hback]
end

/-- The place and width of a row's immediate, in its field c and below. -/
def immRow (r : Row) (lo wb xi : Nat) : Bool := r.kc == .l && r.immLo == lo && r.immW == wb && r.xiMax == xi && r.low == 0
/-- The words `im` of a row's immediate: at most as many XI as the row takes, and a decoded field that holds their bits has `P`. -/
def ImmIs (r : Row) (im : Im) (P : Fld → Prop) : Prop :=
  ∃ p k, im = imOf p r.immLo r.immW k ∧ k ≤ r.xiMax ∧ k ≤ 2 ∧ p < 2 ^ (r.immW + 12 * k) ∧
    ∀ f : Fld, f.imm = p → f.immW = 12 * k + r.immW → P f

theorem immIs_none {r : Row} (h : r.immW = 0) : ImmIs r noImm fun _ => True :=
  ⟨0, 0, by simp [imOf, noImm], Nat.zero_le _, by decide, by simp [h], fun _ _ _ => trivial⟩
theorem ImmIs.base {r : Row} {im : Im} {P : Fld → Prop} (h : ImmIs r im P) : ∃ q < 2 ^ r.immW, im.base = q * 2 ^ r.immLo := by
  obtain ⟨p, k, rfl, -⟩ := h
  exact ⟨p % 2 ^ r.immW, Nat.mod_lt _ (Nat.two_pow_pos _), rfl⟩

/-- An unsigned immediate of the width that the XI words of a row can give. -/
theorem immIs_zw {r : Row} {n lo wb xi : Nat} (hr : immRow r lo wb xi = true) (h2 : xi = 1 ∨ xi = 2)
    (hn : n = wb + 12 * xi) (i : BitVec n) : ImmIs r (zw i lo wb xi) fun f => f.zi n = i := by
  simp only [immRow, Bool.and_eq_true, beq_iff_eq] at hr
  obtain ⟨⟨⟨⟨-, rfl⟩, rfl⟩, rfl⟩, -⟩ := hr
  have hlt : i.toNat < 2 ^ (r.immW + 12 * r.xiMax) := hn ▸ i.isLt
  have hz (f : Fld) (h : f.imm = i.toNat) : f.zi n = i := by simp [Fld.zi, h]
  unfold zw
  dsimp only
  split
  · exact ⟨_, 0, rfl, by omega, by omega, by simpa, fun f h _ => hz f h⟩
  · split
    next h1 =>
      refine ⟨_, 1, rfl, by omega, by omega, ?_, fun f h _ => hz f h⟩
      rcases h2 with h2 | h2 <;> simp_all
    next h1 =>
      have : r.xiMax = 2 := by rcases h2 with h2 | h2 <;> simp_all
      exact ⟨_, 2, rfl, by omega, by omega, by rwa [this] at hlt, fun f h _ => hz f h⟩

theorem fitsS_iff {x : Int} {w : Nat} : fitsS x w = true ↔ -(2 ^ (w - 1) : Int) ≤ x ∧ x < 2 ^ (w - 1) := by
  simp [fitsS]
/-- A number that fits `w` bits is read back from them by sign extension. -/
theorem si_of_fits {f : Fld} {w n : Nat} {i : BitVec n} (hw : 0 < w) (hf : fitsS i.toInt w = true)
    (hi : f.imm = (i.toInt % (2 ^ w : Int)).toNat) (hwid : f.immW = w) : f.si n = i := by
  obtain ⟨hlo, hhi⟩ := fitsS_iff.mp hf
  obtain ⟨m, rfl⟩ : ∃ m, w = m + 1 := ⟨w - 1, by omega⟩
  simp only [Nat.add_sub_cancel, pow_succ] at *
  have hpos : (0 : Int) < 2 ^ m := by positivity
  rcases Int.lt_or_le i.toInt 0 with hneg | hnn
  · have hmod : i.toInt % (2 ^ m * 2) = i.toInt + 2 ^ m * 2 := by
      rw [← Int.add_emod_right, Int.emod_eq_of_lt] <;> omega
    have himm : (f.imm : Int) = i.toInt + 2 ^ m * 2 := by rw [hi, hmod, Int.toNat_of_nonneg (by omega)]
    have hge : 2 ^ m ≤ f.imm := by zify; omega
    rw [Fld.si, hwid, Nat.add_sub_cancel, if_pos hge, pow_succ, himm, Int.add_sub_cancel, BitVec.ofInt_toInt]
  · have hmod : i.toInt % (2 ^ m * 2) = i.toInt := Int.emod_eq_of_lt hnn (by omega)
    have himm : (f.imm : Int) = i.toInt := by rw [hi, hmod, Int.toNat_of_nonneg hnn]
    have hlt : ¬ 2 ^ m ≤ f.imm := by zify; omega
    rw [Fld.si, hwid, Nat.add_sub_cancel, if_neg hlt, ← BitVec.ofInt_natCast, himm, BitVec.ofInt_toInt]
theorem toNat_emod_lt (x : Int) (w : Nat) : (x % (2 ^ w : Int)).toNat < 2 ^ w := by
  have := Int.emod_lt_of_pos x (show (0 : Int) < 2 ^ w by positivity)
  have := Int.emod_nonneg x (show (2 ^ w : Int) ≠ 0 by positivity)
  zify
  omega
theorem fitsS_toInt {n : Nat} (i : BitVec n) (h : 0 < n) : fitsS i.toInt n = true := by
  obtain ⟨m, rfl⟩ : ∃ m, n = m + 1 := ⟨n - 1, by omega⟩
  exact fitsS_iff.mpr ⟨BitVec.le_toInt i, BitVec.toInt_lt⟩
/-- A signed immediate of the width that the XI words of a row can give. -/
theorem immIs_sw {r : Row} {n lo wb xi : Nat} (hr : immRow r lo wb xi = true) (h2 : xi = 1 ∨ xi = 2)
    (hn : n = wb + 12 * xi) (h0 : 0 < wb) (i : BitVec n) : ImmIs r (sw i lo wb xi) fun f => f.si n = i := by
  simp only [immRow, Bool.and_eq_true, beq_iff_eq] at hr
  obtain ⟨⟨⟨⟨-, rfl⟩, rfl⟩, rfl⟩, -⟩ := hr
  have hfit : fitsS i.toInt (r.immW + 12 * r.xiMax) = true := hn ▸ fitsS_toInt i (by omega)
  have main (k : Nat) (hk : k ≤ r.xiMax) (hf : fitsS i.toInt (r.immW + 12 * k) = true) :
      ImmIs r (imOf (i.toInt % (2 ^ (r.immW + 12 * k) : Int)).toNat r.immLo r.immW k) fun f => f.si n = i :=
    ⟨_, k, rfl, hk, by omega, toNat_emod_lt _ _, fun f hi hw => si_of_fits (by omega) hf hi (by omega)⟩
  unfold sw
  dsimp only
  split
  next h => exact main 0 (by omega) h
  next h =>
    split
    next h1 =>
      refine main 1 (by omega) ?_
      rcases h2 with h2 | h2 <;> simp_all
    next h1 =>
      have hxi : r.xiMax = 2 := by rcases h2 with h2 | h2 <;> simp_all
      exact main 2 (by omega) (by rwa [hxi] at hfit)

/-! ### From the words to the instruction -/

/-- The number `n` of a base word is laid out as the row says: it selects the row, each operand and the immediate stand in their
fields, and the bits that are fixed at 0 are 0 (R33, R34, R44). -/
structure Layout (r : Row) (xp : Option Half) (lowC : Bool) (a b c : Fe) (immBits n : Nat) : Prop where
  lt : n < 65536
  row : findRow xp (BitVec.ofNat 16 n) = .ok r
  major : n / 4096 = 14 ∨ (xp = none ∧ n / 4096 < 13)
  low_c : lowC = (n / 4096 == 11)
  a : spare r.ka a = false → n / 512 % 8 = feLow a
  b : spare r.kb b = false → n / 64 % 8 = feLow b
  c : spare r.kc c = false → (if lowC then n % 8 else n / 8 % 8) = feLow c
  imm : n / 2 ^ r.immLo % 2 ^ r.immW * 2 ^ r.immLo = immBits
  low : n % (r.low + 1) = 0

/-- The operand in a field, as a g register, a v register or a literal. -/
def FieldIs (g : GReg) (v : VReg) (l : BitVec 3) : Fe → Prop
  | .g x => g = x
  | .v x => v = x
  | .l x => l = x
  | .n => True
/-- The mask, where the row takes one. -/
def MaskIs (m vm : MReg) : Bool → Prop
  | true => m = vm
  | false => True
/-- A decoded chain has the operands of the encoder, and field d of its base word's number. -/
structure Reads (r : Row) (f : Fld) (a b c : Fe) (vm : MReg) (n : Nat) : Prop where
  a : FieldIs f.ga f.va f.la a
  b : FieldIs f.gb f.vb f.lb b
  c : FieldIs f.gc f.vc f.lc c
  vm : MaskIs f.vm vm r.mask
  d : f.ld = BitVec.ofNat 3 n

section
variable {r : Row} {xp : Option Half} {lowC : Bool} {a b c : Fe} {im : Im} {vm : MReg} {n : Nat} {P : Fld → Prop}

theorem ofNat_lit {v : BitVec 3} {m : Nat} (h : m % 8 = v.toNat) : BitVec.ofNat 3 m = v := BitVec.eq_of_toNat_eq (by simpa using h)
/-- A field whose low bits and extension bits are those of `x` holds `x`. -/
theorem fieldIs_of_bits {k : Fk} {x : Fe} {f : Fld} {lo sp m : Nat} (hx : spare k x = false → m % 8 = feLow x)
    (hg : hb f.xr (lo + 1) lo = gHi x) (hs : f.xr.getLsbD sp = decide (gSp x = 1)) (hv : hb f.xv (lo + 1) lo = vHi x) :
    FieldIs (f.gReg (BitVec.ofNat 3 m) lo sp) (f.vReg (BitVec.ofNat 3 m) lo) (BitVec.ofNat 3 m) x := by
  match x with
  | .n => trivial
  | .g y => exact gReg_eq hg hs (by simpa using hx (by cases k <;> rfl))
  | .v y => exact vReg_eq hv (by simpa using hx (by cases k <;> rfl))
  | .l y => exact ofNat_lit (hx (by cases k <;> rfl))

/-- The chain that the encoder's words are. -/
def asmChain (xp : Option Half) (a b c : Fe) (im : Im) (vm : MReg) (n m : Nat) : Chain :=
  ⟨im.xis, xp, extWord 0xD400 (xrBits a b c), extWord 0xD800 (xvBits a b c vm), some (BitVec.ofNat 16 n), none, m⟩

theorem Layout.nibble (hl : Layout r xp lowC a b c im.base n) : hb (BitVec.ofNat 16 n) 15 12 = n / 4096 := by
  have := hl.lt
  rw [hb_ofNat this]
  omega

theorem Layout.field_a (hl : Layout r xp lowC a b c im.base n) (h : spare r.ka a = false) :
    hb (BitVec.ofNat 16 n) 11 9 % 8 = feLow a := by
  rw [hb_ofNat hl.lt, ← hl.a h]
  omega
theorem Layout.field_b (hl : Layout r xp lowC a b c im.base n) (h : spare r.kb b = false) :
    hb (BitVec.ofNat 16 n) 8 6 % 8 = feLow b := by
  rw [hb_ofNat hl.lt, ← hl.b h]
  omega
theorem Layout.field_c (hl : Layout r xp lowC a b c im.base n) (h : spare r.kc c = false) :
    (if hb (BitVec.ofNat 16 n) 15 12 == 0xB then hb (BitVec.ofNat 16 n) 2 0 else hb (BitVec.ofNat 16 n) 5 3) % 8 = feLow c := by
  rw [hl.nibble, ← hl.low_c, hb_ofNat hl.lt, hb_ofNat hl.lt, ← hl.c h]
  split <;> omega

theorem reads_asm {m : Nat} (hl : Layout r xp lowC a b c im.base n) :
    Reads r (fieldsOf r (asmChain xp a b c im vm n m) (BitVec.ofNat 16 n)) a b c vm n := by
  have ⟨ga, gb, gc, sa, sb, sc, va, vb, vc, hvm⟩ := extFields a b c vm
  constructor
  case a => exact fieldIs_of_bits hl.field_a ga sa va
  case b => exact fieldIs_of_bits hl.field_b gb sb vb
  case c => exact fieldIs_of_bits hl.field_c gc sc vc
  case vm =>
    have hm : BitVec.ofNat 3 (hb ((extWord 0xD800 (xvBits a b c vm)).getD 0) 3 1) = vm := by
      rw [hvm, BitVec.ofNat_toNat, BitVec.setWidth_eq]
    cases r.mask
    · trivial
    · exact hm
  case d => exact BitVec.eq_of_toNat_eq (by simp [Fld.ld, fieldsOf, hb_ofNat hl.lt])

theorem isSome_extWord (tag n : Nat) : (extWord tag n).isSome = (n != 0) := by
  unfold extWord
  split <;> simp_all

theorem check4_asm {m : Nat} (hops : opsOk r a b c vm = true) (hxi : im.xis.length ≤ r.xiMax) :
    check4 r (asmChain xp a b c im vm n m) = none := by
  simp only [opsOk, Bool.and_eq_true] at hops
  obtain ⟨⟨⟨⟨hka, hkb⟩, hkc⟩, hmask⟩, -⟩ := hops
  have ⟨ga, gb, gc, sa, sb, sc, va, vb, vc, hvm⟩ := extFields a b c vm
  have g {k : Fk} {x : Fe} (h : kindOk k x = true) : (!isG k && gHi x != 0) = false ∧ (!isG k && decide (gSp x = 1)) = false := by
    cases hk : isG k
    · simp [isG_of_gHi h hk]
    · simp
  have v {k : Fk} {x : Fe} (h : kindOk k x = true) : (!isV k && vHi x != 0) = false := by
    cases hk : isV k
    · simp [isV_of_vHi h hk]
    · simp
  have hm : (!r.mask && vm.toNat != 0) = false := by
    cases hr : r.mask
    · simp_all
    · rfl
  have hxr : (xrBits a b c != 0 && !(isG r.ka || isG r.kb || isG r.kc)) = false := by
    cases h1 : isG r.ka <;> cases h2 : isG r.kb <;> cases h3 : isG r.kc <;> simp
    simp [xrBits, isG_of_gHi hka h1, isG_of_gHi hkb h2, isG_of_gHi hkc h3]
  have hxv : (xvBits a b c vm != 0 && !(isV r.ka || isV r.kb || isV r.kc || r.mask)) = false := by
    cases h1 : isV r.ka <;> cases h2 : isV r.kb <;> cases h3 : isV r.kc <;> cases h4 : r.mask <;> simp
    simp_all [xvBits, isV_of_vHi hka h1, isV_of_vHi hkb h2, isV_of_vHi hkc h3]
  simp only [check4, asmChain, isSome_extWord, ga, gb, gc, sa, sb, sc, va, vb, vc, hvm, g hka, g hkb, g hkc, v hka, v hkb, v hkc, hm, hxr,
    hxv, Nat.not_lt.mpr hxi, Bool.or_false, Bool.false_eq_true, if_false]

/-- The operand that a field's g register is may not stand there (R40). -/
def illegalAt (k : Fk) (g : GReg) : Bool :=
  match k with
  | .gr => !rOk g
  | .gw => !wOk g
  | .gq => !qOk g
  | _ => false
theorem check5_eq (r : Row) (f : Fld) (w : Half) : check5 r f w =
    if (r.ka == .z && f.ba != 0) || (r.kb == .z && f.bb != 0) || (r.kc == .z && f.bc != 0) || w.toNat % (r.low + 1) != 0 then some 1
    else if illegalAt r.ka f.ga || illegalAt r.kb f.gb || illegalAt r.kc f.gc then some 2 else none := rfl
theorem illegalAt_of_ok {k : Fk} {x : Fe} {g : GReg} {v : VReg} {l : BitVec 3} (h : kindOk k x = true) (hf : FieldIs g v l x) :
    illegalAt k g = false := by
  cases k <;> cases x <;> simp_all [kindOk, FieldIs, illegalAt]
/-- A field that is fixed at 0 is 0. -/
theorem zero_field {k : Fk} {x : Fe} {m : Nat} (h : kindOk k x = true) (hx : spare k x = false → m % 8 = feLow x) :
    (k == .z && BitVec.ofNat 3 m != 0) = false := by
  cases k <;> cases x <;> simp_all [kindOk, spare, feLow]
  exact BitVec.eq_of_toNat_eq (by simpa)

theorem check5_asm {m : Nat} (hl : Layout r xp lowC a b c im.base n) (hops : opsOk r a b c vm = true) :
    check5 r (fieldsOf r (asmChain xp a b c im vm n m) (BitVec.ofNat 16 n)) (BitVec.ofNat 16 n) = none := by
  obtain ⟨ha, hb, hc, -, -⟩ := reads_asm (vm := vm) (m := m) hl
  simp only [opsOk, Bool.and_eq_true] at hops
  obtain ⟨⟨⟨⟨hka, hkb⟩, hkc⟩, -⟩, -⟩ := hops
  rw [check5_eq, illegalAt_of_ok hka ha, illegalAt_of_ok hkb hb, illegalAt_of_ok hkc hc, toNat_ofNat_half hl.lt, hl.low]
  have za := zero_field hka hl.field_a
  have zb := zero_field hkb hl.field_b
  have zc := zero_field hkc hl.field_c
  simp only [fieldsOf, za, zb, zc, bne_self_eq_false, Bool.or_self, Bool.false_eq_true, if_false]

theorem imm_asm {m p k : Nat} (hl : Layout r xp lowC a b c im.base n) (him : im = imOf p r.immLo r.immW k) (hk : k ≤ 2)
    (hp : p < 2 ^ (r.immW + 12 * k)) : (fieldsOf r (asmChain xp a b c im vm n m) (BitVec.ofNat 16 n)).imm = p := by
  have himm := hl.imm
  subst him
  have hq : n / 2 ^ r.immLo % 2 ^ r.immW = p % 2 ^ r.immW := Nat.mul_right_cancel (Nat.two_pow_pos _) himm
  simp only [fieldsOf, asmChain, toNat_ofNat_half hl.lt, hq]
  exact assemble_imOf hk hp

/-- What the encoder writes for operands that suit a row decodes to the row's instruction of these operands. -/
theorem decode_asm {base : Nat} {i : Instr} (hl : Layout r xp lowC a b c im.base (baseNum base lowC a b c im.base))
    (hxp : ∀ x ∈ xp, PageWord x) (hops : opsOk r a b c vm = true) (him : ImmIs r im P)
    (hi : ∀ f, Reads r f a b c vm (baseNum base lowC a b c im.base) → P f → r.build f = i) :
    decode (asm xp base lowC a b c im vm) = i := by
  generalize hn : baseNum base lowC a b c im.base = n at *
  obtain ⟨p, k, himm, hkx, hk2, hp, hP⟩ := him
  have hxis : im.xis.length = k := himm ▸ length_imOf hk2
  have hone : extWord 0xD400 (xrBits a b c) = none ∨ extWord 0xD800 (xvBits a b c vm) = none := by
    simp only [opsOk, Bool.and_eq_true, Bool.not_eq_true', Bool.and_eq_false_iff (y := _ || (vm != 0))] at hops
    obtain ⟨-, hx | hx⟩ := hops
    · exact .inl (if_pos (xrBits_eq_zero hx))
    · exact .inr (if_pos (xvBits_eq_zero hx))
  have hpre : isPre (BitVec.ofNat 16 n) = false := by
    have h10 := hb_major (BitVec.ofNat 16 n)
    rw [hl.nibble] at h10
    have := hl.major
    simp only [isPre, isXi, isXp, isXr, isXv, hl.nibble, Bool.or_eq_false_iff, beq_eq_false_iff_ne]
    omega
  have hpage : xp.isSome = true → hb (BitVec.ofNat 16 n) 15 12 = 14 := by
    rw [hl.nibble]
    rcases hl.major with h | ⟨rfl, -⟩
    · exact fun _ => h
    · exact fun h => by cases h
  obtain ⟨m, hchain⟩ := chainRead_ordered (fun x hx => isXi_imOf x (himm ▸ hx)) (hxis.trans_le hk2) hxp (xrWord_extWord a b c)
    (xvWord_extWord a b c vm) hone hpre hpage
  rw [decode, asm_eq, hn, hchain]
  refine (decodeChain_ok (r := r) (c := asmChain xp a b c im vm n m) rfl rfl hl.row (check4_asm hops (hxis.trans_le hkx))
    (check5_asm hl hops)).trans (hi _ (reads_asm hl) (hP _ (imm_asm hl himm hk2 hp) ?_))
  rw [fieldsOf, asmChain, hxis]

end

/-! ### The layouts of base words (R33, R34) -/

theorem hb_nibble {n : Nat} (h : n < 65536) : hb (BitVec.ofNat 16 n) 15 12 = n / 4096 := by
  rw [hb_ofNat h]; omega
/-- The row of a paged word depends on the function code alone. -/
theorem findRow_paged {x : Half} {n base : Nat} (hn : n / 4096 = 14) (hbase : base / 4096 = 14) (hf : n % 8 = base % 8) :
    findRow (some x) (BitVec.ofNat 16 n) = findRow (some x) (BitVec.ofNat 16 base) := by
  have hfn : hb (BitVec.ofNat 16 n) 2 0 = hb (BitVec.ofNat 16 base) 2 0 := by
    rw [hb_ofNat (by omega), hb_ofNat (by omega)]; omega
  unfold findRow
  rw [hb_nibble (by omega), hb_nibble (by omega), hn, hbase, hfn]
  rfl
/-- The selector of R33 in the number `n` of a base word of major opcode `m`. -/
def selector (m n : Nat) : Nat :=
  match m with
  | 0 | 10 => n % 8
  | 3 => n / 256 % 2
  | 4 | 5 => n / 16 % 4
  | 6 | 11 => n / 8 % 8
  | 7 => n / 2048 % 2
  | 8 => n / 64 % 8
  | 9 => n / 512 % 8
  | _ => 0
theorem majorSel_ofNat {n : Nat} (h : n < 65536) : majorSel (BitVec.ofNat 16 n) = selector (n / 4096) n := by
  unfold majorSel selector
  rw [hb_nibble h]
  generalize n / 4096 = m
  split <;> simp [hb_ofNat h]
/-- The row of an unpaged word depends on the selector of R33 alone. -/
theorem findRow_major {n base m : Nat} (hm : m < 16) (hn : n / 4096 = m) (hbase : base / 4096 = m) (hs : selector m n = selector m base) :
    findRow none (BitVec.ofNat 16 n) = findRow none (BitVec.ofNat 16 base) := by
  unfold findRow
  rw [hb_nibble (by omega), hb_nibble (by omega), majorSel_ofNat (by omega), majorSel_ofNat (by omega), hn, hbase, hs]
  split
  case h_3 h => cases h
  all_goals rfl

section
variable {r : Row} {a b c : Fe} {base q : Nat} {xp : Option Half}

/-- Registers and literals in fields a, b and c, and below them a function code (majors 0, A and C, pages). -/
theorem layout_fields (hbase : base / 4096 = 14 ∨ (xp = none ∧ base / 4096 ∈ [0, 10, 12])) (hfn : base % 4096 < 8)
    (hrow : findRow xp (BitVec.ofNat 16 base) = .ok r) (hwid : r.immW = 0) (hlow : r.low = 0) :
    Layout r xp false a b c 0 (baseNum base false a b c 0) := by
  have := feLow_lt a; have := feLow_lt b; have := feLow_lt c
  have hn : baseNum base false a b c 0 = base + feLow a * 512 + feLow b * 64 + feLow c * 8 := rfl
  generalize baseNum base false a b c 0 = n at *
  simp only [List.mem_cons, List.not_mem_nil, or_false] at hbase
  constructor
  case row =>
    rw [← hrow]
    rcases hbase with h | ⟨rfl, h⟩
    · cases xp with
      | some x => exact findRow_paged (by omega) h (by omega)
      | none => exact findRow_major (m := 14) (by decide) (by omega) h (by simp only [selector])
    · rcases h with h | h | h
      · exact findRow_major (by decide) (by omega) h (by simp only [selector]; omega)
      · exact findRow_major (by decide) (by omega) h (by simp only [selector]; omega)
      · exact findRow_major (by decide) (by omega) h (by simp only [selector])
  case major => exact hbase.imp (by omega) (fun ⟨h, _⟩ => ⟨h, by omega⟩)
  case low_c => symm; rw [beq_eq_false_iff_ne]; omega
  case c => exact fun _ => by rw [if_neg Bool.false_ne_true]; omega
  case imm => simp [hwid, Nat.mod_one]
  case low => simp [hlow, Nat.mod_one]
  all_goals omega
/-- Field c in the low bits, below the selector (major B). -/
theorem layout_lowC (hbase : base / 64 = 0xB000 / 64) (hfn : base % 8 = 0)
    (hrow : findRow none (BitVec.ofNat 16 base) = .ok r) (hwid : r.immW = 0) (hlow : r.low = 0) :
    Layout r none true a b c 0 (baseNum base true a b c 0) := by
  have := feLow_lt a; have := feLow_lt b; have := feLow_lt c
  have hn : baseNum base true a b c 0 = base + feLow a * 512 + feLow b * 64 + feLow c := rfl
  generalize baseNum base true a b c 0 = n at *
  constructor
  case row => rw [← hrow]; exact findRow_major (m := 11) (by decide) (by omega) (by omega) (by simp only [selector]; omega)
  case major => exact .inr ⟨rfl, by omega⟩
  case low_c => symm; rw [beq_iff_eq]; omega
  case c => exact fun _ => by rw [if_pos rfl]; omega
  case imm => simp [hwid, Nat.mod_one]
  case low => simp [hlow, Nat.mod_one]
  all_goals omega
/-- Fields a and b, an immediate of 3 bits in the place of field c, and below it a function code (pages 0x02, 0x03 and others). -/
theorem layout_pagedImm {x : Half} (hbase : base / 4096 = 14) (hfn : base % 4096 < 8) (hq : q < 8)
    (hrow : findRow (some x) (BitVec.ofNat 16 base) = .ok r) (hc : r.kc = .l) (hlo : r.immLo = 3) (hwid : r.immW = 3) (hlow : r.low = 0) :
    Layout r (some x) false a b .n (q * 8) (baseNum base false a b .n (q * 8)) := by
  have := feLow_lt a; have := feLow_lt b
  have hn : baseNum base false a b .n (q * 8) = base + feLow a * 512 + feLow b * 64 + q * 8 := rfl
  generalize baseNum base false a b .n (q * 8) = n at *
  constructor
  case row => rw [← hrow]; exact findRow_paged (by omega) hbase (by omega)
  case major => exact .inl (by omega)
  case low_c => symm; rw [beq_eq_false_iff_ne]; omega
  case c => simp [hc, spare]
  case imm => rw [hlo, hwid]; omega
  case low => simp [hlow, Nat.mod_one]
  all_goals omega
/-- An immediate in the lowest bits of an unpaged word (majors 1 to 7): major opcode, width, and where the registers begin. -/
theorem layout_imm {m wb top : Nat}
    (hm : (m, wb, top) ∈ [(1, 6, 64), (2, 9, 512), (3, 8, 512), (4, 4, 64), (5, 4, 64), (6, 3, 64), (7, 11, 4096)])
    (hbase : base / 4096 = m) (hfn : base % 2 ^ wb = 0) (htop : base % 4096 < top)
    (ha : top ≤ 512 ∨ (a = .n ∧ r.ka = .l)) (hb : top ≤ 64 ∨ (b = .n ∧ r.kb = .l)) (hc : r.kc = .l) (hq : q < 2 ^ wb)
    (hrow : findRow none (BitVec.ofNat 16 base) = .ok r) (hlo : r.immLo = 0) (hwid : r.immW = wb) (hlow : r.low = 0) :
    Layout r none false a b .n q (baseNum base false a b .n q) := by
  have := feLow_lt a; have := feLow_lt b
  have hn : baseNum base false a b .n q = base + feLow a * 512 + feLow b * 64 + q := rfl
  have ha : (spare r.ka a = false → top ≤ 512) ∧ (top ≤ 512 ∨ feLow a = 0) := by
    rcases ha with h | ⟨rfl, h⟩
    · exact ⟨fun _ => h, .inl h⟩
    · exact ⟨by simp [h, spare], .inr rfl⟩
  have hb : (spare r.kb b = false → top ≤ 64) ∧ (top ≤ 64 ∨ feLow b = 0) := by
    rcases hb with h | ⟨rfl, h⟩
    · exact ⟨fun _ => h, .inl h⟩
    · exact ⟨by simp [h, spare], .inr rfl⟩
  generalize baseNum base false a b .n q = n at *
  simp only [List.mem_cons, List.not_mem_nil, or_false, Prod.mk.injEq] at hm
  rcases hm with ⟨rfl, rfl, rfl⟩ | ⟨rfl, rfl, rfl⟩ | ⟨rfl, rfl, rfl⟩ | ⟨rfl, rfl, rfl⟩ | ⟨rfl, rfl, rfl⟩ | ⟨rfl, rfl, rfl⟩ |
    ⟨rfl, rfl, rfl⟩
  all_goals
    constructor
    case row => rw [← hrow]; exact findRow_major (by decide) (by omega) hbase (by simp only [selector] <;> omega)
    case major => exact .inr ⟨rfl, by omega⟩
    case low_c => symm; rw [beq_eq_false_iff_ne]; omega
    case a => intro h; have := ha.1 h; omega
    case b => intro h; have := hb.1 h; omega
    case c => simp [hc, spare]
    case imm => rw [hlo, hwid]; omega
    case low => simp [hlow, Nat.mod_one]
    case lt => omega

/-- A register in field a, a selector in field b, and the bits below fixed at 0 (major 8). -/
theorem layout_jump (hbase : base / 512 = 0x8000 / 512) (hfn : base % 64 = 0) (hrow : findRow none (BitVec.ofNat 16 base) = .ok r)
    (hkb : r.kb = .l) (hwid : r.immW = 0) (hlow : r.low = 7) :
    Layout r none false a .n .n 0 (baseNum base false a .n .n 0) := by
  have := feLow_lt a
  have hn : baseNum base false a .n .n 0 = base + feLow a * 512 := rfl
  generalize baseNum base false a .n .n 0 = n at *
  constructor
  case row => rw [← hrow]; exact findRow_major (m := 8) (by decide) (by omega) (by omega) (by simp only [selector]; omega)
  case major => exact .inr ⟨rfl, by omega⟩
  case low_c => symm; rw [beq_eq_false_iff_ne]; omega
  case b => simp [hkb, spare]
  case c => exact fun _ => by rw [if_neg Bool.false_ne_true, feLow]; omega
  case imm => simp [hwid, Nat.mod_one]
  case low => rw [hlow]; omega
  all_goals omega

end

/-! ### Every instruction (O55, O56) -/

/-- The page word of a paged row (R36). -/
def xpOk : Option Half → Bool
  | some x => hb x 15 10 == 0x34 && !x[0]
  | none => true
/-- The bits that a row without an immediate fixes. -/
def plainRow (r : Row) (low : Nat) : Bool := r.immW == 0 && r.low == low
/-- Registers and literals above a function code: a paged word, or a word of major 0, A or C. -/
def plainBase (xp : Option Half) (base : Nat) : Bool :=
  xpOk xp && decide (base % 4096 < 8) && (base / 4096 == 14 || (xp.isNone && [0, 10, 12].contains (base / 4096)))
/-- The base bits of an unpaged word with an immediate of `wb` bits, its registers from bit `top` up. -/
def immBase (base wb top : Nat) : Bool :=
  [(1, 6, 64), (2, 9, 512), (3, 8, 512), (4, 4, 64), (5, 4, 64), (6, 3, 64), (7, 11, 4096)].contains (base / 4096, wb, top) &&
    base % 2 ^ wb == 0 && decide (base % 4096 < top)

/-- The operands suit the row, and the row builds `i` from a chain that has them. -/
def Suits (r : Row) (a b c : Fe) (vm : MReg) (P : Fld → Prop) (i : Instr) : Prop :=
  opsOk r a b c vm = true ∧ ∀ f : Fld, FieldIs f.ga f.va f.la a → FieldIs f.gb f.vb f.lb b → FieldIs f.gc f.vc f.lc c →
    MaskIs f.vm vm r.mask → P f → r.build f = i

section
variable {r : Row} {a b c : Fe} {im : Im} {base wb xi top : Nat} {xp : Option Half} {x : Half} {vm : MReg} {i : Instr} {P : Fld → Prop}

theorem pageWord_of_xpOk (h : xpOk xp = true) : ∀ x ∈ xp, PageWord x := by
  rintro x hx
  obtain rfl := Option.mem_def.mp hx
  simpa [xpOk, PageWord] using h

theorem decode_of_layout {lowC : Bool} (hl : Layout r xp lowC a b c im.base (baseNum base lowC a b c im.base))
    (hxp : xpOk xp = true) (him : ImmIs r im P) (h : Suits r a b c vm P i) : decode (asm xp base lowC a b c im vm) = i :=
  decode_asm hl (pageWord_of_xpOk hxp) h.1 him fun f ⟨ha, hb, hc, hm, _⟩ => h.2 f ha hb hc hm

theorem decode_fields (hbase : plainBase xp base = true) (hrow : findRow xp (BitVec.ofNat 16 base) = .ok r) (hr : plainRow r 0 = true)
    (h : Suits r a b c vm (fun _ => True) i) : decode (asm xp base false a b c noImm vm) = i := by
  simp only [plainBase, plainRow, Bool.and_eq_true, Bool.or_eq_true, beq_iff_eq, decide_eq_true_eq, Option.isNone_iff_eq_none,
    List.contains_iff_mem] at hbase hr
  obtain ⟨⟨hxp, hfn⟩, hmaj⟩ := hbase
  exact decode_of_layout (layout_fields hmaj hfn hrow hr.1 hr.2) hxp (immIs_none hr.1) h
theorem decode_lowC (hbase : (base / 64 == 0xB000 / 64 && base % 8 == 0) = true) (hrow : findRow none (BitVec.ofNat 16 base) = .ok r)
    (hr : plainRow r 0 = true) (h : Suits r a b c vm (fun _ => True) i) : decode (asm none base true a b c noImm vm) = i := by
  simp only [plainRow, Bool.and_eq_true, beq_iff_eq] at hbase hr
  exact decode_of_layout (layout_lowC hbase.1 hbase.2 hrow hr.1 hr.2) rfl (immIs_none hr.1) h
theorem decode_jump (hbase : (base / 512 == 0x8000 / 512 && base % 64 == 0) = true) (hrow : findRow none (BitVec.ofNat 16 base) = .ok r)
    (hr : (plainRow r 7 && r.kb == .l) = true) (h : Suits r a .n .n vm (fun _ => True) i) :
    decode (asm none base false a .n .n noImm vm) = i := by
  simp only [plainRow, Bool.and_eq_true, beq_iff_eq] at hbase hr
  exact decode_of_layout (layout_jump hbase.1 hbase.2 hrow hr.2 hr.1.1 hr.1.2) rfl (immIs_none hr.1.1) h
theorem decode_pagedImm (hbase : (base / 4096 == 14 && decide (base % 4096 < 8)) = true) (hxp : xpOk (some x) = true)
    (hrow : findRow (some x) (BitVec.ofNat 16 base) = .ok r) (hr : immRow r 3 3 xi = true) (him : ImmIs r im P)
    (h : Suits r a b .n vm P i) : decode (asm (some x) base false a b .n im vm) = i := by
  simp only [immRow, Bool.and_eq_true, beq_iff_eq, decide_eq_true_eq] at hbase hr
  obtain ⟨⟨⟨⟨hc, hlo⟩, hwid⟩, -⟩, hlow⟩ := hr
  obtain ⟨q, hq, hbits⟩ := him.base
  rw [hlo] at hbits
  refine decode_of_layout (hbits ▸ layout_pagedImm hbase.1 hbase.2 (by rwa [hwid] at hq) hrow hc hlo hwid hlow) hxp him h
theorem decode_imm (hbase : immBase base wb top = true) (hrow : findRow none (BitVec.ofNat 16 base) = .ok r) (hr : immRow r 0 wb xi = true)
    (ha : top ≤ 512 ∨ (a = .n ∧ r.ka = .l)) (hb : top ≤ 64 ∨ (b = .n ∧ r.kb = .l)) (him : ImmIs r im P)
    (h : Suits r a b .n vm P i) : decode (asm none base false a b .n im vm) = i := by
  simp only [immBase, immRow, Bool.and_eq_true, beq_iff_eq, decide_eq_true_eq, List.contains_iff_mem] at hbase hr
  obtain ⟨⟨⟨⟨hc, hlo⟩, hwid⟩, -⟩, hlow⟩ := hr
  obtain ⟨⟨hm, hfn⟩, htop⟩ := hbase
  obtain ⟨q, hq, hbits⟩ := him.base
  rw [hlo, pow_zero, mul_one] at hbits
  exact decode_of_layout (hbits ▸ layout_imm hm rfl hfn htop ha hb hc (by rwa [hwid] at hq) hrow hlo hwid hlow) rfl him h

end

/-- WAIT's fourth limit stands where other rows have a function code (R142). -/
theorem decode_wait {ld st bk mx : Lit3} {base : Nat} (hbase : base = 0xC000 + mx.toNat) :
    decode (asm none base false (.l ld) (.l st) (.l bk) noImm 0) = .wait ld st bk mx := by
  have hmx := mx.isLt
  have hmaj : base / 4096 = 12 := by omega
  have hrow : findRow none (BitVec.ofNat 16 base) = findRow none (BitVec.ofNat 16 0xC000) :=
    findRow_major (m := 12) (by decide) hmaj (by norm_num) (by simp only [selector])
  refine decode_asm (P := fun _ => True) (layout_fields (.inr ⟨rfl, by simp [hmaj]⟩) (by omega) (hrow.trans rfl) rfl rfl) (by simp) rfl
    (immIs_none rfl) fun f ⟨ha, hb, hc, _, hd⟩ _ => ?_
  have hlow : baseNum base false (.l ld) (.l st) (.l bk) 0 % 8 = mx.toNat := by
    simp only [baseNum, Bool.false_eq_true, if_false]; omega
  have hd : f.ld = mx := hd.trans (ofNat_lit hlow)
  simp only [FieldIs] at ha hb hc
  subst_vars
  rfl

/-- The words of a well-formed instruction decode to it. -/
theorem decode_encode (i : Instr) (hwf : wellFormed i = true) : decode (encode i) = i := by
  cases i
  case pageattrWrite | envbaseWrite | frbaseWrite | mbbaseWrite | tqbaseWrite | tqcfgWrite | gdeadWrite | fcsrWrite | nearDispatch |
      slotTakesWork | stealRequest | steal | bufferDrain | deferredLoadFaultReport | globalLoadData | globalWriteAck | globalAccess |
      clusterWindowAccess | portWord | put | getRequest | getData | atomicRequest | atomicReply | signal | acknowledgment |
      taskRecordArrival | closureOperation | workQuery | workAnswer | wqryRecordEnqueue | slateStealControl | lossNotice | postedTimeout |
      mailboxAppend | bankLineUpdate | bankCommandRetire | vamoRetire | matrixOpRetire | mcHoldExpiry | copyTransferComplete |
      completionRecordEnqueue | accumulatorRestore | preempt | resume | launchRecordCheck | launchStart | reelForward | launchComplete |
      superstepRelease | clapperColumnRelease | clapperEstimateRefresh | heatMapRefresh | patrolScrub | parityError | clockStretch |
      drowsyEntry | submit | queueConfigWrite | shootDown | stationShootDownAck | connectionWrite | devcmdHalt | devcmdResume |
      devcmdEndTask | devcmdApplyProfile | devcmdAbortLaunch | hostRegisterWrite | hostMemWrite | hostMemRead | hostLinkDown |
      hostLinkHoldTimeout | hostLinkTrained | inboundSend | inboundRma | attestation | firmwareLoad | powerUp | powerDown | decodeTrap |
      clusterWindowAnswer | closureAnswer | copyPiece | anchorViewAccess | portLinkTrained => cases hwf
  case padJ | padC | padK | padN | padF | padT => rfl
  case' vld | vldff | vst | vlds | vsts | vldx | vstx => refine decode_lowC rfl rfl rfl ?_
  case' andi | ori | xori | slti | sltiu | muli | lduB | lduH | lduW | gldB | gldH | gldW | gldD | gstB | gstH | gstW | gstD =>
    refine decode_pagedImm (xi := 2) rfl rfl rfl rfl (immIs_sw rfl (.inr rfl) rfl (by decide) _) ?_
  case' slli | srli | srai | rori => refine decode_pagedImm (xi := 2) rfl rfl rfl rfl (immIs_zw rfl (.inr rfl) rfl _) ?_
  case' setvl | capt | kld | kst | srd | swr | trap =>
    refine decode_pagedImm (xi := 1) rfl rfl rfl rfl (immIs_zw rfl (.inl rfl) rfl _) ?_
  case' addi =>
    refine decode_imm (wb := 6) (xi := 2) (top := 64) rfl rfl rfl (.inl (by decide)) (.inl (by decide))
      (immIs_sw rfl (.inr rfl) rfl (by decide) _) ?_
  case' li =>
    refine decode_imm (wb := 9) (xi := 2) (top := 512) rfl rfl rfl (.inl (by decide)) (.inr ⟨rfl, rfl⟩)
      (immIs_sw rfl (.inr rfl) rfl (by decide) _) ?_
  case' adh | adpc =>
    refine decode_imm (wb := 8) (xi := 1) (top := 512) rfl rfl rfl (.inl (by decide)) (.inr ⟨rfl, rfl⟩)
      (immIs_sw rfl (.inl rfl) rfl (by decide) _) ?_
  case' ldB | ldH | ldW | ldD | stB | stH | stW | stD =>
    refine decode_imm (wb := 4) (xi := 2) (top := 64) rfl rfl rfl (.inl (by decide)) (.inl (by decide))
      (immIs_sw rfl (.inr rfl) rfl (by decide) _) ?_
  case' brEq | brNe | brLt | brGe | brLtu | brGeu | brPop =>
    refine decode_imm (wb := 3) (xi := 1) (top := 64) rfl rfl rfl (.inl (by decide)) (.inl (by decide))
      (immIs_sw rfl (.inl rfl) rfl (by decide) _) ?_
  case' j | call =>
    refine decode_imm (wb := 11) (xi := 1) (top := 4096) rfl rfl rfl (.inr ⟨rfl, rfl⟩) (.inr ⟨rfl, rfl⟩)
      (immIs_sw rfl (.inl rfl) rfl (by decide) _) ?_
  case' jr | callr | ret | apply => refine decode_jump rfl rfl rfl ?_
  case wait ld st bk mx => exact decode_wait rfl
  case' add | sub | and | or | xor | sll | srl | sra | vadd | vsub | vmul | vmacc | vmin | vmax | vand | vor | mul | mulh | mulhu |
      mulhsu | div | divu | rem | remu | slt | sltu | min | max | minu | maxu | andn | orn | clz | ctz | popc | rev8 | sextB | sextH | sextW
      | zextW | rol | ror | amoaddW | amoaddD | amoswapW | amoswapD | amoandD | amoorD | amomaxD | amominD | amocasD | gamoAdd | gamoSwap |
      gamoAnd | gamoOr | gamoMax | gamoMin | gamoCas | pref | mscfl | fadd | fsub | fmul | fdiv | fsqrt | fmin | fmax | ffma | fneg | fabs |
      feq | flt | fle | fclass | fcvtWS | fcvtLS | fcvtSW | fcvtSL | fcvtWuS | fcvtSWu | fcvtBfS | fcvtSBf | fcvtHS | fcvtSH | vxor | vsll |
      vsrl | vsra | vmulh | vmulhu | vminu | vmaxu | vaddVx | vsubVx | vmulVx | vandVx | vorVx | vxorVx | vsllVx | vsrlVx | vmseq | vmsne |
      vmslt | vmsltu | vmsle | vmsleu | vsadd | vsaddu | vssub | vssubu | vmvVx | vmvXs | vmvSx | vid | vfdiv | vfsqrt | vfnmacc | vfmsac |
      vfneg | vfabs | vfaddVf | vfsubVf | vfmulVf | vfmaccVf | vfminVf | vfmaxVf | vmfeq | vmfne | vmflt | vmfle | vfcvtXF | vfcvtFX |
      vfwcvt | vfncvt | vslideup | vslidedn | vrgather | vcompress | vmerge | vredsum | vredmax | vredmin | vredand | vredor | vfredsum |
      vfredmax | vfredmin | vmand | vmor | vmxor | vmnot | vcpop | vfirst | setvlr | vcvtSat | vcvtNsat | vcvtW | vpack | vunpk | vamoOr |
      vamoAnd | vamoAdd | vamoMax | vamoMin | ago | aend | movq | qlevel | pcfg | msgPut | msgGet | msgAmo | msgSig | task | tret | tsusp |
      tqcfg | tqdepth | captRef | kdup | kdrop | frame | unframe | mmaE4m3 | mmaE5m2 | mmaE3m2 | mmaE2m3 | mmaE2m1 | mmaBf16 | mmaF16 |
      mmaE4m3e5m2 | mmaE5m2e4m3 | mmaE4m3Mc | mmaE5m2Mc | mmaE3m2Mc | mmaE2m3Mc | mmaE2m1Mc | mmaBf16Mc | mmaF16Mc | mmaE4m3e5m2Mc |
      mmaE5m2e4m3Mc | mmaa | scacc | accz | accswap | acfg | accrdR | accwrR | accrdC | accwrC | accst | bkAdd | bkMul | bkFma | bkMax |
      bkMin | bkScl | bkOr | bkAnd | bkFill | bkRsum | bkRmax | bkExps | bkCvt | bkAddV | bkMulV | bkFmaV | bkMaxV | bkMinV | bkSclV | bkOrV
      | bkAndV | bkFillV | bkAddR | bkMulR | bkFmaR | bkMaxR | bkMinR | bkOrR | bkAndR | cpy | cpg | cpwait | cpstat | fenceCore | fenceCl |
      fenceDie | fencePkg | fenceSys | barInit | barArr | barExp | barWait | sstep | eret | brk | halt | fenceI | wqry | widF =>
    refine decode_fields rfl rfl rfl ?_
  all_goals
    refine ⟨by unfold wellFormed at hwf; simp_all [opsOk, kindOk, feXr, feXv, notBoth], fun f ha hb hc hm him => ?_⟩
    simp only [FieldIs, MaskIs] at ha hb hc hm him
    subst_vars
    rfl

/-- Settles O55. -/
theorem integerEncodings : Obligations.IntegerEncodings := fun i hwf _ => decode_encode i hwf
/-- Settles O56. -/
theorem everyEncoding : Obligations.EveryEncoding := fun i hwf _ _ _ _ => decode_encode i hwf
/-- Settles O60, by evaluating the decoder on each chain. -/
theorem decodedWords : Obligations.DecodedWords := by
  unfold Obligations.DecodedWords
  and_intros <;> rfl

end Sys2Proof

namespace Sys2Proof.Machine
open Sys2Proof.Claim

/-! # Operands: what reading and writing one does (O53)

### What an operand leaves unchanged -/

/-- The registers, flags and PC of a thread are those of another. -/
def SameRegs (t u : Thread) : Prop :=
  u.g = t.g ∧ u.dead = t.dead ∧ u.l0 = t.l0 ∧ u.l1 = t.l1 ∧ u.fcsr = t.fcsr ∧ u.k = t.k ∧ u.cmask = t.cmask ∧ u.pc = t.pc
theorem regVal_congr {t u : Thread} (hg : u.g = t.g) (hd : u.dead = t.dead) (n : BitVec 5) : regVal u n = regVal t n := by
  simp only [regVal, hg, hd]
/-- A change of the moving unit's core that keeps its memory and the registers of its threads is one that an operand may make. -/
theorem operandKept_mapCore {s : State} {f : Core → Core} (hm : (f (here s)).mem = (here s).mem)
    (ho : ∀ u, u ≠ s.cur.unit → threadAt (f (here s)) u = threadAt (here s) u)
    (ht : SameRegs (threadOf s) (threadAt (f (here s)) s.cur.unit)) : OperandKept s (mapCore s s.cur.core f) := by
  obtain ⟨hg, hd, h0, h1, hf, hk, hc, hp⟩ := ht
  have hthread : threadOf (mapCore s s.cur.core f) = threadAt (f (here s)) s.cur.unit := by
    rw [threadOf, mapCore_cur, coreAt_mapCore]
  refine ⟨⟨fun n => ?_, ?_, ?_, ?_, ?_, ?_, ?_⟩, fun x => ?_, ⟨rfl, fun d h => coreAt_mapCore_ne s f h⟩, fun u hu => ?_, ?_, rfl⟩
  · rw [hthread]; exact regVal_congr hg hd n
  · rw [hthread, hd]
  · rw [hthread, h0]
  · rw [hthread, h1]
  · rw [hthread, hf]
  · rw [hthread, hk]
  · rw [hthread, hc]
  · rw [here_mapCore, hm]
  · rw [here_mapCore, ho u hu]
  · rw [pcOf, hthread, hp]; rfl
theorem onlyHere_cur {s t : State} (h : OnlyHere s t) : t.cur = s.cur := by
  show ({ t with cores := s.cores, nextId := s.nextId } : State).cur = s.cur
  rw [h.1]
theorem operandKept_refl (s : State) : OperandKept s s :=
  ⟨⟨fun _ => rfl, rfl, rfl, rfl, rfl, rfl, rfl⟩, fun _ => rfl, ⟨rfl, fun _ _ => rfl⟩, fun _ _ => rfl, rfl, rfl⟩
theorem onlyHere_trans {s t u : State} (h : OnlyHere s t) (h' : OnlyHere t u) : OnlyHere s u := by
  have hcur := onlyHere_cur h
  obtain ⟨hs, hc⟩ := h
  obtain ⟨hs', hc'⟩ := h'
  rw [hcur] at hc'
  refine ⟨?_, fun d hd => (hc' d hd).trans (hc d hd)⟩
  conv_rhs => rw [← hs, ← hs']
theorem operandKept_trans {s t u : State} (h : OperandKept s t) (h' : OperandKept t u) : OperandKept s u := by
  obtain ⟨⟨a1, a2, a3, a4, a5, a6, a7⟩, am, ah, ao, ap, ai⟩ := h
  obtain ⟨⟨b1, b2, b3, b4, b5, b6, b7⟩, bm, bh, bo, bp, bi⟩ := h'
  rw [OtherThreads, onlyHere_cur ah] at bo
  exact ⟨⟨fun n => (b1 n).trans (a1 n), b2.trans a2, b3.trans a3, b4.trans a4, b5.trans a5, b6.trans a6, b7.trans a7⟩,
    fun x => (bm x).trans (am x), onlyHere_trans ah bh, fun v hv => (bo v hv).trans (ao v hv), bp.trans ap, bi.trans ai⟩

theorem slotOf_changeSlot {s : State} (h : isIbex s.cur.unit = false) (f : Slot → Slot) : slotOf (changeSlot s f) = f (slotOf s) := by
  cases hu : unitSlot s.cur.unit with
  | none => simp [isIbex, hu] at h
  | some i =>
    have ht : changeSlot s f = mapCore s s.cur.core fun k => mapSlot k i f := by simp only [changeSlot, hu]
    rw [ht, slotOf, slotOf, mapCore_cur, hu, coreAt_mapCore]
    exact slotAt_mapSlot ..
@[simp] theorem changeSlot_cur (s : State) (f : Slot → Slot) : (changeSlot s f).cur = s.cur := by
  unfold changeSlot; split <;> rfl
theorem operandKept_changeSlot (s : State) (f : Slot → Slot) : OperandKept s (changeSlot s f) := by
  unfold changeSlot
  split
  · exact operandKept_mapCore rfl (fun _ _ => rfl) ⟨rfl, rfl, rfl, rfl, rfl, rfl, rfl, rfl⟩
  · exact operandKept_refl s
theorem threadOf_changeSlot (s : State) (f : Slot → Slot) : threadOf (changeSlot s f) = threadOf s := by
  unfold changeSlot
  split
  · rw [threadOf, mapCore_cur, coreAt_mapCore]; rfl
  · rfl
theorem mb_changeSlot (s : State) (f : Slot → Slot) : (here (changeSlot s f)).mb = (here s).mb := by
  unfold changeSlot
  split
  · rw [here_mapCore]; rfl
  · rfl

/-- What the stream has read ahead is forgotten (R263). -/
def forgetEarly (s : State) : State :=
  if [] = (threadOf s).early then s else mapCore s s.cur.core fun k => mapThread k s.cur.unit fun t => { t with early := [] }
theorem dropAllEarly_run (s : State) : dropAllEarly s = .ok ((), forgetEarly s) := by
  unfold dropAllEarly setEarly forgetEarly
  split <;> rfl
@[simp] theorem forgetEarly_cur (s : State) : (forgetEarly s).cur = s.cur := by
  unfold forgetEarly; split <;> rfl
theorem operandKept_forgetEarly (s : State) : OperandKept s (forgetEarly s) := by
  unfold forgetEarly
  split
  · exact operandKept_refl s
  · refine operandKept_mapCore rfl (fun u hu => threadAt_mapThread_ne _ _ hu) ?_
    rw [threadAt_mapThread]
    exact ⟨rfl, rfl, rfl, rfl, rfl, rfl, rfl, rfl⟩
theorem slots_forgetEarly (s : State) : (coreAt (forgetEarly s) s.cur.core).slots = (here s).slots := by
  unfold forgetEarly
  split
  · rfl
  · rw [coreAt_mapCore]; rfl
@[simp] theorem slotOf_forgetEarly (s : State) : slotOf (forgetEarly s) = slotOf s := by
  simp only [slotOf, slotAt, forgetEarly_cur, slots_forgetEarly s]
@[simp] theorem mb_forgetEarly (s : State) : (here (forgetEarly s)).mb = (here s).mb := by
  unfold forgetEarly
  split
  · rfl
  · rw [here_mapCore]; rfl
/-- Another stream's claim does not depend on what this one has read ahead. -/
@[simp] theorem claimed_forgetEarly (s : State) (c : Nat) : claimed (forgetEarly s) c = claimed s c := by
  have hother : ∀ u, u ≠ s.cur.unit → threadAt (coreAt (forgetEarly s) s.cur.core) u = threadAt (here s) u := by
    obtain ⟨-, -, -, h, -, -⟩ := operandKept_forgetEarly s
    intro u hu
    have := h u hu
    rwa [here, forgetEarly_cur] at this
  unfold claimed
  simp only [forgetEarly_cur]
  congr 1
  funext u
  by_cases hu : u = s.cur.unit
  · simp [hu]
  · rw [hother u hu]

/-! ### Registers and results (R43, R111, R113, R127) -/

theorem regVal_regSet_eq (t : Thread) (n m : BitVec 5) (v : Word) :
    regVal (regSet t n v) m = if m = n ∧ n ≠ 0 then v else regVal t m := by
  by_cases hm : m = n
  · subst hm
    rw [regVal_regSet]
    by_cases h0 : m = 0
    · simp [h0, regVal]
    · simp only [h0, if_false, ne_eq, not_false_eq_true, and_self, if_true]
  · simp [regVal_regSet_ne t v hm, hm]
theorem regSet_kept (t : Thread) (n : BitVec 5) (v : Word) :
    (regSet t n v).l0 = t.l0 ∧ (regSet t n v).l1 = t.l1 ∧ (regSet t n v).pc = t.pc := by
  unfold regSet
  split <;> exact ⟨rfl, rfl, rfl⟩
theorem onlyHere_mapCore (s : State) (f : Core → Core) : OnlyHere s (mapCore s s.cur.core f) :=
  ⟨rfl, fun _ h => coreAt_mapCore_ne s f h⟩
theorem memKept_mapCore {s : State} {f : Core → Core} (h : (f (here s)).mem = (here s).mem) : MemKept s (mapCore s s.cur.core f) :=
  fun x => by rw [here_mapCore, h]
theorem otherThreads_modThread (s : State) (f : Thread → Thread) :
    OtherThreads s (mapCore s s.cur.core fun k => mapThread k s.cur.unit f) :=
  fun u hu => by rw [here_mapCore, threadAt_mapThread_ne _ _ hu]

/-- A write of a register: what it changes and what it keeps. -/
theorem writeReg_spec {n : BitVec 5} {s : State} (v : Word) (h : locked (threadOf s) n = false) : ∃ t, writeReg n v s = .ok ((), t) ∧
    (∀ m, regVal (threadOf t) m = if m = n ∧ n ≠ 0 then v else regVal (threadOf s) m) ∧ MemKept s t ∧ OnlyHere s t ∧ OtherThreads s t ∧
    (threadOf t).l0 = (threadOf s).l0 ∧ (threadOf t).l1 = (threadOf s).l1 ∧ pcOf t = pcOf s := by
  obtain ⟨h0, h1, hp⟩ := regSet_kept (threadOf s) n v
  refine ⟨_, writeReg_ok h, fun m => ?_, memKept_mapCore rfl, onlyHere_mapCore s _, otherThreads_modThread s _, ?_, ?_, ?_⟩
  · rw [threadOf_modThread, regVal_regSet_eq]
  · rw [threadOf_modThread, h0]
  · rw [threadOf_modThread, h1]
  · rw [pcOf, threadOf_modThread, hp]; rfl

/-! ### Popping (R40, R111) -/

/-- The words that code `c` pops, by the slot and the mailbox. -/
def queueOf (x : Slot) (mb : List Word) (c : BitVec 5) : List Word :=
  if c = 2 then readyWords x.lq else if c = 3 then x.sq else if c = 4 then x.bo
  else if c = 5 then x.rt else if c = 6 then mb
  else if 8 ≤ c.toNat ∧ c.toNat ≤ 11 then x.ports[Fin.ofNat 4 (c.toNat - 8)].recv else []
theorem queueAt_eq (s : State) (c : BitVec 5) : Claim.queueAt s c = queueOf (slotOf s) (here s).mb c := rfl
theorem readG_queue {c : BitVec 5} (h : c ∈ popCodes) (s : State) : readG (.sp c) s = popQ c.toNat s := by
  simp only [popCodes, List.mem_cons, List.not_mem_nil, or_false] at h
  rcases h with rfl | rfl | rfl | rfl | rfl | rfl | rfl | rfl | rfl <;> rfl

/-- The special code `c` pops a word and leaves `r` of its queue, and every other queue and operand as it is. -/
def Pops (c : BitVec 5) (r : List Word) (s t : State) : Prop :=
  Claim.queueAt t c = r ∧ (∀ d ∈ popCodes, d ≠ c → Claim.queueAt t d = Claim.queueAt s d) ∧ OperandKept s t

/-- A pop of lq takes the word at its head, and stalls where there is none or a reserved place. -/
theorem popQ_lq (s : State) : popQ 2 s = match (slotOf s).lq with
    | .word v :: r => .ok (v, changeSlot (forgetEarly s) fun x => { x with lq := r })
    | _ => .error (.stall false) := by
  unfold popQ
  rw [bind_run (dropAllEarly_run s), bind_run (getCore_run _), bind_run (getSlot_run _), slotOf_forgetEarly]
  rw [if_pos rfl]
  rcases (slotOf s).lq with _ | ⟨_ | _, _⟩ <;> rfl
theorem popQ_sq (s : State) : popQ 3 s = match (slotOf s).sq with
    | v :: r => .ok (v, changeSlot (forgetEarly s) fun x => { x with sq := r })
    | [] => .error (.stall false) := by
  unfold popQ
  rw [bind_run (dropAllEarly_run s), bind_run (getCore_run _), bind_run (getSlot_run _), slotOf_forgetEarly]
  cases h : (slotOf s).sq <;> rfl
theorem popQ_bo (s : State) : popQ 4 s = match (slotOf s).bo with
    | v :: r => .ok (v, changeSlot (forgetEarly s) fun x => { x with bo := r })
    | [] => .error (.stall false) := by
  unfold popQ
  rw [bind_run (dropAllEarly_run s), bind_run (getCore_run _), bind_run (getSlot_run _), slotOf_forgetEarly]
  cases h : (slotOf s).bo <;> rfl
theorem popQ_rt (s : State) : popQ 5 s = match (slotOf s).rt with
    | v :: r => .ok (v, changeSlot (forgetEarly s) fun x => { x with rt := r })
    | [] => .error (.stall true) := by
  unfold popQ
  rw [bind_run (dropAllEarly_run s), bind_run (getCore_run _), bind_run (getSlot_run _), slotOf_forgetEarly]
  cases h : (slotOf s).rt <;> rfl
/-- A pop of the mailbox or a port first looks for another stream's claim. -/
theorem stallIf_claimed {α : Type} (s : State) (c : Nat) (m : M α) :
    (do stallIf (claimed (← get) c); m : M α) (forgetEarly s) = if claimed s c then .error (.stall false) else m (forgetEarly s) := by
  rw [bind_run (get_run _), claimed_forgetEarly]
  cases claimed s c <;> rfl
theorem popQ_mb (s : State) : popQ 6 s = if claimed s 6 then .error (.stall false) else match (here s).mb with
    | v :: _ => .ok (v, mapCore (forgetEarly s) s.cur.core mbPop)
    | [] => .error (.stall false) := by
  unfold popQ
  rw [bind_run (dropAllEarly_run s), bind_run (getCore_run _), bind_run (getSlot_run _), mb_forgetEarly]
  refine (stallIf_claimed s 6 _).trans ?_
  rw [← forgetEarly_cur s]
  cases (here s).mb <;> rfl
/-- The slot whose port `p` is left with the received words `r`. -/
def leavePort (p : Fin 4) (r : List Word) (x : Slot) : Slot := { x with ports := x.ports.set p { x.ports[p] with recv := r } }
theorem popQ_port {c : Nat} (h8 : 7 ≤ c) (s : State) : popQ c s =
    if claimed s c then .error (.stall false) else match (slotOf s).ports[Fin.ofNat 4 (c - 8)].recv with
    | v :: r => .ok (v, changeSlot (forgetEarly s) (leavePort (Fin.ofNat 4 (c - 8)) r))
    | [] => .error (.stall false) := by
  unfold popQ
  rw [bind_run (dropAllEarly_run s), bind_run (getCore_run _), bind_run (getSlot_run _), slotOf_forgetEarly,
    if_neg (by omega), if_neg (by omega), if_neg (by omega), if_neg (by omega), if_neg (by omega)]
  refine (stallIf_claimed s c _).trans ?_
  cases (slotOf s).ports[Fin.ofNat 4 (c - 8)].recv <;> rfl

theorem queueOf_port (x : Slot) (mb : List Word) {c : BitVec 5} (h : 8 ≤ c.toNat) (h' : c.toNat ≤ 11) :
    queueOf x mb c = x.ports[Fin.ofNat 4 (c.toNat - 8)].recv := by
  have hne : ∀ d : BitVec 5, d.toNat < 8 → c ≠ d := fun d hd e => by rw [e] at h; omega
  unfold queueOf
  rw [if_neg (hne 2 (by decide)), if_neg (hne 3 (by decide)), if_neg (hne 4 (by decide)), if_neg (hne 5 (by decide)),
    if_neg (hne 6 (by decide)), if_pos ⟨h, h'⟩]
/-- A pop that only changes the slot: it is enough that the slot keeps every other queue. -/
theorem pops_changeSlot {s : State} {c : BitVec 5} {r : List Word} {f : Slot → Slot} (hi : isIbex s.cur.unit = false)
    (hc : ∀ mb, queueOf (f (slotOf s)) mb c = r)
    (hd : ∀ mb d, d ∈ popCodes → d ≠ c → queueOf (f (slotOf s)) mb d = queueOf (slotOf s) mb d) : Pops c r s (changeSlot (forgetEarly s) f) := by
  have hslot : slotOf (changeSlot (forgetEarly s) f) = f (slotOf s) := by
    rw [slotOf_changeSlot (by rwa [forgetEarly_cur]), slotOf_forgetEarly]
  refine ⟨?_, fun d hm hne => ?_, operandKept_trans (operandKept_forgetEarly s) (operandKept_changeSlot _ f)⟩
  · rw [queueAt_eq, hslot, hc]
  · rw [queueAt_eq, queueAt_eq, hslot, mb_changeSlot, mb_forgetEarly, hd _ _ hm hne]
theorem slotOf_mapCore {s : State} {f : Core → Core} (h : (f (here s)).slots = (here s).slots) :
    slotOf (mapCore s s.cur.core f) = slotOf s := by
  simp only [slotOf, slotAt, mapCore_cur, coreAt_mapCore, h]
theorem pops_mb (s : State) : Pops 6 ((here s).mb.drop 1) s (mapCore (forgetEarly s) s.cur.core mbPop) := by
  have hcur : mapCore (forgetEarly s) s.cur.core mbPop = mapCore (forgetEarly s) (forgetEarly s).cur.core mbPop := by rw [forgetEarly_cur]
  have hslot : slotOf (mapCore (forgetEarly s) (forgetEarly s).cur.core mbPop) = slotOf s :=
    (slotOf_mapCore rfl).trans (slotOf_forgetEarly s)
  rw [hcur]
  refine ⟨?_, fun d hm hne => ?_, operandKept_trans (operandKept_forgetEarly s)
    (operandKept_mapCore rfl (fun _ _ => rfl) ⟨rfl, rfl, rfl, rfl, rfl, rfl, rfl, rfl⟩)⟩
  · rw [queueAt_eq, here_mapCore, ← mb_forgetEarly s]
    rfl
  · rw [queueAt_eq, queueAt_eq, hslot]
    simp only [queueOf, hne, if_false]

/-- The codes of the queues before the mailbox, the mailbox, and the ports. -/
theorem popCodes_cases {c : BitVec 5} (h : c ∈ popCodes) : (c = 2 ∨ c = 3 ∨ c = 4 ∨ c = 5) ∨ c = 6 ∨ 8 ≤ c.toNat ∧ c.toNat ≤ 11 := by
  revert h c
  decide
theorem readyWords_cons {l : List Place} {v : Word} {r : List Word} (h : readyWords l = v :: r) :
    ∃ l', l = .word v :: l' ∧ readyWords l' = r := by
  match l, h with
  | .word w :: l', h =>
    obtain ⟨rfl, rfl⟩ := List.cons.inj h
    exact ⟨l', rfl, rfl⟩
/-- A pop of a queue that holds a word, when no other stream claims it. -/
theorem popQ_pops {c : BitVec 5} {s : State} {v : Word} {r : List Word} (hm : c ∈ popCodes) (hq : Claim.queueAt s c = v :: r)
    (hi : isIbex s.cur.unit = false) (hc : c.toNat < 6 ∨ claimed s c.toNat = false) :
    ∃ t, popQ c.toNat s = .ok (v, t) ∧ Pops c r s t := by
  rw [queueAt_eq] at hq
  rcases popCodes_cases hm with (rfl | rfl | rfl | rfl) | rfl | ⟨h8, h11⟩
  · obtain ⟨l', hl, rfl⟩ := readyWords_cons hq
    refine ⟨_, (popQ_lq s).trans (by rw [hl]), pops_changeSlot hi (fun _ => rfl) fun _ _ _ hne => ?_⟩
    simp only [queueOf, hne, if_false]
  · refine ⟨_, (popQ_sq s).trans (by rw [show (slotOf s).sq = v :: r from hq]), pops_changeSlot hi (fun _ => rfl) fun _ _ _ hne => ?_⟩
    simp only [queueOf, hne, if_false]
  · refine ⟨_, (popQ_bo s).trans (by rw [show (slotOf s).bo = v :: r from hq]), pops_changeSlot hi (fun _ => rfl) fun _ _ _ hne => ?_⟩
    simp only [queueOf, hne, if_false]
  · refine ⟨_, (popQ_rt s).trans (by rw [show (slotOf s).rt = v :: r from hq]), pops_changeSlot hi (fun _ => rfl) fun _ _ _ hne => ?_⟩
    simp only [queueOf, hne, if_false]
  · have hq' : (here s).mb = v :: r := hq
    have hp := pops_mb s
    rw [hq'] at hp
    exact ⟨_, (popQ_mb s).trans (by rw [if_neg (by simpa using hc), hq']), hp⟩
  · rw [queueOf_port _ _ h8 h11] at hq
    have hc' : claimed s c.toNat = false := hc.resolve_left (by omega)
    refine ⟨_, (popQ_port (by omega) s).trans (by rw [hc', hq]; rfl), pops_changeSlot hi (fun mb => ?_) fun mb d hm' hne => ?_⟩
    · rw [queueOf_port _ _ h8 h11]
      simp [leavePort]
    · rcases popCodes_cases hm' with (rfl | rfl | rfl | rfl) | rfl | ⟨hd8, hd11⟩
      · rfl
      · rfl
      · rfl
      · rfl
      · rfl
      · rw [queueOf_port _ _ hd8 hd11, queueOf_port _ _ hd8 hd11]
        have hn : c.toNat ≠ d.toNat := fun e => hne (BitVec.eq_of_toNat_eq e).symm
        have hf : (Fin.ofNat 4 (c.toNat - 8)).val ≠ (Fin.ofNat 4 (d.toNat - 8)).val := by simp; omega
        simp only [leavePort, Fin.getElem_fin, Vector.getElem_set_ne _ _ hf]

/-- A pop of an empty queue stalls, of rt as a reply that is waited for. -/
theorem popQ_empty {c : BitVec 5} {s : State} (hm : c ∈ popCodes) (hq : Claim.queueAt s c = []) :
    popQ c.toNat s = .error (.stall (decide (c = 5))) := by
  rw [queueAt_eq] at hq
  rcases popCodes_cases hm with (rfl | rfl | rfl | rfl) | rfl | ⟨h8, h11⟩
  · refine (popQ_lq s).trans ?_
    match h : (slotOf s).lq, hq with
    | [], _ => rfl
    | .reserved _ :: _, _ => rfl
    | .word w :: l, hq => simp [queueOf, h, readyWords] at hq
  · exact (popQ_sq s).trans (by rw [show (slotOf s).sq = [] from hq]; rfl)
  · exact (popQ_bo s).trans (by rw [show (slotOf s).bo = [] from hq]; rfl)
  · exact (popQ_rt s).trans (by rw [show (slotOf s).rt = [] from hq]; rfl)
  · exact (popQ_mb s).trans (by rw [show (here s).mb = [] from hq]; exact ite_self _)
  · rw [queueOf_port _ _ h8 h11] at hq
    have h5 : decide (c = 5) = false := decide_eq_false fun e => by rw [e] at h8; contradiction
    exact (popQ_port (by omega) s).trans (by rw [hq, h5]; exact ite_self _)
/-- A claim of another stream stalls a pop of the mailbox or a port (R41). -/
theorem popQ_claimed {c : BitVec 5} {s : State} (hm : c ∈ popCodes) (h6 : 6 ≤ c.toNat) (hc : claimed s c.toNat = true) :
    popQ c.toNat s = .error (.stall false) := by
  rcases popCodes_cases hm with (rfl | rfl | rfl | rfl) | rfl | ⟨h8, h11⟩
  · contradiction
  · contradiction
  · contradiction
  · contradiction
  · exact (popQ_mb s).trans (if_pos hc)
  · exact (popQ_port (by omega) s).trans (if_pos hc)

/-! ### Pushing (R40, R86, R306) -/

section
variable {s : State} (v : Word)

theorem stallIf_modSlot (b : Bool) (f : Slot → Slot) (s : State) :
    (do stallIf b; modSlot f : M Unit) s = if b then .error (.stall false) else .ok ((), changeSlot s f) := by
  cases b <;> rfl
theorem pushQ_waiting (c : Nat) (h : (threadOf s).sbuf ≠ []) : pushQ c v s = .error (.stall false) := by
  unfold pushQ
  rw [bind_run (get_run s), show (!(threadOf s).sbuf.isEmpty) = true by simpa using h]
  rfl
theorem pushQ_lq (h : (threadOf s).sbuf = []) : pushQ 2 v s = if decide (16 ≤ (slotOf s).lq.length) then .error (.stall false)
    else .ok ((), changeSlot s fun x => { x with lq := x.lq ++ [.word v] }) := by
  rw [← stallIf_modSlot]
  unfold pushQ
  rw [bind_run (get_run s), h]
  rfl
theorem pushQ_sq (h : (threadOf s).sbuf = []) : pushQ 3 v s = if decide (16 ≤ (slotOf s).sq.length) then .error (.stall false)
    else .ok ((), changeSlot s fun x => { x with sq := x.sq ++ [v] }) := by
  rw [← stallIf_modSlot]
  unfold pushQ
  rw [bind_run (get_run s), h]
  rfl
theorem pushQ_bo (h : (threadOf s).sbuf = []) : pushQ 4 v s = if decide (8 ≤ (slotOf s).bo.length) then .error (.stall false)
    else .ok ((), changeSlot s fun x => { x with bo := x.bo ++ [v], boProd := some (unitSide s.cur.unit) }) := by
  rw [← stallIf_modSlot]
  unfold pushQ
  rw [bind_run (get_run s), h]
  rfl
theorem pushQ_rt (h : (threadOf s).sbuf = []) : pushQ 5 v s = if decide (8 ≤ (slotOf s).rt.length) then .error (.stall false)
    else .ok ((), changeSlot s fun x => { x with rt := x.rt ++ [v] }) := by
  rw [← stallIf_modSlot]
  unfold pushQ
  rw [bind_run (get_run s), h]
  rfl
theorem pushQ_port {c : Nat} (h : (threadOf s).sbuf = []) (h8 : 8 ≤ c) (h11 : c ≤ 11) : pushQ c v s = pushPort (Fin.ofNat 4 (c - 8)) v s := by
  unfold pushQ
  rw [bind_run (get_run s), h, if_neg (by omega), if_neg (by omega), if_neg (by omega), if_neg (by omega), if_pos ⟨h8, h11⟩]
  rfl
/-- No code but those of the queues and ports can be written (R40). -/
theorem pushQ_other {c : Nat} (hq : c ∉ [2, 3, 4, 5]) (hp : ¬(8 ≤ c ∧ c ≤ 11)) : ∃ e, pushQ c v s = .error e := by
  by_cases h : (threadOf s).sbuf = []
  · simp only [List.mem_cons, List.not_mem_nil, or_false, not_or] at hq
    obtain ⟨h2, h3, h4, h5⟩ := hq
    unfold pushQ
    rw [bind_run (get_run s), h, if_neg h2, if_neg h3, if_neg h4, if_neg h5, if_neg hp]
    exact ⟨_, rfl⟩
  · exact ⟨_, pushQ_waiting v c h⟩
/-- The slot whose outgoing buffer holds `o` as its last entry. -/
def holding (k : Task) (o : Outgoing) (x : Slot) : Slot := { x with task := some { k with obuf := k.obuf ++ [o] } }
theorem hold_run {k : Task} (o : Outgoing) (h : (slotOf s).task = some k) :
    hold o s = if decide (16 ≤ k.obuf.length) then .error (.stall false) else .ok ((), changeSlot s (holding k o)) := by
  rw [← stallIf_modSlot]
  unfold hold
  rw [bind_run (getSlot_run s), h]
  rfl
theorem hold_kept {o : Outgoing} {t : State} (h : hold o s = .ok ((), t)) : OperandKept s t := by
  cases hk : (slotOf s).task with
  | none =>
    unfold hold at h
    rw [bind_run (getSlot_run s), hk] at h
    cases h
    exact operandKept_refl s
  | some k =>
    rw [hold_run o hk] at h
    split at h
    · cases h
    · cases h
      exact operandKept_changeSlot s _
/-- The slot whose port `p` is left with `e` as the last word to send. -/
def sending (p : Fin 4) (e : Side × Nat × Word) (x : Slot) : Slot :=
  { x with ports := x.ports.set p { x.ports[p] with send := x.ports[p].send ++ [e] } }
/-- The state after a word to send took its number (log 12). -/
def sent (s : State) (p : Fin 4) (v : Word) : State :=
  { changeSlot s (sending p (unitSide s.cur.unit, s.nextId, v)) with
    nextId := (changeSlot s (sending p (unitSide s.cur.unit, s.nextId, v))).nextId + 1 }
theorem operandKept_sent (s : State) (p : Fin 4) (v : Word) : OperandKept s (sent s p v) := by
  refine operandKept_trans (operandKept_changeSlot s (sending p (unitSide s.cur.unit, s.nextId, v))) ?_
  exact ⟨⟨fun _ => rfl, rfl, rfl, rfl, rfl, rfl, rfl⟩, fun _ => rfl, ⟨rfl, fun _ _ => rfl⟩, fun _ _ => rfl, rfl, rfl⟩
theorem slotOf_sent (hi : isIbex s.cur.unit = false) (p : Fin 4) :
    slotOf (sent s p v) = sending p (unitSide s.cur.unit, s.nextId, v) (slotOf s) := slotOf_changeSlot hi _
theorem pushPort_unbound {p : Fin 4} (h : (slotOf s).ports[p].cfg.getLsbD 31 = false) :
    pushPort p v s = .error (.trap (why 0x0A2 3) 0 none) := by
  unfold pushPort
  rw [bind_run (get_run s), h]
  rfl
theorem pushPort_spec {p : Fin 4} (h : (slotOf s).ports[p].cfg.getLsbD 31 = true) (hs : isSpec s = true) :
    pushPort p v s = hold (.port (unitSide s.cur.unit) p v) s := by
  unfold pushPort
  rw [bind_run (get_run s), h, hs]
  rfl
theorem pushPort_run {p : Fin 4} (h : (slotOf s).ports[p].cfg.getLsbD 31 = true) (hs : isSpec s = false) : pushPort p v s =
    if decide (8 ≤ (slotOf s).ports[p].send.length) || claimed s (8 + p.val) then .error (.stall false) else .ok ((), sent s p v) := by
  unfold pushPort
  rw [bind_run (get_run s), h, hs]
  cases hb : decide (8 ≤ (slotOf s).ports[p].send.length) || claimed s (8 + p.val) <;> rfl
theorem pushPort_kept {p : Fin 4} {t : State} (h : pushPort p v s = .ok ((), t)) : OperandKept s t := by
  cases hb : (slotOf s).ports[p].cfg.getLsbD 31 with
  | false => rw [pushPort_unbound v hb] at h; cases h
  | true =>
    cases hs : isSpec s with
    | true => exact hold_kept (pushPort_spec v hb hs ▸ h)
    | false =>
      rw [pushPort_run v hb hs] at h
      split at h
      · cases h
      · cases h
        exact operandKept_sent s p v
/-- A choice between a stall and a change of the slot keeps what an operand keeps. -/
theorem stallOr_kept {b : Bool} {f : Slot → Slot} {t : State}
    (h : (if b then .error (.stall false) else .ok ((), changeSlot s f) : Except Stop (Unit × State)) = .ok ((), t)) : OperandKept s t := by
  split at h
  · cases h
  · cases h
    exact operandKept_changeSlot s f
theorem pushQ_kept {c : Nat} {t : State} (h : pushQ c v s = .ok ((), t)) : OperandKept s t := by
  by_cases hb : (threadOf s).sbuf = []
  · by_cases hq : c ∈ [2, 3, 4, 5]
    · simp only [List.mem_cons, List.not_mem_nil, or_false] at hq
      rcases hq with rfl | rfl | rfl | rfl
      · exact stallOr_kept (pushQ_lq v hb ▸ h)
      · exact stallOr_kept (pushQ_sq v hb ▸ h)
      · exact stallOr_kept (pushQ_bo v hb ▸ h)
      · exact stallOr_kept (pushQ_rt v hb ▸ h)
    · by_cases hp : 8 ≤ c ∧ c ≤ 11
      · exact pushPort_kept v (pushQ_port v hb hp.1 hp.2 ▸ h)
      · obtain ⟨e, he⟩ := pushQ_other (s := s) v hq hp
        rw [he] at h
        cases h
  · rw [pushQ_waiting v c hb] at h
    cases h
end

/-- A written operand leaves l0 and the moving unit as they are. -/
theorem writeG_l0 {a : GReg} {v : Word} {s t : State} (h : writeG a v s = .ok ((), t)) :
    (threadOf t).l0 = (threadOf s).l0 ∧ t.cur = s.cur := by
  cases a with
  | g n =>
    cases hl : locked (threadOf s) n with
    | true =>
      have he : writeG (.g n) v s = .error (.stall false) := writeReg_locked hl
      rw [he] at h
      cases h
    | false =>
      obtain ⟨t', ht, -, -, hh, -, h0, -, -⟩ := writeReg_spec v hl
      cases ht.symm.trans h
      exact ⟨h0, onlyHere_cur hh⟩
  | sp c =>
    obtain ⟨⟨-, -, h0, -⟩, -, hh, -⟩ := pushQ_kept v h
    exact ⟨h0, onlyHere_cur hh⟩
/-- R43: a result moves l0 to l1 and itself to l0. -/
theorem writeResult_spec {a : GReg} {v : Word} {s s1 : State} (h : writeG a v s = .ok ((), s1)) :
    ∃ t, writeResult a v s = .ok ((), t) ∧ (threadOf t).l0 = v ∧ (threadOf t).l1 = (threadOf s).l0 ∧
    (∀ n, regVal (threadOf t) n = regVal (threadOf s1) n) ∧ slotOf t = slotOf s1 ∧ MemKept s1 t := by
  refine ⟨_, writeResult_ok h, ?_, ?_, fun n => ?_, slotOf_mapCore rfl, memKept_mapCore rfl⟩
  · rw [threadOf_modThread]
  · rw [threadOf_modThread]
    exact (writeG_l0 h).1
  · rw [threadOf_modThread]
    rfl
/-- A closure register reads as its handle. -/
theorem readG_handle (j : Fin 8) (s : State) :
    readG (.sp (BitVec.ofNat 5 (16 + j))) s = .ok (((threadOf s).k[j]).setWidth 64, s) := by
  have hj : (BitVec.ofNat 5 (16 + j.val)).toNat = 16 + j.val := by simp; omega
  have hne : ∀ d : BitVec 5, d.toNat < 16 → BitVec.ofNat 5 (16 + j.val) ≠ d := fun d hd e => by
    have := congrArg BitVec.toNat e
    omega
  unfold readG
  dsimp only
  rw [bind_run (getThread_run s), if_neg (hne 0 (by decide)), if_neg (hne 1 (by decide)), hj, if_pos (by omega)]
  simp [BitVec.ofNat_toNat]

/-- The four codes of the ports write to them. -/
theorem writeG_port (p : Fin 4) (v : Word) {s : State} (h : (threadOf s).sbuf = []) :
    writeG (.sp (BitVec.ofNat 5 (8 + p))) v s = pushPort p v s := by
  have hp : (BitVec.ofNat 5 (8 + p.val)).toNat = 8 + p.val := by simp; omega
  have hq : Fin.ofNat 4 (8 + p.val - 8) = p := by ext; simp
  show pushQ (BitVec.ofNat 5 (8 + p.val)).toNat v s = _
  rw [hp, pushQ_port v h (by omega) (by omega), hq]

/-- Settles O53: the rules of an operand, from what a pop, a push and a register write do. -/
theorem operandRules : Obligations.OperandRules := by
  unfold Obligations.OperandRules
  refine ⟨⟨fun n s h => ?_, fun n s v h => ?_, fun n s v h => ?_, fun s => ⟨rfl, rfl⟩, readG_handle, fun c s v r hm hq hi hc => ?_,
    fun c s hm hq => ?_, fun c s hm h6 hc => ?_, fun a s s1 v h => writeResult_spec h, fun s v c _ h => pushQ_waiting v _ h,
    fun s v hi hb => ⟨⟨fun h => ?_, fun h => ?_⟩, ⟨fun h => ?_, fun h => ?_⟩, ⟨fun h => ?_, fun h => ?_⟩, fun h => ?_, fun h => ?_⟩⟩,
    fun p s v hi hb => ⟨fun h => ?_, fun h => ⟨fun hs hl hc => ?_, fun hs hl => ?_, fun k hs hk => ⟨fun hl => ?_, fun hl => ?_⟩⟩⟩⟩
  · exact readReg_ok (by simpa using h)
  · exact writeReg_spec v (by simpa using h)
  · exact ⟨readReg_locked h, writeReg_locked h⟩
  · rw [readG_queue hm]
    exact popQ_pops hm hq hi hc
  · rw [readG_queue hm]
    exact popQ_empty hm hq
  · rw [readG_queue hm]
    exact popQ_claimed hm h6 hc
  · exact ⟨_, (pushQ_lq v hb).trans (if_neg (by simpa using h)), by rw [slotOf_changeSlot hi], operandKept_changeSlot s _⟩
  · exact (pushQ_lq v hb).trans (if_pos (by simpa using h))
  · exact ⟨_, (pushQ_sq v hb).trans (if_neg (by simpa using h)), by rw [slotOf_changeSlot hi], operandKept_changeSlot s _⟩
  · exact (pushQ_sq v hb).trans (if_pos (by simpa using h))
  · exact ⟨_, (pushQ_bo v hb).trans (if_neg (by simpa using h)), by rw [slotOf_changeSlot hi], by rw [slotOf_changeSlot hi],
      operandKept_changeSlot s _⟩
  · exact (pushQ_bo v hb).trans (if_pos (by simpa using h))
  · exact ⟨_, (pushQ_rt v hb).trans (if_neg (by simpa using h)), by rw [slotOf_changeSlot hi], operandKept_changeSlot s _⟩
  · exact (pushQ_rt v hb).trans (if_pos (by simpa using h))
  all_goals rw [writeG_port p v hb]
  · exact pushPort_unbound v h
  · refine ⟨_, (pushPort_run v h hs).trans (if_neg (by simp [hc]; omega)), ?_, ?_, operandKept_sent s p v⟩
    · rw [slotOf_sent v hi]; simp [sending]
    · rw [slotOf_sent v hi]; simp [sending]
  · exact (pushPort_run v h hs).trans (if_pos (by simpa using hl))
  · exact ⟨_, (pushPort_spec v h hs).trans ((hold_run _ hk).trans (if_neg (by simpa using hl))), operandKept_changeSlot s _,
      by rw [slotOf_changeSlot hi]; rfl, by rw [slotOf_changeSlot hi]; rfl⟩
  · exact (pushPort_spec v h hs).trans ((hold_run _ hk).trans (if_pos (by simpa using hl)))

end Sys2Proof.Machine

namespace Sys2Proof.Machine
open Sys2Proof.Claim

/-! # The decode causes checked at issue (O54) -/

/-- Every instruction that the tables give units to is a use of `instr` with these units: checks 6 to 9 of R47 come first. -/
theorem exec_units {i : Instr} {un : Units} (h : unitsOf i = some un) (s : State) :
    ∃ priv uses body, exec i s = instr un priv uses body s := by
  cases i <;> cases h <;> (unfold exec; exact ⟨_, _, _, rfl⟩)
/-- The instructions of S mode. -/
theorem exec_supervisor {i : Instr} (h : i ∈ [Instr.eret, .halt, .fenceI]) (s : State) :
    ∃ body, exec i s = instr uEA true [] body s := by
  simp only [List.mem_cons, List.not_mem_nil, or_false] at h
  rcases h with rfl | rfl | rfl <;> (unfold exec; exact ⟨_, rfl⟩)
/-- An instruction without units has no words. -/
theorem wellFormed_unitless {i : Instr} (h : unitsOf i = none) : wellFormed i = false := by
  cases i <;> cases h <;> rfl

/-! ### The checks of R47 in their order -/

section
variable {un : Units} {priv : Bool} {uses : List Use} {s : State}

theorem unitCheck_eq (un : Units) (u : UnitId) : unitCheck un u = wrongUnit un u := by
  unfold unitCheck wrongUnit
  cases u with
  | ibex _ => rfl
  | stream _ x => cases x <;> rfl
theorem preCheck_unit {w : Why} (h : unitCheck un s.cur.unit = some w) : preCheck un priv uses s = some w := by
  unfold preCheck
  rw [h]
theorem preCheck_absent {x : Use} (hu : unitCheck un s.cur.unit = none) (hx : x ∈ uses) (h : usePresent s.cur.unit x = false) :
    preCheck un priv uses s = some ⟨0x002, 4⟩ := by
  have hall : uses.all (usePresent s.cur.unit) = false := List.all_eq_false.2 ⟨x, hx, by simp [h]⟩
  unfold preCheck
  rw [hu, hall]
  rfl
theorem preCheck_userMode (hu : unitCheck un s.cur.unit = none) (hp : uses.all (usePresent s.cur.unit) = true) (hm : userMode s = true) :
    preCheck un true uses s = some ⟨0x009, 0⟩ := by
  unfold preCheck
  rw [hu, hp, hm]
  rfl
theorem preCheck_illegal {w : Why} (hu : unitCheck un s.cur.unit = none) (hp : uses.all (usePresent s.cur.unit) = true)
    (hl : uses.findSome? (useLegal (unitSide s.cur.unit) (slotOf s).boProd) = some w) : preCheck un false uses s = some w := by
  unfold preCheck
  rw [hu, hp, hl]
  rfl
theorem preCheck_odd (hu : unitCheck un s.cur.unit = none) (hp : uses.all (usePresent s.cur.unit) = true)
    (hl : uses.findSome? (useLegal (unitSide s.cur.unit) (slotOf s).boProd) = none) (he : uses.all useEven = false) :
    preCheck un false uses s = some ⟨0x005, 0⟩ := by
  unfold preCheck
  rw [hu, hp, hl, he]
  rfl
/-- What passing checks 6 to 9 says of each. -/
theorem preCheck_none (h : preCheck un priv uses s = none) : unitCheck un s.cur.unit = none ∧
    (∀ x ∈ uses, usePresent s.cur.unit x = true) ∧ (∀ x ∈ uses, useLegal (unitSide s.cur.unit) (slotOf s).boProd x = none) := by
  unfold preCheck at h
  split at h
  · cases h
  · next hu =>
    split at h
    · cases h
    · next hp =>
      split at h
      · cases h
      · split at h
        · cases h
        · next hl => exact ⟨hu, by simpa using hp, List.findSome?_eq_none_iff.1 hl⟩
end

/-- The only cause that a read or a write against its queue's direction raises. -/
theorem useLegal_queue {x : Side} {bo : Option Side} {u : Use} {r : GReg} {w : Why} (hu : u = .rd r ∨ u = .wr r)
    (h : useLegal x bo u = some w) : w = ⟨0x002, 3⟩ := by
  rcases hu with rfl | rfl
  all_goals
    cases r with
    | g n => cases h
    | sp c =>
      simp only [useLegal] at h
      split at h
      · cases h
      · exact (Option.some.inj h).symm

/-! ### Two sources and a result -/

/-- The operands of an instruction of R128 and R129. -/
def aluUses (a b c : GReg) : List Use := [.rd b, .rd c, .wr a]
theorem mem_aluUses {a b c r : GReg} (h : a = r ∨ b = r ∨ c = r) : ∃ x ∈ aluUses a b c, x = .rd r ∨ x = .wr r := by
  rcases h with rfl | rfl | rfl
  · exact ⟨.wr a, by simp [aluUses], .inr rfl⟩
  · exact ⟨.rd b, by simp [aluUses], .inl rfl⟩
  · exact ⟨.rd c, by simp [aluUses], .inl rfl⟩
theorem exists_aluUses {P : Use → Prop} {a b c : GReg} : (∃ x ∈ aluUses a b c, P x) ↔ P (.rd b) ∨ P (.rd c) ∨ P (.wr a) := by
  simp [aluUses]
theorem exec_alu {i : Instr} {a b c : GReg} {f : Word → Word → Word} (h : aluTable i = some (a, b, c, f)) (s : State) :
    ∃ body, exec i s = instr uEAN false (aluUses a b c) body s := by
  cases i <;> cases h <;> (unfold exec; exact ⟨_, rfl⟩)
theorem unitCheck_all (u : UnitId) : unitCheck uEAN u = none := by
  cases u with
  | ibex _ => rfl
  | stream _ x => cases x <;> rfl
section
variable {s : State} {i : Instr} {a b c : GReg} {f : Word → Word → Word}

theorem alu_absent {r : GReg} (h : aluTable i = some (a, b, c, f)) (hc : isCore s.cur.core = true) (hr : a = r ∨ b = r ∨ c = r)
    (hp : regPresent s.cur.unit r = false) : Refuses i s ⟨0x002, 4⟩ := by
  obtain ⟨body, he⟩ := exec_alu h s
  obtain ⟨x, hx, hxr⟩ := mem_aluUses hr
  refine he.trans (instr_refused hc (preCheck_absent (unitCheck_all _) hx ?_))
  rcases hxr with rfl | rfl
  · exact hp
  · exact hp
theorem alu_illegal (h : aluTable i = some (a, b, c, f)) (hc : isCore s.cur.core = true) (hp : ∀ r ∈ [a, b, c], regPresent s.cur.unit r = true)
    (hl : ∃ x ∈ aluUses a b c, useLegal (unitSide s.cur.unit) (slotOf s).boProd x ≠ none) : Refuses i s ⟨0x002, 3⟩ := by
  obtain ⟨body, he⟩ := exec_alu h s
  have hall : (aluUses a b c).all (usePresent s.cur.unit) = true := by
    simpa [aluUses, usePresent, and_comm, and_left_comm] using hp
  obtain ⟨w, hw⟩ : ∃ w, (aluUses a b c).findSome? (useLegal (unitSide s.cur.unit) (slotOf s).boProd) = some w := by
    rw [← Option.ne_none_iff_exists', Ne, List.findSome?_eq_none_iff]
    intro hn
    obtain ⟨x, hx, hxl⟩ := hl
    exact hxl (hn x hx)
  obtain ⟨x, hx, hxw⟩ := List.exists_of_findSome?_eq_some hw
  have hw3 : w = ⟨0x002, 3⟩ := by
    simp only [aluUses, List.mem_cons, List.not_mem_nil, or_false] at hx
    rcases hx with rfl | rfl | rfl
    · exact useLegal_queue (.inl rfl) hxw
    · exact useLegal_queue (.inl rfl) hxw
    · exact useLegal_queue (.inr rfl) hxw
  exact he.trans (instr_refused hc (hw3 ▸ preCheck_illegal (unitCheck_all _) hall hw))
end
theorem unitCheck_stream {u : UnitId} : unitCheck uEA u = none ↔ isIbex u = false := by
  cases u with
  | ibex _ => simp [unitCheck, uEA, isIbex, unitSlot]
  | stream _ x => cases x <;> simp [unitCheck, uEA, isIbex, unitSlot]
theorem regPresent_exec (j : Fin 4) (r : GReg) : regPresent (.stream j .exec) r = true := by
  cases r <;> rfl

theorem regPresent_acc (j : Fin 4) {r : GReg} (h : ∀ n, r = .sp n → n.toNat < 20) : regPresent (.stream j .acc) r = true := by
  cases r with
  | g n => rfl
  | sp n =>
    have hn := h n rfl
    simp [regPresent, isIbex, isAcc, unitSlot, unitSide]
    omega
theorem exec_mayNotRead (bo : Option Side) {r : GReg} (h : r ∈ [GReg.sp 3, .sp 5]) : useLegal .exec bo (.rd r) ≠ none := by
  simp only [List.mem_cons, List.not_mem_nil, or_false] at h
  rcases h with rfl | rfl <;> exact Option.some_ne_none _
theorem exec_mayNotWrite (bo : Option Side) {r : GReg} (h : r = .sp 2) : useLegal .exec bo (.wr r) ≠ none := by
  rw [h]
  exact Option.some_ne_none _
theorem acc_mayNotRead (bo : Option Side) {r : GReg} (h : r = .sp 2) : useLegal .acc bo (.rd r) ≠ none := by
  rw [h]
  exact Option.some_ne_none _
theorem acc_mayNotWrite (bo : Option Side) {r : GReg} (h : r ∈ [GReg.sp 3, .sp 5]) : useLegal .acc bo (.wr r) ≠ none := by
  simp only [List.mem_cons, List.not_mem_nil, or_false] at h
  rcases h with rfl | rfl <;> exact Option.some_ne_none _

/-- Settles O54: the unit, the mode and the operands are checked before anything else. -/
theorem unitAndOperandTraps : Obligations.UnitAndOperandTraps := by
  unfold Obligations.UnitAndOperandTraps
  refine ⟨⟨fun i hw => ?_, fun i un s w h hc hw => ?_⟩, fun s i hi hc hib hm => ?_, fun s i a b c f n h hc hn hib hr => ?_,
    fun s i a b c f n h hc hn hr => ?_, fun s i a b c f j h hc _ => ⟨fun hu hr => ?_, fun hu hp hr => ?_⟩,
    fun s a b n hc hp => ⟨fun hn => ?_, fun hn => ?_⟩⟩
  · cases h : unitsOf i with
    | some un => exact ⟨un, rfl⟩
    | none =>
      rw [wellFormed_unitless h] at hw
      cases hw
  · obtain ⟨priv, uses, body, he⟩ := exec_units h s
    exact he.trans (instr_refused hc (preCheck_unit ((unitCheck_eq _ _).trans hw)))
  · obtain ⟨body, he⟩ := exec_supervisor hi s
    exact he.trans (instr_refused hc (preCheck_userMode (unitCheck_stream.2 hib) rfl hm))
  · exact alu_absent h hc hr (by simp [regPresent, hib]; omega)
  · refine alu_absent h hc hr ?_
    rcases hn with ⟨hib, hn⟩ | ⟨hac, hib, hn⟩
    · simp [regPresent, hib]; omega
    · simp [regPresent, hib, hac]; omega
  · have hs : unitSide s.cur.unit = .exec := by rw [hu]; rfl
    refine alu_illegal h hc (fun r _ => hu ▸ regPresent_exec j r) (exists_aluUses.2 ?_)
    rw [hs]
    exact hr.imp (exec_mayNotRead _) (Or.imp (exec_mayNotRead _) (exec_mayNotWrite _))
  · have hs : unitSide s.cur.unit = .acc := by rw [hu]; rfl
    refine alu_illegal h hc (fun r hr => hu ▸ regPresent_acc j (hp r hr)) (exists_aluUses.2 ?_)
    rw [hs]
    exact hr.imp (acc_mayNotRead _) (Or.imp (acc_mayNotRead _) (acc_mayNotWrite _))
  · obtain ⟨hu, hpres, hleg⟩ := preCheck_none hp.2
    simp only [List.mem_cons, List.not_mem_nil, or_false, forall_eq_or_imp, forall_eq] at hpres hleg
    refine instr_refused hc (preCheck_odd hu ?_ ?_ ?_)
    · have hpair : usePresent s.cur.unit (.pair (.g n)) = true := by simp [usePresent, regPresent, unitCheck_stream.1 hu]
      simp only [List.all_cons, hpres, hpair]
      rfl
    · simp only [List.findSome?, hleg]
      rfl
    · simp [useEven, hn]
  · obtain ⟨hu, hpres, hleg⟩ := preCheck_none hp.2
    simp only [List.mem_cons, List.not_mem_nil, or_false, forall_eq_or_imp, forall_eq] at hpres hleg
    refine instr_refused hc (preCheck_illegal hu ?_ ?_)
    · have hpair : usePresent s.cur.unit (.pair (.sp n)) = true := hn
      simp only [List.all_cons, hpres, hpair]
      rfl
    · simp only [List.findSome?, hleg]
      rfl

end Sys2Proof.Machine

namespace Sys2Proof.Machine
open Sys2Proof.Claim

/-! # Traps, ERET, HALT and parity errors (O46)

### A trap that TrapEntry takes (R275) -/

/-- What a trap saves of the thread on side `x`. -/
def trappedThread (t : Trap) (x : Side) (th : Thread) : Thread :=
  { pauseThread th with epc := (if t.side = x then t.epc else th.pc) &&& 0x1FFFFE }
/-- The core with the trap in its slot's registers and both streams held. -/
def trappedCore (i : Fin 4) (t : Trap) (k : Core) : Core :=
  mapThread (mapThread (mapSlot k i fun x => { trapRecord x t with accWas := (threadAt k (.stream i .acc)).running })
    (.stream i .exec) (trappedThread t .exec)) (.stream i .acc) (trappedThread t .acc)
/-- The core with the execute stream of slot `i` at `e`. -/
def handlerCore (i : Fin 4) (e : Word) (k : Core) : Core := mapThread k (.stream i .exec) fun th => { th with pc := e, running := true }

theorem exec_ne_acc (i : Fin 4) : UnitId.stream i .exec ≠ .stream i .acc := by simp
section
variable (i : Fin 4) (t : Trap) (k : Core)

theorem trappedCore_exec : threadAt (trappedCore i t k) (.stream i .exec) = trappedThread t .exec (threadAt k (.stream i .exec)) := by
  unfold trappedCore
  rw [threadAt_mapThread_ne _ _ (exec_ne_acc i), threadAt_mapThread, threadAt_mapSlot]
theorem trappedCore_acc : threadAt (trappedCore i t k) (.stream i .acc) = trappedThread t .acc (threadAt k (.stream i .acc)) := by
  unfold trappedCore
  rw [threadAt_mapThread, threadAt_mapThread_ne _ _ (exec_ne_acc i).symm, threadAt_mapSlot]
theorem trappedCore_slot : slotAt (trappedCore i t k) i =
    { trapRecord (slotAt k i) t with accWas := (threadAt k (.stream i .acc)).running } := by
  unfold trappedCore
  rw [slotAt_mapThread, slotAt_mapThread, slotAt_mapSlot]
theorem trappedCore_slot_ne {j : Fin 4} (h : j ≠ i) : slotAt (trappedCore i t k) j = slotAt k j := by
  unfold trappedCore
  rw [slotAt_mapThread, slotAt_mapThread, slotAt_mapSlot_ne _ _ h]
theorem trappedCore_mem : (trappedCore i t k).mem = k.mem := by simp [trappedCore]
theorem trappedCore_attr : (trappedCore i t k).attr = k.attr := by simp [trappedCore]
theorem trappedCore_tvec : (trappedCore i t k).tvec = k.tvec := by simp [trappedCore]
theorem handlerCore_mem (e : Word) : (handlerCore i e k).mem = k.mem := by simp [handlerCore]
theorem handlerCore_exec (e : Word) : threadAt (handlerCore i e k) (.stream i .exec) = { threadAt k (.stream i .exec) with pc := e, running := true } :=
  threadAt_mapThread ..
theorem handlerCore_acc (e : Word) : threadAt (handlerCore i e k) (.stream i .acc) = threadAt k (.stream i .acc) :=
  threadAt_mapThread_ne _ _ (exec_ne_acc i).symm
end

/-- The last part of TrapEntry: the handler starts at TVEC where PAD.T can be fetched there. -/
def startHandler (s : State) (c : Coord) (i : Fin 4) : State :=
  let k := coreAt s c
  if k.tvec = 0 then doubleTrap s c i (why 0x040 5)
  else if !fetchable k k.tvec then doubleTrap s c i (why 0x064 0)
  else if fetchHalf k (threadAt k (.stream i .exec)) k.tvec.toNat != 0x9A00 then doubleTrap s c i (why 0x040 5)
  else mapCore s c (handlerCore i k.tvec)
theorem trapEntry_eq {s : State} {c : Coord} {i : Fin 4} (t : Trap) (hintrap : (slotAt (coreAt s c) i).status.getLsbD 2 = false)
    (hnone : slotHoldsNone (coreAt s c) i = true) : trapEntry s c i t = startHandler (mapCore s c (trappedCore i t)) c i := by
  unfold trapEntry
  rw [releaseSlot_of_holdsNone s c i hnone]
  exact if_neg (ne_true_of_eq_false hintrap)
theorem startHandler_ready {s : State} {c : Coord} {i : Fin 4} (h0 : (coreAt s c).tvec ≠ 0) (hf : fetchable (coreAt s c) (coreAt s c).tvec = true)
    (hp : fetchHalf (coreAt s c) (threadAt (coreAt s c) (.stream i .exec)) (coreAt s c).tvec.toNat = 0x9A00) :
    startHandler s c i = mapCore s c (handlerCore i (coreAt s c).tvec) := by
  unfold startHandler
  dsimp only
  rw [if_neg h0, hf, hp]
  rfl
theorem trapEntry_ready {s : State} {c : Coord} {i : Fin 4} (t : Trap) (h : TrapReady s c i) :
    trapEntry s c i t = mapCore (mapCore s c (trappedCore i t)) c (handlerCore i (coreAt s c).tvec) := by
  obtain ⟨hintrap, -, hnone, h0, hlow, hx, hpad⟩ := h
  have hf : fetchable (coreAt s c) (coreAt s c).tvec = true := by simp [fetchable, hlow, hx]
  have hk : coreAt (mapCore s c (trappedCore i t)) c = trappedCore i t (coreAt s c) := coreAt_mapCore ..
  rw [trapEntry_eq t hintrap hnone, startHandler_ready, hk, trappedCore_tvec]
  · rw [hk, trappedCore_tvec]
    exact h0
  · rw [hk, trappedCore_tvec, fetchable, attrOf, trappedCore_attr]
    exact hf
  · rw [hk, trappedCore_exec, trappedCore_tvec, fetchHalf, trappedCore_mem]
    exact hpad
theorem slotTs_lt (x : Slot) : slotTs x < 2 ^ 32 := by
  unfold slotTs
  split
  · simp only [rcdTs, bits, natBits]
    omega
  · decide
/-- TrapEntry, where it can start the handler. -/
theorem trapEntry_taken {s : State} {c : Coord} {i : Fin 4} (t : Trap) (h : TrapReady s c i) : TrapTaken s (trapEntry s c i t) c i t := by
  rw [trapEntry_ready t h]
  unfold TrapTaken
  simp only [coreAt_mapCore, handlerCore_exec, handlerCore_acc, trappedCore_exec, trappedCore_acc]
  have hslot : ∀ j e, slotAt (handlerCore i e (trappedCore i t (coreAt s c))) j = slotAt (trappedCore i t (coreAt s c)) j := fun _ _ => rfl
  simp only [hslot, trappedCore_slot]
  refine ⟨rfl, ?_, ?_, rfl, rfl, rfl, trivial, trivial, rfl, rfl, rfl, fun z => ?_, rfl, rfl, rfl, rfl, rfl, fun j hj => ?_, ?_⟩
  · show 4 + 2 * (_ &&& 1) + 1 = _
    bv_omega
  · show (BitVec.ofNat 64 (_ + 512 * _ + (if t.side = .acc then 65536 else 0) + 2 ^ 32 * slotTs (slotAt (coreAt s c) i))).toNat = _
    have hts := slotTs_lt (slotAt (coreAt s c) i)
    have hc := t.why.cause.isLt
    have hs := t.why.sub.isLt
    rw [BitVec.toNat_ofNat]
    split
    · omega
    · omega
  · cases z
    · rw [handlerCore_exec, trappedCore_exec]
      exact ⟨rfl, rfl, rfl, rfl, rfl, rfl⟩
    · rw [handlerCore_acc, trappedCore_acc]
      exact ⟨rfl, rfl, rfl, rfl, rfl, rfl⟩
  · exact trappedCore_slot_ne i t _ hj
  · rw [handlerCore_mem, trappedCore_mem]

/-! ### What a stopped instruction leaves behind -/

/-- A thread whose instruction's requests are done with. -/
def forgotten (t : Thread) : Thread := { t with pend := [], rcd := none, joins := false }
theorem forget_eq (s : State) : forget s = mapCore s s.cur.core fun k => mapThread k s.cur.unit forgotten := rfl
theorem threadAt_forget (s : State) (u : UnitId) : threadAt (coreAt (forget s) s.cur.core) u =
    if u = s.cur.unit then forgotten (threadAt (here s) u) else threadAt (here s) u := by
  rw [forget_eq, coreAt_mapCore]
  split
  · next h => rw [h, threadAt_mapThread]
  · next h => rw [threadAt_mapThread_ne _ _ h]
/-- The parts of a thread that a trap records or keeps are as before. -/
theorem forget_thread (s : State) (u : UnitId) :
    (threadAt (coreAt (forget s) s.cur.core) u).pc = (threadAt (here s) u).pc ∧
    (threadAt (coreAt (forget s) s.cur.core) u).fbuf = (threadAt (here s) u).fbuf ∧
    (threadAt (coreAt (forget s) s.cur.core) u).g = (threadAt (here s) u).g ∧
    (threadAt (coreAt (forget s) s.cur.core) u).dead = (threadAt (here s) u).dead ∧
    (threadAt (coreAt (forget s) s.cur.core) u).l0 = (threadAt (here s) u).l0 ∧
    (threadAt (coreAt (forget s) s.cur.core) u).l1 = (threadAt (here s) u).l1 ∧
    (threadAt (coreAt (forget s) s.cur.core) u).k = (threadAt (here s) u).k ∧
    (threadAt (coreAt (forget s) s.cur.core) u).fcsr = (threadAt (here s) u).fcsr := by
  rw [threadAt_forget]
  split
  · exact ⟨rfl, rfl, rfl, rfl, rfl, rfl, rfl, rfl⟩
  · exact ⟨rfl, rfl, rfl, rfl, rfl, rfl, rfl, rfl⟩
/-- Any part of a core but its threads is as before. -/
theorem forget_core {α : Type} (f : Core → α) (hf : ∀ k u, f (mapThread k u forgotten) = f k) (s : State) (c : Coord) :
    f (coreAt (forget s) c) = f (coreAt s c) := by
  by_cases h : c = s.cur.core
  · rw [forget_eq, h, coreAt_mapCore, hf]
  · rw [forget_eq, coreAt_mapCore_ne _ _ h]
theorem slotAt_forget (s : State) (c : Coord) (i : Fin 4) : slotAt (coreAt (forget s) c) i = slotAt (coreAt s c) i :=
  forget_core (slotAt · i) (fun _ _ => rfl) s c
theorem tvec_forget (s : State) (c : Coord) : (coreAt (forget s) c).tvec = (coreAt s c).tvec := forget_core (·.tvec) (fun _ _ => rfl) s c
theorem attr_forget (s : State) (c : Coord) : (coreAt (forget s) c).attr = (coreAt s c).attr := forget_core (·.attr) (fun _ _ => rfl) s c
theorem mem_forget (s : State) (c : Coord) : (coreAt (forget s) c).mem = (coreAt s c).mem := forget_core (·.mem) (fun _ _ => rfl) s c
theorem speculative_forget (s : State) (y : Task) : speculative (forget s) y = speculative s y := by
  unfold speculative
  rw [forget_core (entryAt · y.entry) fun _ _ => rfl]
theorem trapReady_forget {s : State} {i : Fin 4} (h : TrapReady s s.cur.core i) : TrapReady (forget s) s.cur.core i := by
  obtain ⟨hintrap, hspec, hnone, h0, hlow, hx, hpad⟩ := h
  have hholds : ∀ u, holdsNone (threadAt (here s) u) = true → holdsNone (threadAt (coreAt (forget s) s.cur.core) u) = true := by
    intro u hu
    rw [threadAt_forget]
    split
    · rfl
    · exact hu
  obtain ⟨he, ha⟩ := (Bool.and_eq_true _ _).mp hnone
  refine ⟨?_, fun y hy => ?_, (Bool.and_eq_true _ _).mpr ⟨hholds _ he, hholds _ ha⟩, ?_, ?_, ?_, ?_⟩
  · rw [slotAt_forget, hintrap]
  · rw [speculative_forget]
    exact hspec y (by rw [← slotAt_forget]; exact hy)
  · rw [tvec_forget]; exact h0
  · rw [tvec_forget]; exact hlow
  · rw [tvec_forget, attrOf, attr_forget]; exact hx
  · simp only [tvec_forget, fetchHalf, forget_thread, mem_forget]
    exact hpad
/-- The trap of a stream with the requests of its instruction done with is the trap of the stream. -/
theorem trapTaken_forget {s t : State} {i : Fin 4} {r : Trap} (h : TrapTaken (forget s) t s.cur.core i r) : TrapTaken s t s.cur.core i r := by
  unfold TrapTaken at h
  simp only [slotAt_forget, tvec_forget, mem_forget, forget_thread] at h
  exact h
/-- A trap of a slot whose body is not speculative is taken. -/
theorem takeTrap_eq {s : State} {c : Coord} {i : Fin 4} (t : Trap)
    (h : ∀ y, (slotAt (coreAt s c) i).task = some y → speculative s y = false) : takeTrap s c i t = trapEntry s c i t := by
  unfold takeTrap
  split
  · next y hy => exact if_neg (ne_true_of_eq_false (h y hy))
  · rfl
/-- R275: a precise trap of a stream that TrapEntry can take. -/
theorem onStop_trap_taken {s : State} {q : Fin 4} {x : Side} (w : Why) (a : Word) (hu : s.cur.unit = .stream q x) (h : TrapReady s s.cur.core q) :
    TrapTaken s (onStop s (.trap w a none)) s.cur.core q ⟨w, x, a, pcOf s, s.ir, pcOf s⟩ := by
  have hnone : holdsNone (threadAt (coreAt s s.cur.core) s.cur.unit) = true := by
    obtain ⟨-, -, hn, -⟩ := h
    obtain ⟨he, ha⟩ := (Bool.and_eq_true _ _).mp hn
    rw [hu]
    cases x
    · exact he
    · exact ha
  have hready := trapReady_forget h
  have hspec : ∀ y, (slotAt (coreAt (forget s) s.cur.core) q).task = some y → speculative (forget s) y = false := by
    obtain ⟨-, hs, -⟩ := hready
    exact hs
  have hraise : onStop s (.trap w a none) = trapEntry (forget s) s.cur.core q ⟨w, x, a, pcOf s, s.ir, pcOf s⟩ := by
    show raise (forget (releasePend s s.cur)) s.cur _ = _
    rw [releasePend_of_holdsNone s s.cur hnone]
    unfold raise
    rw [hu]
    exact takeTrap_eq _ hspec
  rw [hraise]
  exact trapTaken_forget (trapEntry_taken _ hready)

end Sys2Proof.Machine

namespace Sys2Proof.Machine
open Sys2Proof.Claim

/-! ### ERET (R277) -/

theorem slotNo_stream {u : UnitId} {q : Fin 4} {x : Side} (h : u = .stream q x) : slotNo u = q := by
  rw [h]
  rfl
theorem slotOf_stream {s : State} {q : Fin 4} {x : Side} (h : s.cur.unit = .stream q x) : slotOf s = slotAt (here s) q := by
  rw [slotOf, h]
  rfl
theorem threadOf_stream {s : State} {u : UnitId} (h : s.cur.unit = u) : threadOf s = threadAt (here s) u := by
  rw [threadOf, h]
section
variable {s : State} {q : Fin 4}

theorem eret_noTrap (hp : Passes uEA true [] s) (hu : s.cur.unit = .stream q .exec) (h : (slotOf s).status.getLsbD 2 = false) :
    exec .eret s = .next (onStop s (.trap (why 0x002 5) (baseAddr s) none)) := by
  refine instr_stop (e := .trap (why 0x002 5) (baseAddr s) none) hp ?_
  rw [bind_run (get_run s), h, hu]
  rfl
theorem eret_run (hp : Passes uEA true [] s) (hu : s.cur.unit = .stream q .exec) (h : (slotOf s).status.getLsbD 2 = true) :
    exec .eret s = .next (mapCore s s.cur.core fun k => trapReturn k q) := by
  refine instr_ok (n := .stay) hp ?_
  rw [bind_run (get_run s), h, slotNo_stream hu, hu]
  rfl
end
/-- The access stream after ERET, from before. -/
def resumedAcc (x : Slot) (t : Thread) : Thread :=
  if x.accWas then
    { t with pc := t.epc, running := true
             gld := t.gld.map fun y => if y.reported then { y with data := some 0, reported := false } else y }
  else t
theorem trapReturn_eq (k : Core) (i : Fin 4) : trapReturn k i =
    mapThread (mapThread (mapSlot k i fun x => { x with st := .running, status := (x.status &&& 2) + (x.status >>> 1 &&& 1) })
      (.stream i .exec) fun t => { t with pc := t.epc, running := true }) (.stream i .acc) (resumedAcc (slotAt k i)) := rfl
section
variable (k : Core) (i : Fin 4)

theorem trapReturn_slot : slotAt (trapReturn k i) i =
    { slotAt k i with st := .running, status := ((slotAt k i).status &&& 2) + ((slotAt k i).status >>> 1 &&& 1) } := by
  rw [trapReturn_eq, slotAt_mapThread, slotAt_mapThread, slotAt_mapSlot]
theorem trapReturn_exec : threadAt (trapReturn k i) (.stream i .exec) =
    { threadAt k (.stream i .exec) with pc := (threadAt k (.stream i .exec)).epc, running := true } := by
  rw [trapReturn_eq, threadAt_mapThread_ne _ _ (exec_ne_acc i), threadAt_mapThread, threadAt_mapSlot]
theorem trapReturn_acc : threadAt (trapReturn k i) (.stream i .acc) = resumedAcc (slotAt k i) (threadAt k (.stream i .acc)) := by
  rw [trapReturn_eq, threadAt_mapThread, threadAt_mapThread_ne _ _ (exec_ne_acc i).symm, threadAt_mapSlot]
end
/-- Bits 1 and 0 of a word, each from its own place, do not carry. -/
theorem restored_mode (x : Word) : (x &&& 2) + (x >>> 1 &&& 1) = (x &&& 2) ||| (x >>> 1 &&& 1) := by
  refine BitVec.add_eq_or_of_and_eq_zero _ _ ?_
  have h : (2 : Word) &&& 1 = 0 := rfl
  calc (x &&& 2) &&& (x >>> 1 &&& 1) = (x &&& x >>> 1) &&& (2 &&& 1) := by ac_rfl
    _ = 0 := by rw [h]; exact BitVec.and_zero

/-! ### A slot that stops (R280, R284) -/

/-- What stops a thread of a slot: its EPC at its boundary, `len` further where it is the stream on `side`, kept where the access
stream had stopped already. -/
def haltedThread (held : Bool) (side : Side) (len : Nat) (y : Side) (t : Thread) : Thread :=
  { pauseThread t with epc := if y = .acc ∧ held then t.epc else (if y = side then t.pc + BitVec.ofNat 64 len else t.pc) &&& 0x1FFFFE }
/-- The core whose slot `i` is Halted, from a core whose release is settled. -/
def haltedCore (i : Fin 4) (side : Side) (len : Nat) (k : Core) : Core :=
  let held := (slotAt k i).st != .running
  mapThread (mapThread (mapSlot k i fun x => { x with st := .halted, accWas := if held then x.accWas else (threadAt k (.stream i .acc)).running,
                                                      arrived := false })
    (.stream i .exec) (haltedThread held side len .exec)) (.stream i .acc) (haltedThread held side len .acc)
section
variable (k : Core) (i : Fin 4) (side : Side) (len : Nat)

theorem haltSlot_eq : haltSlot k i side len = haltedCore i side len (settleRelease k i) := rfl
theorem haltedCore_st : (slotAt (haltedCore i side len k) i).st = .halted := by
  unfold haltedCore
  rw [slotAt_mapThread, slotAt_mapThread, slotAt_mapSlot]
theorem haltedCore_status : (slotAt (haltedCore i side len k) i).status = (slotAt k i).status := by
  unfold haltedCore
  rw [slotAt_mapThread, slotAt_mapThread, slotAt_mapSlot]
theorem haltedCore_thread (y : Side) : threadAt (haltedCore i side len k) (.stream i y) =
    haltedThread ((slotAt k i).st != .running) side len y (threadAt k (.stream i y)) := by
  unfold haltedCore
  cases y
  · rw [threadAt_mapThread_ne _ _ (exec_ne_acc i), threadAt_mapThread, threadAt_mapSlot]
  · rw [threadAt_mapThread, threadAt_mapThread_ne _ _ (exec_ne_acc i).symm, threadAt_mapSlot]
end
theorem settleRelease_unreleased {k : Core} {i : Fin 4} (h : (slotAt k i).released = false) : settleRelease k i = k :=
  if_neg (ne_true_of_eq_false h)
theorem stopSlot_of_holdsNone {s : State} {c : Coord} {i : Fin 4} (side : Side) (len : Nat) (h : slotHoldsNone (coreAt s c) i = true) :
    stopSlot s c i side len = mapCore s c fun k => haltSlot k i side len := by
  unfold stopSlot
  rw [releaseSlot_of_holdsNone s c i h]
theorem halt_run {s : State} {q : Fin 4} (hp : Passes uEA true [] s) (hu : s.cur.unit = .stream q .exec)
    (h : slotHoldsNone (here s) q = true) : exec .halt s = .next (mapCore s s.cur.core fun k => haltSlot k q .exec (lenOf s)) := by
  have hb : stopSlot s s.cur.core (slotNo s.cur.unit) (unitSide s.cur.unit) (lenOf s) =
      mapCore s s.cur.core fun k => haltSlot k q .exec (lenOf s) := by
    rw [slotNo_stream hu, hu]
    exact stopSlot_of_holdsNone _ _ h
  rw [← hb]
  unfold exec
  exact instr_ok (n := .stay) hp rfl

/-! ### A launch that has failed, and the log (R313, R349) -/

theorem find?_changeFirst {α : Type} {p : α → Bool} {f : α → α} (hf : ∀ x, p x = true → p (f x) = true) (l : List α) :
    (changeFirst p f l).find? p = (l.find? p).map f := by
  induction l with
  | nil => rfl
  | cons x r ih =>
    unfold changeFirst
    by_cases h : p x = true
    · rw [if_pos h, List.find?_cons_of_pos (hf x h), List.find?_cons_of_pos h]
      rfl
    · rw [if_neg h, List.find?_cons_of_neg h, List.find?_cons_of_neg h, ih]
theorem launchAt_mapLaunch (s : State) (l : Nat) {f : Launch → Launch} (hf : ∀ x, (f x).id = x.id) :
    launchAt (mapLaunch s l f) l = (launchAt s l).map f :=
  find?_changeFirst (fun x h => by rw [hf]; exact h) s.launches
/-- A failed core's launch has its first fault (R349). -/
theorem launchOf_failCore {s : State} {c : Coord} {l : Launch} (w : Why) (h : launchOf s c = some l) :
    launchOf (failCore s c w) c = some { l with failed := l.failed.or (some w) } := by
  cases hl : (coreAt s c).launch with
  | none =>
    rw [launchOf, hl] at h
    cases h
  | some n =>
    rw [launchOf, hl] at h
    have hn : launchAt s n = some l := h
    rw [launchOf, coreAt_failCore, hl]
    unfold failCore
    rw [hl]
    exact (launchAt_mapLaunch s n (f := fun x => { x with failed := x.failed.or (some w) }) fun _ => rfl).trans (by rw [hn]; rfl)
theorem dieAt_failCore (s : State) (c : Coord) (w : Why) (d : Nat) : dieAt (failCore s c w) d = dieAt s d := by
  unfold failCore failLaunch
  split <;> rfl
theorem log_logFault {s : State} (c src : Coord) (i : Fin 4) (w : Why) (e n : Nat) (a v : Word)
    (h : (dieAt s (dieOf c)).log.length < 512) : (dieAt (logFault s c src i w e n a v) (dieOf c)).log =
      (dieAt s (dieOf c)).log ++ [logEntry s.time src c i w e n a v] := by
  unfold logFault
  rw [dieAt_mapDie]
  dsimp only
  rw [if_pos h]
/-- No check of R47 stands against an instruction of every unit without operands. -/
theorem preCheck_free (s : State) : preCheck uEAN false [] s = none := by
  unfold preCheck
  rw [unitCheck_all]
  rfl
/-- R46, R48: a chain that is no instruction traps at the word that names the cause. -/
theorem decodeTrap_run {s : State} (c : BitVec 9) (u : BitVec 7) (pos : Nat) (hc : isCore s.cur.core = true) :
    exec (.decodeTrap c u pos) s = .next (onStop s (.trap ⟨c, u⟩ (pcOf s + BitVec.ofNat 64 (2 * pos)) none)) := by
  unfold exec
  exact instr_stop (e := .trap ⟨c, u⟩ (pcOf s + BitVec.ofNat 64 (2 * pos)) none) ⟨hc, preCheck_free s⟩ rfl
theorem settleRelease_launch (k : Core) (i : Fin 4) : (settleRelease k i).launch = k.launch := by
  unfold settleRelease
  split <;> rfl
theorem haltSlot_launch (k : Core) (i : Fin 4) (side : Side) (len : Nat) : (haltSlot k i side len).launch = k.launch := by
  simp [haltSlot, settleRelease_launch]
/-- R284: what a parity error does once no instruction of the slot is under way elsewhere. -/
theorem parityError_run {s : State} {c : Coord} {q : Fin 4} (b : Bool) (hb : slotBegun (coreAt s c) q = false)
    (hn : slotHoldsNone (coreAt s c) q = true) : exec (.parityError c q b) s =
      .next (failCore (logFault (mapCore s c fun k => haltSlot k q .exec 0) c c q (why 0x180 (if b then 2 else 1)) 6 0 0 0) c
        (why 0x180 (if b then 2 else 1))) := by
  rw [← stopSlot_of_holdsNone .exec 0 hn]
  exact congrArg _ (if_neg (ne_true_of_eq_false hb))

/-! ### The obligation -/

/-- Settles O46: what a decode trap, ERET, HALT and a parity error leave, from the core that each of them makes. -/
theorem trapsAndReturn : Obligations.TrapsAndReturn := by
  unfold Obligations.TrapsAndReturn
  refine ⟨fun c u pos s q x hc hu hr => ?_, fun s q hp hu => ⟨eret_noTrap hp hu, fun h => ?_⟩, fun s q hp hu hrel hn => ?_,
    fun s c q b hb => ?_, fun s c q b hb hn => ?_⟩
  · exact ⟨_, decodeTrap_run c u pos hc, onStop_trap_taken _ _ hu hr⟩
  · refine ⟨_, eret_run hp hu h, ?_⟩
    have hu' : (mapCore s s.cur.core fun k => trapReturn k q).cur.unit = .stream q .exec := hu
    rw [slotOf_stream hu', slotOf_stream hu, threadOf_stream hu', threadOf_stream hu, here_mapCore, trapReturn_slot, trapReturn_exec,
      trapReturn_acc]
    refine ⟨rfl, restored_mode _, rfl, rfl, fun _ => rfl, memKept_mapCore rfl, fun ha => ?_, fun ha => ?_⟩
    · unfold resumedAcc
      rw [if_pos ha]
      exact ⟨rfl, rfl⟩
    · exact if_neg (ne_true_of_eq_false ha)
  · refine ⟨_, halt_run hp hu hn, ?_⟩
    have hu' : (mapCore s s.cur.core fun k => haltSlot k q .exec (lenOf s)).cur.unit = .stream q .exec := hu
    rw [slotOf_stream hu'] 
    rw [slotOf_stream hu] at hrel ⊢
    rw [threadOf_stream hu', threadOf_stream hu, here_mapCore, haltSlot_eq, settleRelease_unreleased hrel, haltedCore_st, haltedCore_status]
    simp only [haltedCore_thread]
    refine ⟨trivial, fun _ => rfl, ?_, trivial, fun _ => rfl, memKept_mapCore (haltSlot_mem ..), fun hst => ?_⟩
    · show _ = (pcOf s + _) &&& _
      rw [pcOf, threadOf_stream hu]
      rfl
    · rw [hst]
      rfl
  · exact congrArg _ (if_pos hb)
  · refine ⟨_, parityError_run b hb hn, ?_⟩
    rw [coreAt_failCore, coreAt_logFault, coreAt_mapCore, haltSlot_eq, haltedCore_st, dieAt_failCore]
    refine ⟨rfl, fun z => ?_, haltSlot_mem .., fun hl => log_logFault c c q _ 6 0 0 0 hl, fun l hl => ?_⟩
    · rw [haltedCore_thread]
      rfl
    · refine ⟨_, launchOf_failCore _ ?_, rfl⟩
      rw [launchOf, coreAt_logFault, coreAt_mapCore, haltSlot_launch]
      exact hl
end Sys2Proof.Machine

namespace Sys2Proof.Machine
open Sys2Proof.Claim

/-! # The step of a unit (O59)

### The unit as it begins anew -/

/-- A thread whose last attempt is done with. -/
def unstalled (t : Thread) : Thread := { t with stalled := false }
theorem retried_eq (s : State) (a : Agent) : retried s a = { s with cur := a, ir := [] } ∨
    retried s a = mapCore { s with cur := a, ir := [] } a.core fun k => mapThread k a.unit unstalled := by
  unfold retried
  dsimp only
  split
  · exact .inr rfl
  · exact .inl rfl
section
variable (s : State) (a : Agent)

@[simp] theorem retried_cur : (retried s a).cur = a := by
  rcases retried_eq s a with h | h
  · rw [h]
  · rw [h]; rfl
@[simp] theorem retried_phase : (retried s a).phase = s.phase := by
  rcases retried_eq s a with h | h
  · rw [h]
  · rw [h]; rfl
@[simp] theorem retried_launches : (retried s a).launches = s.launches := by
  rcases retried_eq s a with h | h
  · rw [h]
  · rw [h]; rfl
/-- Any part of a core but its threads is as before. -/
theorem retried_core {α : Type} (f : Core → α) (hf : ∀ k u, f (mapThread k u unstalled) = f k) (c : Coord) :
    f (coreAt (retried s a) c) = f (coreAt s c) := by
  rcases retried_eq s a with h | h
  · rw [h]
    rfl
  · rw [h]
    by_cases hc : c = a.core
    · rw [hc, coreAt_mapCore, hf]
      rfl
    · rw [coreAt_mapCore_ne _ _ hc]
      rfl
/-- Any part of a thread but its last attempt is as before. -/
theorem retried_thread {α : Type} (f : Thread → α) (hf : ∀ t, f (unstalled t) = f t) (c : Coord) (u : UnitId) :
    f (threadAt (coreAt (retried s a) c) u) = f (threadAt (coreAt s c) u) := by
  refine retried_core s a (fun k => f (threadAt k u)) (fun k v => ?_) c
  by_cases h : u = v
  · rw [h, threadAt_mapThread, hf]
  · rw [threadAt_mapThread_ne _ _ h]
@[simp] theorem retried_slot (c : Coord) (i : Fin 4) : slotAt (coreAt (retried s a) c) i = slotAt (coreAt s c) i :=
  retried_core s a (slotAt · i) (fun _ _ => rfl) c
@[simp] theorem retried_launch (c : Coord) : (coreAt (retried s a) c).launch = (coreAt s c).launch :=
  retried_core s a (·.launch) (fun _ _ => rfl) c
@[simp] theorem retried_power (c : Coord) : (coreAt (retried s a) c).power = (coreAt s c).power :=
  retried_core s a (·.power) (fun _ _ => rfl) c
@[simp] theorem retried_ibex (c : Coord) (n : Fin 2) : ibexAt (coreAt (retried s a) c) n = ibexAt (coreAt s c) n :=
  retried_core s a (ibexAt · n) (fun _ _ => rfl) c
@[simp] theorem retried_entry (c : Coord) (n : Nat) : entryAt (coreAt (retried s a) c) n = entryAt (coreAt s c) n :=
  retried_core s a (entryAt · n) (fun _ _ => rfl) c
@[simp] theorem retried_mem (c : Coord) : (coreAt (retried s a) c).mem = (coreAt s c).mem := retried_core s a (·.mem) (fun _ _ => rfl) c
@[simp] theorem retried_attr (c : Coord) : (coreAt (retried s a) c).attr = (coreAt s c).attr := retried_core s a (·.attr) (fun _ _ => rfl) c
@[simp] theorem retried_pc (c : Coord) (u : UnitId) : (threadAt (coreAt (retried s a) c) u).pc = (threadAt (coreAt s c) u).pc :=
  retried_thread s a (·.pc) (fun _ => rfl) c u
@[simp] theorem retried_fbuf (c : Coord) (u : UnitId) : (threadAt (coreAt (retried s a) c) u).fbuf = (threadAt (coreAt s c) u).fbuf :=
  retried_thread s a (·.fbuf) (fun _ => rfl) c u
@[simp] theorem retried_running (c : Coord) (u : UnitId) : (threadAt (coreAt (retried s a) c) u).running = (threadAt (coreAt s c) u).running :=
  retried_thread s a (·.running) (fun _ => rfl) c u
@[simp] theorem retried_sbuf (c : Coord) (u : UnitId) : (threadAt (coreAt (retried s a) c) u).sbuf = (threadAt (coreAt s c) u).sbuf :=
  retried_thread s a (·.sbuf) (fun _ => rfl) c u
@[simp] theorem retried_early (c : Coord) (u : UnitId) : (threadAt (coreAt (retried s a) c) u).early = (threadAt (coreAt s c) u).early :=
  retried_thread s a (·.early) (fun _ => rfl) c u
@[simp] theorem retried_due (c : Coord) (u : UnitId) : (threadAt (coreAt (retried s a) c) u).due = (threadAt (coreAt s c) u).due :=
  retried_thread s a (·.due) (fun _ => rfl) c u
@[simp] theorem retried_begun (c : Coord) (u : UnitId) : threadBegun (threadAt (coreAt (retried s a) c) u) = threadBegun (threadAt (coreAt s c) u) :=
  retried_thread s a threadBegun (fun _ => rfl) c u
@[simp] theorem retried_launchOf (c : Coord) : launchOf (retried s a) c = launchOf s c := by
  unfold launchOf launchAt
  rw [retried_launch, retried_launches]
@[simp] theorem retried_coreRuns (c : Coord) : coreRuns (retried s a) c = coreRuns s c := by simp [coreRuns]
@[simp] theorem retried_speculative (t : Task) : speculative (retried s a) t = speculative s t := by simp [speculative]
@[simp] theorem retried_undrained (t : Task) : undrained (retried s a) t = undrained s t := by simp [undrained]
theorem retried_canRun (b : Agent) : canRun (retried s a) b = canRun s b := by
  simp only [canRun, coreLive, retried_coreRuns, retried_begun, retried_phase, retried_power, retried_launchOf, retried_running, retried_slot,
    retried_undrained, retried_ibex]
theorem retried_dueHeld (c : Coord) (i : Fin 4) : dueHeld (retried s a) c i = dueHeld s c i := by
  unfold dueHeld
  rw [retried_slot]
  split
  · rw [slotBegun, retried_speculative, retried_undrained, retried_begun, retried_begun]
    rfl
  · rfl
theorem retried_heldTrap (b : Agent) : heldTrap (retried s a) b = heldTrap s b := by
  unfold heldTrap
  simp only [retried_coreRuns, retried_dueHeld]
theorem retried_reportDue (b : Agent) : reportDue (retried s a) b = reportDue s b := by
  simp only [reportDue, mayReport, retried_running, retried_begun, retried_slot, retried_due]
theorem retried_partnerBusy (b : Agent) : partnerBusy (retried s a) b = partnerBusy s b := by
  simp only [partnerBusy, retried_begun]
end

/-! ### The words at the PC (R30, R31) -/

theorem chainRead_concat (c : Chain) (l : List Half) (w : Half) :
    chainRead c (l ++ [w]) = if chainDone (chainRead c l) then chainRead c l else chainAdd (chainRead c l) w := by
  induction l generalizing c with
  | nil =>
    show (if chainDone c then c else chainRead (chainAdd c w) []) = if chainDone c then c else chainAdd c w
    split <;> rfl
  | cons x r ih =>
    rw [List.cons_append]
    unfold chainRead
    split
    · rfl
    · exact ih (chainAdd c x)
/-- Two bytes as a number, by the model's reading and by the statement's. -/
theorem peekNat_two (m : Memory) (a : Nat) : peekNat m a 2 = leValue m a 2 := by
  simp [peekNat, leValue, peeks, leNat, List.range_succ]
  omega
/-- The rest of a chain is fetched from behind its first `n` words. -/
theorem fetchChain_words {k : Core} {t : Thread} {ws : List Half} (hlen : ws.length ≤ 6) (hdone : chainDone (chainRead Chain.start ws) = true)
    (hopen : ∀ n, n < ws.length → chainDone (chainRead Chain.start (ws.take n)) = false)
    (hf : ∀ j, (h : j < ws.length) → fetchable k (t.pc + BitVec.ofNat 64 (2 * j)) = true ∧
      fetchHalf k t (t.pc + BitVec.ofNat 64 (2 * j)).toNat = ws[j]) (m n : Nat) (h : n + m = ws.length) :
    fetchChain k t (6 - n) (t.pc + BitVec.ofNat 64 (2 * n)) (chainRead Chain.start (ws.take n)) (ws.take n) = (.ok (), ws) := by
  induction m generalizing n with
  | zero =>
    have hn : n = ws.length := h
    rw [hn, List.take_length]
    cases 6 - ws.length with
    | zero => rfl
    | succ f => exact if_pos hdone
  | succ m ih =>
    have hn : n < ws.length := by omega
    obtain ⟨hok, hword⟩ := hf n hn
    have hnext : ws.take (n + 1) = ws.take n ++ [ws[n]] := (List.take_concat_get' ws n hn).symm
    have ha : t.pc + BitVec.ofNat 64 (2 * n) + 2 = t.pc + BitVec.ofNat 64 (2 * (n + 1)) := by
      rw [BitVec.add_assoc, Nat.mul_succ, BitVec.ofNat_add]
      rfl
    have hstep := ih (n + 1) (by omega)
    rw [hnext, chainRead_concat, hopen n hn, if_neg Bool.false_ne_true] at hstep
    have hfuel : 6 - n = (6 - (n + 1)) + 1 := by omega
    rw [hfuel]
    unfold fetchChain
    rw [hopen n hn, hok]
    dsimp only
    rw [hword, ha]
    exact hstep
theorem fetch_words {s : State} {ws : List Half} (h : WordsAt s ws) : fetch (here s) (threadOf s) = (.ok (), ws) := by
  obtain ⟨hfbuf, hlen, hdone, hopen, hw⟩ := h
  have hf : ∀ j, (h : j < ws.length) → fetchable (here s) ((threadOf s).pc + BitVec.ofNat 64 (2 * j)) = true ∧
      fetchHalf (here s) (threadOf s) ((threadOf s).pc + BitVec.ofNat 64 (2 * j)).toNat = ws[j] := by
    intro j hj
    obtain ⟨hlow, hx, hv⟩ := hw j hj
    refine ⟨?_, ?_⟩
    · unfold fetchable
      rw [Bool.and_eq_true, decide_eq_true_eq]
      exact ⟨hlow, hx⟩
    · unfold fetchHalf
      rw [hfbuf, List.find?_nil, peekNat_two]
      exact (congrArg (BitVec.ofNat 16) hv).trans (by simp)
  have hall := fetchChain_words hlen hdone hopen hf ws.length 0 (Nat.zero_add _)
  rwa [Nat.mul_zero, BitVec.add_zero] at hall
theorem wordsAt_retried {s : State} {a : Agent} {ws : List Half} (h : WordsAt { s with cur := a } ws) : WordsAt (retried s a) ws := by
  have hpc : pcOf (retried s a) = pcOf { s with cur := a } := by
    simp only [pcOf, threadOf, retried_cur, retried_pc]
    rfl
  obtain ⟨hfbuf, hlen, hdone, hopen, hw⟩ := h
  refine ⟨?_, hlen, hdone, hopen, fun j hj => ?_⟩
  · rw [← hfbuf, threadOf, retried_cur, retried_fbuf]
    rfl
  · have hattr : ∀ p, attrOf (here (retried s a)) p = attrOf (coreAt s a.core) p := by simp [attrOf]
    rw [hpc]
    dsimp only
    rw [hattr, here, retried_cur, retried_mem]
    exact hw j hj

/-! ### What the stream's waiting stores and early reads become (R101, R262) -/

/-- What a store that takes effect leaves of the moving unit, its words and the store buffers. -/
def StoresKept (s t : State) : Prop :=
  t.cur = s.cur ∧ t.ir = s.ir ∧ ∀ c u, (threadAt (coreAt t c) u).sbuf = (threadAt (coreAt s c) u).sbuf
theorem storesKept_refl (s : State) : StoresKept s s := ⟨rfl, rfl, fun _ _ => rfl⟩
theorem storesKept_trans {s t u : State} (h : StoresKept s t) (h' : StoresKept t u) : StoresKept s u := by
  obtain ⟨hc, hi, hb⟩ := h
  obtain ⟨hc', hi', hb'⟩ := h'
  exact ⟨hc'.trans hc, hi'.trans hi, fun c v => (hb' c v).trans (hb c v)⟩
theorem storesKept_mapCore (s : State) (c : Coord) {f : Core → Core} (hf : ∀ k u, (threadAt (f k) u).sbuf = (threadAt k u).sbuf) :
    StoresKept s (mapCore s c f) := by
  refine ⟨rfl, rfl, fun d u => ?_⟩
  by_cases h : d = c
  · rw [h, coreAt_mapCore, hf]
  · rw [coreAt_mapCore_ne _ _ h]
theorem sbuf_mapThread (k : Core) (v : UnitId) {f : Thread → Thread} (hf : ∀ t, (f t).sbuf = t.sbuf) (u : UnitId) :
    (threadAt (mapThread k v f) u).sbuf = (threadAt k u).sbuf := by
  by_cases h : u = v
  · rw [h, threadAt_mapThread, hf]
  · rw [threadAt_mapThread_ne _ _ h]
theorem sbuf_endSlot (k : Core) (i : Fin 4) (u : UnitId) : (threadAt (endSlot k i) u).sbuf = (threadAt k u).sbuf := by
  unfold endSlot
  dsimp only
  rw [sbuf_mapThread _ _ (f := stopThread) fun _ => rfl, sbuf_mapThread _ _ (f := stopThread) fun _ => rfl, threadAt_mapSlot]
theorem threadAt_requeue (k : Core) (n : Nat) (b : Bool) (u : UnitId) : threadAt (requeue k n b) u = threadAt k u := by
  unfold requeue mapRecord
  dsimp only
  split <;> rfl
theorem storesKept_advertNotice (s : State) (c : Coord) : StoresKept s (advertNotice s c) := by
  unfold advertNotice
  dsimp only
  split
  · exact storesKept_refl s
  · refine storesKept_trans (storesKept_mapCore s c (f := fun k => { k with advert := advertises (coreAt s c) }) fun _ _ => rfl) ?_
    exact ⟨rfl, rfl, fun _ _ => rfl⟩
theorem storesKept_abortTask (s : State) (home : Coord) (n : Nat) : StoresKept s (abortTask s home n) := by
  unfold abortTask
  split
  · split
    · next c i _ _ _ =>
      refine storesKept_trans (storesKept_mapCore s home (f := fun k => requeue k n true) fun _ _ => by rw [threadAt_requeue]) ?_
      refine storesKept_trans (storesKept_mapCore _ c (f := fun k => endSlot k i) fun _ _ => sbuf_endSlot ..) ?_
      exact storesKept_advertNotice _ home
    · exact storesKept_refl s
  · exact storesKept_refl s
theorem storesKept_foldl {α : Type} {f : State → α → State} (hf : ∀ s e, StoresKept s (f s e)) (l : List α) (s : State) :
    StoresKept s (l.foldl f s) := by
  induction l generalizing s with
  | nil => exact storesKept_refl s
  | cons e r ih => exact storesKept_trans (hf s e) (ih _)
theorem storesKept_writeBytes (s : State) (c : Coord) (a : Nat) (bs : List Byte) (w : Option (Coord × Nat)) :
    StoresKept s (writeBytes s c a bs w) :=
  storesKept_trans (storesKept_mapCore s c (f := fun k => putBytes k a bs) fun _ _ => rfl)
    (storesKept_foldl (fun s e => storesKept_abortTask s c e) _ _)
/-- Draining leaves the unit's store buffer empty. -/
theorem drainStores_cur (s : State) : (drainStores s s.cur).cur = s.cur ∧ (drainStores s s.cur).ir = s.ir ∧
    (threadOf (drainStores s s.cur)).sbuf = [] := by
  obtain ⟨hc, hi, hb⟩ := storesKept_foldl (f := fun s e => writeBytes s _ e.1 e.2 _) (fun s e => storesKept_writeBytes s _ e.1 e.2 _)
    (threadOf s).sbuf (mapCore s s.cur.core fun k => mapThread k s.cur.unit fun t => { t with sbuf := [] })
  have hc' : (drainStores s s.cur).cur = s.cur := hc
  refine ⟨hc', hi, ?_⟩
  rw [threadOf, hc']
  refine (hb _ _).trans ?_
  rw [coreAt_mapCore, threadAt_mapThread]

/-! ### The step -/

theorem step_again {s : State} (h : s.agenda = []) : step s = runTurnOf false s s.cur := by
  unfold step advanceAll
  rw [h]
theorem step_agenda {s : State} {t : Turn} {r : List Turn} (h : s.agenda = t :: r) : step s = runTurn { s with agenda := r } t := by
  unfold step advanceAll
  rw [h]

theorem perform_now (i : Instr) (s : State) : perform false i s = exec i (readied i s) := rfl
theorem readied_idle (i : Instr) {s : State} (hb : (threadOf s).sbuf = []) (he : (threadOf s).early = []) : readied i s = s := by
  simp [readied, hb, he]
theorem readied_passes {i : Instr} {s : State} (hp : passesStores i s.ir = true) (hk : keepsEarly i s.ir = true) (hh : atHome s = false) :
    readied i s = s := by
  simp [readied, hp, hk, hh]
theorem mayExecute_retried {s : State} {a : Agent} (h : MayExecute { s with cur := a }) : MayExecute (retried s a) := by
  obtain ⟨hc, hheld, hrun, hdue⟩ := h
  refine ⟨?_, ?_, ?_, ?_⟩
  · rw [retried_cur]; exact hc
  · rw [retried_cur, retried_heldTrap]; exact hheld
  · rw [retried_cur, retried_canRun]; exact hrun
  · rw [retried_cur, retried_reportDue]; exact hdue
theorem runUnit_execute {late : Bool} {s : State} (h : MayExecute s) : runUnit late s = stopsWhole s (fetchAndRun late s) := by
  obtain ⟨hc, hheld, hrun, hdue⟩ := h
  simp [runUnit, hc, hheld, hrun, hdue]
theorem fetchAndRun_words {late : Bool} {s : State} {ws : List Half} (h : WordsAt s ws) :
    fetchAndRun late s = perform late (decode ws) { s with ir := ws } := by
  unfold fetchAndRun
  dsimp only
  rw [show fetch (coreAt s s.cur.core) (threadAt (coreAt s s.cur.core) s.cur.unit) = (.ok (), ws) from fetch_words h]
theorem recorded_moves {s : State} {a : Agent} (h : canRun s a = true) (o : Out) : recorded s a o = chosen a o := by
  cases o with
  | next t =>
    simp only [recorded, chosen, moves, h, Bool.true_or, Bool.true_and]
    cases (threadAt (coreAt t a.core) a.unit).stalled <;> rfl
  | fault _ => rfl
  | refused _ => rfl
/-- A turn of a unit that may execute, with the words of an instruction at its PC. -/
theorem runTurnOf_words {late : Bool} {s : State} {a : Agent} {ws : List Half} (h : MayExecute { s with cur := a }) (hw : WordsAt { s with cur := a } ws) :
    runTurnOf late s a = chosen a (stopsWhole (retried s a) (perform late (decode ws) (begins s a ws))) := by
  have hrun : canRun s a = true := by
    obtain ⟨-, -, hrun, -⟩ := h
    exact hrun
  unfold runTurnOf
  rw [recorded_moves hrun, runUnit_execute (mayExecute_retried h), fetchAndRun_words (wordsAt_retried hw)]
  rfl
theorem stopsWhole_alone {s : State} (h : partnerBusy s s.cur = false) (o : Out) : stopsWhole s o = o := by
  cases o with
  | next t => simp [stopsWhole, h]
  | fault _ => rfl
  | refused _ => rfl
/-- Where nothing waits, the turn is the bare effect of the instruction. -/
theorem runTurnOf_alone {s : State} {a : Agent} {ws : List Half} (h : MayExecute { s with cur := a }) (hw : WordsAt { s with cur := a } ws)
    (hn : NothingWaits { s with cur := a }) : runTurnOf false s a = chosen a (exec (decode ws) (begins s a ws)) := by
  obtain ⟨hb, he, hp⟩ := hn
  have hcur : (begins s a ws).cur = a := retried_cur s a
  have hb' : (threadOf (begins s a ws)).sbuf = [] := (retried_sbuf s a _ _).trans (by rw [hcur]; exact hb)
  have he' : (threadOf (begins s a ws)).early = [] := (retried_early s a _ _).trans (by rw [hcur]; exact he)
  rw [runTurnOf_words h hw, perform_now, readied_idle _ hb' he', stopsWhole_alone]
  rw [retried_cur, retried_partnerBusy]
  exact hp
theorem fetchAndRun_unfetchable {s : State} (h : fetchable (here s) (pcOf s) = false) :
    fetchAndRun false s = .next (onStop { s with ir := [] } (.trap (why 0x064 0) (pcOf s) none)) := by
  have hf : fetch (coreAt s s.cur.core) (threadAt (coreAt s s.cur.core) s.cur.unit) = (.error (pcOf s), []) := by
    unfold fetch fetchChain
    rw [if_neg (by decide), show fetchable (coreAt s s.cur.core) (threadAt (coreAt s s.cur.core) s.cur.unit).pc = false from h]
    rfl
  unfold fetchAndRun
  dsimp only
  rw [hf]
theorem runTurnOf_unfetchable {s : State} {a : Agent} (h : MayExecute { s with cur := a })
    (hf : fetchable (coreAt s a.core) (threadAt (coreAt s a.core) a.unit).pc = false) (hp : partnerBusy s a = false) :
    runTurnOf false s a =
      chosen a (.next (onStop (begins s a []) (.trap (why 0x064 0) (threadAt (coreAt s a.core) a.unit).pc none))) := by
  have hrun : canRun s a = true := by
    obtain ⟨-, -, hrun, -⟩ := h
    exact hrun
  have hpc : pcOf (retried s a) = (threadAt (coreAt s a.core) a.unit).pc := by
    rw [pcOf, threadOf, retried_cur, retried_pc]
  have hf' : fetchable (here (retried s a)) (pcOf (retried s a)) = false := by
    rw [hpc, fetchable, attrOf, here, retried_cur, retried_attr]
    exact hf
  unfold runTurnOf
  rw [recorded_moves hrun, runUnit_execute (mayExecute_retried h), fetchAndRun_unfetchable hf', stopsWhole_alone, hpc]
  · rfl
  · rw [retried_cur, retried_partnerBusy]
    exact hp

/-! ### What an instruction finds of the stream's buffers -/

/-- The state once the waiting stores have taken effect, unless the instruction passes them. -/
def drained (i : Instr) (s : State) : State :=
  if (passesStores i s.ir && !atHome s) || (threadOf s).sbuf.isEmpty then s else drainStores s s.cur
/-- The state once what was read ahead is forgotten. -/
def earlyForgotten (s : State) : State := mapCore s s.cur.core fun k => mapThread k s.cur.unit fun t => { t with early := [] }
theorem readied_eq (i : Instr) (s : State) : readied i s =
    if keepsEarly i (drained i s).ir || (threadOf (drained i s)).early.isEmpty then drained i s else earlyForgotten (drained i s) := rfl
theorem drained_ir (i : Instr) (s : State) : (drained i s).ir = s.ir := by
  unfold drained
  split
  · rfl
  · obtain ⟨-, hi, -⟩ := drainStores_cur s
    exact hi
theorem drained_sbuf {i : Instr} {s : State} (h : passesStores i s.ir = false ∨ atHome s = true) : (threadOf (drained i s)).sbuf = [] := by
  have hp : (passesStores i s.ir && !atHome s) = false := by
    rcases h with h | h <;> simp [h]
  unfold drained
  rw [hp, Bool.false_or]
  split
  · next he => exact List.isEmpty_iff.1 he
  · obtain ⟨-, -, hb⟩ := drainStores_cur s
    exact hb
theorem earlyForgotten_thread (s : State) : threadOf (earlyForgotten s) = { threadOf s with early := [] } :=
  threadOf_modThread ..
theorem readied_sbuf {i : Instr} {s : State} (h : passesStores i s.ir = false ∨ atHome s = true) : (threadOf (readied i s)).sbuf = [] := by
  rw [readied_eq]
  split
  · exact drained_sbuf h
  · rw [earlyForgotten_thread]
    exact drained_sbuf h
theorem readied_early {i : Instr} {s : State} (h : keepsEarly i s.ir = false) : (threadOf (readied i s)).early = [] := by
  rw [readied_eq, drained_ir, h, Bool.false_or]
  split
  · next he => exact List.isEmpty_iff.1 he
  · rw [earlyForgotten_thread]

/-! ### The issue port (R107) -/

/-- The port chooses the first stream of its order, where that stream issues. -/
theorem issuePort_first {s t : State} {c : Coord} {x : Side} {i : Fin 4} (hi : (issueOrder s c x).head? = some i)
    (hm : moves s ⟨c, .stream i x⟩ = true) (hr : runUnit false (retried s ⟨c, .stream i x⟩) = .next t)
    (hs : (threadAt (coreAt t c) (.stream i x)).stalled = false) : issuePort s c x = portChose t ⟨c, .stream i x⟩ := by
  obtain ⟨r, hl⟩ := List.head?_eq_some_iff.1 hi
  unfold issuePort
  rw [hl]
  unfold issueFirst
  simp [hm, hr, hs]

/-- Settles O59: a turn of a unit with words at its PC, from the agenda's first entry or the same unit again. -/
theorem stepRunsDecoded : Obligations.StepRunsDecoded := by
  unfold Obligations.StepRunsDecoded
  refine ⟨fun s ws ha hm hw hn => ?_, fun s ws ha hm hw => ?_, fun s i => perform_now i s,
    fun s i => ⟨readied_sbuf, readied_early, readied_passes, readied_idle i⟩, fun s r a ws ha hm hw => ?_, fun s r a ws ha hm hw hn => ?_,
    fun s r e ha he => ?_, fun s ha hm hf hp => ?_, fun s c x r i a t ha hag hi hmv hr hs => ?_⟩
  · exact (step_again ha).trans (runTurnOf_alone hm hw hn)
  · exact (step_again ha).trans (runTurnOf_words hm hw)
  · exact (step_agenda ha).trans (runTurnOf_words hm hw)
  · exact (step_agenda ha).trans (runTurnOf_alone hm hw hn)
  · exact (step_agenda ha).trans (if_pos he)
  · exact (step_again ha).trans (runTurnOf_unfetchable hm hf hp)
  · subst hag
    exact (step_agenda ha).trans (congrArg _ (issuePort_first hi hmv hr hs))
end Sys2Proof.Machine

namespace Sys2Proof.Machine
open Sys2Proof.Claim

/-! # A TSUSP whose waiting store ends the body's own slot (O30)

A store that takes effect aborts the far tasks that have read its line, and an abort ends the slot that the entry names as its taker
(R87). Where an entry that is not the slot's task names the slot of a TSUSP, the body's last stores end that slot. -/

/-- The execute stream of slot 0 of core 0, about to suspend under k0, the handle of environment 0 with generation 1, while a store
of one byte at 0x3000 waits in its buffer. -/
def suspending : Thread := { Thread.reset with k := Vector.replicate 8 0x200000, sbuf := [(0x3000, [1])] }
/-- The record of a far task anchored at 0x3000 of core 0. -/
def readerRcd : BitVec 512 := BitVec.ofNat 512 (2 ^ 161 + 2 ^ 47 + 0x3000 * 2 ^ 13)
/-- Entry 0 is the free task that slot 0 runs. -/
def ownEntry : Entry := ⟨0, 0, 0, none, some ⟨0, .stream 0 .exec⟩, false, 0⟩
/-- Entry 1 is a far task, not promoted, that has read the first line of its anchor (R86), and also names slot 0 as its taker. -/
def readerEntry : Entry := ⟨1, readerRcd, 1, none, some ⟨0, .stream 0 .exec⟩, false, 1⟩
/-- A core that holds both entries. Its environment 0 is live with count 1. -/
def twiceTakenCore : Core :=
  let k := { Core.reset with launch := some 0, home := [ownEntry, readerEntry], nextEntry := 2
                             mem := [(0x10004, 1), (0x10005, 1), (0x10006, 8)] }
  mapThread (mapSlot k 0 fun x => { x with st := .running, task := some (placeTask 0) }) (.stream 0 .exec) fun _ => suspending
def twiceTaken : State := { State.reset with cores := [(0, twiceTakenCore)] }

theorem twiceTaken_passes : Passes uE false [.kreg 0] twiceTaken := ⟨rfl, by decide +kernel⟩
theorem twiceTaken_bodyDone : BodyDone twiceTaken 0 :=
  ⟨rfl, by decide +kernel, .inl (by decide +kernel), by decide +kernel, fun x => by cases x <;> decide +kernel⟩
theorem twiceTaken_ownEnv : OwnEnv twiceTaken (kReg twiceTaken 0) 0 := by
  unfold OwnEnv liveAt
  decide +kernel
/-- Environment 0 starts where the home-queue region ends. -/
theorem twiceTaken_envOutside {z : Nat} (h : envAt twiceTaken 0 ≤ z) : inHome (here twiceTaken) z = false := by
  have hz : 0x10000 ≤ z := h
  exact decide_eq_false fun hr => absurd (show z < 0x10000 from hr.2) (by omega)
theorem twiceTaken_addable : Addable twiceTaken (kReg twiceTaken 0) :=
  .inr ⟨0, twiceTaken_ownEnv, by decide +kernel, by decide +kernel, fun _ h _ => twiceTaken_envOutside h⟩
/-- The state of slot 0 of the moving unit's core after a step. -/
def slotStateAfter : Out → Option SlotState
  | .next t => some (slotAt (here t) 0).st
  | _ => none
/-- The waiting store aborts entry 1 and with it ends slot 0, so that TSUSP finds no task to put back: of the drained state it keeps
nothing, and the slot runs on. -/
theorem tsusp_twiceTaken : slotStateAfter (exec (.tsusp 0) twiceTaken) = some .running := by decide +kernel

/-- Refutes O30: TaskEnds lets a TSUSP begin where an entry of the core's home that is not the slot's task names the slot as its
taker, a state that R83 and R95 do not lead to and that no hypothesis excludes. A waiting store of the body may abort that entry and
so end the slot (R87) before TSUSP reads its task; the slot then does not leave it. -/
theorem not_taskRecords : ¬Obligations.TaskRecords := by
  rintro ⟨-, -, -, hsusp, -⟩
  obtain ⟨t, -, ht, ⟨hidle, -⟩, -⟩ := hsusp twiceTaken 0 (placeTask 0) 0 ownEntry twiceTaken_passes twiceTaken_bodyDone
    (by decide +kernel) (by decide +kernel) twiceTaken_addable (by decide +kernel)
  have hruns : slotStateAfter (.next t) = some .running := ht ▸ tsusp_twiceTaken
  exact absurd (hidle.symm.trans (Option.some.inj hruns)) (by decide)

end Sys2Proof.Machine

namespace Sys2Proof.Machine
open Sys2Proof.Claim

/-! # Bodies that start and buffers that drain (O31)

### The oldest and the youngest of a home (R70) -/

theorem older_asymm {x y : Entry} (h : older x y = true) : older y x = false := by
  simp only [older, decide_eq_true_eq, decide_eq_false_iff_not] at *
  omega

section
variable {p : Entry → Bool} {oldest : Bool} {l : List Entry}

theorem pick_eq_none : pick p oldest l = none ↔ ∀ x ∈ l, p x = false := by
  induction l with
  | nil => simp [pick]
  | cons a r ih =>
    rw [List.forall_mem_cons, ← ih, pick]
    cases pick p oldest r with
    | none => simp
    | some f => by_cases h : (p a && (older a f == oldest)) = true <;> simp [h]

theorem pick_mem {f : Entry} (h : pick p oldest l = some f) : f ∈ l ∧ p f = true := by
  induction l with
  | nil => cases h
  | cons a r ih =>
    rw [pick] at h
    split at h
    · split at h
      · cases h
        exact ⟨List.mem_cons_self .., ‹_›⟩
      · cases h
    next g hg =>
      split at h
      next hp =>
        cases h
        exact ⟨List.mem_cons_self .., (Bool.and_eq_true_iff.1 hp).1⟩
      · cases h
        exact ⟨List.mem_cons_of_mem _ (ih hg).1, (ih hg).2⟩

/-- The entry that comes before every other that qualifies is picked, or behind every other where the youngest is asked for. -/
theorem pick_eq_some {e : Entry} (hm : e ∈ l) (hp : p e = true)
    (h : ∀ x ∈ l, p x = true → x = e ∨ (older e x = oldest ∧ older x e = !oldest)) : pick p oldest l = some e := by
  induction l with
  | nil => cases hm
  | cons a r ih =>
    have hr : e ∈ r → pick p oldest r = some e := fun hm => ih hm fun x hx => h x (List.mem_cons_of_mem _ hx)
    rw [pick]
    cases hf : pick p oldest r with
    | none =>
      have hn := pick_eq_none.1 hf
      have ha : a = e := by
        rcases List.mem_cons.1 hm with rfl | hm
        · rfl
        · exact absurd hp (by simp [hn e hm])
      simp [ha, hp]
    | some f =>
      obtain ⟨hfm, hfp⟩ := pick_mem hf
      by_cases hae : a = e
      · rcases h f (List.mem_cons_of_mem _ hfm) hfp with rfl | ⟨hef, -⟩
        · simp [hae]
        · simp [hae, hp, hef]
      · have hfe : f = e := by
          rw [hr ((List.mem_cons.1 hm).resolve_left (Ne.symm hae))] at hf
          exact (Option.some.inj hf).symm
        have hskip : (p a && (older a e == oldest)) = false := by
          cases hpa : p a with
          | false => rfl
          | true =>
            obtain ⟨-, hae'⟩ := (h a (List.mem_cons_self ..) hpa).resolve_left hae
            rw [hae']
            cases oldest <;> rfl
        rw [hfe]
        exact if_neg (by simp [hskip])

end

/-- The oldest record that qualifies. -/
theorem pick_oldest {p : Entry → Bool} {l : List Entry} {e : Entry} (hm : e ∈ l) (hp : p e = true)
    (h : ∀ x ∈ l, p x = true → x = e ∨ older e x = true) : pick p true l = some e :=
  pick_eq_some hm hp fun x hx hpx => (h x hx hpx).imp_right fun ho => ⟨ho, older_asymm ho⟩

/-- The youngest record that qualifies. -/
theorem pick_youngest {p : Entry → Bool} {l : List Entry} {e : Entry} (hm : e ∈ l) (hp : p e = true)
    (h : ∀ x ∈ l, p x = true → x = e ∨ older x e = true) : pick p false l = some e :=
  pick_eq_some hm hp fun x hx hpx => (h x hx hpx).imp_right fun ho => ⟨older_asymm ho, ho⟩

/-! ### A home marks an entry taken (R78, R83) -/

/-- A home's notice to its Slate changes no core but for what the home has told. -/
theorem coreAt_advertNotice (s : State) (c d : Coord) : ∃ b, coreAt (advertNotice s c) d = { coreAt s d with advert := b } := by
  unfold advertNotice
  dsimp only
  split
  · exact ⟨_, rfl⟩
  · rw [coreAt_send]
    by_cases h : d = c
    · subst h
      exact ⟨_, coreAt_setCore ..⟩
    · exact ⟨_, coreAt_setCore_ne s _ h⟩

/-- The entry as its home marks it. -/
def markTaken (flag : Nat) (a : Agent) (x : Entry) : Entry :=
  { x with rcd := if rcdValid x.rcd then setFlag x.rcd flag true else x.rcd, taker := some a, bitmap := 0 }

theorem takeEntryOf_eq (s : State) (home : Coord) (e : Entry) (flag : Nat) (a : Agent) : takeEntryOf s home e flag a =
    advertNotice (mapCore s home fun k => promote (mapRecord k e.seq (markTaken flag a))) home := rfl

/-- What the start of a body reads of its core is as it was: its threads, its pages, where its environments and frames lie, its launch,
and the bytes outside the home-queue region. -/
def StartKept (k k' : Core) : Prop :=
  k'.threads = k.threads ∧ k'.attr = k.attr ∧ k'.envbase = k.envbase ∧ k'.envAllot = k.envAllot ∧ k'.frbase = k.frbase ∧
    k'.tqbase = k.tqbase ∧ k'.launch = k.launch ∧ ∀ z, inHome k z = false → peek k'.mem z = peek k.mem z

theorem startKept_refl (k : Core) : StartKept k k := ⟨rfl, rfl, rfl, rfl, rfl, rfl, rfl, fun _ _ => rfl⟩

theorem startKept_trans {k k' k'' : Core} (h : StartKept k k') (h' : StartKept k' k'') : StartKept k k'' := by
  obtain ⟨a1, a2, a3, a4, a5, a6, a7, a8⟩ := h
  obtain ⟨b1, b2, b3, b4, b5, b6, b7, b8⟩ := h'
  refine ⟨b1.trans a1, b2.trans a2, b3.trans a3, b4.trans a4, b5.trans a5, b6.trans a6, b7.trans a7, fun z hz => ?_⟩
  exact (b8 z (by rw [inHome, a6]; exact hz)).trans (a8 z hz)

theorem startKept_mapCore (s : State) (c d : Coord) {f : Core → Core} (hf : ∀ k, StartKept k (f k)) :
    StartKept (coreAt s d) (coreAt (mapCore s c f) d) := by
  by_cases h : d = c
  · rw [h, coreAt_mapCore]; exact hf _
  · rw [coreAt_mapCore_ne s f h]; exact startKept_refl _

theorem startKept_mapRecord (k : Core) (n : Nat) (f : Entry → Entry) : StartKept k (mapRecord k n f) := by
  refine ⟨?_, ?_, ?_, ?_, ?_, ?_, ?_, fun _ h => peek_mapRecord k n f h⟩ <;> (unfold mapRecord; dsimp only; split <;> rfl)

theorem startKept_takeEntryOf (s : State) (home d : Coord) (e : Entry) (flag : Nat) (a : Agent) :
    StartKept (coreAt s d) (coreAt (takeEntryOf s home e flag a) d) := by
  have hrec : ∀ k, StartKept k (promote (mapRecord k e.seq (markTaken flag a))) := fun k =>
    startKept_trans (startKept_mapRecord k e.seq _) (startKept_refl _)
  obtain ⟨b, hb⟩ := coreAt_advertNotice (mapCore s home fun k => promote (mapRecord k e.seq (markTaken flag a))) home d
  rw [takeEntryOf_eq, hb]
  exact startKept_trans (startKept_mapCore s home d hrec) (startKept_refl _)

theorem home_mapRecord (k : Core) (n : Nat) (f : Entry → Entry) : (mapRecord k n f).home = changeFirst (fun e => e.seq == n) f k.home := by
  unfold mapRecord
  dsimp only
  split <;> rfl

theorem exists_mem_changeFirst {α : Type} {p : α → Bool} (f : α → α) {l : List α} {x : α} (hx : x ∈ l) (hp : p x = true) :
    ∃ y, p y = true ∧ f y ∈ changeFirst p f l := by
  induction l with
  | nil => cases hx
  | cons a r ih =>
    unfold changeFirst
    by_cases ha : p a = true
    · exact ⟨a, ha, by simp [ha]⟩
    · have hr : x ∈ r := (List.mem_cons.1 hx).resolve_left fun e => ha (e ▸ hp)
      obtain ⟨y, hy, hm⟩ := ih hr
      exact ⟨y, hy, by simp [ha, hm]⟩

/-- A promotion changes neither an entry's number nor who runs it. -/
theorem mem_home_promote {k : Core} {x : Entry} (h : x ∈ k.home) : ∃ y ∈ (promote k).home, y.seq = x.seq ∧ y.taker = x.taker := by
  refine ⟨_, List.mem_map_of_mem h, ?_⟩
  split <;> exact ⟨rfl, rfl⟩

theorem taken_takeEntryOf {s : State} {home : Coord} {e : Entry} (flag : Nat) (a : Agent) (h : e ∈ (coreAt s home).home) :
    Taken (takeEntryOf s home e flag a) home e a := by
  obtain ⟨y, hy, hm⟩ := exists_mem_changeFirst (p := fun x => x.seq == e.seq) (markTaken flag a) h (beq_self_eq_true _)
  rw [← home_mapRecord] at hm
  obtain ⟨x, hx, hseq, htaker⟩ := mem_home_promote hm
  obtain ⟨b, hb⟩ := coreAt_advertNotice (mapCore s home fun k => promote (mapRecord k e.seq (markTaken flag a))) home home
  rw [Taken, takeEntryOf_eq, hb, coreAt_mapCore]
  exact ⟨x, hx, hseq.trans (eq_of_beq hy), htaker⟩

theorem taken_congr {s t : State} {home : Coord} {e : Entry} {a : Agent} (h : Taken s home e a)
    (ht : (coreAt t home).home = (coreAt s home).home) : Taken t home e a := by
  unfold Taken
  rw [ht]
  exact h

/-! ### The registers that a body starts with (R91) -/

theorem dead_regSet (t : Thread) {n q : BitVec 5} (v : Word) (h : n ≠ 0) :
    (regSet t n v).dead.getLsbD q.toNat = (t.dead.getLsbD q.toNat && decide (q ≠ n)) := by
  have hq : ((1 : BitVec 32) <<< n.toNat).getLsbD q.toNat = decide (q = n) := by
    rw [BitVec.getLsbD_shiftLeft]
    by_cases hqn : q = n
    · have : n.toNat < 32 := n.isLt
      simp [hqn, this]
    · have hne : q.toNat ≠ n.toNat := fun e => hqn (BitVec.eq_of_toNat_eq e)
      have h1 : ¬(n.toNat ≤ q.toNat ∧ q.toNat - n.toNat = 0) := by omega
      simp [hqn]
      omega
  rw [regSet, if_neg h, BitVec.getLsbD_and, BitVec.getLsbD_not, hq]
  have : q.toNat < 32 := q.isLt
  simp [this]

/-- The captures go to g8 onward. -/
def setCaptures (caps : List Word) (n : Nat) (t : Thread) : Thread :=
  (List.range n).foldl (fun t i => regSet t (BitVec.ofNat 5 (8 + i)) (caps.getD i 0)) t

theorem setCaptures_succ (caps : List Word) (n : Nat) (t : Thread) :
    setCaptures caps (n + 1) t = regSet (setCaptures caps n t) (BitVec.ofNat 5 (8 + n)) (caps.getD n 0) := by
  simp [setCaptures, List.range_succ]

theorem toNat_capture {n : Nat} (h : n < 8) : (BitVec.ofNat 5 (8 + n)).toNat = 8 + n := by
  rw [BitVec.toNat_ofNat]
  omega

theorem regVal_setCaptures (caps : List Word) {n : Nat} (h : n ≤ 8) (t : Thread) (q : BitVec 5) : regVal (setCaptures caps n t) q =
    if 8 ≤ q.toNat ∧ q.toNat < 8 + n then caps.getD (q.toNat - 8) 0 else regVal t q := by
  induction n with
  | zero =>
    rw [if_neg (by omega)]
    rfl
  | succ n ih =>
    have hn := toNat_capture (n := n) (by omega)
    rw [setCaptures_succ, regVal_regSet_eq, ih (by omega)]
    by_cases hq : q = BitVec.ofNat 5 (8 + n)
    · have h0 : BitVec.ofNat 5 (8 + n) ≠ 0 := fun e => by rw [e] at hn; exact absurd hn (by simp; omega)
      have hqn : q.toNat = 8 + n := hq ▸ hn
      rw [if_pos ⟨hq, h0⟩, if_pos (by omega), hqn, Nat.add_sub_cancel_left]
    · have hqn : q.toNat ≠ 8 + n := fun e => hq (BitVec.eq_of_toNat_eq (e.trans hn.symm))
      rw [if_neg (fun e => hq e.1)]
      by_cases hr : 8 ≤ q.toNat ∧ q.toNat < 8 + n
      · rw [if_pos hr, if_pos (by omega)]
      · rw [if_neg hr, if_neg (by omega)]

theorem dead_setCaptures (caps : List Word) {n : Nat} (h : n ≤ 8) (t : Thread) {q : BitVec 5} (hq : q.toNat < 8 ∨ 8 + n ≤ q.toNat) :
    (setCaptures caps n t).dead.getLsbD q.toNat = t.dead.getLsbD q.toNat := by
  induction n with
  | zero => rfl
  | succ n ih =>
    have hn := toNat_capture (n := n) (by omega)
    have h0 : BitVec.ofNat 5 (8 + n) ≠ 0 := fun e => by rw [e] at hn; exact absurd hn (by simp; omega)
    have hqn : q ≠ BitVec.ofNat 5 (8 + n) := fun e => by rw [e, hn] at hq; omega
    rw [setCaptures_succ, dead_regSet _ _ h0, ih (by omega) (by omega)]
    simp [hqn]

/-- The general registers of a body that starts, in the order in which they are set. -/
def startedRegs (g3 : Word) (caps : List Word) (sp : Word) (r : BitVec 512) (t : Thread) : Thread :=
  let t := setCaptures caps (min caps.length 8) (regSet { t with dead := 0xFFFFFFFE } 3 g3)
  regSet (regSet (regSet (regSet (regSet t 2 sp) 7 (rcdArg r 3)) 6 (rcdArg r 2)) 5 (rcdArg r 1)) 4 (rcdArg r 0)

/-- A register as BodyStart sets it. -/
def setAlive (n : Nat) (v : Word) (t : Thread) : Thread :=
  { t with g := t.g.set! n v, dead := t.dead &&& ~~~((1 : BitVec 32) <<< n) }

theorem setAlive_eq {n : Nat} (h0 : 0 < n) (h : n < 32) (v : Word) (t : Thread) : setAlive n v t = regSet t (BitVec.ofNat 5 n) v := by
  have hn : (BitVec.ofNat 5 n).toNat = n := by
    rw [BitVec.toNat_ofNat]
    omega
  have hne : BitVec.ofNat 5 n ≠ 0 := fun e => by rw [e] at hn; exact absurd hn (by simp; omega)
  have hg : t.g.set! n v = t.g.set n v h := by simp [Vector.set!, Vector.set, Array.setIfInBounds, h]
  rw [regSet, if_neg hne, setAlive]
  simp only [hn, hg]

theorem setAlive_captures (caps : List Word) {n : Nat} (h : n ≤ 8) (t : Thread) :
    (List.range n).foldl (fun t i => setAlive (8 + i) (caps.getD i 0) t) t = setCaptures caps n t :=
  List.foldl_ext _ _ _ fun t i hi => setAlive_eq (by omega) (by have := List.mem_range.1 hi; omega) _ t

theorem startRegs_eq (g3 : Word) (caps : List Word) (sp : Word) (h : Handle) (r : BitVec 512) (pc : Word) (far : Bool) (t : Thread) :
    startRegs (some g3) caps sp h r pc far t =
      { startedRegs g3 caps sp r t with l0 := rcdWid r, l1 := rcdAnchor r, k := (Vector.replicate 8 0).set 0 h, pc := pc, running := true
                                        pend := [], fcsr := if far then 0 else (startedRegs g3 caps sp r t).fcsr } := by
  have hregs : setAlive 4 (rcdArg r 0) (setAlive 5 (rcdArg r 1) (setAlive 6 (rcdArg r 2) (setAlive 7 (rcdArg r 3) (setAlive 2 sp
      ((List.range (min caps.length 8)).foldl (fun t i => setAlive (8 + i) (caps.getD i 0) t)
        (setAlive 3 g3 { t with dead := 0xFFFFFFFE })))))) = startedRegs g3 caps sp r t := by
    rw [setAlive_captures _ (Nat.min_le_right ..), setAlive_eq (n := 2) (by decide) (by decide), setAlive_eq (n := 3) (by decide) (by decide),
      setAlive_eq (n := 4) (by decide) (by decide), setAlive_eq (n := 5) (by decide) (by decide),
      setAlive_eq (n := 6) (by decide) (by decide), setAlive_eq (n := 7) (by decide) (by decide)]
    rfl
  rw [← hregs]
  rfl

section
variable (g3 : Word) (caps : List Word) (sp : Word) (r : BitVec 512) (t : Thread)

theorem regVal_startedRegs (q : BitVec 5) : regVal (startedRegs g3 caps sp r t) q =
    if q = 4 then rcdArg r 0 else if q = 5 then rcdArg r 1 else if q = 6 then rcdArg r 2 else if q = 7 then rcdArg r 3
    else if q = 2 then sp else if 8 ≤ q.toNat ∧ q.toNat < 8 + min caps.length 8 then caps.getD (q.toNat - 8) 0
    else if q = 3 then g3 else regVal { t with dead := 0xFFFFFFFE } q := by
  unfold startedRegs
  simp only [regVal_regSet_eq, regVal_setCaptures _ (Nat.min_le_right ..)]
  simp

theorem regVal_startedRegs_arg {j : Nat} (h : j < 4) : regVal (startedRegs g3 caps sp r t) (BitVec.ofNat 5 (4 + j)) = rcdArg r j := by
  rw [regVal_startedRegs]
  match j, h with
  | 0, _ => rfl
  | 1, _ => rfl
  | 2, _ => rfl
  | 3, _ => rfl

theorem regVal_startedRegs_capture (hlen : caps.length ≤ 8) {j : Nat} (h : j < caps.length) :
    regVal (startedRegs g3 caps sp r t) (BitVec.ofNat 5 (8 + j)) = caps[j] := by
  have hn := toNat_capture (n := j) (by omega)
  have hne : ∀ q : BitVec 5, q.toNat < 8 → BitVec.ofNat 5 (8 + j) ≠ q := fun q hq e => by rw [← e, hn] at hq; omega
  rw [regVal_startedRegs, if_neg (hne 4 (by decide)), if_neg (hne 5 (by decide)), if_neg (hne 6 (by decide)), if_neg (hne 7 (by decide)),
    if_neg (hne 2 (by decide)), hn, if_pos (by omega), Nat.add_sub_cancel_left]
  simp [h]

/-- Every register that BodyStart sets none of is dead. -/
theorem dead_startedRegs {q : BitVec 5} (h : q.toNat = 1 ∨ 8 + min caps.length 8 ≤ q.toNat) :
    (startedRegs g3 caps sp r t).dead.getLsbD q.toNat = true := by
  have hne : ∀ p : BitVec 5, 2 ≤ p.toNat → p.toNat < 8 → q ≠ p := fun p h2 h8 e => by rw [e] at h; omega
  have hall : (0xFFFFFFFE : BitVec 32).getLsbD q.toNat = true := by
    have hq : q ≠ 0 := fun e => by rw [e] at h; simp at h
    revert hq
    clear h hne
    revert q
    decide
  unfold startedRegs
  rw [dead_regSet _ _ (by decide), dead_regSet _ _ (by decide), dead_regSet _ _ (by decide), dead_regSet _ _ (by decide),
    dead_regSet _ _ (by decide), dead_setCaptures _ (Nat.min_le_right ..) _ (by omega), dead_regSet _ _ (by decide), hall]
  simp [hne]

end

/-! ### The environment of a body (R184, R199) -/

theorem peeks_congr {m m' : Memory} {a n : Nat} (h : ∀ z, a ≤ z → z < a + n → peek m' z = peek m z) : peeks m' a n = peeks m a n := by
  induction n generalizing a with
  | zero => rfl
  | succ n ih => rw [peeks, peeks, h a (by omega) (by omega), ih fun z h1 h2 => h z (by omega) (by omega)]

theorem peeks_take (m : Memory) (a : Nat) {k n : Nat} (h : k ≤ n) : (peeks m a n).take k = peeks m a k := by
  induction k generalizing a n with
  | zero => rfl
  | succ k ih =>
    obtain ⟨n, rfl⟩ := Nat.exists_eq_add_of_le' (show 1 ≤ n by omega)
    rw [peeks, peeks, List.take_succ_cons, ih _ (by omega)]

theorem peeks_drop (m : Memory) (a k n : Nat) : (peeks m a (k + n)).drop k = peeks m (a + k) n := by
  induction k generalizing a with
  | zero => simp
  | succ k ih => rw [Nat.add_right_comm, peeks, List.drop_succ_cons, ih, Nat.add_right_comm, Nat.add_assoc]

/-- The number that bytes hold, by the model's reading and by the statements'. -/
theorem leNat_peeks (m : Memory) (a n : Nat) : leNat (peeks m a n) = leValue m a n := by
  induction n generalizing a with
  | zero => rfl
  | succ n ih =>
    rw [peeks, leNat, ih]
    unfold leValue
    rw [List.range_succ_eq_map, List.map_cons, List.sum_cons, List.map_map, ← List.sum_map_mul_left]
    simp only [Function.comp_def, Nat.succ_eq_add_one, Nat.add_zero, pow_zero, mul_one, pow_succ]
    congr 2
    refine List.map_congr_left fun i _ => ?_
    rw [Nat.add_right_comm a 1 i, Nat.add_assoc a i 1]
    ring

theorem envHead_of_bytes (k : Core) (i : Nat) : BitVec.ofNat 128 (leNat ((peeks k.mem (envAddr k i) 128).take 16)) = envHead k i := by
  rw [peeks_take _ _ (by decide)]
  rfl

/-- The captures of environment `i` that reach registers. -/
def envCaps (k : Core) (i : Nat) : List Word :=
  (List.range (min (envNcap (envHead k i)) 8)).map fun w => BitVec.ofNat 64 (leValue k.mem (envWordAddr k i w) 8)

theorem envCaps_length (k : Core) (i : Nat) : (envCaps k i).length = min (envNcap (envHead k i)) 8 := by simp [envCaps]

section
variable {s s' : State} {c : Coord} {u : UnitId} {h : Handle} {i p : Nat}

theorem hHome_of_mod (hh : h.toNat % 2 ^ 13 = c.toNat) : hHome h = c := by
  refine BitVec.eq_of_toNat_eq ?_
  have := c.isLt
  simp only [hHome, bits, natBits, BitVec.toNat_ofNat]
  omega

theorem hIdx_of_mod (hh : h.toNat / 2 ^ 13 % 2 ^ 8 = i) : hIdx h = i := hh

/-- Environment `i` reads the same: where it lies, its header, its bytes and its captures. -/
def SameEnv (k k' : Core) (i : Nat) : Prop :=
  envAddr k' i = envAddr k i ∧ envHead k' i = envHead k i ∧ peeks k'.mem (envAddr k i) 128 = peeks k.mem (envAddr k i) 128 ∧
    envCaps k' i = envCaps k i

theorem sameEnv_of_startKept {k k' : Core} (hk : StartKept k k')
    (hout : ∀ z, envAddr k i ≤ z → z < envAddr k i + 128 → inHome k z = false) : SameEnv k k' i := by
  obtain ⟨-, -, hbase, -, -, -, -, hmem⟩ := hk
  have haddr : envAddr k' i = envAddr k i := by rw [envAddr, hbase]; rfl
  have hbytes : ∀ o n, o + n ≤ 128 → peeks k'.mem (envAddr k i + o) n = peeks k.mem (envAddr k i + o) n := fun o n hn =>
    peeks_congr fun z h1 h2 => hmem z (hout z (by omega) (by omega))
  have hfirst : ∀ n ≤ 128, peeks k'.mem (envAddr k i) n = peeks k.mem (envAddr k i) n := fun n hn => by
    simpa only [Nat.add_zero] using hbytes 0 n (by omega)
  have hhead : envHead k' i = envHead k i := by rw [envHead, envHead, haddr, peekNat, peekNat, hfirst 16 (by decide)]
  refine ⟨haddr, hhead, hfirst 128 (le_refl _), ?_⟩
  unfold envCaps
  rw [hhead]
  refine List.map_congr_left fun w hw => ?_
  have hw8 : w < 8 := by
    have := List.mem_range.1 hw
    omega
  rw [← leNat_peeks, ← leNat_peeks, envWordAddr, envWordAddr, haddr, Nat.add_assoc, hbytes _ _ (by omega)]

/-- What lets a body start still does once its record is marked (R118). -/
theorem canStart_kept (hk : StartKept (coreAt s c) (coreAt s' c)) (hs : CanStart s c u h i p) : CanStart s' c u h i p := by
  obtain ⟨h0, hc, hi, hlive, hrefs, heven, hlow, hx, hpad, hin, hin1, hout⟩ := hs
  obtain ⟨haddr, hhead, -, -⟩ := sameEnv_of_startKept hk hout
  obtain ⟨hthreads, hattr, -, hallot, -, htq, -, hmem⟩ := hk
  have hhome : ∀ z, inHome (coreAt s' c) z = inHome (coreAt s c) z := fun z => by rw [inHome, htq]; rfl
  have hword : ∀ T, inHome (coreAt s c) T = false → inHome (coreAt s c) (T + 1) = false →
      peeks (coreAt s' c).mem T 2 = peeks (coreAt s c).mem T 2 := fun T h1 h2 => peeks_congr fun z hz hz' => by
    rcases (show z = T ∨ z = T + 1 by omega) with rfl | rfl
    · exact hmem _ h1
    · exact hmem _ h2
  refine ⟨h0, hc, hi, ?_, ?_, ?_⟩
  · rw [hLive, hIdx_of_mod hi, hallot, hhead]
    rwa [hLive, hIdx_of_mod hi] at hlive
  · rwa [hhead]
  · simp only [hhead, haddr, hhome]
    refine ⟨heven, hlow, by rwa [attrOf, hattr], ?_, hin, hin1, hout⟩
    rw [fetchHalf, peekNat, hword _ hin hin1, threadAt, hthreads]
    exact hpad

theorem lt_of_mem_refSlots {j : Nat} (hj : j ∈ [0, 1, 2, 3]) : j < 4 := by
  simp only [List.mem_cons, List.not_mem_nil, or_false] at hj
  omega

/-- The home answers a body's request for its environment with the environment's bytes (R189, R199). -/
theorem closureServe_apply (hs : CanStart s c u h i p) :
    closureServe s c c (.closureApply h) = (s, .env (peeks (coreAt s c).mem (envAddr (coreAt s c) i) 128)) := by
  obtain ⟨-, -, hi, hlive, hrefs, -⟩ := hs
  have hsame : sameCluster c c = true := by simp [sameCluster]
  have hdangling : danglingRef (coreAt s c) i = none := by
    refine List.find?_eq_none.2 fun j hj => ?_
    simp [envRefV, hrefs j (lt_of_mem_refSlots hj)]
  unfold closureServe
  simp [hlive, hsame, hIdx_of_mod hi, hdangling]

theorem captureOf_env (hrefs : ∀ j < 4, (envHead (coreAt s c) i).getLsbD (79 + 16 * j) = false) {w : Nat} (hw : w < 8) :
    captureOf c c (peeks (coreAt s c).mem (envAddr (coreAt s c) i) 128) w =
      BitVec.ofNat 64 (leValue (coreAt s c).mem (envWordAddr (coreAt s c) i w) 8) := by
  have hany : ([0, 1, 2, 3].any fun j => envRefV (envHead (coreAt s c) i) j && envRefWord (envHead (coreAt s c) i) j == w) = false := by
    refine List.any_eq_false.2 fun j hj => ?_
    simp [envRefV, hrefs j (lt_of_mem_refSlots hj)]
  have hword : ((peeks (coreAt s c).mem (envAddr (coreAt s c) i) 128).drop (16 + 8 * w)).take 8 =
      peeks (coreAt s c).mem (envWordAddr (coreAt s c) i w) 8 := by
    have h128 : 128 = 16 + 8 * w + (112 - 8 * w) := by omega
    rw [h128, peeks_drop, peeks_take _ _ (by omega), envWordAddr, Nat.add_assoc]
  unfold captureOf
  dsimp only
  rw [envHead_of_bytes, hword, leNat_peeks, hany]
  rfl

/-! ### The start of a body at its own home (R91) -/

theorem padCheck_pass (hs : CanStart s c u h i (padKind u)) :
    padCheck (coreAt s c) (threadAt (coreAt s c) u) (BitVec.ofNat 64 (envEntry (envHead (coreAt s c) i))) (padKind u) = none := by
  obtain ⟨-, -, -, -, -, heven, hlow, hx, hpad, -⟩ := hs
  have hT : (BitVec.ofNat 64 (envEntry (envHead (coreAt s c) i))).toNat = envEntry (envHead (coreAt s c) i) := by
    rw [BitVec.toNat_ofNat]
    omega
  unfold padCheck fetchable
  have h0 : (BitVec.ofNat 64 (envEntry (envHead (coreAt s c) i))).getLsbD 0 = false := by
    rw [BitVec.getLsbD, hT, Nat.testBit_zero]
    simp [heven]
  rw [hT, h0, hx, hpad, padWord]
  have hk : BitVec.ofNat 16 (36 * 1024 + padKind u * 512) = BitVec.ofNat 16 (0x9000 + 0x200 * padKind u) := by rw [Nat.mul_comm 512]
  simp [hlow, hk]

/-- The body starts from the bytes of its environment. -/
theorem startWith_env (t : Task) (hs : CanStart s c u h i (padKind u)) :
    startWith s c u t h (.env (peeks (coreAt s c).mem (envAddr (coreAt s c) i) 128)) =
      startGo s c u t h (some (BitVec.ofNat 64 (envAddr (coreAt s c) i))) (envCaps (coreAt s c) i)
        (BitVec.ofNat 64 (envEntry (envHead (coreAt s c) i))) := by
  have hpad := padCheck_pass hs
  obtain ⟨-, hc, hi, -, hrefs, -⟩ := hs
  have hnear : envNear s c h = BitVec.ofNat 64 (envAddr (coreAt s c) i) := by
    simp [envNear, hHome_of_mod hc, hIdx_of_mod hi, sameCluster, nearOf]
  have hcaps : (List.range (min (envNcap (envHead (coreAt s c) i)) 8)).map
      (captureOf c c (peeks (coreAt s c).mem (envAddr (coreAt s c) i) 128)) = envCaps (coreAt s c) i :=
    List.map_congr_left fun w hw => captureOf_env hrefs (by have := List.mem_range.1 hw; omega)
  unfold startWith
  dsimp only
  rw [envHead_of_bytes, hnear, hHome_of_mod hc, hcaps, startAt, hpad]

end

/-- The unit takes the task, and asks for its environment. -/
def bodySet (u : UnitId) (t : Task) (k : Core) : Core := match u with
  | .stream i _ => mapSlot k i fun x => { x with task := some t, starting := some t, grant := none, st := .running }
  | .ibex n => mapIbex k n fun _ => { task := some t, starting := some t }

/-- The unit has its environment. -/
def bodyReady (u : UnitId) (k : Core) : Core := match u with
  | .stream i _ => mapSlot k i fun x => { x with starting := none }
  | .ibex n => mapIbex k n fun x => { x with starting := none }

theorem startKept_bodySet (u : UnitId) (t : Task) (k : Core) : StartKept k (bodySet u t k) := by
  cases u <;> exact ⟨rfl, rfl, rfl, rfl, rfl, rfl, rfl, fun _ _ => rfl⟩

theorem startKept_bodyReady (u : UnitId) (k : Core) : StartKept k (bodyReady u k) := by
  cases u <;> exact ⟨rfl, rfl, rfl, rfl, rfl, rfl, rfl, fun _ _ => rfl⟩

theorem home_bodySet (u : UnitId) (t : Task) (k : Core) : (bodySet u t k).home = k.home := by cases u <;> rfl

theorem home_bodyReady (u : UnitId) (k : Core) : (bodyReady u k).home = k.home := by cases u <;> rfl

section
variable {s s' : State} {c : Coord} {u : UnitId} {i : Nat} {t : Task}

theorem inLaunch_congr {d : Coord} (hc : (coreAt s' c).launch = (coreAt s c).launch) (hd : (coreAt s' d).launch = (coreAt s d).launch) :
    inLaunch s' c d = inLaunch s c d := by rw [inLaunch, hc, hd]; rfl

/-- The state in which a unit with its task starts the body. -/
def bodyAt (s : State) (c : Coord) (u : UnitId) (t : Task) : State := mapCore (mapCore s c (bodySet u t)) c (bodyReady u)

theorem startKept_bodyAt (hk : StartKept (coreAt s c) (coreAt s' c)) : StartKept (coreAt s c) (coreAt (bodyAt s' c u t) c) :=
  startKept_trans (startKept_trans hk (startKept_mapCore s' c c (startKept_bodySet u t)))
    (startKept_mapCore _ c c (startKept_bodyReady u))

/-- A body whose environment is its core's own starts at once. -/
theorem bodyStart_own (hk : StartKept (coreAt s c) (coreAt s' c)) (hl : inLaunch s c c = true)
    (hs : CanStart s c u (bodyHandle u t.rcd) i (padKind u)) : bodyStart s' c u t =
      startGo (bodyAt s' c u t) c u t (bodyHandle u t.rcd) (some (BitVec.ofNat 64 (envAddr (coreAt s c) i))) (envCaps (coreAt s c) i)
        (BitVec.ofNat 64 (envEntry (envHead (coreAt s c) i))) := by
  have hk1 : StartKept (coreAt s c) (coreAt (mapCore s' c (bodySet u t)) c) :=
    startKept_trans hk (startKept_mapCore s' c c (startKept_bodySet u t))
  have hk2 : StartKept (coreAt s c) (coreAt (bodyAt s' c u t) c) := startKept_bodyAt hk
  have hs1 := canStart_kept hk1 hs
  have hs2 := canStart_kept hk2 hs
  obtain ⟨h0, hc, -, -, -, -, -, -, -, -, -, hout⟩ := hs
  obtain ⟨haddr1, -, hbytes1, -⟩ := sameEnv_of_startKept hk1 hout
  obtain ⟨haddr2, hhead2, hbytes2, hcaps2⟩ := sameEnv_of_startKept hk2 hout
  have hl1 : inLaunch (mapCore s' c (bodySet u t)) c c = true := by
    obtain ⟨-, -, -, -, -, -, hlaunch, -⟩ := hk1
    rw [inLaunch_congr hlaunch hlaunch, hl]
  have hserve := closureServe_apply hs1
  have hstart := startWith_env t hs2
  rw [haddr1, hbytes1] at hserve
  rw [haddr2, hbytes2, hhead2, hcaps2] at hstart
  rw [← hstart]
  show (if bodyHandle u t.rcd = 0 then _ else if !inLaunch (mapCore s' c (bodySet u t)) c (hHome (bodyHandle u t.rcd)) then _
    else if hHome (bodyHandle u t.rcd) = c then startWith (bodyAt s' c u t) c u t (bodyHandle u t.rcd)
      (closureServe (mapCore s' c (bodySet u t)) c c (.closureApply (bodyHandle u t.rcd))).2 else _) = _
  rw [if_neg h0, hHome_of_mod hc, hl1, hserve, if_neg (by decide), if_pos rfl]

/-- A body whose environment lies at another core asks that home for it (R189). -/
theorem bodyStart_away {h : Coord} (h0 : bodyHandle u t.rcd ≠ 0) (hh : hHome (bodyHandle u t.rcd) = h) (hc : h ≠ c)
    (hl : inLaunch s c h = true) : bodyStart s c u t = send (mapCore s c (bodySet u t)) c h
      (if sameCluster c h then .cluster else .request) u s.nextId (some (reqOrigin (mapCore s c (bodySet u t)) ⟨c, u⟩)) none
      (.closureOp (.closureApply (bodyHandle u t.rcd))) := by
  have hlaunch : ∀ k, (bodySet u t k).launch = k.launch := fun k => by cases u <;> rfl
  have hl1 : inLaunch (mapCore s c (bodySet u t)) c h = true :=
    (inLaunch_congr (by rw [coreAt_mapCore, hlaunch]) (by rw [coreAt_mapCore_ne _ _ hc])).trans hl
  subst hh
  show (if bodyHandle u t.rcd = 0 then _ else if !inLaunch (mapCore s c (bodySet u t)) c (hHome (bodyHandle u t.rcd)) then _
    else if hHome (bodyHandle u t.rcd) = c then _ else _) = _
  rw [if_neg h0, hl1, if_neg (by decide), if_neg hc]
  rfl

end

section
variable (s : State) (c : Coord) (t : Task) (h : Handle) (g3 : Option Word) (caps : List Word) (pc : Word)

theorem home_startGo (u : UnitId) (d : Coord) : (coreAt (startGo s c u t h g3 caps pc) d).home = (coreAt s d).home := by
  unfold startGo
  by_cases hd : d = c
  · rw [hd, coreAt_mapCore]
    cases u <;> rfl
  · rw [coreAt_mapCore_ne _ _ hd]

theorem threadAt_startGo_ibex (n : Fin 2) : threadAt (coreAt (startGo s c (.ibex n) t h g3 caps pc) c) (.ibex n) =
    startRegs g3 caps 0 h t.rcd pc false (threadAt (coreAt s c) (.ibex n)) := by
  unfold startGo
  rw [coreAt_mapCore]
  exact threadAt_mapThread ..

theorem ibexAt_startGo (n : Fin 2) : ibexAt (coreAt (startGo s c (.ibex n) t h g3 caps pc) c) n = ibexAt (coreAt s c) n := by
  unfold startGo
  rw [coreAt_mapCore]
  rfl

theorem threadAt_startGo_exec (q : Fin 4) : threadAt (coreAt (startGo s c (.stream q .exec) t h g3 caps pc) c) (.stream q .exec) =
    startRegs g3 caps (BitVec.ofNat 64 (frameTop (coreAt s c) q)) h t.rcd pc true (threadAt (coreAt s c) (.stream q .exec)) := by
  unfold startGo
  rw [coreAt_mapCore]
  dsimp only
  rw [threadAt_mapThread, threadAt_mapThread_ne _ _ (exec_ne_acc q), threadAt_mapSlot]
  rfl

theorem slotAt_startGo (q : Fin 4) : slotAt (coreAt (startGo s c (.stream q .exec) t h g3 caps pc) c) q =
    { popFrames (slotAt (coreAt s c) q) with starting := none, vtype := 0, vl := 0, lq := [], sq := [], bo := [], boProd := none, rt := []
                                             st := .running } := by
  unfold startGo
  rw [coreAt_mapCore]
  dsimp only
  rw [slotAt_mapThread, slotAt_mapThread, slotAt_mapSlot]

end

/-- A thread whose registers BodyStart has set is one that started with them. -/
theorem startedWith_of_startRegs {s t : State} {c : Coord} {u : UnitId} {h : Handle} {i : Nat} {r : BitVec 512} {sp : Word} {far : Bool}
    {th : Thread} (ht : threadAt (coreAt t c) u = startRegs (some (BitVec.ofNat 64 (envAddr (coreAt s c) i))) (envCaps (coreAt s c) i) sp h r
      (BitVec.ofNat 64 (envEntry (envHead (coreAt s c) i))) far th) :
    StartedWith t s c u h i r ∧ regVal (threadAt (coreAt t c) u) 2 = sp := by
  have hlen := envCaps_length (coreAt s c) i
  have hreg : ∀ q, regVal (threadAt (coreAt t c) u) q =
      regVal (startedRegs (BitVec.ofNat 64 (envAddr (coreAt s c) i)) (envCaps (coreAt s c) i) sp r th) q := fun q => by
    rw [ht, startRegs_eq]
    rfl
  have hdead : (threadAt (coreAt t c) u).dead = (startedRegs (BitVec.ofNat 64 (envAddr (coreAt s c) i)) (envCaps (coreAt s c) i) sp r th).dead := by
    rw [ht, startRegs_eq]
  refine ⟨⟨by rw [ht, startRegs_eq], by rw [ht, startRegs_eq], by rw [ht, startRegs_eq], by rw [ht, startRegs_eq], ?_, ?_, fun j hj => ?_,
    fun j hj => ?_, fun q hq => ?_⟩, ?_⟩
  · rw [ht, startRegs_eq]
    rfl
  · rw [hreg, regVal_startedRegs]
    simp
  · rw [hreg, regVal_startedRegs_arg _ _ _ _ _ hj]
  · rw [hreg, regVal_startedRegs_capture _ _ _ _ _ (by omega) (by omega)]
    simp [envCaps]
  · rw [hdead]
    exact dead_startedRegs _ _ _ _ _ (by omega)
  · rw [hreg, regVal_startedRegs]
    rfl

/-! ### Work taken (R78, R82, R83) -/

theorem exec_nearDispatch (c : Coord) (u : Fin 2) (s : State) : exec (.nearDispatch c u) s = execNearDispatch c u s := rfl

theorem exec_slotTakesWork (c : Coord) (q : Fin 4) (s : State) : exec (.slotTakesWork c q) s = execSlotTakesWork c q s := rfl

theorem exec_stealRequest (c : Coord) (q : Fin 4) (s : State) : exec (.stealRequest c q) s = execStealRequest c q s := rfl

theorem exec_steal (c : Coord) (q : Fin 4) (s : State) : exec (.steal c q) s = execSteal c q s := rfl

theorem exec_bufferDrain (c : Coord) (q : Fin 4) (s : State) : exec (.bufferDrain c q) s = execBufferDrain c q s := rfl

section
variable {s : State} {c : Coord} {e : Entry}

theorem inLaunch_of_coreRuns (h : coreRuns s c = true) : inLaunch s c c = true := by
  unfold coreRuns at h
  rw [Bool.and_eq_true, Bool.and_eq_true, Bool.and_eq_true] at h
  obtain ⟨⟨⟨hcore, -⟩, -⟩, hl⟩ := h
  have hsome : (coreAt s c).launch.isSome = true := by
    cases hn : (coreAt s c).launch with
    | none => simp [launchOf, hn] at hl
    | some l => rfl
  simp [inLaunch, hcore, hsome]

theorem home_bodyAt (s : State) (c : Coord) (u : UnitId) (t : Task) (d : Coord) : (coreAt (bodyAt s c u t) d).home = (coreAt s d).home := by
  unfold bodyAt
  by_cases h : d = c
  · rw [h, coreAt_mapCore, coreAt_mapCore, home_bodyReady, home_bodySet]
  · rw [coreAt_mapCore_ne _ _ h, coreAt_mapCore_ne _ _ h]

/-- A record of the unit's own home whose body can start: the home marks it as taken, and the body starts. -/
theorem takeAndStart_own {u : UnitId} {i : Nat} (flag : Nat) (hm : e ∈ (coreAt s c).home) (hr : coreRuns s c = true)
    (hs : CanStart s c u (bodyHandle u e.rcd) i (padKind u)) :
    ∃ s2, s2 = bodyAt (takeEntryOf s c e flag ⟨c, u⟩) c u (newTask c e) ∧ Taken s2 c e ⟨c, u⟩ ∧ StartKept (coreAt s c) (coreAt s2 c) ∧
      takeAndStart s ⟨c, u⟩ c e flag = startGo s2 c u (newTask c e) (bodyHandle u e.rcd) (some (BitVec.ofNat 64 (envAddr (coreAt s c) i)))
        (envCaps (coreAt s c) i) (BitVec.ofNat 64 (envEntry (envHead (coreAt s c) i))) := by
  have hk := startKept_takeEntryOf s c c e flag ⟨c, u⟩
  exact ⟨_, rfl, taken_congr (taken_takeEntryOf flag ⟨c, u⟩ hm) (home_bodyAt ..), startKept_bodyAt hk,
    bodyStart_own hk (inLaunch_of_coreRuns hr) hs⟩

theorem nearDispatch_run {u : Fin 2} (hr : coreRuns s c = true)
    (hfree : (ibexAt (coreAt s c) u).task = none ∧ (ibexAt (coreAt s c) u).starting = none)
    (hother : u = 1 → (ibexAt (coreAt s c) 0).task ≠ none ∨ (ibexAt (coreAt s c) 0).starting ≠ none)
    (hp : pick (fun x => rcdValid x.rcd && !rcdTaken x.rcd && !rcdFarOnly x.rcd && eligible (coreAt s c) x) true (coreAt s c).home = some e) :
    exec (.nearDispatch c u) s = .next (takeAndStart s ⟨c, .ibex u⟩ c e 0) := by
  have hturn : (u == 1 && ((ibexAt (coreAt s c) 0).task.isNone && (ibexAt (coreAt s c) 0).starting.isNone)) = false := by
    by_cases hu : u = 1
    · rcases hother hu with h | h <;> simp [h, Option.isNone_eq_false_iff, Option.isSome_iff_ne_none]
    · simp [hu]
  rw [exec_nearDispatch, execNearDispatch, event_run]
  simp only [hr, hfree.1, hfree.2, hturn, hp, Option.isNone_none, Bool.and_self, Bool.not_false, if_true]

theorem slotTakesWork_run {q : Fin 4} (hr : coreRuns s c = true) (hfree : slotFree (coreAt s c) q = true)
    (hp : freeRecord (coreAt s c) q = some e) : exec (.slotTakesWork c q) s = .next (takeAndStart s ⟨c, .stream q .exec⟩ c e 1) := by
  rw [exec_slotTakesWork, execSlotTakesWork, event_run]
  simp only [hr, hfree, hp, Bool.and_self, if_true]

end

/-- The near bodies of a free Ibex unit (R78, R91). -/
theorem nearBodiesStart : NearBodiesStart := by
  intro s c u e i hr htask hstarting hother ⟨hm, _⟩ may hmay hall hcan
  obtain ⟨s2, hs2, htaken, -, ht⟩ := takeAndStart_own (u := .ibex u) 0 hm hr hcan
  refine ⟨_, nearDispatch_run hr ⟨htask, hstarting⟩ hother (pick_oldest hm hmay hall), ?_⟩
  rw [ht]
  refine ⟨taken_congr htaken (home_startGo ..), ⟨newTask c e, ?_, rfl, rfl, rfl⟩, ?_⟩
  · rw [ibexAt_startGo, hs2, bodyAt, coreAt_mapCore, coreAt_mapCore]
    simp [bodyReady, bodySet]
  · exact (startedWith_of_startRegs (threadAt_startGo_ibex ..)).1

theorem freeRecord_eq_some {k : Core} {q : Fin 4} {e : Entry} (hm : e ∈ k.home)
    (he : rcdValid e.rcd = false ∧ e.taker = none ∧ (e.slot = none ∨ e.slot = some q))
    (hall : ∀ x ∈ k.home, rcdValid x.rcd = false ∧ x.taker = none ∧ (x.slot = none ∨ x.slot = some q) → x = e ∨ older e x = true) :
    freeRecord k q = some e := by
  have hiff : ∀ x : Entry, (!rcdValid x.rcd && x.taker.isNone && x.slot.all (· == q)) = true ↔
      rcdValid x.rcd = false ∧ x.taker = none ∧ (x.slot = none ∨ x.slot = some q) := fun x => by
    cases x.slot <;> simp [and_assoc]
  exact pick_oldest hm ((hiff e).2 he) fun x hx hp => hall x hx ((hiff x).1 hp)

theorem freeRecord_eq_none {k : Core} (q : Fin 4) (h : ∀ x ∈ k.home, rcdValid x.rcd = true ∨ x.taker ≠ none) : freeRecord k q = none := by
  refine pick_eq_none.2 fun x hx => ?_
  rcases h x hx with h | h <;> simp [h]

/-- A home without a record for far bodies alone has none of those that its own slots take ahead of the Slate (R82). -/
theorem ownFarRecord_eq_none {k : Core} (h : ∀ x ∈ k.home, rcdFarOnly x.rcd = false) : ownFarRecord k = none :=
  pick_eq_none.2 fun x hx => by simp [h x hx]

theorem stealRequest_run {s : State} {c : Coord} {q : Fin 4} (hr : coreRuns s c = true) (hfree : slotFree (coreAt s c) q = true)
    (hsteal : (coreAt s c).tqcfg.getLsbD 16 = true) (hp : freeRecord (coreAt s c) q = none) :
    exec (.stealRequest c q) s = .next (send s c c .control (.stream q .exec) 0 none none (.stealAsk q)) := by
  rw [exec_stealRequest, execStealRequest, event_run]
  simp only [hr, hfree, hsteal, hp, Option.isNone_none, Bool.and_self, if_true]

/-- The slot has used its grant. -/
def grantUsed (s : State) (c : Coord) (q : Fin 4) : State := mapCore s c fun k => mapSlot k q fun x => { x with grant := none }

/-- A granted steal uses the grant, and the home that it names gives its youngest record that qualifies (R83). -/
theorem steal_run {s : State} {c h : Coord} {q : Fin 4} {e : Entry} (hr : coreRuns s c = true) (hfree : slotFree (coreAt s c) q = true)
    (hg : (slotAt (coreAt s c) q).grant = some h) (hc : h ≠ c) (hp : freeRecord (coreAt s c) q = none) (hf : ownFarRecord (coreAt s c) = none)
    (hreel : sameReel s c h = true) (hon : (coreAt s h).power = .on) (he : pick (stealable (coreAt s h)) false (coreAt s h).home = some e) :
    exec (.steal c q) s = .next (takeAndStart (grantUsed s c q) ⟨c, .stream q .exec⟩ h e 1) := by
  rw [exec_steal, execSteal, event_run]
  simp only [hg, hr, hfree, hp, hf, hreel, Option.isNone_none, Bool.and_self, if_true, coreAt_mapCore_ne _ _ hc, powerRefusal, hon, he]
  rfl

/-- A record of another home, whose far body has its environment there: that home marks it as taken, and the slot waits for the
environment that it asks for. -/
theorem takeAndStart_away {s : State} {c h : Coord} {q : Fin 4} {e : Entry} (hm : e ∈ (coreAt s h).home) (hc : h ≠ c) (h0 : rcdFar e.rcd ≠ 0)
    (hh : hHome (rcdFar e.rcd) = h) (hl : inLaunch s c h = true) :
    ∃ t m, takeAndStart s ⟨c, .stream q .exec⟩ h e 1 = t ∧ Taken t h e ⟨c, .stream q .exec⟩ ∧ (slotAt (coreAt t c) q).st = .running ∧
      (slotAt (coreAt t c) q).starting = some (newTask h e) ∧ m ∈ t.net ∧ m.src = c ∧ m.dst = h ∧
      m.load = .closureOp (.closureApply (rcdFar e.rcd)) := by
  obtain ⟨-, -, -, -, -, -, hlc, -⟩ := startKept_takeEntryOf s h c e 1 ⟨c, .stream q .exec⟩
  obtain ⟨-, -, -, -, -, -, hlh, -⟩ := startKept_takeEntryOf s h h e 1 ⟨c, .stream q .exec⟩
  refine ⟨_, _, bodyStart_away (u := .stream q .exec) (t := newTask h e) h0 hh hc ((inLaunch_congr hlc hlh).trans hl), ?_, ?_, ?_,
    List.mem_append_right _ (List.mem_singleton_self _), rfl, rfl, rfl⟩
  · refine taken_congr (taken_takeEntryOf 1 _ hm) ?_
    rw [coreAt_send, coreAt_mapCore_ne _ _ hc]
  · rw [coreAt_send, coreAt_mapCore, bodySet, slotAt_mapSlot]
  · rw [coreAt_send, coreAt_mapCore, bodySet, slotAt_mapSlot]

/-- The far bodies of an idle slot, and of one the home has granted a record (R82, R83, R91). -/
theorem farBodiesStart : FarBodiesStart := by
  refine ⟨?_, fun s c q hr hfree hsteal hnone => ?_, fun s c q h e hr hfree hg hc hown hreel ⟨hm, _⟩ he hall h0 hh hon => ?_⟩
  · intro s c q e i hr hfree ⟨hm, _⟩ may hmay hall hcan
    obtain ⟨s2, -, htaken, ⟨-, -, -, -, hfr, -⟩, ht⟩ := takeAndStart_own (u := .stream q .exec) 1 hm hr hcan
    refine ⟨_, slotTakesWork_run hr hfree (freeRecord_eq_some hm hmay hall), ?_⟩
    obtain ⟨hstarted, hsp⟩ := startedWith_of_startRegs (threadAt_startGo_exec s2 c (newTask c e) (rcdFar e.rcd) _ _ _ q)
    have htop : frameTop (coreAt s2 c) q = frameTop (coreAt s c) q := by
      rw [frameTop, hfr]
      rfl
    rw [ht, slotAt_startGo]
    exact ⟨taken_congr htaken (home_startGo ..), hstarted, rfl, rfl, rfl, rfl, rfl, htop ▸ hsp⟩
  · exact ⟨_, _, stealRequest_run hr hfree hsteal (freeRecord_eq_none q hnone), rfl, rfl, rfl, rfl, rfl, rfl⟩
  · have hrun := steal_run hr hfree hg hc (freeRecord_eq_none q fun x hx => .inl (hown x hx).1)
      (ownFarRecord_eq_none fun x hx => (hown x hx).2) hreel hon (pick_youngest hm he hall)
    have hused : coreAt (grantUsed s c q) h = coreAt s h := coreAt_mapCore_ne _ _ hc
    have hlaunch : (coreAt (grantUsed s c q) c).launch = (coreAt s c).launch := by rw [grantUsed, coreAt_mapCore, mapSlot_launch]
    have hl : inLaunch (grantUsed s c q) c h = true :=
      (inLaunch_congr hlaunch (by rw [hused])).trans (Bool.and_eq_true_iff.1 hreel).1
    obtain ⟨t, m, ht, htaken, hst, hstarting, hnet, hsrc, hdst, hload⟩ := takeAndStart_away (q := q) (hused ▸ hm) hc h0 hh hl
    exact ⟨t, m, newTask h e, ht ▸ hrun, htaken, hst, hstarting, rfl, rfl, hnet, hsrc, hdst, hload⟩

/-! ### A promoted far body's buffers (R86, R88) -/

section
variable {s : State} {c : Coord} {z : Nat}

theorem inHome_writeBytes (s : State) (c : Coord) (a : Nat) (bs : List Byte) (w : Option (Coord × Nat)) (d : Coord) :
    inHome (coreAt (writeBytes s c a bs w) d) z = inHome (coreAt s d) z := by
  have hfold : ∀ (l : List Nat) (s : State), inHome (coreAt (l.foldl (fun s e => abortTask s c e) s) d) z = inHome (coreAt s d) z := by
    intro l
    induction l with
    | nil => exact fun _ => rfl
    | cons e r ih => exact fun s => (ih _).trans (inHome_abortTask s c e d z)
  exact (hfold _ _).trans (inHome_mapCore s c d (f := fun k => putBytes k a bs) fun _ => rfl)

/-- A write that aborts no task leaves the home's entries. -/
theorem home_writeBytes {a : Nat} {bs : List Byte} {w : Option (Coord × Nat)} (h : abortHits (coreAt s c) c a (a + bs.length) w = []) :
    (coreAt (writeBytes s c a bs w) c).home = (coreAt s c).home := by
  unfold writeBytes
  dsimp only
  rw [h, List.foldl_nil, coreAt_setCore]
  rfl

/-- What a byte is once bytes are written one after the other: the last that was written there, if any was. -/
theorem peek_foldl_writeBytes (w : Option (Coord × Nat)) (l : Memory)
    (h : (∀ e ∈ l, abortHits (coreAt s c) c e.1 (e.1 + 1) w = []) ∨ inHome (coreAt s c) z = false) :
    peek (coreAt (l.foldl (fun s e => writeBytes s c e.1 [e.2] w) s) c).mem z =
      ((l.reverse.find? fun e => e.1 == z).map (·.2)).getD (peek (coreAt s c).mem z) := by
  induction l generalizing s with
  | nil => rfl
  | cons e r ih =>
    have hfirst : abortHits (coreAt s c) c e.1 (e.1 + [e.2].length) w = [] ∨ inHome (coreAt s c) z = false :=
      h.imp_left fun h => h e (List.mem_cons_self ..)
    have hrest : (∀ x ∈ r, abortHits (coreAt (writeBytes s c e.1 [e.2] w) c) c x.1 (x.1 + 1) w = []) ∨
        inHome (coreAt (writeBytes s c e.1 [e.2] w) c) z = false := by
      rcases h with h | h
      · have hno : abortHits (coreAt s c) c e.1 (e.1 + [e.2].length) w = [] := h e (List.mem_cons_self ..)
        refine .inl fun x hx => ?_
        rw [abortHits, home_writeBytes hno]
        exact h x (List.mem_cons_of_mem _ hx)
      · exact .inr ((inHome_writeBytes ..).trans h)
    rw [List.foldl_cons, ih hrest, List.reverse_cons, List.find?_append, peek_writeBytes _ _ _ _ _ _ _ fun _ => hfirst]
    cases r.reverse.find? fun e => e.1 == z with
    | some x => rfl
    | none =>
      by_cases hz : e.1 = z
      · simp [hz]
      · have hout : ¬(c = c ∧ e.1 ≤ z ∧ z < e.1 + [e.2].length) := fun h => hz (by simp at h; omega)
        rw [if_neg hout]
        simp [hz]

end

section
variable {s : State} {c : Coord} {q : Fin 4} {tk : Task}

/-- The slot's task with other buffers. -/
def withTask (s : State) (c : Coord) (q : Fin 4) (f : Task → Task) : State :=
  mapCore s c fun k => mapSlot k q fun x => { x with task := x.task.map f }

theorem mem_withTask (s : State) (c : Coord) (q : Fin 4) (f : Task → Task) (d : Coord) : (coreAt (withTask s c q f) d).mem = (coreAt s d).mem :=
  mem_mapCore s c d fun _ => rfl

theorem slotAt_withTask (s : State) (c : Coord) (q : Fin 4) (f : Task → Task) : slotAt (coreAt (withTask s c q f) c) q =
    { slotAt (coreAt s c) q with task := (slotAt (coreAt s c) q).task.map f } := by
  rw [withTask, coreAt_mapCore, slotAt_mapSlot]

theorem threadAt_withTask (s : State) (c : Coord) (q : Fin 4) (f : Task → Task) (u : UnitId) :
    threadAt (coreAt (withTask s c q f) c) u = threadAt (coreAt s c) u := by
  rw [withTask, coreAt_mapCore, threadAt_mapSlot]

theorem bufferDrain_anchor (ht : (slotAt (coreAt s c) q).task = some tk) (hspec : speculative s tk = false) (ha : tk.abuf ≠ [])
    (hd : anchorDrains s c q tk = true) :
    exec (.bufferDrain c q) s = .next (withTask (applyAnchor s tk) c q fun t => { t with abuf := [] }) := by
  have hne : (!tk.abuf.isEmpty) = true := by simpa using ha
  rw [exec_bufferDrain, execBufferDrain, event_run]
  simp only [ht, hspec, hne, hd, if_true, Bool.false_eq_true, if_false]
  rfl

theorem bufferDrain_entry {e : Outgoing} {r : List Outgoing} {s1 : State} (ht : (slotAt (coreAt s c) q).task = some tk)
    (hspec : speculative s tk = false) (ha : tk.abuf = []) (ho : tk.obuf = e :: r) (he : drainEntry s c q tk e = some s1) :
    exec (.bufferDrain c q) s = .next (withTask s1 c q fun t => { t with obuf := t.obuf.drop 1 }) := by
  rw [exec_bufferDrain, execBufferDrain, event_run]
  simp only [ht, hspec, ha, ho, he, List.isEmpty_nil, Bool.not_true, Bool.false_eq_true, if_false]
  rfl

theorem anchorDrains_of (hon : (coreAt s tk.home).power = .on) (hscore : ∀ e ∈ tk.abuf, scoreRW (coreAt s tk.home) e.1 (e.1 + 1) = false)
    (hview : ∀ x : Side, ∀ p ∈ (threadAt (coreAt s c) (.stream q x)).pend, isView p.req = true → p.ans ≠ none) :
    anchorDrains s c q tk = true := by
  have hany : (tk.abuf.any fun e => scoreRW (coreAt s tk.home) e.1 (e.1 + 1)) = false :=
    List.any_eq_false.2 fun e he => by simp [hscore e he]
  have hopen : ∀ x, ((threadAt (coreAt s c) (.stream q x)).pend.any fun p => isView p.req && p.ans.isNone) = false := fun x =>
    List.any_eq_false.2 fun p hp => by
      cases hv : isView p.req with
      | false => simp
      | true => simp [hview x p hp hv]
  unfold anchorDrains
  simp only [hon, hany, hopen]
  rfl

/-- A word that a buffer held has gone to its port's send buffer. -/
def sentAt (s : State) (c : Coord) (q p : Fin 4) (x : Side) (v : Word) : State :=
  { mapCore s c (fun k => mapSlot k q (sending p (x, s.nextId, v))) with nextId := s.nextId + 1 }

theorem slotAt_sentAt (s : State) (c : Coord) (q p : Fin 4) (x : Side) (v : Word) :
    slotAt (coreAt (sentAt s c q p x v) c) q = sending p (x, s.nextId, v) (slotAt (coreAt s c) q) := by
  show slotAt (coreAt (mapCore s c fun k => mapSlot k q (sending p (x, s.nextId, v))) c) q = _
  rw [coreAt_mapCore, slotAt_mapSlot]

theorem drainEntry_port {x : Side} {p : Fin 4} {v : Word} (h : (slotAt (coreAt s c) q).ports[p].send.length < 8) :
    drainEntry s c q tk (.port x p v) = some (sentAt s c q p x v) := by
  unfold drainEntry
  exact if_neg (by omega)

theorem drainEntry_gst {x : Side} {pc a : Word} {bs : List Byte} (hst : (threadAt (coreAt s c) (.stream q x)).st < 63)
    (hp : (slotAt (coreAt s c) q).posted.length < 16) : drainEntry s c q tk (.gst x pc a bs) =
      some (sendGlobal (postedAdd s c q x pc .global a).1 (postedAdd s c q x pc .global a).2 a (.store bs)) := by
  have hroom : decide (63 ≤ (threadAt (coreAt s c) (.stream q x)).st ∨ Config.postedEntries ≤ (slotAt (coreAt s c) q).posted.length) = false :=
    decide_eq_false (by rw [Config.postedEntries]; omega)
  unfold drainEntry
  exact if_neg (Bool.eq_false_iff.1 hroom)

theorem st_postedAdd (s : State) (c : Coord) (q : Fin 4) (x : Side) (pc : Word) (sc : Scope) (a : Word) :
    (threadAt (coreAt (postedAdd s c q x pc sc a).1 c) (.stream q x)).st = (threadAt (coreAt s c) (.stream q x)).st + 1 := by
  unfold postedAdd
  rw [coreAt_mapCore, threadAt_mapThread, threadAt_mapSlot]

theorem length_posted_postedAdd (s : State) (c : Coord) (q : Fin 4) (x : Side) (pc : Word) (sc : Scope) (a : Word) :
    (slotAt (coreAt (postedAdd s c q x pc sc a).1 c) q).posted.length = (slotAt (coreAt s c) q).posted.length + 1 := by
  unfold postedAdd
  rw [coreAt_mapCore, slotAt_mapThread, slotAt_mapSlot]
  simp

theorem coreAt_sendGlobal (s : State) (o : Origin) (a : Word) (k : GKind) (d : Coord) : coreAt (sendGlobal s o a k) d = coreAt s d := rfl

end

/-- A promoted body's anchor buffer at its home, and then the outgoing entries in order (R86, R88). -/
theorem buffersDrain : BuffersDrain := by
  refine fun s c q tk ht hspec => ⟨fun ha hon hscore hview => ?_, fun x p v r ha ho hroom => ?_, fun x pc a bs r ha ho hst hposted => ?_⟩
  · refine ⟨_, bufferDrain_anchor ht hspec ha (anchorDrains_of hon hscore hview), fun z hz => ?_⟩
    rw [mem_withTask, applyAnchor, peek_foldl_writeBytes _ _ hz]
    cases tk.abuf.reverse.find? fun e => e.1 == z <;> rfl
  · refine ⟨_, bufferDrain_entry ht hspec ha ho (drainEntry_port hroom), ?_, ?_⟩
    · rw [slotAt_withTask, slotAt_sentAt]
      simp [sending]
    · rw [slotAt_withTask, slotAt_sentAt]
      simp [sending, ht, ho]
  · refine ⟨_, _, bufferDrain_entry ht hspec ha ho (drainEntry_gst hst hposted), rfl, rfl, rfl, ?_, ?_⟩
    · rw [threadAt_withTask, coreAt_sendGlobal, st_postedAdd]
    · rw [slotAt_withTask, coreAt_sendGlobal]
      exact length_posted_postedAdd ..

/-- Settles O31: a record that comes first in the order of its home is the one that is picked (pick_oldest, pick_youngest), its mark
changes nothing that its body reads, and BodyStart sets the registers one after the other. -/
theorem bodies : Obligations.Bodies := ⟨nearBodiesStart, farBodiesStart, buffersDrain⟩

end Sys2Proof.Machine

namespace Sys2Proof.Machine
open Sys2Proof.Claim

/-! # The machine after reset (O58) -/

theorem coreAt_reset (c : Coord) : coreAt State.reset c = Core.reset := rfl

theorem threadAt_reset (u : UnitId) : threadAt Core.reset u = Thread.reset := by simp [threadAt, Core.reset]

theorem slotAt_reset (i : Fin 4) : slotAt Core.reset i = Slot.reset := by simp [slotAt, Core.reset]

theorem chanAt_reset (i : Fin 4) : chanAt Core.reset i = Chan.reset := by simp [chanAt, Core.reset]

/-- Nothing is listed, so nothing is out of form. -/
theorem canonical_reset : Canonical State.reset :=
  ⟨fun _ h => absurd h List.not_mem_nil, rfl, rfl, fun _ h => absurd h List.not_mem_nil⟩

/-- Settles O58: every core, slot, stream and channel is the reset one. -/
theorem resetValues : Obligations.ResetValues := by
  unfold Obligations.ResetValues
  refine ⟨canonical_reset, rfl, rfl, rfl, rfl, rfl, rfl, fun c => ?_⟩
  rw [coreAt_reset]
  refine ⟨fun _ => rfl, fun _ => rfl, rfl, rfl, rfl, rfl, rfl, rfl, rfl, rfl, rfl, fun i => ?_, fun u => ?_, fun ch => ?_⟩
  · rw [slotAt_reset]
    exact ⟨rfl, rfl, rfl, rfl, rfl, rfl, rfl, rfl, rfl, rfl, rfl, fun p => by simp [Slot.reset, Port.reset]⟩
  · rw [threadAt_reset]
    exact ⟨rfl, regVal_zero _, rfl, rfl, rfl, rfl, rfl⟩
  · rw [chanAt_reset]
    rfl

end Sys2Proof.Machine

namespace Sys2Proof.Machine
open Sys2Proof.Claim

/-! # Control and status registers: reads, and the numbers that trap (O42)

### The table of R124 and the model's reading of it -/

/-- The table and the model name the registers that the access stream lacks alike. -/
theorem csrHere_eq (s : State) (n : Nat) : csrHere s.cur.unit n = csrThere s n := by
  unfold csrHere csrThere isAcc
  congr 2
  simp only [List.mem_cons, List.not_mem_nil, or_false, decide_eq_decide]
  omega

theorem accBit_eq (u : UnitId) : (if isAcc u = true then 4 else 0) = if unitSide u = .acc then 4 else 0 := by simp [isAcc]

/-- Each number of the table reads its value. -/
theorem csrRead_csrMap (s : State) : ∀ r ∈ csrMap s, csrRead s r.1 = some r.2.2 := by
  simp only [csrMap, ← BitVec.ofNat_toNat, ← accBit_eq, List.forall_mem_cons, List.not_mem_nil, false_implies, implies_true, and_true]
  and_intros <;> rfl

/-- The model asks for the privilege of the table. -/
theorem csrReadPriv_csrMap (s : State) : ∀ r ∈ csrMap s, csrReadPriv r.1 = r.2.1 := List.map_inj_left.1 rfl

/-- A number that the table does not list has no value, and no privilege is asked for it. -/
theorem csrRead_absent {s : State} {n : Nat} (h : ∀ r ∈ csrMap s, r.1 ≠ n) :
    csrRead s n = none ∧ csrReadPriv n = false ∧ csrThere s n = true := by
  simp only [csrMap, List.forall_mem_cons] at h
  refine ⟨?_, decide_eq_false (by omega), ?_⟩
  · unfold csrRead
    dsimp only
    repeat rw [if_neg (by omega)]
  · have hv : n ∉ [0x030, 0x031, 0x032] := by
      simp only [List.mem_cons, List.not_mem_nil, or_false]
      omega
    rw [csrThere, decide_eq_false hv, Bool.and_false]
    rfl

/-- A register whose fields are all RO is written in S mode, to no effect but a trap. -/
theorem csrRo_readOnly (s : State) : ∀ n ∈ [0x000, 0x001, 0x002, 0x003, 0x030, 0x031, 0x032, 0x040, 0x052, 0x080, 0x081, 0x082, 0x083,
    0x090, 0x0A0, 0x0A1, 0x0A2, 0x0A3, 0x0B0], csrRo n = true ∧ csrWritePriv s n = true := by
  simp only [List.forall_mem_cons, List.not_mem_nil, false_implies, implies_true, and_true]
  and_intros <;> rfl

/-! ### SRD and SWR -/

/-- A register that the unit has adds nothing to the checks. -/
theorem passes_here {un : Units} {p : Bool} {us : List Use} {s : State} (h : Passes un p us s) : Passes un p (.here true :: us) s := h

/-- SRD by the statement's words for what the stream has. -/
theorem exec_srd (a : GReg) (n : BitVec 15) (s : State) : exec (.srd a n) s =
    instr uEA (csrReadPriv n.toNat) [.here (csrThere s n.toNat), .wr a] (do
      match csrRead (← get) n.toNat with
      | some v => writeResult a v
      | none => trapD 0x002 5
      return .seq) s := by
  rw [← csrHere_eq]
  rfl

theorem exec_swr (b : GReg) (n : BitVec 15) (s : State) : exec (.swr b n) s =
    instr uEA (csrWritePriv s n.toNat) [.here (csrThere s n.toNat), .rd b] (do
      guardD ((csrRead s n.toNat).isSome && !csrRo n.toNat) 0x002 5
      csrWrite n.toNat (← readG b)
      return .seq) s := by
  rw [← csrHere_eq]
  rfl

theorem srd_run {a : GReg} {n : BitVec 15} {v : Word} {s s1 : State} (hv : csrRead s n.toNat = some v)
    (hp : Passes uEA (csrReadPriv n.toNat) [.here (csrThere s n.toNat), .wr a] s) (hw : writeResult a v s = .ok ((), s1)) :
    exec (.srd a n) s = .next (goes s s1) := by
  rw [exec_srd]
  refine instr_ok hp ?_
  rw [bind_run (get_run s), hv]
  exact bind_run hw

theorem srd_absent {a : GReg} {n : BitVec 15} {s : State} (hv : csrRead s n.toNat = none)
    (hp : Passes uEA (csrReadPriv n.toNat) [.here (csrThere s n.toNat), .wr a] s) :
    exec (.srd a n) s = .next (onStop s (.trap (why 0x002 5) (baseAddr s) none)) := by
  rw [exec_srd]
  refine instr_stop (e := .trap (why 0x002 5) (baseAddr s) none) hp ?_
  rw [bind_run (get_run s), hv]
  rfl

/-- SWR of a number that is absent or RO reads no operand. -/
theorem swr_refused {b : GReg} {n : BitVec 15} {s : State} (hv : ((csrRead s n.toNat).isSome && !csrRo n.toNat) = false)
    (hp : Passes uEA (csrWritePriv s n.toNat) [.here (csrThere s n.toNat), .rd b] s) :
    exec (.swr b n) s = .next (onStop s (.trap (why 0x002 5) (baseAddr s) none)) := by
  rw [exec_swr]
  refine instr_stop (e := .trap (why 0x002 5) (baseAddr s) none) hp ?_
  rw [hv]
  rfl

/-- Settles O42: the model reads and refuses by the table of R124. -/
theorem csrReads : Obligations.CsrReads := by
  unfold Obligations.CsrReads
  refine ⟨fun a n p v s s1 hm hp hw => ?_, fun a b n s h => ?_, fun b n s h hp => ?_⟩
  · have hpriv : csrReadPriv n.toNat = p := csrReadPriv_csrMap s _ hm
    exact srd_run (csrRead_csrMap s _ hm) (by rwa [hpriv]) hw
  · obtain ⟨hv, hpriv, ht⟩ := csrRead_absent h
    have hw : csrWritePriv s n.toNat = false := by rw [csrWritePriv, hv]; rfl
    refine ⟨fun hp => srd_absent hv ?_, fun hp => swr_refused (by rw [hv]; rfl) ?_⟩
    · rw [hpriv, ht]
      exact passes_here hp
    · rw [hw, ht]
      exact passes_here hp
  · obtain ⟨hro, hw⟩ := csrRo_readOnly s _ h
    exact swr_refused (by rw [hro]; exact Bool.and_false _) (by rwa [hw])

end Sys2Proof.Machine

namespace Sys2Proof.Machine
open Sys2Proof.Claim

/-! # The checks of a local access and their traps (O7)

### Near addresses (R110, R292) -/

theorem clidx_lt (c : Coord) : clidx c < 16 := by unfold clidx; omega

/-- What a near address resolves to, by the map of near memory (R110, R292). -/
theorem resolveNear_none (c : Coord) (ibex : Bool) (A : Word) : resolveNear c ibex A = .none ↔
    0x200000 ≤ A.toNat ∧ (ibex = true ∨ A.toNat < 0x40000000 ∨ 0x42000000 ≤ A.toNat) := by
  unfold resolveNear
  dsimp only
  split
  · simp; omega
  · split
    · next h => simp [h]; omega
    · next hi =>
      split
      · split <;> simp [hi] <;> omega
      · simp [hi]; omega

/-- Own memory by its near address, below 2 MiB. -/
theorem resolveNear_low {c : Coord} {ibex : Bool} {A : Word} (h : A.toNat < 0x200000) : resolveNear c ibex A = .own A.toNat true := if_pos h

/-- Own memory in the core's part of the cluster window. -/
theorem resolveNear_window {c : Coord} {A : Word} {y : Nat} (hy : y < 0x200000) (h : A.toNat = 0x40000000 + clidx c * 0x200000 + y) :
    resolveNear c false A = .own y false := by
  have hc := clidx_lt c
  have hj : (A.toNat - 0x40000000) / 0x200000 = clidx c := by omega
  have hx : (A.toNat - 0x40000000) % 0x200000 = y := by omega
  unfold resolveNear
  dsimp only
  rw [if_neg (by omega), if_neg Bool.false_ne_true, if_pos (by omega), hj, if_pos rfl, hx]

/-! ### The checks in their order (R116) -/

/-- An access inside one page is checked at that page. -/
theorem rangeCheck_page (f : Nat → Option Why) {y n : Nat} (hn : n ∈ [1, 2, 4, 8]) (hy : y % n = 0) :
    rangeCheck f y (y + n) = (f (y / 4096)).map fun w => (w, max y (4096 * (y / 4096))) := by
  have h : 0 < n ∧ (y + n - 1) / 4096 = y / 4096 := by
    simp only [List.mem_cons, List.not_mem_nil, or_false] at hn
    rcases hn with rfl | rfl | rfl | rfl <;> omega
  obtain ⟨h0, hp⟩ := h
  unfold rangeCheck pagesOf
  rw [if_neg (by omega), hp, Nat.sub_self]
  simp [stepsFrom]

/-- The checks of an access to own memory: alignment, then the page (R116). -/
theorem reach_own {s : State} {A : Word} {n y : Nat} (acc : Acc) (h : OwnPlace s A n y) : reach s A n acc =
    if y % n != 0 then .error (why 0x065 0)
    else match rangeCheck (pageLocal (here s) (userMode s) acc) y (y + n) with
      | some (w, _) => .error w
      | none => .ok (.own y) := by
  rcases h with ⟨hA, rfl, hv⟩ | ⟨hi, hy, hA⟩
  · unfold reach
    rw [resolveNear_low hA]
    dsimp only
    rw [hv]
    rfl
  · unfold reach
    rw [hi, resolveNear_window hy hA]
    rfl

theorem reachM_of_error {s : State} {A : Word} {n : Nat} {acc : Acc} {w : Why} (h : reach s A n acc = .error w) :
    reachM A n acc s = .error (.trap w A none) := by
  unfold reachM
  rw [h]

theorem reachM_misaligned {s : State} {A : Word} {n y : Nat} (acc : Acc) (h : OwnPlace s A n y) (hy : y % n ≠ 0) :
    reachM A n acc s = .error (.trap (why 0x065 0) A none) :=
  reachM_of_error <| by rw [reach_own acc h, if_pos (by simpa using hy)]

/-- An aligned access traps with the cause that its page gives. -/
theorem reachM_refused {s : State} {A : Word} {n y : Nat} {acc : Acc} {w : Why} (hn : n ∈ [1, 2, 4, 8]) (h : OwnPlace s A n y)
    (hy : y % n = 0) (hw : pageLocal (here s) (userMode s) acc (y / 4096) = some w) : reachM A n acc s = .error (.trap w A none) :=
  reachM_of_error <| by rw [reach_own acc h, if_neg (by simpa using hy), rangeCheck_page _ hn hy, hw]; rfl

/-- The page check finds SUP, or the home-queue region in U mode, first. -/
theorem pageLocal_user {s : State} {x : Nat} (acc : Acc) (hm : userMode s = true) (h : ¬userPage s x) :
    pageLocal (here s) (userMode s) acc (x / 4096) = some (why 0x066 0) := by
  unfold userPage at h
  unfold pageLocal
  dsimp only
  rw [not_and_or, Bool.not_eq_false, Bool.not_eq_false] at h
  rw [hm, Bool.true_and, if_pos ((Bool.or_eq_true ..).mpr h)]

theorem pageLocal_open {s : State} {x : Nat} (acc : Acc) (h : userMode s = true → userPage s x) :
    pageLocal (here s) (userMode s) acc (x / 4096) = if acc.r && !(attrOf (here s) (x / 4096)).getLsbD 0 then some (why 0x061 0)
      else if acc.w && !(attrOf (here s) (x / 4096)).getLsbD 1 then some (why 0x062 0) else none := by
  unfold pageLocal
  dsimp only
  rw [if_neg]
  cases hm : userMode s with
  | false => simp
  | true =>
    obtain ⟨hs, hh⟩ := h hm
    rw [hs, hh]
    decide

/-- The part of O7 on the checks. -/
theorem nearAccessTraps : Claim.NearAccessTraps := by
  intro s A n acc hn ha
  refine ⟨resolveNear_none _ _ _, fun h => reachM_of_error (by rw [reach, h]), fun y hy => ⟨reachM_misaligned acc hy, fun h0 hm hu => ?_,
    fun h0 hu => ⟨?_, ?_⟩⟩⟩
  · exact reachM_refused hn hy h0 (pageLocal_user acc hm hu)
  · rintro rfl hr
    refine reachM_refused hn hy h0 ?_
    rw [pageLocal_open aRead hu, hr]
    rfl
  · rintro rfl hw
    refine reachM_refused hn hy h0 ?_
    rw [pageLocal_open aWrite hu, hw]
    rfl

/-! ### Loads and stores that a check refuses (R133, R273) -/

theorem exec_load {i : Instr} {a b : GReg} {d : Word} {n : Nat} {sg : Bool} (h : loadTable i = some (a, b, d, n, sg)) (s : State) :
    exec i s = instr uEAN false [.rd b, .wr a] (loadOp a b d n sg) s := by
  cases i <;> cases h <;> rfl

theorem exec_store {i : Instr} {a b : GReg} {d : Word} {n : Nat} (h : storeTable i = some (a, b, d, n)) (s : State) :
    exec i s = instr uEAN false [.rd b, .rd a] (storeOp a b d n) s := by
  cases i <;> cases h <;> rfl

theorem nearAddr_run {b : GReg} {s s1 : State} {x : Word} (d : Word) (n : Nat) (h : readG b s = .ok (x, s1)) :
    nearAddr b d n s = .ok (x + d * BitVec.ofNat 64 n, s1) := by
  unfold nearAddr
  rw [bind_run h]
  rfl

theorem bind_stop {α β : Type} {x : M α} {f : α → M β} {s : State} {e : Stop} (h : x s = .error e) : (x >>= f) s = .error e :=
  (bind_error ..).2 (.inl h)

theorem loadNear_refused {s : State} {A : Word} {n : Nat} {e : Stop} (h : reachM A n aRead s = .error e) : loadNear A n s = .error e := by
  unfold loadNear
  rw [bind_run (get_run s)]
  exact bind_stop h

theorem storeNear_refused {s : State} {A : Word} {n v : Nat} {e : Stop} (h : reachM A n aWrite s = .error e) :
    storeNear A n v s = .error e := by
  unfold storeNear
  rw [bind_run (get_run s)]
  exact bind_stop h

/-- The part of O7 on the instructions. -/
theorem loadStoreTraps : Claim.LoadStoreTraps := by
  refine ⟨fun i a b d n sg hi s s1 x w A hp hb hr => ?_, fun i a b d n hi s s1 s2 x v w A hp hb ha hr => ?_⟩
  · rw [exec_load hi]
    refine instr_stop (e := .trap w A none) hp ?_
    unfold loadOp
    rw [bind_run (nearAddr_run d n hb)]
    exact bind_stop (loadNear_refused hr)
  · rw [exec_store hi]
    refine instr_stop (e := .trap w A none) hp ?_
    unfold storeOp storeBy
    rw [bind_run (nearAddr_run d n hb), bind_run ha]
    exact bind_stop (storeNear_refused hr)

/-- Settles O7: the checks of an access to own memory are those of reach_own in their order, and a load or store that they refuse has
done nothing but read its operands. -/
theorem localAccessTraps : Obligations.LocalAccessTraps := ⟨nearAccessTraps, loadStoreTraps⟩

end Sys2Proof.Machine

namespace Sys2Proof.Machine
open Sys2Proof.Claim

/-! # Control and status registers: writes (O43)

### What operands leave of the core (R40) -/

/-- What reading and writing operands leaves: the moving unit, the core but for its threads, slots and mailbox, the stores that wait, and
the frames of each slot. -/
def OperandFrame (s t : State) : Prop :=
  t.cur = s.cur ∧ CoreKept s t ∧ (∀ u, (threadAt (here t) u).sbuf = (threadAt (here s) u).sbuf) ∧
    ∀ q, (slotAt (here t) q).depth = (slotAt (here s) q).depth

theorem operandFrame_refl (s : State) : OperandFrame s s := ⟨rfl, rfl, fun _ => rfl, fun _ => rfl⟩

theorem operandFrame_trans {s t u : State} (h : OperandFrame s t) (h' : OperandFrame t u) : OperandFrame s u := by
  obtain ⟨hc, hk, hb, hd⟩ := h
  obtain ⟨hc', hk', hb', hd'⟩ := h'
  refine ⟨hc'.trans hc, ?_, fun v => (hb' v).trans (hb v), fun q => (hd' q).trans (hd q)⟩
  unfold CoreKept at hk hk' ⊢
  conv_rhs => rw [← hk, ← hk']

theorem operandFrame_mapCore {s : State} {f : Core → Core} {c : Coord} (hc : c = s.cur.core)
    (hk : ∀ k : Core, { f k with threads := k.threads, slots := k.slots, mb := k.mb, mbHead := k.mbHead } = k)
    (hb : ∀ k u, (threadAt (f k) u).sbuf = (threadAt k u).sbuf) (hd : ∀ k q, (slotAt (f k) q).depth = (slotAt k q).depth) :
    OperandFrame s (mapCore s c f) := by
  subst hc
  refine ⟨rfl, ?_, fun u => ?_, fun q => ?_⟩
  · rw [CoreKept, here_mapCore, hk]
  · rw [here_mapCore, hb]
  · rw [here_mapCore, hd]

theorem operandFrame_mapThread {s : State} {f : Thread → Thread} (hf : ∀ t, (f t).sbuf = t.sbuf) :
    OperandFrame s (mapCore s s.cur.core fun k => mapThread k s.cur.unit f) :=
  operandFrame_mapCore rfl (fun _ => rfl) (fun k => sbuf_mapThread k _ hf) fun _ _ => rfl

theorem operandFrame_changeSlot (s : State) {f : Slot → Slot} (hf : ∀ x, (f x).depth = x.depth) : OperandFrame s (changeSlot s f) := by
  unfold changeSlot
  split
  · next i _ =>
    refine operandFrame_mapCore rfl (fun _ => rfl) (fun _ _ => rfl) fun k q => ?_
    by_cases h : q = i
    · rw [h, slotAt_mapSlot, hf]
    · rw [slotAt_mapSlot_ne _ _ h]
  · exact operandFrame_refl s

theorem operandFrame_forgetEarly (s : State) : OperandFrame s (forgetEarly s) := by
  unfold forgetEarly
  split
  · exact operandFrame_refl s
  · exact operandFrame_mapThread fun _ => rfl

/-- All that a pop does: what was read ahead is forgotten, and a word leaves a queue or port of the slot, or the mailbox. -/
theorem popQ_ok {c : Nat} {s t : State} {v : Word} (hc : 2 ≤ c) (h : popQ c s = .ok (v, t)) :
    (∃ f : Slot → Slot, (∀ x, (f x).depth = x.depth) ∧ t = changeSlot (forgetEarly s) f) ∨
      t = mapCore (forgetEarly s) (forgetEarly s).cur.core mbPop := by
  rcases (by omega : c = 2 ∨ c = 3 ∨ c = 4 ∨ c = 5 ∨ c = 6 ∨ 7 ≤ c) with rfl | rfl | rfl | rfl | rfl | h7
  · rw [popQ_lq] at h
    split at h <;> cases h
    exact .inl ⟨_, by exact fun _ => rfl, rfl⟩
  · rw [popQ_sq] at h
    split at h <;> cases h
    exact .inl ⟨_, by exact fun _ => rfl, rfl⟩
  · rw [popQ_bo] at h
    split at h <;> cases h
    exact .inl ⟨_, by exact fun _ => rfl, rfl⟩
  · rw [popQ_rt] at h
    split at h <;> cases h
    exact .inl ⟨_, by exact fun _ => rfl, rfl⟩
  · rw [popQ_mb, ← forgetEarly_cur s] at h
    split at h
    · cases h
    · split at h <;> cases h
      exact .inr rfl
  · rw [popQ_port h7] at h
    split at h
    · cases h
    · split at h <;> cases h
      exact .inl ⟨_, by exact fun _ => rfl, rfl⟩

/-- Reading an operand changes nothing, or pops a word. -/
theorem readG_cases {b : GReg} {s t : State} {v : Word} (h : readG b s = .ok (v, t)) : t = s ∨ ∃ c, 2 ≤ c ∧ popQ c s = .ok (v, t) := by
  cases b with
  | g n =>
    cases hl : locked (threadOf s) n with
    | true => cases (readReg_locked hl).symm.trans h
    | false =>
      cases (readReg_ok hl).symm.trans h
      exact .inl rfl
  | sp c =>
    unfold readG at h
    dsimp only at h
    rw [bind_run (getThread_run s)] at h
    split at h
    · cases h; exact .inl rfl
    next h0 =>
      split at h
      · cases h; exact .inl rfl
      next h1 =>
        split at h
        · cases h; exact .inl rfl
        · exact .inr ⟨_, by bv_omega, h⟩

/-- Reading a general register keeps the operands and leaves all but what a pop takes. -/
theorem readG_kept {b : GReg} {s t : State} {v : Word} (h : readG b s = .ok (v, t)) : OperandKept s t ∧ OperandFrame s t := by
  rcases readG_cases h with rfl | ⟨c, hc, hp⟩
  · exact ⟨operandKept_refl _, operandFrame_refl _⟩
  · rcases popQ_ok hc hp with ⟨f, hf, rfl⟩ | rfl
    · exact ⟨operandKept_trans (operandKept_forgetEarly s) (operandKept_changeSlot _ f),
        operandFrame_trans (operandFrame_forgetEarly s) (operandFrame_changeSlot _ hf)⟩
    · exact ⟨operandKept_trans (operandKept_forgetEarly s)
          (operandKept_mapCore rfl (fun _ _ => rfl) ⟨rfl, rfl, rfl, rfl, rfl, rfl, rfl, rfl⟩),
        operandFrame_trans (operandFrame_forgetEarly s) (operandFrame_mapCore rfl (fun _ => rfl) (fun _ _ => rfl) fun _ _ => rfl)⟩

section
variable {s t : State} (v : Word)

theorem stallOr_frame {b : Bool} {f : Slot → Slot}
    (h : (if b then .error (.stall false) else .ok ((), changeSlot s f) : Except Stop (Unit × State)) = .ok ((), t))
    (hf : ∀ x, (f x).depth = x.depth) : OperandFrame s t := by
  split at h <;> cases h
  exact operandFrame_changeSlot s hf

theorem hold_frame {o : Outgoing} (h : hold o s = .ok ((), t)) : OperandFrame s t := by
  cases hk : (slotOf s).task with
  | none =>
    unfold hold at h
    rw [bind_run (getSlot_run s), hk] at h
    cases h
    exact operandFrame_refl s
  | some k => exact stallOr_frame ((hold_run o hk).symm.trans h) (by exact fun _ => rfl)

theorem pushPort_frame {p : Fin 4} (h : pushPort p v s = .ok ((), t)) : OperandFrame s t := by
  cases hb : (slotOf s).ports[p].cfg.getLsbD 31 with
  | false => cases (pushPort_unbound v hb).symm.trans h
  | true =>
    cases hs : isSpec s with
    | true => exact hold_frame (pushPort_spec v hb hs ▸ h)
    | false =>
      rw [pushPort_run v hb hs] at h
      split at h <;> cases h
      exact operandFrame_changeSlot s (f := sending p _) fun _ => rfl

theorem pushQ_frame {c : Nat} (h : pushQ c v s = .ok ((), t)) : OperandFrame s t := by
  by_cases hb : (threadOf s).sbuf = []
  · by_cases hq : c ∈ [2, 3, 4, 5]
    · simp only [List.mem_cons, List.not_mem_nil, or_false] at hq
      rcases hq with rfl | rfl | rfl | rfl
      · exact stallOr_frame ((pushQ_lq v hb).symm.trans h) (by exact fun _ => rfl)
      · exact stallOr_frame ((pushQ_sq v hb).symm.trans h) (by exact fun _ => rfl)
      · exact stallOr_frame ((pushQ_bo v hb).symm.trans h) (by exact fun _ => rfl)
      · exact stallOr_frame ((pushQ_rt v hb).symm.trans h) (by exact fun _ => rfl)
    · by_cases hp : 8 ≤ c ∧ c ≤ 11
      · exact pushPort_frame v (pushQ_port v hb hp.1 hp.2 ▸ h)
      · obtain ⟨e, he⟩ := pushQ_other (s := s) v hq hp
        cases he.symm.trans h
  · cases (pushQ_waiting v c hb).symm.trans h

theorem sbuf_regSet (t : Thread) (n : BitVec 5) (v : Word) : (regSet t n v).sbuf = t.sbuf := by
  unfold regSet
  split <;> rfl

theorem writeG_frame {a : GReg} (h : writeG a v s = .ok ((), t)) : OperandFrame s t := by
  cases a with
  | g n =>
    cases hl : locked (threadOf s) n with
    | true => cases (writeReg_locked hl).symm.trans h
    | false =>
      cases (writeReg_ok hl).symm.trans h
      exact operandFrame_mapThread fun t => sbuf_regSet t n v
  | sp c => exact pushQ_frame v h

/-- A result written: what it leaves, and that it is in l0 (R43). -/
theorem writeResult_frame {a : GReg} (h : writeResult a v s = .ok ((), t)) : OperandFrame s t ∧ (threadOf t).l0 = v := by
  obtain ⟨⟨⟩, s1, hw, h1⟩ := (bind_ok ..).1 h
  cases h1
  exact ⟨operandFrame_trans (writeG_frame v hw) (operandFrame_mapThread fun _ => rfl), by rw [threadOf_modThread]⟩
end

/-! ### What writes them (R125, R278) -/

/-- The registers that have a writable field, and whether only S mode writes them. -/
def writableCsrs : List (Nat × Bool) :=
  [(0x010, true), (0x011, true), (0x012, true), (0x013, true), (0x014, true), (0x015, true), (0x016, true), (0x017, true), (0x018, true),
   (0x020, false), (0x021, false), (0x022, true), (0x041, true), (0x050, true), (0x051, false), (0x060, true), (0x061, true),
   (0x062, true), (0x070, true)]

/-- The model takes the writes of these under the privilege of the table. -/
theorem csrWritePriv_writable (s : State) : ∀ r ∈ writableCsrs,
    ((csrRead s r.1).isSome && !csrRo r.1) = true ∧ csrWritePriv s r.1 = r.2 := by
  simp only [writableCsrs, List.forall_mem_cons, List.not_mem_nil, false_implies, implies_true, and_true]
  and_intros <;> rfl

/-- SWR, and each write event, is the write of its CSR once its operand is read. -/
theorem exec_writes {i : Instr} {n : Nat} {p : Bool} {v : Word} {s s1 : State} (hn : (n, p) ∈ writableCsrs) (h : Writes i n p v s s1) :
    ∃ us body, Passes uEA p us s ∧ exec i s = instr uEA p us body s ∧
      body s = (do csrWrite n v; return Next.seq : M Next) s1 := by
  rcases h with ⟨b, m, rfl, rfl, hp, hb⟩ | ⟨rfl, hp, h⟩
  · obtain ⟨hw, hpriv⟩ := csrWritePriv_writable s _ hn
    refine ⟨_, _, hp, (exec_swr b m s).trans (by rw [hpriv]), ?_⟩
    rw [hw]
    exact (bind_run (guardD_run ..)).trans (bind_run hb)
  · rcases h with ⟨rfl, rfl⟩ | ⟨rfl, rfl⟩ | ⟨rfl, rfl⟩ | ⟨rfl, rfl⟩ | ⟨rfl, rfl⟩ | ⟨rfl, rfl⟩ | ⟨rfl, rfl⟩ | ⟨rfl, rfl⟩
    all_goals
      simp [writableCsrs] at hn
      subst hn
      exact ⟨_, _, hp, rfl, rfl⟩

theorem writes_run {i : Instr} {n : Nat} {p : Bool} {v : Word} {s s1 t : State} (hn : (n, p) ∈ writableCsrs) (h : Writes i n p v s s1)
    (hw : csrWrite n v s1 = .ok ((), t)) : exec i s = .next (goes s t) := by
  obtain ⟨us, body, hp, he, hb⟩ := exec_writes hn h
  rw [he]
  exact instr_ok hp (hb.trans (bind_run hw))

theorem writes_trap {i : Instr} {n : Nat} {p : Bool} {v : Word} {s s1 : State} {w : Why} {a : Word} (hn : (n, p) ∈ writableCsrs)
    (h : Writes i n p v s s1) (hw : csrWrite n v s1 = .error (.trap w a none)) : exec i s = .next (onStop s (.trap w a none)) := by
  obtain ⟨us, body, hp, he, hb⟩ := exec_writes hn h
  rw [he]
  exact instr_stop (e := .trap w a none) hp (hb.trans (bind_stop hw))

/-- What reading the operand of a write leaves. -/
theorem writes_kept {i : Instr} {n : Nat} {p : Bool} {v : Word} {s s1 : State} (h : Writes i n p v s s1) :
    OperandKept s s1 ∧ OperandFrame s s1 := by
  rcases h with ⟨b, m, -, -, -, hb⟩ | ⟨rfl, -⟩
  · exact readG_kept hb
  · exact ⟨operandKept_refl _, operandFrame_refl _⟩

/-! ### What the write of each CSR does -/

/-- Every row of the table of stores names a CSR that its map makes writable. -/
theorem csrStores_writable : ∀ r ∈ csrStores, (r.1, r.2.1) ∈ writableCsrs := by
  simp only [csrStores, List.forall_mem_cons, List.not_mem_nil, false_implies, implies_true, and_true]
  and_intros <;> decide

/-- A CSR of the table of stores does what its row says, and nothing else. -/
theorem csrWrite_stores (v : Word) (s : State) : ∀ r ∈ csrStores, csrWrite r.1 v s = .ok ((), r.2.2 v s) := by
  simp only [csrStores, List.forall_mem_cons, List.not_mem_nil, false_implies, implies_true, and_true]
  and_intros <;> rfl

theorem settleCore_run (s : State) : settleCore s = .ok ((), settled s) := by
  have h : (modify fun s => settleStores s s.cur.core fun _ => true : M PUnit) s = .ok ((), settleStores s s.cur.core fun _ => true) := rfl
  unfold settleCore
  rw [bind_run h, modCore_run]
  rfl

/-- The page attributes that a write of PAGEATTR leaves, and the page that it selects. -/
def pageWritten (v : Word) (k : Core) : Core :=
  { k with pageSel := BitVec.ofNat 9 (bits v 24 16)
           attr := if v.getLsbD 31 then mapSet 0x23 (BitVec.ofNat 9 (bits v 24 16)).toNat (BitVec.ofNat 8 (bits v 6 0)) k.attr else k.attr }

theorem csrWrite_pageattr (v : Word) (s : State) : csrWrite 0x070 v s = .ok ((), withCore (settled s) (pageWritten v)) := by
  unfold csrWrite
  rw [bind_run (get_run s), bind_run (getCore_run s)]
  simp only [Nat.reduceEqDiff, if_false, if_true]
  rw [bind_run (settleCore_run s)]
  rfl

/-! ### Stores and early reads settled (R117) -/

/-- Draining a unit leaves the moving unit, and of the store buffers empties that unit's. -/
theorem drainStores_buffers (s : State) (a : Agent) : (drainStores s a).cur = s.cur ∧
    ∀ u, (threadAt (coreAt (drainStores s a) a.core) u).sbuf = if u = a.unit then [] else (threadAt (coreAt s a.core) u).sbuf := by
  obtain ⟨hc, -, hb⟩ := storesKept_foldl (f := fun s e => writeBytes s a.core e.1 e.2 _) (fun s e => storesKept_writeBytes s _ e.1 e.2 _)
    (threadAt (coreAt s a.core) a.unit).sbuf (mapCore s a.core fun k => mapThread k a.unit fun t => { t with sbuf := [] })
  refine ⟨hc, fun u => (hb a.core u).trans ?_⟩
  rw [coreAt_mapCore]
  split
  · next h => rw [h, threadAt_mapThread]
  · next h => rw [threadAt_mapThread_ne _ _ h]

/-- The units of a list are drained one after the other. -/
def drainUnits (c : Coord) (l : List UnitId) (s : State) : State :=
  l.foldl (fun s u => if (threadAt (coreAt s c) u).sbuf.any (fun _ => true) then drainStores s ⟨c, u⟩ else s) s

theorem settleStores_all (s : State) (c : Coord) : settleStores s c (fun _ => true) = drainUnits c allUnits s := rfl

theorem drainUnits_cur (c : Coord) (l : List UnitId) (s : State) : (drainUnits c l s).cur = s.cur := by
  induction l generalizing s with
  | nil => rfl
  | cons u r ih =>
    refine (ih _).trans ?_
    dsimp only
    split
    · exact (drainStores_buffers s ⟨c, u⟩).1
    · rfl

/-- A unit of the list has no store waiting then, nor has one that had none before. -/
theorem drainUnits_sbuf (c : Coord) (l : List UnitId) (s : State) {u : UnitId} (h : u ∈ l ∨ (threadAt (coreAt s c) u).sbuf = []) :
    (threadAt (coreAt (drainUnits c l s) c) u).sbuf = [] := by
  induction l generalizing s with
  | nil => exact h.resolve_left List.not_mem_nil
  | cons v r ih =>
    refine ih _ ?_
    by_cases hu : u ∈ r
    · exact .inl hu
    · refine .inr ?_
      have hv : u = v ∨ (threadAt (coreAt s c) u).sbuf = [] := h.imp_left fun h => (List.mem_cons.1 h).resolve_right hu
      dsimp only
      split
      · rw [(drainStores_buffers s ⟨c, v⟩).2]
        split
        · rfl
        · next hn => exact hv.resolve_left hn
      · next hn =>
        refine hv.elim (fun he => ?_) id
        rw [← he] at hn
        exact List.eq_nil_iff_forall_not_mem.2 (by simpa using hn)

/-- Where no store waits there is nothing to drain. -/
theorem drainUnits_none (c : Coord) (l : List UnitId) {s : State} (h : ∀ u, (threadAt (coreAt s c) u).sbuf = []) : drainUnits c l s = s := by
  induction l with
  | nil => rfl
  | cons u r ih =>
    refine Eq.trans ?_ ih
    unfold drainUnits
    rw [List.foldl_cons, h u]
    rfl

theorem mem_allUnits (u : UnitId) : u ∈ allUnits := by
  cases u with
  | ibex n => fin_cases n <;> decide
  | stream i x => fin_cases i <;> cases x <;> decide

/-- No stream of the core holds a word that it has read ahead. -/
def noneEarly (k : Core) : Core := { k with threads := k.threads.map fun t => { t with early := [] } }

theorem threadAt_noneEarly (k : Core) (u : UnitId) : threadAt (noneEarly k) u = { threadAt k u with early := [] } := by
  simp [threadAt, noneEarly]

@[simp] theorem here_withCore (s : State) (f : Core → Core) : here (withCore s f) = f (here s) := here_mapCore s f

theorem settled_eq (s : State) : settled s = withCore (drainUnits s.cur.core allUnits s) noneEarly := by
  unfold settled
  rw [settleStores_all]
  rfl

theorem threadAt_settled (s : State) (u : UnitId) :
    (threadAt (here (settled s)) u).early = [] ∧ (threadAt (here (settled s)) u).sbuf = [] := by
  rw [settled_eq, here_withCore, threadAt_noneEarly]
  refine ⟨rfl, ?_⟩
  have hc := drainUnits_cur s.cur.core allUnits s
  have hb := drainUnits_sbuf s.cur.core allUnits s (.inl (mem_allUnits u))
  generalize drainUnits s.cur.core allUnits s = t at hc hb ⊢
  rw [here, hc]
  exact hb

/-- With no store waiting, settling only ends what was read ahead. -/
theorem settled_quiet {s : State} (h : ∀ u, (threadAt (here s) u).sbuf = []) : settled s = withCore s noneEarly := by
  rw [settled_eq, drainUnits_none _ _ h]

/-! ### The stream moved on -/

/-- What moving on leaves of a thread. -/
def movedOn (pc : Word) (len : Nat) (t : Thread) : Thread :=
  { t with pc := pc + BitVec.ofNat 64 len, pend := t.pend.filter fun p => p.pc != pc, rcd := none, stallRt := false, stalled := false,
           joins := false }

theorem here_goes (s s1 : State) : here (goes s s1) = mapThread (here s1) s1.cur.unit (movedOn (pcOf s) (lenOf s)) := here_mapCore ..

theorem pc_goes (s s1 : State) : (threadOf (goes s s1)).pc = pcOf s + BitVec.ofNat 64 (lenOf s) := by rw [threadOf_advance_seq]

theorem memKept_goes {s s1 : State} (h : MemKept s s1) : MemKept s (goes s s1) := fun x => by
  rw [here_goes]
  exact h x

theorem storeRegs_of_thread {s s1 t : State} (h : StoreRegs s s1) (hr : SameRegs { threadOf t with pc := (threadOf s1).pc } (threadOf s1)) :
    StoreRegs s t := by
  obtain ⟨hv, hd, h0, h1, hf, hk, hc⟩ := h
  obtain ⟨rg, rd, r0, r1, rf, rk, rc, -⟩ := hr
  exact ⟨fun n => (regVal_congr rg rd n).symm.trans (hv n), rd.symm.trans hd, r0.symm.trans h0, r1.symm.trans h1, rf.symm.trans hf,
    rk.symm.trans hk, rc.symm.trans hc⟩

theorem storeRegs_goes {s s1 : State} (h : StoreRegs s s1) : StoreRegs s (goes s s1) :=
  storeRegs_of_thread h <| by
    rw [threadOf_advance_seq]
    exact ⟨rfl, rfl, rfl, rfl, rfl, rfl, rfl, rfl⟩

/-- A part of a thread that moving on leaves is, after an instruction completes, the one before. -/
theorem threadAt_goes {α : Type} (f : Thread → α) (hf : ∀ pc len t, f (movedOn pc len t) = f t) (s s1 : State) (u : UnitId) :
    f (threadAt (here (goes s s1)) u) = f (threadAt (here s1) u) := by
  rw [here_goes]
  by_cases h : u = s1.cur.unit
  · rw [h, threadAt_mapThread, hf]
  · rw [threadAt_mapThread_ne _ _ h]

/-- A part of the core that operands leave. -/
theorem coreKept_field {α : Type} {s t : State} (f : Core → α)
    (hf : ∀ k k' : Core, f { k with threads := k'.threads, slots := k'.slots, mb := k'.mb, mbHead := k'.mbHead } = f k)
    (h : CoreKept s t) : f (here t) = f (here s) := (hf _ (here s)).symm.trans (congrArg f h)

/-! ### The fields of each register (R18, R76, R114, R125) -/

theorem pageSel_pageWritten (v : Word) (k : Core) : (pageWritten v k).pageSel.toNat = v.toNat / 2 ^ 16 % 2 ^ 9 := by
  simp [pageWritten, bits, natBits]

theorem attrOf_pageWritten (v : Word) (k : Core) (g : Nat) : attrOf (pageWritten v k) g =
    if v.getLsbD 31 = true ∧ g = v.toNat / 2 ^ 16 % 2 ^ 9 then BitVec.ofNat 8 (v.toNat % 2 ^ 7) else attrOf k g := by
  have hp : (BitVec.ofNat 9 (bits v 24 16)).toNat = v.toNat / 2 ^ 16 % 2 ^ 9 := pageSel_pageWritten v k
  have hb : bits v 6 0 = v.toNat % 2 ^ 7 := by simp [bits, natBits]
  unfold attrOf pageWritten
  dsimp only
  rw [hp, hb]
  cases hw : v.getLsbD 31 with
  | false => simp
  | true =>
    by_cases hg : g = v.toNat / 2 ^ 16 % 2 ^ 9
    · rw [if_pos rfl, if_pos ⟨rfl, hg⟩, hg, mapGet_mapSet]
    · rw [if_pos rfl, if_neg fun h => hg h.2, mapGet_mapSet_ne _ _ _ hg]

theorem toNat_tqcfgOf (v : Word) : (tqcfgOf v).toNat =
    (if v.toNat % 2 ^ 11 = 0 then 1 else min 1024 (v.toNat % 2 ^ 11)) + v.toNat / 2 ^ 16 % 2 * 2 ^ 16 := by
  have hb : bits v 10 0 = v.toNat % 2 ^ 11 := by simp [bits, natBits]
  have hs : (if v.getLsbD 16 then 65536 else 0) = v.toNat / 2 ^ 16 % 2 * 2 ^ 16 := by
    rw [BitVec.getLsbD, Nat.testBit_eq_decide_div_mod_eq]
    split <;> simp_all
  rw [tqcfgOf, hb, hs, BitVec.toNat_ofNat]
  split <;> omega

/-- The state after a write of TQCFG. -/
def tqcfgSet (v : Word) (s : State) : State := advertNotice (withCore s fun k => { k with tqcfg := tqcfgOf v }) s.cur.core

theorem csrWrite_tqcfg (v : Word) (s : State) : csrWrite 0x051 v s = .ok ((), tqcfgSet v s) := by
  unfold csrWrite
  rw [bind_run (get_run s), bind_run (getCore_run s)]
  simp only [Nat.reduceEqDiff, if_false, if_true]
  rfl

theorem tqcfgSet_cur (v : Word) (s : State) : (tqcfgSet v s).cur = s.cur := (storesKept_advertNotice _ _).1

theorem here_tqcfgSet (v : Word) (s : State) : ∃ b, here (tqcfgSet v s) = { here s with tqcfg := tqcfgOf v, advert := b } := by
  obtain ⟨b, hb⟩ := coreAt_advertNotice (withCore s fun k => { k with tqcfg := tqcfgOf v }) s.cur.core s.cur.core
  refine ⟨b, ?_⟩
  rw [here, tqcfgSet_cur]
  refine hb.trans ?_
  rw [withCore, coreAt_mapCore]

theorem threadOf_tqcfgSet (v : Word) (s : State) : threadOf (tqcfgSet v s) = threadOf s := by
  obtain ⟨b, hh⟩ := here_tqcfgSet v s
  have ht := congrArg (threadAt · s.cur.unit) hh
  rw [threadOf, tqcfgSet_cur]
  rwa [here, tqcfgSet_cur] at ht

/-- The stores wait nowhere and nothing is read ahead where a write of PAGEATTR goes on. -/
theorem buffers_pageattr (v : Word) (s s1 : State) (u : UnitId) :
    (threadAt (here (goes s (withCore (settled s1) (pageWritten v)))) u).early = [] ∧
      (threadAt (here (goes s (withCore (settled s1) (pageWritten v)))) u).sbuf = [] := by
  have h := threadAt_settled s1 u
  generalize settled s1 = t at h ⊢
  rwa [threadAt_goes (·.early) fun _ _ _ => rfl, threadAt_goes (·.sbuf) fun _ _ _ => rfl, here_withCore]

/-- The part of O43 on the writable fields. -/
theorem csrFieldsWritten : Claim.CsrWrites := by
  refine ⟨fun n p f i v s s1 hm hw => ?_, fun i v s s1 hw => ⟨_, writes_run (by decide) hw (csrWrite_pageattr v s1), buffers_pageattr v s s1⟩,
    fun i v s s1 hw hb => ?_, fun i v s s1 hw => ?_⟩
  · exact writes_run (csrStores_writable _ hm) hw (csrWrite_stores v s1 _ hm)
  · obtain ⟨⟨hregs, hmem, -⟩, hcur, hkept, hsb, -⟩ := writes_kept hw
    have hgo := writes_run (by decide) hw (csrWrite_pageattr v s1)
    rw [settled_quiet fun u => (hsb u).trans (hb u)] at hgo
    refine ⟨_, hgo, ?_⟩
    have hh : here (withCore (withCore s1 noneEarly) (pageWritten v)) = pageWritten v (noneEarly (here s1)) := by
      rw [here_withCore, here_withCore]
    have ht : threadOf (withCore (withCore s1 noneEarly) (pageWritten v)) = { threadOf s1 with early := [] } := by
      exact (congrArg (threadAt · s1.cur.unit) hh).trans (threadAt_noneEarly ..)
    refine ⟨?_, fun g _ => ?_, memKept_goes fun x => ?_, storeRegs_goes (storeRegs_of_thread hregs ?_), pc_goes ..⟩
    · rw [here_goes, hh]
      exact pageSel_pageWritten v (noneEarly (here s1))
    · rw [here_goes, hh]
      refine (attrOf_pageWritten ..).trans ?_
      rw [← coreKept_field (attrOf · g) (fun _ _ => rfl) hkept]
      rfl
    · rw [hh]
      exact hmem x
    · rw [ht]
      exact ⟨rfl, rfl, rfl, rfl, rfl, rfl, rfl, rfl⟩
  · obtain ⟨⟨hregs, hmem, -⟩, hcur, hkept, -⟩ := writes_kept hw
    obtain ⟨b, hh⟩ := here_tqcfgSet v s1
    refine ⟨_, writes_run (by decide) hw (csrWrite_tqcfg v s1), ?_, memKept_goes fun x => ?_,
      storeRegs_goes (storeRegs_of_thread hregs ?_), ?_, pc_goes ..⟩
    · rw [here_goes, hh]
      exact toNat_tqcfgOf v
    · rw [hh]
      exact hmem x
    · rw [threadOf_tqcfgSet]
      exact ⟨rfl, rfl, rfl, rfl, rfl, rfl, rfl, rfl⟩
    · rw [here_goes, hh]
      exact coreKept_field Core.home (fun _ _ => rfl) hkept

/-! ### TQCFG and TQDEPTH (TaskQueueRegisters) -/

/-- The part of O43 on the task queue. -/
theorem taskQueueRegisters : Claim.TaskQueueRegisters := by
  refine ⟨fun a s s1 s2 v hp hr hw => ?_, fun a b s s1 s2 v hp hb hr hw => ?_, fun a s s1 bit hp hbit ha hw => ?_⟩
  · obtain ⟨-, -, hkept, -⟩ := readG_kept hr
    rw [← coreKept_field Core.tqcfg (fun _ _ => rfl) hkept] at hw
    exact instr_ok hp ((bind_run hr).trans ((bind_run (getCore_run s1)).trans (bind_run hw)))
  · obtain ⟨⟨-, hmem, -⟩, -, hkept, -⟩ := readG_kept hr
    rw [← coreKept_field Core.tqcfg (fun _ _ => rfl) hkept] at hw ⊢
    obtain ⟨⟨-, hkept', -⟩, hl0⟩ := writeResult_frame _ hw
    obtain ⟨c, hh⟩ := here_tqcfgSet v s2
    have hne : (b != .g 0) = true := by simpa using hb
    refine ⟨_, instr_ok (s1 := tqcfgSet v s2) hp ((bind_run hr).trans ((bind_run (getCore_run s1)).trans ((bind_run hw).trans ?_))), ?_,
      pc_goes .., ?_, ?_, memKept_goes fun x => ?_⟩
    · rw [hne, if_pos rfl]
      exact bind_run (csrWrite_tqcfg v s2)
    · rw [threadOf_advance_seq, threadOf_tqcfgSet]
      exact hl0
    · rw [here_goes, hh]
      exact toNat_tqcfgOf v
    · rw [here_goes, hh]
      exact (coreKept_field Core.home (fun _ _ => rfl) hkept').trans (coreKept_field Core.home (fun _ _ => rfl) hkept)
    · rw [hh]
      exact (congrArg (peek · x) (coreKept_field Core.mem (fun _ _ => rfl) hkept')).trans (hmem x)
  · have hdepth : homeDepth (here s) = ((here s).home.filter fun e => rcdValid e.rcd && !rcdTnear e.rcd && !rcdTfar e.rcd).length := by
      simp only [homeDepth, rcdTaken, Bool.not_or, Bool.and_assoc]
    have hadv : (if advertises (here s) then 2 ^ 32 else 0) = 2 ^ 32 * bit := by
      rcases hbit with rfl | rfl
      · exact if_neg fun h => absurd (ha.2 h) (by decide)
      · exact if_pos (ha.1 rfl)
    rw [← hdepth, ← hadv] at hw
    exact instr_ok hp ((bind_run (getCore_run s)).trans (bind_run hw))

/-! ### The bases of the reserved regions (R118) -/

theorem clear_iff (r : Nat × Nat) (l : List (Nat × Nat)) : clear r l = true ↔ RegionsApart r l := by
  simp [clear, RegionsApart, overlap]

theorem clear_eq_false {r : Nat × Nat} {l : List (Nat × Nat)} (h : ¬RegionsApart r l) : clear r l = false := by
  rwa [← clear_iff, Bool.not_eq_true] at h

theorem csrWrite_tqbase_held (v : Word) {s : State} (h : (here s).home ≠ []) : csrWrite 0x050 v s = .error (.trap (why 0x0C1 1) 0 none) := by
  unfold csrWrite
  rw [bind_run (get_run s), bind_run (getCore_run s)]
  simp only [Nat.reduceEqDiff, if_false, if_true]
  refine bind_stop ?_
  rw [guardA_run, if_neg (by simpa using h)]

theorem csrWrite_tqbase (v : Word) {s : State} (h : (here s).home = []) : csrWrite 0x050 v s = .ok ((),
    if clear (tqRegion v) [envRegion (here s).envbase, mbRegion (here s).mbbase, frRegion (here s).frbase] then
      withCore (settled s) fun k => { k with tqbase := v &&& 0x1F0000 } else settled s) := by
  have hg : guardA (here s).home.isEmpty 0x0C1 1 0 s = .ok ((), s) := by rw [h]; rfl
  unfold csrWrite
  rw [bind_run (get_run s), bind_run (getCore_run s)]
  simp only [Nat.reduceEqDiff, if_false, if_true]
  rw [bind_run hg, bind_run (settleCore_run s)]
  split <;> rfl

theorem allSlots_all {p : Fin 4 → Bool} : allSlots.all p = true ↔ ∀ q, p q = true := by
  simp [allSlots, Fin.forall_fin_succ]

theorem csrWrite_frbase_live (v : Word) {s : State} (h : ∃ q, (slotAt (here s) q).depth ≠ 0) :
    csrWrite 0x061 v s = .error (.trap (why 0x002 5) (baseAddr s) none) := by
  unfold csrWrite
  rw [bind_run (get_run s), bind_run (getCore_run s)]
  simp only [Nat.reduceEqDiff, if_false, if_true]
  refine bind_stop ?_
  rw [guardD_run, if_neg]
  obtain ⟨q, hq⟩ := h
  exact fun ha => hq (by simpa using allSlots_all.1 ha q)

theorem csrWrite_frbase {v : Word} {s : State} (h : ∀ q, (slotAt (here s) q).depth = 0)
    (hc : RegionsApart (frRegion v) [tqRegion (here s).tqbase, envRegion (here s).envbase, mbRegion (here s).mbbase]) :
    csrWrite 0x061 v s = .ok ((), withCore s fun k => { k with frbase := v &&& 0xFFFFFFC0 }) := by
  have hg : guardD (allSlots.all fun i => (slotAt (here s) i).depth == 0) 0x002 5 s = .ok ((), s) := by
    rw [guardD_run, if_pos (allSlots_all.2 fun q => by simpa using h q)]
  unfold csrWrite
  rw [bind_run (get_run s), bind_run (getCore_run s)]
  simp only [Nat.reduceEqDiff, if_false, if_true]
  rw [bind_run hg, if_pos ((clear_iff ..).2 hc)]
  rfl

theorem csrWrite_mbbase {v : Word} {s : State} (h : (here s).mb = [])
    (hc : RegionsApart (mbRegion v) [tqRegion (here s).tqbase, envRegion (here s).envbase, frRegion (here s).frbase]) :
    csrWrite 0x062 v s = .ok ((), withCore s fun k => { k with mbbase := v &&& 0x1FFC00 }) := by
  unfold csrWrite
  rw [bind_run (get_run s), bind_run (getCore_run s)]
  simp only [Nat.reduceEqDiff, if_false, if_true]
  rw [h, (clear_iff ..).2 hc]
  rfl

/-- The mailbox that holds a word stays where it is. -/
theorem csrWrite_mbbase_held (v : Word) {s : State} (h : (here s).mb ≠ []) : csrWrite 0x062 v s = .ok ((), s) := by
  have hb : (here s).mb.isEmpty = false := by simpa using h
  unfold csrWrite
  rw [bind_run (get_run s), bind_run (getCore_run s)]
  simp only [Nat.reduceEqDiff, if_false, if_true]
  rw [hb]
  rfl

/-! ### A new environment region (R118, R184) -/

/-- The header of an environment by the model's words and by the statements'. -/
theorem envAddr_here (s : State) (j : Nat) : envAddr (here s) j = envAt s j := by simp [envAddr, envAt, bits, natBits]

theorem toNat_envHead (s : State) (j : Nat) : (envHead (here s) j).toNat = headAt s j % 2 ^ 128 := by
  rw [envHead, BitVec.toNat_ofNat, peekNat, leNat_peeks, envAddr_here]
  rfl

theorem envLive_iff (s : State) (j : Nat) : envLive (envHead (here s) j) = true ↔ liveAt s j := by
  rw [envLive, BitVec.getLsbD, toNat_envHead, Nat.testBit_eq_decide_div_mod_eq, decide_eq_true_eq, liveAt]
  omega

theorem envGen_here (s : State) (j : Nat) : envGen (envHead (here s) j) = genAt s j := by
  rw [envGen, bits, toNat_envHead, natBits, genAt]
  omega

theorem anyLive_iff (s : State) : ((List.range 256).any fun i => envLive (envHead (here s) i)) = true ↔ ∃ j < 256, liveAt s j := by
  simp only [List.any_eq_true, List.mem_range, envLive_iff]

/-- Nothing of a core differs but its bytes and their ECC state. -/
def OnlyBytes (k k' : Core) : Prop := { k' with mem := k.mem, poison := k.poison, flawed := k.flawed } = k

theorem onlyBytes_refl (k : Core) : OnlyBytes k k := rfl

theorem onlyBytes_trans {k k' k'' : Core} (h : OnlyBytes k k') (h' : OnlyBytes k' k'') : OnlyBytes k k'' := by
  unfold OnlyBytes at h h' ⊢
  conv_rhs => rw [← h, ← h']

theorem onlyBytes_putBytes (k : Core) (a : Nat) (bs : List Byte) : OnlyBytes k (putBytes k a bs) := rfl

/-- A part of the core that its bytes have no share in. -/
theorem onlyBytes_field {α : Type} {k k' : Core} (f : Core → α)
    (hf : ∀ k k' : Core, f { k with mem := k'.mem, poison := k'.poison, flawed := k'.flawed } = f k) (h : OnlyBytes k k') : f k' = f k :=
  (hf _ k).symm.trans (congrArg f h)

theorem abortHits_onlyBytes {k k' : Core} (h : OnlyBytes k k') (c : Coord) (lo hi : Nat) (w : Option (Coord × Nat)) :
    abortHits k' c lo hi w = abortHits k c lo hi w := onlyBytes_field (abortHits · c lo hi w) (fun _ _ => rfl) h

theorem peek_putBytes (k : Core) (a : Nat) (bs : List Byte) (z : Nat) :
    peek (putBytes k a bs).mem z = if a ≤ z ∧ z < a + bs.length then bs.getD (z - a) 0 else peek k.mem z := peek_pokes ..

/-- A write that aborts no task is one of bytes. -/
theorem writeBytes_quiet {s : State} {c : Coord} {a : Nat} {bs : List Byte} {w : Option (Coord × Nat)}
    (h : abortHits (coreAt s c) c a (a + bs.length) w = []) : (writeBytes s c a bs w).cur = s.cur ∧
      coreAt (writeBytes s c a bs w) c = putBytes (coreAt s c) a bs := by
  unfold writeBytes
  dsimp only
  rw [h]
  exact ⟨rfl, coreAt_setCore ..⟩

theorem envReset_length (g : Nat) : (envReset g).length = 128 := by simp [envReset]

/-- Environments from `i` on are reset to the generations of the list: what that leaves where no write aborts a task. -/
theorem resetEnvs_quiet {c : Coord} (base : Nat) (l : List Nat) (i : Nat) (s : State)
    (h : ∀ j, i ≤ j → j < i + l.length → abortHits (coreAt s c) c (base + 128 * j) (base + 128 * j + 128) none = []) :
    (resetEnvs s c base i l).cur = s.cur ∧ OnlyBytes (coreAt s c) (coreAt (resetEnvs s c base i l) c) ∧
      (∀ z, z < base + 128 * i ∨ base + 128 * (i + l.length) ≤ z →
        peek (coreAt (resetEnvs s c base i l) c).mem z = peek (coreAt s c).mem z) ∧
      ∀ j (hj : j < l.length), ∀ w < 128,
        peek (coreAt (resetEnvs s c base i l) c).mem (base + 128 * (i + j) + w) = (envReset l[j]).getD w 0 := by
  induction l generalizing i s with
  | nil => exact ⟨rfl, onlyBytes_refl _, fun _ _ => rfl, fun j hj => absurd hj (Nat.not_lt_zero j)⟩
  | cons g r ih =>
    rw [List.length_cons] at h
    have hlen := envReset_length g
    rw [resetEnvs]
    generalize hbs : envReset g = bs at hlen ⊢
    obtain ⟨hcur, hk⟩ := writeBytes_quiet (s := s) (c := c) (a := base + 128 * i) (bs := bs) (w := none)
      (by rw [hlen]; exact h i (Nat.le_refl i) (by omega))
    generalize writeBytes s c (base + 128 * i) bs none = u at hcur hk ⊢
    have hu : OnlyBytes (coreAt s c) (coreAt u c) := by rw [hk]; exact onlyBytes_putBytes ..
    have hp := peek_putBytes (coreAt s c) (base + 128 * i) bs
    rw [← hk, hlen] at hp
    obtain ⟨hc, hb, ho, hi⟩ := ih (i + 1) u fun j h1 h2 => by
      rw [abortHits_onlyBytes hu]
      exact h j (by omega) (by omega)
    refine ⟨hc.trans hcur, onlyBytes_trans hu hb, fun z hz => ?_, fun j hj w hw' => ?_⟩
    · rw [List.length_cons] at hz
      rw [ho z (by omega), hp, if_neg (by omega)]
    · cases j with
      | zero =>
        rw [ho _ (by omega), hp, if_pos (by omega), List.getElem_cons_zero, hbs, show base + 128 * (i + 0) + w - (base + 128 * i) = w by omega]
      | succ j =>
        rw [List.getElem_cons_succ, ← hi j (by simpa using hj) w hw', Nat.add_right_comm i 1 j]
        rfl

def envbaseSet (v : Word) (k : Core) : Core := { k with envbase := v &&& 0x1F8000 }

/-- The environments of a region that has moved to the place that `v` names: each is reset, with the generation it had. -/
def envsMoved (v : Word) (s : State) : State :=
  resetEnvs (withCore s (envbaseSet v)) s.cur.core (envRegion v).1 0
    ((List.range 256).map fun i => envGen (envHead (here s) i))

theorem csrWrite_envbase_live (v : Word) {s : State} (h : ∃ j < 256, liveAt s j) :
    csrWrite 0x060 v s = .error (.trap (why 0x002 5) (baseAddr s) none) := by
  unfold csrWrite
  rw [bind_run (get_run s), bind_run (getCore_run s)]
  simp only [Nat.reduceEqDiff, if_false, if_true]
  refine bind_stop ?_
  rw [(anyLive_iff s).2 h]
  rfl

theorem csrWrite_envbase {v : Word} {s : State} (h : ∀ j < 256, ¬liveAt s j)
    (hc : RegionsApart (envRegion v) [tqRegion (here s).tqbase, mbRegion (here s).mbbase, frRegion (here s).frbase]) :
    csrWrite 0x060 v s = .ok ((), envsMoved v s) := by
  have hl : ((List.range 256).any fun i => envLive (envHead (here s) i)) = false := by
    rw [← Bool.not_eq_true, anyLive_iff]
    exact fun ⟨j, hj, hv⟩ => h j hj hv
  have hg : guardD (!(List.range 256).any fun i => envLive (envHead (here s) i)) 0x002 5 s = .ok ((), s) := by rw [hl]; rfl
  unfold csrWrite
  rw [bind_run (get_run s), bind_run (getCore_run s)]
  simp only [Nat.reduceEqDiff, if_false, if_true]
  rw [bind_run hg, if_pos ((clear_iff ..).2 hc)]
  rfl

/-- The bytes of a number, read back. -/
theorem leNat_leBytes (n v : Nat) : leNat (leBytes n v) = v % 256 ^ n := by
  induction n generalizing v with
  | zero => simp [leBytes, leNat, Nat.mod_one]
  | succ n ih =>
    rw [leBytes, leNat, ih, BitVec.toNat_ofNat, pow_succ' 256 n, Nat.mod_mul]

theorem leValue_eq {m : Memory} {a n v : Nat} (h : ∀ w < n, peek m (a + w) = BitVec.ofNat 8 (v / 256 ^ w)) : leValue m a n = v % 256 ^ n := by
  rw [← leNat_leBytes, ← leNat_peeks]
  congr 1
  induction n generalizing a v with
  | zero => rfl
  | succ n ih =>
    rw [peeks, leBytes, ih (v := v / 256) fun w hw => ?_]
    · congr 1
      simpa using h 0 (Nat.succ_pos n)
    · rw [Nat.add_right_comm, Nat.add_assoc, h (w + 1) (by omega), Nat.div_div_eq_div_mul, Nat.pow_succ']

theorem envReset_head (g : Nat) {w : Nat} (hw : w < 16) : (envReset g).getD w 0 = BitVec.ofNat 8 (g % 2048 * 2 ^ 40 / 256 ^ w) := by
  rw [envReset, List.getD_append _ _ _ _ (by simpa using hw), leBytes_getD _ _ _ hw]

theorem envReset_captures (g : Nat) {w : Nat} (h : 16 ≤ w) (hw : w < 128) : (envReset g).getD w 0 = 0 := by
  rw [envReset, List.getD_append_right _ _ _ _ (by simpa using h), leBytes_length, leBytes_getD _ _ _ (by omega), Nat.zero_div]
  rfl

theorem envRegion_masked (v : Word) : (v &&& 0x1F8000).toNat / 2 ^ 15 % 2 ^ 6 * 0x8000 = (envRegion v).1 := by
  have hm : (0x1F8000 : Word).toNat / 2 ^ 15 = 2 ^ 6 - 1 := by decide
  rw [BitVec.toNat_and, Nat.and_div_two_pow, hm, Nat.and_two_pow_sub_one_eq_mod, Nat.mod_mod]
  rfl

/-- What a write of ENVBASE leaves that aborts no task. -/
theorem envsMoved_spec {v : Word} {s : State}
    (h : ∀ j < 256, abortHits (here s) s.cur.core ((envRegion v).1 + 128 * j) ((envRegion v).1 + 128 * j + 128) none = []) :
    (envsMoved v s).cur = s.cur ∧ (here (envsMoved v s)).envbase = v &&& 0x1F8000 ∧
      (∀ z, z < (envRegion v).1 ∨ (envRegion v).2 ≤ z → peek (here (envsMoved v s)).mem z = peek (here s).mem z) ∧
      ∀ j < 256, ∀ w < 128, peek (here (envsMoved v s)).mem ((envRegion v).1 + 128 * j + w) = (envReset (genAt s j)).getD w 0 := by
  obtain ⟨hc, hb, ho, hi⟩ := resetEnvs_quiet (c := s.cur.core) (envRegion v).1 ((List.range 256).map fun i => envGen (envHead (here s) i)) 0
    (withCore s (envbaseSet v)) fun j _ hj => by
      rw [withCore, coreAt_mapCore]
      exact h j (by simpa using hj)
  have hcur : (envsMoved v s).cur = s.cur := hc
  rw [here, hcur]
  rw [withCore, coreAt_mapCore] at hb ho
  refine ⟨rfl, onlyBytes_field Core.envbase (fun _ _ => rfl) hb, fun z hz => ?_, fun j hj w hw => ?_⟩
  · have hend : (envRegion v).2 = (envRegion v).1 + 0x8000 := rfl
    refine ho z ?_
    rw [List.length_map, List.length_range]
    omega
  · have hb := hi j (by simpa using hj) w hw
    rwa [List.getElem_map, List.getElem_range, envGen_here, Nat.zero_add] at hb

/-- The part of O43 on the regions. -/
theorem regionBases : Claim.RegionBases := by
  refine fun i v s s1 => ⟨fun hw => ?_, fun hw => ?_, fun hw => ?_, fun hw => ?_⟩
  all_goals
    obtain ⟨⟨-, hmem, -, -, hpc, hir⟩, hcur, hkept, -, hdepth⟩ := writes_kept hw
    have htq := coreKept_field Core.tqbase (fun _ _ => rfl) hkept
    have hen := coreKept_field Core.envbase (fun _ _ => rfl) hkept
    have hmb := coreKept_field Core.mbbase (fun _ _ => rfl) hkept
    have hfr := coreKept_field Core.frbase (fun _ _ => rfl) hkept
    have hhome := coreKept_field Core.home (fun _ _ => rfl) hkept
    have hbase : baseAddr s1 = baseAddr s := by rw [baseAddr, hpc, hir]; rfl
  · refine ⟨fun h => writes_trap (by decide) hw (csrWrite_tqbase_held v (by rwa [hhome])), fun h hc => ?_, fun h hc => ?_⟩
    all_goals
      have hgo := writes_run (by decide) hw (csrWrite_tqbase v (by rwa [hhome]))
      rw [hen, hmb, hfr] at hgo
    · rwa [if_pos ((clear_iff ..).2 hc)] at hgo
    · rwa [clear_eq_false hc, if_neg Bool.false_ne_true] at hgo
  · refine ⟨fun ⟨q, hq⟩ => ?_, fun h hc => ?_⟩
    · rw [← hbase]
      exact writes_trap (by decide) hw (csrWrite_frbase_live v ⟨q, by rwa [hdepth]⟩)
    · exact writes_run (by decide) hw (csrWrite_frbase (fun q => by rw [hdepth, h]) (by rwa [htq, hen, hmb]))
  · refine ⟨fun h hc => ?_, fun h he => ?_⟩
    · exact writes_run (by decide) hw (csrWrite_mbbase h (by rwa [htq, hen, hfr]))
    · subst he
      exact writes_run (by decide) hw (csrWrite_mbbase_held v h)
  · have hhead : ∀ j, headAt s1 j = headAt s j := fun j => by
      rw [headAt, headAt, envAt, envAt, hen, coreKept_field Core.mem (fun _ _ => rfl) hkept]
    refine ⟨fun ⟨j, hj, hl⟩ => ?_, fun h hc hq => ?_⟩
    · rw [← hbase]
      exact writes_trap (by decide) hw (csrWrite_envbase_live v ⟨j, hj, by rwa [liveAt, hhead]⟩)
    · have hgo := writes_run (by decide) hw (csrWrite_envbase (v := v) (fun j hj => by rw [liveAt, hhead]; exact h j hj) (by rwa [htq, hmb, hfr]))
      have hspec := envsMoved_spec (v := v) (s := s1) fun j hj => by
        rw [hcur, coreKept_field (abortHits · s.cur.core _ _ none) (fun _ _ => rfl) hkept]
        exact hq j hj
      generalize envsMoved v s1 = t at hgo hspec
      obtain ⟨-, he, ho, hi⟩ := hspec
      have hbytes : (here (goes s t)).mem = (here t).mem := by rw [here_goes]; rfl
      have henv : (here (goes s t)).envbase = v &&& 0x1F8000 := by rw [here_goes]; exact he
      have hat : ∀ j, envAt (goes s t) j = (envRegion v).1 + 128 * j := fun j => by rw [envAt, henv, envRegion_masked]
      refine ⟨_, hgo, henv, fun j hj => ⟨?_, fun w hw' => ?_⟩, fun z _ hz => ?_, pc_goes ..⟩
      · have hg : genAt s1 j = genAt s j := by rw [genAt, genAt, hhead]
        have hlt : genAt s j < 2048 := Nat.mod_lt _ (by decide)
        rw [headAt, hat, hbytes, leValue_eq fun w hw' => (hi j hj w (by omega)).trans (envReset_head _ hw'), hg]
        omega
      · rw [hat, hbytes, leValue_eq (v := 0) fun x hx => ?_]
        · rfl
        · rw [Nat.add_assoc, Nat.add_assoc, hi j hj _ (by omega), envReset_captures _ (by omega) (by omega), Nat.zero_div]
          rfl
      · rw [hbytes, ho z hz]
        exact hmem z

/-- Settles O43: SWR and the write events are one write of the CSR (exec_writes), and each write does what its equation says. -/
theorem csrWrites : Obligations.CsrWrites := ⟨csrFieldsWritten, regionBases, taskQueueRegisters⟩

end Sys2Proof.Machine

namespace Sys2Proof.Machine
open Sys2Proof.Claim

/-! # The results of the integer operations (O1, O2) -/

/-! ### Words -/

theorem sshiftRight_eq_ofInt (x : Word) (n : Nat) : x.sshiftRight n = BitVec.ofInt 64 (x.toInt / 2 ^ n) := by
  rw [BitVec.sshiftRight, Int.shiftRight_eq_div_pow]; rfl
theorem mul_eq_ofNat (x y : Word) : x * y = BitVec.ofNat 64 (x.toNat * y.toNat) := by
  apply BitVec.eq_of_toNat_eq; simp
theorem div_eq_ofNat (x y : Word) : x / y = BitVec.ofNat 64 (x.toNat / y.toNat) := by
  apply BitVec.eq_of_toNat_eq
  rw [BitVec.toNat_udiv, BitVec.toNat_ofNat, Nat.mod_eq_of_lt ((Nat.div_le_self _ _).trans_lt x.isLt)]
theorem mod_eq_ofNat (x y : Word) : x % y = BitVec.ofNat 64 (x.toNat % y.toNat) := by
  apply BitVec.eq_of_toNat_eq
  rw [BitVec.toNat_umod, BitVec.toNat_ofNat, Nat.mod_eq_of_lt ((Nat.mod_le _ _).trans_lt x.isLt)]
theorem mulHigh_nat (m n : Nat) : mulHigh m n = BitVec.ofNat 64 (m * n / 2 ^ 64) := by
  have h : ((m : Int) * n / 2 ^ 64) = ((m * n / 2 ^ 64 : Nat) : Int) := by push_cast; rfl
  rw [mulHigh, h, BitVec.ofInt_natCast]
/-- The remainder of the division toward 0 (R129). -/
theorem remS_eq (x y : Word) : remS x y = if y = 0 then x else x - y * BitVec.ofInt 64 (x.toInt.tdiv y.toInt) := by
  simp only [remS, sgn, Int.tmod_def, sub_eq_add_neg, BitVec.ofInt_add, BitVec.ofInt_neg, BitVec.ofInt_mul, BitVec.ofInt_toInt]
theorem rotateLeft_eq (x : Word) {n : Nat} (h : n < 64) : x.rotateLeft n = x <<< n ||| x >>> (64 - n) := by
  simp [BitVec.rotateLeft, BitVec.rotateLeftAux, Nat.mod_eq_of_lt h]
theorem rotateRight_eq (x : Word) {n : Nat} (h : n < 64) : x.rotateRight n = x >>> n ||| x <<< (64 - n) := by
  simp [BitVec.rotateRight, BitVec.rotateRightAux, Nat.mod_eq_of_lt h]
/-- SignExt of R29 is the sign extension of the low bits. -/
theorem signExt_toNat (x : Word) {n : Nat} (h0 : 0 < n) : signExt n x.toNat = (x.setWidth n).signExtend 64 := by
  have hp : 2 ^ n = 2 * 2 ^ (n - 1) := by rw [← Nat.pow_succ', Nat.succ_eq_add_one, Nat.sub_add_cancel h0]
  rw [BitVec.signExtend, BitVec.toInt_eq_toNat_cond, BitVec.toNat_setWidth, signExt]
  by_cases h : 2 ^ (n - 1) ≤ x.toNat % 2 ^ n
  · rw [if_pos ⟨h, h0⟩, if_neg (by omega)]; push_cast; rfl
  · rw [if_neg (fun k => h k.1), if_pos (by omega), BitVec.ofInt_natCast]
theorem zeroExt_toNat (x : Word) (n : Nat) : zeroExt n x.toNat = (x.setWidth n).setWidth 64 := by
  apply BitVec.eq_of_toNat_eq; simp [zeroExt]

/-! ### The bits of a word -/

/-- Bits 0 to n-1 of a number that are set. -/
def setBelow (x n : Nat) : List Nat := (List.range n).filter x.testBit
theorem setBitsOf_eq (x : Word) : setBitsOf x = setBelow x.toNat 64 := rfl
theorem setBelow_succ (x n : Nat) : setBelow x (n + 1) = setBelow x n ++ if x.testBit n then [n] else [] := by
  rw [setBelow, List.range_succ, List.filter_append, List.filter_singleton, cond_eq_ite]; rfl
theorem popN_eq (x n : Nat) : popN x n = (setBelow x n).length := by
  induction n with
  | zero => rfl
  | succ n ih =>
    rw [popN, setBelow_succ, List.length_append, ih, Nat.add_comm]
    split <;> rfl
theorem clzN_eq (x n : Nat) : (clzN x n : Int) = n - 1 - ((setBelow x n).getLast?.elim (-1) fun i => (i : Int)) := by
  induction n with
  | zero => rfl
  | succ n ih =>
    rw [clzN, setBelow_succ]
    split
    · simp
    · rw [List.append_nil]; push_cast; rw [ih]; ring
/-- Trailing zeros from bit i on: the distance to the first set bit. -/
theorem ctzN_eq (x i n : Nat) : ctzN x i n = (((List.range' i n).filter x.testBit).head?.map (· - i)).getD n := by
  induction n generalizing i with
  | zero => rfl
  | succ n ih =>
    rw [ctzN, List.range'_succ, List.filter_cons]
    split
    · simp
    · rw [ih]
      cases h : ((List.range' (i + 1) n).filter x.testBit).head? with
      | none => simp; omega
      | some j =>
        have hj : i + 1 ≤ j := (List.mem_range'_1.1 (List.mem_filter.1 (List.mem_of_mem_head? h)).1).1
        simp; omega
theorem ctzN_zero (x n : Nat) : ctzN x 0 n = (setBelow x n).head?.getD n := by
  rw [ctzN_eq, setBelow, List.range_eq_range']; simp
theorem leNat_append (l r : List Byte) : leNat (l ++ r) = leNat l + 256 ^ l.length * leNat r := by
  induction l with
  | nil => simp [leNat]
  | cons b l ih => rw [List.cons_append, leNat, leNat, ih, List.length_cons, pow_succ]; ring
/-- The bytes of a number from the last to the first. -/
theorem leNat_reverse_leBytes (n v : Nat) :
    leNat (leBytes n v).reverse = ((List.range n).map fun i => v / 256 ^ i % 256 * 256 ^ (n - 1 - i)).sum := by
  induction n generalizing v with
  | zero => rfl
  | succ n ih =>
    have hb : leNat [BitVec.ofNat 8 v] = v % 256 := by simp [leNat]
    have hl : (leBytes n (v / 256)).reverse.length = n := by rw [List.length_reverse, leBytes_length]
    rw [leBytes, List.reverse_cons, leNat_append, ih, hl, hb, List.range_succ_eq_map, List.map_cons, List.sum_cons, List.map_map]
    rw [Nat.add_comm]
    congr 1
    · simp [Nat.mul_comm]
    · congr 1
      apply List.map_congr_left
      intro i _
      simp only [Function.comp, Nat.div_div_eq_div_mul, ← Nat.pow_succ', Nat.succ_eq_add_one]
      congr 2
      omega
theorem rev8_eq (x : Word) :
    rev8 x = BitVec.ofNat 64 (((List.range 8).map fun i => x.toNat / 256 ^ i % 256 * 256 ^ (7 - i)).sum) :=
  congrArg (BitVec.ofNat 64) (leNat_reverse_leBytes 8 x.toNat)

/-! ### The instructions as their operations -/

theorem binop_congr {a b c : GReg} {f g : Word → Word → Word} (h : ∀ x y, g x y = f x y) : binop a b c g = binop a b c f := by
  rw [show g = f from funext fun x => funext (h x)]
theorem unop_congr {a b : GReg} {f g : Word → Word} (h : ∀ x, g x = f x) : unop a b g = unop a b f := by
  rw [show g = f from funext h]
/-- The comparisons of R129 as their tables write them. -/
theorem slt_iff (x y : Word) : x.slt y = true ↔ x.toInt < y.toInt := BitVec.slt_iff_toInt_lt
theorem ult_iff (x y : Word) : x.ult y = true ↔ x.toNat < y.toNat := by simp [BitVec.ult]
/-- The lesser of two, asked the other way round. -/
theorem ite_swap_lt {α β : Type} [LinearOrder α] {u v : α} {p : Prop} [Decidable p] (h : p ↔ v < u) (x y : β) :
    (if p then y else x) = if u ≤ v then x else y := by
  by_cases hp : p
  · rw [if_pos hp, if_neg (not_le.2 (h.1 hp))]
  · rw [if_neg hp, if_pos (not_lt.1 fun k => hp (h.2 k))]
/-- An instruction of R128 or R129 with three operands does the operation of the table. -/
theorem exec_binop {i : Instr} {a b c : GReg} {f : Word → Word → Word} (h : aluTable i = some (a, b, c, f)) (s : State) :
    exec i s = instr uEAN false [.rd b, .rd c, .wr a] (binop a b c f) s := by
  have shamt_lt : ∀ y : Word, y.toNat % 64 < 64 := fun y => Nat.mod_lt _ (by decide)
  cases i <;> cases h <;> refine congrArg (instr uEAN false [.rd b, .rd c, .wr a] · s) (binop_congr fun x y => ?_)
  case sra.refl => exact sshiftRight_eq_ofInt ..
  case mul.refl => exact mul_eq_ofNat ..
  case mulhu.refl => exact mulHigh_nat ..
  case divu.refl => rw [divU, div_eq_ofNat]
  case rem.refl => exact remS_eq ..
  case remu.refl => rw [remU, mod_eq_ofNat]
  case slt.refl => exact if_congr (slt_iff ..) rfl rfl
  case sltu.refl => exact if_congr (ult_iff ..) rfl rfl
  case min.refl => exact ite_swap_lt (slt_iff ..) ..
  case max.refl => exact ite_swap_lt (slt_iff ..) ..
  case minu.refl => exact ite_swap_lt (ult_iff ..) ..
  case maxu.refl => exact ite_swap_lt (ult_iff ..) ..
  case rol.refl => exact rotateLeft_eq _ (shamt_lt _)
  case ror.refl => exact rotateRight_eq _ (shamt_lt _)
  all_goals rfl
/-- An instruction of R129 with two operands does the operation of the table. -/
theorem exec_unop {i : Instr} {a b : GReg} {f : Word → Word} (h : unaryTable i = some (a, b, f)) (s : State) :
    exec i s = instr uEAN false [.rd b, .wr a] (unop a b f) s := by
  cases i <;> cases h <;> refine congrArg (instr uEAN false [.rd b, .wr a] · s) (unop_congr fun x => ?_)
  case clz.refl =>
    have hc := clzN_eq x.toNat 64
    rw [setBitsOf_eq]
    exact congrArg (BitVec.ofNat 64) (by omega)
  case ctz.refl => exact congrArg (BitVec.ofNat 64) (ctzN_zero ..)
  case popc.refl => exact congrArg (BitVec.ofNat 64) (popN_eq ..)
  case rev8.refl => exact rev8_eq x
  case zextW.refl => exact zeroExt_toNat ..
  all_goals exact signExt_toNat _ (by decide)
theorem shiftop_eq {a b : GReg} {i : BitVec 27} {f : Word → Nat → Word} (h : i.toNat ≤ 63) :
    shiftop a b i f = unop a b fun x => f x i.toNat := by
  unfold shiftop
  rw [show guardD (decide (i.toNat ≤ 63)) 0x002 5 = pure () by simp [guardD, h], pure_bind]
  rfl
/-- An instruction of one source and an immediate that it takes does the operation of the table. -/
theorem exec_immop {i : Instr} {a b : GReg} {p : Prop} {f : Word → Word} (h : immTable i = some (a, b, p, f)) (hp : p) (s : State) :
    exec i s = instr uEAN false [.rd b, .wr a] (unop a b f) s := by
  cases i <;> cases h
  case slli.refl | srli.refl => exact congrArg (instr _ _ _ · s) (shiftop_eq hp)
  case srai.refl => exact congrArg (instr _ _ _ · s) ((shiftop_eq hp).trans (unop_congr fun x => sshiftRight_eq_ofInt ..))
  case rori.refl => exact congrArg (instr _ _ _ · s) ((shiftop_eq hp).trans (unop_congr fun x => rotateRight_eq _ (Nat.lt_succ_of_le hp)))
  case slti.refl i => exact congrArg (instr _ _ _ · s) (unop_congr fun x => if_congr (by simp [slt_iff, simm, BitVec.toInt_signExtend_of_le]) rfl rfl)
  case sltiu.refl => exact congrArg (instr _ _ _ · s) (unop_congr fun x => if_congr (ult_iff ..) rfl rfl)
  all_goals rfl
/-- LI, ADH and ADPC write the result of the table. -/
theorem exec_const {i : Instr} {un : Units} {a : GReg} {f : Word → Word} (h : constTable i = some (un, a, f)) (s : State) :
    exec i s = instr un false [.wr a] (do writeResult a (f (pcOf s)); return .seq) s := by
  cases i <;> cases h <;> rfl
theorem const_ok {a : GReg} {v : Word} {s s1 : State} (h : writeResult a v s = .ok ((), s1)) :
    (do writeResult a v; return .seq : M Next) s = .ok (.seq, s1) := by rw [bind_run h]; rfl

/-- Settles O1: each instruction is the operation of its table row, read in the order b, c and written last. -/
theorem integerOperations : Obligations.IntegerOperations := by
  refine ⟨fun i a b c f h s s1 s2 s3 x y hp hb hc ha => ?_, fun i a b f h s s1 s2 x hp hb ha => ?_,
    fun i un a f h s s1 hp ha => ?_⟩
  · exact (exec_binop h s).trans (instr_ok hp (binop_ok hb hc ha))
  · exact (exec_unop h s).trans (instr_ok hp (unop_ok hb ha))
  · exact (exec_const h s).trans (instr_ok hp (const_ok ha))

/-! ### The words of page 0x02 (R131) -/

/-- The words of a page 0x02 instruction on registers 0 to 7 whose immediate needs no XI word. -/
theorem asm_pageTwo (xp : Half) (base : Nat) (a b m : BitVec 3) :
    asm (some xp) base false (.g (.g (a.setWidth 5))) (.g (.g (b.setWidth 5))) .n ⟨[], m.toNat * 8⟩ 0 =
      [xp, BitVec.ofNat 16 (base + a.toNat * 512 + b.toNat * 64 + m.toNat * 8)] := by
  have hlow : ∀ n : BitVec 3, feLow (.g (.g (n.setWidth 5))) = n.toNat := by decide
  have hhi : ∀ n : BitVec 3, gHi (.g (.g (n.setWidth 5))) = 0 := by decide
  have hx : xrBits (.g (.g (a.setWidth 5))) (.g (.g (b.setWidth 5))) .n = 0 := by rw [xrBits, hhi, hhi]; rfl
  have hc : (if false = true then feLow .n else feLow .n * 8) = 0 := rfl
  have hv : xvBits (.g (.g (a.setWidth 5))) (.g (.g (b.setWidth 5))) .n 0 = 0 := by simp [xvBits, vHi]
  rw [asm_eq, hx, hv, baseNum, hlow, hlow, hc, Nat.add_zero]
  simp only [extWord, if_true, Option.toList, List.nil_append, List.cons_append]
/-- An immediate of 3 bits, signed or not, stands in field c alone. -/
theorem sw_low (m : BitVec 3) : sw (m.signExtend 27) 3 3 2 = ⟨[], m.toNat * 8⟩ := by
  have h : ∀ m : BitVec 3, (sw (m.signExtend 27) 3 3 2).xis = [] ∧ (sw (m.signExtend 27) 3 3 2).base = m.toNat * 8 := by decide
  exact congrArg₂ Im.mk (h m).1 (h m).2
theorem zw_low (m : BitVec 3) : zw (m.setWidth 27) 3 3 2 = ⟨[], m.toNat * 8⟩ := by
  have h : ∀ m : BitVec 3, (zw (m.setWidth 27) 3 3 2).xis = [] ∧ (zw (m.setWidth 27) 3 3 2).base = m.toNat * 8 := by decide
  exact congrArg₂ Im.mk (h m).1 (h m).2
/-- The words of R131's table are those that the encoder gives. -/
theorem pageTwo_encode {a b m : BitVec 3} {r : Half × Nat × Instr} (h : r ∈ pageTwo (.g (a.setWidth 5)) (.g (b.setWidth 5)) m) :
    wellFormed r.2.2 = true ∧
      encode r.2.2 = [r.1, BitVec.ofNat 16 (0xE000 + a.toNat * 512 + b.toNat * 64 + m.toNat * 8 + r.2.1)] := by
  simp only [pageTwo, List.mem_cons, List.not_mem_nil, or_false] at h
  rcases h with rfl | rfl | rfl | rfl | rfl | rfl | rfl | rfl | rfl | rfl <;> refine ⟨rfl, ?_⟩ <;>
    simp only [encode, sw_low, zw_low, asm_pageTwo] <;> exact congrArg (fun n => [_, BitVec.ofNat 16 n]) (by omega)

/-- A shift or rotate by an immediate above 63 is refused (R131). -/
theorem shiftop_refused {a b : GReg} {i : BitVec 27} {f : Word → Nat → Word} (h : 63 < i.toNat) (s : State) :
    shiftop a b i f s = .error (.trap ⟨2, 5⟩ (baseAddr s) none) := by
  unfold shiftop
  exact bind_stop ((guardD_run ..).trans (if_neg (by simpa using h)))
/-- Settles O2: the operations of page 0x02, their shift limit, and their words by the round trip of the encoder. -/
theorem pageTwoImmediates : Obligations.PageTwoImmediates := by
  refine ⟨fun i a b p f h hp s s1 s2 x hpass hb ha => ?_, fun a b n i hi hn s hp => ?_, fun a b m r hr => ?_, rfl, rfl⟩
  · exact (exec_immop h hp s).trans (instr_ok hpass (unop_ok hb ha))
  · simp only [List.mem_cons, List.not_mem_nil, or_false] at hi
    rcases hi with rfl | rfl | rfl | rfl <;> exact instr_stop hp (shiftop_refused hn s)
  · obtain ⟨hwf, he⟩ := pageTwo_encode hr
    rw [← he]
    exact decode_encode _ hwf
end Sys2Proof.Machine

namespace Sys2Proof.Machine
open Sys2Proof.Claim

/-! # A store that aborts a reader whose record is poisoned (O4)

A store that takes effect aborts the far tasks that have read its line (R87), and the home then writes each task's record anew into its
place of the home-queue region (R69). The words of that record are written whole, so that their poison goes (R218), though the store
wrote none of them. -/

/-- The record of a far task anchored at 0x20000 of core 0. -/
def farRcd : BitVec 512 := BitVec.ofNat 512 (2 ^ 161 + 2 ^ 47 + 0x20000 * 2 ^ 13)
/-- The far task runs in slot 1, not promoted, and has read the first line of its anchor (R86). -/
def farEntry : Entry := ⟨1, farRcd, 1, none, some ⟨0, .stream 1 .exec⟩, false, 1⟩
/-- Core 0 is the task's home. The first word of its record in the home-queue region is poisoned. -/
def farHomeCore : Core :=
  let k := { Core.reset with launch := some 0, home := [ownEntry, farEntry], nextEntry := 2, poison := [8] }
  mapSlot (mapSlot k 0 fun x => { x with st := .running, task := some (placeTask 0) }) 1 fun x =>
    { x with st := .running, task := some { placeTask 0 with rcd := farRcd, entry := 1 } }
def farHome : State := { State.reset with cores := [(0, farHomeCore)] }
/-- The poisoned words of the moving unit's core after a step. -/
def poisonAfter : Out → Option (List Nat)
  | .next t => some (here t).poison
  | _ => none

theorem farHome_passes : Passes uEAN false [.rd (.g 0), .rd (.g 0)] farHome := ⟨rfl, by decide +kernel⟩
theorem farHome_ownPlace : OwnPlace farHome 0x20000 1 0x20000 := .inl ⟨by decide, by decide, by decide +kernel⟩
theorem farHome_mayWrite : MayWrite farHome 0x20000 1 := by
  intro z h1 h2
  obtain rfl : z = 0x20000 := by omega
  exact ⟨by decide +kernel, fun _ => ⟨by decide +kernel, by decide +kernel⟩⟩
/-- A store of one byte at 0x20000 takes the poison from word 8. -/
theorem stB_farHome : poisonAfter (exec (.stB (.g 0) (.g 0) 0x20000) farHome) = some [] := by decide +kernel

/-- Refutes O4: LocalStores asks of every store that only the words it writes whole lose their poison, also where the store aborts a
far task whose record in the home-queue region is poisoned; the abort rewrites that record. -/
theorem not_localLoadsAndStores : ¬Obligations.LocalLoadsAndStores := by
  rintro ⟨-, hstore, -⟩
  obtain ⟨-, hdone⟩ := hstore (.stB (.g 0) (.g 0) 0x20000) (.g 0) (.g 0) 0x20000 1 rfl farHome farHome farHome 0 0 0x20000
    farHome_passes (by rfl) (by rfl) farHome_ownPlace (by decide) farHome_mayWrite
  obtain ⟨t, ht, -, hpoison, -⟩ := hdone (by decide +kernel) (by decide +kernel)
  have hkept : 8 ∈ (here t).poison := (hpoison 8).2 ⟨by decide +kernel, by decide⟩
  have hgone : (here t).poison = [] := Option.some.inj ((ht ▸ stB_farHome : poisonAfter (.next t) = some []))
  exact absurd hkept (hgone ▸ List.not_mem_nil)

/-! # A branch that stalls (O8)

A branch whose source register a global load has reserved stalls (R137): the stream stays at the branch and is marked as stalled. -/

/-- The execute stream of slot 0 of core 0, whose load into g1 has no data yet. -/
def awaitingG1 : Thread := { Thread.reset with gld := [⟨0, 0, 0, .g 1, none, none, false, false⟩] }
def awaitingCore : Core := mapThread { Core.reset with launch := some 0 } (.stream 0 .exec) fun _ => awaitingG1
def awaiting : State := { State.reset with cores := [(0, awaitingCore)] }
/-- Whether the moving stream is marked as stalled after a step. -/
def stalledAfter : Out → Option Bool
  | .next t => some (threadOf t).stalled
  | _ => none
theorem awaiting_passes : Passes uEAN false [.rd (.g 1), .rd (.g 1)] awaiting := ⟨rfl, by decide +kernel⟩
theorem brEq_awaiting : stalledAfter (exec (.brEq (.g 1) (.g 1) 0) awaiting) = some true := by decide +kernel

/-- Refutes O8: BranchFrame says of every step of a branch on general registers that it leaves the stream not stalled, also of a
branch that waits for a register that a global load has reserved. -/
theorem not_branches : ¬Obligations.Branches := by
  rintro ⟨-, ⟨hframe, -⟩, -⟩
  have hstalled := brEq_awaiting
  cases he : exec (.brEq (.g 1) (.g 1) 0) awaiting with
  | next t =>
    rw [he] at hstalled
    have ht := hframe (.brEq (.g 1) (.g 1) 0) 1 1 0 (fun A B => A = B) awaiting t rfl awaiting_passes he
    have hnot : (threadOf t).stalled = false := by
      rw [ht, withThread]
      exact congrArg Thread.stalled (threadOf_modThread awaiting _)
    exact absurd (hnot.symm.trans (Option.some.inj hstalled)) (by decide)
  | fault _ => rw [he] at hstalled; exact absurd hstalled (by simp [stalledAfter])
  | refused _ => rw [he] at hstalled; exact absurd hstalled (by simp [stalledAfter])
end Sys2Proof.Machine

namespace Sys2Proof.Machine
open Sys2Proof.Claim

/-! # What operands and results leave of the unit (O3)

Reading and writing operands touches the moving thread's registers, its slot's queues and ports, and the mailbox. `UnitFrame` says
what of the machine, the slots and the threads that leaves; `OperandFrame` says it of the core's own fields. -/

/-! ### One thread, one slot -/

/-- A thread after its registers, flags and requests may have changed. -/
def ThreadTouched (t u : Thread) : Prop :=
  { u with pc := t.pc, g := t.g, dead := t.dead, l0 := t.l0, l1 := t.l1, fcsr := t.fcsr, pend := t.pend, rcd := t.rcd,
           stallRt := t.stallRt, stalled := t.stalled, joins := t.joins, early := t.early } = t
/-- A slot after its queues, its ports and its task's buffers may have changed. -/
def SlotTouched (x y : Slot) : Prop :=
  { y with lq := x.lq, sq := x.sq, bo := x.bo, boProd := x.boProd, rt := x.rt, ports := x.ports, task := x.task } = x
/-- A slot after words may have left its queues or receive buffers. -/
def SlotPopped (x y : Slot) : Prop := { y with lq := x.lq, sq := x.sq, bo := x.bo, rt := x.rt, ports := x.ports } = x

theorem threadTouched_trans {t u v : Thread} (h : ThreadTouched t u) (h' : ThreadTouched u v) : ThreadTouched t v := by
  unfold ThreadTouched at h h' ⊢
  conv_rhs => rw [← h, ← h']
theorem slotTouched_trans {x y z : Slot} (h : SlotTouched x y) (h' : SlotTouched y z) : SlotTouched x z := by
  unfold SlotTouched at h h' ⊢
  conv_rhs => rw [← h, ← h']
theorem slotTouched_popped {x y : Slot} (h : SlotPopped x y) : SlotTouched x y := by
  have hb : y.boProd = x.boProd := (congrArg Slot.boProd h :)
  have ht : y.task = x.task := (congrArg Slot.task h :)
  unfold SlotTouched
  rw [← hb, ← ht]
  exact h
theorem threadTouched_regSet (t : Thread) (n : BitVec 5) (v : Word) : ThreadTouched t (regSet t n v) := by
  unfold regSet
  split <;> rfl

/-! ### The machine, the threads and the slots -/

/-- What operands, results and flags leave. -/
def UnitFrame (s t : State) : Prop := OnlyHere s t ∧ OtherThreads s t ∧ SlotsKept s t ∧ ThreadKept s t

theorem unitFrame_refl (s : State) : UnitFrame s s :=
  ⟨⟨rfl, fun _ _ => rfl⟩, fun _ _ => rfl, fun _ => ⟨rfl, fun _ => rfl⟩, rfl⟩
theorem unitFrame_trans {s t u : State} (h : UnitFrame s t) (h' : UnitFrame t u) : UnitFrame s u := by
  obtain ⟨ho, hu, hs, ht⟩ := h
  obtain ⟨ho', hu', hs', ht'⟩ := h'
  have hcur := onlyHere_cur ho
  unfold OtherThreads at hu'
  unfold SlotsKept at hs'
  rw [hcur] at hu' hs'
  exact ⟨onlyHere_trans ho ho', fun v hv => (hu' v hv).trans (hu v hv),
    fun j => ⟨slotTouched_trans (hs j).1 (hs' j).1, fun hj => ((hs' j).2 hj).trans ((hs j).2 hj)⟩, threadTouched_trans ht ht'⟩
theorem unitFrame_cur {s t : State} (h : UnitFrame s t) : t.cur = s.cur := onlyHere_cur h.1
theorem unitFrame_withThread (s : State) {f : Thread → Thread} (hf : ∀ t, ThreadTouched t (f t)) : UnitFrame s (withThread s f) := by
  refine ⟨onlyHere_mapCore s _, otherThreads_modThread s f, fun j => ?_, ?_⟩
  · rw [withThread, here_mapCore]
    exact ⟨rfl, fun _ => rfl⟩
  · unfold ThreadKept
    rw [withThread, threadOf_modThread]
    exact hf _
theorem unitFrame_changeSlot (s : State) {f : Slot → Slot} (hf : ∀ x, SlotTouched x (f x)) : UnitFrame s (changeSlot s f) := by
  refine ⟨?_, ?_, fun j => ?_, ?_⟩
  · unfold changeSlot
    split
    · exact onlyHere_mapCore s _
    · exact (unitFrame_refl s).1
  · obtain ⟨-, -, -, h, -⟩ := operandKept_changeSlot s f
    exact h
  · unfold changeSlot
    split
    · next i hi =>
      rw [here_mapCore]
      by_cases hj : j = i
      · subst hj
        rw [slotAt_mapSlot]
        exact ⟨hf _, fun h => absurd hi h⟩
      · rw [slotAt_mapSlot_ne _ _ hj]
        exact ⟨rfl, fun _ => rfl⟩
    · exact ⟨rfl, fun _ => rfl⟩
  · unfold ThreadKept
    rw [threadOf_changeSlot]
theorem unitFrame_mbPop (s : State) : UnitFrame s (mapCore s s.cur.core mbPop) := by
  refine ⟨onlyHere_mapCore s _, fun u _ => ?_, fun j => ?_, ?_⟩
  · rw [here_mapCore]; rfl
  · rw [here_mapCore]; exact ⟨rfl, fun _ => rfl⟩
  · unfold ThreadKept
    rw [threadOf, mapCore_cur, coreAt_mapCore]
    rfl
theorem unitFrame_forgetEarly (s : State) : UnitFrame s (forgetEarly s) := by
  unfold forgetEarly
  split
  · exact unitFrame_refl s
  · exact unitFrame_withThread s fun _ => rfl
theorem unitFrame_goes {s s1 : State} (h : UnitFrame s s1) : UnitFrame s (goes s s1) :=
  unitFrame_trans h (unitFrame_withThread s1 (f := movedOn (pcOf s) (lenOf s)) fun _ => rfl)

/-! ### Reading -/

/-- All that a pop does, by the slot or the mailbox. -/
theorem popQ_popped {c : Nat} {s t : State} {v : Word} (hc : 2 ≤ c) (h : popQ c s = .ok (v, t)) :
    (∃ f : Slot → Slot, (∀ x, SlotPopped x (f x)) ∧ (f (slotOf s)).lq <:+ (slotOf s).lq ∧ t = changeSlot (forgetEarly s) f) ∨
      t = mapCore (forgetEarly s) (forgetEarly s).cur.core mbPop := by
  rcases (by omega : c = 2 ∨ c = 3 ∨ c = 4 ∨ c = 5 ∨ c = 6 ∨ 7 ≤ c) with rfl | rfl | rfl | rfl | rfl | h7
  · rw [popQ_lq] at h
    split at h
    · next w r hlq =>
      cases h
      exact .inl ⟨_, by exact fun _ => rfl, by exact ⟨[_], hlq.symm⟩, rfl⟩
    · cases h
  · rw [popQ_sq] at h
    split at h <;> cases h
    exact .inl ⟨_, by exact fun _ => rfl, by exact List.suffix_rfl, rfl⟩
  · rw [popQ_bo] at h
    split at h <;> cases h
    exact .inl ⟨_, by exact fun _ => rfl, by exact List.suffix_rfl, rfl⟩
  · rw [popQ_rt] at h
    split at h <;> cases h
    exact .inl ⟨_, by exact fun _ => rfl, by exact List.suffix_rfl, rfl⟩
  · rw [popQ_mb, ← forgetEarly_cur s] at h
    split at h
    · cases h
    · split at h <;> cases h
      exact .inr rfl
  · rw [popQ_port h7] at h
    split at h
    · cases h
    · split at h <;> cases h
      exact .inl ⟨_, by exact fun _ => rfl, by exact List.suffix_rfl, rfl⟩
theorem unitFrame_popQ {c : Nat} {s t : State} {v : Word} (hc : 2 ≤ c) (h : popQ c s = .ok (v, t)) : UnitFrame s t := by
  rcases popQ_popped hc h with ⟨f, hf, -, rfl⟩ | rfl
  · exact unitFrame_trans (unitFrame_forgetEarly s) (unitFrame_changeSlot _ fun x => slotTouched_popped (hf x))
  · exact unitFrame_trans (unitFrame_forgetEarly s) (unitFrame_mbPop _)
theorem unitFrame_readG {b : GReg} {s t : State} {v : Word} (h : readG b s = .ok (v, t)) : UnitFrame s t := by
  rcases readG_cases h with rfl | ⟨c, hc, hp⟩
  · exact unitFrame_refl _
  · exact unitFrame_popQ hc hp
/-- What reading operands leaves of a core's slots: words may leave their queues. -/
def SlotsPopped (k k' : Core) : Prop :=
  ∀ j, SlotPopped (slotAt k j) (slotAt k' j) ∧ (slotAt k' j).lq <:+ (slotAt k j).lq
theorem slotsPopped_of_eq {k k' : Core} (h : ∀ j, slotAt k' j = slotAt k j) : SlotsPopped k k' :=
  fun j => by rw [h j]; exact ⟨rfl, List.suffix_rfl⟩
theorem slotsPopped_changeSlot (s : State) {f : Slot → Slot} (hf : ∀ x, SlotPopped x (f x)) (hlq : (f (slotOf s)).lq <:+ (slotOf s).lq) :
    SlotsPopped (here s) (here (changeSlot s f)) := by
  unfold changeSlot
  split
  · next i hi =>
    intro j
    rw [here_mapCore]
    by_cases hj : j = i
    · subst hj
      have hslot : slotOf s = slotAt (here s) j := by rw [slotOf, hi]
      rw [slotAt_mapSlot, ← hslot]
      exact ⟨hf _, hlq⟩
    · rw [slotAt_mapSlot_ne _ _ hj]
      exact ⟨rfl, List.suffix_rfl⟩
  · exact slotsPopped_of_eq fun _ => rfl
theorem slotsPopped_trans {k k' k'' : Core} (h : SlotsPopped k k') (h' : SlotsPopped k' k'') : SlotsPopped k k'' := by
  refine fun j => ⟨?_, (h' j).2.trans (h j).2⟩
  have h1 := (h j).1
  have h2 := (h' j).1
  unfold SlotPopped at h1 h2 ⊢
  conv_rhs => rw [← h1, ← h2]
/-- A read takes no number, and of the slots only words. -/
theorem readG_popped {b : GReg} {s t : State} {v : Word} (h : readG b s = .ok (v, t)) :
    t.nextId = s.nextId ∧ SlotsPopped (here s) (here t) := by
  have hid : (forgetEarly s).nextId = s.nextId := by unfold forgetEarly; split <;> rfl
  have hearly : ∀ j, slotAt (here (forgetEarly s)) j = slotAt (here s) j := fun j => by
    rw [slotAt, here, forgetEarly_cur, slots_forgetEarly s]; rfl
  rcases readG_cases h with rfl | ⟨c, hc, hp⟩
  · exact ⟨rfl, slotsPopped_of_eq fun _ => rfl⟩
  · rcases popQ_popped hc hp with ⟨f, hf, hlq, rfl⟩ | rfl
    · refine ⟨?_, slotsPopped_trans (slotsPopped_of_eq hearly) (slotsPopped_changeSlot _ hf (by rw [slotOf_forgetEarly]; exact hlq))⟩
      unfold changeSlot
      split <;> exact hid
    · refine ⟨hid, slotsPopped_trans (slotsPopped_of_eq hearly) (slotsPopped_of_eq fun j => ?_)⟩
      rw [here_mapCore]
      rfl
/-- What reading operands leaves. -/
structure ReadLeft (s t : State) : Prop where
  unit : UnitFrame s t
  regs : StoreRegs s t
  core : CoreKept s t
  sbuf : ∀ u, (threadAt (here t) u).sbuf = (threadAt (here s) u).sbuf
  pc : pcOf t = pcOf s
  nextId : t.nextId = s.nextId
  slots : SlotsPopped (here s) (here t)
theorem readLeft_readG {b : GReg} {s t : State} {v : Word} (h : readG b s = .ok (v, t)) : ReadLeft s t := by
  obtain ⟨⟨hr, -, -, -, hp, -⟩, -, hc, hb, -⟩ := readG_kept h
  obtain ⟨hid, hslots⟩ := readG_popped h
  exact ⟨unitFrame_readG h, hr, hc, hb, hp, hid, hslots⟩
theorem readLeft_refl (s : State) : ReadLeft s s :=
  ⟨unitFrame_refl s, (operandKept_refl s).1, rfl, fun _ => rfl, rfl, rfl, slotsPopped_of_eq fun _ => rfl⟩
theorem readLeft_trans {s t u : State} (h : ReadLeft s t) (h' : ReadLeft t u) : ReadLeft s u := by
  refine ⟨unitFrame_trans h.unit h'.unit, ?_, ?_, fun u => (h'.sbuf u).trans (h.sbuf u), h'.pc.trans h.pc, h'.nextId.trans h.nextId,
    slotsPopped_trans h.slots h'.slots⟩
  · obtain ⟨a1, a2, a3, a4, a5, a6, a7⟩ := h.regs
    obtain ⟨b1, b2, b3, b4, b5, b6, b7⟩ := h'.regs
    exact ⟨fun n => (b1 n).trans (a1 n), b2.trans a2, b3.trans a3, b4.trans a4, b5.trans a5, b6.trans a6, b7.trans a7⟩
  · have hk := h.core
    have hk' := h'.core
    unfold CoreKept at hk hk' ⊢
    conv_rhs => rw [← hk, ← hk']

/-! ### Writing -/

section
variable {s t : State} (v : Word)

theorem unitFrame_stallOr {b : Bool} {f : Slot → Slot}
    (h : (if b then .error (.stall false) else .ok ((), changeSlot s f) : Except Stop (Unit × State)) = .ok ((), t))
    (hf : ∀ x, SlotTouched x (f x)) : UnitFrame s t := by
  split at h <;> cases h
  exact unitFrame_changeSlot s hf
theorem unitFrame_hold {o : Outgoing} (h : hold o s = .ok ((), t)) : UnitFrame s t := by
  cases hk : (slotOf s).task with
  | none =>
    unfold hold at h
    rw [bind_run (getSlot_run s), hk] at h
    cases h
    exact unitFrame_refl s
  | some k => exact unitFrame_stallOr ((hold_run o hk).symm.trans h) fun _ => rfl
theorem unitFrame_sent (s : State) (p : Fin 4) : UnitFrame s (sent s p v) := by
  obtain ⟨⟨hs, hc⟩, hu, hj, ht⟩ := unitFrame_changeSlot s (f := sending p (unitSide s.cur.unit, s.nextId, v)) fun _ => rfl
  exact ⟨⟨hs, hc⟩, hu, hj, ht⟩
theorem unitFrame_pushPort {p : Fin 4} (h : pushPort p v s = .ok ((), t)) : UnitFrame s t := by
  cases hb : (slotOf s).ports[p].cfg.getLsbD 31 with
  | false => cases (pushPort_unbound v hb).symm.trans h
  | true =>
    cases hs : isSpec s with
    | true => exact unitFrame_hold (pushPort_spec v hb hs ▸ h)
    | false =>
      rw [pushPort_run v hb hs] at h
      split at h <;> cases h
      exact unitFrame_sent v s p
theorem unitFrame_pushQ {c : Nat} (h : pushQ c v s = .ok ((), t)) : UnitFrame s t := by
  by_cases hb : (threadOf s).sbuf = []
  · by_cases hq : c ∈ [2, 3, 4, 5]
    · simp only [List.mem_cons, List.not_mem_nil, or_false] at hq
      rcases hq with rfl | rfl | rfl | rfl
      · exact unitFrame_stallOr ((pushQ_lq v hb).symm.trans h) fun _ => rfl
      · exact unitFrame_stallOr ((pushQ_sq v hb).symm.trans h) fun _ => rfl
      · exact unitFrame_stallOr ((pushQ_bo v hb).symm.trans h) fun _ => rfl
      · exact unitFrame_stallOr ((pushQ_rt v hb).symm.trans h) fun _ => rfl
    · by_cases hp : 8 ≤ c ∧ c ≤ 11
      · exact unitFrame_pushPort v (pushQ_port v hb hp.1 hp.2 ▸ h)
      · obtain ⟨e, he⟩ := pushQ_other (s := s) v hq hp
        cases he.symm.trans h
  · cases (pushQ_waiting v c hb).symm.trans h

/-! ### A destination written (R43) -/

/-- What a write of the destination `a` leaves: the registers but `a`, l0, l1, the flags and the PC. -/
structure DestKept (a : GReg) (s t : State) : Prop where
  regs : RegsKept a s t
  l0 : (threadOf t).l0 = (threadOf s).l0
  l1 : (threadOf t).l1 = (threadOf s).l1
  fcsr : (threadOf t).fcsr = (threadOf s).fcsr
  pc : pcOf t = pcOf s
  ir : t.ir = s.ir

theorem regsKept_of_storeRegs {a : GReg} (h : StoreRegs s t) : RegsKept a s t := by
  obtain ⟨hv, hd, -⟩ := h
  exact fun n _ => ⟨hv n, by rw [hd]⟩
theorem regsKept_trans {a : GReg} {u : State} (h : RegsKept a s t) (h' : RegsKept a t u) : RegsKept a s u :=
  fun n hn => ⟨(h' n hn).1.trans (h n hn).1, (h' n hn).2.trans (h n hn).2⟩
theorem destKept_of_operand {a : GReg} (h : OperandKept s t) : DestKept a s t := by
  obtain ⟨hr, -, -, -, hp, hi⟩ := h
  obtain ⟨-, -, h0, h1, hf, -⟩ := id hr
  exact ⟨regsKept_of_storeRegs hr, h0, h1, hf, hp, hi⟩
theorem regsKept_regSet {n : BitVec 5} : RegsKept (.g n) s (withThread s fun t => regSet t n v) := by
  intro m hm
  have hmn : m ≠ n := fun e => hm (e ▸ rfl)
  rw [withThread, threadOf_modThread]
  refine ⟨regVal_regSet_ne _ v hmn, ?_⟩
  by_cases h0 : n = 0
  · simp [regSet, h0]
  · rw [dead_regSet _ _ h0]
    simp [hmn]
/-- A write of the destination: the value read back from a register, and what is left. -/
theorem writeG_kept {a : GReg} (h : writeG a v s = .ok ((), t)) :
    UnitFrame s t ∧ DestKept a s t ∧ ∀ n, a = .g n → regVal (threadOf t) n = if n = 0 then 0 else v := by
  cases a with
  | g n =>
    cases hl : locked (threadOf s) n with
    | true => cases (writeReg_locked hl).symm.trans h
    | false =>
      cases (writeReg_ok hl).symm.trans h
      have hth := threadOf_modThread s fun t => regSet t n v
      obtain ⟨h0, h1, hp⟩ := regSet_kept (threadOf s) n v
      have hf : (regSet (threadOf s) n v).fcsr = (threadOf s).fcsr := by unfold regSet; split <;> rfl
      refine ⟨unitFrame_withThread s fun t => threadTouched_regSet t n v, ⟨regsKept_regSet v, ?_, ?_, ?_, ?_, rfl⟩, fun m hm => ?_⟩
      · rw [hth, h0]
      · rw [hth, h1]
      · rw [hth, hf]
      · rw [pcOf, hth, hp]; rfl
      · cases hm
        rw [hth, regVal_regSet]
  | sp c => exact ⟨unitFrame_pushQ v h, destKept_of_operand (pushQ_kept v h), fun n hn => by cases hn⟩
/-- A thread with a result in l0. -/
def resulted (v : Word) (t : Thread) : Thread := { t with l1 := t.l0, l0 := v }
/-- A write of the one result: the destination's, then l0 and l1 move on. -/
theorem writeResult_cases {a : GReg} (h : writeResult a v s = .ok ((), t)) :
    ∃ s1, writeG a v s = .ok ((), s1) ∧ t = withThread s1 (resulted v) := by
  obtain ⟨⟨⟩, s1, hw, h1⟩ := (bind_ok ..).1 h
  cases h1
  exact ⟨s1, hw, rfl⟩
theorem memKept_of_coreKept (h : CoreKept s t) : MemKept s t := fun x => congrArg (peek · x) (coreKept_field Core.mem (fun _ _ => rfl) h)
end

section
variable {s s2 s3 : State} {a : GReg} {v : Word}

theorem unitFrame_writeResult (h : writeResult a v s2 = .ok ((), s3)) : UnitFrame s2 s3 := by
  obtain ⟨s1, hw, rfl⟩ := writeResult_cases v h
  exact unitFrame_trans (writeG_kept v hw).1 (unitFrame_withThread s1 fun _ => rfl)
/-- The registers and flags after the write of a result, the stream moved on. -/
theorem regs_writeResult (h : writeResult a v s2 = .ok ((), s3)) : RegsKept a s2 (goes s s3) ∧ (threadOf (goes s s3)).l0 = v ∧
    (threadOf (goes s s3)).l1 = (threadOf s2).l0 ∧ (threadOf (goes s s3)).fcsr = (threadOf s2).fcsr ∧
    ∀ n, a = .g n → regVal (threadOf (goes s s3)) n = if n = 0 then 0 else v := by
  obtain ⟨s1, hw, rfl⟩ := writeResult_cases v h
  obtain ⟨-, hd, hv⟩ := writeG_kept v hw
  have hth : threadOf (goes s (withThread s1 (resulted v))) = movedOn (pcOf s) (lenOf s) (resulted v (threadOf s1)) := by
    rw [threadOf_advance_seq, withThread, threadOf_modThread]; rfl
  rw [RegsKept, hth]
  exact ⟨fun n hn => ⟨(regVal_congr rfl rfl n).trans (hd.regs n hn).1, (hd.regs n hn).2⟩, rfl, hd.l0, hd.fcsr,
    fun n hn => (regVal_congr rfl rfl n).trans (hv n hn)⟩
/-- An instruction that ends by writing its one result is done: `s` is the state before it, `s2` that before the write. -/
theorem resultDone_of (hu : UnitFrame s s2) (hc : CoreKept s s2) (hk : RegsKept a s s2) (h0 : (threadOf s2).l0 = (threadOf s).l0)
    (h : writeResult a v s2 = .ok ((), s3)) : ResultDone a v s (goes s s3) := by
  obtain ⟨hr, hl0, hl1, -, hv⟩ := regs_writeResult (s := s) h
  have hcore : CoreKept s (goes s s3) := by
    obtain ⟨⟨-, hw, -⟩, -⟩ := writeResult_frame v h
    have hg : here (goes s s3) = mapThread (here s3) s3.cur.unit (movedOn (pcOf s) (lenOf s)) := here_goes s s3
    unfold CoreKept at hc hw ⊢
    rw [hg]
    conv_rhs => rw [← hc, ← hw]
    rfl
  obtain ⟨ho, hother, hslots, hthread⟩ := unitFrame_goes (unitFrame_trans hu (unitFrame_writeResult h))
  exact ⟨⟨ho, hcore, memKept_of_coreKept hcore, hother, hslots, hthread, regsKept_trans hk hr⟩, hl0, hl1.trans h0, hv, pc_goes s s3⟩
theorem resultDone_of_read (hl : ReadLeft s s2) (h : writeResult a v s2 = .ok ((), s3)) :
    ResultDone a v s (goes s s3) ∧ (threadOf (goes s s3)).fcsr = (threadOf s).fcsr := by
  obtain ⟨-, -, -, hf, -⟩ := regs_writeResult (s := s) h
  obtain ⟨-, -, h0, -, hfcsr, -⟩ := hl.regs
  exact ⟨resultDone_of hl.unit hl.core (regsKept_of_storeRegs hl.regs) h0 h, hf.trans hfcsr⟩
end

/-! ### The integer and immediate instructions (O3) -/

/-- Settles O3: each instruction is its operation (exec_binop, exec_unop, exec_immop, exec_const), which only reads operands before it
writes its result. -/
theorem integerFrame : Obligations.IntegerFrame := by
  refine ⟨fun i a b c f h s s1 s2 s3 x y hp hb hc ha => ?_, fun i a b f h s s1 s2 x hp hb ha => ?_, fun i un a f h s s1 hp ha => ?_⟩
  · exact ⟨_, (exec_binop h s).trans (instr_ok hp (binop_ok hb hc ha)),
      resultDone_of_read (readLeft_trans (readLeft_readG hb) (readLeft_readG hc)) ha⟩
  · have he : exec i s = instr uEAN false [.rd b, .wr a] (unop a b f) s := by
      rcases h with h | ⟨p, h, hq⟩
      · exact exec_unop h s
      · exact exec_immop h hq s
    exact ⟨_, he.trans (instr_ok hp (unop_ok hb ha)), resultDone_of_read (readLeft_readG hb) ha⟩
  · exact ⟨_, (exec_const h s).trans (instr_ok hp (const_ok ha)), resultDone_of_read (readLeft_refl s) ha⟩
end Sys2Proof.Machine

namespace Sys2Proof.Machine
open Sys2Proof.Claim

/-! # Scalar floating point (O11) -/

/-! ### Flags (R14, R17) -/

/-- The enable bit of flag i is bit 8 + i of FCSR. -/
theorem getLsbD_enables (fcsr : BitVec 32) {i : Nat} (h : i < 5) : (BitVec.ofNat 5 (bits fcsr 12 8)).getLsbD i = fcsr.getLsbD (8 + i) := by
  have hb : bits fcsr 12 8 = fcsr.toNat / 2 ^ 8 % 2 ^ 5 := rfl
  rw [hb, BitVec.getLsbD_ofNat, Nat.testBit_mod_two_pow, Nat.testBit_div_two_pow, decide_eq_true h, Nat.add_comm 8 i]
  rfl
theorem enabledFlag_eq (fcsr : BitVec 32) (f : Flags) : enabledFlag fcsr f =
    if fcsr.getLsbD 12 && f.getLsbD 4 then some 0 else if fcsr.getLsbD 11 && f.getLsbD 3 then some 1
    else if fcsr.getLsbD 10 && f.getLsbD 2 then some 2 else if fcsr.getLsbD 9 && f.getLsbD 1 then some 3
    else if fcsr.getLsbD 8 && f.getLsbD 0 then some 4 else none := by
  simp only [enabledFlag, BitVec.getLsbD_and, getLsbD_enables fcsr (by decide : 4 < 5), getLsbD_enables fcsr (by decide : 3 < 5),
    getLsbD_enables fcsr (by decide : 2 < 5), getLsbD_enables fcsr (by decide : 1 < 5), getLsbD_enables fcsr (by decide : 0 < 5)]
theorem enabledFlag_none {s : State} {f : Flags} (h : noneEnabled s f) : enabledFlag (threadOf s).fcsr f = none := by
  have hoff : ∀ i < 5, ((threadOf s).fcsr.getLsbD (8 + i) && f.getLsbD i) = false := fun i hi => by
    cases hf : f.getLsbD i with
    | false => rw [Bool.and_false]
    | true => rw [h i hi hf]; rfl
  rw [enabledFlag_eq, hoff 4 (by decide), hoff 3 (by decide), hoff 2 (by decide), hoff 1 (by decide), hoff 0 (by decide)]
  rfl
theorem enabledFlag_first {s : State} {f : Flags} {n : Nat} (h : firstEnabled s f n) : enabledFlag (threadOf s).fcsr f = some n := by
  obtain ⟨h5, hf, hen, hno⟩ := h
  have hon : ((threadOf s).fcsr.getLsbD (12 - n) && f.getLsbD (4 - n)) = true := by rw [hf, hen]; rfl
  have hoff : ∀ j < n, ((threadOf s).fcsr.getLsbD (12 - j) && f.getLsbD (4 - j)) = false := fun j hj => by
    have := hno j hj
    rw [← Bool.not_eq_true, Bool.and_eq_true, and_comm]
    exact this
  rw [enabledFlag_eq]
  match n with
  | 0 => rw [if_pos hon]
  | 1 => rw [hoff 0 (by decide), if_pos hon]; rfl
  | 2 => rw [hoff 0 (by decide), hoff 1 (by decide), if_pos hon]; rfl
  | 3 => rw [hoff 0 (by decide), hoff 1 (by decide), hoff 2 (by decide), if_pos hon]; rfl
  | 4 => rw [hoff 0 (by decide), hoff 1 (by decide), hoff 2 (by decide), hoff 3 (by decide), if_pos hon]; rfl

section
variable {s : State} {r : Fr Nat} {a : GReg}

theorem fres_run (h : enabledFlag (threadOf s).fcsr r.f = none) :
    fres a r s = (do writeResult a (BitVec.ofNat 64 r.v); return .seq : M Next) (flagged s r.f) := by
  have hf : raiseFlags r.f s = .ok ((), flagged s r.f) := by
    unfold raiseFlags
    rw [bind_run (getThread_run s), h]
    rfl
  unfold fres
  exact bind_run hf
theorem fres_trap {n : Nat} (h : enabledFlag (threadOf s).fcsr r.f = some n) :
    fres a r s = .error (.trap (why (0x160 + n) r.f.toNat) 0 none) := by
  have hf : raiseFlags r.f s = .error (.trap (why (0x160 + n) r.f.toNat) 0 none) := by
    unfold raiseFlags
    rw [bind_run (getThread_run s), h]
    rfl
  unfold fres
  exact bind_stop hf
end

/-! ### The instructions as their operations (R144, R145) -/

theorem fbin_run {a b c : GReg} {f : Rm → Nat → Nat → Fr Nat} {s s1 s2 : State} {x y : Word} (hb : readG b s = .ok (x, s1))
    (hc : readG c s1 = .ok (y, s2)) : fbin a b c f s = fres a (f (rmOf (threadOf s2).fcsr) (low32 x) (low32 y)) s2 := by
  unfold fbin getRm
  rw [bind_run hb, bind_run hc]
  rfl
theorem fun1_run {a b : GReg} {f : Rm → Word → Fr Nat} {s s1 : State} {x : Word} (hb : readG b s = .ok (x, s1)) :
    fun1 a b f s = fres a (f (rmOf (threadOf s1).fcsr) x) s1 := by
  unfold fun1 getRm
  rw [bind_run hb]
  rfl
/-- A comparison of R144 is the table's. -/
theorem cmpF_eq (any : Bool) (p : FVal → FVal → Bool) (x y : Nat) :
    (⟨if (cmpF .fp32 x y any p).v then 1 else 0, (cmpF .fp32 x y any p).f⟩ : Fr Nat) = comparison any p x y := by
  have hc : cmpF .fp32 x y any p = if isNan (decodeF .fp32 x) || isNan (decodeF .fp32 y) then
      ⟨false, snanFlag (any || isSnan (decodeF .fp32 x) || isSnan (decodeF .fp32 y))⟩ else ⟨p (decodeF .fp32 x) (decodeF .fp32 y), 0⟩ := rfl
  unfold comparison
  rw [hc]
  by_cases h : isNan (decodeF .fp32 x) = true ∨ isNan (decodeF .fp32 y) = true
  · rw [if_pos h, if_pos ((Bool.or_eq_true ..).mpr h)]
    simp only [snanFlag, Bool.or_eq_true, or_assoc]
    rfl
  · rw [if_neg h, if_neg (mt (Bool.or_eq_true ..).mp h)]
/-- The two's complement value of the low bits is that of the bit vector they form. -/
theorem sInt_eq {n : Nat} (v : Nat) (h0 : 0 < n) : sInt n v = (BitVec.ofNat n v).toInt := by
  have hp : 2 ^ n = 2 * 2 ^ (n - 1) := by rw [← Nat.pow_succ', Nat.succ_eq_add_one, Nat.sub_add_cancel h0]
  rw [sInt, BitVec.toInt_eq_toNat_cond, BitVec.toNat_ofNat]
  by_cases hv : 2 ^ (n - 1) ≤ v % 2 ^ n
  · rw [if_pos ⟨hv, h0⟩, if_neg (by omega)]; push_cast; rfl
  · rw [if_neg (fun k => hv k.1), if_pos (by omega)]
theorem wrapInt_eq (x : Int) : wrapInt 64 x = (BitVec.ofInt 64 x).toNat := (BitVec.toNat_ofInt ..).symm
theorem fbin_congr {a b c : GReg} {f g : Rm → Nat → Nat → Fr Nat} (h : ∀ rm x y, g rm x y = f rm x y) : fbin a b c g = fbin a b c f := by
  rw [show g = f from funext fun rm => funext fun x => funext (h rm x)]
theorem fun1_congr {a b : GReg} {f g : Rm → Word → Fr Nat} (h : ∀ rm x, g rm x = f rm x) : fun1 a b g = fun1 a b f := by
  rw [show g = f from funext fun rm => funext (h rm)]
theorem exec_fbin {i : Instr} {a b c : GReg} {f : Rm → Nat → Nat → Fr Nat} (h : fpTable i = some (a, b, c, f)) (s : State) :
    exec i s = instr uEA false [.rd b, .rd c, .wr a] (fbin a b c f) s := by
  cases i <;> cases h
  case feq.refl | flt.refl | fle.refl =>
    exact congrArg (instr uEA false [.rd b, .rd c, .wr a] · s) (fbin_congr fun _ x y => cmpF_eq ..)
  all_goals rfl
theorem exec_fun1 {i : Instr} {a b : GReg} {f : Rm → Word → Fr Nat} (h : fpUnaryTable i = some (a, b, f)) (s : State) :
    exec i s = instr uEA false [.rd b, .wr a] (fun1 a b f) s := by
  cases i <;> cases h
  case fcvtWS.refl | fcvtLS.refl | fcvtWuS.refl =>
    exact congrArg (instr uEA false [.rd b, .wr a] · s) (fun1_congr fun rm x => congrArg₂ Fr.mk (wrapInt_eq _) rfl)
  case fcvtSW.refl =>
    exact congrArg (instr uEA false [.rd b, .wr a] · s) (fun1_congr fun rm x => congrArg (ofInt .fp32 rm) ((sInt_eq _ (by decide)).trans (by rw [BitVec.ofNat_toNat])))
  all_goals rfl

/-! ### The result and its frame -/

section
variable {s s2 s3 : State} {r : Fr Nat} {a : GReg}

/-- Once its operands are read, an operation none of whose flags is enabled writes its result with the flags ORed in. -/
theorem fres_done (hl : ReadLeft s s2) (hn : noneEnabled s r.f) (ha : writeResult a (BitVec.ofNat 64 r.v) (flagged s2 r.f) = .ok ((), s3)) :
    fres a r s2 = .ok (.seq, s3) ∧ ResultDone a (BitVec.ofNat 64 r.v) s (goes s s3) ∧
      (threadOf (goes s s3)).fcsr = (threadOf s).fcsr ||| r.f.setWidth 32 := by
  have hth : threadOf (flagged s2 r.f) = { threadOf s2 with fcsr := (threadOf s2).fcsr ||| r.f.setWidth 32 } := threadOf_modThread ..
  obtain ⟨-, -, hl0, -, hfcsr, -⟩ := hl.regs
  obtain ⟨-, -, -, hf, -⟩ := regs_writeResult (s := s) ha
  have hu : UnitFrame s (flagged s2 r.f) := unitFrame_trans hl.unit (unitFrame_withThread s2 fun _ => rfl)
  have hc : CoreKept s (flagged s2 r.f) := by
    have hk := hl.core
    unfold CoreKept at hk ⊢
    rw [flagged, withThread, here_mapCore]
    conv_rhs => rw [← hk]
    rfl
  have hr : RegsKept a s (flagged s2 r.f) := by
    refine regsKept_trans (regsKept_of_storeRegs hl.regs) fun n _ => ?_
    rw [hth]
    exact ⟨regVal_congr rfl rfl n, rfl⟩
  refine ⟨?_, resultDone_of hu hc hr (by rw [hth]; exact hl0) ha, ?_⟩
  · rw [fres_run (by rw [hfcsr]; exact enabledFlag_none hn)]
    exact const_ok ha
  · rw [hf, hth, ← hfcsr]
end

/-- The part of O11 on results and flags. -/
theorem scalarFloat_results : Claim.ScalarFloat := by
  refine ⟨fun i a b c f h s s1 s2 s3 x y hp hb hc => ?_, fun i a b f h s s1 s2 x hp hb => ?_,
    fun a b c s s1 s2 s3 s4 x y z hp hb hc ha => ?_⟩
  · intro r hn hw
    have hl := readLeft_trans (readLeft_readG hb) (readLeft_readG hc)
    obtain ⟨hr, hd⟩ := fres_done hl hn hw
    obtain ⟨-, -, -, -, hfcsr, -⟩ := hl.regs
    exact ⟨(exec_fbin h s).trans (instr_ok hp ((fbin_run hb hc).trans (by rw [hfcsr]; exact hr))), hd⟩
  · intro r hn hw
    have hl := readLeft_readG hb
    obtain ⟨hr, hd⟩ := fres_done hl hn hw
    obtain ⟨-, -, -, -, hfcsr, -⟩ := hl.regs
    exact ⟨(exec_fun1 h s).trans (instr_ok hp ((fun1_run hb).trans (by rw [hfcsr]; exact hr))), hd⟩
  · intro r hn hw
    have hl := readLeft_trans (readLeft_trans (readLeft_readG hb) (readLeft_readG hc)) (readLeft_readG ha)
    obtain ⟨hr, hd⟩ := fres_done hl hn hw
    obtain ⟨-, -, -, -, hfcsr, -⟩ := hl.regs
    refine ⟨instr_ok hp ?_, hd⟩
    rw [bind_run hb, bind_run hc, bind_run ha]
    refine Eq.trans ?_ hr
    show fres a (fFma .fp32 (rmOf (threadOf s3).fcsr) (low32 x) (low32 y) (low32 z)) s3 = _
    rw [hfcsr]

/-- Settles O11: the operations are those of the tables, and what raiseFlags does with their flags decides between result and trap. -/
theorem scalarFloat : Obligations.ScalarFloat := by
  refine ⟨scalarFloat_results, fun i a b c f h s s1 s2 x y n hp hb hc => ?_⟩
  intro r hn
  obtain ⟨-, -, -, -, hfcsr, -⟩ := (readLeft_trans (readLeft_readG hb) (readLeft_readG hc)).regs
  refine (exec_fbin h s).trans (instr_stop (e := .trap (why (0x160 + n) r.f.toNat) 0 none) hp ((fbin_run hb hc).trans ?_))
  rw [hfcsr]
  exact fres_trap (by rw [hfcsr]; exact enabledFlag_first hn)
end Sys2Proof.Machine

namespace Sys2Proof.Machine
open Sys2Proof.Claim

/-! # Calls, returns, landing pads and the access stream (O9) -/

/-! ### Changes one after the other -/

theorem mapPut_mapPut {α : Type} (k : Nat) (v w : α) (l : List (Nat × α)) : mapPut k v (mapPut k w l) = mapPut k v l := by
  induction l with
  | nil => simp [mapPut]
  | cons e r ih =>
    obtain ⟨j, x⟩ := e
    by_cases hlt : j < k
    · simp [mapPut, hlt, ih]
    · by_cases he : j = k <;> simp [mapPut, hlt, he]
theorem mapCore_mapCore (s : State) (c : Coord) (f g : Core → Core) : mapCore (mapCore s c f) c g = mapCore s c fun k => g (f k) := by
  have h : coreAt (mapCore s c f) c = f (coreAt s c) := coreAt_mapCore ..
  rw [mapCore, h]
  simp only [mapCore, setCore, mapPut_mapPut]
theorem mapThread_mapThread (k : Core) (u : UnitId) (f g : Thread → Thread) :
    mapThread (mapThread k u f) u g = mapThread k u fun t => g (f t) := by
  rw [mapThread, threadAt_mapThread]
  simp [mapThread]
theorem withThread_withThread (s : State) (f g : Thread → Thread) : withThread (withThread s f) g = withThread s fun t => g (f t) := by
  unfold withThread
  rw [mapCore_cur, mapCore_mapCore]
  simp only [mapThread_mapThread]

/-! ### Landing pads (R149) -/

section
variable {s s1 : State} {T : Word} {k : Nat}

theorem getLsbD_zero_iff (T : Word) : T.getLsbD 0 = true ↔ T.toNat % 2 = 1 := by
  simp [BitVec.getLsbD, Nat.testBit_zero]
theorem padWord_eq (k : Nat) : BitVec.ofNat 16 (0x9000 + 0x200 * k) = padWord k := by
  rw [padWord, Nat.mul_comm]
theorem fetchable_iff (k : Core) (T : Word) : fetchable k T = true ↔ T.toNat < 0x200000 ∧ (attrOf k (T.toNat / 4096)).getLsbD 2 = true := by
  rw [fetchable, Bool.and_eq_true, decide_eq_true_iff]
theorem padCheck_none (h : PadAt s T k) : padCheck (here s) (threadOf s) T k = none := by
  obtain ⟨heven, hlow, hx, hw⟩ := h
  have h0 : ¬T.getLsbD 0 = true := fun h => by rw [getLsbD_zero_iff] at h; omega
  rw [padCheck, if_neg h0, (fetchable_iff _ T).2 ⟨hlow, hx⟩, hw, padWord_eq]
  simp
theorem padCheck_odd (h : T.toNat % 2 = 1) : padCheck (here s) (threadOf s) T k = some (why 0x041 0, T, none) :=
  if_pos ((getLsbD_zero_iff T).2 h)
theorem padCheck_unfetchable (h : T.toNat % 2 = 0)
    (hx : 0x200000 ≤ T.toNat ∨ (attrOf (here s) (T.toNat / 4096)).getLsbD 2 = false) :
    padCheck (here s) (threadOf s) T k = some (why 0x064 0, T, some T) := by
  have h0 : ¬T.getLsbD 0 = true := fun h => by rw [getLsbD_zero_iff] at h; omega
  have hf : fetchable (here s) T = false := by
    rw [← Bool.not_eq_true, fetchable_iff]
    rintro ⟨hlow, hx'⟩
    rcases hx with hx | hx
    · omega
    · rw [hx] at hx'; cases hx'
  rw [padCheck, if_neg h0, hf]
  rfl
theorem padCheck_wrong (h : T.toNat % 2 = 0) (hlow : T.toNat < 0x200000) (hx : (attrOf (here s) (T.toNat / 4096)).getLsbD 2 = true)
    (hw : fetchHalf (here s) (threadOf s) T.toNat ≠ padWord k) : padCheck (here s) (threadOf s) T k = some (why 0x040 k, T, none) := by
  have h0 : ¬T.getLsbD 0 = true := fun h => by rw [getLsbD_zero_iff] at h; omega
  rw [padCheck, if_neg h0, (fetchable_iff _ T).2 ⟨hlow, hx⟩, padWord_eq]
  simp [hw]
theorem needPad_ok (h : PadAt s T k) : needPad T k s = .ok ((), s) := by
  unfold needPad
  rw [bind_run (get_run s)]
  show (match padCheck (here s) (threadOf s) T k with
    | some (w, a, f) => stop (.trap w a f)
    | none => pure () : M Unit) s = _
  rw [padCheck_none h]
  rfl
theorem needPad_trap {w : Why} {a : Word} {f : Option Word} (h : padCheck (here s) (threadOf s) T k = some (w, a, f)) :
    needPad T k s = .error (.trap w a f) := by
  unfold needPad
  rw [bind_run (get_run s)]
  show (match padCheck (here s) (threadOf s) T k with
    | some (w, a, f) => stop (.trap w a f)
    | none => pure () : M Unit) s = _
  rw [h]
  rfl
end

/-! ### Calls and returns (R148, R149, R113) -/

/-- The thread with the registers of CMASK dead. -/
def masked (t : Thread) : Thread := { t with dead := t.dead ||| (t.cmask &&& 0xFFFFFFF0) }
theorem markDead_run (s : State) : markDead s = .ok ((), withThread s masked) := rfl
/-- The link of a call: the registers of CMASK go dead, then g1 is written. -/
theorem linked_run {s s0 : State} (h : locked (threadOf s) 1 = false) :
    (do markDead; writeG (.g 1) (link s0) : M Unit) s = .ok ((), withThread s (called s0)) := by
  have hl : locked (threadOf (withThread s masked)) 1 = false := by
    rw [withThread, threadOf_modThread]; exact h
  rw [bind_run (markDead_run s), writeG_reg, writeReg_ok hl]
  exact congrArg (fun x => Except.ok ((), x)) (withThread_withThread s masked fun t => regSet t 1 (link s0))
theorem noLock_iff {s : State} {n : BitVec 5} : NoLock s n ↔ locked (threadOf s) n = false := by
  simp only [NoLock, locked, List.any_eq_false, Bool.and_eq_true, Bool.not_eq_true', beq_iff_eq, not_and]
theorem gld_of_threadKept {s t : State} (h : ThreadKept s t) : (threadOf t).gld = (threadOf s).gld := (congrArg Thread.gld h :)
theorem noLock_of_unitFrame {s t : State} {n : BitVec 5} (h : UnitFrame s t) (hn : NoLock s n) : NoLock t n := by
  obtain ⟨-, -, -, ht⟩ := h
  rw [NoLock, gld_of_threadKept ht]
  exact hn

/-- The part of O9 on CALL, CALLR, JR and RET. -/
theorem callsAndReturns : Claim.CallsAndReturns := by
  refine ⟨fun d s hp hn => ?_, fun a s s1 T hp ha ht hn => ?_, fun a s s1 T hp ha ht => ?_, fun a s s1 T hp ha he => ?_⟩
  · refine instr_ok hp ?_
    have hl := linked_run (s0 := s) (noLock_iff.1 hn)
    rw [bind_run (markDead_run s)] at hl ⊢
    rw [bind_run hl]
    rfl
  · refine instr_ok hp ?_
    have hl := linked_run (s0 := s) (noLock_iff.1 (noLock_of_unitFrame (unitFrame_readG ha) hn))
    rw [bind_run ha, bind_run (needPad_ok ht)]
    rw [bind_run (markDead_run s1)] at hl ⊢
    rw [bind_run hl]
    rfl
  · refine instr_ok hp ?_
    rw [bind_run ha, bind_run (needPad_ok ht)]
    rfl
  · have h0 : T.getLsbD 0 = false := by
      rw [← Bool.not_eq_true, getLsbD_zero_iff]; omega
    refine instr_ok hp ?_
    rw [bind_run ha, h0]
    rfl

/-- The part of O9 on the traps of JR and CALLR. -/
theorem landingPadTraps : Claim.LandingPadTraps := by
  intro i a k hi s s1 T hp ha
  have htrap : ∀ w x f, padCheck (here s1) (threadOf s1) T k = some (w, x, f) → exec i s = .next (onStop s (.trap w x f)) := by
    intro w x f hc
    rcases hi with ⟨rfl, rfl⟩ | ⟨rfl, rfl⟩
    · refine instr_stop (e := .trap w x f) hp ?_
      rw [bind_run ha]
      exact bind_stop (needPad_trap hc)
    · refine instr_stop (e := .trap w x f) hp ?_
      rw [bind_run ha]
      exact bind_stop (needPad_trap hc)
  exact ⟨fun h => htrap _ _ _ (padCheck_odd h), fun h hx => htrap _ _ _ (padCheck_unfetchable h hx),
    fun h hlow hx hw => htrap _ _ _ (padCheck_wrong h hlow hx hw)⟩

/-! ### The access stream (R151, R152) -/

/-- The registers that AGO hands over: their values and dead state; every other but g0 is dead. -/
theorem regVal_agoThread (e a : Thread) (T : Word) {n : BitVec 5} (h3 : 3 ≤ n.toNat) (h7 : n.toNat ≤ 7) :
    regVal (agoThread e T a) n = regVal e n ∧ (agoThread e T a).dead.getLsbD n.toNat = e.dead.getLsbD n.toNat := by
  have hdead : (agoThread e T a).dead.getLsbD n.toNat = e.dead.getLsbD n.toNat := by
    have hm : ∀ n : BitVec 5, 3 ≤ n.toNat → n.toNat ≤ 7 →
        (0xFFFFFF06 : BitVec 32).getLsbD n.toNat = false ∧ (0xF8 : BitVec 32).getLsbD n.toNat = true := by decide
    rw [agoThread, BitVec.getLsbD_or, BitVec.getLsbD_and, (hm n h3 h7).1, (hm n h3 h7).2, Bool.false_or, Bool.and_true]
  refine ⟨?_, hdead⟩
  rw [regVal, regVal, hdead]
  simp [agoThread, h3, h7]
theorem dead_agoThread (e a : Thread) (T : Word) {n : BitVec 5} (h0 : 0 < n.toNat) (h : n.toNat < 3 ∨ 7 < n.toNat) :
    (agoThread e T a).dead.getLsbD n.toNat = true := by
  have hm : ∀ n : BitVec 5, 0 < n.toNat → (n.toNat < 3 ∨ 7 < n.toNat) → (0xFFFFFF06 : BitVec 32).getLsbD n.toNat = true := by decide
  rw [agoThread, BitVec.getLsbD_or, hm n h0 h, Bool.true_or]
/-- bo as AGO leaves it: empty, with no producer. -/
def boReset (x : Slot) : Slot := { x with bo := [], boProd := none }
/-- What AGO does of an execute stream: bo emptied, the access stream set up. -/
def agoState (s : State) (i : Fin 4) (T : Word) : State :=
  mapCore (changeSlot s boReset) s.cur.core fun k => mapThread k (.stream i .acc) (agoThread (threadOf s) T)
theorem ago_run {b : GReg} {i : Fin 4} {s s1 : State} {T : Word} (hu : s.cur.unit = .stream i .exec) (hst : (slotOf s).st ≠ .trapped)
    (hidle : (threadAt (here s) (.stream i .acc)).running = false) (hb : readG b s = .ok (T, s1)) (hpad : PadAt s1 T 0)
    (hp : Passes uE false [.rd b] s) : exec (.ago b) s = .next (goes s (agoState s1 i T)) := by
  have hguard : guardD ((slotOf s).st != .trapped) 0x002 5 s = .ok ((), s) := (guardD_run ..).trans (if_pos (by simpa using hst))
  have hstall : stallIf (threadAt (coreAt s s.cur.core) (.stream (slotNo s.cur.unit) .acc)).running s = .ok ((), s) := by
    rw [hu]
    exact (stallIf_ok ..).2 ⟨hidle, rfl⟩
  refine instr_ok hp ?_
  refine (bind_run hguard).trans ((bind_run hstall).trans ((bind_run hb).trans ((bind_run (needPad_ok hpad)).trans
    ((bind_run (modSlot_run boReset s1)).trans ((bind_run (getThread_run _)).trans ?_)))))
  rw [threadOf_changeSlot, hu, bind_run (modCore_run ..), changeSlot_cur]
  rfl
theorem here_agoState (s : State) (i : Fin 4) (T : Word) (hu : s.cur.unit = .stream i .exec) :
    here (agoState s i T) = mapThread (mapSlot (here s) i boReset) (.stream i .acc) (agoThread (threadOf s) T) := by
  have hs : changeSlot s boReset = mapCore s s.cur.core fun k => mapSlot k i boReset := by
    rw [changeSlot, hu]; rfl
  rw [agoState, hs, mapCore_mapCore, here_mapCore]
/-- After AGO the access stream is the one set up, and the slot's bo is empty. -/
theorem goes_agoState {s s1 : State} {i : Fin 4} (T : Word) (hu : s1.cur.unit = .stream i .exec) :
    slotAt (here (goes s (agoState s1 i T))) i = boReset (slotAt (here s1) i) ∧
      threadAt (here (goes s (agoState s1 i T))) (.stream i .acc) = agoThread (threadOf s1) T (threadAt (here s1) (.stream i .acc)) := by
  have hcur : (agoState s1 i T).cur.unit = .stream i .exec := by rw [← hu, agoState, mapCore_cur, changeSlot_cur]
  rw [here_goes, hcur, here_agoState s1 i T hu]
  refine ⟨slotAt_mapSlot .., ?_⟩
  rw [threadAt_mapThread_ne _ _ (by simp), threadAt_mapThread]
  rfl
theorem reportPosted_none {f : Side → Bool} {s : State} (h : ∀ p ∈ (slotOf s).posted, f p.side = true → p.failed = none) :
    reportPosted f s = .ok ((), s) := by
  have hfind : (slotOf s).posted.find? (fun p => f p.side && p.failed.isSome && !p.told) = none := by
    rw [List.find?_eq_none]
    intro p hp ht
    simp only [Bool.and_eq_true] at ht
    rw [h p hp ht.1.1] at ht
    exact absurd ht.1.2 (by simp)
  unfold reportPosted
  rw [bind_run (getSlot_run s), hfind, ite_self]
  rfl
/-- The part of O9 on AGO and AEND. -/
theorem accessStream : Claim.AccessStream := by
  refine ⟨fun b i s s1 T hp hu hst hidle hb hpad => ?_, fun s hp hld hposted => ?_⟩
  · have hcur := unitFrame_cur (unitFrame_readG hb)
    have hu1 : s1.cur.unit = .stream i .exec := by rw [hcur, hu]
    obtain ⟨⟨hv, hdead, -⟩, hmem, -⟩ := (readG_kept hb).1
    obtain ⟨hslot, hacc⟩ := goes_agoState (s := s) T hu1
    refine ⟨_, ago_run hu hst hidle hb hpad hp, ?_, ?_, ?_, ?_, fun n h3 h7 => ?_, fun n h0 h => ?_, pc_goes s _, memKept_goes fun x => ?_⟩
    · rw [hslot]; rfl
    · rw [hslot]; rfl
    · rw [hacc]; rfl
    · rw [hacc]; rfl
    · rw [hacc]
      obtain ⟨ha, hd⟩ := regVal_agoThread (threadOf s1) (threadAt (here s1) (.stream i .acc)) T h3 h7
      exact ⟨ha.trans (hv n), hd.trans (by rw [hdead])⟩
    · rw [hacc]
      exact dead_agoThread _ _ T h0 h
    · rw [here_agoState s1 i T hu1]
      exact hmem x
  · have hidle : stallIf (decide ((threadOf s).ld ≠ 0)) s = .ok ((), s) := by rw [hld]; rfl
    have hreport : reportPosted (· == .acc) s = .ok ((), s) := reportPosted_none fun p hp hs => hposted p hp (by simpa using hs)
    exact instr_ok hp ((bind_run (getThread_run s)).trans ((bind_run hidle).trans (bind_run hreport)))

/-- Settles O9: calls and returns, the pads they need, and the access stream, each by what its steps do in order. -/
theorem callsReturnsAndStreams : Obligations.CallsReturnsAndStreams := ⟨callsAndReturns, landingPadTraps, accessStream⟩
end Sys2Proof.Machine

namespace Sys2Proof.Machine
open Sys2Proof.Claim

/-! # MOVQ, QLEVEL and WAIT (O10) -/

/-! ### What operands leave of the rest of the unit's answers -/

/-- Another stream's claims are those of its own thread. -/
theorem claimed_of_otherThreads {s t : State} (hc : t.cur = s.cur) (h : OtherThreads s t) (c : Nat) : claimed t c = claimed s c := by
  unfold claimed
  dsimp only
  rw [hc]
  congr 1
  funext u
  by_cases hu : u = s.cur.unit
  · simp [hu]
  · have := h u hu
    rw [here, hc] at this
    rw [this]
/-- A body is speculative by its task and the entries of the homes. -/
theorem isSpec_congr {s t : State} (htask : (slotOf t).task = (slotOf s).task) (hhome : ∀ c, (coreAt t c).home = (coreAt s c).home) :
    isSpec t = isSpec s := by
  unfold isSpec farTask speculative entryAt
  rw [htask]
  simp only [hhome]
theorem home_of_frame {s t : State} (ho : OnlyHere s t) (hc : CoreKept s t) (c : Coord) : (coreAt t c).home = (coreAt s c).home := by
  have hcur := onlyHere_cur ho
  obtain ⟨-, hother⟩ := ho
  by_cases h : c = s.cur.core
  · have := coreKept_field Core.home (fun _ _ => rfl) hc
    rw [here, hcur] at this
    rw [h, this]
  · rw [hother c h]

/-! ### One word from a queue, one word to another -/

/-- The places of a slot's queue as a source, by its code, the mailbox given. -/
def sourceIn (x : Slot) (mb : List Word) (c : Nat) : List Place :=
  if c = 2 then x.lq
  else List.map Place.word (if c = 3 then x.sq else if c = 4 then x.bo else if c = 5 then x.rt
    else if c = 6 then mb else x.ports[Fin.ofNat 4 (c - 8)].recv)
/-- The places of a slot's queue as a destination. -/
def sinkIn (x : Slot) (c : Nat) : List Place :=
  if c = 2 then x.lq
  else List.map Place.word (if c = 3 then x.sq else if c = 4 then x.bo else if c = 5 then x.rt
    else x.ports[Fin.ofNat 4 (c - 8)].send.map (·.2.2))
theorem sourceOf_eq (s : State) (c : Nat) : sourceOf s c = sourceIn (slotOf s) (here s).mb c := rfl
theorem sinkOf_eq (s : State) (c : Nat) : sinkOf s c = sinkIn (slotOf s) c := rfl

/-- What a pop or a push leaves for the next. -/
structure QueueKept (s t : State) : Prop where
  operand : OperandKept s t
  frame : OperandFrame s t
  cfg : ∀ p : Fin 4, (slotOf t).ports[p].cfg = (slotOf s).ports[p].cfg
  task : (slotOf t).task = (slotOf s).task

section
variable {s t : State}

theorem QueueKept.refl (s : State) : QueueKept s s := ⟨operandKept_refl s, operandFrame_refl s, fun _ => rfl, rfl⟩
theorem QueueKept.trans {u : State} (h : QueueKept s t) (h' : QueueKept t u) : QueueKept s u :=
  ⟨operandKept_trans h.operand h'.operand, operandFrame_trans h.frame h'.frame, fun p => (h'.cfg p).trans (h.cfg p), h'.task.trans h.task⟩
theorem QueueKept.cur (h : QueueKept s t) : t.cur = s.cur := h.frame.1
theorem QueueKept.sbuf (h : QueueKept s t) : (threadOf t).sbuf = (threadOf s).sbuf := by
  obtain ⟨hc, -, hb, -⟩ := h.frame
  have := hb s.cur.unit
  rw [threadOf, hc]
  rw [here, hc] at this
  exact this
theorem QueueKept.claimed_eq (h : QueueKept s t) (c : Nat) : claimed t c = claimed s c := by
  obtain ⟨-, -, -, hother, -⟩ := h.operand
  exact claimed_of_otherThreads h.cur hother c
theorem QueueKept.isSpec_eq (h : QueueKept s t) : isSpec t = isSpec s := by
  obtain ⟨-, -, hhere, -⟩ := h.operand
  obtain ⟨-, hcore, -⟩ := h.frame
  exact isSpec_congr h.task (home_of_frame hhere hcore)
theorem QueueKept.portReady {c : Nat} (h : QueueKept s t) (hr : portReady s c) : portReady t c := fun h8 => by
  rw [h.cfg, h.isSpec_eq]
  exact hr h8
theorem queueKept_changeSlot {f : Slot → Slot} (hi : isIbex s.cur.unit = false) (hd : (f (slotOf s)).task = (slotOf s).task)
    (hcfg : ∀ p : Fin 4, (f (slotOf s)).ports[p].cfg = (slotOf s).ports[p].cfg) (hdep : ∀ x, (f x).depth = x.depth) :
    QueueKept s (changeSlot s f) := by
  refine ⟨operandKept_changeSlot s f, operandFrame_changeSlot s hdep, fun p => ?_, ?_⟩
  · rw [slotOf_changeSlot hi, hcfg]
  · rw [slotOf_changeSlot hi, hd]
theorem queueKept_forgetEarly (s : State) : QueueKept s (forgetEarly s) := by
  refine ⟨operandKept_forgetEarly s, operandFrame_forgetEarly s, fun p => ?_, ?_⟩
  · rw [slotOf_forgetEarly]
  · rw [slotOf_forgetEarly]

/-- The codes of queues before the mailbox, the mailbox, and the ports. -/
theorem queueCodes_cases {c : Nat} (h : c ∈ queueCodes) : (c = 2 ∨ c = 3 ∨ c = 4 ∨ c = 5) ∨ c = 6 ∨ 8 ≤ c ∧ c ≤ 11 := by
  simp only [queueCodes, List.mem_cons, List.not_mem_nil, or_false] at h
  omega
theorem sourceIn_port (x : Slot) (mb : List Word) {c : Nat} (h : 8 ≤ c) :
    sourceIn x mb c = x.ports[Fin.ofNat 4 (c - 8)].recv.map Place.word := by
  rw [sourceIn, if_neg (by omega), if_neg (by omega), if_neg (by omega), if_neg (by omega), if_neg (by omega)]
theorem sinkIn_port (x : Slot) {c : Nat} (h : c < 2 ∨ 6 ≤ c) :
    sinkIn x c = (x.ports[Fin.ofNat 4 (c - 8)].send.map (·.2.2)).map Place.word := by
  rw [sinkIn, if_neg (by omega), if_neg (by omega), if_neg (by omega), if_neg (by omega)]
theorem map_word_cons {l : List Word} {w : Word} {r : List Place} (h : l.map Place.word = .word w :: r) :
    ∃ l', l = w :: l' ∧ r = l'.map Place.word := by
  obtain ⟨v, l', rfl, hv, rfl⟩ := List.map_eq_cons_iff.1 h
  cases hv
  exact ⟨l', rfl, rfl⟩

/-- A port left with fewer received words keeps its configuration and what it sends. -/
theorem leavePort_port (p : Fin 4) (l : List Word) (x : Slot) (q : Fin 4) :
    (leavePort p l x).ports[q].cfg = x.ports[q].cfg ∧ (leavePort p l x).ports[q].send = x.ports[q].send := by
  by_cases h : p.val = q.val
  · simp [leavePort, Fin.getElem_fin, h]
  · simp only [leavePort, Fin.getElem_fin, Vector.getElem_set_ne _ _ h, and_self]
/-- A port with one more word to send keeps its configuration and what it received. -/
theorem sending_port (p : Fin 4) (e : Side × Nat × Word) (x : Slot) (q : Fin 4) :
    (sending p e x).ports[q].cfg = x.ports[q].cfg ∧ (sending p e x).ports[q].recv = x.ports[q].recv := by
  by_cases h : p.val = q.val
  · simp [sending, Fin.getElem_fin, h]
  · simp only [sending, Fin.getElem_fin, Vector.getElem_set_ne _ _ h, and_self]

/-- The source loses its first word and the other queues keep theirs. -/
def Taken (b : Nat) (r : List Place) (s t : State) : Prop :=
  sourceOf t b = r ∧ (∀ c, c ≠ b → sinkOf t c = sinkOf s c) ∧ QueueKept s t
theorem taken_changeSlot {b : Nat} {r : List Place} {f : Slot → Slot} (hi : isIbex s.cur.unit = false)
    (hb : ∀ mb, sourceIn (f (slotOf s)) mb b = r) (hc : ∀ c, c ≠ b → sinkIn (f (slotOf s)) c = sinkIn (slotOf s) c)
    (ht : (f (slotOf s)).task = (slotOf s).task) (hcfg : ∀ p : Fin 4, (f (slotOf s)).ports[p].cfg = (slotOf s).ports[p].cfg)
    (hdep : ∀ x, (f x).depth = x.depth) : Taken b r s (changeSlot (forgetEarly s) f) := by
  have hi' : isIbex (forgetEarly s).cur.unit = false := by rwa [forgetEarly_cur]
  have hslot : slotOf (changeSlot (forgetEarly s) f) = f (slotOf s) := by rw [slotOf_changeSlot hi', slotOf_forgetEarly]
  refine ⟨?_, fun c hne => ?_, (queueKept_forgetEarly s).trans (queueKept_changeSlot hi' ?_ (fun p => ?_) hdep)⟩
  · rw [sourceOf_eq, hslot, hb]
  · rw [sinkOf_eq, sinkOf_eq, hslot, hc c hne]
  · rw [slotOf_forgetEarly, ht]
  · rw [slotOf_forgetEarly, hcfg]
/-- A pop of a queue that holds a word first, when no other stream claims it. -/
theorem popQ_taken {b : Nat} {w : Word} {r : List Place} (hm : b ∈ queueCodes) (hi : isIbex s.cur.unit = false)
    (hs : sourceOf s b = .word w :: r) (hc : claimed s b = false) : ∃ t, popQ b s = .ok (w, t) ∧ Taken b r s t := by
  rw [sourceOf_eq] at hs
  rcases queueCodes_cases hm with (rfl | rfl | rfl | rfl) | rfl | ⟨h8, h11⟩
  · have hp := popQ_lq s
    rw [show (slotOf s).lq = .word w :: r from hs] at hp
    refine ⟨_, hp, taken_changeSlot hi (fun _ => rfl) (fun c hne => ?_) rfl (fun _ => rfl) fun _ => rfl⟩
    simp only [sinkIn, hne, if_false]
  · obtain ⟨l, hl, rfl⟩ := map_word_cons (l := (slotOf s).sq) hs
    have hp := popQ_sq s
    rw [hl] at hp
    refine ⟨_, hp, taken_changeSlot hi (fun _ => rfl) (fun c hne => ?_) rfl (fun _ => rfl) fun _ => rfl⟩
    simp only [sinkIn, hne, if_false]
  · obtain ⟨l, hl, rfl⟩ := map_word_cons (l := (slotOf s).bo) hs
    have hp := popQ_bo s
    rw [hl] at hp
    refine ⟨_, hp, taken_changeSlot hi (fun _ => rfl) (fun c hne => ?_) rfl (fun _ => rfl) fun _ => rfl⟩
    simp only [sinkIn, hne, if_false]
  · obtain ⟨l, hl, rfl⟩ := map_word_cons (l := (slotOf s).rt) hs
    have hp := popQ_rt s
    rw [hl] at hp
    refine ⟨_, hp, taken_changeSlot hi (fun _ => rfl) (fun c hne => ?_) rfl (fun _ => rfl) fun _ => rfl⟩
    simp only [sinkIn, hne, if_false]
  · obtain ⟨l, hl, rfl⟩ := map_word_cons (l := (here s).mb) hs
    have hcur : mapCore (forgetEarly s) s.cur.core mbPop = mapCore (forgetEarly s) (forgetEarly s).cur.core mbPop := by
      rw [forgetEarly_cur]
    have hslot : slotOf (mapCore (forgetEarly s) (forgetEarly s).cur.core mbPop) = slotOf s :=
      (slotOf_mapCore rfl).trans (slotOf_forgetEarly s)
    have hmb : (here (mapCore (forgetEarly s) (forgetEarly s).cur.core mbPop)).mb = (here s).mb.drop 1 := by
      rw [here_mapCore, ← mb_forgetEarly s]; rfl
    refine ⟨_, (popQ_mb s).trans (by rw [hc, hl, hcur]; rfl), ?_, fun c _ => ?_, (queueKept_forgetEarly s).trans ⟨?_, ?_, fun p => ?_, ?_⟩⟩
    · rw [sourceOf_eq, hslot, hmb, hl]; rfl
    · rw [sinkOf_eq, sinkOf_eq, hslot]
    · exact operandKept_mapCore rfl (fun _ _ => rfl) ⟨rfl, rfl, rfl, rfl, rfl, rfl, rfl, rfl⟩
    · exact operandFrame_mapCore rfl (fun _ => rfl) (fun _ _ => rfl) fun _ _ => rfl
    · rw [hslot, slotOf_forgetEarly]
    · rw [hslot, slotOf_forgetEarly]
  · rw [sourceIn_port _ _ h8] at hs
    obtain ⟨l, hl, rfl⟩ := map_word_cons hs
    have hp := popQ_port (c := b) (by omega) s
    rw [hc, hl] at hp
    refine ⟨_, hp, taken_changeSlot hi (fun mb => ?_) (fun c hne => ?_) rfl (fun p => ?_) fun _ => rfl⟩
    · rw [sourceIn_port _ _ h8, leavePort]
      simp
    · rcases (by omega : c = 2 ∨ c = 3 ∨ c = 4 ∨ c = 5 ∨ c < 2 ∨ 6 ≤ c) with rfl | rfl | rfl | rfl | hp
      · rfl
      · rfl
      · rfl
      · rfl
      · rw [sinkIn_port _ hp, sinkIn_port _ hp, (leavePort_port ..).2]
    · exact (leavePort_port ..).1

/-- The destination gains a word and the other queues keep theirs. -/
def Placed (a : Nat) (v : Word) (s t : State) : Prop :=
  sinkOf t a = sinkOf s a ++ [.word v] ∧ (∀ c, c ∈ queueCodes → c ≠ a → sourceOf t c = sourceOf s c) ∧ QueueKept s t
theorem placed_changeSlot {a : Nat} {v : Word} {f : Slot → Slot} (hi : isIbex s.cur.unit = false)
    (ha : sinkIn (f (slotOf s)) a = sinkIn (slotOf s) a ++ [.word v])
    (hc : ∀ mb c, c ∈ queueCodes → c ≠ a → sourceIn (f (slotOf s)) mb c = sourceIn (slotOf s) mb c)
    (ht : (f (slotOf s)).task = (slotOf s).task) (hcfg : ∀ p : Fin 4, (f (slotOf s)).ports[p].cfg = (slotOf s).ports[p].cfg)
    (hdep : ∀ x, (f x).depth = x.depth) : Placed a v s (changeSlot s f) := by
  refine ⟨?_, fun c hm hne => ?_, queueKept_changeSlot hi ht hcfg hdep⟩
  · rw [sinkOf_eq, sinkOf_eq, slotOf_changeSlot hi, ha]
  · rw [sourceOf_eq, sourceOf_eq, slotOf_changeSlot hi, mb_changeSlot, hc _ c hm hne]
/-- A push to a queue or a port that has room, when no store of the stream waits. -/
theorem pushQ_placed {a : Nat} (v : Word) (hm : a ∈ queueCodes) (h6 : a ≠ 6) (hi : isIbex s.cur.unit = false)
    (hroom : 0 < sinkRoom s a) (hr : portReady s a) (hc : claimed s a = false) (hb : (threadOf s).sbuf = []) :
    ∃ t, pushQ a v s = .ok ((), t) ∧ Placed a v s t := by
  unfold sinkRoom at hroom
  rw [sinkOf_eq] at hroom
  rcases queueCodes_cases hm with (rfl | rfl | rfl | rfl) | rfl | ⟨h8, h11⟩
  · have hp := pushQ_lq v hb
    have hlen : (slotOf s).lq.length < 16 := by simpa [sinkIn] using hroom
    rw [if_neg (by simpa using hlen)] at hp
    refine ⟨_, hp, placed_changeSlot hi rfl (fun mb c _ hne => ?_) rfl (fun _ => rfl) fun _ => rfl⟩
    simp only [sourceIn, hne, if_false]
  · have hp := pushQ_sq v hb
    have hlen : (slotOf s).sq.length < 16 := by simpa [sinkIn] using hroom
    rw [if_neg (by simpa using hlen)] at hp
    refine ⟨_, hp, placed_changeSlot hi (by simp [sinkIn]) (fun mb c _ hne => ?_) rfl (fun _ => rfl) fun _ => rfl⟩
    simp only [sourceIn, hne, if_false]
  · have hp := pushQ_bo v hb
    have hlen : (slotOf s).bo.length < 8 := by simpa [sinkIn] using hroom
    rw [if_neg (by simpa using hlen)] at hp
    refine ⟨_, hp, placed_changeSlot hi (by simp [sinkIn]) (fun mb c _ hne => ?_) rfl (fun _ => rfl) fun _ => rfl⟩
    simp only [sourceIn, hne, if_false]
  · have hp := pushQ_rt v hb
    have hlen : (slotOf s).rt.length < 8 := by simpa [sinkIn] using hroom
    rw [if_neg (by simpa using hlen)] at hp
    refine ⟨_, hp, placed_changeSlot hi (by simp [sinkIn]) (fun mb c _ hne => ?_) rfl (fun _ => rfl) fun _ => rfl⟩
    simp only [sourceIn, hne, if_false]
  · exact absurd rfl h6
  · obtain ⟨hbound, hspec⟩ := hr h8
    have hval : 8 + (Fin.ofNat 4 (a - 8)).val = a := by simp; omega
    have hlen : (slotOf s).ports[Fin.ofNat 4 (a - 8)].send.length < 8 := by
      rw [sinkIn_port _ (.inr (by omega))] at hroom
      simpa [show ¬(a = 2 ∨ a = 3) by omega] using hroom
    have hp := (pushQ_port v hb h8 h11).trans (pushPort_run v hbound hspec)
    rw [hval, hc, decide_eq_false (by omega)] at hp
    have hslot := slotOf_sent v hi (Fin.ofNat 4 (a - 8))
    have hmb : (here (sent s (Fin.ofNat 4 (a - 8)) v)).mb = (here s).mb := mb_changeSlot ..
    refine ⟨_, hp, ?_, fun c hm' hne => ?_, operandKept_sent .., operandFrame_changeSlot s (f := sending _ _) fun _ => rfl, fun p => ?_, ?_⟩
    · rw [sinkOf_eq, sinkOf_eq, hslot, sinkIn_port _ (.inr (by omega)), sinkIn_port _ (.inr (by omega)), sending]
      simp
    · rw [sourceOf_eq, sourceOf_eq, hslot, hmb]
      rcases queueCodes_cases hm' with (rfl | rfl | rfl | rfl) | rfl | ⟨hc8, hc11⟩
      · rfl
      · rfl
      · rfl
      · rfl
      · rfl
      · rw [sourceIn_port _ _ hc8, sourceIn_port _ _ hc8, (sending_port ..).2]
    · rw [hslot, (sending_port ..).1]
    · rw [hslot]; rfl

/-! ### Several words (R153) -/

/-- MOVQ's words go over one by one. -/
theorem moveWords_run {a b : Nat} (ws : List Word) {rest : List Place} {s : State} (hab : a ≠ b) (ha : a ∈ queueCodes) (h6 : a ≠ 6)
    (hb : b ∈ queueCodes) (hi : isIbex s.cur.unit = false) (hs : sourceOf s b = ws.map Place.word ++ rest) (hroom : ws.length ≤ sinkRoom s a)
    (hr : portReady s a) (hca : claimed s a = false) (hcb : claimed s b = false) (hbuf : (threadOf s).sbuf = []) :
    ∃ t, moveWords a b ws.length s = .ok ((), t) ∧ sourceOf t b = rest ∧ sinkOf t a = sinkOf s a ++ ws.map Place.word ∧ QueueKept s t := by
  induction ws generalizing s with
  | nil => exact ⟨s, rfl, hs, (List.append_nil _).symm, .refl s⟩
  | cons w ws ih =>
    obtain ⟨s1, hpop, hsrc, hsink, hk⟩ := popQ_taken hb hi (w := w) (r := ws.map Place.word ++ rest) hs hcb
    have hroom1 : sinkRoom s1 a = sinkRoom s a := by rw [sinkRoom, sinkRoom, hsink a hab]
    obtain ⟨s2, hpush, hsink2, hsrc2, hk2⟩ := pushQ_placed (s := s1) w ha h6 (by rw [hk.cur]; exact hi)
      (by rw [hroom1]; simp at hroom; omega) (hk.portReady hr) (by rw [hk.claimed_eq]; exact hca) (by rw [hk.sbuf]; exact hbuf)
    have hk' := hk.trans hk2
    have hroom2 : ws.length ≤ sinkRoom s2 a := by
      have hlen : (sinkOf s2 a).length = (sinkOf s a).length + 1 := by rw [hsink2, hsink a hab, List.length_append]; rfl
      unfold sinkRoom at hroom ⊢
      rw [hlen]
      simp only [List.length_cons] at hroom
      omega
    obtain ⟨t, hmove, hfin, hdst, hkt⟩ := ih (s := s2) (by rw [hk'.cur]; exact hi) (by rw [hsrc2 b hb (Ne.symm hab), hsrc]) hroom2
      (hk'.portReady hr) (by rw [hk'.claimed_eq]; exact hca) (by rw [hk'.claimed_eq]; exact hcb) (by rw [hk'.sbuf]; exact hbuf)
    refine ⟨t, ?_, hfin, ?_, hk'.trans hkt⟩
    · rw [List.length_cons, moveWords, bind_run hpop, bind_run hpush]
      exact hmove
    · rw [hdst, hsink2, hsink a hab]
      simp
end

/-! ### Checks of MOVQ and QLEVEL (R47, R153) -/

/-- A limit that is exceeded comes before the operands of check 8. -/
theorem preCheck_exceeds {un : Units} {us : List Use} {s : State} (hu : unitCheck un s.cur.unit = none)
    (hp : us.all (usePresent s.cur.unit) = true) : preCheck un false (.limit false :: us) s = some ⟨0x002, 5⟩ := preCheck_illegal hu hp rfl
theorem queueCode_sp {c : BitVec 5} (h : c.toNat ∈ queueCodes) : queueCode (.sp c) = some c.toNat := by
  revert c
  decide
theorem queueCode_none {b : GReg} (h : ∀ c : BitVec 5, c.toNat ∈ queueCodes → b ≠ .sp c) : queueCode b = none := by
  cases b with
  | g n => rfl
  | sp c =>
    have hn : c.toNat ∉ queueCodes := fun hm => h c hm rfl
    revert c
    decide
theorem exec_movq (a b : GReg) (n : Lit3) (s : State) : exec (.movq a b n) s =
    instr uEA false [.limit (movqOk a b), .rd b, .wr a] (do
      match queueCode a, queueCode b with
      | some x, some y =>
        moveWords x y (n.toNat + 1)
        return .seq
      | _, _ => trapD 0x002 5) s := rfl

section
variable {s : State} {a b : BitVec 5} {n : Lit3}

/-- MOVQ between two queues that differ moves its words. -/
theorem exec_movq_queues (hab : a ≠ b) (ha : a.toNat ∈ queueCodes) (hb : b.toNat ∈ queueCodes) : exec (.movq (.sp a) (.sp b) n) s =
    instr uEA false [.limit true, .rd (.sp b), .wr (.sp a)] (do moveWords a.toNat b.toNat (n.toNat + 1); return .seq) s := by
  have hok : movqOk (.sp a) (.sp b) = true := by
    simp [movqOk, queueCode_sp ha, queueCode_sp hb, hab]
  rw [exec_movq, hok, queueCode_sp ha, queueCode_sp hb]
theorem toNat_ne (hab : a ≠ b) : a.toNat ≠ b.toNat := fun e => hab (BitVec.eq_of_toNat_eq e)
end

/-- The part of O10 on the queues. -/
theorem queueMoves : Claim.QueueMoves := by
  refine ⟨fun s n a b ws rest hp hab ha h6 hb hlen hs hroom hr hca hcb hbuf => ?_,
    fun s n a b w rest hp hab ha hb hs hcb hbuf => ?_, rfl, fun s a b n hp h => ?_, fun s s1 a c hp hc hw => ?_, fun s a b hp h => ?_⟩
  · have hi : isIbex s.cur.unit = false := unitCheck_stream.1 (preCheck_none hp.2).1
    obtain ⟨t, hmove, hsrc, hsink, hk⟩ := moveWords_run ws (toNat_ne hab) ha (fun e => h6 (BitVec.eq_of_toNat_eq e)) hb hi hs hroom hr
      hca hcb hbuf
    obtain ⟨hregs, hmem, hhere, -⟩ := hk.operand
    rw [hlen] at hmove
    have hslot : slotOf (goes s t) = slotOf t := slotOf_mapCore rfl
    have hmb : (here (goes s t)).mb = (here t).mb := by rw [here_goes]; rfl
    obtain ⟨hv, -, h0, h1, -⟩ := storeRegs_goes (s := s) hregs
    refine ⟨goes s t, ?_, ?_, ?_, pc_goes s t, hv, h0, h1, memKept_goes hmem, onlyHere_trans hhere (onlyHere_mapCore t _)⟩
    · rw [exec_movq_queues hab ha hb]
      exact instr_ok hp (bind_run hmove)
    · rw [sourceOf_eq, hslot, hmb]; exact hsrc
    · rw [sinkOf_eq, hslot]; exact hsink
  · have hi : isIbex s.cur.unit = false := unitCheck_stream.1 (preCheck_none hp.2).1
    obtain ⟨s1, hpop, -, -, hk⟩ := popQ_taken hb hi hs hcb
    rw [exec_movq_queues hab ha hb]
    refine instr_stop (e := .stall false) hp (bind_stop ?_)
    rw [moveWords, bind_run hpop]
    exact bind_stop (pushQ_waiting w a.toNat (by rw [hk.sbuf]; exact hbuf))
  · have hno : movqOk a b = false := by
      rcases h with rfl | h | h
      · simp [movqOk]
      · simp [movqOk, h]
      · simp [movqOk, h]
    obtain ⟨hu, hpres, -⟩ := preCheck_none hp.2
    rw [exec_movq, hno]
    refine instr_refused hp.1 (preCheck_exceeds hu ?_)
    simpa [usePresent] using hpres
  · have he : exec (.qlevel a (.sp c)) s = instr uEA false [.limit true, .name (.sp c), .wr a] (do
        writeResult a (BitVec.ofNat 64 (queueWords (← getCore) (← getSlot) c.toNat).length)
        return .seq) s := by
      show execQlevel a (.sp c) s = _
      unfold execQlevel
      rw [queueCode_sp hc]
      rfl
    rw [he]
    refine instr_ok hp ?_
    rw [bind_run (getCore_run s), bind_run (getSlot_run s)]
    exact const_ok hw
  · obtain ⟨hu, hpres, -⟩ := preCheck_none hp.2
    show execQlevel a b s = _
    unfold execQlevel
    rw [queueCode_none h]
    refine instr_refused hp.1 (preCheck_exceeds hu ?_)
    simpa [usePresent] using hpres

/-! ### WAIT (R155, R156) -/

theorem within_iff (q : Lit3) (n : Nat) : within q n = true ↔ q = 7 ∨ n ≤ q.toNat := by
  simp [within]
theorem not_within_iff (q : Lit3) (n : Nat) : within q n = false ↔ q ≠ 7 ∧ q.toNat < n := by
  rw [← Bool.not_eq_true, within_iff]
  simp
/-- The counters of the stream are within the limits of a WAIT. -/
def withinAll (t : Thread) (ld st bk mx : Lit3) : Bool := within ld t.ld && within st t.st && within bk t.bk && within mx t.mx
section
variable {s : State} {ld st bk mx : Lit3}

theorem withinAll_iff (t : Thread) : withinAll t ld st bk mx = true ↔ ∀ q ∈ [(ld, t.ld), (st, t.st), (bk, t.bk), (mx, t.mx)], q.1 = 7 ∨ q.2 ≤ q.1.toNat := by
  simp only [withinAll, Bool.and_eq_true, within_iff, List.forall_mem_cons, List.not_mem_nil, false_implies, implies_true, and_true,
    and_assoc]
theorem withinAll_false_iff (t : Thread) :
    withinAll t ld st bk mx = false ↔ ∃ q ∈ [(ld, t.ld), (st, t.st), (bk, t.bk), (mx, t.mx)], q.1 ≠ 7 ∧ q.1.toNat < q.2 := by
  rw [← Bool.not_eq_true, withinAll_iff]
  push Not
  rfl
/-- WAIT's effect. -/
def waitBody (u : UnitId) (ld st bk mx : Lit3) : M Next := do
  let t ← getThread
  if isIbex u then
    stallIf (!within bk t.bk)
    return .seq
  if st != 7 then reportPosted (· == unitSide u)
  stallIf (!withinAll t ld st bk mx)
  return .seq
theorem exec_wait : exec (.wait ld st bk mx) s = instr uEAN false [] (waitBody s.cur.unit ld st bk mx) s := rfl
/-- On a stream whose failed entries WAIT need not report, it tests the counters. -/
theorem waitBody_quiet {u : UnitId} (hi : isIbex u = false) (h : st = 7 ∨ reportPosted (· == unitSide u) s = .ok ((), s)) :
    waitBody u ld st bk mx s = if withinAll (threadOf s) ld st bk mx then .ok (.seq, s) else .error (.stall false) := by
  have hend : (do stallIf (!withinAll (threadOf s) ld st bk mx); return .seq : M Next) s =
      if withinAll (threadOf s) ld st bk mx then .ok (.seq, s) else .error (.stall false) := by
    cases withinAll (threadOf s) ld st bk mx <;> rfl
  unfold waitBody
  rw [bind_run (getThread_run s), hi]
  by_cases h7 : st = 7
  · subst h7
    exact hend
  · rw [if_neg (by decide), if_pos (by simpa using h7), bind_run (h.resolve_left h7)]
    exact hend
/-- WAIT with a limit on st reports a failed posted entry first. -/
theorem waitBody_reports {u : UnitId} {e : Stop} (hi : isIbex u = false) (h7 : st ≠ 7) (h : reportPosted (· == unitSide u) s = .error e) :
    waitBody u ld st bk mx s = .error e := by
  unfold waitBody
  rw [bind_run (getThread_run s), hi, if_neg (by decide), if_pos (by simpa using h7)]
  exact bind_stop h
/-- An Ibex unit tests bk alone. -/
theorem waitBody_ibex {u : UnitId} (hi : isIbex u = true) :
    waitBody u ld st bk mx s = if within bk (threadOf s).bk then .ok (.seq, s) else .error (.stall false) := by
  unfold waitBody
  rw [bind_run (getThread_run s), hi]
  cases within bk (threadOf s).bk <;> rfl
theorem reportPosted_first {f : Side → Bool} {p : Posted} {w : Why} (hst : (slotOf s).st ≠ .trapped)
    (hp : (slotOf s).posted.find? (fun p => f p.side && p.failed.isSome && !p.told) = some p) (hw : p.failed = some w) :
    reportPosted f s = .error (.deferred p.side (deferSub w) p.addr p.pc (wordsFound (here s) p.pc) (.posted p.seq)) := by
  unfold reportPosted
  rw [bind_run (getSlot_run s), if_neg hst, hp]
  dsimp only
  rw [hw]
  rfl
end

/-- The part of O10 on WAIT. -/
theorem waitCounters : Claim.WaitCounters := by
  refine ⟨fun s ld st bk mx hp hi hq => ?_, fun s ld st bk mx hp hi => ?_, fun s ld st bk mx p w hp hi h7 hst hf hw => ?_⟩
  · have hrun := waitBody_quiet (ld := ld) (bk := bk) (mx := mx) hi
      (hq.imp_right fun h => reportPosted_none fun p hp hs => h p hp (by simpa using hs))
    refine ⟨fun h => ?_, fun h => ?_⟩
    · exact exec_wait.trans (instr_ok hp (hrun.trans (if_pos ((withinAll_iff _).2 h))))
    · exact exec_wait.trans (instr_stop (e := .stall false) hp (hrun.trans (by rw [(withinAll_false_iff _).2 h]; rfl)))
  · have hrun := waitBody_ibex (s := s) (ld := ld) (st := st) (bk := bk) (mx := mx) hi
    refine ⟨fun h => ?_, fun h7 h => ?_⟩
    · exact exec_wait.trans (instr_ok hp (hrun.trans (if_pos ((within_iff ..).2 h))))
    · exact exec_wait.trans (instr_stop (e := .stall false) hp (hrun.trans (by rw [(not_within_iff ..).2 ⟨h7, h⟩]; rfl)))
  · exact exec_wait.trans (instr_stop hp (waitBody_reports hi h7 (reportPosted_first hst hf hw)))

/-- Settles O10: MOVQ by moving its words one by one (moveWords_run), QLEVEL and the refusals by check 8, WAIT by its counters. -/
theorem queuesAndWaits : Obligations.QueuesAndWaits := ⟨queueMoves, waitCounters⟩
end Sys2Proof.Machine

namespace Sys2Proof.Machine
open Sys2Proof.Claim

/-! # Local atomics (O5) -/

/-! ### What reading operands leaves of tasks -/

theorem ReadLeft.cur {s t : State} (h : ReadLeft s t) : t.cur = s.cur := unitFrame_cur h.unit
theorem ReadLeft.field {α : Type} {s t : State} (h : ReadLeft s t) (f : Core → α)
    (hf : ∀ k k' : Core, f { k with threads := k'.threads, slots := k'.slots, mb := k'.mb, mbHead := k'.mbHead } = f k) :
    f (here t) = f (here s) := coreKept_field f hf h.core
/-- A part of a slot that no word belongs to. -/
theorem ReadLeft.slotField {α : Type} {s t : State} (h : ReadLeft s t) (f : Slot → α)
    (hf : ∀ x y : Slot, f { y with lq := x.lq, sq := x.sq, bo := x.bo, rt := x.rt, ports := x.ports } = f y) (j : Fin 4) :
    f (slotAt (here t) j) = f (slotAt (here s) j) := (hf _ _).symm.trans (congrArg f (h.slots j).1)
theorem ReadLeft.task {s t : State} (h : ReadLeft s t) (u : UnitId) : taskOf (here t) u = taskOf (here s) u := by
  have hi : (here t).ibex = (here s).ibex := h.field Core.ibex fun _ _ => rfl
  cases u with
  | stream i _ => exact h.slotField Slot.task (fun _ _ => rfl) i
  | ibex n => rw [taskOf, taskOf, ibexAt, ibexAt, hi]
theorem writerOf_left {s t : State} (h : ReadLeft s t) : writerOf t = writerOf s := by
  have htask := h.task s.cur.unit
  unfold writerOf
  rw [h.cur]
  unfold here at htask
  rw [h.cur] at htask
  rw [htask]
theorem readReg_same {n : BitVec 5} {s t : State} {v : Word} (h : readReg n s = .ok (v, t)) : t = s := by
  cases hl : locked (threadOf s) n with
  | true => cases (readReg_locked hl).symm.trans h
  | false => cases (readReg_ok hl).symm.trans h; rfl
theorem readPair_same {c : GReg} {s t : State} {p : Word × Word} (h : readPair c s = .ok (p, t)) : t = s := by
  cases c with
  | sp _ => cases h; rfl
  | g n =>
    obtain ⟨x, s1, hx, h⟩ := (bind_ok ..).1 h
    obtain ⟨y, s2, hy, h⟩ := (bind_ok ..).1 h
    cases h
    rw [readReg_same hy, readReg_same hx]

/-! ### Errors that a read corrects (R218) -/

/-- A core whose single-bit errors in the bytes are corrected and counted. -/
def readCore (y n : Nat) (k : Core) : Core := if k.flawed.any (wordIn y n) then readWords k y n else k
theorem readCore_kept (y n : Nat) (k : Core) : { readCore y n k with corrected := k.corrected, flawed := k.flawed } = k := by
  unfold readCore
  split <;> rfl

section
variable (s : State) (y n : Nat)

/-- A change of the core's own fields leaves the unit, either way. -/
theorem unitFrame_mapCore {f : Core → Core} (ht : (f (here s)).threads = (here s).threads) (hs : (f (here s)).slots = (here s).slots) :
    UnitFrame s (mapCore s s.cur.core f) ∧ UnitFrame (mapCore s s.cur.core f) s := by
  have hthread : ∀ u, threadAt (here (mapCore s s.cur.core f)) u = threadAt (here s) u := fun u => by
    rw [here_mapCore, threadAt, ht]; rfl
  have hslot : ∀ j, slotAt (here (mapCore s s.cur.core f)) j = slotAt (here s) j := fun j => by
    rw [here_mapCore, slotAt, hs]; rfl
  have hcur : threadOf (mapCore s s.cur.core f) = threadOf s := hthread s.cur.unit
  refine ⟨⟨onlyHere_mapCore s f, fun u _ => hthread u, fun j => ?_, ?_⟩, ⟨rfl, fun d h => (coreAt_mapCore_ne s f h).symm⟩,
    fun u _ => (hthread u).symm, fun j => ?_, ?_⟩
  · rw [hslot]; exact ⟨rfl, fun _ => rfl⟩
  · unfold ThreadKept; rw [hcur]
  · rw [hslot]; exact ⟨rfl, fun _ => rfl⟩
  · unfold ThreadKept; rw [hcur]
theorem readDone_cases : readDone s y n = s ∨ readDone s y n = mapCore s s.cur.core fun k => readWords k y n := by
  unfold readDone readAt
  split
  · exact .inr rfl
  · exact .inl rfl
theorem readDone_cur : (readDone s y n).cur = s.cur := by
  rcases readDone_cases s y n with h | h <;> rw [h]; rfl
theorem here_readDone : here (readDone s y n) = readCore y n (here s) := by
  unfold readDone readAt readCore here
  split
  · exact coreAt_mapCore ..
  · rfl
theorem unitFrame_readDone : UnitFrame s (readDone s y n) ∧ UnitFrame (readDone s y n) s := by
  rcases readDone_cases s y n with h | h <;> rw [h]
  · exact ⟨unitFrame_refl s, unitFrame_refl s⟩
  · exact unitFrame_mapCore s rfl rfl
theorem readDone_field {α : Type} (f : Core → α) (hf : ∀ k k' : Core, f { k with corrected := k'.corrected, flawed := k'.flawed } = f k) :
    f (here (readDone s y n)) = f (here s) := by
  rw [here_readDone]
  exact (hf _ (here s)).symm.trans (congrArg f (readCore_kept y n (here s)))
theorem threadOf_readDone : threadOf (readDone s y n) = threadOf s := by
  have h := readDone_field s y n (fun k => threadAt k s.cur.unit) fun _ _ => rfl
  rw [threadOf, readDone_cur]
  unfold here at h
  rwa [readDone_cur] at h
theorem writerOf_readDone : writerOf (readDone s y n) = writerOf s := by
  have h := readDone_field s y n (fun k => taskOf k s.cur.unit) fun _ _ => by cases s.cur.unit <;> rfl
  unfold writerOf
  rw [readDone_cur]
  unfold here at h
  rw [readDone_cur] at h
  rw [h]
end

/-! ### The access (R134, R116) -/

theorem pageLocal_mayBoth {s : State} {y n : Nat} (hn : n ∈ [1, 2, 4, 8]) (hr : MayRead s y n) (hw : MayWrite s y n) :
    pageLocal (here s) (userMode s) aBoth (y / 4096) = none := by
  have h0 : y < y + n := by
    simp only [List.mem_cons, List.not_mem_nil, or_false] at hn
    omega
  obtain ⟨hR, hu⟩ := hr y (Nat.le_refl y) h0
  obtain ⟨hW, -⟩ := hw y (Nat.le_refl y) h0
  rw [pageLocal_open aBoth hu, hR, hW]
  rfl
theorem checkPages_mayBoth {s : State} {y n : Nat} {f : Nat → Word} (hn : n ∈ [1, 2, 4, 8]) (ha : y % n = 0) (hr : MayRead s y n)
    (hw : MayWrite s y n) : checkPages aBoth y n f s = .ok ((), s) := by
  have hp := pageLocal_mayBoth hn hr hw
  have hc := rangeCheck_page (pageLocal (here s) (userMode s) aBoth) hn ha
  rw [hp] at hc
  unfold checkPages
  unfold here at hc
  rw [hc]
  rfl
/-- Where none of the bytes was read ahead, nothing is forgotten. -/
theorem dropEarly_none {s : State} {y n : Nat} (h : ∀ e ∈ (threadOf s).early, entryMeets y n e = false) : dropEarly y n s = .ok ((), s) := by
  have hf : (threadOf s).early.filter (fun e => !entryMeets y n e) = (threadOf s).early :=
    List.filter_eq_self.2 fun e he => by rw [h e he]; rfl
  unfold dropEarly
  rw [bind_run (getThread_run s)]
  show (if (threadOf s).early.filter _ = (threadOf s).early then _ else _) = _
  rw [if_pos hf]
theorem stallIfSpec_run (s : State) : stallIfSpec s = if isSpec s then .error (.stall false) else .ok ((), s) := stallIf_run ..

section
variable {s : State} {A : Word} {y n : Nat} {op : AmoOp} {x z : Nat} {ready : M Unit}

/-- The bytes of own memory that a near address names, whether directly. -/
theorem ownPlace_resolves (h : OwnPlace s A n y) :
    ∃ d, resolveNear s.cur.core (isIbex s.cur.unit) A = .own y d ∧ (d && viewHit s y (y + n)) = false := by
  rcases h with ⟨hA, rfl, hv⟩ | ⟨hi, hy, hA⟩
  · exact ⟨true, resolveNear_low hA, by rw [hv]; rfl⟩
  · exact ⟨false, by rw [hi]; exact resolveNear_window hy hA, rfl⟩
/-- An atomic of own memory once its address is resolved. -/
def amoOwn (op : AmoOp) (n : Nat) (A : Word) (x z b : Nat) (direct : Bool) (s : State) : M Nat := do
  guardA (b % n == 0) 0x065 0 A
  checkPages aBoth b n fun _ => A
  stallIfSpec
  guardA (!(direct && viewHit s b (b + n))) 0x0C5 1 A
  stallEntry (scoreRW (coreAt s s.cur.core) b (b + n))
  match poisonIn (coreAt s s.cur.core) b n with
  | some p => trapA 0x181 1 (BitVec.ofNat 64 p)
  | none =>
    dropEarly b n
    modify fun s => readAt s s.cur.core b n
    let old := peekNat (coreAt s s.cur.core).mem b n
    writeOwn b n (amoNew op n old x z)
    return old
theorem amoNear_own {d : Bool} (h : resolveNear s.cur.core (isIbex s.cur.unit) A = .own y d) :
    amoNear op n A x z ready s = amoOwn op n A x z y d s s := by
  unfold amoNear
  rw [bind_run (get_run s), h]
  rfl
/-- While the body is speculative the atomic stalls (R86). -/
theorem amoNear_spec (hn : n ∈ [1, 2, 4, 8]) (hp : OwnPlace s A n y) (ha : y % n = 0) (hr : MayRead s y n) (hw : MayWrite s y n)
    (hs : isSpec s = true) : amoNear op n A x z ready s = .error (.stall false) := by
  obtain ⟨d, hd, -⟩ := ownPlace_resolves hp
  rw [amoNear_own hd, amoOwn, bind_run ((guardA_run ..).trans (if_pos (by simpa using ha))), bind_run (checkPages_mayBoth hn ha hr hw)]
  exact bind_stop ((stallIfSpec_run s).trans (if_pos hs))
/-- The atomic reads, computes and stores in one step; the old value is its result. -/
theorem amoNear_run (hn : n ∈ [1, 2, 4, 8]) (hr : OwnRead s A n y) (hw : MayWrite s y n) (hs : isSpec s = false)
    (hscore : scoreRW (here s) y (y + n) = false) : amoNear op n A x z ready s =
      .ok (leValue (here s).mem y n,
        writeNat (readDone s y n) s.cur.core y n (amoNew op n (leValue (here s).mem y n) x z) (writerOf s)) := by
  obtain ⟨⟨hp, ha, hmay, -, -⟩, hpoison, hwait, -⟩ := hr
  obtain ⟨d, hd, hview⟩ := ownPlace_resolves hp
  have hearly : dropEarly y n s = .ok ((), s) := dropEarly_none fun e he => hwait e (List.mem_append_right _ he)
  have hread : (modify fun s => readAt s s.cur.core y n : M PUnit) s = .ok ((), readDone s y n) := rfl
  have hwrite : writeOwn y n (amoNew op n (leValue (here s).mem y n) x z) (readDone s y n) = .ok ((),
      writeNat (readDone s y n) s.cur.core y n (amoNew op n (leValue (here s).mem y n) x z) (writerOf s)) := by
    unfold writeOwn
    rw [readDone_cur, writerOf_readDone]
  have hscore' : stallEntry (scoreRW (coreAt s s.cur.core) y (y + n)) s = .ok ((), s) := by
    rw [show scoreRW (coreAt s s.cur.core) y (y + n) = false from hscore]; rfl
  have hview' : guardA (!(d && viewHit s y (y + n))) 0x0C5 1 A s = .ok ((), s) := by rw [hview]; rfl
  have hval : peekNat (coreAt s s.cur.core).mem y n = leValue (here s).mem y n := leNat_peeks ..
  have hpoison' : poisonIn (coreAt s s.cur.core) y n = none := hpoison
  rw [amoNear_own hd, amoOwn, bind_run ((guardA_run ..).trans (if_pos (by simpa using ha))), bind_run (checkPages_mayBoth hn ha hmay hw),
    bind_run ((stallIfSpec_run s).trans (if_neg (by rw [hs]; decide))), bind_run hview', bind_run hscore', hpoison', hval]
  dsimp only
  rw [bind_run hearly, bind_run hread, bind_run hwrite]
  rfl
end

/-! ### The operations of R134 -/

/-- An atomic of the table, as its operation on values of its size. -/
theorem exec_amo {i : Instr} {a b c : GReg} {n : Nat} {f : Nat → Nat → Nat} (h : amoTable i = some (a, b, c, n, f)) (s : State) :
    ∃ op, exec i s = instr uEA false [.rd b, .rd c, .wr a] (amoOp op n a b c) s ∧ n ∈ [1, 2, 4, 8] ∧
      ∀ o v, v < 2 ^ (8 * n) → amoNew op n o v 0 = f o v := by
  have hlt : ∀ o v : Nat, sInt 64 o < sInt 64 v ↔ (BitVec.ofNat 64 o).toInt < (BitVec.ofNat 64 v).toInt := fun o v => by
    rw [sInt_eq o (by decide), sInt_eq v (by decide)]
  cases i <;> cases h
  case amoaddW.refl | amoaddD.refl => exact ⟨.add, rfl, by decide, fun o v _ => rfl⟩
  case amoswapW.refl | amoswapD.refl => exact ⟨.swap, rfl, by decide, fun o v hv => Nat.mod_eq_of_lt hv⟩
  case amoandD.refl => exact ⟨.and, rfl, by decide, fun o v hv => congrArg (o &&& ·) (Nat.mod_eq_of_lt hv)⟩
  case amoorD.refl => exact ⟨.or, rfl, by decide, fun o v hv => congrArg (o ||| ·) (Nat.mod_eq_of_lt hv)⟩
  case amomaxD.refl => exact ⟨.max, rfl, by decide, fun o v hv => if_congr (hlt ..) (Nat.mod_eq_of_lt hv) rfl⟩
  case amominD.refl => exact ⟨.min, rfl, by decide, fun o v hv => if_congr (hlt ..) (Nat.mod_eq_of_lt hv) rfl⟩
theorem amoNew_cas (o : Nat) (v w : Word) : amoNew .cas 8 o v.toNat w.toNat = if o = v.toNat then w.toNat else o := by
  have hv : v.toNat % 2 ^ (8 * 8) = v.toNat := Nat.mod_eq_of_lt v.isLt
  have hw : w.toNat % 2 ^ (8 * 8) = w.toNat := Nat.mod_eq_of_lt w.isLt
  simp only [amoNew, hv, hw]
/-- The extension of R133 is SignExt of R29. -/
theorem signExt_extended {n : Nat} (hn : 0 < n) (v : Nat) : signExt (8 * n) v = extended n true v := by
  have h8 : 0 < 8 * n := by omega
  unfold signExt extended
  by_cases h : 2 ^ (8 * n - 1) ≤ v % 2 ^ (8 * n)
  · rw [if_pos ⟨h, h8⟩, if_pos ⟨rfl, h⟩]
    push_cast
    rfl
  · rw [if_neg fun k => h k.1, if_neg fun k => h k.2]

/-! ### What an atomic leaves -/

section
variable {s s2 : State} {y n : Nat}

theorem coreKeptButMem_trans {t u : State} (h : CoreKeptButMem s t) (h' : CoreKeptButMem t u) : CoreKeptButMem s u := by
  unfold CoreKeptButMem at h h' ⊢
  conv_rhs => rw [← h, ← h']
theorem coreKeptButMem_of_coreKept {t : State} (h : CoreKept s t) : CoreKeptButMem s t := by
  have hm : (here t).mem = (here s).mem := coreKept_field Core.mem (fun _ _ => rfl) h
  have hp : (here t).poison = (here s).poison := coreKept_field Core.poison (fun _ _ => rfl) h
  have hf : (here t).flawed = (here s).flawed := coreKept_field Core.flawed (fun _ _ => rfl) h
  unfold CoreKeptButMem
  rw [← hm, ← hp, ← hf]
  exact h
theorem coreKept_readDone (h : CoreKept s s2) : CoreKept (readDone s y n) (readDone s2 y n) := by
  have hk : ∀ k k' : Core, readCore y n { k with threads := k'.threads, slots := k'.slots, mb := k'.mb, mbHead := k'.mbHead } =
      { readCore y n k with threads := k'.threads, slots := k'.slots, mb := k'.mb, mbHead := k'.mbHead } := fun k k' => by
    unfold readCore
    split <;> rfl
  have hs : { readCore y n (here s2) with threads := (here s).threads, slots := (here s).slots, mb := (here s).mb,
                                          mbHead := (here s).mbHead } = readCore y n (here s) :=
    (hk _ (here s)).symm.trans (congrArg (readCore y n) h)
  have ht : (readCore y n (here s)).threads = (here s).threads ∧ (readCore y n (here s)).slots = (here s).slots ∧
      (readCore y n (here s)).mb = (here s).mb ∧ (readCore y n (here s)).mbHead = (here s).mbHead := by
    unfold readCore
    split <;> exact ⟨rfl, rfl, rfl, rfl⟩
  obtain ⟨h1, h2, h3, h4⟩ := ht
  unfold CoreKept
  rw [here_readDone, here_readDone, h1, h2, h3, h4]
  exact hs
/-- A store that aborts no far task only writes its bytes. -/
theorem writeNat_quiet {c : Coord} {v : Nat} {w : Option (Coord × Nat)} (h : abortHits (coreAt s c) c y (y + n) w = []) :
    writeNat s c y n v w = mapCore s c fun k => putBytes k y (leBytes n v) := by
  unfold writeNat writeBytes
  dsimp only
  rw [leBytes_length, h]
  rfl

variable {s3 : State} {a : GReg} {v : Word} {val : Nat}

/-- The memory after an atomic: its bytes are the new value's, and every other byte of the core is as before. -/
theorem stored_of_atomic (hl : ReadLeft s s2)
    (h : writeResult a v (writeNat (readDone s2 y n) s.cur.core y n val (writerOf s2)) = .ok ((), s3)) : Stored y n val s (goes s s3) := by
  intro z hz
  obtain ⟨⟨hcur, hc, -⟩, -⟩ := writeResult_frame v h
  have hw : (writeNat (readDone s2 y n) s.cur.core y n val (writerOf s2)).cur = s.cur := by
    have := (storesKept_writeBytes (readDone s2 y n) s.cur.core y (leBytes n val) (writerOf s2)).1
    rw [readDone_cur, hl.cur] at this
    exact this
  have hcore : coreAt (readDone s2 y n) s.cur.core = here (readDone s2 y n) := by rw [here, readDone_cur, hl.cur]
  have hquiet : abortHits (coreAt (readDone s2 y n) s.cur.core) s.cur.core y (y + n) (writerOf s2) = [] ∨
      inHome (coreAt (readDone s2 y n) s.cur.core) z = false := by
    rw [hcore, readDone_field s2 y n (fun k => abortHits k s.cur.core y (y + n) (writerOf s2)) (fun _ _ => rfl),
      readDone_field s2 y n (fun k => inHome k z) (fun _ _ => rfl), hl.field (fun k => abortHits k s.cur.core y (y + n) (writerOf s2)) (fun _ _ => rfl),
      hl.field (fun k => inHome k z) (fun _ _ => rfl), writerOf_left hl]
    exact hz
  have hmem : (coreAt (readDone s2 y n) s.cur.core).mem = (here s).mem := by
    rw [hcore, readDone_field s2 y n Core.mem (fun _ _ => rfl)]
    exact hl.field Core.mem fun _ _ => rfl
  have hpeek := peek_writeNat (readDone s2 y n) s.cur.core y n val (writerOf s2) s.cur.core z fun _ => hquiet
  rw [hmem] at hpeek
  have hend : peek (here (goes s s3)).mem z = peek (coreAt (writeNat (readDone s2 y n) s.cur.core y n val (writerOf s2)) s.cur.core).mem z := by
    rw [here_goes]
    refine (memKept_of_coreKept hc z).trans ?_
    rw [here, hw]
  rw [hend, hpeek]
  simp only [true_and]
/-- An atomic that aborts no far task leaves all but its bytes and its result. -/
theorem storeFrame_of_atomic (hl : ReadLeft s s2) (hq : AbortsNone s2 y n)
    (h : writeResult a v (writeNat (readDone s2 y n) s.cur.core y n val (writerOf s2)) = .ok ((), s3)) :
    StoreFrame (readDone s y n) (goes s s3) ∧ RegsKept a s (goes s s3) ∧ (threadOf (goes s s3)).fcsr = (threadOf s).fcsr := by
  have hcr : (readDone s2 y n).cur = s.cur := by rw [readDone_cur, hl.cur]
  have hcore : coreAt (readDone s2 y n) s.cur.core = here (readDone s2 y n) := by rw [here, hcr]
  have hquiet : abortHits (coreAt (readDone s2 y n) s.cur.core) s.cur.core y (y + n) (writerOf s2) = [] := by
    rw [hcore, readDone_field s2 y n (fun k => abortHits k s.cur.core y (y + n) (writerOf s2)) (fun _ _ => rfl)]
    rw [AbortsNone, hl.cur] at hq
    exact hq
  rw [writeNat_quiet hquiet, ← hcr] at h
  obtain ⟨hr, -, -, hf, -⟩ := regs_writeResult (s := s) h
  have hth : threadOf (mapCore (readDone s2 y n) (readDone s2 y n).cur.core fun k => putBytes k y (leBytes n val)) = threadOf s2 := by
    rw [← threadOf_readDone s2 y n, threadOf, mapCore_cur, coreAt_mapCore]
    rfl
  have hput := (unitFrame_mapCore (readDone s2 y n) (f := fun k => putBytes k y (leBytes n val)) rfl rfl).1
  have hunit : UnitFrame (readDone s y n) (goes s s3) := by
    refine unitFrame_trans (unitFrame_readDone s y n).2 (unitFrame_goes ?_)
    exact unitFrame_trans hl.unit (unitFrame_trans (unitFrame_readDone s2 y n).1 (unitFrame_trans hput (unitFrame_writeResult h)))
  have hmem : CoreKeptButMem (readDone s y n) (goes s s3) := by
    obtain ⟨⟨-, hw, -⟩, -⟩ := writeResult_frame v h
    refine coreKeptButMem_trans (coreKeptButMem_of_coreKept (coreKept_readDone hl.core)) (coreKeptButMem_trans ?_
      (coreKeptButMem_trans (coreKeptButMem_of_coreKept hw) (coreKeptButMem_of_coreKept ?_)))
    · unfold CoreKeptButMem
      rw [here_mapCore]
      rfl
    · unfold CoreKept
      rw [here_goes]
      rfl
  obtain ⟨ho, hother, hslots, hthread⟩ := hunit
  refine ⟨⟨ho, hmem, hother, hslots, hthread⟩, ?_, ?_⟩
  · refine regsKept_trans (regsKept_of_storeRegs hl.regs) ?_
    rw [RegsKept, ← hth]
    exact hr
  · obtain ⟨-, -, -, -, hfcsr, -⟩ := hl.regs
    rw [hf, hth, hfcsr]
end

/-- Settles O5: an atomic of own memory does its reading, its arithmetic and its store in one step (amoNear_run), or stalls while the
body is speculative (amoNear_spec). -/
theorem localAtomics : Obligations.LocalAtomics := by
  refine ⟨fun i a b c n f h s s1 s2 s3 x v y hp hb hc hr hw hs hscore hres => ?_,
    fun a b c s s1 s2 s3 x v w y hp hb hc hr hw hs hscore hres => ?_,
    fun i a b c n f h s s1 s2 x v y hp hb hc ho ha hr hw hs => ?_, fun a b c s s1 s2 x v w y hp hb hc ho ha hr hw hs => ?_⟩
  · have hl := readLeft_trans (readLeft_readG hb) (readLeft_readG hc)
    obtain ⟨op, he, hn, hop⟩ := exec_amo h s
    have hmem : leValue (here s2).mem y n = leValue (here s).mem y n := by rw [hl.field Core.mem fun _ _ => rfl]
    have hnew := hop (leValue (here s).mem y n) (v.toNat % 2 ^ (8 * n)) (Nat.mod_lt _ (by positivity))
    have hn0 : 0 < n := by
      simp only [List.mem_cons, List.not_mem_nil, or_false] at hn
      omega
    have hrun := amoNear_run (op := op) (x := v.toNat % 2 ^ (8 * n)) (z := 0) (ready := destReady a) hn hr hw hs hscore
    rw [hmem, hnew, hl.cur] at hrun
    refine ⟨?_, stored_of_atomic hl hres, fun hq => storeFrame_of_atomic hl hq hres⟩
    rw [he]
    refine instr_ok hp ?_
    unfold amoOp
    rw [bind_run hb, bind_run hc, bind_run hrun, signExt_extended hn0, bind_run hres]
    rfl
  · have hs21 := readPair_same hc
    subst hs21
    have hl := readLeft_readG hb
    have hmem : leValue (here s2).mem y 8 = leValue (here s).mem y 8 := by rw [hl.field Core.mem fun _ _ => rfl]
    have hrun := amoNear_run (op := .cas) (x := v.toNat) (z := w.toNat) (ready := destReady a) (by decide) hr hw hs hscore
    rw [hmem, amoNew_cas, hl.cur] at hrun
    refine ⟨instr_ok hp ?_, stored_of_atomic hl hres, fun hq => storeFrame_of_atomic hl hq hres⟩
    unfold casOp
    rw [bind_run hb, bind_run hc]
    dsimp only
    rw [bind_run hrun, bind_run hres]
    rfl
  · obtain ⟨op, he, hn, -⟩ := exec_amo h s
    rw [he]
    refine instr_stop (e := .stall false) hp ?_
    unfold amoOp
    rw [bind_run hb, bind_run hc]
    exact bind_stop (amoNear_spec hn ho ha hr hw hs)
  · refine instr_stop (e := .stall false) hp ?_
    unfold casOp
    rw [bind_run hb, bind_run hc]
    exact bind_stop (amoNear_spec (by decide) ho ha hr hw hs)
end Sys2Proof.Machine

namespace Sys2Proof.Machine
open Sys2Proof.Claim

/-! # The issue of global accesses (O32) -/

/-! ### What reading operands leaves of the checks -/

section
variable {s t : State}

theorem ReadLeft.here_eq (h : ReadLeft s t) : coreAt t s.cur.core = here t := by rw [here, h.cur]
/-- A part of the moving unit's slot that no word belongs to. -/
theorem ReadLeft.slotOf_field {α : Type} (h : ReadLeft s t) (f : Slot → α)
    (hf : ∀ x y : Slot, f { y with lq := x.lq, sq := x.sq, bo := x.bo, rt := x.rt, ports := x.ports } = f y) :
    f (slotOf t) = f (slotOf s) := by
  unfold slotOf
  rw [h.cur]
  cases unitSlot s.cur.unit with
  | none => rfl
  | some i =>
    dsimp only
    rw [h.here_eq]
    exact h.slotField f hf i
theorem ReadLeft.lq_le (h : ReadLeft s t) : (slotOf t).lq.length ≤ (slotOf s).lq.length := by
  unfold slotOf
  rw [h.cur]
  cases unitSlot s.cur.unit with
  | none => exact Nat.le_refl _
  | some i =>
    dsimp only
    rw [h.here_eq]
    exact (h.slots i).2.length_le
/-- The moving thread, its registers and requests apart. -/
theorem ReadLeft.thread (h : ReadLeft s t) : ThreadTouched (threadOf s) (threadOf t) := by
  obtain ⟨-, -, -, hk⟩ := h.unit
  exact hk
theorem ReadLeft.farTask_eq (h : ReadLeft s t) : farTask t = farTask s := by
  unfold farTask
  rw [h.slotOf_field Slot.task fun _ _ => rfl]
theorem ReadLeft.isSpec_eq (h : ReadLeft s t) : isSpec t = isSpec s := by
  obtain ⟨ho, -⟩ := h.unit
  exact isSpec_congr (h.slotOf_field Slot.task fun _ _ => rfl) (home_of_frame ho h.core)
theorem ReadLeft.heldGst_eq (h : ReadLeft s t) (A : Word) (n : Nat) : heldGst t A n = heldGst s A n := by
  unfold heldGst
  rw [h.farTask_eq]
theorem ReadLeft.postedFull_eq (h : ReadLeft s t) : postedFull t = postedFull s := by
  unfold postedFull
  have hst : (threadOf t).st = (threadOf s).st := (congrArg Thread.st h.thread :)
  rw [hst, h.slotOf_field Slot.posted fun _ _ => rfl]
theorem ReadLeft.sbuf_eq (h : ReadLeft s t) : (threadOf t).sbuf = (threadOf s).sbuf := (congrArg Thread.sbuf h.thread :)
/-- Room for a destination stays. -/
theorem ReadLeft.destFree (h : ReadLeft s t) {a : GReg} (hd : DestFree s a) : DestFree t a := by
  cases a with
  | g n =>
    have hg : (threadOf t).gld = (threadOf s).gld := (congrArg Thread.gld h.thread :)
    unfold DestFree locked at hd ⊢
    rw [hg]
    exact hd
  | sp c =>
    obtain ⟨hc, hlen, hb⟩ := hd
    exact ⟨hc, h.lq_le.trans_lt hlen, h.sbuf_eq.trans hb⟩
end

/-! ### A state from which a request leaves -/

/-- What an instruction has changed before its request leaves: its stream's registers, flags and PC are as before. -/
structure Issuing (s t : State) : Prop where
  only : OnlyHere s t
  core : CoreKept s t
  others : OtherThreads s t
  regs : StoreRegs s t
  nextId : t.nextId = s.nextId

section
variable {s t u : State}

theorem issuing_of_readLeft (h : ReadLeft s t) : Issuing s t := by
  obtain ⟨ho, hu, -⟩ := h.unit
  exact ⟨ho, h.core, hu, h.regs, h.nextId⟩
theorem Issuing.cur (h : Issuing s t) : t.cur = s.cur := onlyHere_cur h.only
theorem issuing_trans (h : Issuing s t) (h' : Issuing t u) : Issuing s u := by
  refine ⟨onlyHere_trans h.only h'.only, ?_, fun v hv => ?_, ?_, h'.nextId.trans h.nextId⟩
  · have hk := h.core
    have hk' := h'.core
    unfold CoreKept at hk hk' ⊢
    conv_rhs => rw [← hk, ← hk']
  · exact (h'.others v (by rw [h.cur]; exact hv)).trans (h.others v hv)
  · obtain ⟨a1, a2, a3, a4, a5, a6, a7⟩ := h.regs
    obtain ⟨b1, b2, b3, b4, b5, b6, b7⟩ := h'.regs
    exact ⟨fun n => (b1 n).trans (a1 n), b2.trans a2, b3.trans a3, b4.trans a4, b5.trans a5, b6.trans a6, b7.trans a7⟩
theorem issuing_changeSlot (s : State) (f : Slot → Slot) : Issuing s (changeSlot s f) := by
  obtain ⟨hr, -, hh, hu, -⟩ := operandKept_changeSlot s f
  refine ⟨hh, ?_, hu, hr, ?_⟩
  · unfold changeSlot
    split
    · unfold CoreKept
      rw [here_mapCore]
      rfl
    · rfl
  · unfold changeSlot
    split <;> rfl
/-- A change of the moving thread's counters. -/
theorem issuing_withThread (s : State) {f : Thread → Thread} (hf : SameRegs (threadOf s) (f (threadOf s))) : Issuing s (withThread s f) := by
  have hth : threadOf (withThread s f) = f (threadOf s) := threadOf_modThread s f
  obtain ⟨hg, hd, h0, h1, hf', hk, hc, -⟩ := hf
  refine ⟨onlyHere_mapCore s _, ?_, otherThreads_modThread s f, ?_, rfl⟩
  · unfold CoreKept
    rw [withThread, here_mapCore]
    rfl
  · rw [StoreRegs, hth]
    exact ⟨fun n => regVal_congr hg hd n, hd, h0, h1, hf', hk, hc⟩
theorem Issuing.pidOf_eq (h : Issuing s t) : pidOf t s.cur.core = pidOf s s.cur.core := by
  have hl : t.launches = s.launches := (congrArg State.launches h.only.1 :)
  have hc : (coreAt t s.cur.core).launch = (coreAt s s.cur.core).launch := by
    have := coreKept_field Core.launch (fun _ _ => rfl) h.core
    rwa [here, h.cur] at this
  unfold pidOf launchOf launchAt
  rw [hc, hl]
/-- The frame of an instruction whose request leaves. -/
theorem issueFrame_goes (h : Issuing s t) (g : List GReq) (i : Nat) : IssueFrame s (goes s { t with gnet := g, nextId := i }) := by
  obtain ⟨hs, hd⟩ := h.only
  have hcur := h.cur
  have hhere : here (goes s { t with gnet := g, nextId := i }) = mapThread (here t) s.cur.unit (movedOn (pcOf s) (lenOf s)) := by
    rw [here_goes, ← hcur]; rfl
  have hcore : CoreKept s (goes s { t with gnet := g, nextId := i }) := by
    have hk := h.core
    unfold CoreKept at hk ⊢
    rw [hhere]
    conv_rhs => rw [← hk]
    rfl
  refine ⟨?_, fun d hne => ?_, hcore, memKept_of_coreKept hcore, fun u hu => ?_, ?_, pc_goes s _⟩
  · exact congrArg (fun x : State => { x with gnet := s.gnet }) hs
  · exact (coreAt_mapCore_ne _ _ (by rw [hcur]; exact hne)).trans (hd d hne)
  · rw [hhere, threadAt_mapThread_ne _ _ hu]
    exact h.others u hu
  · exact storeRegs_goes h.regs
/-- The request that leaves. -/
theorem leaves_goes (h : Issuing s t) {o : Origin} {A : Word} {k : GKind} (hc : o.core = s.cur.core) (hi : o.slot = slotNo s.cur.unit)
    (hx : o.side = unitSide s.cur.unit) : Leaves s (goes s (sendGlobal t o A k)) A k := by
  have hg : t.gnet = s.gnet := (congrArg State.gnet h.only.1 :)
  refine ⟨_, congrArg (· ++ [_]) hg, h.nextId, ?_, rfl, rfl, rfl, rfl, hc, hi, hx⟩
  dsimp only
  rw [hc]
  exact h.pidOf_eq
end

/-! ### Loads and atomics (R137) -/

/-- A load charged to its stream. -/
def charging (l : GLoad) (t : Thread) : Thread := { t with ld := t.ld + 1, gld := t.gld ++ [l] }
/-- A place of lq reserved for the load `i`. -/
def reserving (i : Nat) (y : Slot) : Slot := { y with lq := y.lq ++ [.reserved i] }
/-- The destination of a load reserved. -/
def destTaken (s : State) : GReg → State
  | .g _ => s
  | .sp _ => changeSlot s (reserving s.nextId)
/-- The load of the next number, of the current instruction. -/
def newLoad (s : State) (a : GReg) (A : Word) : GLoad := ⟨s.nextId, pcOf s, A, a, none, none, false, false⟩
/-- A load charged and its destination reserved. -/
def loadTaken (s : State) (a : GReg) (A : Word) : State := withThread (destTaken s a) (charging (newLoad s a A))

section
variable {s s1 : State} {a : GReg} {A : Word} {k : GKind}

theorem destTaken_issuing (s : State) (a : GReg) : Issuing s (destTaken s a) := by
  cases a with
  | g n => exact issuing_of_readLeft (readLeft_refl s)
  | sp c => exact issuing_changeSlot s _
theorem threadOf_destTaken (s : State) (a : GReg) : threadOf (destTaken s a) = threadOf s := by
  cases a with
  | g n => rfl
  | sp c => exact threadOf_changeSlot s _
theorem loadTaken_issuing (s : State) (a : GReg) (A : Word) : Issuing s (loadTaken s a A) :=
  issuing_trans (destTaken_issuing s a) (issuing_withThread _ ⟨rfl, rfl, rfl, rfl, rfl, rfl, rfl, rfl⟩)
theorem threadOf_loadTaken (s : State) (a : GReg) (A : Word) : threadOf (loadTaken s a A) = charging (newLoad s a A) (threadOf s) :=
  (threadOf_modThread _ _).trans (by rw [threadOf_destTaken])
theorem globalLoad_run (hd : DestFree s a) (hld : (threadOf s).ld < 63) :
    globalLoad a A k s = .ok ((), sendGlobal (loadTaken s a A) (reqOrigin s s.cur) A k) := by
  have hroom : ∀ u, stallIf (decide (63 ≤ (threadOf s).ld)) u = .ok ((), u) := fun u => (stallIf_ok ..).2 ⟨by simpa using hld, rfl⟩
  unfold globalLoad
  rw [bind_run (get_run s)]
  cases a with
  | g n =>
    have hlock : stallIf (locked (threadOf s) n) s = .ok ((), s) := (stallIf_ok ..).2 ⟨hd, rfl⟩
    refine (bind_run hlock).trans ((bind_run (hroom s)).trans ?_)
    rfl
  | sp c =>
    obtain ⟨-, hlen, hb⟩ := hd
    have hlq : (do stallIf (decide (16 ≤ (slotOf s).lq.length) || !(threadOf s).sbuf.isEmpty)
                   modSlot fun y => { y with lq := y.lq ++ [.reserved s.nextId] } : M Unit) s = .ok ((), changeSlot s (reserving s.nextId)) := by
      rw [stallIf_modSlot, if_neg (by simp [hb]; omega)]
      rfl
    refine (bind_run hlq).trans ((bind_run (hroom _)).trans ?_)
    rfl
/-- What a load or atomic that leaves has done. -/
theorem load_leaves (hl : ReadLeft s s1) (hi : isIbex s.cur.unit = false) :
    Leaves s (goes s (sendGlobal (loadTaken s1 a A) (reqOrigin s1 s1.cur) A k)) A k ∧
      Reserved s s1 (goes s (sendGlobal (loadTaken s1 a A) (reqOrigin s1 s1.cur) A k)) a A ∧
      IssueFrame s (goes s (sendGlobal (loadTaken s1 a A) (reqOrigin s1 s1.cur) A k)) := by
  have hissue := issuing_trans (issuing_of_readLeft hl) (loadTaken_issuing s1 a A)
  have hld : (threadOf s1).ld = (threadOf s).ld := (congrArg Thread.ld hl.thread :)
  have hgld : (threadOf s1).gld = (threadOf s).gld := (congrArg Thread.gld hl.thread :)
  have hth : threadOf (goes s (sendGlobal (loadTaken s1 a A) (reqOrigin s1 s1.cur) A k)) =
      movedOn (pcOf s) (lenOf s) (charging (newLoad s1 a A) (threadOf s1)) := by
    rw [← threadOf_loadTaken, threadOf_advance_seq]
    rfl
  refine ⟨leaves_goes hissue ?_ ?_ ?_, ⟨?_, ⟨newLoad s1 a A, ?_, hl.nextId, rfl, rfl, hl.pc, rfl, rfl, rfl⟩, ?_⟩, issueFrame_goes hissue _ _⟩
  · exact congrArg Agent.core hl.cur
  · exact congrArg (fun x : Agent => slotNo x.unit) hl.cur
  · exact congrArg (fun x : Agent => unitSide x.unit) hl.cur
  · rw [hth, ← hld]; rfl
  · rw [hth, ← hgld]; rfl
  · rintro rfl
    have hi1 : isIbex s1.cur.unit = false := by rw [hl.cur]; exact hi
    have htaken : slotOf (loadTaken s1 (.sp 2) A) = slotOf (changeSlot s1 (reserving s1.nextId)) := slotOf_mapCore rfl
    have hslot : slotOf (goes s (sendGlobal (loadTaken s1 (.sp 2) A) (reqOrigin s1 s1.cur) A k)) = reserving s1.nextId (slotOf s1) :=
      (slotOf_mapCore rfl).trans (htaken.trans (slotOf_changeSlot hi1 _))
    rw [hslot, reserving, hl.nextId]
end

/-! ### The checks of R136 -/

section
variable {s : State} {A : Word} {n : Nat}

theorem globalCheck_ok (h : globalOk A n) : globalCheck A n s = .ok ((), s) := by
  obtain ⟨hlow, hhigh, ha⟩ := h
  unfold globalCheck
  rw [decide_eq_true hlow, decide_eq_true hhigh, ha]
  rfl
theorem globalCheck_fails {k : Nat} (h : globalFails A n k) : globalCheck A n s = .error (.trap (why 0x080 k) A none) := by
  unfold globalCheck
  rcases h with ⟨rfl, h⟩ | ⟨rfl, h⟩ | ⟨rfl, hlow, hhigh, h⟩
  · rw [decide_eq_false (Nat.not_le.2 h)]
    rfl
  · have hlow : 2 ^ 32 ≤ A.toNat := by omega
    rw [decide_eq_true hlow, decide_eq_false (Nat.not_lt.2 h)]
    rfl
  · rw [decide_eq_true hlow, decide_eq_true hhigh, beq_false_of_ne h]
    rfl
end

/-! ### GLD and GAMO -/

/-- A load instruction, which limits its destination. -/
theorem exec_gld {i : Instr} {a b : GReg} {imm : BitVec 27} {n : Nat} (h : gldTable i = some (a, b, imm, n)) (s : State) :
    exec i s = instr uA false [.limit (loadDest a), .rd b, .wr a] (gldOp a b (imm.signExtend 64) n) s := by
  cases i <;> cases h <;> rfl
theorem exec_gamo {i : Instr} {a b c : GReg} {op : AmoOp} (h : gamoTable i = some (a, b, c, op)) (s : State) :
    exec i s = instr uA false [.limit (loadDest a), .rd b, .rd c, .wr a] (gamoOp op a b c) s := by
  cases i <;> cases h <;> rfl
theorem exec_gst {i : Instr} {a b : GReg} {imm : BitVec 27} {n : Nat} (h : gstTable i = some (a, b, imm, n)) (s : State) :
    exec i s = instr uA false [.rd b, .rd a] (gstOp a b (imm.signExtend 64) n) s := by
  cases i <;> cases h <;> rfl
theorem loadDest_of_free {s : State} {a : GReg} (h : DestFree s a) : loadDest a = true := by
  cases a with
  | g n => rfl
  | sp c =>
    obtain ⟨rfl, -⟩ := h
    rfl
theorem isIbex_of_passes {us : List Use} {s : State} (h : Passes uA false us s) : isIbex s.cur.unit = false := by
  have hu := (preCheck_none h.2).1
  cases hc : s.cur.unit with
  | ibex n => rw [hc] at hu; exact absurd hu (by simp [unitCheck, uA])
  | stream i x => rfl
/-- A limit that is kept leaves the checks as they were. -/
theorem passes_within {un : Units} {us : List Use} {s : State} {b : Bool} (hb : b = true) (h : Passes un false us s) :
    Passes un false (.limit b :: us) s := by
  subst hb
  exact h
/-- A special code that a load may not have as destination is refused (log 16). -/
theorem load_refused {us : List Use} {c : BitVec 5} {s : State} {body : M Next} (hc : c ≠ 2) (h : us.all (usePresent s.cur.unit) = true)
    (hs : isCore s.cur.core = true) (hu : unitCheck uA s.cur.unit = none) :
    instr uA false (.limit (loadDest (.sp c)) :: us) body s = .next (onStop s (.trap (why 0x002 5) (baseAddr s) none)) := by
  have hd : loadDest (.sp c) = false := beq_false_of_ne hc
  rw [hd]
  exact instr_refused hs (preCheck_exceeds hu h)

/-- The part of O32 on GLD and GAMO. -/
theorem globalLoadsIssue : Claim.GlobalLoadsIssue := by
  refine ⟨fun i a b imm n h s s1 x hp hb => ?_, fun i a b c op h s s1 s2 A y hp hb hc hA hs hd hld => ?_,
    fun a b c s s1 s2 A y z hp hb hc hA hs hd hld => ?_, fun i c us s hne h hp => ?_⟩
  · have hl := readLeft_readG hb
    intro A
    have haddr : nearAddr b (imm.signExtend 64) n s = .ok (A, s1) := nearAddr_run _ n hb
    refine ⟨fun k hd hf => ?_, fun hA hheld hd hld => ?_⟩
    · rw [exec_gld h]
      refine instr_stop (e := .trap (why 0x080 k) A none) (passes_within hd hp) ?_
      unfold gldOp
      rw [bind_run haddr]
      exact bind_stop (globalCheck_fails hf)
    · refine ⟨_, ?_, load_leaves (a := a) (A := A) (k := .load n) hl (isIbex_of_passes hp)⟩
      have hstall : (do stallIf (heldGst (← get) A n) : M Unit) s1 = .ok ((), s1) :=
        (bind_run (get_run s1)).trans ((stallIf_ok ..).2 ⟨(hl.heldGst_eq A n).trans hheld, rfl⟩)
      have hld1 : (threadOf s1).ld < 63 := (congrArg Thread.ld hl.thread :).trans_lt hld
      rw [exec_gld h]
      refine instr_ok (passes_within (loadDest_of_free hd) hp) ?_
      unfold gldOp
      refine (bind_run haddr).trans ((bind_run (globalCheck_ok hA)).trans ((bind_run (get_run s1)).trans ?_))
      refine (bind_run ((stallIf_ok ..).2 ⟨(hl.heldGst_eq A n).trans hheld, rfl⟩)).trans ?_
      exact bind_run (globalLoad_run (hl.destFree hd) hld1)
  · have hl := readLeft_trans (readLeft_readG hb) (readLeft_readG hc)
    refine ⟨_, ?_, load_leaves (a := a) (A := A) (k := .amo op y 0) hl (isIbex_of_passes hp)⟩
    have hld2 : (threadOf s2).ld < 63 := (congrArg Thread.ld hl.thread :).trans_lt hld
    rw [exec_gamo h]
    refine instr_ok (passes_within (loadDest_of_free hd) hp) ?_
    unfold gamoOp
    rw [bind_run hb, bind_run hc, bind_run (globalCheck_ok hA), bind_run ((stallIfSpec_run s2).trans (if_neg (by rw [hl.isSpec_eq, hs]; decide)))]
    exact bind_run (globalLoad_run (hl.destFree hd) hld2)
  · have hs2 := readPair_same hc
    subst hs2
    have hl := readLeft_readG hb
    refine ⟨_, ?_, load_leaves (a := a) (A := A) (k := .amo .cas y z) hl (isIbex_of_passes hp)⟩
    have hld2 : (threadOf s2).ld < 63 := (congrArg Thread.ld hl.thread :).trans_lt hld
    refine instr_ok (passes_within (loadDest_of_free hd) hp) ?_
    unfold gcasOp
    rw [bind_run hb, bind_run hc]
    dsimp only
    rw [bind_run (globalCheck_ok hA), bind_run ((stallIfSpec_run s2).trans (if_neg (by rw [hl.isSpec_eq, hs]; decide)))]
    exact bind_run (globalLoad_run (hl.destFree hd) hld2)
  · obtain ⟨hu, hpres, -⟩ := preCheck_none hp.2
    rcases h with ⟨b, imm, n, h, rfl⟩ | ⟨b, d, op, h, rfl⟩ | ⟨b, d, rfl, rfl⟩
    · rw [exec_gld h]
      exact load_refused hne (by simpa [usePresent] using hpres) hp.1 hu
    · rw [exec_gamo h]
      exact load_refused hne (by simpa [usePresent] using hpres) hp.1 hu
    · exact load_refused hne (by simpa [usePresent] using hpres) hp.1 hu

/-! ### Stores, MSCFL and PREF (R138, R139) -/

/-- A posted entry of the current instruction, charged to its stream. -/
def postTaken (s : State) (sc : Scope) (A : Word) : State :=
  (postedAdd s s.cur.core (slotNo s.cur.unit) (unitSide s.cur.unit) (pcOf s) sc A).1
def postOrigin (s : State) (sc : Scope) (A : Word) : Origin :=
  (postedAdd s s.cur.core (slotNo s.cur.unit) (unitSide s.cur.unit) (pcOf s) sc A).2
/-- The slot and the thread that a posted entry charges. -/
def posting (pc : Word) (cycle : Word) (x : Side) (sc : Scope) (A : Word) (y : Slot) : Slot :=
  { y with posted := y.posted ++ [{ seq := y.nextSeq, scope := sc, side := x, pc := pc, cycle := cycle, addr := A,
                                    failed := none, lost := false, told := false }]
           nextSeq := y.nextSeq + 1 }
def charged (t : Thread) : Thread := { t with st := t.st + 1 }

section
variable {s s1 : State} {sc : Scope} {A : Word} {k : GKind}

theorem post_run {f : Origin → State → State} (h : postedFull s = false) :
    post sc A f s = .ok ((), f (postOrigin s sc A) (postTaken s sc A)) := by
  unfold post
  rw [h]
  rfl
theorem postTaken_eq (hi : isIbex s.cur.unit = false) : postTaken s sc A =
    withThread (changeSlot s (posting (pcOf s) (here s).cycle (unitSide s.cur.unit) sc A)) charged := by
  cases hu : s.cur.unit with
  | ibex n => rw [hu] at hi; exact absurd hi (by simp [isIbex, unitSlot])
  | stream i x =>
    have hs : changeSlot s (posting (pcOf s) (here s).cycle x sc A) =
        mapCore s s.cur.core fun k => mapSlot k i (posting (pcOf s) (here s).cycle x sc A) := by
      rw [changeSlot, hu]; rfl
    have hx : unitSide (.stream i x) = x := rfl
    rw [hx, hs, withThread, mapCore_cur, mapCore_mapCore, hu]
    unfold postTaken postedAdd
    rw [hu]
    rfl
/-- What a posted operation has done before its request leaves. -/
theorem postTaken_issuing (hi : isIbex s.cur.unit = false) : Issuing s (postTaken s sc A) := by
  rw [postTaken_eq hi]
  exact issuing_trans (issuing_changeSlot s _) (issuing_withThread _ ⟨rfl, rfl, rfl, rfl, rfl, rfl, rfl, rfl⟩)
/-- What a store or MSCFL that leaves has done. -/
theorem post_leaves (hl : ReadLeft s s1) (hi : isIbex s.cur.unit = false) :
    Leaves s (goes s (sendGlobal (postTaken s1 sc A) (postOrigin s1 sc A) A k)) A k ∧
      PostedEntry s (goes s (sendGlobal (postTaken s1 sc A) (postOrigin s1 sc A) A k)) sc A ∧
      IssueFrame s (goes s (sendGlobal (postTaken s1 sc A) (postOrigin s1 sc A) A k)) := by
  have hi1 : isIbex s1.cur.unit = false := by rw [hl.cur]; exact hi
  have hissue := issuing_trans (issuing_of_readLeft hl) (postTaken_issuing (sc := sc) (A := A) hi1)
  have hst : (threadOf s1).st = (threadOf s).st := (congrArg Thread.st hl.thread :)
  have hside : unitSide s1.cur.unit = unitSide s.cur.unit := congrArg (fun x : Agent => unitSide x.unit) hl.cur
  have hslot1 : slotOf (postTaken s1 sc A) = posting (pcOf s1) (here s1).cycle (unitSide s1.cur.unit) sc A (slotOf s1) := by
    rw [postTaken_eq hi1]
    exact (slotOf_mapCore rfl).trans (slotOf_changeSlot hi1 _)
  have hthread1 : threadOf (postTaken s1 sc A) = charged (threadOf s1) := by
    rw [postTaken_eq hi1]
    exact (threadOf_modThread _ _).trans (by rw [threadOf_changeSlot])
  have hslot : slotOf (goes s (sendGlobal (postTaken s1 sc A) (postOrigin s1 sc A) A k)) = slotOf (postTaken s1 sc A) := slotOf_mapCore rfl
  have hth : threadOf (goes s (sendGlobal (postTaken s1 sc A) (postOrigin s1 sc A) A k)) =
      movedOn (pcOf s) (lenOf s) (threadOf (postTaken s1 sc A)) := threadOf_advance_seq ..
  have hseq := hl.slotOf_field Slot.nextSeq fun _ _ => rfl
  have hposted := hl.slotOf_field Slot.posted fun _ _ => rfl
  refine ⟨leaves_goes hissue ?_ ?_ ?_, ⟨?_, ?_, ?_⟩, issueFrame_goes hissue _ _⟩
  · exact congrArg Agent.core hl.cur
  · exact congrArg (fun x : Agent => slotNo x.unit) hl.cur
  · exact hside
  · rw [hth, hthread1, ← hst]; rfl
  · rw [hslot, hslot1, ← hseq]; rfl
  · rw [hslot, hslot1, ← hposted]
    exact ⟨_, rfl, hseq, rfl, hside, hl.pc, rfl, rfl, rfl⟩
end

/-- A GST that a speculative body holds. -/
def heldStore (s : State) (A : Word) (n : Nat) (v : Word) : Outgoing := .gst (unitSide s.cur.unit) (pcOf s) A (leBytes n v.toNat)

/-- The part of O32 on GST, MSCFL and PREF. -/
theorem globalStoresIssue : Claim.GlobalStoresIssue := by
  refine ⟨fun i a b imm n h s s1 s2 x v hp hb ha => ?_, fun b c s s1 s2 A n hp hb hc => ?_⟩
  · have hl := readLeft_trans (readLeft_readG hb) (readLeft_readG ha)
    have hi := isIbex_of_passes hp
    intro A
    have haddr : nearAddr b (imm.signExtend 64) n s = .ok (A, s1) := nearAddr_run _ n hb
    refine ⟨fun k hf => ?_, fun hA hs hfull => ?_, fun hA hs k hk hlen => ?_⟩
    · rw [exec_gst h]
      refine instr_stop (e := .trap (why 0x080 k) A none) hp ?_
      unfold gstOp
      rw [bind_run haddr, bind_run ha]
      exact bind_stop (globalCheck_fails hf)
    · refine ⟨_, ?_, post_leaves hl hi⟩
      rw [exec_gst h]
      refine instr_ok hp ?_
      unfold gstOp
      rw [bind_run haddr, bind_run ha, bind_run (globalCheck_ok hA), bind_run (get_run s2)]
      dsimp only
      rw [hl.isSpec_eq, hs, if_neg (by decide)]
      exact bind_run (post_run (hl.postedFull_eq.trans hfull))
    · have hk2 : (slotOf s2).task = some k := (hl.slotOf_field Slot.task fun _ _ => rfl).trans hk
      have hside : unitSide s2.cur.unit = unitSide s.cur.unit := congrArg (fun x : Agent => unitSide x.unit) hl.cur
      have hi2 : isIbex s2.cur.unit = false := by rw [hl.cur]; exact hi
      have hissue := issuing_trans (issuing_of_readLeft hl) (issuing_changeSlot s2 (holding k (heldStore s A n v)))
      have hhold : hold (.gst (unitSide s2.cur.unit) (pcOf s2) A (leBytes n v.toNat)) s2 = .ok ((), changeSlot s2 (holding k (heldStore s A n v))) := by
        rw [hside, hl.pc, hold_run _ hk2, if_neg (by simpa using hlen), heldStore]
      refine ⟨goes s (changeSlot s2 (holding k (heldStore s A n v))), ?_, (congrArg State.gnet hissue.only.1 :), issueFrame_goes hissue _ _, ?_⟩
      · rw [exec_gst h]
        refine instr_ok hp ?_
        unfold gstOp
        rw [bind_run haddr, bind_run ha, bind_run (globalCheck_ok hA), bind_run (get_run s2)]
        dsimp only
        rw [hl.isSpec_eq, hs, if_pos rfl]
        exact bind_run hhold
      · rw [show slotOf (goes s (changeSlot s2 (holding k (heldStore s A n v)))) = holding k (heldStore s A n v) (slotOf s2) from
          (slotOf_mapCore rfl).trans (slotOf_changeSlot hi2 _)]
        rfl
  · have hl := readLeft_trans (readLeft_readG hb) (readLeft_readG hc)
    have hi := isIbex_of_passes hp
    refine ⟨fun hA hfull => ⟨_, ?_, post_leaves hl hi⟩, fun hn => ?_, fun hn => ?_⟩
    · refine instr_ok hp ?_
      rw [bind_run hb, bind_run hc, bind_run (globalCheck_ok hA)]
      exact bind_run (post_run (hl.postedFull_eq.trans hfull))
    · have hissue := issuing_of_readLeft hl
      have hth : threadOf (goes s (sendGlobal s2 (reqOrigin s2 s2.cur) A (.pref (lineLen n)))) = movedOn (pcOf s) (lenOf s) (threadOf s2) :=
        threadOf_advance_seq ..
      refine ⟨goes s (sendGlobal s2 (reqOrigin s2 s2.cur) A (.pref (lineLen n))), ?_, leaves_goes hissue ?_ ?_ ?_, issueFrame_goes hissue _ _,
        ?_, ?_⟩
      · refine instr_ok hp ?_
        rw [bind_run hb, bind_run hc, if_neg hn]
        rfl
      · exact congrArg Agent.core hl.cur
      · exact congrArg (fun x : Agent => slotNo x.unit) hl.cur
      · exact congrArg (fun x : Agent => unitSide x.unit) hl.cur
      · rw [hth]
        exact (congrArg Thread.st hl.thread :)
      · rw [hth]
        exact (congrArg Thread.ld hl.thread :)
    · subst hn
      exact instr_ok hp ((bind_run hb).trans (bind_run hc))

/-- Settles O32: each access passes the checks of R136 and then leaves, charged and with its destination or its entry (load_leaves,
post_leaves). -/
theorem globalIssue : Obligations.GlobalIssue := ⟨globalLoadsIssue, globalStoresIssue⟩
end Sys2Proof.Machine

namespace Sys2Proof.Machine
open Sys2Proof.Claim

/-! # Replies of global accesses, and shoot-downs (O34)

### The request of a number -/

theorem find?_of_only {α : Type} {p : α → Bool} {l : List α} {x : α} (hx : x ∈ l) (hp : p x = true) (honly : ∀ y ∈ l, p y = true → y = x) :
    l.find? p = some x := by
  cases hf : l.find? p with
  | none => exact absurd hp (List.find?_eq_none.1 hf x hx)
  | some y => rw [honly y (List.mem_of_find?_eq_some hf) (List.find?_some hf)]
theorem find?_request {s : State} {id : Nat} {r : GReq} (h : OneRequest s id r) : s.gnet.find? (fun x => x.id == id) = some r := by
  obtain ⟨hmem, hid, honly⟩ := h
  exact find?_of_only hmem (beq_iff_eq.2 hid) fun x hx hxid => honly x hx (beq_iff_eq.1 hxid)
/-- The request with its reply. -/
def answered (y : GReply) (r : GReq) : GReq := { r with reply := some y, held := false }
/-- A reply that is given is found. -/
theorem gFind_gReply {s : State} {id : Nat} {r : GReq} (y : GReply) (h : OneRequest s id r) : gFind (gReply s id y) id = some y := by
  have hfind : (gReply s id y).gnet.find? (fun x => x.id == id) = some (answered y r) :=
    (find?_changeFirst (p := fun x => x.id == id) (f := answered y) (fun _ hx => hx) s.gnet).trans (congrArg (Option.map _) (find?_request h))
  rw [gFind, hfind]
  rfl

/-! ### The data of a load (R120, R137) -/

/-- The access stream after its oldest load's value is written. -/
def loadedThread (x : GLoad) (v : Word) (t : Thread) : Thread :=
  let t1 : Thread := { t with gld := t.gld.drop 1, ld := t.ld - 1 }
  let t2 := match x.dest with
    | .g n => regSet t1 n v
    | .sp _ => t1
  { t2 with l1 := t2.l0, l0 := v }
/-- The slot whose place in lq takes the value. -/
def loadedSlot (x : GLoad) (v : Word) (y : Slot) : Slot := { y with lq := y.lq.map fun p => if p = .reserved x.id then .word v else p }

theorem deliver_kept {x : GLoad} (h : x.drop = false) (k : Core) (i : Fin 4) (v : Word) :
    deliver k i x v = mapSlot (mapThread k (.stream i .acc) (loadedThread x v)) i (loadedSlot x v) := by
  unfold deliver
  simp only [h]
  rfl
theorem execGlobalLoadData_data {s : State} {c : Coord} {q : Fin 4} {x : GLoad} {l : List GLoad} {v : Word}
    (hl : (threadAt (coreAt s c) (.stream q .acc)).gld = x :: l) (hdrop : x.drop = false) (hdata : x.data = none)
    (hfind : gFind s x.id = some (.data v)) :
    execGlobalLoadData c q s = .next (mapCore (gDrop s x.id) c fun k =>
      mapSlot (mapThread k (.stream q .acc) (loadedThread x v)) q (loadedSlot x v)) := by
  have hv : loadValue s x = some v := by simp [loadValue, hdata, hfind]
  rw [execGlobalLoadData, event_run, hl]
  dsimp only
  rw [hv]
  simp only [deliver_kept hdrop]
section
variable (x : GLoad) (v : Word) (t : Thread)

/-- What the delivery does to the loads, the counter, the last results and the PC. -/
theorem loadedThread_kept : (loadedThread x v t).gld = t.gld.drop 1 ∧ (loadedThread x v t).ld = t.ld - 1 ∧ (loadedThread x v t).l0 = v ∧
    (loadedThread x v t).l1 = t.l0 ∧ (loadedThread x v t).pc = t.pc := by
  unfold loadedThread
  cases x.dest with
  | g n =>
    have hk := threadTouched_regSet { t with gld := t.gld.drop 1, ld := t.ld - 1 } n v
    obtain ⟨h0, -, hpc⟩ := regSet_kept { t with gld := t.gld.drop 1, ld := t.ld - 1 } n v
    exact ⟨(congrArg Thread.gld hk :), (congrArg Thread.ld hk :), rfl, h0, hpc⟩
  | sp n => exact ⟨rfl, rfl, rfl, rfl, rfl⟩
theorem regVal_loadedThread (n : BitVec 5) : regVal (loadedThread x v t) n = if x.dest = .g n ∧ n ≠ 0 then v else regVal t n := by
  unfold loadedThread
  cases x.dest with
  | g m =>
    show regVal (regSet _ m v) n = _
    rw [regVal_regSet_eq]
    have hiff : (n = m ∧ m ≠ 0) ↔ (GReg.g m = .g n ∧ n ≠ 0) := by
      constructor
      · rintro ⟨rfl, h⟩
        exact ⟨rfl, h⟩
      · rintro ⟨h, hn⟩
        cases h
        exact ⟨rfl, hn⟩
    simp only [hiff]
    rfl
  | sp m => exact (if_neg fun h => nomatch h.1).symm
theorem lq_loadedSlot (y : Slot) (j : Nat) :
    (loadedSlot x v y).lq[j]? = if y.lq[j]? = some (.reserved x.id) then some (.word v) else y.lq[j]? := by
  show (y.lq.map _)[j]? = _
  rw [List.getElem?_map]
  cases y.lq[j]? with
  | none => rfl
  | some p => simp only [Option.map_some, Option.some.injEq, apply_ite some]
end

/-! ### The reply of a write (R138, R141) -/

/-- The posted entry after the reply of a write that is not lost: gone, or failed and kept. -/
def ackedPosted (o : Origin) (p : Posted) (w : Option Why) (l : List Posted) : List Posted := match w with
  | none => dropFirst (fun q => q.seq == o.seq) l
  | some v => changeFirst (fun q => q.seq == o.seq) (fun _ => { p with failed := some v }) l

theorem originBusy_last {s : State} {o : Origin} (h : LastOf s.net o) : originBusy s o = false := by
  unfold originBusy
  simp only [Bool.or_eq_false_iff, List.any_eq_false, Bool.and_eq_true, beq_iff_eq, not_and]
  exact ⟨fun m hm ho => (h m hm ho).1, fun m hm ho => (h m hm ho).2⟩
theorem ackPosted_last {s : State} {o : Origin} {p : Posted} (w : Option Why) (hwait : Waiting s o p) (hlast : LastOf s.net o) :
    ackPosted s o w none = mapCore s o.core fun k =>
      mapThread (mapSlot k o.slot fun x => { x with posted := ackedPosted o p w x.posted }) (.stream o.slot o.side)
        fun t => { t with st := t.st - 1 } := by
  obtain ⟨hmem, hseq, hfailed, hlost, htold, honly⟩ := hwait
  have hfind : (slotAt (coreAt s o.core) o.slot).posted.find? (fun q => q.seq == o.seq && !q.lost) = some p := by
    refine find?_of_only hmem (by simp [hseq, hlost]) fun q hq hp => honly q hq ?_
    exact beq_iff_eq.1 (Bool.and_eq_true_iff.1 hp).1
  rw [ackPosted, hfind, originBusy_last hlast]
  cases w with
  | none => simp [hfailed, htold, ackedPosted]
  | some v => simp [hfailed, htold, ackedPosted]
theorem acked_ackPosted {s : State} {o : Origin} {p : Posted} (w : Option Why) (hwait : Waiting s o p) (hlast : LastOf s.net o) :
    Acked s (ackPosted s o w none) o p w := by
  rw [ackPosted_last w hwait hlast]
  unfold Acked
  simp only [coreAt_mapCore, threadAt_mapThread, slotAt_mapThread, slotAt_mapSlot, threadAt_mapSlot]
  refine ⟨trivial, ?_, ?_⟩
  · rintro rfl
    rfl
  · rintro v rfl
    rfl
theorem execGlobalWriteAck_reply {s : State} {id : Nat} {r : GReq} {y : GReply} (hone : OneRequest s id r)
    (hkind : (∃ bs, r.kind = .store bs) ∨ ∃ k, r.kind = .mscfl k) (hreply : r.reply = some y) :
    execGlobalWriteAck id s = .next (ackPosted (gDrop s id) r.origin (execGlobalWriteAck.replyWhy y) none) := by
  rw [execGlobalWriteAck, event_run, find?_request hone]
  dsimp only
  rcases hkind with ⟨bs, hk⟩ | ⟨k, hk⟩ <;> rw [hk, hreply]

/-! ### The report of a failed load (R143) -/

/-- A change of the access stream of a slot that concerns its loads only. -/
def mapAcc (s : State) (c : Coord) (q : Fin 4) (f : Thread → Thread) : State := mapCore s c fun k => mapThread k (.stream q .acc) f
section
variable {s : State} {c : Coord} {q : Fin 4} {f : Thread → Thread}

theorem core_mapAcc {α : Type} (g : Core → α) (hg : ∀ k, g (mapThread k (.stream q .acc) f) = g k) (d : Coord) :
    g (coreAt (mapAcc s c q f) d) = g (coreAt s d) := by
  by_cases h : d = c
  · rw [h, mapAcc, coreAt_mapCore, hg]
  · rw [mapAcc, coreAt_mapCore_ne _ _ h]
theorem slotAt_mapAcc (i : Fin 4) : slotAt (coreAt (mapAcc s c q f) c) i = slotAt (coreAt s c) i := core_mapAcc (slotAt · i) (fun _ => rfl) c
theorem tvec_mapAcc : (coreAt (mapAcc s c q f) c).tvec = (coreAt s c).tvec := core_mapAcc (·.tvec) (fun _ => rfl) c
theorem attr_mapAcc : (coreAt (mapAcc s c q f) c).attr = (coreAt s c).attr := core_mapAcc (·.attr) (fun _ => rfl) c
theorem mem_mapAcc : (coreAt (mapAcc s c q f) c).mem = (coreAt s c).mem := core_mapAcc (·.mem) (fun _ => rfl) c
theorem speculative_mapAcc (y : Task) : speculative (mapAcc s c q f) y = speculative s y := by
  unfold speculative
  rw [core_mapAcc (entryAt · y.entry) fun _ => rfl]
theorem acc_mapAcc : threadAt (coreAt (mapAcc s c q f) c) (.stream q .acc) = f (threadAt (coreAt s c) (.stream q .acc)) := by
  rw [mapAcc, coreAt_mapCore, threadAt_mapThread]
/-- Any part of a thread of the slot but its loads. -/
theorem thread_mapAcc {α : Type} (hf : ∀ t, { f t with gld := t.gld } = t) (g : Thread → α) (hg : ∀ t l, g { t with gld := l } = g t) (z : Side) :
    g (threadAt (coreAt (mapAcc s c q f) c) (.stream q z)) = g (threadAt (coreAt s c) (.stream q z)) := by
  cases z with
  | exec => rw [mapAcc, coreAt_mapCore, threadAt_mapThread_ne _ _ (exec_ne_acc q)]
  | acc =>
    rw [acc_mapAcc]
    exact (hg _ _).symm.trans (congrArg g (hf _))
theorem trapReady_mapAcc (hf : ∀ t, { f t with gld := t.gld } = t) (h : TrapReady s c q) : TrapReady (mapAcc s c q f) c q := by
  obtain ⟨hintrap, hspec, hnone, h0, hlow, hx, hpad⟩ := h
  refine ⟨by rw [slotAt_mapAcc, hintrap], fun y hy => ?_, ?_, by rwa [tvec_mapAcc], by rwa [tvec_mapAcc], ?_, ?_⟩
  · rw [speculative_mapAcc]
    exact hspec y (by rwa [slotAt_mapAcc] at hy)
  · rw [slotHoldsNone, thread_mapAcc hf holdsNone fun _ _ => rfl, thread_mapAcc hf holdsNone fun _ _ => rfl]
    exact hnone
  · rw [tvec_mapAcc, attrOf, attr_mapAcc]
    exact hx
  · rw [fetchHalf, thread_mapAcc hf Thread.fbuf fun _ _ => rfl, tvec_mapAcc, mem_mapAcc]
    exact hpad
/-- The trap of a slot whose access stream's loads were changed is the trap of the slot. -/
theorem trapTaken_mapAcc {t : State} {r : Trap} (hf : ∀ t, { f t with gld := t.gld } = t) (h : TrapTaken (mapAcc s c q f) t c q r) :
    TrapTaken s t c q r := by
  unfold TrapTaken at h
  simp only [slotAt_mapAcc, tvec_mapAcc, mem_mapAcc, thread_mapAcc hf Thread.pc fun _ _ => rfl, thread_mapAcc hf Thread.g fun _ _ => rfl,
    thread_mapAcc hf Thread.dead fun _ _ => rfl, thread_mapAcc hf Thread.l0 fun _ _ => rfl, thread_mapAcc hf Thread.l1 fun _ _ => rfl,
    thread_mapAcc hf Thread.k fun _ _ => rfl, thread_mapAcc hf Thread.fcsr fun _ _ => rfl] at h
  exact h
end
/-- The access stream with a load marked as reported. -/
def markReported (id : Nat) (w : Why) (t : Thread) : Thread :=
  { t with gld := changeFirst (fun y => y.id == id) (fun y => { y with reported := true, failed := some w }) t.gld }
/-- The oldest load of a stream at a boundary is the one reported. -/
theorem reportLoad_oldest {s : State} {c : Coord} {q : Fin 4} {x : GLoad} {l : List GLoad} {w : Why}
    (hst : (slotAt (coreAt s c) q).st = .running) (hrun : (threadAt (coreAt s c) (.stream q .acc)).running = true)
    (hheld : ∀ y, (slotAt (coreAt s c) q).task = some y → y.held = none) (hbegun : slotBegun (coreAt s c) q = false)
    (hgld : (threadAt (coreAt s c) (.stream q .acc)).gld = x :: l) (hx : loadFailed s x = some w) :
    reportLoad s c q = takeTrap (mapAcc (gDrop s x.id) c q (markReported x.id w)) c q
      ⟨deferSub w, .acc, x.addr, x.pc, wordsFound (coreAt s c) x.pc, (threadAt (coreAt s c) (.stream q .acc)).pc⟩ := by
  have hnone : ((slotAt (coreAt s c) q).task.bind (·.held)).isNone = true := by
    cases ht : (slotAt (coreAt s c) q).task with
    | none => rfl
    | some y => simp [hheld y ht]
  have hfind : (x :: l).find? (fun x => (loadFailed s x).isSome) = some x := List.find?_cons_of_pos (by simp [hx])
  unfold reportLoad
  simp only [hst, hrun, hnone, hbegun, hgld, hfind, hx]
  rfl
theorem takeTrap_ready {s : State} {c : Coord} {q : Fin 4} (r : Trap) (h : TrapReady s c q) : takeTrap s c q r = trapEntry s c q r := by
  obtain ⟨-, hspec, -⟩ := h
  exact takeTrap_eq r hspec
theorem gld_trapEntry {s : State} {c : Coord} {q : Fin 4} (r : Trap) (h : TrapReady s c q) :
    (threadAt (coreAt (trapEntry s c q r) c) (.stream q .acc)).gld = (threadAt (coreAt s c) (.stream q .acc)).gld := by
  rw [trapEntry_ready r h, coreAt_mapCore, coreAt_mapCore, handlerCore_acc, trappedCore_acc]
  rfl

/-- Replies of global accesses (R137 to R143). -/
theorem globalRepliesArrive : Claim.GlobalReplies := by
  refine ⟨fun s c q x l v hl hdrop hdata hfind => ?_, fun s id r p hone hkind hwait hlast w hw => ?_,
    fun s c q x l w hst hrun hheld hbegun hready hgld hdrop hrep hdata hfind => ?_⟩
  · refine ⟨_, execGlobalLoadData_data hl hdrop hdata hfind, ?_⟩
    dsimp only
    simp only [coreAt_mapCore, threadAt_mapSlot, threadAt_mapThread, slotAt_mapSlot, slotAt_mapThread]
    obtain ⟨hg, hld, h0, h1, hpc⟩ := loadedThread_kept x v (threadAt (coreAt s c) (.stream q .acc))
    exact ⟨hg.trans (by rw [hl]; rfl), hld, h0, h1, hpc, regVal_loadedThread x v _, lq_loadedSlot x v _, rfl, rfl, rfl⟩
  · have hy : ∃ y, r.reply = some y ∧ execGlobalWriteAck.replyWhy y = w := by
      rcases hw with ⟨rfl, hr⟩ | ⟨v, rfl, hr⟩
      · exact ⟨_, hr, rfl⟩
      · exact ⟨_, hr, rfl⟩
    obtain ⟨y, hr, rfl⟩ := hy
    refine ⟨_, execGlobalWriteAck_reply hone hkind hr, acked_ackPosted (s := gDrop s id) _ hwait hlast, ?_⟩
    rw [ackPosted_last (s := gDrop s id) _ hwait hlast]
    rfl
  · have hfailed : loadFailed s x = some w := by simp [loadFailed, hdrop, hrep, hdata, hfind]
    have hf : ∀ t, { markReported x.id w t with gld := t.gld } = t := fun _ => rfl
    have hready' : TrapReady (mapAcc (gDrop s x.id) c q (markReported x.id w)) c q := trapReady_mapAcc (s := gDrop s x.id) hf hready
    refine ⟨_, congrArg Host.Outcome.next ((reportLoad_oldest hst hrun hheld hbegun hgld hfailed).trans (takeTrap_ready _ hready')),
      trapTaken_mapAcc (s := gDrop s x.id) hf (trapEntry_taken _ hready'), ?_⟩
    rw [gld_trapEntry _ hready', acc_mapAcc]
    show changeFirst _ _ (threadAt (coreAt s c) (.stream q .acc)).gld = _
    rw [hgld]
    exact if_pos (beq_self_eq_true _)

/-! ### Shoot-downs (R335, R380, R390) -/

theorem mem_insertNat {k j : Nat} (l : List Nat) : j ∈ insertNat k l ↔ j = k ∨ j ∈ l := by
  induction l with
  | nil => simp [insertNat]
  | cons a r ih =>
    unfold insertNat
    split
    · simp only [List.mem_cons, ih]
      tauto
    · split
      · next h => simp [h]
      · simp
/-- A write of 0x0_1018 names pages, one that issues starts. -/
theorem shootDown_starts {s : State} {v : Word} (hp : s.phase = .running) (hl : s.hostLink = true) (hv : v.getLsbD 63 = true)
    (hz : v.toNat / 2 ^ 12 % 2 ^ 51 = 0) (hs : s.host.shoot = none) :
    ∃ t, exec (.shootDown v) s = .next t ∧ t.host.shootDone = false ∧ t.host.shootAcks = [] ∧ t.tlb = s.tlb ∧
      t.host.shoot = some (s.host.shootTarget.setWidth 20, if s.host.shootTarget.getLsbD 20 then none else
        some (s.host.shootBase.toNat / 2 ^ 12 % 2 ^ 45, if v.toNat % 2 ^ 12 = 0 then 4096 else v.toNat % 2 ^ 12)) := by
  have hreach : hostReaches s = true := by simp [hostReaches, hp, hl]
  have hbits : bits v 62 12 = 0 := hz
  have hpid : BitVec.ofNat 20 (bits s.host.shootTarget 19 0) = s.host.shootTarget.setWidth 20 := by
    apply BitVec.eq_of_toNat_eq
    simp [bits, natBits]
  have hcount : bits v 11 0 = v.toNat % 2 ^ 12 := by simp [bits, natBits]
  refine ⟨_, congrArg Host.Outcome.next ((if_pos hreach).trans (if_pos (by simp [hv, hbits, hs]))), rfl, rfl, rfl, ?_⟩
  dsimp only
  rw [hpid, hcount]
  rfl
theorem shootDown_ignored {s : State} {v : Word}
    (h : s.phase ≠ .running ∨ s.hostLink = false ∨ v.getLsbD 63 = false ∨ v.toNat / 2 ^ 12 % 2 ^ 51 ≠ 0 ∨ s.host.shoot ≠ none) :
    exec (.shootDown v) s = .next s := by
  refine congrArg Host.Outcome.next ?_
  by_cases hreach : hostReaches s = true
  · refine (if_pos hreach).trans (if_neg fun hc => ?_)
    simp only [hostReaches, Bool.and_eq_true, beq_iff_eq] at hreach
    simp only [Bool.and_eq_true, beq_iff_eq, Option.isNone_iff_eq_none] at hc
    obtain ⟨hp, hl⟩ := hreach
    obtain ⟨⟨hv, hz⟩, hs⟩ := hc
    rcases h with h | h | h | h | h
    · exact h hp
    · exact Bool.false_ne_true (h.symm.trans hl)
    · exact Bool.false_ne_true (h.symm.trans hv)
    · exact h hz
    · exact h hs
  · exact if_neg hreach
theorem stationShootDownAck_run {s : State} {n : Fin 32} {pid : BitVec 20} {range : Option (Nat × Nat)} (h : s.host.shoot = some (pid, range)) :
    exec (.stationShootDownAck n) s = .next (if grantedHeld s n.val pid range then s else
      let acks := insertNat n.val s.host.shootAcks
      let all := decide (Config.stations ≤ acks.length)
      { s with
        tlb := s.tlb.filter fun x => !(x.station == n.val && covered pid range x)
        host := { s.host with shootAcks := acks, shootDone := all, shoot := if all then none else s.host.shoot } }) := by
  show execStationShootDownAck n s = _
  rw [execStationShootDownAck, event_run, h]
/-- A station that holds nothing it granted discards and acknowledges. -/
theorem stationShootDownAck_acks {s : State} {n : Fin 32} {pid : BitVec 20} {range : Option (Nat × Nat)} (h : s.host.shoot = some (pid, range))
    (hheld : grantedHeld s n.val pid range = false) :
    ∃ t, exec (.stationShootDownAck n) s = .next t ∧ (∀ x, x ∈ t.tlb ↔ x ∈ s.tlb ∧ ¬(x.station = n.val ∧ covered pid range x = true)) ∧
      n.val ∈ t.host.shootAcks ∧ (∀ j ∈ s.host.shootAcks, j ∈ t.host.shootAcks) ∧
      (t.host.shootAcks.length < 32 → t.host.shootDone = false ∧ t.host.shoot = s.host.shoot) ∧
      (32 ≤ t.host.shootAcks.length → t.host.shootDone = true ∧ t.host.shoot = none) ∧ t.cores = s.cores ∧ t.gmem = s.gmem := by
  refine ⟨_, (stationShootDownAck_run h).trans (congrArg Host.Outcome.next (if_neg (ne_true_of_eq_false hheld))), fun x => ?_,
    (mem_insertNat _).2 (.inl rfl), fun j hj => (mem_insertNat _).2 (.inr hj), fun hlt => ?_, fun hge => ?_, rfl, rfl⟩
  · refine List.mem_filter.trans (and_congr_right fun _ => ?_)
    rw [Bool.not_eq_true', ← Bool.not_eq_true, Bool.and_eq_true, beq_iff_eq]
  · have hall : decide (Config.stations ≤ (insertNat n.val s.host.shootAcks).length) = false := decide_eq_false (Nat.not_le.2 hlt)
    simp only [hall]
    exact ⟨trivial, rfl⟩
  · have hall : decide (Config.stations ≤ (insertNat n.val s.host.shootAcks).length) = true := decide_eq_true hge
    simp only [hall]
    exact ⟨trivial, rfl⟩
theorem holdOver_iff (s : State) (t : Word) : holdOver s (some t) = true ↔ s.hostLink = false ∧ s.host.hlto.toNat ≤ (s.time - t).toNat := by
  simp [holdOver]
/-- What a request that the host link held too long is answered with (R390). -/
def holdFailure (k : GKind) : Why := match k with
  | .load _ => why 0x181 5
  | _ => why 0x0A1 0
theorem holdFailure_other {k : GKind} (h : ∀ n, k ≠ .load n) : holdFailure k = why 0x0A1 0 := by
  cases k with
  | load n => exact absurd rfl (h n)
  | store _ => rfl
  | amo _ _ _ => rfl
  | pref _ => rfl
  | mscfl _ => rfl
theorem hostLinkHoldTimeout_run {s : State} {id : Nat} {r : GReq} (h : OneRequest s id r) :
    exec (.hostLinkHoldTimeout id) s = .next (if r.held && r.reply.isNone && holdOver s (some r.since) then
      gReply s id (.error (holdFailure r.kind)) else s) := by
  show execHostLinkHoldTimeout id s = _
  rw [execHostLinkHoldTimeout, event_run, find?_request h]
  rfl
/-- Shoot-downs, and the host link's hold of a request. -/
theorem shootDowns : Claim.ShootDowns := by
  refine ⟨fun s v => ⟨shootDown_starts, shootDown_ignored⟩,
    fun s n pid range h => ⟨fun hheld => (stationShootDownAck_run h).trans (congrArg Host.Outcome.next (if_pos hheld)), stationShootDownAck_acks h⟩,
    fun s id r hone hno => ?_, fun s id r hone hheld hreply hlink htime => ?_⟩
  · refine (hostLinkHoldTimeout_run hone).trans (congrArg Host.Outcome.next (if_neg fun hc => ?_))
    obtain ⟨hdown, hover⟩ := (holdOver_iff s r.since).1 (Bool.and_eq_true_iff.1 hc).2
    rcases hno with hup | hearly
    · simp [hdown] at hup
    · exact absurd hover (Nat.not_le.2 hearly)
  · have hover : holdOver s (some r.since) = true := (holdOver_iff s r.since).2 ⟨hlink, htime⟩
    refine ⟨_, (hostLinkHoldTimeout_run hone).trans (congrArg Host.Outcome.next (if_pos (by simp [hheld, hreply, hover]))), ?_, ?_, rfl, rfl⟩
    · rintro ⟨n, hk⟩
      rw [gFind_gReply _ hone, hk]
      rfl
    · intro hk
      rw [gFind_gReply _ hone, holdFailure_other hk]

/-- Settles O34: a reply is what its event does to the one request of its number, and a shoot-down runs from the host's write to the last
acknowledgment. -/
theorem globalReplies : Obligations.GlobalReplies := ⟨globalRepliesArrive, shootDowns⟩
end Sys2Proof.Machine

namespace Sys2Proof.Machine
open Sys2Proof.Claim

/-! # A VL above 512, and a vector load whose bytes a waiting store cures (O14, O18, O19)

VL has ten bits, and R165 sets it to at most MaxLen, so to at most 512. A mask has 512 bits (R159), and the model takes no element from
512 on as active; the statements take every element below VL as active under m0. VectorReductions asks for VL ≤ 512; the statements on
element-wise operations and on vector atomics do not. -/

/-! ### A quotient of 513 elements (O14) -/

/-- VTYPE 0x4C: FP elements of 8 bits in groups of eight registers, so that a group has 512 elements; VL 513. v0 to v7 hold zeros, the later
registers ones throughout. -/
def longSlot : Slot :=
  { Slot.reset with vtype := 0x4C, vl := 513
                    v := (Vector.replicate 8 0 : Vector (BitVec 512) 8) ++ Vector.replicate 24 (BitVec.allOnes 512) }
/-- Slot 0 of core 0 is that slot. -/
def longVector : State := { State.reset with cores := [(0, mapSlot { Core.reset with launch := some 0 } 0 fun _ => longSlot)] }
/-- FCSR of the moving thread after a step. -/
def fcsrAfter : Out → Option (BitVec 32)
  | .next t => some (threadOf t).fcsr
  | _ => none
/-- Element k of v0 divided by that of v8 (R172). -/
def longQuotient (k : Nat) : Fr Nat :=
  fDiv (vFmt (vtOf longVector)) (rmOf (threadOf longVector).fcsr) (velem longVector 0 8 8 k) (velem longVector 8 8 8 k)

theorem longVector_passes : Passes uV false [] longVector := ⟨rfl, by decide⟩
theorem longVector_vOk : VOk longVector := by unfold VOk; decide
theorem longVector_fits (a : VReg) (h : a.toNat ≤ 24) : Fits a (vtOf longVector).grp := by
  have hg : (vtOf longVector).grp = 8 := by decide
  unfold Fits
  omega
/-- No flag is enabled. -/
theorem longVector_noneEnabled (f : Flags) : noneEnabled longVector f := fun i _ _ => by
  have h : (threadOf longVector).fcsr = 0 := by decide
  rw [h]
  exact BitVec.getLsbD_zero
/-- Element 512 lies behind both groups, where 0 / 0 raises V; the 512 quotients of the groups raise nothing. -/
theorem longQuotient_flags : (activeFlags longVector 0 fun k => (longQuotient k).f) = fV := by decide +kernel
/-- VFDIV makes the 512 quotients of the groups, and raises no flag. -/
theorem vfdiv_longVector : fcsrAfter (exec (.vfdiv 0 0 8 0) longVector) = some 0 := by decide +kernel

/-- Refutes O14: of a VFDIV with VL 513 under m0, VectorArithmetic asks for the flags of element 512, which no group has and the model
does not divide. -/
theorem not_vectorArithmetic : ¬Obligations.VectorArithmetic := by
  rintro ⟨⟨hvv, -⟩, -⟩
  obtain ⟨u, hu, -, -, -, -, -, hflags, -⟩ := hvv (.vfdiv 0 0 8 0) 0 0 8 0 true _ rfl longVector longVector_passes longVector_vOk
    (fun _ => by decide) (longVector_fits 0 (by decide)) (longVector_fits 0 (by decide)) (longVector_fits 8 (by decide))
    (longVector_noneEnabled _)
  have hclaimed : (threadOf u).fcsr = (threadOf longVector).fcsr ||| fV.setWidth 32 :=
    hflags.trans (congrArg (fun f : Flags => (threadOf longVector).fcsr ||| f.setWidth 32) longQuotient_flags)
  have hdone : (threadOf u).fcsr = 0 := Option.some.inj ((hu ▸ vfdiv_longVector : fcsrAfter (.next u) = some 0))
  rw [hdone] at hclaimed
  exact absurd hclaimed (by decide)

/-! ### A VAMO of 513 lanes (O19) -/

/-- 32-bit elements, VL 513, every vector register 0; the base in l0 is 0x20000. -/
def longAtomicCore : Core :=
  mapThread (mapSlot { Core.reset with launch := some 0 } 0 fun x => { x with vtype := 2, vl := 513 }) (.stream 0 .exec)
    fun t => { t with l0 := 0x20000 }
def longAtomic : State := { State.reset with cores := [(0, longAtomicCore)] }
/-- The number of lanes of a VAMO. -/
def laneCount (it : BankItem) : Nat := match it.work with
  | .vamo _ _ _ l => l.length
  | _ => 0
/-- The lanes of each item at the dispatcher of the moving unit's core after a step. -/
def lanesAfter : Out → Option (List Nat)
  | .next t => some ((here t).bankQ.map laneCount)
  | _ => none

theorem longAtomic_passes : Passes uV false [.rd (.sp 0)] longAtomic := ⟨rfl, by decide⟩
theorem longAtomic_vOk : VOk longAtomic := by unfold VOk; decide
theorem longAtomic_fits (a : VReg) : Fits a (vtOf longAtomic).grp := by
  have hg : (vtOf longAtomic).grp = 1 := by decide
  have ha := a.isLt
  unfold Fits
  omega
/-- The model queues the 512 lanes that a mask can name. -/
theorem vamo_longAtomic : lanesAfter (exec (.vamoOr 0 (.sp 0) 8 0) longAtomic) = some [512] := by decide +kernel
theorem longAtomic_lanes : activeLanes longAtomic 0 = List.range 513 := List.filter_eq_self.2 fun _ _ => rfl
/-- Every lane is at the base. -/
theorem longAtomic_place (k : Nat) :
    (0x20000 + BitVec.ofNat 64 (velem longAtomic 8 (vtOf longAtomic).grp (vtOf longAtomic).sew k * 4) : Word).toNat = 0x20000 := by
  have hbits : groupBits (slotOf longAtomic) (8 : VReg).toNat (vtOf longAtomic).grp = 0 := by decide +kernel
  rw [velem, hbits, Nat.zero_div, Nat.zero_mod]
  rfl
theorem longAtomic_open {z : Nat} (h1 : 0x20000 ≤ z) (h2 : z < 0x20000 + 0x40) : pageRead longAtomic z ∧ pageWrite longAtomic z := by
  have hz : z / 4096 = 0x20 := by omega
  rw [pageRead, pageWrite, userPage, hz]
  decide
theorem longAtomic_noneWaits (l : List (Nat × Nat)) : NoneWaits longAtomic l := fun u e he => by
  have hempty : ∀ u ∈ allUnits, (threadAt (here longAtomic) u).sbuf = [] := by decide
  rw [hempty u (mem_allUnits u)] at he
  exact absurd he List.not_mem_nil

/-- Refutes O19: of a VAMO with VL 513 under m0, VectorAtomicsQueue asks for 513 lanes, and the model queues 512. -/
theorem not_bankCommandsQueue : ¬Obligations.BankCommandsQueue := by
  rintro ⟨-, -, hvamo⟩
  have hsize : (vtOf longAtomic).sew / 8 = 4 := by decide
  have hlen : (activeLanes longAtomic 0).length = 513 := by rw [longAtomic_lanes, List.length_range]
  have h0 : 0 ∈ activeLanes longAtomic 0 := by rw [longAtomic_lanes]; exact List.mem_range.2 (by decide)
  obtain ⟨-, hq⟩ := hvamo (.vamoOr 0 (.sp 0) 8 0) .or 0 (.sp 0) 8 0 rfl longAtomic longAtomic 0x20000 longAtomic_passes longAtomic_vOk
    (by decide) (longAtomic_fits 0) (longAtomic_fits 8) (by rfl)
  simp only [hsize, longAtomic_place] at hq
  obtain ⟨u, hu, ⟨it, hit, hwork, -⟩, -⟩ := hq 0x20000 0x20004 (List.ne_nil_of_mem h0)
    (fun _ _ => ⟨by decide, by decide, by decide, by decide⟩) ⟨0, h0, rfl⟩ ⟨0, h0, rfl⟩
    (fun _ h1 h2 => (longAtomic_open h1 h2).1) (fun _ h1 h2 => (longAtomic_open h1 h2).2) (by decide)
    ⟨by decide, by decide, by decide⟩ (longAtomic_noneWaits _) (by decide) (by decide)
  have hclaimed : laneCount it = 513 := by
    unfold laneCount
    rw [hwork]
    exact (List.length_map _).trans hlen
  have hempty : (here longAtomic).bankQ = [] := by decide
  have hdone : lanesAfter (.next u) = some [512] := hu ▸ vamo_longAtomic
  rw [lanesAfter, hit, hempty, List.nil_append, List.map_singleton, hclaimed] at hdone
  exact absurd hdone (by decide)

/-! ### A poisoned word that a waiting store writes whole (O18) -/

/-- The execute stream of slot 0 of core 0, l0 = 0x20000, with a store of the eight bytes there waiting in its buffer. -/
def curingThread : Thread := { Thread.reset with l0 := 0x20000, sbuf := [(0x20000, leBytes 8 0)] }
/-- Its slot has 64-bit elements and VL 1. The word at 0x20000 is poisoned. -/
def curingCore : Core :=
  mapThread (mapSlot { Core.reset with launch := some 0, poison := [0x4000] } 0 fun x => { x with vtype := 3, vl := 1 }) (.stream 0 .exec)
    fun _ => curingThread
/-- The instruction is one word. -/
def curing : State := { State.reset with cores := [(0, curingCore)], ir := [0] }
/-- The machine once the waiting store has taken effect: it has written the word whole, so that its poison is gone (R218). -/
def cured : State := drainStores curing curing.cur
/-- PC of the moving thread after a step. -/
def pcAfter : Out → Option Word
  | .next t => some (threadOf t).pc
  | _ => none

theorem curing_passes : Passes uV false [.rd (.sp 0)] curing := ⟨rfl, by decide⟩
theorem curing_vOk : VOk curing := by unfold VOk; decide
theorem curing_fits : Fits 0 (vtOf curing).grp := by unfold Fits; decide
/-- Only element 0 is active. -/
theorem curing_active {k : Nat} (h : activeIn curing 0 k) : k = 0 := by
  have hvl : (vtOf curing).vl = 1 := by decide
  obtain ⟨hk, -⟩ := h
  omega
theorem ownLoad_open {s : State} (hp : OwnPlace s 0x20000 8 0x20000) (ha : attrOf (here s) 0x20 = 0x23)
    (hh : homePage (here s) 0x20 = false) (hs : scoreW (here s) 0x20000 0x20008 = false) (hb : bufferedAt s s.cur.core 0x20000 8 = false) :
    OwnLoad s 0x20000 8 0x20000 := by
  refine ⟨hp, by decide, fun z h1 h2 => ?_, hs, hb⟩
  have hz : z / 4096 = 0x20 := by omega
  rw [pageRead, userPage, hz, ha, hh]
  exact ⟨by decide, fun _ => by decide⟩
theorem curing_ownLoad : OwnLoad curing 0x20000 8 0x20000 :=
  ownLoad_open (.inl ⟨by decide, by decide, by decide⟩) (by decide) (by decide) (by decide) (by decide)
theorem cured_ownRead : OwnRead cured 0x20000 8 0x20000 := by
  refine ⟨ownLoad_open (.inl ⟨by decide, by decide, by decide⟩) (by decide) (by decide) (by decide)
    (by decide), by decide, fun e he => ?_, .inr (by decide)⟩
  have hnone : (threadOf cured).sbuf ++ (threadOf cured).early = [] := by decide
  rw [hnone] at he
  exact absurd he List.not_mem_nil
/-- VLD looks for poison in the memory it found, not in the one that the waiting store has left: it traps, and the stream stays. -/
theorem vld_curing : pcAfter (exec (.vld 0 (.sp 0) 0) curing) = some 0 := by decide +kernel

/-- Refutes O18: VectorLoads asks of a load whose bytes a store of its own stream covers in its buffer that it goes on with what that store
has left, where that can be read. VLD lets the store take effect but then traps for the poison that the word had before; the scalar
load (loadNear) looks at the word afterwards. -/
theorem not_vectorMemory : ¬Obligations.VectorMemory := by
  rintro ⟨hload, -⟩
  obtain ⟨-, hwait, -⟩ := hload curing (.vld 0 (.sp 0) 0) [.rd (.sp 0)] 0 0 curing _ (fun _ => 0x20000)
    (.inl ⟨.sp 0, 0x20000, .inl rfl, rfl, by rfl, rfl⟩) curing_passes curing_vOk curing_fits
  obtain ⟨u, hu, -, -, -, -, -, -, hframe⟩ := hwait cured
    ⟨0, ⟨by decide, .inl rfl⟩, (0x20000, leBytes 8 0), List.mem_singleton.2 rfl, by decide⟩ rfl fun k hk => by
      obtain rfl := curing_active hk
      exact ⟨curing_ownLoad, cured_ownRead⟩
  obtain ⟨-, -, -, -, -, -, -, -, -, -, -, hgoes⟩ := hframe
  have hstays : (threadOf u).pc = 0 := Option.some.inj ((hu ▸ vld_curing : pcAfter (.next u) = some 0))
  rw [hstays] at hgoes
  exact absurd hgoes (by decide)
end Sys2Proof.Machine

namespace Sys2Proof.Machine
open Sys2Proof.Claim

/-! # Vector state: groups, elements, masks and the writes of R162 -/

/-! ### Groups and their elements (R160) -/

theorem bitVec_default (w : Nat) : (default : BitVec w) = 0#w := rfl
theorem vreg_getD (x : Slot) (n : Nat) : x.v[n]! = x.v.toList.getD n 0 := by
  rw [List.getD_eq_getElem?_getD, Vector.getElem?_toList, getElem!_def]
  cases x.v[n]? with
  | none => exact bitVec_default 512
  | some _ => rfl
/-- The lowest of the digits in base B taken apart. -/
theorem digits_succ (B : Nat) (f : Nat → Nat) (c : Nat) : ((List.range (c + 1)).map fun j => f j * B ^ j).sum =
    f 0 + B * ((List.range c).map fun j => f (j + 1) * B ^ j).sum := by
  rw [List.range_succ_eq_map, List.map_cons, List.map_map, List.sum_cons, ← List.sum_map_mul_left, Nat.pow_zero, Nat.mul_one]
  congr 2
  refine List.map_congr_left fun j _ => ?_
  rw [Function.comp, Nat.succ_eq_add_one, Nat.pow_succ]
  ring
theorem groupBits_succ (x : Slot) (n c : Nat) :
    groupBits x n (c + 1) = (x.v.toList.getD n 0).toNat + 2 ^ 512 * groupBits x (n + 1) c := by
  unfold groupBits
  generalize hB : (2 : Nat) ^ 512 = B
  simp only [Nat.pow_mul, hB]
  have h := digits_succ B (fun j => (x.v.toList.getD (n + j) 0).toNat) c
  simp only [Nat.add_zero, ← Nat.add_assoc, Nat.add_right_comm n _ 1] at h
  exact h
theorem groupOf_eq (x : Slot) (n c : Nat) : groupOf x n c = groupBits x n c := by
  induction c generalizing n with
  | zero => rfl
  | succ c ih => rw [groupOf, ih, vreg_getD, groupBits_succ]
theorem velem_eq (s : State) (n : VReg) (c w i : Nat) : velem s n c w i = elemOf w (groupOf (slotOf s) n.toNat c) i := by
  rw [groupOf_eq]; rfl
theorem elemOf_lt (w v i : Nat) : elemOf w v i < 2 ^ w := Nat.mod_lt _ (Nat.two_pow_pos w)
theorem elemOf_mod {w v i k : Nat} (h : w * (i + 1) ≤ k) : elemOf w (v % 2 ^ k) i = elemOf w v i := by
  refine Nat.eq_of_testBit_eq fun j => ?_
  simp only [elemOf, Nat.testBit_mod_two_pow, Nat.testBit_div_two_pow]
  rw [Nat.mul_add] at h
  by_cases hj : j < w
  · rw [decide_eq_true (by omega : j + w * i < k), Bool.true_and]
  · simp [hj]
theorem add_mul_lt {a b B K : Nat} (ha : a < B) (hb : b < K) : a + B * b < B * K :=
  calc _ < B + B * b := Nat.add_lt_add_right ha _
    _ = B * (b + 1) := by ring
    _ ≤ _ := Nat.mul_le_mul_left _ hb
theorem groupOf_lt (x : Slot) (n c : Nat) : groupOf x n c < 2 ^ (512 * c) := by
  induction c generalizing n with
  | zero => exact Nat.one_pos
  | succ c ih =>
    have h1 := (x.v[n]!).isLt
    have h2 := ih (n + 1)
    rw [groupOf, show 512 * (c + 1) = 512 + 512 * c by omega, Nat.pow_add]
    exact add_mul_lt h1 h2
/-- Past the end of a group its elements are 0. -/
theorem elemOf_groupOf_end (x : Slot) (n : Nat) {c w i : Nat} (h : 512 * c ≤ w * i) : elemOf w (groupOf x n c) i = 0 := by
  rw [elemOf, Nat.div_eq_of_lt ((groupOf_lt x n c).trans_le (Nat.pow_le_pow_right (by decide) h)), Nat.zero_mod]

/-! ### What a write to a group leaves (R160) -/

theorem setGroup_fields (x : Slot) (n v c : Nat) : setGroup x n v c = { x with v := (setGroup x n v c).v } := by
  induction c generalizing x n v with
  | zero => rfl
  | succ c ih => rw [setGroup, ih]
theorem setGroup_outside (x : Slot) (n v c j : Nat) (h : j < n ∨ n + c ≤ j) :
    (setGroup x n v c).v.toList.getD j 0 = x.v.toList.getD j 0 := by
  induction c generalizing x n v with
  | zero => rfl
  | succ c ih =>
    rw [setGroup, ih _ _ _ (by omega)]
    simp [List.getD_eq_getElem?_getD, List.getElem?_set_ne (show n ≠ j by omega)]
theorem groupOf_setGroup (x : Slot) (n v c : Nat) (h : n + c ≤ 32) : groupOf (setGroup x n v c) n c = v % 2 ^ (512 * c) := by
  induction c generalizing x n v with
  | zero => exact (Nat.mod_one v).symm
  | succ c ih =>
    have hn : (setGroup { x with v := x.v.set! n (BitVec.ofNat 512 v) } (n + 1) (v / 2 ^ 512) c).v[n]! = BitVec.ofNat 512 v := by
      rw [vreg_getD, setGroup_outside _ _ _ _ _ (Or.inl (Nat.lt_succ_self n))]
      simp [List.getD_eq_getElem?_getD, show n < 32 by omega]
    rw [groupOf, setGroup, ih _ _ _ (by omega), hn, BitVec.toNat_ofNat, show 512 * (c + 1) = 512 + 512 * c by omega, Nat.pow_add]
    generalize (2 : Nat) ^ 512 = B
    exact Nat.mod_mul.symm

/-! ### The bit string of a destination -/

theorem packElems_lt (w : Nat) (f : Nat → Nat) (n : Nat) : packElems w f n < 2 ^ (w * n) := by
  induction n with
  | zero => exact Nat.one_pos
  | succ n ih =>
    rw [packElems, Nat.mul_succ, Nat.pow_add, Nat.mul_comm (f n % 2 ^ w)]
    exact add_mul_lt ih (Nat.mod_lt _ (Nat.two_pow_pos w))
theorem elemOf_packElems (w : Nat) (f : Nat → Nat) (n hi i : Nat) (h : i < n) :
    elemOf w (packElems w f n + hi * 2 ^ (w * n)) i = f i % 2 ^ w := by
  induction n generalizing hi with
  | zero => omega
  | succ n ih =>
    have hsum : packElems w f (n + 1) + hi * 2 ^ (w * (n + 1)) = packElems w f n + (f n % 2 ^ w + hi * 2 ^ w) * 2 ^ (w * n) := by
      rw [packElems, Nat.mul_succ, Nat.pow_add]; ring
    rw [hsum]
    rcases Nat.lt_succ_iff_lt_or_eq.mp h with h | rfl
    · exact ih _ h
    · rw [elemOf, Nat.add_mul_div_right _ _ (Nat.two_pow_pos _), Nat.div_eq_of_lt (packElems_lt w f i), Nat.zero_add,
        Nat.add_mul_mod_self_right, Nat.mod_mod]
theorem elemOf_packElems_self (w : Nat) (f : Nat → Nat) {n i : Nat} (h : i < n) : elemOf w (packElems w f n) i = f i % 2 ^ w := by
  have := elemOf_packElems w f n 0 i h
  rwa [Nat.zero_mul, Nat.add_zero] at this
theorem elemOf_destGroup (t : VT) (mask : BitVec 512) (w c old : Nat) (r : Nat → Nat) {i : Nat} (h : i < 512 * c / w) :
    elemOf w (destGroup t mask w c old r) i = destElem t mask w old r i % 2 ^ w := elemOf_packElems _ _ _ _ _ h
/-- An element below the count of a group lies within it. -/
theorem elem_within {w c i : Nat} (h : i < 512 * c / w) : w * (i + 1) ≤ 512 * c :=
  (Nat.mul_le_mul_left w h).trans (Nat.mul_div_le _ _)

/-! ### Masks (R159) and the policies (R162) -/

theorem maskOf_zero_getLsbD (x : Slot) {i : Nat} (h : i < 512) : (maskOf x 0).getLsbD i = true := by
  rw [maskOf, if_pos rfl, BitVec.getLsbD_allOnes, decide_eq_true h]
theorem activeIn_iff (s : State) (vm : MReg) {i : Nat} (h : i < 512) :
    activeIn s vm i ↔ i < (vtOf s).vl ∧ (maskOf (slotOf s) vm).getLsbD i = true := by
  unfold activeIn
  rcases eq_or_ne vm 0 with rfl | hm
  · simp only [maskOf_zero_getLsbD _ h, true_or]
  · simp only [hm, false_or]
theorem allOnes_mod (w : Nat) : (2 ^ w - 1) % 2 ^ w = 2 ^ w - 1 := Nat.mod_eq_of_lt (Nat.sub_lt (Nat.two_pow_pos w) Nat.one_pos)
/-- What the model puts into element i is what R162 asks for. -/
theorem policy_destElem (s : State) (vm : MReg) (w old : Nat) (r : Nat → Nat) {i : Nat} (h : i < 512) (hvl : (vtOf s).vl ≠ 0) :
    Policy s vm w (elemOf w old i) (r i) i (destElem (vtOf s) (maskOf (slotOf s) vm) w old r i % 2 ^ w) := by
  have hold : elemOf w old i % 2 ^ w = elemOf w old i := Nat.mod_mod _ _
  refine ⟨fun h0 => absurd h0 hvl, fun _ => ?_⟩
  rw [activeIn_iff s vm h]
  unfold destElem
  refine ⟨fun ⟨hi, hm⟩ => by rw [if_pos hi, if_pos hm], fun hn hi => ?_, fun hi => ?_⟩
  · rw [if_pos hi, if_neg fun hm => hn ⟨hi, hm⟩]
    split
    · exact allOnes_mod w
    · exact hold
  · rw [if_neg hi]
    split
    · exact allOnes_mod w
    · exact hold

end Sys2Proof.Machine

namespace Sys2Proof.Machine
open Sys2Proof.Claim

/-! ### The flags of the active elements (R164) -/

theorem getLsbD_foldl_or {α : Type} (g : α → Flags) (l : List α) (f : Flags) (j : Nat) :
    (l.foldl (fun f i => f ||| g i) f).getLsbD j = (f.getLsbD j || l.any fun i => (g i).getLsbD j) := by
  induction l generalizing f with
  | nil => exact (Bool.or_false _).symm
  | cons x l ih => rw [List.foldl_cons, ih, BitVec.getLsbD_or, List.any_cons, Bool.or_assoc]
theorem getLsbD_foldr_or {α : Type} (g : α → Flags) (l : List α) (j : Nat) :
    (l.foldr (fun i f => g i ||| f) 0).getLsbD j = l.any fun i => (g i).getLsbD j := by
  induction l with
  | nil => exact BitVec.getLsbD_zero
  | cons x l ih => rw [List.foldr_cons, BitVec.getLsbD_or, ih, List.any_cons]
theorem getLsbD_noFlags (j : Nat) : BitVec.getLsbD (0 : Flags) j = false := BitVec.getLsbD_zero
/-- A mask has 512 bits, so the elements from there on count only under m0; where they raise nothing, the active ones of the model raise
all the flags. -/
theorem activeFlags_eq (s : State) (vm : MReg) {r : Nat → Flags} (h : ∀ i, 512 ≤ i → r i = 0) :
    activeFlags s vm r = (active (vtOf s) (maskOf (slotOf s) vm)).foldl (fun f i => f ||| r i) 0 := by
  refine BitVec.eq_of_getLsbD_eq fun j _ => ?_
  rw [activeFlags, getLsbD_foldr_or, getLsbD_foldl_or, active, List.any_filter, List.any_filter, getLsbD_noFlags, Bool.false_or]
  congr 1
  funext i
  rcases eq_or_ne vm 0 with rfl | hm
  · rcases lt_or_ge i 512 with hi | hi
    · simp only [maskOf_zero_getLsbD _ hi, decide_true, Bool.true_or]
    · simp only [h i hi, getLsbD_noFlags, Bool.and_false]
  · simp only [hm, decide_false, Bool.false_or]
/-- No element raises a flag. -/
theorem activeFlags_zero (s : State) (vm : MReg) : (activeFlags s vm fun _ => 0) = 0 := by
  refine BitVec.eq_of_getLsbD_eq fun j _ => ?_
  rw [activeFlags, getLsbD_foldr_or, getLsbD_noFlags]
  exact List.any_eq_false.2 fun _ _ => Bool.false_ne_true

/-! ### What a vector instruction leaves (O15, O16) -/

/-- A slot after its queues, its ports, its vector registers and its masks may have changed. -/
def VSlotTouched (x y : Slot) : Prop :=
  { y with lq := x.lq, sq := x.sq, bo := x.bo, rt := x.rt, ports := x.ports, v := x.v, m := x.m } = x
theorem vSlotTouched_trans {x y z : Slot} (h : VSlotTouched x y) (h' : VSlotTouched y z) : VSlotTouched x z := by
  unfold VSlotTouched at h h' ⊢
  conv_rhs => rw [← h, ← h']
theorem vSlotTouched_of_popped {x y : Slot} (h : SlotPopped x y) : VSlotTouched x y := by
  have hv : y.v = x.v := (congrArg Slot.v h :)
  have hm : y.m = x.m := (congrArg Slot.m h :)
  unfold VSlotTouched
  rw [← hv, ← hm]
  exact h
/-- What a vector instruction leaves before its stream moves on. -/
structure VecLeft (s t : State) : Prop where
  only : OnlyHere s t
  core : CoreKept s t
  threads : OtherThreads s t
  others : ∀ j, unitSlot s.cur.unit ≠ some j → slotAt (here t) j = slotAt (here s) j
  thread : ThreadKept s t
  scalars : ScalarsKept s t
  slot : VSlotTouched (slotOf s) (slotOf t)
/-- What reading its scalar operand and raising the flags `f` leave besides: the vector registers and the masks. -/
structure VecReady (f : Flags) (s t : State) : Prop extends VecLeft s t where
  vregs : (slotOf t).v = (slotOf s).v
  masks : (slotOf t).m = (slotOf s).m
  flags : FlagsSet f s t

section
variable {s t u : State}

theorem vecLeft_refl (s : State) : VecLeft s s :=
  ⟨⟨rfl, fun _ _ => rfl⟩, rfl, fun _ _ => rfl, fun _ _ => rfl, rfl, ⟨rfl, rfl, rfl, rfl⟩, rfl⟩
theorem VecLeft.cur (h : VecLeft s t) : t.cur = s.cur := onlyHere_cur h.only
theorem coreKept_trans (h : CoreKept s t) (h' : CoreKept t u) : CoreKept s u := by
  unfold CoreKept at h h' ⊢
  conv_rhs => rw [← h, ← h']
theorem vecLeft_trans (h : VecLeft s t) (h' : VecLeft t u) : VecLeft s u := by
  obtain ⟨g, d, l0, l1⟩ := h.scalars
  obtain ⟨g', d', l0', l1'⟩ := h'.scalars
  have hthreads := h'.threads
  have hothers := h'.others
  unfold OtherThreads at hthreads
  rw [h.cur] at hthreads hothers
  exact ⟨onlyHere_trans h.only h'.only, coreKept_trans h.core h'.core, fun v hv => (hthreads v hv).trans (h.threads v hv),
    fun j hj => (hothers j hj).trans (h.others j hj), threadTouched_trans h.thread h'.thread,
    ⟨g'.trans g, d'.trans d, l0'.trans l0, l1'.trans l1⟩, vSlotTouched_trans h.slot h'.slot⟩
theorem flagsSet_zero : FlagsSet 0 s t ↔ (threadOf t).fcsr = (threadOf s).fcsr := by
  rw [FlagsSet, show (0 : Flags).setWidth 32 = 0#32 from rfl, BitVec.or_zero]
theorem vecReady_refl (s : State) : VecReady 0 s s := ⟨vecLeft_refl s, rfl, rfl, flagsSet_zero.2 rfl⟩
theorem slotOf_flagged (s : State) (f : Flags) : slotOf (flagged s f) = slotOf s := slotOf_mapCore rfl
theorem vecLeft_flagged (s : State) (f : Flags) : VecLeft s (flagged s f) := by
  obtain ⟨ho, hu, hs, ht⟩ := unitFrame_withThread s (f := fun t => { t with fcsr := t.fcsr ||| f.setWidth 32 }) fun _ => rfl
  have hth : threadOf (flagged s f) = { threadOf s with fcsr := (threadOf s).fcsr ||| f.setWidth 32 } := threadOf_modThread s _
  refine ⟨ho, ?_, hu, fun j hj => (hs j).2 hj, ht, ?_, ?_⟩
  · unfold CoreKept flagged withThread
    rw [here_mapCore]
    rfl
  · unfold ScalarsKept
    rw [hth]
    exact ⟨rfl, rfl, rfl, rfl⟩
  · rw [slotOf_flagged]
    rfl
theorem vecReady_flagged {f : Flags} (h : VecReady 0 s t) : VecReady f s (flagged t f) := by
  have hslot := slotOf_flagged t f
  refine ⟨vecLeft_trans h.toVecLeft (vecLeft_flagged t f), hslot ▸ h.vregs, hslot ▸ h.masks, ?_⟩
  rw [FlagsSet, ← flagsSet_zero.1 h.flags]
  exact congrArg Thread.fcsr (threadOf_modThread t _)
theorem vecLeft_changeSlot (hi : isIbex s.cur.unit = false) {f : Slot → Slot} (hf : VSlotTouched (slotOf s) (f (slotOf s))) :
    VecLeft s (changeSlot s f) := by
  have hiss := issuing_changeSlot s f
  refine ⟨hiss.only, hiss.core, hiss.others, fun j hj => ?_, ?_, ?_, ?_⟩
  · unfold changeSlot
    split
    · next i h =>
      rw [here_mapCore, slotAt_mapSlot_ne _ _ fun e => hj (h.trans (congrArg some e.symm))]
    · rfl
  · unfold ThreadKept
    rw [threadOf_changeSlot]
  · unfold ScalarsKept
    rw [threadOf_changeSlot]
    exact ⟨rfl, rfl, rfl, rfl⟩
  · rw [slotOf_changeSlot hi]
    exact hf
theorem readG_g {b : GReg} {v : Word} (h : readG b s = .ok (v, t)) : (threadOf t).g = (threadOf s).g := by
  have hearly : (threadOf (forgetEarly s)).g = (threadOf s).g := by
    unfold forgetEarly
    split
    · rfl
    · rw [threadOf_modThread]
  rcases readG_cases h with rfl | ⟨c, hc, hp⟩
  · rfl
  · rcases popQ_popped hc hp with ⟨f, -, -, rfl⟩ | rfl
    · rw [threadOf_changeSlot, hearly]
    · rw [threadOf, mapCore_cur, coreAt_mapCore]
      exact hearly
theorem ReadLeft.slotPopped (h : ReadLeft s t) : SlotPopped (slotOf s) (slotOf t) := by
  unfold slotOf
  rw [h.cur]
  cases unitSlot s.cur.unit with
  | none => rfl
  | some i =>
    dsimp only
    rw [h.here_eq]
    exact (h.slots i).1
theorem vecReady_readG {b : GReg} {v : Word} (h : readG b s = .ok (v, t)) : VecReady 0 s t := by
  have hl := readLeft_readG h
  obtain ⟨ho, hu, hs, ht⟩ := hl.unit
  obtain ⟨-, hd, h0, h1, hf, -⟩ := hl.regs
  exact ⟨⟨ho, hl.core, hu, fun j hj => (hs j).2 hj, ht, ⟨readG_g h, hd, h0, h1⟩, vSlotTouched_of_popped hl.slotPopped⟩,
    hl.slotOf_field Slot.v fun _ _ => rfl, hl.slotOf_field Slot.m fun _ _ => rfl, flagsSet_zero.2 hf⟩
end
end Sys2Proof.Machine

namespace Sys2Proof.Machine
open Sys2Proof.Claim

section
variable {s t : State}

/-! ### The stream moves on -/

theorem slotOf_goes (s t : State) : slotOf (goes s t) = slotOf t := slotOf_mapCore rfl
theorem fcsr_goes (s t : State) : (threadOf (goes s t)).fcsr = (threadOf t).fcsr := by rw [threadOf_advance_seq]
theorem vecLeft_goes (h : VecLeft s t) : VecLeft s (goes s t) := by
  obtain ⟨ho, hu, hs, ht⟩ := unitFrame_withThread t (f := movedOn (pcOf s) (lenOf s)) fun _ => rfl
  have hmove : VecLeft t (goes s t) := by
    refine ⟨ho, ?_, hu, fun j hj => (hs j).2 hj, ht, ?_, ?_⟩
    · unfold CoreKept
      rw [here_goes]
      rfl
    · unfold ScalarsKept
      rw [threadOf_advance_seq]
      exact ⟨rfl, rfl, rfl, rfl⟩
    · rw [slotOf_goes]
      rfl
  exact vecLeft_trans h hmove
theorem vecFrame_goes (h : VecLeft s t) : VecFrame s (goes s t) := by
  have hg := vecLeft_goes h
  exact ⟨hg.only, hg.core, memKept_of_coreKept hg.core, hg.threads, hg.others, hg.thread, (congrArg Slot.frames hg.slot :),
    (congrArg Slot.fgen hg.slot :), (congrArg Slot.depth hg.slot :), (congrArg Slot.status hg.slot :), (congrArg Slot.posted hg.slot :),
    pc_goes s t⟩
theorem VecLeft.vtype (h : VecLeft s t) : VTypeKept s t := ⟨(congrArg Slot.vtype h.slot :), (congrArg Slot.vl h.slot :)⟩

/-! ### The steps of a vector instruction -/

/-- A vector unit is no Ibex unit. -/
theorem passes_uV {p : Bool} {us : List Use} (h : Passes uV p us s) : isIbex s.cur.unit = false := by
  obtain ⟨hu, -⟩ := preCheck_none h.2
  cases hs : s.cur.unit with
  | stream _ _ => rfl
  | ibex n =>
    rw [hs] at hu
    cases hu
theorem getVt_run (h : VOk s) : getVt s = .ok (vtOf s, s) := by
  unfold getVt
  rw [bind_run (getSlot_run s), bind_run (a := ()) (s1 := s)]
  · rfl
  · rw [guardD_run, show (slotOf s).vtype.getLsbD 63 = false from h]
    rfl
theorem groupCheck_run {l : List (VReg × Nat)} (h : ∀ p ∈ l, Fits p.1 p.2) : groupCheck l s = .ok ((), s) := by
  have hall : (l.all fun p => decide (p.1.toNat + p.2 ≤ 32)) = true := List.all_eq_true.2 fun p hp => decide_eq_true_iff.2 (h p hp)
  rw [groupCheck, guardD_run, if_pos hall]
theorem apart_run {a b : VReg} {ca cb : Nat} (h : Apart a ca b cb) : apart a ca b cb s = .ok ((), s) := by
  have ho : overlap a.toNat (a.toNat + ca) b.toNat (b.toNat + cb) = false := by
    unfold Apart at h
    rw [overlap, decide_eq_false_iff_not]
    omega
  rw [apart, guardD_run, ho]
  rfl
theorem vGet_run (s : State) (n : VReg) (c : Nat) : vGet n c s = .ok (groupOf (slotOf s) n.toNat c, s) := rfl
theorem raiseFlags_run {f : Flags} (h : noneEnabled s f) : raiseFlags f s = .ok ((), flagged s f) := by
  unfold raiseFlags
  rw [bind_run (a := threadOf s) (s1 := s) rfl, enabledFlag_none h]
  rfl

theorem groupOf_congr {x y : Slot} (h : y.v = x.v) (n c : Nat) : groupOf y n c = groupOf x n c := by
  rw [groupOf_eq, groupOf_eq, groupBits, groupBits, h]
theorem maskOf_congr {x y : Slot} (h : y.m = x.m) (m : MReg) : maskOf y m = maskOf x m := by
  rw [maskOf, maskOf, h]
theorem VecReady.group {f : Flags} (h : VecReady f s t) (n c : Nat) : groupOf (slotOf t) n c = groupOf (slotOf s) n c :=
  groupOf_congr h.vregs n c
theorem VecReady.mask {f : Flags} (h : VecReady f s t) (m : MReg) : maskOf (slotOf t) m = maskOf (slotOf s) m := maskOf_congr h.masks m
theorem VecReady.noneEnabled (h : VecReady 0 s t) {f : Flags} (hf : noneEnabled s f) : noneEnabled t f := by
  unfold Claim.noneEnabled at hf ⊢
  rw [flagsSet_zero.1 h.flags]
  exact hf

/-! ### Vector results (R162) -/

/-- The write of a group's bit string, which VL = 0 leaves out. -/
def groupWritten (t : VT) (a : VReg) (c G : Nat) (s : State) : State :=
  if t.vl = 0 then s else changeSlot s fun x => setGroup x a.toNat G c
theorem vPut_run (t : VT) (a : VReg) (c G : Nat) (s : State) :
    (if t.vl = 0 then pure () else vPut a c G : M Unit) s = .ok ((), groupWritten t a c G s) := by
  unfold groupWritten
  split <;> rfl
/-- A group result but for its elements. -/
structure GroupDone (a : VReg) (c : Nat) (f : Flags) (s u : State) : Prop where
  vregs : VRegsKept a c s u
  masks : MasksKept s u
  vtype : VTypeKept s u
  scalars : ScalarsKept s u
  flags : FlagsSet f s u
  frame : VecFrame s u

section
variable {a : VReg} {c : Nat} {f : Flags}

theorem vecLeft_groupWritten (hi : isIbex s.cur.unit = false) (t : VT) (G : Nat) : VecLeft s (groupWritten t a c G s) := by
  unfold groupWritten
  split
  · exact vecLeft_refl s
  · refine vecLeft_changeSlot hi ?_
    rw [setGroup_fields]
    rfl
theorem slotOf_groupWritten (hi : isIbex s.cur.unit = false) (t : VT) (G : Nat) : slotOf (groupWritten t a c G s) =
    if t.vl = 0 then slotOf s else setGroup (slotOf s) a.toNat G c := by
  unfold groupWritten
  split
  · rfl
  · exact slotOf_changeSlot hi _
theorem threadOf_groupWritten (t : VT) (G : Nat) : threadOf (groupWritten t a c G s) = threadOf s := by
  unfold groupWritten
  split
  · rfl
  · exact threadOf_changeSlot s _
theorem groupWritten_done (h : VecReady f s t) (hi : isIbex s.cur.unit = false) (ty : VT) (G : Nat) :
    GroupDone a c f s (goes s (groupWritten ty a c G t)) := by
  have hit : isIbex t.cur.unit = false := h.cur ▸ hi
  have hleft := vecLeft_trans h.toVecLeft (vecLeft_groupWritten (a := a) (c := c) hit ty G)
  have hslot := slotOf_groupWritten (a := a) (c := c) hit ty G
  refine ⟨fun n _ hn => ?_, ?_, (vecLeft_goes hleft).vtype, (vecLeft_goes hleft).scalars, ?_, vecFrame_goes hleft⟩
  · rw [slotOf_goes, hslot, ← h.vregs]
    split
    · rfl
    · exact setGroup_outside _ _ _ _ _ hn
  · rw [MasksKept, slotOf_goes, hslot, ← h.masks]
    split
    · rfl
    · rw [setGroup_fields]
  · rw [FlagsSet, fcsr_goes, threadOf_groupWritten]
    exact h.flags
theorem velem_groupWritten (h : VecReady f s t) (hi : isIbex s.cur.unit = false) (hfit : Fits a c) (ty : VT) (G : Nat) {w i : Nat}
    (hw : w * (i + 1) ≤ 512 * c) :
    velem (goes s (groupWritten ty a c G t)) a c w i = if ty.vl = 0 then velem s a c w i else elemOf w G i := by
  rw [velem_eq, velem_eq, slotOf_goes, slotOf_groupWritten (h.cur ▸ hi)]
  split
  · rw [h.group]
  · rw [groupOf_setGroup _ _ _ _ hfit, elemOf_mod hw]

/-- The bit string of a group by R162. -/
def groupResult (s : State) (a : VReg) (c w : Nat) (vm : MReg) (r : Nat → Fr Nat) : Nat :=
  destGroup (vtOf s) (maskOf (slotOf s) vm) w c (groupOf (slotOf s) a.toNat c) fun i => (r i).v
theorem policy_groupResult (h : VecReady f s t) (hi : isIbex s.cur.unit = false) (hfit : Fits a c) {w : Nat} (hn : 512 * c / w ≤ 512)
    {vm : MReg} (r : Nat → Fr Nat) {i : Nat} (hlt : i < 512 * c / w) : Policy s vm w (velem s a c w i) (r i).v i
      (velem (goes s (groupWritten (vtOf s) a c (groupResult s a c w vm r) t)) a c w i) := by
  rw [velem_groupWritten h hi hfit _ _ (elem_within hlt), groupResult, elemOf_destGroup _ _ _ _ _ _ hlt, velem_eq]
  split
  · next h0 => exact ⟨fun _ => rfl, fun hne => absurd h0 hne⟩
  · next h0 => exact policy_destElem s vm w _ (fun i => (r i).v) (hlt.trans_le hn) h0
/-- An element-wise result, its flags raised first (R17). -/
theorem vWrite_done (h : VecReady 0 s t) (hi : isIbex s.cur.unit = false) (hfit : Fits a c) {w : Nat} (hn : 512 * c / w ≤ 512) {vm : MReg}
    {r : Nat → Fr Nat} (hlong : ∀ i, 512 ≤ i → (r i).f = 0) (hen : noneEnabled s (activeFlags s vm fun i => (r i).f)) :
    ∃ u, vWrite (vtOf s) w a c vm r t = .ok ((), u) ∧ VecDone a c w vm r s (goes s u) := by
  have hready := vecReady_flagged (f := activeFlags s vm fun i => (r i).f) h
  obtain ⟨hv, hm, ht, hs, hf, hfr⟩ := groupWritten_done (a := a) (c := c) hready hi (vtOf s) (groupResult s a c w vm r)
  refine ⟨_, ?_, fun i hlt => policy_groupResult hready hi hfit hn r hlt, hv, hm, ht, hs, hf, hfr⟩
  have hflags : flagsOf (active (vtOf s) (maskOf (slotOf s) vm)) r = activeFlags s vm fun i => (r i).f := (activeFlags_eq s vm hlong).symm
  unfold vWrite
  rw [bind_run (getSlot_run t), h.mask, hflags, bind_run (raiseFlags_run (h.noneEnabled hen)), bind_run (vGet_run _ a c), hready.group,
    vPut_run]
  rfl
theorem noneEnabled_zero (s : State) : noneEnabled s 0 := fun i _ h => by
  rw [getLsbD_noFlags] at h
  cases h
/-- Results that raise no flag. -/
theorem vWrite_exact (h : VecReady 0 s t) (hi : isIbex s.cur.unit = false) (hfit : Fits a c) {w : Nat} (hn : 512 * c / w ≤ 512) (vm : MReg)
    (r : Nat → Nat) :
    ∃ u, vWrite (vtOf s) w a c vm (fun i => exact (r i)) t = .ok ((), u) ∧ VecDone a c w vm (fun i => noFlag (r i)) s (goes s u) :=
  vWrite_done h hi hfit hn (fun _ _ => rfl) ((activeFlags_zero s vm).symm ▸ noneEnabled_zero s)
end
end
end Sys2Proof.Machine

namespace Sys2Proof.Machine
open Sys2Proof.Claim

/-! ### Mask results (R159, R162) -/

theorem setMask_fields (x : Slot) (m : MReg) (v : BitVec 512) : setMask x m v = { x with m := (setMask x m v).m } := by
  unfold setMask
  split <;> rfl
theorem maskOf_setMask {m : MReg} (h : m ≠ 0) (x : Slot) (v : BitVec 512) : maskOf (setMask x m v) m = v := by
  rw [maskOf, setMask, if_neg h, if_neg h]
  exact Vector.getElem_set_self ..
theorem maskOf_setMask_ne {m b : MReg} (h : b ≠ m) (x : Slot) (v : BitVec 512) : maskOf (setMask x m v) b = maskOf x b := by
  rw [setMask]
  split
  · rfl
  · rw [maskOf, maskOf]
    split
    · rfl
    · exact Vector.getElem_set_ne m.isLt b.isLt fun e => h (BitVec.eq_of_toNat_eq e).symm
theorem bit_toNat {n : Nat} (x : BitVec n) (i : Nat) : (x.getLsbD i).toNat = elemOf 1 x.toNat i := by
  rw [elemOf, Nat.one_mul]
  exact Nat.toNat_testBit ..
/-- The bits of a mask by R162. -/
def maskResult (s : State) (a vm : MReg) (r : Nat → Fr Bool) : BitVec 512 :=
  BitVec.ofNat 512 (packElems 1 (destElem (vtOf s) (maskOf (slotOf s) vm) 1 (maskOf (slotOf s) a).toNat fun i => if (r i).v then 1 else 0) 512)
theorem policy_maskResult {s : State} (h0 : (vtOf s).vl ≠ 0) (a vm : MReg) (r : Nat → Fr Bool) {i : Nat} (hi : i < 512) :
    Policy s vm 1 ((maskOf (slotOf s) a).getLsbD i).toNat ((r i).v).toNat i ((maskResult s a vm r).getLsbD i).toNat := by
  have hbit : ((r i).v).toNat = if (r i).v then 1 else 0 := by cases (r i).v <;> rfl
  have hres := policy_destElem s vm 1 (maskOf (slotOf s) a).toNat (fun i => if (r i).v then 1 else 0) hi h0
  rw [bit_toNat, bit_toNat, maskResult, BitVec.toNat_ofNat, elemOf_mod (by omega), elemOf_packElems_self _ _ hi, hbit]
  exact hres

section
variable {s : State} {a vm : MReg} {r : Nat → Fr Bool}

/-- The write of a mask, which VL = 0 leaves out. -/
def maskWritten (t : VT) (a : MReg) (v : BitVec 512) (s : State) : State :=
  if t.vl = 0 then s else changeSlot s fun x => setMask x a v
theorem vecLeft_maskWritten (hi : isIbex s.cur.unit = false) (t : VT) (v : BitVec 512) : VecLeft s (maskWritten t a v s) := by
  unfold maskWritten
  split
  · exact vecLeft_refl s
  · refine vecLeft_changeSlot hi ?_
    rw [setMask_fields]
    rfl
theorem slotOf_maskWritten (hi : isIbex s.cur.unit = false) (t : VT) (v : BitVec 512) : slotOf (maskWritten t a v s) =
    if t.vl = 0 then slotOf s else setMask (slotOf s) a v := by
  unfold maskWritten
  split
  · rfl
  · exact slotOf_changeSlot hi _
theorem threadOf_maskWritten (t : VT) (v : BitVec 512) : threadOf (maskWritten t a v s) = threadOf s := by
  unfold maskWritten
  split
  · rfl
  · exact threadOf_changeSlot s _
/-- A change of the moving slot by what the slot then holds. -/
theorem changeSlot_congr {f g : Slot → Slot} (h : f (slotOf s) = g (slotOf s)) : changeSlot s f = changeSlot s g := by
  unfold slotOf at h
  unfold changeSlot
  split
  · next i hi =>
    rw [hi] at h
    simp only [mapCore, mapSlot] at h ⊢
    rw [h]
  · rfl
/-- A mask result, its flags raised first (R17). -/
theorem mWrite_done (hi : isIbex s.cur.unit = false) (hlong : ∀ i, 512 ≤ i → (r i).f = 0)
    (hen : noneEnabled s (activeFlags s vm fun i => (r i).f)) :
    ∃ u, mWrite (vtOf s) a vm r s = .ok ((), u) ∧ MaskDone a vm r s (goes s u) := by
  have hready := vecReady_flagged (f := activeFlags s vm fun i => (r i).f) (vecReady_refl s)
  have hif : isIbex (flagged s (activeFlags s vm fun i => (r i).f)).cur.unit = false := hi
  have hslot := slotOf_maskWritten (a := a) hif (vtOf s) (maskResult s a vm r)
  rw [slotOf_flagged] at hslot
  have hleft := vecLeft_trans hready.toVecLeft (vecLeft_maskWritten (a := a) hif (vtOf s) (maskResult s a vm r))
  refine ⟨maskWritten (vtOf s) a (maskResult s a vm r) (flagged s (activeFlags s vm fun i => (r i).f)), ?_, fun ha i hlt => ?_,
    fun b _ hb => ?_, ?_, (vecLeft_goes hleft).vtype, (vecLeft_goes hleft).scalars, ?_, vecFrame_goes hleft⟩
  · have hflags := (activeFlags_eq s vm hlong).symm
    unfold mWrite
    rw [bind_run (getSlot_run s), hflags, bind_run (raiseFlags_run hen), maskWritten]
    split
    · rfl
    · refine congrArg (fun t => Except.ok ((), t)) (changeSlot_congr ?_)
      rw [slotOf_flagged]
      rfl
  · rw [slotOf_goes, hslot]
    split
    · next h0 => exact ⟨fun _ => rfl, fun hne => absurd h0 hne⟩
    · next h0 =>
      rw [maskOf_setMask ha]
      exact policy_maskResult h0 a vm r hlt
  · rw [slotOf_goes, hslot]
    split
    · rfl
    · exact maskOf_setMask_ne hb _ _
  · rw [slotOf_goes, hslot]
    split
    · rfl
    · rw [setMask_fields]
  · rw [FlagsSet, fcsr_goes, threadOf_maskWritten]
    exact hready.flags
end

/-! ### The elements of VTYPE (R161) -/

theorem vtOf_sew (s : State) : (vtOf s).sew ∈ [8, 16, 32, 64] := by
  have h : bits (slotOf s).vtype 1 0 < 4 := Nat.mod_lt _ (by decide)
  show 8 * 2 ^ bits (slotOf s).vtype 1 0 ∈ _
  interval_cases bits (slotOf s).vtype 1 0 <;> decide
theorem vtOf_grp (s : State) : (vtOf s).grp ∈ [1, 2, 4, 8] := by
  have h : bits (slotOf s).vtype 3 2 < 4 := Nat.mod_lt _ (by decide)
  show 2 ^ bits (slotOf s).vtype 3 2 ∈ _
  interval_cases bits (slotOf s).vtype 3 2 <;> decide
/-- A group has MaxLen elements, at most 512. -/
theorem elems_of {t : VT} (hs : t.sew ∈ [8, 16, 32, 64]) (hg : t.grp ∈ [1, 2, 4, 8]) :
    512 * t.grp / t.sew = maxLen t ∧ maxLen t ≤ 512 := by
  unfold maxLen
  simp only [List.mem_cons, List.not_mem_nil, or_false] at hs hg
  rcases hs with h | h | h | h <;> rcases hg with h' | h' | h' | h' <;> rw [h, h'] <;> decide
theorem elems_eq (s : State) : 512 * (vtOf s).grp / (vtOf s).sew = maxLen (vtOf s) := (elems_of (vtOf_sew s) (vtOf_grp s)).1
theorem elems_le (s : State) : 512 * (vtOf s).grp / (vtOf s).sew ≤ 512 :=
  (elems_eq s).trans_le (elems_of (vtOf_sew s) (vtOf_grp s)).2
theorem sew_pos (s : State) : 0 < (vtOf s).sew := Nat.mul_pos (by decide) (Nat.two_pow_pos _)
/-- From 512 on a group has no elements. -/
theorem velem_end (s : State) (n : VReg) {i : Nat} (h : 512 ≤ i) : velem s n (vtOf s).grp (vtOf s).sew i = 0 := by
  have hle : (vtOf s).grp ≤ (vtOf s).sew := by
    have hs := vtOf_sew s
    have hg := vtOf_grp s
    simp only [List.mem_cons, List.not_mem_nil, or_false] at hs hg
    omega
  rw [velem_eq]
  exact elemOf_groupOf_end _ _ ((Nat.mul_comm ..).trans_le (Nat.mul_le_mul hle h))
end Sys2Proof.Machine

namespace Sys2Proof.Machine
open Sys2Proof.Claim

/-! # Vector moves, slides, gathers and compress (O16) -/

section
variable {s s1 : State} {x : Word} {a b c : VReg} {m : MReg}

/-- VMV.VX (R171). -/
theorem vmvVx_done {c : GReg} (hp : Passes uV false [.rd c] s) (hv : VOk s) (ha : Fits a (vtOf s).grp) (hc : readG c s = .ok (x, s1)) :
    ∃ u, exec (.vmvVx a c m) s = .next u ∧
      VecDone a (vtOf s).grp (vtOf s).sew m (fun _ => noFlag (x.toNat % 2 ^ (vtOf s).sew)) s u := by
  obtain ⟨u, hw, hdone⟩ := vWrite_exact (vecReady_readG hc) (passes_uV hp) ha (elems_le s) m fun _ => x.toNat % 2 ^ (vtOf s).sew
  refine ⟨_, instr_ok hp ?_, hdone⟩
  rw [bind_run (getVt_run hv), bind_run (groupCheck_run (List.forall_mem_singleton.2 ha)), bind_run hc, bind_run hw]
  rfl
/-- VID (R171). -/
theorem vid_done (hp : Passes uV false [] s) (hv : VOk s) (ha : Fits a (vtOf s).grp) :
    ∃ u, exec (.vid a m) s = .next u ∧ VecDone a (vtOf s).grp (vtOf s).sew m (fun k => noFlag (k % 2 ^ (vtOf s).sew)) s u := by
  obtain ⟨u, hw, hdone⟩ := vWrite_exact (vecReady_refl s) (passes_uV hp) ha (elems_le s) m fun k => k % 2 ^ (vtOf s).sew
  refine ⟨_, instr_ok hp ?_, hdone⟩
  rw [bind_run (getVt_run hv), bind_run (groupCheck_run (List.forall_mem_singleton.2 ha)), bind_run hw]
  rfl
theorem groupCheck_two {n : Nat} (ha : Fits a n) (hb : Fits b n) : groupCheck [(a, n), (b, n)] s = .ok ((), s) :=
  groupCheck_run (List.forall_mem_cons.2 ⟨ha, List.forall_mem_singleton.2 hb⟩)
theorem groupCheck_three {n : Nat} (ha : Fits a n) (hb : Fits b n) (hc : Fits c n) :
    groupCheck [(a, n), (b, n), (c, n)] s = .ok ((), s) :=
  groupCheck_run (List.forall_mem_cons.2 ⟨ha, List.forall_mem_cons.2 ⟨hb, List.forall_mem_singleton.2 hc⟩⟩)
/-- VMERGE (R174). -/
theorem vmerge_done (hp : Passes uV false [] s) (hv : VOk s) (ha : Fits a (vtOf s).grp) (hb : Fits b (vtOf s).grp)
    (hc : Fits c (vtOf s).grp) : ∃ u, exec (.vmerge a b c m) s = .next u ∧ VecDone a (vtOf s).grp (vtOf s).sew 0 (fun k => noFlag
      (if m = 0 ∨ (maskOf (slotOf s) m).getLsbD k then velem s c (vtOf s).grp (vtOf s).sew k
       else velem s b (vtOf s).grp (vtOf s).sew k)) s u := by
  have hsel : ∀ k, (if m = 0 ∨ (maskOf (slotOf s) m).getLsbD k then velem s c (vtOf s).grp (vtOf s).sew k
       else velem s b (vtOf s).grp (vtOf s).sew k) = if (maskOf (slotOf s) m).getLsbD k then velem s c (vtOf s).grp (vtOf s).sew k
       else velem s b (vtOf s).grp (vtOf s).sew k := fun k => by
    rcases lt_or_ge k 512 with hk | hk
    · rcases eq_or_ne m 0 with rfl | hm
      · simp only [maskOf_zero_getLsbD _ hk, true_or]
      · simp only [hm, false_or]
    · simp only [velem_end s _ hk, ite_self]
  simp only [hsel]
  simp only [velem_eq]
  obtain ⟨u, hw, hdone⟩ := vWrite_exact (vecReady_refl s) (passes_uV hp) ha (elems_le s) 0 fun k =>
    if (maskOf (slotOf s) m).getLsbD k then elemOf (vtOf s).sew (groupOf (slotOf s) c.toNat (vtOf s).grp) k
    else elemOf (vtOf s).sew (groupOf (slotOf s) b.toNat (vtOf s).grp) k
  refine ⟨_, instr_ok hp ?_, hdone⟩
  rw [bind_run (getVt_run hv), bind_run (groupCheck_three ha hb hc), bind_run (vGet_run s b _), bind_run (vGet_run s c _),
    bind_run (getSlot_run s), bind_run hw]
  rfl
/-- VSLIDEDN (R174). -/
theorem vslidedn_done {c : GReg} (hp : Passes uV false [.rd c] s) (hv : VOk s) (ha : Fits a (vtOf s).grp) (hb : Fits b (vtOf s).grp)
    (hab : Apart a (vtOf s).grp b (vtOf s).grp) (hc : readG c s = .ok (x, s1)) :
    ∃ u, exec (.vslidedn a b c m) s = .next u ∧ VecDone a (vtOf s).grp (vtOf s).sew m (fun k => noFlag
      (if k + x.toNat < 512 / (vtOf s).sew * (vtOf s).grp then velem s b (vtOf s).grp (vtOf s).sew (k + x.toNat) else 0)) s u := by
  have hr := vecReady_readG hc
  simp only [velem_eq]
  obtain ⟨u, hw, hdone⟩ := vWrite_exact hr (passes_uV hp) ha (elems_le s) m fun k =>
    if k + x.toNat < maxLen (vtOf s) then elemOf (vtOf s).sew (groupOf (slotOf s) b.toNat (vtOf s).grp) (k + x.toNat) else 0
  refine ⟨_, instr_ok hp ?_, hdone⟩
  rw [bind_run (getVt_run hv), bind_run (apart_run hab), bind_run (groupCheck_two ha hb), bind_run hc, bind_run (vGet_run s1 b _), hr.group,
    bind_run hw]
  rfl
/-- VRGATHER (R174). -/
theorem vrgather_done (hp : Passes uV false [] s) (hv : VOk s) (ha : Fits a (vtOf s).grp) (hb : Fits b (vtOf s).grp)
    (hc : Fits c (vtOf s).grp) (hab : Apart a (vtOf s).grp b (vtOf s).grp) :
    ∃ u, exec (.vrgather a b c m) s = .next u ∧ VecDone a (vtOf s).grp (vtOf s).sew m (fun k => noFlag
      (if velem s c (vtOf s).grp (vtOf s).sew k < 512 / (vtOf s).sew * (vtOf s).grp
       then velem s b (vtOf s).grp (vtOf s).sew (velem s c (vtOf s).grp (vtOf s).sew k) else 0)) s u := by
  simp only [velem_eq]
  obtain ⟨u, hw, hdone⟩ := vWrite_exact (vecReady_refl s) (passes_uV hp) ha (elems_le s) m fun k =>
    if elemOf (vtOf s).sew (groupOf (slotOf s) c.toNat (vtOf s).grp) k < maxLen (vtOf s)
    then elemOf (vtOf s).sew (groupOf (slotOf s) b.toNat (vtOf s).grp)
      (elemOf (vtOf s).sew (groupOf (slotOf s) c.toNat (vtOf s).grp) k) else 0
  refine ⟨_, instr_ok hp ?_, hdone⟩
  rw [bind_run (getVt_run hv), bind_run (apart_run hab), bind_run (groupCheck_three ha hb hc), bind_run (vGet_run s b _),
    bind_run (vGet_run s c _), bind_run hw]
  rfl

/-- R171, R174: the moves whose every element follows R162. -/
theorem vectorMoves_hold : Claim.VectorMoves :=
  ⟨fun _ _ _ _ _ _ hp hv ha hc => vmvVx_done hp hv ha hc, fun _ _ _ hp hv ha => vid_done hp hv ha,
    fun _ _ _ _ _ hp hv ha hb hc => vmerge_done hp hv ha hb hc, fun _ _ _ _ _ _ _ hp hv ha hb hab hc => vslidedn_done hp hv ha hb hab hc,
    fun _ _ _ _ _ hp hv ha hb hc hab => vrgather_done hp hv ha hb hc hab⟩

/-! ### Placements (R174) -/

/-- The end of a placement. -/
theorem vPut_next (t : VT) (a : VReg) (n G : Nat) (s : State) :
    (if t.vl = 0 then pure Next.seq else do vPut a n G; pure Next.seq : M Next) s = .ok (.seq, groupWritten t a n G s) := by
  unfold groupWritten
  split <;> rfl
/-- A group that a placement packs by `f`, all of it written. -/
theorem placed_done {f : Nat → Nat} {s1 : State} (hr : VecReady 0 s s1) (hi : isIbex s.cur.unit = false) (ha : Fits a (vtOf s).grp)
    (G : Nat) (hG : ∀ k < maxLen (vtOf s), elemOf (vtOf s).sew G k = f k) :
    let u := goes s (groupWritten (vtOf s) a (vtOf s).grp G s1)
    VRegsKept a (vtOf s).grp s u ∧ OnlyVRegs s u ∧ ∀ k < 512 * (vtOf s).grp / (vtOf s).sew, velem u a (vtOf s).grp (vtOf s).sew k =
      if (vtOf s).vl = 0 then velem s a (vtOf s).grp (vtOf s).sew k else f k := by
  obtain ⟨hregs, hm, ht, hs, hf, hfr⟩ := groupWritten_done (a := a) (c := (vtOf s).grp) hr hi (vtOf s) G
  refine ⟨hregs, ⟨hm, ht, hs, hf, hfr⟩, fun k hk => ?_⟩
  rw [velem_groupWritten hr hi ha _ _ (elem_within hk), hG k (hk.trans_eq (elems_eq s))]
/-- VSLIDEUP leaves the elements below the offset (R174). -/
theorem vslideup_done {c : GReg} (hp : Passes uV false [.rd c] s) (hv : VOk s) (ha : Fits a (vtOf s).grp) (hb : Fits b (vtOf s).grp)
    (hab : Apart a (vtOf s).grp b (vtOf s).grp) (hc : readG c s = .ok (x, s1)) :
    ∃ u, exec (.vslideup a b c m) s = .next u ∧ VRegsKept a (vtOf s).grp s u ∧ OnlyVRegs s u ∧
      ∀ k < 512 * (vtOf s).grp / (vtOf s).sew,
        (k < x.toNat → velem u a (vtOf s).grp (vtOf s).sew k = velem s a (vtOf s).grp (vtOf s).sew k) ∧
        (x.toNat ≤ k → Policy s m (vtOf s).sew (velem s a (vtOf s).grp (vtOf s).sew k)
          (velem s b (vtOf s).grp (vtOf s).sew (k - x.toNat)) k (velem u a (vtOf s).grp (vtOf s).sew k)) := by
  have hr := vecReady_readG hc
  obtain ⟨hregs, honly, helem⟩ := placed_done hr (passes_uV hp) ha _ fun k hk => elemOf_packElems_self (vtOf s).sew (fun i =>
    if i < x.toNat then elemOf (vtOf s).sew (groupOf (slotOf s) a.toNat (vtOf s).grp) i
    else destElem (vtOf s) (maskOf (slotOf s) m) (vtOf s).sew (groupOf (slotOf s) a.toNat (vtOf s).grp)
      (fun i => elemOf (vtOf s).sew (groupOf (slotOf s) b.toNat (vtOf s).grp) (i - x.toNat)) i) hk
  refine ⟨_, instr_ok hp ?_, hregs, honly, fun k hk => ?_⟩
  · rw [bind_run (getVt_run hv), bind_run (apart_run hab), bind_run (groupCheck_two ha hb), bind_run hc, bind_run (vGet_run s1 b _),
      bind_run (vGet_run s1 a _), bind_run (getSlot_run s1), hr.group, hr.group, hr.mask]
    exact vPut_next ..
  · rw [helem k hk]
    refine ⟨fun hlt => ?_, fun hge => ?_⟩
    · rw [if_pos hlt, velem_eq]
      split
      · rfl
      · exact Nat.mod_mod ..
    · rw [if_neg (Nat.not_lt.2 hge), velem_eq, velem_eq]
      split
      · next h0 => exact ⟨fun _ => rfl, fun hne => absurd h0 hne⟩
      · next h0 =>
        exact policy_destElem s m _ _ (fun i => elemOf (vtOf s).sew (groupOf (slotOf s) b.toNat (vtOf s).grp) (i - x.toNat))
          (hk.trans_le (elems_le s)) h0
/-- Leaving out the numbers from m on does not move those below. -/
theorem range_filter_lt {m k : Nat} (n : Nat) (hk : k < m) : ((List.range n).filter fun i => decide (i < m))[k]? = (List.range n)[k]? := by
  have hself : ∀ j ≤ m, ((List.range j).filter fun i => decide (i < m)) = List.range j := fun j hj =>
    List.filter_eq_self.2 fun i hi => decide_eq_true ((List.mem_range.1 hi).trans_le hj)
  rcases Nat.le_total n m with h | h
  · rw [hself n h]
  · obtain ⟨d, rfl⟩ := Nat.exists_eq_add_of_le h
    have hlen : k < (List.range m).length := by rwa [List.length_range]
    rw [List.range_add, List.filter_append, hself m (Nat.le_refl m), List.getElem?_append_left hlen, List.getElem?_append_left hlen]
/-- The elements that VCOMPRESS packs: below 512 the active ones of the model are those that the rule names (R162). -/
theorem activeList_getElem? (s : State) (c : MReg) {k : Nat} (hk : k < 512) :
    ((List.range (vtOf s).vl).filter fun i => c = 0 || (maskOf (slotOf s) c).getLsbD i)[k]? =
      (active (vtOf s) (maskOf (slotOf s) c))[k]? := by
  unfold active
  rcases eq_or_ne c 0 with rfl | hc
  · have hones : (fun i => (maskOf (slotOf s) 0).getLsbD i) = fun i => decide (i < 512) := funext fun i => by
      rw [maskOf, if_pos rfl, BitVec.getLsbD_allOnes]
    rw [hones, range_filter_lt _ hk, List.filter_eq_self.2]
    exact fun i _ => Bool.true_or _
  · simp only [hc, decide_false, Bool.false_or]
/-- VCOMPRESS packs the selected elements (R174). -/
theorem vcompress_done {c : MReg} (hp : Passes uV false [] s) (hv : VOk s) (ha : Fits a (vtOf s).grp) (hb : Fits b (vtOf s).grp)
    (hab : Apart a (vtOf s).grp b (vtOf s).grp) :
    let l := (List.range (vtOf s).vl).filter fun i => c = 0 || (maskOf (slotOf s) c).getLsbD i
    ∃ u, exec (.vcompress a b c) s = .next u ∧ VRegsKept a (vtOf s).grp s u ∧ OnlyVRegs s u ∧
      ∀ k < 512 * (vtOf s).grp / (vtOf s).sew, velem u a (vtOf s).grp (vtOf s).sew k =
        if (vtOf s).vl = 0 then velem s a (vtOf s).grp (vtOf s).sew k
        else if h : k < l.length then velem s b (vtOf s).grp (vtOf s).sew l[k]
        else if (vtOf s).ta then 2 ^ (vtOf s).sew - 1 else velem s a (vtOf s).grp (vtOf s).sew k := by
  intro l
  obtain ⟨hregs, honly, helem⟩ := placed_done (vecReady_refl s) (passes_uV hp) ha _ fun k hk =>
    elemOf_packElems_self (vtOf s).sew (fun i => match (active (vtOf s) (maskOf (slotOf s) c))[i]? with
      | some j => elemOf (vtOf s).sew (groupOf (slotOf s) b.toNat (vtOf s).grp) j
      | none => if (vtOf s).ta then 2 ^ (vtOf s).sew - 1 else elemOf (vtOf s).sew (groupOf (slotOf s) a.toNat (vtOf s).grp) i) hk
  refine ⟨_, instr_ok hp ?_, hregs, honly, fun k hk => ?_⟩
  · rw [bind_run (getVt_run hv), bind_run (apart_run hab), bind_run (groupCheck_two ha hb), bind_run (vGet_run s b _),
      bind_run (vGet_run s a _), bind_run (getSlot_run s)]
    exact vPut_next ..
  · rw [helem k hk, ← activeList_getElem? s c (hk.trans_le (elems_le s)), velem_eq]
    congr 1
    by_cases h : k < l.length
    · rw [dif_pos h, List.getElem?_eq_getElem h, velem_eq]
      exact Nat.mod_mod ..
    · rw [dif_neg h, List.getElem?_eq_none (Nat.not_lt.1 h)]
      dsimp only
      split
      · exact allOnes_mod _
      · exact Nat.mod_mod ..
theorem sval_eq {n : Nat} (x : Nat) (h : 0 < n) : sval n x = sInt n x := by
  rw [sval, sInt]
  by_cases hx : 2 ^ (n - 1) ≤ x % 2 ^ n
  · rw [if_neg (Nat.not_lt.2 hx), if_pos ⟨hx, h⟩]
    push_cast
    rfl
  · rw [if_pos (Nat.not_le.1 hx), if_neg fun k => hx k.1]
theorem signExt_eq {n : Nat} (x : Nat) (h : 0 < n) : signExt n x = BitVec.ofInt 64 (sval n x) := by
  rw [sval_eq x h, signExt, sInt]
  split
  · rfl
  · rw [BitVec.ofInt_natCast]
/-- VMV.XS reads element 0 (R171). -/
theorem vmvXs_done {a : GReg} (hp : Passes uV false [.wr a] s) (hv : VOk s) (hb : Fits b (vtOf s).grp)
    (hw : writeResult a (BitVec.ofInt 64 (sval (vtOf s).sew (velem s b (vtOf s).grp (vtOf s).sew 0))) s = .ok ((), s1)) :
    exec (.vmvXs a b) s = .next (goes s s1) := by
  refine instr_ok hp ?_
  rw [velem_eq, ← signExt_eq _ (sew_pos s)] at hw
  rw [bind_run (getVt_run hv), bind_run (groupCheck_run (List.forall_mem_singleton.2 hb)), bind_run (vGet_run s b _), bind_run hw]
  rfl
/-- Element 0 replaced. -/
theorem elemOf_replace (w v r k : Nat) : elemOf w (v / 2 ^ w * 2 ^ w + r % 2 ^ w) k = if k = 0 then r % 2 ^ w else elemOf w v k := by
  have hr := Nat.mod_lt r (Nat.two_pow_pos w)
  cases k with
  | zero => rw [if_pos rfl, elemOf, Nat.mul_zero, Nat.pow_zero, Nat.div_one, Nat.mul_add_mod_self_right, Nat.mod_mod]
  | succ k =>
    rw [if_neg k.succ_ne_zero, elemOf, elemOf, Nat.mul_succ, Nat.add_comm (w * k), Nat.pow_add, ← Nat.div_div_eq_div_mul,
      ← Nat.div_div_eq_div_mul, Nat.add_comm (_ * _), Nat.add_mul_div_right _ _ (Nat.two_pow_pos w), Nat.div_eq_of_lt hr, Nat.zero_add]
/-- VMV.SX writes element 0 where VL ≥ 1 (R171). -/
theorem vmvSx_done {c : GReg} (hp : Passes uV false [.rd c] s) (hv : VOk s) (ha : Fits a (vtOf s).grp) (hc : readG c s = .ok (x, s1)) :
    ∃ u, exec (.vmvSx a c) s = .next u ∧ VRegsKept a (vtOf s).grp s u ∧ OnlyVRegs s u ∧
      ∀ k < 512 * (vtOf s).grp / (vtOf s).sew, velem u a (vtOf s).grp (vtOf s).sew k =
        if k = 0 ∧ (vtOf s).vl ≠ 0 then x.toNat % 2 ^ (vtOf s).sew else velem s a (vtOf s).grp (vtOf s).sew k := by
  have hr := vecReady_readG hc
  obtain ⟨hregs, honly, helem⟩ := placed_done hr (passes_uV hp) ha _ fun k _ =>
    elemOf_replace (vtOf s).sew (groupOf (slotOf s) a.toNat (vtOf s).grp) x.toNat k
  refine ⟨_, instr_ok hp ?_, hregs, honly, fun k hk => ?_⟩
  · rw [bind_run (getVt_run hv), bind_run (groupCheck_run (List.forall_mem_singleton.2 ha)), bind_run hc, bind_run (vGet_run s1 a _), hr.group]
    exact vPut_next ..
  · rw [helem k hk, velem_eq]
    by_cases h0 : (vtOf s).vl = 0
    · rw [if_pos h0, if_neg fun h => h.2 h0]
    · simp only [h0, if_false, ne_eq, not_false_eq_true, and_true]

/-- R171, R174: the moves that place elements otherwise. -/
theorem vectorPlacement_hold : Claim.VectorPlacement :=
  ⟨fun _ _ _ _ _ _ _ hp hv ha hb hab hc => vslideup_done hp hv ha hb hab hc, fun _ _ _ _ hp hv ha hb hab => vcompress_done hp hv ha hb hab,
    fun _ _ _ _ hp hv hb hw => vmvXs_done hp hv hb hw, fun _ _ _ _ _ hp hv ha hc => vmvSx_done hp hv ha hc⟩
end
/-- Settles O16: each instruction reads its operands, which leaves the vector state, and writes one group by R162 or by its placement. -/
theorem vectorMoves : Obligations.VectorMoves := ⟨vectorMoves_hold, vectorPlacement_hold⟩
end Sys2Proof.Machine

namespace Sys2Proof.Machine
open Sys2Proof.Claim

/-! # SETVL (O17) -/

/-! ### The fields of VTYPE (R161) -/

theorem sewBits_eq (v : Word) : bits v 1 0 = v.toNat % 4 := congrArg (· % 4) (Nat.div_one v.toNat)
theorem getLsbD_eq_one (v : Word) (i : Nat) : v.getLsbD i = decide (v.toNat / 2 ^ i % 2 = 1) := by
  rw [BitVec.getLsbD, Nat.testBit_eq_decide_div_mod_eq]
theorem maxLen_eq (v : Word) (vl : Nat) : maxLen (vtFields v vl) = 64 / 2 ^ (v.toNat % 4) * 2 ^ (v.toNat / 4 % 4) := by
  have hs := sewBits_eq v
  have hg : bits v 3 2 = v.toNat / 4 % 4 := rfl
  rw [maxLen, vtFields]
  dsimp only
  rw [hs, hg, show 512 = 8 * 64 from rfl, Nat.mul_div_mul_left _ _ (by decide)]
/-- The types that R161 does not support. -/
theorem unsupported_iff (v : Word) : unsupported v = true ↔
    512 ≤ v.toNat ∨ v.toNat / 16 % 4 = 3 ∨ (v.toNat / 64 % 2 = 0 ∧ v.toNat / 16 % 4 ≠ 0) ∨
      (v.toNat / 64 % 2 = 1 ∧ v.toNat / 16 % 4 = 0 ∧ v.toNat % 4 ≠ 2) ∨
      (v.toNat / 64 % 2 = 1 ∧ v.toNat / 16 % 4 ≠ 0 ∧ v.toNat % 4 ≠ 1) := by
  have hs := sewBits_eq v
  have hk : bits v 5 4 = v.toNat / 16 % 4 := rfl
  have hf : v.getLsbD 6 = decide (v.toNat / 64 % 2 = 1) := getLsbD_eq_one v 6
  have h4 : v.toNat % 4 < 4 := Nat.mod_lt _ (by decide)
  have h32 : 8 * 2 ^ (v.toNat % 4) ≠ 32 ↔ v.toNat % 4 ≠ 2 := by interval_cases v.toNat % 4 <;> decide
  have h16 : 8 * 2 ^ (v.toNat % 4) ≠ 16 ↔ v.toNat % 4 ≠ 1 := by interval_cases v.toNat % 4 <;> decide
  unfold unsupported vtFields
  simp only [hs, hk, hf, Bool.or_eq_true, Bool.and_eq_true, Bool.not_eq_true', decide_eq_true_eq, decide_eq_false_iff_not, beq_iff_eq,
    bne_iff_ne, h32, h16, Nat.mod_two_ne_one, or_assoc, and_assoc]

/-! ### Setting VTYPE and VL (R165) -/

theorem setVl_unsupported {a : GReg} {vt : Word} {avl : Option Word} {s t : State} (h : unsupported vt = true)
    (hw : writeResult a 0 (changeSlot s fun x => { x with vtype := 0x8000000000000000, vl := 0 }) = .ok ((), t)) :
    setVl a vt avl s = .ok ((), t) := by
  rw [setVl, if_pos h, bind_run (modSlot_run _ s)]
  exact hw
/-- The length that SETVL gives: as requested up to MaxLen, MaxLen where none is requested. -/
def grantedLen (avl : Option Word) (len : Nat) : Nat := match avl with
  | some x => min x.toNat len
  | none => len
theorem setVl_supported {a : GReg} {vt : Word} {avl : Option Word} {s t : State} (h : ¬unsupported vt = true)
    (hw : writeResult a (BitVec.ofNat 64 (grantedLen avl (maxLen (vtFields vt 0))))
      (changeSlot s fun x => { x with vtype := vt, vl := BitVec.ofNat 10 (grantedLen avl (maxLen (vtFields vt 0))) }) = .ok ((), t)) :
    setVl a vt avl s = .ok ((), t) := by
  rw [setVl, if_neg h]
  exact hw
theorem readAvl_run {b : GReg} {s t : State} {avl : Option Word}
    (h : (b = .g 0 ∧ avl = none ∧ t = s) ∨ (b ≠ .g 0 ∧ ∃ x, readG b s = .ok (x, t) ∧ avl = some x)) : readAvl b s = .ok (avl, t) := by
  rcases h with ⟨rfl, rfl, rfl⟩ | ⟨hb, x, hx, rfl⟩
  · rfl
  · rw [readAvl, if_neg hb, bind_run hx]
    rfl
/-- Both instructions set what their type and requested length say, SETVLR reading field b before c (log 19). -/
theorem exec_setvl {i : Instr} {a b : GReg} {vt : Word} {s s1 s2 s3 : State} {avl : Option Word}
    (hi : (∃ t : BitVec 15, i = .setvl a b t ∧ vt = t.setWidth 64 ∧ s2 = s1 ∧ Passes uV false [.rd b, .wr a] s) ∨
      (∃ c, i = .setvlr a b c ∧ readG c s1 = .ok (vt, s2) ∧ Passes uV false [.rd b, .rd c, .wr a] s))
    (hb : readAvl b s = .ok (avl, s1)) (hset : setVl a vt avl s2 = .ok ((), s3)) : exec i s = .next (goes s s3) := by
  rcases hi with ⟨t, rfl, rfl, rfl, hp⟩ | ⟨c, rfl, hc, hp⟩
  · refine instr_ok hp ?_
    rw [bind_run hb, bind_run (x := setVl a (zimm t) avl) hset]
    rfl
  · refine instr_ok hp ?_
    rw [bind_run hb, bind_run hc, bind_run hset]
    rfl
/-- Settles O17: the fields of VTYPE are those of its number, so that the model refuses what R161 does and grants what R165 does. -/
theorem setVectorLength : Obligations.SetVectorLength := by
  intro i a b vt s s1 s2 s3 avl hi hb
  have hread := readAvl_run hb
  have hlen := maxLen_eq vt 0
  refine ⟨fun hbad hw => exec_setvl hi hread (setVl_unsupported ((unsupported_iff vt).2 hbad) hw),
    fun hgood hw => exec_setvl hi hread (setVl_supported (fun h => hgood ((unsupported_iff vt).1 h)) ?_)⟩
  rw [hlen]
  exact hw
end Sys2Proof.Machine

namespace Sys2Proof.Machine
open Sys2Proof.Claim

/-! # Vector compares, mask logic and reductions (O15) -/

/-! ### Compares (R171, R172) -/

/-- A compare of FP elements is the table's. -/
theorem cmpF_fpCompare (any : Bool) (p : FVal → FVal → Bool) (f : Fmt) (x y : Nat) : cmpF f x y any p = fpCompare any false p f x y := by
  have hc : cmpF f x y any p = if isNan (decodeF f x) || isNan (decodeF f y) then
      ⟨false, snanFlag (any || isSnan (decodeF f x) || isSnan (decodeF f y))⟩ else ⟨p (decodeF f x) (decodeF f y), 0⟩ := rfl
  rw [hc, fpCompare]
  by_cases h : isNan (decodeF f x) = true ∨ isNan (decodeF f y) = true
  · rw [if_pos h, if_pos ((Bool.or_eq_true ..).mpr h)]
    simp only [snanFlag, Bool.or_eq_true, or_assoc]
    rfl
  · rw [if_neg h, if_neg (mt (Bool.or_eq_true ..).mp h)]
theorem fpCompare_not (any : Bool) (p : FVal → FVal → Bool) (f : Fmt) (x y : Nat) :
    (⟨!(fpCompare any false p f x y).v, (fpCompare any false p f x y).f⟩ : Fr Bool) = fpCompare any true (fun x y => !p x y) f x y := by
  unfold fpCompare
  split <;> rfl
theorem fpCompare_congr (any unequal : Bool) {p q : FVal → FVal → Bool} (f : Fmt) (x y : Nat)
    (h : ∀ v w, isNan v = false → isNan w = false → p v w = q v w) : fpCompare any unequal p f x y = fpCompare any unequal q f x y := by
  unfold fpCompare
  split
  · rfl
  · next hn =>
    rw [not_or, Bool.not_eq_true, Bool.not_eq_true] at hn
    rw [h _ _ hn.1 hn.2]
/-- Of two values at most one is below the other. -/
theorem ltV_asymm {v w : FVal} (hv : isNan v = false) (hw : isNan w = false) (h : ltV v w = true) : ltV w v = false := by
  cases v with
  | nan _ => cases hv
  | inf x =>
    cases w with
    | nan _ => cases hw
    | inf y => cases x <;> cases y <;> trivial
    | num n m e =>
      have hx : x = true := h
      rw [hx]
      rfl
  | num n m e =>
    cases w with
    | nan _ => cases hw
    | inf y =>
      have hy : (!y) = true := h
      exact Bool.not_eq_true' _ ▸ hy
    | num n' m' e' =>
      rw [← Bool.not_eq_true, ltV_iff rfl rfl]
      exact not_lt.2 ((ltV_iff rfl rfl).1 h).le
/-- At most: less, or equal (R172). -/
theorem notLtV_iff {v w : FVal} (hv : isNan v = false) (hw : isNan w = false) : (!ltV w v) = (ltV v w || eqV v w) := by
  rw [eqV, hv, hw]
  cases h : ltV v w with
  | true => rw [ltV_asymm hv hw h]; rfl
  | false => rfl
theorem isNan_zero (f : Fmt) : isNan (decodeF f 0) = false := by cases f <;> rfl
theorem fpCompare_zero (any unequal : Bool) (p : FVal → FVal → Bool) (f : Fmt) : (fpCompare any unequal p f 0 0).f = 0 := by
  rw [fpCompare, isNan_zero]
  rfl
/-- Each compare is that of the table; two zero elements raise no flag. -/
theorem exec_cmp {i : Instr} {a m : MReg} {b c : VReg} {fpo : Bool} {f : VT → Nat → Nat → Fr Bool}
    (h : cmpTable i = some (a, b, c, m, fpo, f)) :
    ∃ g : VT → Nat → Nat → Fr Bool, (∀ s, exec i s = instr uV false [] (vcmp a b c m fpo g) s) ∧
      (∀ t x y, 0 < t.sew → g t x y = f t x y) ∧ ∀ t, (f t 0 0).f = 0 := by
  cases i <;> cases h
  case vmseq.refl | vmsltu.refl | vmsleu.refl => exact ⟨_, fun _ => rfl, fun _ _ _ _ => rfl, fun _ => rfl⟩
  case vmsne.refl => exact ⟨_, fun _ => rfl, fun _ x y _ => congrArg noFlag (decide_not (p := x = y)).symm, fun _ => rfl⟩
  case vmslt.refl | vmsle.refl =>
    exact ⟨_, fun _ => rfl, fun t x y h => by rw [← sval_eq x h, ← sval_eq y h]; rfl, fun _ => rfl⟩
  case vmfeq.refl | vmflt.refl => exact ⟨_, fun _ => rfl, fun _ _ _ _ => cmpF_fpCompare .., fun _ => fpCompare_zero ..⟩
  case vmfne.refl =>
    exact ⟨_, fun _ => rfl, fun t x y _ => by rw [cmpF_fpCompare]; exact fpCompare_not .., fun _ => fpCompare_zero ..⟩
  case vmfle.refl =>
    refine ⟨_, fun _ => rfl, fun t x y _ => ?_, fun _ => fpCompare_zero ..⟩
    rw [cmpF_fpCompare]
    exact fpCompare_congr _ _ _ _ _ fun _ _ hv hw => notLtV_iff hv hw

/-- R171, R172: the compares. -/
theorem vectorCompares_hold : Claim.VectorCompares := by
  intro i a b c m fpo f h s hp hv hfp hb hc
  obtain ⟨g, hexec, heq, hzero⟩ := exec_cmp h
  dsimp only
  intro hen
  have hsame : ∀ k, g (vtOf s) (velem s b (vtOf s).grp (vtOf s).sew k) (velem s c (vtOf s).grp (vtOf s).sew k) =
      f (vtOf s) (velem s b (vtOf s).grp (vtOf s).sew k) (velem s c (vtOf s).grp (vtOf s).sew k) := fun k => heq _ _ _ (sew_pos s)
  obtain ⟨u, hw, hdone⟩ := mWrite_done (a := a) (passes_uV hp) (fun k hk => by rw [velem_end s b hk, velem_end s c hk, hzero]) hen
  refine ⟨_, (hexec s).trans (instr_ok hp ?_), hdone⟩
  have hguard : guardD (!fpo || (vtOf s).fp) 0x002 5 s = .ok ((), s) := by
    cases fpo with
    | false => rfl
    | true => rw [hfp rfl]; rfl
  unfold vcmp
  rw [bind_run (getVt_run hv), bind_run hguard, bind_run (groupCheck_two hb hc), bind_run (vGet_run s b _), bind_run (vGet_run s c _)]
  simp only [← velem_eq, hsame]
  rw [bind_run hw]
  rfl
end Sys2Proof.Machine

namespace Sys2Proof.Machine
open Sys2Proof.Claim

/-! ### Mask logic, VCPOP and VFIRST (R176) -/

section
variable {s t : State} {a vm : MReg}

theorem maskDone_congr {r q : Nat → Fr Bool} (h : MaskDone a vm r s t) (hv : ∀ k < 512, (r k).v = (q k).v) (hf : ∀ k, (r k).f = (q k).f) :
    MaskDone a vm q s t := by
  obtain ⟨hbits, hkept, hregs, ht, hs, hflags, hfr⟩ := h
  refine ⟨fun ha i hi => hv i hi ▸ hbits ha i hi, hkept, hregs, ht, hs, ?_, hfr⟩
  rw [show (fun k => (q k).f) = fun k => (r k).f from funext fun k => (hf k).symm]
  exact hflags
/-- A mask operation is its operation on bits, below VL. -/
theorem mOp_done {b c : MReg} {f : BitVec 512 → BitVec 512 → BitVec 512} {g : Bool → Bool → Bool} (hp : Passes uV false [] s) (hv : VOk s)
    (hg : ∀ k < 512, (f (maskOf (slotOf s) b) (maskOf (slotOf s) c)).getLsbD k =
      g ((maskOf (slotOf s) b).getLsbD k) ((maskOf (slotOf s) c).getLsbD k)) :
    ∃ u, instr uV false [] (mOp a b c f) s = .next u ∧
      MaskDone a 0 (fun k => noFlag (g ((maskOf (slotOf s) b).getLsbD k) ((maskOf (slotOf s) c).getLsbD k))) s u := by
  obtain ⟨u, hw, hdone⟩ := mWrite_done (a := a) (vm := 0)
    (r := fun k => noFlag ((f (maskOf (slotOf s) b) (maskOf (slotOf s) c)).getLsbD k)) (passes_uV hp) (fun _ _ => rfl)
    ((activeFlags_zero s 0).symm ▸ noneEnabled_zero s)
  refine ⟨_, instr_ok hp ?_, maskDone_congr hdone hg fun _ => rfl⟩
  unfold mOp
  rw [bind_run (getVt_run hv), bind_run (getSlot_run s)]
  exact bind_run hw
/-- The active elements whose bit of a mask is set. -/
theorem selected_eq (s : State) (m b : MReg) :
    (active (vtOf s) (maskOf (slotOf s) m)).filter (fun i => (maskOf (slotOf s) b).getLsbD i) =
      (List.range (vtOf s).vl).filter fun k => (m = 0 || (maskOf (slotOf s) m).getLsbD k) && (maskOf (slotOf s) b).getLsbD k := by
  rw [active, List.filter_filter]
  congr 1
  funext i
  rw [Bool.and_comm]
  rcases eq_or_ne m 0 with rfl | hm
  · rcases lt_or_ge i 512 with hi | hi
    · simp only [maskOf_zero_getLsbD _ hi, decide_true, Bool.true_or]
    · rw [BitVec.getLsbD_of_ge (maskOf (slotOf s) b) i hi, Bool.and_false, Bool.and_false]
  · simp only [hm, decide_false, Bool.false_or]
theorem vcpop_done {d : GReg} {b m : MReg} (hp : Passes uV false [.wr d] s) (hv : VOk s)
    (hw : writeResult d (BitVec.ofNat 64 ((active (vtOf s) (maskOf (slotOf s) m)).filter
      fun i => (maskOf (slotOf s) b).getLsbD i).length) s = .ok ((), t)) : exec (.vcpop d b m) s = .next (goes s t) := by
  refine instr_ok hp ?_
  rw [bind_run (getVt_run hv), bind_run (getSlot_run s)]
  exact bind_run hw
theorem vfirst_done {d : GReg} {b m : MReg} (hp : Passes uV false [.wr d] s) (hv : VOk s)
    (hw : writeResult d (match (active (vtOf s) (maskOf (slotOf s) m)).filter fun i => (maskOf (slotOf s) b).getLsbD i with
      | [] => BitVec.allOnes 64
      | k :: _ => BitVec.ofNat 64 k) s = .ok ((), t)) : exec (.vfirst d b m) s = .next (goes s t) := by
  refine instr_ok hp ?_
  rw [bind_run (getVt_run hv), bind_run (getSlot_run s), ← List.head?_filter]
  cases hl : (active (vtOf s) (maskOf (slotOf s) m)).filter fun i => (maskOf (slotOf s) b).getLsbD i with
  | nil =>
    rw [hl] at hw
    exact bind_run hw
  | cons k l =>
    rw [hl] at hw
    exact bind_run hw
end

/-- R176: mask logic, VCPOP and VFIRST. -/
theorem vectorMasks_hold : Claim.VectorMasks := by
  refine ⟨fun a b c i f hi s hp hv => ?_, fun a b m s s1 hp hv => ?_⟩
  · simp only [List.mem_cons, Prod.mk.injEq, List.not_mem_nil, or_false] at hi
    rcases hi with ⟨rfl, rfl⟩ | ⟨rfl, rfl⟩ | ⟨rfl, rfl⟩ | ⟨rfl, rfl⟩
    · exact mOp_done hp hv fun _ _ => BitVec.getLsbD_and
    · exact mOp_done hp hv fun _ _ => BitVec.getLsbD_or
    · exact mOp_done hp hv fun _ _ => BitVec.getLsbD_xor
    · exact mOp_done (c := b) (g := fun x _ => !x) hp hv fun k hk => by rw [BitVec.getLsbD_not, decide_eq_true hk, Bool.true_and]
  · rw [← selected_eq]
    exact ⟨vcpop_done hp hv, vfirst_done hp hv⟩

/-! ### The tree of R27 -/

/-- A list without a first pair. -/
theorem short_of_pairless {α : Type} {l : List α} (h : ∀ x y r, l = x :: y :: r → False) : l = [] ∨ ∃ x, l = [x] := by
  match l with
  | [] => exact .inl rfl
  | [x] => exact .inr ⟨x, rfl⟩
  | x :: y :: r => exact absurd rfl (h x y r)
/-- The next level of the tree of R27, as the rule writes it. -/
theorem pairUp_eq (f : Fr Nat → Fr Nat → Fr Nat) (l : List (Fr Nat)) : pairUp f l = (List.range ((l.length + 1) / 2)).map fun i =>
    if 2 * i + 1 < l.length then f (l.getD (2 * i) ⟨0, 0⟩) (l.getD (2 * i + 1) ⟨0, 0⟩) else l.getD (2 * i) ⟨0, 0⟩ := by
  induction l using pairUp.induct with
  | case1 x y l ih =>
    have hlen : ((x :: y :: l).length + 1) / 2 = (l.length + 1) / 2 + 1 := by
      simp only [List.length_cons]
      omega
    rw [pairUp, ih, hlen, List.range_succ_eq_map, List.map_cons, List.map_map]
    refine congrArg₂ List.cons ?_ (List.map_congr_left fun i _ => ?_)
    · exact (if_pos (by simp only [List.length_cons]; omega)).symm
    · have h2 : 2 * (i + 1) = 2 * i + 1 + 1 := by omega
      simp only [Function.comp, Nat.succ_eq_add_one, h2, List.length_cons, List.getD_cons_succ, Nat.add_lt_add_iff_right]
  | case2 l hl =>
    rcases short_of_pairless hl with rfl | ⟨x, rfl⟩ <;> simp [pairUp]
theorem pairUp_length {α : Type} (f : α → α → α) (l : List α) : (pairUp f l).length = (l.length + 1) / 2 := by
  induction l using pairUp.induct with
  | case1 x y l ih =>
    simp only [pairUp, List.length_cons, ih]
    omega
  | case2 l hl =>
    rcases short_of_pairless hl with rfl | ⟨x, rfl⟩ <;> simp [pairUp]
/-- Two combinations that agree on what `P` holds of, and keep it. -/
def AgreeOn {α : Type} (P : α → Prop) (f g : α → α → α) : Prop := ∀ x y, P x → P y → g x y = f x y ∧ P (f x y)
theorem pairUp_congr {α : Type} {P : α → Prop} {f g : α → α → α} (h : AgreeOn P f g) {l : List α} (hl : ∀ x ∈ l, P x) :
    pairUp g l = pairUp f l ∧ ∀ x ∈ pairUp f l, P x := by
  induction l using pairUp.induct with
  | case1 x y l ih =>
    obtain ⟨hx, hyl⟩ := List.forall_mem_cons.1 hl
    obtain ⟨hy, hl⟩ := List.forall_mem_cons.1 hyl
    obtain ⟨heq, hall⟩ := ih hl
    obtain ⟨hg, hf⟩ := h x y hx hy
    exact ⟨by rw [pairUp, pairUp, heq, hg], List.forall_mem_cons.2 ⟨hf, hall⟩⟩
  | case2 l h2 =>
    rcases short_of_pairless h2 with rfl | ⟨x, rfl⟩
    · exact ⟨rfl, hl⟩
    · exact ⟨rfl, hl⟩
theorem treeOf_one {α : Type} (f : α → α → α) (n : Nat) (x : α) : treeOf f n [x] = some x := by
  induction n with
  | zero => rfl
  | succ n ih => exact ih
/-- The model's tree over at most 2^n values is that of R27. -/
theorem treeOf_of_treeIs {P : Fr Nat → Prop} {f g : Fr Nat → Fr Nat → Fr Nat} (h : AgreeOn P f g) {l : List (Fr Nat)} {r : Fr Nat}
    (ht : TreeIs f l r) {n : Nat} (hl : ∀ x ∈ l, P x) (hn : l.length ≤ 2 ^ n) : treeOf g n l = some r ∧ P r := by
  induction ht generalizing n with
  | one x => exact ⟨treeOf_one g n x, hl x (List.mem_singleton_self x)⟩
  | level l r h2 _ ih =>
    rw [← pairUp_eq] at ih
    obtain ⟨heq, hall⟩ := pairUp_congr h hl
    cases n with
    | zero => exact absurd (h2.trans hn) (by decide)
    | succ n =>
      rw [treeOf, heq]
      refine ih hall ?_
      rw [pairUp_length]
      rw [Nat.pow_succ] at hn
      omega

/-! ### Reductions (R175) -/

theorem sInt_inj {n x y : Nat} (hx : x < 2 ^ n) (hy : y < 2 ^ n) (h : sInt n x = sInt n y) : x = y := by
  rw [sInt, sInt, Nat.mod_eq_of_lt hx, Nat.mod_eq_of_lt hy] at h
  have hxz : (x : Int) < 2 ^ n := by exact_mod_cast hx
  have hyz : (y : Int) < 2 ^ n := by exact_mod_cast hy
  split at h <;> split at h <;> omega
/-- Of two elements the lesser, whichever is taken of two equal ones. -/
theorem minSN_eq {n x y : Nat} (hn : 0 < n) (hx : x < 2 ^ n) (hy : y < 2 ^ n) : minSN n x y = if sval n x ≤ sval n y then x else y := by
  rw [minSN, sval_eq x hn, sval_eq y hn]
  rcases lt_trichotomy (sInt n x) (sInt n y) with h | h | h
  · rw [if_pos h, if_pos h.le]
  · rw [sInt_inj hx hy h, ite_self, ite_self]
  · rw [if_neg h.not_gt, if_neg h.not_ge]
theorem maxSN_eq {n : Nat} (x y : Nat) (hn : 0 < n) : maxSN n x y = if sval n y ≤ sval n x then x else y := by
  rw [maxSN, sval_eq x hn, sval_eq y hn]
  rcases lt_or_ge (sInt n x) (sInt n y) with h | h
  · rw [if_pos h, if_neg h.not_ge]
  · rw [if_neg h.not_gt, if_pos h]
/-- Where the model's operation is the table's, nothing is asked of the elements. -/
theorem agreeOn_of_eq {n : Nat} {f g : Nat → Nat → Fr Nat} (h : ∀ x y, g x y = f x y) :
    ∃ P : Fr Nat → Prop, (∀ x < 2 ^ n, P (noFlag x)) ∧ AgreeOn P (combine f) (liftFr g) := by
  obtain rfl : g = f := funext fun x => funext (h x)
  exact ⟨fun _ => True, fun _ _ => trivial, fun _ _ _ _ => ⟨rfl, trivial⟩⟩
/-- Each reduction is the tree of the table's combination. -/
theorem exec_red {i : Instr} {a c : GReg} {b : VReg} {m : MReg} {fp : Bool} {f : VT → Rm → Nat → Nat → Fr Nat}
    (h : redTable i = some (a, b, c, m, fp, f)) :
    ∃ g : VT → Rm → Nat → Nat → Fr Nat, (∀ s, exec i s = instr uV false [.rd c, .wr a] (vred a b c m fp g) s) ∧
      ∀ t rm, 0 < t.sew → ∃ P : Fr Nat → Prop, (∀ x < 2 ^ t.sew, P (noFlag x)) ∧ AgreeOn P (combine (f t rm)) (liftFr (g t rm)) := by
  cases i <;> cases h
  case vredmin.refl =>
    refine ⟨_, fun _ => rfl, fun t rm hn => ⟨fun x => x.v < 2 ^ t.sew, fun _ hx => hx, fun x y hx hy => ⟨?_, ?_⟩⟩⟩
    · exact congrArg (fun v => (⟨v, x.f ||| y.f ||| 0⟩ : Fr Nat)) (minSN_eq hn hx hy)
    · show (if sval t.sew x.v ≤ sval t.sew y.v then x.v else y.v) < 2 ^ t.sew
      split
      · exact hx
      · exact hy
  case vredmax.refl =>
    exact ⟨_, fun _ => rfl, fun t rm hn => agreeOn_of_eq fun x y => congrArg noFlag (maxSN_eq x y hn)⟩
  all_goals exact ⟨_, fun _ => rfl, fun _ _ _ => agreeOn_of_eq fun _ _ => rfl⟩
/-- Up to VL 512 the active elements of the model are those that the rule names (R162). -/
theorem active_eq (s : State) (m : MReg) (hvl : (vtOf s).vl ≤ 512) : active (vtOf s) (maskOf (slotOf s) m) =
    (List.range (vtOf s).vl).filter fun i => m = 0 || (maskOf (slotOf s) m).getLsbD i :=
  List.filter_congr fun i hi => by
    rcases eq_or_ne m 0 with rfl | hm
    · rw [maskOf_zero_getLsbD _ ((List.mem_range.1 hi).trans_le hvl)]
      rfl
    · simp only [hm, decide_false, Bool.false_or]
theorem activeElems_eq (s : State) (b : VReg) (m : MReg) (hvl : (vtOf s).vl ≤ 512) :
    (active (vtOf s) (maskOf (slotOf s) m)).map (fun i => exact (elemOf (vtOf s).sew (groupOf (slotOf s) b.toNat (vtOf s).grp) i)) =
      activeElems s b m := by
  rw [active_eq s m hvl, activeElems]
  simp only [velem_eq]
  rfl

/-- The start operand combined with the tree of the model. -/
def reduced (g : Nat → Nat → Fr Nat) (start : Nat) (l : List (Fr Nat)) : Fr Nat := match treeOf (liftFr g) 9 l with
  | some v => liftFr g (exact start) v
  | none => exact start
/-- That is the result of R27. -/
theorem reduced_eq {P : Fr Nat → Prop} {f g : Nat → Nat → Fr Nat} (h : AgreeOn P (combine f) (liftFr g)) {start : Nat} {l : List (Fr Nat)}
    {r : Fr Nat} (hstart : P (noFlag start)) (hl : ∀ x ∈ l, P x) (hlen : l.length ≤ 512)
    (hr : l = [] ∧ r = noFlag start ∨ ∃ tree, TreeIs (combine f) l tree ∧ r = combine f (noFlag start) tree) : reduced g start l = r := by
  rcases hr with ⟨rfl, rfl⟩ | ⟨tree, htree, rfl⟩
  · rfl
  · obtain ⟨heq, hP⟩ := treeOf_of_treeIs h htree (n := 9) hl hlen
    obtain ⟨hcomb, -⟩ := h _ _ hstart hP
    rw [reduced, heq]
    exact hcomb
/-- A reduction writes that result, extended to a word. -/
theorem vred_run {s s1 s2 : State} {a c : GReg} {b : VReg} {m : MReg} {fp : Bool} {g : VT → Rm → Nat → Nat → Fr Nat} {x : Word} {r : Fr Nat}
    (hv : VOk s) (hfp : (vtOf s).fp = fp) (hvl : (vtOf s).vl ≤ 512) (hb : Fits b (vtOf s).grp) (hc : readG c s = .ok (x, s1))
    (hr : reduced (g (vtOf s) (rmOf (threadOf s).fcsr)) (x.toNat % 2 ^ (vtOf s).sew) (activeElems s b m) = r) (hen : noneEnabled s r.f)
    (hw : writeResult a (if fp then zeroExt (vtOf s).sew r.v else signExt (vtOf s).sew r.v) (flagged s1 r.f) = .ok ((), s2)) :
    vred a b c m fp g s = .ok (.seq, s2) := by
  have hready := vecReady_readG hc
  have hguard : guardD ((vtOf s).fp == fp) 0x002 5 s = .ok ((), s) := by
    rw [hfp, beq_self_eq_true]
    rfl
  have hrm : getRm s1 = .ok (rmOf (threadOf s).fcsr, s1) := by
    rw [← flagsSet_zero.1 hready.flags]
    rfl
  unfold vred
  rw [bind_run (getVt_run hv), bind_run hguard, bind_run (groupCheck_run (List.forall_mem_singleton.2 hb)), bind_run hc,
    bind_run (vGet_run s1 b _), bind_run hrm, bind_run (getSlot_run s1), hready.group, hready.mask, activeElems_eq s b m hvl]
  subst hr
  exact (bind_run (raiseFlags_run (hready.noneEnabled hen))).trans (bind_run hw)

/-- R175, R27: the reductions. -/
theorem vectorReductions_hold : Claim.VectorReductions := by
  intro i a b c m fp f h s s1 s2 x r hp hv hfp hvl hb hc
  dsimp only
  intro hr hen hw
  obtain ⟨g, hexec, hagree⟩ := exec_red h
  obtain ⟨P, hP, hag⟩ := hagree (vtOf s) (rmOf (threadOf s).fcsr) (sew_pos s)
  have hall : ∀ y ∈ activeElems s b m, P y := List.forall_mem_map.2 fun i _ => hP _ (Nat.mod_lt _ (Nat.two_pow_pos _))
  have hlen : (activeElems s b m).length ≤ 512 := by
    rw [activeElems, List.length_map]
    exact (List.length_filter_le _ _).trans (List.length_range.trans_le hvl)
  rw [← signExt_eq _ (sew_pos s)] at hw
  exact (hexec s).trans (instr_ok hp (vred_run hv hfp hvl hb hc (reduced_eq hag (hP _ (Nat.mod_lt _ (Nat.two_pow_pos _))) hall hlen hr) hen hw))

/-- Settles O15: compares and mask logic write one mask by R162, VCPOP and VFIRST look at the bits of the active elements, and the pairs
that the model combines level by level are the tree of R27. -/
theorem vectorMasks : Obligations.VectorMasks := ⟨vectorCompares_hold, vectorMasks_hold, vectorReductions_hold⟩
end Sys2Proof.Machine
